-- ==== Sys2Proof/Word.lean ====
section
/-! DEFINITION. The word types of the block and the type of its sparse tables.
Registers are 32 bits wide (R5); every numbered unit of the package has a finite index type (R9, R10, R36). -/

namespace Sys2Proof

/-- A byte. -/
abbrev Byte := BitVec 8
/-- A register (R5). -/
abbrev Word := BitVec 32

/-- A port p = 0 to 287 (R14). -/
abbrev Port := Fin 288
/-- A strand s = 0 to 3 of a port (R31). -/
abbrev Strand := Fin 4
/-- A virtual channel (R44). -/
abbrev Vc := Fin 8
/-- A fabric die F0 to F3 (R9). -/
abbrev FabDie := Fin 4
/-- A reduction die X0 to X3 (R9). -/
abbrev RedDie := Fin 4
/-- A DRAM stack M0 to M7 (R9). -/
abbrev Stack := Fin 8
/-- An optical engine E0 to E23 (R9). -/
abbrev Engine := Fin 24
/-- A DMA channel (R399). -/
abbrev Chan := Fin 32
/-- A switched power domain (R443). -/
abbrev Dom := Fin 60
/-- A command ring: 0 to 7 the host's, 8 the remote COMMANDs' (R387). -/
abbrev RingId := Fin 9
/-- A context slot (R191). -/
abbrev Slot := BitVec 18
/-- An endpoint or switch identifier (R76). -/
abbrev Ident := BitVec 20
/-- A switch coordinate: tier 15:14, pod 13:8, position 7:0 (R78). -/
abbrev Coord := BitVec 16
/-- A group identifier (R184). -/
abbrev GroupId := BitVec 24
/-- A step number (R194). -/
abbrev StepNo := BitVec 48
/-- A BAR0 offset: 32 MiB (R372). -/
abbrev Off := BitVec 25

/-- A sparse table: pairs of a key and a value, the keys strictly rising, no value equal to the table's default,
so that equal tables are equal lists. -/
abbrev Tbl (α : Type) := List (Nat × α)

end Sys2Proof
end

