-- ==== Sys2Proof/Syntax.lean ====
section
/-! DEFINITION. The commands of the block: ONE inductive, one constructor per row of spec/opcode_table.json, and the
types of their operands. The table gives no operands and no bits; an operand is what the rule of the row says the
outside (or the physics: light, time, a checker) supplies. -/

namespace Sys2Proof

/-- The four access paths of the register space; each has its own read window (R431). -/
inductive Path where
  | pcie | smbus | remote | jtag
deriving DecidableEq, Repr

/-- A management block and its PCIe port: MB0 with PCIe-A, MB1 with PCIe-B (R10). -/
inductive MbId where
  | mb0 | mb1
deriving DecidableEq, Repr

/-- The BAR a PCIe memory request names (R372). -/
inductive Bar where
  | bar0 | bar2
deriving DecidableEq, Repr

/-- One dword of a PCIe memory request: its byte enables and, for a write, its value (R486). -/
structure Dword where
  be : BitVec 4
  val : Word
deriving DecidableEq, Repr

/-- The part of a ring entry that every command shares (R382). -/
structure CmdHdr where
  tag : Word
  intr : Bool
  space : Byte
  stack : Byte
  ep : Ident
  addr : BitVec 64
deriving DecidableEq, Repr

/-- The two copies of the configuration image (R353). -/
inductive ImgCopy where
  | copyA | copyB
deriving DecidableEq, Repr

/-- A record of R116, or an entry run of R357 when kind is 2: index is bytes 4-7 and words are bytes 8-43, nine words. -/
structure RouteRec where
  kind : Byte
  mask : BitVec 4
  index : Word
  words : List Word
deriving DecidableEq, Repr

/-- What the ports section gives one port (R356): breakout and use (R68), wave number (R365), the port table of R60
(an identifier per lowest strand, none where the table has no entry), TIME_ASYM (R350) and LPM_CTL (R71). -/
structure PortCfg where
  enabled : Bool := false
  breakout : BitVec 3 := 0
  d0Only : BitVec 4 := 0
  wave : Option Nat := none
  ids : List (Option Ident) := []
  timeAsym : List Word := []
  darkEn : Bool := false
  idleEn : Bool := false
  idleNs : BitVec 16 := 2000
  vcW0 : Word := 0
  vcW1 : Word := 0
deriving DecidableEq, Repr

/-- The membership records and tunnel pairs of one die (R93, R85). -/
structure PartSect where
  members : List (BitVec 16 × BitVec 288)
  tunnels : List (BitVec 16 × BitVec 16)
deriving DecidableEq, Repr

/-- The classes section (R356): the TC map of R137, MIN and ALPHA and QSCHED by queue key, AGE, VOQ settings, staging
weights of R47 and RED profiles (four words each) by die. -/
structure ClassSect where
  tcQueue : List Nat
  tcVc : List Nat
  minCells : Tbl Nat
  qcfgAlpha : Tbl Nat
  qsched : Tbl Word
  age : List Word
  voqReserve : Nat
  voqCap : Nat
  mirrorFloor : Nat
  staging : List Nat
  redProf : Tbl Word
  qthr : List (Word × Word)
  hashSeed : Word
  rejoinUs : BitVec 24
deriving DecidableEq, Repr

/-- The shapers and policers section: SHAPER word 0 and POLICER words 0 to 2 by queue key (R180, R181). -/
structure ShapeSect where
  shaper : Tbl Word
  policer : Tbl (List Word)
deriving DecidableEq, Repr

/-- The reduction and coppice defaults section: program words (R245), SHARD_BLOCKS (R264), pool counts (R307, R318), quotas (R322). -/
structure RedSect where
  program : List (Nat × Word)
  shardBlocks : Nat
  pool0 : Nat
  pool1 : Nat
  n64 : List Nat
  n256 : List Nat
  n1m : List Nat
  quotas : Tbl Nat
deriving DecidableEq, Repr

/-- The time section (R356). -/
structure TimeSect where
  utcOfs : BitVec 16
  ppsEn : Bool
  tenmEn : Bool
  holdTraceS : BitVec 16
  stepThr : BitVec 16
deriving DecidableEq, Repr

/-- The power section: start-up performance point and WAKE_EN (R356, R454). -/
structure PowerSect where
  point : BitVec 2
  wakeEn : BitVec 3
deriving DecidableEq, Repr

/-- The faults section: OPT_CFG thresholds, CLEAR_CTL, PHASE_LIMIT, event options (R356). -/
structure FaultSect where
  rotThr : Byte
  recalMin : Byte
  clearCtl : Word
  phaseLimitUs : Nat
  persistF : Bool
deriving DecidableEq, Repr

/-- What the sections of an image say. R356 names what each section fills and gives no byte layout, so the decoded
content stands beside the bytes that the CRCs of R355 cover (log entry 6). An absent optional section is none. -/
structure ImageContent where
  ownId : Ident
  coord : Coord
  fabricId : Word
  mgrCoord : Coord
  mgrId : Ident
  sbyCoord : Coord
  sbyId : Ident
  mgrWaitMs : Nat
  ports : Tbl PortCfg
  routes : List (Nat × List RouteRec)
  parts : List (Nat × PartSect)
  classes : ClassSect
  shape : Option ShapeSect
  red : Option RedSect
  time : Option TimeSect
  power : Option PowerSect
  faults : Option FaultSect
deriving DecidableEq, Repr

/-- What the Skarad has read of one copy from the flash on the board: the 128 B header, the directory's bytes, the
bytes of each section in directory order, and the decoded content. -/
structure FlashRead where
  readOk : Bool
  header : List Byte
  dir : List Byte
  sects : List (List Byte)
  content : ImageContent
deriving DecidableEq, Repr

/-- The SFDP findings of R352. -/
structure Sfdp where
  signature : Bool
  densityMiB : Nat
  read8d : Bool
  erase64k : Bool
deriving DecidableEq, Repr

/-- The straps sampled at t = 0 (R361). -/
structure Straps where
  bootSel : BitVec 2
  roleSel : Bool
  addrSel : Bool
deriving DecidableEq, Repr

/-- A registration or withdrawal (R98, R100): isSwitch marks a Skarad's own identifier (R102). -/
structure RegReq where
  id : Ident
  coord : Coord
  port : Nat
  strand : Nat
  isSwitch : Bool
deriving DecidableEq, Repr

/-- The manager's answer to a registration (R99, R78); a refusal as a duplicate names the holder's place (R103). -/
inductive RegAns where
  | accepted
  | duplicate (coord : Coord) (port strand : Nat)
  | full
deriving DecidableEq, Repr

/-- One child of a context (R185): the sub-link, what is at its far end, and the ranks reached through it. -/
structure ChildSpec where
  pos : Nat
  isSwitch : Bool
  id : Ident
  coord : Coord
  ranks : List Nat
deriving DecidableEq, Repr

/-- A context allocation: one switch's part of a descriptor (R184, R187), its height (R202) and the contributor-set
term of R294. upCoord and upPos are the parent's coordinate and the position on the parent (PARENT_POS). -/
structure AllocMsg where
  group : GroupId
  op : Byte
  comb : Byte
  outFmt : BitVec 4
  inFmts : BitVec 16
  mode : Byte
  tc : BitVec 3
  pkey : BitVec 16
  program : BitVec 16
  window : Nat
  timeoutUs : Nat
  paceNs : Nat
  seed : BitVec 64
  leader : Ident
  leaderRank : Nat
  nMembers : Nat
  isRoot : Bool
  upCoord : Coord
  upPos : Nat
  children : List ChildSpec
  height : Nat
  coppice : BitVec 128
  cs : BitVec 128
deriving DecidableEq, Repr

/-- The classes of events (R427). -/
inductive EvClass where
  | h | f
deriving DecidableEq, Repr

/-- The fault classes (R414), with none for an event that is no fault. -/
inductive FaultKind where
  | none | ce | uc | fa
deriving DecidableEq, Repr

/-- An event record (R426), its CRC left to the byte form. detail is DETAIL bytes 0 to 31, trailing zeros dropped. -/
structure Record where
  seq : Word
  code : BitVec 16
  cls : EvClass
  fault : FaultKind
  injected : Bool
  untraceable : Bool
  repeatSat : Bool
  block : Byte
  inst : BitVec 16
  reps : BitVec 16
  stamp : BitVec 80
  source : Coord
  detail : List Byte
deriving DecidableEq, Repr

/-- What the start-up scan of the event region found (R435): the accepted records with their sector and slot, oldest first, the slots discarded
(sector, slot), the sectors already retired and the sector now being filled. -/
structure ScanResult where
  accepted : List (Nat × Nat × Record)
  lost : List (Nat × Nat)
  retired : List Nat
  cur : Nat
deriving DecidableEq, Repr

/-- The phases of a clearing (R117), with revert for R124. -/
inductive ClrPhase where
  | idle | stage | hold | drain | commit | release
deriving DecidableEq, Repr

/-- A clearing phase message from the manager (R124): a phase to run, or a revert. -/
structure PhaseMsg where
  revert : Bool
  phase : ClrPhase
  dieMask : BitVec 4
  tcMask : Byte
  recs : List RouteRec
deriving DecidableEq, Repr

/-- The fields of a TIME flit after KIND (R62); t is the 64-bit ns count and the 16-bit fraction. -/
structure TimeMsg where
  traceable : Bool
  holdover : Bool
  leapPending : Bool
  tseq : BitVec 16
  t : BitVec 80
  utcOfs : BitVec 16
  gm : Coord
  hops : Byte
deriving DecidableEq, Repr

/-- An equaliser result of training: wavelength (1 d0, 2 d1, 3 sp), best code, eye margin in mV (R35, R75). -/
structure EqResult where
  w : BitVec 2
  code : BitVec 5
  margin : Byte
deriving DecidableEq, Repr

/-- One run of a program over one chunk (R248). -/
structure InstId where
  slot : Slot
  step : StepNo
  chunk : BitVec 16
deriving DecidableEq, Repr

/-- The residue checks of a word (R239, R240): of each block named, the lanes of its attempts that mismatched, in order. -/
abbrev Checks := List (Nat × List (Fin 128))

/-- What the controller made of one codeword read (R308): corrected names the memory die when the corrections lie
wholly in one. -/
inductive CwResult where
  | clean | corrected (memDie : Option (Fin 15)) | uncorrectable
deriving DecidableEq, Repr

/-- What SECDED made of one 64-bit SRAM word (R316, R317). -/
inductive SecDed where
  | clean | single | double
deriving DecidableEq, Repr

/-- Where a double-bit SRAM error lies (R317). -/
inductive SramPlace where
  | context (slot : Slot) | poolBuffer (slot : Slot) (step : StepNo) | programStore (addr : BitVec 14) | unallocated
deriving DecidableEq, Repr

/-- How a DMA beat ended on the buses and in the memories (R407): dram and sram say what the controller made of the codeword or word read. -/
inductive BeatResult where
  | ok | hostError | dram (r : CwResult) | sram (r : SecDed) (place : SramPlace)
deriving DecidableEq, Repr

/-- How a reduction die, a stack or an engine was found lost (R419, R312). -/
inductive LossCause where
  | laneCheck | checker | rail | training | secondDie
deriving DecidableEq, Repr

/-- Why a fabric die is fenced (R420). -/
inductive FenceCause where
  | rail | checker | audit
deriving DecidableEq, Repr

/-- The two references and outputs of Canopy (R340, R346). -/
inductive SyncPin where
  | pps | tenM
deriving DecidableEq, Repr

/-- What a laser module answers to a poll (R472, R474): area is the user non-volatile area: none when the module has
none, some 0 when blank. -/
structure LaserReply where
  bias : BitVec 16
  power : BitVec 16
  temp : Byte
  area : Option (BitVec 16)
deriving DecidableEq, Repr

/-- The result of a self-test (R386): tests passed and the first failing test, if any. -/
structure SelfTestResult where
  passed : Word
  failing : Option Word
deriving DecidableEq, Repr

/-- A registration record (R98, R102). -/
structure RegRec where
  coord : Coord
  port : Nat
  strand : Nat
  isSwitch : Bool
deriving DecidableEq, Repr

/-- A switch record of a descriptor (R184). -/
structure SwRec where
  coord : Coord
  parent : Coord
  root : Bool
  parentPos : Nat
deriving DecidableEq, Repr

/-- A group descriptor as sent (R184): header fields, member identifiers in rank order, switch records. -/
structure Desc where
  group : GroupId
  op : Byte
  comb : Byte
  outFmt : Byte
  inFmts : BitVec 16
  mode : Byte
  tc : Byte
  pkey : BitVec 16
  program : BitVec 16
  window : Nat
  timeoutUs : Nat
  paceNs : Nat
  seed : BitVec 64
  leader : Word
  root : Coord
  nMembers : Nat
  nSwitches : Nat
  coppice : BitVec 128
  members : List Ident
  switches : List SwRec
  zerosOk : Bool
  lengthOk : Bool
deriving DecidableEq, Repr

/-- A switch's answer to an allocation (R187, R247, R302). -/
structure AllocAns where
  coord : Coord
  status : Byte
  crc : Word
  point : BitVec 2
  vcw : List Word
deriving DecidableEq, Repr

/-- A group in the manager's registry (R186 to R190). live: committed; otherwise its allocations are out. -/
structure GroupRec where
  desc : Desc
  live : Bool
  answers : List AllocAns
  ring : Option Nat
deriving DecidableEq, Repr

/-- A fabric-wide route change (R124): phase in progress, workers still to acknowledge, workers reverted, the change. -/
structure FabChange where
  phase : ClrPhase
  workers : List Coord
  waiting : List Coord
  begun : Bool
  reverting : Bool
  dieMask : BitVec 4
  tcMask : Byte
  recs : List RouteRec
  ring : Option Nat
deriving DecidableEq, Repr

/-- What a heartbeat of the manager carries (R369): the registries after the changes, groups and a fabric change included (R125). -/
structure MgrMirror where
  reg : Tbl (Option RegRec)
  groups : Tbl (Option GroupRec)
  change : Option FabChange
deriving DecidableEq, Repr

/-- The commands of the block, one constructor per row of spec/opcode_table.json in the table's order. -/
inductive Instr where
  -- registers and the management interface (chapters 0, 15)
  | registerWrite (path : Path) (off : Off) (val : Word)
  | rcCounterRead (path : Path) (off : Off) (upd : Word)
  | pcieConfigRequest (port : MbId) (write : Bool) (reg : BitVec 12) (val : Word)
  | pcieMemoryRequest (port : MbId) (bar : Bar) (write : Bool) (off : Off) (dws : List Dword)
  | sqTail (r : Fin 8) (tail : BitVec 12)
  | cqHead (r : Fin 8) (head : BitVec 12)
  | abort (r : Fin 8) (tag : Word)
  | commandStepTurn
  | nop (r : RingId) (h : CmdHdr)
  | clear (r : RingId) (h : CmdHdr) (count : Word) (dieMask : BitVec 4) (tcMask : Byte) (fabric : Bool)
  | drainMarkerReached (p : Port) (s : Strand) (q : Fin 8)
  | drainLimitTimeout
  | groupCreate (r : RingId) (h : CmdHdr) (len : BitVec 16) (last : Bool) (ofs : Word)
  | groupDelete (r : RingId) (h : CmdHdr) (group : GroupId)
  | groupStop (r : RingId) (h : CmdHdr) (group : GroupId) (step : StepNo)
  | groupResume (r : RingId) (h : CmdHdr) (group : GroupId)
  | shardLoad (r : RingId) (h : CmdHdr) (die : Byte) (first : Word) (count : Word)
  | shardSave (r : RingId) (h : CmdHdr) (die : Byte) (first : Word) (count : Word)
  | scrubPass (r : RingId) (h : CmdHdr) (stack : Byte)
  | selfTest (r : RingId) (h : CmdHdr) (cls : Byte) (unit : Byte)
  | windthrow (r : RingId) (h : CmdHdr)
  | windthrowFreeze
  | portRetrain (r : RingId) (h : CmdHdr) (port : BitVec 16) (mask : BitVec 4)
  | imageUpdate (r : RingId) (h : CmdHdr) (copy : Byte) (len : Word)
  | regRead (r : RingId) (h : CmdHdr) (off : Word)
  | regWrite (r : RingId) (h : CmdHdr) (off : Word) (val : Word)
  | setAddr (target : BitVec 7) (addr : Word) (pecOk : Bool)
  | read (target : BitVec 7) (pecOk : Bool)
  | write (target : BitVec 7) (val : Word) (pecOk : Bool)
  | status (target : BitVec 7) (pecOk : Bool)
  | sstepGo
  | busMasterEnableClear
  | busMasterEnableSet
  | functionLevelReset
  | command (src : Ident) (entry : BitVec 512)
  | completion (comp : BitVec 128)
  | unlock (level : Byte) (sig : BitVec 768)
  | bypass
  | idcode
  | ieee1149Instruction (ir : BitVec 16)
  -- the fabric link (chapter 2)
  | controlSlotSend (p : Port) (s : Strand)
  | controlSlotReceived (p : Port) (s : Strand) (slot : BitVec 2048)
  | flitTransmit (p : Port) (s : Strand)
  | flitReceived (p : Port) (s : Strand) (flit : BitVec 2048) (errs : List (Fin 544)) (again : Bool)
  | ackDeadlineMiss (p : Port) (s : Strand)
  | cLossTimeout (p : Port) (s : Strand)
  | rotationRequest (p : Port) (s : Strand) (lane : Fin 2) (alignLost : Bool)
  | ringRecalibrationSchedule (p : Port) (s : Strand) (lane : Fin 2)
  | ringRecalibrationDone (p : Port) (s : Strand) (lane : Fin 2) (ok : Bool)
  | cDetected (p : Port) (s : Strand)
  | trainingStepDone (p : Port) (s : Strand) (eq : List EqResult)
  | trainingStepTimeout (p : Port) (s : Strand)
  | ts1 (p : Port) (s : Strand) (ptype : Byte) (strand : Byte) (breakout : Byte) (spUsable : Byte)
  | ts2 (p : Port) (s : Strand) (credits : List (BitVec 16)) (depth : BitVec 16) (version : Byte)
  | assignAck (p : Port) (s : Strand) (echo : BitVec 64)
  | coord (p : Port) (s : Strand) (peer : Coord) (pport : BitVec 9) (pstrand : BitVec 2) (fabricId : Word)
  | ready (p : Port) (s : Strand) (state : Byte)
  | refuse (p : Port) (s : Strand) (reason : Byte)
  | downRetry (p : Port) (s : Strand)
  | portWaveBegin (w : Fin 12)
  | idleEntry (p : Port) (s : Strand)
  | idleExit (p : Port) (s : Strand)
  | requestDoze (p : Port)
  | requestDark (p : Port)
  | wake (p : Port)
  | wakePatternDetected (p : Port) (s : Strand) (periods : Nat)
  | dozeLightWake (p : Port) (s : Strand)
  -- time flits and Canopy (chapters 2, 13)
  | syncSend (p : Port) (s : Strand)
  | announceSend (p : Port) (s : Strand)
  | delayReqSend
  | delayReq (p : Port) (s : Strand) (m : TimeMsg)
  | sync (p : Port) (s : Strand) (m : TimeMsg)
  | delayResp (p : Port) (s : Strand) (m : TimeMsg)
  | announce (p : Port) (s : Strand) (m : TimeMsg) (leap : Option (Word × BitVec 16))
  | upstreamLost
  | holdoverTraceExpiry
  | holdoverExit
  -- registration (chapter 3)
  -- the registrations and the withdrawals that reach the manager in one arbitration (R98, R100)
  | registrationRequest (qs ws : List RegReq)
  | registrationAnswer (p : Port) (s : Strand) (a : RegAns)
  | registrationResend (p : Port) (s : Strand)
  | withdrawal (ws : List RegReq)
  -- packets, routing, the Glade and scheduling (chapters 3 to 6)
  | packetHeadArrival (p : Port) (s : Strand) (vc : Vc)
  | packetTailArrival (p : Port) (s : Strand) (vc : Vc)
  | gladeAdmission (d : FabDie)
  | losslessAdmit (d : FabDie)
  | multicastAdmission (d : FabDie)
  | bridgeCreditReturn (src : Fin 8) (dst : Fin 8) (vc : Vc)
  | vcGrant (p : Port) (s : Strand)
  | queueGrant (p : Port) (s : Strand) (vc : Vc)
  | ageSweep (p : Port) (s : Strand) (q : Fin 8)
  | shaperCreditZero (p : Port) (s : Strand) (q : Fin 8)
  | depthSample (d : FabDie)
  | rejoin (p : Port) (s : Strand)
  | reducerMatchingRound (d : FabDie)
  | fabricPhaseMessage (m : PhaseMsg)
  | phaseAck (worker : Coord) (phase : ClrPhase)
  | phaseLimitTimeout (worker : Coord)
  | clearRevert
  | rtWinCtlWrite (val : Word)
  | rtWinDataWrite (k : Fin 12) (val : Word)
  | auditSnap (d : FabDie)
  | shaperWrite (d : FabDie) (i : Fin 2304) (val : Word)
  | policerWrite (d : FabDie) (j : Fin 2304) (k : Fin 3) (val : Word)
  | histClr (d : FabDie) (h : Fin 64)
  | histQueueChange (d : FabDie) (h : Fin 64) (q : BitVec 12)
  -- groups and steps (chapter 7)
  | contextAllocation (a : AllocMsg)
  | allocationAnswer (group : GroupId) (sw : Coord) (status : Byte) (crc : Word) (point : BitVec 2) (vcw : List Word)
  | allocationTimeout (group : GroupId)
  | commit (group : GroupId) (lapsed : Bool)
  | release (group : GroupId)
  | reservationExpiry (slot : Slot)
  | stepStart (x : RedDie)
  | rootStepOpen (slot : Slot)
  | stepOpen (x : RedDie)
  | window (x : RedDie)
  | stepEnd (x : RedDie)
  | stop (x : RedDie)
  | fail (x : RedDie)
  | chunkContribution (x : RedDie)
  | resultPassDown (x : RedDie)
  | stepTimerExpiry (slot : Slot)
  | emitGrant (i : InstId)
  | fanGrant (i : InstId)
  | reductionDieLost (x : RedDie) (cause : LossCause)
  | rehomeDone (x : RedDie)
  -- program words (chapter 9)
  | nopInstruction (i : InstId)
  | waitComplete (i : InstId)
  | waitPrev (i : InstId)
  | waitRelease (i : InstId)
  | acc (i : InstId) (chk : Checks)
  | accx (i : InstId) (chk : Checks)
  | scl (i : InstId) (chk : Checks)
  | cast (i : InstId) (chk : Checks)
  | emit (i : InstId)
  | fan (i : InstId)
  | lds (i : InstId)
  | ldsComplete (i : InstId) (cw : List (Nat × CwResult))
  | sts (i : InstId)
  | stsComplete (i : InstId)
  | upd (i : InstId) (chk : Checks)
  | norm (i : InstId) (chk : Checks)
  | dig (i : InstId)
  | bar (i : InstId)
  | seed (i : InstId)
  | endWord (i : InstId)
  | programStoreWrite (a : BitVec 14) (w : Word)
  | pstepEnWrite (x : RedDie) (val : Word)
  | pstepGo (x : RedDie)
  -- coppice and pacing (chapters 10, 11)
  | twinWrite (x : RedDie)
  | groupReroot (group : GroupId) (height : Nat)
  | paceInstant (slot : Slot)
  | stepEndRelease (slot : Slot) (step : StepNo)
  | paceLapseTemperature (die : Fin 8) (temp : Byte)
  -- memory and buffer pools (chapter 12)
  | dieMarked (m : Stack) (memDie : Fin 15)
  | rowSpare (m : Stack) (row : Nat) (corrected : Nat) (previous : Bool)
  | rowSpareDone (m : Stack) (row : Nat)
  | patrolScrubSlot (m : Stack) (r : CwResult) (contended : Option Nat)
  | scrubLate (m : Stack)
  | sramScrub (x : RedDie) (ofs : BitVec 29) (r : SecDed) (place : SramPlace)
  | stackLost (m : Stack) (cause : LossCause)
  | ringRebuilt (k : Fin 11)
  | poolRequest (q : Fin 52) (need : Nat)
  | poolFree (q : Fin 52) (pool : Fin 5) (idx : BitVec 14)
  | cacheRefill (k : Fin 11) (r : CwResult)
  | cacheWriteback (k : Fin 11)
  | bpmSnap
  -- time (chapter 13)
  | timeSetApply
  | ppsEdge
  | syncInLost (pin : SyncPin)
  | syncInRestored (pin : SyncPin)
  | leapTakeEffect
  | syncOutEdge (pin : SyncPin) (matched : Bool)
  | rearm
  | nowLoRead (path : Path)
  -- start-up (chapter 14)
  | resetRelease (straps : Straps) (railsOk : Bool) (mb0Up : Bool) (mb1Up : Bool)
  | flashDiscoveryDone (f : Sfdp)
  | imageCopyCheck (c : ImgCopy) (f : FlashRead) (other : FlashRead)
  | overrideWindowClose
  | startHoldTimeout
  | coordOvrWrite (path : Path) (val : Word)
  | startHoldClear
  | managerHeartbeatSend
  | managerHeartbeat (sender : Coord) (senderId : Ident) (m : MgrMirror)
  | managerAssumed
  | devReset (key : Byte)
  -- the DMA engine (chapter 16)
  | go (c : Chan)
  | stopChannel (c : Chan)
  | dmaStagingGrant (c : Chan)
  | dmaBeat (res : BeatResult)
  | dmaElementDone (c : Chan)
  | rdResp (c : Chan) (seq : Word) (status : Byte) (data : List Byte)
  | wrAck (c : Chan) (seq : Word) (status : Byte)
  | remoteResponseTimeout (c : Chan) (seq : Word)
  -- faults, redundancy and events (chapter 17)
  | fatalCause (cause : BitVec 3)
  | thermtrip (die : Fin 8)
  | supplyFault
  | mbTakeover
  | mirrorHeartbeatSend
  | standbyLost
  | dieFenced (d : FabDie) (cause : FenceCause)
  | laserLost (e : Engine) (j : Fin 2)
  | engineLost (e : Engine)
  | arm (val : Word)
  | disarm
  | injKey (key : Byte)
  | eventForward (rec : Record)
  | rdSeq (path : Path) (seq : Word)
  | evrClear (path : Path) (key : Byte)
  | clearFlash (path : Path) (key : Byte)
  | recordProgramDone (ok : Bool)
  | sectorErase
  | sectorEraseDone (ok : Bool)
  | eventRegionScanDone (scan : ScanResult)
  | opTime
  -- power (chapter 18)
  | requestRun
  | requestQuiet
  | requestHold
  | voteTimeout (k : Dom)
  | domainStop (k : Dom)
  | wantOff (k : Dom) (off : Bool)
  | wakeSource (bit : Fin 3)
  | pointWrite (pt : BitVec 2)
  | rampEnd
  -- debug (chapter 19)
  | cntClear (key : Byte)
  | freeze (on : Bool)
  | byteCounterRead (path : Path) (off : Off)
  | resLoRead (path : Path) (k : Fin 4)
  | traceEvent (b : Fin 10) (point : Byte) (key : BitVec 24) (fields : List Byte) (again : Bool)
  | drainGo (b : Fin 10)
  | dbgAuditSnap
  -- package and power, last rows of the table
  | laserModulePoll (e : Engine) (j : Fin 2) (reply : Option LaserReply)
  | resetAsserted (pwrok : Bool)
  | vaux3v3Loss
  | domainVoteAnswer (k : Dom)
  | returnToRun
  | shardLostReport (group : GroupId)
deriving DecidableEq, Repr

end Sys2Proof
end

