-- ==== Sys2Proof/Config.lean ====
section
/-! DEFINITION. What the spec leaves open: opaque constants that nothing in Lean can evaluate. -/

namespace Sys2Proof.Config

/-- The free values the step draws, by the count of values drawn so far (log entry 2). -/
opaque freeBits : Nat → BitVec 64

/-- The signature check of R358 over an image's bytes before its signature section, given the section's 193 bytes: ECDSA P-384
over SHA-384 is named by the spec and not defined by it (log entry 3). -/
opaque imageSignatureOk : List Byte → List Byte → Bool

/-- SHA-384 as R358 uses it (log entry 3). -/
opaque sha384 : List Byte → BitVec 384

/-- The token check of R395: level, NONCE, FABRIC_ID, r and s, the fused key hash (log entry 3). -/
opaque tokenOk : Byte → BitVec 128 → Word → BitVec 768 → BitVec 384 → Bool

/-- Whether the Skarad at a coordinate of the fabric is an SK-2X: R186 has the manager know it and no rule says how (log entry 31). -/
opaque sk2xAt : Coord → Bool

/-- The last unit of the reciprocal square root, which R278 bounds and does not fix, by the operand's mantissa (log entry 14). -/
opaque rsqrtAdj : Nat → Nat

/-- The DRAM row that a byte offset of a stack lies in: R311 counts rows and no rule lays them out (log entry 69). -/
opaque rowOf : Nat → Nat

end Sys2Proof.Config
end

