-- ==== Sys2Proof/Machine/Bits.lean ====
section
/-! DEFINITION. Bit fields, byte orders, sparse tables and saturating counts, used by every family. -/

namespace Sys2Proof.Machine

/-- The value a sparse table holds at a key; d where the key is not listed. -/
def tget {α : Type} (d : α) : Tbl α → Nat → α
  | [], _ => d
  | (k', v) :: r, k => if k' = k then v else tget d r k

/-- Enter a value under a key of a sparse table, in the place its key gives it. -/
def tput {α : Type} : Tbl α → Nat → α → Tbl α
  | [], k, v => [(k, v)]
  | (k', v') :: r, k, v =>
    if k < k' then (k, v) :: (k', v') :: r else if k' = k then (k, v) :: r else (k', v') :: tput r k v

/-- Take a key out of a sparse table. -/
def tdel {α : Type} : Tbl α → Nat → Tbl α
  | [], _ => []
  | (k', v') :: r, k => if k' = k then tdel r k else (k', v') :: tdel r k

/-- Write a key of a sparse table, keeping its canonical form: the default leaves no entry. -/
def tset {α : Type} [DecidableEq α] (d : α) (t : Tbl α) (k : Nat) (v : α) : Tbl α :=
  if v = d then tdel t k else tput t k v

/-- Change the value at a key. -/
def tmod {α : Type} [DecidableEq α] (d : α) (t : Tbl α) (k : Nat) (f : α → α) : Tbl α :=
  tset d t k (f (tget d t k))

/-- The canonical form of a sparse table: keys strictly rising above lo, no value equal to the default. -/
def tblOk {α : Type} [DecidableEq α] (d : α) : Nat → Tbl α → Bool
  | _, [] => true
  | lo, (k, v) :: r => decide (lo ≤ k) && decide (v ≠ d) && tblOk d (k + 1) r

/-- Bytes of a sparse memory from an address; a byte nothing has written reads 0 (log entry 7). -/
def rdBytes (t : Tbl Byte) (a n : Nat) : List Byte := (List.range n).map fun i => tget 0 t (a + i)

/-- Write bytes to a sparse memory from an address up. -/
def wrBytes (t : Tbl Byte) (a : Nat) : List Byte → Tbl Byte
  | [] => t
  | b :: r => wrBytes (tset 0 t a b) (a + 1) r

/-- The field of len bits from bit lo, as a number. -/
def fld {n : Nat} (w : BitVec n) (lo len : Nat) : Nat := (w.extractLsb' lo len).toNat

/-- The word with the field of len bits from bit lo replaced. -/
def setFld {n : Nat} (w : BitVec n) (lo len v : Nat) : BitVec n :=
  (w &&& ~~~((BitVec.ofNat n (2 ^ len - 1)) <<< lo)) ||| ((BitVec.ofNat n (v % 2 ^ len)) <<< lo)

/-- Bit i of a word. -/
def bitOf {n : Nat} (w : BitVec n) (i : Nat) : Bool := w.getLsbD i

/-- The word with bit i set to b. -/
def setBit {n : Nat} (w : BitVec n) (i : Nat) (b : Bool) : BitVec n := setFld w i 1 (if b then 1 else 0)

/-- A Bool as a bit of a word. -/
def b2n (b : Bool) : Nat := if b then 1 else 0

/-- A register word from the place and the value of each field. -/
def regWord (fs : List (Nat × Nat)) : Word := BitVec.ofNat 32 (fs.foldl (fun a f => a + f.2 * 2 ^ f.1) 0)

/-- Bytes of a number, least significant first. -/
def bytesLE : Nat → Nat → List Byte
  | 0, _ => []
  | n + 1, v => BitVec.ofNat 8 v :: bytesLE n (v / 256)

/-- Bytes of a number, most significant first. -/
def bytesBE (n v : Nat) : List Byte := (bytesLE n v).reverse

/-- The number that bytes spell, least significant first. -/
def natLE : List Byte → Nat
  | [] => 0
  | b :: r => b.toNat + 256 * natLE r

/-- The number that bytes spell, most significant first. -/
def natBE (l : List Byte) : Nat := natLE l.reverse

/-- A part of a byte list, zero past its end. -/
def sub (l : List Byte) (ofs len : Nat) : List Byte :=
  let p := (l.drop ofs).take len
  p ++ List.replicate (len - p.length) 0

/-- Byte n of a list, zero past its end. -/
def byteAt (l : List Byte) (n : Nat) : Byte := l.getD n 0

/-- Little-endian field of a byte list. -/
def le (l : List Byte) (ofs len : Nat) : Nat := natLE (sub l ofs len)

/-- Big-endian field of a byte list. -/
def be (l : List Byte) (ofs len : Nat) : Nat := natBE (sub l ofs len)

/-- The list with bytes replaced from an offset on, extended with zeros to reach it. -/
def patch (l : List Byte) (ofs : Nat) (bs : List Byte) : List Byte :=
  sub l 0 ofs ++ bs ++ l.drop (ofs + bs.length)

/-- A list without its trailing zeros (the short form of a DETAIL or a TRAIN field). -/
def trimZ (l : List Byte) : List Byte := (l.reverse.dropWhile (· = 0)).reverse

/-- A 32-bit count raised by n, saturating (R72 and the other counter tables). -/
def satAdd (w : Word) (n : Nat) : Word := BitVec.ofNat 32 (min (w.toNat + n) 0xFFFFFFFF)

/-- A 16-bit count raised by n, saturating. -/
def satAdd16 (w : BitVec 16) (n : Nat) : BitVec 16 := BitVec.ofNat 16 (min (w.toNat + n) 0xFFFF)

/-- A counter of a counter table raised by n. -/
def bump (t : Tbl Word) (ofs n : Nat) : Tbl Word := tset 0 t ofs (satAdd (tget 0 t ofs) n)

/-- Quotient rounded up. -/
def cdiv (a b : Nat) : Nat := (a + b - 1) / b

/-- The number of set bits among the low n. -/
def popc {n : Nat} (w : BitVec n) : Nat := (List.range n).foldl (fun a i => a + b2n (w.getLsbD i)) 0

/-- The positions of the set bits, lowest first. -/
def bitsOf {n : Nat} (w : BitVec n) : List Nat := (List.range n).filter (fun i => w.getLsbD i)

/-- The word whose set bits are listed. -/
def maskOf (n : Nat) (l : List Nat) : BitVec n := l.foldl (fun a i => setBit a i true) 0

/-- Remove the first element equal to x. -/
def dropFirst {α : Type} [DecidableEq α] (x : α) : List α → List α
  | [] => []
  | y :: r => if y = x then r else y :: dropFirst x r

/-- Add x at the end unless the list has it. -/
def addNew {α : Type} [DecidableEq α] (l : List α) (x : α) : List α := if x ∈ l then l else l ++ [x]

/-- The list with repeats removed, first places kept. -/
def uniq {α : Type} [DecidableEq α] (l : List α) : List α := l.foldl addNew []

/-- Insert a number into a rising list without repeats. -/
def insNat (x : Nat) : List Nat → List Nat
  | [] => [x]
  | y :: r => if x < y then x :: y :: r else if x = y then y :: r else y :: insNat x r

/-- The element with the least key, the first on ties. -/
def leastBy {α : Type} (f : α → Nat) : List α → Option α
  | [] => none
  | x :: r => match leastBy f r with
    | none => some x
    | some y => if f y < f x then some y else some x

/-- A list in rising order of a key; elements of one key keep their order. -/
def sortBy {α : Type} (f : α → Nat) : List α → List α
  | [] => []
  | x :: r => putBy x (sortBy f r)
where putBy (x : α) : List α → List α
  | [] => [x]
  | y :: r => if f y < f x then y :: putBy x r else x :: y :: r

/-- A value clamped to a range (R130, R161). -/
def clamp (lo hi n : Nat) : Nat := max lo (min hi n)

/-- a is at or after b modulo 2^n (R50, R465). -/
def seqGe {n : Nat} (a b : BitVec n) : Bool := decide ((a - b).toNat < 2 ^ (n - 1))

/-- One step of a CRC with the polynomial poly, no reflection, over one bit (R41). -/
def crcBit {n : Nat} (poly : BitVec n) (c : BitVec n) (b : Bool) : BitVec n :=
  if c.getLsbD (n - 1) != b then (c <<< 1) ^^^ poly else c <<< 1

/-- A byte into a CRC, most significant bit first. -/
def crcByte {n : Nat} (poly : BitVec n) (c : BitVec n) (b : Byte) : BitVec n :=
  [7, 6, 5, 4, 3, 2, 1, 0].foldl (fun a i => crcBit poly a (b.getLsbD i)) c

/-- CRC-64 of R41: polynomial 0x42F0_E1EB_A9EA_3693, initial value and final XOR all ones. -/
def crc64 (l : List Byte) : BitVec 64 :=
  ~~~(l.foldl (crcByte 0x42F0E1EBA9EA3693#64) (BitVec.allOnes 64))

/-- One byte of a reflected CRC-32. -/
def crc32Byte (poly : Word) (c : Word) (b : Byte) : Word :=
  (List.range 8).foldl (fun a _ => if a.getLsbD 0 then (a >>> 1) ^^^ poly else a >>> 1) (c ^^^ b.setWidth 32)

/-- CRC-32C, Castagnoli (R8): the reflected form, polynomial 0x1EDC_6F41, initial value and final XOR all ones (log entry 4). -/
def crc32c (l : List Byte) : Word :=
  ~~~(l.foldl (crc32Byte 0x82F63B78#32) (BitVec.allOnes 32))

end Sys2Proof.Machine
end

