-- ==== Sys2Proof/Machine/State.lean ====
section
/-! DEFINITION. The state of the block as plain data: every register, table, queue, counter and mode the spec gives it,
and the queue of waiting commands. Counters that are 32-bit, RC and saturating stand in one sparse table per register
block, keyed by their byte offset in the block (cnt fields). -/

namespace Sys2Proof.Machine

/-- The link states of R69. -/
inductive LinkSt where
  | down | dark | clock | eq | align | config | assign | register | active | idle | doze | quarantine
deriving DecidableEq, Repr

/-- DOWN_REASON (R69). -/
inductive DownReason where
  | none | noLight | trainTimeout | breakout | refused | allRetired | fault | quarantine | dieFenced | disabled
deriving DecidableEq, Repr

/-- The light a transmitter sends on a strand (R65, R416): nothing, c below −20 dBm (Doze), c alone with the lanes in electrical
idle (Idle), or full light. -/
inductive Light where
  | dark | dim | cOnly | full
deriving DecidableEq, Repr

/-- One strand of a port (R69, R52, R55, R58). -/
structure StrandSt where
  st : LinkSt := .down
  reason : DownReason := .none
  /-- wavelength carrying d0 and d1 (WL_MAP): 1 d0, 2 d1, 3 sp. -/
  wl0 : BitVec 2 := 0
  wl1 : BitVec 2 := 0
  retired : Bool := false
  /-- the retraining command has restored the strand, so RETIRED may be cleared (R69). -/
  restored : Bool := false
  /-- retired and not brought back: out of service (R54). -/
  outOfUse : Bool := false
  cLost : Bool := false
  restarts : BitVec 16 := 0
  /-- restarts in a row (R58) and consecutive deadline misses (R52). -/
  row : Nat := 0
  misses : Nat := 0
  /-- the acknowledgement deadlines of this strand (R52), oldest first: SEQ of the flit and the clock of its last transmission. -/
  due : List (BitVec 24 × Nat) := []
  /-- wavelengths received cleanly (HEALTH of R40): bit 1 d0, bit 2 d1, bit 3 sp. -/
  clean : BitVec 4 := 0
  /-- symbols corrected on the lanes d0 and d1 in the 10 µs window of that number (R38, R74). -/
  corrWin : Nat := 0
  corr0 : Nat := 0
  corr1 : Nat := 0
  /-- named by the retraining command and training alone (R54). -/
  alone : Bool := false
  /-- wavelengths released for good: bit 1 d0, bit 2 d1, bit 3 sp (R55, R56). -/
  released : BitVec 4 := 0
  /-- the rotation in progress: the lane whose data wavelength is being replaced (R52, R55). -/
  rotating : Option (Fin 2) := none
  /-- how far the rotation is (R55): 0 its request is still to be sent, 1 sent, 2 the partner's next control slot has come. -/
  rotStage : Nat := 0
  /-- the lane under recalibration, its data on sp (R56). -/
  recal : Option (Fin 2) := none
  /-- the rotation request now sent on this strand in ROT (R40). -/
  rot : Byte := 0
  /-- clock of the last recalibration of d0 and d1 (RECAL_MIN of R74). -/
  recalAt0 : Nat := 0
  recalAt1 : Nat := 0
  light : Light := .dark
deriving DecidableEq, Repr

/-- A flit on a link: header fields of R42 and the 232 payload bytes; sentAt is the clock of its last transmission. -/
structure Flit where
  seq : BitVec 24
  vc : Nat
  typ : BitVec 3
  len : Nat
  poison : Bool
  replay : Bool
  data : List Byte
  sentAt : Nat
  /-- the output queue and the packet that a flit waiting to leave belongs to; none for one received or formed by the link. -/
  src : Option (Nat × Nat) := none
deriving DecidableEq, Repr

/-- A received ANNOUNCE (R335, R62). -/
structure Ann where
  gm : Coord
  hops : Byte
  traceable : Bool
  holdover : Bool
  leap : Bool
  utcOfs : BitVec 16
deriving DecidableEq, Repr

/-- A sub-link p.s, keyed by the position of its lowest strand (R36): link layer, training, assignment, time. -/
structure SubLink where
  st : LinkSt := .down
  reason : DownReason := .none
  /-- quarantine held under R101. -/
  quar : Bool := false
  /-- what the partner said in training (R59). -/
  partnerSwitch : Bool := false
  partnerBreakout : Option Byte := none
  partnerSp : Bool := false
  partnerDepth : BitVec 16 := 0
  partnerVersion : Option Byte := none
  partnerReady : Byte := 0
  assignTries : Nat := 0
  /-- the TRAIN field now sent (R40, R59), bytes 36 up of the control slot, trailing zeros dropped. -/
  train : List Byte := []
  /-- SL_ASSIGN and SL_PEER (R70); peerPos is the partner's port and strand from COORD. -/
  valid : Bool := false
  peerSwitch : Bool := false
  ident : Ident := 0
  peer : Coord := 0
  peerPos : Nat := 0
  /-- transmit side (R46, R50). -/
  txSeq : BitVec 24 := 0
  replay : List Flit := []
  resend : List Flit := []
  txq : List Flit := []
  credHeld : Tbl Nat := []
  credSeen : Tbl (BitVec 16) := []
  /-- receive side (R46, R49). -/
  rxSeq : BitVec 24 := 0
  nakFor : Option (BitVec 24) := none
  nakAt : Nat := 0
  nakPend : Bool := false
  rxq : List Flit := []
  occ : Tbl Nat := []
  freed : Tbl (BitVec 16) := []
  /-- CRED as last sent (R40, R65). -/
  credSent : Tbl (BitVec 16) := []
  adv : Tbl Nat := []
  /-- framing per VC (R43): 0 no packet open, 1 open, 2 being discarded up to its TAIL, 3 discarded after a breach with the
  rest of a broken-in packet. -/
  framing : Tbl Nat := []
  /-- control slots (R40). -/
  csc : BitVec 16 := 0
  cscRx : Option (BitVec 16) := none
  peerHealth : BitVec 16 := 0
  peerRet : BitVec 8 := 0
  /-- low power (R65): the direction transmitted is in Idle; the state asked for in STATE; the partner's last STATE. -/
  idleTx : Bool := false
  /-- clock since which the replay buffer is empty and no credit return pends, and clock of the entry into Idle (R65, R66). -/
  emptyAt : Nat := 0
  idleAt : Nat := 0
  lpWant : Option LinkSt := none
  peerSt : Byte := 0
  /-- R113: clock since which the sub-link is a live member, and whether it has joined ordered choice. -/
  liveSince : Option Nat := none
  joined : Bool := false
  /-- Canopy (R62, R335, R342). -/
  syncSeq : BitVec 16 := 0
  annSeq : BitVec 16 := 0
  reqSeq : BitVec 16 := 0
  ann : Option Ann := none
  syncT1 : BitVec 80 := 0
  syncT2 : BitVec 80 := 0
  reqT3 : BitVec 80 := 0
  lastSync : Nat := 0
  /-- a registration sent and not yet answered (R61, R103). -/
  regPending : Bool := false
  /-- clock of the last registration request (R103). -/
  regAt : Nat := 0
deriving DecidableEq, Repr

/-- The registers and counters of a port that are not per strand (R68, R71, R72, R104, R177, R350). -/
structure PortSt where
  enabled : Bool := false
  breakout : BitVec 3 := 0
  d0Only : BitVec 4 := 0
  /-- the port's wave has begun (R57, R365). -/
  begun : Bool := false
  wave : Nat := 0
  lpReq : BitVec 2 := 0
  darkEn : Bool := false
  idleEn : Bool := false
  idleNs : BitVec 16 := 2000
  vcW0 : Word := 0
  vcW1 : Word := 0
  asym : Tbl Word := []
  cnt : Tbl Word := []
deriving DecidableEq, Repr

/-- A laser module's registers (R484) with the run of NACKs (R472) and the events already logged (R474). -/
structure Laser where
  present : Bool := false
  en : Bool := true
  /-- found to deliver no light since the last reset (R30, R419). -/
  lost : Bool := false
  ageing : Bool := false
  baseSet : Bool := false
  biasRef : BitVec 16 := 0
  bias : BitVec 16 := 0
  power : BitVec 16 := 0
  temp : Byte := 0
  nacks : Word := 0
  nackRun : Nat := 0
  /-- the bias of the last ten polls, a second of them, newest first. -/
  hist : List (BitVec 16) := []
  locked : Bool := false
  ageLogged : Bool := false
deriving DecidableEq, Repr

/-- An optical engine (R74, R75, R484). -/
structure OptSt where
  rotThr : Byte := 0
  recalMin : Byte := 0
  /-- EQ[k] (R75). -/
  eq : Tbl Word := []
  lsrA : Laser := {}
  lsrB : Laser := {}
deriving DecidableEq, Repr

/-- A packet observed by a session of a die (R153): session, position, direction, dropped, low 48 bits of fabric time in ns; the session's
words 0 and 2 at the observation (R155), and the packet's bytes as far as they have arrived. -/
structure Obs where
  sess : Nat
  pos : Nat
  dir : Nat
  dropped : Bool
  t : Nat
  ctl : Word
  dst : Word
  bytes : List Byte
deriving DecidableEq, Repr

/-- A packet in the Skarad. The base header, the extensions and the payload are the packet's own bits (R79, R83). -/
structure Pkt where
  hdr : BitVec 256
  exts : List (BitVec 128)
  body : List Byte
  /-- the ingress position 4p + s, none for a packet the Skarad originates. -/
  pos : Option Nat
  vc : Nat
  /-- fabric time less its steps, in ns, at which the HEAD arrived (R151, R334). -/
  stamp : Nat
  /-- total length as it arrived (R88); a tunnel taken off at egress does not change it. -/
  rxTotal : Nat := 0
  tailIn : Bool
  poison : Bool
  /-- some flit of the packet has left the Skarad (R90, R91). -/
  begun : Bool
  /-- flits received so far, and of them the flits still in ingress staging. -/
  flits : Nat
  stag : Nat
  /-- cells the packet takes (R136) and the cells still reserved while its TAIL is out (OPEN of R156). -/
  cells : Nat
  opened : Bool
  /-- its Glade cells were taken from the shared pool (R140). -/
  shared : Bool
  mirror : Bool
  mcast : Bool
  /-- queues that still hold a copy (R142). -/
  refs : Nat
  /-- copies to be formed at egress once the TAIL is in (R153). -/
  obs : List Obs
deriving DecidableEq, Repr

/-- A packet at ingress, by arrival order on its sub-link and VC (R96, R117, R146). -/
inductive Stage where
  /-- passed to an egress die; its TAIL is still to come. -/
  | forwarded
  /-- assembled for the reduction path, its context's slot and die found (R146, R191). -/
  | reduce (die : Nat)
  /-- held by a clearing (R117). -/
  | held
  /-- delivered to the management block (R77). -/
  | mgmt
  /-- dropped by a check of R96; the rest of its flits is discarded. -/
  | refused
  /-- dropped after the checks; the rest of its flits is discarded, and a POISON on its TAIL is counted (R91). -/
  | dropped
  /-- longer than PLEN says; the rest is discarded, and the TAIL tells what it is counted as (R90, R91). begun: some flit had left. -/
  | long (begun : Bool)
deriving DecidableEq, Repr

/-- An entry of the ingress staging. -/
structure InEnt where
  pid : Nat
  stage : Stage
  /-- sessions that observed the packet at ingress, or as it was dropped (R153): their copies are formed once its TAIL is in. -/
  obs : List Obs := []
deriving DecidableEq, Repr

/-- An entry of an output queue (R137, R143). -/
structure QEnt where
  pid : Nat
  guar : Bool
  cut : Bool
  /-- flits passed to the link, and whether one of them has left the Skarad. -/
  sent : Nat
  left : Bool := false
  /-- fabric time less its steps, in ns, at which the packet was linked into the queue (R86, R334). -/
  linkedAt : Nat
  /-- the packet has been granted (R151). -/
  granted : Bool
deriving DecidableEq, Repr

/-- An output queue with its configuration registers (R162, R179, R180), its shaper book (R464) in units of 1/800 byte,
its average depth (R173) and its level (R110). -/
structure QueueSt where
  ents : List QEnt := []
  gocc : Nat := 0
  socc : Nat := 0
  minCells : Nat := 0
  alpha : BitVec 4 := 0
  qsched : Word := 0
  shaper : Word := 0
  earned : Nat := 0
  spent : Nat := 0
  cut : Int := 0
  shapeAt : Nat := 0
  avg : Rat := 0
  level : Nat := 0
deriving DecidableEq, Repr

/-- A packet in progress on a VC of an egress sub-link (R165). -/
structure Cur where
  q : Nat
  pid : Nat
deriving DecidableEq, Repr

/-- The schedulers of an egress sub-link (R165, R166): the VC scheduler and the queue schedulers by VC. awake marks an input
that was eligible when last looked at. -/
structure SchedSt where
  vV : BitVec 40 := 0
  vS : Tbl (BitVec 40) := []
  vF : Tbl (BitVec 40) := []
  vAwake : Tbl Bool := []
  qV : Tbl (BitVec 40) := []
  qS : Tbl (BitVec 40) := []
  qF : Tbl (BitVec 40) := []
  qAwake : Tbl Bool := []
  cur : Tbl Cur := []
deriving DecidableEq, Repr

/-- A packet at an egress die that is not yet linked into a queue (R140, R141, R143): src is 0 to 3 for a fabric die (the
die itself for its own ingress), 4 + x for a reducer port. targets are queue keys. -/
structure Arr where
  pid : Nat
  src : Nat
  vc : Nat
  targets : List Nat
deriving DecidableEq, Repr

/-- A policer (R171, R181): words 0 to 2 and the credits C and P in units of 1/800 byte at clock at. -/
structure Policer where
  w0 : Word := 0
  w1 : Word := 0
  w2 : Word := 0
  c : Nat := 0
  p : Int := 0
  at_ : Nat := 0
deriving DecidableEq, Repr

/-- A histogram engine (R176, R182). -/
structure Hist where
  en : Bool := false
  frozen : Bool := false
  delayShift : BitVec 5 := 0
  depthShift : BitVec 4 := 0
  queue : BitVec 12 := 0
  maxDepth : Word := 0
  maxDelay : Word := 0
  depth : Tbl Word := []
  delay : Tbl Word := []
deriving DecidableEq, Repr

/-- A context map entry (R191). -/
structure MapEnt where
  slot : Slot
  die : BitVec 2
deriving DecidableEq, Repr

/-- The switch core of one fabric die (R136 to R164, R178, R182, R191). -/
structure SwcSt where
  /-- the five counts of R156. -/
  free : Nat := 786432
  queued : Nat := 0
  voq : Nat := 0
  landing : Nat := 0
  opened : Nat := 0
  /-- shared cells taken (R140). -/
  sharedUsed : Nat := 0
  sharedCells : BitVec 20 := 0
  voqCap : BitVec 16 := 0
  voqReserve : BitVec 16 := 0
  mirrorFloor : BitVec 16 := 0
  auditErr : Bool := false
  snapFree : BitVec 20 := 0
  snapQueued : BitVec 20 := 0
  snapVoq : BitVec 20 := 0
  snapLanding : BitVec 20 := 0
  snapOpen : BitVec 20 := 0
  /-- clock of the last audit failure (R420). -/
  auditFailAt : Option Nat := none
  /-- AGE[t] (R161). -/
  age : Tbl Word := []
  redProf : Tbl Word := []
  policers : Tbl Policer := []
  hist : Tbl Hist := []
  sess : Tbl Word := []
  sessCount : Tbl Nat := []
  cnt : Tbl Word := []
  /-- packets reaching this die and waiting for admission, and lossless ones made to wait (R140, R141, R143). -/
  arrive : List Arr := []
  waiting : List Arr := []
  /-- credits this die has spent toward die or reducer port dst, key 8 × dst + vc (R144, R145), the landing cells occupied
  here, key 8 × src + vc, and the returns on their way back, key 8 × src + vc. -/
  spentCred : Tbl Nat := []
  landOcc : Tbl Nat := []
  landRet : Tbl Nat := []
  /-- packets in staging that wait for bridge credit, in order (R141, R144). -/
  bridgeWait : List Arr := []
  /-- VOQs, key 8 × local port + 2 × reduction die + (vc − 1) (R146), cells per port, scheduler pointers (R148). -/
  voqs : Tbl (List Nat) := []
  voqPort : Tbl Nat := []
  gptr : Tbl Nat := []
  aptr : Tbl Nat := []
  rr : Tbl Nat := []
  /-- whole chunks in staging that wait for VOQ room (R147): local port, pid, reduction die. -/
  voqWait : List (Nat × Nat × Nat) := []
  /-- clock up to which VOQ_STALL has counted, while chunks wait (R164). -/
  stallAt : Nat := 0
  ctxMap : Tbl MapEnt := []
  tunnels : List (BitVec 16 × BitVec 16) := []
  /-- membership records, recorded keys only (R93). -/
  members : Tbl (Option (BitVec 288)) := []
deriving DecidableEq, Repr

/-- Where a clearing comes from (R117, R124). -/
inductive ClrSrc where
  | ring (r : Nat) | manager
deriving DecidableEq, Repr

/-- A drain marker: its queue and the packets ahead of it (R117). -/
structure Marker where
  g : Nat
  ahead : List Nat
deriving DecidableEq, Repr

/-- The running clearing (R117). -/
structure Clearing where
  src : ClrSrc
  phase : ClrPhase
  dieMask : BitVec 4
  tcMask : Byte
  recs : List RouteRec
  /-- STAGE steps already run, of them the scan steps. -/
  staged : Nat
  scanned : Nat
  /-- steps done when DRAIN began. -/
  drainAt : Nat
  /-- the outstanding markers were purged at DRAIN_LIMIT (R120). -/
  purged : Bool := false
  markers : List Marker
  /-- the destinations held, key die × 2^20 + DST, snapshot at HOLD. -/
  affected : List Nat
  dones : Nat
  total : Nat
  aborted : Bool
  committed : Bool
  /-- clock of the last message of the manager (R125), or of the start of a DRAIN of this Skarad's own. -/
  heardAt : Nat
deriving DecidableEq, Repr

/-- ROUTE (R105 to R131). Entry keys are die × 2^20 + DST; set keys are die × 2^14 + index; a set is its nine words, word 0
lowest. -/
structure RouteSt where
  live : Tbl Word := []
  shadow : Tbl Word := []
  liveSet : Tbl (BitVec 288) := []
  shadowSet : Tbl (BitVec 288) := []
  dirtyEnt : List Nat := []
  dirtySet : List Nat := []
  /-- the rotating pointers of R111, key as the sets. -/
  ptr : Tbl Nat := []
  winCtl : Word := 0
  winData : Tbl Word := []
  qt12 : Tbl Word := []
  qt3 : Tbl Word := []
  hashSeed : Tbl Word := []
  rejoinUs : Tbl Word := []
  /-- levels of egress queues as last sent to the other dies, by queue key (R109). -/
  levels : Tbl Nat := []
  holdLimit : BitVec 7 := 20
  onTimeout : Bool := false
  drainLimit : BitVec 17 := 2000
  reverted : Bool := false
  clr : Option Clearing := none
  /-- a STAGE message of the manager that waits for the running clearing (R122), and the last phase acknowledged to the manager. -/
  waitMsg : Option PhaseMsg := none
  lastAck : ClrPhase := .idle
  cnt : Tbl Word := []
deriving DecidableEq, Repr

/-- A block of 32 Muslin mantissas with its exponent (R222). -/
structure MBlock where
  m : List Int
  x : Int
deriving DecidableEq, Repr

/-- The accumulator A (R250, R488): empty, CIF-48 blocks, or exact values in units of the accumulator's lowest weight (R229). -/
inductive Acc where
  | empty
  | muslin (blocks : List MBlock)
  | worsted (vals : List Int)
deriving DecidableEq, Repr

/-- A plane of UF-48 blocks: 64 mantissas with a shared exponent (R276). -/
structure UBlock where
  m : List Int
  x : Int
deriving DecidableEq, Repr

/-- A contribution waiting for ACC: the child's index, the format and the payload (R198, R250). -/
structure Contrib where
  child : Nat
  fmt : BitVec 4
  bytes : List Byte
deriving DecidableEq, Repr

/-- A shard block (R266). w, m1 and m2 hold element 0 in their lowest bits. -/
structure ShardBlk where
  xw : BitVec 16 := 0x8000
  x1 : BitVec 16 := 0x8000
  x2 : BitVec 16 := 0x8000
  ver : BitVec 48 := 0
  blk : BitVec 32 := 0
  w : BitVec 2048 := 0
  m1 : BitVec 1024 := 0
  m2 : BitVec 1024 := 0
deriving DecidableEq, Repr

/-- One program instance (R248, R250). -/
structure Inst where
  pc : Nat
  /-- contributions not yet taken by ACC, in order of arrival. -/
  todo : List Contrib
  a : Acc
  /-- a scalar recorded in Worsted: signed significand and exponent (R228). -/
  scale : Option (Int × Int)
  o : Option (BitVec 4 × List Byte)
  w : Option (List UBlock)
  m1 : Option (List UBlock)
  m2 : Option (List UBlock)
  wseed : BitVec 64
  /-- it has started: at most W instances of a context run at once (R248). -/
  started : Bool
  /-- planes of each LDS still outstanding, oldest first, and planes an STS is writing (R252). -/
  lds : List (BitVec 3)
  sts : BitVec 3
  stsDone : Bool
  /-- the blocks the last LDS read, for STS (R268), and those an STS is writing. -/
  read : List ShardBlk
  store : List ShardBlk
  /-- EMIT or FAN issued and not granted; granted. -/
  emitted : Bool
  fanned : Bool
  granted : Bool
  /-- twin packets of the chunk not yet granted (R280). -/
  twinLeft : List (List Byte)
  /-- held by WAIT or BAR. -/
  waiting : Bool
  atBar : Bool
deriving DecidableEq, Repr

/-- One chunk of an open step: the contribution bitmap by child index, the element count and the instance (R198). -/
structure Chunk where
  bits : List Nat
  elems : Nat
  /-- the payload kept for a pass-through of R221. -/
  raw : Option (BitVec 4 × List Byte)
  inst : Inst
deriving DecidableEq, Repr

/-- The detail of STEP_END and FAIL (R193), bytes 8 to 23 as one value, byte 8 highest. -/
abbrev Detail := BitVec 128

/-- An open step at a context (R194 to R206). -/
structure Step where
  num : StepNo
  n : Nat
  scalars : List Word
  /-- LIMIT granted by the parent (the root's own LIMIT for a root) and LIMIT last sent to the children. -/
  upLimit : Nat
  limSent : Nat
  /-- chunks in progress, and the chunks emitted or fanned out. -/
  chunks : Tbl (Option Chunk)
  done : List Nat
  results : Nat
  timerAt : Nat
  openAt : BitVec 80
  sq : Rat
  /-- SQ in Muslin and Worsted is kept exact (R254). -/
  dg : BitVec 128
  steered : Word
  accum : Word
  dropped : Word
  discarded : Word
  failed : Option (Byte × Detail)
  /-- closed, with instances still on their way to END (R258) or with its STEP_END held. -/
  closed : Bool
  /-- a step closed at the root whose STEP_END is held: its status and the instant in ns (R210, R282, R299). -/
  endHeld : Option (Byte × BitVec 64)
  /-- UPD's derived scalars, held for the step (R275). -/
  derived : Option (List (Int × Int))
deriving DecidableEq, Repr

/-- A step in READY (R194, R298): the fabric time of its STEP_START, and the fabric time in ns until which two steps were open while it waited
(0: never). -/
structure Ready where
  num : StepNo
  n : Nat
  scalars : List Word
  arrived : BitVec 80
  after : Nat
deriving DecidableEq, Repr

/-- A STEP_START, or a STOP, held for a context (R211, R284, R287). -/
structure HeldCtrl where
  start : Bool
  num : StepNo
  n : Nat
  scalars : List Word
  arrived : BitVec 80
deriving DecidableEq, Repr

/-- The context states of R206. -/
inductive CtxSt where
  | free | reserved | idle | ready | run | halt | moving | lost
deriving DecidableEq, Repr

/-- The capture of R238 as shown by R242. -/
structure Capture where
  nan : Bool := false
  inf : Bool := false
  fmt : BitVec 4 := 0
  opcode : Byte := 0
  chunk : BitVec 16 := 0
  contrib : Ident := 0
  childPos : BitVec 11 := 0
  elemOfs : BitVec 16 := 0
  raw : Word := 0
  step : StepNo := 0
deriving DecidableEq, Repr

/-- The twin states of R288. -/
inductive TwinSt where
  | none | active | stale | promoted
deriving DecidableEq, Repr

/-- A context (R185 to R206). spec is the allocation it was built from. -/
structure Ctx where
  st : CtxSt
  die : Nat
  spec : AllocMsg
  /-- the sub-link toward the parent (none at the root). -/
  up : Option Nat
  /-- pages of the reservation (R188), and whether the home die holds them for it. -/
  pages : Nat
  reserved : Bool
  resAt : Nat
  /-- the manager's commit has come (R189). -/
  committed : Bool
  ready : Option Ready
  steps : List Step
  /-- the last step number accepted at the root, and the last closed step with its status. -/
  lastAcc : Option StepNo
  lastClosed : Option (StepNo × Byte)
  lastStatus : Byte
  /-- a STOP held for the next STEP_START (R205), and STEP_STARTs and STOPs held while MOVING, locked or without a shard (R211, R284,
  R287). -/
  stopHeld : Bool
  held : List HeldCtrl
  /-- deleted (R190) once no step is open. -/
  deleting : Bool
  /-- the status and the detail of the step that halted the context (R206). -/
  haltStatus : Byte
  haltDetail : Detail
  capture : Capture
  ovf : Bool
  flushed : Bool
  sq : Word
  digest : BitVec 128
  pi : BitVec 128
  lapsed : Bool
  lapseReason : BitVec 4
  isTwin : Bool
  twin : TwinSt
deriving DecidableEq, Repr

/-- A reduction die (R213, R214, R242 to R244, R261 to R263, R288). -/
structure RedSt where
  cnt : Tbl Word := []
  freePages : Nat := 94208
  slot : Slot := 0
  retired : BitVec 128 := 0
  strikes : BitVec 128 := 0
  /-- chunks and CTRLs that have crossed a reducer port: fabric die, packet (R148). -/
  inbox : List (Nat × Nat) := []
  prog : Tbl Word := []
  psLocked : Bool := false
  valReason : BitVec 4 := 0
  valAddr : BitVec 14 := 0
  pstepEn : Bool := false
  pstepSlot : Slot := 0
  /-- the instance halted in single-step, and since when (R260). -/
  halted : Option InstId := none
  haltedAt : Nat := 0
  /-- the lanes' generators (R233); one not listed has still to give its seed. -/
  gens : Tbl (Option (BitVec 64)) := []
  shardBlocks : Nat := 0
  /-- shard locks: ring, first block, count (R287). -/
  locks : List (Nat × Nat × Nat) := []
deriving DecidableEq, Repr

/-- A DRAM stack (R325, R326) with its scrub. pos is the next codeword of the pass. -/
structure MemSt where
  live : Bool := false
  pstate : BitVec 2 := 0
  marked : BitVec 4 := 15
  poolUnits : BitVec 20 := 0
  shardBase : BitVec 20 := 0
  sparesLeft : BitVec 16 := 2048
  rowsSpared : BitVec 16 := 0
  /-- rows being spared (R311). -/
  sparing : List Nat := []
  /-- the instants of the last 64 codewords corrected wholly in a memory die, newest first, by die (R309). -/
  tally : Tbl (List Nat) := []
  /-- codewords found uncorrectable and not written since (R310). -/
  bad : List Nat := []
  /-- the scrub's share of contended slots, in hundredths of a slot (R314). -/
  share : Nat := 0
  scrubEn : Bool := true
  boost : Bool := false
  late : Bool := false
  /-- PASSES when a pass was marked late: it is marked once. -/
  lateFor : Option Word := none
  paused : Bool := false
  pos : Nat := 0
  passAt : Nat := 0
  passes : Word := 0
  cnt : Tbl Word := []
deriving DecidableEq, Repr

/-- Memories, as sparse bytes. DRAM keys are stack × 2^36 + offset; SRAM keys are die × 2^29 + offset; host keys are bus
addresses (R403). Shard regions are held by block: key die × 2^28 + block (R264). -/
structure MemStore where
  host : List Host.Cell := []
  dram : List Host.Cell := []
  sram : List Host.Cell := []
  shard : Tbl ShardBlk := []
deriving DecidableEq, Repr

/-- A free ring of the buffer pools (R319, R329). -/
structure PoolRing where
  valid : Bool := false
  single : Bool := false
  copyA : BitVec 4 := 15
  copyB : BitVec 4 := 15
  total : Nat := 0
  /-- the entries in the ring, as 8 B words (R320), and the indices in the cache. -/
  ring : List (BitVec 64) := []
  cache : List Nat := []
  held : Nat := 0
  moving : Nat := 0
  retired : Nat := 0
  snapRing : Nat := 0
  snapCache : Nat := 0
  snapHeld : Nat := 0
  snapMoving : Nat := 0
  snapRetired : Nat := 0
  snapWaiters : Nat := 0
deriving DecidableEq, Repr

/-- A waiting buffer request (R322): its requester, the ring it waits at, its need in bytes, and the instance that asks, if one does. -/
structure Waiter where
  q : Nat
  k : Nat
  need : Nat
  inst : Option InstId := none
deriving DecidableEq, Repr

/-- The buffer pool manager (R318 to R331). USED and QUOTA are in 4 KiB units. A held buffer's key is ring × 2^14 + index. -/
structure BpmSt where
  rings : Tbl PoolRing := []
  holders : Tbl Nat := []
  /-- the instances that hold buffers, by key (R251). -/
  owners : List (Nat × InstId) := []
  /-- buffers retired, by key. -/
  retiredBufs : List Nat := []
  quota : Tbl Nat := []
  used : Tbl Nat := []
  waiters : List Waiter := []
  err : Bool := false
  pending : Nat := 0
  snapPending : Nat := 0
  cnt : Tbl Word := []
deriving DecidableEq, Repr

/-- Canopy (R332 to R351). Fabric time is base at clock baseAt, and runs 1 ns per ns of clock but
for what is slewed. -/
structure TimSt where
  base : BitVec 80 := 0
  baseAt : Nat := 0
  /-- the sum of all steps applied since reset, in 2^-16 ns (R334). -/
  stepSum : Int := 0
  running : Bool := false
  /-- the offset still to be slewed away from baseAt on, in 2^-16 ns, positive when this Skarad is ahead (R342). -/
  slew : Int := 0
  traceable : Bool := false
  holdover : Bool := false
  holdAt : Nat := 0
  /-- clock since which a new upstream or reference has been followed in holdover (R343). -/
  followAt : Option Nat := none
  leapPending : Bool := false
  ppsOk : Bool := false
  tenmOk : Bool := false
  upstream : Option Nat := none
  hops : Byte := 0
  /-- fabric time as the last read of NOW_LO latched it (R348). -/
  latch : BitVec 80 := 0
  gmCoord : Coord := 0
  offset : Word := 0
  delay : Word := 0
  /-- the link delay as last measured, in 2^-16 ns. -/
  delayFx : Int := 0
  /-- an offset found above STEP_THR, to be stepped at the next SYNC (R342). -/
  stepDue : Bool := false
  setLo : Word := 0
  setHi : Word := 0
  armPps : Bool := false
  /-- a set armed for a PPS edge, and the clock of its write (R339). -/
  armed : Bool := false
  armedAt : Nat := 0
  setOnPps : Bool := false
  cleanPps : Nat := 0
  lastPps : Option Nat := none
  nextUtc : BitVec 16 := 0
  utcOfs : BitVec 16 := 0
  leapAt : Word := 0
  holdTraceS : BitVec 16 := 3600
  stepThr : BitVec 16 := 1000
  ppsEn : Bool := false
  tenmEn : Bool := false
  ppsDis : Bool := false
  tenmDis : Bool := false
  ppsMiss : Nat := 0
  tenmMiss : Nat := 0
  cnt : Tbl Word := []
deriving DecidableEq, Repr

/-- The start-up phases of R370. -/
inductive StartPhase where
  | islands | flash | load | power | waves | run | imageFail | noStart
deriving DecidableEq, Repr

/-- RST and the start-up sequencer (R361 to R370). held: PWROK or SYS_RST_N is low. -/
structure RstSt where
  held : Bool := true
  phase : StartPhase := .islands
  failReason : BitVec 4 := 0
  wave : Nat := 0
  bootSel : BitVec 2 := 0
  addrSel : Bool := false
  roleSel : Bool := false
  loaded : BitVec 2 := 0
  fellBack : Bool := false
  cause : BitVec 3 := 0
  resultA : BitVec 4 := 0
  typeA : Byte := 0
  resultB : BitVec 4 := 0
  typeB : Byte := 0
  genA : Word := 0
  genB : Word := 0
  tLoaded : BitVec 16 := 0
  tWave0 : BitVec 16 := 0
  startHold : Bool := false
  /-- clock of t = 0 and of t_L (R361, R364). -/
  t0 : Nat := 0
  tL : Nat := 0
  /-- clock at which the reading of the copy in turn begins (R364). -/
  copyAt : Nat := 0
  /-- the override window is open (R367). -/
  windowOpen : Bool := false
  /-- t_W has passed and wave 0 waits for START_HOLD (R367). -/
  wavesDue : Bool := false
deriving DecidableEq, Repr

/-- The roles of R371. -/
inductive Role where
  | worker | manager | standby
deriving DecidableEq, Repr

/-- Fuses (R2, R358, R371, R395). -/
structure Fuses where
  sk2x : Bool := false
  stepping : Byte := 0
  keyHash : Option (BitVec 384) := none
  jtagKey : Option (BitVec 384) := none
deriving DecidableEq, Repr

/-- GCTL: identity and role (R371). -/
structure GctlSt where
  fabricId : Word := 0
  ownId : Ident := 0
  coordImg : Coord := 0
  coord : Coord := 0
  ovrEn : Bool := false
  closed : Bool := false
  ovrValue : Coord := 0
  cfgRole : Role := .worker
  role : Role := .worker
  mgrCoord : Coord := 0
  mgrId : Ident := 0
  sbyCoord : Coord := 0
  sbyId : Ident := 0
  /-- the acting manager (MGR_COORD) and its identifier. -/
  acting : Coord := 0
  actingId : Ident := 0
  mgrWaitMs : Nat := 5000
  signed : Bool := false
deriving DecidableEq, Repr

/-- Units live, fenced or lost (R28, R30), and the two management blocks (R11, R421). -/
structure UnitsSt where
  fabLost : BitVec 4 := 0
  redLost : BitVec 4 := 0
  stackLost : BitVec 8 := 0
  engineLost : BitVec 24 := 0
  mb0Ok : Bool := false
  mb1Ok : Bool := false
  active : MbId := .mb0
deriving DecidableEq, Repr

/-- The device states of R446 (Trim is Run at a point other than P0). -/
inductive DevState where
  | run | quiet | hold
deriving DecidableEq, Repr

/-- The phases of an entry (R454). -/
inductive EntryPhase where
  | none | vote | stop | restart
deriving DecidableEq, Repr

/-- PWR (R454 to R456). Domain sets are bit masks by domain number (R443). -/
structure PwrSt where
  discard : Bool := false
  state : DevState := .run
  busy : Bool := false
  phase : EntryPhase := .none
  target : DevState := .run
  /-- the single domain of a WANT_OFF entry (R450). -/
  single : Option Nat := none
  last : BitVec 3 := 0
  refuser : BitVec 7 := 0
  reason : BitVec 4 := 0
  shardDirty : BitVec 4 := 0
  point : BitVec 2 := 0
  cur : BitVec 2 := 0
  ramping : Bool := false
  rampTo : BitVec 2 := 0
  /-- clock at which the ramp in progress began. -/
  rampAt : Nat := 0
  heldPoint : Option (BitVec 2) := none
  wakeEn : BitVec 3 := 0
  wakeCause : BitVec 3 := 0
  on : BitVec 60 := 0
  lost : BitVec 60 := 0
  wantOff : BitVec 60 := 0
  selfRefresh : BitVec 60 := 0
  voted : BitVec 60 := 0
  stopped : List Nat := []
  voteAt : Nat := 0
  onSince : Tbl Nat := []
  onSec : Tbl Nat := []
  trans : Tbl (BitVec 16) := []
  res : Tbl Nat := []
  resSince : Nat := 0
  resLatch : Tbl Word := []
  offAcc : Word := 0
  /-- junction temperatures, °C, of F0 to F3 and X0 to X3 (TJ of R456). -/
  tj : Tbl Byte := []
  /-- allocations that arrived in Quiet and wait for Run (R451). -/
  waitAlloc : List AllocMsg := []
  /-- program stores to be reloaded when quadrant 0 comes on (R245), by reduction die. -/
  progStale : BitVec 4 := 0
deriving DecidableEq, Repr

/-- A first-error capture (R422, R438). -/
structure FltCap where
  valid : Bool := false
  injected : Bool := false
  block : Byte := 0
  inst : BitVec 16 := 0
  access : BitVec 4 := 0
  code : BitVec 16 := 0
  addr : BitVec 64 := 0
  time : BitVec 80 := 0
  more : BitVec 16 := 0
  /-- clock at which the error captured reached the collector (R485). -/
  at_ : Nat := 0
deriving DecidableEq, Repr

/-- FLT (R415 to R425, R437 to R439). -/
structure FltSt where
  fatal : Bool := false
  cause : BitVec 3 := 0
  prior : BitVec 3 := 0
  /-- clock at which the cause was latched (R418). -/
  faultAt : Nat := 0
  /-- the pins FAULT_N and THERMTRIP_N are asserted (R26, R363, R416). -/
  faultN : Bool := false
  thermtripN : Bool := false
  ucEn : Bool := false
  ceEn : Bool := false
  ucPend : Bool := false
  cePend : Bool := false
  ceCount : Word := 0
  ucCount : Word := 0
  capCe : FltCap := {}
  capUc : FltCap := {}
  capFa : FltCap := {}
  injBlock : Byte := 0
  injInst : BitVec 16 := 0
  injChecker : Byte := 0
  injPersist : Bool := false
  injActive : Bool := false
  injFired : Bool := false
  injMask : Word := 0
  injKeyed : Bool := false
deriving DecidableEq, Repr

/-- A read window of the recorder (R441). -/
structure RdWin where
  seq : Word := 0
  flash : Bool := false
  result : BitVec 2 := 0
  data : List Byte := []
deriving DecidableEq, Repr

/-- The event recorder (R426 to R442). kept and ring are in order, oldest first; flash holds the records of the region with
their sector and slot. -/
structure EvrSt where
  kept : List Record := []
  ring : List Record := []
  headSeq : Word := 0
  stopped : Bool := false
  sectorsRetired : List Nat := []
  curSector : BitVec 6 := 0
  curSlot : Nat := 0
  scanned : Bool := false
  scanQueue : List Record := []
  intH : Bool := false
  intF : Bool := false
  persistF : Bool := false
  opBase : Nat := 0
  opAt : Nat := 0
  cycles : Word := 0
  wins : Tbl RdWin := []
  flash : List (Nat × Nat × Record) := []
  badSlots : List (Nat × Nat) := []
  /-- records with a SEQ before this one read GONE in flash after CLEAR_FLASH (R431). -/
  flashClear : Option Word := none
  queue : List Record := []
  /-- sectors erased and free, the erase under way, the clock of the last erase and whether one is owed (R433). -/
  erasing : Option Nat := none
  erased : List Nat := []
  eraseAt : Option Nat := none
  eraseDue : Bool := false
  fwdCount : Nat := 0
  fwdSecond : Nat := 0
  cnt : Tbl Word := []
deriving DecidableEq, Repr

/-- A command decoded from a ring entry (R385). -/
inductive CmdBody where
  | nop
  | clear (count : Nat) (dieMask : BitVec 4) (tcMask : Byte) (fabric : Bool)
  | groupCreate (len : Nat) (last : Bool) (ofs : Nat)
  | groupDelete (group : GroupId)
  | groupStop (group : GroupId) (step : StepNo)
  | groupResume (group : GroupId)
  | shardLoad (die first count : Nat)
  | shardSave (die first count : Nat)
  | scrubPass (stack : Nat)
  | selfTest (cls unit : Nat)
  | windthrow
  | portRetrain (port : Nat) (mask : BitVec 4)
  | imageUpdate (copy len : Nat)
  | regRead (off : Nat)
  | regWrite (off : Nat) (val : Word)
deriving DecidableEq, Repr

/-- How a command's transfer on its DMA channel stands (R399): none, at work, ended, or halted with a cause of R412. -/
inductive Xfer where
  | none | running | done | failed (cause : Nat)
deriving DecidableEq, Repr

/-- A command that has been taken from its ring (R387). -/
structure RunCmd where
  hdr : CmdHdr
  body : CmdBody
  dones : Nat
  total : Nat
  /-- an abort has been decided and takes effect at the next boundary, or came too late (R388). -/
  abort : Bool
  late : Bool
  /-- the DMA channel taken (R399) and the sender of a ring 8 command (R393). -/
  chan : Option Nat
  src : Ident
  /-- handed to another unit; the ring waits for it (R385). -/
  background : Bool
  /-- a finished command whose completion waits for a slot: status and DONE (R381, R383). -/
  result : Option (BitVec 16 × Word)
  /-- the transfer of the step at work, and the bytes it has brought. -/
  xfer : Xfer := .none
  data : List Byte := []
  /-- what the command keeps between its steps: blocks or bytes moved, a scrub position (R385). -/
  pos : Nat := 0
  /-- the first BLK of a load (R286), and the image header kept until it is programmed last (R386). -/
  firstBlk : Nat := 0
  header : List Byte := []
  /-- the range of a shard command is locked (R287). -/
  locked : Bool := false
deriving DecidableEq, Repr

/-- A command ring (R377, R381, R397). For ring 8, remote holds the COMMANDs in arrival order. -/
structure Ring where
  sqBase : BitVec 64 := 0
  cqBase : BitVec 64 := 0
  en : Bool := false
  head : BitVec 12 := 0
  tail : BitVec 12 := 0
  cqHead : BitVec 12 := 0
  cqTail : BitVec 12 := 0
  phase : Bool := true
  blocked : Bool := false
  cur : Option RunCmd := none
  aborts : List Word := []
  remote : List (Ident × BitVec 512) := []
deriving DecidableEq, Repr

/-- A completion held on chip (R390): ring, the 16 bytes without PHASE, INTR. -/
structure HeldComp where
  ring : Nat
  tag : Word
  status : BitVec 16
  late : Bool
  dones : Word
  total : Word
  intr : Bool
deriving DecidableEq, Repr

/-- CMD, PCIe, SMBus and JTAG (R372 to R398). -/
structure CmdSt where
  rings : Tbl Ring := []
  last : Nat := 0
  sstep : Bool := false
  halted : Bool := false
  sramDie : BitVec 2 := 0
  sramBase : BitVec 9 := 0
  jtagLevel : BitVec 2 := 0
  nonce : BitVec 128 := 0
  jtagIr : BitVec 16 := 0
  cnt : Tbl Word := []
  smbOff : Word := 0
  smbLive : Bool := false
  smbDomOff : Bool := false
  smbReset : Bool := false
  bme : Bool := false
  cfg : Tbl Word := []
  msix : Tbl Word := []
  pba : BitVec 64 := 0
  heldComps : List HeldComp := []
  /-- commands forwarded to the manager: TAG, ring, clock of the forwarding (R386). -/
  forwarded : List (Word × Nat × Nat) := []
  progCopy : Tbl Word := []
  /-- the image copy under update: copy, ring, stage 0 header erased, 1 body, 2 header programmed (R386). -/
  updating : Option (Nat × Nat × Nat) := none
deriving DecidableEq, Repr

/-- The channel states of R412. -/
inductive ChanState where
  | idle | run | done | hostBlocked | halted
deriving DecidableEq, Repr

/-- A DMA element (R402) at work. fromBuf and intoBuf mark an end that is the owner's own buffer and no space: a record or
blocks that the Skarad supplies, and bytes that it gathers. data holds the source bytes as they stood before the element began
(R404), for a remote source those received, by their offset in got. -/
structure Elem where
  dstSp : BitVec 2
  srcSp : BitVec 2
  len : Nat
  dst : BitVec 52
  src : BitVec 52
  fromBuf : Bool := false
  intoBuf : Bool := false
  data : List Byte := []
  got : List (Nat × List Byte) := []
  /-- next byte to ask a remote source for, and next byte to write. -/
  asked : Nat := 0
  put : Nat := 0
deriving DecidableEq, Repr

/-- A remote message outstanding (R406): sequence, write or read, offset in the element, length, retries made. -/
structure RemoteMsg where
  seq : Word
  wr : Bool
  ofs : Nat
  len : Nat
  tries : Nat := 0
  /-- clock of its sending (R406). -/
  sentAt : Nat
deriving DecidableEq, Repr

/-- A DMA channel (R399 to R412). -/
structure ChanSt where
  list : BitVec 52 := 0
  intrEn : Bool := false
  listSpace : BitVec 2 := 0
  retry : BitVec 3 := 0
  count : BitVec 16 := 0
  ep : Ident := 0
  state : ChanState := .idle
  cause : BitVec 4 := 0
  elem : BitVec 16 := 0
  offset : BitVec 21 := 0
  granted : Option Nat := none
  tries : Nat := 0
  cur : Option Elem := none
  remote : List RemoteMsg := []
  rseq : Word := 0
  /-- the ring whose command owns the channel, and the trace buffer it drains (R399, R460). -/
  owner : Option Nat := none
  drain : Option Nat := none
  /-- the element of a channel that works from no list (a command's or a drain's) with its endpoint, and the bytes gathered for its owner. -/
  fixed : Option Elem := none
  fixedEp : Option Ident := none
  buf : List Byte := []
deriving DecidableEq, Repr

/-- The DMA engine (R411 to R413). -/
structure DmaSt where
  chans : Tbl ChanSt := []
  halted : Word := 0
  hiPtr : Nat := 0
  loPtr : Nat := 0
  cnt : Tbl Word := []
deriving DecidableEq, Repr

/-- A trace buffer (R459, R468). Entries are 32 bytes, oldest first. -/
structure Trace where
  en : Bool := false
  mode : Bool := false
  stopOnUc : Bool := false
  frozen : Bool := false
  matchEn : Bool := false
  mtch : BitVec 24 := 0
  point : Byte := 0
  ents : List (List Byte) := []
  lost : Word := 0
  busy : Bool := false
  drainErr : Bool := false
  space : BitVec 2 := 0
  stack : BitVec 4 := 0
  chan : BitVec 5 := 0
  dest : BitVec 52 := 0
  ep : Ident := 0
deriving DecidableEq, Repr

/-- DBG (R457 to R468). Byte counters by their number (see Debug.lean), in bytes; shown is what FREEZE holds. -/
structure DbgSt where
  bytes : Tbl Nat := []
  shown : Option (Tbl Nat) := none
  latch : Tbl Word := []
  psel : BitVec 9 := 0
  errs : BitVec 7 := 0
  shaSel : Word := 0
  ctxSel : Word := 0
  snap : Tbl Word := []
  traces : Tbl Trace := []
  /-- windthrow: T_f while armed, then the frozen record's bytes; the ring running it (R461). -/
  windAt : Option (BitVec 64) := none
  windRing : Option Nat := none
  windShadow : List Byte := []
deriving DecidableEq, Repr

/-- The manager's and the standby's registries (R98, R124, R189, R369). -/
structure MgrSt where
  reg : Tbl (Option RegRec) := []
  groups : Tbl (Option GroupRec) := []
  frags : Tbl (List Byte) := []
  change : Option FabChange := none
  /-- the last change that completed, and the changes to be sent again to workers that reverted (R125). -/
  lastChange : Option FabChange := none
  again : List FabChange := []
  hbSeen : Bool := false
  /-- this Skarad has sent a heartbeat as manager (R369). -/
  acted : Bool := false
  /-- clocks of the last heartbeat, of wave 0, of the start of the phase of change (R124), and of the request of each group (R189). -/
  hbAt : Nat := 0
  wave0At : Nat := 0
  phaseAt : Nat := 0
  askedAt : Tbl Nat := []
  phaseLimitUs : Nat := 5000
deriving DecidableEq, Repr

/-- What the block sends to the outside. Newest first in State.out. -/
inductive Out where
  /-- a control slot on a lane of a sub-link: position of the strand, lane, bytes (R40). -/
  | slot (pos lane : Nat) (bytes : List Byte)
  /-- a flit on a sub-link (R42); a NULL flit has TYPE 4. crcInv names the bits of its CRC that an injection inverts (R424). -/
  | flit (pos : Nat) (f : Flit) (crcInv : BitVec 16)
  /-- light on a strand (R65). -/
  | light (pos : Nat) (l : Light)
  /-- training slots on a lane of a strand, on the exit from Idle (R65). -/
  | trainSlots (pos lane n : Nat)
  /-- the wake pattern sent on a strand (R67). -/
  | wakePattern (pos : Nat)
  /-- PCIe: a completion with data, Configuration Request Retry Status, Unsupported Request, an MSI-X message. -/
  | pcieData (port : MbId) (vals : List Word)
  | pcieDone (port : MbId)
  | pcieRetry (port : MbId)
  | pcieUr (port : MbId)
  | msix (vec : Nat)
  /-- a value read through an access path. -/
  | readData (path : Path) (val : Word)
  /-- SMBus: acknowledged, refused, a data reply. -/
  | smbAck
  | smbNack
  | smbData (val : Word)
  /-- a MGMT message to an identifier: KIND and the rest of the payload (R393). -/
  | mgmt (dst : Ident) (kind : Byte) (payload : List Byte)
  /-- switch-internal messages (R393), by coordinate of the receiver. -/
  | register (q : RegReq)
  | withdraw (q : RegReq)
  | regAnswer (q : RegReq) (a : RegAns)
  | allocate (sw : Coord) (a : AllocMsg)
  | allocAns (group : GroupId) (a : AllocAns)
  | commitMsg (sw : Coord) (group : GroupId) (lapsed : Bool)
  | releaseMsg (sw : Coord) (group : GroupId)
  | deleteMsg (sw : Coord) (group : GroupId)
  | phaseMsg (sw : Coord) (m : PhaseMsg)
  | phaseAck (sw : Coord) (phase : ClrPhase)
  | heartbeat (dst : Ident) (sender : Coord) (m : MgrMirror)
  | forwardCmd (dst : Ident) (tag : Word) (body : CmdBody) (data : List Byte)
  | forwardEvent (dst : Ident) (rec : Record)
  | shardLost (sw : Coord) (group : GroupId)
  | rerooted (leader : Ident) (group : GroupId) (root : Coord) (rootId : Ident)
  /-- the mirror stream's heartbeat to the standby block (R421). -/
  | mirrorBeat
  /-- the flash on the board (R353, R386, R432): erase and program by offset. -/
  | flashErase (ofs : Nat)
  | flashProgram (ofs : Nat) (bytes : List Byte)
  /-- JTAG (R395). -/
  | jtag (val : BitVec 128)
  /-- SYNC outputs (R346) and laser non-volatile writes (R474). -/
  | syncEdge (pin : SyncPin) (rises : Bool)
  | laserBase (e j : Nat) (bias : BitVec 16)
deriving DecidableEq, Repr

/-- Why the machine stops with a fault. The block has no fault of its own: every error the spec describes is a state of it
(R414 to R417), so no meaning raises one and the type has no constructor. -/
inductive Fault where
deriving DecidableEq, Repr

/-- Why a command has no meaning. -/
inductive Refusal where
  /-- raised by an arm of exec for a command that has no meaning in the model yet; safe: nothing is claimed of it. -/
  | notModelled (mnemonic : String)
deriving DecidableEq, Repr

/-- The state of the block. -/
structure State where
  /-- the commands waiting, first in, first out. -/
  pending : List Instr := []
  /-- nanoseconds of the islands' clock (R485); a step on an empty queue adds 1. -/
  clock : Nat := 0
  /-- the model's own counter of free values drawn so far; not the spec's. -/
  free : Nat := 0
  out : List Out := []
  fuses : Fuses := {}
  rst : RstSt := {}
  gctl : GctlSt := {}
  /-- the image loaded at t_L (R359). -/
  img : Option ImageContent := none
  units : UnitsSt := {}
  pwr : PwrSt := {}
  flt : FltSt := {}
  evr : EvrSt := {}
  tim : TimSt := {}
  cmd : CmdSt := {}
  dma : DmaSt := {}
  bpm : BpmSt := {}
  dbg : DbgSt := {}
  route : RouteSt := {}
  ports : Tbl PortSt := []
  strands : Tbl StrandSt := []
  links : Tbl SubLink := []
  opt : Tbl OptSt := []
  swc : Tbl SwcSt := []
  queues : Tbl QueueSt := []
  scheds : Tbl SchedSt := []
  pkts : Tbl (Option Pkt) := []
  nextPid : Nat := 0
  /-- ingress staging by 8 × position + VC, in arrival order. -/
  staging : Tbl (List InEnt) := []
  red : Tbl RedSt := []
  ctxs : Tbl (Option Ctx) := []
  mgr : MgrSt := {}
  stackTbl : Tbl MemSt := []
  mem : MemStore := {}
deriving DecidableEq, Repr

/-- The machine right after reset: held until PWROK and SYS_RST_N are high (R361), every field at the reset value of its
register table. -/
def State.reset : State := {}

end Sys2Proof.Machine
end

