-- ==== Sys2Proof/Machine/Ops.lean ====
section
/-! DEFINITION. The named operations over State that every family uses: access to its tables, output, free values, fabric time,
vectors, the fault collector's captures and the event recorder (chapter 17), and the power domains (chapter 18). -/

namespace Sys2Proof.Machine

/-- What a command's meaning answers. -/
abbrev Outcome := Host.Outcome State Fault Refusal

/-- Send something to the outside. -/
def emit (o : Out) (s : State) : State := { s with out := o :: s.out }

/-- Apply a function for each element of a list, in order. -/
def each {α : Type} (l : List α) (f : α → State → State) (s : State) : State := l.foldl (fun a x => f x a) s

/-- Apply a function if the condition holds. -/
def iff (b : Bool) (f : State → State) (s : State) : State := if b then f s else s

/-- A fresh free value and the state after drawing it (log entry 2). -/
def draw (s : State) : BitVec 64 × State := (Config.freeBits s.free, { s with free := s.free + 1 })

def portOf (s : State) (p : Nat) : PortSt := tget {} s.ports p
def modPort (p : Nat) (f : PortSt → PortSt) (s : State) : State := { s with ports := tmod {} s.ports p f }
def strandOf (s : State) (pos : Nat) : StrandSt := tget {} s.strands pos
def modStrand (pos : Nat) (f : StrandSt → StrandSt) (s : State) : State := { s with strands := tmod {} s.strands pos f }
def linkOf (s : State) (pos : Nat) : SubLink := tget {} s.links pos
def modLink (pos : Nat) (f : SubLink → SubLink) (s : State) : State := { s with links := tmod {} s.links pos f }
def optOf (s : State) (e : Nat) : OptSt := tget {} s.opt e
def modOpt (e : Nat) (f : OptSt → OptSt) (s : State) : State := { s with opt := tmod {} s.opt e f }
def swcOf (s : State) (d : Nat) : SwcSt := tget {} s.swc d
def modSwc (d : Nat) (f : SwcSt → SwcSt) (s : State) : State := { s with swc := tmod {} s.swc d f }
def queueOf (s : State) (g : Nat) : QueueSt := tget {} s.queues g
def modQueue (g : Nat) (f : QueueSt → QueueSt) (s : State) : State := { s with queues := tmod {} s.queues g f }
def schedOf (s : State) (pos : Nat) : SchedSt := tget {} s.scheds pos
def modSched (pos : Nat) (f : SchedSt → SchedSt) (s : State) : State := { s with scheds := tmod {} s.scheds pos f }
def pktOf (s : State) (pid : Nat) : Option Pkt := tget none s.pkts pid
def setPkt (pid : Nat) (p : Option Pkt) (s : State) : State := { s with pkts := tset none s.pkts pid p }
def modPkt (pid : Nat) (f : Pkt → Pkt) (s : State) : State := { s with pkts := tmod none s.pkts pid (Option.map f) }
def redOf (s : State) (x : Nat) : RedSt := tget {} s.red x
def modRed (x : Nat) (f : RedSt → RedSt) (s : State) : State := { s with red := tmod {} s.red x f }
def ctxOf (s : State) (slot : Nat) : Option Ctx := tget none s.ctxs slot
def setCtx (slot : Nat) (c : Option Ctx) (s : State) : State := { s with ctxs := tset none s.ctxs slot c }
def modCtx (slot : Nat) (f : Ctx → Ctx) (s : State) : State := { s with ctxs := tmod none s.ctxs slot (Option.map f) }
def stackOf (s : State) (m : Nat) : MemSt := tget {} s.stackTbl m
def modStack (m : Nat) (f : MemSt → MemSt) (s : State) : State := { s with stackTbl := tmod {} s.stackTbl m f }
def ringOf (s : State) (r : Nat) : Ring := tget {} s.cmd.rings r
def modCmd (f : CmdSt → CmdSt) (s : State) : State := { s with cmd := f s.cmd }
def modRing (r : Nat) (f : Ring → Ring) (s : State) : State := modCmd (fun c => { c with rings := tmod {} c.rings r f }) s
def modDma (f : DmaSt → DmaSt) (s : State) : State := { s with dma := f s.dma }
def chanOf (s : State) (c : Nat) : ChanSt := tget {} s.dma.chans c
def modChan (c : Nat) (f : ChanSt → ChanSt) (s : State) : State := modDma (fun d => { d with chans := tmod {} d.chans c f }) s
def modBpm (f : BpmSt → BpmSt) (s : State) : State := { s with bpm := f s.bpm }
def poolRingOf (s : State) (k : Nat) : PoolRing := tget {} s.bpm.rings k
/-- A request of requester q waits for a buffer (R322). -/
def poolWaits (s : State) (q : Nat) : Bool := s.bpm.waiters.any fun w => w.q == q
/-- The counts of freed buffers that sub-link k may show in CRED (R40): while a VC0 staging request of its die waits, VC0's are withheld
(R322). -/
def credShown (s : State) (k : Nat) : Tbl (BitVec 16) :=
  let l := tget {} s.links k
  if poolWaits s (48 + k / 288) then tset 0 l.freed 0 (tget 0 l.credSent 0) else l.freed
def modPoolRing (k : Nat) (f : PoolRing → PoolRing) (s : State) : State := modBpm (fun b => { b with rings := tmod {} b.rings k f }) s
def modDbg (f : DbgSt → DbgSt) (s : State) : State := { s with dbg := f s.dbg }
def traceOf (s : State) (b : Nat) : Trace := tget {} s.dbg.traces b
def modTrace (b : Nat) (f : Trace → Trace) (s : State) : State := modDbg (fun d => { d with traces := tmod {} d.traces b f }) s
def modRoute (f : RouteSt → RouteSt) (s : State) : State := { s with route := f s.route }
def modPwr (f : PwrSt → PwrSt) (s : State) : State := { s with pwr := f s.pwr }
def modFlt (f : FltSt → FltSt) (s : State) : State := { s with flt := f s.flt }
def modEvr (f : EvrSt → EvrSt) (s : State) : State := { s with evr := f s.evr }
def modTim (f : TimSt → TimSt) (s : State) : State := { s with tim := f s.tim }
def modRst (f : RstSt → RstSt) (s : State) : State := { s with rst := f s.rst }
def modGctl (f : GctlSt → GctlSt) (s : State) : State := { s with gctl := f s.gctl }
def modMgr (f : MgrSt → MgrSt) (s : State) : State := { s with mgr := f s.mgr }
def modUnits (f : UnitsSt → UnitsSt) (s : State) : State := { s with units := f s.units }

/-- Count n in a counter of R72 and R104 of a port. -/
def portCnt (p ofs n : Nat) : State → State := modPort p fun x => { x with cnt := bump x.cnt ofs n }
/-- Count n in a counter of R164 and R183 of a switch core. -/
def swcCnt (d ofs n : Nat) : State → State := modSwc d fun x => { x with cnt := bump x.cnt ofs n }
/-- Count n in a counter of R131. -/
def routeCnt (ofs n : Nat) : State → State := modRoute fun x => { x with cnt := bump x.cnt ofs n }
/-- Count n in a counter of a reduction die (R214, R244, R263, R289, R305). -/
def redCnt (x ofs n : Nat) : State → State := modRed x fun r => { r with cnt := bump r.cnt ofs n }
/-- Count n in a counter of R326 and R327. -/
def memCnt (m ofs n : Nat) : State → State := modStack m fun r => { r with cnt := bump r.cnt ofs n }
/-- Count n in a counter of R331. -/
def bpmCnt (ofs n : Nat) : State → State := modBpm fun r => { r with cnt := bump r.cnt ofs n }
/-- Count n in a counter of R398. -/
def cmdCnt (ofs n : Nat) : State → State := modCmd fun r => { r with cnt := bump r.cnt ofs n }
/-- Count n in a counter of R413. -/
def dmaCnt (ofs n : Nat) : State → State := modDma fun r => { r with cnt := bump r.cnt ofs n }
/-- Add n to a byte counter of R457 (numbered as DbgSt says). -/
def countBytes (key n : Nat) : State → State := modDbg fun d => { d with bytes := tmod 0 d.bytes key (· + n) }
/-- Codewords of 64 B that a range touches (R457). -/
def codewords (a n : Nat) : Nat := if n = 0 then 0 else (a + n - 1) / 64 - a / 64 + 1
/-- Count n in a counter of R351. -/
def timCnt (ofs n : Nat) : State → State := modTim fun r => { r with cnt := bump r.cnt ofs n }
/-- Count n in a counter of R442. -/
def evrCnt (ofs n : Nat) : State → State := modEvr fun r => { r with cnt := bump r.cnt ofs n }

/-! ## Register words: reserved bits read 0 and ranges are clamped, whether an image or a write gives the word -/

/-- AGE[t] (R161). -/
def ageWord (v : Word) : Word := setFld (v &&& 0x80000000#32) 0 14 (clamp 1 16000 (fld v 0 14))
/-- Word k of RED_PROF[r], k counted over all profiles (R178). -/
def redWord (k : Nat) (v : Word) : Word := if k % 4 = 3 then v &&& 0xF#32 else v
/-- QSCHED[i] (R179). -/
def qschedWord (v : Word) : Word := v &&& 0xF80000FF#32
/-- VC_W1 (R177). -/
def vcW1Word (v : Word) : Word := v &&& 0xFFFFFF#32
/-- QTHR's QT3, and REJOIN_US (R128). -/
def qt3Word (v : Word) : Word := v &&& 0xFFFF#32
/-- CLEAR_CTL (R130). -/
def clearCtlPut (v : Word) : State → State := modRoute fun r => { r with
  holdLimit := BitVec.ofNat 7 (clamp 1 127 (fld v 25 7)), onTimeout := bitOf v 24, drainLimit := BitVec.ofNat 17 (clamp 10 100000 (fld v 0 17)) }

/-- How much of an offset has been slewed away after n ns, at 100 ppm (R342; log entry 22). -/
def slewed (o : Int) (n : Nat) : Int := if o ≥ 0 then min o (n * 65536 / 10000 : Nat) else -(min (-o) (n * 65536 / 10000 : Nat))

/-- Fabric time: 64-bit ns and 16-bit fraction (R333). -/
def fabT (s : State) : BitVec 80 :=
  if s.tim.running then
    s.tim.base + BitVec.ofNat 80 ((s.clock - s.tim.baseAt) * 65536) - BitVec.ofInt 80 (slewed s.tim.slew (s.clock - s.tim.baseAt))
  else s.tim.base

/-- The ns part of fabric time. -/
def fabNs (s : State) : BitVec 64 := (fabT s).extractLsb' 16 64

/-- Fabric time less the sum of all steps applied since reset, in ns: frame ages and delays are measured on it (R334). -/
def steadyNs (s : State) : Nat := (((fabT s).toNat - s.tim.stepSum) / 65536).toNat

/-- A row that stands for the end of a time the spec gives brings the clock to its instant t, where it is not past it (log entry 35). -/
def clockTo (t : Nat) (s : State) : State := { s with clock := max s.clock t }

/-- The same for t ns of fabric time; each round makes up what the slew (R342) took from the one before. -/
def fabTo (t : Nat) (s : State) : State :=
  if s.tim.running then (List.range 8).foldl (fun s _ => clockTo (s.clock + (t - (fabNs s).toNat)) s) s else s

/-- Operating seconds (R427, R435). -/
def opSec (s : State) : Nat := s.evr.opBase + (s.clock - s.evr.opAt) / 1000000000

/-- The Skarad is out of reset and not in the fault state. -/
def alive (s : State) : Bool := !s.rst.held && !s.flt.fatal

/-- A management block is there: out of reset with an island up. -/
def islandUp (s : State) : Bool := !s.rst.held && (s.units.mb0Ok || s.units.mb1Ok)

/-- A management block answers in full: an island is up and the device is not in the fault state. -/
def mgmtUp (s : State) : Bool := islandUp s && !s.flt.fatal

/-- The surviving island of fault cause 4 answers reads of four blocks and DEV_RESET (R416). -/
def faultReads (s : State) : Bool := islandUp s && s.flt.fatal && s.flt.cause == 4#3

/-- A configuration image is loaded and the waves have begun or are to begin (R364). -/
def started (s : State) : Bool :=
  alive s && (match s.rst.phase with | .power | .waves | .run => true | _ => false)

/-- Is this Skarad the acting manager (R369)? -/
def isMgr (s : State) : Bool := s.gctl.role == .manager

/-! ## Domains (R443) -/

def domCore (d : Nat) : Nat := 24 + 3 * d
def domPort (p : Nat) : Nat := if p % 72 < 36 then 25 + 3 * (p / 72) else 26 + 3 * (p / 72)
def domQuad (x q : Nat) : Nat := 36 + 4 * x + q
def domStack (m : Nat) : Nat := 52 + m

/-- Domain k is powered. -/
def domOn (s : State) (k : Nat) : Bool := bitOf s.pwr.on k

/-- Domain k is fused off (R444). -/
def domFused (s : State) (k : Nat) : Bool :=
  s.fuses.sk2x && ((45 ≤ k && k ≤ 47) || (49 ≤ k && k ≤ 51))

/-- Domain k is powered for its DRAM controllers only (R29, R444). -/
def domCtrlOnly (s : State) (k : Nat) : Bool := s.fuses.sk2x && (k == 44 || k == 48)

/-- Reduction die x is enabled by its fuses (R2). -/
def redEnabled (s : State) (x : Nat) : Bool := decide (x < 4) && (!s.fuses.sk2x || decide (x < 2))

/-- Reduction die x is enabled, not lost, and powered in all its quadrants. -/
def redLive (s : State) (x : Nat) : Bool := redEnabled s x && !bitOf s.units.redLost x && domOn s (domQuad x 0)

/-- Every quadrant of die x is on, so the die accepts new contexts (R450). -/
def redWhole (s : State) (x : Nat) : Bool := redLive s x && (List.range 4).all fun q => domOn s (domQuad x q)

/-- Fabric die d is not fenced and its core is on. -/
def dieLive (s : State) (d : Nat) : Bool := !bitOf s.units.fabLost d && domOn s (domCore d)

/-- Stack m is live: not lost, trained, its domain on and out of self-refresh, its controller reachable. -/
def stackUp (s : State) (m : Nat) : Bool :=
  (stackOf s m).live && !bitOf s.units.stackLost m && domOn s (domStack m) && !bitOf s.pwr.selfRefresh (domStack m) &&
    domOn s (domQuad (m / 2) 0)

/-- Port p works: in use in the image, its wave begun, its group and engine on. -/
def portOn (s : State) (p : Nat) : Bool :=
  alive s && (portOf s p).enabled && (portOf s p).begun && domOn s (domPort p) && domOn s (p / 12)

/-! ## Sub-links (R36) -/

/-- The strands of each sub-link of a breakout code (R36, R68). -/
def groupsOf (b : Nat) : List (List Nat) :=
  match b with
  | 0 => [[0, 1, 2, 3]]
  | 1 => [[0, 1, 2], [3]]
  | 2 => [[0, 1], [2, 3]]
  | 3 => [[0, 1], [2], [3]]
  | 4 => [[0], [1], [2], [3]]
  | _ => [[0, 1, 2, 3]]

/-- The strands, as strand numbers, of the sub-link of port p that holds strand s. -/
def strandsIn (st : State) (p s : Nat) : List Nat :=
  match (groupsOf (portOf st p).breakout.toNat).find? (fun g => s ∈ g) with
  | some g => g
  | none => [s]

/-- Position of the lowest strand of the sub-link that holds strand s of port p: the sub-link's key. -/
def subKey (st : State) (p s : Nat) : Nat := 4 * p + (strandsIn st p s).headD s

/-- The positions of the strands of sub-link k. -/
def strandPos (st : State) (k : Nat) : List Nat := (strandsIn st (k / 4) (k % 4)).map (4 * (k / 4) + ·)

/-- The keys of all sub-links of port p. -/
def subKeys (st : State) (p : Nat) : List Nat := (groupsOf (portOf st p).breakout.toNat).map fun g => 4 * p + g.headD 0

/-- The keys of the sub-links of all ports in use. -/
def allSubs (st : State) : List Nat := ((List.range 288).filter fun p => (portOf st p).enabled).flatMap (subKeys st)

/-- The live strands of sub-link k: trained and not out of use. -/
def liveStrands (st : State) (k : Nat) : List Nat :=
  (strandPos st k).filter fun q => let x := strandOf st q
    !x.outOfUse && !x.alone && (match x.st with | .down | .dark => false | _ => true)

/-- Is the sub-link in a state in which flits run (REGISTER and up)? -/
def linkRuns (l : SubLink) : Bool :=
  match l.st with | .register | .active | .idle | .quarantine => true | _ => false

/-- Is the sub-link live for routing and egress: ACTIVE or IDLE (R107, R111)? -/
def linkLive (s : State) (k : Nat) : Bool := match (linkOf s k).st with | .active | .idle => true | _ => false

/-- The data wavelengths in use per strand: two lanes, or one where D0_ONLY or a released lane leaves one (R37, R56). -/
def lanesOf (s : State) (pos : Nat) : List Nat :=
  let x := strandOf s pos
  (if x.wl0 = 0 then [] else [0]) ++ (if x.wl1 = 0 then [] else [1])

/-! ## Vectors (R378, R390) -/

/-- A dword of the MSI-X table; a vector control word is masked at reset (log entry 10). -/
def msixWord (s : State) (i : Nat) : Word := tget 0 s.cmd.msix i ^^^ (if i % 4 = 3 then 1 else 0)

/-- Raise a vector: sent where Bus Master Enable is set and the entry is unmasked, pending otherwise. -/
def raiseVec (v : Nat) (s : State) : State :=
  if mgmtUp s then
    if s.cmd.bme && !bitOf (msixWord s (4 * v + 3)) 0 then emit (.msix v) s
    else modCmd (fun c => { c with pba := setBit c.pba v true }) s
  else s

/-- Raise every pending vector that may now be sent. -/
def raisePending (s : State) : State :=
  each (bitsOf s.cmd.pba) (fun v a =>
    if a.cmd.bme && !bitOf (msixWord a (4 * v + 3)) 0 then
      emit (.msix v) (modCmd (fun c => { c with pba := setBit c.pba v false }) a)
    else a) s

/-! ## The fault collector (R414, R422) -/

/-- The trace buffers set to stop on the first uncorrectable error become FROZEN (R459). -/
def freezeOnUc (s : State) : State :=
  modDbg (fun d => { d with traces := d.traces.map fun e => if e.2.stopOnUc then (e.1, { e.2 with frozen := true }) else e }) s

/-- Count an error of a class, raise the collector's vector, and fill the class's capture or count MORE. Of two errors of a class that reach the
collector in one cycle (R485), the one of the lower block, then of the lower instance, is captured. -/
def capture (k : FaultKind) (code blk inst acc addr : Nat) (inj : Bool) (s : State) : State :=
  let fill (c : FltCap) : FltCap :=
    let first := c.at_ = s.clock ∧ (blk < c.block.toNat ∨ (blk = c.block.toNat ∧ inst < c.inst.toNat))
    let more := if c.valid then satAdd16 c.more 1 else c.more
    if c.valid ∧ ¬ first then { c with more := more }
    else { valid := true, injected := inj, block := BitVec.ofNat 8 blk, inst := BitVec.ofNat 16 inst,
           access := BitVec.ofNat 4 acc, code := BitVec.ofNat 16 code, addr := BitVec.ofNat 64 addr,
           time := fabT s, more := more, at_ := s.clock }
  match k with
  | .none => s
  | .ce =>
    let s := modFlt (fun f => { f with cePend := true, ceCount := satAdd f.ceCount 1, capCe := fill f.capCe }) s
    iff s.flt.ceEn (raiseVec 8) s
  | .uc =>
    let first := !s.flt.capUc.valid
    let s := modFlt (fun f => { f with ucPend := true, ucCount := satAdd f.ucCount 1, capUc := fill f.capUc }) s
    iff s.flt.ucEn (raiseVec 8) (iff first freezeOnUc s)
  | .fa => modFlt (fun f => { f with capFa := fill f.capFa }) s

/-! ## Injection (R424, R425) -/

/-- The armed injection has acted: it stays only where it persists. -/
def injSpent (s : State) : State := modFlt (fun f => { f with injFired := true, injActive := f.injPersist }) s

/-- An injection armed for a target acts on its next checked word: its MASK, and the collector after. -/
def injFire (blk inst chk : Nat) (s : State) : Option Word × State :=
  let f := s.flt
  if f.injActive && f.injBlock.toNat == blk && f.injInst.toNat == inst && f.injChecker.toNat == chk then (some f.injMask, injSpent s)
  else (none, s)

/-- What a checker makes of a codeword of stack m with check symbols inverted by an injection (R308, R424): up to four are corrected, and up to
two with a memory die marked; what the code yields beyond that is open (log entry 2). -/
def injectCw (m : Nat) (r : CwResult) (s : State) : CwResult × Bool × State :=
  let (fire, s) := injFire 4 m 0 s
  match fire with
  | none => (r, false, s)
  | some w =>
    let n := popc (BitVec.ofNat 8 w.toNat)
    let beyond := decide (n > if (stackOf s m).marked = 15 then 4 else 2)
    let (v, s) := if beyond then draw s else (0, s)
    if n = 0 then (r, false, s)
    else match r with
      | .uncorrectable => (.uncorrectable, true, s)
      | _ => (if beyond && v.getLsbD 0 then .uncorrectable else .corrected none, true, s)

/-- An injection armed for a checker of a switch core acts (R424): 0 Glade, 1 route table, 2 bridge. What such an error leads to is the
checkers' report, which comes as a command of its own (R420). -/
def swcInject (d chk : Nat) (s : State) : State := (injFire 2 d chk s).2

/-- A persistent injection whose target is retired, lost or fenced disarms itself (R425). -/
def disarmAt (hit : Nat → Nat → Bool) (s : State) : State :=
  if s.flt.injActive && s.flt.injPersist && hit s.flt.injBlock.toNat s.flt.injInst.toNat then modFlt (fun f => { f with injActive := false }) s
  else s

/-! ## The event recorder (R426 to R433) -/

/-- Class and fault of each event code (R419, R436, and the rules that define the codes from 0x6100). -/
def evKind (code : Nat) : EvClass × FaultKind :=
  if code ∈ [0x0001, 0x0012, 0x2031, 0x3004, 0x3005, 0x3020, 0x3021, 0x3103, 0x4020, 0x5030, 0x5031, 0x5032, 0x5033, 0x5034,
      0x5035, 0x5036, 0x5110, 0x5111, 0x5120, 0x6110, 0x6111, 0x6112, 0x7001, 0x7002, 0x7003, 0x7010, 0x7020] then (.h, .none)
  else if code ∈ [0x0002, 0x0010, 0x2101, 0x3001, 0x3003, 0x3010, 0x3101, 0x3102, 0x6101] then (.h, .ce)
  else if code ∈ [0x0003, 0x0004, 0x0011, 0x1001, 0x1002, 0x1101, 0x2040, 0x2102, 0x2103, 0x3002, 0x3006, 0x3011, 0x3104,
      0x5001, 0x5002, 0x5040] then (.h, .uc)
  else if code ∈ [0x5003, 0x5004, 0x6001, 0x6002] then (.h, .fa)
  else if code ∈ [0x0005, 0x2030] then (.f, .uc)
  else (.f, .none)

/-- An erased slot is there for the next record (R433). -/
def slotFree (e : EvrSt) : Bool := decide (e.curSlot < 64) || !e.erased.isEmpty

/-- Hand a record to persistence (R432, R433, R435). -/
def persist (r : Record) (s : State) : State :=
  let wanted := r.cls == .h || r.fault == .fa || s.evr.persistF
  if !wanted || s.evr.stopped then s
  else if !s.evr.scanned then modEvr (fun e => { e with scanQueue := e.scanQueue ++ [r] }) s
  else if s.evr.queue.length < 64 && slotFree s.evr then modEvr (fun e => { e with queue := e.queue ++ [r] }) s
  else evrCnt 0x110 1 s

/-- Place a record in SRAM (R429). -/
def place (r : Record) (s : State) : State :=
  let e := s.evr
  if r.cls == .h && decide (e.kept.length < 1024) then modEvr (fun e => { e with kept := e.kept ++ [r] }) s
  else if e.ring.length < 15360 then modEvr (fun e => { e with ring := e.ring ++ [r] }) s
  else match e.ring.find? (fun x => x.cls == .f) with
    | some x => evrCnt 0x108 1 (modEvr (fun e => { e with ring := dropFirst x e.ring ++ [r] }) s)
    | none => evrCnt 0x10C 1 (modEvr (fun e => { e with ring := e.ring.drop 1 ++ [r] }) s)

/-- A worker forwards a class F record, at most 1,000 a second (R430). -/
def forwardRec (r : Record) (s : State) : State :=
  if r.cls == .f && !isMgr s then
    let sec := s.clock / 1000000000
    let n := if s.evr.fwdSecond = sec then s.evr.fwdCount else 0
    if n < 1000 then
      emit (.forwardEvent s.gctl.actingId r) (modEvr (fun e => { e with fwdSecond := sec, fwdCount := n + 1 }) s)
    else evrCnt 0x118 1 s
  else s

/-- Does an event fold into record r (R428)? -/
def identical (r : Record) (code blk inst : Nat) (detail : List Byte) (inj : Bool) : Bool :=
  r.code == BitVec.ofNat 16 code && r.block == BitVec.ofNat 8 blk && r.inst == BitVec.ofNat 16 inst &&
    decide (r.detail = detail) && r.injected == inj

/-- One more repeat of a record (R428). -/
def repeatRec (r : Record) : Record :=
  if r.reps = 0xFFFF#16 then { r with repeatSat := true } else { r with reps := r.reps + 1 }

/-- Fold an event into the newest record. -/
def foldNewest (s : State) : State :=
  let up (l : List Record) := l.map fun r => if r.seq = s.evr.headSeq then repeatRec r else r
  evrCnt 0x104 1 (modEvr (fun e => { e with kept := up e.kept, ring := up e.ring }) s)

/-- The newest record in SRAM. -/
def newestRec (s : State) : Option Record := (s.evr.kept ++ s.evr.ring).find? fun r => r.seq == s.evr.headSeq

/-- Enter a record under the next SEQ: SRAM, persistence and the recorder's vector. -/
def enterRec (r0 : Record) (s : State) : State :=
  let r := { r0 with seq := s.evr.headSeq + 1 }
  let s := place r (evrCnt 0x100 1 (modEvr (fun e => { e with headSeq := r.seq }) s))
  let s := persist r s
  iff (if r.cls == .h then s.evr.intH else s.evr.intF) (raiseVec 9) s

/-- The stamp of a record (R426, R427). -/
def stampOf (s : State) (c : EvClass) : BitVec 80 :=
  match c with
  | .h => BitVec.ofNat 80 (opSec s % 2 ^ 40 + s.evr.cycles.toNat * 2 ^ 40)
  | .f => (fabNs s).setWidth 80 ||| (((fabT s).setWidth 16).setWidth 80 <<< 64)

/-- A new record of an event, its SEQ still to be given. -/
def newRec (code blk inst : Nat) (detail : List Byte) (inj : Bool) (s : State) : Record :=
  let c := (evKind code).1
  { seq := 0, code := BitVec.ofNat 16 code, cls := c, fault := (evKind code).2, injected := inj,
    untraceable := c == .f && !s.tim.traceable, repeatSat := false, block := BitVec.ofNat 8 blk,
    inst := BitVec.ofNat 16 inst, reps := 0, stamp := stampOf s c, source := s.gctl.coord, detail := detail }

/-- The vector of the source whose events a code stands for (R378, R436; log entry 116). -/
def eventVec (code : Nat) : Option Nat :=
  match code / 4096 with
  | 2 => some 46
  | 4 => some 10
  | 6 => some 43
  | _ => none

/-- Log an event: capture its fault, then fold it into an identical newest record or enter a new one (R422, R426 to R430). acc and
addr are the access type and address of the capture; inj marks an injected error. -/
def logEvent' (code blk inst : Nat) (detail : List Byte) (acc addr : Nat) (inj : Bool) (s : State) : State :=
  if s.rst.held then s
  else
    let s := each (eventVec code).toList raiseVec (capture (evKind code).2 code blk inst acc addr inj s)
    let det := trimZ (detail.take 32)
    if (match newestRec s with | some r => identical r code blk inst det inj | none => false) then foldNewest s
    else
      let s := enterRec (newRec code blk inst det inj s) s
      match newestRec s with
      | some r => forwardRec r s
      | none => s

/-- Log an event found by a check, at no address. -/
def logEvent (code blk inst : Nat) (detail : List Byte) : State → State := logEvent' code blk inst detail 2 0 false

/-! ## Codewords of the DRAM stacks (R308 to R311, R326) -/

/-- Is a row that n bytes from an offset of a stack touch being spared (R311)? An access to it waits. -/
def rowBusy (s : State) (m ofs n : Nat) : Bool :=
  (stackOf s m).sparing.any fun r => (List.range (codewords ofs n)).any fun i => Config.rowOf (ofs / 64 * 64 + 64 * i) == r

/-- A codeword corrected wholly in one memory die counts toward marking that die (R309). -/
def dieTally (m : Nat) (d : Option (Fin 15)) (s : State) : State :=
  match d with
  | some d => modStack m (fun k => { k with tally := tset [] k.tally d ((s.clock :: tget [] k.tally d).take 64) }) s
  | none => s

/-- Does a memory die meet the test of R309: 64 codewords in one second? -/
def dieDue (s : State) (m d : Nat) : Bool :=
  let l := tget [] (stackOf s m).tally d
  l.length == 64 && l.getLast?.any fun t => decide (s.clock ≤ t + 1000000000)

/-- A reader reads n bytes at an offset of stack m, and r is what the controller made of a codeword there (R308, R310): an injection acts, a
codeword held bad stays uncorrectable, and an error is logged and counted. acc is the access type of a capture. -/
def cwRead (m ofs n acc : Nat) (r : CwResult) (s : State) : CwResult × State :=
  let (r, inj, s) := injectCw m r s
  let bad := (stackOf s m).bad.find? fun w => decide (ofs / 64 ≤ w ∧ w < ofs / 64 + codewords ofs n)
  let r := if bad.isSome then .uncorrectable else r
  match r with
  | .clean => (r, s)
  | .corrected d => (r, dieTally m d (logEvent' 0x3001 4 m [] acc ofs inj (memCnt m 0x100 1 s)))
  | .uncorrectable =>
    (r, modStack m (fun k => { k with bad := insNat (bad.getD (ofs / 64)) k.bad }) (logEvent' 0x3002 4 m (bytesLE 5 ofs) acc ofs inj (memCnt m 0x104 1 s)))

/-- A write of n bytes at an offset of stack m clears the faults of the codewords it covers whole (R310). -/
def cwWritten (m ofs n : Nat) (s : State) : State :=
  if (stackOf s m).bad.any fun w => decide (ofs ≤ 64 * w ∧ 64 * w + 64 ≤ ofs + n) then
    modStack m (fun k => { k with bad := k.bad.filter fun w => !decide (ofs ≤ 64 * w ∧ 64 * w + 64 ≤ ofs + n) }) s
  else s

/-- The active management block's number. -/
def mbInst (s : State) : Nat := match s.units.active with | .mb0 => 0 | .mb1 => 1

/-- Log an event of the management block. -/
def logMb (code : Nat) (detail : List Byte) (s : State) : State := logEvent code 5 (mbInst s) detail s

/-- The 64 bytes of a record (R426). -/
def recBytes (r : Record) : List Byte :=
  let body := bytesLE 4 r.seq.toNat ++ bytesLE 2 r.code.toNat ++
    [BitVec.ofNat 8 ((match r.cls with | .h => 0 | .f => 1) * 64 + (match r.fault with | .none => 0 | .ce => 1 | .uc => 2 | .fa => 3) * 16 +
      b2n r.injected * 8 + b2n r.untraceable * 4 + b2n r.repeatSat * 2), r.block] ++
    bytesLE 2 r.inst.toNat ++ bytesLE 2 r.reps.toNat ++ bytesLE 10 r.stamp.toNat ++ bytesLE 2 r.source.toNat ++ sub r.detail 0 32 ++
    List.replicate 4 0
  body ++ bytesLE 4 (crc32c body).toNat

end Sys2Proof.Machine
end

