-- ==== Sys2Proof/Machine/Packet.lean ====
section
/-! DEFINITION. Packet layouts of chapter 3: the base header (R79), the extension headers (R83 to R87), lengths (R88), the
payload cut into flits (R42, R43), and the header checks of R96. -/

namespace Sys2Proof.Machine

abbrev Hdr := BitVec 256

def hVer (h : Hdr) : Nat := fld h 252 4
def hNext (h : Hdr) : Nat := fld h 248 4
def hPtype (h : Hdr) : Nat := fld h 245 3
def hTc (h : Hdr) : Nat := fld h 242 3
def hColour (h : Hdr) : Nat := fld h 240 2
def hEcn (h : Hdr) : Nat := fld h 238 2
def hOrdered (h : Hdr) : Bool := bitOf h 237
def hDst (h : Hdr) : Nat := fld h 212 20
def hSrc (h : Hdr) : Nat := fld h 192 20
def hPkey (h : Hdr) : Nat := fld h 176 16
def hPlen (h : Hdr) : Nat := fld h 163 13
def hHops (h : Hdr) : Nat := fld h 152 8
def hGroup (h : Hdr) : Nat := fld h 128 24
def hStep (h : Hdr) : Nat := fld h 80 48
def hChunk (h : Hdr) : Nat := fld h 64 16
def hFmt (h : Hdr) : Nat := fld h 60 4
def hLast (h : Hdr) : Bool := bitOf h 59

/-- The codes of PTYPE (R79). -/
def ptData : Nat := 0
def ptChunk : Nat := 1
def ptCtrl : Nat := 2
def ptMgmt : Nat := 3
def ptMirror : Nat := 4

/-- A base header from its fields: PTYPE, TC, DST, SRC, PKEY, PLEN, HOPS, GROUP, STEP, CHUNK, FMT, LAST (R79). -/
def mkHdr (next ptype tc dst src pkey plen hops group step chunk fmt : Nat) (last : Bool) : Hdr :=
  BitVec.ofNat 256 (1 * 2 ^ 252 + (next % 16) * 2 ^ 248 + (ptype % 8) * 2 ^ 245 + (tc % 8) * 2 ^ 242 + (dst % 2 ^ 20) * 2 ^ 212 +
    (src % 2 ^ 20) * 2 ^ 192 + (pkey % 2 ^ 16) * 2 ^ 176 + (plen % 2 ^ 13) * 2 ^ 163 + (hops % 256) * 2 ^ 152 +
    (group % 2 ^ 24) * 2 ^ 128 + (step % 2 ^ 48) * 2 ^ 80 + (chunk % 2 ^ 16) * 2 ^ 64 + (fmt % 16) * 2 ^ 60 + b2n last * 2 ^ 59)

/-- The 32 bytes of a base header, byte 0 first (R79). -/
def hdrBytes (h : Hdr) : List Byte := bytesBE 32 h.toNat
/-- The base header that 32 bytes spell. -/
def hdrOf (l : List Byte) : Hdr := BitVec.ofNat 256 (be l 0 32)

abbrev Ext := BitVec 128
def xNext (x : Ext) : Nat := fld x 124 4
def extBytes (x : Ext) : List Byte := bytesBE 16 x.toNat
def extOf (l : List Byte) (ofs : Nat) : Ext := BitVec.ofNat 128 (be l ofs 16)

/-- TKEY of a partition tunnel. -/
def xTkey (x : Ext) : Nat := fld x 108 16
/-- HOPS_SEEN, MAXQ of a telemetry insert. -/
def xHopsSeen (x : Ext) : Nat := fld x 116 8
def xMaxq (x : Ext) : Nat := fld x 44 24

/-- The extension headers of a chain that starts with type nxt at byte ofs, with their types; at most n (R83). -/
def chain (l : List Byte) : Nat → Nat → Nat → List (Nat × Ext)
  | 0, _, _ => []
  | n + 1, nxt, ofs =>
    if nxt = 0 then [] else let x := extOf l ofs; (nxt, x) :: chain l n (xNext x) (ofs + 16)

/-- The types of a packet's extensions in order. -/
def extTypes (h : Hdr) : List Ext → List Nat
  | [] => []
  | x :: r => hNext h :: (x :: r).dropLast.map xNext

/-- The extension of a given type, if the packet has one. -/
def extOfType (h : Hdr) (xs : List Ext) (t : Nat) : Option (Nat × Ext) :=
  ((extTypes h xs).zip (List.range xs.length)).find? (fun e => e.1 == t) |>.bind fun e => (xs[e.2]?).map fun x => (e.2, x)

/-- Total length (R88). -/
def totalLen (h : Hdr) (n : Nat) : Nat := 32 + 16 * n + hPlen h
/-- Flits of a total length (R88). -/
def flitsOf (total : Nat) : Nat := cdiv total 232
/-- Glade cells of a total length (R136). -/
def cellsOf (total : Nat) : Nat := cdiv total 256

/-- Block bytes of a format (R216). -/
def blockBytes (f : Nat) : Nat :=
  match f with
  | 0x0 => 32 | 0x1 => 64 | 0x2 => 128 | 0x3 => 32 | 0x4 => 32 | 0x5 => 64 | 0x6 => 64 | 0x7 => 128 | 0x8 => 256
  | 0x9 => 17 | 0xA => 25 | 0xB => 25 | 0xC => 33 | 0xD => 33 | 0xE => 132 | _ => 1

/-- Elements of a format in 4,096 B (R216). -/
def capacity (f : Nat) : Nat := 32 * (4096 / blockBytes f)

/-- The bytes a packet has on the wire as far as they have arrived (R79, R83). -/
def wire (p : Pkt) : List Byte := hdrBytes p.hdr ++ p.exts.flatMap extBytes ++ p.body

/-- Total length of a packet. -/
def pktTotal (p : Pkt) : Nat := totalLen p.hdr p.exts.length

/-- May a packet type travel on a VC (R81)? -/
def vcAllowed (ptype vc : Nat) : Bool :=
  if ptype = ptMgmt then vc == 0
  else if ptype = ptChunk || ptype = ptCtrl then vc == 1 || vc == 2
  else if ptype = ptData || ptype = ptMirror then decide (3 ≤ vc ∧ vc ≤ 6)
  else false

/-- Are the must-be-zero fields zero (R79)? -/
def zerosOk (h : Hdr) : Bool :=
  fld h 232 5 == 0 && fld h 160 3 == 0 && (hPtype h != ptChunk || fld h 56 3 == 0) &&
    (!(hPtype h == ptChunk || hPtype h == ptCtrl || hPtype h == ptMirror) || fld h 0 56 == 0)

/-- Is key allowed at position pos (R93)? endp marks an endpoint-facing sub-link. -/
def keyAllowed (s : State) (pos key : Nat) (endp : Bool) : Bool :=
  let d := pos / 288
  if key = 0 then false
  else match tget none (swcOf s d).members key with
    | some m => bitOf m (pos % 288)
    | none => !endp

/-- The ingress checks of R96 on a HEAD or SINGLE flit that arrived on sub-link k and virtual channel vc: the counter of the first
check that fails, or the packet's header and extensions. len is the valid payload of the flit, single its kind. -/
def headChecks (s : State) (k vc : Nat) (data : List Byte) (len : Nat) (single : Bool) : Sum Nat (Hdr × List Ext) :=
  let l := data.take len
  let h := hdrOf (sub l 0 32)
  let link := linkOf s k
  let endp := !link.peerSwitch
  let ch := chain l 3 (hNext h) 32
  let types := ch.map Prod.fst
  let exts := ch.map Prod.snd
  let own := hDst h == s.gctl.ownId.toNat
  if exts.length == 3 && (match exts.getLast? with | some x => xNext x != 0 | none => false) then .inl 0x120
  else if (!types.Nodup) || types.any (fun t => decide (t > 3)) || (endp && types.contains 3) then .inl 0x124
  else if hVer h ≠ 1 || hPtype h > 4 || hColour h = 3 || hSrc h = 0 || hSrc h = 0xFFFFF || hDst h = 0 || hDst h = 0xFFFFF ||
      !vcAllowed (hPtype h) vc || hPlen h > 4096 || (own && hPtype h ≠ ptMgmt && hPtype h ≠ ptCtrl) || !zerosOk h ||
      (hPtype h = ptMgmt && hPkey h ≠ 0xFFFF) || (hPtype h = ptChunk && hFmt h = 0xF) ||
      (single && len < 32 + 16 * exts.length) then .inl 0x128
  else if endp && hSrc h ≠ link.ident.toNat then .inl 0x138
  else if !keyAllowed s k (hPkey h) endp then .inl 0x13C
  else if (match extOfType h exts 1 with
      | some (_, x) => !(swcOf s (k / 288)).tunnels.contains (BitVec.ofNat 16 (hPkey h), BitVec.ofNat 16 (xTkey x))
      | none => false) then .inl 0x144
  else if hHops h = 0 then .inl 0x148
  else if hPtype h = ptChunk && hPlen h % blockBytes (hFmt h) ≠ 0 then .inl 0x14C
  else .inr (h, exts)

/-- The header after ingress: HOPS lower by one (R82). -/
def ingressHdr (h : Hdr) : Hdr := setFld h 152 8 (hHops h - 1)

/-- The 128-bit flit header as bytes, and the whole 256 B flit (R42). -/
def flitBytes (f : Flit) : List Byte :=
  let h : Nat := f.seq.toNat * 2 ^ 104 + (f.vc % 8) * 2 ^ 101 + f.typ.toNat * 2 ^ 98 + (f.len % 256) * 2 ^ 90 + b2n f.poison * 2 ^ 89 +
    b2n f.replay * 2 ^ 88
  let body := bytesBE 16 h ++ sub f.data 0 232
  body ++ bytesBE 8 (crc64 body).toNat

/-- The flit that 256 received bytes spell (R42). -/
def flitOfBytes (l : List Byte) : Flit :=
  let h : BitVec 128 := BitVec.ofNat 128 (be l 0 16)
  { seq := h.extractLsb' 104 24, vc := fld h 101 3, typ := h.extractLsb' 98 3, len := fld h 90 8, poison := bitOf h 89,
    replay := bitOf h 88, data := sub l 16 232, sentAt := 0 }

/-- The telemetry insert as changed at egress (R86): residence in ns, own coordinate, port and queue. -/
def telemetryOut (x : Ext) (res : Nat) (coord port q : Nat) : Ext :=
  let r := min res 16777215
  let x := setFld x 116 8 (min (xHopsSeen x + 1) 255)
  if r > xMaxq x then setFld (setFld (setFld (setFld x 44 24 r) 28 16 coord) 19 9 port) 16 3 q else x

end Sys2Proof.Machine
end

