-- ==== Sys2Proof/Machine/Arith.lean ====
section
/-! DEFINITION. Number formats and reduction arithmetic (chapter 8), the shard planes and update rules (chapter 10), and the
polynomial hash of the digest (chapter 11), as functions of values. -/

namespace Sys2Proof.Machine

/-! ## Elements (R216 to R219) -/

/-- A decoded element: the exact value m × 2^e, a NaN, or an infinity. -/
inductive El where
  | val (m e : Int)
  | nan
  | inf (neg : Bool)
deriving DecidableEq, Repr

/-- Exponent bits, mantissa bits and bias of a floating format or MX element type; E4M3 has no infinity. -/
structure FloatFmt where
  eb : Nat
  mb : Nat
  bias : Int
  /-- 0 infinities and NaNs in the top exponent, 1 one NaN only (E4M3), 2 neither (E2M1, E2M3, E3M2). -/
  top : Nat
deriving DecidableEq, Repr

/-- The floating formats (R217) and the element types of the MX formats (R218). -/
def floatFmt (f : Nat) : Option FloatFmt :=
  match f with
  | 0x3 => some ⟨4, 3, 7, 1⟩
  | 0x4 => some ⟨5, 2, 15, 0⟩
  | 0x5 => some ⟨5, 10, 15, 0⟩
  | 0x6 => some ⟨8, 7, 127, 0⟩
  | 0x7 => some ⟨8, 23, 127, 0⟩
  | 0x8 => some ⟨11, 52, 1023, 0⟩
  | 0x9 => some ⟨2, 1, 1, 2⟩
  | 0xA => some ⟨2, 3, 1, 2⟩
  | 0xB => some ⟨3, 2, 3, 2⟩
  | 0xC => some ⟨4, 3, 7, 1⟩
  | _ => none

/-- Element bits of a format. -/
def elemBits (f : Nat) : Nat :=
  match f with
  | 0x0 => 8 | 0x1 => 16 | 0x2 => 32 | 0x3 => 8 | 0x4 => 8 | 0x5 => 16 | 0x6 => 16 | 0x7 => 32 | 0x8 => 64
  | 0x9 => 4 | 0xA => 6 | 0xB => 6 | 0xC => 8 | 0xD => 8 | _ => 32

/-- Is the format an integer format (0x0 to 0x2)? -/
def isInt (f : Nat) : Bool := f ≤ 2
/-- Is the format an MX format (0x9 to 0xD)? -/
def isMx (f : Nat) : Bool := decide (9 ≤ f ∧ f ≤ 13)

/-- The value of n bits read as two's complement. -/
def signed (n v : Nat) : Int := if v < 2 ^ (n - 1) then (v : Int) else (v : Int) - (2 ^ n : Nat)

/-- Decode a floating element: the element and whether it is a subnormal (R217). -/
def decodeFloat (t : FloatFmt) (v : Nat) : El × Bool :=
  let man := v % 2 ^ t.mb
  let ex := v / 2 ^ t.mb % 2 ^ t.eb
  let neg := v / 2 ^ (t.mb + t.eb) % 2 = 1
  let sg (n : Nat) : Int := if neg then -(n : Int) else (n : Int)
  if ex = 2 ^ t.eb - 1 ∧ t.top = 0 then (if man = 0 then (.inf neg, false) else (.nan, false))
  else if ex = 2 ^ t.eb - 1 ∧ t.top = 1 ∧ man = 2 ^ t.mb - 1 then (.nan, false)
  else if ex = 0 then (.val (sg man) (1 - t.bias - t.mb), decide (man ≠ 0))
  else (.val (sg (2 ^ t.mb + man)) ((ex : Int) - t.bias - t.mb), false)

/-- The largest finite value of a floating format: integer and exponent. -/
def maxFinite (t : FloatFmt) : Nat × Int :=
  match t.top with
  | 0 => (2 ^ (t.mb + 1) - 1, (2 ^ t.eb - 2 : Nat) - t.bias - t.mb)
  | 1 => (2 ^ (t.mb + 1) - 2, (2 ^ t.eb - 1 : Nat) - t.bias - t.mb)
  | _ => (2 ^ (t.mb + 1) - 1, (2 ^ t.eb - 1 : Nat) - t.bias - t.mb)

/-- Element i's bits in a block's element bytes (R219). -/
def elemAt (f : Nat) (bs : List Byte) (i : Nat) : Nat :=
  match elemBits f with
  | 4 => let b := (byteAt bs (i / 2)).toNat; if i % 2 = 0 then b % 16 else b / 16
  | 6 => le bs (i / 4 * 3) 3 / 2 ^ (6 * (i % 4)) % 64
  | n => le bs (i * (n / 8)) (n / 8)

/-- A decoded block: for each of 32 elements its value and its raw bits; blockNan holds the block-level field that makes the whole
block a NaN; subs marks subnormal inputs (R218). -/
structure RawBlock where
  els : List (El × Nat)
  subs : List Bool
  blockNan : Option Nat
deriving DecidableEq, Repr

/-- Decode one block of a format. -/
def decodeBlock (f : Nat) (bs : List Byte) : RawBlock :=
  if f = 0xE then
    let w := le bs 0 4
    let x := signed 16 (w % 65536)
    let bad := decide (w / 65536 ≠ 0) || decide (x < -149) || decide (x > 97)
    { els := (List.range 32).map fun i => let v := le bs (4 + 4 * i) 4; (.val (signed 32 v) x, v),
      subs := List.replicate 32 false, blockNan := if bad then some w else none }
  else if isMx f then
    let sc := (byteAt bs 0).toNat
    let e : Int := (sc : Int) - 127
    let one (i : Nat) : El × Nat :=
      let v := elemAt f (bs.drop 1) i
      match floatFmt f with
      | some t => match (decodeFloat t v).1 with
        | .val m x => (.val m (x + e), v)
        | y => (y, v)
      | none => (.val (signed 8 v) (e - 6), v)
    { els := (List.range 32).map one, subs := List.replicate 32 false, blockNan := if sc = 255 then some 255 else none }
  else
    let one (i : Nat) : (El × Nat) × Bool :=
      let v := elemAt f bs i
      match floatFmt f with
      | some t => let d := decodeFloat t v; ((d.1, v), d.2)
      | none => ((.val (signed (elemBits f) v) 0, v), false)
    let l := (List.range 32).map one
    { els := l.map Prod.fst, subs := l.map Prod.snd, blockNan := none }

/-- The blocks of a payload. -/
def blocksOf (f : Nat) (bs : List Byte) : List (List Byte) :=
  (List.range (bs.length / blockBytes f)).map fun b => sub bs (b * blockBytes f) (blockBytes f)

/-- What decoding an input block gives: exact values, or the first trap: NaN or infinity, its element offset in the block and the
offending encoding (R235 to R238). -/
structure Decoded where
  vals : List (Int × Int)
  flushes : Nat
  sats : Nat
  trap : Option (Bool × Nat × Nat)
deriving DecidableEq, Repr

/-- Decode with the flags of the group: KEEP_SUB and INF_TRAP. A trap is (is a NaN, element offset, encoding). -/
def decodeVals (f : Nat) (keepSub infTrap : Bool) (bs : List Byte) : Decoded :=
  let r := decodeBlock f bs
  let raw v := if f = 8 then v / 2 ^ 32 else v
  let nan := match r.blockNan with
    | some w => some (true, 0, w)
    | none => ((r.els.zip (List.range 32)).find? fun e => e.1.1 == El.nan).map fun e => (true, e.2, raw e.1.2)
  let inf := if infTrap then
      ((r.els.zip (List.range 32)).find? fun e => e.1.1 == El.inf true || e.1.1 == El.inf false).map fun e => (false, e.2, raw e.1.2)
    else none
  let big : Int × Int := match floatFmt f with | some t => ((maxFinite t).1, (maxFinite t).2) | none => (0, 0)
  let vals := (r.els.zip r.subs).map fun e =>
    match e.1.1 with
    | .val m x => if e.2 && !keepSub then (0, 0) else (m, x)
    | .inf neg => if neg then (-big.1, big.2) else big
    | .nan => (0, 0)
  { vals := vals, flushes := if keepSub then 0 else (r.subs.filter id).length,
    sats := if infTrap then 0 else (r.els.filter fun e => e.1 == El.inf true || e.1 == El.inf false).length,
    trap := match nan with | some t => some t | none => inf }

/-! ## CIF-48 (R222 to R227) -/

/-- Number of bits of a magnitude. -/
def blen (m : Int) : Nat := if m = 0 then 0 else Nat.log2 m.natAbs + 1

/-- m × 2^e in units of 2^x, truncated toward zero. -/
def toGrid (m e x : Int) : Int := if e ≥ x then m * (2 ^ (e - x).toNat : Nat) else Int.tdiv m (2 ^ (x - e).toNat : Nat)

/-- Place exact values on a common exponent so that the largest magnitude lies in [2^39, 2^40) (R222). -/
def alignVals (vs : List (Int × Int)) : List Int × Int :=
  let tops := vs.filterMap fun v => if v.1 = 0 then none else some ((blen v.1 : Int) + v.2)
  match tops with
  | [] => (vs.map fun _ => 0, -2048)
  | t :: ts =>
    let x := ts.foldl max t - 40
    (vs.map fun v => toGrid v.1 v.2 x, x)

/-- A decoded input block in CIF-48 (R222). -/
def cifBlock (f : Nat) (vs : List (Int × Int)) : MBlock :=
  if isInt f then { m := vs.map Prod.fst, x := 0 } else let a := alignVals vs; { m := a.1, x := a.2 }

/-- Renormalise: a magnitude of 2^46 or more shifts the block right by one (R223). -/
def renorm (m : List Int) (x : Int) : List Int × Int :=
  if m.any fun v => decide (v.natAbs ≥ 2 ^ 46) then (m.map fun v => Int.tdiv v 2, x + 1) else (m, x)

/-- One element combined by COMB (R184, R225); AVG combines as SUM. -/
def combEl (w comb : Nat) (a b : Int) : Int :=
  match comb with
  | 2 => min a b
  | 3 => max a b
  | 4 => (BitVec.ofInt w a &&& BitVec.ofInt w b).toInt
  | 5 => (BitVec.ofInt w a ||| BitVec.ofInt w b).toInt
  | 6 => (BitVec.ofInt w a ^^^ BitVec.ofInt w b).toInt
  | _ => a + b

/-- Align two planes to the larger exponent and combine them element by element (R223). -/
def combPlane (op : Int → Int → Int) (am : List Int) (ax : Int) (bm : List Int) (bx : Int) : List Int × Int :=
  let x := max ax bx
  let a := am.map fun v => toGrid v ax x
  let b := bm.map fun v => toGrid v bx x
  renorm (List.zipWith op a b) x

/-- Combine a block into the accumulated block (R223). -/
def combBlock (comb : Nat) (a b : MBlock) : MBlock :=
  let r := combPlane (combEl 48 comb) a.m a.x b.m b.x
  { m := r.1, x := r.2 }

/-- The product of R227: |m| × s without the partial-product bits of columns 0 to 18, over 2^24, with the sign. -/
def mulTrunc (m s : Int) : Int :=
  let a := m.natAbs
  let b := s.natAbs
  let omitted := (List.range 19).foldl (fun t j => if b.testBit j then t + a % 2 ^ (19 - j) * 2 ^ j else t) 0
  let p : Int := ((a * b - omitted) / 2 ^ 24 : Nat)
  if decide (m < 0) != decide (s < 0) then -p else p

/-- A plane times a scalar s × 2^(e − 23) (R227); a zero scalar gives a zero plane. -/
def scalePlane (m : List Int) (x s e : Int) : List Int × Int :=
  if s = 0 then (m.map fun _ => 0, -2048) else renorm (m.map fun v => mulTrunc v s) (x + e + 1)

/-- An FP32 scalar (R226): none for a NaN; otherwise significand, exponent, and whether it was an infinity. -/
def scalarOf (w : Word) : Option (Int × Int × Bool) :=
  match (decodeFloat ⟨8, 23, 127, 0⟩ w.toNat).1 with
  | .nan => none
  | .inf neg => some (if neg then -0xFFFFFF else 0xFFFFFF, 127, true)
  | .val m e =>
    if m = 0 then some (0, 0, false)
    else
      let sh := 24 - blen m
      some (m * (2 ^ sh : Nat), e - sh + 23, false)

/-- Round m × 2^e to a 24-bit significand, nearest even: s and e with value s × 2^(e − 23) (R226, R228). -/
def round24 (m e : Int) : Int × Int :=
  if m = 0 then (0, 0)
  else
    let n := blen m
    if n ≤ 24 then (m * (2 ^ (24 - n) : Nat), e - (24 - n : Nat) + 23)
    else
      let d := n - 24
      let a := m.natAbs
      let lo := a / 2 ^ d
      let rm := a % 2 ^ d
      let r := if 2 * rm > 2 ^ d ∨ (2 * rm = 2 ^ d ∧ lo % 2 = 1) then lo + 1 else lo
      let c : Bool := r == 2 ^ 24
      let r : Nat := if c then 2 ^ 23 else r
      let d : Nat := if c then d + 1 else d
      (if m < 0 then -(r : Int) else (r : Int), e + (d : Int) + 23)

/-- 1 ÷ N as FP32, nearest even (R226): significand and exponent. -/
def recipN (n : Nat) : Int × Int :=
  if n = 0 then (0, 0)
  else
    let k : Nat := 64
    let q : Nat := 2 ^ k / n
    let q' : Nat := if 2 ^ k % n = 0 then 2 * q else 2 * q + 1
    round24 q' (-(k : Int) - 1)

/-- The FP32 encoding of m × 2^e, nearest even, in range by saturation. -/
def fp32Of (m e : Int) : Word :=
  if m = 0 then 0
  else
    let top := (blen m : Int) + e
    let q := max (top - 24) (-149)
    let a := m.natAbs
    let (lo, up) := if e ≥ q then (a * 2 ^ (e - q).toNat, false) else
      let d := (q - e).toNat
      (a / 2 ^ d, decide (2 * (a % 2 ^ d) > 2 ^ d) || (decide (2 * (a % 2 ^ d) = 2 ^ d) && a / 2 ^ d % 2 == 1))
    let r := if up then lo + 1 else lo
    let v := if q = -149 then r else r + ((q + 149).toNat) * 2 ^ 23
    let v := min v 0x7F7FFFFF
    BitVec.ofNat 32 (if m < 0 then v + 2 ^ 31 else v)

/-! ## Casting (R231 to R236) -/

/-- |v| = |m| × 2^e rounded onto the grid of 2^q: nearest even, or stochastic with the draw r (R231). -/
def roundTo (rne : Bool) (r : Nat) (m e q : Int) : Nat :=
  let a := m.natAbs
  if e ≥ q then a * 2 ^ (e - q).toNat
  else
    let d := (q - e).toNat
    let lo := a / 2 ^ d
    let rm := a % 2 ^ d
    if rm = 0 then lo
    else if rne then (if 2 * rm > 2 ^ d ∨ (2 * rm = 2 ^ d ∧ lo % 2 = 1) then lo + 1 else lo)
    else (if r < rm * 65536 / 2 ^ d then lo + 1 else lo)

/-- Exponent of the leading bit of m × 2^e. -/
def topExp (m e : Int) : Int := (blen m : Int) - 1 + e

/-- A cast element: its bits, whether it saturated, whether it was flushed. -/
structure CastEl where
  bits : Nat
  sat : Bool
  flush : Bool
deriving DecidableEq, Repr

/-- Cast to a floating element type; subnormals are kept where keep is set. -/
def castFloat (t : FloatFmt) (keep rne : Bool) (r : Nat) (m e : Int) : CastEl :=
  if m = 0 then ⟨0, false, false⟩
  else
    let emin : Int := 1 - t.bias
    let q := max (topExp m e) emin - t.mb
    let n := roundTo rne r m e q
    let sign := if m < 0 then 2 ^ (t.eb + t.mb) else 0
    let (q, n) := if n = 2 ^ (t.mb + 1) then (q + 1, 2 ^ t.mb) else (q, n)
    let big := maxFinite t
    if n = 0 then ⟨0, false, false⟩
    else if q > big.2 ∨ (q = big.2 ∧ n > big.1) then
      let field := (big.2 + t.mb + t.bias).toNat
      ⟨sign + field * 2 ^ t.mb + (big.1 - 2 ^ t.mb), true, false⟩
    else if n < 2 ^ t.mb then (if keep then ⟨sign + n, false, false⟩ else ⟨0, false, true⟩)
    else ⟨sign + (q + t.mb + t.bias).toNat * 2 ^ t.mb + (n - 2 ^ t.mb), false, false⟩

/-- Cast to an integer of w bits, saturating (R232, R236). -/
def castInt (w : Nat) (rne : Bool) (r : Nat) (m e : Int) : CastEl :=
  let n : Int := roundTo rne r m e 0
  let v := if m < 0 then -n else n
  let hi : Int := (2 ^ (w - 1) : Nat) - 1
  let lo : Int := -(2 ^ (w - 1) : Nat)
  if v > hi then ⟨hi.toNat, true, false⟩
  else if v < lo then ⟨2 ^ (w - 1), true, false⟩
  else ⟨(BitVec.ofInt w v).toNat, false, false⟩

/-- The result of casting a block: its bytes, elements saturated with a flag and flushed, and the first element that saturated with
the encoding written. -/
structure CastBlock where
  bytes : List Byte
  sats : Nat
  flushes : Nat
  first : Option (Nat × Nat)
deriving DecidableEq, Repr

/-- Pack 32 elements of a format into bytes (R219). -/
def packElems (f : Nat) (els : List Nat) : List Byte :=
  match elemBits f with
  | 4 => (List.range 16).map fun i => BitVec.ofNat 8 (els.getD (2 * i) 0 + 16 * els.getD (2 * i + 1) 0)
  | 6 => (List.range 8).flatMap fun g => bytesLE 3 (els.getD (4 * g) 0 + 64 * els.getD (4 * g + 1) 0 + 4096 * els.getD (4 * g + 2) 0 +
      262144 * els.getD (4 * g + 3) 0)
  | n => els.flatMap fun v => bytesLE (n / 8) v

/-- Summarise cast elements. -/
def castOut (pre : List Byte) (f : Nat) (els : List CastEl) : CastBlock :=
  { bytes := pre ++ packElems f (els.map CastEl.bits), sats := (els.filter CastEl.sat).length, flushes := (els.filter CastEl.flush).length,
    first := ((els.zip (List.range els.length)).find? fun e => e.1.sat).map fun e => (e.2, if f = 8 then e.1.bits / 2 ^ 32 else e.1.bits) }

/-- Largest exponent of an MX element type (R232). -/
def mxEmax (f : Nat) : Int := match f with | 0x9 => 2 | 0xA => 2 | 0xB => 4 | 0xC => 8 | _ => 0

/-- A block of results of AND, OR or XOR in format f (R232): the low bits of the output width, never rounded. hdr is the block-level field of a
block-scaled format. -/
def castBits (f : Nat) (hdr : BitVec 64) (vs : List (Int × Int)) : CastBlock :=
  let pre := if f = 0xE then bytesLE 4 hdr.toNat else if isMx f then bytesLE 1 hdr.toNat else []
  castOut pre f (vs.map fun v => ⟨(BitVec.ofInt (elemBits f) (toGrid v.1 v.2 0)).toNat, false, false⟩)

/-- Cast a block of 32 exact values to format f with 32 draws (R231, R232, R235, R236). -/
def castBlock (f : Nat) (keepSub rne : Bool) (draws : List Nat) (vs : List (Int × Int)) : CastBlock :=
  let vd := vs.zip draws
  let tops := vs.filterMap fun v => if v.1 = 0 then none else some (topExp v.1 v.2)
  if f = 0xE then
    match tops with
    | [] => { bytes := bytesLE 4 (BitVec.ofInt 16 (-149)).toNat ++ List.replicate 128 0, sats := 0, flushes := 0, first := none }
    | t :: ts =>
      let x0 := min (max (ts.foldl max t - 30) (-149)) 97
      let at_ (x : Int) := vd.map fun v => (roundTo rne v.2 v.1.1 v.1.2 x, decide (v.1.1 < 0))
      let x := if x0 < 97 ∧ (at_ x0).any (fun n => n.1 ≥ 2 ^ 31) then x0 + 1 else x0
      let els := (at_ x).map fun n =>
        let sat := decide (n.1 > 2 ^ 31 - 1)
        let a : Nat := min n.1 (2 ^ 31 - 1)
        (⟨(BitVec.ofInt 32 (if n.2 then -(a : Int) else (a : Int))).toNat, sat, false⟩ : CastEl)
      castOut (bytesLE 4 (BitVec.ofInt 16 x).toNat) 0x2 els
  else if isMx f then
    match tops with
    | [] => { bytes := 0 :: List.replicate (blockBytes f - 1) 0, sats := 0, flushes := 0, first := none }
    | t :: ts =>
      let raw := ts.foldl max t - mxEmax f
      let sc := min (max raw (-127)) 127
      let els := vd.map fun v =>
        match floatFmt f with
        | some ft => let c := castFloat ft true rne v.2 v.1.1 (v.1.2 - sc); { c with sat := c.sat && decide (raw > 127) }
        | none =>
          let n := roundTo rne v.2 v.1.1 (v.1.2 - sc) (-6)
          let a := min n 127
          (⟨(BitVec.ofInt 8 (if v.1.1 < 0 then -(a : Int) else (a : Int))).toNat, decide (n > 127) && decide (raw > 127), false⟩ : CastEl)
      castOut [BitVec.ofNat 8 (sc + 127).toNat] f els
  else
    castOut [] f (vd.map fun v =>
      match floatFmt f with
      | some ft => castFloat ft keepSub rne v.2 v.1.1 v.1.2
      | none => castInt (elemBits f) rne v.2 v.1.1 v.1.2)

/-! ## Random bits (R233, R234) -/

/-- One step of the xorshift generator. -/
def xorshift (x : BitVec 64) : BitVec 64 :=
  let x := x ^^^ (x <<< 13)
  let x := x ^^^ (x >>> 7)
  x ^^^ (x <<< 17)

/-- The 32 draws of 16 bits of 8 generator outputs, in element order. -/
def drawsOf (ws : List (BitVec 64)) : List Nat := ws.flatMap fun w => [fld w 0 16, fld w 16 16, fld w 32 16, fld w 48 16]

/-- n generator outputs after the state x. -/
def genSteps : Nat → BitVec 64 → List (BitVec 64)
  | 0, _ => []
  | n + 1, x => let y := xorshift x; y :: genSteps n y

/-- The draws of a Worsted cast of block b of chunk k (R234). -/
def worstedDraws (seed : BitVec 64) (step k b coord : Nat) : List Nat :=
  let x := seed ^^^ (BitVec.ofNat 64 step * 0x9E3779B97F4A7C15#64)
  let x := x ^^^ (BitVec.ofNat 64 (256 * k + b) * 0xC2B2AE3D27D4EB4F#64)
  let x := x ^^^ (BitVec.ofNat 64 coord * 0x165667B19E3779F9#64)
  let x := if x = 0 then 1 else x
  drawsOf (genSteps 8 (xorshift x))

/-! ## The digest (R293 to R295) -/

/-- The product of GF(2^128) modulo x^128 + x^7 + x^2 + x + 1. -/
def gfMul (a b : BitVec 128) : BitVec 128 :=
  (List.range 128).foldl (fun acc i =>
    let acc := if acc.getLsbD 127 then (acc <<< 1) ^^^ 0x87#128 else acc <<< 1
    if b.getLsbD (127 - i) then acc ^^^ a else acc) 0

/-- The key H. -/
def gfH : BitVec 128 := 0x5B3A91C40E7D2F68A1C93B0476E2D58F#128

/-- The polynomial hash of a sequence of words. -/
def polyHash (us : List (BitVec 128)) : BitVec 128 := us.foldl (fun h u => gfMul (h ^^^ u) gfH) 0

/-- Bytes packed into words, 16 at a time, the last padded with zeros. -/
def packWords (l : List Byte) : List (BitVec 128) := (List.range (cdiv l.length 16)).map fun i => BitVec.ofNat 128 (be l (16 * i) 16)

/-- hk of DIG (R295). -/
def digHash (o : List Byte) (k : Nat) : BitVec 128 := polyHash (packWords o ++ [BitVec.ofNat 128 (k * 2 ^ 112 + o.length)])

/-- The term of a shard block read (R295). -/
def blkTerm (blk ver : Nat) : BitVec 128 := gfMul (gfMul (BitVec.ofNat 128 (blk * 2 ^ 48 + ver)) gfH) gfH

/-- DG at a step's open (R294). -/
def dgOpen (pi cs : BitVec 128) : BitVec 128 := gfMul (gfMul pi gfH ^^^ cs) gfH

/-- PI of a program (R294): entry, words up to and including END. -/
def progIdent (entry : Nat) (ws : List Word) (crc : Word) : BitVec 128 :=
  polyHash (BitVec.ofNat 128 (entry * 2 ^ 112 + ws.length * 2 ^ 96 + crc.toNat * 2 ^ 64) :: packWords (ws.flatMap fun w => bytesBE 4 w.toNat))

/-- CS of a group's members (R294). -/
def contribSet (ms : List Ident) : BitVec 128 :=
  polyHash (packWords (ms.flatMap fun m => bytesBE 4 m.toNat) ++ [BitVec.ofNat 128 ms.length])

/-! ## Shard planes and update rules (R266, R268, R275 to R278) -/

/-- Decode a plane of a shard block into UF-48: mantissas shifted left by sh, the exponent lowered to match (R276). -/
def ufOf (ms : List Int) (x : Int) (sh : Nat) : UBlock := { m := ms.map (· * (2 ^ sh : Nat)), x := x - sh }

/-- The exponent fields of a shard block as numbers. -/
def xOf (w : BitVec 16) : Int := w.toInt
/-- Is a block a NaN by its exponents (R267)? -/
def blkNan (b : ShardBlk) : Bool := [b.xw, b.x1, b.x2].any fun x => decide (xOf x < -1000) || decide (xOf x > 1000)

def wMant (b : ShardBlk) : List Int := (List.range 64).map fun i => (b.w.extractLsb' (32 * i) 32).toInt
def m1Mant (b : ShardBlk) : List Int := (List.range 64).map fun i => (b.m1.extractLsb' (16 * i) 16).toInt
def m2Mant (b : ShardBlk) : List Int := (List.range 64).map fun i => ((b.m2.extractLsb' (16 * i) 16).toNat : Int)

/-- Pack mantissas of w bits, element 0 lowest. -/
def packMant (w : Nat) (n : Nat) (ms : List Int) : BitVec n :=
  BitVec.ofNat n ((ms.zip (List.range ms.length)).foldl (fun a m => a + (BitVec.ofInt w m.1).toNat * 2 ^ (w * m.2)) 0)

/-- The 528 bytes of a shard block (R266). -/
def blkBytes (b : ShardBlk) : List Byte :=
  bytesLE 2 b.xw.toNat ++ bytesLE 2 b.x1.toNat ++ bytesLE 2 b.x2.toNat ++ bytesLE 6 b.ver.toNat ++ bytesLE 4 b.blk.toNat ++
    bytesLE 256 b.w.toNat ++ bytesLE 128 b.m1.toNat ++ bytesLE 128 b.m2.toNat

/-- The shard block that 528 bytes spell (R266). -/
def blkOf (l : List Byte) : ShardBlk :=
  { xw := BitVec.ofNat 16 (le l 0 2), x1 := BitVec.ofNat 16 (le l 2 2), x2 := BitVec.ofNat 16 (le l 4 2), ver := BitVec.ofNat 48 (le l 6 6),
    blk := BitVec.ofNat 32 (le l 12 4), w := BitVec.ofNat 2048 (le l 16 256), m1 := BitVec.ofNat 1024 (le l 272 128),
    m2 := BitVec.ofNat 1024 (le l 400 128) }

/-- Encode a plane (R268): largest magnitude in [2^(top−1), 2^top), nearest even; answers mantissas, exponent and whether magnitudes
were clamped. -/
def encPlane (top : Nat) (u : UBlock) : List Int × Int × Bool :=
  let tops := u.m.filterMap fun v => if v = 0 then none else some (topExp v u.x)
  match tops with
  | [] => (u.m.map fun _ => 0, 0, false)
  | t :: ts =>
    let x0 := ts.foldl max t - (top - 1 : Nat)
    let at_ (x : Int) := u.m.map fun v => let n : Int := roundTo true 0 v u.x x; if v < 0 then -n else n
    let x1 := if (at_ x0).any (fun v => v.natAbs ≥ 2 ^ top) then x0 + 1 else x0
    let x := min x1 1000
    let ms := at_ x
    let lim : Int := (2 ^ top : Nat) - 1
    (ms.map fun v => min (max v (-lim)) lim, x, ms.any fun v => decide (v > lim) || decide (v < -lim))

def uMap2 (op : Int → Int → Int) (a b : UBlock) : UBlock := let r := combPlane op a.m a.x b.m b.x; { m := r.1, x := r.2 }
def uAdd (a b : UBlock) : UBlock := uMap2 (· + ·) a b
def uSub (a b : UBlock) : UBlock := uMap2 (· - ·) a b
/-- mul(x, scalar) (R276). -/
def uScale (a : UBlock) (c : Int × Int) : UBlock := let r := scalePlane a.m a.x c.1 c.2; { m := r.1, x := r.2 }

/-- mul(x, y): each element by y's leading 24 bits of magnitude, the products aligned to the largest exponent by truncation
(R276; log entry 15). -/
def uMul (a b : UBlock) : UBlock :=
  let ps := List.zipWith (fun (x y : Int) =>
    if y = 0 ∨ x = 0 then ((0 : Int), (0 : Int), false)
    else
      let n := blen y
      let s : Int := if n ≤ 24 then y * (2 ^ (24 - n) : Nat) else Int.tdiv y (2 ^ (n - 24) : Nat)
      (mulTrunc x s, b.x + (n : Int) - 1 + 1, true)) a.m b.m
  let es := ps.filterMap fun p => if p.2.2 then some p.2.1 else none
  match es with
  | [] => { m := a.m.map fun _ => 0, x := -2048 }
  | e :: r =>
    let x := r.foldl max e
    let q := renorm (ps.map fun p => if p.2.2 then toGrid p.1 p.2.1 x else 0) (a.x + x)
    { m := q.1, x := q.2 }

/-- The integer square root, by bits from b down. -/
def isqrt (n : Nat) : Nat :=
  (List.range 40).foldl (fun r i => let c := r + 2 ^ (39 - i); if c * c ≤ n then c else r) 0

/-- 1 ÷ sqrt of m × 2^x for m > 0: a 24-bit significand within one unit, and its exponent (R278). -/
def rsqrtEl (m : Nat) (x : Int) : Int × Int :=
  let n := Nat.log2 m
  let top := (n : Int) + x
  let odd := top % 2 = 1
  let p := if odd then n - 1 else n
  let k := if odd then (top - 1) / 2 else top / 2
  let m' := if odd ∧ n = 0 then 2 * m else m
  let r := isqrt (2 ^ 48 * 2 ^ p / m')
  let exact := r * r * m' == 2 ^ 48 * 2 ^ p
  let r := match Config.rsqrtAdj m' % 3 with
    | 1 => min (r + 1) (2 ^ 24)
    | 2 => if exact then r - 1 else r
    | _ => r
  ((r : Int), -24 - k)

/-- rsqrt of a plane, aligned to its largest element by truncation; an element that is not positive gives 0 (R276, R278). -/
def uRsqrt (a : UBlock) : UBlock :=
  let r := alignVals (a.m.map fun v => if v ≤ 0 then (0, 0) else rsqrtEl v.toNat a.x)
  { m := r.1, x := r.2 }

/-- 1 − B for a decay rate, exact in [0.5, 1], else rounded to 24 bits (R275). -/
def oneMinus (c : Int × Int) : Int × Int :=
  let e := c.2 - 23
  let one : Int := if e ≤ 0 then (2 ^ (-e).toNat : Nat) else 0
  if e ≤ 0 then round24 (one - c.1) e else round24 (1 - c.1 * (2 ^ e.toNat : Nat)) 0

/-- The product of two scalars, rounded to a 24-bit significand (R228, R275). -/
def scalarMul (a b : Int × Int) : Int × Int := round24 (a.1 * b.1) (a.2 - 23 + (b.2 - 23))

/-- SGDM of R277 on the planes W and M1. -/
def sgdm (a w m1 : UBlock) (gs lr mu wd : Int × Int) : UBlock × UBlock :=
  let g := uAdd (uScale a gs) (uScale w wd)
  let m1 := uAdd (uScale m1 mu) g
  (uSub w (uScale m1 lr), m1)

/-- ADMW of R277 on the planes W, M1 and M2. -/
def admw (a w m1 m2 : UBlock) (gs lr b1 b2 c1 c2 omb1 omb2 epsSq lrWd : Int × Int) : UBlock × UBlock × UBlock :=
  let g := uScale a gs
  let m1 := uAdd (uScale m1 b1) (uScale g omb1)
  let m2 := uAdd (uScale m2 b2) (uScale (uMul g g) omb2)
  let eps : UBlock := { m := List.replicate 64 (epsSq.1 * (2 ^ 16 : Nat)), x := if epsSq.1 = 0 then -2048 else epsSq.2 - 23 - 16 }
  let vh := uAdd (uScale m2 c2) eps
  let u := uMul (uScale m1 c1) (uRsqrt vh)
  (uSub w (uAdd (uScale u lr) (uScale w lrWd)), m1, m2)

end Sys2Proof.Machine
end

