-- ==== Sys2Proof/Machine/Glade.lean ====
section
/-! DEFINITION. Packets inside the Skarad: ingress staging, route lookup (chapter 4), bridges, Glade admission and the output
queues with their shapers and schedulers (chapters 5 and 6). -/

namespace Sys2Proof.Machine

/-! ## The classes section (R137) -/

def classes (s : State) : Option ClassSect := s.img.map ImageContent.classes
/-- The queue number of a TC. -/
def tcQueue (s : State) (tc : Nat) : Nat := match classes s with | some c => (c.tcQueue.getD tc 0) % 8 | none => 0
/-- The VC of a TC. -/
def tcVc (s : State) (tc : Nat) : Nat := match classes s with | some c => (c.tcVc.getD tc 0) % 8 | none => 0
/-- The queues that the classes section maps to a VC (R165). -/
def queuesOfVc (s : State) (vc : Nat) : List Nat :=
  (List.range 8).filter fun q => (List.range 8).any fun tc => tcQueue s tc == q && tcVc s tc == vc
/-- A TC mapped to a VC, the lowest. -/
def tcOfVc (s : State) (vc : Nat) : Nat := ((List.range 8).find? fun tc => tcVc s tc == vc).getD 0
/-- AGE of a TC on a die (R161). -/
def ageUs (s : State) (d tc : Nat) : Nat := fld (tget 0 (swcOf s d).age tc) 0 14
/-- Is a TC lossless on a die (R141, R161)? -/
def lossless (s : State) (d tc : Nat) : Bool := tcVc s tc ≤ 2 || bitOf (tget 0 (swcOf s d).age tc) 31
/-- The queue key of a TC at the sub-link at pos. -/
def qkey (s : State) (pos tc : Nat) : Nat := 8 * pos + tcQueue s tc
/-- The fabric die of a position, and of a queue key. -/
def dieOf (pos : Nat) : Nat := pos / 288
def qdie (g : Nat) : Nat := g / 2304

/-! ## Ingress staging (R46, R47) -/

/-- Free n flits of ingress staging of a sub-link and VC (R46). -/
def releaseFlits (k vc n : Nat) : State → State := modLink k fun l =>
  { l with occ := tset 0 l.occ vc (tget 0 l.occ vc - n), freed := tset 0 l.freed vc (tget 0 l.freed vc + BitVec.ofNat 16 n) }

/-- The packet leaves ingress staging. -/
def leaveStaging (pid : Nat) (s : State) : State :=
  match pktOf s pid with
  | some p => match p.pos with
    | some k => modPkt pid (fun p => { p with stag := 0 }) (releaseFlits k p.vc p.stag s)
    | none => s
  | none => s

def stagingOf (s : State) (k vc : Nat) : List InEnt := tget [] s.staging (8 * k + vc)
def setStaging (k vc : Nat) (l : List InEnt) (s : State) : State := { s with staging := tset [] s.staging (8 * k + vc) l }
/-- Change the stage of a packet's entry in staging. -/
def setStage (k vc pid : Nat) (st : Stage) (s : State) : State :=
  setStaging k vc ((stagingOf s k vc).map fun e => if e.pid = pid then { e with stage := st } else e) s

/-! ## Shapers (R169, R170, R464): bytes in units of 1/800 -/

def shEn (q : QueueSt) : Bool := bitOf q.shaper 31
def shRate (q : QueueSt) : Nat := fld q.shaper 0 18
def shCeil (q : QueueSt) : Int := (fld q.shaper 18 13 * 256 * 800 : Nat)
/-- CREDIT = EARNED − SPENT − CUT (R464). -/
def shCredit (q : QueueSt) : Int := (q.earned : Int) - q.spent - q.cut

/-- The shaper book brought up to the clock (R169): a queue that holds a packet earns up to its ceiling, an empty one up to 0. -/
def shSync (now : Nat) (q : QueueSt) : QueueSt :=
  let q := { q with earned := q.earned + shRate q * (now - q.shapeAt), shapeAt := now }
  let top : Int := if q.ents.isEmpty then 0 else shCeil q
  let above := shCredit q - top
  if above > 0 then { q with cut := q.cut + above } else q

/-- Charge one flit to a queue's shaper. -/
def shSpend (now : Nat) (q : QueueSt) : QueueSt := let q := shSync now q; { q with spent := q.spent + 256 * 800 }

/-- The shaper allows the queue. -/
def shAllows (now : Nat) (q : QueueSt) : Bool := !shEn q || decide (shCredit (shSync now q) ≥ 0)

/-- A write of SHAPER word 0 sets the credit to 0 (R170). -/
def shReset (now : Nat) (w : Word) (q : QueueSt) : QueueSt :=
  let q := shSync now q
  { q with cut := q.cut + shCredit q, shaper := w }

/-! ## The five counts and the pools (R138, R140, R156) -/

def sharedFree (s : State) (d : Nat) : Nat := (swcOf s d).sharedCells.toNat - (swcOf s d).sharedUsed

/-- Depth of a queue in cells. -/
def depthOf (q : QueueSt) : Nat := q.gocc + q.socc

/-- R140 for n cells at queue g: guaranteed, shared, or neither. -/
def admits (s : State) (g n : Nat) : Option Bool :=
  let q := queueOf s g
  let sf := sharedFree s (qdie g)
  if q.gocc + n ≤ q.minCells then some true
  else if n ≤ sf ∧ q.alpha.toNat ≤ 9 ∧ (q.socc + n) * 64 ≤ 2 ^ q.alpha.toNat * sf then some false
  else none

/-- Cells of a landing area taken or freed, with the credits on their way back (R144, R145). src is a fabric die, or 4 + x for a
reducer port. -/
def landFree (d src vc n : Nat) (s : State) : State :=
  if src = d then s
  else modSwc d (fun w => { w with landOcc := tset 0 w.landOcc (8 * src + vc) (tget 0 w.landOcc (8 * src + vc) - n),
                                   landRet := tset 0 w.landRet (8 * src + vc) (tget 0 w.landRet (8 * src + vc) + n),
                                   landing := w.landing - n, free := w.free + n }) s

/-- Credits a sender has left toward a landing area for one VC: its own part and the shared part (R144, R145). -/
def bridgeRoom (own shared : Nat) (use : Nat → Nat) (vc : Nat) : Nat :=
  let sharedUsed := (List.range 8).foldl (fun a v => a + (use v - own)) 0
  (own - use vc) + (shared - sharedUsed)

/-- Credits that reduction die x = src − 4 has left toward fabric die d (R145). -/
def redRoom (s : State) (d src vc : Nat) : Nat :=
  bridgeRoom 32 512 (fun v => tget 0 (swcOf s d).landOcc (8 * src + v) + tget 0 (swcOf s d).landRet (8 * src + v)) vc

/-- A packet of n cells crosses to die d's landing area. -/
def landTake (d src vc n : Nat) (s : State) : State :=
  modSwc d (fun w => { w with landOcc := tset 0 w.landOcc (8 * src + vc) (tget 0 w.landOcc (8 * src + vc) + n),
                              landing := w.landing + n, free := w.free - n }) s

/-! ## Removing packets -/

/-- What a copy still has on its way to the link is taken back: its flits that wait to leave, and its place at a VC. -/
def pullFlits (g pid : Nat) (s : State) : State :=
  modSched (g / 8) (fun c => { c with cur := c.cur.filter fun y => !(y.2.q == g && y.2.pid == pid) })
    (modLink (g / 8) (fun l => { l with txq := l.txq.filter fun f => f.src != some (g, pid) }) s)

/-- The copy of packet pid in queue g leaves or is dropped: its queue's cells are freed, and the packet's own when it was the
last copy (R142, R156). -/
def unlink (g pid : Nat) (s : State) : State :=
  match (queueOf s g).ents.find? (fun e => e.pid = pid), pktOf s pid with
  | some e, some p =>
    let d := qdie g
    let s := pullFlits g pid s
    let s := modQueue g (fun q => let q := shSync s.clock q
      let q := if e.guar then { q with gocc := q.gocc - p.cells } else { q with socc := q.socc - p.cells }
      shSync s.clock { q with ents := q.ents.filter fun x => x.pid ≠ pid }) s
    let s := modPkt pid (fun p => { p with refs := p.refs - 1 }) s
    if p.refs ≤ 1 then
      let s := modSwc d (fun w => { w with free := w.free + p.cells, sharedUsed := if p.shared then w.sharedUsed - p.cells else w.sharedUsed,
                                           queued := if p.opened then w.queued else w.queued - p.cells,
                                           opened := if p.opened then w.opened - p.cells else w.opened }) s
      let s := match p.pos with
        | some k => if p.tailIn then s else setStage k p.vc pid .dropped s
        | none => s
      setPkt pid none s
    else s
  | _, _ => s

/-- The queues that hold a copy of a packet. -/
def queuesWith (s : State) (pid : Nat) : List Nat := (s.queues.filter fun e => e.2.ents.any fun x => x.pid = pid).map Prod.fst

/-- Drop a packet no flit of which has left, wherever it is: staging, a landing area, a wait for admission or a queue. -/
def dropPkt (pid : Nat) (s : State) : State :=
  match pktOf s pid with
  | none => s
  | some p =>
    let gs := queuesWith s pid
    let s := leaveStaging pid s
    let s := each (List.range 4) (fun d s =>
      let w := swcOf s d
      let s := each ((w.arrive ++ w.waiting).filter fun a => a.pid = pid) (fun a s => landFree d a.src a.vc p.cells s) s
      modSwc d (fun w => { w with arrive := w.arrive.filter (fun a => a.pid ≠ pid), waiting := w.waiting.filter (fun a => a.pid ≠ pid),
                                  bridgeWait := w.bridgeWait.filter (fun a => a.pid ≠ pid) }) s) s
    if gs.isEmpty then
      let s := match p.pos with
        | some k => if p.tailIn then setStaging k p.vc ((stagingOf s k p.vc).filter fun e => e.pid ≠ pid) s else setStage k p.vc pid .dropped s
        | none => s
      setPkt pid none s
    else each gs (fun g s => unlink g pid s) s

/-! ## Schedulers (R165 to R167) -/

/-- The later of two tags modulo 2^40 (R166). -/
def tagMax (a b : BitVec 40) : BitVec 40 := if seqGe a b then a else b

/-- The first packet of a queue that has not been granted. -/
def headEnt (q : QueueSt) : Option QEnt := q.ents.find? fun e => !e.granted

/-- Is queue g eligible (R166, R134)? -/
def queueEligible (s : State) (g : Nat) : Bool :=
  let q := queueOf s g
  match headEnt q with
  | some e => shAllows s.clock q && (match pktOf s e.pid with | some p => p.tailIn || e.cut | none => false)
  | none => false

/-- Is flit i of the granted packet there to send (cut-through, R134)? -/
def flitReady (p : Pkt) (i : Nat) : Bool := p.tailIn || decide (232 * (i + 1) ≤ (wire p).length)

/-- Flits of VC v waiting to be transmitted on a sub-link. -/
def txWaiting (l : SubLink) (v : Nat) : Nat := (l.txq.filter fun f => f.vc = v).length

/-- Is VC v of sub-link k eligible (R166)? -/
def vcEligible (s : State) (k v : Nat) : Bool :=
  match tget { q := 0, pid := s.nextPid } (schedOf s k).cur v with
  | c => match pktOf s c.pid, (queueOf s c.q).ents.find? (fun e => e.pid = c.pid) with
    | some p, some e => flitReady p e.sent && decide (tget 0 (linkOf s k).credHeld v > txWaiting (linkOf s k) v) &&
        (schedOf s k).cur.any (fun x => x.1 == v)
    | _, _ => false

/-- Note which inputs of sub-link k's schedulers have become eligible: each takes S = max(V, F) (R166 rule 2). -/
def refresh (k : Nat) (s : State) : State :=
  modSched k (fun c =>
    let c := (List.range 8).foldl (fun c q =>
      let el := queueEligible s (8 * k + q)
      let vc := ((List.range 8).find? fun v => q ∈ queuesOfVc s v).getD 0
      let was := tget false c.qAwake q
      let c := if el && !was then { c with qS := tset 0 c.qS q (tagMax (tget 0 c.qF q) (tget 0 c.qV vc)) } else c
      { c with qAwake := tset false c.qAwake q el }) c
    (List.range 7).foldl (fun c v =>
      let el := vcEligible s k v
      let was := tget false c.vAwake v
      let c := if el && !was then { c with vS := tset 0 c.vS v (tagMax (tget 0 c.vF v) c.vV) } else c
      { c with vAwake := tset false c.vAwake v el }) c) s

/-- The element with the smallest tag, the first on a tie (R166 rule 3). -/
def leastTag (tag : Nat → BitVec 40) : List Nat → Option Nat
  | [] => none
  | x :: r => match leastTag tag r with
    | none => some x
    | some y => if seqGe (tag y) (tag x) then some x else some y

/-- The increment of a finish tag (R166 rule 4, R167). -/
def tagInc (n w : Nat) : BitVec 40 := BitVec.ofNat 40 (n * (65536 / (if w = 0 then 1 else w)))

/-- The weight of a queue, and of a VC of a port (R167, R177, R179). -/
def qWeight (s : State) (g : Nat) : Nat := fld (queueOf s g).qsched 0 8
def vcWeight (s : State) (p v : Nat) : Nat :=
  if v < 4 then fld (portOf s p).vcW0 (8 * v) 8 else fld (portOf s p).vcW1 (8 * (v - 4)) 8

/-! ## Admission, queues, age -/

/-- Age of a packet in ns (R151, R334). -/
def ageNs (s : State) (p : Pkt) : Nat := steadyNs s - p.stamp

/-- Is a packet too old at die d (R151)? -/
def tooOld (s : State) (d : Nat) (p : Pkt) : Bool := decide (ageNs s p > 1000 * ageUs s d (hTc p.hdr))

/-- The Glade's cells of a packet are written (R136, R156): counted in OPEN until its TAIL is in, then in QUEUED. -/
def takeCells (d pid : Nat) (shared : Bool) (s : State) : State :=
  match pktOf s pid with
  | none => s
  | some p =>
    let s := modSwc d (fun w => { w with free := w.free - p.cells, sharedUsed := if shared then w.sharedUsed + p.cells else w.sharedUsed,
                                         opened := if p.tailIn then w.opened else w.opened + p.cells,
                                         queued := if p.tailIn then w.queued + p.cells else w.queued }) s
    let s := modPkt pid (fun p => { p with opened := !p.tailIn, shared := shared }) s
    { s with dbg := { s.dbg with bytes := tmod 0 s.dbg.bytes (2 * d) (· + 256 * p.cells) } }

/-- The TAIL of an admitted packet is written: cells it turned out not to need are freed (R140) and the rest move from OPEN to
QUEUED (R156). -/
def closeCells (pid : Nat) (s : State) : State :=
  match pktOf s pid, queuesWith s pid with
  | some p, g :: gs =>
    if p.opened then
      let n := min p.cells (cellsOf ((wire p).length + (p.rxTotal - pktTotal p)))
      let x := p.cells - n
      let s := modSwc (qdie g) (fun w => { w with opened := w.opened - p.cells, queued := w.queued + n, free := w.free + x,
                                                  sharedUsed := if p.shared then w.sharedUsed - x else w.sharedUsed }) s
      let s := each (g :: gs) (fun g s => modQueue g (fun q =>
        if (q.ents.find? fun e => e.pid = pid).elim true QEnt.guar then { q with gocc := q.gocc - x } else { q with socc := q.socc - x }) s) s
      modPkt pid (fun p => { p with opened := false, cells := n }) s
    else s
  | _, _ => s

/-- Do the conditions of cut-through hold (R134)? -/
def cutThrough (s : State) (g : Nat) (p : Pkt) : Bool :=
  let k := g / 8
  match p.pos with
  | some i =>
    (queueOf s g).ents.isEmpty && decide (tget 0 (linkOf s k).credHeld (tcVc s (hTc p.hdr)) > 0) &&
      decide (((liveStrands s k).map fun q => (lanesOf s q).length).sum ≤ ((liveStrands s i).map fun q => (lanesOf s q).length).sum) &&
      !p.mcast && !p.mirror
  | none => false

/-- RED at the egress die (R173, R174): none lets the packet go on, some true marks it, some false drops it. v is a 16-bit draw;
a mirror copy is lossy whatever its TC (R154). -/
def redDecision (s : State) (g : Nat) (h : Hdr) (mirror : Bool) (v : Nat) : Option Bool :=
  let d := qdie g
  let q := queueOf s g
  let prof := fld q.qsched 28 4
  let row := tget 0 (swcOf s d).redProf (4 * prof + min (hColour h) 2)
  let lo : Rat := (fld row 0 12 * 64 : Nat)
  let hi : Rat := (fld row 12 12 * 64 : Nat)
  let pm : Rat := (fld row 24 8 : Nat)
  let p : Rat := if q.avg < lo then 0 else if hi ≤ lo then 1 else if q.avg ≥ hi then 1 else pm / 256 * ((q.avg - lo) / (hi - lo))
  let selected := decide ((v : Rat) < p * 65536)
  let ecnEn := bitOf q.qsched 27
  if !selected then none
  else if lossless s d (hTc h) && !mirror then (if ecnEn && (hEcn h = 1 || hEcn h = 2) then some true else none)
  else if ecnEn && (hEcn h = 1 || hEcn h = 2) then some true
  else if ecnEn && hEcn h = 3 then none
  else some false

/-! ## Route lookup (R105 to R113) -/

/-- The live route entry of DST on a die. -/
def liveEntry (s : State) (d dst : Nat) : Word := tget 0 s.route.live (d * 2 ^ 20 + dst)
/-- SIZE and the members of a set (R107): word 0 is lowest. -/
def setSize (w : BitVec 288) : Nat := fld w 0 5
def setMember (w : BitVec 288) (i : Nat) : Nat := fld w (32 + 16 * i) 11
def setMembers (w : BitVec 288) : List Nat := (List.range (min (setSize w) 16)).map (setMember w)

/-- Is a member live (R109)? -/
def memberLive (s : State) (m : Nat) : Bool :=
  (match (linkOf s m).st with | .active | .idle | .doze => true | _ => false) && !bitOf s.units.fabLost (dieOf m)

/-- The level of a member for a TC (R110). -/
def memberLevel (s : State) (m tc : Nat) : Nat :=
  if (linkOf s m).st = .doze then 3 else tget 0 s.route.levels (qkey s m tc)

/-- Has a live member joined ordered choice at ingress die d (R113)? -/
def rejoined (s : State) (d m : Nat) : Bool :=
  let l := linkOf s m
  l.joined || (match l.liveSince with
    | some t => decide (s.clock - t ≥ 1000 * (tget 0 s.route.rejoinUs d).toNat)
    | none => false)

/-- The flow hash of R112. -/
def flowHash (seed : Word) (h : Hdr) : Word :=
  ~~~((bytesBE 3 (hSrc h) ++ bytesBE 3 (hDst h) ++ bytesBE 2 (hPkey h) ++ bytesBE 1 (hTc h) ++ bytesBE 3 (hGroup h)).foldl
    (crc32Byte 0x82F63B78#32) seed)

/-- The answer of a lookup: the offset in R131 of the counter of a drop, or the member chosen. -/
inductive RouteRes where
  | drop (ofs : Nat)
  | go (pos : Nat)
deriving DecidableEq, Repr

/-- The choice of R111 from the rotating pointer: slot and level of the best live member. -/
def bestMember (s : State) (ms : List Nat) (tc ptr : Nat) : Option Nat :=
  ((List.range ms.length).foldl (fun (best : Nat × Option Nat) k =>
    let i := (ptr + k) % ms.length
    let m := ms.getD i 0
    if memberLive s m && decide (memberLevel s m tc < best.1) then (memberLevel s m tc, some i) else best) (4, none)).2

/-- Look up a packet at ingress die d (R105 to R112), advancing the set's pointer. -/
def lookup (d : Nat) (h : Hdr) (s : State) : RouteRes × State :=
  let e := liveEntry s d (hDst h)
  let set := fld e 0 14
  match fld e 30 2 with
  | 1 =>
    let ms := setMembers (tget 0 s.route.liveSet (d * 2 ^ 14 + set))
    if ms.isEmpty then (.drop 0x00, s)
    else if !ms.any (memberLive s) then (.drop 0x08, s)
    else if hOrdered h then
      let start := (flowHash (tget 0 s.route.hashSeed d) h).toNat % ms.length
      let order := (List.range ms.length).map fun k => ms.getD ((start + k) % ms.length) 0
      match order.find? (fun m => memberLive s m && rejoined s d m) with
      | some m => (.go m, s)
      | none => match order.find? (memberLive s) with
        | some m => (.go m, s)
        | none => (.drop 0x08, s)
    else
      let key := d * 2 ^ 14 + set
      match bestMember s ms (hTc h) (tget 0 s.route.ptr key) with
      | some i => (.go (ms.getD i 0), modRoute (fun r => { r with ptr := tset 0 r.ptr key ((i + 1) % ms.length) }) s)
      | none => (.drop 0x08, s)
  | 2 => (.drop 0x04, s)
  | _ => (.drop 0x00, s)

/-- Doze ends on a sub-link: light is raised and the sub-link is ACTIVE again (R65, R110). -/
def leaveDoze (k : Nat) (s : State) : State :=
  if (linkOf s k).st = .doze then
    let s := each (strandPos s k) (fun q s => emit (.light q .full) (modStrand q (fun x => { x with light := .full, st := if x.outOfUse then x.st else .active }) s)) s
    modLink k (fun l => { l with st := .active, lpWant := none, emptyAt := s.clock }) s
  else s

/-- A packet goes to egress position m from ingress die d: across a bridge if needed, waiting in staging for its credit
(R144). src is d, or 4 + x for a result from reduction die x. -/
def toEgress (d src vc m : Nat) (targets : List Nat) (pid : Nat) (s : State) : State :=
  let de := dieOf m
  let s := leaveDoze m s
  match pktOf s pid with
  | none => s
  | some p =>
    let a : Arr := { pid := pid, src := src, vc := vc, targets := targets }
    if src = de then modSwc de (fun w => { w with arrive := w.arrive ++ [a] }) s
    else if src < 4 then
      let w := swcOf s d
      if w.bridgeWait.any (fun b => b.vc = vc && dieOf (b.targets.headD 0 / 8) = de) || bridgeRoom 64 1024 (fun v => tget 0 w.spentCred (8 * de + v)) vc < p.cells then
        modSwc d (fun w => { w with bridgeWait := w.bridgeWait ++ [a] }) s
      else
        let s := modSwc d (fun w => { w with spentCred := tset 0 w.spentCred (8 * de + vc) (tget 0 w.spentCred (8 * de + vc) + p.cells) }) s
        let s := landTake de src vc p.cells (leaveStaging pid (swcInject d 2 s))
        modSwc de (fun w => { w with arrive := w.arrive ++ [a] }) s
    else if (swcOf s de).bridgeWait.any (fun b => b.src = src && b.vc = vc) || redRoom s de src vc < p.cells then
      modSwc de (fun w => { w with bridgeWait := w.bridgeWait ++ [a] }) s
    else
      let s := landTake de src vc p.cells s
      modSwc de (fun w => { w with arrive := w.arrive ++ [a] }) s

/-- Route a packet on DST from die d and send it toward its egress die; a drop is counted (R131). One addressed to the Skarad itself never
reaches the table (R105): it has arrived, and what a message does is the command of its own row (R77). -/
def routePkt (d : Nat) (pid : Nat) (s : State) : State :=
  match pktOf s pid with
  | none => s
  | some p =>
    if hDst p.hdr = s.gctl.ownId.toNat then dropPkt pid s
    else match lookup d p.hdr (swcInject d 1 s) with
    | (.drop ofs, s) => dropPkt pid (routeCnt (0x300 + 0x20 * d + ofs) 1 s)
    | (.go m, s) => toEgress d d p.vc m [qkey s m (hTc p.hdr)] pid s

/-- Hold a new packet that the Skarad originates; answers its number. -/
def newPkt (h : Hdr) (exts : List Ext) (body : List Byte) (mirror mcast : Bool) (s : State) : Nat × State :=
  let p : Pkt := { hdr := h, exts := exts, body := body, pos := none, vc := tcVc s (hTc h), stamp := steadyNs s, rxTotal := totalLen h exts.length, tailIn := true,
                   poison := false, begun := false, flits := 0, stag := 0, cells := cellsOf (totalLen h exts.length), opened := false,
                   shared := false, mirror := mirror, mcast := mcast, refs := 1, obs := [] }
  (s.nextPid, setPkt s.nextPid (some p) { s with nextPid := s.nextPid + 1 })

/-- The fabric die at which the Skarad's own packets enter: that of the active management block while it lives, else the
lowest live one (log entry 11). -/
def homeDie (s : State) : Nat :=
  let d := match s.units.active with | .mb0 => 0 | .mb1 => 1
  if dieLive s d then d else ((List.range 4).find? (dieLive s)).getD d

/-- Send a packet of the Skarad's own, routed on DST (log entry 11). -/
def sendPkt (h : Hdr) (exts : List Ext) (body : List Byte) (mirror : Bool) (s : State) : State :=
  let (pid, s) := newPkt h exts body mirror false s
  routePkt (homeDie s) pid s

/-- A MGMT message to an identifier (R393), on VC0 under the management key. -/
def sendMgmt (dst : Nat) (payload : List Byte) (s : State) : State :=
  sendPkt (mkHdr 0 ptMgmt (tcOfVc s 0) dst s.gctl.ownId.toNat 0xFFFF payload.length 255 0 0 0 0 false) [] payload false s

/-! ## Mirror and sampling sessions (R87, R153 to R155) -/

def sessWord (s : State) (d n w : Nat) : Word := tget 0 (swcOf s d).sess (8 * n + w)

/-- Does session n of die d select a packet at a position (R153, R163)? -/
def sessSelects (s : State) (d n pos : Nat) (h : Hdr) : Bool :=
  let c := sessWord s d n 0
  let sel := fld (sessWord s d n 1) 0 24
  match fld c 25 2 with
  | 0 => sel % 512 == pos / 4
  | 1 => sel % 2048 == pos
  | 2 =>
    let w i := fld (sessWord s d n i) 0 20
    ((hSrc h ^^^ w 3) &&& w 4 == 0) && ((hDst h ^^^ w 5) &&& w 6 == 0) &&
      ((hPkey h ^^^ fld (sessWord s d n 7) 0 16) &&& fld (sessWord s d n 7) 16 16 == 0)
  | _ => (hPtype h == ptChunk || hPtype h == ptCtrl) && sel == hGroup h

/-- The mirror encapsulation of a copy (R87). -/
def mirrorExt (n coord port dir : Nat) (dropped trunc : Bool) (origLen t : Nat) : Ext :=
  BitVec.ofNat 128 (n * 2 ^ 116 + coord * 2 ^ 100 + port * 2 ^ 91 + dir * 2 ^ 90 + b2n dropped * 2 ^ 89 + b2n trunc * 2 ^ 88 +
    (origLen % 2 ^ 13) * 2 ^ 75 + (t % 2 ^ 48) * 2 ^ 27)

/-- The sessions that observe a packet at a position, dir 0 at ingress and 1 at egress, with their samples counted (R153). The session's
words are taken as they stand at the observation (R155). Copies that this Skarad made are not observed (log entry 12). -/
def observe (pos dir : Nat) (dropped : Bool) (p : Pkt) (s : State) : List Obs × State :=
  let d := dieOf pos
  if p.mirror then ([], s)
  else ((swcOf s d).sess.filterMap fun e => if e.1 % 8 = 0 then some (e.1 / 8) else none).foldl (fun (acc : List Obs × State) n =>
    let s := acc.2
    let c := sessWord s d n 0
    if bitOf c 31 && bitOf c (28 + dir) && sessSelects s d n pos p.hdr && (!dropped || bitOf c 27) then
      let cnt := tget 0 (swcOf s d).sessCount n
      let exp := let r := fld c 20 5; if r = 0 then 1 else r
      let s := iff (bitOf c 30) (modSwc d fun w => { w with sessCount := tset 0 w.sessCount n ((cnt + 1) % 2 ^ exp) }) s
      if bitOf c 30 && cnt != 0 then (acc.1, s)
      else (acc.1 ++ [{ sess := n, pos := pos, dir := dir, dropped := dropped, t := (fabNs s).toNat % 2 ^ 48, ctl := c, dst := sessWord s d n 2,
                        bytes := wire p }], s)
    else acc) ([], s)

/-- Form the copy of an observed packet and send it (R87). A sampling copy goes only where a cell-pipe slot is free for
it (R133); whether one is, is a free value (log entry 106). Of a copy's base header R87 fixes PTYPE, NEXT, SRC, DST, TC and PKEY; HOPS 255,
COLOUR green, ECN 0 and ORDERED clear are the model's choice, and so is TRUNC clear where only TRUNC_HDR cut an original of at most
4,096 B (log entry 112). A session whose DST is the Skarad itself makes copies that no PTYPE rule admits: BAD_HDR (R77). -/
def formCopy (o : Obs) (s : State) : State :=
  let c := o.ctl
  let d := dieOf o.pos
  let body := o.bytes.take (if bitOf c 16 then 256 else 4096)
  let ext := mirrorExt o.sess s.gctl.coord.toNat (o.pos / 4) o.dir o.dropped (decide (o.bytes.length > 4096)) o.bytes.length o.t
  let h := mkHdr 3 ptMirror (fld c 17 3) (fld o.dst 0 20) s.gctl.ownId.toNat (fld c 0 16) body.length 255 0 0 0 0 false
  let (v, s) := if bitOf c 30 then draw s else (0, s)
  if v.getLsbD 0 then swcCnt d 0x410 1 s
  else if fld o.dst 0 20 = s.gctl.ownId.toNat then portCnt (o.pos / 4) 0x128 1 s
  else
    let (pid, s) := newPkt h [ext] body true false s
    routePkt d pid s

/-- More of an observed packet has arrived. -/
def obsMore (data : List Byte) (o : Obs) : Obs := { o with bytes := o.bytes ++ data }

/-- A packet is dropped at an egress position: the sessions with ON_DROP there copy it, at once where it is whole, else when its TAIL is
in (R153). The caller drops it. -/
def mirrorDrop (pos pid : Nat) (s : State) : State :=
  match pktOf s pid with
  | none => s
  | some p =>
    let (os, s) := observe pos 1 true p s
    match p.pos with
    | some k =>
      if p.tailIn then each os formCopy s
      else setStaging k p.vc ((stagingOf s k p.vc).map fun e => if e.pid = pid then { e with obs := e.obs ++ os } else e) s
    | none => each os formCopy s

/-! ## Age (R151) -/

/-- Discard packets for age at the head of queue g until the head is young enough (R151); n bounds the packets. -/
def ageHead : Nat → Nat → State → State
  | 0, _, s => s
  | n + 1, g, s =>
    match headEnt (queueOf s g) with
    | some e => match pktOf s e.pid with
      | some p =>
        if tooOld s (qdie g) p then ageHead n g (swcCnt (qdie g) 0x404 1 (unlink g e.pid (mirrorDrop (g / 8) e.pid s))) else s
      | none => s
    | none => s

/-- The head of queue g may have changed: it is judged by its age (R151). -/
def newHead (g : Nat) (s : State) : State := ageHead (queueOf s g).ents.length g s

/-- End a packet under R90 or R91: dropped whole if none of its flits has left, otherwise its outgoing TAIL is sent poisoned. -/
def endPoisoned (pid : Nat) (s : State) : State :=
  match pktOf s pid with
  | some p => if p.begun then closeCells pid (modPkt pid (fun p => { p with poison := true, tailIn := true }) s) else let gs := queuesWith s pid; each gs newHead (dropPkt pid s)
  | none => s

/-- Discard every packet of queue g that is too old and not granted (the sweep of R151). -/
def agePurge (g : Nat) (s : State) : State :=
  each (queueOf s g).ents (fun e s =>
    match pktOf s e.pid with
    | some p => if tooOld s (qdie g) p && !e.granted then swcCnt (qdie g) 0x404 1 (unlink g e.pid (mirrorDrop (g / 8) e.pid s)) else s
    | none => s) s

/-- Link packet pid into queue g with guaranteed or shared cells; cut marks a packet that leaves by cut-through. Where no packet of the
queue waits for a grant it is at the head at once. -/
def linkQueue (g pid : Nat) (guar cut : Bool) (s : State) : State :=
  match pktOf s pid with
  | none => s
  | some p =>
    let was := (headEnt (queueOf s g)).isNone
    let s := modQueue g (fun q => let q := shSync s.clock q
      let q := if guar then { q with gocc := q.gocc + p.cells } else { q with socc := q.socc + p.cells }
      { q with ents := q.ents ++ [{ pid := pid, guar := guar, cut := cut, sent := 0, linkedAt := steadyNs s, granted := false }] }) s
    iff was (ageHead 1 g) s

/-! ## Admission at the egress die (R140 to R143) -/

/-- Take an arrival off a die's lists. -/
def dropArr (d : Nat) (a : Arr) : State → State :=
  modSwc d fun w => { w with arrive := dropFirst a w.arrive, waiting := dropFirst a w.waiting }

/-- Does an earlier lossless packet of the same queue still wait (log entry 13)? -/
def waitsBefore (s : State) (d : Nat) (a : Arr) : Bool :=
  ((swcOf s d).waiting.takeWhile (fun b => b ≠ a)).any fun b => b.targets.any fun g => g ∈ a.targets

/-- Admit a packet of one target queue: link it, free its landing cells or staging, note cut-through. -/
def admitOne (d : Nat) (a : Arr) (g : Nat) (guar : Bool) (s : State) : State :=
  match pktOf s a.pid with
  | none => dropArr d a s
  | some p =>
    let cut := cutThrough s g p
    let s := leaveStaging a.pid (landFree d a.src a.vc p.cells (dropArr d a s))
    refresh (g / 8) (linkQueue g a.pid guar cut (takeCells d a.pid (!guar) s))

/-- A packet is dropped at egress position k, counted at offset ofs of die d's core, with its ON_DROP copies (R153). -/
def dropEgress (d k ofs pid : Nat) (s : State) : State := dropPkt pid (swcCnt d ofs 1 (mirrorDrop k pid s))

/-- Is a sub-link down, so that nothing may be queued for it (R143, R157)? -/
def linkGone (s : State) (k : Nat) : Bool := match (linkOf s k).st with | .down | .dark => true | _ => false

/-- Try R140 on a packet of one target. marked says that RED has set its ECN, which is counted unless R140 drops it (R175). A packet whose
sub-link is down is discarded as its queues are (R157; log entry 113). -/
def tryAdmit (d : Nat) (a : Arr) (g : Nat) (marked : Bool) (s : State) : State :=
  match pktOf s a.pid with
  | none => dropArr d a s
  | some p =>
    let ll := lossless s d (hTc p.hdr) && !p.mirror
    let wait (s : State) : State := modSwc d (fun w => if a ∈ w.waiting then w else { w with arrive := dropFirst a w.arrive, waiting := w.waiting ++ [a] }) s
    let count := iff marked (swcCnt d 0x428 1)
    if linkGone s (g / 8) then dropEgress d (g / 8) 0x408 a.pid s
    else if ll && waitsBefore s d a then count (wait s)
    else match admits s g p.cells with
      | some true => count (admitOne d a g true s)
      | some false =>
        if p.mirror && sharedFree s d ≤ 16 * (swcOf s d).mirrorFloor.toNat then dropPkt a.pid (swcCnt d 0x40C 1 s)
        else count (admitOne d a g false s)
      | none =>
        if ll then count (wait s)
        else if p.mirror then dropPkt a.pid (swcCnt d 0x40C 1 s)
        else dropEgress d (g / 8) 0x400 a.pid s

/-- A multicast copy enters when every target queue admits it (R143). -/
def tryMulticast (d : Nat) (a : Arr) (s : State) : State :=
  match pktOf s a.pid with
  | none => dropArr d a s
  | some p =>
    let live := a.targets.filter fun g => !linkGone s (g / 8)
    if live.isEmpty then
      setPkt a.pid none (landFree d a.src a.vc p.cells (dropArr d a s))
    else if live.all fun g => (admits s g p.cells).isSome then
      let shared := live.any fun g => admits s g p.cells == some false
      let guar g := admits s g p.cells == some true
      let flags := live.map fun g => (g, guar g)
      let s := modPkt a.pid (fun p => { p with refs := live.length }) (landFree d a.src a.vc p.cells (dropArr d a s))
      let s := takeCells d a.pid shared s
      let s := each flags (fun gf s => refresh (gf.1 / 8) (linkQueue gf.1 a.pid gf.2 false s)) s
      swcCnt d 0x418 live.length s
    else
      let a' := { a with targets := live }
      modSwc d (fun w => { w with arrive := dropFirst a w.arrive, waiting := dropFirst a w.waiting ++ [a'] }) s

end Sys2Proof.Machine
end

