-- ==== Sys2Proof/Machine/Pools.lean ====
section
/-! DEFINITION. The buffer pool manager (R318 to R324). Sizes and charges are in 4 KiB units; a buffer's key is ring × 2^14 + index. -/

namespace Sys2Proof.Machine

/-- Size of a ring's buffers in 4 KiB units (R318). -/
def ringSize (k : Nat) : Nat := if k < 8 then (if k % 2 = 0 then 1 else 4) else if k = 8 then 16 else if k = 9 then 64 else 256

/-- The rings of a requester's backing, smallest size first (R318, R322). -/
def ringsOf (q : Nat) : List Nat := if q < 16 then [2 * (q / 4), 2 * (q / 4) + 1] else [8, 9, 10]

/-- The ring of a pool for a requester, if a requester of its kind can name one there: the SRAM pools are a die's own. -/
def ringFor (q pool : Nat) : Option Nat := if pool < 2 then (if q < 16 then some (2 * (q / 4) + pool) else none) else some (6 + pool)

def bufKey (k i : Nat) : Nat := k * 2 ^ 14 + i

/-- The buffers of a DRAM pool in each stack (R307). -/
def perStack (s : State) (k : Nat) : List Nat :=
  match s.img.bind ImageContent.red with
  | some r => if k = 8 then r.n64 else if k = 9 then r.n256 else r.n1m
  | none => []

/-- Where buffer i of ring k lies (R307, R320): for an SRAM pool none and the offset from the base of its die's working area, pool 0 first; for
a DRAM pool its stack and the offset there, the 1 MiB buffers first, then those of 256 KiB, then those of 64 KiB. -/
def bufPlace (s : State) (k i : Nat) : Option (Option Nat × Nat) :=
  if k < 8 then
    some (none, if k % 2 = 0 then 4096 * i else 4096 * (poolRingOf s (k - 1)).total + 16384 * i)
  else
    let n (k m : Nat) : Nat := (perStack s k).getD m 0
    let before (m : Nat) : Nat := ((perStack s k).take m).sum
    ((List.range 8).find? fun m => decide (i < before (m + 1))).map fun m =>
      let larger := (if k < 10 then 2 ^ 20 * n 10 m else 0) + (if k < 9 then 2 ^ 18 * n 9 m else 0)
      (some m, 0x30000 + larger + 4096 * ringSize k * (i - before m))

/-- The DRAM stack that holds buffer i of a ring, none for the SRAM pools. -/
def bufStack (s : State) (k i : Nat) : Option Nat := (bufPlace s k i).bind Prod.fst

/-! ## Ring entries (R320) -/

/-- The entry of a buffer. -/
def entryOf (i : Nat) : BitVec 64 := BitVec.ofNat 64 (i % 2 ^ 14) ||| ((~~~(BitVec.ofNat 32 (i % 2 ^ 14))).setWidth 64 <<< 32)
def entryIdx (w : BitVec 64) : Nat := fld w 0 14
/-- Does an entry pass its check? -/
def entryGood (w : BitVec 64) : Bool := fld w 14 18 == 0 && w.extractLsb' 32 32 == ~~~(w.extractLsb' 0 32)

/-- Read n entries of a ring into its cache (R320, R321): one whose check fails, an injection inverting complement bits included (R424), is
discarded and its buffer retired. -/
def refill (k : Nat) : Nat → State → State
  | 0, s => s
  | n + 1, s =>
    match (poolRingOf s k).ring with
    | [] => s
    | w :: rest =>
      let (fire, s) := injFire 7 k 0 s
      let w := w ^^^ ((fire.getD 0).setWidth 64 <<< 32)
      let s := modPoolRing k (fun r => { r with ring := rest }) s
      refill k n (if entryGood w then modPoolRing k (fun r => { r with cache := r.cache ++ [entryIdx w] }) s
        else modBpm (fun b => { b with retiredBufs := insNat (bufKey k (entryIdx w)) b.retiredBufs })
          (modPoolRing k (fun r => { r with retired := r.retired + 1 }) (bpmCnt 0x710 1 s)))

def usedOf (s : State) (q : Nat) : Nat := tget 0 s.bpm.used q
def quotaOf (s : State) (q : Nat) : Nat := tget 0 s.bpm.quota q

/-- A free buffer of a ring, taken; the cache is refilled from the ring when it is empty. -/
def takeBuf (k : Nat) (s : State) : Option Nat × State :=
  let s := if (poolRingOf s k).cache.isEmpty then refill k 128 s else s
  match (poolRingOf s k).cache with
  | [] => (none, s)
  | i :: rest => (some i, modPoolRing k (fun r => { r with cache := rest, held := r.held + 1 }) s)

/-- Give requester q buffer i of ring k, for an instance where one asks. -/
def chargeBuf (q k i : Nat) (inst : Option InstId) (s : State) : State := modBpm (fun b =>
  { b with holders := tset 0 b.holders (bufKey k i) (q + 1), used := tset 0 b.used q (tget 0 b.used q + ringSize k)
           owners := b.owners ++ (inst.map fun n => (bufKey k i, n)).toList }) s

/-- Serve a request by the loop of R322: the ring at which it waits, none once it has its buffer, and the state. first marks the smallest
ring, from which a buffer is no fallback. -/
def serveFrom (q : Nat) (inst : Option InstId) (first : Bool) : List Nat → State → Option Nat × State
  | [], s => (none, s)
  | k :: rest, s =>
    if usedOf s q + ringSize k > quotaOf s q then (some k, s)
    else match takeBuf k s with
      | (some i, s) => (none, chargeBuf q k i inst (if first then s else bpmCnt 0x708 1 s))
      | (none, s) => if rest.isEmpty then (some k, s) else serveFrom q inst false rest s

/-- The rings that may serve a need in bytes. -/
def fitRings (q need : Nat) : List Nat := (ringsOf q).filter fun k => decide (4096 * ringSize k ≥ need)

/-- A new request (R322): served, or waiting at the ring where the loop waits. A need that no size covers asks for nothing there is. -/
def poolAsk (q need : Nat) (inst : Option InstId) (s : State) : State :=
  match serveFrom q inst true (fitRings q need) s with
  | (none, s) => s
  | (some k, s) => bpmCnt 0x70C 1 (modBpm (fun b => { b with waiters := b.waiters ++ [{ q := q, k := k, need := need, inst := inst }] }) s)

/-- The waiters of the backing of ring k are tried in order of arrival. -/
def serveWaiters (k : Nat) (s : State) : State :=
  each (s.bpm.waiters.filter fun w => k ∈ ringsOf w.q) (fun w s =>
    match serveFrom w.q w.inst true (fitRings w.q w.need) s with
    | (none, s) => modBpm (fun b => { b with waiters := dropFirst w b.waiters }) s
    | (some k, s) => modBpm (fun b => { b with waiters := b.waiters.map fun x => if x = w then { x with k := k } else x }) s) s

/-- A ring without a copy lives only in its cache (R319). -/
def bareRing (r : PoolRing) : Bool := r.copyA == 15 && r.copyB == 15

/-- A buffer is free again: to its cache of 512 entries, past them to its ring; retired where its stack is lost, or where a full cache is
all there is of the ring (R319, R321, R323). -/
def giveBack (k i : Nat) (s : State) : State :=
  let gone := match bufStack s k i with | some m => bitOf s.units.stackLost m | none => false
  if gone then modBpm (fun b => { b with retiredBufs := insNat (bufKey k i) b.retiredBufs })
    (modPoolRing k (fun r => { r with held := r.held - 1, retired := r.retired + 1 }) s)
  else if (poolRingOf s k).cache.length < 512 then modPoolRing k (fun r => { r with held := r.held - 1, cache := r.cache ++ [i] }) s
  else if bareRing (poolRingOf s k) then modBpm (fun b => { b with retiredBufs := insNat (bufKey k i) b.retiredBufs })
    (modPoolRing k (fun r => { r with held := r.held - 1, retired := r.retired + 1 }) s)
  else modPoolRing k (fun r => { r with held := r.held - 1, ring := r.ring ++ [entryOf i] }) s

/-- Free a held buffer of its holder. -/
def releaseBuf (q k i : Nat) (s : State) : State :=
  let s := modBpm (fun b => { b with holders := tset 0 b.holders (bufKey k i) 0, used := tset 0 b.used q (tget 0 b.used q - ringSize k)
                                     owners := b.owners.filter fun e => e.1 ≠ bufKey k i }) s
  serveWaiters k (giveBack k i s)

/-- A free by requester q (R323): double and foreign frees are refused. A free of an SRAM pool by a requester that belongs to no die is foreign
to every one. -/
def poolGive (q pool i : Nat) (s : State) : State :=
  let foreign (k : Nat) (s : State) : State := logEvent' 0x3102 7 k [] 2 i false (bpmCnt 0x704 1 s)
  match ringFor q pool with
  | none => foreign pool s
  | some k =>
    let h := tget 0 s.bpm.holders (bufKey k i)
    if !(poolRingOf s k).valid then s
    else if h = 0 then logEvent' 0x3101 7 k [] 2 i false (bpmCnt 0x700 1 s)
    else if h ≠ q + 1 then foreign k s
    else releaseBuf q k i s

/-- The buffers and the waiting requests of the instances for which gone holds go back (R251, R323). -/
def freeOwned (gone : InstId → Bool) (s : State) : State :=
  let s := modBpm (fun b => { b with waiters := b.waiters.filter fun w => !(w.inst.any gone) }) s
  each (s.bpm.owners.filter fun e => gone e.2) (fun e s =>
    releaseBuf (tget 0 s.bpm.holders e.1 - 1) (e.1 / 2 ^ 14) (e.1 % 2 ^ 14) s) s

/-- Every buffer of a requester is freed (a DMA channel that halts, R323), and its waiting requests end. -/
def freeAllOf (q : Nat) (s : State) : State :=
  let s := modBpm (fun b => { b with waiters := b.waiters.filter fun w => w.q ≠ q }) s
  each (s.bpm.holders.filter fun e => e.2 = q + 1) (fun e s => releaseBuf q (e.1 / 2 ^ 14) (e.1 % 2 ^ 14) s) s

/-- A stack is lost (R319, R323): its free buffers are retired, its ring copies are gone; a ring without a copy lives in its cache, and with one live
stack left it runs on a single copy. -/
def poolsLoseStack (m : Nat) (s : State) : State :=
  each (List.range 11) (fun k s =>
    let r := poolRingOf s k
    if !r.valid then s
    else
      let dead (i : Nat) : Bool := bufStack s k i == some m
      let gone := (r.ring.map entryIdx ++ r.cache).filter dead
      let r := { r with
        ring := r.ring.filter fun w => !dead (entryIdx w), cache := r.cache.filter fun i => !dead i, retired := r.retired + gone.length
        copyA := if r.copyA.toNat = m then 15 else r.copyA, copyB := if r.copyB.toNat = m then 15 else r.copyB }
      let bare := bareRing r
      let gone2 := if bare then (r.ring.drop (512 - r.cache.length)).map entryIdx else []
      let r := if bare then { r with cache := r.cache ++ (r.ring.take (512 - r.cache.length)).map entryIdx, ring := [], retired := r.retired + gone2.length } else r
      let r := { r with single := !bare && ((r.copyA == 15) != (r.copyB == 15)) && (r.single || decide (((List.range 8).filter (stackUp s)).length ≤ 1)) }
      modBpm (fun b => { b with retiredBufs := (gone ++ gone2).foldl (fun l i => insNat (bufKey k i) l) b.retiredBufs }) (modPoolRing k (fun _ => r) s)) s

/-- The SRAM pools of a reduction die vanish with it (R323): its requesters hold nothing and wait for nothing. -/
def poolsLoseDie (x : Nat) (s : State) : State :=
  let s := modBpm (fun b =>
    { b with waiters := b.waiters.filter (fun w => !(decide (w.q < 16) && w.q / 4 == x))
             holders := b.holders.filter (fun e => e.1 / 2 ^ 14 / 2 ≠ x ∨ e.1 / 2 ^ 14 ≥ 8)
             owners := b.owners.filter (fun e => e.1 / 2 ^ 14 / 2 ≠ x)
             used := (List.range 4).foldl (fun t c => tset 0 t (4 * x + c) 0) b.used }) s
  each [2 * x, 2 * x + 1] (fun k => modPoolRing k fun _ => {}) s

/-- Bytes of ring copies in a stack's system area. -/
def systemUse (s : State) (m : Nat) : Nat :=
  ((List.range 11).map fun k => let r := poolRingOf s k
    8 * r.total * (b2n (r.copyA.toNat == m) + b2n (r.copyB.toNat == m))).sum

/-- The stack that takes a new copy of a ring (R319): the lowest live one with room, of a die other than the survivor's if there is
one. -/
def copyTarget (s : State) (k survivor : Nat) : Option Nat :=
  let r := poolRingOf s k
  let ok := (List.range 8).filter fun m => stackUp s m && decide (m ≠ survivor) && decide (systemUse s m + 8 * r.total ≤ 196608)
  match ok.find? fun m => decide (m / 2 ≠ survivor / 2) with
  | some m => some m
  | none => ok.head?

/-- Rebuild the missing copy of a ring (R319). -/
def rebuildRing (k : Nat) (s : State) : State :=
  let r := poolRingOf s k
  if !r.valid || ((r.copyA == 15) == (r.copyB == 15)) then s
  else
    let keep := if r.copyA = 15 then r.copyB.toNat else r.copyA.toNat
    match copyTarget s k keep with
    | some m =>
      let s := modPoolRing k (fun r => if r.copyA = 15 then { r with copyA := BitVec.ofNat 4 m, single := false } else { r with copyB := BitVec.ofNat 4 m, single := false }) s
      logEvent 0x3103 7 k [] s
    | none => modPoolRing k (fun r => { r with single := true }) s

/-! ## The commands -/

/-- RING_REBUILT (R319). -/
def execRingRebuilt (k : Fin 11) (st : State) : Outcome := .next <| if mgmtUp st then rebuildRing k st else st

/-- POOL_REQUEST (R322). -/
def execPoolRequest (q : Fin 52) (need : Nat) (st : State) : Outcome := .next <| if mgmtUp st then poolAsk q need none st else st

/-- POOL_FREE (R322, R323). -/
def execPoolFree (q : Fin 52) (pool : Fin 5) (idx : BitVec 14) (st : State) : Outcome :=
  .next <| if mgmtUp st then poolGive q pool idx.toNat st else st

/-- Where the only copy of ring k cannot be read, the first entry of the batch is lost: it fails its check (R310, R320). -/
def batchLost (k : Nat) (r : CwResult) (s : State) : State :=
  let g := poolRingOf s k
  if r = .uncorrectable ∧ (g.copyA = 15 ∨ g.copyB = 15) then
    modPoolRing k (fun g => { g with ring := match g.ring with | w :: t => (w ^^^ 0x100000000#64) :: t | [] => [] }) s
  else s

/-- CACHE_REFILL (R320, R321): a cache below 128 reads up to 128 entries from its ring. r is what the read of the first copy gave: where it is
uncorrectable the entries come from the other copy and the bad one is rewritten (R310). Where in the system area a copy lies is open (R306): the
read is taken at its base. -/
def execCacheRefill (k : Fin 11) (r : CwResult) (st : State) : Outcome :=
  .next <|
    let g := poolRingOf st k
    if !mgmtUp st || g.cache.length ≥ 128 || g.ring.isEmpty then st
    else
      let m := if g.copyA = 15 then g.copyB.toNat else g.copyA.toNat
      if bareRing g then refill k 128 st
      else
        let (r, st) := cwRead m 0 64 0 r st
        refill k 128 (batchLost k r (cwWritten m 0 64 st))

/-- CACHE_WRITEBACK (R321): a cache above 448 writes 128 entries back. -/
def execCacheWriteback (k : Fin 11) (st : State) : Outcome :=
  .next <|
    if !mgmtUp st || (poolRingOf st k).cache.length ≤ 448 || bareRing (poolRingOf st k) then st
    else modPoolRing k (fun r => { r with ring := r.ring ++ (r.cache.take 128).map entryOf, cache := r.cache.drop 128 }) st

/-- The book of a ring (R324). -/
def ringBook (r : PoolRing) : Bool := r.ring.length + r.cache.length + r.held + r.moving + r.retired == r.total

/-- The books of R324. -/
def poolBooks (s : State) : Bool :=
  ((List.range 11).all fun k => !(poolRingOf s k).valid || ringBook (poolRingOf s k)) &&
    ((List.range 4).all fun x => ((List.range 4).map fun c => usedOf s (4 * x + c)).sum ==
      ([2 * x, 2 * x + 1].map fun k => ringSize k * (poolRingOf s k).held).sum) &&
    (((List.range 36).map fun c => usedOf s (16 + c)).sum == ([8, 9, 10].map fun k => ringSize k * (poolRingOf s k).held).sum)

/-- A write of SNAP (R324, R328): all ring and quota counts are frozen and the books compared. -/
def bpmSnap (s : State) : State :=
  let s := each (List.range 11) (fun k => modPoolRing k fun r =>
    { r with snapRing := r.ring.length, snapCache := r.cache.length, snapHeld := r.held, snapMoving := r.moving, snapRetired := r.retired
             snapWaiters := (s.bpm.waiters.filter fun w => w.k = k).length }) s
  let s := modBpm (fun b => { b with snapPending := b.pending }) s
  if poolBooks s then s else logEvent 0x3104 7 0 [] (modBpm (fun b => { b with err := true }) s)

/-- BPM_SNAP (R324). -/
def execBpmSnap (st : State) : Outcome := .next <| if mgmtUp st then bpmSnap st else st

end Sys2Proof.Machine
end

