-- ==== Sys2Proof/Machine/Groups.lean ====
section
/-! DEFINITION. Contexts and steps of collective groups (chapter 7): children, expected contributors, LIMIT, CTRL messages, and
how a step fails or closes. -/

namespace Sys2Proof.Machine

/-! ## Codes -/

def opAllreduce : Nat := 0
def opReduce : Nat := 1
def opReduceScatter : Nat := 2
def opAllgather : Nat := 3
def opBroadcast : Nat := 4
def opBarrier : Nat := 5
def opCoppice : Nat := 6

/-- KINDs of CTRL messages (R192). -/
def kStepStart : Nat := 1
def kStepOpen : Nat := 2
def kWindow : Nat := 3
def kStepEnd : Nat := 4
def kStop : Nat := 5
def kFail : Nat := 6

/-- Step statuses (R207). -/
def stOk : Nat := 0
def stAborted : Nat := 1
def stCancelled : Nat := 2
def stStraggler : Nat := 3
def stNanTrap : Nat := 4
def stInfTrap : Nat := 5
def stContextLost : Nat := 6
def stBadStep : Nat := 7

/-! ## Contexts -/

def modeBit (c : Ctx) (i : Nat) : Bool := bitOf c.spec.mode i
def isWorsted (c : Ctx) : Bool := modeBit c 0
def isPaced (c : Ctx) : Bool := modeBit c 4
def hasDigest (c : Ctx) : Bool := modeBit c 5

/-- Fields of the COPPICE bytes (R269), byte 48 in bits 127:120. -/
def cpFlags (w : BitVec 128) : Nat := fld w 120 8
def cpTwin (w : BitVec 128) : Bool := bitOf w 127
def cpTwinDie (w : BitVec 128) : Nat := fld w 124 2
def cpRootDie (w : BitVec 128) : Nat := fld w 120 2
def cpSegChunks (w : BitVec 128) : Nat := fld w 96 16
def cpNSeg (w : BitVec 128) : Nat := fld w 72 24
def cpBase (w : BitVec 128) : Nat := fld w 32 28
def cpTwinCoord (w : BitVec 128) : Nat := fld w 16 16
def cpTwinUp (w : BitVec 128) : Nat := fld w 0 11

/-- The positions of a context's children, ascending (R185). -/
def childPoss (c : Ctx) : List Nat := c.spec.children.map ChildSpec.pos
/-- The index of the child at a position. -/
def childIdx (c : Ctx) (pos : Nat) : Option Nat := (childPoss c).findIdx? (· = pos)
/-- The index of the child toward a rank. -/
def childToward (c : Ctx) (rank : Nat) : Option Nat := c.spec.children.findIdx? fun ch => rank ∈ ch.ranks

/-- The carrier format of a group (R220): the largest block size, the lower code on a tie. -/
def carrier (fmts : BitVec 16) : Nat :=
  (bitsOf fmts).foldl (fun b f => if blockBytes f > blockBytes b ∨ ¬ fmts.getLsbD b then f else b) 15
/-- The chunk limit of a group in elements (R220). -/
def chunkLimit (c : Ctx) : Nat := min (capacity (carrier c.spec.inFmts)) (capacity c.spec.outFmt.toNat)
/-- E_c of a COPPICE group (R272). -/
def coppiceElems (c : Ctx) : Nat := chunkLimit c / 64 * 64
/-- Blocks of a group's shard (R272). -/
def shardLen (spec : AllocMsg) : Nat :=
  cpNSeg spec.coppice * cpSegChunks spec.coppice * (min (capacity (carrier spec.inFmts)) (capacity spec.outFmt.toNat) / 64)

/-- The rank that chunk k of n belongs to in REDUCESCATTER and ALLGATHER (R199). -/
def rankOf (c : Ctx) (n k : Nat) : Nat := k / (n / c.spec.nMembers)

/-- The children, by index, from which the context expects chunk k of n (R199). -/
def expects (c : Ctx) (n k : Nat) : List Nat :=
  let op := c.spec.op.toNat
  if op = opAllgather then (childToward c (rankOf c n k)).toList
  else if op = opBroadcast then (childToward c 0).toList
  else List.range c.spec.children.length

/-- The children, by index, to which the result of chunk k goes (R199). -/
def resultTo (c : Ctx) (n k : Nat) : List Nat :=
  let op := c.spec.op.toNat
  if op = opReduce then (childToward c 0).toList
  else if op = opReduceScatter then (childToward c (rankOf c n k)).toList
  else List.range c.spec.children.length

/-- The open steps, oldest first. -/
def openSteps (c : Ctx) : List Step := c.steps.filter fun t => !t.closed
def stepOf (c : Ctx) (num : StepNo) : Option Step := (openSteps c).find? fun t => t.num = num
def modStep (num : StepNo) (f : Step → Step) (c : Ctx) : Ctx :=
  { c with steps := c.steps.map fun t => if t.num = num ∧ ¬ t.closed then f t else t }
/-- The chunk k of a step, if it is in progress. -/
def chunkOf (t : Step) (k : Nat) : Option Chunk := tget none t.chunks k
def setChunk (k : Nat) (x : Option Chunk) (t : Step) : Step := { t with chunks := tset none t.chunks k x }

/-- Is chunk k of a step emitted here? A chunk that no child of this context sends counts as emitted (log entry 16). -/
def chunkDone (c : Ctx) (t : Step) (k : Nat) : Bool := k ∈ t.done || (expects c t.n k).isEmpty

/-- e(s): the leading chunks all emitted (R197); f bounds the search. -/
def leadGo (c : Ctx) (t : Step) : Nat → Nat → Nat
  | 0, k => k
  | f + 1, k => if k < t.n ∧ chunkDone c t k then leadGo c t f (k + 1) else k
def leading (c : Ctx) (t : Step) : Nat := leadGo c t t.n 0

/-- LIMIT of a step (R197). -/
def limitOf (c : Ctx) (t : Step) : Nat :=
  let w := c.spec.window
  match openSteps c with
  | [] => 0
  | s1 :: r =>
    let l1 := min s1.n (leading c s1 + w)
    if t.num = s1.num then l1
    else if r.any (fun s2 => s2.num = t.num) ∧ l1 = s1.n then min t.n (w - (s1.n - leading c s1)) else 0

/-- The state of R206 that the open and READY steps give. -/
def settleSt (c : Ctx) : Ctx :=
  match c.st with
  | .idle | .ready | .run =>
    { c with st := if !(openSteps c).isEmpty then .run else if c.ready.isSome then .ready else .idle }
  | _ => c

/-! ## Sending (R142, R150, R192) -/

/-- The payload of a CTRL message (R192). -/
def ctrlBody (kind status arg : Nat) (more : List Byte) : List Byte :=
  [BitVec.ofNat 8 kind, BitVec.ofNat 8 status, 0, 0] ++ bytesBE 4 arg ++ more

/-- The header of a CHUNK or CTRL of a group (R191). -/
def groupHdr (s : State) (c : Ctx) (ptype plen step chunk fmt : Nat) (last : Bool) : Hdr :=
  mkHdr 0 ptype c.spec.tc.toNat c.spec.leader.toNat s.gctl.ownId.toNat c.spec.pkey.toNat plen 255 c.spec.group.toNat step chunk fmt last

/-- Where a context's packets enter the fabric dies: its reducer port, or the die itself when its home die is not live. -/
def ctxSrc (s : State) (c : Ctx) (d : Nat) : Nat := if redLive s c.die then 4 + c.die else d

/-- Send a packet of a context to a set of positions: one copy to each fabric die that holds a target (R142). -/
def sendMany (c : Ctx) (h : Hdr) (body : List Byte) (poss : List Nat) (s : State) : State :=
  each (List.range 4) (fun d s =>
    let t := poss.filter fun p => dieOf p = d
    match t with
    | [] => s
    | m :: _ =>
      let (pid, s) := newPkt h [] body false true s
      toEgress d (ctxSrc s c d) (tcVc s (hTc h)) m (t.map fun p => qkey s p (hTc h)) pid s) s

/-- Send a packet of a context to one position (R150). -/
def sendOne (c : Ctx) (h : Hdr) (body : List Byte) (pos : Nat) (s : State) : State :=
  let (pid, s) := newPkt h [] body false false s
  toEgress (dieOf pos) (ctxSrc s c (dieOf pos)) (tcVc s (hTc h)) pos [qkey s pos (hTc h)] pid s

/-- A CTRL message to every child. -/
def ctrlDown (c : Ctx) (kind status step arg : Nat) (more : List Byte) (s : State) : State :=
  let b := ctrlBody kind status arg more
  sendMany c (groupHdr s c ptCtrl b.length step 0 0 false) b (childPoss c) s

/-- A CTRL message to the parent. -/
def ctrlUp (c : Ctx) (kind status step arg : Nat) (more : List Byte) (s : State) : State :=
  match c.up with
  | some p => let b := ctrlBody kind status arg more; sendOne c (groupHdr s c ptCtrl b.length step 0 0 false) b p s
  | none => s

/-- The detail and digest bytes of STEP_END. -/
def endMore (detail : Detail) (dg : BitVec 128) : List Byte := bytesBE 16 detail.toNat ++ bytesBE 16 dg.toNat

/-- STEP_END to the leader alone, along the tree (R194, R206; log entry 17). -/
def answerLeader (c : Ctx) (status : Nat) (detail : Detail) (step : StepNo) (s : State) : State :=
  match (childToward c c.spec.leaderRank).bind fun i => (childPoss c)[i]? with
  | some p =>
    let b := ctrlBody kStepEnd status 0 (endMore detail 0)
    sendOne c (groupHdr s c ptCtrl b.length step.toNat 0 0 false) b p s
  | none => s

/-- Send WINDOW for the open steps whose LIMIT has risen enough, or for all when a step opens (R197). -/
def sendWindows (slot : Nat) (force : Bool) (s : State) : State :=
  match ctxOf s slot with
  | none => s
  | some c => each (openSteps c) (fun t s =>
      let l := limitOf c t
      if t.failed.isNone && (force || (decide (l > t.limSent) && (decide (l - t.limSent ≥ max 1 (c.spec.window / 8)) || l == t.n))) then
        ctrlDown c kWindow 0 t.num.toNat l [] (modCtx slot (modStep t.num fun t => { t with limSent := l }) s)
      else s) s

/-! ## Failing and closing a step (R200 to R206) -/

/-- The detail of R193. -/
def detailOf (coord pos id chunk missing : Nat) : Detail :=
  BitVec.ofNat 128 (coord * 2 ^ 112 + pos * 2 ^ 96 + id * 2 ^ 64 + chunk * 2 ^ 48 + missing * 2 ^ 32)

/-- The oldest incomplete chunk of a step (R202), from chunk k on. -/
def oldestIncomplete (c : Ctx) (t : Step) : Nat → Nat → Nat
  | 0, k => k
  | f + 1, k =>
    let full := chunkDone c t k || (match chunkOf t k with | some x => (expects c t.n k).all (· ∈ x.bits) | none => false)
    if k < t.n ∧ full then oldestIncomplete c t f (k + 1) else k

/-- The children missing from chunk k of a step, by index. -/
def missingOf (c : Ctx) (t : Step) (k : Nat) : List Nat :=
  (expects c t.n k).filter fun i => match chunkOf t k with | some x => !decide (i ∈ x.bits) | none => true

/-- The detail of a fault of which only this switch's coordinate is known (R193). -/
def ownDetail (s : State) : Detail := detailOf s.gctl.coord.toNat 0 0 0 0

/-! ## Instances that are no more (R251, R260) -/

/-- Is an instance still there? -/
def instLives (s : State) (i : InstId) : Bool :=
  (ctxOf s i.slot.toNat).any fun c => c.steps.any fun t => t.num == i.step && (chunkOf t i.chunk.toNat).isSome

/-- A halt in single-step on a die is over: the timers of its context stood still meanwhile (R260). -/
def unhalt (x : Nat) (s : State) : State :=
  let r := redOf s x
  match r.halted with
  | none => s
  | some i =>
    modCtx i.slot.toNat (fun c => { c with steps := c.steps.map fun t => { t with timerAt := t.timerAt + (s.clock - max r.haltedAt t.timerAt) } })
      (modRed x (fun r => { r with halted := none }) s)

/-- What instances of a slot that are no more leave behind: a halt, and buffers and requests. -/
def sweepInsts (slot : Nat) (s : State) : State :=
  let gone (i : InstId) : Bool := i.slot.toNat == slot && !instLives s i
  let s := each (List.range 4) (fun x s => if (redOf s x).halted.any gone then unhalt x s else s) s
  freeOwned gone s

/-! ## Freeing a context (R190, R206) -/

/-- A context is freed: its map entries go on all four fabric dies, then its SRAM and its buffers (R323). -/
def freeCtx (slot : Nat) (s : State) : State :=
  match ctxOf s slot with
  | none => s
  | some c =>
    let s := each (List.range 4) (fun d => modSwc d fun w =>
      { w with ctxMap := w.ctxMap.filter fun e => e.2.slot.toNat ≠ slot }) s
    let s := iff c.reserved (modRed c.die fun r => { r with freePages := r.freePages + c.pages }) s
    sweepInsts slot (setCtx slot none s)

/-- A context marked for deletion is freed once no step is open, no instance is left to store its chunk (R258), and no STEP_END is held. -/
def freeIfDeleting (slot : Nat) (s : State) : State :=
  match ctxOf s slot with
  | some c => if c.deleting && (c.st == .idle || c.st == .halt || c.st == .lost) && c.steps.isEmpty then freeCtx slot s else s
  | none => s

/-! ## Closing a step (R200, R204, R206, R256, R296) -/

/-- The value of SQ as FP32 (R256). -/
def sqWord (q : Rat) : Word := fp32Of q.num (-(Nat.log2 q.den : Int))

/-- A step with the instances that go on when it closes: those past their grant (R258). -/
def keepGranted (t : Step) : Step :=
  { t with chunks := t.chunks.filter fun e => match e.2 with | some k => k.inst.granted | none => false }

/-- Is a closed step over: no instance left, and no STEP_END held? -/
def stepOver (t : Step) : Bool := t.closed && t.chunks.isEmpty && t.endHeld.isNone

def isTrap (status : Nat) : Bool := status == stNanTrap || status == stInfTrap

/-- A context as a step closes that had come to t: SQ and the digest are copied at the root, and a trap halts the context. hold is the
STEP_END that the root keeps back. -/
def closedCtx (t : Step) (status : Nat) (detail : Detail) (hold : Option (Byte × BitVec 64)) (c : Ctx) : Ctx :=
  let st8 := BitVec.ofNat 8 status
  let shut (x : Step) : Step := { keepGranted x with closed := true, endHeld := hold, failed := if status = stOk then none else some (st8, detail) }
  let c := { c with
    steps := (c.steps.map fun x => if x.num = t.num ∧ ¬ x.closed then shut x else x).filter fun x => !stepOver x
    lastClosed := some (t.num, st8), lastStatus := st8
    sq := if c.spec.isRoot then sqWord t.sq else c.sq
    digest := if c.spec.isRoot && status == stOk && hasDigest c then t.dg else c.digest }
  if isTrap status then (match c.st with | .moving | .lost => c | _ => { c with st := .halt, haltStatus := st8, haltDetail := detail }) else settleSt c

/-- The READY step of a context as one of two open steps closes: until now it could not open (R298). -/
def waited (s : State) (c : Ctx) : Ctx :=
  if (openSteps c).length ≥ 2 then { c with ready := c.ready.map fun r => { r with after := cdiv (fabT s).toNat 65536 } } else c

/-- A step of a context closes: it is counted, what its dropped instances held is freed, and LIMIT may rise for the step behind it (R197). -/
def closeStep (slot : Nat) (num : StepNo) (status : Nat) (detail : Detail) (hold : Option (Byte × BitVec 64)) (s : State) : State :=
  match (ctxOf s slot).bind fun c => (stepOf c num).map fun t => (c, t) with
  | none => s
  | some (c, t) =>
    let s := redCnt c.die (if status = stOk then 0x050 else 0x054) 1 s
    sendWindows slot false (sweepInsts slot (modCtx slot (fun c => closedCtx t status detail hold (waited s c)) s))

/-- STEP_END of a root step goes down the tree (R200, R204, R296). -/
def sendEnd (c : Ctx) (t : Step) (status : Nat) (detail : Detail) (s : State) : State :=
  ctrlDown c kStepEnd status t.num.toNat t.results (endMore detail (if status = stOk ∧ hasDigest c then t.dg else 0)) s

/-- A root step closes; its STEP_END leaves at once, or is held. -/
def endStep (slot : Nat) (num : StepNo) (status : Nat) (detail : Detail) (hold : Option (Byte × BitVec 64)) (s : State) : State :=
  match (ctxOf s slot).bind fun c => (stepOf c num).map fun t => (c, t) with
  | none => s
  | some (c, t) => freeIfDeleting slot (closeStep slot num status detail hold (iff hold.isNone (sendEnd c t status detail) s))

/-- A held STEP_END leaves. -/
def releaseEnd (slot : Nat) (num : StepNo) (s : State) : State :=
  match (ctxOf s slot).bind fun c => (c.steps.find? fun t => t.num = num ∧ t.endHeld.isSome).map fun t => (c, t) with
  | some (c, t) =>
    let s := sendEnd c t ((t.endHeld.map fun e => e.1.toNat).getD 0) ((t.failed.map Prod.snd).getD 0) s
    freeIfDeleting slot (modCtx slot (fun c => { c with
      steps := (c.steps.map fun x => if x.num = num ∧ x.endHeld.isSome then { x with endHeld := none } else x).filter fun x => !stepOver x }) s)
  | none => s

/-- Does a step still owe twin packets (R282)? -/
def owesTwin (c : Ctx) (t : Step) : Bool :=
  cpTwin c.spec.coppice && c.spec.op.toNat = opCoppice && c.twin == .active &&
    t.chunks.any fun e => match e.2 with | some k => k.inst.granted && !k.inst.stsDone | none => false

/-- A context fails a step (R202 to R204): its partials are discarded; the root sends STEP_END, once the twin packets of its stored chunks are
granted (R282), another context FAIL to its parent. -/
def failStep (slot : Nat) (num : StepNo) (status : Nat) (detail : Detail) (s : State) : State :=
  match (ctxOf s slot).bind fun c => (stepOf c num).map fun t => (c, t) with
  | none => s
  | some (c, t) =>
    let st8 := BitVec.ofNat 8 status
    if c.spec.isRoot then endStep slot num status detail (if owesTwin c t then some (st8, 0) else none) s
    else if t.failed.isSome then s
    else
      let s := modCtx slot (modStep num fun t => { t with failed := some (st8, detail), chunks := [] }) s
      let s := iff (isTrap status) (modCtx slot fun c => { c with st := .halt, haltStatus := st8, haltDetail := detail }) s
      ctrlUp c kFail status num.toNat t.done.length (bytesBE 16 detail.toNat) (sweepInsts slot s)

/-- The instant before which a paced step's STEP_END is held (R299), in 2^-16 ns. -/
def paceEnd (c : Ctx) (t : Step) : Nat := t.openAt.toNat + 65536 * c.spec.paceNs

/-- Close a root step whose every result has been granted; its STEP_END is held for twin packets (R282) and for its pace instant
(R299). -/
def closeOk (slot : Nat) (num : StepNo) (s : State) : State :=
  match (ctxOf s slot).bind fun c => (stepOf c num).map fun t => (c, t) with
  | none => s
  | some (c, t) =>
    let now := (fabT s).toNat
    let late := isPaced c && decide (paceEnd c t < now)
    let early := isPaced c && decide (now < paceEnd c t)
    let hold : Option (Byte × BitVec 64) := if owesTwin c t || early then some (0, if early then BitVec.ofNat 64 (paceEnd c t / 65536) else 0) else none
    endStep slot num stOk 0 hold (iff late (redCnt c.die 0x124 1) s)

/-- Name child i of a context as the straggler of a step: the event, the count, and the failure (R202, R203). -/
def failStraggler (slot : Nat) (num : StepNo) (i : Nat) (s : State) : State :=
  match ctxOf s slot with
  | none => s
  | some c => match stepOf c num with
    | none => s
    | some t =>
      if t.failed.isSome then s
      else
        let k := oldestIncomplete c t t.n 0
        let ch := c.spec.children[i]?
        let pos := (ch.map ChildSpec.pos).getD 0
        let id := match ch with | some x => if x.isSwitch then 0 else x.id.toNat | none => 0
        let miss := (missingOf c t k).length
        let s := logEvent 0x2020 3 (256 * c.die) (bytesLE 2 s.gctl.coord.toNat ++ bytesLE 2 pos ++ bytesLE 3 id ++ bytesLE 2 k ++ bytesLE 2 miss) s
        let s := redCnt c.die 0x058 1 s
        failStep slot num stStraggler (detailOf s.gctl.coord.toNat pos id k miss) s

/-- The slots that are not FREE. -/
def liveSlots (s : State) : List Nat := (s.ctxs.filter fun e => e.2.isSome).map Prod.fst

/-- The twin sub-link of a root's context: the child whose switch is the twin (R280). -/
def twinPos (c : Ctx) : Option Nat :=
  (c.spec.children.find? fun ch => ch.isSwitch && ch.coord.toNat == cpTwinCoord c.spec.coppice).map ChildSpec.pos

/-- The root marks its twin STALE (R283). -/
def markStale (slot : Nat) (s : State) : State :=
  match ctxOf s slot with
  | some c =>
    if c.twin = .active then
      let s := modCtx slot (fun c => { c with twin := .stale }) s
      let s := modCtx slot (fun c => { c with steps := c.steps.map fun t => { t with chunks := t.chunks.map fun e =>
        (e.1, e.2.map fun k => { k with inst := { k.inst with twinLeft := [] } }) } }) s
      logEvent 0x2041 3 (256 * c.die) (bytesLE 3 c.spec.group.toNat) s
    else s
  | none => s

/-- A sub-link of contexts has gone down: open steps of contexts whose child or parent it was fail STRAGGLER (R203, R211), and a
twin reached through it becomes STALE (R283). -/
def groupsLinkDown (pos : Nat) (s : State) : State :=
  each (liveSlots s) (fun slot s =>
    match ctxOf s slot with
    | none => s
    | some c =>
      let s := iff (c.spec.isRoot && cpTwin c.spec.coppice && twinPos c == some pos) (markStale slot) s
      match childIdx c pos with
      | some i => each (openSteps c) (fun t s => failStraggler slot t.num i s) s
      | none =>
        if c.up = some pos then
          each (openSteps c) (fun t s =>
            if t.failed.isSome then s
            else
              let k := oldestIncomplete c t t.n 0
              let miss := (missingOf c t k).length
              let s := logEvent 0x2020 3 (256 * c.die) (bytesLE 2 c.spec.upCoord.toNat ++ bytesLE 2 c.spec.upPos ++ bytesLE 3 0 ++ bytesLE 2 k ++ bytesLE 2 miss) s
              let s := redCnt c.die 0x058 1 s
              failStep slot t.num stStraggler (detailOf c.spec.upCoord.toNat c.spec.upPos 0 k miss) s) s
        else s) s

end Sys2Proof.Machine
end

