-- ==== Sys2Proof/Machine/Registry.lean ====
section
/-! DEFINITION. The manager's registry (R98 to R103), STOP and the deletion of groups (R190, R205), and what a Skarad does with a
registration of its own and with the answer (R61). -/

namespace Sys2Proof.Machine

/-! ## Stopping and deleting a group (R190, R205) -/

/-- The root decides a STOP of step num (R205), first matching row; n bounds the steps a STOP can pass. A cancelled step is never
open; a STOP of a closed step with later steps known is ignored (log entry 18). -/
def stopStep : Nat → Nat → StepNo → State → State
  | 0, _, _, s => s
  | f + 1, slot, num, s =>
    match ctxOf s slot with
    | none => s
    | some c =>
      if (c.ready.map Ready.num) = some num then
        let s := modCtx slot (fun c => settleSt { c with ready := none }) s
        freeIfDeleting slot (ctrlDown c kStepEnd stCancelled num.toNat 0 (endMore 0 0) s)
      else match stepOf c num with
        | some t =>
          if t.results = 0 then endStep slot num stAborted 0 none (modCtx slot (modStep num fun t => { t with chunks := [] }) s)
          else if (c.ready.map Ready.num) = some (num + 1) || (stepOf c (num + 1)).isSome then stopStep f slot (num + 1) s
          else modCtx slot (fun c => { c with stopHeld := true }) s
        | none =>
          if (c.lastClosed.map Prod.fst) = some num && c.ready.isNone && (openSteps c).isEmpty then
            modCtx slot (fun c => { c with stopHeld := true }) s
          else s

/-- The slot of a group's context here. -/
def slotOf (s : State) (group : GroupId) : Option Nat :=
  (liveSlots s).find? fun k => match ctxOf s k with | some c => c.spec.group == group | none => false

/-- A STOP of step num at the root (R205); at a MOVING root it is held (R211). -/
def rootStop (slot : Nat) (num : StepNo) (s : State) : State :=
  match ctxOf s slot with
  | some c =>
    if c.st = .moving then modCtx slot (fun c => { c with held := c.held ++ [{ start := false, num := num, n := 0, scalars := [], arrived := fabT s }] }) s
    else stopStep 4 slot num s
  | none => s

/-- The sub-link a packet arrived on. -/
def pktPos (s : State) (p : Pkt) : Nat := match p.pos with | some q => subKey s (q / 4) (q % 4) | none => 1152

/-- Is a CHUNK at a context a twin write (R281)? -/
def isTwinWrite (c : Ctx) (pos : Nat) (p : Pkt) : Bool := c.isTwin && c.up == some pos && hFmt p.hdr == 0xE

/-- A CHUNK is discarded with its reduction die: a contribution counts in the book of its step (R201, R210), a twin write in TWIN_BAD (R285). -/
def discardChunk (pid : Nat) (s : State) : State :=
  match pktOf s pid with
  | none => s
  | some p =>
    setPkt pid none (match (slotOf s (BitVec.ofNat 24 (hGroup p.hdr))).bind fun k => (ctxOf s k).map fun c => (k, c) with
      | some (k, c) =>
        let pos := pktPos s p
        if isTwinWrite c pos p then redCnt c.die 0x0FC 1 s
        else if c.up = some pos then s
        else modCtx k (modStep (BitVec.ofNat 48 (hStep p.hdr)) fun t => { t with steered := satAdd t.steered 1, discarded := satAdd t.discarded 1 }) s
      | none => s)

/-- Is a packet number that of a CHUNK? -/
def isChunkPid (s : State) (pid : Nat) : Bool := (pktOf s pid).any fun p => hPtype p.hdr == ptChunk

/-- A switch deletes its context of a group (R190): open and READY steps are stopped first at the root; a context with open
steps is freed when they have closed. -/
def deleteLocal (group : GroupId) (s : State) : State :=
  match slotOf s group with
  | none => s
  | some slot => match ctxOf s slot with
    | none => s
    | some c =>
      if !c.committed then freeCtx slot s
      else
        let s := modCtx slot (fun c => { c with deleting := true }) s
        let nums := (openSteps c).map Step.num ++ (c.ready.map Ready.num).toList
        let s := iff c.spec.isRoot (each nums (rootStop slot)) s
        freeIfDeleting slot s

/-- The manager deletes a group: every switch of its descriptor is told. -/
def deleteGroup (group : Nat) (s : State) : State :=
  match tget none s.mgr.groups group with
  | none => s
  | some g =>
    let s := modMgr (fun m => { m with groups := tset none m.groups group none }) s
    each g.desc.switches (fun w s =>
      if w.coord = s.gctl.coord then deleteLocal g.desc.group s else emit (.deleteMsg w.coord g.desc.group) s) s

/-! ## Registrations (R78, R98 to R103) -/

def regOf (s : State) (id : Nat) : Option RegRec := tget none s.mgr.reg id

/-- The records held, and of them the switches'. -/
def regRecs (s : State) : List (Nat × RegRec) := s.mgr.reg.filterMap fun e => e.2.map fun r => (e.1, r)

/-- The record that refuses a registration, if any (R99, R102). -/
def regHolder (s : State) (q : RegReq) : Option RegRec :=
  let other := (regRecs s).find? fun e => q.isSwitch && e.2.isSwitch && e.2.coord == q.coord && e.1 != q.id.toNat
  match regOf s q.id.toNat with
  | some r =>
    if r.coord = q.coord ∧ ((r.port = q.port ∧ r.strand = q.strand) ∨ q.isSwitch) then other.map Prod.snd else some r
  | none => other.map Prod.snd

/-- The answer to a registration (R78, R99). -/
def regAnswerOf (s : State) (q : RegReq) : RegAns :=
  match regHolder s q with
  | some r => .duplicate r.coord r.port r.strand
  | none =>
    let n := ((regRecs s).filter fun e => e.2.isSwitch == q.isSwitch).length
    if (regOf s q.id.toNat).isNone ∧ n ≥ (if q.isSwitch then 16384 else 524288) then .full else .accepted

/-- DETAIL of DUPLICATE_ID (R487). -/
def dupDetail (q : RegReq) (a : RegAns) : List Byte :=
  let (reason, hc, hp, hs) : Nat × Nat × Nat × Nat := match a with
    | .duplicate c p st => (0, c.toNat, p, st)
    | _ => (1, 0, 0, 0)
  bytesLE 3 q.id.toNat ++ bytesLE 1 reason ++ bytesLE 2 q.coord.toNat ++ bytesLE 2 q.port ++ bytesLE 1 q.strand ++ [0] ++
    bytesLE 2 hc ++ bytesLE 2 hp ++ bytesLE 1 hs

/-- The manager serves a registration: the answer and the registry after it. A record that exists already is kept as it is. -/
def serveReg (q : RegReq) (s : State) : RegAns × State :=
  match regAnswerOf s q with
  | .accepted =>
    let r : RegRec := { coord := q.coord, port := q.port, strand := q.strand, isSwitch := q.isSwitch }
    (.accepted, modMgr (fun m => { m with reg := tset none m.reg q.id.toNat (some ((tget none m.reg q.id.toNat).getD r)) }) s)
  | a => (a, logMb 0x5210 (dupDetail q a) s)

/-- A group all of whose members have no registration record left. -/
def memberless (s : State) (g : GroupRec) : Bool := g.live && g.desc.members.all fun i => (regOf s i.toNat).isNone

/-- The manager serves a withdrawal (R100, R190). -/
def serveWithdraw (q : RegReq) (s : State) : State :=
  match regOf s q.id.toNat with
  | some r =>
    if r.coord = q.coord ∧ r.port = q.port ∧ r.strand = q.strand ∧ ¬ r.isSwitch then
      let s := modMgr (fun m => { m with reg := tset none m.reg q.id.toNat none }) s
      each (s.mgr.groups.filterMap fun e => e.2) (fun g s =>
        if q.id ∈ g.desc.members && memberless s g then deleteGroup g.desc.group.toNat s else s) s
    else s
  | none => s

/-- The order in which the manager serves requests of one arbitration: the lower coordinate, then the lower port, then the lower strand
(R98, R100). -/
def arbKey (q : RegReq) : Nat := (q.coord.toNat * 512 + q.port) * 4 + q.strand

/-- The withdrawals of one arbitration, in their order (R100). -/
def serveWithdraws (ws : List RegReq) (s : State) : State := each (sortBy arbKey ws) serveWithdraw s

/-- The registrations of one arbitration, in their order, each with its answer (R98). -/
def serveRegs (qs : List RegReq) (s : State) : State :=
  each (sortBy arbKey qs) (fun q s => let (a, s) := serveReg q s; emit (.regAnswer q a) s) s

/-! ## The requesting Skarad -/

/-- The registration of sub-link k: the endpoint's identifier, or the Skarad's own on a switch-facing sub-link (R98, R102). -/
def regReqOf (s : State) (k : Nat) : RegReq :=
  let l := linkOf s k
  { id := if l.peerSwitch then s.gctl.ownId else l.ident, coord := s.gctl.coord, port := k / 4, strand := k % 4, isSwitch := l.peerSwitch }

/-- Put a link state on a sub-link and its live strands. -/
def linkTo (k : Nat) (st : LinkSt) (s : State) : State :=
  let s := each (liveStrands s k) (fun q => modStrand q fun x => { x with st := st }) s
  modLink k (fun l => { l with st := st }) s

end Sys2Proof.Machine
end

