-- ==== Sys2Proof/Machine/Loss.lean ====
section
/-! DEFINITION. Losing parts: domains off (R444, R455, R490), sub-links down (R53, R58, R100, R203), strands retired (R53),
fabric dies fenced (R157, R420) and engines lost (R419). -/

namespace Sys2Proof.Machine

/-! ## Domains -/

/-- Switch domain k on or off (R455): residency and transitions follow. -/
def domSet (k : Nat) (v : Bool) (s : State) : State :=
  if domOn s k = v then s
  else modPwr (fun p =>
    { p with on := setBit p.on k v, trans := tset 0 p.trans k (satAdd16 (tget 0 p.trans k) 1),
             onSince := tset 0 p.onSince k (if v then s.clock else 0),
             onSec := if v then p.onSec else tset 0 p.onSec k (tget 0 p.onSec k + (s.clock - tget 0 p.onSince k)) }) s

/-- A lost unit's domains, but those fused off, go off, in the reverse of the order in which domains come up, and are marked LOST (R444, R490). -/
def domsLost (ks : List Nat) (s : State) : State :=
  each (ks.filter fun k => decide (k < 60) && !domFused s k) (fun k s => modPwr (fun p => { p with lost := setBit p.lost k true, wantOff := setBit p.wantOff k false }) (domSet k false s)) s

/-- An access to a domain that is off (R452): counted and logged. -/
def offAccess (k acc addr : Nat) (s : State) : State :=
  logEvent' 0x6101 9 k [] acc addr false (modPwr (fun p => { p with offAcc := satAdd p.offAcc 1 }) s)

/-- A wake source is latched and logged (R451). -/
def noteWake (bit : Nat) (s : State) : State :=
  logEvent 0x6112 9 0 [BitVec.ofNat 8 bit] (modPwr (fun p => { p with wakeCause := setBit p.wakeCause bit true }) s)

/-- The return from Quiet begins (R447, R451). -/
def wakeQuiet (s : State) : State :=
  if s.pwr.state == .quiet && !s.pwr.busy then modPwr (fun p => { p with busy := true, phase := .restart, target := .run, single := none }) s else s

/-! ## A sub-link goes down -/

/-- Is this a state in which the sub-link had reached REGISTER (R53, R58)? -/
def pastTraining (st : LinkSt) : Bool :=
  match st with | .register | .active | .idle | .doze | .quarantine => true | _ => false

/-- The code of a link state (R69). -/
def linkCode (st : LinkSt) : Nat :=
  match st with
  | .down => 0 | .dark => 1 | .clock => 2 | .eq => 3 | .align => 4 | .config => 5 | .assign => 6 | .register => 7 | .active => 8
  | .idle => 9 | .doze => 10 | .quarantine => 11

/-- The code of a DOWN_REASON (R69). -/
def reasonCode (r : DownReason) : Nat :=
  match r with
  | .none => 0 | .noLight => 1 | .trainTimeout => 2 | .breakout => 3 | .refused => 4 | .allRetired => 5 | .fault => 6 | .quarantine => 7
  | .dieFenced => 8 | .disabled => 9

/-- The queues of a sub-link are discarded in LINK_DOWN_DROP; a packet that has begun to leave is not one of those discarded (R157). -/
def discardQueues (k : Nat) (s : State) : State :=
  each (List.range 8) (fun q s => each (queueOf s (8 * k + q)).ents (fun e s =>
    unlink (8 * k + q) e.pid (if e.left then s else swcCnt (dieOf k) 0x408 1 (mirrorDrop k e.pid s))) s) s

/-- The poisoned TAILs that packets end with which had begun to leave as their sub-link went down (R157): each is the next flit of its VC,
and leaves once the sub-link carries flits again (log entry 113). -/
def cutTails (s : State) (k : Nat) : List Flit :=
  (List.range 8).flatMap fun q => (queueOf s (8 * k + q)).ents.filterMap fun e =>
    if e.left then (pktOf s e.pid).map fun p =>
      { seq := 0, vc := tcVc s (hTc p.hdr), typ := 2, len := 1, poison := true, replay := false, data := [], sentAt := 0 }
    else none

/-- Packets that wait for admission to a sub-link that goes down are discarded as its queues are (R157), and it leaves the mask of the
multicast copies that wait (R143). -/
def discardBound (k : Nat) (s : State) : State :=
  each (List.range 4) (fun d s =>
    let w := swcOf s d
    each ((w.arrive ++ w.waiting ++ w.bridgeWait).filter fun a => a.targets.any fun g => g / 8 == k) (fun a s =>
      let ts := a.targets.filter fun g => g / 8 != k
      if ts.isEmpty then
        (if (pktOf s a.pid).elim true (·.mcast) then dropPkt a.pid s else dropEgress (dieOf k) k 0x408 a.pid s)
      else
        let put (b : Arr) : Arr := if b = a then { a with targets := ts } else b
        modSwc d (fun w => { w with arrive := w.arrive.map put, waiting := w.waiting.map put, bridgeWait := w.bridgeWait.map put }) s) s) s

/-- Packets still arriving on a sub-link that has gone down end as packets cut short; whole packets in staging stay and no
longer count against the sub-link's receive buffer. -/
def cutArrivals (k : Nat) (s : State) : State :=
  each (List.range 8) (fun v s => each (stagingOf s k v) (fun e s =>
    match pktOf s e.pid with
    | some p => if p.tailIn then modPkt e.pid (fun p => { p with stag := 0 }) s
                else setStaging k v ((stagingOf s k v).filter fun x => x.pid ≠ e.pid) (endPoisoned e.pid (modPkt e.pid (fun p => { p with stag := 0 }) s))
    | none => setStaging k v ((stagingOf s k v).filter fun x => x.pid ≠ e.pid) s) s) s

/-- The book of a sub-link that is down or dark: only what R70 keeps, and the hold of R101. -/
def freshLink (l : SubLink) (st : LinkSt) (r : DownReason) : SubLink :=
  { st := st, reason := r, quar := l.quar, partnerSwitch := l.partnerSwitch, peerSwitch := l.peerSwitch, ident := l.ident, peer := l.peer,
    peerPos := l.peerPos, csc := l.csc, syncSeq := l.syncSeq, annSeq := l.annSeq, reqSeq := l.reqSeq }

/-- Withdraw the registration of an endpoint-facing sub-link that leaves REGISTER, ACTIVE, IDLE or DOZE (R100). -/
def withdrawLink (k : Nat) (s : State) : State :=
  let l := linkOf s k
  if l.valid && !l.peerSwitch && (match l.st with | .register | .active | .idle | .doze => true | _ => false) then
    if isMgr s then serveWithdraw (regReqOf s k) s else emit (.withdraw (regReqOf s k)) s
  else s

/-- Everything that ends with a sub-link's service: its queues, its arriving packets, its book, its registration, and the open
steps that depend on it. -/
def endService (k : Nat) (st : LinkSt) (r : DownReason) (s : State) : State :=
  let was := (linkOf s k).st
  let s := withdrawLink k s
  let tails := if st = .down then cutTails s k else []
  let s := discardBound k (discardQueues k s)
  let s := { s with scheds := tset {} s.scheds k {} }
  let s := cutArrivals k s
  let s := each (strandPos s k) (fun q => modStrand q fun x =>
    { x with st := st, reason := r, alone := false, rotating := none, rotStage := 0, recal := none, rot := 0, misses := 0, due := [], clean := 0 }) s
  let s := modLink k (fun l => { freshLink l st r with txq := tails }) s
  iff (pastTraining was) (groupsLinkDown k) (iff (was != st) (raiseVec 47) s)

/-- A sub-link goes DOWN with a reason. Loss of its last live strand, of its die or of its engine is logged (R419; log entry 19). -/
def sublinkDown (k : Nat) (r : DownReason) (s : State) : State :=
  let was := (linkOf s k).st
  let logged := pastTraining was && (match r with | .allRetired | .quarantine | .dieFenced | .fault => true | _ => false)
  let s := endService k .down r s
  iff logged (logEvent 0x0005 0 (k / 4) (bytesLE 2 k ++ bytesLE 1 (reasonCode r) ++ bytesLE 1 (linkCode was))) s

/-- Every sent flit not yet acknowledged is to be replayed, oldest first (R50, R52). -/
def replayAll (k : Nat) : State → State := modLink k fun l => { l with resend := l.replay.map fun f => { f with replay := true } }

/-- A strand is retired (R53); the sub-link goes down with its last live strand. -/
def retireStrand (q : Nat) (s : State) : State :=
  let x := strandOf s q
  let k := subKey s (q / 4) (q % 4)
  if x.outOfUse then s
  else
    let s := modStrand q (fun x =>
      { x with retired := true, restored := false, outOfUse := true, st := .down, alone := false, rotating := none, rotStage := 0,
               recal := none, rot := 0, due := [], clean := 0 }) s
    let s := logEvent 0x0004 0 (q / 4) [] s
    if (liveStrands s k).isEmpty then
      sublinkDown k (if (linkOf s k).quar then .quarantine else .allRetired) s
    else
      replayAll k s

/-! ## Dies and engines -/

/-- The sub-links of a list of ports go down. -/
def portsDown (ps : List Nat) (r : DownReason) (s : State) : State :=
  each ps (fun p s => each (if (portOf s p).enabled then subKeys s p else []) (fun k s => sublinkDown k r s) s) s

/-- Packets bound for a fenced die are discarded at the others, and the credits toward it dropped (R157). -/
def dropBound (d : Nat) (s : State) : State :=
  each ((List.range 4).filter (· ≠ d)) (fun e s =>
    let w := swcOf s e
    let gone := w.bridgeWait.filter fun a => dieOf (a.targets.headD 0 / 8) = d
    let s := each gone (fun a s => dropPkt a.pid (swcCnt e 0x408 1 s)) s
    modSwc e (fun w => { w with
      spentCred := (List.range 8).foldl (fun t v => tset 0 t (8 * d + v) 0) w.spentCred
      landRet := (List.range 8).foldl (fun t v => tset 0 t (8 * d + v) 0) w.landRet }) s) s

/-- Every packet that waits at a die is lost with its Glade (R157). -/
def loseGlade (d : Nat) (s : State) : State :=
  let w := swcOf s d
  let s := each (w.arrive ++ w.waiting) (fun a s => dropPkt a.pid s) s
  let s := each w.bridgeWait (fun a s => dropPkt a.pid s) s
  let s := each (w.voqs.flatMap Prod.snd) (fun pid s => setPkt pid none s) s
  modSwc d (fun w => { w with voqs := [], voqPort := [], voqWait := [], voq := 0, arrive := [], waiting := [], bridgeWait := [], landOcc := [],
                              landRet := [], landing := 0, queued := 0, opened := 0, sharedUsed := 0, free := 786432, spentCred := [] }) s

/-- A fabric die is fenced (R420, R490). Its queues are empty from then on, so a clearing's markers on it count as reached
(R125). -/
def fenceDie (d : Nat) (s : State) : State :=
  if bitOf s.units.fabLost d then s
  else
    let s := logEvent 0x1001 2 d [] s
    let s := modUnits (fun u => { u with fabLost := setBit u.fabLost d true }) s
    let s := disarmAt (fun b i => (b == 2 && i == d) || (b == 0 && i / 72 == d)) s
    let s := portsDown ((List.range 72).map (72 * d + ·)) .dieFenced s
    let s := loseGlade d (dropBound d s)
    domsLost ((List.range 6).map (6 * d + ·) ++ [25 + 3 * d, 26 + 3 * d, 24 + 3 * d]) s

/-- An optical engine is lost (R419): its 12 ports go down. -/
def loseEngine (e : Nat) (s : State) : State :=
  if bitOf s.units.engineLost e then s
  else
    let s := logEvent 0x0011 1 e [] s
    let s := modUnits (fun u => { u with engineLost := setBit u.engineLost e true }) s
    let s := disarmAt (fun b i => b == 0 && i / 12 == e) s
    let s := portsDown ((List.range 12).map (12 * e + ·)) .fault s
    domsLost [e] s

end Sys2Proof.Machine
end

