-- ==== Sys2Proof/Machine/Prog.lean ====
section
/-! DEFINITION. The program store and the words of a program (R245 to R254), and the validation of R259. -/

namespace Sys2Proof.Machine

/-! ## Words (R249, R253, R254) -/

def wOp (w : Word) : Nat := fld w 24 8
def wRole (w : Word) : Nat := fld w 22 2
def wArg (w : Word) : Nat := fld w 0 22

def opcNop : Nat := 0x00
def opcWait : Nat := 0x01
def opcAcc : Nat := 0x02
def opcAccx : Nat := 0x03
def opcScl : Nat := 0x04
def opcCast : Nat := 0x05
def opcEmit : Nat := 0x06
def opcFan : Nat := 0x07
def opcLds : Nat := 0x08
def opcSts : Nat := 0x09
def opcUpd : Nat := 0x0A
def opcNorm : Nat := 0x0B
def opcDig : Nat := 0x0C
def opcBar : Nat := 0x0D
def opcSeed : Nat := 0x0E
def opcEnd : Nat := 0x0F

/-- The operand bits that R254 lists for an opcode. -/
def argMask (op : Nat) : Nat :=
  match op with
  | 0x01 => 0x3 | 0x02 => 0x7 | 0x03 => 0x7 | 0x04 => 0xF | 0x05 => 0x3CF | 0x08 => 0x7 | 0x09 => 0x7 | 0x0A => 0x1F | 0x0E => 0xFFFF
  | _ => 0

def isAccWord (w : Word) : Bool := wOp w == opcAcc || wOp w == opcAccx
def isWaitComplete (w : Word) : Bool := wOp w == opcWait && fld w 0 2 == 0
/-- SRCBUF, RND and FMT of CAST. -/
def castSrc (w : Word) : Nat := fld w 8 2
def castRnd (w : Word) : Nat := fld w 6 2
def castFmt (w : Word) : Nat := fld w 0 4
/-- Scalars a rule takes, and the planes it reads (R275, R277). -/
def ruleCount (rule : Nat) : Nat := if rule = 0 then 4 else 8
def rulePlanes (rule : Nat) : Nat := if rule = 0 then 3 else 7

/-! ## A program (R246) -/

/-- The words from an address up to and including the first END, at most n of them, with their addresses. -/
def progFrom (prog : Tbl Word) : Nat → Nat → List (Nat × Word)
  | 0, _ => []
  | n + 1, a =>
    if a > 16383 then []
    else
      let w := tget 0 prog a
      if wOp w = opcEnd then [(a, w)] else (a, w) :: progFrom prog n (a + 1)

/-- The store that programs are read from: that of the lowest-numbered live, enabled die with quadrant 0 on (R245). -/
def liveStore (s : State) : Option Nat := (List.range 4).find? (redLive s)

/-- The program store of the switch: equal on every live die, so the lowest's; without one, the management block's copy. -/
def storeOf (s : State) : Tbl Word := match liveStore s with | some x => (redOf s x).prog | none => s.cmd.progCopy

/-- The words of a program in the store. -/
def progOf (s : State) (entry : Nat) : List (Nat × Word) := progFrom (storeOf s) 64 entry

/-- CRC-32C of a program's words, each in little-endian bytes (R247; log entry 27). -/
def progCrc (ws : List (Nat × Word)) : Word := crc32c (ws.flatMap fun w => bytesLE 4 w.2.toNat)

/-- The words a context runs (R249). -/
def pathOf (root : Bool) (ws : List (Nat × Word)) : List (Nat × Word) :=
  ws.filter fun w => wRole w.2 == 0 || wRole w.2 == (if root then 1 else 2)

/-- Is an address in the program of a context that is not FREE (R246)? -/
def progLocked (s : State) (a : Nat) : Bool :=
  (liveSlots s).any fun k => match ctxOf s k with
    | some c => (progOf s c.spec.program.toNat).any fun w => w.1 == a
    | none => false

/-- Write a word of the program store (R245, R246). -/
def progWrite (a : Nat) (w : Word) (s : State) : State :=
  let dies := (List.range 4).filter (redLive s)
  if dies.isEmpty then offAccess36 a s
  else if progLocked s a then
    each dies (fun x s => redCnt x 0x0D4 1 (modRed x (fun r => { r with psLocked := true }) s)) s
  else
    let s := each dies (fun x => modRed x fun r => { r with prog := tset 0 r.prog a w }) s
    let s := each ((List.range 4).filter fun x => redEnabled s x && !bitOf s.units.redLost x && !redLive s x) (fun x =>
      modPwr fun p => { p with progStale := setBit p.progStale x true }) s
    modCmd (fun c => { c with progCopy := tset 0 c.progCopy a w }) s
where
  /-- No store is reachable: reported as domain 36 (R245, R452). -/
  offAccess36 (a : Nat) (s : State) : State :=
    logEvent' 0x6101 9 36 [] 1 (0x1F00000 + 4 * a) false (modPwr (fun p => { p with offAcc := satAdd p.offAcc 1 }) s)

/-! ## Validation (R259) -/

/-- ENCODING of one word. -/
def badEncoding (sk2x : Bool) (w : Word) : Bool :=
  let op := wOp w
  decide (op > 0x0F) || wRole w == 3 || (wArg w &&& argMask op) != wArg w ||
    (op == opcWait && decide (fld w 0 2 ≥ 2)) ||
    (op == opcCast && (decide (castSrc w ≥ 2) || castRnd w == 3 || (castFmt w == 0x8 && sk2x) || (castFmt w == 0xF && castSrc w == 1 && wRole w == 2))) ||
    (op == opcScl && decide (fld w 0 4 ≥ 9)) ||
    ((op == opcLds || op == opcSts) && fld w 0 3 == 0) ||
    (op == opcUpd && (decide (fld w 3 2 ≥ 2) || decide (fld w 0 3 + ruleCount (fld w 3 2) > 8)))

/-- The combiner of an ACC word, code 7 standing for the group's. -/
def accComb (a : AllocMsg) (w : Word) : Nat := if fld w 0 3 = 7 then a.comb.toNat else fld w 0 3

def onlyInts (fmts : BitVec 16) : Bool := (bitsOf fmts).all isInt

/-- Does a CAST word produce a format where the default is dflt? -/
def castGives (w : Word) (f dflt : Nat) : Bool := castFmt w == f || (castFmt w == 0xF && dflt == f)

/-- The words before the first word for which f holds. -/
def beforeOp (f : Word → Bool) (ws : List (Nat × Word)) : List (Nat × Word) := ws.takeWhile fun w => !f w.2

def isOp (n : Nat) (w : Word) : Bool := wOp w == n

/-- The addresses of the words that f holds of. -/
def addrsOf (f : Word → Bool) (ws : List (Nat × Word)) : List Nat := (ws.filter fun w => f w.2).map Prod.fst

/-- The address of the last word. -/
def lastAddr (ws : List (Nat × Word)) : Nat := (ws.getLast?.map Prod.fst).getD 0

/-- What a count of f other than one makes wrong: the words from the second on, or the word at d where there is none (log entry 61). -/
def notOne (f : Word → Bool) (d : Nat) (ws : List (Nat × Word)) : List Nat :=
  match addrsOf f ws with
  | [] => [d]
  | _ :: r => r

/-- The failing words of SECTION. -/
def badSection (ws : List (Nat × Word)) : List Nat :=
  let pre := beforeOp isWaitComplete ws
  let waits := addrsOf isWaitComplete ws
  let before : List Nat := match waits with
    | [] => []
    | w :: _ => notOne isAccWord w pre ++ addrsOf (fun w => !(isAccWord w || isOp opcLds w || isOp opcSeed w || isOp opcNop w)) pre
  notOne isWaitComplete (lastAddr ws) ws ++ before ++ addrsOf isAccWord (ws.drop (pre.length + 1)) ++ (addrsOf (isOp opcBar) ws).drop 1

/-- MODE of one word. -/
def badMode (a : AllocMsg) (w : Word) : Bool :=
  (isOp opcAcc w && bitOf a.mode 0) || (isOp opcAccx w && !bitOf a.mode 0) ||
    (isAccWord w && decide (4 ≤ accComb a w ∧ accComb a w ≤ 6) && !onlyInts a.inFmts)

/-- ROLE of one word. -/
def badRole (w : Word) : Bool :=
  (isOp opcEmit w && wRole w != 2) ||
    ([opcFan, opcScl, opcUpd, opcLds, opcSts, opcNorm, opcDig, opcBar].contains (wOp w) && wRole w != 1)

/-- The failing words of one path of PATH: exactly one sending word, and before it a last CAST that produces the format due, and DIG behind it. -/
def badPathOf (send : Nat) (f : Nat) (needCast digest : Bool) (ws : List (Nat × Word)) : List Nat :=
  let pre := beforeOp (isOp send) ws
  let cast := (pre.filter fun w => isOp opcCast w.2).getLast?
  let from_ := match cast with | some c => c.1 | none => 0
  let noDig := digest && !(pre.any fun w => decide (from_ ≤ w.1) && isOp opcDig w.2)
  let atSend : List Nat := match addrsOf (isOp send) ws with
    | [] => []
    | x :: _ => if (cast.isNone && needCast) || noDig then [x] else []
  let atCast : List Nat := match cast with | some c => if castGives c.2 f f then [] else [c.1] | none => []
  notOne (isOp send) (lastAddr ws) ws ++ (if (addrsOf (isOp send) ws).isEmpty then [] else atCast) ++ atSend

/-- The failing words of PATH. -/
def badPath (a : AllocMsg) (carrierFmt : Nat) (ws : List (Nat × Word)) : List Nat :=
  let need := a.op.toNat ≠ opBarrier
  badPathOf opcFan a.outFmt.toNat need (bitOf a.mode 5) (pathOf true ws) ++ badPathOf opcEmit carrierFmt need false (pathOf false ws)

/-- The failing words of SHARD. -/
def badShard (a : AllocMsg) (ws : List (Nat × Word)) : List Nat :=
  if a.op.toNat ≠ opCoppice then addrsOf (fun w => isOp opcLds w || isOp opcSts w || isOp opcUpd w) ws
  else
    let p := pathOf true ws
    let pre := beforeOp (isOp opcUpd) p
    let has := (pre.filter fun w => isOp opcLds w.2).foldl (fun t w => t ||| fld w.2 0 3) 0
    let upd : List Nat := match p.find? fun w => isOp opcUpd w.2 with
      | none => []
      | some u => (if has &&& rulePlanes (fld u.2 3 2) ≠ rulePlanes (fld u.2 3 2) then [u.1] else []) ++ addrsOf (fun w => isOp opcCast w && castSrc w == 1) pre
    notOne (isOp opcUpd) (lastAddr p) p ++ notOne (isOp opcSts) (lastAddr p) p ++ upd ++ addrsOf (isOp opcSts) (beforeOp (isOp opcFan) p)

/-- The validation of a group's program on this switch: the reason and the address of the first failing word (R259). -/
def validate (s : State) (a : AllocMsg) : Option (Nat × Nat) :=
  let ws := progOf s a.program.toNat
  let tests : List (Nat × List Nat) :=
    [(1, if (ws.getLast?.map fun w => isOp opcEnd w.2).getD false then [] else [(ws.getLast?.map Prod.fst).getD a.program.toNat]),
     (2, addrsOf (badEncoding s.fuses.sk2x) ws), (3, badSection ws), (4, addrsOf (badMode a) ws), (5, addrsOf badRole ws),
     (6, badPath a (carrier a.inFmts) ws), (7, badShard a ws)]
  tests.findSome? fun t => t.2.min?.map fun x => (t.1, x)

/-- Does a program hold BAR (R257)? -/
def hasBar (s : State) (c : Ctx) : Bool := (progOf s c.spec.program.toNat).any fun w => isOp opcBar w.2

end Sys2Proof.Machine
end

