-- ==== Sys2Proof/Machine/Contexts.lean ====
section
/-! DEFINITION. Creating a group (R184 to R190, R247, R270, R271, R294, R297, R302): the manager's checks, the allocation of a
context on a switch, answers, commit and release. -/

namespace Sys2Proof.Machine

/-- Hand a background command's result to its ring: the completion is written at the ring's next turn (R385, R386). -/
def finishRing (ring : Option Nat) (status : Nat) (dn : Word) (s : State) : State :=
  match ring with
  | some r => modRing r (fun x => { x with cur := x.cur.map fun c => { c with result := some (BitVec.ofNat 16 status, dn) } }) s
  | none => s

/-- The completion status of a status of R207 (R384). -/
def grpStatus (n : Nat) : Nat := if n = 0 then 0 else 0x100 + n

/-! ## The descriptor (R184) -/

/-- A switch record from its bytes. -/
def swRecOf (l : List Byte) (o : Nat) : SwRec :=
  { coord := BitVec.ofNat 16 (be l o 2), parent := BitVec.ofNat 16 (be l (o + 2) 2), root := (byteAt l (o + 4)).getLsbD 7,
    parentPos := be l (o + 4) 2 % 2048 }

/-- A descriptor from its bytes. -/
def descOf (l : List Byte) : Desc :=
  let nm := be l 40 4
  let ns := be l 44 2
  let cp : BitVec 128 := BitVec.ofNat 128 (be l 48 16)
  let mem (i : Nat) := be l (64 + 4 * i) 4
  let swb (i : Nat) := 64 + 4 * nm + 8 * i
  let fits := decide (l.length = 64 + 4 * nm + 8 * ns)
  let n := if fits then nm else 0
  let k := if fits then ns else 0
  { group := BitVec.ofNat 24 (be l 0 3), op := byteAt l 3, comb := byteAt l 4, outFmt := byteAt l 5, inFmts := BitVec.ofNat 16 (be l 6 2),
    mode := byteAt l 8, tc := byteAt l 9, pkey := BitVec.ofNat 16 (be l 10 2), program := BitVec.ofNat 16 (be l 12 2), window := be l 14 2,
    timeoutUs := be l 16 4, paceNs := be l 20 4, seed := BitVec.ofNat 64 (be l 24 8), leader := BitVec.ofNat 32 (be l 32 4),
    root := BitVec.ofNat 16 (be l 36 2), nMembers := nm, nSwitches := ns, coppice := cp,
    members := (List.range n).map fun i => BitVec.ofNat 20 (mem i),
    switches := (List.range k).map fun i => swRecOf l (swb i),
    zerosOk := be l 38 2 == 0 && be l 46 2 == 0 && ((List.range n).all fun i => decide (mem i < 2 ^ 20)) &&
      ((List.range k).all fun i => be l (swb i + 4) 2 / 2048 % 16 == 0 && be l (swb i + 6) 2 == 0),
    lengthOk := fits }

/-- The COPPICE bytes are as R269 and R270 ask. -/
def coppiceOk (d : Desc) : Bool :=
  let w := d.coppice
  if d.op.toNat ≠ opCoppice then w == 0
  else
    fld w 126 1 == 0 && fld w 122 2 == 0 && fld w 112 8 == 0 && fld w 64 8 == 0 && fld w 60 4 == 0 && fld w 11 5 == 0 &&
      decide (1 ≤ cpSegChunks w) && decide (1 ≤ cpNSeg w) && !bitOf d.inFmts 14 && d.outFmt != 14#8 &&
      (if cpTwin w then d.switches.any fun x => x.coord.toNat == cpTwinCoord w && x.parent == d.root && !x.root else cpTwinCoord w == 0)

/-- Check 1 of R186. -/
def descOk (s : State) (d : Desc) : Bool :=
  d.lengthOk && d.zerosOk && d.group != 0 && d.group != 0xFFFFFF#24 && decide (d.op.toNat ≤ 6) && decide (d.comb.toNat ≤ 6) &&
    decide (d.outFmt.toNat < 16) && fld d.mode 6 2 == 0 && decide (d.tc.toNat < 8) && decide (d.program.toNat ≤ 16383) &&
    decide (1 ≤ d.window ∧ d.window ≤ 1024) && (d.timeoutUs == 0 || decide (10 ≤ d.timeoutUs ∧ d.timeoutUs ≤ 100000)) &&
    (if bitOf d.mode 4 then decide (10000 ≤ d.paceNs ∧ d.paceNs ≤ 1000000000) else d.paceNs == 0) &&
    decide (d.leader.toNat < 2 ^ 20) && decide (1 ≤ d.nMembers ∧ d.nMembers ≤ 524288) && decide (1 ≤ d.nSwitches ∧ d.nSwitches ≤ 16384) &&
    (tcVc s d.tc.toNat == 1 || tcVc s d.tc.toNat == 2) && d.members.contains (d.leader.setWidth 20) && decide d.members.Nodup &&
    (d.members.all fun m => m != 0 && m != 0xFFFFF#20) && coppiceOk d

/-- Is the Skarad at a coordinate an SK-2X? -/
def sk2xCoord (s : State) (c : Coord) : Bool := if c = s.gctl.coord then s.fuses.sk2x else Config.sk2xAt c

/-- Check 3 of R186. -/
def formatsOk (s : State) (d : Desc) : Bool :=
  let fmts := bitsOf d.inFmts ++ [d.outFmt.toNat]
  !fmts.contains 0xF && (!fmts.contains 8 || d.switches.all fun w => !sk2xCoord s w.coord) &&
    (!decide (4 ≤ d.comb.toNat ∧ d.comb.toNat ≤ 6) || fmts.all isInt)

/-- The coordinate a member is registered at, with its position there. -/
def memberAt (s : State) (m : Ident) : Option (Coord × Nat) := (regOf s m.toNat).map fun r => (r.coord, 4 * r.port + r.strand)

/-- Does a switch reach the root in at most n parent links? -/
def reachesRoot (d : Desc) : Nat → Coord → Bool
  | 0, c => c == d.root
  | n + 1, c => c == d.root || (match d.switches.find? fun w => w.coord = c with | some w => reachesRoot d n w.parent | none => false)

/-- Ranks under a switch, n levels down. -/
def ranksUnder (s : State) (d : Desc) : Nat → Coord → List Nat
  | 0, _ => []
  | n + 1, c =>
    ((d.members.zip (List.range d.members.length)).filter fun m => (memberAt s m.1).map Prod.fst == some c).map Prod.snd ++
      (d.switches.filter fun w => !w.root && w.parent = c).flatMap fun w => ranksUnder s d n w.coord

/-- Height of a switch's context (R202), n levels down. -/
def heightOf (d : Desc) : Nat → Coord → Nat
  | 0, _ => 0
  | n + 1, c =>
    match d.switches.filter fun w => !w.root && w.parent = c with
    | [] => 0
    | ws => 1 + (ws.map fun w => heightOf d n w.coord).foldl max 0

/-- Insert a child by its position. -/
def insChild (x : ChildSpec) : List ChildSpec → List ChildSpec
  | [] => [x]
  | y :: r => if x.pos < y.pos then x :: y :: r else y :: insChild x r

/-- The children of a switch's context in ascending position (R185). -/
def childrenOf (s : State) (d : Desc) (c : Coord) : List ChildSpec :=
  let ms := (d.members.zip (List.range d.members.length)).filterMap fun m => match memberAt s m.1 with
    | some (w, pos) => if w = c then some ({ pos := pos, isSwitch := false, id := m.1, coord := 0, ranks := [m.2] } : ChildSpec) else none
    | none => none
  let ws := (d.switches.filter fun w => !w.root && w.parent = c).map fun w =>
    ({ pos := w.parentPos, isSwitch := true, id := 0, coord := w.coord, ranks := ranksUnder s d d.switches.length w.coord } : ChildSpec)
  (ms ++ ws).foldl (fun l x => insChild x l) []

/-- Check 5 of R186. -/
def treeOk (s : State) (d : Desc) : Bool :=
  (match d.switches.filter fun w => w.root with | [w] => w.coord == d.root | _ => false) &&
    (d.switches.all fun w => reachesRoot d d.switches.length w.coord) &&
    (d.members.all fun m => match memberAt s m with | some (c, _) => d.switches.any fun w => w.coord = c | none => false) &&
    d.switches.all fun w => decide ((childrenOf s d w.coord).length ≤ 1024)

/-- Checks 1 to 5 of R186: the number and the status of the first that fails. -/
def createRefusal (s : State) (d : Desc) : Option (Nat × Nat) :=
  if !descOk s d then some (1, 0x16)
  else if (tget none s.mgr.groups d.group.toNat).isSome then some (2, 0x14)
  else if !formatsOk s d then some (3, 0x13)
  else if !(d.members.all fun m => (regOf s m.toNat).isSome) then some (4, 0x17)
  else if !treeOk s d then some (5, 0x11)
  else none

/-- A switch's part of a descriptor (R187). -/
def allocOf (s : State) (d : Desc) (w : SwRec) : AllocMsg :=
  { group := d.group, op := d.op, comb := d.comb, outFmt := d.outFmt.setWidth 4, inFmts := d.inFmts, mode := d.mode, tc := d.tc.setWidth 3,
    pkey := d.pkey, program := d.program, window := d.window, timeoutUs := if d.timeoutUs = 0 then 200 else d.timeoutUs, paceNs := d.paceNs,
    seed := d.seed, leader := d.leader.setWidth 20, leaderRank := (d.members.findIdx? (· = d.leader.setWidth 20)).getD 0,
    nMembers := d.nMembers, isRoot := w.root, upCoord := if w.root then 0 else w.parent, upPos := if w.root then 0 else w.parentPos,
    children := childrenOf s d w.coord, height := heightOf d d.switches.length w.coord, coppice := d.coppice, cs := contribSet d.members }

/-! ## Allocation on a switch (R187, R188, R271) -/

/-- Accumulator bytes of a window slot (R188). -/
def accBytes (a : AllocMsg) : Nat :=
  let e := ((bitsOf a.inFmts).map capacity).foldl max 0
  if bitOf a.mode 0 then (if bitOf a.inFmts 8 then 272 * e else 40 * e) else 6 * e + 2 * e / 32

/-- Pages of a reservation (R188). -/
def pagesOf (a : AllocMsg) : Nat :=
  let c := a.children.length
  let rec_ := cdiv (256 + 4 * c) 256 * 256
  let bmap := cdiv (cdiv c 8) 8 * 8
  cdiv (rec_ + a.window * (accBytes a + bmap + 64)) 4096

/-- Is the switch the twin of an allocation (R271)? -/
def isTwinHere (s : State) (a : AllocMsg) : Bool :=
  a.op.toNat == opCoppice && cpTwin a.coppice && cpTwinCoord a.coppice == s.gctl.coord.toNat && !a.isRoot

/-- The die that owns the shard of an allocation here, if it has one. -/
def shardDie (s : State) (a : AllocMsg) : Option Nat :=
  if a.op.toNat ≠ opCoppice then none
  else if a.isRoot then some (cpRootDie a.coppice)
  else if isTwinHere s a then some (cpTwinDie a.coppice)
  else none

/-- Do the blocks of a shard overlap another group's on a die (R271)? -/
def shardOverlap (s : State) (a : AllocMsg) (x : Nat) : Bool :=
  let b := cpBase a.coppice
  let n := shardLen a
  (liveSlots s).any fun k => match ctxOf s k with
    | some c => c.spec.group != a.group && shardDie s c.spec == some x &&
        decide (cpBase c.spec.coppice < b + n) && decide (b < cpBase c.spec.coppice + shardLen c.spec)
    | none => false

/-- The live, enabled dies with room for a reservation, the best first (R187): most free SRAM, then the lowest number. -/
def bestDie (s : State) (pages : Nat) : Option Nat :=
  leastBy (fun x => 94208 - (redOf s x).freePages) ((List.range 4).filter fun x => redWhole s x && decide ((redOf s x).freePages ≥ pages))

/-- The home of a reservation (R187, R271). -/
def homeFor (s : State) (a : AllocMsg) : Option Nat :=
  let pages := pagesOf a
  match shardDie s a with
  | none => bestDie s pages
  | some x =>
    if redWhole s x && decide ((redOf s x).freePages ≥ pages) && decide (cpBase a.coppice + shardLen a ≤ (redOf s x).shardBlocks) &&
        !shardOverlap s a x then some x else none

/-- Check 1 of R187: the PARENT_POS sub-links lead to the children named. -/
def posOk (s : State) (a : AllocMsg) : Bool :=
  a.children.all fun c => !c.isSwitch ||
    (decide (c.pos < 1152) && subKey s (c.pos / 4) (c.pos % 4) == c.pos && (linkOf s c.pos).valid && (linkOf s c.pos).peerSwitch &&
      (linkOf s c.pos).peer == c.coord)

/-- The sub-link toward the parent: switch-facing, its partner's position the PARENT_POS. -/
def upLink (s : State) (a : AllocMsg) : Option Nat :=
  if a.isRoot then none
  else (allSubs s).find? fun k => let l := linkOf s k
    l.valid && l.peerSwitch && l.peer == a.upCoord && l.peerPos == a.upPos

/-- CRC-32C of VC_W0 and VC_W1 of each port that carries a group's sub-links (R302; log entry 27): the different ones, ascending. -/
def vcwCrcs (s : State) (a : AllocMsg) : List Word :=
  let ps := (a.children.map fun c => c.pos / 4) ++ ((upLink s a).map (· / 4)).toList
  let crc (p : Nat) : Nat := (crc32c (bytesLE 4 (portOf s p).vcW0.toNat ++ bytesLE 4 (portOf s p).vcW1.toNat)).toNat
  (ps.foldl (fun l p => insNat (crc p) l) []).map (BitVec.ofNat 32)

/-- A context as it is reserved. -/
def newCtx (s : State) (a : AllocMsg) (x : Nat) : Ctx :=
  { st := .reserved, die := x, spec := a, up := upLink s a, pages := pagesOf a, reserved := true, resAt := s.clock, committed := false, ready := none, steps := [], lastAcc := none,
    lastClosed := none, lastStatus := 0, stopHeld := false, held := [], deleting := false, haltStatus := 0, haltDetail := 0, capture := {}, ovf := false,
    flushed := false, sq := 0, digest := 0, pi := 0, lapsed := false, lapseReason := 0, isTwin := isTwinHere s a,
    twin := if a.isRoot && a.op.toNat == opCoppice && cpTwin a.coppice then .active else .none }

/-- The lowest free context slot. -/
def freeSlot (s : State) : Option Nat :=
  let n := (liveSlots s).length
  if n ≥ 262144 then none else (List.range (n + 1)).find? fun k => (ctxOf s k).isNone

/-- A switch serves an allocation (R187): its answer, and the reservation. -/
def allocate (a : AllocMsg) (s : State) : AllocAns × State :=
  let no (n : Nat) : AllocAns := { coord := s.gctl.coord, status := BitVec.ofNat 8 n, crc := 0, point := 0, vcw := [] }
  if !posOk s a then (no 0x11, s)
  else match validate s a with
    | some (r, at_) => (no 0x12, each (List.range 4) (fun x => modRed x fun d => { d with valReason := BitVec.ofNat 4 r, valAddr := BitVec.ofNat 14 at_ }) s)
    | none => match freeSlot s with
      | none => (no 0x15, s)
      | some k => match homeFor s a with
        | none => (no 0x10, s)
        | some x =>
          let s' := setCtx k (some (newCtx s a x)) (modRed x (fun d => { d with freePages := d.freePages - pagesOf a }) s)
          let paced := bitOf a.mode 4
          ({ coord := s.gctl.coord, status := 0, crc := progCrc (progOf s a.program.toNat), point := if paced then s.pwr.cur else 0,
             vcw := if paced then vcwCrcs s a else [] }, s')

/-- LAPSED is set on a context (R302). -/
def setLapsed (slot reason : Nat) (s : State) : State :=
  match ctxOf s slot with
  | none => s
  | some c =>
    let s := modCtx slot (fun c => { c with lapsed := true, lapseReason := BitVec.ofNat 4 reason }) s
    let s := iff c.spec.isRoot (redCnt c.die 0x128 1) s
    logEvent 0x2050 3 (256 * c.die) (bytesLE 3 c.spec.group.toNat ++ [BitVec.ofNat 8 reason]) s

/-- The paced contexts here lapse (R302), those for which f holds. -/
def lapseAll (f : Ctx → Bool) (reason : Nat) (s : State) : State :=
  each (liveSlots s) (fun k s => match ctxOf s k with
    | some c => if isPaced c && f c && !c.lapsed then setLapsed k reason s else s
    | none => s) s

/-- A context's map entry on all four fabric dies (R189, R191, R210). -/
def writeMap (slot : Nat) (c : Ctx) (s : State) : State :=
  let g := c.spec.group.toNat
  each (List.range 4) (fun d => modSwc d fun w =>
    { w with ctxMap := tput (w.ctxMap.filter fun e => e.1 ≠ g) g { slot := BitVec.ofNat 18 slot, die := BitVec.ofNat 2 c.die } }) s

/-- A commit at a switch (R189, R294, R302): the map entry on all four fabric dies, PI, and IDLE. -/
def commitLocal (group : GroupId) (lapsed : Bool) (s : State) : State :=
  match slotOf s group with
  | none => s
  | some k => match ctxOf s k with
    | none => s
    | some c =>
      if c.committed then s
      else
        let ws := progOf s c.spec.program.toNat
        let s := modCtx k (fun c => { c with
          st := if c.st = .reserved then .idle else c.st, committed := true, pi := progIdent c.spec.program.toNat (ws.map Prod.snd) (progCrc ws) }) (writeMap k c s)
        iff (lapsed && isPaced c) (setLapsed k 4) s

/-- A release at a switch (R189): a reservation is freed. -/
def releaseLocal (group : GroupId) (s : State) : State :=
  match slotOf s group with
  | some k => match ctxOf s k with
    | some c => if c.committed then s else freeCtx k s
    | none => s
  | none => s

/-! ## The manager (R186, R189, R247) -/

/-- A group is refused (R189): logged at the manager, its ring answered. -/
def refuseGroup (ring : Option Nat) (group : GroupId) (status check : Nat) (coord : Coord) (s : State) : State :=
  let s := modMgr (fun m => { m with groups := tset none m.groups group.toNat none }) s
  let s := logMb 0x2010 (bytesLE 3 group.toNat ++ [BitVec.ofNat 8 status, BitVec.ofNat 8 check, 0] ++ bytesLE 2 coord.toNat) s
  finishRing ring (grpStatus status) 0 s

/-- Release every switch of a group that accepted. -/
def releaseAll (g : GroupRec) (s : State) : State :=
  each g.answers (fun a s =>
    if a.status ≠ 0 then s
    else if a.coord = s.gctl.coord then releaseLocal g.desc.group s
    else emit (.releaseMsg a.coord g.desc.group) s) s

/-- The answer of a switch of a group, if it has come. -/
def answerOf (g : GroupRec) (c : Coord) : Option AllocAns := g.answers.find? fun a => a.coord = c

/-- Every switch has answered, or the time is up: commit the group or refuse it (R189, R247, R302). -/
def decideGroup (group : Nat) (s : State) : State :=
  match tget none s.mgr.groups group with
  | none => s
  | some g =>
    if g.live then s
    else
      let bad := g.desc.switches.findSome? fun w => match answerOf g w.coord with
        | some a => if a.status = 0 then none else some (w.coord, a.status.toNat)
        | none => some (w.coord, 0x11)
      match bad with
      | some (c, st) => refuseGroup g.ring g.desc.group st 6 c (releaseAll g s)
      | none =>
        let rootCrc := (answerOf g g.desc.root).map AllocAns.crc
        match g.desc.switches.find? fun w => (answerOf g w.coord).map AllocAns.crc != rootCrc with
        | some w => refuseGroup g.ring g.desc.group 0x12 7 w.coord (releaseAll g s)
        | none =>
          let lapsed := bitOf g.desc.mode 4 && !(g.answers.all fun a => g.answers.all fun b => a.point == b.point && a.vcw == b.vcw)
          let s := modMgr (fun m => { m with groups := tset none m.groups group (some { g with live := true, ring := none }) }) s
          let s := each g.desc.switches (fun w s =>
            if w.coord = s.gctl.coord then commitLocal g.desc.group lapsed s else emit (.commitMsg w.coord g.desc.group lapsed) s) s
          finishRing g.ring 0 0 s

/-- A switch's answer reaches the manager. -/
def groupAnswer (group : GroupId) (a : AllocAns) (s : State) : State :=
  match tget none s.mgr.groups group.toNat with
  | none => s
  | some g =>
    if g.live || (answerOf g a.coord).isSome || !(g.desc.switches.any fun w => w.coord = a.coord) then s
    else
      let g := { g with answers := g.answers ++ [a] }
      let s := modMgr (fun m => { m with groups := tset none m.groups group.toNat (some g) }) s
      if g.desc.switches.all fun w => (answerOf g w.coord).isSome then decideGroup group.toNat s else s

/-- The manager starts the checks of a whole descriptor (R186). -/
def createGroup (ring : Option Nat) (d : Desc) (s : State) : State :=
  match createRefusal s d with
  | some (check, status) =>
    let s := logMb 0x2010 (bytesLE 3 d.group.toNat ++ [BitVec.ofNat 8 status, BitVec.ofNat 8 check, 0] ++ bytesLE 2 0) s
    finishRing ring (grpStatus status) 0 s
  | none =>
    let s := modMgr (fun m => { m with askedAt := tset 0 m.askedAt d.group.toNat s.clock, groups := tset none m.groups d.group.toNat (some { desc := d, live := false, answers := [], ring := ring }) }) s
    each d.switches (fun w s =>
      let a := allocOf s d w
      if w.coord = s.gctl.coord then let (r, s) := allocate a s; groupAnswer d.group r s
      else emit (.allocate w.coord a) s) s

/-! ## The commands -/

/-- An allocation is served; the answer goes to the manager. -/
def serveAlloc (a : AllocMsg) (s : State) : State :=
  if (slotOf s a.group).isSome then s
  else let (r, s) := allocate a s; if isMgr s then groupAnswer a.group r s else emit (.allocAns a.group r) s

/-- CONTEXT_ALLOCATION (R187): served once. In Quiet it wakes the device where WAKE_EN allows, and waits for Run (R451). -/
def execContextAllocation (a : AllocMsg) (st : State) : Outcome :=
  .next <|
    if !alive st then st
    else if st.pwr.state == .quiet && bitOf st.pwr.wakeEn 2 then
      modPwr (fun p => { p with waitAlloc := p.waitAlloc ++ [a] }) (if st.pwr.busy then st else wakeQuiet (noteWake 2 st))
    else serveAlloc a st

/-- ALLOCATION_ANSWER (R189). -/
def execAllocationAnswer (group : GroupId) (sw : Coord) (status : Byte) (crc : Word) (point : BitVec 2) (vcw : List Word) (st : State) : Outcome :=
  .next <| if alive st && isMgr st then groupAnswer group { coord := sw, status := status, crc := crc, point := point, vcw := vcw } st else st

/-- ALLOCATION_TIMEOUT (R189): 10 ms have passed; a silent switch refuses the group. -/
def execAllocationTimeout (group : GroupId) (st : State) : Outcome :=
  .next <|
    match tget none st.mgr.groups group.toNat with
    | some g => if alive st && isMgr st && !g.live then decideGroup group.toNat (clockTo (tget 0 st.mgr.askedAt group.toNat + 10000000) st) else st
    | none => st

/-- COMMIT (R189, R302). -/
def execCommit (group : GroupId) (lapsed : Bool) (st : State) : Outcome := .next <| if alive st then commitLocal group lapsed st else st

/-- RELEASE (R189, R190): a reservation is freed; a context in service is deleted. -/
def execRelease (group : GroupId) (st : State) : Outcome :=
  .next <| if alive st then deleteLocal group st else st

/-- RESERVATION_EXPIRY (R189): a reservation held for 10 ms without commit or release is freed. -/
def execReservationExpiry (slot : Slot) (st : State) : Outcome :=
  .next <|
    match ctxOf st slot.toNat with
    | some c => if !c.committed then freeCtx slot.toNat (clockTo (c.resAt + 10000000) st) else st
    | none => st

end Sys2Proof.Machine
end

