-- ==== Sys2Proof/Machine/Steps.lean ====
section
/-! DEFINITION. Steps of collective groups (R191 to R211): the messages that reach a context, the opening, failing and closing of
steps, stragglers, and the loss of a reduction die. A reduction die handles what has crossed its reducer ports in order of arrival. -/

namespace Sys2Proof.Machine

/-! ## What has arrived at a reduction die -/

/-- The packet at the front of a die's arrivals. A CTRL for a die that is not live is handled too: the collective engine answers for a context
that is MOVING or LOST (R206, R211). -/
def inboxFront (s : State) (x : Nat) : Option (Nat × Pkt) :=
  match (redOf s x).inbox with
  | (_, pid) :: _ => ((pktOf s pid).filter fun p => alive s && (redLive s x || hPtype p.hdr == ptCtrl)).map fun p => (pid, p)
  | [] => none

/-- Take the front packet off a die's arrivals, keeping it. -/
def popInbox (x : Nat) : State → State := modRed x fun r => { r with inbox := r.inbox.drop 1 }

/-- The front packet has been handled. -/
def eatFront (x pid : Nat) (s : State) : State := setPkt pid none (popInbox x s)

def pktSlot (s : State) (p : Pkt) : Option Nat := slotOf s (BitVec.ofNat 24 (hGroup p.hdr))
def pktStep (p : Pkt) : StepNo := BitVec.ofNat 48 (hStep p.hdr)

/-- PLEN of each KIND (R192). -/
def ctrlLen (kind : Nat) : Nat := if kind = kStepStart ∨ kind = kStepEnd then 40 else if kind = kFail then 24 else 8

/-- Is a CTRL payload well formed (R192)? -/
def ctrlOk (b : List Byte) : Bool :=
  let kind := be b 0 1
  decide (1 ≤ kind ∧ kind ≤ 6) && b.length == ctrlLen kind && (be b 1 1 == 0 || kind == kStepEnd || kind == kFail) && be b 2 2 == 0 &&
    (kind != kStop || be b 4 4 == 0)

/-- Count a drop on the die of a context (R214). -/
def dropAt (die ofs : Nat) : State → State := redCnt die ofs 1

/-- Handle the front CTRL of a die when it is of a KIND, or malformed: malformed ones are counted in OUT_OF_STEP (R192); a message of a
steered KIND from outside the tree in NOT_CHILD (R191). f gets the slot, the context, the position and the packet. -/
def onCtrl (x kind : Nat) (f : Nat → Ctx → Nat → Pkt → State → State) (s : State) : State :=
  match inboxFront s x with
  | none => s
  | some (pid, p) =>
    if hPtype p.hdr ≠ ptCtrl then s
    else match pktSlot s p with
      | none => eatFront x pid s
      | some slot => match ctxOf s slot with
        | none => eatFront x pid s
        | some c =>
          let k := be p.body 0 1
          let pos := pktPos s p
          let steeredHere := k == kStepOpen || k == kWindow || k == kStepEnd || k == kFail
          if !ctrlOk p.body then dropAt c.die 0x044 (eatFront x pid s)
          else if k ≠ kind then s
          else if steeredHere && (childIdx c pos).isNone && c.up ≠ some pos then dropAt c.die 0x048 (eatFront x pid s)
          else f slot c pos p (eatFront x pid s)

/-! ## Opening a step (R194, R195) -/

/-- A step as it opens (R197, R202, R250, R294). -/
def newStep (s : State) (c : Ctx) (num : StepNo) (n : Nat) (scalars : List Word) (openAt : BitVec 80) : Step :=
  { num := num, n := n, scalars := scalars, upLimit := 0, limSent := 0, chunks := [], done := [], results := 0, timerAt := s.clock,
    openAt := openAt, sq := 0, dg := dgOpen c.pi c.spec.cs, steered := 0, accum := 0, dropped := 0, discarded := 0, failed := none,
    closed := false, endHeld := none, derived := none }

/-- A context opens a step: STEP_OPEN and WINDOW go to its children. -/
def openStep (slot : Nat) (num : StepNo) (n : Nat) (scalars : List Word) (openAt : BitVec 80) (tell : Bool) (s : State) : State :=
  match ctxOf s slot with
  | none => s
  | some c =>
    let s := modCtx slot (fun c => settleSt { c with steps := c.steps ++ [newStep s c num n scalars openAt] }) s
    let s := iff tell (ctrlDown c kStepOpen 0 num.toNat n []) s
    sendWindows slot true s

/-- May the twin be promoted: is there one, and not STALE (R283, R284)? -/
def usableTwin (c : Ctx) : Bool := c.twin == .active

/-- Is the shard of a context lost: its die, or a stack of it (R284)? -/
def shardDown (s : State) (c : Ctx) : Bool :=
  match shardDie s c.spec with
  | some x => bitOf s.units.redLost x || bitOf s.units.stackLost (2 * x) || bitOf s.units.stackLost (2 * x + 1)
  | none => false

/-- May a READY step open now at the root (R194, R195)? Not while its shard is lost and its twin not yet promoted (R284). -/
def mayOpen (s : State) (c : Ctx) : Bool :=
  c.spec.isRoot && c.ready.isSome && decide ((openSteps c).length < 2) && (match c.st with | .ready | .run | .idle => true | _ => false) && !shardDown s c

/-- The READY step opens. -/
def openReady (slot : Nat) (openAt : BitVec 80) (s : State) : State :=
  match ctxOf s slot with
  | none => s
  | some c => match c.ready with
    | none => s
    | some r => if mayOpen s c then openStep slot r.num r.n r.scalars openAt true (modCtx slot (fun c => { c with ready := none }) s) else s

/-- Can the operation take n chunks (R194, R199, R257, R273)? -/
def countOk (s : State) (c : Ctx) (n : Nat) : Bool :=
  let op := c.spec.op.toNat
  decide (1 ≤ n ∧ n ≤ 65536) && ((op != opReduceScatter && op != opAllgather) || n % c.spec.nMembers == 0) && (op != opBarrier || n == 1) &&
    (op != opCoppice || n == cpSegChunks c.spec.coppice) && (!hasBar s c || decide (n ≤ c.spec.window))

/-- Does a lock of a load or save lie over the context's shard (R287)? -/
def shardLocked (s : State) (c : Ctx) : Bool :=
  match shardDie s c.spec with
  | some x => (redOf s x).locks.any fun l => decide (l.2.1 < cpBase c.spec.coppice + shardLen c.spec) && decide (cpBase c.spec.coppice < l.2.1 + l.2.2)
  | none => false

/-- A STEP_START at a root that takes it (R194, R195, R206): BAD_STEP, CANCELLED by a held STOP, or READY. With one step open and one
READY, the READY step of a group that is not paced opens first (log entry 28). -/
def acceptStart (slot : Nat) (h : HeldCtrl) (s : State) : State :=
  match ctxOf s slot with
  | none => s
  | some c =>
    let numOk := match c.lastAcc with | some a => h.num == a + 1 | none => true
    if !numOk || !countOk s c h.n then answerLeader c stBadStep (ownDetail s) h.num s
    else
      let s := iff (c.ready.isSome && !isPaced c) (openReady slot (fabT s)) s
      match ctxOf s slot with
      | none => s
      | some c =>
        if c.ready.isSome then answerLeader c stBadStep (ownDetail s) h.num s
        else if c.stopHeld then
          let s := modCtx slot (fun c => { c with stopHeld := false, lastAcc := some h.num }) s
          ctrlDown c kStepEnd stCancelled h.num.toNat 0 (endMore 0 0) s
        else
          modCtx slot (fun c => settleSt { c with
            lastAcc := some h.num, ready := some { num := h.num, n := h.n, scalars := h.scalars, arrived := h.arrived, after := 0 } }) s

/-- A STEP_START or STOP that a root handles in its state (R194, R205, R206, R211, R284, R287). -/
def rootCtrl (slot : Nat) (h : HeldCtrl) (s : State) : State :=
  match ctxOf s slot with
  | none => s
  | some c =>
    let hold := modCtx slot (fun c => { c with held := c.held ++ [h] }) s
    if !c.spec.isRoot then s
    else if c.st = .moving then hold
    else if !h.start then stopStep 4 slot h.num s
    else match c.st with
      | .halt => answerLeader c c.haltStatus.toNat c.haltDetail h.num s
      | .lost => answerLeader c stContextLost (ownDetail s) h.num s
      | _ => if shardLocked s c || shardDown s c then hold else acceptStart slot h s

/-- Handle the STEP_STARTs and STOPs held for a context, in order. -/
def replayHeld (slot : Nat) (s : State) : State :=
  match ctxOf s slot with
  | none => s
  | some c => each c.held (rootCtrl slot) (modCtx slot (fun c => { c with held := [] }) s)

/-- What a STEP_START or a STOP says. -/
def heldOf (s : State) (p : Pkt) : HeldCtrl :=
  { start := be p.body 0 1 == kStepStart, num := pktStep p, n := be p.body 4 4,
    scalars := (List.range 8).map fun i => BitVec.ofNat 32 (be p.body (8 + 4 * i) 4), arrived := fabT s }

/-- The front packet of a die if it is a STEP_START or a STOP. -/
def onRootCtrl (x kind : Nat) (s : State) : State :=
  match inboxFront s x with
  | none => s
  | some (pid, p) =>
    if hPtype p.hdr = ptCtrl ∧ ctrlOk p.body ∧ be p.body 0 1 = kind then
      match pktSlot s p with
      | some slot => rootCtrl slot (heldOf s p) (eatFront x pid s)
      | none => eatFront x pid s
    else onCtrl x kind (fun _ _ _ _ s => s) s

/-! ## Messages of the tree -/

/-- Is a STEP_END the root's answer to the leader alone (R194, R206): BAD_STEP, or a trap or a loss told of a step that is not open here (log
entry 17)? -/
def leaderOnly (c : Ctx) (num : StepNo) (status : Nat) : Bool :=
  status == stBadStep || ((stepOf c num).isNone && (isTrap status || status == stContextLost))

/-- STEP_END at a non-root context: passed on, then the step closes (R200). An answer to the leader goes toward it and changes nothing. -/
def stepEndAt (slot : Nat) (c : Ctx) (p : Pkt) (s : State) : State :=
  let num := pktStep p
  let status := be p.body 1 1
  if leaderOnly c num status then
    match (childToward c c.spec.leaderRank).bind fun i => (childPoss c)[i]? with
    | some q => sendOne c p.hdr p.body q s
    | none => s
  else freeIfDeleting slot (closeStep slot num status (BitVec.ofNat 128 (be p.body 8 16)) none (sendMany c p.hdr p.body (childPoss c) s))

/-- STEP_OPEN at a non-root context (R195): the step opens, or one that a CHUNK opened learns its n. Under a lock of its shard a twin
stops the command at its next boundary (R287). -/
def stepOpenAt (slot : Nat) (c : Ctx) (p : Pkt) (s : State) : State :=
  let num := pktStep p
  let n := be p.body 4 4
  let s := iff (c.isTwin && shardLocked s c) (stopLoads c) s
  match stepOf c num with
  | some _ => sendMany c p.hdr p.body (childPoss c) (modCtx slot (modStep num fun t => { t with n := n }) s)
  | none =>
    if (match c.st with | .idle | .run | .ready => true | _ => false) && decide ((openSteps c).length < 2) && decide (1 ≤ n) then
      openStep slot num n [] (fabT s) true s
    else s
where
  /-- The loads and saves over the shard stop at their next boundary. -/
  stopLoads (c : Ctx) (s : State) : State :=
    match shardDie s c.spec with
    | some x => each ((redOf s x).locks.filter fun l => decide (l.2.1 < cpBase c.spec.coppice + shardLen c.spec) && decide (cpBase c.spec.coppice < l.2.1 + l.2.2))
        (fun l => modRing l.1 fun r => { r with cur := r.cur.map fun k => { k with abort := true } }) s
    | none => s

/-- WINDOW from the parent (R197): the LIMIT it grants; one for a closed step is discarded. -/
def windowAt (slot : Nat) (p : Pkt) (s : State) : State :=
  modCtx slot (modStep (pktStep p) fun t => { t with upLimit := max t.upLimit (be p.body 4 4) }) s

/-- FAIL from a child (R204): passed up; the root fails the step with its status and detail. -/
def failAt (slot : Nat) (c : Ctx) (p : Pkt) (s : State) : State :=
  if c.spec.isRoot then failStep slot (pktStep p) (be p.body 1 1) (BitVec.ofNat 128 (be p.body 8 16)) s
  else match c.up with
    | some u => sendOne c p.hdr p.body u s
    | none => s

/-! ## Contributions (R198, R199, R221, R248, R273) -/

/-- The step number that may follow what a non-root context knows. -/
def nextNum (c : Ctx) : Option StepNo :=
  match (openSteps c).getLast? with
  | some t => some (t.num + 1)
  | none => c.lastClosed.map fun l => l.1 + 1

/-- The first CHUNK of a step opens it at a non-root context (R195): its number follows the last one known; n is the largest possible
until STEP_OPEN tells it (log entry 29). -/
def openByChunk (slot : Nat) (num : StepNo) (s : State) : State :=
  match ctxOf s slot with
  | none => s
  | some c =>
    if !c.spec.isRoot && (stepOf c num).isNone && (match c.st with | .idle | .run => true | _ => false) && decide ((openSteps c).length < 2) &&
        (match nextNum c with | some m => m == num | none => true) then
      openStep slot num 65536 [] (fabT s) false s
    else s

/-- The format in which a chunk leaves a context (R220). -/
def leaveFmt (c : Ctx) : Nat := if c.spec.isRoot then c.spec.outFmt.toNat else carrier c.spec.inFmts

/-- Is a contribution passed on without decoding (R221)? -/
def passThrough (c : Ctx) (fmt : Nat) : Bool :=
  (c.spec.op.toNat == opAllgather || c.spec.op.toNat == opBroadcast) && fmt == leaveFmt c

/-- Elements of a payload. -/
def elemsIn (fmt len : Nat) : Nat := 32 * (len / blockBytes fmt)

/-- A program instance at its start (R248, R250, R488). -/
def newInst (c : Ctx) : Inst :=
  { pc := c.spec.program.toNat, todo := [], a := .empty, scale := none, o := none, w := none, m1 := none, m2 := none, wseed := c.spec.seed,
    started := false, lds := [], sts := 0, stsDone := false, read := [], store := [], emitted := false, fanned := false, granted := false, twinLeft := [],
    waiting := false, atBar := false }

/-- Instances of a context that are running. -/
def running (c : Ctx) : Nat :=
  (c.steps.map fun t => (t.chunks.filter fun e => match e.2 with | some x => x.inst.started | none => false).length).sum

/-- The counter of R214 that a contribution is dropped into, if it is (R198). In a chunk already emitted every expected bit is set
(log entry 44). -/
def contribDrop (c : Ctx) (t : Step) (i k fmt len : Nat) : Option Nat :=
  let n := elemsIn fmt len
  let first := chunkOf t k
  let tooMany := decide (n > chunkLimit c)
  let op := c.spec.op.toNat
  let known := match first with | some x => decide (i ∈ x.bits) | none => decide (k ∈ t.done) && decide (i ∈ expects c t.n k)
  if k ≥ t.n ∨ k ≥ t.limSent then some 0x044
  else if (op == opBarrier && len != 0) || !bitOf c.spec.inFmts fmt || (op == opCoppice && n != coppiceElems c) ||
      (!tooMany && (match first with | some x => x.elems != n | none => false)) then some 0x04C
  else if known then some 0x040
  else if tooMany then some 0x04C
  else if i ∉ expects c t.n k then some 0x044
  else none

/-- Take a contribution into its chunk; the first starts the instance, where fewer than W run (R248). -/
def takeContrib (c : Ctx) (k i fmt : Nat) (body : List Byte) (t : Step) : Step :=
  let x := (chunkOf t k).getD { bits := [], elems := elemsIn fmt body.length, raw := none, inst := { newInst c with started := decide (running c < c.spec.window) } }
  let f : BitVec 4 := BitVec.ofNat 4 fmt
  let x := { x with bits := insNat i x.bits, raw := if passThrough c fmt then some (f, body) else x.raw,
                    inst := { x.inst with todo := x.inst.todo ++ [{ child := i, fmt := f, bytes := body }] } }
  { setChunk k (some x) t with accum := satAdd t.accum 1 }

/-- A CHUNK at its context, from a child or from outside the tree (R198, R201). -/
def contribAt (slot : Nat) (p : Pkt) (s : State) : State :=
  match ctxOf s slot with
  | none => s
  | some c =>
    let num := pktStep p
    match childIdx c (pktPos s p) with
    | none => dropAt c.die 0x048 (modCtx slot (modStep num fun t => { t with steered := satAdd t.steered 1, dropped := satAdd t.dropped 1 }) s)
    | some i =>
      let s := openByChunk slot num s
      match (ctxOf s slot).bind fun c => (stepOf c num).map fun t => (c, t) with
      | none => dropAt c.die 0x044 s
      | some (c, t) =>
        let book (f : Step → Step) := modCtx slot (modStep num fun t => f { t with steered := satAdd t.steered 1 })
        if t.failed.isSome then book (fun t => { t with discarded := satAdd t.discarded 1 }) s
        else match contribDrop c t i (hChunk p.hdr) (hFmt p.hdr) p.body.length with
          | some ofs => dropAt c.die ofs (book (fun t => { t with dropped := satAdd t.dropped 1 }) s)
          | none => book (takeContrib c (hChunk p.hdr) i (hFmt p.hdr) p.body) s

/-- Is the front packet a CHUNK for a context of this die, and does f hold of its context and position? -/
def onChunk (x : Nat) (f : State → Ctx → Nat → Pkt → Bool) (g : Nat → Pkt → State → State) (s : State) : State :=
  match inboxFront s x with
  | none => s
  | some (pid, p) =>
    if hPtype p.hdr ≠ ptChunk then s
    else match pktSlot s p with
      | none => eatFront x pid s
      | some slot => match ctxOf s slot with
        | none => eatFront x pid s
        | some c => if f s c (pktPos s p) p then g slot p (eatFront x pid s) else s

/-- A result from the parent passes to the children that R199 names, unaltered. -/
def passDown (slot : Nat) (p : Pkt) (s : State) : State :=
  match ctxOf s slot with
  | none => s
  | some c => match stepOf c (pktStep p) with
    | none => dropAt c.die 0x044 s
    | some t =>
      if hChunk p.hdr ≥ t.n then dropAt c.die 0x044 s
      else sendMany c p.hdr p.body ((resultTo c t.n (hChunk p.hdr)).filterMap fun i => (childPoss c)[i]?) s

/-! ## Losing a reduction die (R210, R211, R284, R490) -/

/-- A root step is lost (R210, R284): its instances end. On a lost die its STEP_END is held until the context is rebuilt. -/
def loseStep (slot : Nat) (num : StepNo) (moving : Bool) (s : State) : State :=
  endStep slot num stContextLost (ownDetail s) (if moving then some (BitVec.ofNat 8 stContextLost, 0) else none)
    (modCtx slot (modStep num fun t => { t with chunks := [] }) s)

/-- Fail a step with CONTEXT_LOST (R210). -/
def failLost (slot : Nat) (num : StepNo) (moving : Bool) (s : State) : State :=
  match ctxOf s slot with
  | none => s
  | some c => if c.spec.isRoot then loseStep slot num moving s else failStep slot num stContextLost (ownDetail s) s

/-- Instances of closed steps end with the die or the shard they worked for. A step whose STEP_END waits for its twin packets ends CONTEXT_LOST
(R285): that STEP_END leaves, or is held with the moving context's. One that waits for its pace instant only has closed OK and stays so
(R299). -/
def loseClosed (slot : Nat) (moving : Bool) (s : State) : State :=
  match ctxOf s slot with
  | none => s
  | some c =>
    let lost := (c.steps.filter fun t => t.closed && (t.endHeld.any fun e => e.1 == 0) && owesTwin c t).map Step.num
    let st8 := BitVec.ofNat 8 stContextLost
    let s := modCtx slot (fun c => { c with
      steps := (c.steps.map fun t =>
        if !t.closed then t
        else if t.num ∈ lost then { t with chunks := [], endHeld := some (st8, 0), failed := some (st8, ownDetail s) }
        else { t with chunks := [] }).filter fun t => !stepOver t
      lastStatus := if c.lastClosed.any fun l => l.1 ∈ lost then st8 else c.lastStatus
      lastClosed := c.lastClosed.map fun l => if l.1 ∈ lost then (l.1, st8) else l }) s
    sweepInsts slot (if moving then s else each lost (releaseEnd slot) s)

/-- Chunks held for a lost die in VOQs and at its ports are discarded (R210); CTRLs stay. -/
def discardFor (x : Nat) (s : State) : State :=
  let s' := each ((redOf s x).inbox.map Prod.snd) (fun pid s => if isChunkPid s pid then discardChunk pid s else s) s
  let s := modRed x (fun r => { r with inbox := r.inbox.filter fun e => !isChunkPid s e.2 }) s'
  each (List.range 4) (fun d s =>
    each ((swcOf s d).voqs.filter fun e => e.1 / 2 % 4 = x) (fun e s =>
      let dead := e.2.filter (isChunkPid s)
      let n := (dead.map fun pid => match pktOf s pid with | some p => p.cells | none => 0).sum
      let left := e.2.filter fun pid => !isChunkPid s pid
      let s := each dead discardChunk s
      modSwc d (fun w => { w with voqs := tset [] w.voqs e.1 left, voqPort := tset 0 w.voqPort (e.1 / 8) (tget 0 w.voqPort (e.1 / 8) - n), voq := w.voq - n,
                                  free := w.free + n }) s) s) s

/-- A context's open steps end CONTEXT_LOST and the context, whose home die is lost with its reservation, is MOVING (R206, R210). -/
def ctxMoving (slot : Nat) (s : State) : State :=
  match ctxOf s slot with
  | none => s
  | some c =>
    let s := modCtx slot (fun c => { c with st := .moving, reserved := false }) s
    let s := each ((openSteps c).map Step.num) (fun n s => failLost slot n true s) s
    loseClosed slot true s

/-- The contexts homed on a die. -/
def ctxsOn (s : State) (x : Nat) : List Nat := (liveSlots s).filter fun k => match ctxOf s k with | some c => c.die == x | none => false

/-- The twin of a group reports its shard lost to the root's switch (R283, R285). -/
def reportShard (c : Ctx) (s : State) : State := emit (.shardLost c.spec.upCoord c.spec.group) s

/-- A root context without a shard and without a usable twin: LOST (R284). -/
def shardGone (slot : Nat) (s : State) : State :=
  match ctxOf s slot with
  | none => s
  | some c =>
    let s := modCtx slot (fun c => { c with st := .lost }) s
    logEvent 0x2040 3 (256 * c.die) (bytesLE 3 c.spec.group.toNat) s

/-- A die's shard region is lost with a stack (R284): roots end their steps, and without a usable twin are LOST; twins report. -/
def shardsLost (x : Nat) (s : State) : State :=
  each (liveSlots s) (fun k s => match ctxOf s k with
    | none => s
    | some c =>
      if shardDie s c.spec ≠ some x || c.st == .lost then s
      else if c.spec.isRoot then
        let s := loseClosed k (c.st == .moving) (each ((openSteps c).map Step.num) (fun n s => failLost k n (c.st == .moving) s) s)
        if usableTwin c || c.st == .moving then s else shardGone k s
      else reportShard c s) s

/-- A DRAM stack is lost (R312): its buffers and ring copies are handled (R323), its shard part is gone (R284), its domain goes off. -/
def loseStack (m : Nat) (s : State) : State :=
  if bitOf s.units.stackLost m then s
  else
    let s := logEvent 0x3006 4 m [] s
    let s := modUnits (fun u => { u with stackLost := setBit u.stackLost m true }) s
    let s := disarmAt (fun b i => b == 4 && i == m) s
    let s := poolsLoseStack m (modStack m (fun k => { k with live := false, pstate := 0, boost := false, paused := false }) s)
    domsLost [domStack m] (shardsLost (m / 2) s)

/-- A reduction die is lost (R28, R210), an SK-2X's with DRAM controllers only (R29) too: its chunks are discarded, its contexts' steps fail,
and its contexts are MOVING; its domains go off and single-stepping on it ends (R260). -/
def loseRed (x : Nat) (cause : LossCause) (s : State) : State :=
  if 4 ≤ x || bitOf s.units.redLost x then s
  else
    let s := logEvent (match cause with | .laneCheck => 0x2103 | _ => 0x1002) 3 (256 * x) [] s
    let s := discardFor x s
    let s := modUnits (fun u => { u with redLost := setBit u.redLost x true }) s
    let twins := (ctxsOn s x).filter fun k => match ctxOf s k with | some c => c.isTwin | none => false
    let s := each twins (fun k s => match ctxOf s k with | some c => reportShard c s | none => s) s
    let s := modRed x (fun r => { r with halted := none, locks := [] }) (each (ctxsOn s x) ctxMoving s)
    let s := disarmAt (fun b i => b == 3 && i / 256 == x) s
    let s := loseStack (2 * x + 1) (loseStack (2 * x) (poolsLoseDie x s))
    domsLost ((List.range 4).map fun q => domQuad x (3 - q)) s

/-- Rebuild a context on the live die with the most free SRAM, or place it in LOST (R210). Single-stepping of the context ends on both dies
(R260). -/
def rehome (slot : Nat) (s : State) : State :=
  match ctxOf s slot with
  | none => s
  | some c =>
    match bestDie s c.pages with
    | some x =>
      let stepped := (redOf s c.die).pstepEn && (redOf s c.die).pstepSlot.toNat == slot
      let s := modRed x (fun r => { r with freePages := r.freePages - c.pages, pstepEn := r.pstepEn && !stepped && r.pstepSlot.toNat != slot }) s
      let c := { c with die := x, st := .idle, reserved := true }
      redCnt x 0x05C 1 (writeMap slot c (setCtx slot (some (settleSt c)) s))
    | none =>
      let s := modCtx slot (fun c => { c with st := .lost }) s
      logEvent 0x2030 3 (256 * c.die) (bytesLE 3 c.spec.group.toNat ++ [BitVec.ofNat 8 c.die] ++ bytesLE 3 slot ++ [0] ++ bytesLE 3 c.pages) s

/-- After re-homing: a root sends the STEP_ENDs it held for that (R210), then what was held for it is handled (R211). -/
def settleMoved (slot : Nat) (s : State) : State :=
  match ctxOf s slot with
  | none => s
  | some c =>
    let s := each ((c.steps.filter fun t => t.endHeld.any fun e => e.1.toNat == stContextLost).map Step.num) (releaseEnd slot) s
    freeIfDeleting slot (replayHeld slot s)

/-- Re-home one context of a lost die: a root with its shard on the die waits for the promotion of its twin, or is LOST without one
(R284). -/
def rehomeOne (x slot : Nat) (s : State) : State :=
  match ctxOf s slot with
  | none => s
  | some c =>
    if c.spec.isRoot && shardDie s c.spec == some x then
      if usableTwin c then s else settleMoved slot (shardGone slot s)
    else settleMoved slot (rehome slot s)

/-! ## The commands -/

/-- STEP_START (R194, R195). -/
def execStepStart (x : RedDie) (st : State) : Outcome := .next <| onRootCtrl x kStepStart st

/-- ROOT_STEP_OPEN (R195): the READY step of a group that is not paced opens. -/
def execRootStepOpen (slot : Slot) (st : State) : Outcome :=
  .next <|
    match ctxOf st slot.toNat with
    | some c => if alive st && !isPaced c then openReady slot.toNat (fabT st) st else st
    | none => st

/-- STEP_OPEN (R195), from the parent. -/
def execStepOpen (x : RedDie) (st : State) : Outcome :=
  .next <| onCtrl x kStepOpen (fun slot c pos p s => if c.up = some pos then stepOpenAt slot c p s else s) st

/-- WINDOW (R197), from the parent. -/
def execWindow (x : RedDie) (st : State) : Outcome :=
  .next <| onCtrl x kWindow (fun slot c pos p s => if c.up = some pos then windowAt slot p s else s) st

/-- STEP_END (R200, R206), from the parent. -/
def execStepEnd (x : RedDie) (st : State) : Outcome :=
  .next <| onCtrl x kStepEnd (fun slot c pos p s => if c.up = some pos then stepEndAt slot c p s else s) st

/-- STOP (R205). -/
def execStop (x : RedDie) (st : State) : Outcome := .next <| onRootCtrl x kStop st

/-- FAIL (R204), from a child. -/
def execFail (x : RedDie) (st : State) : Outcome :=
  .next <| onCtrl x kFail (fun slot c pos p s => if (childIdx c pos).isSome then failAt slot c p s else s) st

/-- CHUNK_CONTRIBUTION (R198). -/
def execChunkContribution (x : RedDie) (st : State) : Outcome :=
  .next <| onChunk x (fun _ c pos _ => c.up ≠ some pos) contribAt st

/-- RESULT_PASS_DOWN (R199). -/
def execResultPassDown (x : RedDie) (st : State) : Outcome :=
  .next <| onChunk x (fun _ c pos p => c.up = some pos && !isTwinWrite c pos p) passDown st

/-- STEP_TIMER_EXPIRY (R202): the oldest open step has stood for its limit; its timer is suspended while the context is halted in
single-step (R260). -/
def execStepTimerExpiry (slot : Slot) (st : State) : Outcome :=
  .next <|
    match ctxOf st slot.toNat with
    | none => st
    | some c =>
      let halted := match (redOf st c.die).halted with | some i => i.slot == slot | none => false
      match openSteps c with
      | t :: _ =>
        if halted || !alive st || t.failed.isSome then st
        else
          let st := clockTo (t.timerAt + 1000 * c.spec.timeoutUs + 20000 * c.spec.height) st
          match missingOf c t (oldestIncomplete c t t.n 0) with
          | i :: _ => failStraggler slot.toNat t.num i st
          | [] => failStep slot.toNat t.num stStraggler (detailOf st.gctl.coord.toNat 0 0 (oldestIncomplete c t t.n 0) 0) (redCnt c.die 0x058 1 st)
      | [] => st

/-- REDUCTION_DIE_LOST (R210). -/
def execReductionDieLost (x : RedDie) (cause : LossCause) (st : State) : Outcome := .next <| if alive st then loseRed x cause st else st

/-- REHOME_DONE (R210): the contexts of a lost die are rebuilt in ascending slot order, and the end is logged. -/
def execRehomeDone (x : RedDie) (st : State) : Outcome :=
  .next <|
    let todo := (ctxsOn st x).filter fun k => match ctxOf st k with | some c => c.st == .moving | none => false
    if !alive st || !bitOf st.units.redLost x then st
    else
      let st := modRed x (fun r => { r with pstepEn := false }) (each todo (rehomeOne x) st)
      let n (f : Ctx → Bool) := (todo.filter fun k => match ctxOf st k with | some c => f c | none => false).length
      logEvent 0x2031 3 (256 * x) ([BitVec.ofNat 8 x, 0, 0, 0] ++ bytesLE 4 (n fun c => c.die != x.val) ++ bytesLE 4 (n fun c => c.st == .lost)) st

end Sys2Proof.Machine
end

