-- ==== Sys2Proof/Machine/Program.lean ====
section
/-! DEFINITION. The words of a collective program (chapter 9) with the arithmetic of chapter 8, shard reads and writes of chapter 10,
traps (R237, R238), residue checks (R240), and single-stepping (R260). -/

namespace Sys2Proof.Machine

/-! ## Instances -/

/-- The step of a number that holds an instance: the open one, else one closed with instances on their way to END (R258). -/
def stepWith (c : Ctx) (num : StepNo) (k : Nat) : Option Step :=
  match stepOf c num with
  | some t => some t
  | none => c.steps.find? fun t => t.num = num && (chunkOf t k).isSome

/-- Change chunk k of a step, open or closed. -/
def modChunk (num : StepNo) (k : Nat) (f : Chunk → Chunk) (c : Ctx) : Ctx :=
  { c with steps := c.steps.map fun t => if t.num = num ∧ (chunkOf t k).isSome then setChunk k ((chunkOf t k).map f) t else t }

/-- Change the instance of an InstId. -/
def modInst (i : InstId) (f : Inst → Inst) (s : State) : State :=
  modCtx i.slot.toNat (modChunk i.step i.chunk.toNat fun x => { x with inst := f x.inst }) s

/-- Change the step of an InstId, open or closed. -/
def modStepOf (i : InstId) (f : Step → Step) (s : State) : State :=
  modCtx i.slot.toNat (fun c => { c with steps := c.steps.map fun t => if t.num = i.step ∧ (chunkOf t i.chunk.toNat).isSome then f t else t }) s

/-- What a word sees: its context, step and chunk, the program of the switch, the address and the word. -/
structure Here where
  c : Ctx
  t : Step
  x : Chunk
  ws : List (Nat × Word)
  addr : Nat
  w : Word
deriving DecidableEq, Repr

def findInst (s : State) (i : InstId) : Option (Ctx × Step × Chunk) :=
  (ctxOf s i.slot.toNat).bind fun c => (stepWith c i.step i.chunk.toNat).bind fun t => (chunkOf t i.chunk.toNat).map fun x => (c, t, x)

/-- The instance at its current word: the first of its path at or after its pc. Past the last word it stands at an END. While W instances of
its context run, one that has not started stands nowhere (R248). -/
def hereOf (s : State) (i : InstId) : Option Here :=
  match findInst s i with
  | none => none
  | some (c, t, x) =>
    let ws := progOf s c.spec.program.toNat
    let stopped := match c.st with | .moving | .lost => true | _ => false
    if !alive s || stopped || (t.failed.isSome && !x.inst.granted) || !(x.inst.started || decide (running c < c.spec.window)) then none
    else match (pathOf c.spec.isRoot ws).find? fun w => decide (w.1 ≥ x.inst.pc) with
      | some w => some { c := c, t := t, x := x, ws := ws, addr := w.1, w := w.2 }
      | none => some { c := c, t := t, x := x, ws := ws, addr := x.inst.pc, w := 0x0F000000#32 }

/-- The address of WAIT COMPLETE; the contribution section ends before it (R250). -/
def waitAddr (ws : List (Nat × Word)) : Nat := ((ws.find? fun w => isWaitComplete w.2).map Prod.fst).getD 16384

/-- The word of the path that takes contributions. -/
def accWord (c : Ctx) (ws : List (Nat × Word)) : Option (Nat × Word) := (pathOf c.spec.isRoot ws).find? fun w => isAccWord w.2

/-- Has the instance of chunk k ended? -/
def instEnded (t : Step) (k : Nat) : Bool := decide (k ∈ t.done) && (chunkOf t k).isNone

/-- Go on to the next word. -/
def advance1 (i : InstId) (a : Nat) : State → State := modInst i fun n => { n with pc := a + 1, waiting := false, atBar := false }

/-! ## Single-stepping (R260) -/

/-- Is an instance under single-step: its die steps its slot and it is in its chunk section? -/
def stepped (s : State) (i : InstId) (h : Here) : Bool :=
  (redOf s h.c.die).pstepEn && (redOf s h.c.die).pstepSlot == i.slot && decide (h.addr > waitAddr h.ws)

/-- Is the instance the next to run, chunk by chunk, of the oldest step that has instances: has every chunk before it ended (R260)? -/
def firstStepped (h : Here) (i : InstId) : Bool :=
  match h.c.steps.find? fun t => t.chunks.any fun e => e.2.isSome with
  | some t => t.num == i.step && (List.range i.chunk.toNat).all fun k => instEnded t k || (t.closed && (chunkOf t k).isNone) || (expects h.c t.n k).isEmpty
  | none => false

/-- Halt the instance before its word. -/
def haltAt (i : InstId) (h : Here) (s : State) : State :=
  if (redOf s h.c.die).halted.isNone && firstStepped h i then modRed h.c.die (fun r => { r with halted := some i, haltedAt := s.clock }) s else s

/-! ## Traps (R237, R238) -/

/-- The chunk of a trap ends: nothing more of it is emitted or stored. -/
def dropChunk (i : InstId) (s : State) : State :=
  sweepInsts i.slot.toNat (modCtx i.slot.toNat (fun c => { c with
    steps := (c.steps.map fun t => if t.num = i.step ∧ (chunkOf t i.chunk.toNat).isSome then setChunk i.chunk.toNat none t else t).filter fun t => !stepOver t }) s)

/-- A trap after the step has closed, in an STS behind the last FAN: the context enters HALT, and a STEP_END still held, unless it tells of a
failure already, tells of the trap (R237, R268, R282). -/
def haltClosed (num : StepNo) (status : Nat) (d : Detail) (c : Ctx) : Ctx :=
  let st8 := BitVec.ofNat 8 status
  let was (t : Step) : Bool := t.closed && t.num == num && t.endHeld.any fun e => e.1 == 0
  { c with
    steps := c.steps.map fun t => if was t then { t with endHeld := some (st8, 0), failed := some (st8, d) } else t
    lastStatus := if (c.steps.any was) && c.lastClosed.any (fun l => l.1 == num) then st8 else c.lastStatus
    lastClosed := c.lastClosed.map fun l => if (c.steps.any was) && l.1 == num then (l.1, st8) else l
    st := match c.st with | .moving => .moving | .lost => .lost | _ => .halt
    haltStatus := st8, haltDetail := d }

/-- A NaN or infinity trap: the counter, the capture, kept until the group is resumed, and the step's failure (R237, R238). ct is the child,
when an input caused it. -/
def trap (i : InstId) (h : Here) (nan : Bool) (fmt : Nat) (ct : Option Nat) (elem raw : Nat) (s : State) : State :=
  let ch := ct.bind fun n => h.c.spec.children[n]?
  let pos := (ch.map ChildSpec.pos).getD 0
  let id := match ch with | some x => if x.isSwitch then 0 else x.id.toNat | none => 0
  let cap : Capture := { nan := nan, inf := !nan, fmt := BitVec.ofNat 4 fmt, opcode := BitVec.ofNat 8 (wOp h.w), chunk := i.chunk,
                         contrib := BitVec.ofNat 20 id, childPos := BitVec.ofNat 11 pos, elemOfs := BitVec.ofNat 16 elem,
                         raw := BitVec.ofNat 32 raw, step := i.step }
  let s := redCnt h.c.die (if nan then 0x0A8 else 0x0AC) 1 s
  let s := modCtx i.slot.toNat (fun c => if c.capture.nan || c.capture.inf then c else { c with capture := cap }) s
  let w := (wOp h.w) * 2 ^ 24 + (fmt % 16) * 2 ^ 20 + id
  let d : Detail := BitVec.ofNat 128 (s.gctl.coord.toNat * 2 ^ 112 + pos * 2 ^ 96 + w * 2 ^ 64 + i.chunk.toNat * 2 ^ 48 + elem % 65536 * 2 ^ 32 + raw % 2 ^ 32)
  let status := if nan then stNanTrap else stInfTrap
  let s := iff h.t.closed (modCtx i.slot.toNat (haltClosed i.step status d)) (dropChunk i s)
  failStep i.slot.toNat i.step status d s

/-- OVF of a context. -/
def noteOvf (i : InstId) : State → State := modCtx i.slot.toNat fun c => { c with ovf := true }

/-- Saturations and flushes of a context (R235, R236). -/
def noteFlags (i : InstId) (die sats flushes : Nat) (s : State) : State :=
  let s := iff (sats ≠ 0) (fun s => redCnt die 0x0B0 sats (noteOvf i s)) s
  iff (flushes ≠ 0) (fun s => redCnt die 0x0B4 flushes (modCtx i.slot.toNat (fun c => { c with flushed := true }) s)) s

/-! ## Residue checks (R239, R240) -/

/-- A mismatch on a lane: logged, and a strike; the second strike retires the lane. -/
def strike (x lane : Nat) (inj : Bool) (s : State) : State :=
  let s := logEvent' 0x2101 3 (256 * x + lane) [] 2 0 inj (redCnt x 0x0A0 1 s)
  let r := redOf s x
  if bitOf r.strikes lane then
    logEvent' 0x2102 3 (256 * x + lane) [] 2 0 inj (modRed x (fun r => { r with retired := setBit r.retired lane true }) s)
  else modRed x (fun r => { r with strikes := setBit r.strikes lane true }) s

/-- The checks of a block: ls are the lanes of its attempts that mismatched, on live lanes and each on another, at most three; a trap's block
is not recomputed. Has every attempt mismatched? inj is the lane that an injection made mismatch. -/
def residue (x : Nat) (ls : List (Fin 128)) (trapped : Bool) (inj : Option (Fin 128)) (s : State) : Bool × State :=
  let ls := ((uniq ls).filter fun l => !bitOf (redOf s x).retired l.val).take (if trapped then 1 else 3)
  let s := each ls (fun l s => strike x l.val (inj == some l) s) s
  (!trapped && ls.length == 3, iff (!trapped && decide (1 ≤ ls.length ∧ ls.length ≤ 2)) (redCnt x 0x0A4 1) s)

/-- An armed injection into a lane of die x makes the lane's next block, taken as the word's first, mismatch (R424): the checks with it, and
the lane. -/
def injectLane (x : Nat) (chk : Checks) (s : State) : Checks × Option (Fin 128) × State :=
  let f := s.flt
  if f.injActive && f.injBlock == 3#8 && f.injInst.toNat / 256 == x && f.injChecker == 0#8 && fld f.injMask 0 7 != 0 then
    if h : f.injInst.toNat % 256 < 128 then
      (let l : Fin 128 := ⟨f.injInst.toNat % 256, h⟩
       ((0, l :: (chk.filter fun e => e.1 = 0).flatMap Prod.snd) :: chk.filter fun e => e.1 ≠ 0, some l, injSpent s))
    else (chk, none, s)
  else (chk, none, s)

/-- A persistent injection whose lane is retired disarms itself (R425). -/
def injectOff (x : Nat) (s : State) : State :=
  let f := s.flt
  if f.injPersist && f.injBlock == 3#8 && f.injInst.toNat / 256 == x && (bitOf (redOf s x).retired (f.injInst.toNat % 256) || bitOf s.units.redLost x) then
    modFlt (fun f => { f with injActive := false }) s
  else s

/-! ## ACC and ACCX (R222, R223, R229, R235 to R237) -/

/-- The lowest weight of a Worsted accumulator (R229). -/
def wBase (c : Ctx) : Int := if bitOf c.spec.inFmts 8 then -1074 else -149
def wWidth (c : Ctx) : Nat := if bitOf c.spec.inFmts 8 then 2176 else 320

/-- Decode a payload block by block: the values, the counts, and the first trap with its element offset in the chunk. -/
def decodeChunk (c : Ctx) (fmt : Nat) (bytes : List Byte) : List Decoded := (blocksOf fmt bytes).map (decodeVals fmt (modeBit c 2) (modeBit c 3))

def firstTrap (ds : List Decoded) : Option (Bool × Nat × Nat) :=
  let all := (ds.zip (List.range ds.length)).filterMap fun d => d.1.trap.map fun t => (t.1, 32 * d.2 + t.2.1, t.2.2)
  match all.find? fun t => t.1 with
  | some t => some t
  | none => all.head?

/-- A with a contribution combined into it (R223, R229, R488). -/
def combine (c : Ctx) (comb fmt : Nat) (a : Acc) (ds : List Decoded) : Acc :=
  if isWorsted c then
    let v := ds.flatMap fun d => d.vals.map fun e => toGrid e.1 e.2 (wBase c)
    match a with
    | .worsted b => .worsted (List.zipWith (combEl (wWidth c) comb) b v)
    | _ => .worsted v
  else
    let v := ds.map fun d => cifBlock fmt d.vals
    match a with
    | .muslin b => .muslin (List.zipWith (combBlock comb) b v)
    | _ => .muslin v

/-- The residue checks of the blocks of a word on die x (R239, R240): a block that mismatches three times, and the last lane's retirement, lose
the die. trapped tells of the blocks whose trap stands. -/
def checkWord (x : Nat) (chk : Checks) (trapped : Nat → Bool) (s : State) : State :=
  let (chk, inj, s) := injectLane x chk s
  let (lost, s) := chk.foldl (fun (a : Bool × State) b =>
    let r := residue x b.2 (trapped b.1) (if b.1 = 0 then inj else none) a.2
    (a.1 || r.1, r.2)) (false, s)
  injectOff x (if lost || (redOf s x).retired == BitVec.allOnes 128 then loseRed x .laneCheck s else s)

/-- Bytes of a die's SRAM that lanes, update units and program working state read (dir 0) or write (dir 1) (R457; log entry 83). -/
def countSram (x dir n : Nat) : State → State := countBytes (8 + 2 * x + dir) n

/-- Take the next contribution of an instance into A. -/
def accumulate (i : InstId) (h : Here) (a : Nat) (chk : Checks) (s : State) : State :=
  match h.x.inst.todo with
  | [] => s
  | ct :: rest =>
    let next := fun n : Inst => { n with todo := rest, pc := if n.pc ≤ a then a + 1 else n.pc }
    if (h.x.raw).isSome then modInst i next s
    else
      let ds := decodeChunk h.c ct.fmt.toNat ct.bytes
      let s := countSram h.c.die 0 ct.bytes.length s
      let s := noteFlags i h.c.die ((ds.map Decoded.sats).sum) ((ds.map Decoded.flushes).sum) s
      match firstTrap ds with
      | some (nan, el, raw) =>
        checkWord h.c.die chk (fun b => (ds[b]?).any fun d => d.trap.isSome) (trap i h nan ct.fmt.toNat (some ct.child) el raw s)
      | none =>
        checkWord h.c.die chk (fun _ => false)
          (modInst i (fun n => { next n with a := combine h.c (accComb h.c.spec h.w) ct.fmt.toNat n.a ds }) s)

/-! ## Reading A -/

/-- The scalar the cast and NORM apply: a recorded one in Worsted (R228). -/
def scaledVals (h : Here) (n : Nat) : List (Int × Int) :=
  match h.x.inst.a with
  | .empty => List.replicate n (0, 0)
  | .muslin bs => bs.flatMap fun b => b.m.map fun m => (m, b.x)
  | .worsted vs => vs.map fun v => match h.x.inst.scale with
    | none => (v, wBase h.c)
    | some (sc, e) => (v * sc, wBase h.c + e - 23)

/-- m × 2^e as a rational. -/
def ratOf (m e : Int) : Rat := if e ≥ 0 then (m * (2 ^ e.toNat : Nat) : Int) else mkRat m (2 ^ (-e).toNat)

/-! ## Words -/

/-- A scalar source (R253). -/
def srcWord (h : Here) (src : Nat) : Word := h.t.scalars.getD src 0

/-- A scalar in use: significand and exponent, or the trap it raises; the flag tells of a replaced infinity (R226). -/
def useScalar (c : Ctx) (w : Word) : Sum Bool ((Int × Int) × Bool) :=
  match scalarOf w with
  | none => .inl true
  | some (m, e, inf) => if inf && modeBit c 3 then .inl false else .inr ((m, e), inf)

def wordScl (i : InstId) (h : Here) (chk : Checks) (s : State) : State :=
  let src := fld h.w 0 4
  let one := h.c.spec.op.toNat = opAllgather ∨ h.c.spec.op.toNat = opBroadcast
  let sc := if src = 8 then .inr (recipN (if one then 1 else h.c.spec.nMembers), false) else useScalar h.c (srcWord h src)
  match sc with
  | .inl nan => trap i h nan 7 none 0 (srcWord h src).toNat s
  | .inr (k, inf) =>
    checkWord h.c.die chk (fun _ => false) <| advance1 i h.addr (modInst i (fun n => match n.a with
      | .empty => n
      | .muslin bs => { n with a := .muslin (bs.map fun b => let r := scalePlane b.m b.x k.1 k.2; { m := r.1, x := r.2 }) }
      | .worsted _ => { n with scale := some (match n.scale with | none => k | some q => scalarMul q k) }) (iff inf (noteOvf i) s))

/-- The draws of a Muslin block (R233): eight steps of the generator of the live lane that serves it. Which lane serves a block, and a lane's seed,
are free values (log entry 2). -/
def laneDraws (x : Nat) (s : State) : List Nat × State :=
  let live := (List.range 128).filter fun l => !bitOf (redOf s x).retired l
  let (v, s) := draw s
  let l := (live[v.toNat % live.length]?).getD 0
  let (g, s) := match tget none (redOf s x).gens l with | some g => (g, s) | none => draw s
  let ws := genSteps 8 g
  (drawsOf ws, modRed x (fun r => { r with gens := tset none r.gens l ws.getLast? }) s)

/-- Cast blocks of 32 values: the bytes, the counts, the first saturation, and the state after the draws. The block-level field of a bitwise
result in a block-scaled format is open (R232; log entry 2). -/
def castBlocks (i : InstId) (h : Here) (fmt : Nat) (rne bitwise : Bool) (bs : List (List (Int × Int))) (s : State) :
    List CastBlock × State :=
  (bs.zip (List.range bs.length)).foldl (fun (a : List CastBlock × State) b =>
    if bitwise then
      (let (v, s) := if isMx fmt || fmt == 0xE then draw a.2 else (0, a.2)
       (a.1 ++ [castBits fmt v b.1], s))
    else
      let (ds, s) := if rne then (List.replicate 32 0, a.2)
        else if isWorsted h.c then (worstedDraws h.x.inst.wseed i.step.toNat i.chunk.toNat b.2 a.2.gctl.coord.toNat, a.2)
        else laneDraws h.c.die a.2
      (a.1 ++ [castBlock fmt (modeBit h.c 2) rne ds b.1], s)) ([], s)

/-- Values in blocks of 32. -/
def blocks32 (vs : List (Int × Int)) : List (List (Int × Int)) := (List.range (vs.length / 32)).map fun b => (vs.drop (32 * b)).take 32

/-! ## Space for O and the planes (R251) -/

/-- An instance's space in buffers of a requester: those it still lacks are asked for, one after another until one must wait. Has it them
all? -/
def takeSpace (i : InstId) (q : Nat) (needs : List Nat) (s : State) : Bool × State :=
  let has (s : State) : Nat := (s.bpm.owners.filter fun e => e.2 == i && tget 0 s.bpm.holders e.1 == q + 1).length
  let waits (s : State) : Bool := s.bpm.waiters.any fun w => w.inst == some i && w.q == q
  let s := each (needs.drop (has s)) (fun n s => if waits s || !mgmtUp s then s else poolAsk q n (some i) s) s
  (decide (needs.length ≤ has s), s)

/-- Bytes of a plane (log entry 63): 48-bit mantissas with an exponent to 64 of them. -/
def planeBytes (c : Ctx) : Nat := 6 * coppiceElems c + 2 * (coppiceElems c / 64)

/-- Planes in a mask. -/
def planesIn (mask : Nat) : Nat := popc (BitVec.ofNat 8 mask)

/-- The buffers of n planes, in pieces of at most 16 KiB. -/
def planeNeeds (c : Ctx) (n : Nat) : List Nat :=
  let b := planeBytes c
  (List.replicate n (List.replicate (b / 16384) 16384 ++ (if b % 16384 = 0 then [] else [b % 16384]))).flatten

/-- Is a plane of a mask still being loaded (R252)? -/
def loading (n : Inst) (mask : Nat) : Bool := n.lds.any fun m => m.toNat &&& mask != 0

/-! ## CAST, NORM, DIG and SEED -/

/-- CAST (R222 to R236, R254): it waits for a plane being loaded (R252), and for room for O (R251). -/
def wordCast (i : InstId) (h : Here) (chk : Checks) (s : State) : State :=
  let fmt := if castFmt h.w = 0xF then leaveFmt h.c else castFmt h.w
  if castSrc h.w = 1 && loading h.x.inst 1 then s
  else match takeSpace i (4 * h.c.die + 1) [4096] s with
  | (false, s) => s
  | (true, s) => match h.x.raw with
    | some (f, bytes) => advance1 i h.addr (modInst i (fun n => { n with o := some (f, bytes) }) s)
    | none =>
      let vals := if castSrc h.w = 1 then
          (match h.x.inst.w with | some us => us.flatMap fun u => u.m.map fun m => (m, u.x) | none => List.replicate h.x.elems (0, 0))
        else scaledVals h h.x.elems
      let rne := castRnd h.w = 1 || (castRnd h.w = 0 && modeBit h.c 1)
      let comb := match accWord h.c h.ws with | some w => accComb h.c.spec w.2 | none => 0
      let (bs, s) := castBlocks i h fmt rne (castSrc h.w = 0 && decide (4 ≤ comb ∧ comb ≤ 6)) (blocks32 vals) s
      let sat := ((bs.zip (List.range bs.length)).filterMap fun b => b.1.first.map fun f => (32 * b.2 + f.1, f.2)).head?
      let trapped := sat.isSome && modeBit h.c 3
      let s := countSram h.c.die 1 (bs.flatMap CastBlock.bytes).length s
      let s := noteFlags i h.c.die (if trapped then 0 else (bs.map CastBlock.sats).sum) ((bs.map CastBlock.flushes).sum) s
      checkWord h.c.die chk (fun _ => false) (match sat with
        | some (el, enc) =>
          if modeBit h.c 3 then trap i h false fmt none el enc s
          else advance1 i h.addr (modInst i (fun n => { n with o := some (BitVec.ofNat 4 fmt, bs.flatMap CastBlock.bytes) }) s)
        | none => advance1 i h.addr (modInst i (fun n => { n with o := some (BitVec.ofNat 4 fmt, bs.flatMap CastBlock.bytes) }) s))

/-- NORM (R254): what it adds to SQ counts while the step is open. -/
def wordNorm (i : InstId) (h : Here) (chk : Checks) (s : State) : State :=
  let q := (scaledVals h h.x.elems).foldl (fun (a : Rat) v => a + ratOf (v.1 * v.1) (2 * v.2)) 0
  checkWord h.c.die chk (fun _ => false) (advance1 i h.addr (modCtx i.slot.toNat (modStep i.step fun t => { t with sq := t.sq + q }) s))

def wordDig (i : InstId) (h : Here) (s : State) : State :=
  let o := match h.x.inst.o with | some (_, b) => b | none => []
  advance1 i h.addr (iff (hasDigest h.c) (modCtx i.slot.toNat (modStep i.step fun t => { t with dg := t.dg ^^^ digHash o i.chunk.toNat })) s)

def wordSeed (i : InstId) (h : Here) (s : State) : State :=
  let v := h.c.spec.seed ^^^ (BitVec.ofNat 64 (fld h.w 0 16) * 0xD6E8FEB86659FD93#64)
  advance1 i h.addr (iff (isWorsted h.c) (modInst i fun n => { n with wseed := v }) s)

/-! ## WAIT and BAR (R250, R252, R254) -/

/-- Is chunk k of a step complete here (R199), with every contribution taken? -/
def chunkFull (h : Here) (k : Nat) : Bool :=
  (expects h.c h.t.n k).all (· ∈ h.x.bits) && ((accWord h.c h.ws).isNone || h.x.inst.todo.isEmpty)

/-- Has every instance of the step reached the BAR at an address? This one counts as there. -/
def allAtBar (h : Here) (k : Nat) : Bool :=
  (List.range h.t.n).all fun j => j == k || instEnded h.t j || (match chunkOf h.t j with
    | some x => decide (x.inst.pc > h.addr) || (x.inst.atBar && x.inst.pc == h.addr)
    | none => false)

/-- Does the condition of a holding word hold? -/
def holdOver (h : Here) (k : Nat) : Bool :=
  if wOp h.w = opcBar then allAtBar h k
  else if fld h.w 0 2 = 0 then chunkFull h k
  else k == 0 || instEnded h.t (k - 1)

def wordHold (i : InstId) (h : Here) (s : State) : State :=
  if holdOver h i.chunk.toNat then advance1 i h.addr s
  else modInst i (fun n => { n with pc := h.addr, waiting := true, atBar := wOp h.w == opcBar }) s

/-! ## EMIT and FAN (R197, R199, R200, R254, R256) -/

def wordEmit (i : InstId) (h : Here) (s : State) : State := modInst i (fun n => { n with pc := h.addr, emitted := true }) s
def wordFan (i : InstId) (h : Here) (s : State) : State := modInst i (fun n => { n with pc := h.addr, fanned := true }) s

/-- The grant of a chunk: its window slot is released and the timer restarts. -/
def grantDone (i : InstId) (h : Here) (s : State) : State :=
  let s := countSram h.c.die 0 ((h.x.inst.o).getD (0, [])).2.length s
  let s := advance1 i h.addr (modInst i (fun n => { n with granted := true }) s)
  modCtx i.slot.toNat (modStep i.step fun t => { t with done := insNat i.chunk.toNat t.done, timerAt := s.clock }) s

/-- EMIT's grant: the chunk goes to the parent while its index is below the parent's LIMIT. -/
def emitGrant (i : InstId) (h : Here) (s : State) : State :=
  match h.c.up with
  | none => s
  | some up =>
    if !h.x.inst.emitted || h.x.inst.granted || h.t.failed.isSome || h.t.closed || i.chunk.toNat ≥ h.t.upLimit then s
    else
      let (f, b) := (h.x.inst.o).getD (0, [])
      let s := sendOne h.c (groupHdr s h.c ptChunk b.length i.step.toNat i.chunk.toNat f.toNat false) b up s
      sendWindows i.slot.toNat false (grantDone i h s)

/-- FAN's grant: the result goes to its children; with the last result the step closes (R200). -/
def fanGrant (i : InstId) (h : Here) (s : State) : State :=
  if !h.x.inst.fanned || h.x.inst.granted || h.t.failed.isSome || h.t.closed then s
  else
    let k := i.chunk.toNat
    let (f, b) := (h.x.inst.o).getD (0, [])
    let dsts := (resultTo h.c h.t.n k).filterMap fun j => (childPoss h.c)[j]?
    let s := sendMany h.c (groupHdr s h.c ptChunk b.length i.step.toNat k f.toNat (k + 1 == h.t.n)) b dsts s
    let s := modCtx i.slot.toNat (modStep i.step fun t => { t with results := t.results + 1 }) (grantDone i h s)
    let s := sendWindows i.slot.toNat false s
    if h.t.results + 1 ≥ h.t.n then closeOk i.slot.toNat i.step s else s

/-! ## LDS and STS (R252, R266 to R268, R272, R280) -/

/-- The shard chunk of chunk k of a step, the blocks it covers within the shard, and the die (R272). -/
def shardChunk (c : Ctx) (num : StepNo) (k : Nat) : Nat := num.toNat % (max 1 (cpNSeg c.spec.coppice)) * cpSegChunks c.spec.coppice + k
def chunkBlks (c : Ctx) (num : StepNo) (k : Nat) : List Nat :=
  let n := coppiceElems c / 64
  (List.range n).map (shardChunk c num k * n + ·)

/-- The key of block b of a group's shard on a die. -/
def blkKey (c : Ctx) (die b : Nat) : Nat := die * 2 ^ 28 + cpBase c.spec.coppice + b

/-- The stack and the offset at which block b of a group's shard lies (R264, R306). -/
def blkPlace (s : State) (c : Ctx) (b : Nat) : Nat × Nat :=
  let k := cpBase c.spec.coppice + b
  let m := 2 * c.die + k % 2
  (m, (stackOf s m).shardBase.toNat * 65536 + 528 * (k / 2))

/-- Count the codewords of blocks read (dir 0) or written (dir 1) (R457). -/
def countBlks (c : Ctx) (bs : List Nat) (dir : Nat) (s : State) : State :=
  each bs (fun b s => let p := blkPlace s c b; countBytes (16 + 2 * p.1 + dir) (64 * codewords p.2 528) s) s

/-- An STS to the same shard blocks that is still outstanding, this one's own included (R252). -/
def stsPending (c : Ctx) (num : StepNo) (k : Nat) : Bool :=
  c.steps.any fun t => t.chunks.any fun e => match e.2 with
    | some x => x.inst.sts != 0 && !x.inst.stsDone && shardChunk c t.num e.1 == shardChunk c num k
    | none => false

/-- LDS is issued once no earlier STS of its block is under way (R252) and the instance has space for its planes (R251). -/
def wordLds (i : InstId) (h : Here) (s : State) : State :=
  let n := h.x.inst
  let held : BitVec 3 := n.lds.foldl (· ||| ·) (BitVec.ofNat 3 (b2n n.w.isSome + 2 * b2n n.m1.isSome + 4 * b2n n.m2.isSome))
  if stsPending h.c i.step i.chunk.toNat then s
  else match takeSpace i (4 * h.c.die + 2) (planeNeeds h.c (planesIn (held ||| BitVec.ofNat 3 (fld h.w 0 3)).toNat)) s with
  | (false, s) => s
  | (true, s) => advance1 i h.addr (modInst i (fun n => { n with lds := n.lds ++ [BitVec.ofNat 3 (fld h.w 0 3)] }) s)

/-- The planes of the blocks read, by mask (R276). -/
def loadPlanes (mask : BitVec 3) (bs : List ShardBlk) (n : Inst) : Inst :=
  { n with read := bs
           w := if bitOf mask 0 then some (bs.map fun b => ufOf (wMant b) (xOf b.xw) 9) else n.w
           m1 := if bitOf mask 1 then some (bs.map fun b => ufOf (m1Mant b) (xOf b.x1) 25) else n.m1
           m2 := if bitOf mask 2 then some (bs.map fun b => ufOf (m2Mant b) (xOf b.x2) 24) else n.m2
           lds := n.lds.drop 1 }

/-- The reads of the blocks of a chunk, in order, cw naming those that were not clean: which could not be read (R308, R310). -/
def readBlks (c : Ctx) (bs : List Nat) (cw : List (Nat × CwResult)) (s : State) : List Bool × State :=
  (bs.zip (List.range bs.length)).foldl (fun (a : List Bool × State) b =>
    let p := blkPlace a.2 c b.1
    let r := cwRead p.1 p.2 528 0 (((cw.find? fun e => e.1 = b.2).map Prod.snd).getD .clean) a.2
    (a.1 ++ [r.1 == .uncorrectable], r.2)) ([], s)

/-- Does an access to blocks of a shard meet a row that is being spared (R311)? -/
def blksBusy (s : State) (c : Ctx) (bs : List Nat) : Bool := bs.any fun b => let p := blkPlace s c b; rowBusy s p.1 p.2 528

/-- The oldest outstanding LDS completes: NaN blocks trap (R267, R310), the digest takes each block (R295), the planes are decoded. -/
def ldsDone (i : InstId) (h : Here) (cw : List (Nat × CwResult)) (s : State) : State :=
  let ids := chunkBlks h.c i.step i.chunk.toNat
  match h.x.inst.lds with
  | [] => s
  | mask :: _ =>
    if blksBusy s h.c ids then s
    else
      let bs := ids.map fun b => tget {} s.mem.shard (blkKey h.c h.c.die b)
      let hdr (b : ShardBlk) : Nat := b.xw.toNat + 65536 * b.x1.toNat
      let (uc, s) := readBlks h.c ids cw (countBlks h.c ids 0 s)
      match ((bs.zip uc).zip (List.range bs.length)).find? fun b => b.1.2 || blkNan b.1.1 with
      | some ((b, u), j) => trap i { h with w := 0x08000000#32 } true 0xE none (64 * j) (if u then 0xFFFFFFFF else hdr b) s
      | none =>
        let s := iff (hasDigest h.c) (modCtx i.slot.toNat (modStep i.step fun t =>
          { t with dg := bs.foldl (fun d b => d ^^^ blkTerm (fld b.blk 0 28) b.ver.toNat) t.dg })) s
        modInst i (loadPlanes mask bs) (countSram h.c.die 1 (planesIn mask.toNat * planeBytes h.c) s)

/-- The blocks that STS writes: named planes encoded, the others as read, VER the step number (R268); whether a plane was clamped,
with the element and the encoding written. -/
def stsBlocks (i : InstId) (mask : Nat) (n : Inst) : List (ShardBlk × Option (Nat × Nat)) :=
  (n.read.zip (List.range n.read.length)).map fun e =>
    let (b, j) := e
    let at_ (p : Option (List UBlock)) : UBlock := ((p.getD [])[j]?).getD { m := List.replicate 64 0, x := 0 }
    let enc (bit top : Nat) (p : Option (List UBlock)) : Option (List Int × Int × Bool) := if mask.testBit bit then some (encPlane top (at_ p)) else none
    let w := enc 0 31 n.w
    let m1 := enc 1 15 n.m1
    let m2 := enc 2 16 n.m2
    let first (r : Option (List Int × Int × Bool)) (wd : Nat) (lim : Int) : Option (Nat × Nat) := r.bind fun r =>
      if r.2.2 then ((r.1.zip (List.range 64)).find? fun v => decide (v.1 = lim ∨ v.1 = -lim)).map fun v => (64 * j + v.2, (BitVec.ofInt wd v.1).toNat) else none
    let b := { b with ver := i.step }
    let b := match w with | some r => { b with w := packMant 32 2048 r.1, xw := BitVec.ofInt 16 r.2.1 } | none => b
    let b := match m1 with | some r => { b with m1 := packMant 16 1024 r.1, x1 := BitVec.ofInt 16 r.2.1 } | none => b
    let b := match m2 with | some r => { b with m2 := packMant 16 1024 r.1, x2 := BitVec.ofInt 16 r.2.1 } | none => b
    (b, match first w 32 (2 ^ 31 - 1) with | some x => some x | none => match first m1 16 (2 ^ 15 - 1) with | some x => some x | none => first m2 16 (2 ^ 16 - 1))

/-- Twin packets of the blocks written: 1 to 7 whole blocks each (R280). -/
def twinBodies (bs : List ShardBlk) : List (List Byte) :=
  (List.range (cdiv bs.length 7)).map fun j => ((bs.drop (7 * j)).take 7).flatMap blkBytes

/-- Blocks written to a shard: stored, and the faults of their codewords cleared (R310). -/
def storeBlks (c : Ctx) (bs : List (Nat × ShardBlk)) (s : State) : State :=
  let s := { s with mem := { s.mem with shard := bs.foldl (fun t b => tset {} t (blkKey c c.die b.1) b.2) s.mem.shard } }
  let s := each bs (fun b s => let p := blkPlace s c b.1; cwWritten p.1 p.2 528 s) s
  modPwr (fun p => { p with shardDirty := setBit p.shardDirty c.die true }) (countBlks c (bs.map Prod.fst) 1 s)

/-- Has the root a twin to write (R280)? -/
def twinned (c : Ctx) : Bool := c.twin == .active && cpTwin c.spec.coppice

/-- STS waits for a plane it names that is being loaded (R252), and with a twin for room for its packets (R251). -/
def wordSts (i : InstId) (h : Here) (s : State) : State :=
  let r := stsBlocks i (fld h.w 0 3) h.x.inst
  if loading h.x.inst (fld h.w 0 3) then s
  else match takeSpace i (4 * h.c.die + 3) (if twinned h.c then (twinBodies (r.map Prod.fst)).map List.length else []) s with
  | (false, s) => s
  | (true, s) => match (r.filterMap Prod.snd).head? with
    | some (el, enc) => if modeBit h.c 3 then trap i h false 0xE none el enc s else issue r (noteOvf i s)
    | none => issue r s
where
  /-- Issue the writes. -/
  issue (r : List (ShardBlk × Option (Nat × Nat))) (s : State) : State :=
    let bs := r.map Prod.fst
    let tw := if twinned h.c then twinBodies bs else []
    advance1 i h.addr (modInst i (fun n => { n with store := bs, sts := BitVec.ofNat 3 (fld h.w 0 3), stsDone := false, twinLeft := tw }) s)

/-- The twin packets of a chunk are granted onto the reducer port (R280); a twin sub-link that is down makes the twin STALE (R283). -/
def sendTwin (i : InstId) (h : Here) (s : State) : State :=
  match h.x.inst.twinLeft, twinPos h.c with
  | [], _ => s
  | _, none => markStale i.slot.toNat s
  | bodies, some p =>
    if linkLive s p then
      each bodies (fun b s => redCnt h.c.die 0x0F4 1 (sendOne h.c (groupHdr s h.c ptChunk b.length i.step.toNat i.chunk.toNat 0xE false) b p s)) s
    else markStale i.slot.toNat s

/-- An outstanding STS completes: the blocks are written and the twin packets granted (R280, R283). -/
def stsDoneAt (i : InstId) (h : Here) (s : State) : State :=
  let ids := chunkBlks h.c i.step i.chunk.toNat
  if h.x.inst.sts = 0 || h.x.inst.stsDone || blksBusy s h.c ids then s
  else modInst i (fun n => { n with sts := 0, stsDone := true, twinLeft := [] }) (sendTwin i h (countSram h.c.die 0 (planesIn h.x.inst.sts.toNat * planeBytes h.c) <| storeBlks h.c (ids.zip h.x.inst.store) s))

/-! ## UPD (R275 to R277) -/

/-- The gradient of A as UF-48 planes (R276): two CIF-48 blocks aligned by truncation in Muslin; the exact product with the recorded
scale rounded once in Worsted, on the grid that puts the largest magnitude in [2^39, 2^40) (log entry 32). -/
def gradient (h : Here) : List UBlock :=
  match h.x.inst.a with
  | .muslin bs =>
    (List.range (bs.length / 2)).map fun j =>
      let a := (bs[2 * j]?).getD { m := [], x := 0 }
      let b := (bs[2 * j + 1]?).getD { m := [], x := 0 }
      let x := max a.x b.x
      { m := a.m.map (fun v => toGrid v a.x x) ++ b.m.map (fun v => toGrid v b.x x), x := x }
  | _ =>
    let vs := scaledVals h h.x.elems
    (List.range (vs.length / 64)).map fun j =>
      let v := (vs.drop (64 * j)).take 64
      let tops := v.filterMap fun e => if e.1 = 0 then none else some (topExp e.1 e.2)
      match tops with
      | [] => { m := v.map fun _ => 0, x := -2048 }
      | t :: ts =>
        let x := ts.foldl max t - 39
        { m := v.map fun e => let n : Int := roundTo true 0 e.1 e.2 x; if e.1 < 0 then -n else n, x := x }

def wordUpd (i : InstId) (h : Here) (chk : Checks) (s : State) : State :=
  let rule := fld h.w 3 2
  let base := fld h.w 0 3
  let raws := (List.range (ruleCount rule)).map fun j => srcWord h (base + j)
  let scs := raws.map (useScalar h.c)
  let stops := (scs.zip raws).filterMap fun e => match e.1 with | .inl nan => some (nan, e.2) | .inr _ => none
  if loading h.x.inst (rulePlanes rule) then s
  else match (match stops.find? Prod.fst with | some e => some e | none => stops.head?) with
  | some (nan, w) => trap i h nan 7 none 0 w.toNat s
  | none =>
    let k (j : Nat) : Int × Int := match scs[j]? with | some (.inr (v, _)) => v | _ => (0, 0)
    let infs := (scs.filter fun e => match e with | .inr (_, inf) => inf | _ => false).length
    let s := iff (infs ≠ 0) (noteOvf i) s
    let der := (h.t.derived).getD (if rule = 1 then [oneMinus (k 2), oneMinus (k 3), scalarMul (k 6) (k 6), scalarMul (k 1) (k 7)] else [])
    let d (j : Nat) : Int × Int := der.getD j (0, 0)
    let gs := gradient h
    let pl (p : Option (List UBlock)) (j : Nat) : UBlock := ((p.getD [])[j]?).getD { m := List.replicate 64 0, x := -2048 }
    let n := h.x.inst
    let out := (gs.zip (List.range gs.length)).map fun e =>
      let (a, j) := e
      if rule = 0 then let r := sgdm a (pl n.w j) (pl n.m1 j) (k 0) (k 1) (k 2) (k 3); (r.1, r.2, pl n.m2 j)
      else admw a (pl n.w j) (pl n.m1 j) (pl n.m2 j) (k 0) (k 1) (k 2) (k 3) (k 4) (k 5) (d 0) (d 1) (d 2) (d 3)
    let s := modStepOf i (fun t => { t with derived := some der }) s
    let moved := planesIn (rulePlanes rule) * planeBytes h.c
    let s := countSram h.c.die 1 moved (countSram h.c.die 0 moved (redCnt h.c.die 0x0F0 gs.length s))
    checkWord h.c.die chk (fun _ => false) (advance1 i h.addr (modInst i (fun n =>
      { n with w := some (out.map fun o => o.1), m1 := some (out.map fun o => o.2.1), m2 := if rule = 0 then n.m2 else some (out.map fun o => o.2.2) }) s))

/-! ## END (R252, R254) -/

/-- END: the instance is over and its working state is free; a context that is deleted once its instances have ended is freed. -/
def wordEnd (i : InstId) (h : Here) (s : State) : State :=
  if h.x.inst.sts ≠ 0 && !h.x.inst.stsDone then s
  else freeIfDeleting i.slot.toNat (dropChunk i (redCnt h.c.die 0x0D8 1 s))

/-! ## Running a word -/

/-- The effect of the word an instance stands at; with its first word it has started. -/
def runWord (i : InstId) (h : Here) (chk : Checks) (s : State) : State :=
  let s := modInst i (fun n => { n with started := true }) s
  match wOp h.w with
  | 0x01 => wordHold i h s
  | 0x02 | 0x03 => accumulate i h h.addr chk s
  | 0x04 => wordScl i h chk s
  | 0x05 => wordCast i h chk s
  | 0x06 => wordEmit i h s
  | 0x07 => wordFan i h s
  | 0x08 => wordLds i h s
  | 0x09 => wordSts i h s
  | 0x0A => wordUpd i h chk s
  | 0x0B => wordNorm i h chk s
  | 0x0C => wordDig i h s
  | 0x0D => wordHold i h s
  | 0x0E => wordSeed i h s
  | 0x0F => wordEnd i h s
  | _ => advance1 i h.addr s

/-- The word of an opcode, if the instance stands at one and it is not single-stepped; f narrows the words meant. -/
def onWord (op : Nat) (f : Word → Bool) (i : InstId) (chk : Checks) (s : State) : State :=
  match hereOf s i with
  | none => s
  | some h => if wOp h.w ≠ op || !f h.w then s else if stepped s i h then haltAt i h s else runWord i h chk s

/-- ACC or ACCX: at the word itself, or for a later contribution while the instance is in its contribution section (R250). -/
def onAcc (op : Nat) (i : InstId) (chk : Checks) (s : State) : State :=
  match hereOf s i with
  | none => s
  | some h =>
    match accWord h.c h.ws with
    | none => s
    | some (a, w) =>
      if wOp w ≠ op || h.addr < a || h.addr > waitAddr h.ws then s
      else accumulate i { h with w := w } a chk (modInst i (fun n => { n with started := true }) s)

/-! ## The commands -/

/-- NOP (R254). -/
def execNopInstruction (i : InstId) (st : State) : Outcome := .next <| onWord opcNop (fun _ => true) i [] st
/-- WAIT COMPLETE (R250, R254). -/
def execWaitComplete (i : InstId) (st : State) : Outcome := .next <| onWord opcWait (fun w => fld w 0 2 == 0) i [] st
/-- WAIT PREV (R254). -/
def execWaitPrev (i : InstId) (st : State) : Outcome := .next <| onWord opcWait (fun w => fld w 0 2 == 1) i [] st

/-- WAIT_RELEASE (R250): what an instance waits for has come. -/
def execWaitRelease (i : InstId) (st : State) : Outcome :=
  .next <| match hereOf st i with
    | some h => if h.x.inst.waiting && holdOver h i.chunk.toNat then advance1 i h.addr st else st
    | none => st

/-- ACC (R223, R254). -/
def execAcc (i : InstId) (chk : Checks) (st : State) : Outcome := .next <| onAcc opcAcc i chk st
/-- ACCX (R229, R254). -/
def execAccx (i : InstId) (chk : Checks) (st : State) : Outcome := .next <| onAcc opcAccx i chk st
/-- SCL (R227, R228). -/
def execScl (i : InstId) (chk : Checks) (st : State) : Outcome := .next <| onWord opcScl (fun _ => true) i chk st
/-- CAST (R231 to R236). -/
def execCast (i : InstId) (chk : Checks) (st : State) : Outcome := .next <| onWord opcCast (fun _ => true) i chk st
/-- EMIT (R254): issued; its grant is EMIT_GRANT. -/
def execEmit (i : InstId) (st : State) : Outcome := .next <| onWord opcEmit (fun _ => true) i [] st
/-- FAN (R254): issued; its grant is FAN_GRANT. -/
def execFan (i : InstId) (st : State) : Outcome := .next <| onWord opcFan (fun _ => true) i [] st
/-- LDS (R252, R254). -/
def execLds (i : InstId) (st : State) : Outcome := .next <| onWord opcLds (fun _ => true) i [] st

/-- LDS_COMPLETE (R252, R310). -/
def execLdsComplete (i : InstId) (cw : List (Nat × CwResult)) (st : State) : Outcome :=
  .next <| match hereOf st i with | some h => ldsDone i h cw st | none => st

/-- STS (R268). -/
def execSts (i : InstId) (st : State) : Outcome := .next <| onWord opcSts (fun _ => true) i [] st

/-- STS_COMPLETE (R280). -/
def execStsComplete (i : InstId) (st : State) : Outcome :=
  .next <| match hereOf st i with | some h => stsDoneAt i h st | none => st

/-- UPD (R277). -/
def execUpd (i : InstId) (chk : Checks) (st : State) : Outcome := .next <| onWord opcUpd (fun _ => true) i chk st
/-- NORM (R254). -/
def execNorm (i : InstId) (chk : Checks) (st : State) : Outcome := .next <| onWord opcNorm (fun _ => true) i chk st
/-- DIG (R295). -/
def execDig (i : InstId) (st : State) : Outcome := .next <| onWord opcDig (fun _ => true) i [] st
/-- BAR (R254, R257). -/
def execBar (i : InstId) (st : State) : Outcome := .next <| onWord opcBar (fun _ => true) i [] st
/-- SEED (R254, R255). -/
def execSeed (i : InstId) (st : State) : Outcome := .next <| onWord opcSeed (fun _ => true) i [] st
/-- END (R252, R254). -/
def execEndWord (i : InstId) (st : State) : Outcome := .next <| onWord opcEnd (fun _ => true) i [] st

/-- EMIT_GRANT (R150, R197). -/
def execEmitGrant (i : InstId) (st : State) : Outcome := .next <| match hereOf st i with | some h => emitGrant i h st | none => st
/-- FAN_GRANT (R150, R200). -/
def execFanGrant (i : InstId) (st : State) : Outcome := .next <| match hereOf st i with | some h => fanGrant i h st | none => st

/-- PROGRAM_STORE_WRITE (R245, R246). -/
def execProgramStoreWrite (a : BitVec 14) (w : Word) (st : State) : Outcome := .next <| if mgmtUp st then progWrite a.toNat w st else st

/-- A write of PSTEP_CTL's EN and SLOT (R260, R262). -/
def pstepPut (x : Nat) (val : Word) (s : State) : State :=
  let s := if bitOf val 31 && (redOf s x).pstepSlot == val.setWidth 18 then s else unhalt x s
  modRed x (fun r => { r with pstepEn := bitOf val 31, pstepSlot := val.setWidth 18 }) s

/-- PSTEP_EN_WRITE (R260, R262). -/
def execPstepEnWrite (x : RedDie) (val : Word) (st : State) : Outcome :=
  .next <| if !mgmtUp st then st else if redLive st x then pstepPut x val st else offAccess (domQuad x 0) 1 (0x8000C4 + 0x40000 * x) st

/-- A write of GO: the halted instance runs one word; when it has ended the halt is over (R260). -/
def pstepGo (x : Nat) (s : State) : State :=
  match (redOf s x).halted with
  | none => s
  | some i => match hereOf s i with
    | none => unhalt x s
    | some h => runWord i h [] s

/-- PSTEP_GO (R260). -/
def execPstepGo (x : RedDie) (st : State) : Outcome :=
  .next <| if !mgmtUp st then st else if redLive st x then pstepGo x st else offAccess (domQuad x 0) 1 (0x8000C4 + 0x40000 * x) st

end Sys2Proof.Machine
end

