-- ==== Sys2Proof/Machine/Coppice.lean ====
section
/-! DEFINITION. Twins and the promotion of a twin (R281 to R285), pacing (R298 to R302), and the reports between switches that
concern them. -/

namespace Sys2Proof.Machine

/-! ## Twin writes (R281, R285) -/

/-- The whole blocks of a twin write. -/
def twinBlks (body : List Byte) : List ShardBlk := (List.range (body.length / 528)).map fun j => blkOf (sub body (528 * j) 528)

/-- A twin write at the twin: blocks written, or dropped and counted, with the twin marked STALE. -/
def twinAt (slot : Nat) (p : Pkt) (s : State) : State :=
  match ctxOf s slot with
  | none => s
  | some c =>
    let bs := twinBlks p.body
    let ok := chunkBlks c (pktStep p) (hChunk p.hdr)
    if c.st == .moving || c.st == .lost || c.die ≠ cpTwinDie c.spec.coppice || shardDown s c then redCnt c.die 0x0FC 1 s
    else if p.body.length % 528 ≠ 0 || bs.any (fun b => !ok.contains b.blk.toNat) then
      let s := redCnt c.die 0x0FC 1 s
      let s := modCtx slot (fun c => { c with twin := .stale }) s
      logEvent 0x2043 3 (256 * c.die) (bytesLE 3 c.spec.group.toNat) s
    else
      redCnt c.die 0x0F8 1 (storeBlks c (bs.map fun b => (b.blk.toNat, b)) s)

/-- TWIN_WRITE (R281). -/
def execTwinWrite (x : RedDie) (st : State) : Outcome :=
  .next <| onChunk x (fun _ c pos p => isTwinWrite c pos p) twinAt st

/-- SHARD_LOST_REPORT (R283, R285): the twin of a group whose root is here has lost its shard. -/
def execShardLostReport (group : GroupId) (st : State) : Outcome :=
  .next <| match slotOf st group with
    | some slot => match ctxOf st slot with
      | some c => if alive st && c.spec.isRoot then markStale slot st else st
      | none => st
    | none => st

/-! ## Promotion (R284) -/

/-- A descriptor with the twin as root and the old root as its child. -/
def rerootDesc (d : Desc) : Desc :=
  let tw : Coord := BitVec.ofNat 16 (cpTwinCoord d.coppice)
  { d with
    root := tw
    coppice := (setFld (setFld (setFld d.coppice 127 1 0) 120 2 (cpTwinDie d.coppice)) 0 32 0)
    switches := d.switches.map fun w =>
      if w.coord = tw then { w with root := true }
      else if w.root then { w with root := false, parent := tw, parentPos := cpTwinUp d.coppice }
      else w }

/-- A context's bytes of R269 after the promotion: no twin, the shard on the twin's die. -/
def rerootBytes (w : BitVec 128) : BitVec 128 := setFld (setFld (setFld w 127 1 0) 120 2 (cpTwinDie w)) 0 32 0

/-- The switch identifier registered at a coordinate. -/
def switchId (s : State) (c : Coord) : Nat := (((regRecs s).find? fun e => e.2.isSwitch && e.2.coord == c).map Prod.fst).getD 0

/-- The payload of GROUP_REROOTED (R394), fields most significant byte first (log entry 33). -/
def rerootNotice (group : GroupId) (root : Coord) (id : Nat) : List Byte :=
  [0x03, 0, 0, 0] ++ bytesBE 2 1 ++ bytesBE 3 group.toNat ++ [0] ++ bytesBE 2 root.toNat ++ bytesBE 4 id

/-- The manager's part: its registry, the notice to the leader, and the event. -/
def rerootMgr (group : GroupId) (s : State) : State :=
  match tget none s.mgr.groups group.toNat with
  | none => s
  | some g =>
    if !g.live || !cpTwin g.desc.coppice then s
    else
      let d := rerootDesc g.desc
      let s := modMgr (fun m => { m with groups := tset none m.groups group.toNat (some { g with desc := d }) }) s
      let s := sendMgmt (fld d.leader 0 20) (rerootNotice group d.root (switchId s d.root)) s
      logMb 0x2042 (bytesLE 3 group.toNat) s

/-- The old root's part: its open steps end CONTEXT_LOST, held STEP_ENDs leave, held STEP_STARTs are answered, and the context is a child of the
twin, rebuilt if its die was lost. -/
def rerootOld (slot height : Nat) (s : State) : State :=
  match ctxOf s slot with
  | none => s
  | some c =>
    let s := each ((openSteps c).map Step.num) (fun n s => failLost slot n false s) s
    let s := each ((c.steps.filter fun t => !owesTwin c t).map Step.num) (releaseEnd slot) s
    let answer (num : StepNo) (s : State) : State := answerLeader c stContextLost (ownDetail s) num s
    let s := each (c.held.filter HeldCtrl.start) (fun h => answer h.num) s
    let s := each c.ready.toList (fun r => answer r.num) s
    let up := twinPos c
    let a := { c.spec with
      isRoot := false, upCoord := BitVec.ofNat 16 (cpTwinCoord c.spec.coppice), upPos := cpTwinUp c.spec.coppice
      children := c.spec.children.filter fun ch => some ch.pos ≠ up
      coppice := rerootBytes c.spec.coppice, height := height }
    let s := modCtx slot (fun c => settleSt { c with spec := a, up := up, twin := .promoted, held := [], ready := none }) s
    if c.st = .moving then settleMoved slot (rehome slot s) else s

/-- The twin's part: it is the root, with the old root as a child through TWIN_UP toward every member that is not under it. -/
def rerootNew (slot height : Nat) (s : State) : State :=
  match ctxOf s slot with
  | none => s
  | some c =>
    let detail := detailOf c.spec.upCoord.toNat 0 0 0 0
    let s := each (openSteps c) (fun t s => closeStep slot t.num stContextLost detail none (sendEnd c t stContextLost detail s)) s
    let own := c.spec.children.flatMap ChildSpec.ranks
    let ch : ChildSpec := { pos := cpTwinUp c.spec.coppice, isSwitch := true, id := 0, coord := c.spec.upCoord,
                            ranks := (List.range c.spec.nMembers).filter fun r => !own.contains r }
    let a := { c.spec with isRoot := true, upCoord := 0, upPos := 0, children := insChild ch c.spec.children, coppice := rerootBytes c.spec.coppice, height := height }
    modCtx slot (fun c => { c with spec := a, up := none, isTwin := false, twin := .none, lastAcc := none, stopHeld := false }) s

/-- May a switch take part in the promotion of a group's twin: does it not know the twin to be STALE (R283)? -/
def mayPromote (s : State) (group : GroupId) : Bool :=
  match (slotOf s group).bind (ctxOf s) with
  | some c => c.spec.op.toNat != opCoppice || (if c.spec.isRoot then usableTwin c else !c.isTwin || c.twin != .stale)
  | none => true

/-- GROUP_REROOT (R284): the manager promotes the twin of a group; each switch concerned takes its part. height is the context's in
the new tree. -/
def execGroupReroot (group : GroupId) (height : Nat) (st : State) : Outcome :=
  .next <|
    if !alive st || !mayPromote st group then st
    else
      let st := if isMgr st then rerootMgr group st else st
      match slotOf st group with
      | none => st
      | some slot => match ctxOf st slot with
        | none => st
        | some c =>
          if c.spec.op.toNat ≠ opCoppice || !cpTwin c.spec.coppice then st
          else if c.spec.isRoot then rerootOld slot height st
          else if c.isTwin then rerootNew slot height st
          else st

/-! ## Pacing (R297 to R302) -/

/-- The first pace instant of a group at or after t, in ns (R297). -/
def instantFrom (c : Ctx) (t : Nat) : Nat := let p := max 1 c.spec.paceNs; cdiv t p * p

/-- The first pace instant 1.5 µs or more after a READY step's STEP_START came, in ns (R298). -/
def firstInstant (c : Ctx) (r : Ready) : Nat := instantFrom c (cdiv r.arrived.toNat 65536 + 1500)

/-- The pace instant at which a READY step may open, in ns: at or after that one, the time two steps were open, and now (R298). -/
def openInstant (s : State) (c : Ctx) (r : Ready) : Nat := instantFrom c (max (firstInstant c r) (max r.after (cdiv (fabT s).toNat 65536)))

/-- PACE_INSTANT (R298): a READY step opens at its pace instant with fewer than two steps open; one that two open steps kept waiting past its
first instant is counted. -/
def execPaceInstant (slot : Slot) (st : State) : Outcome :=
  .next <|
    match (ctxOf st slot.toNat).bind fun c => c.ready.map fun r => (c, r) with
    | none => st
    | some (c, r) =>
      if !alive st || !isPaced c || !mayOpen st c || !st.tim.running then st
      else
        let t := openInstant st c r
        openReady slot.toNat (BitVec.ofNat 80 (65536 * t)) (iff (decide (firstInstant c r < r.after)) (redCnt c.die 0x120 1) (fabTo t st))

/-- STEP_END_RELEASE (R282, R299): a STEP_END held for twin packets or for its instant leaves. -/
def execStepEndRelease (slot : Slot) (step : StepNo) (st : State) : Outcome :=
  .next <|
    match (ctxOf st slot.toNat).bind fun c => (c.steps.find? fun t => t.num = step ∧ t.endHeld.isSome).map fun t => (c, t) with
    | none => st
    | some (c, t) =>
      let due := (t.endHeld.map fun e => e.2.toNat).getD 0
      if !alive st || c.st == .moving || owesTwin c t then st
      else
        let st := fabTo due st
        if (fabNs st).toNat < due then st else releaseEnd slot.toNat step st

/-- Does the junction of a die count for the paced envelope: a fabric die's, or an enabled reduction die's (R301)? -/
def envelopeDie (s : State) (die : Nat) : Bool := decide (die < 4) || redEnabled s (die - 4)

/-- PACE_LAPSE_TEMPERATURE (R302): a die's junction temperature is measured; above 95 °C the paced contexts lapse. -/
def execPaceLapseTemperature (die : Fin 8) (temp : Byte) (st : State) : Outcome :=
  .next <|
    if !alive st then st
    else
      let st := modPwr (fun p => { p with tj := tset 0 p.tj die temp }) st
      if temp.toNat > 95 ∧ envelopeDie st die then lapseAll (fun _ => true) 2 st else st

end Sys2Proof.Machine
end

