-- ==== Sys2Proof/Machine/Memory.lean ====
section
/-! DEFINITION. The DRAM stacks and the reduction SRAM: error correction, spare rows and the scrubs (R308 to R317). -/

namespace Sys2Proof.Machine

/-- Twenty-four hours in ns (R313). -/
def dayNs : Nat := 86400000000000

/-- Codewords of a stack: 2^36 B in 64 B codewords (R306, R308). -/
def scrubWords : Nat := 2 ^ 30

/-- The scrub is behind: its completed fraction is less than the elapsed fraction of the day (R313). -/
def scrubBehind (s : State) (k : MemSt) : Bool := decide (k.pos * dayNs < scrubWords * (s.clock - k.passAt))

/-- Could the pass not end in time at 1 slot in 100 (R314)? A slot in 100 gives 20.5 GB/s, which is 128 ÷ 41 ns a codeword. -/
def scrubTooSlow (s : State) (k : MemSt) : Bool :=
  decide (128 * (scrubWords - k.pos) > 41 * (dayNs - (s.clock - k.passAt)))

/-- Set or clear the boost of a stack's scrub (R314, R315). -/
def scrubPace (m : Nat) (s : State) : State :=
  let k := stackOf s m
  if !scrubBehind s k then modStack m (fun k => { k with boost := false }) s
  else if !k.boost && scrubTooSlow s k then logEvent 0x3020 4 m [] (modStack m (fun k => { k with boost := true }) s)
  else s

/-- A codeword is read by a scrub at an offset (R308, R310, R326): a corrected one is written back, one that is not is left as it is. -/
def scrubResultAt (m at_ : Nat) (r : CwResult) (s : State) : State :=
  match cwRead m at_ 64 3 r s with
  | (.clean, s) => s
  | (.corrected _, s) => countBytes (17 + 2 * m) 64 (memCnt m 0x108 1 s)
  | (.uncorrectable, s) => memCnt m 0x10C 1 s

/-- The scrub moves to the next codeword, or ends its pass and begins the next (R313). -/
def scrubNext (m : Nat) (s : State) : State :=
  modStack m (fun k =>
    if k.pos + 1 < scrubWords then { k with pos := k.pos + 1 }
    else { k with pos := 0, passAt := s.clock, passes := k.passes + 1, boost := false }) s

/-- The scrub's slots in 100 while it is behind (R314, R315). -/
def scrubShare (k : MemSt) : Nat := if k.boost then 3 else 1

/-- The share of contended slots after n foreground slots: each gives the scrub its hundredths; kept only while the scrub is behind (R314). -/
def shareAfter (k : MemSt) (n : Nat) : Nat := min (k.share + n * scrubShare k) 100

/-- May the scrub of a stack take a slot (R313 to R315)? An idle one always; one that the foreground contends for, n foreground slots after the
last it asked for, when it is behind and its share has come to a slot. A row being spared makes it wait. -/
def scrubMay (s : State) (m : Nat) (contended : Option Nat) : Bool :=
  let k := stackOf s m
  alive s && stackUp s m && k.scrubEn && !k.paused && !rowBusy s m (64 * k.pos) 64 && (match contended with
    | none => true
    | some n => scrubBehind s k && decide (shareAfter k n + scrubShare k ≥ 100))

/-- The share that a slot leaves: a contended one taken costs what it had to gather. -/
def takeShare (m : Nat) (contended : Option Nat) (took : Bool) (s : State) : State :=
  match contended with
  | none => s
  | some n => modStack m (fun k => { k with share := if !scrubBehind s k then 0 else if took then shareAfter k n + scrubShare k - 100 else shareAfter k n }) s

/-- A row is to be spared (R311). -/
def rowDue (corrected : Nat) (previous : Bool) : Bool := decide (16 ≤ corrected) || (decide (1 ≤ corrected) && previous)

/-- A context record or window slot is lost (R317): its open steps end CONTEXT_LOST, and the context is rebuilt in the same slot on the same
die; its state stays otherwise as it is. -/
def rebuildHere (slot : Nat) (s : State) : State :=
  match ctxOf s slot with
  | none => s
  | some c =>
    let s := each ((openSteps c).map Step.num) (fun n s => failLost slot n false s) s
    loseClosed slot false s

/-- A double-bit error in an SRAM word (R317): what it does depends on where it lies. -/
def sramDouble (x ofs : Nat) (place : SramPlace) (s : State) : State :=
  match place with
  | .context slot => iff ((ctxOf s slot.toNat).any fun c => c.die == x) (rebuildHere slot.toNat) s
  | .poolBuffer slot step => iff ((ctxOf s slot.toNat).any fun c => c.die == x) (failLost slot.toNat step false) s
  | .programStore a => modRed x (fun r => { r with prog := tset 0 r.prog a.toNat (tget 0 s.cmd.progCopy a.toNat) }) s
  | .unallocated => { s with mem := { s.mem with sram := wrBytes s.mem.sram (x * 2 ^ 29 + ofs / 8 * 8) (List.replicate 8 0) } }

/-- What SECDED makes of a word with check bits inverted by an injection (R424): one bit is corrected, two are not; beyond two it is
open (log entry 2). -/
def injectSecDed (x : Nat) (r : SecDed) (s : State) : SecDed × Bool × State :=
  let f := s.flt
  if !(f.injActive && f.injBlock == 3#8 && f.injInst.toNat / 256 == x && f.injChecker == 1#8) then (r, false, s)
  else
    let n := popc (BitVec.ofNat 8 f.injMask.toNat)
    let s := injSpent s
    let (v, s) := if n > 2 then draw s else (0, s)
    if n = 0 then (r, false, s)
    else match r with
      | .double => (.double, true, s)
      | _ => (if n = 1 then .single else if n = 2 || v.getLsbD 0 then .double else .single, true, s)

/-! ## The commands -/

/-- DIE_MARKED (R309, R312): a memory die that meets the test is marked; a second one makes the stack lost. -/
def execDieMarked (m : Stack) (memDie : Fin 15) (st : State) : Outcome :=
  .next <|
    let k := stackOf st m
    if !alive st || !stackUp st m || k.marked.toNat = memDie.val || !dieDue st m memDie then st
    else if k.marked = 15 then logEvent 0x3003 4 m [] (modStack m (fun k => { k with marked := BitVec.ofNat 4 memDie }) st)
    else loseStack m st

/-- ROW_SPARE (R311): a row begins to be spared while spare rows are left for it. -/
def execRowSpare (m : Stack) (row corrected : Nat) (previous : Bool) (st : State) : Outcome :=
  .next <|
    let k := stackOf st m
    if alive st && stackUp st m && rowDue corrected previous && !k.sparing.contains row && decide (k.sparing.length < k.sparesLeft.toNat) then
      modStack m (fun k => { k with sparing := k.sparing ++ [row] }) st
    else st

/-- ROW_SPARE_DONE (R311): the row is remapped; with 64 spares left that is logged too. -/
def execRowSpareDone (m : Stack) (row : Nat) (st : State) : Outcome :=
  .next <|
    if !alive st || !(stackOf st m).sparing.contains row then st
    else
      let st := modStack m (fun k => { k with sparing := k.sparing.filter (· != row), sparesLeft := k.sparesLeft - 1, rowsSpared := k.rowsSpared + 1 }) st
      let st := logEvent 0x3004 4 m [] st
      if (stackOf st m).sparesLeft = 64 then logEvent 0x3005 4 m [] st else st

/-- PATROL_SCRUB_SLOT (R313, R314): one codeword is read in a slot that is idle, or that the scrub's share gives it. -/
def execPatrolScrubSlot (m : Stack) (r : CwResult) (contended : Option Nat) (st : State) : Outcome :=
  .next <|
    if !alive st || !stackUp st m then st
    else
      let st := scrubPace m st
      let may := scrubMay st m contended
      let pos := 64 * (stackOf st m).pos
      let st := takeShare m contended may st
      if may then scrubPace m (scrubNext m (scrubResultAt m pos r (countBytes (16 + 2 * m) 64 st))) else st

/-- SCRUB_LATE (R315): a pass has not ended at 24 hours. It is marked once a pass. -/
def execScrubLate (m : Stack) (st : State) : Outcome :=
  .next <|
    let k := stackOf st m
    if alive st && (stackOf st m).live && k.lateFor != some k.passes then
      logEvent 0x3021 4 m [] (modStack m (fun k => { k with late := true, lateFor := some k.passes, boost := k.scrubEn }) (clockTo (k.passAt + dayNs) st))
    else st

/-- SRAM_SCRUB (R316, R317): one word of a die's SRAM is read. -/
def execSramScrub (x : RedDie) (ofs : BitVec 29) (r : SecDed) (place : SramPlace) (st : State) : Outcome :=
  .next <|
    if !alive st || !redLive st x then st
    else
      let (r, inj, st) := injectSecDed x r st
      match r with
      | .clean => st
      | .single => logEvent' 0x3010 3 (256 * x) [] 3 ofs.toNat inj (redCnt x 0x130 1 st)
      | .double => sramDouble x ofs.toNat place (logEvent' 0x3011 3 (256 * x) [] 3 ofs.toNat inj (redCnt x 0x134 1 st))

/-- STACK_LOST (R312). -/
def execStackLost (m : Stack) (cause : LossCause) (st : State) : Outcome :=
  .next <| match cause with
    | .laneCheck => st
    | _ => if alive st then loseStack m st else st

end Sys2Proof.Machine
end

