-- ==== Sys2Proof/Machine/Link.lean ====
section
/-! DEFINITION. The running link (chapter 2): control slots, flits, acknowledgement and replay, strand loss and wavelength
rotation. -/

namespace Sys2Proof.Machine

/-! ## Byte counters of R457 on links -/

/-- A 256 B slot on a sub-link: its share on each live strand, in units of 1/12 bit (log entry 20). dir 0 sent, 1 received. -/
def countSlot (k dir : Nat) (s : State) : State :=
  let qs := liveStrands s k
  each qs (fun q => countBytes (1024 + 2 * q + dir) (2048 * 12 / qs.length)) s

/-- A flit that is not NULL, on a port and VC. -/
def countFlit (k v dir : Nat) (s : State) : State :=
  countBytes (4096 + 2 * (8 * (k / 4) + v) + dir) 256 (countBytes (64 + 2 * (k / 4) + dir) 256 s)

/-! ## Control slots (R40) -/

/-- HEALTH as this end sees it: c present, and the wavelengths it receives cleanly. -/
def healthWord (s : State) (k : Nat) : BitVec 16 :=
  maskOf 16 ((strandPos s k).flatMap fun q =>
    let x := strandOf s q
    if x.cLost then [] else (4 * (q % 4)) :: ([1, 2, 3].filter fun w => bitOf x.clean w).map (4 * (q % 4) + ·))

/-- RET: strands retired and strands without c. -/
def retByte (s : State) (k : Nat) : Byte :=
  maskOf 8 (((strandPos s k).filter fun q => (strandOf s q).outOfUse).map (fun q => 4 + q % 4) ++
    ((strandPos s k).filter fun q => (strandOf s q).cLost).map (· % 4))

/-- The STATE a sub-link sends: what it asks for, or where it is (R65). -/
def stateSent (l : SubLink) : Nat := linkCode (l.lpWant.getD l.st)

/-- TS1 of strand q (R59); byte 4 says whether its sp is usable. -/
def ts1Msg (s : State) (q : Nat) : List Byte :=
  [1, 1, BitVec.ofNat 8 (q % 4), (portOf s (q / 4)).breakout.setWidth 8, BitVec.ofNat 8 (b2n (!bitOf (strandOf s q).released 3))]

/-- What strand q of sub-link k sends in TRAIN: TS1 while the strand or its sub-link is in the first steps of training (R58), else the
sub-link's message. -/
def trainSent (s : State) (k q : Nat) : List Byte :=
  let x := strandOf s q
  let early (st : LinkSt) : Bool := match st with | .clock | .eq | .align => true | _ => false
  if x.alone || early x.st || early (linkOf s k).st then ts1Msg s q else (linkOf s k).train

/-- The bytes of a control slot on one lane (R40). -/
def slotBytes (s : State) (k q lane : Nat) : List Byte :=
  let l := linkOf s k
  let body := bytesBE 8 0xA5C30FF0E1963C5A ++ [BitVec.ofNat 8 (4 * (q % 4) + lane), BitVec.ofNat 8 (stateSent l)] ++
    bytesBE 2 l.csc.toNat ++ bytesBE 3 (l.rxSeq - 1).toNat ++ [if l.nakPend then 1 else 0] ++
    (List.range 8).flatMap (fun v => bytesBE 2 (tget 0 (credShown s k) v).toNat) ++ bytesBE 2 (healthWord s k).toNat ++
    [(strandOf s q).rot, retByte s k] ++ sub (trainSent s k q) 0 64 ++ List.replicate 148 0
  body ++ bytesBE 8 (crc64 body).toNat

/-- May control slots run on a sub-link's strands in use? Not while its transmitter is dark or in electrical idle; in DOZE only for the
handshake of Dark (R58, R65). -/
def slotsRun (l : SubLink) : Bool :=
  match l.st with
  | .clock | .eq | .align | .config | .assign | .register | .active | .quarantine => true
  | .idle => !l.idleTx
  | .doze => l.lpWant.isSome
  | .down | .dark => false

/-- The strands that carry slots, each from EQ on (R58): those in use, and those training alone (R54). -/
def slotStrands (s : State) (k : Nat) : List Nat :=
  (strandPos s k).filter fun q => let x := strandOf s q
    !x.cLost && (match x.st with | .down | .dark | .clock => false | _ => true) && (x.alone || (!x.outOfUse && slotsRun (linkOf s k)))

/-- The CRC bits that an armed injection inverts on a port's transmitter (R423, R424): checker 0 flits, 1 control slots. -/
def injectCrc (p chk : Nat) (s : State) : BitVec 16 × State :=
  match injFire 0 p chk s with
  | (some w, s) => (w.setWidth 16, s)
  | (none, s) => (0, s)

/-- Invert low bits of the CRC-64 that ends a slot. -/
def invertCrc (x : BitVec 16) (bs : List Byte) : List Byte :=
  if x = 0 then bs else bs.take 254 ++ bytesBE 2 (BitVec.ofNat 16 (be bs 254 2) ^^^ x).toNat

/-- A flit leaves on a sub-link. -/
def sendFlit (k : Nat) (f : Flit) (s : State) : State :=
  let (x, s) := injectCrc (k / 4) 0 s
  emit (.flit k f x) s

/-- A control slot has gone: a rotation request it carried is with the partner (R55). -/
def rotSent (x : StrandSt) : StrandSt := if x.rotating.isSome && x.rotStage == 0 then { x with rotStage := 1 } else x

/-- A credit return waits for the next control slot (R46, R65). -/
def creditPending (s : State) (k : Nat) : Bool := credShown s k != (linkOf s k).credSent

/-- One control slot on every lane of a sub-link, with the next CSC (R39, R40); in ACTIVE what TRAIN still carries goes once (log entry 108). -/
def sendSlots (k : Nat) (s : State) : State :=
  let s := modLink k (fun l => { l with csc := l.csc + 1 }) s
  let c := credShown s k
  let owed := creditPending s k
  let s := each (slotStrands s k) (fun q a => each (lanesOf a q) (fun lane a =>
    let (x, a) := injectCrc (k / 4) 1 a
    countBytes (1024 + 2 * q) (2048 * 12) (emit (.slot q lane (invertCrc x (slotBytes a k q lane))) a)) a) s
  let s := each (slotStrands s k) (fun q => modStrand q rotSent) s
  modLink k (fun l => { l with nakPend := false, credSent := c, train := if l.st = .active then [] else l.train,
                               emptyAt := if owed && l.replay.isEmpty then s.clock else l.emptyAt }) s

/-- CONTROL_SLOT_SEND (R39, R40). -/
def execControlSlotSend (p : Port) (s : Strand) (st : State) : Outcome :=
  let k := subKey st p s
  .next <| if portOn st p && !(slotStrands st k).isEmpty then sendSlots k st else st

/-- Does a strand run on d0 alone (R37, R68)? -/
def d0Strand (s : State) (q : Nat) : Bool := bitOf (portOf s (q / 4)).d0Only (q % 4) && (strandsIn s (q / 4) (q % 4)).length == 1

/-- The spare that a lane of a strand may move to (R37, R56): sp, or on a D0_ONLY strand d1 first. -/
def spareFor (s : State) (q : Nat) : Option Nat :=
  let x := strandOf s q
  let used w := x.wl0.toNat = w || x.wl1.toNat = w
  let d0 := d0Strand s q
  (if d0 then [2, 3] else [3]).find? fun w => !used w && !bitOf x.released w

/-- The lanes of a strand that begins to train (R31, R37): d0 and d1 on their own wavelengths, on a spare where theirs is released for good, none
where no spare is left (R56). -/
def startLanes (d0 : Bool) (x : StrandSt) : StrandSt :=
  let sp : BitVec 2 := if bitOf x.released 3 then 0 else 3
  let w0 : BitVec 2 := if !bitOf x.released 1 then 1 else if d0 && !bitOf x.released 2 then 2 else sp
  let w1 : BitVec 2 := if d0 then 0 else if !bitOf x.released 2 then 2 else if w0 = 3 then 0 else sp
  { x with wl0 := w0, wl1 := w1, rotating := none, rotStage := 0, recal := none, rot := 0, clean := 0, due := [], misses := 0 }

/-- The wavelengths of a strand that has aligned: all that are not released (R58). -/
def aligned (x : StrandSt) : BitVec 4 := maskOf 4 ([1, 2, 3].filter fun w => !bitOf x.released w)

/-- The wavelength that carries a lane now, 0 none. -/
def laneWl (x : StrandSt) (lane : Nat) : Nat := if lane = 0 then x.wl0.toNat else x.wl1.toNat

/-- Put a lane on a wavelength. -/
def setLane (x : StrandSt) (lane w : Nat) : StrandSt :=
  if lane = 0 then { x with wl0 := BitVec.ofNat 2 w } else { x with wl1 := BitVec.ofNat 2 w }

/-- The partner's rotation request: move the lane it names onto the spare, or back (R55). -/
def rotateTx (k : Nat) (rot : Byte) (s : State) : State :=
  let q := 4 * (k / 4) + fld rot 4 2
  let w := fld rot 2 2
  let x := strandOf s q
  if !decide (q ∈ strandPos s k) || x.outOfUse then s
  else match fld rot 6 2 with
    | 1 =>
      match [0, 1].find? (fun lane => laneWl x lane = w && w ≠ 0), spareFor s q with
      | some lane, some sp => portCnt (k / 4) 0x11C 1 (modStrand q (fun x => setLane x lane sp) s)
      | _, _ => s
    | 2 =>
      let lane := w - 1
      if (w = 1 ∨ w = 2) ∧ laneWl x lane ≠ w ∧ laneWl x lane ≠ 0 then
        portCnt (k / 4) 0x11C 1 (modStrand q (fun x => setLane x lane w) s)
      else s
    | _ => s

/-- The lane that a strand rotates takes its new wavelength and the old one is released (R55); the spare may have been released since. -/
def rotateLane (q : Nat) (lane : Fin 2) (s : State) : State :=
  let x := strandOf s q
  let old := laneWl x lane
  let clear (x : StrandSt) : StrandSt := { x with rotating := none, rotStage := 0, rot := 0 }
  match (if fld x.rot 6 2 = 2 then some (lane.val + 1) else spareFor s q) with
  | some t => portCnt (q / 4) 0x11C 1 (modStrand q (fun x => clear { setLane x lane t with clean := if old = 3 then x.clean else setBit x.clean old false }) s)
  | none => modStrand q clear s

/-- This end's own rotations on a control slot of the partner (R55): from the first one after the request the partner copies the lane onto
the spare, and at the one after that this end takes the lane from there (log entry 109). -/
def rotateDone (k : Nat) (s : State) : State :=
  each (strandPos s k) (fun q s =>
    let x := strandOf s q
    match x.rotating, x.rotStage with
    | some _, 1 => modStrand q (fun x => { x with rotStage := 2 }) s
    | some lane, 2 => rotateLane q lane s
    | _, _ => s) s

/-- Nothing waits to be sent on a sub-link: no flit, no replay, no packet in its queues (R65, R67). -/
def nothingToSend (s : State) (k : Nat) : Bool :=
  (linkOf s k).txq.isEmpty && (linkOf s k).replay.isEmpty && (linkOf s k).resend.isEmpty &&
    (List.range 8).all fun q => (queueOf s (8 * k + q)).ents.isEmpty

/-- Both directions enter Doze (R65). -/
def enterDoze (k : Nat) (s : State) : State :=
  let s := each (liveStrands s k) (fun q s => emit (.light q .dim) (modStrand q (fun x => { x with light := .dim }) s)) s
  modLink k (fun l => { l with lpWant := none, idleTx := false }) (linkTo k .doze s)

/-- Both directions enter Dark (R65): no light is sent or seen, service ends, and with it the registration (R70, R100). -/
def enterDark (k : Nat) (s : State) : State :=
  let s := each (strandPos s k) (fun q s => emit (.light q .dark) (modStrand q (fun x => { x with light := .dark, cLost := true }) s)) s
  endService k .dark .none s

/-- Is the device entering Hold, which takes every port to Dark (R446, R449)? -/
def toHold (s : State) : Bool := s.pwr.busy && s.pwr.target == .hold && s.pwr.single.isNone

/-- Is Dark to follow Doze on a sub-link: in the entry to Hold, or with its engine being switched off (R446, R450)? -/
def darkDue (s : State) (k : Nat) : Bool :=
  (portOf s (k / 4)).darkEn && (toHold s || (s.pwr.busy && s.pwr.single == some (k / 48)))

/-- The acknowledgement of a low-power request that this end has not made itself: one control slot with the STATE agreed to (R65). -/
def ackLow (k : Nat) (st : LinkSt) (s : State) : State :=
  if (linkOf s k).lpWant = some st then s else sendSlots k (modLink k (fun l => { l with lpWant := some st }) s)

/-- The low-power handshake on the partner's STATE (R65, R67). -/
def lowPower (k : Nat) (s : State) : State :=
  let l := linkOf s k
  match l.st, l.peerSt.toNat with
  | .active, 10 | .idle, 10 =>
    if nothingToSend s k then
      let s := enterDoze k (ackLow k .doze s)
      iff (darkDue s k) (modLink k fun l => { l with lpWant := some .dark }) s
    else modLink k (fun l => { l with lpWant := none }) s
  | .doze, 1 => if l.lpWant = some .dark ∨ (portOf s (k / 4)).darkEn then enterDark k (ackLow k .dark s) else s
  | _, _ => s

/-- The acknowledgement of a control slot: flits up to ACK leave the replay buffer (R49, R50), which may empty it. -/
def ackFlits (ack : BitVec 24) (now : Nat) (l : SubLink) : SubLink :=
  let left := l.replay.filter (fun f => !seqGe ack f.seq)
  { l with replay := left, resend := l.resend.filter (fun f => !seqGe ack f.seq), emptyAt := if left.isEmpty && !l.replay.isEmpty then now else l.emptyAt }

/-- The deadlines of a strand that a clean control slot on one of its lanes meets (R52): those of the flits up to ACK. -/
def meetDue (ack : BitVec 24) (x : StrandSt) : StrandSt :=
  let left := x.due.filter (fun d => !seqGe ack d.1)
  { x with due := left, misses := if left.length < x.due.length then 0 else x.misses }

/-- CRED of a control slot: the differences are added to the credits held (R46). -/
def takeCred (cred : List (BitVec 16)) (l : SubLink) : SubLink :=
  (List.range 8).foldl (fun l v =>
    let c := cred.getD v 0
    { l with credHeld := tset 0 l.credHeld v (tget 0 l.credHeld v + (c - tget 0 l.credSeen v).toNat), credSeen := tset 0 l.credSeen v c }) l

/-- CONTROL_SLOT_RECEIVED (R40): a slot with good CRC, not older than the newest taken, is applied; its TRAIN message is a command
of its own. A slot whose CRC is good and whose MARK is wrong is dropped and counted nowhere, and a reserved AKT is read as ACK: the spec
leaves both open (log entry 110). -/
def execControlSlotReceived (p : Port) (s : Strand) (slot : BitVec 2048) (st : State) : Outcome :=
  let q := 4 * p.val + s.val
  let k := subKey st p s
  let b := bytesBE 256 slot.toNat
  let l := linkOf st k
  .next <|
    if !portOn st p || (match l.st with | .down | .dark => true | _ => false) || ((strandOf st q).outOfUse && !(strandOf st q).alone) ||
      (match (strandOf st q).st with | .down | .dark | .clock => true | _ => false) then st
    else
      let st := countBytes (1024 + 2 * q + 1) (2048 * 12) st
      if be b 248 8 ≠ (crc64 (b.take 248)).toNat then portCnt p 0x100 1 st
      else if be b 0 8 ≠ 0xA5C30FF0E1963C5A then st
      else
        let csc : BitVec 16 := BitVec.ofNat 16 (be b 10 2)
        let fresh := match l.cscRx with | none => true | some c => decide (csc ≠ c)
        let old := match l.cscRx with | none => false | some c => !seqGe csc c
        if old then st
        else
          let health : BitVec 16 := BitVec.ofNat 16 (be b 32 2)
          let clean := (lanesOf st q).all fun lane => bitOf health (4 * s.val + laneWl (strandOf st q) lane)
          let ack : BitVec 24 := BitVec.ofNat 24 (be b 12 3)
          let st := modLink k (fun l => { l with cscRx := some csc, peerSt := byteAt b 9, peerHealth := health, peerRet := byteAt b 35 }) st
          let st := modLink k (ackFlits ack st.clock) st
          let st := modLink k (takeCred ((List.range 8).map fun v => BitVec.ofNat 16 (be b (16 + 2 * v) 2))) st
          let st := iff clean (modStrand q (meetDue ack)) st
          let st := iff (fresh && byteAt b 15 == 1) (replayAll k) st
          let st := iff fresh (rotateDone k) st
          let st := rotateTx k (byteAt b 34) st
          let st := each ((strandPos st k).filter fun r => bitOf (byteAt b 35) (4 + r % 4)) (fun r a =>
            if pastTraining (linkOf a k).st then retireStrand r a else a) st
          lowPower k st

/-! ## Flits sent (R46, R50) -/

/-- The payload of a TIME flit (R62). -/
def timePayload (kind : Nat) (m : TimeMsg) : List Byte :=
  [BitVec.ofNat 8 kind, BitVec.ofNat 8 (b2n m.traceable + 2 * b2n m.holdover + 4 * b2n m.leapPending)] ++ bytesBE 2 m.tseq.toNat ++
    bytesBE 10 m.t.toNat ++ bytesBE 2 m.utcOfs.toNat ++ bytesBE 2 m.gm.toNat ++ [m.hops]

/-- Hand a TIME flit to the transmitter of sub-link k; a direction in Idle leaves it (R62, R64). -/
def queueTime (k kind : Nat) (m : TimeMsg) (s : State) : State :=
  modLink k (fun l => { l with txq := l.txq ++ [{ seq := 0, vc := 7, typ := 5, len := 232, poison := false, replay := false,
                                                  data := timePayload kind m, sentAt := 0 }] }) s

/-- Leave Idle on the transmitted direction (R65): full light, 8 training slots on every lane, and the deadlines that were suspended run
on (R66). -/
def leaveIdle (k : Nat) (s : State) : State :=
  let l := linkOf s k
  if l.idleTx then
    let s := each (liveStrands s k) (fun q s =>
      each (lanesOf s q) (fun lane => emit (.trainSlots q lane 8)) (emit (.light q .full) (modStrand q (fun x => { x with
        light := .full, due := x.due.map fun d => (d.1, d.2 + (s.clock - l.idleAt)) }) s))) s
    linkTo k .active (modLink k (fun l => { l with idleTx := false, emptyAt := s.clock }) s)
  else s

/-- The transmitted direction enters Idle (R65): c only, the lanes in electrical idle. -/
def enterIdle (k : Nat) (s : State) : State :=
  let s := each (liveStrands s k) (fun q s => emit (.light q .cOnly) (modStrand q (fun x => { x with light := .cOnly }) s)) s
  linkTo k .idle (modLink k (fun l => { l with idleTx := true, idleAt := s.clock }) s)

/-- May a flit of VC v leave on a sub-link in this state (R44)? -/
def vcRuns (st : LinkSt) (v : Nat) : Bool :=
  match st with | .active | .idle => true | .register => v == 0 || v == 7 | .quarantine => v == 7 | _ => false

/-- The first flit that may be sent for the first time: VC7 ahead of the others (R44 to R46). -/
def nextFlit (l : SubLink) : Option Flit :=
  let ok (f : Flit) := vcRuns l.st f.vc && decide (tget 0 l.credHeld f.vc > 0)
  match l.txq.find? fun f => f.vc = 7 && ok f with
  | some f => some f
  | none => l.txq.find? fun f => f.vc ≠ 7 && ok f

/-- A TIME flit takes its timestamp as it is sent: t1 of SYNC, t3 of DELAY_REQ (R63). -/
def stampTime (s : State) (f : Flit) : Flit :=
  if f.typ = 5 ∧ ((byteAt f.data 0).toNat = 0 ∨ (byteAt f.data 0).toNat = 1) then { f with data := patch f.data 4 (bytesBE 10 (fabT s).toNat) } else f

/-- A flit has been transmitted: every live strand has its acknowledgement deadline for it (R52). -/
def setDue (k : Nat) (seq : BitVec 24) (s : State) : State :=
  each (liveStrands s k) (fun q => modStrand q fun x => { x with due := x.due.filter (fun d => d.1 ≠ seq) ++ [(seq, s.clock)] }) s

/-- The time of the transmission, where the flit is a DELAY_REQ (R63). -/
def t3Of (s : State) (f : Flit) (l : SubLink) : BitVec 80 := if f.typ = 5 ∧ (byteAt f.data 0).toNat = 1 then fabT s else l.reqT3

/-- A queued packet whose first flit is about to leave toward an endpoint is checked once more against the keys of the sub-link: a removal
applies to every packet that has not yet left (R94, R97). -/
def keyGone (s : State) (k : Nat) (f : Flit) : Bool :=
  match f.src with
  | some (_, pid) => (f.typ == 0 || f.typ == 3) && !(linkOf s k).peerSwitch &&
      (match pktOf s pid with | some p => !keyAllowed s k (hPkey p.hdr) true | none => false)
  | none => false

/-- Packets at the front of the transmit queue whose key has been removed are dropped, in PKEY_EGRESS (R97); n bounds them. -/
def dropKeyless (k : Nat) : Nat → State → State
  | 0, s => s
  | n + 1, s =>
    match nextFlit (linkOf s k) with
    | some f =>
      if keyGone s k f then match f.src with
        | some (g, pid) => dropKeyless k n (newHead g (unlink g pid (portCnt (k / 4) 0x140 1 (mirrorDrop k pid s))))
        | none => s
      else s
    | none => s

/-- A flit of a queued packet leaves: the packet has begun (R90), and with its last flit the copy has left its queue (R142). -/
def flitLeft (f : Flit) (s : State) : State :=
  match f.src with
  | none => s
  | some (g, pid) =>
    let s := modPkt pid (fun p => { p with begun := true }) s
    let s := modQueue g (fun q => { q with ents := q.ents.map fun e => if e.pid = pid then { e with left := true } else e }) s
    if f.typ = 2 ∨ f.typ = 3 then refresh (g / 8) (unlink g pid s) else s

/-- FLIT_TRANSMIT (R46, R50, R63): a replay first, then VC7, then the other VCs; a NULL flit where nothing may go. The spec gives a NULL flit
no sequence number and does not say what its SEQ, VC and LEN hold: they are sent 0 (log entry 110). -/
def execFlitTransmit (p : Port) (s : Strand) (st : State) : Outcome :=
  let k := subKey st p s
  let l := linkOf st k
  .next <|
    if !portOn st p || !linkRuns l || l.idleTx then st
    else
      let st := countSlot k 0 st
      match l.resend with
      | f :: r =>
        let f := { stampTime st f with replay := true, sentAt := st.clock }
        let st := modLink k (fun l => { l with resend := r, reqT3 := t3Of st f l,
                                               replay := l.replay.map fun g => if g.seq = f.seq then f else g }) st
        setDue k f.seq (sendFlit k f (portCnt p 0x110 1 (countFlit k f.vc 0 st)))
      | [] =>
        let st := dropKeyless k l.txq.length st
        match nextFlit (linkOf st k), decide (l.replay.length < 4096) with
        | some f0, true =>
          let f := { stampTime st f0 with seq := l.txSeq, sentAt := st.clock }
          let st := modLink k (fun l => { l with
            txSeq := l.txSeq + 1, txq := dropFirst f0 l.txq, credHeld := tset 0 l.credHeld f.vc (tget 0 l.credHeld f.vc - 1)
            replay := l.replay ++ [f], reqT3 := t3Of st f l }) st
          setDue k f.seq (sendFlit k f (countFlit k f.vc 0 (flitLeft f st)))
        | _, _ => sendFlit k { seq := 0, vc := 0, typ := 4, len := 0, poison := false, replay := false, data := [], sentAt := st.clock } st

/-! ## Flits received (R43, R44, R46, R49) -/

/-- The open packet of a VC in staging: the last entry, while its TAIL is out. -/
def openEntry (s : State) (k v : Nat) : Option InEnt :=
  (stagingOf s k v).getLast?.bind fun e =>
    match e.stage, pktOf s e.pid with
    | .refused, _ | .dropped, _ | .long _, _ => some e
    | _, some p => if p.tailIn then none else some e
    | _, none => none

/-- Take an entry out of staging. -/
def dropEntry (k v pid : Nat) (s : State) : State := setStaging k v ((stagingOf s k v).filter fun e => e.pid ≠ pid) s

/-- The open packet of a VC ends as one cut short, uncounted (R43): its flits still unprocessed are freed. -/
def endOpen (k v : Nat) (s : State) : State :=
  let mine := (linkOf s k).rxq.filter fun f => f.vc = v
  let tail := (mine.reverse.takeWhile fun f => f.typ = 0 || f.typ = 1).length
  let keep := mine.take (mine.length - tail)
  let started := (mine.drop (mine.length - tail)).any fun f => f.typ = 0
  let s := modLink k (fun l => { l with rxq := l.rxq.filter (fun f => f.vc ≠ v) ++ keep }) s
  let s := releaseFlits k v tail s
  if started then s
  else match openEntry s k v with
    | some e => dropEntry k v e.pid (endPoisoned e.pid (leaveStaging e.pid s))
    | none => s

/-- A framing error: counted once; the open packet of the VC, if any, ends (R43). -/
def framingErr (k v : Nat) (s : State) : State :=
  let s := portCnt (k / 4) 0x118 1 s
  iff (tget 0 (linkOf s k).framing v == 1) (endOpen k v) s

def setFraming (k v n : Nat) : State → State := modLink k fun l => { l with framing := tset 0 l.framing v n }

/-- A BODY flit of a packet whose HEAD has been handled: it joins the packet; where the packet's TAIL should have been, the
packet's length disagrees (R90), which is counted when its TAIL tells whether it is poisoned (R91). -/
def absorbBody (k v : Nat) (f : Flit) (s : State) : State :=
  match openEntry s k v with
  | none => releaseFlits k v 1 s
  | some e =>
    let s := if e.obs.isEmpty then s
      else setStaging k v ((stagingOf s k v).map fun x => if x.pid = e.pid then { x with obs := x.obs.map (obsMore (f.data.take f.len)) } else x) s
    match e.stage, pktOf s e.pid with
    | .refused, _ | .dropped, _ | .long _, _ => releaseFlits k v 1 s
    | _, none => releaseFlits k v 1 s
    | _, some p =>
      if p.flits + 1 ≥ flitsOf p.rxTotal then
        let s := endPoisoned e.pid (leaveStaging e.pid (releaseFlits k v 1 s))
        setStage k v e.pid (.long p.begun) s
      else
        let s := modPkt e.pid (fun p => { p with body := p.body ++ f.data.take f.len, flits := p.flits + 1,
                                                 stag := if p.stag = 0 then 0 else p.stag + 1,
                                                 obs := p.obs.map (obsMore (f.data.take f.len)) }) s
        iff (p.stag == 0) (releaseFlits k v 1) s

/-- A good flit takes its buffer and joins the receive queue; a BODY whose packet has been begun joins it at once. -/
def acceptFlit (k : Nat) (f : Flit) (s : State) : State :=
  let v := f.vc
  let s := modLink k (fun l => { l with occ := tset 0 l.occ v (tget 0 l.occ v + 1) }) s
  if v = 7 then releaseFlits k v 1 s
  else if f.typ = 1 ∧ ((linkOf s k).rxq.filter fun g => g.vc = v).isEmpty then absorbBody k v f s
  else modLink k (fun l => { l with rxq := l.rxq ++ [f] }) s

/-- The framing rules of R43 on a flit of VC0 to VC6 that has a buffer. After a breach (framing 3) no packet is open: a HEAD or SINGLE that
comes before the next TAIL begins a packet of its own and ends the discarding, which the spec leaves open (log entry 110). -/
def frameFlit (k : Nat) (f : Flit) (s : State) : State :=
  let v := f.vc
  let fr := tget 0 (linkOf s k).framing v
  let lenOk := if f.typ = 0 ∨ f.typ = 1 then f.len = 232 else decide (1 ≤ f.len ∧ f.len ≤ 232)
  let free := fun s => releaseFlits k v 1 (modLink k (fun l => { l with occ := tset 0 l.occ v (tget 0 l.occ v + 1) }) s)
  match f.typ.toNat with
  | 0 =>
    if fr = 1 ∨ fr = 2 then free (setFraming k v 3 (framingErr k v s))
    else if lenOk then acceptFlit k f (setFraming k v 1 s)
    else free (setFraming k v 2 (framingErr k v s))
  | 3 =>
    if fr = 1 ∨ fr = 2 then free (setFraming k v 3 (framingErr k v s))
    else if lenOk then acceptFlit k f (setFraming k v 0 s)
    else free (setFraming k v 0 (framingErr k v s))
  | 1 =>
    if fr = 0 then free (framingErr k v s)
    else if fr = 1 then (if lenOk then acceptFlit k f s else free (setFraming k v 2 (framingErr k v s)))
    else free s
  | 2 =>
    if fr = 0 then free (framingErr k v s)
    else if fr = 1 then (if lenOk then acceptFlit k f (setFraming k v 0 s) else free (setFraming k v 0 (framingErr k v s)))
    else free (setFraming k v 0 s)
  | _ => free (setFraming k v (if fr = 1 then 2 else fr) (framingErr k v s))

/-- A flit is discarded with its packet under R43: counted unless its packet is already being discarded. -/
def discardFlit (k : Nat) (f : Flit) (s : State) : State :=
  let v := f.vc
  let fr := tget 0 (linkOf s k).framing v
  let last := f.typ = 2 || f.typ = 3
  let s := if fr = 2 ∨ fr = 3 then s else framingErr k v s
  setFraming k v (if last then 0 else 2) s

/-- Send a NAK for the flit awaited, at most once in 2 µs (R49). -/
def nak (k : Nat) (s : State) : State :=
  let l := linkOf s k
  if l.nakFor = some l.rxSeq ∧ s.clock - l.nakAt < 2000 then s
  else portCnt (k / 4) 0x10C 1 (modLink k (fun l => { l with nakPend := true, nakFor := some l.rxSeq, nakAt := s.clock }) s)

/-- The lanes of a sub-link in the order in which the symbols of a codeword are dealt to them (R38). -/
def dealt (s : State) (k : Nat) : List (Nat × Nat) := (liveStrands s k).flatMap fun q => (lanesOf s q).map fun lane => (q, lane)

/-- The decoder reports a corrected symbol on a lane (R38): it counts in the 10 µs window of ROT_THR (R74). -/
def noteCorrected (q lane : Nat) (s : State) : State :=
  let n := s.clock / 10000
  modStrand q (fun x =>
    let x := if x.corrWin = n then x else { x with corrWin := n, corr0 := 0, corr1 := 0 }
    if lane = 0 then { x with corr0 := x.corr0 + 1 } else { x with corr1 := x.corr1 + 1 }) s

/-- Symbols corrected on a lane in the present window. -/
def correctedIn (s : State) (q lane : Nat) : Nat :=
  let x := strandOf s q
  if x.corrWin = s.clock / 10000 then (if lane = 0 then x.corr0 else x.corr1) else 0

/-- RS(544,514) corrects up to 15 symbol errors of a codeword (R38). -/
def rsOk (errs : List (Fin 544)) : Bool := decide ((uniq errs).length ≤ 15)

/-- A codeword has been decoded (R38): its corrected symbols count on the port and on their lanes, or it is uncorrectable. -/
def decodeWord (k : Nat) (errs : List (Fin 544)) (s : State) : State :=
  let lanes := dealt s k
  if rsOk errs then
    each (uniq errs) (fun e s => match lanes[e.val % lanes.length]? with | some (q, lane) => noteCorrected q lane s | none => s)
      (portCnt (k / 4) 0x104 (uniq errs).length s)
  else portCnt (k / 4) 0x108 1 s

/-- FLIT_RECEIVED (R38, R49): codeword, CRC and sequence, then the rules of R44, R46 and R43. errs are the symbols in error of the codeword that
holds the flit; again says that an earlier flit came out of the same codeword, which is counted once. -/
def execFlitReceived (p : Port) (s : Strand) (flit : BitVec 2048) (errs : List (Fin 544)) (again : Bool) (st : State) : Outcome :=
  let k := subKey st p s
  let l := linkOf st k
  let b := bytesBE 256 flit.toNat
  let f := flitOfBytes b
  .next <|
    if !portOn st p || !linkRuns l then st
    else
      let st := iff (!again) (decodeWord k errs) (countSlot k 1 st)
      if !rsOk errs then nak k st
      else if be b 248 8 ≠ (crc64 (b.take 248)).toNat then nak k (portCnt p 0x100 1 st)
      else if f.typ = 4 then st
      else
        let st := countFlit k f.vc 1 st
        if f.seq ≠ l.rxSeq then nak k st
        else
          let st := modLink k (fun l => { l with rxSeq := l.rxSeq + 1, nakFor := none }) st
          let free := fun a => releaseFlits k f.vc 1 (modLink k (fun l => { l with occ := tset 0 l.occ f.vc (tget 0 l.occ f.vc + 1) }) a)
          if tget 0 (linkOf st k).occ f.vc ≥ tget 0 l.adv f.vc then discardFlit k f st
          else if (f.vc = 7) ≠ (f.typ = 5) then
            free (portCnt p 0x118 1 st)
          else if !vcRuns l.st f.vc then free (discardFlit k f st)
          else if f.vc = 7 then (if f.len = 232 then acceptFlit k f st else free (portCnt p 0x118 1 st))
          else frameFlit k f st

/-! ## Buffers (R47) -/

/-- Flits that a sub-link of n strands advertises per VC. -/
def advertised (weights : List Nat) (n : Nat) : Nat → Nat := fun v =>
  let minOf (v : Nat) := if v = 0 then 32 else 16
  let left := 512 * n - 144
  let w := (List.range 8).map fun i => weights.getD i 0
  let w := if w.all (· = 0) then List.replicate 8 1 else w
  let share i := left * w.getD i 0 / w.sum
  minOf v + share v + (if v = 0 then left - ((List.range 8).map share).sum else 0)

/-- The counts of sub-link k. -/
def advOf (s : State) (k v : Nat) : Nat :=
  advertised ((classes s).elim [] ClassSect.staging) (strandPos s k).length v

/-! ## Messages in TRAIN (R59) -/

/-- The identifier of a sub-link in the port table (R60). -/
def tableId (s : State) (k : Nat) : Option Ident :=
  match s.img with
  | some i => ((tget {} i.ports (k / 4)).ids.getD (k % 4) none)
  | none => none

def ts2Msg (s : State) (k : Nat) : List Byte :=
  [2] ++ (List.range 8).flatMap (fun v => bytesBE 2 (advOf s k v)) ++ bytesBE 2 4096 ++ [1]
def assignMsg (s : State) (k : Nat) : List Byte :=
  bytesBE 3 ((tableId s k).getD 0).toNat ++ bytesBE 2 s.gctl.coord.toNat ++ bytesBE 2 (k / 4) ++ [BitVec.ofNat 8 (k % 4)]
def coordMsg (s : State) (k : Nat) : List Byte :=
  [5] ++ bytesBE 2 s.gctl.coord.toNat ++ bytesBE 2 (k / 4) ++ [BitVec.ofNat 8 (k % 4)] ++ bytesBE 4 s.gctl.fabricId.toNat

def setTrain (k : Nat) (t : List Byte) : State → State := modLink k fun l => { l with train := t }

/-- REFUSE with a reason goes in one control slot on every lane (R59, R489; log entry 109). -/
def sendRefuse (k reason : Nat) (s : State) : State := sendSlots k (setTrain k [7, BitVec.ofNat 8 reason] s)

/-! ## Deadlines and loss of light (R52, R53, R58) -/

/-- The deadlines after a miss on strand q (R52; log entry 109): the strand's own have passed, and a flit that is to be replayed gets new ones
when it is sent again. -/
def rewindDue (k q : Nat) (s : State) : State :=
  let again := (linkOf s k).replay.map Flit.seq
  each (liveStrands s k) (fun r => modStrand r fun x => { x with due := if r = q then [] else x.due.filter fun d => d.1 ∉ again }) s

/-- ACK_DEADLINE_MISS (R52) on strand s: replay from the oldest flit not acknowledged; the miss counts against the strand that HEALTH pins it
to, or against every strand; the fourth in a row retires the strand. -/
def execAckDeadlineMiss (p : Port) (s : Strand) (st : State) : Outcome :=
  let q := 4 * p.val + s.val
  let k := subKey st p s
  let l := linkOf st k
  .next <|
    if !portOn st p || !linkRuns l || l.idleTx || !decide (q ∈ liveStrands st k) || (strandOf st q).due.isEmpty then st
    else
      let live := liveStrands st k
      let bad := live.filter fun q => !((lanesOf st q).all fun lane => bitOf l.peerHealth (4 * (q % 4) + laneWl (strandOf st q) lane))
      let named := (match bad with | [q] => [q] | _ => live).filter fun q => (strandOf st q).rotating.isNone
      let st := rewindDue k q (replayAll k (clockTo ((((strandOf st q).due.map Prod.snd).headD 0) + 2000) st))
      let st := iff (!named.isEmpty) (portCnt p 0x114 1) st
      each named (fun q a =>
        let a := modStrand q (fun x => { x with misses := x.misses + 1 }) a
        if (strandOf a q).misses ≥ 4 then retireStrand q a else a) st

/-! ## Training of a sub-link by its strands (R58) -/

/-- How far a strand is in training: CLOCK, EQ, ALIGN, then the steps of the whole sub-link. -/
def trainRank (st : LinkSt) : Nat := match st with | .clock => 0 | .eq => 1 | .align => 2 | _ => 3

/-- The sub-link's state for a rank, and its TRAIN message there: TS2 in CONFIG. -/
def trainState (n : Nat) : LinkSt := match n with | 0 => .clock | 1 => .eq | 2 => .align | _ => .config
def trainMsg (s : State) (k n : Nat) : List Byte := if n = 3 then ts2Msg s k else []

/-- The rank of the least advanced of the strands of sub-link k that see c. -/
def slowest (s : State) (k : Nat) : Nat := (liveStrands s k).foldl (fun n q => min n (trainRank (strandOf s q).st)) 3

/-- A sub-link in training is as far as the slowest of its strands that see c; with none it waits for light. On falling back it keeps
what TS1 said and begins the rest of its exchange anew; in CONFIG it advertises its buffers (log entry 107). -/
def settle (k : Nat) (s : State) : State :=
  let l := linkOf s k
  let n := slowest s k
  let old := if l.st = .assign then 4 else trainRank l.st
  if (liveStrands s k).isEmpty then modLink k (fun l => freshLink l .down .noLight) s
  else if n = old then s
  else
    let s := iff (n < old) (each (liveStrands s k) fun q => modStrand q fun x => if x.st = .assign then { x with st := .config } else x) s
    let s := iff (n < old) (modLink k fun l => { freshLink l .clock .none with partnerBreakout := l.partnerBreakout, partnerSp := l.partnerSp }) s
    modLink k (fun l => { l with st := trainState n, train := trainMsg s k n, adv := if n = 3 then (List.range 8).foldl (fun t v => tset 0 t v (advOf s k v)) [] else l.adv }) s

/-- A strand in training goes back to the start to wait for c (R58). -/
def strandToStart (q : Nat) (s : State) : State :=
  let s := modStrand q (fun x => { x with st := .down, reason := .noLight, clean := 0 }) s
  if (strandOf s q).alone then s else settle (subKey s (q / 4) (q % 4)) s

/-- C_LOSS_TIMEOUT (R53, R58): c has been lost for more than 100 ns. -/
def execCLossTimeout (p : Port) (s : Strand) (st : State) : Outcome :=
  let q := 4 * p.val + s.val
  let k := subKey st p s
  .next <|
    if !portOn st p then st
    else
      let st := modStrand q (fun x => { x with cLost := true }) st
      match (linkOf st k).st with
      | .register | .active | .idle | .doze | .quarantine => if (strandOf st q).alone then strandToStart q st else retireStrand q st
      | .clock | .eq | .align | .config | .assign => strandToStart q st
      | .down | .dark => st

/-! ## Wavelength rotation and recalibration (R55, R56) -/

/-- The byte of a rotation request. -/
def rotByte (req q w : Nat) : Byte := BitVec.ofNat 8 (64 * req + 16 * (q % 4) + 4 * w)

/-- May a lane of a strand be rotated now? -/
def rotatable (s : State) (q lane : Nat) : Bool :=
  let x := strandOf s q
  !x.outOfUse && !x.alone && pastTraining (linkOf s (subKey s (q / 4) (q % 4))).st && x.rotating.isNone && laneWl x lane != 0

/-- ROTATION_REQUEST (R55, R56): a lane whose corrected symbols exceed ROT_THR, or that has lost alignment, moves to the spare;
without a spare its wavelength is released and the strand runs on the other lane. -/
def execRotationRequest (p : Port) (s : Strand) (lane : Fin 2) (alignLost : Bool) (st : State) : Outcome :=
  let q := 4 * p.val + s.val
  let w := laneWl (strandOf st q) lane
  .next <|
    if !portOn st p || !(decide (correctedIn st q lane > (optOf st (p / 12)).rotThr.toNat) || alignLost) then st
    else if (strandOf st q).outOfUse || (strandOf st q).alone || !pastTraining (linkOf st (subKey st p s)).st || w = 0 ||
      (strandOf st q).rotating = some lane then st
    else match (if rotatable st q lane && (strandOf st q).recal.isNone then spareFor st q else none) with
      | some _ =>
        logEvent 0x0002 0 p [] (modStrand q (fun x => { x with rotating := some lane, rotStage := 0, rot := rotByte 1 q w, clean := setBit x.clean w false }) st)
      | none =>
        let st := logEvent 0x0003 0 p [] (modStrand q (fun x => { setLane x lane 0 with released := setBit x.released w true, clean := setBit x.clean w false }) st)
        if (lanesOf st q).isEmpty then retireStrand q st else st

/-- RING_RECALIBRATION_SCHEDULE (R55, R56, R74): a wavelength's recalibration falls due; its lane moves to the spare first. -/
def execRingRecalibrationSchedule (p : Port) (s : Strand) (lane : Fin 2) (st : State) : Outcome :=
  let q := 4 * p.val + s.val
  let x := strandOf st q
  let at_ := if lane = 0 then x.recalAt0 else x.recalAt1
  let due := at_ = 0 || decide (st.clock - at_ ≥ (optOf st (p / 12)).recalMin.toNat * 60000000000)
  let note := fun (x : StrandSt) => if lane = 0 then { x with recal := some lane, recalAt0 := st.clock } else { x with recal := some lane, recalAt1 := st.clock }
  .next <|
    if !portOn st p || !due || !rotatable st q lane || x.recal.isSome then st
    else if laneWl x lane = lane.val + 1 then
      match spareFor st q with
      | some _ =>
        logEvent 0x0001 0 p [] (modStrand q (fun x => { note x with rotating := some lane, rotStage := 0, rot := rotByte 1 q (lane.val + 1) }) st)
      | none => st
    else modStrand q note st

/-- RING_RECALIBRATION_DONE (R56), only while the spare carries the lane: the lane is rotated back, or its own wavelength stays released. -/
def execRingRecalibrationDone (p : Port) (s : Strand) (lane : Fin 2) (ok : Bool) (st : State) : Outcome :=
  let q := 4 * p.val + s.val
  let x := strandOf st q
  .next <|
    if !portOn st p || x.recal ≠ some lane || x.rotating.isSome || laneWl x lane = lane.val + 1 then st
    else if ok then
      modStrand q (fun x => { x with recal := none, rotating := some lane, rotStage := 0, rot := rotByte 2 q (lane.val + 1), clean := setBit x.clean (lane.val + 1) true }) st
    else modStrand q (fun x => { x with recal := none, released := setBit x.released (lane.val + 1) true }) st

end Sys2Proof.Machine
end

