-- ==== Sys2Proof/Machine/Training.lean ====
section
/-! DEFINITION. Training, assignment and registration (R36, R47, R54, R57 to R61, R98 to R103, R489). -/

namespace Sys2Proof.Machine

/-- This end refuses the sub-link with a reason of R59: REFUSE is sent, and the sub-link goes DOWN (R489). -/
def refuseLink (k reason : Nat) (s : State) : State :=
  sublinkDown k (if reason = 1 then .breakout else .refused) (sendRefuse k reason s)

/-! ## Registration of a sub-link (R61, R102) -/

/-- The answer to a registration reaches the sub-link (R61); an accepted one is told to the partner by READY 8 (R59; log entry 108). -/
def regAnswered (k : Nat) (a : RegAns) (s : State) : State :=
  let l := linkOf s k
  if l.st ≠ .register ∨ ¬ l.regPending then s
  else
    let q := regReqOf s k
    match a with
    | .accepted =>
      raiseVec 47 <| linkTo k .active (modLink k (fun l => { l with regPending := false, train := [6, 8], liveSince := some s.clock, joined := false, emptyAt := s.clock }) s)
    | .duplicate _ _ _ =>
      let s := iff (!isMgr s) (logMb 0x5210 (dupDetail q a)) s
      raiseVec 47 <| linkTo k .quarantine (modLink k (fun l => { l with regPending := false, quar := true, train := [7, 4] }) s)
    | .full =>
      let s := iff (!isMgr s) (logMb 0x5210 (dupDetail q a)) s
      refuseLink k 7 s

/-- Send the registration of a sub-link to the manager, or serve it here (R61, R98). -/
def registerLink (k : Nat) (s : State) : State :=
  let s := modLink k (fun l => { l with regPending := true, regAt := s.clock }) s
  let q := regReqOf s k
  if isMgr s then let (a, s) := serveReg q s; regAnswered k a s else emit (.register q) s

/-! ## Starting over (R54, R58) -/

/-- A sub-link trains in full: every strand that sees c starts; strands out of use stay out unless all are (R54; log entry 21). -/
def trainFull (k : Nat) (s : State) : State :=
  let qs := strandPos s k
  let s := iff (qs.all fun q => (strandOf s q).outOfUse) (each qs fun q => modStrand q fun x => { x with outOfUse := false }) s
  let qs := qs.filter fun q => !(strandOf s q).outOfUse
  let s := each qs (fun q s => emit (.light q .full) (modStrand q (fun x => {
    startLanes (d0Strand s q) x with
    light := .full, alone := false, st := if x.cLost then .down else .clock, reason := if x.cLost then .noLight else .none }) s)) s
  let seen := qs.any fun q => !(strandOf s q).cLost
  modLink k (fun l => freshLink l (if seen then .clock else .down) (if seen then .none else .noLight)) s

/-- Is a port listening: enabled, its wave begun, powered (R57)? -/
def listening (s : State) (p : Nat) : Bool := portOn s p && !bitOf s.units.fabLost (p / 72) && !bitOf s.units.engineLost (p / 12)

/-- C_DETECTED (R57, R58): training of the strand begins. -/
def execCDetected (p : Port) (s : Strand) (st : State) : Outcome :=
  let q := 4 * p.val + s.val
  let k := subKey st p s
  .next <|
    if !listening st p then st
    else
      let st := modStrand q (fun x => { x with cLost := false }) st
      let x := strandOf st q
      let l := linkOf st k
      if x.outOfUse && !x.alone then st
      else if x.alone then (if x.st = .down then modStrand q (fun x => { x with st := .clock, reason := .none }) st else st)
      else match l.st with
        | .down =>
          if l.quar || (l.reason != .noLight && l.reason != .none) then st
          else trainFull k st
        | .clock | .eq | .align | .config | .assign =>
          if x.st = .down then settle k (modStrand q (fun x => { startLanes (d0Strand st q) x with st := .clock, reason := .none }) st) else st
        | _ => st

/-- Store what the equaliser sweep found (R35, R75); an overridden code stays. -/
def storeEq (p s : Nat) (rs : List EqResult) (st : State) : State :=
  each rs (fun r => modOpt (p / 12) fun o =>
    let key := 16 * (p % 12) + 4 * s + r.w.toNat
    let old := tget 0 o.eq key
    let code := if bitOf old 5 then fld old 0 5 else r.code.toNat
    { o with eq := tset 0 o.eq key (regWord [(0, code), (5, fld old 5 1), (8, r.margin.toNat)]) }) st

/-- A strand trained alone joins its sub-link (R54). -/
def rejoinStrand (q : Nat) (s : State) : State :=
  let k := subKey s (q / 4) (q % 4)
  modStrand q (fun x => { x with alone := false, outOfUse := false, restored := true, st := (linkOf s k).st, misses := 0, reason := .none }) s

/-- TRAINING_STEP_DONE (R58) of a strand: phase lock, then the equaliser sweep, then MARK and deskew; TS2 both ways is a message of its own. -/
def execTrainingStepDone (p : Port) (s : Strand) (eq : List EqResult) (st : State) : Outcome :=
  let q := 4 * p.val + s.val
  let k := subKey st p s
  .next <|
    if !listening st p then st
    else
      let x := strandOf st q
      if x.alone then
        match x.st with
        | .clock => modStrand q (fun x => { x with st := .eq }) st
        | .eq => modStrand q (fun x => { x with st := .align }) (storeEq p s eq st)
        | .align => rejoinStrand q (modStrand q (fun x => { x with row := 0, clean := aligned x }) st)
        | _ => st
      else match x.st with
        | .clock => settle k (modStrand q (fun x => { x with st := .eq }) st)
        | .eq => settle k (modStrand q (fun x => { x with st := .align }) (storeEq p s eq st))
        | .align => settle k (modStrand q (fun x => { x with st := .config, clean := aligned x }) st)
        | _ => st

/-- TRAINING_STEP_TIMEOUT (R58): the strand restarts; the eighth restart in a row takes the sub-link down. -/
def execTrainingStepTimeout (p : Port) (s : Strand) (st : State) : Outcome :=
  let q := 4 * p.val + s.val
  let k := subKey st p s
  .next <|
    if !listening st p then st
    else
      let x := strandOf st q
      let training := match x.st with | .clock | .eq | .align | .config | .assign => true | _ => false
      if !training then st
      else
        let st := modStrand q (fun x => { x with restarts := satAdd16 x.restarts 1, row := x.row + 1, st := .clock, clean := 0 }) st
        if x.row + 1 ≥ 8 then
          let st := modStrand q (fun x => { x with row := 0 }) st
          if x.alone then modStrand q (fun x => { x with alone := false, st := .down }) st else sublinkDown k .trainTimeout st
        else if x.alone then st else settle k st

/-- TS1 (R59, R489): what the partner says of itself; its breakout is judged after the version in TS2. -/
def execTs1 (p : Port) (s : Strand) (ptype strand breakout spUsable : Byte) (st : State) : Outcome :=
  let k := subKey st p s
  .next <|
    if !listening st p then st
    else match (linkOf st k).st, (strandOf st (4 * p.val + s.val)).st with
      | .clock, .eq | .clock, .align | .clock, .config | .eq, _ | .align, _ | .config, _ =>
        if strand.toNat > 3 then st
        else modLink k (fun l => { l with partnerSwitch := ptype == 1, partnerBreakout := some breakout, partnerSp := spUsable == 1 }) st
      | _, _ => st

/-- TS2 (R59, R60, R489): version, then breakout, then the port table; ASSIGN to an endpoint or COORD to a switch follows. A TS2 that comes before
any TS1 has no breakout to agree with and is refused as BREAKOUT (log entry 110). -/
def execTs2 (p : Port) (s : Strand) (credits : List (BitVec 16)) (depth : BitVec 16) (version : Byte) (st : State) : Outcome :=
  let k := subKey st p s
  .next <|
    if !listening st p || (linkOf st k).st ≠ .config then st
    else if version ≠ 1 then refuseLink k 2 st
    else if (linkOf st k).partnerBreakout ≠ some ((portOf st p).breakout.setWidth 8) then refuseLink k 1 st
    else
      let st := modLink k (fun l => { l with
        partnerVersion := some version, partnerDepth := depth
        credHeld := (List.range 8).foldl (fun t v => tset 0 t v (credits.getD v 0).toNat) [], credSeen := [], freed := [] }) st
      if (linkOf st k).partnerSwitch then setTrain k (coordMsg st k) (linkTo k .assign st)
      else match tableId st k with
        | none => refuseLink k 5 st
        | some _ =>
          let st := modLink k (fun l => { l with assignTries := 1 }) st
          setTrain k (3 :: assignMsg st k) (linkTo k .assign st)

/-- Assignment is complete (R60, R70): the sub-link is in REGISTER and asks the manager. -/
def assigned (k : Nat) (s : State) : State :=
  let s := modLink k (fun l => { l with valid := true, reason := .none, train := [6, 7], emptyAt := s.clock }) s
  let s := each (strandPos s k) (fun q => modStrand q fun x => { x with row := 0, reason := if x.outOfUse then x.reason else .none }) s
  registerLink k (linkTo k .register s)

/-- ASSIGN_ACK (R60): the assignment is complete, and overwrites what SL_ASSIGN kept (R70; log entry 110). -/
def execAssignAck (p : Port) (s : Strand) (echo : BitVec 64) (st : State) : Outcome :=
  let k := subKey st p s
  let l := linkOf st k
  .next <|
    if !listening st p || l.st ≠ .assign || l.partnerSwitch then st
    else if bytesBE 8 echo.toNat = assignMsg st k then assigned k (modLink k (fun l => { l with ident := (tableId st k).getD 0, peerSwitch := false }) st)
    else if l.assignTries ≥ 8 then refuseLink k 6 st
    else modLink k (fun l => { l with assignTries := l.assignTries + 1 }) st

/-- COORD (R59, R70, R489). -/
def execCoord (p : Port) (s : Strand) (peer : Coord) (pport : BitVec 9) (pstrand : BitVec 2) (fabricId : Word) (st : State) : Outcome :=
  let k := subKey st p s
  let l := linkOf st k
  .next <|
    if !listening st p || l.st ≠ .assign || !l.partnerSwitch then st
    else if fabricId ≠ st.gctl.fabricId then refuseLink k 3 st
    else assigned k (modLink k (fun l => { l with peerSwitch := true, peer := peer, peerPos := 4 * pport.toNat + pstrand.toNat, ident := 0 }) st)

/-- READY (R59): the state the partner has reached. -/
def execReady (p : Port) (s : Strand) (state : Byte) (st : State) : Outcome :=
  let k := subKey st p s
  .next <|
    if listening st p && pastTraining (linkOf st k).st && (state == 7 || state == 8) then modLink k (fun l => { l with partnerReady := state }) st else st

/-- REFUSE (R489): the partner has refused, for any reason; this end goes DOWN. A sub-link in QUARANTINE stays in it (R101; log entry 110). -/
def execRefuse (p : Port) (s : Strand) (reason : Byte) (st : State) : Outcome :=
  let k := subKey st p s
  .next <|
    if !listening st p then st
    else match (linkOf st k).st with
      | .down | .dark | .quarantine => st
      | _ => sublinkDown k (if reason = 1 then .breakout else .refused) st

/-- DOWN_RETRY (R54): a sub-link that is down and not held trains in full again. -/
def execDownRetry (p : Port) (s : Strand) (st : State) : Outcome :=
  let k := subKey st p s
  let l := linkOf st k
  .next <| if listening st p && l.st == .down && !l.quar then trainFull k st else st

/-- A port's wave begins (R57, R365): the port listens; its strands send light and wait for c. -/
def beginPort (p : Nat) (s : State) : State :=
  let s := modPort p (fun x => { x with begun := true }) s
  each (subKeys s p) (fun k s =>
    let s := each (strandPos s k) (fun q s => emit (.light q .full) (modStrand q (fun x => {
      startLanes (d0Strand s q) x with light := .full, cLost := true, st := .down, reason := .noLight }) s)) s
    modLink k (fun l => { l with st := .down, reason := .noLight }) s) s

/-- The start-up enters a phase (R370), which raises its vector (R378; log entry 116). -/
def toPhase (p : StartPhase) (s : State) : State := raiseVec 45 (modRst (fun r => { r with phase := p }) s)

/-- Wave w (R365): ports of lost dies and engines are skipped. -/
def beginWave (w : Nat) (s : State) : State :=
  let ps := (List.range 288).filter fun p => (portOf s p).enabled && (portOf s p).wave == w && !(portOf s p).begun &&
    !bitOf s.units.fabLost (p / 72) && !bitOf s.units.engineLost (p / 12)
  let s := each ps beginPort s
  iff (w == 11) (toPhase .run) (modRst (fun r => { r with wave := w + 1 }) s)

/-- PORT_WAVE_BEGIN (R365). -/
def execPortWaveBegin (w : Fin 12) (st : State) : Outcome :=
  .next <| if alive st && st.rst.phase == .waves && st.rst.wave == w.val then beginWave w.val (clockTo (st.mgr.wave0At + 20000000 * w.val) st) else st

/-! ## Registration -/

/-- REGISTRATION_REQUEST (R78, R98 to R100): the manager serves the registrations of one arbitration one at a time and answers them; every
withdrawal of the arbitration is served before. -/
def execRegistrationRequest (qs ws : List RegReq) (st : State) : Outcome :=
  .next <| if alive st && isMgr st then serveRegs qs (serveWithdraws ws st) else st

/-- REGISTRATION_ANSWER (R61). -/
def execRegistrationAnswer (p : Port) (s : Strand) (a : RegAns) (st : State) : Outcome :=
  .next <| if portOn st p then regAnswered (subKey st p s) a st else st

/-- REGISTRATION_RESEND (R103): a worker without an answer asks again. -/
def execRegistrationResend (p : Port) (s : Strand) (st : State) : Outcome :=
  let k := subKey st p s
  .next <| if portOn st p && (linkOf st k).st == .register && (linkOf st k).regPending then registerLink k (clockTo ((linkOf st k).regAt + 100000) st) else st

/-- WITHDRAWAL (R100, R190). -/
def execWithdrawal (ws : List RegReq) (st : State) : Outcome :=
  .next <| if alive st && isMgr st then serveWithdraws ws st else st

/-! ## Retraining (R54) -/

/-- PORT_RETRAIN's effect on one named strand of a sub-link in the states of R54. all says whether every live strand of the
sub-link is named. -/
def retrainStrand (q : Nat) (all : Bool) (s : State) : State :=
  let k := subKey s (q / 4) (q % 4)
  let x := strandOf s q
  let runs := match (linkOf s k).st with | .register | .active | .idle => true | _ => false
  let alone := modStrand q fun x => { startLanes (d0Strand s q) x with alone := true, row := 0, st := if x.cLost then .down else .clock, reason := if x.cLost then .noLight else .none }
  if x.outOfUse && runs then alone s
  else if !x.outOfUse && runs && !all then alone (retireStrand q s)
  else s

/-- The retraining command on the named strands of one sub-link (R54, R101). The table has no row for a sub-link in CLOCK to ASSIGN of which only
some live strands are named: it is treated by the last row, taken DOWN and trained in full (log entry 110). -/
def retrainLink (k : Nat) (mask : BitVec 4) (s : State) : State :=
  let named := (strandPos s k).filter fun q => bitOf mask (q % 4)
  if named.isEmpty then s
  else
    let s := leaveDoze k s
    let st := (linkOf s k).st
    let all := (liveStrands s k).all fun q => q ∈ named
    let keeps := match st with | .register | .active | .idle => !all | _ => false
    let retiredOnly := named.all fun q => (strandOf s q).outOfUse
    let runs := match st with | .register | .active | .idle => true | _ => false
    if keeps || (runs && retiredOnly) then each named (fun q => retrainStrand q all) s
    else
      let s := modLink k (fun l => { l with quar := false }) (sublinkDown k .none s)
      let s := modLink k (fun l => { l with quar := false, reason := .none }) s
      let s := each named (fun q => modStrand q fun x => if x.outOfUse then { x with outOfUse := false, restored := true } else x) s
      trainFull k s

end Sys2Proof.Machine
end

