-- ==== Sys2Proof/Machine/Canopy.lean ====
section
/-! DEFINITION. Canopy (chapter 13) and the TIME flits that carry it (R62 to R64). Fabric time is counted in 2^-16 ns. -/

namespace Sys2Proof.Machine

/-- Picoseconds of a time in 2^-16 ns, and back. -/
def fxToPs (x : Int) : Int := x * 1000 / 65536
def psToFx (x : Int) : Int := x * 65536 / 1000

/-- The grandmaster's coordinate as this Skarad announces it (R335). -/
def gmShown (s : State) : Coord := if isMgr s then s.gctl.coord else s.tim.gmCoord

/-- Bring base and slew up to the clock. -/
def rebase (s : State) : State :=
  let n := s.clock - s.tim.baseAt
  let t := fabT s
  modTim (fun m => { m with base := t, baseAt := s.clock, slew := if m.running then m.slew - slewed m.slew n else m.slew }) s

/-- Take an offset off fabric time at once: positive when this Skarad is ahead. -/
def stepTime (ofs : Int) (s : State) : State :=
  modTim (fun m => { m with base := m.base - BitVec.ofInt 80 ofs, slew := 0, stepSum := m.stepSum - ofs, stepDue := false }) (rebase s)

/-- Correct a measured offset (R342): above STEP_THR it is stepped at the next SYNC or edge, otherwise slewed. -/
def correct (ofs : Int) (s : State) : State :=
  if ofs.natAbs > s.tim.stepThr.toNat * 65536 then
    if s.tim.stepDue then logMb 0x4001 [] (timCnt 0x104 1 (stepTime ofs s))
    else modTim (fun m => { m with stepDue := true }) s
  else modTim (fun m => { m with slew := ofs, stepDue := false }) (rebase s)

/-! ## Upstream and holdover (R335, R343) -/

/-- May a sub-link be the upstream (R335)? Switch-facing, in REGISTER, ACTIVE or IDLE, with an ANNOUNCE. -/
def upCandidate (s : State) (k : Nat) : Option Ann :=
  let l := linkOf s k
  if l.valid && l.peerSwitch && (match l.st with | .register | .active | .idle => true | _ => false) then l.ann else none

/-- Follow an ANNOUNCE (R335, R345): the grandmaster it names is the acting manager (R335, R371). -/
def followAnn (k : Nat) (a : Ann) (s : State) : State :=
  let s := modTim (fun m =>
    { m with upstream := some k, hops := a.hops + 1, gmCoord := a.gm, traceable := a.traceable, leapPending := a.leap, utcOfs := a.utcOfs }) s
  if isMgr s then s
  else if a.gm = s.gctl.mgrCoord then modGctl (fun g => { g with acting := g.mgrCoord, actingId := g.mgrId }) s
  else if a.gm = s.gctl.sbyCoord then modGctl (fun g => { g with acting := g.sbyCoord, actingId := g.sbyId }) s
  else s

/-- Choose an upstream (R335): without HOLDOVER first, then the lowest HOPS, then the lowest position, among those that name the grandmaster
followed. Where none names it, a worker takes any grandmaster announced (log entry 23). -/
def chooseUpstream (s : State) : State :=
  if isMgr s then s
  else
    let all := (allSubs s).filterMap fun k => (upCandidate s k).map fun a => (k, a)
    let same := all.filter fun c => c.2.gm == s.tim.gmCoord
    let cs := if same.isEmpty then all else same
    let good := cs.filter fun c => !c.2.holdover
    match leastBy (fun c : Nat × Ann => c.2.hops.toNat * 2048 + c.1) (if good.isEmpty then cs else good) with
    | some (k, a) =>
      let s := timCnt 0x108 1 (followAnn k a s)
      modTim (fun m => { m with stepDue := false, followAt := if m.holdover then some s.clock else none }) s
    | none => s

/-- Enter holdover (R343). -/
def enterHoldover (s : State) : State :=
  if s.tim.holdover then modTim (fun m => { m with followAt := none }) s
  else logMb 0x4002 [] (timCnt 0x10C 1 (modTim (fun m => { m with holdover := true, holdAt := s.clock, followAt := none }) s))

/-- A sub-link on which TIME flits run (R64). -/
def timeRuns (s : State) (k : Nat) : Bool := portOn s (k / 4) && linkRuns (linkOf s k)

/-- The fields that every TIME flit of this Skarad carries. -/
def timeMsg (s : State) (seq : BitVec 16) : TimeMsg :=
  { traceable := s.tim.traceable, holdover := s.tim.holdover, leapPending := s.tim.leapPending || s.tim.leapAt != 0, tseq := seq, t := 0,
    utcOfs := 0, gm := 0, hops := 0 }

/-- SYNC_SEND (R64): the timestamp is written as the flit leaves (R63). -/
def execSyncSend (p : Port) (s : Strand) (st : State) : Outcome :=
  let k := subKey st p s
  .next <|
    if !timeRuns st k then st
    else
      let st := modLink k (fun l => { l with syncSeq := l.syncSeq + 1 }) (leaveIdle k st)
      queueTime k 0 (timeMsg st (linkOf st k).syncSeq) st

/-- ANNOUNCE_SEND (R64, R335, R345). -/
def execAnnounceSend (p : Port) (s : Strand) (st : State) : Outcome :=
  let k := subKey st p s
  .next <|
    if !timeRuns st k then st
    else
      let st := modLink k (fun l => { l with annSeq := l.annSeq + 1 }) (leaveIdle k st)
      let m := { timeMsg st (linkOf st k).annSeq with utcOfs := st.tim.utcOfs, gm := gmShown st, hops := if isMgr st then 0 else st.tim.hops }
      queueTime k 3 m st

/-- DELAY_REQ_SEND (R342). -/
def execDelayReqSend (st : State) : Outcome :=
  .next <|
    match st.tim.upstream with
    | some k =>
      if isMgr st || !timeRuns st k then st
      else
        let st := modLink k (fun l => { l with reqSeq := l.reqSeq + 1 }) (leaveIdle k st)
        queueTime k 1 (timeMsg st (linkOf st k).reqSeq) st
    | none => st

/-- DELAY_REQ (R63, R64): answered with t4, the request's TSEQ echoed. -/
def execDelayReq (p : Port) (s : Strand) (m : TimeMsg) (st : State) : Outcome :=
  let k := subKey st p s
  .next <|
    if !timeRuns st k then st
    else
      let st := leaveIdle k st
      queueTime k 2 { timeMsg st m.tseq with t := fabT st } st

/-- SYNC (R342): t1 from the flit, t2 as it arrives; only the upstream's is used. -/
def execSync (p : Port) (s : Strand) (m : TimeMsg) (st : State) : Outcome :=
  let k := subKey st p s
  .next <|
    if !timeRuns st k || isMgr st || st.tim.upstream ≠ some k then st
    else
      let t2 := fabT st
      let st := timCnt 0x100 1 (modLink k (fun l => { l with syncT1 := m.t, syncT2 := t2, lastSync := st.clock }) st)
      let asym := (tget 0 (portOf st p).asym (k % 4)).toInt
      let ofs := (t2 - m.t).toInt - (st.tim.delayFx + psToFx asym / 2)
      let st := modTim (fun x => { x with offset := BitVec.ofInt 32 (fxToPs ofs) }) st
      correct ofs st

/-- DELAY_RESP (R63, R342): t3 and t4 give the link delay. -/
def execDelayResp (p : Port) (s : Strand) (m : TimeMsg) (st : State) : Outcome :=
  let k := subKey st p s
  let l := linkOf st k
  .next <|
    if !timeRuns st k || isMgr st || st.tim.upstream ≠ some k || m.tseq ≠ l.reqSeq then st
    else
      let d := ((l.syncT2 - l.syncT1).toInt + (m.t - l.reqT3).toInt) / 2
      modTim (fun x => { x with delayFx := d, delay := BitVec.ofInt 32 (fxToPs d) }) st

/-- ANNOUNCE (R335, R345): the candidate's latest; the upstream's is followed at once, and a worker without an upstream chooses. leap is
a pending change of UTC_OFS. -/
def execAnnounce (p : Port) (s : Strand) (m : TimeMsg) (leap : Option (Word × BitVec 16)) (st : State) : Outcome :=
  let k := subKey st p s
  .next <|
    if !timeRuns st k then st
    else
      let a : Ann := { gm := m.gm, hops := m.hops, traceable := m.traceable, holdover := m.holdover, leap := m.leapPending, utcOfs := m.utcOfs }
      let st := modLink k (fun l => { l with ann := some a }) st
      if isMgr st then st
      else
        let st := if st.tim.upstream = some k then followAnn k a st else if st.tim.upstream.isNone then chooseUpstream st else st
        if st.tim.upstream = some k then
          match leap with
          | some (at_, next) => modTim (fun x => { x with leapAt := at_, nextUtc := next }) st
          | none => iff (!m.leapPending) (modTim fun x => { x with leapAt := 0 }) st
        else st

/-- UPSTREAM_LOST (R335, R343). -/
def execUpstreamLost (st : State) : Outcome :=
  .next <|
    match st.tim.upstream with
    | some k =>
      if isMgr st then st
      else
        let st := iff (upCandidate st k).isSome (clockTo ((linkOf st k).lastSync + 500000)) st
        let st := modLink k (fun l => { l with ann := none }) (modTim (fun m => { m with upstream := none }) st)
        chooseUpstream (enterHoldover st)
    | none => st

/-- HOLDOVER_TRACE_EXPIRY (R343). -/
def execHoldoverTraceExpiry (st : State) : Outcome :=
  .next <| if st.tim.holdover then modTim (fun m => { m with traceable := false }) (clockTo (st.tim.holdAt + st.tim.holdTraceS.toNat * 1000000000) st) else st

/-- HOLDOVER_EXIT (R343). -/
def execHoldoverExit (st : State) : Outcome :=
  .next <|
    match st.tim.followAt with
    | some t => if st.tim.holdover then logMb 0x4003 [] (modTim (fun m => { m with holdover := false, followAt := none }) (clockTo (t + 1000000000) st)) else st
    | none => st

/-! ## The grandmaster (R339 to R341, R345) -/

/-- Set fabric time to TIME_SET. -/
def applySet (s : State) : State :=
  let s := rebase s
  let t : BitVec 80 := (s.tim.setHi ++ s.tim.setLo).setWidth 80 <<< 16
  modTim (fun m => { m with base := t, slew := 0, stepSum := m.stepSum + (t - m.base).toInt, stepDue := false, armed := false }) s

/-- A write of APPLY (R339); a worker ignores it (R349). -/
def timeSetApply (s : State) : State :=
  if !isMgr s then s
  else if s.tim.armPps then modTim (fun m => { m with armed := true, armedAt := s.clock }) s
  else applySet s

/-- TIME_SET_APPLY (R339). -/
def execTimeSetApply (st : State) : Outcome := .next <| if mgmtUp st then timeSetApply st else st

/-- The distance of fabric time from the nearest whole second, positive past it. -/
def fromSecond (s : State) : Int :=
  let sec := 1000000000 * 65536
  let r := (fabT s).toNat % sec
  if r ≤ sec / 2 then r else (r : Int) - sec

/-- PPS_EDGE (R339, R340): an armed set older than 1 µs is applied; otherwise fabric time is aligned. TRACEABLE follows from four
clean edges in a row and a set made on an edge. A worker only notes that SYNC_IN_PPS is present (R348). -/
def execPpsEdge (st : State) : Outcome :=
  .next <|
    if !alive st then st
    else
      let first := st.tim.lastPps.isNone
      let clean := decide ((fromSecond st).natAbs ≤ 50 * 65536)
      let st := modTim (fun m => { m with lastPps := some st.clock, ppsOk := m.ppsOk || first, cleanPps := if clean then m.cleanPps + 1 else 0 }) st
      if !isMgr st then st
      else if st.tim.armed && decide (st.clock - st.tim.armedAt ≥ 1000) then
        modTim (fun m => { m with setOnPps := true, traceable := m.traceable || decide (m.cleanPps ≥ 4) }) (applySet st)
      else
        let st := iff st.tim.ppsOk (correct (fromSecond st)) st
        modTim (fun m => { m with traceable := m.traceable || (m.ppsOk && m.setOnPps && decide (m.cleanPps ≥ 4)) }) st

/-- SYNC_IN_LOST (R341, R343): the grandmaster's holdover begins when no reference is left (log entry 24). -/
def execSyncInLost (pin : SyncPin) (st : State) : Outcome :=
  .next <|
    let had := match pin with | .pps => st.tim.ppsOk | .tenM => st.tim.tenmOk
    if !alive st || !had then st
    else
      let st := modTim (fun m => match pin with
        | .pps => { m with ppsOk := false, cleanPps := 0, setOnPps := false }
        | .tenM => { m with tenmOk := false }) st
      if !isMgr st then st
      else
        let st := logMb 0x4010 [] st
        if st.tim.ppsOk || st.tim.tenmOk then st else enterHoldover st

/-- A grandmaster in holdover follows its reference (R343). -/
def followRef (s : State) : State :=
  modTim (fun m => { m with followAt := if m.holdover && (m.ppsOk || m.tenmOk) && m.followAt.isNone then some s.clock else m.followAt }) s

/-- SYNC_IN_RESTORED (R341): the reference is followed again; fabric time is aligned at its edges. -/
def execSyncInRestored (pin : SyncPin) (st : State) : Outcome :=
  .next <|
    let has := match pin with | .pps => st.tim.ppsOk | .tenM => st.tim.tenmOk
    if !alive st || has then st
    else
      let st := modTim (fun m => match pin with | .pps => { m with ppsOk := true } | .tenM => { m with tenmOk := true }) st
      if isMgr st then logMb 0x4011 [] (followRef st) else st

/-- LEAP_TAKE_EFFECT (R345). -/
def execLeapTakeEffect (st : State) : Outcome :=
  .next <|
    if st.tim.leapAt = 0 then st
    else modTim (fun m => { m with utcOfs := m.nextUtc, leapAt := 0, leapPending := false }) (fabTo (st.tim.leapAt.toNat * 1000000000) st)

/-! ## SYNC outputs (R346, R347) -/

/-- The first edge of an output at or after fabric time t ns, and whether it rises (R346): PPS is high for the first 100 ms of a second, the 10 MHz
square wave for the first 50 ns of 100 ns. -/
def nextEdge (pin : SyncPin) (t : Nat) : Nat × Bool :=
  let (p, h) := match pin with | .pps => (1000000000, 100000000) | .tenM => (100, 50)
  if t % p = 0 then (t, true) else if t % p ≤ h then (t / p * p + h, false) else ((t / p + 1) * p, true)

/-- SYNC_OUT_EDGE (R346, R347): the output's edge that comes next; eight mismatches in a row disable the driver; without E0's domain there is no
readback. -/
def execSyncOutEdge (pin : SyncPin) (matched : Bool) (st : State) : Outcome :=
  .next <|
    let en := match pin with | .pps => st.tim.ppsEn && !st.tim.ppsDis | .tenM => st.tim.tenmEn && !st.tim.tenmDis
    if !alive st then st
    else if !domOn st 0 then modTim (fun m => { m with ppsMiss := 0, tenmMiss := 0 }) st
    else if !en then st
    else
      let e := nextEdge pin ((fabNs st).toNat + 1)
      let st := emit (.syncEdge pin e.2) (fabTo e.1 st)
      let miss := if matched then 0 else 1 + (match pin with | .pps => st.tim.ppsMiss | .tenM => st.tim.tenmMiss)
      let off := decide (miss ≥ 8)
      let st := modTim (fun m => match pin with
        | .pps => { m with ppsMiss := if off then 0 else miss, ppsDis := off }
        | .tenM => { m with tenmMiss := if off then 0 else miss, tenmDis := off }) st
      iff off (logMb 0x4020 []) st

/-- A write of REARM (R347). -/
def rearm : State → State := modTim fun m => { m with ppsDis := false, tenmDis := false, ppsMiss := 0, tenmMiss := 0 }

/-- REARM (R347). -/
def execRearm (st : State) : Outcome := .next <| if mgmtUp st then rearm st else st

/-- A read of NOW_LO: fabric time is latched (R348). -/
def nowLoRead (s : State) : Word × State := ((fabNs s).setWidth 32, modTim (fun m => { m with latch := fabT s }) s)

/-- NOW_LO_READ (R348). -/
def execNowLoRead (path : Path) (st : State) : Outcome :=
  .next <| if mgmtUp st then (let (v, st) := nowLoRead st; emit (.readData path v) st) else st

end Sys2Proof.Machine
end

