-- ==== Sys2Proof/Machine/Ingress.lean ====
section
/-! DEFINITION. Packets at ingress: the checks of R96, policers (R171), the hold of a clearing (R117), steering (R191), route
lookup, lengths and poison (R88 to R91), and the way into the VOQs (R146, R147). -/

namespace Sys2Proof.Machine

/-! ## Policers (R171, R172) -/

/-- The credits of a policer at a clock. -/
def polSync (now : Nat) (w : Policer) : Policer :=
  { w with c := min (fld w.w2 0 16 * 256 * 800) (w.c + fld w.w0 0 18 * (now - w.at_)),
           p := min ((fld w.w2 16 16 * 256 * 800 : Nat) : Int) (w.p + (fld w.w1 0 18 * (now - w.at_) : Nat)), at_ := now }

/-- The colour of a packet of length len, and the credits after it. -/
def polColour (w : Policer) (colour len : Nat) : Nat × Policer :=
  let l := 800 * len
  if colour = 0 ∧ w.c ≥ l then (0, { w with c := w.c - l, p := w.p - l })
  else if colour ≠ 2 ∧ w.p ≥ (l : Int) then (1, { w with p := w.p - l })
  else (2, w)

/-- Meter a packet at ingress: the header as coloured, and whether it is dropped. -/
def police (k : Nat) (h : Hdr) (nexts : Nat) (s : State) : Hdr × Bool × State :=
  let d := dieOf k
  let j := 8 * (k % 288) + hTc h
  let w := tget {} (swcOf s d).policers j
  if !bitOf w.w0 31 || tcVc s (hTc h) ≤ 2 then (h, false, s)
  else
    let (c, w) := polColour (polSync s.clock w) (hColour h) (totalLen h nexts)
    let s := modSwc d (fun x => { x with policers := tset {} x.policers j w }) s
    let s := iff (c != hColour h) (swcCnt d 0x430 1) s
    if c = 2 ∧ bitOf w.w0 30 then (setFld h 240 2 c, true, swcCnt d 0x42C 1 s) else (setFld h 240 2 c, false, s)

/-! ## Holding (R117, R119) -/

/-- Does the running clearing hold a packet at ingress die d? MGMT traffic is never held (R115). -/
def holds (s : State) (d : Nat) (h : Hdr) : Bool :=
  match s.route.clr with
  | some c =>
    (match c.phase with | .hold | .drain | .commit | .release => true | _ => false) && bitOf c.dieMask d && bitOf c.tcMask (hTc h) &&
      hPtype h != ptMgmt &&
      decide (d * 2 ^ 20 + hDst h ∈ c.affected)
  | none => false

/-! ## VOQs (R146, R147) -/

/-- Cells of a chunk. -/
def pktCells (s : State) (pid : Nat) : Nat := match pktOf s pid with | some p => p.cells | none => 0

/-- Is there room for n cells of a port in a die's VOQs? -/
def voqRoom (s : State) (d lp n : Nat) : Bool :=
  let w := swcOf s d
  decide (w.voq + n ≤ 16 * w.voqReserve.toNat ∧ tget 0 w.voqPort lp + n ≤ 16 * w.voqCap.toNat)

/-- A whole chunk moves from staging into its VOQ. -/
def voqPut (d lp pid x : Nat) (s : State) : State :=
  match pktOf s pid with
  | none => s
  | some p =>
    let key := 8 * lp + 2 * x + (p.vc - 1)
    let s := leaveStaging pid s
    let s := modSwc d (fun w => { w with voqs := tset [] w.voqs key (tget [] w.voqs key ++ [pid]), voq := w.voq + p.cells,
                                         voqPort := tset 0 w.voqPort lp (tget 0 w.voqPort lp + p.cells), free := w.free - p.cells }) s
    countBytes (2 * d) (256 * p.cells) s

/-- A whole chunk for reduction die x goes to its VOQ or waits in staging behind the port's others (R147). -/
def toVoq (k pid x : Nat) (s : State) : State :=
  let d := dieOf k
  let lp := k / 4 % 72
  if (swcOf s d).voqWait.any (fun e => e.1 = lp) || !voqRoom s d lp (pktCells s pid) then
    modSwc d (fun w => { w with voqWait := w.voqWait ++ [(lp, pid, x)], stallAt := if w.voqWait.isEmpty then s.clock else w.stallAt }) s
  else voqPut d lp pid x s

/-- VOQ_STALL brought up to the clock (R164): while chunks wait for VOQ room it counts the tokens of the die. How many tokens pass in a
time is a free value: R19 gives their rate a floor and a typical figure only (log entry 45). -/
def voqStall (d : Nat) (s : State) : State :=
  if (swcOf s d).voqWait.isEmpty || s.clock ≤ (swcOf s d).stallAt then s
  else
    let (v, s) := draw s
    swcCnt d 0x414 v.toNat (modSwc d (fun w => { w with stallAt := s.clock }) s)

/-- Chunks that wait for VOQ room, in order: each port's first that fits moves (R147). -/
def voqRetry (d : Nat) (s : State) : State :=
  let s := voqStall d s
  ((swcOf s d).voqWait.foldl (fun (acc : List Nat × State) e =>
    if e.1 ∈ acc.1 then acc
    else if voqRoom acc.2 d e.1 (pktCells acc.2 e.2.1) then
      (acc.1, voqPut d e.1 e.2.1 e.2.2 (modSwc d (fun w => { w with voqWait := dropFirst e w.voqWait }) acc.2))
    else (e.1 :: acc.1, acc.2)) ([], s)).2

/-! ## The way of a packet after its checks -/

/-- KINDs of CTRL that are steered by GROUP (R192). -/
def steeredKind (kind : Nat) : Bool := kind == 2 || kind == 3 || kind == 4 || kind == 6

/-- Is a packet steered to a context (R191)? body is the payload in its first flit. -/
def steered (s : State) (h : Hdr) (body : List Byte) : Bool :=
  hPtype h == ptChunk || (hPtype h == ptCtrl && (hDst h == s.gctl.ownId.toNat || steeredKind (byteAt body 0).toNat))

/-- What becomes of a packet at ingress. -/
inductive Way where
  | mgmt
  | hold
  | reduce (x : Nat)
  | drop (core : Bool) (ofs : Option Nat)
  | route (m : Nat)

/-- Decide the way of a packet (R77, R117, R191, R105). -/
def wayOf (k : Nat) (h : Hdr) (body : List Byte) (s : State) : Way × State :=
  let d := dieOf k
  if hPtype h = ptMgmt ∧ hDst h = s.gctl.ownId.toNat then (.mgmt, s)
  else if steered s h body then
    match tget none ((swcOf s d).ctxMap.map fun e => (e.1, some e.2)) (hGroup h) with
    | some e => (.reduce e.die.toNat, s)
    | none => (.drop true (some 0x434), s)
  else if holds s d h then (.hold, routeCnt (0x300 + 0x20 * d + 0x0C) 1 s)
  else
    match lookup d h s with
    | (.drop ofs, s) => (.drop false (some ofs), s)
    | (.go m, s) => (.route m, s)

/-- A drop at ingress is counted in the switch core (R164) or in ROUTE (R131); one by a policer has been counted. -/
def countDrop (d : Nat) (core : Bool) (ofs : Option Nat) (s : State) : State :=
  match ofs with
  | none => s
  | some o => if core then swcCnt d o 1 s else routeCnt (0x300 + 0x20 * d + o) 1 s

/-- A received COMMAND or COMPLETION, a NOTICE, or a switch-internal message not from an endpoint is delivered; any other KIND is
dropped (R393). Either way the packet ends here; what a message does is the command of its own row. -/
def deliverMgmt (k v pid : Nat) (s : State) : State :=
  setPkt pid none (dropEntry k v pid (leaveStaging pid s))

/-- The first telemetry insert takes T_FIRST (R86). -/
def telemetryIn (h : Hdr) (xs : List Ext) (t : Nat) : List Ext :=
  match extOfType h xs 2 with
  | some (i, x) => if xHopsSeen x = 0 then xs.set i (setFld x 68 48 t) else xs
  | none => xs

/-- Start a packet whose checks have passed: metered, observed, and sent on its way. single marks a whole packet. It is observed as it
stands after HOPS, the colour and T_FIRST have been written, which the spec leaves open (log entry 112). Its copies are formed after it has
gone its way (R154). -/
def startPacket (k v : Nat) (h : Hdr) (exts : List Ext) (data : List Byte) (single : Bool) (s : State) : State :=
  let d := dieOf k
  let pid := s.nextPid
  let s := { s with nextPid := pid + 1 }
  let (h, red, s) := police k (ingressHdr h) exts.length s
  let exts := telemetryIn h exts ((fabNs s).toNat % 2 ^ 48)
  let body := data.drop (32 + 16 * exts.length)
  let p : Pkt := { hdr := h, exts := exts, body := body, pos := some k, vc := v, stamp := steadyNs s, rxTotal := totalLen h exts.length, tailIn := single,
                   poison := false, begun := false, flits := 1, stag := 1, cells := cellsOf (totalLen h exts.length), opened := false, shared := false, mirror := false,
                   mcast := false, refs := 1, obs := [] }
  let (way, s) := if red then (Way.drop false none, s) else wayOf k h body s
  let dropped := match way with | .drop _ _ => true | _ => false
  let (os, s) := observe k 0 dropped p s
  let ent (st : Stage) : InEnt := { pid := pid, stage := st, obs := if single then [] else os }
  let put (st : Stage) (s : State) : State := setStaging k v (stagingOf s k v ++ [ent st]) s
  iff single (each os formCopy) <| match way with
  | .drop core ofs => let s := releaseFlits k v 1 (countDrop d core ofs s); if single then s else put .dropped s
  | .mgmt => let s := put .mgmt (setPkt pid (some p) s); if single then deliverMgmt k v pid s else s
  | .hold => put .held (setPkt pid (some p) s)
  | .reduce x => let s := setPkt pid (some p) s; if single then toVoq k pid x s else put (.reduce x) s
  | .route m =>
    let s := setPkt pid (some p) s
    let s := if single then s else put .forwarded s
    toEgress d d v m [qkey s m (hTc h)] pid s

/-- BODY flits that follow a handled HEAD in the receive queue join its packet; n bounds them. -/
def absorbBodies (k v : Nat) : Nat → State → State
  | 0, s => s
  | n + 1, s =>
    match (linkOf s k).rxq.find? fun f => f.vc = v with
    | some f =>
      if f.typ = 1 then
        absorbBodies k v n (absorbBody k v f (modLink k (fun l => { l with rxq := dropFirst f l.rxq }) s))
      else s
    | none => s

/-- A packet that is held or waits at the front of a VC's staging keeps the later packets of the VC behind it (R119). -/
def vcBlocked (s : State) (k v : Nat) : Bool := (stagingOf s k v).any fun e => e.stage == .held

/-- Handle the HEAD or SINGLE flit f at the front of a VC. -/
def handleHead (k v : Nat) (f : Flit) (s : State) : State :=
  let p := k / 4
  let single := decide (f.typ = 3)
  let s := modLink k (fun l => { l with rxq := dropFirst f l.rxq }) s
  let fill (st : Stage) (s : State) : State :=
    setStaging k v (stagingOf s k v ++ [{ pid := s.nextPid, stage := st }]) { s with nextPid := s.nextPid + 1 }
  match headChecks s k v f.data f.len single with
  | .inl ofs => let s := releaseFlits k v 1 (portCnt p ofs 1 s); if single then s else fill .refused s
  | .inr (h, exts) =>
    let total := totalLen h exts.length
    if single then
      if f.poison then releaseFlits k v 1 (portCnt p 0x134 1 s)
      else if total = f.len then startPacket k v h exts (f.data.take f.len) true s
      else releaseFlits k v 1 (portCnt p 0x12C 1 s)
    else if flitsOf total ≤ 1 then fill (.long false) (releaseFlits k v 1 s)
    else startPacket k v h exts (f.data.take f.len) false s

/-- PACKET_HEAD_ARRIVAL (R96): the first packet not yet handled on a VC. -/
def execPacketHeadArrival (p : Port) (s : Strand) (vc : Vc) (st : State) : Outcome :=
  let k := subKey st p s
  .next <|
    if !portOn st p || vcBlocked st k vc then st
    else match (linkOf st k).rxq.find? fun f => f.vc = vc.val with
      | some f =>
        if f.typ = 0 ∨ f.typ = 3 then
          absorbBodies k vc 20 (handleHead k vc f st)
        else st
      | none => st

/-- A packet whose TAIL makes its length good goes on: cells are closed, a chunk moves to its VOQ, a message is delivered (R146). -/
def tailGood (k v : Nat) (e : InEnt) (s : State) : State :=
  match e.stage with
  | .forwarded => closeCells e.pid (dropEntry k v e.pid s)
  | .reduce x => toVoq k e.pid x (dropEntry k v e.pid s)
  | .mgmt => deliverMgmt k v e.pid s
  | _ => s

/-- The TAIL of the open packet of a VC (R90, R91). -/
def handleTail (k v : Nat) (f : Flit) (s : State) : State :=
  let p := k / 4
  let s := modLink k (fun l => { l with rxq := dropFirst f l.rxq }) s
  match openEntry s k v with
  | none => releaseFlits k v 1 s
  | some e =>
    let data := f.data.take f.len
    let copies := each (e.obs.map (obsMore data)) formCopy
    match e.stage, pktOf s e.pid with
    | .refused, _ => releaseFlits k v 1 (dropEntry k v e.pid s)
    | .dropped, _ =>
      let s := releaseFlits k v 1 (dropEntry k v e.pid s)
      if f.poison then portCnt p 0x134 1 s else copies s
    | .long b, _ =>
      releaseFlits k v 1 (dropEntry k v e.pid (portCnt p (if f.poison then 0x134 else if b then 0x130 else 0x12C) 1 s))
    | _, none => releaseFlits k v 1 (dropEntry k v e.pid s)
    | _, some x =>
      let total := x.rxTotal
      let good := decide (x.flits + 1 = flitsOf total ∧ f.len = total - 232 * (flitsOf total - 1))
      let s := modPkt e.pid (fun x => { x with body := x.body ++ data, flits := x.flits + 1, tailIn := true,
                                               stag := if x.stag = 0 then 0 else x.stag + 1 }) s
      let s := iff (x.stag == 0) (releaseFlits k v 1) s
      if f.poison || !good then
        let s := portCnt p (if f.poison then 0x134 else if x.begun then 0x130 else 0x12C) 1 s
        endPoisoned e.pid (dropEntry k v e.pid s)
      else
        let s := copies (tailGood k v e s)
        each (x.obs.map (obsMore data)) formCopy (modPkt e.pid (fun y => { y with obs := [] }) s)

/-- PACKET_TAIL_ARRIVAL (R90): the TAIL at the front of a VC. -/
def execPacketTailArrival (p : Port) (s : Strand) (vc : Vc) (st : State) : Outcome :=
  let k := subKey st p s
  .next <|
    if !portOn st p then st
    else match (linkOf st k).rxq.find? fun f => f.vc = vc.val with
      | some f => if f.typ = 2 then handleTail k vc f st else st
      | none => st

end Sys2Proof.Machine
end

