-- ==== Sys2Proof/Machine/Sched.lean ====
section
/-! DEFINITION. Admission to the Glade, bridges, the schedulers, shapers, age, depth samples and the reducer ports (chapters 5
and 6). -/

namespace Sys2Proof.Machine

/-! ## Admission (R140 to R145) -/

/-- The core of die d works. -/
def coreUp (s : State) (d : Nat) : Bool := alive s && dieLive s d

/-- RED on a multicast copy: a draw for each of its queues. Its TCs are lossless (R141), so that it is marked or goes on; one mark is one
packet in ECN_MARKED (R174; log entry 112). -/
def redMulticast (d : Nat) (a : Arr) (p : Pkt) (s : State) : State :=
  let (marked, s) := a.targets.foldl (fun (acc : Bool × State) g =>
    let (v, s) := draw acc.2
    (acc.1 || redDecision s g p.hdr false (v.toNat % 65536) == some true, s)) (false, s)
  if marked then swcCnt d 0x428 1 (modPkt a.pid (fun p => { p with hdr := setFld p.hdr 238 2 3 }) s) else s

/-- A multicast copy reaches the head of a die's arrivals: RED, then R143. -/
def mcastFront (d : Nat) (a : Arr) (p : Pkt) (s : State) : State := tryMulticast d a (redMulticast d a p s)

/-- A HEAD at its egress die: RED, then R140 (R173 to R175). A multicast copy waits for all its queues (R143). -/
def admitFront (d : Nat) (a : Arr) (s : State) : State :=
  match pktOf s a.pid with
  | none => dropArr d a s
  | some p =>
    if p.mcast then mcastFront d a p s
    else
      let g := a.targets.headD 0
      let (v, s) := draw s
      match redDecision s g p.hdr p.mirror (v.toNat % 65536) with
      | none => tryAdmit d a g false s
      | some true => tryAdmit d a g true (modPkt a.pid (fun p => { p with hdr := setFld p.hdr 238 2 3 }) s)
      | some false => dropEgress d (g / 8) 0x424 a.pid s

/-- GLADE_ADMISSION (R140): the oldest HEAD that has reached egress die d. -/
def execGladeAdmission (d : FabDie) (st : State) : Outcome :=
  .next <|
    if !coreUp st d then st
    else match (swcOf st d).arrive with
      | a :: _ => admitFront d a st
      | [] => st

/-- LOSSLESS_ADMIT (R141): the first waiting packet that now fits, behind no other of its queue. -/
def execLosslessAdmit (d : FabDie) (st : State) : Outcome :=
  .next <|
    if !coreUp st d then st
    else
      let fits (a : Arr) : Bool := match pktOf st a.pid with
        | some p => !p.mcast && !waitsBefore st d a && (admits st (a.targets.headD 0) p.cells).isSome
        | none => true
      match (swcOf st d).waiting.find? fits with
      | some a => tryAdmit d a (a.targets.headD 0) false st
      | none => st

/-- MULTICAST_ADMISSION (R143): the first multicast copy that every target queue now admits. -/
def execMulticastAdmission (d : FabDie) (st : State) : Outcome :=
  .next <|
    if !coreUp st d then st
    else
      let up (a : Arr) := a.targets.filter fun g => !linkGone st (g / 8)
      let fits (a : Arr) : Bool := match pktOf st a.pid with
        | some p => p.mcast && (up a).all fun g => (admits st g p.cells).isSome
        | none => false
      match (swcOf st d).waiting.find? fits, (swcOf st d).arrive.find? fits with
      | some a, _ => tryMulticast d a st
      | none, some a => match pktOf st a.pid with
        | some p => mcastFront d a p st
        | none => st
      | none, none => st

/-- The first packet that waits for credit toward die de on a VC, from die or reducer port src, crosses if its credit is there. -/
def crossNext (src de vc : Nat) (s : State) : State :=
  let at_ := if src < 4 then src else de
  match (swcOf s at_).bridgeWait.find? fun a => a.src = src && a.vc = vc && dieOf (a.targets.headD 0 / 8) = de with
  | none => s
  | some a =>
    let n := pktCells s a.pid
    let room := if src < 4 then bridgeRoom 64 1024 (fun v => tget 0 (swcOf s src).spentCred (8 * de + v)) vc else redRoom s de src vc
    if room < n then s
    else
      let s := modSwc at_ (fun w => { w with bridgeWait := dropFirst a w.bridgeWait }) s
      let s := iff (decide (src < 4)) (modSwc src fun w => { w with spentCred := tset 0 w.spentCred (8 * de + vc) (tget 0 w.spentCred (8 * de + vc) + n) }) s
      let s := landTake de src vc n (if src < 4 then leaveStaging a.pid s else s)
      modSwc de (fun w => { w with arrive := w.arrive ++ [a] }) (countBytes (2 * de) (256 * n) s)

/-- BRIDGE_CREDIT_RETURN (R144, R145): one credit freed at die dst returns to its sender, which may then send. src is a fabric die, or
4 + x for reduction die x. -/
def execBridgeCreditReturn (src dst : Fin 8) (vc : Vc) (st : State) : Outcome :=
  .next <|
    if !alive st || dst.val ≥ 4 || src = dst || tget 0 (swcOf st dst).landRet (8 * src + vc) = 0 then st
    else
      let st := modSwc dst (fun w => { w with landRet := tset 0 w.landRet (8 * src.val + vc) (tget 0 w.landRet (8 * src.val + vc) - 1) }) st
      let st := iff (decide (src.val < 4)) (modSwc src fun w =>
        { w with spentCred := tset 0 w.spentCred (8 * dst.val + vc) (tget 0 w.spentCred (8 * dst.val + vc) - 1) }) st
      crossNext src dst vc st

/-! ## Queue grants (R86, R94, R151, R153, R166, R176) -/

/-- The bin of a value under a shift (R176). -/
def binOf (x k : Nat) : Nat := if x >>> k = 0 then 0 else min 15 (Nat.log2 (x >>> k) + 1)

/-- A delay or depth sample into the histogram engines of queue g (R176). -/
def histSample (g : Nat) (delay : Bool) (x : Nat) (s : State) : State :=
  let d := qdie g
  each ((swcOf s d).hist.map Prod.fst) (fun h => modSwc d fun w =>
    let e := tget {} w.hist h
    if e.en && !e.frozen && e.queue.toNat == g % 2304 then
      { w with hist := tset {} w.hist h (if delay then
          { e with delay := bump e.delay (binOf x e.delayShift.toNat) 1, maxDelay := BitVec.ofNat 32 (max e.maxDelay.toNat (min x 0xFFFFFFFF)) }
        else { e with depth := bump e.depth (binOf x e.depthShift.toNat) 1, maxDepth := BitVec.ofNat 32 (max e.maxDepth.toNat (min x 0xFFFFFFFF)) }) }
    else w) s

/-- The packet as it leaves toward sub-link k: the tunnel is taken off toward an endpoint (R85) and the telemetry insert
updated (R86). res is its residence in the queue in ns. -/
def leavePkt (s : State) (k q res : Nat) (p : Pkt) : Pkt :=
  let endp := !(linkOf s k).peerSwitch
  let exts := match extOfType p.hdr p.exts 2 with
    | some (i, x) => p.exts.set i (telemetryOut x res s.gctl.coord.toNat (k / 4) q)
    | none => p.exts
  let p := { p with exts := exts }
  match (if endp then extOfType p.hdr exts 1 else none) with
  | some (i, x) =>
    let nxt := xNext x
    let hdr := setFld p.hdr 176 16 (xTkey x)
    if i = 0 then { p with hdr := setFld hdr 248 4 nxt, exts := exts.drop 1 }
    else { p with hdr := hdr, exts := (exts.set (i - 1) (setFld (exts.getD (i - 1) 0) 124 4 nxt)).eraseIdx i }
  | none => p

/-- The key in force at egress (R94). -/
def egressKey (p : Pkt) : Nat := match extOfType p.hdr p.exts 1 with | some (_, x) => xTkey x | none => hPkey p.hdr

/-- Grant queue g's first packet (R166): tags, key check, rewriting, observation and counts. -/
def grantQueue (k vc q : Nat) (s : State) : State :=
  let g := 8 * k + q
  let d := dieOf k
  match headEnt (queueOf s g) with
  | none => s
  | some e => match pktOf s e.pid with
    | none => s
    | some p =>
      if !(linkOf s k).peerSwitch && !keyAllowed s k (egressKey p) true then
        refresh k (newHead g (unlink g e.pid (portCnt (k / 4) 0x140 1 (mirrorDrop k e.pid s))))
      else
        let p' := if p.mcast then p else leavePkt s k q (steadyNs s - e.linkedAt) p
        let n := flitsOf (pktTotal p')
        let s := modPkt e.pid (fun _ => p') s
        let s := modSched k (fun c =>
          let v := tget 0 c.qS q
          let f := v + tagInc n (qWeight s g)
          { c with qV := tset 0 c.qV vc v, qF := tset 0 c.qF q f, qS := tset 0 c.qS q f, cur := tset { q := 0, pid := s.nextPid } c.cur vc { q := g, pid := e.pid } }) s
        let s := modQueue g (fun x => { x with ents := x.ents.map fun y => if y.pid = e.pid then { y with granted := true } else y }) s
        let s := histSample g true (steadyNs s - p.stamp) s
        let s := swcCnt d (if e.cut && !p.tailIn then 0x41C else 0x420) 1 s
        let s := countBytes (2 * d + 1) (256 * p.cells) (swcInject d 0 s)
        let (os, s) := observe k 1 false p' s
        let s := if p'.tailIn then each os formCopy s else modPkt e.pid (fun x => { x with obs := x.obs ++ os }) s
        refresh k (newHead g s)

/-- May VC v of sub-link k carry packets now (R44)? -/
def vcOpen (s : State) (k v : Nat) : Bool := portOn s (k / 4) && vcRuns (linkOf s k).st v && dieLive s (dieOf k)

/-- QUEUE_GRANT (R166). -/
def execQueueGrant (p : Port) (s : Strand) (vc : Vc) (st : State) : Outcome :=
  let k := subKey st p s
  .next <|
    if !vcOpen st k vc || (schedOf st k).cur.any (fun e => e.1 == vc.val) then st
    else
      let st := refresh k st
      match leastTag (fun q => tget 0 (schedOf st k).qS q) ((queuesOfVc st vc).filter fun q => queueEligible st (8 * k + q)) with
      | some q => grantQueue k vc q st
      | none => st

/-- Build the next flit of the packet in progress on VC v of sub-link k (R42, R43). -/
def buildFlit (k v : Nat) (c : Cur) (e : QEnt) (p : Pkt) (s : State) : State :=
  let w := wire p
  let n := if p.tailIn then max (flitsOf w.length) (e.sent + 1) else flitsOf (pktTotal p)
  let last := e.sent + 1 = n
  let data := (w.drop (232 * e.sent)).take 232
  let typ : BitVec 3 := if n = 1 then 3 else if e.sent = 0 then 0 else if last then 2 else 1
  let f : Flit := { seq := 0, vc := v, typ := typ, len := max 1 data.length, poison := p.poison && last, replay := false, data := data, sentAt := 0,
                    src := some (c.q, c.pid) }
  let s := leaveIdle k (modLink k (fun l => { l with txq := l.txq ++ [f] }) s)
  let s := modQueue c.q (fun q => { shSpend s.clock q with ents := q.ents.map fun x => if x.pid = c.pid then { x with sent := x.sent + 1 } else x }) s
  let s := if last then modSched k (fun x => { x with cur := x.cur.filter fun y => y.1 ≠ v }) s else s
  refresh k s

/-- VC_GRANT (R166): the VC with the smallest tag sends one flit of its packet. -/
def execVcGrant (p : Port) (s : Strand) (st : State) : Outcome :=
  let k := subKey st p s
  .next <|
    let st := refresh k st
    match leastTag (fun v => tget 0 (schedOf st k).vS v) ((List.range 7).filter fun v => vcOpen st k v && vcEligible st k v) with
    | none => st
    | some v =>
      let c := tget { q := 0, pid := st.nextPid } (schedOf st k).cur v
      match pktOf st c.pid, (queueOf st c.q).ents.find? (fun e => e.pid = c.pid) with
      | some x, some e =>
        let st := modSched k (fun b =>
          let t := tget 0 b.vS v
          let f := t + tagInc 1 (vcWeight st (k / 4) v)
          { b with vV := t, vF := tset 0 b.vF v f, vS := tset 0 b.vS v f }) st
        buildFlit k v c e x st
      | _, _ => st

/-! ## Age, shapers, depth (R109, R113, R151, R169, R173) -/

/-- AGE_SWEEP (R151): a queue that cannot be served is swept by age. -/
def execAgeSweep (p : Port) (s : Strand) (q : Fin 8) (st : State) : Outcome :=
  let k := subKey st p s
  let g := 8 * k + q.val
  .next <|
    let vc := ((List.range 8).find? fun v => q.val ∈ queuesOfVc st v).getD 0
    let served := vcOpen st k vc && shAllows st.clock (queueOf st g) && decide (tget 0 (linkOf st k).credHeld vc > 0)
    if !alive st || served then st else refresh k (agePurge g st)

/-- SHAPER_CREDIT_ZERO (R166, R169): the queue wakes at the current V once its credit is back at 0. -/
def execShaperCreditZero (p : Port) (s : Strand) (q : Fin 8) (st : State) : Outcome :=
  let k := subKey st p s
  .next <| if alive st then refresh k (modQueue (8 * k + q.val) (shSync st.clock) st) else st

/-- The level of a depth on a die (R110). -/
def levelOf (s : State) (d depth : Nat) : Nat :=
  let t12 := tget 0 s.route.qt12 d
  let t3 := tget 0 s.route.qt3 d
  if depth < 16 * fld t12 0 16 then 0 else if depth < 16 * fld t12 16 16 then 1 else if depth < 16 * fld t3 0 16 then 2 else 3

/-- The queue average after a sample (R173). -/
def ewma (avg : Rat) (depth w : Nat) : Rat := avg + ((depth : Rat) - avg) / (2 ^ w : Nat)

/-- DEPTH_SAMPLE (R109, R173, R176): depths, levels and averages of the queues of die d. -/
def execDepthSample (d : FabDie) (st : State) : Outcome :=
  .next <|
    if !coreUp st d then st
    else
      let gs := (st.queues.map Prod.fst).filter fun g => qdie g = d.val
      let st := each gs (fun g s =>
        let q := queueOf s g
        let w := fld (tget 0 (swcOf s d).redProf (4 * fld q.qsched 28 4 + 3)) 0 4
        let s := modQueue g (fun q => { q with avg := ewma q.avg (depthOf q) w, level := levelOf s d (depthOf q) }) s
        modRoute (fun r => { r with levels := tset 0 r.levels g (levelOf s d (depthOf q)) }) s) st
      each (uniq ((swcOf st d).hist.map fun e => e.2.queue.toNat)) (fun i s =>
        if i < 2304 then histSample (2304 * d.val + i) false (depthOf (queueOf s (2304 * d.val + i))) s else s) st

/-- REJOIN (R113): a live member joins ordered choice. -/
def execRejoin (p : Port) (s : Strand) (st : State) : Outcome :=
  let k := subKey st p s
  .next <| match (linkOf st k).liveSince with
    | some t => if memberLive st k then modLink k (fun l => { l with joined := true }) (clockTo (t + 1000 * ((List.range 4).map fun d => (tget 0 st.route.rejoinUs d).toNat).foldl max 0) st) else st
    | none => st

/-! ## Reducer ports (R146 to R149) -/

/-- Has a VOQ a packet that its reduction die may take? While a chunk intake request of the die waits for a buffer, it takes no chunk
(R322). -/
def voqHas (s : State) (d lp x v : Nat) : Bool :=
  match tget [] (swcOf s d).voqs (8 * lp + 2 * x + v) with
  | [] => false
  | pid :: _ => !(poolWaits s (4 * x) && (match pktOf s pid with | some p => hPtype p.hdr == ptChunk | none => false))

/-- The first number at or after ptr, modulo n, for which f holds. -/
def firstFrom (n ptr : Nat) (f : Nat → Bool) : Option Nat := ((List.range n).map fun i => (ptr + i) % n).find? f

/-- One iteration of R148: matches so far are pairs (port, reducer port). -/
def matchIter (s : State) (d : Nat) (first : Bool) (ms : List (Nat × Nat)) : List (Nat × Nat) × (SwcSt → SwcSt) :=
  let w := swcOf s d
  let grants := (List.range 4).filterMap fun r =>
    if ms.any (fun m => m.2 = r) then none
    else (firstFrom 72 (tget 0 w.gptr r) fun p => !ms.any (fun m => m.1 = p) && (voqHas s d p r 0 || voqHas s d p r 1)).map fun p => (p, r)
  let ports := uniq (grants.map Prod.fst)
  let acc := ports.filterMap fun p => (firstFrom 4 (tget 0 w.aptr p) fun r => grants.contains (p, r)).map fun r => (p, r)
  (ms ++ acc, fun w => if first then acc.foldl (fun w m => { w with gptr := tset 0 w.gptr m.2 ((m.1 + 1) % 72), aptr := tset 0 w.aptr m.1 ((m.2 + 1) % 4) }) w else w)

/-- A matched port sends one whole chunk over reducer port x, alternating between its VC1 and VC2 lists (R148). For a die that is not live a
CHUNK is discarded (R210); a CTRL is the collective engine's. -/
def sendChunk (d lp x : Nat) (s : State) : State :=
  let w := swcOf s d
  let key := 8 * lp + 2 * x
  let last := tget 0 w.rr (4 * lp + x)
  let order := if last = 1 then [1, 0] else [0, 1]
  match order.find? fun v => voqHas s d lp x v with
  | none => s
  | some v =>
    match tget [] w.voqs (key + v) with
    | [] => s
    | pid :: r =>
      let n := pktCells s pid
      let s := modSwc d (fun w => { w with voqs := tset [] w.voqs (key + v) r, voqPort := tset 0 w.voqPort lp (tget 0 w.voqPort lp - n), voq := w.voq - n,
                                           free := w.free + n, rr := tset 0 w.rr (4 * lp + x) (1 - v) }) s
      let s := countBytes (2 * d + 1) (256 * n) s
      if !redLive s x && isChunkPid s pid then discardChunk pid s else modRed x (fun r => { r with inbox := r.inbox ++ [(d, pid)] }) s

/-- REDUCER_MATCHING_ROUND (R148): up to three iterations, then the matched chunks cross; room freed takes waiting chunks (R147). -/
def execReducerMatchingRound (d : FabDie) (st : State) : Outcome :=
  .next <|
    if !coreUp st d then st
    else
      let (m1, f) := matchIter st d true []
      let (m2, _) := matchIter st d false m1
      let (m3, _) := matchIter st d false m2
      let st := modSwc d f st
      voqRetry d (each m3 (fun m s => sendChunk d m.1 m.2 s) st)

end Sys2Proof.Machine
end

