-- ==== Sys2Proof/Machine/Clearing.lean ====
section
/-! DEFINITION. The table window (R126, R127), clearings (R115 to R122), fabric-wide changes (R124, R125), and the registers of the
switch core whose writes act (R157, R170, R172, R176, R182). -/

namespace Sys2Proof.Machine

/-! ## Records (R106 to R108, R116) -/

/-- Is a position the lowest strand of a sub-link (R108)? -/
def lowestStrand (s : State) (m : Nat) : Bool := decide (m < 1152) && decide (m ∈ subKeys s (m / 4))

/-- A set of nine words as one value, word 0 lowest. -/
def setOfWords (ws : List Word) : BitVec 288 := BitVec.ofNat 288 (((List.range 9).map fun i => (ws.getD i 0).toNat * 2 ^ (32 * i)).sum)

/-- Does a set pass R107 and R108? -/
def setOk (s : State) (w : BitVec 288) : Bool :=
  let n := setSize w
  let ms := (List.range n).map fun i => fld w (32 + 16 * i) 16
  decide (1 ≤ n ∧ n ≤ 16) && fld w 5 27 == 0 && ms.Nodup && ms.all (lowestStrand s)

def entKey (d i : Nat) : Nat := d * 2 ^ 20 + i
def setKey (d i : Nat) : Nat := d * 2 ^ 14 + i

/-- Write an entry or a set of a die into the shadow and mark it dirty. The zero bits of an entry stay zero (R106, R6). -/
def shadowEnt (d i : Nat) (w : Word) : State → State := modRoute fun r =>
  { r with shadow := tset 0 r.shadow (entKey d i) (w &&& 0xC0003FFF#32), dirtyEnt := insNat (entKey d i) r.dirtyEnt }
def shadowPutSet (d i : Nat) (w : BitVec 288) : State → State := modRoute fun r =>
  { r with shadowSet := tset 0 r.shadowSet (setKey d i) w, dirtySet := insNat (setKey d i) r.dirtySet }

/-- A record of a change list, on every die that both masks name (R116); a set that fails R108 leaves its shadow record. -/
def stageRec (dieMask : BitVec 4) (r : RouteRec) (s : State) : State :=
  each ((List.range 4).filter fun d => bitOf (dieMask &&& r.mask) d && !bitOf s.units.fabLost d) (fun d s =>
    let i := r.index.toNat
    if r.kind = 0 then (if i < 2 ^ 20 then shadowEnt d i (r.words.getD 0 0) s else s)
    else if r.kind = 1 then
      (if decide (i < 2 ^ 14) && setOk s (setOfWords r.words) then shadowPutSet d i (setOfWords r.words) s else s)
    else s) s

/-- A record of R116 from its 48 bytes. -/
def recOf (l : List Byte) : RouteRec :=
  { kind := byteAt l 0, mask := (byteAt l 1).setWidth 4, index := BitVec.ofNat 32 (le l 4 4),
    words := (List.range 9).map fun i => BitVec.ofNat 32 (le l (8 + 4 * i) 4) }

/-! ## Running a clearing (R117) -/

/-- The dirty keys of the dies a clearing names. -/
def dirtyEnts (s : State) (m : BitVec 4) : List Nat := s.route.dirtyEnt.filter fun k => bitOf m (k / 2 ^ 20)
def dirtySets (s : State) (m : BitVec 4) : List Nat := s.route.dirtySet.filter fun k => bitOf m (k / 2 ^ 14)

/-- Destinations whose entry is written, or whose live entry names a set that is written (R115), by entry key. -/
def affectedKeys (s : State) (m : BitVec 4) : List Nat :=
  let sets := dirtySets s m
  let named := s.route.live.filterMap fun e =>
    if bitOf m (e.1 / 2 ^ 20) && fld e.2 30 2 == 1 && sets.contains (setKey (e.1 / 2 ^ 20) (fld e.2 0 14)) then some e.1 else none
  uniq (dirtyEnts s m ++ named)

/-- The members of the old and of the new set of an affected destination. -/
def membersOf (s : State) (key : Nat) : List Nat :=
  let d := key / 2 ^ 20
  let old := tget 0 s.route.live key
  let new := if key ∈ s.route.dirtyEnt then tget 0 s.route.shadow key else old
  let oldSet := if fld old 30 2 = 1 then setMembers (tget 0 s.route.liveSet (setKey d (fld old 0 14))) else []
  let nk := setKey d (fld new 0 14)
  let newSet := if fld new 30 2 = 1 then setMembers (if nk ∈ s.route.dirtySet then tget 0 s.route.shadowSet nk else tget 0 s.route.liveSet nk) else []
  oldSet ++ newSet

/-- The packets ahead of a marker placed in queue g now: those in the queue not yet granted, and those on their way to it. -/
def aheadOf (s : State) (g : Nat) : List Nat :=
  ((queueOf s g).ents.filter fun e => !e.granted).map QEnt.pid ++
    (List.range 4).flatMap fun d => let w := swcOf s d
      ((w.arrive ++ w.waiting ++ w.bridgeWait).filter fun a => g ∈ a.targets).map Arr.pid

/-- Is a marker at its queue head (R117)? One of a sub-link that is down, or of a fenced die, counts as reached (R125). -/
def markerDone (s : State) (m : Marker) : Bool :=
  let now := aheadOf s m.g
  linkGone s (m.g / 8) || bitOf s.units.fabLost (qdie m.g) || m.ahead.all fun pid => !now.contains pid

/-- Steps of each phase: STAGE, of them the scan, and COMMIT. -/
def stageSteps (recs : Nat) (sets : Bool) : Nat := cdiv recs 8192 + (if sets then 16 else 0)
def commitSteps (s : State) (m : BitVec 4) : Nat := cdiv ((dirtyEnts s m).length + (dirtySets s m).length) 8192
def drainUs (s : State) : Nat := max 10 (min 100000 s.route.drainLimit.toNat)
def drainSteps (s : State) : Nat := cdiv (drainUs s) 50

def modClr (f : Clearing → Clearing) : State → State := modRoute fun r => { r with clr := r.clr.map f }

/-- Is STAGE over? -/
def stageOver (s : State) (c : Clearing) : Bool :=
  decide (8192 * c.staged ≥ c.recs.length) && ((dirtySets s c.dieMask).isEmpty || decide (c.scanned ≥ 16))

/-- A STAGE with nothing left to do gives way to HOLD (R117). -/
def stageEnd (s : State) : State :=
  match s.route.clr with
  | some c => if c.phase = .stage && stageOver s c then modClr (fun c => { c with phase := .hold }) s else s
  | none => s

/-- Is COMMIT over? -/
def commitOver (s : State) (m : BitVec 4) : Bool := (dirtyEnts s m).isEmpty && (dirtySets s m).isEmpty

/-- The phase after DRAIN, and after a COMMIT step: RELEASE once nothing is dirty (R117). -/
def commitPhase (s : State) (m : BitVec 4) : ClrPhase := if commitOver s m then .release else .commit

/-- Begin a clearing: its first phase is STAGE, its total the largest possible (R118). -/
def clrBegin (src : ClrSrc) (dieMask : BitVec 4) (tcMask : Byte) (recs : List RouteRec) (s : State) : State :=
  let full := each recs (stageRec dieMask) s
  let sets := !(dirtySets full dieMask).isEmpty
  let total := stageSteps recs.length sets + 1 + drainSteps s + commitSteps full dieMask + 1
  stageEnd <| modRoute (fun r => { r with clr := some {
      src := src, phase := .stage, dieMask := dieMask, tcMask := tcMask, recs := recs, staged := 0, scanned := 0, drainAt := 0, markers := [],
      affected := [], dones := 0, total := total, aborted := false, committed := false, heardAt := s.clock } }) s

/-- Held packets are looked up anew in order of arrival (R117, R119). -/
def releaseHeld (s : State) : State :=
  each (s.staging.map Prod.fst) (fun key s =>
    let k := key / 8
    let v := key % 8
    each ((stagingOf s k v).filter fun e => e.stage == .held) (fun e s =>
      match pktOf s e.pid with
      | none => dropEntry k v e.pid s
      | some p =>
        let d := dieOf k
        let s := if p.tailIn then dropEntry k v e.pid s else setStage k v e.pid .forwarded s
        if tooOld s d p then dropPkt e.pid (swcCnt d 0x404 1 s) else routePkt d e.pid s) s) s

/-- The clearing ends: the filter is cleared, then held packets go. -/
def clrEnd (reverted : Bool) (s : State) : State :=
  releaseHeld (modRoute (fun r => { r with clr := none, reverted := reverted }) s)

/-- Discard the dirty records of the dies named: the shadow shows the live record again (R120, R121; log entry 25). -/
def dropDirty (m : BitVec 4) (s : State) : State :=
  let s := each (dirtyEnts s m) (fun k => modRoute fun r =>
    { r with shadow := tset 0 r.shadow k (tget 0 r.live k), dirtyEnt := r.dirtyEnt.filter (· ≠ k) }) s
  each (dirtySets s m) (fun k => modRoute fun r =>
    { r with shadowSet := tset 0 r.shadowSet k (tget 0 r.liveSet k), dirtySet := r.dirtySet.filter (· ≠ k) }) s

/-- Revert the running clearing: the old table stands (R120, R121, R125). Of a change that the manager drives no phase counts as run. -/
def clrRevert (s : State) : State :=
  match s.route.clr with
  | some c => iff (c.src == .manager) (modRoute fun r => { r with lastAck := .idle }) (clrEnd true (dropDirty c.dieMask s))
  | none => s

/-- STAGE as far as one step goes: 8,192 records, then the scan. -/
def clrStage (c : Clearing) (s : State) : State :=
  if 8192 * c.staged < c.recs.length then
    modClr (fun c => { c with staged := c.staged + 1 }) (each ((c.recs.drop (8192 * c.staged)).take 8192) (stageRec c.dieMask) s)
  else modClr (fun c => { c with scanned := c.scanned + 1 }) s

/-- HOLD: the filter is set and markers are placed; a marker with nothing ahead is at its head. -/
def clrHold (s : State) : State :=
  match s.route.clr with
  | none => s
  | some c =>
    let keys := affectedKeys s c.dieMask
    let ms := uniq (keys.flatMap (membersOf s))
    let tcs := (List.range 8).filter (bitOf c.tcMask)
    let gs := uniq (ms.flatMap fun m => tcs.map fun tc => qkey s m tc)
    let marks := (gs.map fun g => ({ g := g, ahead := aheadOf s g } : Marker)).filter fun m => !m.ahead.isEmpty
    modClr (fun c => { c with phase := .drain, affected := keys, markers := marks, drainAt := c.dones + 1, heardAt := s.clock }) s

/-- One step of COMMIT: up to 8,192 dirty records are copied to the live bank; the tables of a fenced die are no longer written (R125). -/
def clrCommit (m : BitVec 4) (s : State) : State :=
  let ents := (dirtyEnts s m).take 8192
  let sets := (dirtySets s m).take (8192 - ents.length)
  let lost := s.units.fabLost
  let s := modRoute (fun r => { r with
    live := (ents.filter fun k => !bitOf lost (k / 2 ^ 20)).foldl (fun t k => tset 0 t k (tget 0 r.shadow k)) r.live
    dirtyEnt := r.dirtyEnt.filter fun k => !ents.contains k }) s
  modClr (fun c => { c with committed := true }) (modRoute (fun r => { r with
    liveSet := (sets.filter fun k => !bitOf lost (k / 2 ^ 14)).foldl (fun t k => tset 0 t k (tget 0 r.shadowSet k)) r.liveSet
    dirtySet := r.dirtySet.filter fun k => !sets.contains k }) s)

/-- Purge what is ahead of the outstanding markers and belongs to masked TCs (R120). -/
def clrPurge (c : Clearing) (s : State) : State :=
  each c.markers (fun m s => each (aheadOf s m.g) (fun pid s =>
    match pktOf s pid with
    | some p =>
      if m.ahead.contains pid && bitOf c.tcMask (hTc p.hdr) then
        let s := routeCnt (0x300 + 0x20 * qdie m.g + 0x10) p.cells s
        let s := mirrorDrop (m.g / 8) pid s
        if (queueOf s m.g).ents.any fun e => e.pid = pid then newHead m.g (unlink m.g pid s) else dropPkt pid s
      else s
    | none => s) s) s

/-- DRAIN reaches its limit (R120): revert, or purge and commit. In a change that the manager drives DRAIN has ended then, and COMMIT
waits for its message (R124). -/
def clrTimeout (s : State) : State :=
  match s.route.clr with
  | some c =>
    if s.route.onTimeout then
      let s := clrPurge c s
      modClr (fun c => { c with phase := if c.src = .manager then .drain else commitPhase s c.dieMask, markers := [], purged := true }) s
    else clrRevert s
  | none => s

/-- Markers that have reached their heads are taken away; with none left DRAIN is over. -/
def clrMarkers (s : State) : State :=
  match s.route.clr with
  | some c => let ms := c.markers.filter fun m => !markerDone s m
              modClr (fun c => { c with markers := ms }) s
  | none => s

/-- How one step of a clearing command left it. -/
inductive ClrOut where
  | going | done | timedOut
deriving DecidableEq, Repr

/-- Count a step of the clearing, its total lowered where a phase ended early (R118). -/
def clrCount (left : Nat) : State → State := modClr fun c => { c with dones := c.dones + 1, total := c.dones + 1 + left }

/-- One step of a clearing that a ring runs (R117 to R121). -/
def clrStep (s : State) : ClrOut × State :=
  match s.route.clr with
  | none => (.done, s)
  | some c =>
    match c.phase with
    | .stage => (.going, modClr (fun c => { c with dones := c.dones + 1 }) (stageEnd (clrStage c s)))
    | .hold => (.going, modClr (fun c => { c with dones := c.dones + 1 }) (clrHold s))
    | .drain =>
      let s := clrMarkers s
      let isOver := match s.route.clr with | some c => c.markers.isEmpty | none => true
      if isOver then (.going, clrCount (commitSteps s c.dieMask + 1) (modClr (fun c => { c with phase := commitPhase s c.dieMask }) s))
      else if c.dones + 1 - c.drainAt ≥ drainSteps s then
        if s.route.onTimeout then (.going, clrCount (commitSteps s c.dieMask + 1) (clrTimeout s)) else (.timedOut, clrTimeout s)
      else (.going, modClr (fun c => { c with dones := c.dones + 1 }) s)
    | .commit =>
      let s := clrCommit c.dieMask s
      (.going, modClr (fun k => { k with dones := k.dones + 1, phase := commitPhase s c.dieMask }) s)
    | _ => (.done, clrEnd false s)

/-! ## Fabric-wide changes (R124, R125) -/

/-- A worker's own end of a phase that the manager drives: STAGE and COMMIT run whole; DRAIN may have markers left. Answers whether
the phase has ended. -/
def runPhase (m : PhaseMsg) (s : State) : Bool × State :=
  match m.phase with
  | .stage =>
    if s.route.clr.isSome then (false, modRoute (fun r => { r with waitMsg := some m }) s)
    else
      let s := clrBegin .manager m.dieMask m.tcMask m.recs s
      let s := each m.recs (stageRec m.dieMask) s
      (true, modClr (fun c => { c with phase := .stage, staged := cdiv m.recs.length 8192, scanned := 16 }) s)
  | .hold => let s := clrHold s; (true, modClr (fun c => { c with phase := .hold }) s)
  | .drain =>
    let s := clrMarkers (modClr (fun c => { c with phase := .drain, heardAt := s.clock }) s)
    ((match s.route.clr with | some c => c.markers.isEmpty | none => true), s)
  | .commit =>
    let s := modClr (fun c => { c with phase := .commit }) s
    let n := match s.route.clr with | some c => commitSteps s c.dieMask + 1 | none => 0
    (true, (List.range n).foldl (fun s _ => clrCommit m.dieMask s) s)
  | .release => (true, clrEnd false s)
  | .idle => (true, s)

/-- The mask of TCs covers one that is mapped to VC0: such a clearing is refused (R115). -/
def coversVc0 (s : State) (tcs : Byte) : Bool := (List.range 8).any fun t => bitOf tcs t && tcVc s t == 0

/-- May the phase follow the clearing's state here? -/
def phaseFits (s : State) (m : PhaseMsg) : Bool :=
  match m.phase, s.route.clr with
  | .stage, _ => !coversVc0 s m.tcMask
  | .hold, some c => c.src == .manager && c.phase == .stage
  | .drain, some c => c.src == .manager && c.phase == .hold
  | .commit, some c => c.src == .manager && c.phase == .drain
  | .release, some c => c.src == .manager && c.phase == .commit
  | _, _ => false

/-- The message of a phase of a change. -/
def phaseMsgOf (f : FabChange) (ph : ClrPhase) (revert : Bool) : PhaseMsg :=
  { revert := revert, phase := ph, dieMask := f.dieMask, tcMask := f.tcMask, recs := if ph = .stage then f.recs else [] }

def nextPhase : ClrPhase → ClrPhase
  | .stage => .hold | .hold => .drain | .drain => .commit | .commit => .release | _ => .idle

/-- A phase has ended here; the record is compared when the manager sends the phase again (R125). -/
def phaseDone (ph : ClrPhase) : State → State := modRoute fun r => { r with lastAck := ph }

/-- A phase that the manager sends: one that has ended here has its answer at once, one under way goes on, one that fits runs. Answers
whether it has ended. -/
def servePhase (m : PhaseMsg) (s : State) : Bool × State :=
  if m.phase = s.route.lastAck && m.phase ≠ .idle then (true, s)
  else if phaseFits s m then
    let r := runPhase m s
    (r.1, iff r.1 (phaseDone m.phase) r.2)
  else (false, s)

/-- The manager starts a phase on every worker still in the change; its own part runs at once. -/
def startPhase (s : State) : State :=
  match s.mgr.change with
  | none => s
  | some f =>
    let m := phaseMsgOf f f.phase false
    let s := modMgr (fun g => { g with phaseAt := s.clock, change := some { f with waiting := f.workers, begun := f.begun || f.phase == .commit || f.phase == .release } }) s
    each f.workers (fun w s =>
      if w = s.gctl.coord then
        let (isOver, s) := servePhase m s
        if isOver then modMgr (fun g => { g with change := g.change.map fun f => { f with waiting := f.waiting.filter (· ≠ w) } }) s else s
      else emit (.phaseMsg w m) s) s

/-- End a change: the ring that asked for it gets its status (0 OK, 1 ABORTED), left to the command processor. -/
def endChange (status : Nat) (s : State) : State :=
  match s.mgr.change with
  | none => s
  | some f =>
    let s := modMgr (fun g => { g with change := none, lastChange := if status = 0 then some f else g.lastChange }) s
    match f.ring with
    | some r => modRing r (fun x => { x with cur := x.cur.map fun c => { c with result := some (BitVec.ofNat 16 status, 0) } }) s
    | none => s

/-- A change as it is sent again, as a new clearing, to a worker that reverted (R125). -/
def changeFor (f : FabChange) (w : Coord) : FabChange :=
  { f with phase := .stage, workers := [w], waiting := [w], begun := false, ring := none }

/-- Phases advance while no worker is awaited; after RELEASE the change is complete, and a worker that reverted gets it again
(R125). n bounds the phases. -/
def advance : Nat → State → State
  | 0, s => s
  | n + 1, s =>
    match s.mgr.change with
    | none => s
    | some f =>
      if !f.waiting.isEmpty then s
      else if f.phase = .release then
        let s := endChange 0 s
        match s.mgr.again with
        | [] => s
        | c :: r => advance n (startPhase (modMgr (fun g => { g with again := r, change := some c }) s))
      else
        advance n (startPhase (modMgr (fun g => { g with change := some { f with phase := nextPhase f.phase } }) s))

/-- The manager begins a change on every registered Skarad, itself included (R124; log entry 26). -/
def fabBegin (ring : Option Nat) (dieMask : BitVec 4) (tcMask : Byte) (recs : List RouteRec) (s : State) : State :=
  let ws := uniq (s.gctl.coord :: ((regRecs s).filter fun e => e.2.isSwitch).map fun e => e.2.coord)
  let s := modMgr (fun g => { g with change := some {
      phase := .stage, workers := ws, waiting := ws, begun := false, reverting := false, dieMask := dieMask, tcMask := tcMask, recs := recs, ring := ring } }) s
  advance 12 (startPhase s)

/-- A worker says that it has reverted (R125). One of a change in which no COMMIT has begun does not answer its phase, which PHASE_LIMIT ends
(R124); from COMMIT on the others complete, and it gets the change again; so does one that answers after its change has ended. -/
def ackRevert (w : Coord) (s : State) : State :=
  match s.mgr.change with
  | some f =>
    if f.workers.contains w then
      if f.begun then
        advance 12 (modMgr (fun g => { g with again := g.again ++ [changeFor f w],
                                              change := some { f with workers := f.workers.filter (· ≠ w), waiting := f.waiting.filter (· ≠ w) } }) s)
      else s
    else modMgr (fun g => { g with again := g.again ++ g.lastChange.toList.map (changeFor · w) }) s
  | none =>
    match s.mgr.lastChange with
    | some f => advance 12 (startPhase (modMgr (fun g => { g with change := some (changeFor f w) }) s))
    | none => s

/-- The manager's own clearing or a worker's acknowledgement ends a phase for one Skarad. -/
def ackPhase (w : Coord) (ph : ClrPhase) (s : State) : State :=
  if ph = .idle then ackRevert w s
  else match s.mgr.change with
  | none => s
  | some f =>
    if ph = f.phase then
      advance 12 (modMgr (fun g => { g with change := some { f with waiting := f.waiting.filter (· ≠ w) } }) s)
    else s

/-- The end of a phase here is acknowledged: to the manager, or in its own change. -/
def phaseEnded (ph : ClrPhase) (s : State) : State :=
  let s := phaseDone ph s
  if isMgr s then ackPhase s.gctl.coord ph s else emit (.phaseAck s.gctl.coord ph) s

/-- With no clearing left, a STAGE message that waited for its end runs (R122). -/
def stageWaiting (s : State) : State :=
  match s.route.clr, s.route.waitMsg with
  | none, some m =>
    let (isOver, s) := runPhase m (modRoute (fun r => { r with waitMsg := none }) s)
    if isOver then phaseEnded .stage s else s
  | _, _ => s

/-- A revert of the manager: its clearing here is reverted unless it has begun COMMIT, and a STAGE that waits is given up (R124). -/
def managerRevert (s : State) : State :=
  let s := modRoute (fun r => { r with waitMsg := none }) s
  match s.route.clr with
  | some c => if c.src = .manager && !c.committed then clrRevert s else s
  | none => s

/-- Every worker of a change is told to revert, and the change ends ABORTED (R124). -/
def revertChange (s : State) : State :=
  match s.mgr.change with
  | none => s
  | some f =>
    let s := each f.workers (fun w s =>
      if w = s.gctl.coord then managerRevert s
      else emit (.phaseMsg w (phaseMsgOf f f.phase true)) s) s
    endChange 1 s

/-! ## The commands -/

/-- DRAIN_MARKER_REACHED (R117): the markers of the queue named that are at its head; with the last one a phase that the manager
drives ends. -/
def execDrainMarkerReached (p : Port) (s : Strand) (q : Fin 8) (st : State) : Outcome :=
  let g := 8 * subKey st p s + q.val
  .next <|
    match st.route.clr with
    | none => st
    | some c =>
      let ms := c.markers.filter fun m => !(m.g = g && markerDone st m)
      let st := modClr (fun c => { c with markers := ms }) st
      if ms.isEmpty && !c.markers.isEmpty && c.src == .manager && c.phase == .drain then phaseEnded .drain st else st

/-- DRAIN_LIMIT_TIMEOUT (R120). -/
def execDrainLimitTimeout (st : State) : Outcome :=
  .next <|
    match st.route.clr with
    | none => st
    | some c =>
      if c.phase ≠ .drain || (clrMarkers st).route.clr.elim true (fun c => c.markers.isEmpty) then st
      else
        let st := clrMarkers (clockTo (c.heardAt + 1000 * drainUs st) st)
        match c.src with
        | .manager => let st := clrTimeout st; stageWaiting (phaseEnded (if st.route.clr.isSome then .drain else .idle) st)
        | .ring r =>
          let st := clrTimeout st
          if st.route.clr.isSome then st
          else stageWaiting <| modRing r (fun x => { x with cur := x.cur.map fun k => { k with dones := c.dones + 1, total := c.dones + 1, result := some (6, BitVec.ofNat 32 (c.dones + 1)) } }) st

/-- FABRIC_PHASE_MESSAGE (R124): a worker runs the phase and acknowledges its end, or reverts. A phase that does not fit, or a STAGE that R115
refuses, has no answer. -/
def execFabricPhaseMessage (m : PhaseMsg) (st : State) : Outcome :=
  .next <|
    if !alive st || isMgr st then st
    else if m.revert then managerRevert st
    else
      let st := modClr (fun c => if c.src = .manager then { c with heardAt := st.clock } else c) st
      let (isOver, st) := servePhase m st
      if isOver then stageWaiting (phaseEnded m.phase st) else st

/-- PHASE_ACK (R124): the manager starts the next phase when every worker has answered. -/
def execPhaseAck (worker : Coord) (phase : ClrPhase) (st : State) : Outcome :=
  .next <| if alive st && isMgr st then ackPhase worker phase st else st

/-- PHASE_LIMIT_TIMEOUT (R124): before COMMIT the change is reverted; after it the others complete. -/
def execPhaseLimitTimeout (worker : Coord) (st : State) : Outcome :=
  .next <|
    match st.mgr.change with
    | none => st
    | some f =>
      if !alive st || !isMgr st || !f.waiting.contains worker then st
      else
        let st := clockTo (st.mgr.phaseAt + 1000 * st.mgr.phaseLimitUs) st
        if !f.begun then revertChange st
        else advance 12 (modMgr (fun g => { g with change := some { f with workers := f.workers.filter (· ≠ worker), waiting := f.waiting.filter (· ≠ worker) } }) st)

/-- CLEAR_REVERT (R125): a worker in HOLD or DRAIN that hears nothing reverts by itself. -/
def execClearRevert (st : State) : Outcome :=
  .next <|
    match st.route.clr with
    | some c =>
      if c.src = .manager && !isMgr st && (c.phase == .hold || c.phase == .drain) then
        stageWaiting (emit (.phaseAck st.gctl.coord .idle) (clrRevert (logMb 0x1410 [] (clockTo (c.heardAt + st.route.holdLimit.toNat * 1000000) st))))
      else st
    | none => st

/-! ## The table window (R126, R127) -/

def winDie (s : State) : Nat := fld s.route.winCtl 30 2
def winTable (s : State) : Nat := fld s.route.winCtl 28 2
def winIndex (s : State) : Nat := fld s.route.winCtl 0 20

/-- The words of a 288-bit record. -/
def wordsOf (w : BitVec 288) : List Word := (List.range 9).map fun i => w.extractLsb' (32 * i) 32

/-- The record addressed, as twelve words (R127). -/
def winRecord (s : State) : List Word :=
  let d := winDie s
  let i := winIndex s
  let live := bitOf s.route.winCtl 27
  match winTable s with
  | 0 => [tget 0 (if live then s.route.live else s.route.shadow) (entKey d i)]
  | 1 => if i < 2 ^ 14 then wordsOf (tget 0 (if live then s.route.liveSet else s.route.shadowSet) (setKey d i)) else []
  | 2 => if i < 65536 then wordsOf ((tget none (swcOf s d).members i).getD 0) else []
  | _ => []

/-- A write of RT_WIN_CTL: the record addressed is loaded, unless the die's core is off (R127). -/
def rtWinCtl (val : Word) (s : State) : State :=
  let keep := fld s.route.winCtl 24 2
  let s := modRoute (fun r => { r with winCtl := setFld (setFld val 24 2 keep) 20 4 0 }) s
  if dieLive s (winDie s) then
    let ws := winRecord s
    modRoute (fun r => { r with winData := (List.range 12).foldl (fun t k => tset 0 t k (ws.getD k 0)) [] }) s
  else s

/-- RT_WIN_CTL_WRITE (R127). -/
def execRtWinCtlWrite (val : Word) (st : State) : Outcome := .next <| if mgmtUp st then rtWinCtl val st else st

def winStatus (v : Nat) : State → State := modRoute fun r => { r with winCtl := setFld r.winCtl 24 2 v }

/-- A completed record is checked and written (R108, R123, R125, R126). -/
def winWrite (s : State) : State :=
  let d := winDie s
  let i := winIndex s
  let ws := (List.range 12).map fun k => tget 0 s.route.winData k
  let w := setOfWords ws
  let next := fun s => iff (bitOf s.route.winCtl 26) (modRoute fun r => { r with winCtl := setFld r.winCtl 0 20 (fld r.winCtl 0 20 + 1) }) s
  match winTable s with
  | 0 =>
    if s.route.clr.isSome && s.route.dirtyEnt.contains (entKey d i) then winStatus 2 s
    else next (winStatus 0 (shadowEnt d i (ws.getD 0 0) s))
  | 1 =>
    if i ≥ 2 ^ 14 then winStatus 3 s
    else if s.route.clr.isSome && s.route.dirtySet.contains (setKey d i) then winStatus 2 s
    else if setOk s w then next (winStatus 0 (shadowPutSet d i w s))
    else winStatus 1 s
  | 2 =>
    if i ≥ 65536 then winStatus 3 s
    else next (winStatus 0 (modSwc d (fun x => { x with members := tset none x.members i (some w) }) s))
  | _ => winStatus 3 s

/-- A write of RT_WIN_DATA[k]; the last word of the table's record completes it. -/
def rtWinData (k : Nat) (val : Word) (s : State) : State :=
  if !dieLive s (winDie s) then offAccess (domCore (winDie s)) 1 (0x100010 + 4 * k) s
  else
    let s := modRoute (fun r => { r with winData := tset 0 r.winData k val }) s
    if k = (match winTable s with | 0 => 0 | 1 => 8 | 2 => 8 | _ => 0) then winWrite s else s

/-- RT_WIN_DATA_WRITE (R127). -/
def execRtWinDataWrite (k : Fin 12) (val : Word) (st : State) : Outcome := .next <| if mgmtUp st then rtWinData k val st else st

/-! ## Registers of the switch core (R157, R170, R172, R176, R182) -/

/-- Serve a register write of die d's core, or count an access to a domain that is off (R452). -/
def onCore (d addr : Nat) (f : State → State) (s : State) : State :=
  if !mgmtUp s then s else if dieLive s d then f s else offAccess (domCore d) 1 addr s

/-- The books of R145 and R156 on die d. -/
def gladeBook (s : State) (d : Nat) : Bool :=
  let w := swcOf s d
  decide (w.free + w.queued + w.voq + w.landing + w.opened = 786432)

/-- Landing cells occupied at die d for a source, all VCs together. -/
def landSum (t : Tbl Nat) (src : Nat) : Nat := ((List.range 8).map fun v => tget 0 t (8 * src + v)).sum

def bridgeBook (s : State) (d : Nat) : Bool :=
  ((List.range 4).filter (· ≠ d)).all (fun e =>
    bitOf s.units.fabLost e || decide (landSum (swcOf s d).landOcc e ≤ landSum (swcOf s e).spentCred d)) &&
  (List.range 4).all fun x => decide (landSum (swcOf s d).landOcc (4 + x) + landSum (swcOf s d).landRet (4 + x) ≤ 576)

/-- A failed Glade audit: the event, and the fence on a second failure within 1 s (R157, R420). -/
def auditFailed (d : Nat) (s : State) : State :=
  let again := match (swcOf s d).auditFailAt with | some t => decide (s.clock - t ≤ 1000000000) | none => false
  let s := modSwc d (fun w => { w with auditErr := true, auditFailAt := some s.clock }) s
  let s := logEvent 0x1101 2 d [] s
  iff again (fenceDie d) s

/-- SNAP of die d (R157): the counts are frozen and the books compared. -/
def auditSnap (d : Nat) (s : State) : State :=
  let s := modSwc d (fun w => { w with snapFree := BitVec.ofNat 20 w.free, snapQueued := BitVec.ofNat 20 w.queued, snapVoq := BitVec.ofNat 20 w.voq,
                                       snapLanding := BitVec.ofNat 20 w.landing, snapOpen := BitVec.ofNat 20 w.opened }) s
  if gladeBook s d && bridgeBook s d then s else auditFailed d s

/-- AUDIT_SNAP (R157). -/
def execAuditSnap (d : FabDie) (st : State) : Outcome := .next <| onCore d (0x200010 + 0x40000 * d) (auditSnap d) st

/-- A write of SHAPER word 0 (R170). -/
def shaperPut (g : Nat) (val : Word) (s : State) : State := refresh (g / 8) (modQueue g (shReset s.clock val) s)

/-- SHAPER_WRITE (R170). -/
def execShaperWrite (d : FabDie) (i : Fin 2304) (val : Word) (st : State) : Outcome :=
  .next <| onCore d (0x208000 + 0x40000 * d + 8 * i) (shaperPut (2304 * d.val + i.val) val) st

/-- A write of a POLICER word: its reserved bits stay zero, and C and P take their bursts (R172, R181). -/
def policerPut (d j k : Nat) (val : Word) (s : State) : State :=
  modSwc d (fun w =>
    let x := tget {} w.policers j
    let x := match k with
      | 0 => { x with w0 := val &&& 0xC003FFFF#32 }
      | 1 => { x with w1 := val &&& 0x3FFFF#32 }
      | 2 => { x with w2 := val }
      | _ => x
    { w with policers := tset {} w.policers j { x with c := fld x.w2 0 16 * 256 * 800, p := (fld x.w2 16 16 * 256 * 800 : Nat), at_ := s.clock } }) s

/-- POLICER_WRITE (R172). -/
def execPolicerWrite (d : FabDie) (j : Fin 2304) (k : Fin 3) (val : Word) (st : State) : Outcome :=
  .next <| onCore d (0x224000 + 0x40000 * d + 0x10 * j + 4 * k) (policerPut d j k val) st

/-- Clear the bins and maxima of an engine. -/
def histClear (e : Hist) : Hist := { e with depth := [], delay := [], maxDepth := 0, maxDelay := 0 }

def modHist (d h : Nat) (f : Hist → Hist) : State → State := modSwc d fun w => { w with hist := tmod {} w.hist h f }

/-- HIST_CLR (R182). -/
def execHistClr (d : FabDie) (h : Fin 64) (st : State) : Outcome :=
  .next <| onCore d (0x238000 + 0x40000 * d + 0x100 * h) (modHist d h histClear) st

/-- A change of the queue an engine observes clears it (R176). -/
def histQueue (q : BitVec 12) (e : Hist) : Hist := if e.queue = q then e else { histClear e with queue := q }

/-- HIST_QUEUE_CHANGE (R176). -/
def execHistQueueChange (d : FabDie) (h : Fin 64) (q : BitVec 12) (st : State) : Outcome :=
  .next <| onCore d (0x238000 + 0x40000 * d + 0x100 * h) (modHist d h (histQueue q)) st

end Sys2Proof.Machine
end

