-- ==== Sys2Proof/Machine/Startup.lean ====
section
/-! DEFINITION. Configuration image and start-up (chapter 14): the checks of R359, the loading of an image, powering the domains,
the override window, the manager's heartbeat and takeover (R369), and resets (R361, R370, R417, R476). -/

namespace Sys2Proof.Machine

/-! ## The image's bytes (R354, R355) -/

/-- A directory entry (R355). -/
structure DirEnt where
  typ : Nat
  inst : Nat
  zeros : Bool
  ofs : Nat
  len : Nat
  crc : Nat
deriving DecidableEq, Repr

def dirEnts (f : FlashRead) : List DirEnt :=
  (List.range (le f.header 10 2)).map fun i =>
    let b := sub f.dir (16 * i) 16
    { typ := le b 0 1, inst := le b 1 1, zeros := le b 2 2 == 0, ofs := le b 4 4, len := le b 8 4, crc := le b 12 4 }

def imgGen (f : FlashRead) : Nat := le f.header 16 4
def imgSigned (f : FlashRead) : Bool := le f.header 24 4 % 2 == 1

/-- Check 2 of R359. -/
def headerOk (f : FlashRead) : Bool :=
  let h := f.header
  h.length == 128 && decide (h.take 8 = [0x4F, 0x4C, 0x53, 0x4B, 0x49, 0x4D, 0x47, 0x31]) && le h 8 2 == 1 && le h 124 4 == (crc32c (h.take 124)).toNat &&
    imgGen f != 0 && imgGen f != 0xFFFFFFFF && decide (1 ≤ le h 10 2 ∧ le h 10 2 ≤ 64) && decide (le h 12 4 ≤ 33554432) && le h 28 4 == 128 &&
    decide (le h 24 4 < 2) && (sub h 64 60).all (· = 0)

/-- Do two sections overlap? -/
def overlap (a b : DirEnt) : Bool := decide (a.ofs < b.ofs + b.len) && decide (b.ofs < a.ofs + a.len)

/-- No two of a list stand in a relation. -/
def noPair {α : Type} (f : α → α → Bool) : List α → Bool
  | [] => true
  | a :: r => r.all (fun b => !f a b) && noPair f r

/-- Check 3 of R359. -/
def dirOk (f : FlashRead) : Bool :=
  let es := dirEnts f
  le f.header 32 4 == (crc32c (sub f.dir 0 (16 * es.length))).toNat &&
    es.all (fun e => e.zeros && e.ofs % 64 == 0 && decide (128 + 16 * es.length ≤ e.ofs) && decide (e.ofs + e.len ≤ le f.header 12 4) &&
      (if e.typ = 4 ∨ e.typ = 5 then decide (e.inst < 4) else e.inst == 255)) &&
    noPair (fun a b => overlap a b || (a.typ == b.typ && a.inst == b.inst)) es

/-- Checks 1 to 3: the RESULT of the first that fails. -/
def headFail (f : FlashRead) : Option Nat :=
  if !f.readOk then some 6 else if !headerOk f then some 2 else if !dirOk f then some 3 else none

/-- Check 4: the first section whose CRC fails, in directory order. -/
def sectFail (f : FlashRead) : Option DirEnt :=
  (((dirEnts f).zip f.sects).find? fun e => e.1.typ != 0x7F && (e.2.length != e.1.len || (crc32c e.2).toNat != e.1.crc)).map Prod.fst

/-- Check 5 (R358): with no key fused there is nothing to check. -/
def sigOk (s : State) (f : FlashRead) : Bool :=
  match s.fuses.keyHash with
  | none => true
  | some k =>
    match (dirEnts f).getLast?, f.sects.getLast? with
    | some e, some b =>
      imgSigned f && e.typ == 0x7F && e.ofs + e.len == le f.header 12 4 && Config.sha384 (b.take 97) == k &&
        Config.imageSignatureOk (f.header ++ f.dir ++ (f.sects.take (f.sects.length - 1)).flatten) b
    | _, _ => false

/-! ## The content (check 6) -/

def sumMin (s : State) (c : ClassSect) (d : Nat) : Nat :=
  ((c.minCells.filter fun e => decide (e.1 / 2304 = d) && lowestStrand s (e.1 / 8)).map Prod.snd).sum

/-- Pool area of stack m in 64 KiB units (R307). -/
def poolUnitsOf (r : Option RedSect) (m : Nat) : Nat :=
  match r with
  | some r => 16 * r.n1m.getD m 0 + 4 * r.n256.getD m 0 + r.n64.getD m 0
  | none => 0

/-- A port's configuration from the ports section; the wave number is p mod 12 where the section gives none (R365). -/
def portFrom (c : PortCfg) (p : Nat) : PortSt :=
  { enabled := c.enabled, breakout := c.breakout, d0Only := c.d0Only, wave := c.wave.getD (p % 12), darkEn := c.darkEn, idleEn := c.idleEn,
    idleNs := c.idleNs, vcW0 := c.vcW0, vcW1 := vcW1Word c.vcW1
    asym := (List.range 4).foldl (fun t i => tset 0 t i (c.timeAsym.getD i 0)) [] }

def loadPorts (c : ImageContent) (s : State) : State :=
  { s with ports := (List.range 288).foldl (fun t p => tset {} t p (portFrom (tget {} c.ports p) p)) [] }

/-- The failing section's TYPE and INST of check 6, with 0 and 0xFF where the failure is in no section; sc has the image's ports. -/
def contentCheck (sc : State) (f : FlashRead) : Option (Nat × Nat) :=
  let c := f.content
  let es := dirEnts f
  let r := c.red
  let sb := (r.map RedSect.shardBlocks).getD 0
  let n0 := (r.map RedSect.pool0).getD 2048
  let n1 := (r.map RedSect.pool1).getD 512
  let total (l : List Nat) := (l.take 8).sum
  let dram := match r with | some r => total r.n64 + total r.n256 + total r.n1m | none => 0
  let known := [1, 2, 3, 4, 5, 6, 7, 8, 9, 10, 11, 0x7F]
  match es.find? fun e => e.typ ∉ known with
  | some e => some (e.typ, e.inst)
  | none =>
    if [1, 2, 3, 6].any (fun t => es.all fun e => e.typ != t) || (imgSigned f && es.all fun e => e.typ != 0x7F) then some (0, 255)
    else if c.fabricId.toNat ≠ le f.header 20 4 then some (1, 255)
    else if c.mgrCoord = c.sbyCoord ∨ c.mgrId = c.sbyId then some (2, 255)
    else if (List.range 288).any (fun p => decide ((portOf sc p).breakout.toNat > 4)) ||
        (List.range 24).any (fun e => (List.range 12).any fun w => (List.range 12).all fun i => (portOf sc (12 * e + i)).wave != w) then some (3, 255)
    else match c.routes.find? fun e => e.2.any fun x => x.kind == 1 && !setOk sc (setOfWords x.words) with
      | some e => some (4, e.1)
      | none => match c.parts.find? fun e => decide (e.2.tunnels.length > 256) with
        | some e => some (5, e.1)
        | none =>
          if (List.range 4).any (fun d => decide (sumMin sc c.classes d + 16 * c.classes.voqReserve + 65536 > 779520)) then some (6, 255)
          else if decide (sb > 260300290) || 4 * n0 + 16 * n1 != 16384 || decide (dram > 16384) ||
              (List.range 8).any (fun m => decide ((3 + poolUnitsOf r m) * 65536 + 528 * ((sb + 1 - m % 2) / 2) > 2 ^ 36)) ||
              (match r with | some r => r.program.any fun e => decide (e.1 > 16383) | none => false) then some (8, 255)
          else none

/-- Check 6. -/
def contentFail (s : State) (f : FlashRead) : Option (Nat × Nat) := contentCheck (loadPorts f.content s) f

/-- All six checks: RESULT with the failing section's TYPE and INST. -/
def imageFail (s : State) (f : FlashRead) : Option (Nat × Nat × Nat) :=
  match headFail f with
  | some r => some (r, 0, 255)
  | none => match sectFail f with
    | some e => some (4, e.typ, e.inst)
    | none =>
      if !sigOk s f then some (5, 0x7F, 255)
      else (contentFail s f).map fun e => (7, e.1, e.2)

/-! ## Loading (R356, R357) -/

/-- Records of a route tables section go to both banks of its die (R357). -/
def loadRoute (d : Nat) (x : RouteRec) (s : State) : State :=
  let i := x.index.toNat
  let ent (i : Nat) (w : Word) := modRoute fun r => { r with live := tset 0 r.live (entKey d i) (w &&& 0xC0003FFF#32), shadow := tset 0 r.shadow (entKey d i) (w &&& 0xC0003FFF#32) }
  if x.kind = 0 then (if i < 2 ^ 20 then ent i (x.words.getD 0 0) s else s)
  else if x.kind = 1 then
    (if i < 2 ^ 14 then modRoute (fun r => { r with liveSet := tset 0 r.liveSet (setKey d i) (setOfWords x.words),
                                                    shadowSet := tset 0 r.shadowSet (setKey d i) (setOfWords x.words) }) s else s)
  else if x.kind = 2 then each ((List.range (x.words.getD 1 0).toNat).map (i + ·)) (fun j s => if j < 2 ^ 20 then ent j (x.words.getD 0 0) s else s) s
  else s

def loadClasses (c : ClassSect) (s : State) : State :=
  let onUsed {α : Type} (t : Tbl α) (f : α → QueueSt → QueueSt) (s : State) : State :=
    each t (fun e s => if lowestStrand s (e.1 / 8) then modQueue e.1 (f e.2) s else s) s
  let s := onUsed c.minCells (fun v q => { q with minCells := v }) s
  let s := onUsed c.qcfgAlpha (fun v q => { q with alpha := BitVec.ofNat 4 v }) s
  let s := onUsed c.qsched (fun v q => { q with qsched := qschedWord v }) s
  let s := each (List.range 4) (fun d => modSwc d fun w => { w with
    sharedCells := BitVec.ofNat 20 (779520 - sumMin s c d - 16 * c.voqReserve), voqReserve := BitVec.ofNat 16 c.voqReserve
    voqCap := BitVec.ofNat 16 c.voqCap, mirrorFloor := BitVec.ofNat 16 c.mirrorFloor, redProf := c.redProf.foldl (fun t e => tset 0 t e.1 (redWord e.1 e.2)) []
    age := (List.range 8).foldl (fun t i => tset 0 t i (ageWord (c.age.getD i 0))) [] }) s
  modRoute (fun r => { r with
    qt12 := (List.range 4).foldl (fun t d => tset 0 t d (c.qthr.getD d (0, 0)).1) r.qt12
    qt3 := (List.range 4).foldl (fun t d => tset 0 t d (qt3Word (c.qthr.getD d (0, 0)).2)) r.qt3
    hashSeed := (List.range 4).foldl (fun t d => tset 0 t d c.hashSeed) r.hashSeed
    rejoinUs := (List.range 4).foldl (fun t d => tset 0 t d (c.rejoinUs.setWidth 32)) r.rejoinUs }) s

/-- The pool rings as an image sets them up (R318, R319): every buffer free, in its ring, but for those of lost dies and stacks (R30, R323). -/
def loadPools (r : Option RedSect) (s : State) : State :=
  let total (l : List Nat) := (l.take 8).sum
  let n (k : Nat) : Nat :=
    if k < 8 then (if redEnabled s (k / 2) then (if k % 2 = 0 then (r.map RedSect.pool0).getD 2048 else (r.map RedSect.pool1).getD 512) else 0)
    else match r with
      | some r => total (if k = 8 then r.n64 else if k = 9 then r.n256 else r.n1m)
      | none => 0
  let ringOf (k : Nat) : PoolRing :=
    if n k = 0 then {}
    else { valid := true, total := n k, ring := (List.range (n k)).map entryOf, copyA := BitVec.ofNat 4 (if k < 8 then k / 2 * 2 else 0),
           copyB := BitVec.ofNat 4 (if k < 8 then k / 2 * 2 + 1 else 2) }
  let s := modBpm (fun b => { b with
    rings := (List.range 11).foldl (fun t k => tset {} t k (ringOf k)) [], holders := [], owners := [], retiredBufs := [], used := [], waiters := []
    quota := (List.range 52).foldl (fun t q => tset 0 t q (if q < 16 && !redEnabled s (q / 4) then 0 else
      match r with | some r => tget 0 r.quotas q % 2 ^ 24 | none => 0)) [] }) s
  each ((List.range 8).filter fun m => bitOf s.units.stackLost m) poolsLoseStack
    (each ((List.range 4).filter fun x => bitOf s.units.redLost x) poolsLoseDie s)

/-- Fill the registers and tables from an image (R356). -/
def loadImage (f : FlashRead) (s : State) : State :=
  let c := f.content
  let s := { s with img := some c }
  let s := modGctl (fun g => { g with
    fabricId := c.fabricId, ownId := c.ownId, coordImg := c.coord, coord := c.coord, mgrCoord := c.mgrCoord, mgrId := c.mgrId, sbyCoord := c.sbyCoord
    sbyId := c.sbyId, mgrWaitMs := c.mgrWaitMs, signed := imgSigned f && s.fuses.keyHash.isSome }) s
  let s := loadPorts c s
  let s := each c.routes (fun e s => each e.2 (loadRoute e.1) s) s
  let s := each c.parts (fun e => modSwc e.1 fun w => { w with
    members := e.2.members.foldl (fun t m => tset none t m.1.toNat (some m.2)) w.members, tunnels := e.2.tunnels }) s
  let s := loadClasses c.classes s
  let s := match c.shape with
    | some sh => each sh.policer (fun e s => each (List.range 3) (fun k => policerPut (e.1 / 2304) (e.1 % 2304) k (e.2.getD k 0)) s) (each sh.shaper (fun e => shaperPut e.1 e.2) s)
    | none => s
  let prog := (c.red.map RedSect.program).getD []
  let s := modCmd (fun k => { k with progCopy := prog.foldl (fun t e => tset 0 t e.1 e.2) k.progCopy }) s
  let s := match c.time with
    | some t => modTim (fun m => { m with utcOfs := t.utcOfs, ppsEn := t.ppsEn, tenmEn := t.tenmEn, holdTraceS := t.holdTraceS, stepThr := t.stepThr }) s
    | none => s
  let s := match c.power with
    | some p => modPwr (fun m => { m with point := p.point, cur := p.point, wakeEn := p.wakeEn }) s
    | none => s
  match c.faults with
  | some x =>
    let s := each (List.range 24) (fun e => modOpt e fun o => { o with rotThr := x.rotThr, recalMin := x.recalMin }) s
    let s := clearCtlPut x.clearCtl s
    modEvr (fun e => { e with persistF := x.persistF }) (modMgr (fun m => { m with phaseLimitUs := x.phaseLimitUs }) s)
  | none => s

/-! ## Power-up (R364, R444, R447) -/

/-- Domains in the order in which they come up (R444). -/
def upOrder : List Nat :=
  (List.range 4).map domCore ++ (List.range 4).flatMap (fun d => [25 + 3 * d, 26 + 3 * d]) ++ List.range 24 ++
    (List.range 4).flatMap (fun x => (List.range 4).map (domQuad x)) ++ (List.range 8).map domStack

/-- May a domain be powered at all: not fused off, not lost? -/
def domUsable (s : State) (k : Nat) : Bool := !domFused s k && !bitOf s.pwr.lost k

/-- A stack is powered, trained and empty (R306, R315): its scrub begins a pass, and its part of the shard region holds unloaded blocks
(R265). -/
def freshStack (m : Nat) (s : State) : State :=
  let red := s.img.bind ImageContent.red
  let units := poolUnitsOf red m
  let s := modStack m (fun k => { k with
    live := true, pstate := 1, poolUnits := BitVec.ofNat 20 units, shardBase := BitVec.ofNat 20 (3 + units), pos := 0, passAt := s.clock, boost := false
    late := false, lateFor := none, paused := false, sparing := [], tally := [], bad := [], share := 0 }) s
  { s with mem := { s.mem with
      dram := s.mem.dram.filter (fun e => e.1 / 2 ^ 36 ≠ m)
      shard := s.mem.shard.filter (fun e => decide (e.1 / 2 ^ 28 ≠ m / 2) || decide (e.1 % 2 ≠ m % 2)) } }

/-- A reduction die's quadrant 0 comes on: its store is loaded from the active block's copy (R245, R317). -/
def loadStore (x : Nat) (s : State) : State :=
  modPwr (fun p => { p with progStale := setBit p.progStale x false }) (modRed x (fun r => { r with prog := s.cmd.progCopy }) s)

/-- A quadrant comes on with its SRAM cleared (R364, R447): quadrant q holds the die's bytes from 96q MiB. Its lanes seed their generators anew
(R233). -/
def clearQuad (x q : Nat) (s : State) : State :=
  let s := modRed x (fun r => { r with gens := r.gens.filter fun e => decide (e.1 / 32 ≠ q) }) s
  { s with mem := { s.mem with sram := s.mem.sram.filter fun e => decide (e.1 / 2 ^ 29 ≠ x) || decide (e.1 % 2 ^ 29 / 100663296 ≠ q) } }

/-- Domain k comes on, with what that brings. -/
def domUp (k : Nat) (s : State) : State :=
  if domOn s k || !domUsable s k then s
  else
    let s := domSet k true s
    if k < 36 then s
    else if k < 52 then
      let s := clearQuad ((k - 36) / 4) ((k - 36) % 4) s
      if (k - 36) % 4 = 0 && redEnabled s ((k - 36) / 4) then loadStore ((k - 36) / 4) s else s
    else freshStack (k - 52) s

/-- The domains are powered from t_L on, and the performance point is applied (R364). -/
def powerUp (s : State) : State :=
  let s := modPwr (fun p => { p with cur := p.point, ramping := false, heldPoint := none, shardDirty := 0, selfRefresh := 0 }) s
  let s := each upOrder domUp s
  let red := s.img.bind ImageContent.red
  let s := each (List.range 4) (fun x s => if redEnabled s x then modRed x (fun r => { r with shardBlocks := (red.map RedSect.shardBlocks).getD 0 }) s else s) s
  loadPools red (toPhase .power (modRst (fun r => { r with wave := 0 }) s))

/-! ## Choosing a copy (R362) -/

def resultOf (s : State) (c : ImgCopy) : BitVec 4 := match c with | .copyA => s.rst.resultA | .copyB => s.rst.resultB
def otherCopy (c : ImgCopy) : ImgCopy := match c with | .copyA => .copyB | .copyB => .copyA
def copyNo (c : ImgCopy) : Byte := match c with | .copyA => 0 | .copyB => 1

def setResult (c : ImgCopy) (r t : Nat) : State → State := modRst fun x => match c with
  | .copyA => { x with resultA := BitVec.ofNat 4 r, typeA := BitVec.ofNat 8 t }
  | .copyB => { x with resultB := BitVec.ofNat 4 r, typeB := BitVec.ofNat 8 t }

def setGen (c : ImgCopy) (f : FlashRead) (s : State) : State :=
  if f.readOk then modRst (fun x => match c with
    | .copyA => { x with genA := BitVec.ofNat 32 (imgGen f) }
    | .copyB => { x with genB := BitVec.ofNat 32 (imgGen f) }) s
  else s

/-- A copy has failed a check (R359, R360). -/
def copyFailed (c : ImgCopy) (e : Nat × Nat × Nat) (s : State) : State :=
  logMb 0x7002 [copyNo c, BitVec.ofNat 8 e.1, BitVec.ofNat 8 e.2.1, BitVec.ofNat 8 e.2.2] (setResult c e.1 e.2.1 s)

/-- Is a copy still to be tried: not checked yet and, under BOOT_SEL 0b1x, with a valid header? -/
def copyOpen (s : State) (c : ImgCopy) (f : FlashRead) : Bool :=
  resultOf s c == 0 && (decide (s.rst.bootSel.toNat < 2) || (headFail f).isNone)

/-- The copy to try next (R362). -/
def nextCopy (s : State) (fa fb : FlashRead) : Option ImgCopy :=
  match copyOpen s .copyA fa, copyOpen s .copyB fb with
  | true, true =>
    match s.rst.bootSel.toNat with
    | 0 => some .copyA
    | 1 => some .copyB
    | _ => some (if imgGen fa ≥ imgGen fb then .copyA else .copyB)
  | true, false => some .copyA
  | false, true => some .copyB
  | false, false => none

/-- A copy is accepted: this is t_L (R364). Fabric time is set to 0 and runs (R339). first is the RESULT of the copy tried before it, 0
where there was none. -/
def acceptCopy (c : ImgCopy) (f : FlashRead) (first : BitVec 4) (s : State) : State :=
  let s := modRst (fun r => { r with
    loaded := (match c with | .copyA => 1 | .copyB => 2), fellBack := first != 0, tL := s.clock, tLoaded := BitVec.ofNat 16 ((s.clock - r.t0) / 1000000) }) (setResult c 1 0 s)
  let s := modTim (fun m => { m with running := true, base := 0, baseAt := s.clock }) (loadImage f s)
  let s := iff (first != 0) (logMb 0x7003 ([copyNo c, first.setWidth 8] ++ bytesLE 4 (imgGen f))) s
  powerUp s

/-- Neither copy is valid: FAULT_N is asserted (R363). -/
def imageFailed (s : State) : State := modFlt (fun f => { f with faultN := true }) (toPhase .imageFail (modRst (fun r => { r with failReason := 2 }) s))

/-- The clock at which the reading and the check of a copy are over: 400 MB/s and 2 ms (R364). -/
def copyEnd (s : State) (f : FlashRead) : Nat :=
  s.rst.copyAt + 5 * (f.header.length + f.dir.length + (f.sects.map List.length).sum) / 2 + 2000000

/-- A copy has been read and checked (R359, R362). Under BOOT_SEL 0b1x both headers are read and checked first. -/
def checkCopy (c : ImgCopy) (fa fb : FlashRead) (s : State) : State :=
  let both := decide (s.rst.bootSel.toNat ≥ 2)
  let of (x : ImgCopy) := match x with | .copyA => fa | .copyB => fb
  let heads (s : State) : State :=
    if !both then setGen c (of c) s
    else each [ImgCopy.copyA, .copyB] (fun x s =>
      match resultOf s x == 0, headFail (of x) with
      | true, some r => copyFailed x (r, 0, 255) (setGen x (of x) s)
      | _, _ => setGen x (of x) s) s
  match nextCopy s fa fb with
  | none => imageFailed (heads s)
  | some n =>
    if n ≠ c then s
    else
      let s := clockTo (copyEnd s (of c)) s
      let first := resultOf s (otherCopy c)
      let s := heads s
      match imageFail s (of c) with
      | none => acceptCopy c (of c) first s
      | some e =>
        let s := modRst (fun r => { r with copyAt := s.clock }) (copyFailed c e s)
        if (nextCopy s fa fb).isNone then imageFailed s else s

/-! ## The override window and the first wave (R367, R368) -/

/-- The role that the image names for a coordinate. -/
def namedRole (s : State) (c : Coord) : Role := if c = s.gctl.mgrCoord then .manager else if c = s.gctl.sbyCoord then .standby else .worker

/-- The override window closes (R367): the coordinate in force and the role are settled (R368). -/
def closeWindow (s : State) : State :=
  if !s.rst.windowOpen then s
  else
    let s := modRst (fun r => { r with windowOpen := false, tWave0 := BitVec.ofNat 16 ((s.clock - r.t0) / 1000000) }) s
    let s := if s.gctl.ovrEn then
        logMb 0x7010 (bytesLE 2 s.gctl.coordImg.toNat ++ bytesLE 2 s.gctl.ovrValue.toNat) (modGctl (fun g => { g with coord := g.ovrValue }) s)
      else s
    let named := namedRole s s.gctl.coord
    let s := modGctl (fun g => { g with cfgRole := named, role := if s.rst.roleSel then named else .worker, acting := g.mgrCoord, actingId := g.mgrId }) s
    iff (named != .worker && !s.rst.roleSel) (logMb 0x7020 []) s

/-- t_W: the window closes and wave 0 begins (R364, R365). -/
def beginWaves (s : State) : State :=
  let s := closeWindow s
  let s := toPhase .waves (modRst (fun r => { r with wavesDue := false, startHold := false }) s)
  beginWave 0 (modMgr (fun m => { m with wave0At := s.clock }) s)

/-- A write of START_HOLD: set only while the window is open; clearing it lets a wave 0 that is due begin (R367). -/
def startHoldPut (v : Bool) (s : State) : State :=
  if v then (if s.rst.windowOpen then modRst (fun r => { r with startHold := true }) s else s)
  else
    let s := modRst (fun r => { r with startHold := false }) s
    if s.rst.wavesDue then beginWaves s else s

/-- A write of COORD_OVR (R367). -/
def coordOvrPut (val : Word) (s : State) : State :=
  if s.rst.windowOpen then modGctl (fun g => { g with ovrEn := bitOf val 31, ovrValue := val.setWidth 16 }) s
  else modGctl (fun g => { g with closed := true }) s

/-! ## Resets (R361, R370, R417, R476) -/

/-- The device is in reset: all domains drop. What a reset leaves are the fuses, the flash, host memory, the latched fatal cause and,
while PWROK stays high, the seconds each domain has been on (R417, R432, R455). -/
def resetTo (cause : BitVec 3) (powered : Bool) (s : State) : State :=
  let s := each (bitsOf s.pwr.on) (fun k => domSet k false) s
  let lit := s.strands.filter fun e => e.2.light != .dark
  let s := each lit (fun e => emit (.light e.1 .dark)) s
  let z : State := {}
  { z with
    pending := s.pending, clock := s.clock, free := s.free, out := s.out, fuses := s.fuses, mem := { host := s.mem.host }
    rst := { cause := cause }, flt := { prior := if s.flt.fatal then s.flt.cause else 0 }
    pwr := { onSec := if powered then s.pwr.onSec else [] }
    evr := { flash := s.evr.flash, badSlots := s.evr.badSlots, flashClear := s.evr.flashClear, opAt := s.clock } }

/-! ## The manager and the standby (R369) -/

def mirrorOf (s : State) : MgrMirror := { reg := s.mgr.reg, groups := s.mgr.groups, change := s.mgr.change }

/-- The standby takes what a heartbeat carries. -/
def takeMirror (m : MgrMirror) (s : State) : State :=
  modMgr (fun g => { g with reg := m.reg, groups := m.groups, change := m.change, hbSeen := true, hbAt := s.clock }) s

/-- Registrations of this Skarad's sub-links are sent again. -/
def resendRegs (s : State) : State :=
  each ((allSubs s).filter fun k => (linkOf s k).valid && pastTraining (linkOf s k).st) (fun k s => emit (.register (regReqOf s k)) s) s

/-- The start-up has reached its waves: the Skarad has a role. -/
def hasRole (s : State) : Bool := alive s && (match s.rst.phase with | .waves | .run => true | _ => false)

/-! ## The commands -/

/-- RESET_RELEASE (R361, R364, R26, R476): with neither management block up the Skarad stays in reset with FAULT_N asserted. -/
def execResetRelease (straps : Straps) (railsOk mb0Up mb1Up : Bool) (st : State) : Outcome :=
  .next <|
    if !st.rst.held then st
    else
      let st := modRst (fun r => { r with held := false, t0 := st.clock, bootSel := straps.bootSel, roleSel := straps.roleSel, addrSel := straps.addrSel }) st
      let st := modCmd (fun k => { k with jtagLevel := if st.fuses.jtagKey.isNone then 1 else 0 }) st
      if !railsOk then modFlt (fun f => { f with fatal := true, cause := 2, faultAt := st.clock, faultN := true }) st
      else
        let st := modUnits (fun u => { u with mb0Ok := mb0Up, mb1Ok := mb1Up, active := if mb0Up then .mb0 else .mb1 }) st
        if !mb0Up && !mb1Up then modFlt (fun f => { f with faultN := true }) (modRst (fun r => { r with held := true, phase := .noStart, failReason := 3 }) st)
        else toPhase .flash (modRst (fun r => { r with windowOpen := true }) st)

/-- FLASH_DISCOVERY_DONE (R352). -/
def execFlashDiscoveryDone (f : Sfdp) (st : State) : Outcome :=
  .next <|
    if !alive st || st.rst.phase ≠ .flash then st
    else if f.signature && decide (f.densityMiB ≥ 128) && f.read8d && f.erase64k then toPhase .load (modRst (fun r => { r with copyAt := r.t0 + 4000000 }) st)
    else logMb 0x7001 [] (toPhase .noStart (modRst (fun r => { r with failReason := 1 }) st))

/-- IMAGE_COPY_CHECK (R359, R362, R363, R364). -/
def execImageCopyCheck (c : ImgCopy) (f other : FlashRead) (st : State) : Outcome :=
  .next <|
    if !alive st || st.rst.phase ≠ .load then st
    else match c with
      | .copyA => checkCopy c f other st
      | .copyB => checkCopy c other f st

/-- OVERRIDE_WINDOW_CLOSE (R364, R367): t_W, 100 ms after t_L; START_HOLD keeps the window open to t = 2 s at most. -/
def execOverrideWindowClose (st : State) : Outcome :=
  .next <|
    if !alive st || st.rst.phase ≠ .power then st
    else
      let st := clockTo (st.rst.tL + 100000000) st
      if st.rst.startHold && decide (st.clock < st.rst.t0 + 2000000000) then modRst (fun r => { r with wavesDue := true }) st else beginWaves st

/-- START_HOLD_TIMEOUT (R367). -/
def execStartHoldTimeout (st : State) : Outcome :=
  .next <| if alive st && st.rst.phase == .power && st.rst.wavesDue then beginWaves (clockTo (st.rst.t0 + 2000000000) st) else st

/-- COORD_OVR_WRITE (R367). -/
def execCoordOvrWrite (_path : Path) (val : Word) (st : State) : Outcome := .next <| if mgmtUp st then coordOvrPut val st else st

/-- START_HOLD_CLEAR (R367). -/
def execStartHoldClear (st : State) : Outcome := .next <| if mgmtUp st && alive st then startHoldPut false st else st

/-- MANAGER_HEARTBEAT_SEND (R369). -/
def execManagerHeartbeatSend (st : State) : Outcome :=
  .next <|
    if hasRole st && isMgr st then
      emit (.heartbeat st.gctl.sbyId st.gctl.coord (mirrorOf st)) (modMgr (fun m => { m with acted := true }) st)
    else st

/-- MANAGER_HEARTBEAT (R369): the standby mirrors it; a manager yields unless the image names it and it has already acted. -/
def execManagerHeartbeat (sender : Coord) (senderId : Ident) (m : MgrMirror) (st : State) : Outcome :=
  .next <|
    if !hasRole st || sender = st.gctl.coord then st
    else match st.gctl.role with
      | .worker => st
      | .standby => takeMirror m (modGctl (fun g => { g with acting := sender, actingId := senderId }) st)
      | .manager =>
        if st.gctl.cfgRole == .manager && st.mgr.acted then st
        else
          let named := st.gctl.cfgRole == .manager
          let st := modGctl (fun g => { g with role := .standby, acting := sender, actingId := senderId }) st
          let st := modMgr (fun g => { g with acted := false }) (takeMirror m st)
          let st := chooseUpstream (enterHoldover st)
          resendRegs (raiseVec 44 (iff named (logMb 0x7022 []) st))

/-- MANAGER_ASSUMED (R369, R337, R125): the standby takes the role; its active block is the grandmaster, and a fabric change resumes at
the phase in progress. -/
def execManagerAssumed (st : State) : Outcome :=
  .next <|
    if !hasRole st || st.gctl.role ≠ .standby then st
    else
      let st := clockTo (if st.mgr.hbSeen then st.mgr.hbAt + 300000 else st.mgr.wave0At + st.gctl.mgrWaitMs * 1000000) st
      let st := modGctl (fun g => { g with role := .manager, acting := g.coord, actingId := g.ownId }) st
      let st := followRef (modTim (fun m => { m with upstream := none, hops := 0, gmCoord := st.gctl.coord, traceable := false, followAt := none }) st)
      startPhase (raiseVec 44 (logMb 0x7021 [] st))

/-- DEV_RESET (R370): with KEY 0xA5 the device is reset as by SYS_RST_N. -/
def execDevReset (key : Byte) (st : State) : Outcome := .next <| if (mgmtUp st || faultReads st) && key == 0xA5 then resetTo 2 true st else st

/-- RESET_ASSERTED (R476, R369): SYS_RST_N with PWROK still high, or the fall of PWROK. -/
def execResetAsserted (pwrok : Bool) (st : State) : Outcome := .next <| resetTo (if pwrok then 1 else 0) pwrok st

/-- VAUX_3V3_LOSS (R417): the islands stop and the latched cause is gone. -/
def execVaux3v3Loss (st : State) : Outcome := .next <| (let st := resetTo 0 false st; modFlt (fun f => { f with prior := 0 }) st)

end Sys2Proof.Machine
end

