-- ==== Sys2Proof/Machine/Power.lean ====
section
/-! DEFINITION. Power (chapter 18) and the low-power states of the ports (R65 to R67, R71): performance points, the entry into a device
state or a single domain off, wakes, Idle, Doze and Dark. -/

namespace Sys2Proof.Machine

/-! ## Ports -/

/-- Ask for Doze on a sub-link (R65, R67, R71): refused while something waits to be sent. -/
def askDoze (k : Nat) (s : State) : State :=
  match (linkOf s k).st with
  | .active | .idle => if nothingToSend s k then modLink k (fun l => { l with lpWant := some .doze }) (leaveIdle k s) else s
  | _ => s

/-- Ask for Dark from Doze where the port may agree to it (R65, R71). -/
def askDark (k : Nat) (s : State) : State :=
  if (linkOf s k).st == .doze && (portOf s (k / 4)).darkEn then modLink k (fun l => { l with lpWant := some .dark }) s else s

/-- Wake a sub-link (R65, R67): from Doze by raising c; from Dark by the wake pattern, then training. -/
def wakeLink (k : Nat) (s : State) : State :=
  match (linkOf s k).st with
  | .doze => leaveDoze k s
  | .dark => trainFull k (each (strandPos s k) (fun q s => if (strandOf s q).outOfUse then s else emit (.wakePattern q) s) s)
  | _ => modLink k (fun l => { l with lpWant := none }) s

/-- A write of LPM_CTL.REQ (R71). -/
def lpRequest (p r : Nat) (s : State) : State :=
  let s := modPort p (fun x => { x with lpReq := BitVec.ofNat 2 r }) s
  if !portOn s p then s
  else each (subKeys s p) (fun k s => match r with
    | 1 => askDoze k s
    | 2 => askDark k s
    | 3 => wakeLink k s
    | _ => s) s

/-- Light of a strand stops with its engine (R453). -/
def darken (p : Nat) (s : State) : State :=
  each ((List.range 4).map (4 * p + ·)) (fun q s =>
    if (strandOf s q).light = .dark then s else emit (.light q .dark) (modStrand q (fun x => { x with light := .dark }) s)) s

/-! ## Residency and points (R22, R446, R456) -/

/-- The code of the device state (R454): Trim is Run at another point than P0. -/
def devCode (p : PwrSt) : Nat := match p.state with | .quiet => 2 | .hold => 3 | .run => if p.cur = 0 then 0 else 1

/-- Time so far is charged to the state the device has been in. -/
def resMark (s : State) : State :=
  modPwr (fun p => { p with res := tmod 0 p.res (devCode p) (· + (s.clock - p.resSince)), resSince := s.clock }) s

/-- The core voltage of a point in mV (R19). -/
def coreMv (pt : BitVec 2) : Nat := match pt.toNat with | 0 => 900 | 1 => 800 | 2 => 720 | _ => 650

/-- The time of a ramp in ns at 10 mV/µs (R22). -/
def rampNs (a b : BitVec 2) : Nat := 100 * (max (coreMv a) (coreMv b) - min (coreMv a) (coreMv b))

/-- A ramp to a point begins (R22); paced groups lapse (R302). -/
def startRamp (pt : BitVec 2) (s : State) : State :=
  lapseAll (fun _ => true) 1 (modPwr (fun p => { p with ramping := true, rampTo := pt, rampAt := s.clock }) s)

/-- A write of POINT (R22). -/
def pointPut (pt : BitVec 2) (s : State) : State :=
  let p := s.pwr
  let s := modPwr (fun p => { p with point := pt }) s
  match p.state with
  | .run =>
    if p.ramping then modPwr (fun p => { p with heldPoint := some pt }) s
    else if pt = p.cur then s
    else startRamp pt s
  | _ => modPwr (fun p => { p with heldPoint := some pt }) s

/-! ## Conditions (R449) -/

/-- Does an element of a channel at work, or a running command, touch this place? -/
def dmaTouches (s : State) (f : Nat → Nat → Bool) : Bool :=
  (s.dma.chans.any fun e => (match e.2.state with | .run | .hostBlocked => true | _ => false) &&
    (match e.2.cur with | some x => f x.dstSp.toNat x.dst.toNat || f x.srcSp.toNat x.src.toNat | none => false))

def cmdTouches (s : State) (f : CmdBody → Bool) : Bool :=
  s.cmd.rings.any fun e => match e.2.cur with | some c => c.result.isNone && f c.body | none => false

def heldBuf (s : State) (f : Nat → Nat → Bool) : Bool := s.bpm.holders.any fun e => f (e.1 / 2 ^ 14) (e.1 % 2 ^ 14)

/-- A quadrant is busy: its die homes a context, a buffer of its SRAM pools is held, or its SRAM is addressed. -/
def quadBusy (s : State) (x q : Nat) : Bool :=
  !(ctxsOn s x).isEmpty || heldBuf s (fun k _ => k < 8 && k / 2 == x) ||
    dmaTouches s (fun sp a => sp == 3 && a / 2 ^ 30 == x && a % 2 ^ 29 / 100663296 == q) ||
    cmdTouches s (fun b => match b with | .selfTest 0 u => u == 4 * x + q | _ => false)

/-- A stack is busy: a channel or command addresses it. -/
def stackBusy (s : State) (m : Nat) : Bool :=
  dmaTouches s (fun sp a => sp == 1 && a / 2 ^ 36 == m) ||
    cmdTouches s (fun b => match b with
      | .shardLoad d _ _ => d == m / 2
      | .shardSave d _ _ => d == m / 2
      | .scrubPass k => k == m
      | .selfTest 1 u => u == m
      | _ => false)

/-- The sub-links of a port have reached Dark, or have no direction to take down. -/
def portDark (s : State) (p : Nat) : Bool :=
  !(portOf s p).enabled || (subKeys s p).all fun k => match (linkOf s k).st with | .dark | .down => true | _ => false

/-- The ports of a domain: a port group's or an engine's. -/
def portsOf (k : Nat) : List Nat := (List.range 288).filter fun p => if k < 24 then p / 12 == k else domPort p == k

/-- The Hold column of R449: the reason of a refusal, 0 none. An engine switched alone follows it for its own ports (R450). -/
def holdReason (s : State) (k : Nat) : Nat :=
  if k < 24 then (if s.pwr.single == some k && (portsOf k).any (fun p => !portDark s p) then 3 else 0)
  else if k < 36 then (if k % 3 = 0 then (if s.route.clr.isSome then 1 else 0) else if (portsOf k).any (fun p => !portDark s p) then 3 else 0)
  else if k < 52 then (if quadBusy s ((k - 36) / 4) ((k - 36) % 4) then 1 else 0)
  else
    let m := k - 52
    if stackBusy s m || heldBuf s (fun r i => decide (8 ≤ r) && bufStack s r i == some m) then 1
    else if bitOf s.pwr.shardDirty (m / 2) && !s.pwr.discard then 2
    else 0

/-- A stack that only goes to self-refresh: in the entry to Quiet, or below a quadrant 0 switched off (R444, R446). -/
def toRefresh (s : State) (k : Nat) : Bool :=
  decide (52 ≤ k) && (match s.pwr.single with | some j => j != k | none => s.pwr.target == .quiet)

/-- The reason for which a domain refuses the entry in progress, 0 none. -/
def refuseReason (s : State) (k : Nat) : Nat :=
  if toRefresh s k then (if stackBusy s (k - 52) then 1 else 0)
  else holdReason s k

/-! ## The entry (R448, R450) -/

/-- The domains that the entry in progress still has to stop. -/
def concerned (s : State) : List Nat :=
  let on k := domOn s k
  let active k := on k && !bitOf s.pwr.selfRefresh k
  match s.pwr.single with
  | some j =>
    if 36 ≤ j ∧ j < 52 ∧ (j - 36) % 4 = 0 then
      let x := (j - 36) / 4
      (List.range 4).map (domQuad x) |>.filter on |>.append ([domStack (2 * x), domStack (2 * x + 1)].filter active)
    else [j].filter on
  | none =>
    match s.pwr.target with
    | .quiet => ((List.range 16).map (36 + ·)).filter on ++ ((List.range 8).map domStack).filter active
    | .hold => (List.range 60).filter on
    | .run => []

/-- The place of a domain in the order in which domains go down (R444). -/
def stopRank (k : Nat) : Nat :=
  if 52 ≤ k then 0 else if 36 ≤ k then (if (k - 36) % 4 = 0 then 2 else 1) else if k < 24 then 3 else if k % 3 = 0 then 5 else 4

/-- Domain k stops in the entry in progress. -/
def domStopped (k : Nat) (s : State) : State :=
  let refresh := toRefresh s k
  let s := modPwr (fun p => { p with stopped := p.stopped ++ [k] }) s
  if refresh then
    modPwr (fun p => { p with selfRefresh := setBit p.selfRefresh k true }) (modStack (k - 52) (fun m => { m with pstate := 2, paused := true }) s)
  else if 52 ≤ k then
    let m := k - 52
    let s := modPwr (fun p => { p with selfRefresh := setBit p.selfRefresh k false }) (domSet k false s)
    let s := modStack m (fun x => { x with live := false, pstate := 0, paused := false }) s
    { s with mem := { s.mem with dram := s.mem.dram.filter fun e => e.1 / 2 ^ 36 ≠ m } }
  else if k < 24 then domSet k false (each (portsOf k) darken s)
  else if k < 36 ∧ k % 3 = 0 then domSet k false (loseGlade ((k - 24) / 3) s)
  else domSet k false s

/-- Domain k is brought back: a stack leaves self-refresh with its contents, any other domain comes up. -/
def domBack (k : Nat) (s : State) : State :=
  if bitOf s.pwr.selfRefresh k then
    modPwr (fun p => { p with selfRefresh := setBit p.selfRefresh k false }) (modStack (k - 52) (fun m => { m with pstate := 1, paused := false }) s)
  else domUp k s

/-- The entry in progress ends with a LAST code: the domains it stopped come back in the order of R444, and ports it had asked down are
woken. -/
def endEntry (last : Nat) (s : State) : State :=
  let back := upOrder.filter fun k => k ∈ s.pwr.stopped
  let asked := (allSubs s).filter fun k => portOn s (k / 4) && (toHold s || s.pwr.single == some (k / 48))
  let s := modPwr (fun p => { p with
    busy := false, phase := .none, last := BitVec.ofNat 3 last, stopped := [], voted := 0, single := none
    wantOff := match p.single with | some k => setBit p.wantOff k false | none => p.wantOff }) s
  let s := each back domBack s
  each asked wakeLink s

/-- A domain refuses (R448). -/
def refuseEntry (k reason : Nat) (s : State) : State :=
  let s := endEntry 2 s
  let s := modPwr (fun p => { p with refuser := BitVec.ofNat 7 k, reason := BitVec.ofNat 4 reason }) s
  logEvent 0x6111 9 k [BitVec.ofNat 8 k, BitVec.ofNat 8 reason] s

/-- The last domain has stopped: the state is entered (R446, R448). -/
def finishEntry (s : State) : State :=
  let single := s.pwr.single
  let s := resMark s
  let s := modPwr (fun p => { p with busy := false, phase := .none, last := 1, stopped := [], voted := 0, single := none,
                                     state := if single.isSome then p.state else p.target }) s
  if single.isSome then s
  else
    let s := match s.pwr.state with
      | .quiet => each (allSubs s) askDoze s
      | .hold => each (List.range 288) (fun p => modPort p fun x => { x with begun := false }) s
      | .run => s
    logEvent 0x6110 9 0 [] s

/-- With every vote in, the stop phase begins; with nothing to stop, the entry is complete. -/
def voteCheck (s : State) : State :=
  if !s.pwr.busy then s
  else match s.pwr.phase with
    | .vote =>
      if (concerned s).isEmpty then finishEntry s
      else if (concerned s).all fun k => bitOf s.pwr.voted k then modPwr (fun p => { p with phase := .stop }) s
      else s
    | .stop => if (concerned s).isEmpty then finishEntry s else s
    | _ => s

/-- An entry begins with its vote. -/
def beginEntry (t : DevState) (single : Option Nat) (s : State) : State :=
  let s := modPwr (fun p => { p with busy := true, phase := .vote, target := t, single := single, voted := 0, stopped := [], voteAt := s.clock }) s
  let s := iff (toHold s) (each (allSubs s) fun k s => askDark k (askDoze k s)) s
  voteCheck s

/-! ## Single domains (R450) -/

/-- A switched domain on which domain k depends is on (R444). -/
def carried (s : State) (k : Nat) : Bool :=
  if k < 24 then (List.range 288).any fun p => p / 12 == k && domOn s (domPort p)
  else if 36 ≤ k ∧ k < 52 then (k - 36) % 4 == 0 || domOn s (k - (k - 36) % 4)
  else if 52 ≤ k then domOn s (domQuad ((k - 52) / 2) 0)
  else false

/-- A domain that firmware wants off begins its entry (R450). -/
def switchOff (k : Nat) (s : State) : State :=
  let s := beginEntry .run (some k) s
  iff (decide (k < 24)) (each ((portsOf k).flatMap (subKeys s)) fun j s => askDark j (askDoze j s)) s

/-- A domain that firmware no longer wants off comes back, with what came down with it (R450). -/
def switchOn (k : Nat) (s : State) : State :=
  let s := domUp k s
  if k < 24 then each ((portsOf k).filter fun p => (portOf s p).begun && domOn s (domPort p)) beginPort s
  else if 36 ≤ k ∧ k < 52 ∧ (k - 36) % 4 = 0 then
    let x := (k - 36) / 4
    each [domStack (2 * x), domStack (2 * x + 1)] (fun m s => if bitOf s.pwr.selfRefresh m then domBack m s else s)
      (each ((List.range 4).map (domQuad x)) (fun j s => if bitOf s.pwr.wantOff j then s else domUp j s) s)
  else s

/-- WANT_OFF of domain k takes effect in Run once no entry is in progress (R450; log entry 111): the domain is switched as the bit says. -/
def settleWant (k : Nat) (s : State) : State :=
  if s.pwr.busy || s.pwr.state ≠ .run || !hasRole s || (24 ≤ k && k < 36) then s
  else if bitOf s.pwr.wantOff k && domOn s k then switchOff k s
  else if !bitOf s.pwr.wantOff k && !domOn s k && domUsable s k && carried s k then switchOn k s
  else s

/-- The same for every domain, in the order of their numbers; nothing happens while an entry is in progress. -/
def settleWants (s : State) : State := each (List.range 60) settleWant s

/-- A write of DOM[k].WANT_OFF (R450): the bit takes the value written; a core or a port group is refused, which clears it. -/
def wantOffPut (k : Nat) (off : Bool) (s : State) : State :=
  if off && 24 ≤ k && k < 36 then
    logEvent 0x6111 9 k [BitVec.ofNat 8 k, 4] (modPwr (fun p => { p with last := 2, refuser := BitVec.ofNat 7 k, reason := 4, wantOff := setBit p.wantOff k false }) s)
  else settleWant k (modPwr (fun p => { p with wantOff := setBit p.wantOff k off }) s)

/-! ## Leaving a low state (R447, R451) -/

/-- The device leaves Quiet, or starts again from t_L on out of Hold with fabric time running on. -/
def leaveLow (s : State) : State :=
  match s.pwr.state with
  | .run => s
  | .quiet => wakeQuiet s
  | .hold =>
    let s := resMark s
    let s := modPwr (fun p => { p with state := .run, heldPoint := none }) s
    powerUp (modRst (fun r => { r with tL := s.clock }) s)

/-- A wake source (R451): ignored unless enabled; it ends an entry in progress, or takes the device to Run. -/
def wakeBy (bit : Nat) (s : State) : State :=
  if !bitOf s.pwr.wakeEn bit then s
  else if s.pwr.busy then
    match s.pwr.phase with
    | .vote | .stop => if s.pwr.single.isSome then s else settleWants (noteWake bit (endEntry 3 s))
    | _ => s
  else match s.pwr.state with
    | .run => s
    | _ => leaveLow (noteWake bit s)

/-- A write of DEV_CTL.REQ (R448, R451, R454). -/
def devRequest (r : Nat) (s : State) : State :=
  if r = 0 ∨ r > 3 then s
  else if s.pwr.busy then modPwr (fun p => { p with last := 4 }) s
  else if !hasRole s && s.pwr.state == .run then s
  else match r, s.pwr.state with
    | 1, _ => leaveLow s
    | 2, .run => beginEntry .quiet none s
    | 3, .run => beginEntry .hold none s
    | 3, .quiet => beginEntry .hold none s
    | _, _ => s

/-! ## The commands: low-power ports -/

/-- IDLE_ENTRY (R65). -/
def execIdleEntry (p : Port) (s : Strand) (st : State) : Outcome :=
  let k := subKey st p s
  let l := linkOf st k
  .next <|
    if portOn st p && l.st == .active && !l.idleTx && (portOf st p).idleEn && l.txq.isEmpty && l.replay.isEmpty && l.resend.isEmpty &&
        !creditPending st k && !l.nakPend && l.lpWant.isNone then
      enterIdle k (clockTo (l.emptyAt + (portOf st p).idleNs.toNat) st)
    else st

/-- IDLE_EXIT (R65): the transmitter has a flit or a credit return. -/
def execIdleExit (p : Port) (s : Strand) (st : State) : Outcome :=
  let k := subKey st p s
  let l := linkOf st k
  .next <| if portOn st p && (!l.txq.isEmpty || !l.resend.isEmpty || creditPending st k || l.nakPend) then leaveIdle k st else st

/-- REQUEST_DOZE (R71). -/
def execRequestDoze (p : Port) (st : State) : Outcome := .next <| if mgmtUp st then lpRequest p 1 st else st

/-- REQUEST_DARK (R71). -/
def execRequestDark (p : Port) (st : State) : Outcome := .next <| if mgmtUp st then lpRequest p 2 st else st

/-- WAKE (R71). -/
def execWake (p : Port) (st : State) : Outcome := .next <| if mgmtUp st then lpRequest p 3 st else st

/-- Does the block act on a wake detector's report (R445)? Never for a port whose engine firmware has switched off. -/
def reportHeard (s : State) (p : Nat) : Bool :=
  alive s && !bitOf s.pwr.wantOff (p / 12) && (s.pwr.state == .run || bitOf s.pwr.wakeEn 0)

/-- The partner's light wakes a sub-link: out of Doze, out of the handshake for Dark, or from Dark into training. -/
def lightWake (k q : Nat) (pattern : Bool) (s : State) : State :=
  match (linkOf s k).st with
  | .doze => leaveDoze k s
  | .dark => if pattern then trainFull k (modStrand q (fun x => { x with cLost := false }) s) else s
  | _ => s

/-- A wake detector's report that is acted on (R67, R445, R451). -/
def detectorWake (p q k : Nat) (pattern : Bool) (s : State) : State :=
  let low := s.pwr.state != .run
  let s := iff (low || s.pwr.busy) (wakeBy 0) s
  if portOn s p then lightWake k q pattern s else s

/-- WAKE_PATTERN_DETECTED (R67): the detector accepts at least 12 periods. -/
def execWakePatternDetected (p : Port) (s : Strand) (periods : Nat) (st : State) : Outcome :=
  .next <| if reportHeard st p && decide (12 ≤ periods) then detectorWake p (4 * p.val + s.val) (subKey st p s) true st else st

/-- DOZE_LIGHT_WAKE (R67, R445). -/
def execDozeLightWake (p : Port) (s : Strand) (st : State) : Outcome :=
  .next <| if reportHeard st p then detectorWake p (4 * p.val + s.val) (subKey st p s) false st else st

/-! ## The commands: device states -/

/-- REQUEST_RUN (R451). -/
def execRequestRun (st : State) : Outcome := .next <| if mgmtUp st && alive st then devRequest 1 st else st

/-- REQUEST_QUIET (R448). -/
def execRequestQuiet (st : State) : Outcome := .next <| if mgmtUp st && alive st then devRequest 2 st else st

/-- REQUEST_HOLD (R448). -/
def execRequestHold (st : State) : Outcome := .next <| if mgmtUp st && alive st then devRequest 3 st else st

/-- DOMAIN_VOTE_ANSWER (R448, R449): a port group or an engine that waits for Dark has not answered yet. -/
def execDomainVoteAnswer (k : Dom) (st : State) : Outcome :=
  .next <|
    if !alive st || !st.pwr.busy || st.pwr.phase ≠ .vote then st
    else settleWants <| if k.val ∉ concerned st then voteCheck st
    else match refuseReason st k with
      | 0 => voteCheck (modPwr (fun p => { p with voted := setBit p.voted k true }) st)
      | 3 => st
      | r => refuseEntry k r st

/-- VOTE_TIMEOUT (R448, R449): LINK where a sub-link has not reached Dark, TIMEOUT otherwise. -/
def execVoteTimeout (k : Dom) (st : State) : Outcome :=
  .next <|
    if !alive st || !st.pwr.busy || st.pwr.phase ≠ .vote || bitOf st.pwr.voted k then st
    else settleWants <| if k.val ∉ concerned st then voteCheck st
    else
      let st := clockTo (st.pwr.voteAt + 1000000) st
      refuseEntry k (if refuseReason st k = 3 then 3 else 5) st

/-- DOMAIN_STOP (R448): the next domain in the order of R444 checks again, and stops or refuses. -/
def execDomainStop (k : Dom) (st : State) : Outcome :=
  .next <|
    if !alive st || !st.pwr.busy || st.pwr.phase ≠ .stop then st
    else settleWants <| if k.val ∉ concerned st then voteCheck st
    else if (concerned st).any fun j => decide (stopRank j < stopRank k) then st
    else match refuseReason st k with
      | 0 => voteCheck (domStopped k st)
      | r => refuseEntry k r st

/-- WANT_OFF (R450). -/
def execWantOff (k : Dom) (off : Bool) (st : State) : Outcome := .next <| if mgmtUp st && alive st then wantOffPut k off st else st

/-- WAKE_SOURCE (R451). -/
def execWakeSource (bit : Fin 3) (st : State) : Outcome := .next <| if alive st then wakeBy bit st else st

/-- RETURN_TO_RUN (R447): the return from Quiet ends; a recorded point is applied before the quadrants are powered (R22). -/
def execReturnToRun (st : State) : Outcome :=
  .next <|
    if !alive st || !st.pwr.busy || st.pwr.phase ≠ .restart || st.pwr.state ≠ .quiet then st
    else
      let st := resMark st
      let st := modPwr (fun p => { p with cur := p.point, ramping := false, heldPoint := none, state := .run }) st
      let st := each (upOrder.filter fun k => decide (36 ≤ k) && !bitOf st.pwr.wantOff k) domBack st
      let waiting := st.pwr.waitAlloc
      let st := modPwr (fun p => { p with busy := false, phase := .none, waitAlloc := [] }) st
      settleWants (each waiting serveAlloc st)

/-- POINT_WRITE (R22). -/
def execPointWrite (pt : BitVec 2) (st : State) : Outcome := .next <| if mgmtUp st && alive st then pointPut pt st else st

/-- RAMP_END (R22): the new point is in force, and a request held during the ramp is applied; one recorded in Quiet waits for the return to
Run. -/
def execRampEnd (st : State) : Outcome :=
  .next <|
    if !alive st || !st.pwr.ramping then st
    else
      let st := resMark (clockTo (st.pwr.rampAt + rampNs st.pwr.cur st.pwr.rampTo) st)
      let st := modPwr (fun p => { p with ramping := false, cur := p.rampTo }) st
      match (if st.pwr.state == .run then st.pwr.heldPoint else none) with
      | some pt =>
        let st := modPwr (fun p => { p with heldPoint := none }) st
        if pt = st.pwr.cur then st else startRamp pt st
      | none => st

end Sys2Proof.Machine
end

