-- ==== Sys2Proof/Machine/Dma.lean ====
section
/-! DEFINITION. The DMA engine (R399 to R413): spaces and their addresses, lists and elements, beats, remote messages, errors and halts. -/

namespace Sys2Proof.Machine

/-! ## Places (R403, R306, R264) -/

/-- First offset and length of the shard part of stack m (R306). A die that is not enabled has none. -/
def shardPart (s : State) (m : Nat) : Nat × Nat :=
  if redEnabled s (m / 2) then ((stackOf s m).shardBase.toNat * 65536, 528 * (((redOf s (m / 2)).shardBlocks + 1 - m % 2) / 2)) else (0, 0)

def rangesMeet (a n b m : Nat) : Bool := decide (0 < n) && decide (0 < m) && decide (a < b + m) && decide (b < a + n)

/-- Size of a reduction die's SRAM. -/
def sramSize : Nat := 402653184

/-- Does a range of a space refuse a channel's access with BAD_ADDR (R403)? -/
def addrBad (s : State) (c sp a n : Nat) : Bool :=
  match sp with
  | 1 =>
    let o := a % 2 ^ 36
    let part := shardPart s (a / 2 ^ 36)
    decide (a ≥ 2 ^ 39) || decide (o + n > 2 ^ 36) || (decide (c < 28) && (rangesMeet o n 0 196608 || rangesMeet o n part.1 part.2))
  | 3 => decide (a ≥ 2 ^ 32) || decide (a / 2 ^ 29 % 2 = 1) || decide (a % 2 ^ 29 + n > sramSize)
  | _ => false

/-- Quadrant of a byte of a die's SRAM (R452). -/
def sramQuad (o : Nat) : Nat := o / 100663296

/-- Is a range of a space powered and live (R403)? -/
def placeUp (s : State) (sp a n : Nat) : Bool :=
  match sp with
  | 1 => stackUp s (a / 2 ^ 36)
  | 3 => redLive s (a / 2 ^ 30) &&
      (List.range 4).all fun q => !(decide (sramQuad (a % 2 ^ 29) ≤ q) && decide (q ≤ sramQuad (a % 2 ^ 29 + n - 1))) || domOn s (domQuad (a / 2 ^ 30) q)
  | _ => true

/-- Key of the shard block that holds byte o of the shard part of stack m. -/
def partKey (m o : Nat) : Nat := m / 2 * 2 ^ 28 + (2 * (o / 528) + m % 2)

/-- Read bytes of a stack: those of the shard part come from its blocks. -/
def dramRead (s : State) (m o n : Nat) : List Byte :=
  let part := shardPart s m
  if rangesMeet o n part.1 part.2 then
    (List.range n).map fun i =>
      if part.1 ≤ o + i ∧ o + i < part.1 + part.2 then byteAt (blkBytes (tget {} s.mem.shard (partKey m (o + i - part.1)))) ((o + i - part.1) % 528)
      else tget 0 s.mem.dram (m * 2 ^ 36 + o + i)
  else rdBytes s.mem.dram (m * 2 ^ 36 + o) n

/-- Write one byte of the shard part, at its place p in the part. -/
def partWrite (m p : Nat) (b : Byte) (t : Tbl ShardBlk) : Tbl ShardBlk :=
  let k := partKey m p
  tset {} t k (blkOf (patch (blkBytes (tget {} t k)) (p % 528) [b]))

/-- Write bytes of a stack. -/
def dramWrite (m o : Nat) (bs : List Byte) (s : State) : State :=
  let part := shardPart s m
  if rangesMeet o bs.length part.1 part.2 then
    each (bs.zip (List.range bs.length)) (fun e s =>
      if part.1 ≤ o + e.2 ∧ o + e.2 < part.1 + part.2 then
        { s with mem := { s.mem with shard := partWrite m (o + e.2 - part.1) e.1 s.mem.shard } }
      else { s with mem := { s.mem with dram := tset 0 s.mem.dram (m * 2 ^ 36 + o + e.2) e.1 } }) s
  else { s with mem := { s.mem with dram := wrBytes s.mem.dram (m * 2 ^ 36 + o) bs } }

/-- Key of a byte of SRAM from its address in space 3. -/
def sramKey (a : Nat) : Nat := a / 2 ^ 30 * 2 ^ 29 + a % 2 ^ 29

/-- Read bytes of a local space. -/
def placeRead (s : State) (sp a n : Nat) : List Byte :=
  match sp with
  | 0 => rdBytes s.mem.host a n
  | 1 => dramRead s (a / 2 ^ 36) (a % 2 ^ 36) n
  | 3 => rdBytes s.mem.sram (sramKey a) n
  | _ => List.replicate n 0

/-- Write bytes of a local space, counted (R457). -/
def placeWrite (sp a : Nat) (bs : List Byte) (s : State) : State :=
  match sp with
  | 0 => countBytes 33 bs.length { s with mem := { s.mem with host := wrBytes s.mem.host a bs } }
  | 1 => countBytes (17 + 2 * (a / 2 ^ 36)) (64 * codewords a bs.length) <| cwWritten (a / 2 ^ 36) (a % 2 ^ 36) bs.length (dramWrite (a / 2 ^ 36) (a % 2 ^ 36) bs s)
  | 3 => countBytes (9 + 2 * (a / 2 ^ 30)) bs.length { s with mem := { s.mem with sram := wrBytes s.mem.sram (sramKey a) bs } }
  | _ => s

/-- Count a read of a local space (R457). -/
def countRead (sp a n : Nat) : State → State :=
  match sp with
  | 0 => countBytes 32 n
  | 1 => countBytes (16 + 2 * (a / 2 ^ 36)) (64 * codewords a n)
  | 3 => countBytes (8 + 2 * (a / 2 ^ 30)) n
  | _ => id

/-- The checks of a read of n bytes of a local space (R308, R310, R316, R317, R407): does it fail with a bus error? res is how the beat ended on
the buses and in the memories. -/
def readCheck (res : BeatResult) (sp a n : Nat) (s : State) : Bool × State :=
  match sp with
  | 0 => (res == .hostError, s)
  | 1 =>
    let (r, s) := cwRead (a / 2 ^ 36) (a % 2 ^ 36) n 0 (match res with | .dram r => r | _ => .clean) s
    (r == .uncorrectable, s)
  | 3 =>
    let x := a / 2 ^ 30
    let (r, inj, s) := injectSecDed x (match res with | .sram r _ => r | _ => .clean) s
    match r with
    | .clean => (false, s)
    | .single => (false, logEvent' 0x3010 3 (256 * x) [] 0 (a % 2 ^ 29) inj (redCnt x 0x130 1 s))
    | .double => (true, sramDouble x (a % 2 ^ 29) (match res with | .sram _ p => p | _ => .unallocated) (logEvent' 0x3011 3 (256 * x) [] 0 (a % 2 ^ 29) inj (redCnt x 0x134 1 s)))
  | _ => (false, s)

/-! ## A channel's state (R399, R401, R408) -/

def chanBusy (c : ChanSt) : Bool := match c.state with | .run | .hostBlocked => true | _ => false

/-- The staging buffer of channel c, once the pool manager has given it (R401). -/
def stagingBuf (s : State) (c : Nat) : Option Nat := (s.bpm.holders.find? fun e => e.2 = 16 + c + 1).map Prod.fst

/-- A drain has ended (R460): on DONE the buffer is empty and no longer FROZEN; on a halt it stays. -/
def drainEnd (b : Nat) (ok : Bool) : State → State := modTrace b fun t =>
  if ok then { t with busy := false, frozen := false, ents := [] } else { t with busy := false }

/-- Tell the owner of a channel how its transfer ended. -/
def tellOwner (c : Nat) (x : Xfer) (s : State) : State :=
  let k := chanOf s c
  let s := match k.owner with
    | some r => modRing r (fun g => { g with cur := g.cur.map fun q => { q with xfer := x, data := k.buf } }) s
    | none => s
  match k.drain with
  | some b => drainEnd b (x == .done) s
  | none => s

/-- A channel leaves RUN or HOST_BLOCKED: its buffer is freed and its vector raised (R401, R412). -/
def leaveRun (c : Nat) (x : Xfer) (s : State) : State :=
  let s := tellOwner c x s
  let s := modChan c (fun k => { k with granted := none, tries := 0, cur := none, remote := [], fixed := none, fixedEp := none, drain := none, buf := [] }) s
  let s := freeAllOf (16 + c) s
  iff (chanOf s c).intrEn (raiseVec (11 + c)) s

/-- A channel ends DONE. -/
def chanDone (c : Nat) (s : State) : State := leaveRun c .done (modChan c (fun k => { k with state := .done, cause := 0 }) s)

/-- A channel halts with a cause of R412: every write already complete stays (R408). -/
def chanHalt (c cause : Nat) (s : State) : State :=
  let s := modDma (fun d => { d with halted := setBit d.halted c true }) (dmaCnt 0x808 1 s)
  leaveRun c (.failed cause) (modChan c (fun k => { k with state := .halted, cause := BitVec.ofNat 4 cause }) s)

/-- A channel enters RUN at element 0 and asks for its buffer. fixed is an element that stands in no list, with its endpoint. -/
def chanRun (c : Nat) (fixed : Option (Elem × Ident)) (drain : Option Nat) (s : State) : State :=
  poolAsk (16 + c) 65536 none (modChan c (fun k =>
    { k with state := .run, cause := 0, elem := 0, offset := 0, granted := none, tries := 0, cur := none, remote := [], fixed := fixed.map Prod.fst, fixedEp := fixed.map Prod.snd, drain := drain, buf := [] }) s)

/-- GO (R408): starts at element 0; in RUN and HOST_BLOCKED it is ignored, and on the command processor's channels dropped (R399). -/
def chanGo (c : Nat) (s : State) : State :=
  let k := chanOf s c
  if 28 ≤ c ∨ chanBusy k then s
  else if k.count = 0 ∨ k.listSpace = 2 then chanHalt c 3 (modChan c (fun k => { k with elem := 0, offset := 0, drain := none }) s)
  else chanRun c none none s

/-- Are all writes of the current element complete (R404)? -/
def elemOver (k : ChanSt) : Bool := match k.cur with | some e => decide (e.put ≥ e.len) && k.remote.isEmpty | none => false

/-- Is the current element the last? -/
def lastElem (k : ChanSt) : Bool := k.fixed.isSome || decide (k.elem.toNat + 1 ≥ k.count.toNat)

/-- The element is complete: the next one may be read, or the channel ends DONE (R404). -/
def elemAdvance (c : Nat) (s : State) : State :=
  let k := chanOf s c
  if k.state ≠ .run || !elemOver k then s
  else if lastElem k then chanDone c s
  else modChan c (fun k => { k with elem := k.elem + 1, offset := 0, cur := none }) s

/-- STOP (R408): at the next beat boundary; a last element whose writes are complete wins. -/
def chanStop (c : Nat) (s : State) : State :=
  let k := chanOf s c
  if 28 ≤ c ∨ !chanBusy k then s
  else if elemOver k && lastElem k then chanDone c s
  else chanHalt c 4 s

/-- Every channel at work halts (R410). -/
def haltAll (cause : Nat) (s : State) : State := each (List.range 32) (fun c s => if chanBusy (chanOf s c) then chanHalt c cause s else s) s

/-! ## Beats (R400, R402 to R407, R409) -/

/-- The element that 16 bytes of a list spell (R402). -/
def elemOf (l : List Byte) : Elem :=
  let v := le l 0 16
  let n := v / 2 ^ 104 % 2 ^ 20
  { dstSp := BitVec.ofNat 2 (v / 2 ^ 126), srcSp := BitVec.ofNat 2 (v / 2 ^ 124), len := if n = 0 then 1048576 else n,
    dst := BitVec.ofNat 52 (v / 2 ^ 52), src := BitVec.ofNat 52 v }

/-- Where the list element of a channel lies. -/
def listAt (k : ChanSt) : Nat := k.list.toNat + 16 * k.elem.toNat

/-- The ends of an element that are places: space and address of its source and destination. -/
def elemEnds (e : Elem) : List (Nat × Nat) :=
  (if e.fromBuf then [] else [(e.srcSp.toNat, e.src.toNat)]) ++ (if e.intoBuf then [] else [(e.dstSp.toNat, e.dst.toNat)])

def remoteSrc (e : Elem) : Bool := !e.fromBuf && e.srcSp == 2
def remoteDst (e : Elem) : Bool := !e.intoBuf && e.dstSp == 2

/-- The next element of a channel without one in progress. -/
def nextElem (s : State) (k : ChanSt) : Elem :=
  match k.fixed with
  | some e => e
  | none => elemOf (placeRead s k.listSpace.toNat (listAt k) 16)

/-- The places that the start of the next element needs: its list, then its ends. -/
def startPlaces (s : State) (k : ChanSt) : List (Nat × Nat × Nat) :=
  let e := nextElem s k
  (if k.fixed.isSome then [] else [(k.listSpace.toNat, listAt k, 16)]) ++ (elemEnds e).map fun p => (p.1, p.2, e.len)

/-- An access that finds a quadrant or stack off wakes the device and waits for it (R451). -/
def mayWake (s : State) : Bool :=
  match s.pwr.state with
  | .run => false
  | _ => bitOf s.pwr.wakeEn 1 || (s.pwr.busy && s.pwr.phase == .restart)

/-- A channel waits for domains that come back. -/
def chanWaits (s : State) (k : ChanSt) : Bool :=
  k.cur.isNone && s.pwr.busy && s.pwr.phase == .restart && mayWake s && (startPlaces s k).any fun p => !placeUp s p.1 p.2.1 p.2.2

/-- Bytes of the next beat: at most 64 (R400). -/
def beatLen (ofs len : Nat) : Nat := min 64 (len - ofs)

/-- The source bytes of part of an element, as far as they have come. -/
def elemData (e : Elem) (ofs n : Nat) : Option (List Byte) :=
  if remoteSrc e then (e.got.find? fun g => g.1 = ofs).map fun g => g.2.take n else some (sub e.data ofs n)

/-- Do both ends lie at the endpoint and overlap, so that all is read before any is written (R404)? -/
def remoteOverlap (e : Elem) : Bool := remoteSrc e && remoteDst e && rangesMeet e.src.toNat e.len e.dst.toNat e.len

/-- Can the element write at its next byte? -/
def canPut (k : ChanSt) (e : Elem) : Bool :=
  decide (e.put < e.len) && (elemData e e.put 64).isSome && (!remoteDst e || decide (k.remote.length < 8)) &&
    (!remoteOverlap e || (decide (e.asked ≥ e.len) && k.remote.all fun m => m.wr))

/-- Can the element ask its remote source for more (R406)? -/
def canAsk (k : ChanSt) (e : Elem) : Bool := remoteSrc e && decide (e.asked < e.len) && decide (k.remote.length < 8)

/-- Has the channel a beat to make? -/
def chanReady (s : State) (k : ChanSt) : Bool :=
  k.state == .run && k.granted.isSome && !chanWaits s k &&
    (match k.cur with
      | none => true
      | some e => canPut k e || canAsk k e)

/-- Does the next beat of a channel touch host memory (R409)? -/
def touchesHost (k : ChanSt) : Bool :=
  match k.cur with
  | none => k.fixed.isNone && k.listSpace == 0
  | some e => if canPut k e then (!e.fromBuf && e.srcSp == 0) || (!e.intoBuf && e.dstSp == 0) else false

/-- An error of an attempt: counted; the beat is retried, or the channel halts (R407). -/
def beatError (c : Nat) (s : State) : State :=
  let s := dmaCnt 0x800 1 s
  let k := chanOf s c
  if k.tries ≥ k.retry.toNat then chanHalt c 1 s else modChan c (fun k => { k with tries := k.tries + 1 }) s

/-- A beat has succeeded (R407). -/
def beatOk (c : Nat) (s : State) : State :=
  if (chanOf s c).tries = 0 then s else modChan c (fun k => { k with tries := 0 }) (dmaCnt 0x804 1 s)

/-- A place that is off: the device wakes, or the channel halts (R403, R451). -/
def placeOff (c : Nat) (s : State) : State := if mayWake s then wakeBy 1 s else chanHalt c 7 s

/-- The payload of a NOTICE of R405, its fields most significant byte first (log entry 33). -/
def dmaNotice (code c len seq addr : Nat) (data : List Byte) : List Byte :=
  [3, 0, 0, 0] ++ bytesBE 2 code ++ [BitVec.ofNat 8 c, 0] ++ bytesBE 4 len ++ bytesBE 4 seq ++ bytesBE 8 addr ++ data

/-- The endpoint of a channel's space 2. -/
def chanEp (k : ChanSt) : Ident := k.fixedEp.getD k.ep

/-- Send a remote message of an element and hold it outstanding (R405, R406). -/
def sendRemote (c : Nat) (e : Elem) (wr : Bool) (ofs len tries : Nat) (s : State) : State :=
  let k := chanOf s c
  let m : RemoteMsg := { seq := k.rseq, wr := wr, ofs := ofs, len := len, tries := tries, sentAt := s.clock }
  let s := modChan c (fun k => { k with remote := k.remote ++ [m], rseq := k.rseq + 1 }) s
  if wr then sendMgmt (chanEp k).toNat (dmaNotice 0x12 c len m.seq.toNat (e.dst.toNat + ofs) (((elemData e ofs len).getD []).take len)) s
  else sendMgmt (chanEp k).toNat (dmaNotice 0x10 c len m.seq.toNat (e.src.toNat + ofs) []) s

/-- Bytes of the element completed: those before the first write still to be acknowledged. -/
def doneBytes (k : ChanSt) (e : Elem) : Nat := (k.remote.filter fun m => m.wr).foldl (fun a m => min a m.ofs) e.put

/-- OFFSET follows the bytes completed. -/
def syncOffset (c : Nat) : State → State := modChan c fun k =>
  match k.cur with
  | some e => { k with offset := BitVec.ofNat 21 (doneBytes k e) }
  | none => k

/-- The first beat of an element: its list entry is read and checked (R402, R403, R412). The source is kept as it stands now (R404). -/
def startElem (c : Nat) (res : BeatResult) (s : State) : State :=
  let k := chanOf s c
  let sp := k.listSpace.toNat
  if k.fixed.isNone && addrBad s c sp (listAt k) 16 then chanHalt c 2 s
  else if k.fixed.isNone && !placeUp s sp (listAt k) 16 then placeOff c s
  else
    let (bad, s) := if k.fixed.isSome then (false, s) else readCheck res sp (listAt k) 16 s
    if bad then beatError c s
    else
      let e := nextElem s k
      let s := iff k.fixed.isNone (fun s => countRead sp (listAt k) 16 (beatOk c s)) s
      if (elemEnds e).any fun p => addrBad s c p.1 p.2 e.len then chanHalt c 2 s
      else if (remoteSrc e || remoteDst e) && (chanEp k == 0 || chanEp k == 0xFFFFF) then chanHalt c 3 s
      else if (elemEnds e).any fun p => !placeUp s p.1 p.2 e.len then placeOff c s
      else
        let e := if e.fromBuf || e.srcSp = 2 then e else { e with data := placeRead s e.srcSp.toNat e.src.toNat e.len }
        modChan c (fun k => { k with cur := some e, offset := 0 }) s

/-- The bytes of a beat go to the destination. -/
def putBytes (c : Nat) (e : Elem) (bs : List Byte) (s : State) : State :=
  let s := if e.intoBuf then modChan c (fun k => { k with buf := k.buf ++ bs }) s
    else if e.dstSp = 2 then sendRemote c e true e.put bs.length 0 s
    else placeWrite e.dstSp.toNat (e.dst.toNat + e.put) bs s
  syncOffset c (modChan c (fun k => { k with cur := k.cur.map fun e => { e with put := e.put + bs.length } }) s)

/-- A beat that writes (R400): up to 64 B from source to destination. A place lost since the element began is a bus error (R410). -/
def putBeat (c : Nat) (e : Elem) (res : BeatResult) (s : State) : State :=
  let n := beatLen e.put e.len
  if (elemEnds e).any fun p => !placeUp s p.1 (p.2 + e.put) n then beatError c s
  else
    let (bad, s) := if e.fromBuf || e.srcSp = 2 then (false, s) else readCheck res e.srcSp.toNat (e.src.toNat + e.put) n s
    let bad := bad || (res == .hostError && !e.intoBuf && e.dstSp == 0)
    if bad then beatError c s
    else
      let s := if e.fromBuf || e.srcSp = 2 then s else countRead e.srcSp.toNat (e.src.toNat + e.put) n s
      putBytes c e (((elemData e e.put n).getD []).take n) (beatOk c s)

/-- A beat that asks a remote source. -/
def askBeat (c : Nat) (e : Elem) (s : State) : State :=
  let n := beatLen e.asked e.len
  sendRemote c e false e.asked n 0 (modChan c (fun k => { k with cur := k.cur.map fun e => { e with asked := e.asked + n } }) s)

/-- Does a beat meet a DRAM row that is being spared (R311)? It waits. -/
def beatWaits (s : State) (k : ChanSt) : Bool :=
  let busy (sp a n : Nat) : Bool := sp == 1 && rowBusy s (a / 2 ^ 36) (a % 2 ^ 36) n
  match k.cur with
  | none => k.fixed.isNone && busy k.listSpace.toNat (listAt k) 16
  | some e => canPut k e && (elemEnds e).any fun p => busy p.1 (p.2 + e.put) (beatLen e.put e.len)

/-- One beat of a channel. -/
def chanBeat (c : Nat) (res : BeatResult) (s : State) : State :=
  let k := chanOf s c
  if beatWaits s k then s
  else match k.cur with
  | none => startElem c res s
  | some e => if canPut k e then putBeat c e res s else askBeat c e s

/-- The first of the listed channels, in rotation from a pointer, that is ready. -/
def rotate (l : List Nat) (ptr : Nat) : List Nat := l.filter (fun c => decide (ptr ≤ c)) ++ l.filter (fun c => decide (c < ptr))

/-- The channel that takes the next beat (R400, R410): one that retries, then a high one, then another. -/
def pickChan (s : State) : Option Nat :=
  let ready := (List.range 32).filter fun c => chanReady s (chanOf s c)
  match ready.find? fun c => decide ((chanOf s c).tries ≠ 0) with
  | some c => some c
  | none => (rotate (ready.filter (· < 4)) s.dma.hiPtr ++ rotate (ready.filter fun c => decide (4 ≤ c)) s.dma.loPtr).head?

/-- While Bus Master Enable is clear, channels that reach host memory are blocked (R409). -/
def blockHost (s : State) : State :=
  if s.cmd.bme then s
  else each (List.range 32) (fun c s =>
    let k := chanOf s c
    if chanReady s k && touchesHost k then modChan c (fun k => { k with state := .hostBlocked }) s else s) s

/-- DMA_BEAT's work: one beat of the channel chosen, the pointers moved and a pre-emption counted (R400, R413). -/
def engineBeat (res : BeatResult) (s : State) : State :=
  let s := blockHost s
  match pickChan s with
  | none => s
  | some c =>
    let lower := (List.range 32).any fun j => decide (4 ≤ j) && chanReady s (chanOf s j)
    let s := if c < 4 then modDma (fun d => { d with hiPtr := (c + 1) % 4 }) (iff lower (dmaCnt 0x80C 1) s)
      else modDma (fun d => { d with loPtr := if c = 31 then 4 else c + 1 }) s
    chanBeat c res s

/-! ## Remote answers (R406, R407) -/

def dropRemote (c : Nat) (m : RemoteMsg) : State → State := modChan c fun k => { k with remote := dropFirst m k.remote }

/-- A remote message has failed: it is sent again under a new sequence number, or the channel halts at its byte. -/
def remoteError (c : Nat) (m : RemoteMsg) (s : State) : State :=
  let s := dmaCnt 0x800 1 s
  let k := chanOf s c
  match k.cur with
  | none => s
  | some e =>
    if m.tries ≥ k.retry.toNat then chanHalt c 1 (modChan c (fun k => { k with offset := BitVec.ofNat 21 m.ofs }) s)
    else sendRemote c e m.wr m.ofs m.len (m.tries + 1) (dropRemote c m s)

def remoteOk (c : Nat) (m : RemoteMsg) (s : State) : State := iff (decide (m.tries ≠ 0)) (dmaCnt 0x804 1) (dropRemote c m s)

/-- The message outstanding that an answer names. -/
def remoteOf (s : State) (c : Nat) (wr : Bool) (seq : Word) : Option RemoteMsg :=
  (chanOf s c).remote.find? fun m => m.wr == wr && m.seq == seq

def remoteRead (c : Nat) (seq : Word) (status : Byte) (data : List Byte) (s : State) : State :=
  match remoteOf s c false seq with
  | none => s
  | some m =>
    if status ≠ 0 ∨ data.length ≠ m.len then remoteError c m s
    else modChan c (fun k => { k with cur := k.cur.map fun e => { e with got := e.got ++ [(m.ofs, data)] } }) (remoteOk c m s)

def remoteWritten (c : Nat) (seq : Word) (status : Byte) (s : State) : State :=
  match remoteOf s c true seq with
  | none => s
  | some m => if status ≠ 0 then remoteError c m s else syncOffset c (remoteOk c m s)

/-- Bus Master Enable is set again: blocked channels return to RUN where they paused (R409). -/
def unblockChans (s : State) : State :=
  each (List.range 32) (fun c s => if (chanOf s c).state = .hostBlocked then modChan c (fun k => { k with state := .run }) s else s) s

/-! ## The commands -/

/-- GO (R408). -/
def execGo (c : Chan) (st : State) : Outcome := .next <| if mgmtUp st then chanGo c st else st

/-- STOP_CHANNEL (R408). -/
def execStopChannel (c : Chan) (st : State) : Outcome := .next <| if mgmtUp st then chanStop c st else st

/-- DMA_STAGING_GRANT (R401): the buffer that the pool manager has given the channel. -/
def execDmaStagingGrant (c : Chan) (st : State) : Outcome :=
  .next <| if mgmtUp st && chanBusy (chanOf st c) && (chanOf st c).granted.isNone then modChan c (fun k => { k with granted := stagingBuf st c }) st else st

/-- DMA_BEAT (R400). -/
def execDmaBeat (res : BeatResult) (st : State) : Outcome := .next <| if mgmtUp st then engineBeat res st else st

/-- DMA_ELEMENT_DONE (R404). -/
def execDmaElementDone (c : Chan) (st : State) : Outcome := .next <| if mgmtUp st then elemAdvance c st else st

/-- RD_RESP (R405, R406). -/
def execRdResp (c : Chan) (seq : Word) (status : Byte) (data : List Byte) (st : State) : Outcome :=
  .next <| if mgmtUp st then remoteRead c seq status data st else st

/-- WR_ACK (R405, R406). -/
def execWrAck (c : Chan) (seq : Word) (status : Byte) (st : State) : Outcome := .next <| if mgmtUp st then remoteWritten c seq status st else st

/-- REMOTE_RESPONSE_TIMEOUT (R406): no answer in 100 µs. -/
def execRemoteResponseTimeout (c : Chan) (seq : Word) (st : State) : Outcome :=
  .next <|
    if !mgmtUp st then st
    else match (chanOf st c).remote.find? fun m => m.seq == seq with
      | some m => remoteError c m (clockTo (m.sentAt + 100000) st)
      | none => st

end Sys2Proof.Machine
end

