-- ==== Sys2Proof/Machine/Rings.lean ====
section
/-! DEFINITION. Command rings (R381 to R392): completions, holding them while Bus Master Enable is clear, releasing what a command
holds, aborts, and the stops of an FLR or a takeover. -/

namespace Sys2Proof.Machine

/-! ## Completions (R381, R383, R384, R390) -/

/-- The 16 bytes of a completion (R383). -/
def compBytes (h : HeldComp) (phase : Bool) : List Byte :=
  bytesLE 4 h.tag.toNat ++ bytesLE 2 h.status.toNat ++ [BitVec.ofNat 8 (b2n phase + 2 * b2n h.late), BitVec.ofNat 8 h.ring] ++
    bytesLE 4 h.dones.toNat ++ bytesLE 4 h.total.toNat

/-- The completion ring has a free slot: one entry stays unused (R381). -/
def slotThere (g : Ring) : Bool := g.cqTail + 1 != g.cqHead

/-- Count a completion (R398). -/
def countComp (h : HeldComp) (s : State) : State :=
  let s := cmdCnt 0x400 1 s
  let s := iff (h.status == 1) (cmdCnt 0x404 1) s
  let s := iff h.late (cmdCnt 0x408 1) s
  iff (h.status == 2) (cmdCnt 0x410 1) s

/-- Write a completion to its ring in host memory; PHASE flips on each wrap (R383). -/
def writeComp (h : HeldComp) (s : State) : State :=
  let g := ringOf s h.ring
  let s := placeWrite 0 (g.cqBase.toNat + 16 * g.cqTail.toNat) (compBytes h g.phase) s
  let s := modRing h.ring (fun g => { g with cqTail := g.cqTail + 1, phase := if g.cqTail + 1 = 0 then !g.phase else g.phase }) s
  iff h.intr (raiseVec h.ring) (countComp h s)

/-- The completion of a finished command. -/
def compOf (r : Nat) (c : RunCmd) (st : BitVec 16) (dn : Word) : HeldComp :=
  { ring := r, tag := c.hdr.tag, status := st, late := c.late, dones := dn, total := BitVec.ofNat 32 c.total, intr := c.hdr.intr }

def dropCur (r : Nat) : State → State := modRing r fun g => { g with cur := none }

/-- Post the completion of a ring's finished command: written, held on chip, sent to the remote sender, or left to wait for a slot. -/
def tryPost (r : Nat) (s : State) : State :=
  match (ringOf s r).cur with
  | none => s
  | some c => match c.result with
    | none => s
    | some (st, dn) =>
      let h := compOf r c st dn
      if r = 8 then sendMgmt c.src.toNat ([2, 0, 0, 0] ++ compBytes h false) (countComp h (dropCur r s))
      else if !s.cmd.bme then
        if s.cmd.heldComps.length < 64 then modCmd (fun k => { k with heldComps := k.heldComps ++ [h] }) (dropCur r s) else s
      else if (s.cmd.heldComps.any fun x => x.ring == r) || !slotThere (ringOf s r) then s
      else writeComp h (dropCur r s)

/-- Write the completions held on chip, in order, each as soon as its ring has a slot. -/
def flushHeld (s : State) : State :=
  if !s.cmd.bme then s
  else each s.cmd.heldComps (fun h s =>
    let first := (s.cmd.heldComps.find? fun x => x.ring == h.ring) == some h
    if first && slotThere (ringOf s h.ring) then writeComp h (modCmd (fun k => { k with heldComps := dropFirst h k.heldComps }) s) else s) s

/-- Post whatever can be posted. -/
def postAll (s : State) : State := each (List.range 9) tryPost (flushHeld s)

/-! ## What a command holds -/

/-- Locks that a ring no longer holds are released; STEP_STARTs and STOPs held under them go on (R287). -/
def unlockShards (r : Nat) (s : State) : State :=
  if (List.range 4).all fun x => (redOf s x).locks.all fun l => l.1 ≠ r then s
  else
    let s := each (List.range 4) (fun x => modRed x fun d => { d with locks := d.locks.filter fun l => l.1 ≠ r }) s
    each (liveSlots s) (fun k s => match ctxOf s k with
      | some c => if c.st != .moving && !c.held.isEmpty && !shardLocked s c && !shardDown s c then replayHeld k s else s
      | none => s) s

/-- Give up what a ring's command holds: locks, its DMA channel, the windthrow, an image copy, a command at the manager. -/
def letGo (r : Nat) (s : State) : State :=
  let s := unlockShards r s
  let s := each [28, 29, 30, 31] (fun c s => if (chanOf s c).owner = some r then modChan c (fun k => { k with owner := none }) s else s) s
  let s := if s.dbg.windRing = some r then modDbg (fun d => { d with windRing := none, windAt := none, windShadow := [] }) s else s
  modCmd (fun k => { k with
    updating := (match k.updating with | some u => if u.2.1 = r then none else some u | none => none)
    forwarded := k.forwarded.filter fun f => f.2.1 ≠ r }) s

/-- End the command of a ring: its result waits for a completion slot (R381). -/
def endCmd (r status : Nat) (dn : Nat) (s : State) : State :=
  let s := letGo r s
  tryPost r (modRing r (fun g => { g with cur := g.cur.map fun c => { c with result := some (BitVec.ofNat 16 status, BitVec.ofNat 32 dn), background := false } }) s)

/-- End it with its steps done. -/
def endDone (r status : Nat) (s : State) : State :=
  match (ringOf s r).cur with
  | some c => endCmd r status c.dones s
  | none => s

/-- The rest of a clearing in COMMIT runs, RELEASE included. -/
def clrFinish (s : State) : State :=
  match s.route.clr with
  | none => s
  | some c => (List.range (commitSteps s c.dieMask + 2)).foldl (fun s _ => if s.route.clr.isSome then (clrStep s).2 else s) s

/-- Has a clearing begun its last step for an abort: its first COMMIT step, or RELEASE where nothing is committed (R121)? -/
def clrPast (c : Clearing) : Bool := c.committed || c.phase == .release

/-- The clearing that a ring runs ends with it. An abort reverts it until its first COMMIT step (R121); an FLR or a takeover reverts it in
STAGE, HOLD and DRAIN, and lets it complete in COMMIT (R125). -/
def clrStop (r : Nat) (abort : Bool) (s : State) : State :=
  match s.route.clr with
  | some c =>
    if c.src = .ring r then
      stageWaiting (if (if abort then clrPast c else c.phase == .commit || c.phase == .release) then clrFinish s else clrRevert s)
    else s
  | none => s

/-- What the manager does across the fabric for a ring: under a takeover it goes on without the ring; else a creation is released and a
change that no worker has begun to commit is reverted (R189, R124, R392). -/
def fabStop (r : Nat) (takeover : Bool) (s : State) : State :=
  let s := each s.mgr.groups (fun e s => match e.2 with
    | some g =>
      if g.live || g.ring != some r then s
      else if takeover then modMgr (fun m => { m with groups := tset none m.groups e.1 (some { g with ring := none }) }) s
      else modMgr (fun m => { m with groups := tset none m.groups e.1 none }) (releaseAll g s)
    | none => s) s
  match s.mgr.change with
  | some f =>
    if f.ring != some r then s
    else
      let s := modMgr (fun m => { m with change := some { f with ring := none } }) s
      if takeover || f.begun then s else revertChange s
  | none => s

/-! ## Aborts (R388) -/

/-- A command that an abort ends at a step boundary: ABORTED with the steps done. -/
def abortCmd (r : Nat) (s : State) : State := endDone r 1 (fabStop r false (clrStop r true s))

/-- Has the running command of a ring begun its last step, so that an abort comes too late (R385, R388, R121)? -/
def pastAbort (s : State) (r : Nat) (c : RunCmd) : Bool :=
  c.result.isSome || s.cmd.forwarded.any (fun f => f.2.1 == r) ||
    (match c.body with
      | .clear _ _ _ fabric =>
        if fabric then (match s.mgr.change with | some f => f.ring == some r && f.begun | none => false)
        else (match s.route.clr with | some k => k.src == .ring r && clrPast k | none => false)
      | .groupCreate _ _ _ => false
      | .imageUpdate _ _ => (match s.cmd.updating with | some u => u.2.1 == r && u.2.2 == 2 | none => false)
      | _ => c.xfer == .running && decide (c.dones + 1 ≥ c.total))

/-- The TAGs of the entries of a ring that have not been fetched. -/
def waitingTags (s : State) (r : Nat) : List Word :=
  let g := ringOf s r
  (List.range (g.tail - g.head).toNat).map fun i =>
    BitVec.ofNat 32 (le (rdBytes s.mem.host (g.sqBase.toNat + 64 * ((g.head.toNat + i) % 4096) + 4) 4) 0 4)

/-- A write of ABORT[r] (R388). -/
def abortTag (r : Nat) (tag : Word) (s : State) : State :=
  let g := ringOf s r
  match g.cur.bind fun c => if c.hdr.tag = tag then some c else none with
  | some c =>
    if pastAbort s r c then modRing r (fun g => { g with cur := g.cur.map fun c => { c with late := true } }) s
    else if c.background then abortCmd r s
    else modRing r (fun g => { g with cur := g.cur.map fun c => { c with abort := true } }) s
  | none =>
    if g.en && (waitingTags s r).contains tag then modRing r (fun g => { g with aborts := g.aborts ++ [tag] }) s
    else cmdCnt 0x40C 1 s

/-! ## Stops by an FLR or a takeover (R391, R392) -/

/-- Opcode of a command (R385). -/
def opcodeOf : CmdBody → Nat
  | .nop => 0
  | .clear _ _ _ _ => 1
  | .groupCreate _ _ _ => 2
  | .groupDelete _ => 3
  | .groupStop _ _ => 4
  | .groupResume _ => 5
  | .shardLoad _ _ _ => 6
  | .shardSave _ _ _ => 7
  | .scrubPass _ => 8
  | .selfTest _ _ => 9
  | .windthrow => 10
  | .portRetrain _ _ => 11
  | .imageUpdate _ _ => 12
  | .regRead _ => 13
  | .regWrite _ _ => 14

/-- A command is stopped: no completion, a CMD_STOPPED record (R391, R487). cause 0 FLR, 1 takeover. -/
def stopCmd (cause r : Nat) (s : State) : State :=
  match (ringOf s r).cur with
  | none => s
  | some c =>
    let s := iff c.result.isNone (logMb 0x5101 (bytesLE 2 (opcodeOf c.body) ++ [BitVec.ofNat 8 r, BitVec.ofNat 8 cause] ++
      bytesLE 4 c.hdr.tag.toNat ++ bytesLE 4 c.dones ++ bytesLE 4 c.total)) s
    dropCur r (letGo r (fabStop r (cause == 1) (clrStop r false s)))

/-- A command of ring 8 whose transfer has been halted is stopped too (R408). -/
def stopRemote (cause : Nat) (s : State) : State :=
  match (ringOf s 8).cur with
  | some c => if (match c.xfer with | .failed _ => true | _ => false) then stopCmd cause 8 s else s
  | none => s

/-- What the host's management reset does (R391, R392): channels halt, commands stop, CMD, the MSI-X table and the function's own
configuration return to their reset values. -/
def hostReset (cause : Nat) (s : State) : State :=
  let s := haltAll (5 + cause) s
  let s := each (List.range 8) (stopCmd cause) s
  let s := stopRemote cause s
  modCmd (fun k => { k with
    rings := tset {} [] 8 (tget {} k.rings 8), last := 0, sstep := false, halted := false, sramDie := 0, sramBase := 0, cnt := []
    jtagLevel := if s.fuses.jtagKey.isNone then 1 else 0, nonce := 0, bme := false, cfg := [], msix := [], pba := 0, heldComps := [] }) s

/-! ## Bus Master Enable (R390, R409) -/

def clearBme (s : State) : State :=
  let s := modCmd (fun k => { k with bme := false }) s
  blockHost (each (List.range 8) (fun r s => if (ringOf s r).en then modRing r (fun g => { g with blocked := true }) s else s) s)

def setBme (s : State) : State :=
  if s.cmd.bme then s
  else
    let s := modCmd (fun k => { k with bme := true }) s
    let s := each (List.range 8) (fun r s => if (ringOf s r).blocked then modRing r (fun g => { g with blocked := false }) s else s) s
    raisePending (unblockChans (postAll s))

/-! ## The commands -/

/-- SQ_TAIL (R381). -/
def execSqTail (r : Fin 8) (tail : BitVec 12) (st : State) : Outcome := .next <| if mgmtUp st then modRing r (fun g => { g with tail := tail }) st else st

/-- CQ_HEAD (R381): slots are free again, and waiting completions go. -/
def execCqHead (r : Fin 8) (head : BitVec 12) (st : State) : Outcome :=
  .next <| if mgmtUp st then postAll (modRing r (fun g => { g with cqHead := head }) st) else st

/-- ABORT (R388). -/
def execAbort (r : Fin 8) (tag : Word) (st : State) : Outcome := .next <| if mgmtUp st then abortTag r tag st else st

/-- BUS_MASTER_ENABLE_CLEAR (R390). -/
def execBusMasterEnableClear (st : State) : Outcome := .next <| if mgmtUp st then clearBme st else st

/-- BUS_MASTER_ENABLE_SET (R390). -/
def execBusMasterEnableSet (st : State) : Outcome := .next <| if mgmtUp st then setBme st else st

/-- FUNCTION_LEVEL_RESET (R391). -/
def execFunctionLevelReset (st : State) : Outcome := .next <| if mgmtUp st then hostReset 0 st else st

end Sys2Proof.Machine
end

