-- ==== Sys2Proof/Machine/Faults.lean ====
section
/-! DEFINITION. Faults (R414 to R425): the fault state, takeover, losses, injection; the event recorder's windows, clears and
persistence (R430 to R435); the laser modules (R472 to R474). -/

namespace Sys2Proof.Machine

/-! ## The fault state (R415 to R418) -/

/-- Every sub-link is DOWN for FAULT and every transmitter dark (R416). -/
def faultLinks (s : State) : State :=
  each (allSubs s) (fun k s =>
    let s := modLink k (fun l => freshLink l .down .fault) { s with scheds := tset {} s.scheds k {} }
    each (strandPos s k) (fun q s =>
      let s := if (strandOf s q).light = .dark then s else emit (.light q .dark) s
      modStrand q (fun x => { x with st := .down, reason := .fault, light := .dark }) s) s) s

/-- What still answers under a cause (R416): the islands under cause 4, nothing under the others. -/
def islandsUnder (cause : Nat) (s : State) : State := if cause = 4 then s else modUnits (fun u => { u with mb0Ok := false, mb1Ok := false }) s

/-- A cause is latched, FAULT_N asserted, and THERMTRIP_N under cause 3 (R416). -/
def latchCause (cause : Nat) (s : State) : State :=
  modFlt (fun f => { f with fatal := true, cause := BitVec.ofNat 3 cause, faultAt := s.clock, faultN := true, thermtripN := cause == 3 }) s

/-- The fault state is entered (R416, R418): only cause 4 leaves a record. A later cause changes nothing, but one that arises in the same token
with a lower code is the one latched. -/
def enterFault (cause : Nat) (inj : Bool) (s : State) : State :=
  if s.rst.held || decide (cause = 0) || decide (4 < cause) then s
  else if s.flt.fatal then
    (if s.flt.faultAt = s.clock ∧ cause < s.flt.cause.toNat then islandsUnder cause (latchCause cause s) else s)
  else
    let s := if cause = 4 then logEvent' 0x5004 5 (mbInst s) [] 2 0 inj s else s
    let s := faultLinks (latchCause cause s)
    let s := each (bitsOf s.pwr.on) (fun k => domSet k false) s
    islandsUnder cause s

/-! ## Management blocks (R421, R374, R392) -/

/-- The block that is not active. -/
def otherMb (m : MbId) : MbId := match m with | .mb0 => .mb1 | .mb1 => .mb0
def mbNo (m : MbId) : Nat := match m with | .mb0 => 0 | .mb1 => 1
def mbLive (s : State) (m : MbId) : Bool := match m with | .mb0 => s.units.mb0Ok | .mb1 => s.units.mb1Ok
def loseMb (m : MbId) : State → State := modUnits fun u => match m with | .mb0 => { u with mb0Ok := false } | .mb1 => { u with mb1Ok := false }

/-- The standby takes over (R421): an entry to a low-power state ends, injections are disarmed, the host side is reset, SMBus starts
at offset 0. -/
def takeover (s : State) : State :=
  let old := s.units.active
  if !mbLive s (otherMb old) then s
  else
    let s := modUnits (fun u => { u with active := otherMb old }) (loseMb old s)
    let s := if s.pwr.busy && (s.pwr.phase == .vote || s.pwr.phase == .stop) then settleWants (endEntry 5 s) else s
    let s := modFlt (fun f => { f with injBlock := 0, injInst := 0, injChecker := 0, injPersist := false, injActive := false, injFired := false, injMask := 0, injKeyed := false }) s
    let s := hostReset 1 s
    let s := modCmd (fun k => { k with smbOff := 0, smbReset := true, smbLive := false, smbDomOff := false }) s
    let s := modEvr (fun e => { e with wins := [] }) s
    raiseVec 44 (logMb 0x5120 [] (logEvent 0x5001 5 (mbNo old) [] s))

/-! ## Injection registers (R424, R425, R439) -/

/-- A write of INJ_CTL. -/
def injCtlPut (val : Word) (s : State) : State :=
  modFlt (fun f =>
    let f := { f with injPersist := bitOf val 29, injFired := f.injFired && !bitOf val 27, injActive := f.injActive && !bitOf val 30 }
    if bitOf val 31 then { f with injActive := true, injKeyed := false } else f) s

/-- A write of INJ_KEY: MB checker 0 acts, and the fault collector's self-check fails (R425). -/
def injKeyPut (key : Byte) (s : State) : State :=
  if key ≠ 0x5A then s
  else
    let s := modFlt (fun f => { f with injKeyed := true }) s
    match injFire 5 (mbInst s) 0 s with
    | (some _, s) => enterFault 4 true s
    | (none, s) => s

/-! ## Lasers (R419, R472 to R474) -/

def laserOf (o : OptSt) (j : Nat) : Laser := if j = 0 then o.lsrA else o.lsrB
def modLaser (e j : Nat) (f : Laser → Laser) : State → State := modOpt e fun o =>
  if j = 0 then { o with lsrA := f o.lsrA } else { o with lsrB := f o.lsrB }

/-- The pin LSR_EN_N[2e + j], as the level a pull-up gives it: low while the engine's domain is on and LSR[j].EN is set, released in every
other case, so also in Hold, in the fault state and before t_L (R473). -/
def lsrEnN (s : State) (e j : Nat) : Bool := !(alive s && domOn s e && (laserOf (optOf s e) j).en)

/-- LASER_A_OK and LASER_B_OK (R74): the module delivers light. It is enabled while the engine's domain is on and EN is set (R473), and a module
found lost stays lost until the next reset (R30). -/
def laserOk (s : State) (e j : Nat) : Bool := let l := laserOf (optOf s e) j; domOn s e && l.en && !l.lost

/-- A laser module is lost: its partner serves the engine; with both gone the engine is lost (R419). -/
def loseLaser (e j : Nat) (s : State) : State :=
  if !laserOk s e j then s
  else
    let s := logEvent 0x0010 1 e [BitVec.ofNat 8 j] (modLaser e j (fun l => { l with lost := true }) s)
    if laserOk s e 0 || laserOk s e 1 then s else loseEngine e s

/-- Average of the last second's polls. -/
def biasAvg (l : List (BitVec 16)) : BitVec 16 := BitVec.ofNat 16 ((l.map BitVec.toNat).sum / max 1 l.length)

/-- A module answers a poll: its readings, its baseline once there is one, and ageing (R472, R474). -/
def laserReply (e j : Nat) (r : LaserReply) (s : State) : State :=
  let s := modLaser e j (fun l =>
    let h := (r.bias :: l.hist).take 10
    { l with present := true, nackRun := 0, hist := h, bias := biasAvg h, power := r.power, temp := r.temp }) s
  let l := laserOf (optOf s e) j
  let full := decide (l.hist.length = 10)
  let s := if l.locked then s
    else match r.area with
      | some v =>
        if v ≠ 0 then modLaser e j (fun l => { l with locked := true, baseSet := true, biasRef := v }) s
        else if full then emit (.laserBase e j l.bias) (modLaser e j (fun l => { l with locked := true, baseSet := true, biasRef := l.bias }) s)
        else s
      | none => if full then modLaser e j (fun l => { l with locked := true, biasRef := l.bias }) s else s
  let l := laserOf (optOf s e) j
  if l.locked && full && decide (0 < l.biasRef.toNat) && decide (100 * l.bias.toNat ≥ 120 * l.biasRef.toNat) then
    let s := modLaser e j (fun l => { l with ageing := true, ageLogged := true }) s
    iff (!l.ageLogged) (logEvent 0x0012 1 e ([BitVec.ofNat 8 j, 0] ++ bytesLE 2 l.bias.toNat ++ bytesLE 2 l.biasRef.toNat)) s
  else s

/-- A module does not answer: three NACKs in a row clear PRESENT (R472). -/
def laserNack (e j : Nat) : State → State := modLaser e j fun l =>
  { l with nacks := satAdd l.nacks 1, nackRun := l.nackRun + 1, present := l.present && decide (l.nackRun + 1 < 3) }

/-! ## The recorder's windows and clears (R431, R441) -/

def pathNo (p : Path) : Nat := match p with | .pcie => 0 | .smbus => 1 | .remote => 2 | .jtag => 3

/-- A write of RD_SEQ: the record is loaded in one snapshot, or the result says why not. -/
def rdSeqPut (p : Path) (seq : Word) (s : State) : State :=
  let w := tget {} s.evr.wins (pathNo p)
  let hit := if w.flash then
      (s.evr.flash.find? fun e => e.2.2.seq == seq && (match s.evr.flashClear with | some c => seqGe e.2.2.seq c | none => true)).map fun e => e.2.2
    else (s.evr.kept ++ s.evr.ring).find? fun r => r.seq == seq
  let w := match hit with
    | some r => { w with seq := seq, result := 0, data := recBytes r }
    | none => { w with seq := seq, result := if seq ≠ s.evr.headSeq && seqGe seq s.evr.headSeq then 2 else 1, data := [] }
  modEvr (fun e => { e with wins := tset {} e.wins (pathNo p) w }) s

/-- CLEAR: both parts of SRAM are emptied; the clear is logged. -/
def clearSram (p : Path) (s : State) : State :=
  logMb 0x5036 [BitVec.ofNat 8 (pathNo p)] (modEvr (fun e => { e with kept := [], ring := [] }) s)

/-- CLEAR_FLASH: records older than the clear read GONE; the clear is logged. -/
def clearFlashMark (p : Path) (s : State) : State :=
  logMb 0x5036 [BitVec.ofNat 8 (pathNo p)] (modEvr (fun e => { e with flashClear := some (e.headSeq + 1) }) s)

/-! ## Persistence (R432 to R435) -/

/-- Flash offset of a sector of the event region (R353). -/
def sectorOfs (n : Nat) : Nat := 0x4000000 + 65536 * n

/-- The recorder works: the device is up, or the surviving island writes the FA record (R418). -/
def recorderUp (s : State) : Bool := mgmtUp s || faultReads s

/-- The next sector is opened when the one being filled is full; the erase of the one after is due (R433). -/
def openSector (e : EvrSt) : EvrSt :=
  if e.curSlot < 64 then e
  else match e.erased with
    | n :: rest => { e with curSector := BitVec.ofNat 6 n, curSlot := 0, erased := rest, eraseDue := true }
    | [] => e

/-- The record at the front of the queue has been programmed with its marker, or its slot is spoilt and the next one is used. -/
def programmed (ok : Bool) (s : State) : State :=
  match s.evr.queue with
  | [] => s
  | r :: rest =>
    let s := modEvr openSector s
    let e := s.evr
    if e.curSlot ≥ 64 then s
    else
      let sec := e.curSector.toNat
      let at_ := sectorOfs sec + 1024 * e.curSlot
      let (fire, s) := injFire 8 0 0 s
      let inv (w : Word) (l : List Byte) : List Byte := l.take 60 ++ bytesLE 4 (BitVec.ofNat 32 (le l 60 4) ^^^ (w &&& 0xFFFF)).toNat
      let s := emit (.flashProgram at_ (match fire with | some w => inv w (recBytes r) | none => recBytes r)) s
      if ok && fire.isSome then modEvr (fun e => { e with queue := rest, badSlots := e.badSlots ++ [(sec, e.curSlot)], curSlot := e.curSlot + 1 }) s
      else if ok then
        let s := emit (.flashProgram (at_ + 1016) (bytesLE 8 0x5A5A0000A5A50000)) s
        modEvr (fun e => { e with queue := rest, flash := e.flash ++ [(sec, e.curSlot, r)], curSlot := e.curSlot + 1 }) s
      else modEvr (fun e => { e with badSlots := e.badSlots ++ [(sec, e.curSlot)], curSlot := e.curSlot + 1 }) s

/-- The sector to erase next: the first of the ring, after those erased and the one being filled, that is not retired. -/
def nextErase (e : EvrSt) : Option Nat :=
  let last := e.erased.getLast?.getD e.curSector.toNat
  ((List.range 63).map fun i => (last + 1 + i) % 64).find? fun n =>
    !e.sectorsRetired.contains n && !e.erased.contains n && decide (n ≠ e.curSector.toNat)

/-- Ten minutes in ns. -/
def eraseGap : Nat := 600000000000

/-- An erase that is due begins, at the first time the limit allows (R433). -/
def beginErase (s : State) : State :=
  let e := s.evr
  if !e.scanned || e.stopped || !e.eraseDue || e.erasing.isSome then s
  else match nextErase e with
    | none => modEvr (fun e => { e with eraseDue := false }) s
    | some n =>
      let s := clockTo (match e.eraseAt with | some t => t + eraseGap | none => 0) s
      emit (.flashErase (sectorOfs n)) (modEvr (fun e =>
        { e with erasing := some n, eraseAt := some s.clock, eraseDue := false, flash := e.flash.filter (fun r => r.1 ≠ n), badSlots := e.badSlots.filter fun b => b.1 ≠ n }) s)

/-- An erase ends: the sector is free, or retired; with fewer than 8 left the recorder stops (R434). -/
def endErase (ok : Bool) (s : State) : State :=
  match s.evr.erasing with
  | none => s
  | some n =>
    let s := modEvr (fun e => { e with erasing := none }) s
    if ok then modEvr (fun e => { e with erased := e.erased ++ [n] }) s
    else
      let s := modEvr (fun e => { e with sectorsRetired := insNat n e.sectorsRetired, eraseDue := true }) s
      let s := logMb 0x5033 [BitVec.ofNat 8 n] (emit (.flashProgram (sectorOfs n + 572) [0, 0, 0, 0]) s)
      if s.evr.sectorsRetired.length ≤ 56 then s
      else modEvr (fun e => { e with stopped := true, eraseDue := false }) (logMb 0x5034 [] s)

/-- Records in SRAM take their place after the newest one of the flash (R435; log entry 9). -/
def renumber (n : Word) (s : State) : State :=
  let up (l : List Record) := l.map fun r => { r with seq := r.seq + n }
  modEvr (fun e => { e with kept := up e.kept, ring := up e.ring, scanQueue := up e.scanQueue, headSeq := e.headSeq + n }) s

/-- The scan of the event region ends (R435). -/
def scanDone (x : ScanResult) (s : State) : State :=
  let recs := x.accepted.map fun a => a.2.2
  let newestH := (recs.reverse.find? fun r => r.cls == .h).map fun r => fld r.stamp 0 40
  let cyc := (recs.reverse.find? fun r => r.code == 0x5030#16).map fun r => fld r.stamp 40 32
  let used (n : Nat) := (x.accepted.map fun a => (a.1, a.2.1)).any (fun a => a.1 = n) || x.lost.any fun a => a.1 = n
  let slots := ((x.accepted.map fun a => (a.1, a.2.1)) ++ x.lost).filterMap fun a => if a.1 = x.cur then some (a.2 + 1) else none
  let free := ((List.range 63).map fun i => (x.cur + 1 + i) % 64).filter fun n => !x.retired.contains n && !used n
  let s := renumber ((recs.getLast?.map Record.seq).getD 0) s
  let s := modEvr (fun e => { e with
    flash := x.accepted, badSlots := x.lost, sectorsRetired := x.retired, curSector := BitVec.ofNat 6 x.cur, curSlot := slots.foldl max 0
    erased := free, eraseDue := free.isEmpty, stopped := decide (56 < x.retired.length)
    opBase := newestH.getD 0, cycles := BitVec.ofNat 32 (cyc.getD 0 + b2n (s.rst.cause == 0)) }) s
  let s := each x.lost (fun l s => logMb 0x5031 [BitVec.ofNat 8 l.1, BitVec.ofNat 8 l.2] (evrCnt 0x114 1 s)) s
  let s := iff (s.flt.prior != 0) (logMb 0x5035 [s.flt.prior.setWidth 8]) s
  let s := iff (s.rst.cause == 0) (logMb 0x5030 []) s
  let q := s.evr.scanQueue
  each q persist (modEvr (fun e => { e with scanned := true, scanQueue := [] }) s)

/-- A worker's record reaches the manager (R430): entered with its source, or folded (R428). -/
def takeForward (r : Record) (s : State) : State :=
  if (newestRec s).any fun n => identical n r.code.toNat r.block.toNat r.inst.toNat r.detail r.injected then foldNewest s else enterRec r s

/-! ## The commands -/

/-- FATAL_CAUSE (R415, R416). -/
def execFatalCause (cause : BitVec 3) (st : State) : Outcome := .next <| enterFault cause.toNat false st

/-- THERMTRIP (R416). -/
def execThermtrip (_die : Fin 8) (st : State) : Outcome := .next <| enterFault 3 false st

/-- SUPPLY_FAULT (R475). -/
def execSupplyFault (st : State) : Outcome := .next <| enterFault 2 false st

/-- MB_TAKEOVER (R421). -/
def execMbTakeover (st : State) : Outcome := .next <| if mgmtUp st then takeover st else st

/-- MIRROR_HEARTBEAT_SEND (R421): a heartbeat with inverted check bits is none. -/
def execMirrorHeartbeatSend (st : State) : Outcome :=
  .next <|
    if !mgmtUp st || !mbLive st (otherMb st.units.active) then st
    else match injFire 5 (mbInst st) 1 st with
      | (some _, st) => st
      | (none, st) => emit .mirrorBeat st

/-- STANDBY_LOST (R421, R30). -/
def execStandbyLost (st : State) : Outcome :=
  .next <|
    let m := otherMb st.units.active
    if mgmtUp st && mbLive st m then logEvent 0x5002 5 (mbNo m) [] (loseMb m st) else st

/-- DIE_FENCED (R420). -/
def execDieFenced (d : FabDie) (_cause : FenceCause) (st : State) : Outcome := .next <| if alive st then fenceDie d st else st

/-- LASER_LOST (R419). -/
def execLaserLost (e : Engine) (j : Fin 2) (st : State) : Outcome := .next <| if alive st then loseLaser e j st else st

/-- ENGINE_LOST (R419). -/
def execEngineLost (e : Engine) (st : State) : Outcome := .next <| if alive st then loseEngine e st else st

/-- ARM (R424): a write of INJ_CTL with ARM set. -/
def execArm (val : Word) (st : State) : Outcome := .next <| if mgmtUp st then injCtlPut (setBit val 31 true) st else st

/-- DISARM (R424). -/
def execDisarm (st : State) : Outcome := .next <| if mgmtUp st then modFlt (fun f => { f with injActive := false }) st else st

/-- INJ_KEY (R425). -/
def execInjKey (key : Byte) (st : State) : Outcome := .next <| if mgmtUp st then injKeyPut key st else st

/-- EVENT_FORWARD (R430). -/
def execEventForward (rec : Record) (st : State) : Outcome := .next <| if mgmtUp st && isMgr st then takeForward rec st else st

/-- RD_SEQ (R431). -/
def execRdSeq (path : Path) (seq : Word) (st : State) : Outcome := .next <| if mgmtUp st then rdSeqPut path seq st else st

/-- EVR_CLEAR (R431). -/
def execEvrClear (path : Path) (key : Byte) (st : State) : Outcome := .next <| if mgmtUp st && key == 0xC3 then clearSram path st else st

/-- CLEAR_FLASH (R431). -/
def execClearFlash (path : Path) (key : Byte) (st : State) : Outcome := .next <| if mgmtUp st && key == 0xC3 then clearFlashMark path st else st

/-- RECORD_PROGRAM_DONE (R432, R433). -/
def execRecordProgramDone (ok : Bool) (st : State) : Outcome := .next <| if recorderUp st then programmed ok st else st

/-- SECTOR_ERASE (R433). -/
def execSectorErase (st : State) : Outcome := .next <| if recorderUp st then beginErase st else st

/-- SECTOR_ERASE_DONE (R433, R434). -/
def execSectorEraseDone (ok : Bool) (st : State) : Outcome := .next <| if recorderUp st then endErase ok st else st

/-- EVENT_REGION_SCAN_DONE (R435). -/
def execEventRegionScanDone (scan : ScanResult) (st : State) : Outcome :=
  .next <| if recorderUp st && st.img.isSome && !st.evr.scanned then scanDone scan st else st

/-- OP_TIME (R435): six more hours of operation. -/
def execOpTime (st : State) : Outcome := .next <| if recorderUp st then logMb 0x5032 [] st else st

/-- LASER_MODULE_POLL (R472, R474). -/
def execLaserModulePoll (e : Engine) (j : Fin 2) (reply : Option LaserReply) (st : State) : Outcome :=
  .next <|
    if !alive st || !domOn st e then st
    else match reply with
      | some r => laserReply e j r st
      | none => laserNack e j st

end Sys2Proof.Machine
end

