-- ==== Sys2Proof/Machine/Debug.lean ====
section
/-! DEFINITION. Debug (R457 to R468): byte counters, trace buffers, the windthrow record, the audit of the books; and the residency
counters of R456. -/

namespace Sys2Proof.Machine

/-! ## Byte counters (R457, R458, R467) -/

/-- The counts that are visible: held while FREEZE is set. -/
def visible (s : State) : Tbl Nat := s.dbg.shown.getD s.dbg.bytes

/-- The value of a byte counter. A strand's is kept in twelfths of a bit; 5,120 bits of slots make an RS codeword of 680 B (log
entry 20). -/
def ctrBytes (t : Tbl Nat) (key : Nat) : Nat :=
  if 1024 ≤ key ∧ key < 4096 then tget 0 t key / 61440 * 680 else tget 0 t key

/-- A counter of R467 by its offset in DBG: value and width, for the offset of its lowest word. -/
def ctrAt (s : State) (o : Nat) : Option (Nat × Nat) :=
  let t := visible s
  let p := s.dbg.psel.toNat
  let port (key : Nat) : Option (Nat × Nat) := some (if p < 288 then ctrBytes t key else 0, 64)
  if o % 8 ≠ 0 ∧ ¬ (0x320 ≤ o ∧ o < 0x360) then none
  else if 0x200 ≤ o ∧ o < 0x240 then some (tget 0 t ((o - 0x200) / 8), 64)
  else if 0x240 ≤ o ∧ o < 0x280 then some (tget 0 t (8 + (o - 0x240) / 8), 64)
  else if 0x280 ≤ o ∧ o < 0x300 then some (tget 0 t (16 + (o - 0x280) / 8), 64)
  else if o = 0x300 ∨ o = 0x308 then some (tget 0 t (32 + (o - 0x300) / 8), 64)
  else if 0x320 ≤ o ∧ o < 0x360 ∧ o % 16 = 0 then
    let sum (ks : List Nat) : Nat := (ks.map (tget 0 t)).sum
    some (match (o - 0x320) / 16 with
      | 0 => sum ((List.range 288).map fun p => 64 + 2 * p)
      | 1 => sum ((List.range 288).map fun p => 65 + 2 * p)
      | 2 => sum [0, 2, 4, 6]
      | _ => sum ((List.range 16).map (16 + ·)), 80)
  else if o = 0x410 then port (64 + 2 * p)
  else if o = 0x418 then port (65 + 2 * p)
  else if 0x420 ≤ o ∧ o < 0x460 then port (1024 + 8 * p + (o - 0x420) / 8)
  else if 0x460 ≤ o ∧ o < 0x4E0 then port (4096 + 16 * p + (o - 0x460) / 8)
  else none

/-- Key of a latched word: each path has its own (R457). -/
def ctrLatch (path : Path) (o : Nat) : Nat := pathNo path * 4096 + o

/-- A read of a word of the byte counters: the lowest word latches the higher ones for its path. None where no counter lies. -/
def ctrRead (path : Path) (o : Nat) (s : State) : Option (Word × State) :=
  match ctrAt s o with
  | some (v, w) =>
    let v := v % 2 ^ w
    let s := modDbg (fun d => { d with latch := tset 0 d.latch (ctrLatch path (o + 4)) (BitVec.ofNat 32 (v / 2 ^ 32)) }) s
    let s := iff (w == 80) (modDbg fun d => { d with latch := tset 0 d.latch (ctrLatch path (o + 8)) (BitVec.ofNat 32 (v / 2 ^ 64)) }) s
    some (BitVec.ofNat 32 v, s)
  | none =>
    let low := if 4 ≤ o then (ctrAt s (o - 4)).isSome else false
    let low2 := if 8 ≤ o then (match ctrAt s (o - 8) with | some (_, 80) => true | _ => false) else false
    if low || low2 then some (tget 0 s.dbg.latch (ctrLatch path o), s) else none

/-- CLEAR of CNT_CTL: what FREEZE holds is cleared with the counters. -/
def ctrClear : State → State := modDbg fun d => { d with bytes := [], shown := d.shown.map fun _ => [] }

/-- FREEZE of CNT_CTL (R458). -/
def ctrFreeze (on : Bool) : State → State := modDbg fun d =>
  { d with shown := if on then some (d.shown.getD d.bytes) else none }

/-! ## Residency (R456) -/

/-- Milliseconds in a state of R454. -/
def resMs (s : State) (k : Nat) : Nat := (tget 0 s.pwr.res k + (if devCode s.pwr = k then s.clock - s.pwr.resSince else 0)) / 1000000

/-- A read of RES_LO latches RES_HI. -/
def resLo (k : Nat) (s : State) : Word × State :=
  (BitVec.ofNat 32 (resMs s k), modPwr (fun p => { p with resLatch := tset 0 p.resLatch k (BitVec.ofNat 32 (resMs s k / 2 ^ 32)) }) s)

/-! ## Trace buffers (R459, R460) -/

/-- The trace points of a buffer (R459). -/
def pointOf (b : Nat) : List Nat := if b < 4 then [1, 2, 3, 4] else if b < 8 then [0x10, 0x11, 0x12] else [0x20, 0x21, 0x22]

/-- Bits of MATCH that a point compares, 0 for a point without one. -/
def matchBits (point : Nat) : Nat := if point = 1 ∨ point = 2 then 20 else if point = 0x10 ∨ point = 0x12 then 24 else 0

/-- An entry of a buffer. -/
def traceEntry (s : State) (b : Nat) (point : Byte) (fields : List Byte) : List Byte :=
  bytesLE 8 (fabNs s).toNat ++ bytesLE 2 (fld (fabT s) 0 16) ++ [point, BitVec.ofNat 8 b] ++ sub fields 0 20

def traceLost (b : Nat) : State → State := modTrace b fun t => { t with lost := satAdd t.lost 1 }

/-- An event reaches a trace buffer: kept, filtered, or counted lost. again marks a further event of the same token. -/
def trace (b : Nat) (point : Byte) (key : BitVec 24) (fields : List Byte) (again : Bool) (s : State) : State :=
  let t := traceOf s b
  let w := matchBits point.toNat
  if !t.en || t.point != point || !(pointOf b).contains point.toNat || (decide (4 ≤ b ∧ b < 8) && !redEnabled s (b - 4)) then s
  else if t.matchEn && decide (w ≠ 0) && decide (fld key 0 w ≠ fld t.mtch 0 w) then s
  else if again || t.frozen then traceLost b s
  else if t.ents.length < 2048 then modTrace b (fun t => { t with ents := t.ents ++ [traceEntry s b point fields] }) s
  else if t.mode then modTrace b (fun t => { t with ents := t.ents.drop 1 ++ [traceEntry s b point fields] }) s
  else traceLost b s

/-- The address of a space, a stack and an offset as R403 takes it; a stack or an offset out of range gives an address that is
refused. -/
def placeAddr (sp stack addr : Nat) : Nat :=
  if sp = 1 then (if stack < 8 ∧ addr < 2 ^ 36 then stack * 2 ^ 36 + addr else 2 ^ 51) else addr

/-- The element of a drain (R460). -/
def drainElem (t : Trace) : Elem :=
  { dstSp := t.space, srcSp := 0, len := 32 * t.ents.length, dst := BitVec.ofNat 52 (placeAddr t.space.toNat t.stack.toNat t.dest.toNat), src := 0,
    fromBuf := true, data := t.ents.flatten }

/-- A write of DRAIN.GO (R460). -/
def drainGo (b : Nat) (s : State) : State :=
  let t := traceOf s b
  if t.busy || decide (28 ≤ t.chan.toNat) || chanBusy (chanOf s t.chan.toNat) || decide (t.dest.toNat % 32 ≠ 0) then
    modTrace b (fun t => { t with drainErr := true }) s
  else chanRun t.chan.toNat (some (drainElem t, t.ep)) (some b) (modTrace b (fun t => { t with frozen := true, busy := true }) s)

/-! ## The windthrow record (R461, R462) -/

/-- An entry: its fields, each with its bytes, padded or cut to the entry's size. -/
def wtEntry (size : Nat) (fs : List (Nat × Nat)) : List Byte := sub (fs.flatMap fun f => bytesLE f.1 f.2) 0 size

/-- A section: header and entries. -/
def wtSection (typ size inst : Nat) (ents : List (List Byte)) : List Byte :=
  bytesLE 2 typ ++ bytesLE 2 size ++ bytesLE 4 ents.length ++ [BitVec.ofNat 8 inst] ++ List.replicate 7 0 ++ ents.flatten

/-- Type 1: the heads of a die's queues. -/
def wtQueues (s : State) (d : Nat) : List Byte :=
  wtSection 1 16 d ((List.range 2304).map fun i =>
    let q := queueOf s (2304 * d + i)
    let p := (headEnt q).bind fun e => pktOf s e.pid
    let credit := shCredit (shSync s.clock q)
    wtEntry 16 [(2, i), (3, depthOf q), (3, match p with | some p => min (ageNs s p) (2 ^ 24 - 1) | none => 0), (1, match p with | some p => p.vc | none => 0),
      (1, match p with | some p => flitsOf (pktTotal p) | none => 0), (4, (BitVec.ofInt 32 (credit / 800)).toNat)])

/-- Type 2: the virtual output queues of a die. -/
def wtVoqs (s : State) (d : Nat) : List Byte :=
  wtSection 2 8 d ((List.range 576).map fun j =>
    let l := tget [] (swcOf s d).voqs j
    wtEntry 8 [(2, 72 * d + j / 8), (1, j % 8 / 2), (1, 1 + j % 2), (2, (l.map fun pid => match pktOf s pid with | some p => p.cells | none => 0).sum), (2, l.length)])

/-- Type 3: the link credits of the live sub-links. -/
def wtCredits (s : State) : List Byte :=
  wtSection 3 8 0 (((allSubs s).filter (linkLive s)).flatMap fun k => let l := linkOf s k
    (List.range 8).map fun v => wtEntry 8 [(2, k), (1, v), (2, tget 0 l.credHeld v), (2, tget 0 l.occ v), (2, (l.replay.filter fun f => f.vc = v).length)])

/-- Type 4: bridge and reducer credits of a die. -/
def wtBridges (s : State) (d : Nat) : List Byte :=
  let w := swcOf s d
  wtSection 4 16 d (((List.range 4).filter (· ≠ d)).map (fun e => wtEntry 16 [(1, e), (1, 0), (2, 1536 - landSum w.spentCred e), (2, landSum w.landOcc e)]) ++
    (List.range 4).map fun x => wtEntry 16 [(1, x), (1, 1), (2, 576 - landSum w.spentCred (4 + x)), (2, landSum w.landOcc (4 + x))])

/-- Code of a context's state (R213). -/
def ctxCode (c : Ctx) : Nat :=
  match c.st with | .free => 0 | .reserved => 1 | .idle => 2 | .ready => 3 | .run => 4 | .halt => 5 | .moving => 6 | .lost => 7

/-- Position of the first missing child of a step's oldest incomplete chunk (R213). -/
def firstMissing (c : Ctx) : Nat :=
  match (openSteps c).head? with
  | some t => match (missingOf c t (oldestIncomplete c t t.n 0)).head? with
    | some i => match c.spec.children[i]? with | some x => x.pos | none => 0
    | none => 0
  | none => 0

/-- PC of the oldest waiting instance of a context. -/
def waitingPc (c : Ctx) : Nat :=
  (((openSteps c).flatMap fun t => t.chunks.filterMap fun e => match e.2 with | some x => if x.inst.waiting then some x.inst.pc else none | none => none).head?).getD 0

/-- Type 5: the waiting contexts. -/
def wtContexts (s : State) : List Byte :=
  wtSection 5 32 0 ((liveSlots s).filterMap fun k => (ctxOf s k).bind fun c =>
    if decide (ctxCode c < 3) then none
    else
      let t := (openSteps c).head?
      some (wtEntry 32 [(3, k), (3, c.spec.group.toNat), (1, ctxCode c), (6, match t with | some t => t.num.toNat | none => 0), (1, (openSteps c).length),
        (3, match t with | some t => t.done.length | none => 0), (3, match t with | some t => t.limSent | none => 0), (2, firstMissing c), (2, waitingPc c)]))

def chanCode (k : ChanSt) : Nat := match k.state with | .idle => 0 | .run => 1 | .done => 2 | .hostBlocked => 3 | .halted => 4

/-- Type 6: the DMA channels and the command rings. -/
def wtChannels (s : State) : List Byte :=
  wtSection 6 16 0 ((List.range 32).map (fun c => let k := chanOf s c
      wtEntry 16 [(1, c), (1, chanCode k), (2, k.cause.toNat), (4, k.elem.toNat), (4, 0)]) ++
    (List.range 9).map fun r => match (ringOf s r).cur with
      | some c => wtEntry 16 [(1, r), (1, 1), (2, opcodeOf c.body), (4, c.dones), (4, c.hdr.tag.toNat)]
      | none => wtEntry 16 [(1, r)])

/-- Type 7: the pool waiters. -/
def wtPools (s : State) : List Byte :=
  wtSection 7 8 0 ((List.range 11).map fun k => let ws := s.bpm.waiters.filter fun w => w.k = k
    wtEntry 8 [(1, k), (2, ws.length), (1, match ws.head? with | some w => w.q | none => 0)])

/-- The whole record. -/
def wtRecord (s : State) (tf : BitVec 64) : List Byte :=
  let dies := (List.range 4).filter (dieLive s)
  let body := dies.flatMap (wtQueues s) ++ dies.flatMap (wtVoqs s) ++ wtCredits s ++ dies.flatMap (wtBridges s) ++ wtContexts s ++ wtChannels s ++ wtPools s
  let head := [0x4F, 0x4C, 0x57, 0x49, 0x4E, 0x44, 0x54, 0x48] ++ bytesLE 8 tf.toNat ++ bytesLE 2 s.gctl.coord.toNat ++
    bytesLE 2 (3 * dies.length + 4) ++ bytesLE 4 (64 + body.length)
  sub head 0 64 ++ body

/-- Bytes written per step (R461). -/
def wtStep : Nat := 262144

/-- The freeze (R461, R462): at the first token at or after T_f the record is taken and TOTAL fixed. -/
def wtFreeze (s : State) : State :=
  match s.dbg.windAt, s.dbg.windRing with
  | some tf, some r =>
    if fabNs s < tf || !s.dbg.windShadow.isEmpty then s
    else
      let rec_ := wtRecord s tf
      let s := modDbg (fun d => { d with windShadow := rec_ }) s
      modRing r (fun g => { g with cur := g.cur.map fun c => { c with total := 1 + cdiv rec_.length wtStep } }) s
  | _, _ => s

/-! ## The audit (R463, R464, R466) -/

/-- The link book of R48 as far as this end sees it: outside a replay no VC holds more than it advertised. -/
def linkBook (s : State) : Bool :=
  (allSubs s).all fun k => let l := linkOf s k
    !linkRuns l || !l.resend.isEmpty || (List.range 8).all fun v => decide (tget 0 l.occ v ≤ tget 0 l.adv v)

/-- The book of R201: what a step has accumulated, dropped and discarded is what was steered to it, until that count saturates. -/
def stepBook (s : State) : Bool :=
  s.ctxs.all fun e => match e.2 with
    | some c => (openSteps c).all fun t => decide (t.accum.toNat + t.dropped.toNat + t.discarded.toNat = t.steered.toNat) || t.steered == 0xFFFFFFFF#32 || t.failed.isSome || c.st == .moving
    | none => true

def auditBit (i : Nat) : State → State := modDbg fun d => { d with errs := setBit d.errs i true }

/-- Bytes of a shaper book's count. -/
def shBytes (n : Int) : Word := BitVec.ofInt 32 (n / 800)

/-- The snapshot that R466 shows. -/
def auditShot (s : State) : State :=
  let q := shSync s.clock (queueOf s (2304 * fld s.dbg.shaSel 30 2 + fld s.dbg.shaSel 0 12))
  let t := (ctxOf s (fld s.dbg.ctxSel 0 18)).bind fun c => if c.die = fld s.dbg.ctxSel 30 2 then (openSteps c).head? else none
  let ws := [shBytes q.earned, shBytes q.spent, shBytes q.cut, shBytes (shCredit q)] ++
    (match t with | some t => [t.steered, t.accum, t.dropped, t.discarded] | none => [0, 0, 0, 0])
  modDbg (fun d => { d with snap := (ws.zip (List.range 8)).foldl (fun a e => tset 0 a e.2 e.1) [] }) s

/-- DBG_AUDIT.SNAP: every book is frozen and compared; a failure sets its bit and logs its event. -/
def auditAll (s : State) : State :=
  let s := auditShot s
  let s := each ((List.range 4).filter (dieLive s)) (fun d s =>
    let s := iff (!gladeBook s d) (auditBit 1) s
    let s := iff (!bridgeBook s d) (auditBit 2) s
    auditSnap d s) s
  let s := if linkBook s then s else logEvent 0x5040 5 (mbInst s) [3] (auditBit 3 s)
  let s := iff (!poolBooks s) (auditBit 4) s
  let s := bpmSnap s
  if stepBook s then s else logEvent 0x5040 5 (mbInst s) [5] (auditBit 5 s)

/-! ## The commands -/

/-- CNT_CLEAR (R457). -/
def execCntClear (key : Byte) (st : State) : Outcome := .next <| if mgmtUp st && key == 0xC3 then ctrClear st else st

/-- FREEZE (R458). -/
def execFreeze (on : Bool) (st : State) : Outcome := .next <| if mgmtUp st then ctrFreeze on st else st

/-- BYTE_COUNTER_READ (R457): off is an offset of BAR0. -/
def execByteCounterRead (path : Path) (off : Off) (st : State) : Outcome :=
  .next <|
    if !mgmtUp st || off.toNat / 0x10000 ≠ 9 then st
    else match ctrRead path (off.toNat % 0x10000) st with
      | some (v, st) => emit (.readData path v) st
      | none => st

/-- RES_LO_READ (R456). -/
def execResLoRead (path : Path) (k : Fin 4) (st : State) : Outcome :=
  .next <| if mgmtUp st then (let (v, st) := resLo k st; emit (.readData path v) st) else st

/-- TRACE_EVENT (R459). -/
def execTraceEvent (b : Fin 10) (point : Byte) (key : BitVec 24) (fields : List Byte) (again : Bool) (st : State) : Outcome :=
  .next <| if alive st then trace b point key fields again st else st

/-- DRAIN_GO (R460). -/
def execDrainGo (b : Fin 10) (st : State) : Outcome := .next <| if mgmtUp st then drainGo b st else st

/-- DBG_AUDIT_SNAP (R463). -/
def execDbgAuditSnap (st : State) : Outcome := .next <| if mgmtUp st then auditAll st else st

/-- WINDTHROW_FREEZE (R461). -/
def execWindthrowFreeze (st : State) : Outcome :=
  .next <|
    if !mgmtUp st then st
    else match st.dbg.windAt with
      | some tf => wtFreeze (iff st.dbg.windShadow.isEmpty (fabTo tf.toNat) st)
      | none => st

end Sys2Proof.Machine
end

