-- ==== Sys2Proof/Machine/RegMap.lean ====
section
/-! DEFINITION. The register map of BAR0 (R375, R376, R452, R486): what each register shows, what a read does besides, and what a write
does. One definition per block and direction. -/

namespace Sys2Proof.Machine

/-! ## Where an offset leads (R375, R452) -/

/-- A place that an access reaches: a live register, a domain that is off, or no block. -/
inductive Reach where
  | ok | off (dom : Nat) | none
deriving DecidableEq, Repr

/-- A domain as a reach. -/
def reachDom (s : State) (k : Nat) : Reach := if domOn s k then .ok else .off k

/-- Byte of reduction SRAM that an offset of the window shows (R376). -/
def winByte (s : State) (off : Nat) : Nat := s.cmd.sramBase.toNat * 2 ^ 20 + (off - 0x1000000)

/-- Bytes of a die's reduction SRAM: 384 MiB. -/
def sramBytes : Nat := 384 * 2 ^ 20

/-- Where an aligned offset leads. -/
def reachOf (s : State) (off : Nat) : Reach :=
  if off < 0xA0000 then .ok
  else if off < 0x100000 then .none
  else if off < 0x110000 then
    (if 0x100010 ≤ off ∧ off < 0x100040 then reachDom s (domCore (winDie s)) else .ok)
  else if off < 0x200000 then .none
  else if off < 0x300000 then reachDom s (domCore ((off - 0x200000) / 0x40000))
  else if off < 0x400000 then .none
  else if off < 0x520000 then reachDom s (domPort ((off - 0x400000) / 0x1000))
  else if off < 0x600000 then .none
  else if off < 0x618000 then reachDom s ((off - 0x600000) / 0x1000)
  else if off < 0x800000 then .none
  else if off < 0x900000 then
    (let x := (off - 0x800000) / 0x40000
     if redEnabled s x then reachDom s (domQuad x 0) else .off (domQuad x 0))
  else if off < 0x908000 then reachDom s (domQuad ((off - 0x900000) / 0x2000) 0)
  else if off < 0x1000000 then .none
  else if off < 0x1F00000 then
    (let x := s.cmd.sramDie.toNat
     let b := winByte s off
     if sramBytes ≤ b then .ok
     else if redEnabled s x then reachDom s (domQuad x (b / (96 * 2 ^ 20)))
     else .off (domQuad x (b / (96 * 2 ^ 20))))
  else if off < 0x1F10000 then (if (liveStore s).isSome then .ok else .off 36)
  else .none

/-! ## What the registers show -/

def roleCode (r : Role) : Nat := match r with | .worker => 0 | .manager => 1 | .standby => 2

/-- The units of each kind that R371 shows as working: there, not lost, and powered since reset. -/
def unitMask (n : Nat) (f : Nat → Bool) : Nat := ((List.range n).map fun i => b2n (f i) * 2 ^ i).sum

def everOn (s : State) (k : Nat) : Bool := tget 0 s.pwr.trans k != 0

/-- GCTL (R371). -/
def gctlPeek (s : State) (o : Nat) : Word :=
  let g := s.gctl
  match o with
  | 0x000 => regWord [(16, 0x534B), (8, s.fuses.stepping.toNat), (0, b2n s.fuses.sk2x)]
  | 0x004 => regWord [(16, unitMask 8 fun m => (stackOf s m).live && !bitOf s.units.stackLost m), (12, unitMask 4 (redEnabled s)),
      (8, unitMask 4 fun x => redEnabled s x && !bitOf s.units.redLost x && everOn s (domQuad x 0)),
      (4, unitMask 4 fun d => !bitOf s.units.fabLost d && everOn s (domCore d)), (1, b2n s.units.mb1Ok), (0, b2n s.units.mb0Ok)]
  | 0x008 => g.fabricId
  | 0x00C => g.ownId.setWidth 32
  | 0x010 => regWord [(16, g.coordImg.toNat), (0, g.coord.toNat)]
  | 0x014 => regWord [(31, b2n g.ovrEn), (30, b2n g.closed), (0, g.ovrValue.toNat)]
  | 0x018 => regWord [(30, roleCode g.cfgRole), (28, roleCode g.role), (27, mbInst s), (0, g.acting.toNat)]
  | 0x01C => regWord [(31, b2n s.fuses.keyHash.isSome), (30, b2n g.signed)]
  | _ => 0

def startCode (p : StartPhase) : Nat :=
  match p with
  | .islands => 0 | .flash => 1 | .load => 2 | .power => 3 | .waves => 4 | .run => 5 | .imageFail => 6 | .noStart => 7

/-- RST (R370). -/
def rstPeek (s : State) (o : Nat) : Word :=
  let r := s.rst
  match o with
  | 0x000 => regWord [(28, startCode r.phase), (24, r.failReason.toNat), (20, min r.wave 12), (18, r.bootSel.toNat), (17, b2n r.addrSel),
      (16, b2n r.roleSel), (14, r.loaded.toNat), (13, b2n r.fellBack), (10, r.cause.toNat)]
  | 0x004 => regWord [(28, r.resultA.toNat), (20, r.typeA.toNat)]
  | 0x008 => regWord [(28, r.resultB.toNat), (20, r.typeB.toNat)]
  | 0x00C => r.genA
  | 0x010 => r.genB
  | 0x014 => regWord [(16, r.tLoaded.toNat), (0, r.tWave0.toNat)]
  | 0x018 => regWord [(0, b2n r.startHold)]
  | _ => 0

/-- DOM[k] (R455). -/
def domPeek (s : State) (k : Nat) : Word :=
  regWord [(31, b2n (domOn s k)), (30, b2n (domFused s k)), (29, b2n (bitOf s.pwr.lost k)), (28, b2n (bitOf s.pwr.wantOff k)),
    (27, b2n (bitOf s.pwr.selfRefresh k)), (26, b2n (domCtrlOnly s k))]

/-- Nanoseconds that a domain has been on since PWROK. -/
def onNs (s : State) (k : Nat) : Nat := tget 0 s.pwr.onSec k + (if domOn s k then s.clock - tget 0 s.pwr.onSince k else 0)

def entryCode (p : EntryPhase) : Nat := match p with | .none => 0 | .vote => 1 | .stop => 2 | .restart => 3

/-- PWR (R454 to R456). The token rate is measured: a free value while the die is on. -/
def pwrPeek (s : State) (o : Nat) : Word :=
  let p := s.pwr
  if 0x100 ≤ o ∧ o < 0x1F0 then domPeek s ((o - 0x100) / 4)
  else if 0x200 ≤ o ∧ o < 0x3E0 then
    (let k := (o - 0x200) / 8
     if o % 8 = 0 then BitVec.ofNat 32 (onNs s k / 1000000000) else (tget 0 p.trans k).setWidth 32)
  else if 0x400 ≤ o ∧ o < 0x420 then
    (let k := (o - 0x400) / 8
     if o % 8 = 0 then BitVec.ofNat 32 (resMs s k) else tget 0 p.resLatch k)
  else if 0x440 ≤ o ∧ o < 0x460 then
    (let i := (o - 0x440) / 4
     let on := if i < 4 then domOn s (domCore i) else redEnabled s (i - 4) && domOn s (domQuad (i - 4) 0)
     regWord [(16, if on then fld (Config.freeBits s.free) 0 16 else 0), (0, (tget 0 p.tj i).toNat)])
  else match o with
    | 0x000 => regWord [(3, b2n p.discard)]
    | 0x004 => regWord [(29, devCode p), (28, b2n p.busy), (26, entryCode p.phase), (23, p.last.toNat), (16, p.refuser.toNat), (12, p.reason.toNat),
        (0, p.shardDirty.toNat)]
    | 0x008 => regWord [(9, b2n p.heldPoint.isSome), (8, b2n p.ramping), (4, p.cur.toNat), (0, p.point.toNat)]
    | 0x00C => p.wakeEn.setWidth 32
    | 0x010 => p.wakeCause.setWidth 32
    | 0x480 => p.offAcc
    | _ => 0

/-- The capture of a class by its place (R438). -/
def capOf (f : FltSt) (k : Nat) : FltCap := match k with | 0 => f.capCe | 1 => f.capUc | _ => f.capFa

def modCap (k : Nat) (g : FltCap → FltCap) : State → State := modFlt fun f =>
  match k with
  | 0 => { f with capCe := g f.capCe }
  | 1 => { f with capUc := g f.capUc }
  | _ => { f with capFa := g f.capFa }

/-- FLT (R437 to R439). -/
def fltPeek (s : State) (o : Nat) : Word :=
  let f := s.flt
  if 0x100 ≤ o ∧ o < 0x160 then
    (let c := capOf f ((o - 0x100) / 0x20)
     match o % 0x20 with
     | 0x00 => regWord [(31, b2n c.valid), (30, b2n c.injected), (16, c.block.toNat), (0, c.inst.toNat)]
     | 0x04 => regWord [(28, c.access.toNat), (0, c.code.toNat)]
     | 0x08 => c.addr.extractLsb' 0 32
     | 0x0C => c.addr.extractLsb' 32 32
     | 0x10 => c.time.extractLsb' 16 32
     | 0x14 => c.time.extractLsb' 48 32
     | 0x18 => regWord [(16, c.more.toNat), (0, fld c.time 0 16)]
     | _ => 0)
  else match o with
    | 0x000 => regWord [(31, b2n f.fatal), (28, f.cause.toNat), (25, f.prior.toNat), (24, b2n f.faultN)]
    | 0x004 => regWord [(1, b2n f.ucEn), (0, b2n f.ceEn)]
    | 0x008 => regWord [(1, b2n f.ucPend), (0, b2n f.cePend)]
    | 0x010 => f.ceCount
    | 0x014 => f.ucCount
    | 0x200 => regWord [(24, f.injBlock.toNat), (8, f.injInst.toNat), (0, f.injChecker.toNat)]
    | 0x204 => regWord [(29, b2n f.injPersist), (28, b2n f.injActive), (27, b2n f.injFired)]
    | 0x208 => f.injMask
    | _ => 0

/-- EVR (R440 to R442), with the read window of the path. -/
def evrPeek (path : Path) (s : State) (o : Nat) : Word :=
  let e := s.evr
  let w := tget {} e.wins (pathNo path)
  if 0x080 ≤ o ∧ o < 0x0C0 then BitVec.ofNat 32 (le w.data (o - 0x080) 4)
  else match o with
    | 0x000 => regWord [(31, b2n e.stopped), (24, 64 - e.sectorsRetired.length), (18, e.curSector.toNat), (17, b2n e.scanned)]
    | 0x004 => e.headSeq
    | 0x008 => match e.ring.head? with | some r => r.seq | none => 0
    | 0x00C => regWord [(4, b2n e.intH), (3, b2n e.intF), (2, b2n e.persistF)]
    | 0x010 => BitVec.ofNat 32 (opSec s)
    | 0x014 => BitVec.ofNat 32 (opSec s / 2 ^ 32 % 256)
    | 0x018 => e.cycles
    | 0x040 => w.seq
    | 0x044 => regWord [(31, b2n w.flash), (29, w.result.toNat)]
    | _ => tget 0 e.cnt o

/-- TIM (R348, R349, R351). -/
def timPeek (s : State) (o : Nat) : Word :=
  let m := s.tim
  match o with
  | 0x000 => regWord [(31, b2n (isMgr s)), (30, b2n m.traceable), (29, b2n m.holdover), (28, b2n (m.leapPending || m.leapAt != 0)), (27, b2n m.ppsOk),
      (26, b2n m.tenmOk), (8, m.upstream.getD 0), (0, m.hops.toNat)]
  | 0x004 => (fabNs s).setWidth 32
  | 0x008 => m.latch.extractLsb' 48 32
  | 0x00C => (m.latch.extractLsb' 0 16).setWidth 32
  | 0x010 => (gmShown s).setWidth 32
  | 0x014 => m.offset
  | 0x018 => m.delay
  | 0x020 => m.setLo
  | 0x024 => m.setHi
  | 0x028 => regWord [(1, b2n m.armPps)]
  | 0x02C => regWord [(16, m.nextUtc.toNat), (0, m.utcOfs.toNat)]
  | 0x030 => m.leapAt
  | 0x034 => regWord [(16, m.holdTraceS.toNat), (0, m.stepThr.toNat)]
  | 0x038 => regWord [(3, b2n m.tenmDis), (2, b2n m.ppsDis), (1, b2n m.tenmEn), (0, b2n m.ppsEn)]
  | _ => tget 0 m.cnt o

/-- CMD (R396 to R398). -/
def cmdPeek (s : State) (o : Nat) : Word :=
  let c := s.cmd
  if 0x100 ≤ o ∧ o < 0x300 then
    (let g := ringOf s ((o - 0x100) / 0x40)
     match o % 0x40 with
     | 0x00 => g.sqBase.extractLsb' 0 32
     | 0x04 => g.sqBase.extractLsb' 32 32
     | 0x08 => g.cqBase.extractLsb' 0 32
     | 0x0C => g.cqBase.extractLsb' 32 32
     | 0x10 => regWord [(31, b2n g.en), (0, g.head.toNat)]
     | 0x14 => regWord [(31, b2n g.cur.isSome), (30, b2n g.blocked), (0, g.cqTail.toNat)]
     | 0x18 => match g.cur with | some x => x.hdr.tag | none => 0
     | 0x1C => match g.cur with | some x => BitVec.ofNat 32 x.dones | none => 0
     | 0x20 => match g.cur with | some x => BitVec.ofNat 32 x.total | none => 0
     | _ => 0)
  else match o with
    | 0x000 => regWord [(31, b2n c.sstep), (29, b2n c.halted)]
    | 0x010 => regWord [(30, c.sramDie.toNat), (0, c.sramBase.toNat)]
    | 0x020 => regWord [(30, c.jtagLevel.toNat)]
    | 0x024 => c.nonce.extractLsb' 0 32
    | 0x028 => c.nonce.extractLsb' 32 32
    | 0x02C => c.nonce.extractLsb' 64 32
    | 0x030 => c.nonce.extractLsb' 96 32
    | _ => tget 0 c.cnt o

/-- DMA (R411 to R413). -/
def dmaPeek (s : State) (o : Nat) : Word :=
  if 0x100 ≤ o ∧ o < 0x500 then
    (let k := chanOf s ((o - 0x100) / 0x20)
     match o % 0x20 with
     | 0x00 => k.list.extractLsb' 0 32
     | 0x04 => (k.list.extractLsb' 32 20).setWidth 32
     | 0x08 => regWord [(29, b2n k.intrEn), (27, k.listSpace.toNat), (24, k.retry.toNat), (0, k.count.toNat)]
     | 0x0C => k.ep.setWidth 32
     | 0x10 => regWord [(28, chanCode k), (24, k.cause.toNat), (0, k.elem.toNat)]
     | 0x14 => k.offset.setWidth 32
     | _ => 0)
  else match o with
    | 0x000 => maskOf 32 ((List.range 32).filter fun c => chanCode (chanOf s c) == 1)
    | 0x004 => maskOf 32 ((List.range 32).filter fun c => chanCode (chanOf s c) == 3)
    | 0x008 => s.dma.halted
    | _ => tget 0 s.dma.cnt o

/-- Is a requester of the pools there (R330)? -/
def poolUser (s : State) (q : Nat) : Bool := decide (q < 52) && (decide (16 ≤ q) || redEnabled s (q / 4))

/-- BPM (R328 to R331). -/
def bpmPeek (s : State) (o : Nat) : Word :=
  let b := s.bpm
  if 0x100 ≤ o ∧ o < 0x260 then
    (let r := poolRingOf s ((o - 0x100) / 0x20)
     match o % 0x20 with
     | 0x00 => regWord [(31, b2n r.valid), (30, b2n r.single), (26, r.copyA.toNat), (22, r.copyB.toNat), (0, r.total % 2 ^ 15)]
     | 0x04 => regWord [(16, r.snapRing % 2 ^ 15), (0, r.snapCache % 2 ^ 10)]
     | 0x08 => regWord [(24, r.snapWaiters % 2 ^ 6), (0, r.snapHeld % 2 ^ 15)]
     | 0x0C => regWord [(15, r.snapMoving % 2 ^ 8), (0, r.snapRetired % 2 ^ 15)]
     | _ => 0)
  else if 0x400 ≤ o ∧ o < 0x5A0 then
    (let q := (o - 0x400) / 8
     if !poolUser s q then 0
     else if o % 8 = 0 then BitVec.ofNat 32 (tget 0 b.quota q) else BitVec.ofNat 32 (tget 0 b.used q % 2 ^ 24))
  else match o with
    | 0x000 => regWord [(1, b2n b.err)]
    | 0x004 => BitVec.ofNat 32 (b.snapPending % 2 ^ 24)
    | _ => tget 0 b.cnt o

/-- Is trace buffer b on an enabled die (R468)? -/
def traceUser (s : State) (b : Nat) : Bool := decide (b < 10) && (!(decide (4 ≤ b) && decide (b < 8)) || redEnabled s (b - 4))

/-- A trace buffer's registers (R468). -/
def tracePeek (t : Trace) (r : Nat) : Word :=
  match r with
  | 0x00 => regWord [(31, b2n t.en), (30, b2n t.mode), (29, b2n t.stopOnUc), (28, b2n t.frozen), (27, b2n t.matchEn), (0, t.mtch.toNat)]
  | 0x04 => regWord [(24, t.point.toNat), (0, t.ents.length % 2 ^ 12)]
  | 0x08 => t.lost
  | 0x0C => regWord [(30, b2n t.busy), (29, b2n t.drainErr), (27, t.space.toNat), (23, t.stack.toNat), (0, t.chan.toNat)]
  | 0x10 => t.dest.extractLsb' 0 32
  | 0x14 => (t.dest.extractLsb' 32 20).setWidth 32
  | 0x18 => t.ep.setWidth 32
  | _ => 0

/-- DBG (R466 to R468), but for the byte counters, which a read of their lowest word latches. -/
def dbgPeek (path : Path) (s : State) (o : Nat) : Word :=
  let d := s.dbg
  if 0x800 ≤ o ∧ o < 0x940 then
    (let b := (o - 0x800) / 0x20
     if traceUser s b then tracePeek (traceOf s b) (o % 0x20) else 0)
  else match o with
    | 0x000 => regWord [(0, (d.errs.toNat / 2) * 2)]
    | 0x004 => d.shaSel
    | 0x008 => d.ctxSel
    | 0x100 => regWord [(1, b2n d.shown.isSome)]
    | 0x400 => d.psel.setWidth 32
    | _ => if o < 0x100 then tget 0 d.snap o else match ctrRead path o s with | some (v, _) => v | none => 0

def phaseCode (p : ClrPhase) : Nat := match p with | .idle => 0 | .stage => 1 | .hold => 2 | .drain => 3 | .commit => 4 | .release => 5

/-- ROUTE (R126 to R131). -/
def routePeek (s : State) (o : Nat) : Word :=
  let r := s.route
  if 0x010 ≤ o ∧ o < 0x040 then tget 0 r.winData ((o - 0x010) / 4)
  else if 0x100 ≤ o ∧ o < 0x200 then
    (let d := (o - 0x100) / 0x40
     match o % 0x40 with
     | 0x00 => tget 0 r.qt12 d
     | 0x04 => tget 0 r.qt3 d
     | 0x08 => tget 0 r.hashSeed d
     | 0x0C => tget 0 r.rejoinUs d
     | _ => 0)
  else match o with
    | 0x000 => r.winCtl
    | 0x200 => match r.clr with
      | some c => regWord [(29, phaseCode c.phase), (28, b2n (c.src == .manager)), (27, b2n r.reverted),
          (0, min 65535 (c.markers.filter fun m => !markerDone s m).length)]
      | none => regWord [(27, b2n r.reverted)]
    | 0x204 => regWord [(25, r.holdLimit.toNat), (24, b2n r.onTimeout), (0, r.drainLimit.toNat)]
    | _ => tget 0 r.cnt o

/-- A histogram engine's registers (R182). -/
def histPeek (h : Hist) (r : Nat) : Word :=
  if 0x40 ≤ r ∧ r < 0x80 then tget 0 h.depth ((r - 0x40) / 4)
  else if 0x80 ≤ r ∧ r < 0xC0 then tget 0 h.delay ((r - 0x80) / 4)
  else match r with
    | 0x00 => regWord [(31, b2n h.en), (30, b2n h.frozen), (16, h.delayShift.toNat), (12, h.depthShift.toNat), (0, h.queue.toNat)]
    | 0x04 => h.maxDepth
    | 0x08 => h.maxDelay
    | _ => 0

/-- A switch core (R158 to R164, R178 to R183, R212). -/
def swcPeek (s : State) (d o : Nat) : Word :=
  let w := swcOf s d
  if 0x040 ≤ o ∧ o < 0x060 then
    (let a := tget 0 w.age ((o - 0x040) / 4)
     if tcVc s ((o - 0x040) / 4) ≤ 2 && (classes s).isSome then setBit a 31 true else a)
  else if 0x600 ≤ o ∧ o < 0x700 then tget 0 w.redProf ((o - 0x600) / 4)
  else if 0x4000 ≤ o ∧ o < 0x6400 then (queueOf s (2304 * d + (o - 0x4000) / 4)).qsched
  else if 0x8000 ≤ o ∧ o < 0xC800 then
    (let q := queueOf s (2304 * d + (o - 0x8000) / 8)
     if o % 8 = 0 then q.shaper else shBytes (shCredit (shSync s.clock q)))
  else if 0x10000 ≤ o ∧ o < 0x12400 then
    (let q := queueOf s (2304 * d + (o - 0x10000) / 4)
     regWord [(16, q.alpha.toNat), (0, q.minCells % 65536)])
  else if 0x20000 ≤ o ∧ o < 0x22400 then BitVec.ofNat 32 (depthOf (queueOf s (2304 * d + (o - 0x20000) / 4)) % 2 ^ 20)
  else if 0x24000 ≤ o ∧ o < 0x2D000 then
    (let p := tget {} w.policers ((o - 0x24000) / 16)
     match o % 16 with | 0 => p.w0 | 4 => p.w1 | 8 => p.w2 | _ => 0)
  else if 0x30000 ≤ o ∧ o < 0x32000 then tget 0 w.sess ((o - 0x30000) / 4)
  else if 0x38000 ≤ o ∧ o < 0x3C000 then histPeek (tget {} w.hist ((o - 0x38000) / 0x100)) (o % 0x100)
  else match o with
    | 0x000 => w.sharedCells.setWidth 32
    | 0x004 => regWord [(16, w.voqCap.toNat), (0, w.voqReserve.toNat)]
    | 0x008 => w.mirrorFloor.setWidth 32
    | 0x010 => regWord [(1, b2n w.auditErr)]
    | 0x014 => w.snapFree.setWidth 32
    | 0x018 => w.snapQueued.setWidth 32
    | 0x01C => w.snapVoq.setWidth 32
    | 0x020 => w.snapLanding.setWidth 32
    | 0x024 => w.snapOpen.setWidth 32
    | _ => tget 0 w.cnt o

/-- STRAND_STATE[s] (R68, R69): a port not in use, or whose engine is off, shows DOWN for DISABLED. -/
def strandPeek (st : State) (p s : Nat) : Word :=
  let x := strandOf st (4 * p + s)
  let dead := !(portOf st p).enabled || !domOn st (p / 12)
  regWord [(28, if dead then 9 else reasonCode x.reason), (24, if dead then 0 else linkCode x.st), (22, x.wl1.toNat), (20, x.wl0.toNat), (19, b2n x.retired),
    (18, b2n x.cLost), (0, x.restarts.toNat)]

/-- A port (R68 to R73, R104, R177, R350). -/
def portPeek (st : State) (p o : Nat) : Word :=
  let x := portOf st p
  if 0x010 ≤ o ∧ o < 0x020 then strandPeek st p ((o - 0x010) / 4)
  else if 0x020 ≤ o ∧ o < 0x030 then
    (let l := linkOf st (4 * p + (o - 0x020) / 4)
     regWord [(31, b2n l.valid), (30, b2n l.peerSwitch), (0, l.ident.toNat)])
  else if 0x030 ≤ o ∧ o < 0x040 then (linkOf st (4 * p + (o - 0x030) / 4)).peer.setWidth 32
  else if 0x070 ≤ o ∧ o < 0x080 then tget 0 x.asym ((o - 0x070) / 4)
  else if 0x200 ≤ o ∧ o < 0x280 then
    (let l := linkOf st (4 * p + (o - 0x200) / 0x20)
     let v := (o - 0x200) % 0x20 / 4
     regWord [(16, min 65535 (tget 0 l.credHeld v)), (0, min 65535 (tget 0 l.occ v))])
  else match o with
    | 0x000 => regWord [(5, x.breakout.toNat), (1, x.d0Only.toNat), (0, b2n x.enabled)]
    | 0x040 => regWord [(18, x.lpReq.toNat), (17, b2n x.darkEn), (16, b2n x.idleEn), (0, x.idleNs.toNat)]
    | 0x060 => x.vcW0
    | 0x064 => x.vcW1
    | _ => tget 0 x.cnt o

/-- A laser module's registers (R484). -/
def laserPeek (l : Laser) (r : Nat) : Word :=
  match r with
  | 0x0 => regWord [(31, b2n l.present), (30, b2n l.en), (29, b2n l.ageing), (28, b2n l.baseSet)]
  | 0x4 => regWord [(16, l.biasRef.toNat), (0, l.bias.toNat)]
  | 0x8 => regWord [(16, l.power.toNat), (0, l.temp.toNat)]
  | 0xC => l.nacks
  | _ => 0

/-- An optical engine (R74, R75, R484). -/
def optPeek (s : State) (e o : Nat) : Word :=
  let x := optOf s e
  if 0x100 ≤ o ∧ o < 0x120 then laserPeek (laserOf x ((o - 0x100) / 0x10)) (o % 0x10)
  else if 0x400 ≤ o ∧ o < 0x700 then tget 0 x.eq ((o - 0x400) / 4)
  else if o = 0 then regWord [(16, x.rotThr.toNat), (8, x.recalMin.toNat), (1, b2n (laserOk s e 1)), (0, b2n (laserOk s e 0))]
  else 0

/-- The context that SLOT shows, if it is homed on die x. -/
def viewCtx (s : State) (x : Nat) : Option Ctx := (ctxOf s (redOf s x).slot.toNat).filter fun c => c.die == x

def twinCode (t : TwinSt) : Nat := match t with | .none => 0 | .active => 1 | .stale => 2 | .promoted => 3

/-- The step that the view shows: the oldest open step, or the last closed one. -/
def viewStep (c : Ctx) : StepNo :=
  match (openSteps c).head? with
  | some t => t.num
  | none => match c.lastClosed with | some (n, _) => n | none => 0

/-- The view of a context by offset (R213, R242, R262, R288, R304). -/
def ctxPeek (c : Ctx) (o : Nat) : Word :=
  let t := (openSteps c).head?
  let k := c.capture
  match o with
  | 0x010 => regWord [(31, 1), (28, ctxCode c), (27, b2n c.spec.isRoot), (24, min 7 c.spec.height), (0, c.spec.group.toNat)]
  | 0x014 => (viewStep c).extractLsb' 0 32
  | 0x018 => regWord [(16, min 3 (openSteps c).length), (0, fld (viewStep c) 32 16)]
  | 0x01C => match t with | some t => BitVec.ofNat 32 t.done.length | none => 0
  | 0x020 => match t with | some t => BitVec.ofNat 32 t.limSent | none => 0
  | 0x024 => regWord [(8, firstMissing c), (0, c.lastStatus.toNat)]
  | 0x060 => regWord [(31, b2n k.nan), (30, b2n k.inf), (29, b2n c.ovf), (28, b2n c.flushed), (24, k.fmt.toNat), (16, k.opcode.toNat), (0, k.chunk.toNat)]
  | 0x064 => k.contrib.setWidth 32
  | 0x068 => regWord [(16, k.childPos.toNat), (0, k.elemOfs.toNat)]
  | 0x06C => k.raw
  | 0x070 => k.step.extractLsb' 0 32
  | 0x074 => (k.step.extractLsb' 32 16).setWidth 32
  | 0x0D0 => c.sq
  | 0x0E4 => regWord [(31, b2n (c.spec.op == 6)), (30, b2n c.isTwin), (28, twinCode c.twin), (0, cpBase c.spec.coppice)]
  | 0x100 => regWord [(31, b2n (isPaced c)), (30, b2n c.lapsed), (26, c.lapseReason.toNat)]
  | 0x104 => BitVec.ofNat 32 c.spec.paceNs
  | 0x108 => c.digest.extractLsb' 0 32
  | 0x10C => c.digest.extractLsb' 32 32
  | 0x110 => c.digest.extractLsb' 64 32
  | 0x114 => c.digest.extractLsb' 96 32
  | _ => 0

/-- The offsets of the context view. -/
def ctxOfs (o : Nat) : Bool :=
  (0x010 ≤ o && o ≤ 0x024) || (0x060 ≤ o && o ≤ 0x074) || o == 0x0D0 || o == 0x0E4 || (0x100 ≤ o && o ≤ 0x114)

/-- The program address at which a run stands. -/
def haltedAt (s : State) (x : Nat) : Option (Nat × InstId) :=
  (redOf s x).halted.bind fun i => (hereOf s i).map fun h => (h.addr, i)

/-- A reduction die (R213, R214, R242 to R244, R261 to R263, R288, R289, R304, R305, R327). -/
def redPeek (s : State) (x o : Nat) : Word :=
  let r := redOf s x
  if ctxOfs o then (match viewCtx s x with | some c => ctxPeek c o | none => 0)
  else if 0x080 ≤ o ∧ o < 0x090 then r.retired.extractLsb' (8 * (o - 0x080)) 32
  else if 0x090 ≤ o ∧ o < 0x0A0 then r.strikes.extractLsb' (8 * (o - 0x090)) 32
  else match o with
    | 0x000 => if (List.range 4).all fun q => domOn s (domQuad x q) then BitVec.ofNat 32 r.freePages else 0
    | 0x004 => BitVec.ofNat 32 (s.ctxs.filter fun e => match e.2 with | some c => c.die == x | none => false).length
    | 0x008 => r.slot.setWidth 32
    | 0x0C0 => regWord [(31, b2n r.psLocked), (27, r.valReason.toNat), (0, r.valAddr.toNat)]
    | 0x0C4 => regWord [(31, b2n r.pstepEn), (0, r.pstepSlot.toNat)]
    | 0x0C8 => match haltedAt s x with | some (a, i) => regWord [(31, 1), (16, a % 2 ^ 14), (0, i.chunk.toNat % 65536)] | none => 0
    | 0x0CC => match haltedAt s x with | some (a, _) => tget 0 r.prog a | none => 0
    | 0x0E0 => regWord [(31, b2n ([2 * x, 2 * x + 1].all fun m => (stackOf s m).live && !bitOf s.units.stackLost m)), (0, r.shardBlocks % 2 ^ 28)]
    | 0x0E8 => regWord [(31, b2n !r.locks.isEmpty)]
    | _ => tget 0 r.cnt o

/-- A DRAM stack (R325, R326). -/
def memPeek (s : State) (m o : Nat) : Word :=
  let k := stackOf s m
  match o with
  | 0x000 => regWord [(31, b2n (k.live && !bitOf s.units.stackLost m)), (29, k.pstate.toNat), (24, k.marked.toNat)]
  | 0x004 => k.poolUnits.setWidth 32
  | 0x008 => k.shardBase.setWidth 32
  | 0x00C => regWord [(16, k.sparesLeft.toNat), (0, k.rowsSpared.toNat)]
  | 0x010 => regWord [(31, b2n k.scrubEn), (30, b2n k.boost), (29, b2n k.late), (28, b2n k.paused), (0, k.pos * 10000 / scrubWords)]
  | 0x014 => if k.live then BitVec.ofNat 32 ((s.clock - k.passAt) / 1000000000) else 0
  | 0x018 => k.passes
  | _ => tget 0 k.cnt o

/-- What an offset shows to a path; the value that a read returns where nothing is off (R375). -/
def peek (path : Path) (s : State) (off : Nat) : Word :=
  let o := off % 0x10000
  if off < 0x10000 then gctlPeek s o
  else if off < 0x20000 then rstPeek s o
  else if off < 0x30000 then pwrPeek s o
  else if off < 0x40000 then fltPeek s o
  else if off < 0x50000 then evrPeek path s o
  else if off < 0x60000 then timPeek s o
  else if off < 0x70000 then cmdPeek s o
  else if off < 0x80000 then dmaPeek s o
  else if off < 0x90000 then bpmPeek s o
  else if off < 0xA0000 then dbgPeek path s o
  else if off < 0x110000 then routePeek s o
  else if off < 0x300000 then swcPeek s ((off - 0x200000) / 0x40000) (off % 0x40000)
  else if off < 0x520000 then portPeek s ((off - 0x400000) / 0x1000) (off % 0x1000)
  else if off < 0x618000 then optPeek s ((off - 0x600000) / 0x1000) (off % 0x1000)
  else if off < 0x900000 then redPeek s ((off - 0x800000) / 0x40000) (off % 0x40000)
  else if off < 0x908000 then memPeek s ((off - 0x900000) / 0x1000) (off % 0x1000)
  else if off < 0x1F00000 then
    (if winByte s off < sramBytes then BitVec.ofNat 32 (natLE (rdBytes s.mem.sram (s.cmd.sramDie.toNat * 2 ^ 29 + winByte s off) 4)) else 0)
  else tget 0 (storeOf s) ((off - 0x1F00000) / 4)

/-! ## What a read does besides (R7, R348, R456, R457) -/

/-- A counter of a block's table, cleared by a read: n is the amount of an update that coincides (R7). -/
def rcTable (t : Tbl Word) (o : Nat) (upd : Word) : Tbl Word := tset 0 t o upd

/-- The effect of a read: RC fields are cleared, and then take the update that coincides; NOW_LO, RES_LO and the byte counters latch. -/
def readEffect (path : Path) (off : Nat) (upd : Word) (s : State) : State :=
  let o := off % 0x10000
  if off < 0x20000 then s
  else if off < 0x30000 then
    (if 0x400 ≤ o ∧ o < 0x420 ∧ o % 8 = 0 then (resLo ((o - 0x400) / 8) s).2
     else if 0x440 ≤ o ∧ o < 0x460 then (draw s).2
     else match o with
       | 0x010 => modPwr (fun p => { p with wakeCause := upd.setWidth 3 }) s
       | 0x480 => modPwr (fun p => { p with offAcc := upd }) s
       | _ => s)
  else if off < 0x40000 then
    (if 0x100 ≤ o ∧ o < 0x160 ∧ o % 0x20 = 0x18 then modCap ((o - 0x100) / 0x20) (fun c => { c with more := upd.setWidth 16 }) s
     else match o with
       | 0x010 => modFlt (fun f => { f with ceCount := upd }) s
       | 0x014 => modFlt (fun f => { f with ucCount := upd }) s
       | _ => s)
  else if off < 0x50000 then iff (0x100 ≤ o && o ≤ 0x118) (modEvr fun e => { e with cnt := rcTable e.cnt o upd }) s
  else if off < 0x60000 then
    (if o = 4 then (nowLoRead s).2 else iff (0x100 ≤ o && o ≤ 0x10C) (modTim fun e => { e with cnt := rcTable e.cnt o upd }) s)
  else if off < 0x70000 then iff (0x400 ≤ o && o ≤ 0x414) (modCmd fun e => { e with cnt := rcTable e.cnt o upd }) s
  else if off < 0x80000 then iff (0x800 ≤ o && o ≤ 0x80C) (modDma fun e => { e with cnt := rcTable e.cnt o upd }) s
  else if off < 0x90000 then iff (0x700 ≤ o && o ≤ 0x710) (modBpm fun e => { e with cnt := rcTable e.cnt o upd }) s
  else if off < 0xA0000 then
    (if 0x800 ≤ o ∧ o < 0x940 then
       iff (o % 0x20 == 8 && traceUser s ((o - 0x800) / 0x20)) (modTrace ((o - 0x800) / 0x20) fun t => { t with lost := upd }) s
     else if 0x200 ≤ o then (match ctrRead path o s with | some (_, s') => s' | none => s)
     else s)
  else if off < 0x110000 then
    iff (0x300 ≤ o && o < 0x380 && o % 0x20 ≤ 0x10) (modRoute fun e => { e with cnt := rcTable e.cnt o upd }) s
  else if off < 0x300000 then
    (let d := (off - 0x200000) / 0x40000
     let o := off % 0x40000
     if 0x38000 ≤ o ∧ o < 0x3C000 then
       (let h := (o - 0x38000) / 0x100
        match o % 0x100 with
        | 0x04 => modHist d h (fun e => { e with maxDepth := upd }) s
        | 0x08 => modHist d h (fun e => { e with maxDelay := upd }) s
        | _ => s)
     else iff (0x400 ≤ o && o ≤ 0x434) (modSwc d fun e => { e with cnt := rcTable e.cnt o upd }) s)
  else if off < 0x520000 then
    (let p := (off - 0x400000) / 0x1000
     let o := off % 0x1000
     if 0x010 ≤ o ∧ o < 0x020 then modStrand (4 * p + (o - 0x010) / 4) (fun x => { x with restarts := upd.setWidth 16 }) s
     else iff (0x100 ≤ o && o ≤ 0x14C) (modPort p fun e => { e with cnt := rcTable e.cnt o upd }) s)
  else if off < 0x618000 then
    (let e := (off - 0x600000) / 0x1000
     let o := off % 0x1000
     iff (o == 0x10C || o == 0x11C) (modLaser e ((o - 0x100) / 0x10) fun l => { l with nacks := upd }) s)
  else if off < 0x900000 then
    (let x := (off - 0x800000) / 0x40000
     let o := off % 0x40000
     iff ((0x040 ≤ o && o ≤ 0x05C) || (0x0A0 ≤ o && o ≤ 0x0B4) || o == 0x0D4 || o == 0x0D8 || (0x0F0 ≤ o && o ≤ 0x0FC) || (0x120 ≤ o && o ≤ 0x128) ||
       o == 0x130 || o == 0x134) (modRed x fun e => { e with cnt := rcTable e.cnt o upd }) s)
  else if off < 0x908000 then
    (let m := (off - 0x900000) / 0x1000
     let o := off % 0x1000
     iff (0x100 ≤ o && o ≤ 0x10C) (modStack m fun e => { e with cnt := rcTable e.cnt o upd }) s)
  else s

/-- A read of VOQ_STALL first brings the count up to the clock (R164). -/
def beforeRead (off : Nat) (s : State) : State :=
  if 0x200000 ≤ off ∧ off < 0x300000 ∧ off % 0x40000 = 0x414 then voqStall ((off - 0x200000) / 0x40000) s else s

/-- A read of BAR0 at an aligned offset: the value, where it led, and the state after (R6, R7, R375, R452). upd is a hardware update
that coincides with it, 0 for none. -/
def regReadUpd (path : Path) (off : Nat) (upd : Word) (s : State) : Word × Reach × State :=
  match reachOf s off with
  | .none => (0, .none, cmdCnt 0x414 1 s)
  | .off k => (0xBAD00FF0, .off k, offAccess k 0 off s)
  | .ok =>
    let s := beforeRead off s
    (peek path s off, .ok, readEffect path off upd s)

/-- A read of BAR0. An offset that is no multiple of 4 is in no block (R486). -/
def regRead (path : Path) (off : Nat) (s : State) : Word × Reach × State :=
  if off % 4 = 0 then regReadUpd path off 0 s else (0, .none, cmdCnt 0x414 1 s)

/-! ## Writes -/

/-- PWR (R454, R455). -/
def pwrPut (o : Nat) (v : Word) (s : State) : State :=
  if 0x100 ≤ o ∧ o < 0x1F0 then wantOffPut ((o - 0x100) / 4) (bitOf v 28) s
  else match o with
    | 0x000 => devRequest (fld v 0 3) (modPwr (fun p => { p with discard := bitOf v 3 }) s)
    | 0x008 => pointPut (v.setWidth 2) s
    | 0x00C => modPwr (fun p => { p with wakeEn := v.setWidth 3 }) s
    | _ => s

/-- FLT (R437 to R439). -/
def fltPut (o : Nat) (v : Word) (s : State) : State :=
  if 0x100 ≤ o ∧ o < 0x160 ∧ o % 0x20 = 0 then iff (bitOf v 31) (modCap ((o - 0x100) / 0x20) fun c => { c with valid := false }) s
  else match o with
    | 0x004 => modFlt (fun f => { f with ucEn := bitOf v 1, ceEn := bitOf v 0 }) s
    | 0x008 => modFlt (fun f => { f with ucPend := f.ucPend && !bitOf v 1, cePend := f.cePend && !bitOf v 0 }) s
    | 0x200 => modFlt (fun f => { f with injBlock := v.extractLsb' 24 8, injInst := v.extractLsb' 8 16, injChecker := v.extractLsb' 0 8 }) s
    | 0x204 => injCtlPut v s
    | 0x208 => modFlt (fun f => { f with injMask := v }) s
    | 0x20C => injKeyPut (v.setWidth 8) s
    | _ => s

/-- EVR (R440, R441). -/
def evrPut (path : Path) (o : Nat) (v : Word) (s : State) : State :=
  match o with
  | 0x00C =>
    let s := modEvr (fun e => { e with intH := bitOf v 4, intF := bitOf v 3, persistF := bitOf v 2 }) s
    let key := fld v 24 8 == 0xC3
    let s := iff (key && bitOf v 0) (clearSram path) s
    iff (key && bitOf v 1) (clearFlashMark path) s
  | 0x040 => rdSeqPut path v s
  | 0x044 => modEvr (fun e => { e with wins := tmod {} e.wins (pathNo path) fun w => { w with flash := bitOf v 31 } }) s
  | _ => s

/-- TIM (R345, R347, R349). Writes of the UTC registers on a worker are ignored. -/
def timPut (o : Nat) (v : Word) (s : State) : State :=
  match o with
  | 0x020 => modTim (fun m => { m with setLo := v }) s
  | 0x024 => modTim (fun m => { m with setHi := v }) s
  | 0x028 => iff (bitOf v 0) timeSetApply (modTim (fun m => { m with armPps := bitOf v 1 }) s)
  | 0x02C => iff (isMgr s) (modTim fun m => { m with nextUtc := v.extractLsb' 16 16 }) s
  | 0x030 => iff (isMgr s) (modTim fun m => { m with leapAt := v }) s
  | 0x034 => modTim (fun m => { m with holdTraceS := v.extractLsb' 16 16, stepThr := v.extractLsb' 0 16 }) s
  | 0x038 => iff (bitOf v 4) rearm (modTim (fun m => { m with tenmEn := bitOf v 1, ppsEn := bitOf v 0 }) s)
  | _ => s

/-- EN of a ring (R397): coming into service, its indices start afresh (log entry 40). -/
def ringEn (r : Nat) (v : Bool) (s : State) : State :=
  modRing r (fun g =>
    if v && !g.en then { g with en := true, head := 0, tail := 0, cqHead := 0, cqTail := 0, phase := true } else { g with en := v }) s

/-- CMD (R396, R397), but for GO, which the processor takes (R389). SSTEP cleared ends the halt. -/
def cmdPut (o : Nat) (v : Word) (s : State) : State :=
  if 0x100 ≤ o ∧ o < 0x300 then
    (let r := (o - 0x100) / 0x40
     let free := !(ringOf s r).en
     match o % 0x40 with
     | 0x00 => iff free (modRing r fun g => { g with sqBase := setFld g.sqBase 6 26 (fld v 6 26) }) s
     | 0x04 => iff free (modRing r fun g => { g with sqBase := setFld g.sqBase 32 32 v.toNat }) s
     | 0x08 => iff free (modRing r fun g => { g with cqBase := setFld g.cqBase 4 28 (fld v 4 28) }) s
     | 0x0C => iff free (modRing r fun g => { g with cqBase := setFld g.cqBase 32 32 v.toNat }) s
     | 0x10 => ringEn r (bitOf v 31) s
     | _ => s)
  else match o with
    | 0x000 => modCmd (fun c => { c with sstep := bitOf v 31, halted := c.halted && bitOf v 31 }) s
    | 0x010 => modCmd (fun c => { c with sramDie := v.extractLsb' 30 2, sramBase := v.setWidth 9 }) s
    | _ => s

/-- DMA (R399, R408, R411, R412). -/
def dmaPut (o : Nat) (v : Word) (s : State) : State :=
  if 0x100 ≤ o ∧ o < 0x500 then
    (let c := (o - 0x100) / 0x20
     if 28 ≤ c then s
     else match o % 0x20 with
       | 0x00 => modChan c (fun k => { k with list := setFld k.list 4 28 (fld v 4 28) }) s
       | 0x04 => modChan c (fun k => { k with list := setFld k.list 32 20 (fld v 0 20) }) s
       | 0x08 =>
         let s := modChan c (fun k =>
           { k with intrEn := bitOf v 29, listSpace := v.extractLsb' 27 2, retry := v.extractLsb' 24 3, count := v.setWidth 16 }) s
         let s := iff (bitOf v 30) (chanStop c) s
         iff (bitOf v 31) (chanGo c) s
       | 0x0C => modChan c (fun k => { k with ep := v.setWidth 20 }) s
       | _ => s)
  else if o = 0x008 then modDma (fun d => { d with halted := d.halted &&& ~~~v }) s
  else s

/-- BPM (R328, R330). A quota that is raised may let a waiter be served (R322). -/
def bpmPut (o : Nat) (v : Word) (s : State) : State :=
  if 0x400 ≤ o ∧ o < 0x5A0 ∧ o % 8 = 0 then
    (let q := (o - 0x400) / 8
     iff (poolUser s q) (fun s => serveWaiters ((ringsOf q).headD 0) (modBpm (fun b => { b with quota := tset 0 b.quota q (fld v 0 24) }) s)) s)
  else if o = 0 then
    iff (bitOf v 0) bpmSnap (modBpm (fun b => { b with err := b.err && !bitOf v 1 }) s)
  else s

/-- A trace buffer (R459, R460, R468). -/
def tracePut (b r : Nat) (v : Word) (s : State) : State :=
  match r with
  | 0x00 =>
    modTrace b (fun t => { t with
      en := bitOf v 31, mode := bitOf v 30, stopOnUc := bitOf v 29, matchEn := bitOf v 27, mtch := v.setWidth 24 }) s
  | 0x04 => modTrace b (fun t => { t with point := v.extractLsb' 24 8 }) s
  | 0x0C =>
    let s := modTrace b (fun t =>
      { t with drainErr := t.drainErr && !bitOf v 29, space := v.extractLsb' 27 2, stack := v.extractLsb' 23 4, chan := v.extractLsb' 0 5 }) s
    iff (bitOf v 31) (drainGo b) s
  | 0x10 => modTrace b (fun t => { t with dest := setFld t.dest 0 32 v.toNat }) s
  | 0x14 => modTrace b (fun t => { t with dest := setFld t.dest 32 20 (fld v 0 20) }) s
  | 0x18 => modTrace b (fun t => { t with ep := v.setWidth 20 }) s
  | _ => s

/-- DBG (R458, R466 to R468): CLEAR before FREEZE. -/
def dbgPut (o : Nat) (v : Word) (s : State) : State :=
  if 0x800 ≤ o ∧ o < 0x940 then
    (let b := (o - 0x800) / 0x20
     iff (traceUser s b) (tracePut b (o % 0x20) v) s)
  else match o with
    | 0x000 => iff (bitOf v 0) auditAll (modDbg (fun d => { d with errs := d.errs &&& ~~~(v.setWidth 7 &&& 0x7E) }) s)
    | 0x004 => modDbg (fun d => { d with shaSel := v &&& 0xC0000FFF }) s
    | 0x008 => modDbg (fun d => { d with ctxSel := v &&& 0xC003FFFF }) s
    | 0x100 => ctrFreeze (bitOf v 1) (iff (bitOf v 0 && fld v 24 8 == 0xC3) ctrClear s)
    | 0x400 => modDbg (fun d => { d with psel := v.setWidth 9 }) s
    | _ => s

/-- ROUTE (R126 to R130). -/
def routePut (o : Nat) (v : Word) (s : State) : State :=
  if 0x010 ≤ o ∧ o < 0x040 then rtWinData ((o - 0x010) / 4) v s
  else if 0x100 ≤ o ∧ o < 0x200 then
    (let d := (o - 0x100) / 0x40
     match o % 0x40 with
     | 0x00 => modRoute (fun r => { r with qt12 := tset 0 r.qt12 d v }) s
     | 0x04 => modRoute (fun r => { r with qt3 := tset 0 r.qt3 d (qt3Word v) }) s
     | 0x08 => modRoute (fun r => { r with hashSeed := tset 0 r.hashSeed d v }) s
     | 0x0C => modRoute (fun r => { r with rejoinUs := tset 0 r.rejoinUs d (v &&& 0xFFFFFF) }) s
     | _ => s)
  else match o with
    | 0x000 => rtWinCtl v s
    | 0x200 => modRoute (fun r => { r with reverted := r.reverted && !bitOf v 27 }) s
    | 0x204 => clearCtlPut v s
    | _ => s

/-- HIST_CTL (R176, R182). -/
def histPut (d h : Nat) (v : Word) : State → State := modHist d h fun e =>
  let e := { histQueue (v.setWidth 12) e with en := bitOf v 31, frozen := bitOf v 30, delayShift := v.extractLsb' 16 5, depthShift := v.extractLsb' 12 4 }
  if bitOf v 29 then histClear e else e

/-- The writable bits of the words of a session (R163). -/
def sessMask (k : Nat) : Word := match k with | 0 => 0xFFFFFFFF | 1 => 0xFFFFFF | 7 => 0xFFFFFFFF | _ => 0xFFFFF

/-- A switch core (R158 to R163, R178 to R182). -/
def swcPut (d o : Nat) (v : Word) (s : State) : State :=
  if 0x040 ≤ o ∧ o < 0x060 then
    modSwc d (fun w => { w with age := tset 0 w.age ((o - 0x040) / 4) (ageWord v) }) s
  else if 0x600 ≤ o ∧ o < 0x700 then
    modSwc d (fun w => { w with redProf := tset 0 w.redProf ((o - 0x600) / 4) (redWord ((o - 0x600) / 4) v) }) s
  else if 0x4000 ≤ o ∧ o < 0x6400 then modQueue (2304 * d + (o - 0x4000) / 4) (fun q => { q with qsched := qschedWord v }) s
  else if 0x8000 ≤ o ∧ o < 0xC800 then iff (o % 8 == 0) (shaperPut (2304 * d + (o - 0x8000) / 8) v) s
  else if 0x10000 ≤ o ∧ o < 0x12400 then modQueue (2304 * d + (o - 0x10000) / 4) (fun q => { q with alpha := v.extractLsb' 16 4 }) s
  else if 0x24000 ≤ o ∧ o < 0x2D000 then policerPut d ((o - 0x24000) / 16) (o % 16 / 4) v s
  else if 0x30000 ≤ o ∧ o < 0x32000 then
    modSwc d (fun w => { w with sess := tset 0 w.sess ((o - 0x30000) / 4) (v &&& sessMask ((o - 0x30000) / 4 % 8)) }) s
  else if 0x38000 ≤ o ∧ o < 0x3C000 then iff (o % 0x100 == 0) (histPut d ((o - 0x38000) / 0x100) v) s
  else match o with
    | 0x004 => modSwc d (fun w => { w with voqCap := v.extractLsb' 16 16 }) s
    | 0x008 => modSwc d (fun w => { w with mirrorFloor := v.setWidth 16 }) s
    | 0x010 => iff (bitOf v 0) (auditSnap d) (modSwc d (fun w => { w with auditErr := w.auditErr && !bitOf v 1 }) s)
    | _ => s

/-- Does a context use port p (R302)? -/
def usesPort (p : Nat) (c : Ctx) : Bool := (c.up.toList ++ childPoss c).any fun k => k / 4 == p

/-- A port (R69, R71, R177, R350). A write to a VC weight makes the paced groups of the port lapse (R302). -/
def portPut (p o : Nat) (v : Word) (s : State) : State :=
  if 0x010 ≤ o ∧ o < 0x020 then
    iff (bitOf v 19) (modStrand (4 * p + (o - 0x010) / 4) fun x => if x.restored then { x with retired := false, restored := false } else x) s
  else if 0x070 ≤ o ∧ o < 0x080 then modPort p (fun x => { x with asym := tset 0 x.asym ((o - 0x070) / 4) v }) s
  else match o with
    | 0x040 => lpRequest p (fld v 18 2) (modPort p (fun x => { x with darkEn := bitOf v 17, idleEn := bitOf v 16, idleNs := v.setWidth 16 }) s)
    | 0x060 => lapseAll (usesPort p) 3 (modPort p (fun x => { x with vcW0 := v }) s)
    | 0x064 => lapseAll (usesPort p) 3 (modPort p (fun x => { x with vcW1 := vcW1Word v }) s)
    | _ => s

/-- EQ[k] (R75): a CODE of 25 to 31 is ignored, and c has no equaliser. R75 says that the fields of w = 0 are ignored: a write to them is
dropped here and they read 0, where they might also be held without an effect (log entry 112). -/
def eqPut (e k : Nat) (v : Word) : State → State := modOpt e fun x =>
  if k % 4 = 0 then x
  else
    let w := setBit (tget 0 x.eq k) 5 (bitOf v 5)
    { x with eq := tset 0 x.eq k (if fld v 0 5 < 25 then setFld w 0 5 (fld v 0 5) else w) }

/-- An optical engine (R74, R75, R484). -/
def optPut (e o : Nat) (v : Word) (s : State) : State :=
  if 0x400 ≤ o ∧ o < 0x700 then eqPut e ((o - 0x400) / 4) v s
  else if o = 0x100 ∨ o = 0x110 then
    modLaser e ((o - 0x100) / 0x10) (fun l => { l with en := bitOf v 30, ageing := l.ageing && !bitOf v 29 }) s
  else if o = 0 then modOpt e (fun x => { x with rotThr := v.extractLsb' 16 8, recalMin := v.extractLsb' 8 8 }) s
  else s

/-- A die is hotter than the envelope of paced groups allows (R302). -/
def tooHot (s : State) : Bool := s.pwr.tj.any fun e => decide (e.2.toNat > 95) && (decide (e.1 < 4) || redEnabled s (e.1 - 4))

/-- LAPSED is cleared, and set again at once while the temperature still stands above the envelope (R302, R304). -/
def lapsedClear (slot : Nat) (s : State) : State :=
  let s := modCtx slot (fun c => { c with lapsed := false, lapseReason := 0 }) s
  iff (tooHot s) (setLapsed slot 2) s

/-- A reduction die (R213, R242, R261, R262, R304). -/
def redPut (x o : Nat) (v : Word) (s : State) : State :=
  let view := viewCtx s x
  let slot := (redOf s x).slot.toNat
  match o with
  | 0x008 => modRed x (fun r => { r with slot := v.setWidth 18 }) s
  | 0x060 => iff view.isSome (modCtx slot fun c => { c with ovf := c.ovf && !bitOf v 29, flushed := c.flushed && !bitOf v 28 }) s
  | 0x0C0 => modRed x (fun r => { r with psLocked := r.psLocked && !bitOf v 31 }) s
  | 0x0C4 => iff (bitOf v 30) (pstepGo x) (pstepPut x v s)
  | 0x100 => iff (bitOf v 30 && view.any (·.lapsed)) (lapsedClear slot) s
  | _ => s

/-- A DRAM stack (R325). -/
def memPut (m o : Nat) (v : Word) (s : State) : State :=
  if o = 0x010 then modStack m (fun k => { k with scrubEn := bitOf v 31, late := k.late && !bitOf v 29 }) s else s

/-- The effect of a write where nothing is off. GO of CMD_CTL is not taken here. -/
def poke (path : Path) (off : Nat) (v : Word) (s : State) : State :=
  let o := off % 0x10000
  if off < 0x10000 then (if o = 0x014 then coordOvrPut v s else s)
  else if off < 0x20000 then
    (match o with
     | 0x018 => startHoldPut (bitOf v 0) s
     | 0x01C => iff (fld v 24 8 == 0xA5 && bitOf v 0) (resetTo 2 true) s
     | _ => s)
  else if off < 0x30000 then pwrPut o v s
  else if off < 0x40000 then fltPut o v s
  else if off < 0x50000 then evrPut path o v s
  else if off < 0x60000 then timPut o v s
  else if off < 0x70000 then cmdPut o v s
  else if off < 0x80000 then dmaPut o v s
  else if off < 0x90000 then bpmPut o v s
  else if off < 0xA0000 then dbgPut o v s
  else if off < 0x110000 then routePut o v s
  else if off < 0x300000 then swcPut ((off - 0x200000) / 0x40000) (off % 0x40000) v s
  else if off < 0x520000 then portPut ((off - 0x400000) / 0x1000) (off % 0x1000) v s
  else if off < 0x618000 then optPut ((off - 0x600000) / 0x1000) (off % 0x1000) v s
  else if off < 0x900000 then redPut ((off - 0x800000) / 0x40000) (off % 0x40000) v s
  else if off < 0x908000 then memPut ((off - 0x900000) / 0x1000) (off % 0x1000) v s
  else if off < 0x1F00000 then
    (if winByte s off < sramBytes then
       { s with mem := { s.mem with sram := wrBytes s.mem.sram (s.cmd.sramDie.toNat * 2 ^ 29 + winByte s off) (bytesLE 4 v.toNat) } }
     else s)
  else progWrite ((off - 0x1F00000) / 4) v s

/-- A write of BAR0: where it led, and the state after. An offset that is no multiple of 4 is in no block: R486 says so of PCIe,
SMBus and the commands, and of JTAG, where the spec leaves it open, the model takes the same (log entry 114). -/
def regWrite (path : Path) (off : Nat) (v : Word) (s : State) : Reach × State :=
  if off % 4 ≠ 0 then (.none, cmdCnt 0x414 1 s)
  else match reachOf s off with
    | .none => (.none, cmdCnt 0x414 1 s)
    | .off k => (.off k, offAccess k 1 off s)
    | .ok => (.ok, poke path off v s)

/-- Offsets that the surviving island of fault cause 4 still serves (R416). -/
def faultServes (write : Bool) (off : Nat) : Bool :=
  if write then off == 0x1001C else off < 0x20000 || (0x30000 ≤ off && off < 0x50000)

end Sys2Proof.Machine
end

