-- ==== Sys2Proof/Machine/Cmd.lean ====
section
/-! DEFINITION. The command processor (R381 to R389, R393): entries, the commands and their steps, and the rotation of the rings. A command
that moves data starts a transfer on a DMA channel and goes on when it has ended. -/

namespace Sys2Proof.Machine

/-! ## Entries (R382, R385, R393) -/

/-- What an entry holds: its common part, and a command or the status that refuses it. -/
structure Entry where
  hdr : CmdHdr
  body : Option CmdBody
deriving DecidableEq, Repr

def hdrOfEntry (e : List Byte) : CmdHdr :=
  { tag := BitVec.ofNat 32 (le e 4 4), intr := bitOf (byteAt e 2) 0, space := byteAt e 8, stack := byteAt e 9, ep := BitVec.ofNat 20 (le e 12 4),
    addr := BitVec.ofNat 64 (le e 16 8) }

/-- The command of an opcode with its operands (R385). -/
def bodyOf (op : Nat) (e : List Byte) : Option CmdBody :=
  let grp : GroupId := BitVec.ofNat 24 (le e 24 3)
  match op with
  | 0 => some .nop
  | 1 => some (.clear (le e 24 4) (BitVec.ofNat 4 (le e 28 1)) (byteAt e 29) (bitOf (byteAt e 30) 0))
  | 2 => some (.groupCreate (le e 24 2) (bitOf (byteAt e 26) 0) (le e 28 4))
  | 3 => some (.groupDelete grp)
  | 4 => some (.groupStop grp (BitVec.ofNat 48 (le e 28 6)))
  | 5 => some (.groupResume grp)
  | 6 => some (.shardLoad (le e 24 1) (le e 28 4) (le e 32 4))
  | 7 => some (.shardSave (le e 24 1) (le e 28 4) (le e 32 4))
  | 8 => some (.scrubPass (le e 24 1))
  | 9 => some (.selfTest (le e 24 1) (le e 25 1))
  | 10 => some .windthrow
  | 11 => some (.portRetrain (le e 24 2) (BitVec.ofNat 4 (le e 26 1)))
  | 12 => some (.imageUpdate (le e 24 1) (le e 28 4))
  | 13 => some (.regRead (le e 24 4))
  | 14 => some (.regWrite (le e 24 4) (BitVec.ofNat 32 (le e 28 4)))
  | _ => none

/-- The bits of operand byte b that an opcode uses (R385). -/
def usedBits (op b : Nat) : Nat :=
  let all (p : Bool) : Nat := if p then 0xFF else 0
  match op with
  | 1 => if b = 28 then 0x0F else if b = 30 then 1 else all (24 ≤ b && b ≤ 29)
  | 2 => if b = 26 then 1 else all ((24 ≤ b && b ≤ 25) || (28 ≤ b && b ≤ 31))
  | 3 => all (24 ≤ b && b ≤ 26)
  | 4 => all ((24 ≤ b && b ≤ 26) || (28 ≤ b && b ≤ 33))
  | 5 => all (24 ≤ b && b ≤ 26)
  | 6 => all (b == 24 || (28 ≤ b && b ≤ 35))
  | 7 => all (b == 24 || (28 ≤ b && b ≤ 35))
  | 8 => all (b == 24)
  | 9 => all (24 ≤ b && b ≤ 25)
  | 11 => if b = 26 then 0x0F else all (24 ≤ b && b ≤ 25)
  | 12 => all (b == 24 || (28 ≤ b && b ≤ 31))
  | 13 => all (24 ≤ b && b ≤ 27)
  | 14 => all (24 ≤ b && b ≤ 31)
  | _ => 0

/-- Are the reserved bytes of an entry zero, its unused operand bytes among them (R382; log entry 41)? -/
def entryClean (e : List Byte) : Bool :=
  decide ((byteAt e 2).toNat < 2) && byteAt e 3 == 0 && byteAt e 10 == 0 && byteAt e 11 == 0 && decide (le e 12 4 < 2 ^ 20) &&
    (List.range 40).all fun i => (byteAt e (24 + i)).toNat &&& (255 - usedBits (le e 0 2) (24 + i)) == 0

/-- An entry as the processor reads it. -/
def ringEntryOf (e : List Byte) : Entry :=
  { hdr := hdrOfEntry e, body := if entryClean e then bodyOf (le e 0 2) e else none }

/-- The operand bytes of a command, from byte 24 of its entry on (R385). -/
def operandBytes (b : CmdBody) : List Byte :=
  match b with
  | .nop | .windthrow => []
  | .clear n dies tcs fabric => bytesLE 4 n ++ [dies.setWidth 8, tcs, BitVec.ofNat 8 (b2n fabric)]
  | .groupCreate len last ofs => bytesLE 2 len ++ [BitVec.ofNat 8 (b2n last), 0] ++ bytesLE 4 ofs
  | .groupDelete g | .groupResume g => bytesLE 3 g.toNat
  | .groupStop g num => bytesLE 3 g.toNat ++ [0] ++ bytesLE 6 num.toNat
  | .shardLoad d a n | .shardSave d a n => bytesLE 1 d ++ [0, 0, 0] ++ bytesLE 4 a ++ bytesLE 4 n
  | .scrubPass m => bytesLE 1 m
  | .selfTest cls u => bytesLE 1 cls ++ bytesLE 1 u
  | .portRetrain p mask => bytesLE 2 p ++ [mask.setWidth 8]
  | .imageUpdate copy len => bytesLE 1 copy ++ [0, 0, 0] ++ bytesLE 4 len
  | .regRead o => bytesLE 4 o
  | .regWrite o v => bytesLE 4 o ++ bytesLE 4 v.toNat

/-- The 64 bytes of an entry (R382). -/
def entryBytes (h : CmdHdr) (b : CmdBody) : List Byte :=
  let l := bytesLE 2 (opcodeOf b) ++ [BitVec.ofNat 8 (b2n h.intr), 0] ++ bytesLE 4 h.tag.toNat ++ [h.space, h.stack, 0, 0] ++ bytesLE 4 h.ep.toNat ++
    bytesLE 8 h.addr.toNat ++ operandBytes b
  l ++ List.replicate (64 - l.length) 0

/-- Do a command's operands fit the widths that an entry gives them? -/
def bodyFits (b : CmdBody) : Bool :=
  match b with
  | .clear n _ _ _ => decide (n < 2 ^ 32)
  | .groupCreate len _ ofs => decide (len < 2 ^ 16 ∧ ofs < 2 ^ 32)
  | .shardLoad d a n | .shardSave d a n => decide (d < 2 ^ 8 ∧ a < 2 ^ 32 ∧ n < 2 ^ 32)
  | .scrubPass m => decide (m < 2 ^ 8)
  | .selfTest cls u => decide (cls < 2 ^ 8 ∧ u < 2 ^ 8)
  | .portRetrain p _ => decide (p < 2 ^ 16)
  | .imageUpdate copy len => decide (copy < 2 ^ 8 ∧ len < 2 ^ 32)
  | .regRead o | .regWrite o _ => decide (o < 2 ^ 32)
  | .nop | .groupDelete _ | .groupStop _ _ | .groupResume _ | .windthrow => true

/-- Does a command take an address (R385)? -/
def takesAddr (b : CmdBody) : Bool :=
  match b with
  | .clear _ _ _ _ | .groupCreate _ _ _ | .shardLoad _ _ _ | .shardSave _ _ _ | .selfTest _ _ | .windthrow | .imageUpdate _ _ => true
  | _ => false

/-- Is the address of a command out of range (R384, R393)? -/
def addrRefused (r : Nat) (h : CmdHdr) (b : CmdBody) : Bool :=
  takesAddr b && (decide (h.space.toNat > 2) || (h.space == 0 && r == 8) || (h.space == 1 && decide (h.stack.toNat > 7)) ||
    decide (h.addr.toNat ≥ 2 ^ 52))

/-- Are operands of a command out of range (R384)? -/
def bodyRefused (s : State) (b : CmdBody) : Bool :=
  match b with
  | .clear _ _ tcs _ => coversVc0 s tcs
  | .groupCreate len _ ofs => len == 0 || decide (len > 4000) || decide (ofs + len > 64 + 4 * 524288 + 8 * 65535)
  | .shardLoad d a n => !redEnabled s d || n == 0 || decide (a + n > (redOf s d).shardBlocks)
  | .shardSave d a n => !redEnabled s d || n == 0 || decide (a + n > (redOf s d).shardBlocks)
  | .scrubPass m => decide (m > 7) || bitOf s.units.stackLost m || !(stackOf s m).live
  | .selfTest cls u => match cls with
    | 0 => !redEnabled s (u / 4) || bitOf s.units.redLost (u / 4)
    | 1 => decide (u > 7) || bitOf s.units.stackLost u
    | 2 => decide (u > 23) || bitOf s.units.engineLost u
    | _ => true
  | .portRetrain p mask => decide (p > 287) || mask == 0
  | .imageUpdate c len => decide (c > 1) || decide (len < 128) || decide (len > 33554432)
  | .regRead o => o % 4 != 0
  | .regWrite o _ => o % 4 != 0
  | _ => false

/-- Steps of a command as counted at its start (R385). -/
def stepsOf (b : CmdBody) : Nat :=
  match b with
  | .shardLoad _ _ n => cdiv n 1024
  | .shardSave _ _ n => cdiv n 1024
  | .scrubPass _ => 32768
  | .portRetrain _ _ => 40
  | _ => 1

/-! ## The command at work on a ring -/

def modCur (r : Nat) (f : RunCmd → RunCmd) : State → State := modRing r fun g => { g with cur := g.cur.map f }

/-- A command is refused: no step of it is counted. -/
def refuse (r status : Nat) (s : State) : State := endCmd r status 0 (modCur r (fun c => { c with total := 0 }) s)

/-- A step has ended; there are more. -/
def countStep (r : Nat) : State → State := modCur r fun c => { c with dones := c.dones + 1 }

/-- Handed to another unit (R385). -/
def toBackground (r : Nat) : State → State := modCur r fun c => { c with background := true }

/-! ## Data (R382, R399, R403) -/

/-- The address of byte ofs of a command's data. -/
def dataAddr (h : CmdHdr) (ofs : Nat) : Nat := placeAddr h.space.toNat h.stack.toNat (h.addr.toNat + ofs)

/-- The channel that a ring's command holds, else the lowest free one of 28 to 31 (R399). -/
def cmdChan (s : State) (r : Nat) : Option Nat :=
  match [28, 29, 30, 31].find? fun c => (chanOf s c).owner == some r with
  | some c => some c
  | none => [28, 29, 30, 31].find? fun c => (chanOf s c).owner.isNone && !chanBusy (chanOf s c)

/-- Start a transfer of a command on its channel. -/
def startXfer (r c : Nat) (e : Elem) (ep : Ident) (s : State) : State :=
  let s := modCur r (fun k => { k with xfer := .running, data := [], chan := some c }) s
  chanRun c (some (e, ep)) none (modChan c (fun k => { k with owner := some r }) s)

/-- The transfer that fetched a command's data is over and its channel free. -/
def freeChan (r : Nat) (s : State) : State :=
  let s := each [28, 29, 30, 31] (fun c s => if (chanOf s c).owner = some r then modChan c (fun k => { k with owner := none }) s else s) s
  modCur r (fun k => { k with xfer := .none, data := [], chan := none }) s

/-- Gather n bytes of a command's data, from byte ofs on. -/
def gather (r c : Nat) (h : CmdHdr) (ofs n : Nat) : State → State :=
  startXfer r c { dstSp := 0, srcSp := h.space.setWidth 2, len := n, dst := 0, src := BitVec.ofNat 52 (dataAddr h ofs), intoBuf := true } h.ep

/-- Deliver bytes to a command's address, from byte ofs on. -/
def deliver (r c : Nat) (h : CmdHdr) (ofs : Nat) (bs : List Byte) : State → State :=
  startXfer r c { dstSp := h.space.setWidth 2, srcSp := 0, len := bs.length, dst := BitVec.ofNat 52 (dataAddr h ofs), src := 0, fromBuf := true, data := bs } h.ep

/-- How an access to memory that needs no channel stands: it must wait, it fails, or it may go on. -/
inductive Direct where
  | wait | bad | go
deriving DecidableEq, Repr

/-- May n bytes of host memory or a stack be reached now (R390, R403, R451)? A stack that is off wakes the device where it may. -/
def direct (h : CmdHdr) (n : Nat) (s : State) : Direct × State :=
  let a := dataAddr h 0
  match h.space.toNat with
  | 0 => (if s.cmd.bme then .go else .wait, s)
  | _ =>
    if addrBad s 31 1 a n then (.bad, s)
    else if placeUp s 1 a n then (.go, s)
    else if mayWake s then (.wait, wakeBy 1 s)
    else (.bad, s)

/-- Read n bytes without a channel; none if a check of the stack fails. -/
def readDirect (h : CmdHdr) (n : Nat) (s : State) : Option (List Byte) × State :=
  let sp := h.space.toNat
  let a := dataAddr h 0
  let (bad, s) := readCheck .ok sp a n s
  if bad then (none, s) else (some (placeRead s sp a n), countRead sp a n s)

/-- The data that a command reads at its start: at hand, to be waited for, or failed. Remote data come over a channel. -/
def fetchData (r : Nat) (c : RunCmd) (n : Nat) (s : State) : Option (List Byte) × State :=
  if c.hdr.space = 2 then
    match c.xfer with
    | .done => (some c.data, freeChan r s)
    | .running => (none, s)
    | .failed _ => (none, endDone r 5 s)
    | .none => match cmdChan s r with
      | some ch => (none, gather r ch c.hdr 0 n s)
      | none => (none, s)
  else
    match direct c.hdr n s with
    | (.wait, s) => (none, s)
    | (.bad, s) => (none, endDone r 5 s)
    | (.go, s) => match readDirect c.hdr n s with
      | (some bs, s) => (some bs, s)
      | (none, s) => (none, endDone r 5 s)

/-! ## Forwarding to the manager (R386) -/

/-- A worker hands a command to the acting manager and waits for its answer. -/
def forward (r : Nat) (c : RunCmd) (data : List Byte) (s : State) : State :=
  let s := modCmd (fun k => { k with forwarded := k.forwarded ++ [(c.hdr.tag, r, s.clock)] }) s
  toBackground r (emit (.forwardCmd s.gctl.actingId c.hdr.tag c.body data) s)

/-- Fifty milliseconds in ns (R384). -/
def answerLimit : Nat := 50000000

/-- Forwarded commands that the manager has not answered in time complete UNREACHABLE. -/
def expire (s : State) : State :=
  each (s.cmd.forwarded.filter fun f => decide (f.2.2 + answerLimit ≤ s.clock)) (fun f s => endCmd f.2.1 9 0 s) s

/-! ## CLEAR (R117 to R122, R124, R386) -/

/-- The records of a change list. -/
def recsOf (n : Nat) (l : List Byte) : List RouteRec := (List.range n).map fun i => recOf (sub l (48 * i) 48)

/-- One step of the clearing that a ring runs. -/
def clearStep (r : Nat) (s : State) : State :=
  let n := match s.route.clr with | some k => k.dones + 1 | none => 0
  match (let x := clrStep s; (x.1, stageWaiting x.2)) with
  | (.going, s) => match s.route.clr with
    | some k => modCur r (fun c => { c with dones := k.dones, total := k.total }) s
    | none => s
  | (.done, s) => endDone r 0 (modCur r (fun c => { c with dones := n, total := n }) s)
  | (.timedOut, s) => endDone r 6 (modCur r (fun c => { c with dones := n, total := n }) s)

def stepClear (r : Nat) (c : RunCmd) (n : Nat) (dies : BitVec 4) (tcs : Byte) (fabric : Bool) (s : State) : State :=
  if s.route.clr.any fun k => k.src == .ring r then clearStep r s
  else if fabric && !isMgr s then
    match fetchData r c (48 * n) s with
    | (some bs, s) => forward r c bs s
    | (none, s) => s
  else if fabric then
    if s.mgr.change.isSome then s
    else match fetchData r c (48 * n) s with
      | (some bs, s) => fabBegin (some r) dies tcs (recsOf n bs) (toBackground r s)
      | (none, s) => s
  else if s.route.clr.isSome then s
  else match fetchData r c (48 * n) s with
    | (some bs, s) => clearStep r (clrBegin (.ring r) dies tcs (recsOf n bs) s)
    | (none, s) => s

/-! ## Group commands (R186, R190, R205, R206, R386) -/

/-- Where the fragments of a descriptor gather: by ring, or by the sender of a remote command. -/
def fragKey (r : Nat) (src : Ident) : Nat := if r < 8 then r else 16 + src.toNat

/-- A fragment: it is kept, and with the last one the creation begins. A fragment at offset 0 begins a new descriptor. -/
def takeFragment (r : Nat) (c : RunCmd) (last : Bool) (ofs : Nat) (bs : List Byte) (s : State) : State :=
  let k := fragKey r c.src
  let whole := patch (if ofs = 0 then [] else tget [] s.mgr.frags k) ofs bs
  if last then
    let s := modMgr (fun m => { m with frags := tset [] m.frags k [] }) s
    tryPost r (createGroup (some r) (descOf whole) (toBackground r s))
  else endCmd r 0 0 (modMgr (fun m => { m with frags := tset [] m.frags k whole }) s)

def stepGroupCreate (r : Nat) (c : RunCmd) (len : Nat) (last : Bool) (ofs : Nat) (s : State) : State :=
  match fetchData r c len s with
  | (some bs, s) => if isMgr s then takeFragment r c last ofs bs s else forward r c bs s
  | (none, s) => s

/-- The manager's record of a group. -/
def groupOf (s : State) (g : GroupId) : Option GroupRec := tget none s.mgr.groups g.toNat

/-- Run a group command at the manager, where the group must be known; elsewhere forward it. -/
def atManager (r : Nat) (c : RunCmd) (g : GroupId) (f : GroupRec → State → State) (s : State) : State :=
  if !isMgr s then forward r c [] s
  else match groupOf s g with
    | some x => endCmd r 0 0 (f x s)
    | none => refuse r 3 s

/-- A STOP goes to the root of the group (R205). -/
def sendStop (x : GroupRec) (num : StepNo) (s : State) : State :=
  if x.desc.root = s.gctl.coord then
    match slotOf s x.desc.group with
    | some k => rootStop k num s
    | none => s
  else
    let b := ctrlBody kStop 0 0 []
    sendPkt (mkHdr 0 ptCtrl x.desc.tc.toNat (switchId s x.desc.root) s.gctl.ownId.toNat x.desc.pkey.toNat b.length 255 x.desc.group.toNat num.toNat 0 0 false)
      [] b false s

/-- The context of a group leaves HALT, its capture cleared (R206). -/
def resumeLocal (g : GroupId) (s : State) : State :=
  match slotOf s g with
  | none => s
  | some k => modCtx k (fun c => if c.st = .halt then settleSt { c with st := .idle, capture := {}, haltStatus := 0, haltDetail := 0 } else c) s

/-- A remote COMMAND entry of GROUP_RESUME (R382, R393). -/
def resumeEntry (g : GroupId) : List Byte := entryBytes { tag := 0, intr := false, space := 0, stack := 0, ep := 0, addr := 0 } (.groupResume g)

/-- The manager resumes a group at every switch of its tree (log entry 42). -/
def resumeAll (x : GroupRec) (s : State) : State :=
  each x.desc.switches (fun w s =>
    if w.coord = s.gctl.coord then resumeLocal x.desc.group s
    else sendMgmt (switchId s w.coord) ([1, 0, 0, 0] ++ resumeEntry x.desc.group) s) s

def stepGroupResume (r : Nat) (c : RunCmd) (g : GroupId) (s : State) : State :=
  if r = 8 && !isMgr s && c.src == s.gctl.actingId then endCmd r 0 0 (resumeLocal g s)
  else atManager r c g (fun x s => resumeAll x s) s

/-! ## SHARD_LOAD and SHARD_SAVE (R286, R287) -/

/-- Blocks of the step at a position. -/
def stepBlocks (n pos : Nat) : Nat := min 1024 (n - pos)

def meets (a n b m : Nat) : Bool := decide (a < b + m) && decide (b < a + n)

/-- Is a step open, or READY to open, at a root context whose shard on die d overlaps the range (R287)? -/
def rootOpen (s : State) (d a n : Nat) : Bool :=
  (liveSlots s).any fun k => match ctxOf s k with
    | some c => c.spec.isRoot && c.spec.op == 6 && shardDie s c.spec == some d && meets a n (cpBase c.spec.coppice) (shardLen c.spec) && (!(openSteps c).isEmpty || c.ready.isSome)
    | none => false

/-- Does another command hold a lock on part of the range? -/
def rangeLocked (s : State) (d r a n : Nat) : Bool := (redOf s d).locks.any fun l => l.1 != r && meets a n l.2.1 l.2.2

/-- The stack of block b of die d. -/
def blockStack (d b : Nat) : Nat := 2 * d + b % 2

/-- Stack and address of block b in space 1. -/
def blockAddr (s : State) (d b : Nat) : Nat := blockStack d b * 2 ^ 36 + (stackOf s (blockStack d b)).shardBase.toNat * 65536 + 528 * (b / 2)

/-- Count the codewords of a range of blocks (R457). -/
def countRange (d a n dir : Nat) (s : State) : State :=
  each ((List.range n).map (a + ·)) (fun b s =>
    countBytes (16 + 2 * blockStack d b + dir) (64 * codewords (blockAddr s d b % 2 ^ 36) 528) s) s

/-- The lock is taken, or the command waits or is refused (R287). -/
def takeLock (r : Nat) (c : RunCmd) (d a n : Nat) (go : State → State) (s : State) : State :=
  if c.locked then go s
  else if rangeLocked s d r a n then refuse r 4 s
  else if rootOpen s d a n then s
  else go (modCur r (fun c => { c with locked := true }) (modRed d (fun x => { x with locks := x.locks ++ [(r, a, n)] }) s))

/-- The stacks of a range are up, or the device wakes, or the command fails (R403, R451). -/
def withStacks (r d a n : Nat) (go : State → State) (s : State) : State :=
  let ms := uniq ((List.range (min n 2)).map fun i => blockStack d (a + i))
  if ms.all (stackUp s) then go s else if mayWake s then wakeBy 1 s else endDone r 5 s

def stepLoad (r : Nat) (c : RunCmd) (d a n : Nat) (s : State) : State :=
  takeLock r c d a n (withStacks r d a n fun s => match cmdChan s r with
    | some ch => gather r ch c.hdr (528 * c.pos) (528 * stepBlocks n c.pos) s
    | none => s) s

/-- The bytes of a range of blocks. -/
def rangeBytes (s : State) (d a n : Nat) : List Byte := (List.range n).flatMap fun i => blkBytes (tget {} s.mem.shard (d * 2 ^ 28 + a + i))

/-- The blocks of a step of a save are read: could one not be (R310)? -/
def rangeCheck (d a n : Nat) (s : State) : Bool × State :=
  (List.range n).foldl (fun r i =>
    let q := readCheck .ok 1 (blockAddr r.2 d (a + i)) 528 r.2
    (r.1 || q.1, q.2)) (false, s)

def stepSave (r : Nat) (c : RunCmd) (d a n : Nat) (s : State) : State :=
  takeLock r c d a n (withStacks r d a n fun s => match cmdChan s r with
    | none => s
    | some ch =>
      let k := stepBlocks n c.pos
      let (bad, s) := rangeCheck d (a + c.pos) k s
      if bad then endDone r 5 s
      else deliver r ch c.hdr (528 * c.pos) (rangeBytes s d (a + c.pos) k) (countRange d (a + c.pos) k 0 s)) s

/-- Write the blocks of a load as they came, from block b of die d on. -/
def putBlocks (d b : Nat) (bs : List (List Byte)) (s : State) : State :=
  let s := each (bs.zip (List.range bs.length)) (fun e s =>
    cwWritten (blockStack d (b + e.2)) (blockAddr s d (b + e.2) % 2 ^ 36) 528
      { s with mem := { s.mem with shard := tset {} s.mem.shard (d * 2 ^ 28 + b + e.2) (blkOf e.1) } }) s
  iff (!bs.isEmpty) (modPwr fun p => { p with shardDirty := setBit p.shardDirty d true }) (countRange d b bs.length 1 s)

/-- The step's position moves on; the command ends with its last step, or at an abort (R388). -/
def nextStep (r n k : Nat) (s : State) : State :=
  match (ringOf s r).cur with
  | none => s
  | some c =>
    let s := modCur r (fun c => { c with xfer := .none, data := [], pos := c.pos + k, dones := c.dones + 1 }) s
    if c.pos + k ≥ n then endDone r 0 s else if c.abort then abortCmd r s else s

/-- A load's transfer has ended: each BLK is checked against its place in the range (R286). -/
def endLoad (r : Nat) (c : RunCmd) (d a n : Nat) (s : State) : State :=
  let k := stepBlocks n c.pos
  let blocks := (List.range k).map fun i => sub c.data (528 * i) 528
  let base := if c.pos = 0 then (match blocks.head? with | some b => (blkOf b).blk.toNat | none => 0) else c.firstBlk
  let good := (blocks.zip (List.range k)).takeWhile fun e => (blkOf e.1).blk == BitVec.ofNat 32 (base + c.pos + e.2)
  let s := putBlocks d (a + c.pos) (good.map Prod.fst) (modCur r (fun c => { c with firstBlk := base }) s)
  if good.length < k then endCmd r 7 (a + c.pos + good.length) s else nextStep r n k s

/-! ## SCRUB_PASS and SELF_TEST (R386) -/

/-- Two MiB of a stack are read. -/
def stepScrub (r : Nat) (c : RunCmd) (m : Nat) (s : State) : State :=
  if !stackUp s m then (if mayWake s then wakeBy 1 s else endDone r 5 s)
  else
    let s := scrubResultAt m (2097152 * c.dones) .clean (countBytes (16 + 2 * m) 2097152 s)
    let s := countStep r s
    if c.dones + 1 ≥ 32768 then endDone r 0 s else s

/-- Does the unit of a self-test carry traffic or hold a context? -/
def unitBusy (s : State) (r cls u : Nat) : Bool :=
  let others (f : CmdBody → Bool) : Bool := s.cmd.rings.any fun e => e.1 != r && (match e.2.cur with | some c => c.result.isNone && f c.body | none => false)
  match cls with
  | 0 => !(ctxsOn s (u / 4)).isEmpty || heldBuf s (fun k _ => k < 8 && k / 2 == u / 4) ||
      dmaTouches s (fun sp a => sp == 3 && a / 2 ^ 30 == u / 4 && a % 2 ^ 29 / 100663296 == u % 4) || others (· == .selfTest 0 u)
  | 1 => heldBuf s (fun k i => decide (8 ≤ k) && bufStack s k i == some u) || dmaTouches s (fun sp a => sp == 1 && a / 2 ^ 36 == u) ||
      others (fun b => match b with
        | .shardLoad d _ _ => d == u / 2
        | .shardSave d _ _ => d == u / 2
        | .scrubPass k => k == u
        | .selfTest 1 k => k == u
        | _ => false) ||
      (liveSlots s).any (fun k => match ctxOf s k with | some c => c.spec.op == 6 && shardDie s c.spec == some (u / 2) | none => false)
  | _ => (portsOf u).any fun p => (portOf s p).enabled && (subKeys s p).any fun k => match (linkOf s k).st with | .down | .dark => false | _ => true

/-- The 64 bytes of a self-test's result: tests passed, and the first that failed. What a test finds is a free value. -/
def testRecord (v : BitVec 64) : List Byte := sub (bytesLE 4 (fld v 0 16) ++ bytesLE 4 (if bitOf v 63 then fld v 16 16 else 0)) 0 64

/-- The test runs and its record is written; the status it will end with is kept in pos. -/
def stepTest (r : Nat) (c : RunCmd) (cls u : Nat) (s : State) : State :=
  if unitBusy s r cls u then refuse r 4 s
  else
    let run (s : State) : List Byte × Nat × State := let (v, s) := draw s; (testRecord v, if bitOf v 63 then 11 else 0, s)
    if c.hdr.space = 2 then
      match cmdChan s r with
      | none => s
      | some ch => let (bs, st, s) := run s; deliver r ch c.hdr 0 bs (modCur r (fun c => { c with pos := st }) s)
    else match direct c.hdr 64 s with
      | (.wait, s) => s
      | (.bad, s) => endDone r 5 s
      | (.go, s) => let (bs, st, s) := run s; endDone r st (countStep r (placeWrite c.hdr.space.toNat (dataAddr c.hdr 0) bs s))

/-! ## WINDTHROW (R461, R462) -/

def stepWindthrow (r : Nat) (c : RunCmd) (s : State) : State :=
  match s.dbg.windRing with
  | none => match cmdChan s r with
    | none => s
    | some ch =>
      let s := modChan ch (fun k => { k with owner := some r }) s
      countStep r (modDbg (fun d => { d with windRing := some r, windAt := some (fabNs s + 2000), windShadow := [] }) (modCur r (fun c => { c with chan := some ch }) s))
  | some q =>
    if q ≠ r || s.dbg.windShadow.isEmpty then s
    else match cmdChan s r with
      | some ch => deliver r ch c.hdr c.pos ((s.dbg.windShadow.drop c.pos).take wtStep) s
      | none => s

/-! ## PORT_RETRAIN (R54, R386) -/

/-- Is a named strand of the port still training? -/
def stillTrains (s : State) (p : Nat) (mask : BitVec 4) : Bool :=
  (List.range 4).any fun i => bitOf mask i && ((strandOf s (4 * p + i)).alone ||
    (match (linkOf s (subKey s p i)).st with | .clock | .eq | .align | .config | .assign | .register => true | _ => false))

/-- The first step acts on each sub-link of the port that has a named strand; each step is 50 µs of training. -/
def stepRetrain (r : Nat) (c : RunCmd) (p : Nat) (mask : BitVec 4) (s : State) : State :=
  let s := if c.dones = 0 && portOn s p then
      each (subKeys s p) (fun k s =>
        if (strandPos s k).any fun q => bitOf mask (q % 4) then retrainLink k mask (if (linkOf s k).st = .dark then wakeLink k s else s) else s) s
    else s
  let s := modCur r (fun c => { c with dones := c.dones + 1, total := max c.total (c.dones + 2) }) s
  if stillTrains s p mask then (if c.abort then abortCmd r s else s)
  else endDone r 0 (modCur r (fun c => { c with total := c.dones }) s)

/-! ## IMAGE_UPDATE (R353, R386) -/

def copyOfs (copy : Nat) : Nat := copy * 0x2000000

/-- Bytes of the image moved at a time. -/
def imgPiece (len pos : Nat) : Nat := min 65536 (len - pos)

/-- Program bytes and verify them; how the verification ends is a free value (log entry 2). -/
def flashPut (ofs : Nat) (bs : List Byte) (s : State) : Bool × State :=
  let (v, s) := draw (emit (.flashProgram ofs bs) s)
  (v.getLsbD 0, s)

/-- Erase a sector and verify it. -/
def flashErase (ofs : Nat) (s : State) : Bool × State :=
  let (v, s) := draw (emit (.flashErase ofs) s)
  (v.getLsbD 0, s)

def startImage (r copy : Nat) (s : State) : State :=
  if s.cmd.updating.isSome then refuse r 4 s
  else match cmdChan s r with
    | none => s
    | some ch =>
      let s := modChan ch (fun k => { k with owner := some r }) s
      toBackground r (modCmd (fun k => { k with updating := some (copy, r, 0) }) (modCur r (fun c => { c with chan := some ch }) s))

/-- A piece of the body has come: its sector is erased, unless it is the header's, and programmed, the header's bytes held back. -/
def imagePiece (r copy len : Nat) (c : RunCmd) (s : State) : State :=
  let ofs := copyOfs copy + c.pos
  let (ok, s) := if c.pos = 0 then (true, s) else flashErase ofs s
  let skip := if c.pos = 0 then 128 else 0
  let (ok', s) := if ok && decide (skip < c.data.length) then flashPut (ofs + skip) (c.data.drop skip) s else (ok, s)
  if !(ok && ok') then endCmd r 8 0 s
  else
    let s := modCur r (fun k => { k with xfer := .none, data := [], pos := k.pos + c.data.length, header := if c.pos = 0 then c.data.take 128 else k.header }) s
    if c.pos + c.data.length ≥ len then modCmd (fun k => { k with updating := some (copy, r, 2) }) s else s

/-- One action of the unit that updates an image copy: the header's sector is erased first and its bytes are programmed last. -/
def imageWork (s : State) : State :=
  match s.cmd.updating with
  | none => s
  | some (copy, r, stage) => match (ringOf s r).cur with
    | none => s
    | some c => match c.body with
      | .imageUpdate _ len =>
        if c.result.isSome then s
        else match stage with
          | 0 =>
            let (ok, s) := flashErase (copyOfs copy) s
            if ok then modCmd (fun k => { k with updating := some (copy, r, 1) }) s else endCmd r 8 0 s
          | 1 => match c.xfer with
            | .none => match cmdChan s r with
              | some ch => gather r ch c.hdr c.pos (imgPiece len c.pos) s
              | none => s
            | .running => s
            | .failed _ => endCmd r 5 0 s
            | .done => imagePiece r copy len c s
          | _ =>
            let (ok, s) := flashPut (copyOfs copy) c.header s
            endCmd r (if ok then 0 else 8) (if ok then 1 else 0) s
      | _ => s

/-! ## Register commands (R384, R486) -/

/-- The path of a ring's register accesses (R431). -/
def ringPath (r : Nat) : Path := if r = 8 then .remote else .pcie

def stepRegRead (r off : Nat) (s : State) : State :=
  match regRead (ringPath r) off s with
  | (_, .off _, s) => endCmd r 10 0xBAD00FF0 s
  | (v, _, s) => endCmd r 0 v.toNat s

def stepRegWrite (r off : Nat) (v : Word) (s : State) : State :=
  match regWrite (ringPath r) off v s with
  | (.off _, s) => endCmd r 10 0xBAD00FF0 s
  | (_, s) => endCmd r 0 0 s

/-! ## Steps (R385, R387, R388) -/

/-- One step, or the whole of a short command, of the command at work on ring r. -/
def stepCmd (r : Nat) (s : State) : State :=
  match (ringOf s r).cur with
  | none => s
  | some c =>
    if c.result.isSome || c.background then s
    else if c.abort then abortCmd r s
    else match c.body with
      | .nop => endCmd r 0 0 s
      | .clear n dies tcs fabric => stepClear r c n dies tcs fabric s
      | .groupCreate len last ofs => stepGroupCreate r c len last ofs s
      | .groupDelete g => atManager r c g (fun x s => deleteGroup x.desc.group.toNat s) s
      | .groupStop g num => atManager r c g (fun x s => sendStop x num s) s
      | .groupResume g => stepGroupResume r c g s
      | .shardLoad d a n => stepLoad r c d a n s
      | .shardSave d a n => stepSave r c d a n s
      | .scrubPass m => stepScrub r c m s
      | .selfTest cls u => stepTest r c cls u s
      | .windthrow => stepWindthrow r c s
      | .portRetrain p mask => stepRetrain r c p mask s
      | .imageUpdate copy _ => startImage r copy s
      | .regRead off => stepRegRead r off s
      | .regWrite off v => stepRegWrite r off v s

/-- A command that has just been taken. -/
def newCmd (src : Ident) (h : CmdHdr) (b : CmdBody) : RunCmd :=
  { hdr := h, body := b, dones := 0, total := stepsOf b, abort := false, late := false, chan := none, src := src, background := false, result := none }

/-- A command is taken on a ring: refused for its operands, or begun with its first step. -/
def startCmd (r : Nat) (src : Ident) (h : CmdHdr) (b : CmdBody) (s : State) : State :=
  let s := modRing r (fun g => { g with cur := some (newCmd src h b) }) s
  if addrRefused r h b || bodyRefused s b then refuse r 3 s else stepCmd r s

/-- A transfer of the step at work has ended: the step commits, or the command ends with DMA_ERROR (R408). -/
def endXfer (r : Nat) (c : RunCmd) (s : State) : State :=
  match c.xfer with
  | .failed _ => endDone r 5 s
  | .done => match c.body with
    | .shardLoad d a n => endLoad r c d a n s
    | .shardSave _ _ n => nextStep r n (stepBlocks n c.pos) s
    | .windthrow => nextStep r s.dbg.windShadow.length (min wtStep (s.dbg.windShadow.length - c.pos)) s
    | .selfTest _ _ => endDone r c.pos (countStep r s)
    | _ => stepCmd r s
  | _ => s

/-- While SSTEP is set the processor halts after every step (R389). -/
def noteHalt (s : State) : State := iff s.cmd.sstep (modCmd fun k => { k with halted := true }) s

/-- Commit the steps whose transfer has ended. -/
def endXfers (s : State) : State :=
  each (List.range 9) (fun r s => match (ringOf s r).cur with
    | some c => if !c.background && c.result.isNone && (match c.xfer with | .done | .failed _ => true | _ => false) then noteHalt (endXfer r c s) else s
    | none => s) s

/-- The processor is at work on a step: its transfer runs (R387). -/
def procBusy (s : State) : Bool :=
  (List.range 9).any fun r => match (ringOf s r).cur with
    | some c => !c.background && c.xfer == .running && (match c.chan with | some ch => (chanOf s ch).state == .run | none => false)
    | none => false

/-- Has a ring something for the processor to do (R381, R387, R390)? -/
def ringReady (s : State) (r : Nat) : Bool :=
  let g := ringOf s r
  match g.cur with
  | some c => c.result.isNone && !c.background && c.xfer == .none
  | none => if r = 8 then !g.remote.isEmpty else g.en && g.head != g.tail && s.cmd.bme

/-- Take an entry: one that an abort has named completes ABORTED, one that is malformed BAD_CMD; any other starts. -/
def takeEntry (r : Nat) (src : Ident) (bs : List Byte) (s : State) : State :=
  let e := ringEntryOf bs
  let fail (st : Nat) (s : State) : State := refuse r st (modRing r (fun g => { g with cur := some (newCmd src e.hdr .nop) }) s)
  if (ringOf s r).aborts.contains e.hdr.tag then fail 1 (modRing r (fun g => { g with aborts := dropFirst e.hdr.tag g.aborts }) s)
  else match e.body with
    | none => fail 2 s
    | some b => startCmd r src e.hdr b s

/-- The next entry of an idle ring is fetched and taken. -/
def fetchEntry (r : Nat) (s : State) : State :=
  let g := ringOf s r
  if r = 8 then
    match g.remote with
    | [] => s
    | (src, e) :: rest => takeEntry r src (bytesLE 64 e.toNat) (modRing r (fun g => { g with remote := rest }) s)
  else
    let bs := rdBytes s.mem.host (g.sqBase.toNat + 64 * g.head.toNat) 64
    takeEntry r 0 bs (modRing r (fun g => { g with head := g.head + 1 }) (countBytes 32 64 s))

/-- Has the turn of ring r run a step or a short command? -/
def ranStep (before after : Option RunCmd) : Bool :=
  match after with
  | none => true
  | some c => c.result.isSome || c.background || decide (c.dones > (match before with | some b => b.dones | none => 0))

/-- The turn of ring r. -/
def serve (r : Nat) (s : State) : State :=
  let before := (ringOf s r).cur
  let s := modCmd (fun k => { k with last := r }) s
  let s := if before.isSome then stepCmd r s else fetchEntry r s
  iff (ranStep before (ringOf s r).cur) noteHalt s

/-- What goes on beside the rotation: completions that can be posted, commands at the manager, the image update, and the ends of transfers. -/
def housekeep (s : State) : State := endXfers (imageWork (expire (postAll s)))

/-- The ring whose turn is next: the first that is ready after the one served last. -/
def nextRing (s : State) : Option Nat := ((List.range 9).map fun i => (s.cmd.last + 1 + i) % 9).find? (ringReady s)

/-- One turn of the processor (R387, R389). -/
def turn (s : State) : State :=
  let s := housekeep s
  if s.cmd.halted || procBusy s then s
  else match nextRing s with
    | some r => serve r s
    | none => s

/-- GO while the processor is halted: one more step (R389). -/
def sstepGo (s : State) : State := if s.cmd.halted then turn (modCmd (fun k => { k with halted := false }) s) else s

/-- A command given as a row of its own starts on an idle ring; the answer to one on ring 8 goes to EP. -/
def runRow (r : RingId) (h : CmdHdr) (b : CmdBody) (st : State) : State :=
  if mgmtUp st && !st.cmd.halted && !procBusy st && (ringOf st r).cur.isNone then
    let st := startCmd r h.ep h b st
    iff (ranStep none (ringOf st r).cur) noteHalt st
  else st

/-! ## The rows -/

/-- COMMAND_STEP_TURN (R387). -/
def execCommandStepTurn (st : State) : Outcome := .next <| if mgmtUp st then turn st else st
/-- NOP (R385). -/
def execNop (r : RingId) (h : CmdHdr) (st : State) : Outcome := .next <| runRow r h .nop st
/-- CLEAR (R117). -/
def execClear (r : RingId) (h : CmdHdr) (count : Word) (dieMask : BitVec 4) (tcMask : Byte) (fabric : Bool) (st : State) : Outcome :=
  .next <| runRow r h (.clear count.toNat dieMask tcMask fabric) st
/-- GROUP_CREATE (R186). -/
def execGroupCreate (r : RingId) (h : CmdHdr) (len : BitVec 16) (last : Bool) (ofs : Word) (st : State) : Outcome :=
  .next <| runRow r h (.groupCreate len.toNat last ofs.toNat) st
/-- GROUP_DELETE (R190). -/
def execGroupDelete (r : RingId) (h : CmdHdr) (group : GroupId) (st : State) : Outcome := .next <| runRow r h (.groupDelete group) st
/-- GROUP_STOP (R205). -/
def execGroupStop (r : RingId) (h : CmdHdr) (group : GroupId) (step : StepNo) (st : State) : Outcome := .next <| runRow r h (.groupStop group step) st
/-- GROUP_RESUME (R206). -/
def execGroupResume (r : RingId) (h : CmdHdr) (group : GroupId) (st : State) : Outcome := .next <| runRow r h (.groupResume group) st
/-- SHARD_LOAD (R286). -/
def execShardLoad (r : RingId) (h : CmdHdr) (die : Byte) (first : Word) (count : Word) (st : State) : Outcome :=
  .next <| runRow r h (.shardLoad die.toNat first.toNat count.toNat) st
/-- SHARD_SAVE (R286). -/
def execShardSave (r : RingId) (h : CmdHdr) (die : Byte) (first : Word) (count : Word) (st : State) : Outcome :=
  .next <| runRow r h (.shardSave die.toNat first.toNat count.toNat) st
/-- SCRUB_PASS (R386). -/
def execScrubPass (r : RingId) (h : CmdHdr) (stack : Byte) (st : State) : Outcome := .next <| runRow r h (.scrubPass stack.toNat) st
/-- SELF_TEST (R386). -/
def execSelfTest (r : RingId) (h : CmdHdr) (cls : Byte) (unit : Byte) (st : State) : Outcome := .next <| runRow r h (.selfTest cls.toNat unit.toNat) st
/-- WINDTHROW (R461). -/
def execWindthrow (r : RingId) (h : CmdHdr) (st : State) : Outcome := .next <| runRow r h .windthrow st
/-- PORT_RETRAIN (R54). -/
def execPortRetrain (r : RingId) (h : CmdHdr) (port : BitVec 16) (mask : BitVec 4) (st : State) : Outcome :=
  .next <| runRow r h (.portRetrain port.toNat mask) st
/-- IMAGE_UPDATE (R386). -/
def execImageUpdate (r : RingId) (h : CmdHdr) (copy : Byte) (len : Word) (st : State) : Outcome := .next <| runRow r h (.imageUpdate copy.toNat len.toNat) st
/-- REG_READ (R385). -/
def execRegRead (r : RingId) (h : CmdHdr) (off : Word) (st : State) : Outcome := .next <| runRow r h (.regRead off.toNat) st
/-- REG_WRITE (R385). -/
def execRegWrite (r : RingId) (h : CmdHdr) (off : Word) (val : Word) (st : State) : Outcome := .next <| runRow r h (.regWrite off.toNat val) st
/-- SSTEP_GO (R389). -/
def execSstepGo (st : State) : Outcome := .next <| if mgmtUp st then sstepGo st else st

end Sys2Proof.Machine
end

