-- ==== Sys2Proof/Machine/Access.lean ====
section
/-! DEFINITION. The ways into the registers (R372 to R380, R393, R395, R486): PCIe requests, SMBus, JTAG, register writes and reads over
any path, and the messages COMMAND and COMPLETION. -/

namespace Sys2Proof.Machine

/-! ## Accesses over a path -/

/-- JTAG reaches BAR0 at level 2 only (R395). -/
def pathOpen (s : State) (path : Path) : Bool := path != .jtag || s.cmd.jtagLevel == 2

/-- A read over a path; in the fault state the surviving island serves four blocks (R416). -/
def busRead (path : Path) (off : Nat) (s : State) : Word × Reach × State :=
  if mgmtUp s || (faultReads s && faultServes false off) then regRead path off s else (0, .none, s)

/-- GO of CMD_CTL runs a step of a halted processor (R389). -/
def takesGo (off : Nat) (v : Word) : Bool := off == 0x60000 && bitOf v 30

/-- A write over a path. -/
def busWrite (path : Path) (off : Nat) (v : Word) (s : State) : Reach × State :=
  if mgmtUp s || (faultReads s && faultServes true off) then
    match regWrite path off v s with
    | (.ok, s) => (.ok, iff (takesGo off v) sstepGo s)
    | x => x
  else (.none, s)

/-- REGISTER_WRITE (R5, R6, R452). -/
def execRegisterWrite (path : Path) (off : Off) (val : Word) (st : State) : Outcome :=
  .next <| if pathOpen st path then (busWrite path off.toNat val st).2 else st

/-- RC_COUNTER_READ (R7): upd is the amount of a hardware update that coincides with the read, 0 for none. -/
def execRcCounterRead (path : Path) (off : Off) (upd : Word) (st : State) : Outcome :=
  .next <|
    if !mgmtUp st || !pathOpen st path then st
    else if off.toNat % 4 ≠ 0 then emit (.readData path 0) (cmdCnt 0x414 1 st)
    else let (v, _, st) := regReadUpd path off.toNat upd st; emit (.readData path v) st

/-! ## PCIe (R372 to R374, R377, R486) -/

/-- A management block's port answers: the block works and the device is not down. -/
def portAnswers (s : State) (port : MbId) : Bool := (mgmtUp s || faultReads s) && mbLive s port

/-- Configuration space of the function (R8, R372): the standard header, the MSI-X capability with its 64 vectors and the PCI Express capability
with FLR; no further capability is listed, and no extended one, so there is no SR-IOV, ATS or PASID (PRESUMED, PCI; log entry 43). None for a
register that the spec does not describe. -/
def cfgRead (s : State) (reg : Nat) : Option Word :=
  match reg with
  | 0x00 => some 0x534B1F8C
  | 0x04 => some (setBit (setBit (tget 0 s.cmd.cfg 1) 2 s.cmd.bme) 20 true)
  | 0x08 => some (regWord [(8, 0x028000), (0, s.fuses.stepping.toNat)])
  | 0x0C => some 0
  | 0x10 => some (tget 0 s.cmd.cfg 4 ||| 4)
  | 0x14 => some (tget 0 s.cmd.cfg 5)
  | 0x18 => some (tget 0 s.cmd.cfg 6 ||| 4)
  | 0x1C => some (tget 0 s.cmd.cfg 7)
  | 0x34 => some 0x40
  | 0x3C => some (tget 0 s.cmd.cfg 15)
  | 0x40 => some (tget 0 s.cmd.cfg 16 ||| 0x003F5011)
  | 0x44 => some 0x00008002
  | 0x48 => some 0x0000C002
  | 0x50 => some 0x00020010
  | 0x2C => none
  | _ => if 0x54 ≤ reg ∧ reg < 0x8C then none else some 0

def setCfg (k : Nat) (v : Word) : State → State := modCmd fun c => { c with cfg := tset 0 c.cfg k v }

/-- A write of configuration space: Command with its Bus Master Enable (R390), and the base addresses of BAR0 (32 MiB) and BAR2 (64 KiB). -/
def cfgWrite (reg : Nat) (v : Word) (s : State) : State :=
  match reg with
  | 0x04 =>
    let s := setCfg 1 (v &&& 0x542) s
    if bitOf v 2 then setBme s else clearBme s
  | 0x10 => setCfg 4 (v &&& 0xFE000000) s
  | 0x14 => setCfg 5 v s
  | 0x18 => setCfg 6 (v &&& 0xFFFF0000) s
  | 0x1C => setCfg 7 v s
  | 0x3C => setCfg 15 (v &&& 0xFF) s
  | 0x40 => setCfg 16 (v &&& 0xC0000000) s
  | _ => s

/-- PCIE_CONFIG_REQUEST (R373): what the spec does not describe reads a free value. -/
def execPcieConfigRequest (port : MbId) (write : Bool) (reg : BitVec 12) (val : Word) (st : State) : Outcome :=
  .next <|
    let r := reg.toNat / 4 * 4
    if !portAnswers st port then st
    else if port ≠ st.units.active then emit (.pcieRetry port) st
    else if write then emit (.pcieDone port) (cfgWrite r val st)
    else match cfgRead st r with
      | some v => emit (.pcieData port [v]) st
      | none => let (v, st) := draw st; emit (.pcieData port [v.setWidth 32]) st

/-- A dword of BAR2 as it reads (R377). -/
def bar2Read (s : State) (off : Nat) : Word :=
  if 0x8000 ≤ off ∧ off < 0x8400 then msixWord s ((off - 0x8000) / 4)
  else if off = 0xC000 then s.cmd.pba.extractLsb' 0 32
  else if off = 0xC004 then s.cmd.pba.extractLsb' 32 32
  else 0

/-- A word of the MSI-X table is written; a vector that is pending and no longer masked is raised. -/
def msixPut (i : Nat) (v : Word) (s : State) : State :=
  let v := match i % 4 with | 0 => v &&& 0xFFFFFFFC | 3 => v &&& 1 | _ => v
  raisePending (modCmd (fun c => { c with msix := tset 0 c.msix i (v ^^^ (if i % 4 = 3 then 1 else 0)) }) s)

/-- A write of BAR2: a doorbell, or the MSI-X table (R377). -/
def bar2Write (off : Nat) (v : Word) (s : State) : State :=
  if off < 0x800 then
    (let r := off / 0x100
     match off % 0x100 with
     | 0x0 => modRing r (fun g => { g with tail := v.setWidth 12 }) s
     | 0x4 => postAll (modRing r (fun g => { g with cqHead := v.setWidth 12 }) s)
     | 0x8 => abortTag r v s
     | _ => s)
  else if 0x8000 ≤ off ∧ off < 0x8400 then msixPut ((off - 0x8000) / 4) v s
  else s

/-- One dword of a read of BAR0 or BAR2: an incomplete dword of BAR0 is in no block (R486). -/
def dwordRead (bar : Bar) (off : Nat) (d : Dword) (s : State) : Word × State :=
  match bar with
  | .bar0 =>
    if d.be = 0xF then (let (v, _, s) := busRead .pcie off s; (v, s))
    else (0, iff (mgmtUp s) (cmdCnt 0x414 1) s)
  | .bar2 => (if mgmtUp s then bar2Read s off else 0, s)

/-- One dword of a write. An incomplete dword of BAR2 is dropped (log entry 43). -/
def dwordWrite (bar : Bar) (off : Nat) (d : Dword) (s : State) : State :=
  match bar with
  | .bar0 =>
    if d.be = 0xF then (busWrite .pcie off d.val s).2
    else iff (mgmtUp s) (cmdCnt 0x414 1) s
  | .bar2 => if d.be = 0xF && mgmtUp s then bar2Write off d.val s else s

/-- The dwords of a read, in ascending order. -/
def dwordsRead (bar : Bar) : Nat → List Dword → State → List Word × State
  | _, [], s => ([], s)
  | off, d :: r, s =>
    let (v, s) := dwordRead bar off d s
    let (vs, s) := dwordsRead bar (off + 4) r s
    (v :: vs, s)

/-- The dwords of a write, in ascending order. -/
def dwordsWrite (bar : Bar) : Nat → List Dword → State → State
  | _, [], s => s
  | off, d :: r, s => dwordsWrite bar (off + 4) r (dwordWrite bar off d s)

/-- PCIE_MEMORY_REQUEST (R373, R486). -/
def execPcieMemoryRequest (port : MbId) (bar : Bar) (write : Bool) (off : Off) (dws : List Dword) (st : State) : Outcome :=
  .next <|
    let o := off.toNat / 4 * 4
    if !portAnswers st port then st
    else if port ≠ st.units.active then emit (.pcieUr port) st
    else if write then dwordsWrite bar o dws st
    else let (vs, st) := dwordsRead bar o dws st; emit (.pcieData port vs) st

/-! ## SMBus (R379, R380) -/

/-- The 7-bit address of the SMBus target (R8). -/
def smbTarget (s : State) : BitVec 7 := if s.rst.addrSel then 0x5B else 0x5A

/-- SMBus answers a transaction: it is addressed to this target, and a management block is there, also under fault cause 4. -/
def smbUp (s : State) (target : BitVec 7) : Bool := (mgmtUp s || faultReads s) && target == smbTarget s

/-- The offset advances and STATUS notes where the access led. -/
def smbNote (x : Reach) : State → State := modCmd fun c =>
  { c with smbOff := c.smbOff + 4, smbLive := x == .ok, smbDomOff := match x with | .off _ => true | _ => false }

/-- SET_ADDR. -/
def execSetAddr (target : BitVec 7) (addr : Word) (pecOk : Bool) (st : State) : Outcome :=
  .next <|
    if !smbUp st target then st
    else if !pecOk then emit .smbNack st
    else emit .smbAck (modCmd (fun c => { c with smbOff := addr, smbReset := false }) st)

/-- READ. -/
def execRead (target : BitVec 7) (pecOk : Bool) (st : State) : Outcome :=
  .next <|
    if !smbUp st target then st
    else if !pecOk then emit .smbNack st
    else let (v, x, st) := busRead .smbus st.cmd.smbOff.toNat st; emit (.smbData v) (smbNote x st)

/-- WRITE. -/
def execWrite (target : BitVec 7) (val : Word) (pecOk : Bool) (st : State) : Outcome :=
  .next <|
    if !smbUp st target then st
    else if !pecOk then emit .smbNack st
    else let (x, st) := busWrite .smbus st.cmd.smbOff.toNat val st; emit .smbAck (smbNote x st)

/-- STATUS. -/
def execStatus (target : BitVec 7) (pecOk : Bool) (st : State) : Outcome :=
  .next <|
    if !smbUp st target then st
    else if !pecOk then emit .smbNack st
    else emit (.smbData (regWord [(0, b2n st.cmd.smbLive), (1, b2n st.cmd.smbDomOff), (2, b2n st.cmd.smbReset)])) st

/-! ## Messages (R386, R393) -/

/-- COMMAND: a remote command waits on ring 8. -/
def execCommand (src : Ident) (entry : BitVec 512) (st : State) : Outcome :=
  .next <| if mgmtUp st then modRing 8 (fun g => { g with remote := g.remote ++ [(src, entry)] }) st else st

/-- The ring whose command, forwarded to the manager under a TAG, waits longest. -/
def forwardedRing (s : State) (tag : Word) : Option Nat := (s.cmd.forwarded.find? fun f => f.1 == tag).map fun f => f.2.1

/-- The manager's answer completes the command that was forwarded. -/
def takeCompletion (comp : BitVec 128) (s : State) : State :=
  match forwardedRing s (comp.extractLsb' 0 32) with
  | none => s
  | some r =>
    endCmd r (fld comp 32 16) (fld comp 64 32) (modCur r (fun c => { c with total := fld comp 96 32, late := c.late || bitOf comp 49 }) s)

/-- COMPLETION (R386, R393). -/
def execCompletion (comp : BitVec 128) (st : State) : Outcome := .next <| if mgmtUp st then takeCompletion comp st else st

/-! ## JTAG (R395) -/

/-- A new NONCE: two free values (log entry 2). -/
def newNonce (s : State) : State :=
  let (a, s) := draw s
  let (b, s) := draw s
  modCmd (fun c => { c with nonce := a ++ b }) s

/-- UNLOCK. With JTAG_KEY blank it is refused. -/
def execUnlock (level : Byte) (sig : BitVec 768) (st : State) : Outcome :=
  .next <|
    if !mgmtUp st then st
    else match st.fuses.jtagKey with
      | none => st
      | some key =>
        if (level == 1 || level == 2) && Config.tokenOk level st.cmd.nonce st.gctl.fabricId sig key then
          logMb 0x5110 [] (modCmd (fun c => { c with jtagLevel := level.setWidth 2 }) st)
        else logMb 0x5111 [] (newNonce st)

/-- The instruction register for BYPASS is all ones (PRESUMED, IEEE 1149.1; log entry 43). -/
def execBypass (st : State) : Outcome := .next <| if islandUp st then modCmd (fun c => { c with jtagIr := 0xFFFF }) st else st

/-- The device identification code. -/
def idcode (s : State) : Word := regWord [(28, s.fuses.stepping.toNat % 16), (12, 0x534B), (1, 0x4D7), (0, 1)]

/-- IDCODE: the code is shifted out; 1 stands for its instruction code (log entry 43). -/
def execIdcode (st : State) : Outcome :=
  .next <| if islandUp st then emit (.jtag ((idcode st).setWidth 128)) (modCmd (fun c => { c with jtagIr := 1 }) st) else st

/-- IEEE_1149_1_INSTRUCTION: loaded at level 1 or above. -/
def execIeee1149Instruction (ir : BitVec 16) (st : State) : Outcome :=
  .next <| if islandUp st && decide (1 ≤ st.cmd.jtagLevel.toNat) then modCmd (fun c => { c with jtagIr := ir }) st else st

end Sys2Proof.Machine
end

