-- ==== Sys2Proof/Machine/Dispatch.lean ====
section
/-! DEFINITION. One arm per command: a direct call of its meaning. -/

namespace Sys2Proof.Machine

/-- The effect of a command on everything but the queue of waiting commands. -/
def exec (i : Instr) (s : State) : Host.Outcome State Fault Refusal :=
  match i with
  | .registerWrite path off val => Sys2Proof.Machine.execRegisterWrite path off val s
  | .rcCounterRead path off upd => Sys2Proof.Machine.execRcCounterRead path off upd s
  | .pcieConfigRequest port write reg val => Sys2Proof.Machine.execPcieConfigRequest port write reg val s
  | .pcieMemoryRequest port bar write off dws => Sys2Proof.Machine.execPcieMemoryRequest port bar write off dws s
  | .sqTail r tail => Sys2Proof.Machine.execSqTail r tail s
  | .cqHead r head => Sys2Proof.Machine.execCqHead r head s
  | .abort r tag => Sys2Proof.Machine.execAbort r tag s
  | .commandStepTurn => Sys2Proof.Machine.execCommandStepTurn s
  | .nop r h => Sys2Proof.Machine.execNop r h s
  | .clear r h count dieMask tcMask fabric => Sys2Proof.Machine.execClear r h count dieMask tcMask fabric s
  | .drainMarkerReached p sd q => Sys2Proof.Machine.execDrainMarkerReached p sd q s
  | .drainLimitTimeout => Sys2Proof.Machine.execDrainLimitTimeout s
  | .groupCreate r h len last ofs => Sys2Proof.Machine.execGroupCreate r h len last ofs s
  | .groupDelete r h group => Sys2Proof.Machine.execGroupDelete r h group s
  | .groupStop r h group step => Sys2Proof.Machine.execGroupStop r h group step s
  | .groupResume r h group => Sys2Proof.Machine.execGroupResume r h group s
  | .shardLoad r h die first count => Sys2Proof.Machine.execShardLoad r h die first count s
  | .shardSave r h die first count => Sys2Proof.Machine.execShardSave r h die first count s
  | .scrubPass r h stack => Sys2Proof.Machine.execScrubPass r h stack s
  | .selfTest r h cls unit => Sys2Proof.Machine.execSelfTest r h cls unit s
  | .windthrow r h => Sys2Proof.Machine.execWindthrow r h s
  | .windthrowFreeze => Sys2Proof.Machine.execWindthrowFreeze s
  | .portRetrain r h port mask => Sys2Proof.Machine.execPortRetrain r h port mask s
  | .imageUpdate r h copy len => Sys2Proof.Machine.execImageUpdate r h copy len s
  | .regRead r h off => Sys2Proof.Machine.execRegRead r h off s
  | .regWrite r h off val => Sys2Proof.Machine.execRegWrite r h off val s
  | .setAddr target addr pecOk => Sys2Proof.Machine.execSetAddr target addr pecOk s
  | .read target pecOk => Sys2Proof.Machine.execRead target pecOk s
  | .write target val pecOk => Sys2Proof.Machine.execWrite target val pecOk s
  | .status target pecOk => Sys2Proof.Machine.execStatus target pecOk s
  | .sstepGo => Sys2Proof.Machine.execSstepGo s
  | .busMasterEnableClear => Sys2Proof.Machine.execBusMasterEnableClear s
  | .busMasterEnableSet => Sys2Proof.Machine.execBusMasterEnableSet s
  | .functionLevelReset => Sys2Proof.Machine.execFunctionLevelReset s
  | .command src entry => Sys2Proof.Machine.execCommand src entry s
  | .completion comp => Sys2Proof.Machine.execCompletion comp s
  | .unlock level sig => Sys2Proof.Machine.execUnlock level sig s
  | .bypass => Sys2Proof.Machine.execBypass s
  | .idcode => Sys2Proof.Machine.execIdcode s
  | .ieee1149Instruction ir => Sys2Proof.Machine.execIeee1149Instruction ir s
  | .controlSlotSend p sd => Sys2Proof.Machine.execControlSlotSend p sd s
  | .controlSlotReceived p sd slot => Sys2Proof.Machine.execControlSlotReceived p sd slot s
  | .flitTransmit p sd => Sys2Proof.Machine.execFlitTransmit p sd s
  | .flitReceived p sd flit errs again => Sys2Proof.Machine.execFlitReceived p sd flit errs again s
  | .ackDeadlineMiss p sd => Sys2Proof.Machine.execAckDeadlineMiss p sd s
  | .cLossTimeout p sd => Sys2Proof.Machine.execCLossTimeout p sd s
  | .rotationRequest p sd lane alignLost => Sys2Proof.Machine.execRotationRequest p sd lane alignLost s
  | .ringRecalibrationSchedule p sd lane => Sys2Proof.Machine.execRingRecalibrationSchedule p sd lane s
  | .ringRecalibrationDone p sd lane ok => Sys2Proof.Machine.execRingRecalibrationDone p sd lane ok s
  | .cDetected p sd => Sys2Proof.Machine.execCDetected p sd s
  | .trainingStepDone p sd eq => Sys2Proof.Machine.execTrainingStepDone p sd eq s
  | .trainingStepTimeout p sd => Sys2Proof.Machine.execTrainingStepTimeout p sd s
  | .ts1 p sd ptype strand breakout spUsable => Sys2Proof.Machine.execTs1 p sd ptype strand breakout spUsable s
  | .ts2 p sd credits depth version => Sys2Proof.Machine.execTs2 p sd credits depth version s
  | .assignAck p sd echo => Sys2Proof.Machine.execAssignAck p sd echo s
  | .coord p sd peer pport pstrand fabricId => Sys2Proof.Machine.execCoord p sd peer pport pstrand fabricId s
  | .ready p sd state => Sys2Proof.Machine.execReady p sd state s
  | .refuse p sd reason => Sys2Proof.Machine.execRefuse p sd reason s
  | .downRetry p sd => Sys2Proof.Machine.execDownRetry p sd s
  | .portWaveBegin w => Sys2Proof.Machine.execPortWaveBegin w s
  | .idleEntry p sd => Sys2Proof.Machine.execIdleEntry p sd s
  | .idleExit p sd => Sys2Proof.Machine.execIdleExit p sd s
  | .requestDoze p => Sys2Proof.Machine.execRequestDoze p s
  | .requestDark p => Sys2Proof.Machine.execRequestDark p s
  | .wake p => Sys2Proof.Machine.execWake p s
  | .wakePatternDetected p sd periods => Sys2Proof.Machine.execWakePatternDetected p sd periods s
  | .dozeLightWake p sd => Sys2Proof.Machine.execDozeLightWake p sd s
  | .syncSend p sd => Sys2Proof.Machine.execSyncSend p sd s
  | .announceSend p sd => Sys2Proof.Machine.execAnnounceSend p sd s
  | .delayReqSend => Sys2Proof.Machine.execDelayReqSend s
  | .delayReq p sd m => Sys2Proof.Machine.execDelayReq p sd m s
  | .sync p sd m => Sys2Proof.Machine.execSync p sd m s
  | .delayResp p sd m => Sys2Proof.Machine.execDelayResp p sd m s
  | .announce p sd m leap => Sys2Proof.Machine.execAnnounce p sd m leap s
  | .upstreamLost => Sys2Proof.Machine.execUpstreamLost s
  | .holdoverTraceExpiry => Sys2Proof.Machine.execHoldoverTraceExpiry s
  | .holdoverExit => Sys2Proof.Machine.execHoldoverExit s
  | .registrationRequest qs ws => Sys2Proof.Machine.execRegistrationRequest qs ws s
  | .registrationAnswer p sd a => Sys2Proof.Machine.execRegistrationAnswer p sd a s
  | .registrationResend p sd => Sys2Proof.Machine.execRegistrationResend p sd s
  | .withdrawal ws => Sys2Proof.Machine.execWithdrawal ws s
  | .packetHeadArrival p sd vc => Sys2Proof.Machine.execPacketHeadArrival p sd vc s
  | .packetTailArrival p sd vc => Sys2Proof.Machine.execPacketTailArrival p sd vc s
  | .gladeAdmission d => Sys2Proof.Machine.execGladeAdmission d s
  | .losslessAdmit d => Sys2Proof.Machine.execLosslessAdmit d s
  | .multicastAdmission d => Sys2Proof.Machine.execMulticastAdmission d s
  | .bridgeCreditReturn src dst vc => Sys2Proof.Machine.execBridgeCreditReturn src dst vc s
  | .vcGrant p sd => Sys2Proof.Machine.execVcGrant p sd s
  | .queueGrant p sd vc => Sys2Proof.Machine.execQueueGrant p sd vc s
  | .ageSweep p sd q => Sys2Proof.Machine.execAgeSweep p sd q s
  | .shaperCreditZero p sd q => Sys2Proof.Machine.execShaperCreditZero p sd q s
  | .depthSample d => Sys2Proof.Machine.execDepthSample d s
  | .rejoin p sd => Sys2Proof.Machine.execRejoin p sd s
  | .reducerMatchingRound d => Sys2Proof.Machine.execReducerMatchingRound d s
  | .fabricPhaseMessage m => Sys2Proof.Machine.execFabricPhaseMessage m s
  | .phaseAck worker phase => Sys2Proof.Machine.execPhaseAck worker phase s
  | .phaseLimitTimeout worker => Sys2Proof.Machine.execPhaseLimitTimeout worker s
  | .clearRevert => Sys2Proof.Machine.execClearRevert s
  | .rtWinCtlWrite val => Sys2Proof.Machine.execRtWinCtlWrite val s
  | .rtWinDataWrite k val => Sys2Proof.Machine.execRtWinDataWrite k val s
  | .auditSnap d => Sys2Proof.Machine.execAuditSnap d s
  | .shaperWrite d ix val => Sys2Proof.Machine.execShaperWrite d ix val s
  | .policerWrite d j k val => Sys2Proof.Machine.execPolicerWrite d j k val s
  | .histClr d h => Sys2Proof.Machine.execHistClr d h s
  | .histQueueChange d h q => Sys2Proof.Machine.execHistQueueChange d h q s
  | .contextAllocation a => Sys2Proof.Machine.execContextAllocation a s
  | .allocationAnswer group sw status crc point vcw => Sys2Proof.Machine.execAllocationAnswer group sw status crc point vcw s
  | .allocationTimeout group => Sys2Proof.Machine.execAllocationTimeout group s
  | .commit group lapsed => Sys2Proof.Machine.execCommit group lapsed s
  | .release group => Sys2Proof.Machine.execRelease group s
  | .reservationExpiry slot => Sys2Proof.Machine.execReservationExpiry slot s
  | .stepStart x => Sys2Proof.Machine.execStepStart x s
  | .rootStepOpen slot => Sys2Proof.Machine.execRootStepOpen slot s
  | .stepOpen x => Sys2Proof.Machine.execStepOpen x s
  | .window x => Sys2Proof.Machine.execWindow x s
  | .stepEnd x => Sys2Proof.Machine.execStepEnd x s
  | .stop x => Sys2Proof.Machine.execStop x s
  | .fail x => Sys2Proof.Machine.execFail x s
  | .chunkContribution x => Sys2Proof.Machine.execChunkContribution x s
  | .resultPassDown x => Sys2Proof.Machine.execResultPassDown x s
  | .stepTimerExpiry slot => Sys2Proof.Machine.execStepTimerExpiry slot s
  | .emitGrant ix => Sys2Proof.Machine.execEmitGrant ix s
  | .fanGrant ix => Sys2Proof.Machine.execFanGrant ix s
  | .reductionDieLost x cause => Sys2Proof.Machine.execReductionDieLost x cause s
  | .rehomeDone x => Sys2Proof.Machine.execRehomeDone x s
  | .nopInstruction ix => Sys2Proof.Machine.execNopInstruction ix s
  | .waitComplete ix => Sys2Proof.Machine.execWaitComplete ix s
  | .waitPrev ix => Sys2Proof.Machine.execWaitPrev ix s
  | .waitRelease ix => Sys2Proof.Machine.execWaitRelease ix s
  | .acc ix chk => Sys2Proof.Machine.execAcc ix chk s
  | .accx ix chk => Sys2Proof.Machine.execAccx ix chk s
  | .scl ix chk => Sys2Proof.Machine.execScl ix chk s
  | .cast ix chk => Sys2Proof.Machine.execCast ix chk s
  | .emit ix => Sys2Proof.Machine.execEmit ix s
  | .fan ix => Sys2Proof.Machine.execFan ix s
  | .lds ix => Sys2Proof.Machine.execLds ix s
  | .ldsComplete ix uc => Sys2Proof.Machine.execLdsComplete ix uc s
  | .sts ix => Sys2Proof.Machine.execSts ix s
  | .stsComplete ix => Sys2Proof.Machine.execStsComplete ix s
  | .upd ix chk => Sys2Proof.Machine.execUpd ix chk s
  | .norm ix chk => Sys2Proof.Machine.execNorm ix chk s
  | .dig ix => Sys2Proof.Machine.execDig ix s
  | .bar ix => Sys2Proof.Machine.execBar ix s
  | .seed ix => Sys2Proof.Machine.execSeed ix s
  | .endWord ix => Sys2Proof.Machine.execEndWord ix s
  | .programStoreWrite a w => Sys2Proof.Machine.execProgramStoreWrite a w s
  | .pstepEnWrite x val => Sys2Proof.Machine.execPstepEnWrite x val s
  | .pstepGo x => Sys2Proof.Machine.execPstepGo x s
  | .twinWrite x => Sys2Proof.Machine.execTwinWrite x s
  | .groupReroot group height => Sys2Proof.Machine.execGroupReroot group height s
  | .paceInstant slot => Sys2Proof.Machine.execPaceInstant slot s
  | .stepEndRelease slot step => Sys2Proof.Machine.execStepEndRelease slot step s
  | .paceLapseTemperature die temp => Sys2Proof.Machine.execPaceLapseTemperature die temp s
  | .dieMarked m memDie => Sys2Proof.Machine.execDieMarked m memDie s
  | .rowSpare m row corrected previous => Sys2Proof.Machine.execRowSpare m row corrected previous s
  | .rowSpareDone m row => Sys2Proof.Machine.execRowSpareDone m row s
  | .patrolScrubSlot m r contended => Sys2Proof.Machine.execPatrolScrubSlot m r contended s
  | .scrubLate m => Sys2Proof.Machine.execScrubLate m s
  | .sramScrub x ofs r place => Sys2Proof.Machine.execSramScrub x ofs r place s
  | .stackLost m cause => Sys2Proof.Machine.execStackLost m cause s
  | .ringRebuilt k => Sys2Proof.Machine.execRingRebuilt k s
  | .poolRequest q need => Sys2Proof.Machine.execPoolRequest q need s
  | .poolFree q pool idx => Sys2Proof.Machine.execPoolFree q pool idx s
  | .cacheRefill k r => Sys2Proof.Machine.execCacheRefill k r s
  | .cacheWriteback k => Sys2Proof.Machine.execCacheWriteback k s
  | .bpmSnap => Sys2Proof.Machine.execBpmSnap s
  | .timeSetApply => Sys2Proof.Machine.execTimeSetApply s
  | .ppsEdge => Sys2Proof.Machine.execPpsEdge s
  | .syncInLost pin => Sys2Proof.Machine.execSyncInLost pin s
  | .syncInRestored pin => Sys2Proof.Machine.execSyncInRestored pin s
  | .leapTakeEffect => Sys2Proof.Machine.execLeapTakeEffect s
  | .syncOutEdge pin matched => Sys2Proof.Machine.execSyncOutEdge pin matched s
  | .rearm => Sys2Proof.Machine.execRearm s
  | .nowLoRead path => Sys2Proof.Machine.execNowLoRead path s
  | .resetRelease straps railsOk mb0Up mb1Up => Sys2Proof.Machine.execResetRelease straps railsOk mb0Up mb1Up s
  | .flashDiscoveryDone f => Sys2Proof.Machine.execFlashDiscoveryDone f s
  | .imageCopyCheck c f other => Sys2Proof.Machine.execImageCopyCheck c f other s
  | .overrideWindowClose => Sys2Proof.Machine.execOverrideWindowClose s
  | .startHoldTimeout => Sys2Proof.Machine.execStartHoldTimeout s
  | .coordOvrWrite path val => Sys2Proof.Machine.execCoordOvrWrite path val s
  | .startHoldClear => Sys2Proof.Machine.execStartHoldClear s
  | .managerHeartbeatSend => Sys2Proof.Machine.execManagerHeartbeatSend s
  | .managerHeartbeat sender senderId m => Sys2Proof.Machine.execManagerHeartbeat sender senderId m s
  | .managerAssumed => Sys2Proof.Machine.execManagerAssumed s
  | .devReset key => Sys2Proof.Machine.execDevReset key s
  | .go c => Sys2Proof.Machine.execGo c s
  | .stopChannel c => Sys2Proof.Machine.execStopChannel c s
  | .dmaStagingGrant c => Sys2Proof.Machine.execDmaStagingGrant c s
  | .dmaBeat res => Sys2Proof.Machine.execDmaBeat res s
  | .dmaElementDone c => Sys2Proof.Machine.execDmaElementDone c s
  | .rdResp c seq status data => Sys2Proof.Machine.execRdResp c seq status data s
  | .wrAck c seq status => Sys2Proof.Machine.execWrAck c seq status s
  | .remoteResponseTimeout c seq => Sys2Proof.Machine.execRemoteResponseTimeout c seq s
  | .fatalCause cause => Sys2Proof.Machine.execFatalCause cause s
  | .thermtrip die => Sys2Proof.Machine.execThermtrip die s
  | .supplyFault => Sys2Proof.Machine.execSupplyFault s
  | .mbTakeover => Sys2Proof.Machine.execMbTakeover s
  | .mirrorHeartbeatSend => Sys2Proof.Machine.execMirrorHeartbeatSend s
  | .standbyLost => Sys2Proof.Machine.execStandbyLost s
  | .dieFenced d cause => Sys2Proof.Machine.execDieFenced d cause s
  | .laserLost e j => Sys2Proof.Machine.execLaserLost e j s
  | .engineLost e => Sys2Proof.Machine.execEngineLost e s
  | .arm val => Sys2Proof.Machine.execArm val s
  | .disarm => Sys2Proof.Machine.execDisarm s
  | .injKey key => Sys2Proof.Machine.execInjKey key s
  | .eventForward rec => Sys2Proof.Machine.execEventForward rec s
  | .rdSeq path seq => Sys2Proof.Machine.execRdSeq path seq s
  | .evrClear path key => Sys2Proof.Machine.execEvrClear path key s
  | .clearFlash path key => Sys2Proof.Machine.execClearFlash path key s
  | .recordProgramDone ok => Sys2Proof.Machine.execRecordProgramDone ok s
  | .sectorErase => Sys2Proof.Machine.execSectorErase s
  | .sectorEraseDone ok => Sys2Proof.Machine.execSectorEraseDone ok s
  | .eventRegionScanDone scan => Sys2Proof.Machine.execEventRegionScanDone scan s
  | .opTime => Sys2Proof.Machine.execOpTime s
  | .requestRun => Sys2Proof.Machine.execRequestRun s
  | .requestQuiet => Sys2Proof.Machine.execRequestQuiet s
  | .requestHold => Sys2Proof.Machine.execRequestHold s
  | .voteTimeout k => Sys2Proof.Machine.execVoteTimeout k s
  | .domainStop k => Sys2Proof.Machine.execDomainStop k s
  | .wantOff k off => Sys2Proof.Machine.execWantOff k off s
  | .wakeSource bit => Sys2Proof.Machine.execWakeSource bit s
  | .pointWrite pt => Sys2Proof.Machine.execPointWrite pt s
  | .rampEnd => Sys2Proof.Machine.execRampEnd s
  | .cntClear key => Sys2Proof.Machine.execCntClear key s
  | .freeze on => Sys2Proof.Machine.execFreeze on s
  | .byteCounterRead path off => Sys2Proof.Machine.execByteCounterRead path off s
  | .resLoRead path k => Sys2Proof.Machine.execResLoRead path k s
  | .traceEvent b point key fields again => Sys2Proof.Machine.execTraceEvent b point key fields again s
  | .drainGo b => Sys2Proof.Machine.execDrainGo b s
  | .dbgAuditSnap => Sys2Proof.Machine.execDbgAuditSnap s
  | .laserModulePoll e j reply => Sys2Proof.Machine.execLaserModulePoll e j reply s
  | .resetAsserted pwrok => Sys2Proof.Machine.execResetAsserted pwrok s
  | .vaux3v3Loss => Sys2Proof.Machine.execVaux3v3Loss s
  | .domainVoteAnswer k => Sys2Proof.Machine.execDomainVoteAnswer k s
  | .returnToRun => Sys2Proof.Machine.execReturnToRun s
  | .shardLostReport group => Sys2Proof.Machine.execShardLostReport group s

end Sys2Proof.Machine
end

