-- ==== Sys2Proof/Safety.lean ====
section
/-! DEFINITION. What counts as a safe run: the memories stay in their one canonical form, and a device that is held in reset or in the
fault state stays down until RESET_RELEASE. -/

namespace Sys2Proof.Machine

/-- The memories are in their canonical form: addresses strictly rising, and no entry equal to what an unlisted address reads as. -/
def Memory.wf (m : MemStore) : Bool := tblOk 0 0 m.host && tblOk 0 0 m.dram && tblOk 0 0 m.sram && tblOk {} 0 m.shard

/-- The Skarad is down: held in reset, or in the fault state (R361, R416). -/
def down (s : State) : Bool := s.rst.held || s.flt.fatal

/-- The command with which a Skarad comes back (R361). -/
def isRelease (i : Instr) : Bool := match i with | .resetRelease _ _ _ _ => true | _ => false

/-- The rows that stand for the end of a time the spec gives, or for an instant of fabric time: they bring the clock to it (log entry 35). -/
def isInstant (i : Instr) : Bool :=
  match i with
  | .drainLimitTimeout | .windthrowFreeze | .ackDeadlineMiss _ _ | .portWaveBegin _ | .idleEntry _ _ | .upstreamLost | .holdoverTraceExpiry | .holdoverExit => true
  | .registrationResend _ _ | .rejoin _ _ | .phaseLimitTimeout _ | .clearRevert | .allocationTimeout _ | .reservationExpiry _ | .stepTimerExpiry _ => true
  | .paceInstant _ | .stepEndRelease _ _ | .scrubLate _ | .leapTakeEffect | .imageCopyCheck _ _ _ | .overrideWindowClose | .startHoldTimeout => true
  | .managerAssumed | .remoteResponseTimeout _ _ | .sectorErase | .voteTimeout _ | .rampEnd | .syncOutEdge _ _ => true
  | _ => false

/-- Ring r, one of 0 to 7, is idle, and the command processor can take a command on it and post its completion at once (R381, R387, R390). -/
def idleRing (s : State) (r : Nat) : Bool :=
  mgmtUp s && !s.cmd.halted && !s.cmd.sstep && !procBusy s && decide (r < 8) && (ringOf s r).cur.isNone && s.cmd.bme && s.cmd.heldComps.isEmpty && slotThere (ringOf s r) &&
    (List.range 4).all (fun x => (redOf s x).locks.all fun l => l.1 != r) && s.cmd.forwarded.all (fun f => f.2.1 != r) && s.dbg.windRing != some r

/-- Ring r is idle in t, and its completion is the one that t's host memory has beyond that of s (R383): at CQ_TAIL, with the given fields. -/
def completed (s t : State) (r : Nat) (h : CmdHdr) (status : BitVec 16) (dones total : Nat) : Prop :=
  (ringOf t r).cur = none ∧ (ringOf t r).cqTail = (ringOf s r).cqTail + 1 ∧
    t.mem.host = wrBytes s.mem.host ((ringOf s r).cqBase.toNat + 16 * (ringOf s r).cqTail.toNat)
      (bytesLE 4 h.tag.toNat ++ bytesLE 2 status.toNat ++ [BitVec.ofNat 8 (b2n (ringOf s r).phase), BitVec.ofNat 8 r] ++ bytesLE 4 dones ++ bytesLE 4 total)

end Sys2Proof.Machine
end

