-- ==== Sys2Proof/Certificates/Slice0/Obligations.lean ====
section
/-! DEFINITION. The statements about the block, for the provers: each formalises rules of the spec, or says what the model as a whole keeps. -/

open Sys2Proof Sys2Proof.Machine

/-- A step takes the command at the front of the queue and runs it on the state with the queue's rest; on an empty queue one
nanosecond passes (the model's choice, log entry 1). -/
def Obligations.StepTakesTheFront : Prop :=
  (∀ (c : Instr) (rest : List Instr) (s : State), s.pending = c :: rest → Sys2Proof.Machine.step s = Sys2Proof.Machine.exec c { s with pending := rest }) ∧
  (∀ s : State, s.pending = [] → Sys2Proof.Machine.step s = .next { s with clock := s.clock + 1 })

/-- The reset values that the register tables give (R71, R130, R325, R349), the free cells of R136, and an empty queue. -/
def Obligations.ResetRegisters : Prop :=
  down State.reset = true ∧ State.reset.pending = [] ∧ State.reset.out = [] ∧ State.reset.mem = { host := [], dram := [], sram := [], shard := [] } ∧
  peek .pcie State.reset 0x100204 = 0x280007D0 ∧ peek .pcie State.reset 0x50034 = 0x0E1003E8 ∧
  (∀ p : Port, peek .pcie State.reset (0x400000 + 0x1000 * p.val + 0x40) = 2000) ∧
  (∀ m : Fin 8, peek .pcie State.reset (0x900000 + 0x1000 * m.val) = 0x0F000000 ∧ peek .pcie State.reset (0x900000 + 0x1000 * m.val + 0xC) = 0x08000000 ∧
    peek .pcie State.reset (0x900000 + 0x1000 * m.val + 0x10) = 0x80000000) ∧
  (∀ d : Fin 4, (swcOf State.reset d.val).free = 786432)

/-- Every command leaves the queue and the fuses as they are and never sets the clock back; only the rows that stand for an instant move it (log
entry 35, the model's choice). What has been sent to the outside is never taken back. -/
def Obligations.CommandsKeepQueueAndFuses : Prop :=
  ∀ (c : Instr) (s t : State), Sys2Proof.Machine.exec c s = .next t →
    t.pending = s.pending ∧ s.clock ≤ t.clock ∧ (isInstant c = false → t.clock = s.clock) ∧ t.fuses = s.fuses ∧ s.out <:+ t.out ∧ s.free ≤ t.free

/-- The memories keep their canonical form at every step, from every state that has it. -/
def Obligations.StepKeepsMemoryCanonical : Prop :=
  ∀ s t : State, Memory.wf s.mem = true → Sys2Proof.Machine.step s = .next t → Memory.wf t.mem = true

/-- R417: the fault state is left only by reset; and a Skarad held in reset comes up by RESET_RELEASE alone. -/
def Obligations.DownUntilRelease : Prop :=
  (∀ (c : Instr) (s t : State), isRelease c = false → down s = true → Sys2Proof.Machine.exec c s = .next t → down t = true) ∧
  (∀ s t : State, (∀ c rest, s.pending = c :: rest → isRelease c = false) → down s = true → Sys2Proof.Machine.step s = .next t → down t = true)

/-- R8, R379: SET_ADDR, READ, WRITE and STATUS at the address of this target, the NACK of a wrong PEC, and another target's transactions. -/
def Obligations.SmbusCommands : Prop :=
  ∀ s : State, mgmtUp s = true → ∀ d : BitVec 7,
    (d = (if s.rst.addrSel then 0x5B else 0x5A) →
      (∀ a, Sys2Proof.Machine.exec (.setAddr d a true) s = .next (emit .smbAck { s with cmd := { s.cmd with smbOff := a, smbReset := false } })) ∧
      (s.cmd.smbOff.toNat % 4 = 0 → reachOf s s.cmd.smbOff.toNat = .ok → ∃ t, Sys2Proof.Machine.exec (.read d true) s = .next t ∧
        t.out.head? = some (.smbData (peek .smbus (beforeRead s.cmd.smbOff.toNat s) s.cmd.smbOff.toNat)) ∧ t.cmd.smbLive = true ∧ t.cmd.smbDomOff = false ∧
        t.cmd.smbOff = s.cmd.smbOff + 4 ∧ t.mem = s.mem ∧ t.links = s.links ∧ t.ctxs = s.ctxs ∧ t.queues = s.queues) ∧
      (∀ v, ∃ t, Sys2Proof.Machine.exec (.write d v true) s = .next t ∧ t.out.head? = some .smbAck ∧
        (s.cmd.smbOff = 0x50020 → t = { s with tim := { s.tim with setLo := v }, cmd := t.cmd, out := t.out } ∧ t.cmd.smbLive = true ∧ t.cmd.smbOff = 0x50024) ∧
        (reachOf s s.cmd.smbOff.toNat = .none → t = { s with cmd := t.cmd, out := .smbAck :: s.out } ∧ t.cmd.smbLive = false ∧ t.cmd.smbDomOff = false ∧
          t.cmd.smbOff = s.cmd.smbOff + 4)) ∧
      (Sys2Proof.Machine.exec (.status d true) s = .next (emit (.smbData (regWord [(0, b2n s.cmd.smbLive), (1, b2n s.cmd.smbDomOff), (2, b2n s.cmd.smbReset)])) s)) ∧
      (∀ a v, Sys2Proof.Machine.exec (.setAddr d a false) s = .next (emit .smbNack s) ∧
        Sys2Proof.Machine.exec (.read d false) s = .next (emit .smbNack s) ∧
        Sys2Proof.Machine.exec (.write d v false) s = .next (emit .smbNack s) ∧
        Sys2Proof.Machine.exec (.status d false) s = .next (emit .smbNack s))) ∧
    (d ≠ (if s.rst.addrSel then 0x5B else 0x5A) → ∀ a v ok, Sys2Proof.Machine.exec (.setAddr d a ok) s = .next s ∧ Sys2Proof.Machine.exec (.read d ok) s = .next s ∧
      Sys2Proof.Machine.exec (.write d v ok) s = .next s ∧ Sys2Proof.Machine.exec (.status d ok) s = .next s)

/-- R5: a write of an RW field sets its value; reserved bits keep reading 0; and no other state changes. -/
def Obligations.RegistersHoldWhatIsWritten : Prop :=
  (∀ (path : Path) (v : Word) (s : State), mgmtUp s = true → pathOpen s path = true →
    ∀ r ∈ [(0x30208, 0xFFFFFFFF), (0x30004, 0x3), (0x50020, 0xFFFFFFFF), (0x50024, 0xFFFFFFFF), (0x50034, 0xFFFFFFFF), (0x90004, 0xC0000FFF), (0x90008, 0xC003FFFF),
        (0x2000C, 0x7)],
      ∃ t, Sys2Proof.Machine.exec (.registerWrite path (BitVec.ofNat 25 r.1) v) s = .next t ∧ peek path t r.1 = v &&& BitVec.ofNat 32 r.2 ∧
        t = { s with flt := t.flt, tim := t.tim, dbg := t.dbg, pwr := t.pwr } ∧
        (r.1 < 0x30000 ∨ t.pwr = s.pwr) ∧ (0x30000 ≤ r.1 ∧ r.1 < 0x40000 ∨ t.flt = s.flt) ∧ (0x50000 ≤ r.1 ∧ r.1 < 0x60000 ∨ t.tim = s.tim) ∧
        (0x90000 ≤ r.1 ∨ t.dbg = s.dbg)) ∧
  (∀ (off : Off) (v : Word) (s : State), s.cmd.jtagLevel ≠ 2 → Sys2Proof.Machine.exec (.registerWrite .jtag off v) s = .next s)

/-- R7: a read of an RC counter that coincides with an update returns the old value, clears it, and leaves exactly the update. -/
def Obligations.ReadClearCounters : Prop :=
  ∀ (path : Path) (upd : Word) (s : State), mgmtUp s = true → pathOpen s path = true →
    (∀ (p : Port) (i : Fin 20), domOn s (domPort p.val) = true →
      ∃ t, Sys2Proof.Machine.exec (.rcCounterRead path (BitVec.ofNat 25 (0x400000 + 0x1000 * p.val + (0x100 + 4 * i.val))) upd) s = .next t ∧
        t = { s with ports := t.ports, out := .readData path (tget 0 (portOf s p.val).cnt (0x100 + 4 * i.val)) :: s.out } ∧
        portOf t p.val = { portOf s p.val with cnt := (portOf t p.val).cnt } ∧ tget 0 (portOf t p.val).cnt (0x100 + 4 * i.val) = upd ∧
        (∀ o, o ≠ 0x100 + 4 * i.val → tget 0 (portOf t p.val).cnt o = tget 0 (portOf s p.val).cnt o) ∧ (∀ q, q ≠ p.val → portOf t q = portOf s q)) ∧
    (∀ (m : Stack) (i : Fin 4), domOn s (domQuad (m.val / 2) 0) = true →
      ∃ t, Sys2Proof.Machine.exec (.rcCounterRead path (BitVec.ofNat 25 (0x900000 + 0x1000 * m.val + (0x100 + 4 * i.val))) upd) s = .next t ∧
        t = { s with stackTbl := t.stackTbl, out := .readData path (tget 0 (stackOf s m.val).cnt (0x100 + 4 * i.val)) :: s.out } ∧
        tget 0 (stackOf t m.val).cnt (0x100 + 4 * i.val) = upd ∧
        (∀ o, o ≠ 0x100 + 4 * i.val → tget 0 (stackOf t m.val).cnt o = tget 0 (stackOf s m.val).cnt o)) ∧
    Sys2Proof.Machine.exec (.rcCounterRead path 0x30010 upd) s = .next
      (emit (.readData path s.flt.ceCount) { s with flt := { s.flt with ceCount := upd } }) ∧
    Sys2Proof.Machine.exec (.rcCounterRead path 0x30014 upd) s = .next
      (emit (.readData path s.flt.ucCount) { s with flt := { s.flt with ucCount := upd } })

/-- R348, R456, R457: a read of a low word latches the higher ones. -/
def Obligations.LatchedReads : Prop :=
  ∀ (path : Path) (s : State), mgmtUp s = true →
    (Sys2Proof.Machine.exec (.nowLoRead path) s = .next
      (emit (.readData path ((fabNs s).setWidth 32)) { s with tim := { s.tim with latch := fabT s } })) ∧
    (∀ t, Sys2Proof.Machine.exec (.nowLoRead path) s = .next t → peek path t 0x50008 = (fabNs s).extractLsb' 32 32 ∧
      peek path t 0x5000C = ((fabT s).setWidth 16).setWidth 32) ∧
    (∀ k : Fin 4, ∃ t, Sys2Proof.Machine.exec (.resLoRead path k) s = .next t ∧ t = { s with pwr := t.pwr, out := .readData path (BitVec.ofNat 32 (resMs s k)) :: s.out } ∧
      t.pwr = { s.pwr with resLatch := t.pwr.resLatch } ∧ tget 0 t.pwr.resLatch k.val = BitVec.ofNat 32 (resMs s k / 2 ^ 32)) ∧
    (∀ (d : FabDie) (x : Fin 2), let off := 0x90200 + 16 * d.val + 8 * x.val
      let n := tget 0 (visible s) (2 * d.val + x.val) % 2 ^ 64
      ∃ t u, Sys2Proof.Machine.exec (.byteCounterRead path (BitVec.ofNat 25 off)) s = .next t ∧
        t = { s with dbg := { s.dbg with latch := t.dbg.latch }, out := .readData path (BitVec.ofNat 32 n) :: s.out } ∧
        Sys2Proof.Machine.exec (.byteCounterRead path (BitVec.ofNat 25 (off + 4))) t = .next u ∧
        u.out = .readData path (BitVec.ofNat 32 (n / 2 ^ 32)) :: t.out ∧
        (∀ other o, pathNo other ≠ pathNo path → o < 4096 → tget 0 t.dbg.latch (ctrLatch other o) = tget 0 s.dbg.latch (ctrLatch other o)))

/-- R373: only the port of the active block completes requests; R372 and R377 for what it completes. -/
def Obligations.PcieRequests : Prop :=
  ∀ (port : MbId) (s : State), mgmtUp s = true → mbLive s port = true →
    (port = s.units.active → ∀ v, Sys2Proof.Machine.exec (.pcieConfigRequest port false 0 v) s = .next (emit (.pcieData port [0x534B1F8C]) s)) ∧
    (port ≠ s.units.active → ∀ wr reg v, Sys2Proof.Machine.exec (.pcieConfigRequest port wr reg v) s = .next (emit (.pcieRetry port) s)) ∧
    (port ≠ s.units.active → ∀ bar wr off dws, Sys2Proof.Machine.exec (.pcieMemoryRequest port bar wr off dws) s = .next (emit (.pcieUr port) s)) ∧
    (port = s.units.active → ∀ (off : Off) (d : Dword), off.toNat % 4 = 0 →
      Sys2Proof.Machine.exec (.pcieMemoryRequest port .bar2 false off [d]) s = .next (emit (.pcieData port [bar2Read s off.toNat]) s)) ∧
    (port = s.units.active → ∀ (r : Fin 8) (v : Word), ∃ t,
      Sys2Proof.Machine.exec (.pcieMemoryRequest port .bar2 true (BitVec.ofNat 25 (0x100 * r.val)) [⟨0xF, v⟩]) s = .next t ∧
      t = { s with cmd := { s.cmd with rings := t.cmd.rings } } ∧ ringOf t r.val = { ringOf s r.val with tail := v.setWidth 12 } ∧
      (∀ q, q ≠ r.val → ringOf t q = ringOf s q)) ∧
    (port = s.units.active → ∀ (off : Off) (d : Dword), d.be ≠ 0xF → Sys2Proof.Machine.exec (.pcieMemoryRequest port .bar2 true off [d]) s = .next s)

/-- R395: IDCODE, BYPASS, UNLOCK and the level; R393: remote COMMANDs are served as ring 8, in arrival order. -/
def Obligations.JtagAndMessages : Prop :=
  ∀ s : State,
    (islandUp s = true → Sys2Proof.Machine.exec .bypass s = .next { s with cmd := { s.cmd with jtagIr := 0xFFFF } }) ∧
    (islandUp s = true → ∃ t, Sys2Proof.Machine.exec .idcode s = .next t ∧ t = { s with cmd := { s.cmd with jtagIr := t.cmd.jtagIr }, out := t.out } ∧
      ∃ c : BitVec 128, t.out = .jtag c :: s.out ∧ fld c 0 1 = 1 ∧ fld c 1 11 = 0x4D7 ∧ fld c 12 16 = 0x534B ∧ fld c 28 4 = s.fuses.stepping.toNat % 16) ∧
    (∀ ir, islandUp s = true → Sys2Proof.Machine.exec (.ieee1149Instruction ir) s =
      .next (if s.cmd.jtagLevel = 0 then s else { s with cmd := { s.cmd with jtagIr := ir } })) ∧
    (mgmtUp s = true → ∀ level sig, s.fuses.jtagKey = none → Sys2Proof.Machine.exec (.unlock level sig) s = .next s) ∧
    (mgmtUp s = true → ∀ level sig key, s.fuses.jtagKey = some key → (level = 1 ∨ level = 2) → Config.tokenOk level s.cmd.nonce s.gctl.fabricId sig key = true →
      ∃ t, Sys2Proof.Machine.exec (.unlock level sig) s = .next t ∧ t.cmd.jtagLevel.toNat = level.toNat ∧ t.fuses = s.fuses ∧ t.mem = s.mem ∧ t.cmd.nonce = s.cmd.nonce) ∧
    (mgmtUp s = true → ∀ level sig key, s.fuses.jtagKey = some key → Config.tokenOk level s.cmd.nonce s.gctl.fabricId sig key = false →
      ∃ t, Sys2Proof.Machine.exec (.unlock level sig) s = .next t ∧ t.cmd.jtagLevel = s.cmd.jtagLevel ∧ t.mem = s.mem ∧ t.free = s.free + 2) ∧
    (mgmtUp s = true → ∀ src e, ∃ t, Sys2Proof.Machine.exec (.command src e) s = .next t ∧ t = { s with cmd := { s.cmd with rings := t.cmd.rings } } ∧
      ringOf t 8 = { ringOf s 8 with remote := (ringOf s 8).remote ++ [(src, e)] } ∧ (∀ r, r ≠ 8 → ringOf t r = ringOf s r)) ∧
    (∀ comp : BitVec 128, mgmtUp s = true → (∀ f ∈ s.cmd.forwarded, f.1 ≠ comp.extractLsb' 0 32) → Sys2Proof.Machine.exec (.completion comp) s = .next s) ∧
    (∀ (comp : BitVec 128) (r : Fin 8) (c : RunCmd) (x : Word × Nat × Nat), mgmtUp s = true → (s.cmd.forwarded.find? fun f => f.1 == comp.extractLsb' 0 32) = some x →
      x.2.1 = r.val → (ringOf s r.val).cur = some c → s.cmd.bme = false → s.cmd.heldComps.length < 64 → (∀ d < 4, ∀ l ∈ (redOf s d).locks, l.1 ≠ r.val) →
      ∃ t, Sys2Proof.Machine.exec (.completion comp) s = .next t ∧ t.mem = s.mem ∧ t.ctxs = s.ctxs ∧ (ringOf t r.val).cur = none ∧
      (∀ q, q ≠ r.val → ringOf t q = ringOf s q) ∧ (∀ f ∈ t.cmd.forwarded, f.2.1 ≠ r.val) ∧
      ∃ h : HeldComp, t.cmd.heldComps = s.cmd.heldComps ++ [h] ∧ h.ring = r.val ∧ h.tag = c.hdr.tag ∧ h.status = comp.extractLsb' 32 16 ∧
        h.dones = comp.extractLsb' 64 32 ∧ h.total = comp.extractLsb' 96 32) ∧
    (∀ (comp : BitVec 128) (r : Fin 8) (c : RunCmd) (x : Word × Nat × Nat), mgmtUp s = true → (s.cmd.forwarded.find? fun f => f.1 == comp.extractLsb' 0 32) = some x →
      x.2.1 = r.val → (ringOf s r.val).cur = some c → s.cmd.bme = true → s.cmd.heldComps = [] → slotThere (ringOf s r.val) = true → (∀ d < 4, ∀ l ∈ (redOf s d).locks, l.1 ≠ r.val) →
      ∃ t, Sys2Proof.Machine.exec (.completion comp) s = .next t ∧ (ringOf t r.val).cur = none ∧ (ringOf t r.val).cqTail = (ringOf s r.val).cqTail + 1 ∧
        t.mem.host = wrBytes s.mem.host ((ringOf s r.val).cqBase.toNat + 16 * (ringOf s r.val).cqTail.toNat)
          (bytesLE 4 c.hdr.tag.toNat ++ bytesLE 2 (fld comp 32 16) ++ [BitVec.ofNat 8 (b2n (ringOf s r.val).phase), BitVec.ofNat 8 r.val] ++ bytesLE 4 (fld comp 64 32) ++ bytesLE 4 (fld comp 96 32)))

/-- R458: FREEZE holds what is visible at one instant while counting goes on; CLEAR is applied before a change of FREEZE. -/
def Obligations.FreezeHoldsTheCounters : Prop :=
  ∀ s : State, mgmtUp s = true →
    (∃ t, Sys2Proof.Machine.exec (.freeze true) s = .next t ∧ t = { s with dbg := { s.dbg with shown := t.dbg.shown } } ∧ t.dbg.shown.isSome = true ∧ visible t = visible s ∧
      (∀ key n, visible (countBytes key n t) = visible s ∧ tget 0 (countBytes key n t).dbg.bytes key = tget 0 s.dbg.bytes key + n) ∧
      (∀ key n, mgmtUp (countBytes key n t) = true → ∃ u, Sys2Proof.Machine.exec (.freeze false) (countBytes key n t) = .next u ∧
        visible u = (countBytes key n t).dbg.bytes)) ∧
    (∃ t, Sys2Proof.Machine.exec (.freeze false) s = .next t ∧ t = { s with dbg := { s.dbg with shown := none } } ∧ visible t = s.dbg.bytes) ∧
    (∃ t, Sys2Proof.Machine.exec (.cntClear 0xC3) s = .next t ∧ t = { s with dbg := { s.dbg with bytes := [], shown := t.dbg.shown } } ∧
      (∀ key, tget 0 (visible t) key = 0) ∧ t.dbg.shown.isSome = s.dbg.shown.isSome) ∧
    (∀ key, key ≠ 0xC3 → Sys2Proof.Machine.exec (.cntClear key) s = .next s) ∧
    (∀ path on, pathOpen s path = true → ∃ t, Sys2Proof.Machine.exec (.registerWrite path 0x90100 (if on then 0xC3000003 else 0xC3000001)) s = .next t ∧
      t = { s with dbg := { s.dbg with bytes := [], shown := t.dbg.shown } } ∧ (∀ key, tget 0 (visible t) key = 0) ∧ t.dbg.shown.isSome = on)

/-- R459: what becomes of a trace event; R460: GO of DRAIN. -/
def Obligations.TraceBuffers : Prop :=
  (∀ (b : Fin 10) (point : Byte) (key : BitVec 24) (fields : List Byte) (again : Bool) (s : State), alive s = true → (b.val < 4 ∨ 8 ≤ b.val) →
    (traceOf s b.val).en = true → (traceOf s b.val).point = point → point.toNat ∈ pointOf b.val →
    let t0 := traceOf s b.val
    let w := matchBits point.toNat
    (t0.matchEn = true → w ≠ 0 → fld key 0 w ≠ fld t0.mtch 0 w → Sys2Proof.Machine.exec (.traceEvent b point key fields again) s = .next s) ∧
    ((t0.matchEn = false ∨ w = 0 ∨ fld key 0 w = fld t0.mtch 0 w) → ∃ t, Sys2Proof.Machine.exec (.traceEvent b point key fields again) s = .next t ∧
      t = { s with dbg := { s.dbg with traces := t.dbg.traces } } ∧ (∀ a, a ≠ b.val → traceOf t a = traceOf s a) ∧
      (again = true ∨ t0.frozen = true → traceOf t b.val = { t0 with lost := satAdd t0.lost 1 }) ∧
      (again = false → t0.frozen = false → t0.ents.length < 2048 →
        traceOf t b.val = { t0 with ents := t0.ents ++ [traceEntry s b.val point fields] } ∧ (traceEntry s b.val point fields).length = 32) ∧
      (again = false → t0.frozen = false → 2048 ≤ t0.ents.length → t0.mode = true →
        traceOf t b.val = { t0 with ents := t0.ents.drop 1 ++ [traceEntry s b.val point fields] }) ∧
      (again = false → t0.frozen = false → 2048 ≤ t0.ents.length → t0.mode = false → traceOf t b.val = { t0 with lost := satAdd t0.lost 1 }))) ∧
  (∀ (b : Fin 10) (s : State), mgmtUp s = true →
    let t0 := traceOf s b.val
    ((28 ≤ t0.chan.toNat ∨ t0.dest.toNat % 32 ≠ 0 ∨ t0.busy = true ∨ chanBusy (chanOf s t0.chan.toNat) = true) →
      ∃ t, Sys2Proof.Machine.exec (.drainGo b) s = .next t ∧ t = { s with dbg := { s.dbg with traces := t.dbg.traces } } ∧
        traceOf t b.val = { t0 with drainErr := true } ∧ (∀ a, a ≠ b.val → traceOf t a = traceOf s a)) ∧
    (t0.chan.toNat < 28 → t0.dest.toNat % 32 = 0 → t0.busy = false → chanBusy (chanOf s t0.chan.toNat) = false →
      ∃ t, Sys2Proof.Machine.exec (.drainGo b) s = .next t ∧ t = { s with dbg := { s.dbg with traces := t.dbg.traces }, dma := t.dma, bpm := t.bpm } ∧
        traceOf t b.val = { t0 with frozen := true, busy := true } ∧ (chanOf t t0.chan.toNat).state = .run ∧ (chanOf t t0.chan.toNat).drain = some b.val ∧
        (chanOf t t0.chan.toNat).list = (chanOf s t0.chan.toNat).list ∧ (chanOf t t0.chan.toNat).fixed = some (drainElem t0) ∧
        (∀ c, c ≠ t0.chan.toNat → chanOf t c = chanOf s c)))

/-- R463, R466: DBG_AUDIT.SNAP; R461, R462: the freeze of a windthrow record. -/
def Obligations.AuditAndWindthrow : Prop :=
  (∀ s : State, mgmtUp s = true → (∀ d < 4, dieLive s d = true → gladeBook s d = true ∧ bridgeBook s d = true) → linkBook s = true → poolBooks s = true → stepBook s = true →
    ∃ t, Sys2Proof.Machine.exec .dbgAuditSnap s = .next t ∧ t = { s with dbg := { s.dbg with snap := t.dbg.snap }, swc := t.swc, bpm := t.bpm } ∧
      t.dbg.snap = (auditShot s).dbg.snap ∧ (∀ d, (swcOf t d).free = (swcOf s d).free ∧ (swcOf t d).queued = (swcOf s d).queued) ∧ t.bpm.holders = s.bpm.holders) ∧
  (∀ (s : State) (tf : BitVec 64) (r : RingId) (c : RunCmd), mgmtUp s = true → s.dbg.windAt = some tf → s.dbg.windRing = some r.val → s.dbg.windShadow = [] →
    (ringOf s r.val).cur = some c →
    (s.tim.running = false → fabNs s < tf → Sys2Proof.Machine.exec .windthrowFreeze s = .next s) ∧
    (tf ≤ fabNs s ∨ (s.tim.running = true ∧ s.tim.slew = 0 ∧ s.tim.baseAt ≤ s.clock) → ∃ t, Sys2Proof.Machine.exec .windthrowFreeze s = .next t ∧
      t = { s with clock := s.clock + (tf.toNat - (fabNs s).toNat), dbg := { s.dbg with windShadow := t.dbg.windShadow }, cmd := { s.cmd with rings := t.cmd.rings } } ∧
      t.dbg.windShadow.take 8 = [0x4F, 0x4C, 0x57, 0x49, 0x4E, 0x44, 0x54, 0x48] ∧ le t.dbg.windShadow 8 8 = tf.toNat ∧ le t.dbg.windShadow 16 2 = s.gctl.coord.toNat ∧
      (ringOf t r.val).cur = some { c with total := 1 + cdiv t.dbg.windShadow.length 262144 } ∧ (∀ q, q ≠ r.val → ringOf t q = ringOf s q)))

/-- R361, R26: the release of reset; R352: flash discovery; R362, R363, R364: a copy accepted, failed, and both failed. -/
def Obligations.StartOfTheDevice : Prop :=
  (∀ (straps : Straps) (mb0 mb1 : Bool) (s : State), s.rst.held = true → (mb0 || mb1) = true →
    ∃ t, Sys2Proof.Machine.exec (.resetRelease straps true mb0 mb1) s = .next t ∧
      t = { s with rst := t.rst, cmd := { s.cmd with jtagLevel := t.cmd.jtagLevel, pba := t.cmd.pba }, units := t.units, out := t.out } ∧ (s.cmd.bme = false → t.out = s.out) ∧
      t.rst.held = false ∧ t.rst.phase = .flash ∧ t.rst.windowOpen = true ∧ t.rst.bootSel = straps.bootSel ∧ t.rst.roleSel = straps.roleSel ∧ t.rst.addrSel = straps.addrSel ∧
      t.rst.t0 = s.clock ∧ t.units.mb0Ok = mb0 ∧ t.units.mb1Ok = mb1 ∧ t.units.active = (if mb0 then .mb0 else .mb1) ∧ t.cmd.jtagLevel = (if s.fuses.jtagKey.isNone then 1 else 0)) ∧
  (∀ (straps : Straps) (mb0 mb1 : Bool) (s : State), s.rst.held = true →
    ∃ t, Sys2Proof.Machine.exec (.resetRelease straps false mb0 mb1) s = .next t ∧ t.rst.held = false ∧ t.flt.fatal = true ∧ t.flt.cause = 2 ∧ t.flt.faultN = true ∧ t.out = s.out) ∧
  (∀ (straps : Straps) (s : State), s.rst.held = true →
    ∃ t, Sys2Proof.Machine.exec (.resetRelease straps true false false) s = .next t ∧ t.rst.phase = .noStart ∧ t.rst.failReason = 3 ∧
      alive t = false ∧ islandUp t = false ∧ t.flt.faultN = true ∧ t.out = s.out) ∧
  (∀ (straps : Straps) (rails mb0 mb1 : Bool) (s : State), s.rst.held = false → Sys2Proof.Machine.exec (.resetRelease straps rails mb0 mb1) s = .next s) ∧
  (∀ (f : Sfdp) (s : State), alive s = true → s.rst.phase = .flash →
    (f.signature = true ∧ 128 ≤ f.densityMiB ∧ f.read8d = true ∧ f.erase64k = true →
      ∃ t, Sys2Proof.Machine.exec (.flashDiscoveryDone f) s = .next t ∧
        t = { s with rst := { s.rst with phase := .load, copyAt := s.rst.t0 + 4000000 }, cmd := { s.cmd with pba := t.cmd.pba }, out := t.out } ∧
        (s.cmd.bme = false → t.out = s.out)) ∧
    (f.signature = false ∨ f.densityMiB < 128 ∨ f.read8d = false ∨ f.erase64k = false →
      ∃ t, Sys2Proof.Machine.exec (.flashDiscoveryDone f) s = .next t ∧ t.rst = { s.rst with phase := .noStart, failReason := 1 } ∧
        t = { s with rst := t.rst, out := t.out, flt := t.flt, evr := t.evr, cmd := t.cmd, dbg := t.dbg })) ∧
  (∀ (f other : FlashRead) (s : State), alive s = true → s.rst.phase = .load → s.rst.bootSel = 0 → s.rst.resultA = 0 →
    (imageFail (setGen .copyA f s) f = none → ∃ t, Sys2Proof.Machine.exec (.imageCopyCheck .copyA f other) s = .next t ∧
      t.rst.loaded = 1 ∧ t.rst.resultA = 1 ∧ t.rst.phase = .power ∧ t.clock = max s.clock (copyEnd s f) ∧ t.rst.tL = t.clock ∧ t.gctl.coord = f.content.coord ∧ t.gctl.ownId = f.content.ownId ∧
      t.gctl.fabricId = f.content.fabricId ∧ t.img = some f.content) ∧
    (f.readOk = false → s.rst.resultB = 0 → ∃ t, Sys2Proof.Machine.exec (.imageCopyCheck .copyA f other) s = .next t ∧ t.clock = max s.clock (copyEnd s f) ∧ t.rst.copyAt = t.clock ∧
      t.rst.resultA = 6 ∧ t.rst.resultB = 0 ∧ t.rst.phase = .load ∧ t.rst.loaded = s.rst.loaded ∧ t.img = s.img ∧ t.gctl = s.gctl ∧ t.pwr = s.pwr) ∧
    (f.readOk = false → s.rst.resultB ≠ 0 → ∃ t, Sys2Proof.Machine.exec (.imageCopyCheck .copyA f other) s = .next t ∧
      t.rst.resultA = 6 ∧ t.rst.phase = .imageFail ∧ t.rst.failReason = 2 ∧ t.img = s.img ∧ t.gctl = s.gctl ∧ t.pwr = s.pwr))

/-- R367, R368: the override window, COORD_OVR and the role; R365: the waves. -/
def Obligations.WindowAndWaves : Prop :=
  (∀ s : State, alive s = true → s.rst.phase = .power → s.rst.startHold = true → max s.clock (s.rst.tL + 100000000) < s.rst.t0 + 2000000000 →
    Sys2Proof.Machine.exec .overrideWindowClose s = .next { s with clock := max s.clock (s.rst.tL + 100000000), rst := { s.rst with wavesDue := true } }) ∧
  (∀ (c : Instr) (s : State), alive s = true → s.rst.phase = .power → s.rst.windowOpen = true →
    (c = .overrideWindowClose ∧ (s.rst.startHold = false ∨ s.rst.t0 + 2000000000 ≤ max s.clock (s.rst.tL + 100000000)) ∨ c = .startHoldTimeout ∧ s.rst.wavesDue = true ∨ c = .startHoldClear ∧ s.rst.wavesDue = true ∧ mgmtUp s = true) →
    ∃ t, Sys2Proof.Machine.exec c s = .next t ∧
      t.clock = max s.clock (if c = .overrideWindowClose then s.rst.tL + 100000000 else if c = .startHoldTimeout then s.rst.t0 + 2000000000 else 0) ∧ t.rst.windowOpen = false ∧ t.rst.startHold = false ∧ t.rst.wavesDue = false ∧ t.rst.phase = .waves ∧ t.rst.wave = 1 ∧
      t.gctl.coord = (if s.gctl.ovrEn then s.gctl.ovrValue else s.gctl.coord) ∧ t.gctl.cfgRole = namedRole s t.gctl.coord ∧
      t.gctl.role = (if s.rst.roleSel then t.gctl.cfgRole else .worker) ∧ t.mem = s.mem ∧ t.ctxs = s.ctxs ∧ t.queues = s.queues ∧ t.pwr = s.pwr ∧
      (∀ p < 288, (portOf s p).enabled = true → (portOf s p).wave = 0 → bitOf s.units.fabLost (p / 72) = false → bitOf s.units.engineLost (p / 12) = false →
        (portOf t p).begun = true)) ∧
  (∀ s : State, mgmtUp s = true → alive s = true → s.rst.wavesDue = false → Sys2Proof.Machine.exec .startHoldClear s = .next { s with rst := { s.rst with startHold := false } }) ∧
  (∀ (path : Path) (v : Word) (s : State), mgmtUp s = true →
    (s.rst.windowOpen = true → Sys2Proof.Machine.exec (.coordOvrWrite path v) s = .next { s with gctl := { s.gctl with ovrEn := v.getLsbD 31, ovrValue := v.extractLsb' 0 16 } }) ∧
    (s.rst.windowOpen = false → Sys2Proof.Machine.exec (.coordOvrWrite path v) s = .next { s with gctl := { s.gctl with closed := true } })) ∧
  (∀ (w : Fin 12) (s : State), alive s = true → s.rst.phase = .waves →
    (s.rst.wave ≠ w.val → Sys2Proof.Machine.exec (.portWaveBegin w) s = .next s) ∧
    (s.rst.wave = w.val → ∃ t, Sys2Proof.Machine.exec (.portWaveBegin w) s = .next t ∧ t = { s with clock := max s.clock (s.mgr.wave0At + 20000000 * w.val), rst := t.rst, ports := t.ports, links := t.links, strands := t.strands, cmd := { s.cmd with pba := t.cmd.pba }, out := t.out } ∧
      t.rst.wave = w.val + 1 ∧ t.rst.phase = (if w.val = 11 then .run else .waves) ∧
      (∀ p < 288, (portOf t p).begun = ((portOf s p).begun || ((portOf s p).enabled && (portOf s p).wave == w.val && !bitOf s.units.fabLost (p / 72) && !bitOf s.units.engineLost (p / 12))))))

/-- R369: heartbeats, the mirror of the standby, and the takeover of the manager's role. -/
def Obligations.ManagerHeartbeats : Prop :=
  ∀ s : State, alive s = true → s.rst.phase = .run →
    (s.gctl.role = .manager → Sys2Proof.Machine.exec .managerHeartbeatSend s = .next
      (emit (.heartbeat s.gctl.sbyId s.gctl.coord { reg := s.mgr.reg, groups := s.mgr.groups, change := s.mgr.change }) { s with mgr := { s.mgr with acted := true } })) ∧
    (∀ (sender : Coord) (id : Ident) (m : MgrMirror), sender ≠ s.gctl.coord →
      (s.gctl.role = .worker ∨ (s.gctl.role = .manager ∧ s.gctl.cfgRole = .manager ∧ s.mgr.acted = true) → Sys2Proof.Machine.exec (.managerHeartbeat sender id m) s = .next s) ∧
      (s.gctl.role = .standby → Sys2Proof.Machine.exec (.managerHeartbeat sender id m) s = .next
        { s with gctl := { s.gctl with acting := sender, actingId := id }, mgr := { s.mgr with reg := m.reg, groups := m.groups, change := m.change, hbSeen := true, hbAt := s.clock } }) ∧
      (s.gctl.role = .manager → s.gctl.cfgRole ≠ .manager → ∃ t, Sys2Proof.Machine.exec (.managerHeartbeat sender id m) s = .next t ∧
        t.gctl = { s.gctl with role := .standby, acting := t.gctl.acting, actingId := t.gctl.actingId } ∧
        ((∀ k ∈ allSubs s, (linkOf s k).ann = none) → t.gctl.acting = sender ∧ t.gctl.actingId = id) ∧ t.tim.holdover = true ∧ t.mgr.reg = m.reg ∧ t.mgr.groups = m.groups ∧ t.mgr.change = m.change ∧ t.mgr.acted = false ∧
        t = { s with gctl := t.gctl, mgr := t.mgr, tim := t.tim, out := t.out, flt := t.flt, evr := t.evr, cmd := t.cmd, dbg := t.dbg })) ∧
    (s.gctl.role = .standby → ∃ t, Sys2Proof.Machine.exec .managerAssumed s = .next t ∧
      t.clock = max s.clock (if s.mgr.hbSeen then s.mgr.hbAt + 300000 else s.mgr.wave0At + s.gctl.mgrWaitMs * 1000000) ∧ t.gctl.role = .manager ∧ t.gctl.acting = s.gctl.coord ∧ t.gctl.actingId = s.gctl.ownId ∧
      (s.mgr.change = none → t.mgr = s.mgr ∧ t.tim = { s.tim with upstream := none, hops := 0, gmCoord := s.gctl.coord, traceable := false, followAt := t.tim.followAt } ∧
        (t.tim.followAt.isSome = (s.tim.holdover && (s.tim.ppsOk || s.tim.tenmOk))) ∧ t.ctxs = s.ctxs ∧ t.links = s.links ∧ t.mem = s.mem)) ∧
    (s.gctl.role ≠ .standby → Sys2Proof.Machine.exec .managerAssumed s = .next s)

/-- R361, R370, R417, R476: a reset returns everything to its reset value but what they say it leaves. -/
def Obligations.ResetsKeep : Prop :=
  ∀ (c : Instr) (cause : BitVec 3) (powered vaux : Bool) (s : State),
    (c = .devReset 0xA5 ∧ (mgmtUp s = true ∨ faultReads s = true) ∧ cause = 2 ∧ powered = true ∧ vaux = true ∨ c = .resetAsserted true ∧ cause = 1 ∧ powered = true ∧ vaux = true ∨
      c = .resetAsserted false ∧ cause = 0 ∧ powered = false ∧ vaux = true ∨ c = .vaux3v3Loss ∧ cause = 0 ∧ powered = false ∧ vaux = false) →
    (∃ t, Sys2Proof.Machine.exec c s = .next t ∧ t = { State.reset with
      pending := s.pending
      clock := s.clock
      free := s.free
      out := t.out
      fuses := s.fuses
      mem := { host := s.mem.host }
      rst := { cause := cause }
      flt := { prior := if s.flt.fatal && vaux then s.flt.cause else 0 }
      pwr := { onSec := t.pwr.onSec }
      evr := { flash := s.evr.flash, badSlots := s.evr.badSlots, flashClear := s.evr.flashClear, opAt := s.clock } } ∧
      s.out <:+ t.out ∧ (powered = false → t.pwr.onSec = []) ∧ (powered = true → ∀ k, tget 0 s.pwr.onSec k ≤ tget 0 t.pwr.onSec k)) ∧
    (∀ key, key ≠ 0xA5 → Sys2Proof.Machine.exec (.devReset key) s = .next s)

/-- R416: what entering the fault state does, and R418: causes 1 to 3 leave no record. -/
def Obligations.FaultState : Prop :=
  ∀ (c : Instr) (cause : Nat) (s : State),
    (c = .fatalCause (BitVec.ofNat 3 cause) ∧ 1 ≤ cause ∧ cause ≤ 4 ∨ (∃ die, c = .thermtrip die) ∧ cause = 3 ∨ c = .supplyFault ∧ cause = 2) →
    (alive s = true → ∃ t, Sys2Proof.Machine.exec c s = .next t ∧ t.flt.fatal = true ∧ t.flt.cause.toNat = cause ∧ t.flt.thermtripN = (cause == 3) ∧
      (∀ k ∈ allSubs s, (linkOf t k).st = .down ∧ (linkOf t k).reason = .fault ∧ ∀ q ∈ strandPos s k, (strandOf t q).light = .dark) ∧
      (∀ k, domOn t k = false) ∧ islandUp t = (cause == 4 && islandUp s) ∧ (cause ≠ 4 → t.evr = s.evr ∧ t.cmd = s.cmd) ∧
      t.mem = s.mem ∧ t.ctxs = s.ctxs ∧ t.queues = s.queues ∧ t.route = s.route ∧ t.rst = s.rst) ∧
    ((s.rst.held = true ∨ s.flt.fatal = true ∧ (s.flt.faultAt ≠ s.clock ∨ s.flt.cause.toNat ≤ cause)) → Sys2Proof.Machine.exec c s = .next s) ∧
    (s.rst.held = false → s.flt.fatal = true → s.flt.faultAt = s.clock → cause < s.flt.cause.toNat → ∃ t, Sys2Proof.Machine.exec c s = .next t ∧
      t = { s with flt := { s.flt with cause := BitVec.ofNat 3 cause, faultN := true, thermtripN := cause == 3 }, units := t.units } ∧ islandUp t = (cause == 4 && islandUp s))

/-- R421, R392: the takeover; R374: the SMBus bit. -/
def Obligations.ManagementBlocks : Prop :=
  ∀ s : State, mgmtUp s = true → s.units.active = .mb0 →
    (s.units.mb1Ok = true →
      (∃ t, Sys2Proof.Machine.exec .mbTakeover s = .next t ∧ t.units = { s.units with active := .mb1, mb0Ok := false } ∧ (∀ r < 8, ringOf t r = {}) ∧
        (∀ c < 32, (chanOf t c).state ≠ .run) ∧ t.flt.injActive = false ∧ t.flt.injMask = 0 ∧ t.cmd.smbOff = 0 ∧ t.cmd.smbReset = true ∧ t.cmd.bme = false ∧ t.cmd.msix = [] ∧
        t.fuses = s.fuses ∧ (s.pwr.busy = false → t.ports = s.ports) ∧ t.img = s.img ∧ t.gctl = s.gctl) ∧
      (∃ t, Sys2Proof.Machine.exec .standbyLost s = .next t ∧ t = { s with units := { s.units with mb1Ok := false }, out := t.out, flt := t.flt, evr := t.evr, cmd := t.cmd, dbg := t.dbg } ∧
        t.flt.ucCount = satAdd s.flt.ucCount 1) ∧
      ((s.flt.injActive = false → Sys2Proof.Machine.exec .mirrorHeartbeatSend s = .next (emit .mirrorBeat s)) ∧
        (s.flt.injActive = true → s.flt.injBlock = 5 → s.flt.injInst = 0 → s.flt.injChecker = 1 →
          Sys2Proof.Machine.exec .mirrorHeartbeatSend s = .next { s with flt := { s.flt with injFired := true, injActive := s.flt.injPersist } }))) ∧
    (s.units.mb1Ok = false → Sys2Proof.Machine.exec .mbTakeover s = .next s ∧ Sys2Proof.Machine.exec .standbyLost s = .next s ∧ Sys2Proof.Machine.exec .mirrorHeartbeatSend s = .next s)

/-- R157, R420, R490: a fenced die; R419: engines and lasers; R210, R211: reduction dies and re-homing. -/
def Obligations.LossOfParts : Prop :=
  ∀ s : State, alive s = true →
    (∀ (d : FabDie) (x : FenceCause), (bitOf s.units.fabLost d.val = true → Sys2Proof.Machine.exec (.dieFenced d x) s = .next s) ∧
      (bitOf s.units.fabLost d.val = false → ∃ t, Sys2Proof.Machine.exec (.dieFenced d x) s = .next t ∧ t.units.fabLost = setBit s.units.fabLost d.val true ∧
        (∀ p, p / 72 = d.val → (portOf s p).enabled = true → ∀ k ∈ subKeys s p, (linkOf t k).st = .down) ∧
        ((swcOf t d.val).free = 786432 ∧ (swcOf t d.val).queued = 0 ∧ (swcOf t d.val).voq = 0 ∧ (swcOf t d.val).landing = 0) ∧
        (∀ k ∈ [24 + 3 * d.val, 25 + 3 * d.val, 26 + 3 * d.val, 6 * d.val, 6 * d.val + 1, 6 * d.val + 2, 6 * d.val + 3, 6 * d.val + 4, 6 * d.val + 5],
          domOn t k = false ∧ bitOf t.pwr.lost k = true) ∧
        t.mem = s.mem ∧ t.route = { s.route with cnt := t.route.cnt } ∧ t.tim = s.tim ∧ t.rst = s.rst)) ∧
    (∀ (e : Engine), (bitOf s.units.engineLost e.val = true → Sys2Proof.Machine.exec (.engineLost e) s = .next s) ∧
      (bitOf s.units.engineLost e.val = false → ∃ t, Sys2Proof.Machine.exec (.engineLost e) s = .next t ∧ t.units.engineLost = setBit s.units.engineLost e.val true ∧
        (∀ p, p / 12 = e.val → (portOf s p).enabled = true → ∀ k ∈ subKeys s p, (linkOf t k).st = .down) ∧ domOn t e.val = false ∧
        t.mem = s.mem ∧ t.route = { s.route with cnt := t.route.cnt } ∧ t.units.fabLost = s.units.fabLost ∧ t.opt = s.opt)) ∧
    (∀ (e : Engine), laserOk s e.val 0 = true →
      (laserOk s e.val 1 = true → ∃ t, Sys2Proof.Machine.exec (.laserLost e 0) s = .next t ∧ laserOk t e.val 0 = false ∧ laserOk t e.val 1 = true ∧ t.units = s.units ∧
        t.links = s.links ∧ t.pwr = s.pwr ∧ (∀ x, x ≠ e.val → optOf t x = optOf s x)) ∧
      (laserOk s e.val 1 = false → bitOf s.units.engineLost e.val = false → ∃ t, Sys2Proof.Machine.exec (.laserLost e 0) s = .next t ∧ laserOk t e.val 0 = false ∧
        bitOf t.units.engineLost e.val = true ∧ domOn t e.val = false)) ∧
    (∀ x : RedDie,
    (∀ cause : LossCause, (bitOf s.units.redLost x = true → Sys2Proof.Machine.exec (.reductionDieLost x cause) s = .next s) ∧
      (bitOf s.units.redLost x = false → ∃ t, Sys2Proof.Machine.exec (.reductionDieLost x cause) s = .next t ∧ bitOf t.units.redLost x = true ∧
        (redOf t x).inbox = (redOf s x).inbox.filter (fun e => !isChunkPid s e.2) ∧
        (∀ q : Fin 4, domFused s (domQuad x q) = false → domOn t (domQuad x q) = false ∧ bitOf t.pwr.lost (domQuad x q) = true) ∧
        (∀ (k : Nat) (c : Ctx), ctxOf s k = some c → c.die = x.val → c.spec.op ≠ 6 → ∃ d, ctxOf t k = some d ∧ d.st = .moving ∧ d.reserved = false ∧ d.die = c.die ∧ d.spec = c.spec) ∧
        t.mem = s.mem ∧ t.queues = s.queues)) ∧
    (bitOf s.units.redLost x = false → Sys2Proof.Machine.exec (.rehomeDone x) s = .next s) ∧
    (∀ (k : Nat) (c : Ctx), bitOf s.units.redLost x = true → (ctxsOn s x).filter (fun j => match ctxOf s j with | some c => c.st == .moving | none => false) = [k] → ctxOf s k = some c → c.spec.op ≠ 6 → c.steps = [] →
      c.ready = none → c.held = [] → c.deleting = false →
      (∀ y : Nat, bestDie s c.pages = some y → ∃ t, Sys2Proof.Machine.exec (.rehomeDone x) s = .next t ∧ ctxOf t k = some { c with die := y, st := .idle, reserved := true } ∧ (∀ j, j ≠ k → ctxOf t j = ctxOf s j) ∧
        (redOf t y).freePages = (redOf s y).freePages - c.pages ∧ (redOf t y).cnt = bump (redOf s y).cnt 0x05C 1 ∧
        (∀ (d : FabDie), (swcOf t d).ctxMap = tput ((swcOf s d).ctxMap.filter fun e => e.1 ≠ c.spec.group.toNat) c.spec.group.toNat
          { slot := BitVec.ofNat 18 k, die := BitVec.ofNat 2 y }) ∧ t.mem = s.mem) ∧
      (bestDie s c.pages = none → ∃ t, Sys2Proof.Machine.exec (.rehomeDone x) s = .next t ∧ ctxOf t k = some { c with st := .lost } ∧ (∀ j, j ≠ k → ctxOf t j = ctxOf s j) ∧
        (∀ y, y ≠ x.val → redOf t y = redOf s y) ∧ t.swc = s.swc)))

/-- R424, R425: the injection registers. -/
def Obligations.Injection : Prop :=
  ∀ s : State, mgmtUp s = true →
    (∀ v : Word, Sys2Proof.Machine.exec (.arm v) s = .next { s with flt := { s.flt with
      injPersist := v.getLsbD 29
      injFired := s.flt.injFired && !v.getLsbD 27
      injActive := true
      injKeyed := false } }) ∧
    Sys2Proof.Machine.exec .disarm s = .next { s with flt := { s.flt with injActive := false } } ∧
    (∀ key, key ≠ 0x5A → Sys2Proof.Machine.exec (.injKey key) s = .next s) ∧
    (s.flt.injActive = false → Sys2Proof.Machine.exec (.injKey 0x5A) s = .next { s with flt := { s.flt with injKeyed := true } }) ∧
    (s.flt.injActive = true → s.flt.injBlock = 5 → s.flt.injInst.toNat = mbInst s → s.flt.injChecker = 0 →
      ∃ t, Sys2Proof.Machine.exec (.injKey 0x5A) s = .next t ∧ t.flt.fatal = true ∧ t.flt.cause = 4 ∧ t.flt.injFired = true ∧ t.flt.injActive = s.flt.injPersist ∧ t.mem = s.mem)

/-- R431: the windows and clears; R430: forwarded records. -/
def Obligations.RecorderWindows : Prop :=
  ∀ s : State, mgmtUp s = true →
    (∀ (path : Path) (seq : Word) (w : RdWin), tget {} s.evr.wins (pathNo path) = w → w.flash = false →
      ∃ t, Sys2Proof.Machine.exec (.rdSeq path seq) s = .next t ∧ t = { s with evr := { s.evr with wins := t.evr.wins } } ∧
        (∀ q, q ≠ pathNo path → tget {} t.evr.wins q = tget {} s.evr.wins q) ∧
        (∀ r, (s.evr.kept ++ s.evr.ring).find? (fun r => r.seq == seq) = some r → tget {} t.evr.wins (pathNo path) = { w with seq := seq, result := 0, data := recBytes r }) ∧
        ((∀ r ∈ s.evr.kept ++ s.evr.ring, r.seq ≠ seq) →
          tget {} t.evr.wins (pathNo path) = { w with seq := seq, result := if seq ≠ s.evr.headSeq ∧ seqGe seq s.evr.headSeq = true then 2 else 1, data := [] })) ∧
    (∀ (path : Path), ∃ t, Sys2Proof.Machine.exec (.evrClear path 0xC3) s = .next t ∧ (t.evr.kept ++ t.evr.ring).length = 1 ∧ t.evr.headSeq = s.evr.headSeq + 1 ∧
      (∀ r ∈ t.evr.kept ++ t.evr.ring, r.code = 0x5036 ∧ r.seq = t.evr.headSeq) ∧ t.evr.flash = s.evr.flash ∧ t.evr.flashClear = s.evr.flashClear) ∧
    (∀ (path : Path), ∃ t, Sys2Proof.Machine.exec (.clearFlash path 0xC3) s = .next t ∧ t.evr.flash = s.evr.flash ∧ t.evr.flashClear = some (s.evr.headSeq + 1)) ∧
    (∀ (path : Path) (key : Byte), key ≠ 0xC3 → Sys2Proof.Machine.exec (.evrClear path key) s = .next s ∧ Sys2Proof.Machine.exec (.clearFlash path key) s = .next s) ∧
    (∀ r : Record, (s.gctl.role ≠ .manager → Sys2Proof.Machine.exec (.eventForward r) s = .next s) ∧
      (s.gctl.role = .manager → newestRec s = none → s.evr.kept.length < 1024 → s.evr.ring.length < 15360 →
        ∃ t, Sys2Proof.Machine.exec (.eventForward r) s = .next t ∧ t.evr.headSeq = s.evr.headSeq + 1 ∧ { r with seq := s.evr.headSeq + 1 } ∈ t.evr.kept ++ t.evr.ring ∧
          t.flt = s.flt ∧ t.mem = s.mem))

/-- R432 to R435: persistence of event records. -/
def Obligations.RecorderPersistence : Prop :=
  ∀ s : State, mgmtUp s = true →
    (∀ (r : Record) (rest : List Record), s.evr.queue = r :: rest → s.evr.curSlot < 64 →
      (s.flt.injActive = false → Sys2Proof.Machine.exec (.recordProgramDone true) s = .next
        { s with
          out := .flashProgram (0x4000000 + 65536 * s.evr.curSector.toNat + 1024 * s.evr.curSlot + 1016) (bytesLE 8 0x5A5A0000A5A50000) ::
            .flashProgram (0x4000000 + 65536 * s.evr.curSector.toNat + 1024 * s.evr.curSlot) (recBytes r) :: s.out
          evr := { s.evr with queue := rest, flash := s.evr.flash ++ [(s.evr.curSector.toNat, s.evr.curSlot, r)], curSlot := s.evr.curSlot + 1 } }) ∧
      (∃ t, Sys2Proof.Machine.exec (.recordProgramDone false) s = .next t ∧
        t.evr = { s.evr with badSlots := s.evr.badSlots ++ [(s.evr.curSector.toNat, s.evr.curSlot)], curSlot := s.evr.curSlot + 1 } ∧ t = { s with evr := t.evr, flt := t.flt, out := t.out })) ∧
    (∀ n, s.evr.scanned = true → s.evr.stopped = false → s.evr.eraseDue = true → s.evr.erasing = none → nextErase s.evr = some n →
      n ∉ s.evr.sectorsRetired ∧ n ∉ s.evr.erased ∧ n ≠ s.evr.curSector.toNat ∧
        ∃ t, Sys2Proof.Machine.exec .sectorErase s = .next t ∧ t = { s with
          clock := max s.clock (match s.evr.eraseAt with | some a => a + 600000000000 | none => 0)
          evr := t.evr
          out := .flashErase (0x4000000 + 65536 * n) :: s.out } ∧ t.evr.erasing = some n ∧ t.evr.eraseAt = some t.clock ∧
          t.evr.flash = s.evr.flash.filter (fun x => x.1 ≠ n) ∧ t.evr.queue = s.evr.queue ∧ t.evr.erased = s.evr.erased) ∧
    (∀ n, s.evr.erasing = some n →
      Sys2Proof.Machine.exec (.sectorEraseDone true) s = .next { s with evr := { s.evr with erasing := none, erased := s.evr.erased ++ [n] } } ∧
      ∃ t, Sys2Proof.Machine.exec (.sectorEraseDone false) s = .next t ∧ t.evr.erasing = none ∧ t.evr.sectorsRetired = insNat n s.evr.sectorsRetired ∧
        (56 < t.evr.sectorsRetired.length → t.evr.stopped = true ∧ t.evr.eraseDue = false)) ∧
    (∀ x : ScanResult, s.img.isSome = true → s.evr.scanned = false → x.lost = [] → x.accepted = [] → s.flt.prior = 0 → s.rst.cause ≠ 0 →
      ∃ t, Sys2Proof.Machine.exec (.eventRegionScanDone x) s = .next t ∧ t.evr.scanned = true ∧ t.evr.scanQueue = [] ∧ t.evr.flash = [] ∧ t.evr.sectorsRetired = x.retired ∧
        t.evr.headSeq = s.evr.headSeq ∧ (t.evr.stopped = decide (56 < x.retired.length)) ∧ t.mem = s.mem) ∧
    (∃ t, Sys2Proof.Machine.exec .opTime s = .next t ∧ t = { s with out := t.out, flt := t.flt, evr := t.evr, cmd := t.cmd, dbg := t.dbg })

/-- R472, R474: polls, the baseline and ageing. -/
def Obligations.LaserPolls : Prop :=
  ∀ (e : Engine) (s : State), alive s = true → domOn s e.val = true →
    (∃ t, Sys2Proof.Machine.exec (.laserModulePoll e 0 none) s = .next t ∧ t = { s with opt := t.opt } ∧ (∀ x, x ≠ e.val → optOf t x = optOf s x) ∧ (optOf t e.val).lsrB = (optOf s e.val).lsrB ∧
      (optOf t e.val).lsrA.nacks = satAdd (optOf s e.val).lsrA.nacks 1 ∧ (optOf t e.val).lsrA.nackRun = (optOf s e.val).lsrA.nackRun + 1 ∧
      (optOf t e.val).lsrA.present = ((optOf s e.val).lsrA.present && decide ((optOf s e.val).lsrA.nackRun + 1 < 3))) ∧
    (∀ r : LaserReply, ∃ t, Sys2Proof.Machine.exec (.laserModulePoll e 0 (some r)) s = .next t ∧ (∀ x, x ≠ e.val → optOf t x = optOf s x) ∧ (optOf t e.val).lsrB = (optOf s e.val).lsrB ∧
      (optOf t e.val).lsrA.present = true ∧ (optOf t e.val).lsrA.nackRun = 0 ∧ (optOf t e.val).lsrA.power = r.power ∧ (optOf t e.val).lsrA.temp = r.temp ∧
      (optOf t e.val).lsrA.hist = (r.bias :: (optOf s e.val).lsrA.hist).take 10 ∧ (optOf t e.val).lsrA.bias = biasAvg (optOf t e.val).lsrA.hist ∧
      ((optOf s e.val).lsrA.locked = false → r.area = some 0 → 9 ≤ (optOf s e.val).lsrA.hist.length →
        (optOf t e.val).lsrA.baseSet = true ∧ (optOf t e.val).lsrA.biasRef = (optOf t e.val).lsrA.bias) ∧
      ((optOf t e.val).lsrA.locked = true → (optOf t e.val).lsrA.hist.length = 10 → 0 < (optOf t e.val).lsrA.biasRef.toNat →
        120 * (optOf t e.val).lsrA.biasRef.toNat ≤ 100 * (optOf t e.val).lsrA.bias.toNat → (optOf t e.val).lsrA.ageing = true) ∧
      t.mem = s.mem ∧ t.links = s.links ∧ t.units = s.units)

/-- R408: GO and STOP; R401: the staging buffer; R404: the end of an element. -/
def Obligations.ChannelControl : Prop :=
  ∀ (c : Chan) (s : State), mgmtUp s = true →
    let k := chanOf s c.val
    (c.val < 28 → chanBusy k = false → k.count ≠ 0 → k.listSpace ≠ 2 → ∃ t, Sys2Proof.Machine.exec (.go c) s = .next t ∧ t = { s with dma := t.dma, bpm := t.bpm } ∧
      chanOf t c.val = { k with
        state := .run, cause := 0, elem := 0, offset := 0, granted := none, tries := 0, cur := none, remote := [], drain := none, fixed := none, fixedEp := none, buf := [] } ∧
      (∀ x, x ≠ c.val → chanOf t x = chanOf s x)) ∧
    (c.val < 28 → chanBusy k = false → k.count = 0 ∨ k.listSpace = 2 → ∃ t, Sys2Proof.Machine.exec (.go c) s = .next t ∧ (chanOf t c.val).state = .halted ∧ (chanOf t c.val).cause = 3 ∧
      t.mem = s.mem ∧ (∀ x, x ≠ c.val → chanOf t x = chanOf s x)) ∧
    (28 ≤ c.val ∨ chanBusy k = true → Sys2Proof.Machine.exec (.go c) s = .next s) ∧
    (28 ≤ c.val ∨ chanBusy k = false → Sys2Proof.Machine.exec (.stopChannel c) s = .next s) ∧
    (c.val < 28 → chanBusy k = true → ∃ t, Sys2Proof.Machine.exec (.stopChannel c) s = .next t ∧
      (chanOf t c.val).state = (if elemOver k && lastElem k then .done else .halted) ∧ (chanOf t c.val).cause = (if elemOver k && lastElem k then 0 else 4) ∧
      (chanOf t c.val).elem = k.elem ∧ (chanOf t c.val).offset = k.offset ∧ t.mem = s.mem ∧ (∀ x, x ≠ c.val → chanOf t x = chanOf s x)) ∧
    (chanBusy k = true → k.granted = none → ∃ t, Sys2Proof.Machine.exec (.dmaStagingGrant c) s = .next t ∧ t = { s with dma := t.dma } ∧
      chanOf t c.val = { k with granted := stagingBuf s c.val } ∧ (∀ x, x ≠ c.val → chanOf t x = chanOf s x)) ∧
    (k.state = .run → elemOver k = true → ∃ t, Sys2Proof.Machine.exec (.dmaElementDone c) s = .next t ∧ t.mem = s.mem ∧ (∀ x, x ≠ c.val → chanOf t x = chanOf s x) ∧
      (lastElem k = true → (chanOf t c.val).state = .done ∧ (chanOf t c.val).elem = k.elem) ∧
      (lastElem k = false → t = { s with dma := t.dma } ∧ chanOf t c.val = { k with elem := k.elem + 1, offset := 0, cur := none }))

/-- R400, R404: a beat; R409: HOST_BLOCKED. -/
def Obligations.BeatCopiesBytes : Prop :=
  (∀ (c : Nat) (e : Elem) (s : State), mgmtUp s = true → s.cmd.bme = true → pickChan s = some c → (chanOf s c).cur = some e → (chanOf s c).tries = 0 → canPut (chanOf s c) e = true →
    e.srcSp = 0 → e.dstSp = 0 → e.fromBuf = false → e.intoBuf = false → e.data.length = e.len →
    ∃ t, Sys2Proof.Machine.exec (.dmaBeat .ok) s = .next t ∧ t = { s with mem := { s.mem with host := t.mem.host }, dma := t.dma, dbg := t.dbg } ∧
      (∀ i, i < min 64 (e.len - e.put) → tget 0 t.mem.host (e.dst.toNat + e.put + i) = e.data.getD (e.put + i) 0) ∧
      (∀ a, a < e.dst.toNat + e.put ∨ e.dst.toNat + e.put + min 64 (e.len - e.put) ≤ a → tget 0 t.mem.host a = tget 0 s.mem.host a) ∧
      (∃ x, (chanOf t c).cur = some x ∧ x = { e with put := e.put + min 64 (e.len - e.put) }) ∧ (∀ x, x ≠ c → chanOf t x = chanOf s x)) ∧
  (∀ (res : BeatResult) (s : State), mgmtUp s = true → s.cmd.bme = true → pickChan s = none → Sys2Proof.Machine.exec (.dmaBeat res) s = .next s) ∧
  (∀ (c : Nat) (res : BeatResult) (s : State), mgmtUp s = true → s.cmd.bme = false → c < 32 → chanReady s (chanOf s c) = true → touchesHost (chanOf s c) = true →
    ∃ t, Sys2Proof.Machine.exec (.dmaBeat res) s = .next t ∧ (chanOf t c).state = .hostBlocked ∧ t.mem.host = s.mem.host)

/-- R405, R406, R407: remote messages, their answers and their retries. -/
def Obligations.RemoteAnswers : Prop :=
  ∀ (c : Chan) (seq : Word) (s : State), mgmtUp s = true →
    let k := chanOf s c.val
    ((∀ m ∈ k.remote, m.seq ≠ seq) → (∀ st data, Sys2Proof.Machine.exec (.rdResp c seq st data) s = .next s) ∧ (∀ st, Sys2Proof.Machine.exec (.wrAck c seq st) s = .next s) ∧
      Sys2Proof.Machine.exec (.remoteResponseTimeout c seq) s = .next s) ∧
    (∀ (e : Elem) (m : RemoteMsg) (rest : List RemoteMsg), k.cur = some e → k.remote = m :: rest → m.seq = seq →
      (∀ data, m.wr = false → m.tries = 0 → data.length = m.len → ∃ t, Sys2Proof.Machine.exec (.rdResp c seq 0 data) s = .next t ∧ t = { s with dma := t.dma } ∧
        chanOf t c.val = { k with remote := rest, cur := some { e with got := e.got ++ [(m.ofs, data)] } } ∧ (∀ x, x ≠ c.val → chanOf t x = chanOf s x)) ∧
      (m.wr = true → m.tries = 0 → ∃ t, Sys2Proof.Machine.exec (.wrAck c seq 0) s = .next t ∧ t = { s with dma := t.dma } ∧
        (chanOf t c.val).remote = rest ∧ (chanOf t c.val).cur = some e ∧ (chanOf t c.val).state = k.state ∧ (∀ x, x ≠ c.val → chanOf t x = chanOf s x)) ∧
      (m.tries < k.retry.toNat → ∃ t, Sys2Proof.Machine.exec (.remoteResponseTimeout c seq) s = .next t ∧
        t.clock = max s.clock (m.sentAt + 100000) ∧
        (chanOf t c.val).remote = rest ++ [{ m with seq := k.rseq, tries := m.tries + 1, sentAt := t.clock }] ∧ (chanOf t c.val).rseq = k.rseq + 1 ∧ (chanOf t c.val).state = k.state ∧ t.mem = s.mem ∧
        tget 0 t.dma.cnt 0x800 = satAdd (tget 0 s.dma.cnt 0x800) 1) ∧
      (k.retry.toNat ≤ m.tries → ∃ t, Sys2Proof.Machine.exec (.remoteResponseTimeout c seq) s = .next t ∧ (chanOf t c.val).state = .halted ∧ (chanOf t c.val).cause = 1 ∧
        (chanOf t c.val).offset = BitVec.ofNat 21 m.ofs ∧ t.mem = s.mem))

/-- R382, R385: reading an entry's bytes gives back the header and the command that they spell. -/
def Obligations.EntryRoundTrip : Prop :=
  ∀ (h : CmdHdr) (b : CmdBody), bodyFits b = true → (entryBytes h b).length = 64 ∧ ringEntryOf (entryBytes h b) = { hdr := h, body := some b }

/-- R381, R388, R390, R391, R409: the rings' registers, aborts, Bus Master Enable and FLR. -/
def Obligations.RingControl : Prop :=
  ∀ s : State, mgmtUp s = true →
    (∀ (r : Fin 8) (v : BitVec 12), ∃ t, Sys2Proof.Machine.exec (.sqTail r v) s = .next t ∧ t = { s with cmd := { s.cmd with rings := t.cmd.rings } } ∧
      ringOf t r.val = { ringOf s r.val with tail := v } ∧ ∀ q, q ≠ r.val → ringOf t q = ringOf s q) ∧
    (∀ (r : Fin 8) (v : BitVec 12), (∀ q < 9, (ringOf s q).cur = none) → s.cmd.heldComps = [] → ∃ t, Sys2Proof.Machine.exec (.cqHead r v) s = .next t ∧
      t = { s with cmd := { s.cmd with rings := t.cmd.rings } } ∧ ringOf t r.val = { ringOf s r.val with cqHead := v } ∧ ∀ q, q ≠ r.val → ringOf t q = ringOf s q) ∧
    (∀ (r : Fin 8) (tag : Word),
      ((∀ c, (ringOf s r.val).cur = some c → c.hdr.tag ≠ tag) → ((ringOf s r.val).en && (waitingTags s r.val).contains tag) = false →
        Sys2Proof.Machine.exec (.abort r tag) s = .next (cmdCnt 0x40C 1 s)) ∧
      ((ringOf s r.val).cur = none → (ringOf s r.val).en = true → tag ∈ waitingTags s r.val → ∃ t, Sys2Proof.Machine.exec (.abort r tag) s = .next t ∧
        t = { s with cmd := { s.cmd with rings := t.cmd.rings } } ∧ ringOf t r.val = { ringOf s r.val with aborts := (ringOf s r.val).aborts ++ [tag] }) ∧
      (∀ c, (ringOf s r.val).cur = some c → c.hdr.tag = tag → pastAbort s r.val c = false → c.background = false → ∃ t, Sys2Proof.Machine.exec (.abort r tag) s = .next t ∧
        t = { s with cmd := { s.cmd with rings := t.cmd.rings } } ∧ (ringOf t r.val).cur = some { c with abort := true })) ∧
    (∃ t, Sys2Proof.Machine.exec .busMasterEnableClear s = .next t ∧ t = { s with cmd := t.cmd, dma := t.dma } ∧ t.cmd.bme = false ∧
      (∀ r < 8, ringOf t r = { ringOf s r with blocked := (ringOf s r).blocked || (ringOf s r).en }) ∧
      (∀ c < 32, chanReady s (chanOf s c) = true → touchesHost (chanOf s c) = true → chanOf t c = { chanOf s c with state := .hostBlocked })) ∧
    (s.cmd.bme = true → Sys2Proof.Machine.exec .busMasterEnableSet s = .next s) ∧
    (s.cmd.bme = false → ∃ t, Sys2Proof.Machine.exec .busMasterEnableSet s = .next t ∧ t.cmd.bme = true ∧ (∀ r < 8, (ringOf t r).blocked = false) ∧
      (∀ c < 32, (chanOf t c).state ≠ .hostBlocked) ∧ t.mem.dram = s.mem.dram ∧ t.mem.sram = s.mem.sram ∧ t.ports = s.ports) ∧
    (∃ t, Sys2Proof.Machine.exec .functionLevelReset s = .next t ∧ (∀ r < 8, ringOf t r = {}) ∧ (∀ c < 32, chanBusy (chanOf t c) = false) ∧ t.cmd.bme = false ∧ t.cmd.msix = [] ∧
      t.ports = s.ports ∧ t.pwr = s.pwr ∧ t.tim = s.tim ∧ t.img = s.img ∧ t.units = s.units ∧ t.mem = s.mem)

/-- R383 to R385: completions of the short commands, and of commands refused for their operands. -/
def Obligations.ShortCommands : Prop :=
  ∀ (r : RingId) (h : CmdHdr) (s : State),
    (idleRing s r.val = true → (∃ t, Sys2Proof.Machine.exec (.nop r h) s = .next t ∧ completed s t r.val h 0 0 1 ∧ t.ctxs = s.ctxs ∧ t.links = s.links ∧ t.queues = s.queues) ∧
      (∀ off : Word, off.toNat % 4 = 0 → reachOf s off.toNat = .ok → off.toNat < 0x60000 ∨ 0x70000 ≤ off.toNat → ∃ t, Sys2Proof.Machine.exec (.regRead r h off) s = .next t ∧
        completed s t r.val h 0 (peek .pcie (beforeRead off.toNat s) off.toNat).toNat 1) ∧
      (∀ (off v : Word), off.toNat % 4 = 0 → reachOf s off.toNat = .none → ∃ t, Sys2Proof.Machine.exec (.regWrite r h off v) s = .next t ∧ completed s t r.val h 0 0 1 ∧
        t.ctxs = s.ctxs ∧ t.links = s.links ∧ t.queues = s.queues ∧ t.pwr = s.pwr ∧ t.tim = s.tim ∧ t.route = s.route ∧ t.mem.sram = s.mem.sram) ∧
      (∀ (off v : Word), off.toNat % 4 = 0 → reachOf s off.toNat = .ok → 0x1000000 ≤ off.toNat → off.toNat < 0x1F00000 → ∃ t, Sys2Proof.Machine.exec (.regWrite r h off v) s = .next t ∧
        completed s t r.val h 0 0 1 ∧ t.mem.sram = (poke .pcie off.toNat v s).mem.sram ∧ t.ctxs = s.ctxs ∧ t.links = s.links) ∧
      (∀ (off v : Word), off.toNat % 4 ≠ 0 →
        (∃ t, Sys2Proof.Machine.exec (.regRead r h off) s = .next t ∧ completed s t r.val h 3 0 0) ∧ (∃ t, Sys2Proof.Machine.exec (.regWrite r h off v) s = .next t ∧ completed s t r.val h 3 0 0))) ∧
    ((ringOf s r.val).cur.isSome = true ∨ s.cmd.halted = true → Sys2Proof.Machine.exec (.nop r h) s = .next s ∧ (∀ off, Sys2Proof.Machine.exec (.regRead r h off) s = .next s) ∧
      (∀ off v, Sys2Proof.Machine.exec (.regWrite r h off v) s = .next s))

/-- R386: group commands at a worker and at the manager; R186, R189: fragments of a descriptor and the creation; R190: deletion; R205: a STOP at the
root; R206: GROUP_RESUME (of a context at the manager's switch). -/
def Obligations.GroupCommands : Prop :=
  ∀ (r : RingId) (h : CmdHdr) (g : GroupId) (num : StepNo) (s : State), idleRing s r.val = true →
    (s.gctl.role ≠ .manager → ∀ (c : Instr) (body : CmdBody) (data : List Byte),
      (c = .groupDelete r h g ∧ body = .groupDelete g ∧ data = [] ∨ c = .groupStop r h g num ∧ body = .groupStop g num ∧ data = [] ∨ c = .groupResume r h g ∧ body = .groupResume g ∧ data = [] ∨
        ∃ (len : BitVec 16) (last : Bool) (ofs : Word), c = .groupCreate r h len last ofs ∧ body = .groupCreate len.toNat last ofs.toNat ∧ h.space = 0 ∧ bodyRefused s body = false ∧
          addrRefused r.val h body = false ∧ data = rdBytes s.mem.host (dataAddr h 0) len.toNat) →
      ∃ t, Sys2Proof.Machine.exec c s = .next t ∧ t.out = .forwardCmd s.gctl.actingId h.tag body data :: s.out ∧ t.cmd.forwarded = s.cmd.forwarded ++ [(h.tag, r.val, s.clock)] ∧
        (∃ x, (ringOf t r.val).cur = some x ∧ x.body = body ∧ x.background = true ∧ x.result = none) ∧ t = { s with out := t.out, cmd := t.cmd, dbg := t.dbg }) ∧
    (s.gctl.role = .manager → groupOf s g = none → ∀ c, (c = .groupDelete r h g ∨ c = .groupStop r h g num ∨ c = .groupResume r h g) →
      ∃ t, Sys2Proof.Machine.exec c s = .next t ∧ completed s t r.val h 3 0 0 ∧ t.mgr = s.mgr ∧ t.ctxs = s.ctxs) ∧
    (s.gctl.role = .manager → ∀ x : GroupRec, groupOf s g = some x → x.desc.group = g →
      let here : Prop := ∃ w ∈ x.desc.switches, w.coord = s.gctl.coord
      (∃ t, Sys2Proof.Machine.exec (.groupDelete r h g) s = .next t ∧ completed s t r.val h 0 0 1 ∧ groupOf t g = none ∧ (∀ w ∈ x.desc.switches, w.coord ≠ s.gctl.coord → .deleteMsg w.coord g ∈ t.out) ∧
        ((x.desc.switches.map SwRec.coord).Nodup → ∀ (k : Nat) (c : Ctx), slotOf s g = some k → ctxOf s k = some c → (∀ j, j ≠ k → ctxOf t j = ctxOf s j) ∧
          (here → c.committed = false ∨ c.steps = [] ∧ c.ready = none ∧ (c.st = .idle ∨ c.st = .halt ∨ c.st = .lost) → ctxOf t k = none) ∧ (¬ here → ctxOf t k = some c))) ∧
      (∃ t, Sys2Proof.Machine.exec (.groupStop r h g num) s = .next t ∧ completed s t r.val h 0 0 1 ∧ t.mgr = s.mgr ∧
        (x.desc.root ≠ s.gctl.coord → t.ctxs = s.ctxs ∧ ∀ q : Pkt, pktOf t s.nextPid = some q → q.body = [5, 0, 0, 0, 0, 0, 0, 0] ∧ hPtype q.hdr = ptCtrl ∧ hGroup q.hdr = g.toNat ∧ hStep q.hdr = num.toNat ∧
          hDst q.hdr = switchId s x.desc.root % 2 ^ 20) ∧
        (∀ (k : Nat) (c : Ctx), x.desc.root = s.gctl.coord → slotOf s g = some k → ctxOf s k = some c →
          (c.st = .moving → ctxOf t k = some { c with held := c.held ++ [{ start := false, num := num, n := 0, scalars := [], arrived := fabT s }] }) ∧
          (∀ y : Step, c.st = .run → c.ready = none → c.steps = [y] → y.num = num → y.closed = false → c.deleting = false →
            (y.results = 0 → ∃ d, ctxOf t k = some d ∧ d.st = .idle ∧ d.steps = [] ∧ d.lastClosed = some (num, 1) ∧ d.lastStatus = 1) ∧
            (y.results ≠ 0 → ctxOf t k = some { c with stopHeld := true })))) ∧
      (∃ t, Sys2Proof.Machine.exec (.groupResume r h g) s = .next t ∧ completed s t r.val h 0 0 1 ∧ t.mgr = s.mgr ∧
        ∀ (k : Nat) (c : Ctx), slotOf s g = some k → ctxOf s k = some c → (∀ j, j ≠ k → ctxOf t j = ctxOf s j) ∧
          ctxOf t k = some (if c.st = .halt ∧ ∃ w ∈ x.desc.switches, w.coord = s.gctl.coord then
            { c with st := if openSteps c ≠ [] then .run else if c.ready.isSome then .ready else .idle, capture := {}, haltStatus := 0, haltDetail := 0 } else c))) ∧
    (s.gctl.role = .manager → ∀ (len : BitVec 16) (ofs : Word), h.space = 0 → bodyRefused s (.groupCreate len.toNat true ofs.toNat) = false →
      addrRefused r.val h (.groupCreate len.toNat true ofs.toNat) = false →
      let d := descOf (patch (if ofs = 0 then [] else tget [] s.mgr.frags r.val) ofs.toNat (rdBytes s.mem.host (dataAddr h 0) len.toNat))
      createRefusal s d = none →
        ((∀ w ∈ d.switches, w.coord ≠ s.gctl.coord) → ∃ t, Sys2Proof.Machine.exec (.groupCreate r h len true ofs) s = .next t ∧ groupOf t d.group = some { desc := d, live := false, answers := [], ring := some r.val } ∧
          t.out = (d.switches.map fun w => Out.allocate w.coord (allocOf s d w)).reverse ++ s.out ∧ (∃ c, (ringOf t r.val).cur = some c ∧ c.background = true ∧ c.result = none) ∧ t.ctxs = s.ctxs) ∧
        (∀ (w : SwRec) (k x : Nat), d.switches = [w] → w.coord = s.gctl.coord → bitOf d.mode 4 = false → slotOf s d.group = none → posOk s (allocOf s d w) = true → validate s (allocOf s d w) = none → freeSlot s = some k →
          homeFor s (allocOf s d w) = some x → ∃ t c, Sys2Proof.Machine.exec (.groupCreate r h len true ofs) s = .next t ∧ completed s t r.val h 0 0 1 ∧ (∃ g, groupOf t d.group = some g ∧ g.desc = d ∧ g.live = true) ∧
          ctxOf t k = some c ∧ c.st = .idle ∧ c.committed = true ∧ c.die = x ∧ c.spec = allocOf s d w ∧ ∀ j, j ≠ k → ctxOf t j = ctxOf s j)) ∧
    (s.gctl.role = .manager → ∀ (len : BitVec 16) (ofs : Word), h.space = 0 → bodyRefused s (.groupCreate len.toNat false ofs.toNat) = false →
      addrRefused r.val h (.groupCreate len.toNat false ofs.toNat) = false → 0 < ofs.toNat →
      ∃ t, Sys2Proof.Machine.exec (.groupCreate r h len false ofs) s = .next t ∧ completed s t r.val h 0 0 1 ∧
        tget [] t.mgr.frags r.val = patch (tget [] s.mgr.frags r.val) ofs.toNat (rdBytes s.mem.host (dataAddr h 0) len.toNat))

/-- R385, R386: the first step of each long command; R117: CLEAR; R286, R287: shard commands; R461: WINDTHROW. -/
def Obligations.StartOfLongCommands : Prop :=
  ∀ (r : RingId) (h : CmdHdr) (s : State), idleRing s r.val = true →
    (∀ (n : Word) (dies : BitVec 4) (tcs : Byte), h.space = 0 → s.route.clr = none → bodyRefused s (.clear n.toNat dies tcs false) = false → addrRefused r.val h (.clear n.toNat dies tcs false) = false →
      ∃ t, Sys2Proof.Machine.exec (.clear r h n dies tcs false) s = .next t ∧ (∃ k, t.route.clr = some k ∧ k.src = .ring r.val ∧ k.dones = 1 ∧ k.dieMask = dies ∧ k.tcMask = tcs ∧ k.committed = false) ∧
        t.route.live = s.route.live ∧ t.route.liveSet = s.route.liveSet ∧ (∃ c, (ringOf t r.val).cur = some c ∧ c.dones = 1) ∧ t.ctxs = s.ctxs) ∧
    (∀ (save : Bool) (d : Byte) (a n : Word), h.space = 0 → (∀ c, c = (if save then CmdBody.shardSave d.toNat a.toNat n.toNat else .shardLoad d.toNat a.toNat n.toNat) → bodyRefused s c = false ∧ addrRefused r.val h c = false) →
      let c := if save then Instr.shardSave r h d a n else .shardLoad r h d a n
      (rangeLocked s d.toNat r.val a.toNat n.toNat = true → ∃ t, Sys2Proof.Machine.exec c s = .next t ∧ completed s t r.val h 4 0 0 ∧ t.red = s.red) ∧
      (rangeLocked s d.toNat r.val a.toNat n.toNat = false → rootOpen s d.toNat a.toNat n.toNat = false → (∀ m < 8, stackUp s m = true) → s.flt.injActive = false → (∀ ch < 32, (chanOf s ch).owner = none) → chanBusy (chanOf s 28) = false →
        ∃ t, Sys2Proof.Machine.exec c s = .next t ∧ (redOf t d.toNat).locks = (redOf s d.toNat).locks ++ [(r.val, a.toNat, n.toNat)] ∧ (chanOf t 28).state = .run ∧ (chanOf t 28).owner = some r.val ∧
          (∃ e, (chanOf t 28).fixed = some e ∧ e.len = 528 * min 1024 n.toNat ∧ (save = true → e.data = rangeBytes s d.toNat a.toNat (min 1024 n.toNat))) ∧ t.mem = s.mem ∧ t.ctxs = s.ctxs)) ∧
    (∀ m : Byte, bodyRefused s (.scrubPass m.toNat) = false → stackUp s m.toNat = true → s.flt.injActive = false →
      ∃ t, Sys2Proof.Machine.exec (.scrubPass r h m) s = .next t ∧ (∃ c, (ringOf t r.val).cur = some c ∧ c.dones = 1 ∧ c.total = 32768 ∧ c.result = none) ∧
        tget 0 t.dbg.bytes (16 + 2 * m.toNat) = tget 0 s.dbg.bytes (16 + 2 * m.toNat) + 2097152 ∧ t.mem = s.mem) ∧
    (∀ cls u : Byte, h.space = 0 → bodyRefused s (.selfTest cls.toNat u.toNat) = false → addrRefused r.val h (.selfTest cls.toNat u.toNat) = false → unitBusy s r.val cls.toNat u.toNat = false →
      ∃ t, Sys2Proof.Machine.exec (.selfTest r h cls u) s = .next t ∧ (ringOf t r.val).cur = none ∧ (ringOf t r.val).cqTail = (ringOf s r.val).cqTail + 1 ∧ t.free = s.free + 1 ∧
        ∃ st : BitVec 16, (st = 0 ∨ st = 11) ∧ t.mem.host = wrBytes (wrBytes s.mem.host h.addr.toNat (testRecord (Config.freeBits s.free)))
          ((ringOf s r.val).cqBase.toNat + 16 * (ringOf s r.val).cqTail.toNat)
          (bytesLE 4 h.tag.toNat ++ bytesLE 2 st.toNat ++ [BitVec.ofNat 8 (b2n (ringOf s r.val).phase), BitVec.ofNat 8 r.val] ++ bytesLE 4 1 ++ bytesLE 4 1)) ∧
    (s.dbg.windRing = none → addrRefused r.val h .windthrow = false → (∀ ch < 32, (chanOf s ch).owner = none) → chanBusy (chanOf s 28) = false →
      ∃ t, Sys2Proof.Machine.exec (.windthrow r h) s = .next t ∧ t = { s with dma := t.dma, dbg := { s.dbg with windRing := some r.val, windAt := some (fabNs s + 2000), windShadow := [] }, cmd := t.cmd } ∧
        (∃ c, (ringOf t r.val).cur = some c ∧ c.dones = 1 ∧ c.chan = some 28) ∧ (chanOf t 28).owner = some r.val) ∧
    (∀ (p : BitVec 16) (mask : BitVec 4), bodyRefused s (.portRetrain p.toNat mask) = false → portOn s p.toNat = false → stillTrains s p.toNat mask = false →
      ∃ t, Sys2Proof.Machine.exec (.portRetrain r h p mask) s = .next t ∧ completed s t r.val h 0 1 1 ∧ t.links = s.links ∧ t.strands = s.strands) ∧
    (∀ p : BitVec 16, p.toNat < 288 → portOn s p.toNat = true →
      (∀ k ∈ subKeys s p.toNat, (∃ q ∈ strandPos s k, (strandOf s q).outOfUse = false) ∨ (linkOf s k).st ≠ .register ∧ (linkOf s k).st ≠ .active ∧ (linkOf s k).st ≠ .idle) → ∃ t, Sys2Proof.Machine.exec (.portRetrain r h p 15) s = .next t ∧
      (∀ k ∈ subKeys s p.toNat, (linkOf t k).quar = false ∧ (linkOf t k).replay = [] ∧
        (linkOf t k).st = (if (strandPos s k).all (fun q => (strandOf t q).st == .down) then .down else .clock) ∧
        ∀ q ∈ strandPos s k, (strandOf t q).outOfUse = false ∧ (strandOf t q).st = if (strandOf t q).cLost then .down else .clock) ∧
      (stillTrains t p.toNat 15 = true → ∃ c, (ringOf t r.val).cur = some c ∧ c.dones = 1 ∧ c.result = none) ∧ (stillTrains t p.toNat 15 = false → completed s t r.val h 0 1 1)) ∧
    (∀ copy len, bodyRefused s (.imageUpdate copy len) = false → addrRefused r.val h (.imageUpdate copy len) = false → s.cmd.updating = none → (∀ ch < 32, (chanOf s ch).owner = none) →
      chanBusy (chanOf s 28) = false → ∀ (cb : Byte) (lw : Word), cb.toNat = copy → lw.toNat = len →
      ∃ t, Sys2Proof.Machine.exec (.imageUpdate r h cb lw) s = .next t ∧ t = { s with dma := t.dma, cmd := t.cmd } ∧ t.cmd.updating = some (copy, r.val, 0) ∧
        (∃ c, (ringOf t r.val).cur = some c ∧ c.background = true ∧ c.chan = some 28))

/-- R387: the rotation; R381, R382: an entry is fetched and runs; R389: single steps. -/
def Obligations.ProcessorTurns : Prop :=
  ∀ s : State, mgmtUp s = true →
    (s.cmd.halted = false → Sys2Proof.Machine.exec .sstepGo s = .next s) ∧
    (s.cmd.halted = true → ∃ t, Sys2Proof.Machine.exec .sstepGo s = .next t ∧ Sys2Proof.Machine.exec .commandStepTurn { s with cmd := { s.cmd with halted := false } } = .next t) ∧
    (housekeep s = s → (s.cmd.halted = true ∨ procBusy s = true ∨ nextRing s = none) → Sys2Proof.Machine.exec .commandStepTurn s = .next s) ∧
    (∀ (go : Instr) (s0 : State) (r : Fin 8) (h : CmdHdr) (b : CmdBody) (t0 : State), go = .commandStepTurn ∧ s.cmd.halted = false ∨ go = .sstepGo ∧ s.cmd.halted = true →
      s0 = { s with cmd := { s.cmd with halted := false } } → housekeep s0 = s0 → procBusy s = false → nextRing s0 = some r.val → (ringOf s r.val).cur = none → (ringOf s r.val).aborts = [] →
      bodyFits b = true → rdBytes s.mem.host ((ringOf s r.val).sqBase.toNat + 64 * (ringOf s r.val).head.toNat) 64 = entryBytes h b →
      t0 = modRing r.val (fun g => { g with head := g.head + 1 }) (countBytes 32 64 { s0 with cmd := { s0.cmd with last := r.val } }) →
      Sys2Proof.Machine.exec go s = .next (iff (ranStep none (ringOf (startCmd r.val 0 h b t0) r.val).cur) noteHalt (startCmd r.val 0 h b t0)))

/-- R309, R312: marked dies and lost stacks; R311: spare rows; R313, R315: the patrol scrub; R316, R317: the SRAM scrub. -/
def Obligations.MemoryErrors : Prop :=
  ∀ s : State, alive s = true → s.flt.injActive = false →
    (∀ (m : Stack), stackUp s m = true →
      (∀ d : Fin 15, (dieDue s m d = false → Sys2Proof.Machine.exec (.dieMarked m d) s = .next s) ∧
        (dieDue s m d = true → (stackOf s m).marked = 15 → ∃ t, Sys2Proof.Machine.exec (.dieMarked m d) s = .next t ∧ stackOf t m = { stackOf s m with marked := BitVec.ofNat 4 d.val } ∧
          (∀ x, x ≠ m.val → stackOf t x = stackOf s x) ∧ t = { s with out := t.out, flt := t.flt, evr := t.evr, cmd := t.cmd, dbg := t.dbg, stackTbl := t.stackTbl }) ∧
        ((stackOf s m).marked.toNat = d.val → Sys2Proof.Machine.exec (.dieMarked m d) s = .next s) ∧
        (dieDue s m d = true → (stackOf s m).marked ≠ 15 → (stackOf s m).marked.toNat ≠ d.val → ∃ t, Sys2Proof.Machine.exec (.dieMarked m d) s = .next t ∧ bitOf t.units.stackLost m = true ∧
          stackUp t m = false ∧ domOn t (domStack m) = false ∧ bitOf t.pwr.lost (domStack m) = true)) ∧
      (∃ t, Sys2Proof.Machine.exec (.stackLost m .checker) s = .next t ∧ bitOf t.units.stackLost m = true ∧ stackUp t m = false ∧ domOn t (domStack m) = false ∧ t.mem.host = s.mem.host) ∧
      (∀ (row n : Nat) (b : Bool), Sys2Proof.Machine.exec (.rowSpare m row n b) s =
        .next (if (16 ≤ n ∨ 1 ≤ n ∧ b = true) ∧ row ∉ (stackOf s m).sparing ∧ (stackOf s m).sparing.length < (stackOf s m).sparesLeft.toNat then
          modStack m (fun k => { k with sparing := k.sparing ++ [row] }) s else s)) ∧
      (∀ row : Nat, (row ∉ (stackOf s m).sparing → Sys2Proof.Machine.exec (.rowSpareDone m row) s = .next s) ∧
        (row ∈ (stackOf s m).sparing → ∃ t, Sys2Proof.Machine.exec (.rowSpareDone m row) s = .next t ∧
        stackOf t m = { stackOf s m with sparing := (stackOf s m).sparing.filter (fun x => x ≠ row), sparesLeft := (stackOf s m).sparesLeft - 1, rowsSpared := (stackOf s m).rowsSpared + 1 } ∧ t.mem = s.mem)) ∧
      (∀ r : CwResult, (stackOf s m).scrubEn = true → (stackOf s m).paused = false → rowBusy s m (64 * (stackOf s m).pos) 64 = true → ∀ c, ∃ t,
        Sys2Proof.Machine.exec (.patrolScrubSlot m r c) s = .next t ∧ (stackOf t m).pos = (stackOf s m).pos ∧ (stackOf t m).cnt = (stackOf s m).cnt ∧ t.dbg.bytes = s.dbg.bytes) ∧
      (∀ r : CwResult, (stackOf s m).scrubEn = true → (stackOf s m).paused = false → (stackOf s m).boost = false → scrubTooSlow s (stackOf s m) = false →
        rowBusy s m (64 * (stackOf s m).pos) 64 = false → ∃ t,
        Sys2Proof.Machine.exec (.patrolScrubSlot m r none) s = .next t ∧ tget 0 t.dbg.bytes (16 + 2 * m) = tget 0 s.dbg.bytes (16 + 2 * m) + 64 ∧
        t = { s with out := t.out, flt := t.flt, evr := t.evr, cmd := t.cmd, dbg := t.dbg, stackTbl := t.stackTbl } ∧ (∀ x, x ≠ m.val → stackOf t x = stackOf s x) ∧
        ((stackOf s m).pos + 1 < scrubWords → (stackOf t m).pos = (stackOf s m).pos + 1 ∧ (stackOf t m).passes = (stackOf s m).passes) ∧
        ((stackOf s m).pos + 1 = scrubWords → (stackOf t m).pos = 0 ∧ (stackOf t m).passes = (stackOf s m).passes + 1 ∧ (stackOf t m).passAt = s.clock) ∧
        (stackOf t m).cnt = (match if (stackOf s m).pos ∈ (stackOf s m).bad then CwResult.uncorrectable else r with
          | .clean => (stackOf s m).cnt
          | .corrected _ => bump (bump (stackOf s m).cnt 0x100 1) 0x108 1
          | .uncorrectable => bump (bump (stackOf s m).cnt 0x104 1) 0x10C 1) ∧
        ((stackOf t m).bad = if (stackOf s m).pos ∈ (stackOf s m).bad ∨ r = .uncorrectable then insNat (stackOf s m).pos (stackOf s m).bad else (stackOf s m).bad) ∧
        (∀ d, (stackOf s m).pos ∉ (stackOf s m).bad → r = .corrected (some d) → tget [] (stackOf t m).tally d.val = (s.clock :: tget [] (stackOf s m).tally d.val).take 64)) ∧
      ((stackOf s m).lateFor = some (stackOf s m).passes → Sys2Proof.Machine.exec (.scrubLate m) s = .next s) ∧
      ((stackOf s m).lateFor ≠ some (stackOf s m).passes → ∃ t, Sys2Proof.Machine.exec (.scrubLate m) s = .next t ∧ t.clock = max s.clock ((stackOf s m).passAt + 86400000000000) ∧
        stackOf t m = { stackOf s m with late := true, lateFor := some (stackOf s m).passes, boost := (stackOf s m).scrubEn } ∧ t.mem = s.mem)) ∧
    (∀ (x : RedDie) (o : BitVec 29) (p : SramPlace), redLive s x = true → Sys2Proof.Machine.exec (.sramScrub x o .clean p) s = .next s ∧
      (∃ t, Sys2Proof.Machine.exec (.sramScrub x o .single p) s = .next t ∧ (redOf t x).cnt = bump (redOf s x).cnt 0x130 1 ∧ t.mem = s.mem ∧ t.ctxs = s.ctxs) ∧
      (∃ t, Sys2Proof.Machine.exec (.sramScrub x o .double .unallocated) s = .next t ∧ (redOf t x).cnt = bump (redOf s x).cnt 0x134 1 ∧ t.ctxs = s.ctxs ∧
        (∀ a, tget 0 t.mem.sram a = if a / 8 = (x.val * 2 ^ 29 + o.toNat) / 8 then 0 else tget 0 s.mem.sram a)))

/-- R319 to R324: rings, caches, requests, frees and the audit. -/
def Obligations.BufferPools : Prop :=
  ∀ s : State, mgmtUp s = true → s.flt.injActive = false →
    (∀ (q : Fin 52) (need k : Nat) (rest : List Nat), fitRings q need = k :: rest →
      (∀ (i : Nat) (l : List Nat), usedOf s q + ringSize k ≤ quotaOf s q → (poolRingOf s k).cache = i :: l → ∃ t, Sys2Proof.Machine.exec (.poolRequest q need) s = .next t ∧
        t = { s with bpm := t.bpm } ∧ poolRingOf t k = { poolRingOf s k with cache := l, held := (poolRingOf s k).held + 1 } ∧ usedOf t q = usedOf s q + ringSize k ∧
        tget 0 t.bpm.holders (bufKey k i) = q.val + 1 ∧ t.bpm.waiters = s.bpm.waiters ∧ (∀ x, x ≠ k → poolRingOf t x = poolRingOf s x) ∧ (∀ x, x ≠ q.val → usedOf t x = usedOf s x)) ∧
      (quotaOf s q < usedOf s q + ringSize k → ∃ t, Sys2Proof.Machine.exec (.poolRequest q need) s = .next t ∧
        t = { s with bpm := { s.bpm with waiters := s.bpm.waiters ++ [{ q := q.val, k := k, need := need }], cnt := bump s.bpm.cnt 0x70C 1 } }) ∧
      (∀ (j i : Nat) (l more : List Nat), usedOf s q + ringSize k ≤ quotaOf s q → (poolRingOf s k).cache = [] → (poolRingOf s k).ring = [] → rest = j :: more → j ≠ k →
        usedOf s q + ringSize j ≤ quotaOf s q → (poolRingOf s j).cache = i :: l → ∃ t, Sys2Proof.Machine.exec (.poolRequest q need) s = .next t ∧ t = { s with bpm := t.bpm } ∧
        poolRingOf t j = { poolRingOf s j with cache := l, held := (poolRingOf s j).held + 1 } ∧ usedOf t q = usedOf s q + ringSize j ∧ t.bpm.cnt = bump s.bpm.cnt 0x708 1 ∧
        tget 0 t.bpm.holders (bufKey j i) = q.val + 1 ∧ t.bpm.waiters = s.bpm.waiters)) ∧
    (∀ (q : Fin 52) (p : Fin 5) (i : BitVec 14), ringFor q p = none → ∃ t, Sys2Proof.Machine.exec (.poolFree q p i) s = .next t ∧ t.bpm = { s.bpm with cnt := bump s.bpm.cnt 0x704 1 } ∧
      t = { s with out := t.out, flt := t.flt, evr := t.evr, cmd := t.cmd, dbg := t.dbg, bpm := t.bpm }) ∧
    (∀ (q : Fin 52) (p : Fin 5) (i : BitVec 14) (k : Nat), ringFor q p = some k → (poolRingOf s k).valid = true →
      (tget 0 s.bpm.holders (bufKey k i.toNat) = 0 → ∃ t, Sys2Proof.Machine.exec (.poolFree q p i) s = .next t ∧ t.bpm = { s.bpm with cnt := bump s.bpm.cnt 0x700 1 } ∧
        t = { s with out := t.out, flt := t.flt, evr := t.evr, cmd := t.cmd, dbg := t.dbg, bpm := t.bpm }) ∧
      (tget 0 s.bpm.holders (bufKey k i.toNat) ≠ 0 → tget 0 s.bpm.holders (bufKey k i.toNat) ≠ q.val + 1 →
        ∃ t, Sys2Proof.Machine.exec (.poolFree q p i) s = .next t ∧ t.bpm = { s.bpm with cnt := bump s.bpm.cnt 0x704 1 }) ∧
      (tget 0 s.bpm.holders (bufKey k i.toNat) = q.val + 1 → s.bpm.waiters = [] → s.units.stackLost = 0 → ∃ t, Sys2Proof.Machine.exec (.poolFree q p i) s = .next t ∧
        t = { s with bpm := t.bpm } ∧ usedOf t q = usedOf s q - ringSize k ∧ tget 0 t.bpm.holders (bufKey k i.toNat) = 0 ∧
        let r := poolRingOf s k
        poolRingOf t k =
          if r.cache.length < 512 then { r with held := r.held - 1, cache := r.cache ++ [i.toNat] }
          else if r.copyA = 15 ∧ r.copyB = 15 then { r with held := r.held - 1, retired := r.retired + 1 }
          else { r with held := r.held - 1, ring := r.ring ++ [entryOf i.toNat] })) ∧
    (∀ k : Fin 11, let r := poolRingOf s k
      (∀ (m : Nat) (c : CwResult), m = (if r.copyA = 15 then r.copyB.toNat else r.copyA.toNat) → r.cache.length < 128 → (∀ w ∈ r.ring.take 128, entryGood w = true) → (stackOf s m).bad = [] →
        (c = .clean ∨ r.copyA = 15 ∧ r.copyB = 15 → ∃ t, Sys2Proof.Machine.exec (.cacheRefill k c) s = .next t ∧ t = { s with bpm := t.bpm } ∧
          poolRingOf t k = { r with cache := r.cache ++ (r.ring.take 128).map entryIdx, ring := r.ring.drop 128 }) ∧
        (r.ring ≠ [] → r.copyA ≠ 15 → r.copyB ≠ 15 → ∃ t, Sys2Proof.Machine.exec (.cacheRefill k .uncorrectable) s = .next t ∧
          poolRingOf t k = { r with cache := r.cache ++ (r.ring.take 128).map entryIdx, ring := r.ring.drop 128 } ∧ stackOf t m = { stackOf s m with cnt := bump (stackOf s m).cnt 0x104 1 } ∧
          t = { s with out := t.out, flt := t.flt, evr := t.evr, cmd := t.cmd, dbg := t.dbg, bpm := t.bpm, stackTbl := t.stackTbl })) ∧
      (∀ w, r.ring = [w] → entryGood w = false → r.cache.length < 128 → r.copyA = 15 → r.copyB = 15 → ∀ c, ∃ t, Sys2Proof.Machine.exec (.cacheRefill k c) s = .next t ∧ t = { s with bpm := t.bpm } ∧
        poolRingOf t k = { r with ring := [], retired := r.retired + 1 } ∧ t.bpm.cnt = bump s.bpm.cnt 0x710 1) ∧
      (128 ≤ r.cache.length → ∀ c, Sys2Proof.Machine.exec (.cacheRefill k c) s = .next s) ∧
      (448 < r.cache.length → r.copyA ≠ 15 ∨ r.copyB ≠ 15 → ∃ t, Sys2Proof.Machine.exec (.cacheWriteback k) s = .next t ∧ t = { s with bpm := t.bpm } ∧ poolRingOf t k = { r with ring := r.ring ++ (r.cache.take 128).map entryOf, cache := r.cache.drop 128 }) ∧
      (r.cache.length ≤ 448 ∨ (r.copyA = 15 ∧ r.copyB = 15) → Sys2Proof.Machine.exec (.cacheWriteback k) s = .next s) ∧
      ((r.copyA = 15 ↔ r.copyB = 15) → Sys2Proof.Machine.exec (.ringRebuilt k) s = .next s) ∧
      (∀ m : Nat, r.valid = true → r.copyA = 15 → r.copyB ≠ 15 → copyTarget s k r.copyB.toNat = some m → ∃ t, Sys2Proof.Machine.exec (.ringRebuilt k) s = .next t ∧
        (poolRingOf t k).copyA.toNat = m ∧ (poolRingOf t k).copyB = r.copyB ∧ (poolRingOf t k).copyA ≠ r.copyB ∧ stackUp s m = true ∧ (poolRingOf t k).single = false ∧
        t = { s with out := t.out, flt := t.flt, evr := t.evr, cmd := t.cmd, dbg := t.dbg, bpm := t.bpm })) ∧
    (∃ t, Sys2Proof.Machine.exec .bpmSnap s = .next t ∧ (poolBooks s = false → t.bpm.err = true) ∧ (poolBooks s = true → t.bpm.err = s.bpm.err ∧ t = { s with bpm := t.bpm }) ∧
      t.bpm.holders = s.bpm.holders ∧ t.bpm.used = s.bpm.used ∧
      (∀ k < 11, let r := poolRingOf s k; poolRingOf t k = { r with
        snapRing := r.ring.length, snapCache := r.cache.length, snapHeld := r.held, snapMoving := r.moving, snapRetired := r.retired
        snapWaiters := (s.bpm.waiters.filter fun w => w.k = k).length }))

/-- R117, R120: markers and the DRAIN limit; R124, R125: the manager's phases at a worker. -/
def Obligations.FabricPhases : Prop :=
  ∀ s : State, s.route.waitMsg = none →
    (s.route.clr = none → Sys2Proof.Machine.exec .drainLimitTimeout s = .next s ∧ Sys2Proof.Machine.exec .clearRevert s = .next s ∧
      ∀ p x q, Sys2Proof.Machine.exec (.drainMarkerReached p x q) s = .next s) ∧
    (∀ (c : Clearing) (r : Nat), s.route.clr = some c → c.src = .ring r →
      (∀ p x q, ∃ t, Sys2Proof.Machine.exec (.drainMarkerReached p x q) s = .next t ∧
        t = { s with route := { s.route with clr := some { c with markers := c.markers.filter fun m => !(m.g = 8 * subKey s p x + q.val && markerDone s m) } } }) ∧
      (c.phase ≠ .drain → Sys2Proof.Machine.exec .drainLimitTimeout s = .next s) ∧
      (∀ k : RunCmd, c.phase = .drain → (∃ m ∈ c.markers, markerDone s m = false) → (ringOf s r).cur = some k →
        (s.route.onTimeout = false → ∃ t, Sys2Proof.Machine.exec .drainLimitTimeout s = .next t ∧ t.clock = max s.clock (c.heardAt + 1000 * drainUs s) ∧ t.route.clr = none ∧ t.route.reverted = true ∧ t.route.live = s.route.live ∧
          t.route.liveSet = s.route.liveSet ∧ (∀ e ∈ dirtyEnts s c.dieMask, e ∉ t.route.dirtyEnt) ∧ (∃ x, (ringOf t r).cur = some x ∧ x.result = some (6, BitVec.ofNat 32 (c.dones + 1)))) ∧
        (s.route.onTimeout = true → ∃ t, Sys2Proof.Machine.exec .drainLimitTimeout s = .next t ∧ t.clock = max s.clock (c.heardAt + 1000 * drainUs s) ∧ (∃ x, t.route.clr = some x ∧ x.phase = commitPhase s c.dieMask ∧ x.markers = [] ∧ x.affected = c.affected ∧ x.purged = true) ∧
          t.route.live = s.route.live ∧ t.route.liveSet = s.route.liveSet ∧ t.cmd = s.cmd))) ∧
    (alive s = true → s.gctl.role ≠ .manager →
      let heard := s.route.clr.map fun c => if c.src = .manager then { c with heardAt := s.clock } else c
      (∀ m : PhaseMsg, m.revert = false → phaseFits s m = false → m.phase ≠ s.route.lastAck ∨ m.phase = .idle →
        Sys2Proof.Machine.exec (.fabricPhaseMessage m) s = .next { s with route := { s.route with clr := heard } }) ∧
      (∀ m : PhaseMsg, m.revert = false → m.phase = s.route.lastAck → m.phase ≠ .idle →
        Sys2Proof.Machine.exec (.fabricPhaseMessage m) s = .next { s with out := .phaseAck s.gctl.coord m.phase :: s.out, route := { s.route with clr := heard } }) ∧
      (∀ m : PhaseMsg, m.revert = false → m.phase = .stage → s.route.lastAck ≠ .stage → coversVc0 s m.tcMask = false → s.route.clr.isSome = true →
        Sys2Proof.Machine.exec (.fabricPhaseMessage m) s = .next { s with route := { s.route with clr := heard, waitMsg := some m } }) ∧
      (∀ m : PhaseMsg, m.revert = false → m.phase = .stage → s.route.lastAck ≠ .stage → coversVc0 s m.tcMask = false → s.route.clr = none → ∃ t, Sys2Proof.Machine.exec (.fabricPhaseMessage m) s = .next t ∧
        t = { s with out := .phaseAck s.gctl.coord .stage :: s.out, route := t.route } ∧ t.route.live = s.route.live ∧ t.route.liveSet = s.route.liveSet ∧
        (∃ c, t.route.clr = some c ∧ c.src = .manager ∧ c.phase = .stage ∧ c.dieMask = m.dieMask ∧ c.tcMask = m.tcMask)) ∧
      (∀ (m : PhaseMsg) (c : Clearing), s.route.clr = some c → c.src = .manager → c.dieMask = m.dieMask → m.revert = false → m.phase ≠ s.route.lastAck →
        (m.phase = .hold → c.phase = .stage → ∃ t, Sys2Proof.Machine.exec (.fabricPhaseMessage m) s = .next t ∧ t = { s with out := .phaseAck s.gctl.coord .hold :: s.out, route := t.route } ∧
          t.route.live = s.route.live ∧ t.route.liveSet = s.route.liveSet ∧ (∃ x, t.route.clr = some x ∧ x.phase = .hold ∧ x.affected = affectedKeys s m.dieMask)) ∧
        (m.phase = .drain → c.phase = .hold → (∀ k ∈ c.markers, markerDone s k = true) → ∃ t, Sys2Proof.Machine.exec (.fabricPhaseMessage m) s = .next t ∧
          t = { s with out := .phaseAck s.gctl.coord .drain :: s.out, route := t.route } ∧ (∃ x, t.route.clr = some x ∧ x.phase = .drain ∧ x.markers = [] ∧ x.heardAt = s.clock)) ∧
        (m.phase = .drain → c.phase = .hold → (∃ k ∈ c.markers, markerDone s k = false) → ∃ t, Sys2Proof.Machine.exec (.fabricPhaseMessage m) s = .next t ∧
          t = { s with route := t.route } ∧ (∃ x, t.route.clr = some x ∧ x.phase = .drain ∧ x.markers = c.markers.filter fun k => !markerDone s k)) ∧
        (m.phase = .commit → c.phase = .drain → ∃ t, Sys2Proof.Machine.exec (.fabricPhaseMessage m) s = .next t ∧ t = { s with out := .phaseAck s.gctl.coord .commit :: s.out, route := t.route } ∧
          (∀ e, tget 0 t.route.live e = if e ∈ dirtyEnts s m.dieMask ∧ bitOf s.units.fabLost (e / 2 ^ 20) = false then tget 0 s.route.shadow e else tget 0 s.route.live e) ∧
          (∀ e, tget 0 t.route.liveSet e = if e ∈ dirtySets s m.dieMask ∧ bitOf s.units.fabLost (e / 2 ^ 14) = false then tget 0 s.route.shadowSet e else tget 0 s.route.liveSet e) ∧
          dirtyEnts t m.dieMask = [] ∧ dirtySets t m.dieMask = []) ∧
        (m.phase = .release → c.phase = .commit → ∃ t, Sys2Proof.Machine.exec (.fabricPhaseMessage m) s = .next t ∧ t.route.clr = none ∧ t.route.reverted = false ∧
          t.route.live = s.route.live ∧ t.route.liveSet = s.route.liveSet)) ∧
      (∀ (m : PhaseMsg) (c : Clearing), s.route.clr = some c → c.src = .manager → c.committed = false → m.revert = true → ∃ t,
        Sys2Proof.Machine.exec (.fabricPhaseMessage m) s = .next t ∧ t.route.clr = none ∧ t.route.reverted = true ∧ t.route.live = s.route.live ∧ t.route.liveSet = s.route.liveSet) ∧
      (∀ c : Clearing, s.route.clr = some c → c.src = .manager → c.phase = .hold ∨ c.phase = .drain → ∃ t, Sys2Proof.Machine.exec .clearRevert s = .next t ∧
        t.clock = max s.clock (c.heardAt + s.route.holdLimit.toNat * 1000000) ∧ t.route.clr = none ∧
        t.route.reverted = true ∧ t.route.live = s.route.live ∧ t.route.liveSet = s.route.liveSet ∧ .phaseAck s.gctl.coord .idle ∈ t.out) ∧
      (∀ (c : Clearing) (m : Marker), s.route.clr = some c → c.src = .manager → c.phase = .drain → c.markers = [m] → markerDone s m = true → ∀ (p : Port) (x : Strand) (q : Fin 8), m.g = 8 * subKey s p x + q.val →
        Sys2Proof.Machine.exec (.drainMarkerReached p x q) s = .next { s with
          out := .phaseAck s.gctl.coord .drain :: s.out, route := { s.route with clr := some { c with markers := [] }, lastAck := .drain } }))

/-- R124, R125: phases, acknowledgements and the phase limit. -/
def Obligations.FabricChange : Prop :=
  ∀ (w : Coord) (s : State), alive s = true → s.gctl.role = .manager →
    (s.mgr.change = none → (∀ ph, ph ≠ .idle ∨ s.mgr.lastChange = none → Sys2Proof.Machine.exec (.phaseAck w ph) s = .next s) ∧
      (∀ f, s.mgr.lastChange = some f → w ≠ s.gctl.coord → Sys2Proof.Machine.exec (.phaseAck w .idle) s = .next { s with
        out := .phaseMsg w { revert := false, phase := .stage, dieMask := f.dieMask, tcMask := f.tcMask, recs := f.recs } :: s.out
        mgr := { s.mgr with phaseAt := s.clock, change := some (changeFor f w) } }) ∧
      Sys2Proof.Machine.exec (.phaseLimitTimeout w) s = .next s) ∧
    (∀ f : FabChange, s.mgr.change = some f →
      (f.phase ≠ .idle → f.waiting.filter (· ≠ w) ≠ [] → Sys2Proof.Machine.exec (.phaseAck w f.phase) s =
        .next { s with mgr := { s.mgr with change := some { f with waiting := f.waiting.filter (· ≠ w) } } }) ∧
      (∀ ph, ph ≠ .idle → ph ≠ f.phase → Sys2Proof.Machine.exec (.phaseAck w ph) s = .next s) ∧
      (∀ ph, (f.phase, ph) ∈ [(ClrPhase.stage, ClrPhase.hold), (.hold, .drain), (.drain, .commit), (.commit, .release)] → f.workers ≠ [] → s.gctl.coord ∉ f.workers →
        f.waiting.filter (· ≠ w) = [] → Sys2Proof.Machine.exec (.phaseAck w f.phase) s = .next { s with
          out := (f.workers.map fun x => Out.phaseMsg x { revert := false, phase := ph, dieMask := f.dieMask, tcMask := f.tcMask, recs := [] }).reverse ++ s.out
          mgr := { s.mgr with phaseAt := s.clock, change := some { f with phase := ph, waiting := f.workers, begun := f.begun || ph == .commit || ph == .release } } }) ∧
      (f.phase = .release → f.waiting.filter (· ≠ w) = [] → s.mgr.again = [] → ∃ t, Sys2Proof.Machine.exec (.phaseAck w .release) s = .next t ∧ t = { s with mgr := t.mgr, cmd := t.cmd } ∧
        t.mgr = { s.mgr with change := none, lastChange := some { f with waiting := [] } } ∧
        (∀ r k, f.ring = some r → (ringOf s r).cur = some k → (ringOf t r).cur = some { k with result := some (0, 0) })) ∧
      (f.begun = true → w ∈ f.workers → f.waiting.filter (· ≠ w) ≠ [] → Sys2Proof.Machine.exec (.phaseAck w .idle) s = .next { s with mgr := { s.mgr with
        again := s.mgr.again ++ [changeFor f w], change := some { f with workers := f.workers.filter (· ≠ w), waiting := f.waiting.filter (· ≠ w) } } }) ∧
      (w ∉ f.waiting → Sys2Proof.Machine.exec (.phaseLimitTimeout w) s = .next s) ∧
      (w ∈ f.waiting → f.begun = true → f.waiting.filter (· ≠ w) ≠ [] → Sys2Proof.Machine.exec (.phaseLimitTimeout w) s =
        .next { s with clock := max s.clock (s.mgr.phaseAt + 1000 * s.mgr.phaseLimitUs), mgr := { s.mgr with change := some { f with workers := f.workers.filter (· ≠ w), waiting := f.waiting.filter (· ≠ w) } } }) ∧
      (w ∈ f.waiting → f.begun = false → s.gctl.coord ∉ f.workers → ∃ t, Sys2Proof.Machine.exec (.phaseLimitTimeout w) s = .next t ∧ t.mgr.change = none ∧
        t.out = (f.workers.map fun x => Out.phaseMsg x { revert := true, phase := f.phase, dieMask := f.dieMask, tcMask := f.tcMask, recs := if f.phase = .stage then f.recs else [] }).reverse ++ s.out ∧
        t = { s with clock := max s.clock (s.mgr.phaseAt + 1000 * s.mgr.phaseLimitUs), out := t.out, mgr := t.mgr, cmd := t.cmd } ∧
        (∀ r k, f.ring = some r → (ringOf s r).cur = some k → (ringOf t r).cur = some { k with result := some (1, 0) })))

/-- R126, R127: the table window; R107, R108: what a set must satisfy; R123: writes during a clearing; R452: a die that is off. -/
def Obligations.TableWindow : Prop :=
  ∀ (s : State) (val : Word), mgmtUp s = true →
    (∃ t, Sys2Proof.Machine.exec (.rtWinCtlWrite val) s = .next t ∧ t = { s with route := { s.route with winCtl := t.route.winCtl, winData := t.route.winData } } ∧
      winDie t = fld val 30 2 ∧ winTable t = fld val 28 2 ∧ fld t.route.winCtl 26 2 = fld val 26 2 ∧ winIndex t = fld val 0 20 ∧ fld t.route.winCtl 24 2 = fld s.route.winCtl 24 2 ∧
      (dieLive s (fld val 30 2) = true → ∀ k < 12, tget 0 t.route.winData k = (winRecord t).getD k 0) ∧ (dieLive s (fld val 30 2) = false → t.route.winData = s.route.winData)) ∧
    (dieLive s (winDie s) = false → ∀ k, ∃ t, Sys2Proof.Machine.exec (.rtWinDataWrite k val) s = .next t ∧ t.route = s.route ∧ t.swc = s.swc ∧ t.pwr = { s.pwr with offAcc := satAdd s.pwr.offAcc 1 }) ∧
    (dieLive s (winDie s) = true →
      (∀ k : Fin 12, winTable s = 1 → k ≠ 8 → Sys2Proof.Machine.exec (.rtWinDataWrite k val) s = .next { s with route := { s.route with winData := tset 0 s.route.winData k val } }) ∧
      (winTable s = 0 → s.route.clr = none → ∃ t, Sys2Proof.Machine.exec (.rtWinDataWrite 0 val) s = .next t ∧ t = { s with route := t.route } ∧
        (∀ e, tget 0 t.route.shadow e = if e = entKey (winDie s) (winIndex s) then val &&& 0xC0003FFF#32 else tget 0 s.route.shadow e) ∧ entKey (winDie s) (winIndex s) ∈ t.route.dirtyEnt ∧
        t.route.live = s.route.live ∧ t.route.liveSet = s.route.liveSet ∧ t.route.shadowSet = s.route.shadowSet ∧
        winIndex t = (if bitOf s.route.winCtl 26 then (winIndex s + 1) % 2 ^ 20 else winIndex s) ∧ fld t.route.winCtl 24 2 = 0) ∧
      (winTable s = 0 → s.route.clr.isSome = true → entKey (winDie s) (winIndex s) ∈ s.route.dirtyEnt → ∃ t, Sys2Proof.Machine.exec (.rtWinDataWrite 0 val) s = .next t ∧
        t.route.shadow = s.route.shadow ∧ t.route.live = s.route.live ∧ fld t.route.winCtl 24 2 = 2 ∧ winIndex t = winIndex s) ∧
      (∀ w : BitVec 288, winTable s = 1 → winIndex s < 2 ^ 14 → s.route.clr = none → w = setOfWords ((List.range 8).map (fun k => tget 0 s.route.winData k) ++ [val]) → ∃ t,
        Sys2Proof.Machine.exec (.rtWinDataWrite 8 val) s = .next t ∧ t = { s with route := t.route } ∧ t.route.live = s.route.live ∧ t.route.liveSet = s.route.liveSet ∧ t.route.shadow = s.route.shadow ∧
        (setOk s w = true → (∀ e, tget 0 t.route.shadowSet e = if e = setKey (winDie s) (winIndex s) then w else tget 0 s.route.shadowSet e) ∧
          setKey (winDie s) (winIndex s) ∈ t.route.dirtySet ∧ fld t.route.winCtl 24 2 = 0) ∧
        (setOk s w = false → t.route.shadowSet = s.route.shadowSet ∧ t.route.dirtySet = s.route.dirtySet ∧ fld t.route.winCtl 24 2 = 1 ∧ winIndex t = winIndex s)))

/-- R157: the Glade audit; R170, R172: shapers and policers; R176, R182: histograms. -/
def Obligations.SwitchCoreRegisters : Prop :=
  ∀ (d : FabDie) (s : State), mgmtUp s = true →
    (dieLive s d = false → ∀ c, (c = .auditSnap d ∨ (∃ i v, c = .shaperWrite d i v) ∨ (∃ j k v, c = .policerWrite d j k v) ∨ (∃ h, c = .histClr d h) ∨ ∃ h q, c = Instr.histQueueChange d h q) →
      ∃ t, Sys2Proof.Machine.exec c s = .next t ∧ t.swc = s.swc ∧ t.queues = s.queues ∧ t.units = s.units ∧ t.pwr = { s.pwr with offAcc := satAdd s.pwr.offAcc 1 }) ∧
    (dieLive s d = true →
      (∃ t, Sys2Proof.Machine.exec (.auditSnap d) s = .next t ∧
        (gladeBook s d = true → bridgeBook s d = true → t = { s with swc := t.swc } ∧ swcOf t d = { swcOf s d with
          snapFree := BitVec.ofNat 20 (swcOf s d).free, snapQueued := BitVec.ofNat 20 (swcOf s d).queued, snapVoq := BitVec.ofNat 20 (swcOf s d).voq
          snapLanding := BitVec.ofNat 20 (swcOf s d).landing, snapOpen := BitVec.ofNat 20 (swcOf s d).opened } ∧ ∀ e, e ≠ d.val → swcOf t e = swcOf s e) ∧
        ((gladeBook s d && bridgeBook s d) = false → (swcOf s d).auditFailAt = none → (swcOf t d).auditErr = true ∧ (swcOf t d).auditFailAt = some s.clock ∧ t.units = s.units) ∧
        (∀ x, (gladeBook s d && bridgeBook s d) = false → (swcOf s d).auditFailAt = some x → s.clock ≤ x + 1000000000 → bitOf s.units.fabLost d = false → bitOf t.units.fabLost d = true ∧ dieLive t d = false)) ∧
      (∀ (i : Fin 2304) (v : Word), ∃ t, Sys2Proof.Machine.exec (.shaperWrite d i v) s = .next t ∧ t = { s with queues := t.queues, scheds := t.scheds } ∧
        (queueOf t (2304 * d.val + i.val)).shaper = v ∧ shCredit (queueOf t (2304 * d.val + i.val)) = 0 ∧ (queueOf t (2304 * d.val + i.val)).ents = (queueOf s (2304 * d.val + i.val)).ents ∧
        (∀ g, g ≠ 2304 * d.val + i.val → queueOf t g = queueOf s g)) ∧
      (∀ (j : Fin 2304) (k : Fin 3) (v : Word), ∃ t, Sys2Proof.Machine.exec (.policerWrite d j k v) s = .next t ∧ t = { s with swc := t.swc } ∧
        (let p := tget {} (swcOf s d).policers j; let w2 := if k = 2 then v else p.w2
         tget {} (swcOf t d).policers j = { w0 := if k = 0 then v &&& 0xC003FFFF#32 else p.w0, w1 := if k = 1 then v &&& 0x3FFFF#32 else p.w1, w2 := w2
                                            c := fld w2 0 16 * 256 * 800, p := (fld w2 16 16 * 256 * 800 : Nat), at_ := s.clock }) ∧
        (∀ i, i ≠ j.val → tget {} (swcOf t d).policers i = tget {} (swcOf s d).policers i) ∧ ∀ e, e ≠ d.val → swcOf t e = swcOf s e) ∧
      (∀ h : Fin 64, (∃ t, Sys2Proof.Machine.exec (.histClr d h) s = .next t ∧ t = { s with swc := t.swc } ∧
          tget {} (swcOf t d).hist h = { tget {} (swcOf s d).hist h with depth := [], delay := [], maxDepth := 0, maxDelay := 0 } ∧
          (∀ i, i ≠ h.val → tget {} (swcOf t d).hist i = tget {} (swcOf s d).hist i) ∧ ∀ e, e ≠ d.val → swcOf t e = swcOf s e) ∧
        ∀ q, ∃ t, Sys2Proof.Machine.exec (.histQueueChange d h q) s = .next t ∧ t = { s with swc := t.swc } ∧
          ((tget {} (swcOf s d).hist h).queue = q → tget {} (swcOf t d).hist h = tget {} (swcOf s d).hist h) ∧
          ((tget {} (swcOf s d).hist h).queue ≠ q → tget {} (swcOf t d).hist h = { tget {} (swcOf s d).hist h with depth := [], delay := [], maxDepth := 0, maxDelay := 0, queue := q })))

/-- R40: control slots; R42, R46, R49, R50: flits, credits and replay; R52: the deadline. -/
def Obligations.LinkFlits : Prop :=
  ∀ (p : Port) (x : Strand) (s : State), portOn s p = true → s.flt.injActive = false →
    let k := subKey s p x
    let q := 4 * p.val + x.val
    let l := linkOf s k
    (slotStrands s k ≠ [] → ∃ t, Sys2Proof.Machine.exec (.controlSlotSend p x) s = .next t ∧ t = { s with out := t.out, dbg := t.dbg, links := t.links, strands := t.strands } ∧
      linkOf t k = { l with csc := l.csc + 1, nakPend := false, credSent := credShown s k, train := if l.st = .active then [] else l.train
                            emptyAt := if creditPending s k && l.replay.isEmpty then s.clock else l.emptyAt } ∧ (∀ j, j ≠ k → linkOf t j = linkOf s j) ∧
      (∀ r, strandOf t r = if r ∈ slotStrands s k then rotSent (strandOf s r) else strandOf s r) ∧
      (∀ r ∈ slotStrands s k, ∀ lane ∈ lanesOf s r, .slot r lane (slotBytes (modLink k (fun l => { l with csc := l.csc + 1 }) s) k r lane) ∈ t.out)) ∧
    (slotStrands s k = [] → Sys2Proof.Machine.exec (.controlSlotSend p x) s = .next s) ∧
    (linkRuns l = true →
    (∀ (slot : BitVec 2048) (b : List Byte), b = bytesBE 256 slot.toNat → q ∈ liveStrands s k → (strandOf s q).st ≠ .clock →
      (be b 248 8 ≠ (crc64 (b.take 248)).toNat → ∃ t, Sys2Proof.Machine.exec (.controlSlotReceived p x slot) s = .next t ∧ t = { s with ports := t.ports, dbg := t.dbg } ∧
        (portOf t p).cnt = bump (portOf s p).cnt 0x100 1) ∧
      (be b 248 8 = (crc64 (b.take 248)).toNat → be b 0 8 ≠ 0xA5C30FF0E1963C5A → ∃ t, Sys2Proof.Machine.exec (.controlSlotReceived p x slot) s = .next t ∧ t = { s with dbg := t.dbg }) ∧
      (∀ c : BitVec 16, be b 248 8 = (crc64 (b.take 248)).toNat → be b 0 8 = 0xA5C30FF0E1963C5A → l.cscRx = some c → seqGe (BitVec.ofNat 16 (be b 10 2)) c = true →
        BitVec.ofNat 16 (be b 10 2) ≠ c → l.st = .active → byteAt b 9 = 8 → byteAt b 35 = 0 → ∃ t, Sys2Proof.Machine.exec (.controlSlotReceived p x slot) s = .next t ∧
        t = { s with ports := t.ports, strands := t.strands, links := t.links, dbg := t.dbg } ∧ (∀ j, j ≠ k → linkOf t j = linkOf s j) ∧
        (linkOf t k).replay = l.replay.filter (fun f => !seqGe (BitVec.ofNat 24 (be b 12 3)) f.seq) ∧
        (∀ v < 8, tget 0 (linkOf t k).credHeld v = tget 0 l.credHeld v + (BitVec.ofNat 16 (be b (16 + 2 * v) 2) - tget 0 l.credSeen v).toNat) ∧
        (byteAt b 15 = 1 → (linkOf t k).resend = (linkOf t k).replay.map fun f => { f with replay := true }) ∧
        (byteAt b 15 = 0 → (linkOf t k).resend = l.resend.filter (fun f => !seqGe (BitVec.ofNat 24 (be b 12 3)) f.seq)) ∧
        ((∀ lane ∈ lanesOf s q, bitOf (BitVec.ofNat 16 (be b 32 2)) (4 * x.val + laneWl (strandOf s q) lane) = true) →
          (strandOf t q).due = (strandOf s q).due.filter (fun d => !seqGe (BitVec.ofNat 24 (be b 12 3)) d.1)))) ∧
    (l.idleTx = false →
      (∀ (f : Flit) (r : List Flit), l.resend = f :: r → ∃ t, Sys2Proof.Machine.exec (.flitTransmit p x) s = .next t ∧
        t = { s with out := t.out, dbg := t.dbg, ports := t.ports, links := t.links, strands := t.strands } ∧
        t.out = .flit k { stampTime s f with replay := true, sentAt := s.clock } 0 :: s.out ∧ (linkOf t k).resend = r ∧ (linkOf t k).txSeq = l.txSeq ∧ (linkOf t k).credHeld = l.credHeld ∧
        (portOf t p).cnt = bump (portOf s p).cnt 0x110 1 ∧ (∀ j, j ≠ k → linkOf t j = linkOf s j) ∧
        (∀ r ∈ liveStrands s k, strandOf t r = { strandOf s r with due := (strandOf s r).due.filter (fun d => d.1 ≠ f.seq) ++ [(f.seq, s.clock)] })) ∧
      (∀ f : Flit, l.resend = [] → nextFlit l = some f → f.typ ≠ 5 → l.replay.length < 4096 → keyGone s k f = false → ∃ t, Sys2Proof.Machine.exec (.flitTransmit p x) s = .next t ∧
        t.out = .flit k { f with seq := l.txSeq, sentAt := s.clock } 0 :: s.out ∧ (linkOf t k).txSeq = l.txSeq + 1 ∧
        (linkOf t k).credHeld = tset 0 l.credHeld f.vc (tget 0 l.credHeld f.vc - 1) ∧ (linkOf t k).replay = l.replay ++ [{ f with seq := l.txSeq, sentAt := s.clock }] ∧
        (∀ g pid pk, f.src = some (g, pid) → pktOf s pid = some pk → (pktOf t pid).all (fun x => x.begun) = true) ∧
        (f.src = none → t = { s with out := t.out, dbg := t.dbg, links := t.links, strands := t.strands } ∧ (∀ j, j ≠ k → linkOf t j = linkOf s j) ∧
          linkOf t k = { l with
            txSeq := l.txSeq + 1, txq := dropFirst f l.txq, credHeld := tset 0 l.credHeld f.vc (tget 0 l.credHeld f.vc - 1)
            replay := l.replay ++ [{ f with seq := l.txSeq, sentAt := s.clock }] }) ∧
        (∀ r ∈ liveStrands s k, strandOf t r = { strandOf s r with due := (strandOf s r).due.filter (fun d => d.1 ≠ l.txSeq) ++ [(l.txSeq, s.clock)] })) ∧
      (l.resend = [] → nextFlit l = none ∨ 4096 ≤ l.replay.length ∧ (∀ f, nextFlit l = some f → keyGone s k f = false) → ∃ t, Sys2Proof.Machine.exec (.flitTransmit p x) s = .next t ∧
        t = { s with out := .flit k { seq := 0, vc := 0, typ := 4, len := 0, poison := false, replay := false, data := [], sentAt := s.clock } 0 :: s.out, dbg := t.dbg })) ∧
    (∀ (w : BitVec 2048) (errs : List (Fin 544)) (again : Bool) (b : List Byte) (f : Flit), b = bytesBE 256 w.toNat → f = flitOfBytes b →
      (rsOk errs = false ∨ be b 248 8 ≠ (crc64 (b.take 248)).toNat ∨ f.typ ≠ 4 ∧ f.seq ≠ l.rxSeq → ∃ t, Sys2Proof.Machine.exec (.flitReceived p x w errs again) s = .next t ∧
        t = { s with ports := t.ports, dbg := t.dbg, links := t.links, strands := t.strands } ∧ (linkOf t k).rxSeq = l.rxSeq ∧ (linkOf t k).rxq = l.rxq ∧ (linkOf t k).occ = l.occ ∧
        (l.nakFor = none → (linkOf t k).nakPend = true) ∧ (∀ j, j ≠ k → linkOf t j = linkOf s j)) ∧
      (rsOk errs = true → be b 248 8 = (crc64 (b.take 248)).toNat → f.seq = l.rxSeq → l.st = .active → f.typ = 3 → f.vc ≤ 6 → 1 ≤ f.len → f.len ≤ 232 → tget 0 l.framing f.vc = 0 →
        tget 0 l.occ f.vc < tget 0 l.adv f.vc → ∃ t, Sys2Proof.Machine.exec (.flitReceived p x w errs again) s = .next t ∧
        t = { s with ports := t.ports, dbg := t.dbg, links := t.links, strands := t.strands } ∧
        linkOf t k = { l with rxSeq := l.rxSeq + 1, nakFor := none, occ := tset 0 l.occ f.vc (tget 0 l.occ f.vc + 1), rxq := l.rxq ++ [f], framing := (linkOf t k).framing } ∧
        tget 0 (linkOf t k).framing f.vc = 0 ∧ (∀ j, j ≠ k → linkOf t j = linkOf s j) ∧
        (again = false → (portOf t p).cnt = bump (portOf s p).cnt 0x104 (uniq errs).length) ∧ (again = true → t.ports = s.ports))) ∧
    ((strandOf s q).due = [] → Sys2Proof.Machine.exec (.ackDeadlineMiss p x) s = .next s) ∧
    (∀ d more, l.idleTx = false → q ∈ liveStrands s k → (strandOf s q).due = d :: more → (∀ r ∈ liveStrands s k, (strandOf s r).misses < 3) → ∃ t,
      Sys2Proof.Machine.exec (.ackDeadlineMiss p x) s = .next t ∧
      t = { s with clock := max s.clock (d.2 + 2000), ports := t.ports, strands := t.strands, links := t.links } ∧
      linkOf t k = { l with resend := l.replay.map fun f => { f with replay := true } } ∧ (∀ j, j ≠ k → linkOf t j = linkOf s j) ∧ (strandOf t q).due = [] ∧
      (∀ r, (strandOf t r).misses = (strandOf s r).misses ∨ r ∈ liveStrands s k ∧ (strandOf t r).misses = (strandOf s r).misses + 1) ∧
      (∀ r, (liveStrands s k).filter (fun r => !((lanesOf s r).all fun lane => bitOf l.peerHealth (4 * (r % 4) + laneWl (strandOf s r) lane))) = [r] → (strandOf s r).rotating = none →
        (strandOf t r).misses = (strandOf s r).misses + 1 ∧ (portOf t p).cnt = bump (portOf s p).cnt 0x114 1 ∧ ∀ j, j ≠ r → (strandOf t j).misses = (strandOf s j).misses)))

/-- R53, R58: loss of c; R55, R56: rotation and recalibration. -/
def Obligations.StrandsAndLanes : Prop :=
  ∀ (p : Port) (x : Strand) (s : State), portOn s p = true →
    let q := 4 * p.val + x.val
    let k := subKey s p x
    let ev (t : State) := { s with out := t.out, flt := t.flt, evr := t.evr, cmd := t.cmd, dbg := t.dbg, ports := t.ports, strands := t.strands }
    (pastTraining (linkOf s k).st = true → (strandOf s q).alone = false → (strandOf s q).outOfUse = false → ∃ t, Sys2Proof.Machine.exec (.cLossTimeout p x) s = .next t ∧
      (strandOf t q).cLost = true ∧ (strandOf t q).retired = true ∧ (strandOf t q).outOfUse = true ∧ (strandOf t q).st = .down ∧
      ((∃ r, r ≠ q ∧ r ∈ liveStrands s k) → (linkOf t k).st = (linkOf s k).st ∧ (linkOf t k).resend = (linkOf s k).replay.map fun f => { f with replay := true }) ∧
      ((∀ r, r ∈ liveStrands s k → r = q) → (linkOf t k).st = .down)) ∧
    (∀ lane : Fin 2,
      (correctedIn s q lane ≤ (optOf s (p / 12)).rotThr.toNat → Sys2Proof.Machine.exec (.rotationRequest p x lane false) s = .next s) ∧
      (∀ (a : Bool) (sp : Nat), ((optOf s (p / 12)).rotThr.toNat < correctedIn s q lane ∨ a = true) → rotatable s q lane = true → (strandOf s q).recal = none →
        (spareFor s q = some sp → ∃ t, Sys2Proof.Machine.exec (.rotationRequest p x lane a) s = .next t ∧ t = ev t ∧ t.ports = s.ports ∧
          strandOf t q = { strandOf s q with rotating := some lane, rotStage := 0, rot := rotByte 1 q (laneWl (strandOf s q) lane)
                                             clean := setBit (strandOf s q).clean (laneWl (strandOf s q) lane) false } ∧ (∀ r, r ≠ q → strandOf t r = strandOf s r)) ∧
        (spareFor s q = none → laneWl (strandOf s q) (1 - lane) ≠ 0 → ∃ t, Sys2Proof.Machine.exec (.rotationRequest p x lane a) s = .next t ∧ t = ev t ∧ laneWl (strandOf t q) lane = 0 ∧
          bitOf (strandOf t q).released (laneWl (strandOf s q) lane) = true ∧ laneWl (strandOf t q) (1 - lane) = laneWl (strandOf s q) (1 - lane) ∧
          (∀ r, r ≠ q → strandOf t r = strandOf s r)))) ∧
    (∀ (lane : Fin 2) (sp : Nat), rotatable s q lane = true → (strandOf s q).recal = none → laneWl (strandOf s q) lane = lane.val + 1 → spareFor s q = some sp →
      (if lane = 0 then (strandOf s q).recalAt0 else (strandOf s q).recalAt1) = 0 → ∃ t, Sys2Proof.Machine.exec (.ringRecalibrationSchedule p x lane) s = .next t ∧ t = ev t ∧
      (strandOf t q).recal = some lane ∧ (strandOf t q).rotating = some lane ∧ (strandOf t q).rot = rotByte 1 q (lane.val + 1) ∧
      (if lane = 0 then (strandOf t q).recalAt0 else (strandOf t q).recalAt1) = s.clock ∧ (∀ r, r ≠ q → strandOf t r = strandOf s r)) ∧
    (∀ (lane : Fin 2) (ok : Bool), ((strandOf s q).recal ≠ some lane ∨ (strandOf s q).rotating.isSome = true ∨ laneWl (strandOf s q) lane = lane.val + 1 → Sys2Proof.Machine.exec (.ringRecalibrationDone p x lane ok) s = .next s) ∧
      ((strandOf s q).recal = some lane → (strandOf s q).rotating = none → laneWl (strandOf s q) lane ≠ lane.val + 1 → ∃ t,
        Sys2Proof.Machine.exec (.ringRecalibrationDone p x lane ok) s = .next t ∧ t = { s with strands := t.strands } ∧
        strandOf t q = (if ok then { strandOf s q with recal := none, rotating := some lane, rotStage := 0, rot := rotByte 2 q (lane.val + 1)
                                                       clean := setBit (strandOf s q).clean (lane.val + 1) true }
          else { strandOf s q with recal := none, released := setBit (strandOf s q).released (lane.val + 1) true }) ∧ (∀ r, r ≠ q → strandOf t r = strandOf s r)))

/-- R57, R58: the steps of training, strand by strand (log entry 107); R59: TS1; R54: retries. -/
def Obligations.TrainingSequence : Prop :=
  ∀ (p : Port) (x : Strand) (s : State), listening s p = true →
    let q := 4 * p.val + x.val
    let k := subKey s p x
    let l := linkOf s k
    (l.st = .down → l.quar = false → l.reason = .noLight → (strandOf s q).outOfUse = false → (strandOf s q).alone = false → q ∈ strandPos s k → ∃ t,
      Sys2Proof.Machine.exec (.cDetected p x) s = .next t ∧ t = { s with out := t.out, strands := t.strands, links := t.links } ∧ (linkOf t k).st = .clock ∧
      (strandOf t q).st = .clock ∧ (strandOf t q).cLost = false ∧ (strandOf t q).light = .full ∧ (∀ j, j ≠ k → linkOf t j = linkOf s j)) ∧
    (l.st = .clock ∨ l.st = .eq ∨ l.st = .align ∨ l.st = .config ∨ l.st = .assign → (strandOf s q).st = .down → (strandOf s q).outOfUse = false → (strandOf s q).alone = false →
      q ∈ strandPos s k → ∃ t, Sys2Proof.Machine.exec (.cDetected p x) s = .next t ∧ t = { s with strands := t.strands, links := t.links } ∧ (linkOf t k).st = .clock ∧
      (strandOf t q).st = .clock ∧ (strandOf t q).cLost = false ∧ (∀ r, r ≠ q → (strandOf s r).st ≠ .assign → strandOf t r = strandOf s r) ∧ (∀ j, j ≠ k → linkOf t j = linkOf s j)) ∧
    (∀ eq : List EqResult, (strandOf s q).alone = false → (strandOf s q).st ≠ .clock → (strandOf s q).st ≠ .eq → (strandOf s q).st ≠ .align →
      Sys2Proof.Machine.exec (.trainingStepDone p x eq) s = .next s) ∧
    (∀ eq : List EqResult, q ∈ liveStrands s k → (strandOf s q).st = .clock ∨ (strandOf s q).st = .eq ∨ (strandOf s q).st = .align →
      l.st = .clock ∨ l.st = .eq ∨ l.st = .align → (∀ r ∈ liveStrands s k, trainRank l.st ≤ trainRank (strandOf s r).st) → ∃ t,
      Sys2Proof.Machine.exec (.trainingStepDone p x eq) s = .next t ∧ t = { s with opt := t.opt, strands := t.strands, links := t.links } ∧
      (∀ j, j ≠ k → linkOf t j = linkOf s j) ∧ (∀ r, r ≠ q → strandOf t r = strandOf s r) ∧
      strandOf t q = { strandOf s q with st := match (strandOf s q).st with | .clock => .eq | .eq => .align | _ => .config
                                         clean := if (strandOf s q).st = .align then aligned (strandOf s q) else (strandOf s q).clean } ∧
      ((strandOf s q).st ≠ .eq → t.opt = s.opt) ∧
      ((strandOf s q).st = .eq → ∀ e, eq = [e] → bitOf (tget 0 (optOf s (p / 12)).eq (16 * (p % 12) + 4 * x.val + e.w.toNat)) 5 = false →
        fld (tget 0 (optOf t (p / 12)).eq (16 * (p % 12) + 4 * x.val + e.w.toNat)) 0 5 = e.code.toNat) ∧
      ((∃ r ∈ liveStrands s k, r ≠ q ∧ (strandOf s r).st = l.st) → linkOf t k = l) ∧
      ((strandOf s q).st = l.st → (∀ r ∈ liveStrands s k, r ≠ q → trainRank l.st < trainRank (strandOf s r).st) →
        (l.st = .clock → linkOf t k = { l with st := .eq, train := [] }) ∧ (l.st = .eq → linkOf t k = { l with st := .align, train := [] }) ∧
        (l.st = .align → (linkOf t k).st = .config ∧ (linkOf t k).train = ts2Msg s k ∧ ∀ v < 8, tget 0 (linkOf t k).adv v = advOf s k v))) ∧
    ((strandOf s q).st = .clock ∨ (strandOf s q).st = .eq ∨ (strandOf s q).st = .align ∨ (strandOf s q).st = .config ∨ (strandOf s q).st = .assign → q ∈ liveStrands s k → ∃ t,
      Sys2Proof.Machine.exec (.trainingStepTimeout p x) s = .next t ∧
      ((strandOf s q).row < 7 → t = { s with strands := t.strands, links := t.links } ∧ (linkOf t k).st = .clock ∧ (strandOf t q).st = .clock ∧ (strandOf t q).row = (strandOf s q).row + 1 ∧
        (strandOf t q).restarts = satAdd16 (strandOf s q).restarts 1 ∧ (∀ r, r ≠ q → (strandOf s r).st ≠ .assign → strandOf t r = strandOf s r) ∧ (∀ j, j ≠ k → linkOf t j = linkOf s j)) ∧
      (7 ≤ (strandOf s q).row → (linkOf t k).st = .down ∧ (linkOf t k).reason = .trainTimeout)) ∧
    (∀ ty st bo sp : Byte, l.st = .eq ∨ l.st = .align ∨ l.st = .config ∨ (l.st = .clock ∧ ((strandOf s q).st = .eq ∨ (strandOf s q).st = .align ∨ (strandOf s q).st = .config)) →
      Sys2Proof.Machine.exec (.ts1 p x ty st bo sp) s =
      .next (if st.toNat ≤ 3 then modLink k (fun l => { l with partnerSwitch := ty == 1, partnerBreakout := some bo, partnerSp := sp == 1 }) s else s)) ∧
    (l.quar = true ∨ l.st ≠ .down → Sys2Proof.Machine.exec (.downRetry p x) s = .next s) ∧
    (l.quar = false → l.st = .down → (∃ r ∈ strandPos s k, (strandOf s r).outOfUse = false ∧ (strandOf s r).cLost = false) → ∃ t, Sys2Proof.Machine.exec (.downRetry p x) s = .next t ∧
      t = { s with out := t.out, strands := t.strands, links := t.links } ∧ (linkOf t k).st = .clock ∧ (∀ j, j ≠ k → linkOf t j = linkOf s j) ∧
      (∀ r ∈ strandPos s k, (strandOf s r).outOfUse = false → (strandOf t r).st = if (strandOf s r).cLost then .down else .clock))

/-- R59, R60, R489: the messages of assignment; R61, R98 to R103: registration. -/
def Obligations.AssignmentAndRegistration : Prop :=
  ∀ (p : Port) (x : Strand) (s : State),
    let k := subKey s p x
    let l := linkOf s k
    let told (t : State) (n : Byte) : Prop := ∀ r ∈ slotStrands s k, (strandOf s r).alone = false → (strandOf s r).st ≠ .eq → (strandOf s r).st ≠ .align → ∀ lane ∈ lanesOf s r,
      ∃ b, .slot r lane b ∈ t.out ∧ sub b 36 2 = [7, n]
    (listening s p = true →
      (∀ (cs : List (BitVec 16)) (d : BitVec 16) (v : Byte), l.st = .config → ∃ t, Sys2Proof.Machine.exec (.ts2 p x cs d v) s = .next t ∧
        (v ≠ 1 → (linkOf t k).st = .down ∧ (linkOf t k).reason = .refused ∧ told t 2) ∧
        (v = 1 → l.partnerBreakout ≠ some ((portOf s p).breakout.setWidth 8) → (linkOf t k).st = .down ∧ (linkOf t k).reason = .breakout ∧ told t 1) ∧
        (v = 1 → l.partnerBreakout = some ((portOf s p).breakout.setWidth 8) →
          (l.partnerSwitch = true → (linkOf t k).st = .assign ∧ (linkOf t k).train = coordMsg s k ∧ t = { s with strands := t.strands, links := t.links }) ∧
          (l.partnerSwitch = false → tableId s k = none → (linkOf t k).st = .down ∧ (linkOf t k).reason = .refused ∧ told t 5) ∧
          (∀ id, l.partnerSwitch = false → tableId s k = some id → (linkOf t k).st = .assign ∧ (linkOf t k).ident = l.ident ∧ (linkOf t k).train = 3 :: assignMsg s k ∧
            t = { s with strands := t.strands, links := t.links } ∧ ∀ i < 8, tget 0 (linkOf t k).credHeld i = (cs.getD i 0).toNat))) ∧
      (l.st = .assign → l.partnerSwitch = false → s.gctl.role ≠ .manager → ∀ e : BitVec 64,
        (bytesBE 8 e.toNat = assignMsg s k → ∃ t, Sys2Proof.Machine.exec (.assignAck p x e) s = .next t ∧ (linkOf t k).st = .register ∧ (linkOf t k).valid = true ∧ (linkOf t k).regPending = true ∧
          (linkOf t k).ident = (tableId s k).getD 0 ∧ (linkOf t k).peerSwitch = false ∧
          t = { s with out := .register (regReqOf t k) :: s.out, strands := t.strands, links := t.links } ∧ (∀ j, j ≠ k → linkOf t j = linkOf s j)) ∧
        (bytesBE 8 e.toNat ≠ assignMsg s k → l.assignTries < 8 → Sys2Proof.Machine.exec (.assignAck p x e) s = .next (modLink k (fun l => { l with assignTries := l.assignTries + 1 }) s)) ∧
        (bytesBE 8 e.toNat ≠ assignMsg s k → 8 ≤ l.assignTries → ∃ t, Sys2Proof.Machine.exec (.assignAck p x e) s = .next t ∧ (linkOf t k).st = .down ∧ (linkOf t k).reason = .refused ∧ told t 6)) ∧
      (l.st = .assign → l.partnerSwitch = true → s.gctl.role ≠ .manager → ∀ (c : Coord) (pp : BitVec 9) (ps : BitVec 2) (f : Word), ∃ t, Sys2Proof.Machine.exec (.coord p x c pp ps f) s = .next t ∧
        (f ≠ s.gctl.fabricId → (linkOf t k).st = .down ∧ (linkOf t k).reason = .refused ∧ told t 3) ∧
        (f = s.gctl.fabricId → (linkOf t k).st = .register ∧ (linkOf t k).peer = c ∧ (linkOf t k).peerPos = 4 * pp.toNat + ps.toNat ∧
          t = { s with out := .register { id := s.gctl.ownId, coord := s.gctl.coord, port := k / 4, strand := k % 4, isSwitch := true } :: s.out, strands := t.strands, links := t.links })) ∧
      (∀ b : Byte, pastTraining l.st = true → b = 7 ∨ b = 8 → Sys2Proof.Machine.exec (.ready p x b) s = .next (modLink k (fun l => { l with partnerReady := b }) s)) ∧
      (∀ b : Byte, l.st = .down ∨ l.st = .dark ∨ l.st = .quarantine → Sys2Proof.Machine.exec (.refuse p x b) s = .next s) ∧
      (∀ b : Byte, l.st ≠ .down → l.st ≠ .dark → l.st ≠ .quarantine → ∃ t, Sys2Proof.Machine.exec (.refuse p x b) s = .next t ∧ (linkOf t k).st = .down ∧
        (linkOf t k).reason = (if b = 1 then .breakout else .refused))) ∧
    (portOn s p = true →
      (l.st ≠ .register ∨ l.regPending = false → ∀ a, Sys2Proof.Machine.exec (.registrationAnswer p x a) s = .next s) ∧
      (l.st = .register → l.regPending = true →
        (∃ t, Sys2Proof.Machine.exec (.registrationAnswer p x .accepted) s = .next t ∧
          t = { s with strands := t.strands, links := t.links, cmd := { s.cmd with pba := t.cmd.pba }, out := t.out } ∧ (s.cmd.bme = false → t.out = s.out) ∧
          linkOf t k = { l with st := .active, regPending := false, train := [6, 8], liveSince := some s.clock, joined := false, emptyAt := s.clock } ∧ (∀ j, j ≠ k → linkOf t j = linkOf s j)) ∧
        (∀ c pp ps, ∃ t, Sys2Proof.Machine.exec (.registrationAnswer p x (.duplicate c pp ps)) s = .next t ∧ (linkOf t k).st = .quarantine ∧ (linkOf t k).quar = true ∧ (linkOf t k).regPending = false ∧
          (linkOf t k).train = [7, 4]) ∧
        (∃ t, Sys2Proof.Machine.exec (.registrationAnswer p x .full) s = .next t ∧ (linkOf t k).st = .down ∧ (linkOf t k).reason = .refused ∧ told t 7) ∧
        (s.gctl.role ≠ .manager → ∃ t, Sys2Proof.Machine.exec (.registrationResend p x) s = .next t ∧ t = { s with clock := max s.clock (l.regAt + 100000), out := .register (regReqOf s k) :: s.out, links := t.links } ∧
          linkOf t k = { l with regAt := t.clock } ∧ (∀ j, j ≠ k → linkOf t j = linkOf s j)))) ∧
    (∀ qs ws, s.gctl.role ≠ .manager → Sys2Proof.Machine.exec (.registrationRequest qs ws) s = .next s ∧ Sys2Proof.Machine.exec (.withdrawal ws) s = .next s) ∧
    (∀ r : RegReq,
      (alive s = true → s.gctl.role = .manager →
        (r.isSwitch = false → regOf s r.id.toNat = none → (regRecs s).length < 524288 → Sys2Proof.Machine.exec (.registrationRequest [r] []) s = .next (emit (.regAnswer r .accepted)
          (modMgr (fun m => { m with reg := tset none m.reg r.id.toNat (some { coord := r.coord, port := r.port, strand := r.strand, isSwitch := false }) }) s))) ∧
        (∀ h : RegRec, r.isSwitch = false → regOf s r.id.toNat = some h → h.coord ≠ r.coord → ∃ t, Sys2Proof.Machine.exec (.registrationRequest [r] []) s = .next t ∧
          .regAnswer r (.duplicate h.coord h.port h.strand) ∈ t.out ∧ t.mgr = s.mgr) ∧
        (∀ h : RegRec, regOf s r.id.toNat = some h →
          (h = { coord := r.coord, port := r.port, strand := r.strand, isSwitch := false } → s.mgr.groups = [] → ∃ t, Sys2Proof.Machine.exec (.withdrawal [r]) s = .next t ∧
            t = { s with mgr := t.mgr } ∧ (∀ i, regOf t i = if i = r.id.toNat then none else regOf s i) ∧
            (∀ q : RegReq, q.isSwitch = false → q.id = r.id → (regRecs s).length < 524288 → ∃ t, Sys2Proof.Machine.exec (.registrationRequest [q] [r]) s = .next t ∧
              .regAnswer q .accepted ∈ t.out ∧ regOf t q.id.toNat = some { coord := q.coord, port := q.port, strand := q.strand, isSwitch := false })) ∧
          (h.coord ≠ r.coord → Sys2Proof.Machine.exec (.withdrawal [r]) s = .next s)) ∧
        (∀ q : RegReq, r.isSwitch = false → q.isSwitch = false → q.id = r.id → regOf s r.id.toNat = none → (regRecs s).length < 524288 → r.coord.toNat < q.coord.toNat →
          r.port < 288 → q.port < 288 → r.strand < 4 → q.strand < 4 → ∀ l ∈ [[r, q], [q, r]], ∃ t, Sys2Proof.Machine.exec (.registrationRequest l []) s = .next t ∧
          .regAnswer r .accepted ∈ t.out ∧ .regAnswer q (.duplicate r.coord r.port r.strand) ∈ t.out ∧
          regOf t r.id.toNat = some { coord := r.coord, port := r.port, strand := r.strand, isSwitch := false })))

/-- R65: Idle, Doze and Dark; R67, R445: wake detectors; R71: requests. -/
def Obligations.LowPowerLinks : Prop :=
  ∀ (p : Port) (x : Strand) (s : State), mgmtUp s = true → portOn s p = true → s.pwr.state = .run → s.pwr.busy = false →
    let k := subKey s p x
    let l := linkOf s k
    (l.st = .active → l.idleTx = false → (portOf s p).idleEn = true → l.txq = [] → l.replay = [] → l.resend = [] → credShown s k = l.credSent → l.nakPend = false → l.lpWant = none → ∃ t,
      Sys2Proof.Machine.exec (.idleEntry p x) s = .next t ∧ t = { s with clock := max s.clock (l.emptyAt + (portOf s p).idleNs.toNat), out := t.out, strands := t.strands, links := t.links } ∧
      linkOf t k = { l with st := .idle, idleTx := true, idleAt := t.clock } ∧ (∀ q ∈ liveStrands s k, (strandOf t q).light = .cOnly ∧ .light q .cOnly ∈ t.out) ∧
      (∀ j, j ≠ k → linkOf t j = linkOf s j)) ∧
    (l.st ≠ .active ∨ l.txq ≠ [] → Sys2Proof.Machine.exec (.idleEntry p x) s = .next s) ∧
    (l.idleTx = true → l.txq ≠ [] ∨ l.resend ≠ [] ∨ l.nakPend = true ∨ credShown s k ≠ l.credSent → ∃ t, Sys2Proof.Machine.exec (.idleExit p x) s = .next t ∧
      t = { s with out := t.out, strands := t.strands, links := t.links } ∧ linkOf t k = { l with st := .active, idleTx := false, emptyAt := s.clock } ∧
      (∀ q ∈ liveStrands s k, (strandOf t q).light = .full ∧ ∀ lane ∈ lanesOf s q, .trainSlots q lane 8 ∈ t.out) ∧ (∀ j, j ≠ k → linkOf t j = linkOf s j)) ∧
    (l.txq = [] → l.resend = [] → credShown s k = l.credSent → l.nakPend = false → Sys2Proof.Machine.exec (.idleExit p x) s = .next s) ∧
    (∃ t, Sys2Proof.Machine.exec (.requestDoze p) s = .next t ∧ t = { s with out := t.out, ports := t.ports, strands := t.strands, links := t.links } ∧ (portOf t p).lpReq = 1 ∧
      ∀ j, (linkOf t j).lpWant = if decide (j ∈ subKeys s p) && ((linkOf s j).st == .active || (linkOf s j).st == .idle) && nothingToSend s j then some .doze else (linkOf s j).lpWant) ∧
    (∃ t, Sys2Proof.Machine.exec (.requestDark p) s = .next t ∧ t = { s with ports := t.ports, links := t.links } ∧ (portOf t p).lpReq = 2 ∧
      ∀ j, linkOf t j = if decide (j ∈ subKeys s p) && (linkOf s j).st == .doze && (portOf s (j / 4)).darkEn then { linkOf s j with lpWant := some .dark } else linkOf s j) ∧
    (∃ t, Sys2Proof.Machine.exec (.wake p) s = .next t ∧ t = { s with out := t.out, ports := t.ports, strands := t.strands, links := t.links } ∧ (portOf t p).lpReq = 3 ∧
      (∀ j ∈ subKeys s p, ((linkOf s j).st = .doze → (linkOf t j).st = .active ∧ ∀ q ∈ strandPos s j, (strandOf t q).light = .full) ∧
        ((linkOf s j).st = .dark → ∀ q ∈ strandPos s j, (strandOf s q).outOfUse = false → .wakePattern q ∈ t.out ∧ (strandOf t q).light = .full) ∧
        ((linkOf s j).st ≠ .doze → (linkOf s j).st ≠ .dark → linkOf t j = { linkOf s j with lpWant := none })) ∧ ∀ j, j ∉ subKeys s p → linkOf t j = linkOf s j) ∧
    (∀ n, (n < 12 → Sys2Proof.Machine.exec (.wakePatternDetected p x n) s = .next s) ∧
      (12 ≤ n → bitOf s.pwr.wantOff (p / 12) = false → ∃ t, Sys2Proof.Machine.exec (.wakePatternDetected p x n) s = .next t ∧ t = { s with out := t.out, strands := t.strands, links := t.links } ∧
        (l.st = .doze → (linkOf t k).st = .active) ∧
        (l.st = .dark → (strandOf s (4 * p.val + x.val)).outOfUse = false → 4 * p.val + x.val ∈ strandPos s k → (linkOf t k).st = .clock ∧ (strandOf t (4 * p.val + x.val)).st = .clock) ∧
        (l.st ≠ .doze → l.st ≠ .dark → t = s))) ∧
    (bitOf s.pwr.wantOff (p / 12) = false → ∃ t, Sys2Proof.Machine.exec (.dozeLightWake p x) s = .next t ∧ (l.st = .doze → (linkOf t k).st = .active) ∧ (l.st ≠ .doze → t = s))

/-- R446 to R451: entries, votes, refusals, wakes and returns; R454: LAST, REFUSER and REASON. -/
def Obligations.PowerEntries : Prop :=
  ∀ s : State, mgmtUp s = true → hasRole s = true →
    let calm := (∀ j < 60, bitOf s.pwr.wantOff j = true → s.pwr.single = some j ∨ domOn s j = false ∧ j ∉ s.pwr.stopped) ∧
      (∀ j < 24, bitOf s.pwr.wantOff j = false → domUsable s j = true → domOn s j = true)
    (∀ (k : Dom) (off : Bool), s.pwr.busy = true → off = false ∨ k.val < 24 ∨ 36 ≤ k.val →
      Sys2Proof.Machine.exec (.wantOff k off) s = .next { s with pwr := { s.pwr with wantOff := setBit s.pwr.wantOff k.val off } }) ∧
    (∀ c ∈ [Instr.requestRun, .requestQuiet, .requestHold], s.pwr.busy = true → Sys2Proof.Machine.exec c s = .next { s with pwr := { s.pwr with last := 4 } }) ∧
    (s.pwr.state = .quiet → s.pwr.busy = false → ∃ t, Sys2Proof.Machine.exec .requestRun s = .next t ∧ t.pwr.busy = true ∧ t.pwr.phase = .restart ∧ t.pwr.state = .quiet ∧ t.mem = s.mem ∧ t.links = s.links) ∧
    (s.pwr.state = .hold → s.pwr.busy = false → ∃ t, Sys2Proof.Machine.exec .requestRun s = .next t ∧ t.pwr.state = .run ∧ t.pwr.busy = false ∧ t.rst.tL = s.clock ∧ t.fuses = s.fuses ∧ t.tim.base = s.tim.base) ∧
    (s.pwr.state = .run → s.pwr.busy = false →
      Sys2Proof.Machine.exec .requestRun s = .next s ∧ (∀ b, Sys2Proof.Machine.exec (.wakeSource b) s = .next s) ∧
      ((∃ k, 36 ≤ k ∧ k < 52 ∧ domOn s k = true) → Sys2Proof.Machine.exec .requestQuiet s =
        .next { s with pwr := { s.pwr with busy := true, phase := .vote, target := .quiet, single := none, voted := 0, stopped := [], voteAt := s.clock } }) ∧
      ((∃ k, k < 60 ∧ domOn s k = true) → ∃ t, Sys2Proof.Machine.exec .requestHold s = .next t ∧ t = { s with out := t.out, pwr := t.pwr, strands := t.strands, links := t.links } ∧
        t.pwr = { s.pwr with busy := true, phase := .vote, target := .hold, single := none, voted := 0, stopped := [], voteAt := s.clock }) ∧
      (∀ k : Dom, domOn s k = true →
        (24 ≤ k.val → k.val < 36 → ∃ t, Sys2Proof.Machine.exec (.wantOff k true) s = .next t ∧ t.pwr = { s.pwr with last := 2, refuser := BitVec.ofNat 7 k.val, reason := 4, wantOff := setBit s.pwr.wantOff k.val false } ∧ t.mem = s.mem) ∧
        (36 ≤ k.val → Sys2Proof.Machine.exec (.wantOff k true) s = .next { s with pwr := { s.pwr with
          wantOff := setBit s.pwr.wantOff k.val true, busy := true, phase := .vote, target := .run, single := some k.val, voted := 0, stopped := [], voteAt := s.clock } }))) ∧
    (∀ k : Dom, s.pwr.busy = true → s.pwr.phase = .vote → k.val ∈ concerned s →
      (refuseReason s k = 0 → (∃ j ∈ concerned s, j ≠ k.val ∧ bitOf s.pwr.voted j = false) → Sys2Proof.Machine.exec (.domainVoteAnswer k) s =
        .next { s with pwr := { s.pwr with voted := setBit s.pwr.voted k.val true } }) ∧
      (refuseReason s k = 0 → (∀ j ∈ concerned s, j ≠ k.val → bitOf s.pwr.voted j = true) → Sys2Proof.Machine.exec (.domainVoteAnswer k) s =
        .next { s with pwr := { s.pwr with voted := setBit s.pwr.voted k.val true, phase := .stop } }) ∧
      (refuseReason s k = 3 → Sys2Proof.Machine.exec (.domainVoteAnswer k) s = .next s) ∧
      (calm → refuseReason s k ≠ 0 → refuseReason s k ≠ 3 → ∃ t, Sys2Proof.Machine.exec (.domainVoteAnswer k) s = .next t ∧ t.pwr.busy = false ∧ t.pwr.last = 2 ∧
        t.pwr.refuser = BitVec.ofNat 7 k.val ∧ t.pwr.reason = BitVec.ofNat 4 (refuseReason s k) ∧ t.pwr.state = s.pwr.state) ∧
      (bitOf s.pwr.voted k = true → Sys2Proof.Machine.exec (.voteTimeout k) s = .next s) ∧
      (calm → bitOf s.pwr.voted k = false → ∃ t, Sys2Proof.Machine.exec (.voteTimeout k) s = .next t ∧ t.clock = max s.clock (s.pwr.voteAt + 1000000) ∧ t.pwr.busy = false ∧ t.pwr.last = 2 ∧ t.pwr.refuser = BitVec.ofNat 7 k.val ∧
        t.pwr.reason = (if refuseReason s k = 3 then 3 else 5) ∧ t.pwr.state = s.pwr.state)) ∧
    (∀ k : Dom, s.pwr.busy = true → s.pwr.phase = .stop → k.val ∈ concerned s →
      ((∃ j ∈ concerned s, stopRank j < stopRank k) → Sys2Proof.Machine.exec (.domainStop k) s = .next s) ∧
      ((∀ j ∈ concerned s, stopRank k ≤ stopRank j) → (∃ j ∈ concerned s, j ≠ k.val) → refuseReason s k = 0 → ∃ t, Sys2Proof.Machine.exec (.domainStop k) s = .next t ∧
        t.pwr.stopped = s.pwr.stopped ++ [k.val] ∧
        (toRefresh s k = true → domOn t k = domOn s k ∧ bitOf t.pwr.selfRefresh k.val = true ∧ (stackOf t (k.val - 52)).pstate = 2 ∧ t.mem = s.mem) ∧
        (toRefresh s k = false → domOn t k = false))) ∧
    (∀ b : Fin 3, (bitOf s.pwr.wakeEn b.val = false → Sys2Proof.Machine.exec (.wakeSource b) s = .next s) ∧
      (calm → bitOf s.pwr.wakeEn b.val = true → s.pwr.busy = true → s.pwr.phase = .vote ∨ s.pwr.phase = .stop → s.pwr.single = none → ∃ t, Sys2Proof.Machine.exec (.wakeSource b) s = .next t ∧
        t.pwr.busy = false ∧ t.pwr.last = 3 ∧ bitOf t.pwr.wakeCause b.val = true ∧ t.pwr.state = s.pwr.state) ∧
      (bitOf s.pwr.wakeEn b.val = true → s.pwr.busy = false → s.pwr.state = .quiet → ∃ t, Sys2Proof.Machine.exec (.wakeSource b) s = .next t ∧ t.pwr.busy = true ∧ t.pwr.phase = .restart ∧
        bitOf t.pwr.wakeCause b.val = true ∧ t.mem = s.mem ∧ t.links = s.links)) ∧
    (calm → s.pwr.busy = true → s.pwr.phase = .restart → s.pwr.state = .quiet → s.pwr.waitAlloc = [] → ∃ t, Sys2Proof.Machine.exec .returnToRun s = .next t ∧ t.pwr.state = .run ∧ t.pwr.busy = false ∧
      (∀ k, 36 ≤ k → k < 60 → bitOf s.pwr.wantOff k = false → domUsable s k = true → (bitOf s.pwr.selfRefresh k = true → domOn s k = true) → domOn t k = true ∧ bitOf t.pwr.selfRefresh k = false) ∧ t.links = s.links ∧ t.route = s.route)

/-- R22: performance points; R302: a ramp and a hot die end the pacing of the groups here. -/
def Obligations.PerformancePoints : Prop :=
  ∀ s : State, mgmtUp s = true → alive s = true →
    (∀ pt : BitVec 2,
      (s.pwr.state = .run → s.pwr.ramping = false → pt = s.pwr.cur → Sys2Proof.Machine.exec (.pointWrite pt) s = .next { s with pwr := { s.pwr with point := pt } }) ∧
      (s.pwr.state ≠ .run ∨ s.pwr.ramping = true → Sys2Proof.Machine.exec (.pointWrite pt) s = .next { s with pwr := { s.pwr with point := pt, heldPoint := some pt } }) ∧
      (s.pwr.state = .run → s.pwr.ramping = false → pt ≠ s.pwr.cur → ∃ t, Sys2Proof.Machine.exec (.pointWrite pt) s = .next t ∧
        t.pwr = { s.pwr with point := pt, ramping := true, rampTo := pt, rampAt := s.clock } ∧
        (∀ k c, ctxOf s k = some c → isPaced c = true → ∃ x, ctxOf t k = some x ∧ x.lapsed = true) ∧
        t = { s with out := t.out, pwr := t.pwr, flt := t.flt, evr := t.evr, cmd := t.cmd, dbg := t.dbg, red := t.red, ctxs := t.ctxs })) ∧
    (s.pwr.ramping = false → Sys2Proof.Machine.exec .rampEnd s = .next s) ∧
    (s.pwr.ramping = true →
      (s.pwr.heldPoint = none ∨ s.pwr.state ≠ .run → ∃ t, Sys2Proof.Machine.exec .rampEnd s = .next t ∧
        t = { s with clock := max s.clock (s.pwr.rampAt + rampNs s.pwr.cur s.pwr.rampTo), pwr := { s.pwr with ramping := false, cur := s.pwr.rampTo, res := t.pwr.res, resSince := t.clock } }) ∧
      (∀ pt, s.pwr.state = .run → s.pwr.heldPoint = some pt → pt ≠ s.pwr.rampTo → ∃ t, Sys2Proof.Machine.exec .rampEnd s = .next t ∧ t.pwr.cur = s.pwr.rampTo ∧ t.pwr.ramping = true ∧ t.pwr.rampTo = pt ∧
        t.pwr.heldPoint = none)) ∧
    (∀ (die : Fin 8) (temp : Byte), ∃ t, Sys2Proof.Machine.exec (.paceLapseTemperature die temp) s = .next t ∧ tget 0 t.pwr.tj die = temp ∧ (∀ j, j ≠ die.val → tget 0 t.pwr.tj j = tget 0 s.pwr.tj j) ∧
      (temp.toNat ≤ 95 ∨ (4 ≤ die.val ∧ redEnabled s (die.val - 4) = false) → t = { s with pwr := { s.pwr with tj := t.pwr.tj } }) ∧
      (95 < temp.toNat → die.val < 4 ∨ redEnabled s (die.val - 4) = true → ∀ k c, ctxOf s k = some c → isPaced c = true → ∃ x, ctxOf t k = some x ∧ x.lapsed = true ∧ (c.lapsed = false → x.lapseReason = 2)))

/-- R62 to R64: TIME flits; R335, R343: the upstream and holdover; R342: the offset, slewed or stepped. -/
def Obligations.TimeMessages : Prop :=
  ∀ (p : Port) (x : Strand) (m : TimeMsg) (s : State), timeRuns s (subKey s p x) = true →
    let k := subKey s p x
    let l := linkOf s k
    let fl (kind : Nat) (m : TimeMsg) : Flit := { seq := 0, vc := 7, typ := 5, len := 232, poison := false, replay := false, data := timePayload kind m, sentAt := 0 }
    (l.idleTx = false →
      (∃ t, Sys2Proof.Machine.exec (.syncSend p x) s = .next t ∧ t = { s with links := t.links } ∧ (∀ j, j ≠ k → linkOf t j = linkOf s j) ∧
        linkOf t k = { l with syncSeq := l.syncSeq + 1, txq := l.txq ++ [fl 0 (timeMsg s (l.syncSeq + 1))] }) ∧
      (∃ t, Sys2Proof.Machine.exec (.announceSend p x) s = .next t ∧ t = { s with links := t.links } ∧ (∀ j, j ≠ k → linkOf t j = linkOf s j) ∧
        linkOf t k = { l with
          annSeq := l.annSeq + 1
          txq := l.txq ++ [fl 3 { timeMsg s (l.annSeq + 1) with utcOfs := s.tim.utcOfs, gm := gmShown s, hops := if isMgr s then 0 else s.tim.hops }] }) ∧
      (s.gctl.role ≠ .manager → s.tim.upstream = some k → ∃ t, Sys2Proof.Machine.exec .delayReqSend s = .next t ∧ t = { s with links := t.links } ∧
        linkOf t k = { l with reqSeq := l.reqSeq + 1, txq := l.txq ++ [fl 1 (timeMsg s (l.reqSeq + 1))] }) ∧
      (∃ t, Sys2Proof.Machine.exec (.delayReq p x m) s = .next t ∧ t = { s with links := t.links } ∧ (∀ j, j ≠ k → linkOf t j = linkOf s j) ∧
        linkOf t k = { l with txq := l.txq ++ [fl 2 { timeMsg s m.tseq with t := fabT s }] })) ∧
    (s.gctl.role = .manager ∨ s.tim.upstream ≠ some k → Sys2Proof.Machine.exec (.sync p x m) s = .next s ∧ Sys2Proof.Machine.exec (.delayResp p x m) s = .next s) ∧
    (s.gctl.role = .manager ∨ (∃ j, s.tim.upstream = some j ∧ j ≠ k) → ∀ lp, ∃ t, Sys2Proof.Machine.exec (.announce p x m lp) s = .next t ∧ t = { s with links := t.links } ∧
      linkOf t k = { l with ann := some { gm := m.gm, hops := m.hops, traceable := m.traceable, holdover := m.holdover, leap := m.leapPending, utcOfs := m.utcOfs } }) ∧
    (s.gctl.role ≠ .manager → s.tim.upstream = some k →
      (∀ ofs : Int, ofs = (fabT s - m.t).toInt - (s.tim.delayFx + psToFx (tget 0 (portOf s p).asym (k % 4)).toInt / 2) → ∃ t, Sys2Proof.Machine.exec (.sync p x m) s = .next t ∧
        linkOf t k = { l with syncT1 := m.t, syncT2 := fabT s, lastSync := s.clock } ∧
        (ofs.natAbs ≤ s.tim.stepThr.toNat * 65536 → t = { s with tim := t.tim, links := t.links } ∧ fabT t = fabT s ∧ t.tim.slew = ofs ∧ t.tim.stepSum = s.tim.stepSum ∧
          t.tim.cnt = bump s.tim.cnt 0x100 1) ∧
        (s.tim.stepThr.toNat * 65536 < ofs.natAbs → s.tim.stepDue = false → t = { s with tim := t.tim, links := t.links } ∧ fabT t = fabT s ∧ t.tim.stepDue = true ∧ t.tim.stepSum = s.tim.stepSum) ∧
        (s.tim.stepThr.toNat * 65536 < ofs.natAbs → s.tim.stepDue = true → fabT t = fabT s - BitVec.ofInt 80 ofs ∧ t.tim.stepDue = false ∧ t.tim.stepSum = s.tim.stepSum - ofs)) ∧
      (m.tseq ≠ l.reqSeq → Sys2Proof.Machine.exec (.delayResp p x m) s = .next s) ∧
      (m.tseq = l.reqSeq → ∃ t, Sys2Proof.Machine.exec (.delayResp p x m) s = .next t ∧ t = { s with tim := { s.tim with delayFx := t.tim.delayFx, delay := t.tim.delay } } ∧
        t.tim.delayFx = ((l.syncT2 - l.syncT1).toInt + (m.t - l.reqT3).toInt) / 2) ∧
      (∀ lp, ∃ t, Sys2Proof.Machine.exec (.announce p x m lp) s = .next t ∧ t = { s with gctl := t.gctl, tim := t.tim, links := t.links } ∧ t.tim.traceable = m.traceable ∧
        t.tim.hops = m.hops + 1 ∧ t.tim.gmCoord = m.gm ∧ t.tim.upstream = some k ∧ fabT t = fabT s) ∧
      ((∀ j, j ≠ k → upCandidate s j = none) → ∃ t, Sys2Proof.Machine.exec .upstreamLost s = .next t ∧ t.tim.upstream = none ∧ t.tim.holdover = true ∧
        t.clock = (if (upCandidate s k).isSome then max s.clock (l.lastSync + 500000) else s.clock) ∧ fabT t = fabT { s with clock := t.clock } ∧ (linkOf t k).ann = none))

/-- R339 to R341: setting and references; R343: holdover; R345: leaps; R346, R347: outputs. -/
def Obligations.GrandmasterTime : Prop :=
  ∀ s : State, mgmtUp s = true →
    let ev (t : State) := { s with out := t.out, flt := t.flt, evr := t.evr, cmd := t.cmd, dbg := t.dbg, tim := t.tim }
    (s.tim.holdover = true → Sys2Proof.Machine.exec .holdoverTraceExpiry s =
      .next { s with clock := max s.clock (s.tim.holdAt + s.tim.holdTraceS.toNat * 1000000000), tim := { s.tim with traceable := false } }) ∧
    (s.tim.holdover = false → Sys2Proof.Machine.exec .holdoverTraceExpiry s = .next s ∧ Sys2Proof.Machine.exec .holdoverExit s = .next s) ∧
    (∀ x, s.tim.holdover = true → s.tim.followAt = some x → ∃ t, Sys2Proof.Machine.exec .holdoverExit s = .next t ∧ t = { ev t with clock := max s.clock (x + 1000000000) } ∧ t.tim = { s.tim with holdover := false, followAt := none }) ∧
    (s.gctl.role ≠ .manager → Sys2Proof.Machine.exec .timeSetApply s = .next s ∧
      (∃ t, Sys2Proof.Machine.exec .ppsEdge s = .next t ∧
        t = { s with tim := { s.tim with lastPps := some s.clock, ppsOk := s.tim.ppsOk || s.tim.lastPps.isNone, cleanPps := t.tim.cleanPps } }) ∧
      (s.tim.tenmOk = true → Sys2Proof.Machine.exec (.syncInLost .tenM) s = .next { s with tim := { s.tim with tenmOk := false } })) ∧
    (s.gctl.role = .manager →
      (s.tim.armPps = true → Sys2Proof.Machine.exec .timeSetApply s = .next { s with tim := { s.tim with armed := true, armedAt := s.clock } }) ∧
      (s.tim.armPps = false → ∃ t, Sys2Proof.Machine.exec .timeSetApply s = .next t ∧ t = { s with tim := t.tim } ∧ fabT t = (s.tim.setHi ++ s.tim.setLo).setWidth 80 <<< 16 ∧
        t.tim.stepSum = s.tim.stepSum + (fabT t - fabT s).toInt) ∧
      (s.tim.armed = true → s.tim.armedAt + 1000 ≤ s.clock → ∃ t, Sys2Proof.Machine.exec .ppsEdge s = .next t ∧ t = { s with tim := t.tim } ∧
        fabT t = (s.tim.setHi ++ s.tim.setLo).setWidth 80 <<< 16 ∧ t.tim.armed = false ∧ t.tim.setOnPps = true) ∧
      (s.tim.armed = false → s.tim.ppsOk = true → (fromSecond s).natAbs ≤ s.tim.stepThr.toNat * 65536 → ∃ t, Sys2Proof.Machine.exec .ppsEdge s = .next t ∧ t = { s with tim := t.tim } ∧
        fabT t = fabT s ∧ t.tim.slew = fromSecond s ∧ t.tim.lastPps = some s.clock) ∧
      (s.tim.ppsOk = false → Sys2Proof.Machine.exec (.syncInLost .pps) s = .next s) ∧ (s.tim.tenmOk = false → Sys2Proof.Machine.exec (.syncInLost .tenM) s = .next s) ∧
      (s.tim.ppsOk = true → ∃ t, Sys2Proof.Machine.exec (.syncInLost .pps) s = .next t ∧ t = ev t ∧ t.tim.ppsOk = false ∧ (s.tim.tenmOk = true → t.tim.holdover = s.tim.holdover) ∧
        (s.tim.tenmOk = false → t.tim.holdover = true)) ∧
      (s.tim.tenmOk = true → ∃ t, Sys2Proof.Machine.exec (.syncInLost .tenM) s = .next t ∧ t = ev t ∧ t.tim.tenmOk = false ∧ (s.tim.ppsOk = true → t.tim.holdover = s.tim.holdover) ∧
        (s.tim.ppsOk = false → t.tim.holdover = true)) ∧
      (s.tim.ppsOk = false → ∃ t, Sys2Proof.Machine.exec (.syncInRestored .pps) s = .next t ∧ t = ev t ∧ t.tim.ppsOk = true ∧ t.tim.tenmOk = s.tim.tenmOk) ∧
      (s.tim.ppsOk = true → Sys2Proof.Machine.exec (.syncInRestored .pps) s = .next s)) ∧
    (s.tim.leapAt = 0 → Sys2Proof.Machine.exec .leapTakeEffect s = .next s) ∧
    (s.tim.leapAt ≠ 0 → ∃ t, Sys2Proof.Machine.exec .leapTakeEffect s = .next t ∧
      t = { s with clock := t.clock, tim := { s.tim with utcOfs := s.tim.nextUtc, leapAt := 0, leapPending := false } } ∧ s.clock ≤ t.clock ∧
      (s.tim.running = false → t.clock = s.clock) ∧
      (s.tim.running = true → s.tim.slew = 0 → s.tim.baseAt ≤ s.clock → t.clock = s.clock + (s.tim.leapAt.toNat * 1000000000 - (fabNs s).toNat))) ∧
    (domOn s 0 = true → (s.tim.ppsEn && !s.tim.ppsDis) = false → ∀ b, Sys2Proof.Machine.exec (.syncOutEdge .pps b) s = .next s) ∧
    (domOn s 0 = true → s.tim.ppsEn = true → s.tim.ppsDis = false →
      let e := nextEdge .pps ((fabNs s).toNat + 1)
      (∀ matched : Bool, matched = true ∨ s.tim.ppsMiss < 7 → ∃ t, Sys2Proof.Machine.exec (.syncOutEdge .pps matched) s = .next t ∧
        t = { s with clock := t.clock, out := .syncEdge .pps e.2 :: s.out, tim := { s.tim with ppsMiss := if matched then 0 else 1 + s.tim.ppsMiss, ppsDis := false } } ∧
        s.clock ≤ t.clock ∧ (s.tim.running = true → s.tim.slew = 0 → s.tim.baseAt ≤ s.clock → t.clock = s.clock + (e.1 - (fabNs s).toNat))) ∧
      (s.tim.ppsMiss = 7 → ∃ t, Sys2Proof.Machine.exec (.syncOutEdge .pps false) s = .next t ∧ t = { ev t with clock := t.clock } ∧ .syncEdge .pps e.2 ∈ t.out ∧
        t.tim = { s.tim with ppsMiss := 0, ppsDis := true })) ∧
    Sys2Proof.Machine.exec .rearm s = .next { s with tim := { s.tim with ppsDis := false, tenmDis := false, ppsMiss := 0, tenmMiss := 0 } }

/-- R96, R82, R105: the HEAD; R90, R91: the TAIL; R140, R141, R143: admission; R144: bridge credits. -/
def Obligations.ArrivalAndAdmission : Prop :=
  ∀ s : State, s.flt.injActive = false →
    (∀ (p : Port) (x : Strand) (v : Vc) (f : Flit), portOn s p = true →
      let k := subKey s p x
      (linkOf s k).rxq = [f] → f.vc = v.val → vcBlocked s k v = false →
      (∀ ofs, f.typ = 3 → headChecks s k v f.data f.len true = .inl ofs → ∃ t, Sys2Proof.Machine.exec (.packetHeadArrival p x v) s = .next t ∧ t = { s with ports := t.ports, links := t.links } ∧
        (portOf t (k / 4)).cnt = bump (portOf s (k / 4)).cnt ofs 1 ∧ (linkOf t k).rxq = [] ∧ tget 0 (linkOf t k).occ v = tget 0 (linkOf s k).occ v - 1) ∧
      (∀ (h : Hdr) (xs : List Ext) (m : Nat), f.typ = 3 → f.poison = false → headChecks s k v f.data f.len true = .inr (h, xs) → totalLen h xs.length = f.len → hPtype h = ptData →
        tcVc s (hTc h) ≤ 2 → (swcOf s (dieOf k)).sess = [] → s.route.clr = none → (lookup (dieOf k) (ingressHdr h) s).1 = .go m → dieOf m = dieOf k → (linkOf s m).st ≠ .doze → ∃ t,
        Sys2Proof.Machine.exec (.packetHeadArrival p x v) s = .next t ∧ t.nextPid = s.nextPid + 1 ∧ (linkOf t k).rxq = [] ∧
        (∃ y, pktOf t s.nextPid = some y ∧ y.hdr = ingressHdr h ∧ y.tailIn = true ∧ y.pos = some k ∧ y.stamp = steadyNs s) ∧
        (swcOf t (dieOf k)).arrive = (swcOf s (dieOf k)).arrive ++ [{ pid := s.nextPid, src := dieOf k, vc := v, targets := [qkey s m (hTc h)] }] ∧
        t.queues = s.queues ∧ t.mem = s.mem ∧ t.route.live = s.route.live) ∧
      (∀ (e : InEnt) (y : Pkt), f.typ = 2 → openEntry s k v = some e → e.stage = .forwarded → e.obs = [] → pktOf s e.pid = some y → y.obs = [] →
        (f.poison = false → y.flits + 1 = flitsOf y.rxTotal → f.len = y.rxTotal - 232 * (flitsOf y.rxTotal - 1) → ∃ t, Sys2Proof.Machine.exec (.packetTailArrival p x v) s = .next t ∧
          ∃ z, pktOf t e.pid = some z ∧ z.tailIn = true ∧ z.poison = y.poison ∧ z.body = y.body ++ f.data.take f.len) ∧
        (f.poison = true → y.begun = true → ∃ t, Sys2Proof.Machine.exec (.packetTailArrival p x v) s = .next t ∧ (portOf t (k / 4)).cnt = bump (portOf s (k / 4)).cnt 0x134 1 ∧
          ∃ z, pktOf t e.pid = some z ∧ z.tailIn = true ∧ z.poison = true))) ∧
    (∀ (d : FabDie) (a : Arr) (g : Nat) (y : Pkt), coreUp s d = true → a.targets = [g] → pktOf s a.pid = some y → linkGone s (g / 8) = false →
      let linked (t : State) := (queueOf t g).gocc = (queueOf s g).gocc + y.cells ∧ (queueOf t g).ents.map QEnt.pid = (queueOf s g).ents.map QEnt.pid ++ [a.pid] ∧
        (∀ j, j ≠ g → queueOf t j = queueOf s j) ∧ t.mem = s.mem ∧ t.route = s.route ∧ t.dma = s.dma
      (y.mcast = false → (swcOf s d).arrive = [a] → (swcOf s d).waiting = [] → (∀ v, v < 65536 → redDecision s g y.hdr y.mirror v = none) →
        (admits s g y.cells = some true → qdie g = d.val → tooOld s d y = false → y.tailIn = true → a.src = d.val → ∃ t, Sys2Proof.Machine.exec (.gladeAdmission d) s = .next t ∧ linked t ∧
          (swcOf t d).arrive = [] ∧ (swcOf t d).free = (swcOf s d).free - y.cells ∧ (swcOf t d).queued = (swcOf s d).queued + y.cells) ∧
        (admits s g y.cells = none → lossless s d (hTc y.hdr) = false → y.mirror = false → (swcOf s d).sess = [] → queuesWith s a.pid = [] → ∃ t, Sys2Proof.Machine.exec (.gladeAdmission d) s = .next t ∧
          pktOf t a.pid = none ∧ (swcOf t d).arrive = [] ∧ (swcOf t d).cnt = bump (swcOf s d).cnt 0x400 1 ∧ t.queues = s.queues) ∧
        (admits s g y.cells = none → lossless s d (hTc y.hdr) = true → y.mirror = false → ∃ t, Sys2Proof.Machine.exec (.gladeAdmission d) s = .next t ∧ (swcOf t d).arrive = [] ∧
          (swcOf t d).waiting = [a] ∧ t.queues = s.queues ∧ t.pkts = s.pkts)) ∧
      (y.mcast = false → (swcOf s d).arrive = [a] → (∀ v, v < 65536 → redDecision s g y.hdr y.mirror v = some false) → (∀ e : FabDie, (swcOf s e).sess = []) → queuesWith s a.pid = [] → ∃ t,
        Sys2Proof.Machine.exec (.gladeAdmission d) s = .next t ∧ pktOf t a.pid = none ∧ (swcOf t d).arrive = [] ∧ (swcOf t d).cnt = bump (swcOf s d).cnt 0x424 1 ∧ t.queues = s.queues) ∧
      ((swcOf s d).waiting = [a] → admits s g y.cells = some true → qdie g = d.val → tooOld s d y = false → y.tailIn = true →
        (y.mcast = false → ∃ t, Sys2Proof.Machine.exec (.losslessAdmit d) s = .next t ∧ linked t ∧ (swcOf t d).waiting = []) ∧
        (y.mcast = true → (linkOf s (g / 8)).st = .active → ∃ t, Sys2Proof.Machine.exec (.multicastAdmission d) s = .next t ∧ linked t ∧ (swcOf t d).waiting = [] ∧
          (swcOf t d).cnt = bump (swcOf s d).cnt 0x418 1))) ∧
    (∀ d : FabDie, ((swcOf s d).arrive = [] → Sys2Proof.Machine.exec (.gladeAdmission d) s = .next s) ∧
      ((swcOf s d).waiting = [] → Sys2Proof.Machine.exec (.losslessAdmit d) s = .next s) ∧
      ((swcOf s d).waiting = [] → (swcOf s d).arrive = [] → Sys2Proof.Machine.exec (.multicastAdmission d) s = .next s)) ∧
    (∀ (a b : Fin 8) (v : Vc), (tget 0 (swcOf s b).landRet (8 * a.val + v.val) = 0 → Sys2Proof.Machine.exec (.bridgeCreditReturn a b v) s = .next s) ∧
      (∀ n, alive s = true → a.val < 4 → b.val < 4 → a ≠ b → tget 0 (swcOf s b).landRet (8 * a.val + v.val) = n + 1 → (swcOf s a).bridgeWait = [] → ∃ t,
        Sys2Proof.Machine.exec (.bridgeCreditReturn a b v) s = .next t ∧ t = { s with swc := t.swc } ∧ tget 0 (swcOf t b).landRet (8 * a.val + v.val) = n ∧
        tget 0 (swcOf t a).spentCred (8 * b.val + v.val) = tget 0 (swcOf s a).spentCred (8 * b.val + v.val) - 1))

/-- R94, R166, R167: grants; R42: flits; R151: age; R169: shapers; R109, R110, R173: samples; R113: rejoining; R148: reducer ports. -/
def Obligations.SchedulerGrants : Prop :=
  ∀ s : State, s.flt.injActive = false → alive s = true →
    (∀ (p : Port) (x : Strand) (v : Vc),
      let k := subKey s p x
      let s1 := refresh k s
      ((schedOf s k).cur.any (fun e => e.1 == v.val) = true → Sys2Proof.Machine.exec (.queueGrant p x v) s = .next s) ∧
      (∀ (q : Nat) (e : QEnt) (y : Pkt), vcOpen s k v = true → (schedOf s k).cur.any (fun e => e.1 == v.val) = false →
        leastTag (fun q => tget 0 (schedOf s1 k).qS q) ((queuesOfVc s v).filter fun q => queueEligible s (8 * k + q)) = some q →
        (queueOf s (8 * k + q)).ents = [e] → e.granted = false → pktOf s e.pid = some y → y.exts = [] → (swcOf s (dieOf k)).sess = [] →
          (∀ f ∈ (linkOf s k).txq, f.src ≠ some (8 * k + q, e.pid)) →
        ((linkOf s k).peerSwitch = true → ∃ t, Sys2Proof.Machine.exec (.queueGrant p x v) s = .next t ∧ (queueOf t (8 * k + q)).ents = [{ e with granted := true }] ∧
          tget { q := 0, pid := s.nextPid } (schedOf t k).cur v = { q := 8 * k + q, pid := e.pid } ∧
          tget 0 (schedOf t k).qF q = tget 0 (schedOf s1 k).qS q + tagInc (flitsOf (pktTotal y)) (qWeight s (8 * k + q)) ∧ pktOf t e.pid = some y ∧
          t = { s with dbg := t.dbg, swc := t.swc, queues := t.queues, scheds := t.scheds, pkts := t.pkts }) ∧
        ((linkOf s k).peerSwitch = false → keyAllowed s k (egressKey y) true = false → ∃ t, Sys2Proof.Machine.exec (.queueGrant p x v) s = .next t ∧ (queueOf t (8 * k + q)).ents = [] ∧
          (portOf t (k / 4)).cnt = bump (portOf s (k / 4)).cnt 0x140 1 ∧ (∀ j, linkOf t j = linkOf s j) ∧ t.mem = s.mem)) ∧
      (∀ (c : Cur) (e : QEnt) (y : Pkt), (linkOf s k).idleTx = false →
        leastTag (fun v => tget 0 (schedOf s1 k).vS v) ((List.range 7).filter fun v => vcOpen s1 k v && vcEligible s1 k v) = some v.val →
        tget { q := 0, pid := s.nextPid } (schedOf s k).cur v = c → pktOf s c.pid = some y → y.tailIn = true → (queueOf s c.q).ents.find? (fun e => e.pid = c.pid) = some e →
        (e.sent + 1 < flitsOf (wire y).length → ∃ t f, Sys2Proof.Machine.exec (.vcGrant p x) s = .next t ∧ (linkOf t k).txq = (linkOf s k).txq ++ [f] ∧ f.vc = v.val ∧
          f.data = ((wire y).drop (232 * e.sent)).take 232 ∧ f.typ = (if e.sent = 0 then 0 else 1) ∧ (schedOf t k).cur = (schedOf s k).cur ∧
          (queueOf t c.q).ents = (queueOf s c.q).ents.map fun z => if z.pid = c.pid then { z with sent := z.sent + 1 } else z) ∧
        (e.sent + 1 = flitsOf (wire y).length → ∃ t f, Sys2Proof.Machine.exec (.vcGrant p x) s = .next t ∧ (linkOf t k).txq = (linkOf s k).txq ++ [f] ∧ f.vc = v.val ∧
          f.data = ((wire y).drop (232 * e.sent)).take 232 ∧ f.typ = (if e.sent = 0 then 3 else 2) ∧ f.poison = y.poison ∧
          (queueOf t c.q).ents = (queueOf s c.q).ents.map (fun z => if z.pid = c.pid then { z with sent := z.sent + 1 } else z) ∧
          (schedOf t k).cur = (schedOf s k).cur.filter fun z => z.1 ≠ v.val))) ∧
    (∀ (p : Port) (x : Strand) (q : Fin 8),
      let k := subKey s p x
      let g := 8 * k + q.val
      let vc := ((List.range 8).find? fun v => q.val ∈ queuesOfVc s v).getD 0
      (vcOpen s k vc = true → shAllows s.clock (queueOf s g) = true → 0 < tget 0 (linkOf s k).credHeld vc → Sys2Proof.Machine.exec (.ageSweep p x q) s = .next s) ∧
      (vcOpen s k vc = false → ((queueOf s g).ents.map QEnt.pid).Nodup → (swcOf s (dieOf k)).sess = [] → (∀ f ∈ (linkOf s k).txq, f.src = none) → ∃ t, Sys2Proof.Machine.exec (.ageSweep p x q) s = .next t ∧
        (queueOf t g).ents = ((queueOf s g).ents.filter fun e => e.granted || (pktOf s e.pid).elim true (fun y => !tooOld s (qdie g) y)) ∧ (∀ j, j ≠ g → queueOf t j = queueOf s j) ∧
        ∀ j, linkOf t j = linkOf s j) ∧
      (∃ t, Sys2Proof.Machine.exec (.shaperCreditZero p x q) s = .next t ∧ t = { s with queues := t.queues, scheds := t.scheds } ∧ queueOf t g = shSync s.clock (queueOf s g) ∧
        (∀ j, j ≠ g → queueOf t j = queueOf s j)) ∧
      (∀ at_, memberLive s k = true → (linkOf s k).liveSince = some at_ → ∃ t, Sys2Proof.Machine.exec (.rejoin p x) s = .next t ∧
        t = { s with clock := max s.clock (at_ + 1000 * ((List.range 4).map fun d => (tget 0 s.route.rejoinUs d).toNat).foldl max 0), links := t.links } ∧
        linkOf t k = { linkOf s k with joined := true } ∧ (∀ j, j ≠ k → linkOf t j = linkOf s j)) ∧
      (memberLive s k = false ∨ (linkOf s k).liveSince = none → Sys2Proof.Machine.exec (.rejoin p x) s = .next s)) ∧
    (∀ d : FabDie, coreUp s d = true →
      ((s.queues.map Prod.fst).Nodup → ∃ t, Sys2Proof.Machine.exec (.depthSample d) s = .next t ∧ t = { s with route := { s.route with levels := t.route.levels }, swc := t.swc, queues := t.queues } ∧
        (∀ g ∈ s.queues.map Prod.fst, qdie g = d.val → (queueOf t g).level = levelOf s d (depthOf (queueOf s g)) ∧ tget 0 t.route.levels g = levelOf s d (depthOf (queueOf s g)) ∧
          (queueOf t g).avg = ewma (queueOf s g).avg (depthOf (queueOf s g)) (fld (tget 0 (swcOf s d).redProf (4 * fld (queueOf s g).qsched 28 4 + 3)) 0 4) ∧
          (queueOf t g).ents = (queueOf s g).ents) ∧
        (∀ g, qdie g ≠ d.val → queueOf t g = queueOf s g)) ∧
      (∀ (lp x v pid : Nat), (swcOf s d).voqs = [(8 * lp + 2 * x + v, [pid])] → lp < 72 → x < 4 → v < 2 → (swcOf s d).voqWait = [] → redLive s x = true →
        (poolWaits s (4 * x) = false → ∃ t,
          Sys2Proof.Machine.exec (.reducerMatchingRound d) s = .next t ∧ t = { s with dbg := t.dbg, swc := t.swc, red := t.red } ∧ (redOf t x).inbox = (redOf s x).inbox ++ [(d.val, pid)] ∧
          (swcOf t d).voqs = [] ∧ (swcOf t d).free = (swcOf s d).free + pktCells s pid ∧ (swcOf t d).voq = (swcOf s d).voq - pktCells s pid) ∧
        (∀ y : Pkt, poolWaits s (4 * x) = true → pktOf s pid = some y → hPtype y.hdr = ptChunk → ∃ t, Sys2Proof.Machine.exec (.reducerMatchingRound d) s = .next t ∧ t.red = s.red ∧ (swcOf t d).voqs = (swcOf s d).voqs)))

/-- R187 to R190, R206, R247: contexts; R451: an allocation in Quiet. -/
def Obligations.ContextLifecycle : Prop :=
  ∀ s : State, alive s = true →
    (∀ a : AllocMsg, slotOf s a.group = none →
      (s.pwr.state = .quiet → bitOf s.pwr.wakeEn 2 = true → s.pwr.busy = true →
        Sys2Proof.Machine.exec (.contextAllocation a) s = .next (modPwr (fun p => { p with waitAlloc := p.waitAlloc ++ [a] }) s)) ∧
      (s.pwr.state ≠ .quiet ∨ bitOf s.pwr.wakeEn 2 = false → isMgr s = false →
        let no (n : Nat) : Out := .allocAns a.group { coord := s.gctl.coord, status := BitVec.ofNat 8 n, crc := 0, point := 0, vcw := [] }
        (Sys2Proof.Machine.posOk s a = false → Sys2Proof.Machine.exec (.contextAllocation a) s = .next (emit (no 0x11) s)) ∧
        (∀ r n : Nat, Sys2Proof.Machine.posOk s a = true → validate s a = some (r, n) → ∃ t, Sys2Proof.Machine.exec (.contextAllocation a) s = .next t ∧ t = { s with out := no 0x12 :: s.out, red := t.red } ∧
          ∀ x : RedDie, (redOf t x).valReason = BitVec.ofNat 4 r ∧ (redOf t x).valAddr = BitVec.ofNat 14 n ∧ (redOf t x).freePages = (redOf s x).freePages) ∧
        (Sys2Proof.Machine.posOk s a = true → validate s a = none → (freeSlot s = none → Sys2Proof.Machine.exec (.contextAllocation a) s = .next (emit (no 0x15) s)) ∧
          (freeSlot s ≠ none → homeFor s a = none → Sys2Proof.Machine.exec (.contextAllocation a) s = .next (emit (no 0x10) s))) ∧
        (∀ k x : Nat, Sys2Proof.Machine.posOk s a = true → validate s a = none → freeSlot s = some k → homeFor s a = some x → ∃ t c, Sys2Proof.Machine.exec (.contextAllocation a) s = .next t ∧
          t = { s with out := t.out, red := t.red, ctxs := t.ctxs } ∧ ctxOf t k = some c ∧ (∀ j, j ≠ k → ctxOf t j = ctxOf s j) ∧
          c.st = .reserved ∧ c.die = x ∧ c.spec = a ∧ c.resAt = s.clock ∧ c.reserved = true ∧ c.committed = false ∧ c.steps = [] ∧
          c.pages = ((256 + 4 * a.children.length + 255) / 256 * 256 + a.window * (accBytes a + ((a.children.length + 7) / 8 + 7) / 8 * 8 + 64) + 4095) / 4096 ∧
          (redOf t x).freePages = (redOf s x).freePages - c.pages ∧ (∀ y, y ≠ x → redOf t y = redOf s y) ∧
          (bitOf a.mode 4 = false → t.out = .allocAns a.group { coord := s.gctl.coord, status := 0, crc := progCrc (progOf s a.program.toNat), point := 0, vcw := [] } :: s.out)))) ∧
    (∀ (g : GroupId) (k : Nat) (c : Ctx), slotOf s g = some k → ctxOf s k = some c → c.committed = false →
      (∃ t, Sys2Proof.Machine.exec (.commit g false) s = .next t ∧ t = { s with swc := t.swc, ctxs := t.ctxs } ∧
        (∀ d : FabDie, tget none ((swcOf t d).ctxMap.map fun e => (e.1, some e.2)) g.toNat = some { slot := BitVec.ofNat 18 k, die := BitVec.ofNat 2 c.die }) ∧
        ctxOf t k = some { c with st := if c.st = .reserved then .idle else c.st, committed := true, pi := progIdent c.spec.program.toNat ((progOf s c.spec.program.toNat).map Prod.snd) (progCrc (progOf s c.spec.program.toNat)) } ∧
        ∀ j, j ≠ k → ctxOf t j = ctxOf s j) ∧
      (c.die < 4 → ∃ t, Sys2Proof.Machine.exec (.release g) s = .next t ∧ ctxOf t k = none ∧ (∀ j, j ≠ k → ctxOf t j = ctxOf s j) ∧
        (redOf t c.die).freePages = (redOf s c.die).freePages + (if c.reserved then c.pages else 0) ∧ (∀ d : FabDie, ∀ e ∈ (swcOf t d).ctxMap, e.2.slot.toNat ≠ k) ∧ t.mem = s.mem ∧ t.out = s.out)) ∧
    (∀ (k : Slot) (c : Ctx), ctxOf s k.toNat = some c →
      (c.committed = false → ∃ t, Sys2Proof.Machine.exec (.reservationExpiry k) s = .next t ∧ t.clock = max s.clock (c.resAt + 10000000) ∧ ctxOf t k.toNat = none ∧ (∀ j, j ≠ k.toNat → ctxOf t j = ctxOf s j) ∧
        (redOf t c.die).freePages = (redOf s c.die).freePages + (if c.reserved then c.pages else 0) ∧ t.out = s.out) ∧
      (c.committed = true → Sys2Proof.Machine.exec (.reservationExpiry k) s = .next s)) ∧
    (∀ (id : GroupId) (g : GroupRec) (sw : Coord) (status : Byte) (crc : Word) (point : BitVec 2) (vcw : List Word), isMgr s = true → tget none s.mgr.groups id.toNat = some g → g.live = false →
      g.ring = none → g.desc.group = id → (∃ w ∈ g.desc.switches, w.coord = sw) → (∀ a ∈ g.answers, a.coord ≠ sw) →
      let ans : AllocAns := { coord := sw, status := status, crc := crc, point := point, vcw := vcw }
      let has (w : SwRec) := w.coord = sw ∨ ∃ a ∈ g.answers, a.coord = w.coord
      ((∃ w ∈ g.desc.switches, ¬ has w) →
        Sys2Proof.Machine.exec (.allocationAnswer id sw status crc point vcw) s = .next (modMgr (fun m => { m with groups := tset none m.groups id.toNat (some { g with answers := g.answers ++ [ans] }) }) s) ∧
        ∃ t, Sys2Proof.Machine.exec (.allocationTimeout id) s = .next t ∧ t.clock = max s.clock (tget 0 s.mgr.askedAt id.toNat + 10000000) ∧ tget none t.mgr.groups id.toNat = none) ∧
      ((∀ w ∈ g.desc.switches, has w) →
        (status = 0 → (∀ a ∈ g.answers, a.status = 0 ∧ a.crc = crc) → (∃ w ∈ g.desc.switches, w.coord = g.desc.root) → bitOf g.desc.mode 4 = false →
          (∀ w ∈ g.desc.switches, w.coord ≠ s.gctl.coord) → ∃ t, Sys2Proof.Machine.exec (.allocationAnswer id sw status crc point vcw) s = .next t ∧ t = { s with out := t.out, mgr := t.mgr } ∧
          t.out = (g.desc.switches.map fun w => Out.commitMsg w.coord id false).reverse ++ s.out ∧
          tget none t.mgr.groups id.toNat = some { g with answers := g.answers ++ [ans], live := true }) ∧
        (status ≠ 0 → ∃ t, Sys2Proof.Machine.exec (.allocationAnswer id sw status crc point vcw) s = .next t ∧ tget none t.mgr.groups id.toNat = none)))

/-- R192: messages; R194, R195: opening; R197: windows; R206, R211: states; R214: counters. That WINDOW never lowers a LIMIT is the model's reading of R197. -/
def Obligations.StepOpening : Prop :=
  let fresh (s t : State) (c : Ctx) (num : StepNo) (n : Nat) (scs : List Word) (y : Step) : Prop :=
    y.num = num ∧ y.n = n ∧ y.scalars = scs ∧ y.done = [] ∧ y.results = 0 ∧ y.chunks = [] ∧ y.failed = none ∧ y.closed = false ∧ y.timerAt = s.clock ∧ y.openAt = fabT s ∧
      (c.spec.op = 0 → c.spec.children ≠ [] → y.limSent = min n c.spec.window) ∧ t.mem = s.mem
  (∀ (s : State) (q : Slot) (c : Ctx) (r : Ready), alive s = true → ctxOf s q.toNat = some c → isPaced c = false → c.ready = some r → c.spec.isRoot = true → c.st = .ready → c.steps = [] → shardDown s c = false →
    ∃ t y, Sys2Proof.Machine.exec (.rootStepOpen q) s = .next t ∧ ctxOf t q.toNat = some { c with ready := none, st := .run, steps := [y] } ∧ fresh s t c r.num r.n r.scalars y) ∧
  (∀ (s : State) (x : RedDie) (pid : Nat) (p : Pkt) (k : Nat) (c : Ctx), inboxFront s x = some (pid, p) → hPtype p.hdr = ptCtrl → pktSlot s p = some k → ctxOf s k = some c →
    let num : StepNo := BitVec.ofNat 48 (hStep p.hdr)
    let arg := be p.body 4 4
    let taken (t : State) : Prop := (redOf t x).inbox = (redOf s x).inbox.drop 1
    (ctrlOk p.body = true → be p.body 0 1 = kStepStart → c.spec.isRoot = true →
      let scs := (List.range 8).map fun i => (BitVec.ofNat 32 (be p.body (8 + 4 * i) 4) : Word)
      let holds (t : State) : Prop := ctxOf t k = some { c with held := c.held ++ [{ start := true, num := num, n := arg, scalars := scs, arrived := fabT s }] } ∧ pktOf t pid = none
      (c.st = .moving → ∃ t, Sys2Proof.Machine.exec (.stepStart x) s = .next t ∧ taken t ∧ holds t) ∧
      (c.st ≠ .moving → c.st ≠ .halt → c.st ≠ .lost → shardLocked s c = true ∨ shardDown s c = true → ∃ t, Sys2Proof.Machine.exec (.stepStart x) s = .next t ∧ taken t ∧ holds t) ∧
      (c.st = .halt ∨ c.st = .lost → ∃ t, Sys2Proof.Machine.exec (.stepStart x) s = .next t ∧ taken t ∧ ctxOf t k = some c) ∧
      (c.st ≠ .moving → c.st ≠ .halt → c.st ≠ .lost → shardLocked s c = false → shardDown s c = false →
        ((∃ a, c.lastAcc = some a ∧ num ≠ a + 1) ∨ countOk s c arg = false → ∃ t, Sys2Proof.Machine.exec (.stepStart x) s = .next t ∧ taken t ∧ ctxOf t k = some c) ∧
        (c.lastAcc = none ∨ c.lastAcc = some (num - 1) → countOk s c arg = true → c.ready = none →
          (c.stopHeld = true → ∃ t, Sys2Proof.Machine.exec (.stepStart x) s = .next t ∧ taken t ∧ ctxOf t k = some { c with stopHeld := false, lastAcc := some num }) ∧
          (c.stopHeld = false → c.st = .idle ∨ c.st = .run → ∃ t r, Sys2Proof.Machine.exec (.stepStart x) s = .next t ∧ t = { s with red := t.red, ctxs := t.ctxs, pkts := t.pkts } ∧ taken t ∧
            pktOf t pid = none ∧ ctxOf t k = some { c with lastAcc := some num, ready := some r, st := if openSteps c = [] then .ready else .run } ∧
            r = { num := num, n := arg, scalars := scs, arrived := fabT s, after := 0 })))) ∧
    (ctrlOk p.body = true → be p.body 0 1 = kStepOpen → c.up = some (pktPos s p) →
      (c.isTwin = false → c.st = .idle → c.steps = [] → c.ready = none → 1 ≤ arg → ∃ t y, Sys2Proof.Machine.exec (.stepOpen x) s = .next t ∧ taken t ∧ ctxOf t k = some { c with st := .run, steps := [y] } ∧
        fresh s t c num arg [] y) ∧
      (∀ y : Step, c.isTwin = false → c.steps = [y] → y.num = num → y.closed = false → ∃ t, Sys2Proof.Machine.exec (.stepOpen x) s = .next t ∧ taken t ∧ ctxOf t k = some { c with steps := [{ y with n := arg }] })) ∧
    (ctrlOk p.body = true → be p.body 0 1 = kWindow → c.up = some (pktPos s p) → ∃ t, Sys2Proof.Machine.exec (.window x) s = .next t ∧ t = { s with red := t.red, ctxs := t.ctxs, pkts := t.pkts } ∧
      taken t ∧ pktOf t pid = none ∧ ctxOf t k = some { c with steps := c.steps.map fun y => if y.num = num ∧ y.closed = false then { y with upLimit := max y.upLimit arg } else y }) ∧
    (ctrlOk p.body = false → ∃ t, Sys2Proof.Machine.exec (.stepOpen x) s = .next t ∧ Sys2Proof.Machine.exec (.window x) s = .next t ∧ Sys2Proof.Machine.exec (.stepStart x) s = .next t ∧
      taken t ∧ pktOf t pid = none ∧ t.ctxs = s.ctxs ∧ (redOf t c.die).cnt = bump (redOf s c.die).cnt 0x044 1) ∧
    (ctrlOk p.body = true → childIdx c (pktPos s p) = none → c.up ≠ some (pktPos s p) →
      (be p.body 0 1 = kStepOpen → ∃ t, Sys2Proof.Machine.exec (.stepOpen x) s = .next t ∧ taken t ∧ t.ctxs = s.ctxs ∧ (redOf t c.die).cnt = bump (redOf s c.die).cnt 0x048 1) ∧
      (be p.body 0 1 = kWindow → ∃ t, Sys2Proof.Machine.exec (.window x) s = .next t ∧ taken t ∧ t.ctxs = s.ctxs ∧ (redOf t c.die).cnt = bump (redOf s c.die).cnt 0x048 1)))

/-- R194, R200, R206: STEP_END, BAD_STEP passed on; R258: granted instances go on; R205: STOP; R204: FAIL; R202, R203: the timer; R214:
counters. -/
def Obligations.StepClosing : Prop :=
  let closed (c : Ctx) (y : Step) (status : Nat) (d : Ctx) : Prop := d = { c with
      st := if status = stNanTrap ∨ status = stInfTrap then .halt else .idle, steps := [], lastClosed := some (y.num, BitVec.ofNat 8 status), lastStatus := BitVec.ofNat 8 status
      haltStatus := if status = stNanTrap ∨ status = stInfTrap then BitVec.ofNat 8 status else c.haltStatus, haltDetail := d.haltDetail, sq := d.sq, digest := d.digest }
  let pending (y : Step) : Prop := y.failed = none ∧ ∀ e ∈ y.chunks, ∀ q, e.2 = some q → q.inst.granted = false
  (∀ (s : State) (x : RedDie) (pid : Nat) (p : Pkt) (k : Nat) (c : Ctx), inboxFront s x = some (pid, p) → hPtype p.hdr = ptCtrl → pktSlot s p = some k → ctxOf s k = some c →
    let num : StepNo := BitVec.ofNat 48 (hStep p.hdr)
    let status := be p.body 1 1
    let taken (t : State) : Prop := (redOf t x).inbox = (redOf s x).inbox.drop 1 ∧ pktOf t pid = none ∧ t.mem = s.mem ∧ ∀ j, j ≠ k → ctxOf t j = ctxOf s j
    ctrlOk p.body = true → pid < s.nextPid → c.deleting = false →
    (be p.body 0 1 = kStepEnd → c.up = some (pktPos s p) → ∀ y : Step, c.st = .run → c.ready = none → c.steps = [y] → y.num = num → y.closed = false → c.spec.isRoot = false →
      (status = 7 → ∃ t, Sys2Proof.Machine.exec (.stepEnd x) s = .next t ∧ taken t ∧ ctxOf t k = some c ∧ (redOf t c.die).cnt = (redOf s c.die).cnt) ∧
      (status ≠ 7 → ∃ t d, Sys2Proof.Machine.exec (.stepEnd x) s = .next t ∧ taken t ∧ ctxOf t k = some d ∧ (redOf t c.die).cnt = bump (redOf s c.die).cnt (if status = 0 then 0x050 else 0x054) 1 ∧
        (pending y → closed c y status d ∧ d.sq = c.sq ∧ d.digest = c.digest ∧ (status = stNanTrap ∨ status = stInfTrap → d.haltDetail = BitVec.ofNat 128 (be p.body 8 16))) ∧
        ∀ m q, chunkOf y m = some q → (q.inst.granted = true → ∃ z ∈ d.steps, z.num = num ∧ z.closed = true ∧ chunkOf z m = some q) ∧ (q.inst.granted = false → ∀ z ∈ d.steps, chunkOf z m ≠ some q))) ∧
    (be p.body 0 1 = kStop → c.spec.isRoot = true → c.st ≠ .moving →
      (∀ r : Ready, c.ready = some r → r.num = num → c.st = .ready → openSteps c = [] → ∃ t, Sys2Proof.Machine.exec (.stop x) s = .next t ∧ taken t ∧ ctxOf t k = some { c with ready := none, st := .idle }) ∧
      (∀ y : Step, c.st = .run → c.ready = none → c.steps = [y] → y.num = num → y.closed = false →
        (y.results = 0 → ∃ t d, Sys2Proof.Machine.exec (.stop x) s = .next t ∧ taken t ∧ ctxOf t k = some d ∧ closed c y stAborted d ∧ (redOf t c.die).cnt = bump (redOf s c.die).cnt 0x054 1) ∧
        (y.results ≠ 0 → ∃ t, Sys2Proof.Machine.exec (.stop x) s = .next t ∧ taken t ∧ ctxOf t k = some { c with stopHeld := true })) ∧
      (openSteps c = [] → c.ready = none →
        ((∃ z, c.lastClosed = some (num, z)) → ∃ t, Sys2Proof.Machine.exec (.stop x) s = .next t ∧ taken t ∧ ctxOf t k = some { c with stopHeld := true }) ∧
        ((∀ z, c.lastClosed ≠ some (num, z)) → ∃ t, Sys2Proof.Machine.exec (.stop x) s = .next t ∧ taken t ∧ ctxOf t k = some c))) ∧
    (be p.body 0 1 = kFail → (childIdx c (pktPos s p)).isSome = true →
      (c.spec.isRoot = false ∨ stepOf c num = none → ∃ t, Sys2Proof.Machine.exec (.fail x) s = .next t ∧ taken t ∧ ctxOf t k = some c) ∧
      (∀ y : Step, c.spec.isRoot = true → c.spec.op ≠ 6 → c.st = .run → c.ready = none → c.steps = [y] → y.num = num → y.closed = false → pending y →
        ∃ t d, Sys2Proof.Machine.exec (.fail x) s = .next t ∧ taken t ∧ ctxOf t k = some d ∧ closed c y status d ∧ (redOf t c.die).cnt = bump (redOf s c.die).cnt (if status = 0 then 0x050 else 0x054) 1))) ∧
  (∀ (s : State) (k : Slot) (c : Ctx), alive s = true → ctxOf s k.toNat = some c → c.deleting = false →
    let stepping : Prop := ∃ i : InstId, (redOf s c.die).halted = some i ∧ i.slot = k
    let still : Prop := ∀ (x : RedDie) (i : InstId), (redOf s x).halted = some i → i.slot ≠ k
    (openSteps c = [] ∨ stepping → Sys2Proof.Machine.exec (.stepTimerExpiry k) s = .next s) ∧
    (∀ y : Step, ¬ stepping → c.steps = [y] → y.closed = false → pending y →
      (c.spec.isRoot = true → c.spec.op ≠ 6 → c.st = .run → c.ready = none → ∃ t d, Sys2Proof.Machine.exec (.stepTimerExpiry k) s = .next t ∧ t.clock = max s.clock (y.timerAt + 1000 * c.spec.timeoutUs + 20000 * c.spec.height) ∧ ctxOf t k.toNat = some d ∧ closed c y stStraggler d ∧
        (redOf t c.die).cnt = bump (bump (redOf s c.die).cnt 0x058 1) 0x054 1 ∧ t.mem = s.mem ∧ t.queues = s.queues) ∧
      (c.spec.isRoot = false → still → ∃ t e, Sys2Proof.Machine.exec (.stepTimerExpiry k) s = .next t ∧ t.clock = max s.clock (y.timerAt + 1000 * c.spec.timeoutUs + 20000 * c.spec.height) ∧ ctxOf t k.toNat = some { c with steps := [{ y with failed := some (BitVec.ofNat 8 stStraggler, e), chunks := [] }] } ∧
        (redOf t c.die).cnt = bump (redOf s c.die).cnt 0x058 1 ∧ t.mem = s.mem ∧ t.queues = s.queues)))

/-- R191, R198: the table of a CHUNK; R199: results; R197: grants and LIMIT; R200: closing; R201: the book; R202: the timer restarts; R248: at most
W instances run; R299: a paced STEP_END is held; R214: counters. -/
def Obligations.ChunksAndResults : Prop :=
  (∀ (s : State) (x : RedDie) (pid : Nat) (p : Pkt) (k : Nat) (c : Ctx) (y : Step), inboxFront s x = some (pid, p) → pid < s.nextPid → hPtype p.hdr = ptChunk → pktSlot s p = some k → ctxOf s k = some c →
    c.steps = [y] → y.num = BitVec.ofNat 48 (hStep p.hdr) → y.closed = false → c.spec.op = 0 →
    let n := hChunk p.hdr
    let fmt := hFmt p.hdr
    let els := 32 * (p.body.length / blockBytes fmt)
    let taken (t : State) : Prop := (redOf t x).inbox = (redOf s x).inbox.drop 1 ∧ pktOf t pid = none ∧ t.mem = s.mem ∧ t.queues = s.queues ∧ ∀ j, j ≠ k → ctxOf t j = ctxOf s j
    let becomes (t : State) (z : Step) : Prop := taken t ∧ ctxOf t k = some { c with steps := [{ z with steered := satAdd y.steered 1 }] }
    let drops (ofs : Nat) : Prop := ∃ t, Sys2Proof.Machine.exec (.chunkContribution x) s = .next t ∧ becomes t { y with dropped := satAdd y.dropped 1 } ∧ (redOf t c.die).cnt = bump (redOf s c.die).cnt ofs 1
    (c.up ≠ some (pktPos s p) →
      (childIdx c (pktPos s p) = none → drops 0x048) ∧
      (∀ i : Nat, childIdx c (pktPos s p) = some i →
        (y.failed.isSome = true → ∃ t, Sys2Proof.Machine.exec (.chunkContribution x) s = .next t ∧ becomes t { y with discarded := satAdd y.discarded 1 }) ∧
        (y.failed = none →
          (n ≥ y.n ∨ n ≥ y.limSent → drops 0x044) ∧
          (n < y.n → n < y.limSent →
            (c.spec.inFmts.getLsbD fmt = false → drops 0x04C) ∧
            (c.spec.inFmts.getLsbD fmt = true → els ≤ chunkLimit c →
              (∀ q : Chunk, chunkOf y n = some q →
                (q.elems ≠ els → drops 0x04C) ∧ (q.elems = els → i ∈ q.bits → drops 0x040) ∧
                (q.elems = els → i ∉ q.bits → q.raw = none → i < c.spec.children.length → ∃ t z, Sys2Proof.Machine.exec (.chunkContribution x) s = .next t ∧ becomes t z ∧ z = { y with chunks := z.chunks, accum := satAdd y.accum 1 } ∧
                  (redOf t c.die).cnt = (redOf s c.die).cnt ∧ chunkOf z n = some { q with bits := insNat i q.bits, inst := { q.inst with todo := q.inst.todo ++ [{ child := i, fmt := BitVec.ofNat 4 fmt, bytes := p.body }] } } ∧
                  ∀ j, j ≠ n → chunkOf z j = chunkOf y j)) ∧
              (chunkOf y n = none → n ∉ y.done → i < c.spec.children.length → ∃ t z q, Sys2Proof.Machine.exec (.chunkContribution x) s = .next t ∧ becomes t z ∧ z = { y with chunks := z.chunks, accum := satAdd y.accum 1 } ∧
                (redOf t c.die).cnt = (redOf s c.die).cnt ∧ chunkOf z n = some q ∧ q.bits = [i] ∧ q.elems = els ∧ q.inst.pc = c.spec.program.toNat ∧ q.inst.a = .empty ∧
                q.inst.todo = [{ child := i, fmt := BitVec.ofNat 4 fmt, bytes := p.body }] ∧ q.inst.wseed = c.spec.seed ∧
                (q.inst.started = true ↔ (y.chunks.filter fun e => e.2.any fun r => r.inst.started).length < c.spec.window) ∧ ∀ j, j ≠ n → chunkOf z j = chunkOf y j)))))) ∧
    (c.up = some (pktPos s p) → c.isTwin = false → (∀ j, s.nextPid ≤ j → pktOf s j = none) →
      let dsts := (resultTo c y.n n).filterMap fun i => (childPoss c)[i]?
      (n ≥ y.n → ∃ t, Sys2Proof.Machine.exec (.resultPassDown x) s = .next t ∧ taken t ∧ ctxOf t k = some c ∧ t.nextPid = s.nextPid ∧ (redOf t c.die).cnt = bump (redOf s c.die).cnt 0x044 1) ∧
      (n < y.n → ∃ t, Sys2Proof.Machine.exec (.resultPassDown x) s = .next t ∧ taken t ∧ ctxOf t k = some c ∧ t.nextPid = s.nextPid + ((List.range 4).filter fun d => dsts.any fun q => dieOf q == d).length ∧
        ∀ j z, s.nextPid ≤ j → pktOf t j = some z → z.hdr = p.hdr ∧ z.body = p.body))) ∧
  (∀ (s : State) (i : InstId) (h : Here), hereOf s i = some h → h.x.inst.granted = false → h.t.failed = none → h.t.closed = false → h.c.steps = [h.t] → h.c.deleting = false →
    let out := (h.x.inst.o).getD (0, [])
    let passed (t : State) (d : Ctx) (z : Step) (m : Nat) : Prop := ctxOf t i.slot.toNat = some d ∧ d = { h.c with steps := [z] } ∧
      z = { h.t with done := insNat i.chunk.toNat h.t.done, timerAt := s.clock, results := h.t.results + m, chunks := z.chunks, limSent := z.limSent } ∧
      chunkOf z i.chunk.toNat = some { h.x with inst := { h.x.inst with granted := true, pc := h.addr + 1, waiting := false, atBar := false } } ∧ t.mem = s.mem
    (∀ u : Nat, h.c.up = some u → h.x.inst.emitted = true →
      (i.chunk.toNat < h.t.upLimit → ∃ t d z q, Sys2Proof.Machine.exec (.emitGrant i) s = .next t ∧ passed t d z 0 ∧ pktOf t s.nextPid = some q ∧ q.body = out.2 ∧
        q.hdr = groupHdr s h.c ptChunk out.2.length i.step.toNat i.chunk.toNat out.1.toNat false) ∧
      (i.chunk.toNat ≥ h.t.upLimit → Sys2Proof.Machine.exec (.emitGrant i) s = .next s)) ∧
    (h.x.inst.fanned = true →
      (h.t.results + 1 < h.t.n → ∃ t d z, Sys2Proof.Machine.exec (.fanGrant i) s = .next t ∧ passed t d z 1) ∧
      (h.t.results + 1 = h.t.n → isPaced h.c = false → h.c.spec.op ≠ 6 → h.c.st = .run → h.c.ready = none → ∃ t d, Sys2Proof.Machine.exec (.fanGrant i) s = .next t ∧ ctxOf t i.slot.toNat = some d ∧ d.st = .idle ∧
        openSteps d = [] ∧ d.lastClosed = some (h.t.num, 0) ∧ d.lastStatus = 0 ∧ (redOf t h.c.die).cnt = bump (redOf s h.c.die).cnt 0x050 1) ∧
      (h.t.results + 1 = h.t.n → isPaced h.c = true → h.c.spec.op ≠ 6 → h.c.st = .run → h.c.ready = none →
        let endsAt := h.t.openAt.toNat + 65536 * h.c.spec.paceNs
        ∃ t d z, Sys2Proof.Machine.exec (.fanGrant i) s = .next t ∧ ctxOf t i.slot.toNat = some d ∧ d.st = .idle ∧ d.lastClosed = some (h.t.num, 0) ∧ d.steps = [z] ∧ z.num = h.t.num ∧ z.closed = true ∧
          ((fabT s).toNat < endsAt → z.endHeld = some (0, BitVec.ofNat 64 (endsAt / 65536))) ∧ (endsAt ≤ (fabT s).toNat → z.endHeld = none) ∧
          (redOf t h.c.die).cnt = (let b := if endsAt < (fabT s).toNat then bump (redOf s h.c.die).cnt 0x124 1 else (redOf s h.c.die).cnt; bump b 0x050 1))) ∧
    (h.x.inst.emitted = false → Sys2Proof.Machine.exec (.emitGrant i) s = .next s) ∧ (h.x.inst.fanned = false → Sys2Proof.Machine.exec (.fanGrant i) s = .next s))

/-- R254: the words; R250: sections; R252: END waits for STS; R257: BAR; R255: SEED. -/
def Obligations.ControlWords : Prop :=
  ∀ (s : State) (i : InstId) (h : Here), hereOf s i = some h →
    let k := i.chunk.toNat
    let n := h.x.inst
    let bits (lo w : Nat) := fld h.w lo w
    let inst (t : State) : Option Inst := (findInst t i).map fun e => e.2.2.inst
    let only (t : State) : Prop := t = { s with ctxs := t.ctxs } ∧ (∀ j, j ≠ i.slot.toNat → ctxOf t j = ctxOf s j) ∧ ∃ d, ctxOf t i.slot.toNat = some d ∧ d = { h.c with steps := d.steps }
    let past (m : Inst) : Option Inst := some { m with pc := h.addr + 1, waiting := false, atBar := false }
    let full : Prop := (∀ c ∈ expects h.c h.t.n k, c ∈ h.x.bits) ∧ (accWord h.c h.ws = none ∨ n.todo = [])
    let prevOver : Prop := k = 0 ∨ (k - 1 ∈ h.t.done ∧ chunkOf h.t (k - 1) = none)
    let allThere : Prop := ∀ j, j < h.t.n → j ≠ k → (j ∈ h.t.done ∧ chunkOf h.t j = none) ∨ ∃ x, chunkOf h.t j = some x ∧ (h.addr < x.inst.pc ∨ (x.inst.atBar = true ∧ x.inst.pc = h.addr))
    let goes (c : Instr) : Prop := ∃ t, Sys2Proof.Machine.exec c s = .next t ∧ only t ∧ inst t = past { n with started := true }
    let released : Prop := ∃ t, Sys2Proof.Machine.exec (.waitRelease i) s = .next t ∧ only t ∧ inst t = past n
    let holds (c : Instr) (bar : Bool) : Prop := ∃ t, Sys2Proof.Machine.exec c s = .next t ∧ only t ∧ inst t = some { n with started := true, pc := h.addr, waiting := true, atBar := bar }
    (stepped s i h = false →
      (wOp h.w = 0x00 → goes (.nopInstruction i)) ∧
      (wOp h.w = 0x01 → bits 0 2 = 0 → (full → goes (.waitComplete i)) ∧ (¬ full → holds (.waitComplete i) false)) ∧
      (wOp h.w = 0x01 → bits 0 2 = 1 → (prevOver → goes (.waitPrev i)) ∧ (¬ prevOver → holds (.waitPrev i) false)) ∧
      (wOp h.w = 0x0D → (allThere → goes (.bar i)) ∧ (¬ allThere → holds (.bar i) true)) ∧
      (wOp h.w = 0x0E → ∃ t, Sys2Proof.Machine.exec (.seed i) s = .next t ∧ only t ∧
        inst t = past { n with started := true, wseed := if isWorsted h.c then h.c.spec.seed ^^^ (BitVec.ofNat 64 (bits 0 16) * 0xD6E8FEB86659FD93#64) else n.wseed }) ∧
      (wOp h.w = 0x06 → ∃ t, Sys2Proof.Machine.exec (.emit i) s = .next t ∧ only t ∧ inst t = some { n with started := true, pc := h.addr, emitted := true }) ∧
      (wOp h.w = 0x07 → ∃ t, Sys2Proof.Machine.exec (.fan i) s = .next t ∧ only t ∧ inst t = some { n with started := true, pc := h.addr, fanned := true }) ∧
      (wOp h.w = 0x0F → (n.sts ≠ 0 → n.stsDone = false → ∃ t, Sys2Proof.Machine.exec (.endWord i) s = .next t ∧ only t ∧ inst t = some { n with started := true }) ∧
        (n.sts = 0 ∨ n.stsDone = true → ∃ t, Sys2Proof.Machine.exec (.endWord i) s = .next t ∧ (h.c.deleting = false → t = { s with red := t.red, ctxs := t.ctxs, bpm := t.bpm, flt := t.flt }) ∧ findInst t i = none ∧
          (redOf t h.c.die).cnt = bump (redOf s h.c.die).cnt 0x0D8 1 ∧ ∀ j, j ≠ i.slot.toNat → ctxOf t j = ctxOf s j))) ∧
    (n.waiting = true →
      (wOp h.w = 0x01 → bits 0 2 = 0 → full → released) ∧ (wOp h.w = 0x01 → bits 0 2 = 1 → prevOver → released) ∧ (wOp h.w = 0x0D → allThere → released)) ∧
    (n.waiting = false → Sys2Proof.Machine.exec (.waitRelease i) s = .next s) ∧
    (wOp h.w ≠ 0x00 → Sys2Proof.Machine.exec (.nopInstruction i) s = .next s) ∧ (wOp h.w ≠ 0x0D → Sys2Proof.Machine.exec (.bar i) s = .next s) ∧
    (wOp h.w ≠ 0x06 → Sys2Proof.Machine.exec (.emit i) s = .next s) ∧ (wOp h.w ≠ 0x07 → Sys2Proof.Machine.exec (.fan i) s = .next s) ∧
    (wOp h.w ≠ 0x0E → Sys2Proof.Machine.exec (.seed i) s = .next s) ∧ (wOp h.w ≠ 0x0F → Sys2Proof.Machine.exec (.endWord i) s = .next s) ∧
    (wOp h.w ≠ 0x01 → Sys2Proof.Machine.exec (.waitComplete i) s = .next s ∧ Sys2Proof.Machine.exec (.waitPrev i) s = .next s)

/-- R251: waiting for space; R252, R266 to R268: shard reads and writes; R276, R277: planes and rules; R254: NORM; R295: DIG; R310: a shard block
that cannot be read; R311: an access to a row being spared. -/
def Obligations.ShardAndDigestWords : Prop :=
  ∀ (s : State) (i : InstId) (h : Here), hereOf s i = some h →
    let k := i.chunk.toNat
    let n := h.x.inst
    let bits (lo w : Nat) := fld h.w lo w
    let inst (t : State) : Option Inst := (findInst t i).map fun e => e.2.2.inst
    let past (m : Inst) : Option Inst := some { m with pc := h.addr + 1, waiting := false, atBar := false }
    let others (t : State) : Prop := ∀ j, j ≠ i.slot.toNat → ctxOf t j = ctxOf s j
    let up : Inst := { n with started := true }
    let waits (c : Instr) : Prop := ∃ t, Sys2Proof.Machine.exec c s = .next t ∧ t = { s with ctxs := t.ctxs } ∧ others t ∧ inst t = some up
    let owned (q : Nat) : Nat := (s.bpm.owners.filter fun e => e.2 == i && tget 0 s.bpm.holders e.1 == q + 1).length
    let asked (q : Nat) : Prop := ∃ w ∈ s.bpm.waiters, w.inst = some i ∧ w.q = q
    let quiet : Prop := s.flt.injActive = false ∧ (redOf s h.c.die).retired = 0
    let fresh (mask : Nat) : Prop := ∀ m ∈ n.lds, m.toNat &&& mask = 0
    let keys := (chunkBlks h.c i.step k).map (blkKey h.c h.c.die)
    let bs := keys.map fun j => tget {} s.mem.shard j
    (stepped s i h = false →
      (wOp h.w = 0x08 →
        let planes := ([n.w, n.m1, n.m2].zip (List.range 3)).countP fun e => e.1.isSome || h.w.getLsbD e.2 || n.lds.any fun m => m.getLsbD e.2
        let needs := planeNeeds h.c planes
        let q := 4 * h.c.die + 2
        (stsPending h.c i.step k = true → waits (.lds i)) ∧
        (stsPending h.c i.step k = false →
          (needs.length ≤ owned q → ∃ t, Sys2Proof.Machine.exec (.lds i) s = .next t ∧ t = { s with ctxs := t.ctxs } ∧ others t ∧ inst t = past { up with lds := n.lds ++ [BitVec.ofNat 3 (bits 0 3)] }) ∧
          (owned q < needs.length → asked q ∨ mgmtUp s = false → waits (.lds i)) ∧
          (∀ need : Nat, needs.drop (owned q) = [need] → ¬ asked q → mgmtUp s = true → ∃ t, Sys2Proof.Machine.exec (.lds i) s = .next t ∧ t.bpm = (poolAsk q need (some i) s).bpm ∧ others t))) ∧
      (wOp h.w = 0x09 →
        let mask := bits 0 3
        let q := 4 * h.c.die + 3
        let bl := (stsBlocks i mask n).map Prod.fst
        let tw := if h.c.twin = .active ∧ cpTwin h.c.spec.coppice = true then twinBodies bl else []
        (¬ fresh mask → waits (.sts i)) ∧ (fresh mask → owned q < tw.length → asked q ∨ mgmtUp s = false → waits (.sts i)) ∧
        (fresh mask → tw.length ≤ owned q → (∀ e ∈ stsBlocks i mask n, e.2 = none) → ∃ t, Sys2Proof.Machine.exec (.sts i) s = .next t ∧ t = { s with ctxs := t.ctxs } ∧ others t ∧
          inst t = past { up with store := bl, sts := BitVec.ofNat 3 mask, stsDone := false, twinLeft := tw } ∧ bl.length = n.read.length ∧ (∀ b ∈ bl, b.ver = i.step) ∧
          (mask = 1 → bl.map (fun b => (b.x1, b.m1, b.x2, b.m2, b.blk)) = n.read.map (fun b => (b.x1, b.m1, b.x2, b.m2, b.blk))))) ∧
      (wOp h.w = 0x0A → bits 3 2 = 0 → (¬ fresh 3 → waits (.upd i [])) ∧
        (fresh 3 → quiet → ∀ gs lr mu wd : Int × Int, useScalar h.c (srcWord h (bits 0 3)) = .inr (gs, false) → useScalar h.c (srcWord h (bits 0 3 + 1)) = .inr (lr, false) →
          useScalar h.c (srcWord h (bits 0 3 + 2)) = .inr (mu, false) → useScalar h.c (srcWord h (bits 0 3 + 3)) = .inr (wd, false) →
          ∃ t w m1, Sys2Proof.Machine.exec (.upd i []) s = .next t ∧ t = { s with red := t.red, ctxs := t.ctxs, dbg := t.dbg } ∧ others t ∧ inst t = past { up with w := some w, m1 := some m1 } ∧
            (∀ (j : Nat) (g a b : UBlock), (gradient h)[j]? = some g → (n.w.getD [])[j]? = some a → (n.m1.getD [])[j]? = some b → w[j]? = some (sgdm g a b gs lr mu wd).1 ∧ m1[j]? = some (sgdm g a b gs lr mu wd).2) ∧
            w.length = (gradient h).length ∧ m1.length = (gradient h).length ∧ (redOf t h.c.die).cnt = bump (redOf s h.c.die).cnt 0x0F0 (gradient h).length)) ∧
      (wOp h.w = 0x0B → quiet → ∃ t, Sys2Proof.Machine.exec (.norm i []) s = .next t ∧ t = { s with ctxs := t.ctxs } ∧ others t ∧ inst t = past up ∧
        (findInst t i).map (fun e => e.2.1.sq) = some (if h.t.closed then h.t.sq else h.t.sq + ((scaledVals h h.x.elems).map fun v => ratOf (v.1 * v.1) (2 * v.2)).sum)) ∧
      (wOp h.w = 0x0C → ∃ t, Sys2Proof.Machine.exec (.dig i) s = .next t ∧ t = { s with ctxs := t.ctxs } ∧ others t ∧ inst t = past up ∧
        (findInst t i).map (fun e => e.2.1.dg) = some (if bitOf h.c.spec.mode 5 = true ∧ h.t.closed = false then h.t.dg ^^^ digHash ((n.o.map Prod.snd).getD []) k else h.t.dg))) ∧
    (∀ cw : List (Nat × CwResult), n.lds = [] ∨ blksBusy s h.c (chunkBlks h.c i.step k) = true → Sys2Proof.Machine.exec (.ldsComplete i cw) s = .next s) ∧
    (∀ (mask : BitVec 3) (rest : List (BitVec 3)), n.lds = mask :: rest → blksBusy s h.c (chunkBlks h.c i.step k) = false → s.flt.injActive = false → (∀ b ∈ bs, blkNan b = false) → (∀ m, (stackOf s m).bad = []) →
      (bitOf h.c.spec.mode 5 = false → ∃ t m, Sys2Proof.Machine.exec (.ldsComplete i []) s = .next t ∧ t = { s with ctxs := t.ctxs, dbg := t.dbg } ∧ others t ∧ inst t = some m ∧
        m = { n with read := bs, lds := rest, w := m.w, m1 := m.m1, m2 := m.m2 } ∧
        m.w = (if mask.getLsbD 0 then some (bs.map fun b => ufOf (wMant b) b.xw.toInt 9) else n.w) ∧ m.m1 = (if mask.getLsbD 1 then some (bs.map fun b => ufOf (m1Mant b) b.x1.toInt 25) else n.m1) ∧
        m.m2 = (if mask.getLsbD 2 then some (bs.map fun b => ufOf (m2Mant b) b.x2.toInt 24) else n.m2)) ∧
      (∀ j : Nat, j < bs.length → h.c.spec.isRoot = true → h.c.steps = [h.t] → h.t.closed = false → h.t.failed = none → h.c.twin ≠ .active → h.c.deleting = false → h.c.capture.nan = false → h.c.capture.inf = false →
        ∃ t d, Sys2Proof.Machine.exec (.ldsComplete i [(j, .uncorrectable)]) s = .next t ∧ ctxOf t i.slot.toNat = some d ∧ d.st = .halt ∧ d.haltStatus = 4 ∧ d.capture.nan = true ∧ d.capture.opcode = 0x08 ∧
          d.capture.fmt = 0xE ∧ d.capture.elemOfs = BitVec.ofNat 16 (64 * j) ∧ d.capture.raw = 0xFFFFFFFF)) ∧
    (n.sts = 0 ∨ n.stsDone = true ∨ blksBusy s h.c (chunkBlks h.c i.step k) = true → Sys2Proof.Machine.exec (.stsComplete i) s = .next s) ∧
    (n.sts ≠ 0 → n.stsDone = false → blksBusy s h.c (chunkBlks h.c i.step k) = false → n.twinLeft = [] → (∀ m, (stackOf s m).bad = []) → ∃ t, Sys2Proof.Machine.exec (.stsComplete i) s = .next t ∧
      t = { s with ctxs := t.ctxs, dbg := t.dbg, pwr := t.pwr, mem := t.mem } ∧ others t ∧
      inst t = some { n with sts := 0, stsDone := true, twinLeft := [] } ∧ (∀ e ∈ keys.zip n.store, tget {} t.mem.shard e.1 = e.2) ∧ (∀ j, j ∉ keys → tget {} t.mem.shard j = tget {} s.mem.shard j) ∧
      t.mem.dram = s.mem.dram ∧ t.mem.sram = s.mem.sram ∧ t.mem.host = s.mem.host ∧ (h.c.die < 4 → bitOf t.pwr.shardDirty h.c.die = true))

/-- R221, R223, R229: accumulation; R235, R237: flags and traps; R240: residue checks; R226 to R228: scalars; R231: CAST; R253, R254: words. -/
def Obligations.ArithmeticWords : Prop :=
  ∀ (s : State) (i : InstId) (h : Here), hereOf s i = some h →
    let n := h.x.inst
    let bits (lo w : Nat) := fld h.w lo w
    let inst (t : State) : Option Inst := (findInst t i).map fun e => e.2.2.inst
    let past (m : Inst) : Option Inst := some { m with pc := h.addr + 1, waiting := false, atBar := false }
    let others (t : State) : Prop := ∀ j, j ≠ i.slot.toNat → ctxOf t j = ctxOf s j
    let ds (c : Contrib) := decodeChunk h.c c.fmt.toNat c.bytes
    let up : Inst := { n with started := true }
    let quiet : Prop := s.flt.injActive = false ∧ (redOf s h.c.die).retired = 0
    let owned (q : Nat) : Nat := (s.bpm.owners.filter fun e => e.2 == i && tget 0 s.bpm.holders e.1 == q + 1).length
    (∀ (op : Nat) (a : Nat) (w : Word) (ct : Contrib) (rest : List Contrib), op = 0x02 ∨ op = 0x03 → accWord h.c h.ws = some (a, w) → wOp w = op → a ≤ h.addr → h.addr ≤ waitAddr h.ws →
      n.todo = ct :: rest → quiet →
      let run (chk : Checks) : Instr := if op = 0x02 then .acc i chk else .accx i chk
      let pc := if n.pc ≤ a then a + 1 else n.pc
      (h.x.raw.isSome = true → ∀ chk, ∃ t, Sys2Proof.Machine.exec (run chk) s = .next t ∧ t = { s with ctxs := t.ctxs } ∧ others t ∧ inst t = some { up with todo := rest, pc := pc }) ∧
      (h.x.raw = none → firstTrap (ds ct) = none →
        (∃ t d m, Sys2Proof.Machine.exec (run []) s = .next t ∧ t = { s with red := t.red, ctxs := t.ctxs, dbg := t.dbg } ∧ others t ∧ inst t = some m ∧ m = { up with todo := rest, pc := pc, a := m.a } ∧
          (isWorsted h.c = false → (n.a = .empty → m.a = .muslin ((ds ct).map fun b => cifBlock ct.fmt.toNat b.vals)) ∧
            ∀ bs, n.a = .muslin bs → m.a = .muslin (List.zipWith (combBlock (accComb h.c.spec w)) bs ((ds ct).map fun b => cifBlock ct.fmt.toNat b.vals))) ∧
          (isWorsted h.c = true → let vs := (ds ct).flatMap fun b => b.vals.map fun e => toGrid e.1 e.2 (wBase h.c)
            (n.a = .empty → m.a = .worsted vs) ∧ ∀ bs, n.a = .worsted bs → m.a = .worsted (List.zipWith (combEl (wWidth h.c) (accComb h.c.spec w)) bs vs)) ∧
          ctxOf t i.slot.toNat = some d ∧ d = { h.c with steps := d.steps, ovf := d.ovf, flushed := d.flushed } ∧ d.ovf = (h.c.ovf || decide (0 < ((ds ct).map Decoded.sats).sum)) ∧
          d.flushed = (h.c.flushed || decide (0 < ((ds ct).map Decoded.flushes).sum)) ∧ (redOf t h.c.die).retired = 0 ∧ (redOf t h.c.die).strikes = (redOf s h.c.die).strikes) ∧
        (∀ (b : Nat) (l : Fin 128), ∃ t, Sys2Proof.Machine.exec (run [(b, [l])]) s = .next t ∧ bitOf (redOf t h.c.die).strikes l = true ∧ t.units.redLost = s.units.redLost ∧
          (bitOf (redOf t h.c.die).retired l = bitOf (redOf s h.c.die).strikes l) ∧ ∀ j : Fin 128, j ≠ l → bitOf (redOf t h.c.die).retired j = false) ∧
        (∀ (b : Nat) (l m o : Fin 128), l ≠ m → l ≠ o → m ≠ o → h.c.die < 4 → ∃ t, Sys2Proof.Machine.exec (run [(b, [l, m, o])]) s = .next t ∧ bitOf t.units.redLost h.c.die = true)) ∧
      (∀ el raw : Nat, h.x.raw = none → firstTrap (ds ct) = some (true, el, raw) → h.c.spec.isRoot = true → h.c.steps = [h.t] → h.t.closed = false → h.t.failed = none → h.c.twin ≠ .active → h.c.capture.nan = false →
        h.c.capture.inf = false → h.c.deleting = false → h.t.num = i.step → ∃ t d, Sys2Proof.Machine.exec (run []) s = .next t ∧ others t ∧ ctxOf t i.slot.toNat = some d ∧ d.st = .halt ∧ d.haltStatus = 4 ∧ d.lastClosed = some (i.step, 4) ∧
          d.capture.nan = true ∧ d.capture.fmt = ct.fmt ∧ d.capture.chunk = i.chunk ∧ d.capture.elemOfs = BitVec.ofNat 16 el ∧ d.capture.raw = BitVec.ofNat 32 raw ∧ t.mem = s.mem)) ∧
    (stepped s i h = false →
      (wOp h.w = 0x04 → quiet → ∀ q : Int × Int,
        (bits 0 4 ≠ 8 ∧ useScalar h.c (srcWord h (bits 0 4)) = .inr (q, false)) ∨ (bits 0 4 = 8 ∧ q = recipN (if h.c.spec.op = 3 ∨ h.c.spec.op = 4 then 1 else h.c.spec.nMembers)) →
        ∃ t m, Sys2Proof.Machine.exec (.scl i []) s = .next t ∧ t = { s with ctxs := t.ctxs } ∧ others t ∧ inst t = past m ∧ m = { up with a := m.a, scale := m.scale } ∧
          (n.a = .empty → m = up) ∧ (∀ bs, n.a = .muslin bs → m.scale = n.scale ∧ m.a = .muslin (bs.map fun b => { m := (scalePlane b.m b.x q.1 q.2).1, x := (scalePlane b.m b.x q.1 q.2).2 })) ∧
          (∀ vs, n.a = .worsted vs → m.a = n.a ∧ m.scale = some (match n.scale with | none => q | some r => scalarMul r q))) ∧
      (wOp h.w = 0x05 →
        ((bits 8 2 = 1 ∧ ∃ m ∈ n.lds, bitOf m 0 = true) ∨ (owned (4 * h.c.die + 1) = 0 ∧ ((∃ w ∈ s.bpm.waiters, w.inst = some i ∧ w.q = 4 * h.c.die + 1) ∨ mgmtUp s = false)) →
          ∃ t, Sys2Proof.Machine.exec (.cast i []) s = .next t ∧ t = { s with ctxs := t.ctxs } ∧ others t ∧ inst t = some up) ∧
        (bits 8 2 = 0 → 1 ≤ owned (4 * h.c.die + 1) →
        (∀ f : BitVec 4 × List Byte, h.x.raw = some f → ∃ t, Sys2Proof.Machine.exec (.cast i []) s = .next t ∧ t = { s with ctxs := t.ctxs } ∧ others t ∧ inst t = past { up with o := some f }) ∧
        (let fmt := if bits 0 4 = 15 then leaveFmt h.c else bits 0 4
         let comb := match accWord h.c h.ws with | some w => accComb h.c.spec w.2 | none => 0
         let out := (blocks32 (scaledVals h h.x.elems)).map fun b => castBlock fmt (bitOf h.c.spec.mode 2) true (List.replicate 32 0) b
         h.x.raw = none → quiet → bits 6 2 = 1 ∨ (bits 6 2 = 0 ∧ bitOf h.c.spec.mode 1 = true) → comb < 4 ∨ 6 < comb → (∀ b ∈ out, b.first = none) →
          ∃ t d, Sys2Proof.Machine.exec (.cast i []) s = .next t ∧ t = { s with red := t.red, ctxs := t.ctxs, dbg := t.dbg } ∧ others t ∧ inst t = past { up with o := some (BitVec.ofNat 4 fmt, out.flatMap CastBlock.bytes) } ∧
            ctxOf t i.slot.toNat = some d ∧ d = { h.c with steps := d.steps, ovf := d.ovf, flushed := d.flushed } ∧ d.flushed = (h.c.flushed || decide (0 < (out.map CastBlock.flushes).sum))))))

/-- R245, R246: the store; R260, R262: stepping; R281, R283, R284, R289: twins; R298, R299: pacing. -/
def Obligations.StoreTwinsAndPaces : Prop :=
  ∀ s : State, mgmtUp s = true → alive s = true →
    (∀ (a : BitVec 14) (w : Word), ((List.range 4).any (redLive s)) = true →
      (progLocked s a.toNat = false → ∃ t, Sys2Proof.Machine.exec (.programStoreWrite a w) s = .next t ∧ t = { s with red := t.red, cmd := { s.cmd with progCopy := t.cmd.progCopy }, pwr := { s.pwr with progStale := t.pwr.progStale } } ∧
        (∀ x : RedDie, redLive s x = true → tget 0 (redOf t x).prog a.toNat = w ∧ (∀ j, j ≠ a.toNat → tget 0 (redOf t x).prog j = tget 0 (redOf s x).prog j)) ∧ tget 0 t.cmd.progCopy a.toNat = w ∧
        (∀ x : RedDie, redEnabled s x = true → bitOf s.units.redLost x = false → redLive s x = false → bitOf t.pwr.progStale x = true ∧ redOf t x = redOf s x)) ∧
      (progLocked s a.toNat = true → ∃ t, Sys2Proof.Machine.exec (.programStoreWrite a w) s = .next t ∧ t = { s with red := t.red } ∧
        ∀ x : RedDie, redLive s x = true → (redOf t x).prog = (redOf s x).prog ∧ (redOf t x).psLocked = true ∧ (redOf t x).cnt = bump (redOf s x).cnt 0x0D4 1)) ∧
    (∀ x : RedDie, redLive s x = true →
      (∀ v : Word, ∃ t, Sys2Proof.Machine.exec (.pstepEnWrite x v) s = .next t ∧ t = { s with red := t.red, ctxs := t.ctxs } ∧ ((redOf s x).halted = none → t.ctxs = s.ctxs) ∧
        (∀ (i : InstId) (c : Ctx), (redOf s x).halted = some i → ctxOf s i.slot.toNat = some c → ctxOf t i.slot.toNat = some (if bitOf v 31 = true ∧ (redOf s x).pstepSlot.toNat = fld v 0 18 then c else
          { c with steps := c.steps.map fun y => { y with timerAt := y.timerAt + (s.clock - max (redOf s x).haltedAt y.timerAt) } })) ∧ (redOf t x).pstepEn = bitOf v 31 ∧ (redOf t x).pstepSlot.toNat = fld v 0 18 ∧
        (redOf t x).halted = (if bitOf v 31 = true ∧ (redOf s x).pstepSlot.toNat = fld v 0 18 then (redOf s x).halted else none) ∧ ∀ y, y ≠ x.val → redOf t y = redOf s y) ∧
      ((redOf s x).halted = none → Sys2Proof.Machine.exec (.pstepGo x) s = .next s) ∧
      (∀ (i : InstId) (h : Here), (redOf s x).halted = some i → hereOf s i = some h → wOp h.w = 0x00 → ∃ t, Sys2Proof.Machine.exec (.pstepGo x) s = .next t ∧ t = { s with ctxs := t.ctxs } ∧
        (findInst t i).map (fun e => e.2.2.inst) = some { h.x.inst with started := true, pc := h.addr + 1, waiting := false, atBar := false })) ∧
    (∀ (i : InstId) (h : Here), hereOf s i = some h → wOp h.w = 0x00 → stepped s i h = true → firstStepped h i = true → (redOf s h.c.die).halted = none →
      Sys2Proof.Machine.exec (.nopInstruction i) s = .next (modRed h.c.die (fun r => { r with halted := some i, haltedAt := s.clock }) s)) ∧
    (∀ (x : RedDie) (pid : Nat) (p : Pkt) (k : Nat) (c : Ctx), inboxFront s x = some (pid, p) → hPtype p.hdr = ptChunk → hFmt p.hdr = 0xE → pktSlot s p = some k → ctxOf s k = some c → c.isTwin = true → c.up = some (pktPos s p) →
      let bs := twinBlks p.body
      let bad := p.body.length % 528 ≠ 0 ∨ ∃ b ∈ bs, b.blk.toNat ∉ chunkBlks c (BitVec.ofNat 48 (hStep p.hdr)) (hChunk p.hdr)
      let gone := c.st = .moving ∨ c.st = .lost ∨ c.die ≠ cpTwinDie c.spec.coppice ∨ shardDown s c = true
      (gone → ∃ t, Sys2Proof.Machine.exec (.twinWrite x) s = .next t ∧ t.mem = s.mem ∧ ctxOf t k = some c ∧ (redOf t c.die).cnt = bump (redOf s c.die).cnt 0x0FC 1) ∧
      (¬ gone → bad → ∃ t, Sys2Proof.Machine.exec (.twinWrite x) s = .next t ∧ t.mem = s.mem ∧ ctxOf t k = some { c with twin := .stale } ∧ (redOf t c.die).cnt = bump (redOf s c.die).cnt 0x0FC 1) ∧
      (¬ gone → ¬ bad → (bs.map ShardBlk.blk).Nodup → ∃ t, Sys2Proof.Machine.exec (.twinWrite x) s = .next t ∧ t.ctxs = s.ctxs ∧ (∀ b ∈ bs, tget {} t.mem.shard (c.die * 2 ^ 28 + cpBase c.spec.coppice + b.blk.toNat) = b) ∧
        (∀ j, (∀ b ∈ bs, j ≠ c.die * 2 ^ 28 + cpBase c.spec.coppice + b.blk.toNat) → tget {} t.mem.shard j = tget {} s.mem.shard j) ∧ (redOf t c.die).cnt = bump (redOf s c.die).cnt 0x0F8 1)) ∧
    (∀ (g : GroupId) (k : Nat) (c : Ctx), slotOf s g = some k → ctxOf s k = some c →
      (c.spec.isRoot = true → c.twin = .active → c.steps = [] → ∃ t, Sys2Proof.Machine.exec (.shardLostReport g) s = .next t ∧ ctxOf t k = some { c with twin := .stale } ∧ (∀ j, j ≠ k → ctxOf t j = ctxOf s j) ∧ t.mem = s.mem) ∧
      (c.spec.isRoot = false ∨ c.twin ≠ .active → Sys2Proof.Machine.exec (.shardLostReport g) s = .next s) ∧
      (∀ height : Nat, isMgr s = false → c.spec.op = 6 → cpTwin c.spec.coppice = true → c.steps = [] → c.ready = none → c.held = [] → c.st ≠ .moving → c.st ≠ .ready → c.st ≠ .run →
        (c.spec.isRoot = false → c.isTwin = true → c.twin ≠ .stale → ∃ t d, Sys2Proof.Machine.exec (.groupReroot g height) s = .next t ∧ t = { s with ctxs := t.ctxs } ∧ ctxOf t k = some d ∧ d.spec.isRoot = true ∧ d.up = none ∧
          d.isTwin = false ∧ cpTwin d.spec.coppice = false ∧ d.spec.group = c.spec.group ∧ d.lastAcc = none ∧ d.spec.children.length = c.spec.children.length + 1 ∧ d.st = c.st ∧ d.die = c.die) ∧
        (c.spec.isRoot = true → c.twin = .active → ∃ t d, Sys2Proof.Machine.exec (.groupReroot g height) s = .next t ∧ t = { s with ctxs := t.ctxs } ∧ ctxOf t k = some d ∧ d.spec.isRoot = false ∧ d.up = twinPos c ∧
          d.spec.upCoord = BitVec.ofNat 16 (cpTwinCoord c.spec.coppice) ∧ d.twin = .promoted ∧ cpTwin d.spec.coppice = false ∧ (∀ y ∈ d.spec.children, some y.pos ≠ twinPos c) ∧ d.st = c.st ∧ d.die = c.die))) ∧
    (∀ (k : Slot) (c : Ctx), ctxOf s k.toNat = some c →
      (∀ r : Ready, isPaced c = true → c.ready = some r → c.spec.isRoot = true →
        (s.tim.running = false ∨ 2 ≤ (openSteps c).length ∨ shardDown s c = true → Sys2Proof.Machine.exec (.paceInstant k) s = .next s) ∧
        (s.tim.running = true → shardDown s c = false → c.st = .ready → c.steps = [] → ∀ first at_ : Nat, first % max 1 c.spec.paceNs = 0 → at_ % max 1 c.spec.paceNs = 0 →
          r.arrived.toNat + 1500 * 65536 ≤ 65536 * first → 65536 * first < r.arrived.toNat + 1500 * 65536 + 65536 * max 1 c.spec.paceNs →
          first ≤ at_ → r.after ≤ at_ → (fabT s).toNat ≤ 65536 * at_ → at_ = first ∨ at_ < r.after + max 1 c.spec.paceNs ∨ 65536 * at_ < (fabT s).toNat + 65536 * max 1 c.spec.paceNs → at_ < 2 ^ 64 →
          ∃ t y, Sys2Proof.Machine.exec (.paceInstant k) s = .next t ∧ ctxOf t k.toNat = some { c with ready := none, st := .run, steps := [y] } ∧ y.num = r.num ∧ y.n = r.n ∧
            y.openAt.toNat = 65536 * at_ ∧ (redOf t c.die).cnt = (if first < r.after then bump (redOf s c.die).cnt 0x120 1 else (redOf s c.die).cnt) ∧
            (s.tim.slew = 0 → s.tim.baseAt ≤ s.clock → t.clock = s.clock + (at_ - (fabNs s).toNat)))) ∧
      (∀ (y : Step) (due : BitVec 64), c.steps = [y] → y.endHeld = some (0, due) → y.closed = true → y.chunks = [] → c.st ≠ .moving → c.deleting = false →
        (s.tim.running = false → (fabNs s).toNat < due.toNat → Sys2Proof.Machine.exec (.stepEndRelease k y.num) s = .next s) ∧
        (due.toNat ≤ (fabNs s).toNat ∨ (s.tim.running = true ∧ s.tim.slew = 0 ∧ s.tim.baseAt ≤ s.clock) → ∃ t, Sys2Proof.Machine.exec (.stepEndRelease k y.num) s = .next t ∧
          ctxOf t k.toNat = some { c with steps := [] } ∧ (∀ j, j ≠ k.toNat → ctxOf t j = ctxOf s j) ∧ t.mem = s.mem ∧ t.red = s.red ∧ (s.tim.running = true → t.clock = s.clock + (due.toNat - (fabNs s).toNat)))))

/-- R376, at the ports of R373; a quadrant that is off is R452's concern. -/
def Obligations.SramWindow : Prop :=
  ∀ (s : State) (port : MbId), mgmtUp s = true → mbLive s port = true → port = s.units.active → ∀ w : Nat, w < 15 * 2 ^ 20 → w % 4 = 0 →
    let off : Off := BitVec.ofNat 25 (0x1000000 + w)
    let b := s.cmd.sramBase.toNat * 2 ^ 20 + w
    let die := s.cmd.sramDie.toNat
    let byte (m : MemStore) (a : Nat) : Nat := (tget 0 m.sram (die * 2 ^ 29 + a)).toNat
    (b < 384 * 2 ^ 20 → redEnabled s die = true → domOn s (domQuad die (b / (96 * 2 ^ 20))) = true →
      Sys2Proof.Machine.exec (.pcieMemoryRequest port .bar0 false off [⟨0xF, 0⟩]) s =
        .next (emit (.pcieData port [BitVec.ofNat 32 (byte s.mem b + 256 * byte s.mem (b + 1) + 65536 * byte s.mem (b + 2) + 16777216 * byte s.mem (b + 3))]) s) ∧
      ∀ v : Word, ∃ t, Sys2Proof.Machine.exec (.pcieMemoryRequest port .bar0 true off [⟨0xF, v⟩]) s = .next t ∧ t = { s with mem := { s.mem with sram := t.mem.sram } } ∧
        (∀ j : Fin 4, byte t.mem (b + j) = fld v (8 * j) 8) ∧ ∀ a, a < die * 2 ^ 29 + b ∨ die * 2 ^ 29 + b + 4 ≤ a → tget 0 t.mem.sram a = tget 0 s.mem.sram a) ∧
    (384 * 2 ^ 20 ≤ b → Sys2Proof.Machine.exec (.pcieMemoryRequest port .bar0 false off [⟨0xF, 0⟩]) s = .next (emit (.pcieData port [0]) s) ∧
      ∀ v : Word, Sys2Proof.Machine.exec (.pcieMemoryRequest port .bar0 true off [⟨0xF, v⟩]) s = .next s)
end

