-- ==== Sys2Proof/Laws/Bytes.lean ====
section
/-! SUPPORT. Bytes of a number read back, and the CRC that ends a slot or a flit. -/

namespace Sys2Proof.Machine

theorem bytesLE_length : ∀ n v, (bytesLE n v).length = n
  | 0, _ => rfl
  | n + 1, v => by simp [bytesLE, bytesLE_length n]

theorem bytesBE_length (n v : Nat) : (bytesBE n v).length = n := by simp [bytesBE, bytesLE_length]

theorem natLE_bytesLE : ∀ n v, natLE (bytesLE n v) = v % 256 ^ n
  | 0, v => by simp [bytesLE, natLE, Nat.mod_one]
  | n + 1, v => by
    rw [bytesLE, natLE, natLE_bytesLE n, BitVec.toNat_ofNat, show (256 : Nat) ^ (n + 1) = 256 * 256 ^ n from Nat.pow_succ']
    exact (Nat.mod_mul (x := v) (a := 256) (b := 256 ^ n)).symm

theorem natBE_bytesBE (n v : Nat) : natBE (bytesBE n v) = v % 256 ^ n := by simp [natBE, bytesBE, natLE_bytesLE]

theorem sub_append_right (a b : List Byte) : sub (a ++ b) a.length b.length = b := by simp [sub]

/-- A slot or flit whose last 8 bytes are the CRC-64 of the 248 before them passes the check of R41. -/
theorem crc64_checks (body : List Byte) (h : body.length = 248) :
    be (body ++ bytesBE 8 (crc64 body).toNat) 248 8 = (crc64 ((body ++ bytesBE 8 (crc64 body).toNat).take 248)).toNat := by
  have e : sub (body ++ bytesBE 8 (crc64 body).toNat) 248 8 = bytesBE 8 (crc64 body).toNat := by
    have := sub_append_right body (bytesBE 8 (crc64 body).toNat)
    rwa [h, bytesBE_length] at this
  rw [be, e, natBE_bytesBE, List.take_append_of_le_length (by omega), List.take_of_length_le (by omega)]
  exact Nat.mod_eq_of_lt (by have := (crc64 body).isLt; simpa using this)

end Sys2Proof.Machine
end

