-- ==== Sys2Proof/Laws/Tables.lean ====
section
/-! SUPPORT. Sparse tables: what reading after writing gives, and that every write keeps the canonical form. -/

namespace Sys2Proof.Machine

variable {α : Type}

theorem tget_tput_eq (d : α) (t : Tbl α) (k : Nat) (v : α) : tget d (tput t k v) k = v := by
  induction t with
  | nil => simp [tput, tget]
  | cons e r ih =>
    simp only [tput]
    split
    · simp [tget]
    · split
      · simp [tget]
      · rename_i h; simp [tget, h, ih]

theorem tget_tput_ne (d : α) (t : Tbl α) {j k : Nat} (v : α) (h : j ≠ k) : tget d (tput t k v) j = tget d t j := by
  induction t with
  | nil => simp [tput, tget, h.symm]
  | cons e r ih =>
    simp only [tput]
    split
    · simp [tget, h.symm]
    · split
      · rename_i hk; simp [tget, hk, h.symm]
      · simp only [tget, ih]

theorem tget_tdel_eq (d : α) (t : Tbl α) (k : Nat) : tget d (tdel t k) k = d := by
  induction t with
  | nil => rfl
  | cons e r ih =>
    simp only [tdel]
    split
    · exact ih
    · rename_i h; simp [tget, h, ih]

theorem tget_tdel_ne (d : α) (t : Tbl α) {j k : Nat} (h : j ≠ k) : tget d (tdel t k) j = tget d t j := by
  induction t with
  | nil => rfl
  | cons e r ih =>
    simp only [tdel]
    split
    · rename_i hk; simp [tget, hk, h.symm, ih]
    · simp only [tget, ih]

variable [DecidableEq α]

/-- A write is read back. -/
@[simp] theorem tget_tset_eq (d : α) (t : Tbl α) (k : Nat) (v : α) : tget d (tset d t k v) k = v := by
  unfold tset
  split
  · rename_i h; rw [h, tget_tdel_eq]
  · exact tget_tput_eq d t k v

/-- A write leaves every other key alone. -/
theorem tget_tset_ne (d : α) (t : Tbl α) {j k : Nat} (v : α) (h : j ≠ k) : tget d (tset d t k v) j = tget d t j := by
  unfold tset
  split
  · exact tget_tdel_ne d t h
  · exact tget_tput_ne d t v h

/-- What a table reads after a write. -/
theorem tget_tset (d : α) (t : Tbl α) (j k : Nat) (v : α) : tget d (tset d t k v) j = if j = k then v else tget d t j := by
  split
  · rename_i h; rw [h, tget_tset_eq]
  · rename_i h; exact tget_tset_ne d t v h

/-- A lower bound below the least key serves as well. -/
theorem tblOk_mono (d : α) (t : Tbl α) {lo lo' : Nat} (h : tblOk d lo t = true) (hl : lo' ≤ lo) : tblOk d lo' t = true := by
  cases t with
  | nil => rfl
  | cons e r =>
    simp only [tblOk, Bool.and_eq_true, decide_eq_true_eq] at h ⊢
    exact ⟨⟨by omega, h.1.2⟩, h.2⟩

theorem tblOk_tput (d : α) (t : Tbl α) {lo : Nat} (h : tblOk d lo t = true) (k : Nat) (v : α) (hk : lo ≤ k) (hv : v ≠ d) :
    tblOk d lo (tput t k v) = true := by
  induction t generalizing lo with
  | nil => simp [tput, tblOk, hk, hv]
  | cons e r ih =>
    simp only [tblOk, Bool.and_eq_true, decide_eq_true_eq] at h
    simp only [tput]
    split
    · simp only [tblOk, Bool.and_eq_true, decide_eq_true_eq]
      exact ⟨⟨hk, hv⟩, ⟨by omega, h.1.2⟩, h.2⟩
    · split
      · rename_i hk'; subst hk'
        simp only [tblOk, Bool.and_eq_true, decide_eq_true_eq]
        exact ⟨⟨h.1.1, hv⟩, h.2⟩
      · simp only [tblOk, Bool.and_eq_true, decide_eq_true_eq]
        exact ⟨h.1, ih h.2 (by omega)⟩

theorem tblOk_tdel (d : α) (t : Tbl α) {lo : Nat} (h : tblOk d lo t = true) (k : Nat) : tblOk d lo (tdel t k) = true := by
  induction t generalizing lo with
  | nil => rfl
  | cons e r ih =>
    simp only [tblOk, Bool.and_eq_true, decide_eq_true_eq] at h
    simp only [tdel]
    split
    · exact ih (tblOk_mono d r h.2 (by omega))
    · simp only [tblOk, Bool.and_eq_true, decide_eq_true_eq]
      exact ⟨h.1, ih h.2⟩

/-- A write keeps the canonical form. -/
theorem tblOk_tset (d : α) (t : Tbl α) {lo : Nat} (h : tblOk d lo t = true) (k : Nat) (v : α) (hk : lo ≤ k) : tblOk d lo (tset d t k v) = true := by
  unfold tset
  split
  · exact tblOk_tdel d t h k
  · rename_i hv; exact tblOk_tput d t h k v hk hv

/-- Dropping entries keeps the canonical form. -/
theorem tblOk_filter (d : α) (t : Tbl α) {lo : Nat} (h : tblOk d lo t = true) (p : Nat × α → Bool) : tblOk d lo (t.filter p) = true := by
  induction t generalizing lo with
  | nil => rfl
  | cons e r ih =>
    simp only [tblOk, Bool.and_eq_true, decide_eq_true_eq] at h
    simp only [List.filter_cons]
    split
    · simp only [tblOk, Bool.and_eq_true, decide_eq_true_eq]
      exact ⟨h.1, ih h.2⟩
    · exact tblOk_mono d _ (ih h.2) (by omega)

/-- A run of writes keeps the canonical form. -/
theorem tblOk_foldl {β : Type} (d : α) (f : Tbl α → β → Tbl α) (hf : ∀ t b, tblOk d 0 t = true → tblOk d 0 (f t b) = true) (l : List β) (t : Tbl α)
    (h : tblOk d 0 t = true) : tblOk d 0 (l.foldl f t) = true := by
  induction l generalizing t with
  | nil => exact h
  | cons b r ih => exact ih _ (hf t b h)

/-- A change of one key keeps the canonical form. -/
theorem tblOk_tmod (d : α) (t : Tbl α) (h : tblOk d 0 t = true) (k : Nat) (f : α → α) : tblOk d 0 (tmod d t k f) = true :=
  tblOk_tset d t h k _ (Nat.zero_le k)

/-- A change of one key reads back changed. -/
@[simp] theorem tget_tmod_eq (d : α) (t : Tbl α) (k : Nat) (f : α → α) : tget d (tmod d t k f) k = f (tget d t k) :=
  tget_tset_eq d t k _

/-- A change of one key leaves every other alone. -/
theorem tget_tmod_ne (d : α) (t : Tbl α) {j k : Nat} (f : α → α) (h : j ≠ k) : tget d (tmod d t k f) j = tget d t j :=
  tget_tset_ne d t _ h

/-- Writing bytes keeps the canonical form. -/
theorem tblOk_wrBytes (t : Tbl Byte) (h : tblOk 0 0 t = true) (a : Nat) (bs : List Byte) : tblOk 0 0 (wrBytes t a bs) = true := by
  induction bs generalizing t a with
  | nil => exact h
  | cons b r ih => exact ih _ (tblOk_tset 0 t h a b (Nat.zero_le a)) _

/-- Bytes outside a written range read as before. -/
theorem tget_wrBytes_ne (t : Tbl Byte) (a j : Nat) (bs : List Byte) (h : j < a ∨ a + bs.length ≤ j) : tget 0 (wrBytes t a bs) j = tget 0 t j := by
  induction bs generalizing t a with
  | nil => rfl
  | cons b r ih =>
    simp only [List.length_cons] at h
    simp only [wrBytes]
    rw [ih _ _ (by omega), tget_tset_ne 0 t b (by omega)]

/-- A byte of a written range reads as written. -/
theorem tget_wrBytes_eq (t : Tbl Byte) (a i : Nat) (bs : List Byte) (hi : i < bs.length) :
    tget 0 (wrBytes t a bs) (a + i) = bs.getD i 0 := by
  induction bs generalizing t a i with
  | nil => simp at hi
  | cons b r ih =>
    simp only [wrBytes]
    cases i with
    | zero =>
      simp only [Nat.add_zero]
      rw [tget_wrBytes_ne _ _ _ _ (by omega), tget_tset_eq]
      rfl
    | succ j =>
      have := ih (tset 0 t a b) (a + 1) j (by simpa using hi)
      rw [show a + (j + 1) = a + 1 + j by omega, this]
      rfl

end Sys2Proof.Machine
end

