-- ==== Sys2Proof/Laws/Keeps.lean ====
section
/-! SUPPORT. What every operation of the block keeps: the queue and the fuses stay, the clock never goes back, nothing sent is taken back, free values
are only drawn on, the memories stay canonical, and (with d) a block that is down stays down. The relation, its rules for the shapes that
definitions take, and the operations that change a component. -/

namespace Sys2Proof.Machine

/-- L, a set of the parts of State written as the bits of a number, has every part of k. The parts, from bit 0: out, free, rst, gctl, img, units, pwr, flt, evr, tim, cmd, dma, bpm, dbg, route, ports, strands, links, opt, swc, queues, scheds, pkts, nextPid, staging, red, ctxs, mgr, stackTbl, mem, clock. -/
def May (k L : Nat) : Prop := k &&& L = k

theorem May.bit {k L i : Nat} (m : May k L) (h : k.testBit i = true) : L.testBit i = true := by
  unfold May at m
  rw [← m, Nat.testBit_and] at h
  exact (Bool.and_eq_true_iff.mp h).2

theorem May.sub {a b L : Nat} (m : May a L) (e : b &&& a = b) : May b L := by
  unfold May at *
  rw [← e, Nat.and_assoc, m]

/-- t differs from s in no part that L leaves out. -/
structure Only (L : Nat) (s t : State) : Prop where
  out : L.testBit 0 = false → t.out = s.out
  free : L.testBit 1 = false → t.free = s.free
  rst : L.testBit 2 = false → t.rst = s.rst
  gctl : L.testBit 3 = false → t.gctl = s.gctl
  img : L.testBit 4 = false → t.img = s.img
  units : L.testBit 5 = false → t.units = s.units
  pwr : L.testBit 6 = false → t.pwr = s.pwr
  flt : L.testBit 7 = false → t.flt = s.flt
  evr : L.testBit 8 = false → t.evr = s.evr
  tim : L.testBit 9 = false → t.tim = s.tim
  cmd : L.testBit 10 = false → t.cmd = s.cmd
  dma : L.testBit 11 = false → t.dma = s.dma
  bpm : L.testBit 12 = false → t.bpm = s.bpm
  dbg : L.testBit 13 = false → t.dbg = s.dbg
  route : L.testBit 14 = false → t.route = s.route
  ports : L.testBit 15 = false → t.ports = s.ports
  strands : L.testBit 16 = false → t.strands = s.strands
  links : L.testBit 17 = false → t.links = s.links
  opt : L.testBit 18 = false → t.opt = s.opt
  swc : L.testBit 19 = false → t.swc = s.swc
  queues : L.testBit 20 = false → t.queues = s.queues
  scheds : L.testBit 21 = false → t.scheds = s.scheds
  pkts : L.testBit 22 = false → t.pkts = s.pkts
  nextPid : L.testBit 23 = false → t.nextPid = s.nextPid
  staging : L.testBit 24 = false → t.staging = s.staging
  red : L.testBit 25 = false → t.red = s.red
  ctxs : L.testBit 26 = false → t.ctxs = s.ctxs
  mgr : L.testBit 27 = false → t.mgr = s.mgr
  stackTbl : L.testBit 28 = false → t.stackTbl = s.stackTbl
  mem : L.testBit 29 = false → t.mem = s.mem
  clock : L.testBit 30 = false → t.clock = s.clock

theorem Only.refl (L : Nat) (s : State) : Only L s s :=
  ⟨fun _ => rfl, fun _ => rfl, fun _ => rfl, fun _ => rfl, fun _ => rfl, fun _ => rfl, fun _ => rfl, fun _ => rfl, fun _ => rfl, fun _ => rfl, fun _ => rfl, fun _ => rfl, fun _ => rfl, fun _ => rfl, fun _ => rfl, fun _ => rfl, fun _ => rfl, fun _ => rfl, fun _ => rfl, fun _ => rfl, fun _ => rfl, fun _ => rfl, fun _ => rfl, fun _ => rfl, fun _ => rfl, fun _ => rfl, fun _ => rfl, fun _ => rfl, fun _ => rfl, fun _ => rfl, fun _ => rfl⟩

theorem Only.trans {L : Nat} {r s t : State} (a : Only L r s) (b : Only L s t) : Only L r t :=
  ⟨fun h => (b.out h).trans (a.out h), fun h => (b.free h).trans (a.free h), fun h => (b.rst h).trans (a.rst h), fun h => (b.gctl h).trans (a.gctl h), fun h => (b.img h).trans (a.img h), fun h => (b.units h).trans (a.units h), fun h => (b.pwr h).trans (a.pwr h), fun h => (b.flt h).trans (a.flt h), fun h => (b.evr h).trans (a.evr h), fun h => (b.tim h).trans (a.tim h), fun h => (b.cmd h).trans (a.cmd h), fun h => (b.dma h).trans (a.dma h), fun h => (b.bpm h).trans (a.bpm h), fun h => (b.dbg h).trans (a.dbg h), fun h => (b.route h).trans (a.route h), fun h => (b.ports h).trans (a.ports h), fun h => (b.strands h).trans (a.strands h), fun h => (b.links h).trans (a.links h), fun h => (b.opt h).trans (a.opt h), fun h => (b.swc h).trans (a.swc h), fun h => (b.queues h).trans (a.queues h), fun h => (b.scheds h).trans (a.scheds h), fun h => (b.pkts h).trans (a.pkts h), fun h => (b.nextPid h).trans (a.nextPid h), fun h => (b.staging h).trans (a.staging h), fun h => (b.red h).trans (a.red h), fun h => (b.ctxs h).trans (a.ctxs h), fun h => (b.mgr h).trans (a.mgr h), fun h => (b.stackTbl h).trans (a.stackTbl h), fun h => (b.mem h).trans (a.mem h), fun h => (b.clock h).trans (a.clock h)⟩

/-- Of a set of all parts but the clock nothing else is said. -/
theorem Only.all {L : Nat} (m : May 0x3fffffff L) (s t : State) (e : t.clock = s.clock) : Only L s t := by
  constructor
  case clock => exact fun _ => e
  all_goals (intro h; rw [m.bit (by decide)] at h; cases h)

/-- t is a state that an operation may leave, begun in s, whose changes stay within the parts L; d says that the operation is not
RESET_RELEASE. -/
structure Keeps (d : Bool) (L : Nat) (s t : State) : Prop where
  pending : t.pending = s.pending
  clock : s.clock ≤ t.clock
  fuses : t.fuses = s.fuses
  sent : s.out <:+ t.out
  free : s.free ≤ t.free
  wf : Memory.wf s.mem = true → Memory.wf t.mem = true
  down : d = true → down s = true → down t = true
  only : Only L s t

/-- An outcome whose next state, if it has one, keeps. -/
def KeepsO (d : Bool) (L : Nat) (s : State) (o : Outcome) : Prop := match o with | .next t => Keeps d L s t | _ => True

section
variable {d : Bool} {L : Nat} {s0 s t : State}

theorem Keeps.refl (d : Bool) (L : Nat) (s : State) : Keeps d L s s :=
  ⟨rfl, Nat.le_refl _, rfl, List.suffix_refl _, Nat.le_refl _, id, fun _ => id, Only.refl L s⟩

theorem Keeps.trans (a : Keeps d L s0 s) (b : Keeps d L s t) : Keeps d L s0 t :=
  ⟨b.pending.trans a.pending, Nat.le_trans a.clock b.clock, b.fuses.trans a.fuses, a.sent.trans b.sent, Nat.le_trans a.free b.free,
   fun h => b.wf (a.wf h), fun e h => b.down e (a.down e h), a.only.trans b.only⟩

theorem Only.set_out (x) (m : May 0x1 L) : Only L s { s with out := x } := by
  have h := m.bit (i := 0) (by decide)
  constructor <;> intro e <;> first | rfl | (rw [h] at e; cases e)

theorem Only.set_free (x) (m : May 0x2 L) : Only L s { s with free := x } := by
  have h := m.bit (i := 1) (by decide)
  constructor <;> intro e <;> first | rfl | (rw [h] at e; cases e)

theorem Only.set_rst (x) (m : May 0x4 L) : Only L s { s with rst := x } := by
  have h := m.bit (i := 2) (by decide)
  constructor <;> intro e <;> first | rfl | (rw [h] at e; cases e)

theorem Only.set_gctl (x) (m : May 0x8 L) : Only L s { s with gctl := x } := by
  have h := m.bit (i := 3) (by decide)
  constructor <;> intro e <;> first | rfl | (rw [h] at e; cases e)

theorem Only.set_img (x) (m : May 0x10 L) : Only L s { s with img := x } := by
  have h := m.bit (i := 4) (by decide)
  constructor <;> intro e <;> first | rfl | (rw [h] at e; cases e)

theorem Only.set_units (x) (m : May 0x20 L) : Only L s { s with units := x } := by
  have h := m.bit (i := 5) (by decide)
  constructor <;> intro e <;> first | rfl | (rw [h] at e; cases e)

theorem Only.set_pwr (x) (m : May 0x40 L) : Only L s { s with pwr := x } := by
  have h := m.bit (i := 6) (by decide)
  constructor <;> intro e <;> first | rfl | (rw [h] at e; cases e)

theorem Only.set_flt (x) (m : May 0x80 L) : Only L s { s with flt := x } := by
  have h := m.bit (i := 7) (by decide)
  constructor <;> intro e <;> first | rfl | (rw [h] at e; cases e)

theorem Only.set_evr (x) (m : May 0x100 L) : Only L s { s with evr := x } := by
  have h := m.bit (i := 8) (by decide)
  constructor <;> intro e <;> first | rfl | (rw [h] at e; cases e)

theorem Only.set_tim (x) (m : May 0x200 L) : Only L s { s with tim := x } := by
  have h := m.bit (i := 9) (by decide)
  constructor <;> intro e <;> first | rfl | (rw [h] at e; cases e)

theorem Only.set_cmd (x) (m : May 0x400 L) : Only L s { s with cmd := x } := by
  have h := m.bit (i := 10) (by decide)
  constructor <;> intro e <;> first | rfl | (rw [h] at e; cases e)

theorem Only.set_dma (x) (m : May 0x800 L) : Only L s { s with dma := x } := by
  have h := m.bit (i := 11) (by decide)
  constructor <;> intro e <;> first | rfl | (rw [h] at e; cases e)

theorem Only.set_bpm (x) (m : May 0x1000 L) : Only L s { s with bpm := x } := by
  have h := m.bit (i := 12) (by decide)
  constructor <;> intro e <;> first | rfl | (rw [h] at e; cases e)

theorem Only.set_dbg (x) (m : May 0x2000 L) : Only L s { s with dbg := x } := by
  have h := m.bit (i := 13) (by decide)
  constructor <;> intro e <;> first | rfl | (rw [h] at e; cases e)

theorem Only.set_route (x) (m : May 0x4000 L) : Only L s { s with route := x } := by
  have h := m.bit (i := 14) (by decide)
  constructor <;> intro e <;> first | rfl | (rw [h] at e; cases e)

theorem Only.set_ports (x) (m : May 0x8000 L) : Only L s { s with ports := x } := by
  have h := m.bit (i := 15) (by decide)
  constructor <;> intro e <;> first | rfl | (rw [h] at e; cases e)

theorem Only.set_strands (x) (m : May 0x10000 L) : Only L s { s with strands := x } := by
  have h := m.bit (i := 16) (by decide)
  constructor <;> intro e <;> first | rfl | (rw [h] at e; cases e)

theorem Only.set_links (x) (m : May 0x20000 L) : Only L s { s with links := x } := by
  have h := m.bit (i := 17) (by decide)
  constructor <;> intro e <;> first | rfl | (rw [h] at e; cases e)

theorem Only.set_opt (x) (m : May 0x40000 L) : Only L s { s with opt := x } := by
  have h := m.bit (i := 18) (by decide)
  constructor <;> intro e <;> first | rfl | (rw [h] at e; cases e)

theorem Only.set_swc (x) (m : May 0x80000 L) : Only L s { s with swc := x } := by
  have h := m.bit (i := 19) (by decide)
  constructor <;> intro e <;> first | rfl | (rw [h] at e; cases e)

theorem Only.set_queues (x) (m : May 0x100000 L) : Only L s { s with queues := x } := by
  have h := m.bit (i := 20) (by decide)
  constructor <;> intro e <;> first | rfl | (rw [h] at e; cases e)

theorem Only.set_scheds (x) (m : May 0x200000 L) : Only L s { s with scheds := x } := by
  have h := m.bit (i := 21) (by decide)
  constructor <;> intro e <;> first | rfl | (rw [h] at e; cases e)

theorem Only.set_pkts (x) (m : May 0x400000 L) : Only L s { s with pkts := x } := by
  have h := m.bit (i := 22) (by decide)
  constructor <;> intro e <;> first | rfl | (rw [h] at e; cases e)

theorem Only.set_nextPid (x) (m : May 0x800000 L) : Only L s { s with nextPid := x } := by
  have h := m.bit (i := 23) (by decide)
  constructor <;> intro e <;> first | rfl | (rw [h] at e; cases e)

theorem Only.set_staging (x) (m : May 0x1000000 L) : Only L s { s with staging := x } := by
  have h := m.bit (i := 24) (by decide)
  constructor <;> intro e <;> first | rfl | (rw [h] at e; cases e)

theorem Only.set_red (x) (m : May 0x2000000 L) : Only L s { s with red := x } := by
  have h := m.bit (i := 25) (by decide)
  constructor <;> intro e <;> first | rfl | (rw [h] at e; cases e)

theorem Only.set_ctxs (x) (m : May 0x4000000 L) : Only L s { s with ctxs := x } := by
  have h := m.bit (i := 26) (by decide)
  constructor <;> intro e <;> first | rfl | (rw [h] at e; cases e)

theorem Only.set_mgr (x) (m : May 0x8000000 L) : Only L s { s with mgr := x } := by
  have h := m.bit (i := 27) (by decide)
  constructor <;> intro e <;> first | rfl | (rw [h] at e; cases e)

theorem Only.set_stackTbl (x) (m : May 0x10000000 L) : Only L s { s with stackTbl := x } := by
  have h := m.bit (i := 28) (by decide)
  constructor <;> intro e <;> first | rfl | (rw [h] at e; cases e)

theorem Only.set_mem (x) (m : May 0x20000000 L) : Only L s { s with mem := x } := by
  have h := m.bit (i := 29) (by decide)
  constructor <;> intro e <;> first | rfl | (rw [h] at e; cases e)

theorem Only.set_clock (x) (m : May 0x40000000 L) : Only L s { s with clock := x } := by
  have h := m.bit (i := 30) (by decide)
  constructor <;> intro e <;> first | rfl | (rw [h] at e; cases e)

theorem Keeps.set_gctl (x) (hs : Keeps d L s0 s) (m : May 0x8 L) : Keeps d L s0 { s with gctl := x } :=
  hs.trans ⟨rfl, Nat.le_refl _, rfl, List.suffix_refl _, Nat.le_refl _, id, fun _ => id, Only.set_gctl x m⟩

theorem Keeps.set_img (x) (hs : Keeps d L s0 s) (m : May 0x10 L) : Keeps d L s0 { s with img := x } :=
  hs.trans ⟨rfl, Nat.le_refl _, rfl, List.suffix_refl _, Nat.le_refl _, id, fun _ => id, Only.set_img x m⟩

theorem Keeps.set_units (x) (hs : Keeps d L s0 s) (m : May 0x20 L) : Keeps d L s0 { s with units := x } :=
  hs.trans ⟨rfl, Nat.le_refl _, rfl, List.suffix_refl _, Nat.le_refl _, id, fun _ => id, Only.set_units x m⟩

theorem Keeps.set_pwr (x) (hs : Keeps d L s0 s) (m : May 0x40 L) : Keeps d L s0 { s with pwr := x } :=
  hs.trans ⟨rfl, Nat.le_refl _, rfl, List.suffix_refl _, Nat.le_refl _, id, fun _ => id, Only.set_pwr x m⟩

theorem Keeps.set_evr (x) (hs : Keeps d L s0 s) (m : May 0x100 L) : Keeps d L s0 { s with evr := x } :=
  hs.trans ⟨rfl, Nat.le_refl _, rfl, List.suffix_refl _, Nat.le_refl _, id, fun _ => id, Only.set_evr x m⟩

theorem Keeps.set_tim (x) (hs : Keeps d L s0 s) (m : May 0x200 L) : Keeps d L s0 { s with tim := x } :=
  hs.trans ⟨rfl, Nat.le_refl _, rfl, List.suffix_refl _, Nat.le_refl _, id, fun _ => id, Only.set_tim x m⟩

theorem Keeps.set_cmd (x) (hs : Keeps d L s0 s) (m : May 0x400 L) : Keeps d L s0 { s with cmd := x } :=
  hs.trans ⟨rfl, Nat.le_refl _, rfl, List.suffix_refl _, Nat.le_refl _, id, fun _ => id, Only.set_cmd x m⟩

theorem Keeps.set_dma (x) (hs : Keeps d L s0 s) (m : May 0x800 L) : Keeps d L s0 { s with dma := x } :=
  hs.trans ⟨rfl, Nat.le_refl _, rfl, List.suffix_refl _, Nat.le_refl _, id, fun _ => id, Only.set_dma x m⟩

theorem Keeps.set_bpm (x) (hs : Keeps d L s0 s) (m : May 0x1000 L) : Keeps d L s0 { s with bpm := x } :=
  hs.trans ⟨rfl, Nat.le_refl _, rfl, List.suffix_refl _, Nat.le_refl _, id, fun _ => id, Only.set_bpm x m⟩

theorem Keeps.set_dbg (x) (hs : Keeps d L s0 s) (m : May 0x2000 L) : Keeps d L s0 { s with dbg := x } :=
  hs.trans ⟨rfl, Nat.le_refl _, rfl, List.suffix_refl _, Nat.le_refl _, id, fun _ => id, Only.set_dbg x m⟩

theorem Keeps.set_route (x) (hs : Keeps d L s0 s) (m : May 0x4000 L) : Keeps d L s0 { s with route := x } :=
  hs.trans ⟨rfl, Nat.le_refl _, rfl, List.suffix_refl _, Nat.le_refl _, id, fun _ => id, Only.set_route x m⟩

theorem Keeps.set_ports (x) (hs : Keeps d L s0 s) (m : May 0x8000 L) : Keeps d L s0 { s with ports := x } :=
  hs.trans ⟨rfl, Nat.le_refl _, rfl, List.suffix_refl _, Nat.le_refl _, id, fun _ => id, Only.set_ports x m⟩

theorem Keeps.set_strands (x) (hs : Keeps d L s0 s) (m : May 0x10000 L) : Keeps d L s0 { s with strands := x } :=
  hs.trans ⟨rfl, Nat.le_refl _, rfl, List.suffix_refl _, Nat.le_refl _, id, fun _ => id, Only.set_strands x m⟩

theorem Keeps.set_links (x) (hs : Keeps d L s0 s) (m : May 0x20000 L) : Keeps d L s0 { s with links := x } :=
  hs.trans ⟨rfl, Nat.le_refl _, rfl, List.suffix_refl _, Nat.le_refl _, id, fun _ => id, Only.set_links x m⟩

theorem Keeps.set_opt (x) (hs : Keeps d L s0 s) (m : May 0x40000 L) : Keeps d L s0 { s with opt := x } :=
  hs.trans ⟨rfl, Nat.le_refl _, rfl, List.suffix_refl _, Nat.le_refl _, id, fun _ => id, Only.set_opt x m⟩

theorem Keeps.set_swc (x) (hs : Keeps d L s0 s) (m : May 0x80000 L) : Keeps d L s0 { s with swc := x } :=
  hs.trans ⟨rfl, Nat.le_refl _, rfl, List.suffix_refl _, Nat.le_refl _, id, fun _ => id, Only.set_swc x m⟩

theorem Keeps.set_queues (x) (hs : Keeps d L s0 s) (m : May 0x100000 L) : Keeps d L s0 { s with queues := x } :=
  hs.trans ⟨rfl, Nat.le_refl _, rfl, List.suffix_refl _, Nat.le_refl _, id, fun _ => id, Only.set_queues x m⟩

theorem Keeps.set_scheds (x) (hs : Keeps d L s0 s) (m : May 0x200000 L) : Keeps d L s0 { s with scheds := x } :=
  hs.trans ⟨rfl, Nat.le_refl _, rfl, List.suffix_refl _, Nat.le_refl _, id, fun _ => id, Only.set_scheds x m⟩

theorem Keeps.set_pkts (x) (hs : Keeps d L s0 s) (m : May 0x400000 L) : Keeps d L s0 { s with pkts := x } :=
  hs.trans ⟨rfl, Nat.le_refl _, rfl, List.suffix_refl _, Nat.le_refl _, id, fun _ => id, Only.set_pkts x m⟩

theorem Keeps.set_nextPid (x) (hs : Keeps d L s0 s) (m : May 0x800000 L) : Keeps d L s0 { s with nextPid := x } :=
  hs.trans ⟨rfl, Nat.le_refl _, rfl, List.suffix_refl _, Nat.le_refl _, id, fun _ => id, Only.set_nextPid x m⟩

theorem Keeps.set_staging (x) (hs : Keeps d L s0 s) (m : May 0x1000000 L) : Keeps d L s0 { s with staging := x } :=
  hs.trans ⟨rfl, Nat.le_refl _, rfl, List.suffix_refl _, Nat.le_refl _, id, fun _ => id, Only.set_staging x m⟩

theorem Keeps.set_red (x) (hs : Keeps d L s0 s) (m : May 0x2000000 L) : Keeps d L s0 { s with red := x } :=
  hs.trans ⟨rfl, Nat.le_refl _, rfl, List.suffix_refl _, Nat.le_refl _, id, fun _ => id, Only.set_red x m⟩

theorem Keeps.set_ctxs (x) (hs : Keeps d L s0 s) (m : May 0x4000000 L) : Keeps d L s0 { s with ctxs := x } :=
  hs.trans ⟨rfl, Nat.le_refl _, rfl, List.suffix_refl _, Nat.le_refl _, id, fun _ => id, Only.set_ctxs x m⟩

theorem Keeps.set_mgr (x) (hs : Keeps d L s0 s) (m : May 0x8000000 L) : Keeps d L s0 { s with mgr := x } :=
  hs.trans ⟨rfl, Nat.le_refl _, rfl, List.suffix_refl _, Nat.le_refl _, id, fun _ => id, Only.set_mgr x m⟩

theorem Keeps.set_stackTbl (x) (hs : Keeps d L s0 s) (m : May 0x10000000 L) : Keeps d L s0 { s with stackTbl := x } :=
  hs.trans ⟨rfl, Nat.le_refl _, rfl, List.suffix_refl _, Nat.le_refl _, id, fun _ => id, Only.set_stackTbl x m⟩

theorem KeepsO.next (h : Keeps d L s t) : KeepsO d L s (.next t) := h

theorem KeepsO.of (o : Outcome) (h : KeepsO d L s o) (t : State) (e : o = .next t) : Keeps d L s t := by rw [e] at h; exact h

theorem Keeps.ite {c : Prop} [Decidable c] {a b : State} (ha : Keeps d L s0 a) (hb : Keeps d L s0 b) : Keeps d L s0 (if c then a else b) := by
  split <;> assumption

theorem iff_keeps {f : State → State} (b : Bool) (hf : ∀ y, Keeps d L s0 y → Keeps d L s0 (f y)) (hs : Keeps d L s0 s) : Keeps d L s0 (iff b f s) := by
  unfold iff; split
  · exact hf _ hs
  · exact hs

theorem foldl_keeps {α : Type} {l : List α} {f : State → α → State} (hf : ∀ y x, Keeps d L s0 y → Keeps d L s0 (f y x)) (hs : Keeps d L s0 s) :
    Keeps d L s0 (l.foldl f s) := by
  induction l generalizing s with
  | nil => exact hs
  | cons a r ih => exact ih (hf _ _ hs)

theorem each_keeps {α : Type} {l : List α} {f : α → State → State} (hf : ∀ x y, Keeps d L s0 y → Keeps d L s0 (f x y)) (hs : Keeps d L s0 s) :
    Keeps d L s0 (each l f s) := foldl_keeps (fun y x h => hf x y h) hs

theorem Keeps.snd_eq {α : Type} {p : α × State} {a : α} {x : State} (e : p = (a, x)) (h : Keeps d L s0 p.2) : Keeps d L s0 x := by
  rw [e] at h; exact h

theorem Keeps.trd_eq {α β : Type} {p : α × β × State} {a : α} {b : β} {x : State} (e : p = (a, b, x)) (h : Keeps d L s0 p.2.2) : Keeps d L s0 x := by
  rw [e] at h; exact h

theorem Keeps.some_eq {p : Option State} {x : State} (e : p = some x) (h : ∀ r, p = some r → Keeps d L s0 r) : Keeps d L s0 x := h _ e

theorem Keeps.some_snd_eq {α : Type} {p : Option (α × State)} {a : α} {x : State} (e : p = some (a, x)) (h : ∀ r, p = some r → Keeps d L s0 r.2) :
    Keeps d L s0 x := h _ e

theorem Keeps.some_pair_eq {α : Type} {p : Option (α × State)} {x : α × State} (e : p = some x) (h : ∀ r, p = some r → Keeps d L s0 r.2) :
    Keeps d L s0 x.2 := h _ e

theorem foldl_snd_keeps {α β : Type} {l : List α} {f : β × State → α → β × State} {p : β × State}
    (hf : ∀ b y x, Keeps d L s0 y → Keeps d L s0 (f (b, y) x).2) (hp : Keeps d L s0 p.2) : Keeps d L s0 (l.foldl f p).2 := by
  induction l generalizing p with
  | nil => exact hp
  | cons a r ih => exact ih (hf p.1 p.2 a hp)

theorem id_keeps (s : State) (hs : Keeps d L s0 s) : Keeps d L s0 (id s) := hs

theorem emit_keeps (o : Out) (hs : Keeps d L s0 s) (m : May 0x1 L) : Keeps d L s0 (emit o s) :=
  hs.trans ⟨rfl, Nat.le_refl _, rfl, List.suffix_cons _ _, Nat.le_refl _, id, fun _ => id, Only.set_out _ m⟩

theorem draw_keeps (hs : Keeps d L s0 s) (m : May 0x2 L) : Keeps d L s0 (draw s).2 :=
  hs.trans ⟨rfl, Nat.le_refl _, rfl, List.suffix_refl _, Nat.le_succ _, id, fun _ => id, Only.set_free _ m⟩

theorem clockTo_keeps (t : Nat) (hs : Keeps d L s0 s) (m : May 0x40000000 L) : Keeps d L s0 (clockTo t s) :=
  hs.trans ⟨rfl, Nat.le_max_left _ _, rfl, List.suffix_refl _, Nat.le_refl _, id, fun _ => id, Only.set_clock _ m⟩

theorem fabTo_keeps (t : Nat) (hs : Keeps d L s0 s) (m : May 0x40000000 L) : Keeps d L s0 (fabTo t s) :=
  Keeps.ite (foldl_keeps (fun _ _ h => clockTo_keeps _ h m) hs) hs

/-- A change of the memories that keeps their form. -/
theorem mem_keeps (hs : Keeps d L s0 s) (x : MemStore) (h : Memory.wf s.mem = true → Memory.wf x = true)
    (m : May 0x20000000 L) : Keeps d L s0 { s with mem := x } :=
  hs.trans ⟨rfl, Nat.le_refl _, rfl, List.suffix_refl _, Nat.le_refl _, h, fun _ => id, Only.set_mem x m⟩

theorem wf_host {m : MemStore} {t : List Host.Cell} (h : Memory.wf m = true) (ht : tblOk 0 0 m.host = true → tblOk 0 0 t = true) :
    Memory.wf { m with host := t } = true := by
  simp only [Memory.wf, Bool.and_eq_true] at h ⊢; exact ⟨⟨⟨ht h.1.1.1, h.1.1.2⟩, h.1.2⟩, h.2⟩

theorem wf_dram {m : MemStore} {t : List Host.Cell} (h : Memory.wf m = true) (ht : tblOk 0 0 m.dram = true → tblOk 0 0 t = true) :
    Memory.wf { m with dram := t } = true := by
  simp only [Memory.wf, Bool.and_eq_true] at h ⊢; exact ⟨⟨⟨h.1.1.1, ht h.1.1.2⟩, h.1.2⟩, h.2⟩

theorem wf_sram {m : MemStore} {t : List Host.Cell} (h : Memory.wf m = true) (ht : tblOk 0 0 m.sram = true → tblOk 0 0 t = true) :
    Memory.wf { m with sram := t } = true := by
  simp only [Memory.wf, Bool.and_eq_true] at h ⊢; exact ⟨⟨⟨h.1.1.1, h.1.1.2⟩, ht h.1.2⟩, h.2⟩

theorem wf_shard {m : MemStore} {t : Tbl ShardBlk} (h : Memory.wf m = true) (ht : tblOk {} 0 m.shard = true → tblOk {} 0 t = true) :
    Memory.wf { m with shard := t } = true := by
  simp only [Memory.wf, Bool.and_eq_true] at h ⊢; exact ⟨⟨⟨h.1.1.1, h.1.1.2⟩, h.1.2⟩, ht h.2⟩

theorem dram_keeps {x : List Host.Cell} (hs : Keeps d L s0 s) (h : tblOk 0 0 s.mem.dram = true → tblOk 0 0 x = true)
    (m : May 0x20000000 L) :
    Keeps d L s0 { s with mem := { s.mem with dram := x } } := mem_keeps hs _ (fun w => wf_dram w h) m

theorem host_keeps {x : List Host.Cell} (hs : Keeps d L s0 s) (h : tblOk 0 0 s.mem.host = true → tblOk 0 0 x = true)
    (m : May 0x20000000 L) :
    Keeps d L s0 { s with mem := { s.mem with host := x } } := mem_keeps hs _ (fun w => wf_host w h) m

theorem sram_keeps {x : List Host.Cell} (hs : Keeps d L s0 s) (h : tblOk 0 0 s.mem.sram = true → tblOk 0 0 x = true)
    (m : May 0x20000000 L) :
    Keeps d L s0 { s with mem := { s.mem with sram := x } } := mem_keeps hs _ (fun w => wf_sram w h) m

theorem shard_keeps {x : Tbl ShardBlk} (hs : Keeps d L s0 s) (h : tblOk {} 0 s.mem.shard = true → tblOk {} 0 x = true)
    (m : May 0x20000000 L) :
    Keeps d L s0 { s with mem := { s.mem with shard := x } } := mem_keeps hs _ (fun w => wf_shard w h) m

theorem modRst_keeps (f : RstSt → RstSt) (hf : ∀ r : RstSt, r.held = true → (f r).held = true) (hs : Keeps d L s0 s)
    (m : May 0x4 L) : Keeps d L s0 (modRst f s) :=
  hs.trans ⟨rfl, Nat.le_refl _, rfl, List.suffix_refl _, Nat.le_refl _, id, fun _ h => (by
    simp only [Machine.down, Bool.or_eq_true, modRst] at h ⊢; exact h.imp (hf _) id), Only.set_rst _ m⟩

theorem modFlt_keeps (f : FltSt → FltSt) (hf : ∀ r : FltSt, r.fatal = true → (f r).fatal = true) (hs : Keeps d L s0 s)
    (m : May 0x80 L) : Keeps d L s0 (modFlt f s) :=
  hs.trans ⟨rfl, Nat.le_refl _, rfl, List.suffix_refl _, Nat.le_refl _, id, fun _ h => (by
    simp only [Machine.down, Bool.or_eq_true, modFlt] at h ⊢; exact h.imp id (hf _)), Only.set_flt _ m⟩

theorem modPort_keeps (p : Nat) (f : PortSt → PortSt) (hs : Keeps d L s0 s)
    (m : May 0x8000 L) : Keeps d L s0 (modPort p f s) := hs.set_ports _ m

theorem modStrand_keeps (pos : Nat) (f : StrandSt → StrandSt) (hs : Keeps d L s0 s)
    (m : May 0x10000 L) : Keeps d L s0 (modStrand pos f s) := hs.set_strands _ m

theorem modLink_keeps (pos : Nat) (f : SubLink → SubLink) (hs : Keeps d L s0 s)
    (m : May 0x20000 L) : Keeps d L s0 (modLink pos f s) := hs.set_links _ m

theorem modOpt_keeps (e : Nat) (f : OptSt → OptSt) (hs : Keeps d L s0 s)
    (m : May 0x40000 L) : Keeps d L s0 (modOpt e f s) := hs.set_opt _ m

theorem modSwc_keeps (x : Nat) (f : SwcSt → SwcSt) (hs : Keeps d L s0 s)
    (m : May 0x80000 L) : Keeps d L s0 (modSwc x f s) := hs.set_swc _ m

theorem modQueue_keeps (g : Nat) (f : QueueSt → QueueSt) (hs : Keeps d L s0 s)
    (m : May 0x100000 L) : Keeps d L s0 (modQueue g f s) := hs.set_queues _ m

theorem modSched_keeps (pos : Nat) (f : SchedSt → SchedSt) (hs : Keeps d L s0 s)
    (m : May 0x200000 L) : Keeps d L s0 (modSched pos f s) := hs.set_scheds _ m

theorem setPkt_keeps (pid : Nat) (p : Option Pkt) (hs : Keeps d L s0 s)
    (m : May 0x400000 L) : Keeps d L s0 (setPkt pid p s) := hs.set_pkts _ m

theorem modPkt_keeps (pid : Nat) (f : Pkt → Pkt) (hs : Keeps d L s0 s)
    (m : May 0x400000 L) : Keeps d L s0 (modPkt pid f s) := hs.set_pkts _ m

theorem modRed_keeps (x : Nat) (f : RedSt → RedSt) (hs : Keeps d L s0 s)
    (m : May 0x2000000 L) : Keeps d L s0 (modRed x f s) := hs.set_red _ m

theorem setCtx_keeps (slot : Nat) (c : Option Ctx) (hs : Keeps d L s0 s)
    (m : May 0x4000000 L) : Keeps d L s0 (setCtx slot c s) := hs.set_ctxs _ m

theorem modCtx_keeps (slot : Nat) (f : Ctx → Ctx) (hs : Keeps d L s0 s)
    (m : May 0x4000000 L) : Keeps d L s0 (modCtx slot f s) := hs.set_ctxs _ m

theorem modStack_keeps (k : Nat) (f : MemSt → MemSt) (hs : Keeps d L s0 s)
    (m : May 0x10000000 L) : Keeps d L s0 (modStack k f s) := hs.set_stackTbl _ m

theorem modCmd_keeps (f : CmdSt → CmdSt) (hs : Keeps d L s0 s)
    (m : May 0x400 L) : Keeps d L s0 (modCmd f s) := hs.set_cmd _ m

theorem modRing_keeps (r : Nat) (f : Ring → Ring) (hs : Keeps d L s0 s)
    (m : May 0x400 L) : Keeps d L s0 (modRing r f s) := hs.set_cmd _ m

theorem modDma_keeps (f : DmaSt → DmaSt) (hs : Keeps d L s0 s)
    (m : May 0x800 L) : Keeps d L s0 (modDma f s) := hs.set_dma _ m

theorem modChan_keeps (c : Nat) (f : ChanSt → ChanSt) (hs : Keeps d L s0 s)
    (m : May 0x800 L) : Keeps d L s0 (modChan c f s) := hs.set_dma _ m

theorem modBpm_keeps (f : BpmSt → BpmSt) (hs : Keeps d L s0 s)
    (m : May 0x1000 L) : Keeps d L s0 (modBpm f s) := hs.set_bpm _ m

theorem modPoolRing_keeps (k : Nat) (f : PoolRing → PoolRing) (hs : Keeps d L s0 s)
    (m : May 0x1000 L) : Keeps d L s0 (modPoolRing k f s) := hs.set_bpm _ m

theorem modDbg_keeps (f : DbgSt → DbgSt) (hs : Keeps d L s0 s)
    (m : May 0x2000 L) : Keeps d L s0 (modDbg f s) := hs.set_dbg _ m

theorem modTrace_keeps (b : Nat) (f : Trace → Trace) (hs : Keeps d L s0 s)
    (m : May 0x2000 L) : Keeps d L s0 (modTrace b f s) := hs.set_dbg _ m

theorem modRoute_keeps (f : RouteSt → RouteSt) (hs : Keeps d L s0 s)
    (m : May 0x4000 L) : Keeps d L s0 (modRoute f s) := hs.set_route _ m

theorem modPwr_keeps (f : PwrSt → PwrSt) (hs : Keeps d L s0 s)
    (m : May 0x40 L) : Keeps d L s0 (modPwr f s) := hs.set_pwr _ m

theorem modEvr_keeps (f : EvrSt → EvrSt) (hs : Keeps d L s0 s)
    (m : May 0x100 L) : Keeps d L s0 (modEvr f s) := hs.set_evr _ m

theorem modTim_keeps (f : TimSt → TimSt) (hs : Keeps d L s0 s)
    (m : May 0x200 L) : Keeps d L s0 (modTim f s) := hs.set_tim _ m

theorem modGctl_keeps (f : GctlSt → GctlSt) (hs : Keeps d L s0 s)
    (m : May 0x8 L) : Keeps d L s0 (modGctl f s) := hs.set_gctl _ m

theorem modMgr_keeps (f : MgrSt → MgrSt) (hs : Keeps d L s0 s)
    (m : May 0x8000000 L) : Keeps d L s0 (modMgr f s) := hs.set_mgr _ m

theorem modUnits_keeps (f : UnitsSt → UnitsSt) (hs : Keeps d L s0 s)
    (m : May 0x20 L) : Keeps d L s0 (modUnits f s) := hs.set_units _ m

/-- One byte of a shard part keeps the canonical form. -/
theorem tblOk_partWrite (m p : Nat) (b : Byte) (t : Tbl ShardBlk) (h : tblOk {} 0 t = true) : tblOk {} 0 (partWrite m p b t) = true :=
  tblOk_tset _ t h _ _ (Nat.zero_le _)

end

end Sys2Proof.Machine
end

