-- ==== Sys2Proof/Laws/KeepsShared.lean ====
section
/-! SUPPORT. What every operation keeps (the relation Keeps), one lemma per operation: every operation that the families share, from the recorder to the loss of parts. -/

namespace Sys2Proof.Machine

variable {d : Bool} {L : Nat} {s0 : State}

/-! ## Ops -/

theorem portCnt_keeps (a0 : Nat) (a1 : Nat) (a2 : Nat) {a3 : State} (k3 : Keeps d L s0 a3) (m : May 0x8000 L) : Keeps d L s0 (portCnt a0 a1 a2 a3) := by
  unfold portCnt
  exact modPort_keeps _ _ k3 (m.sub rfl)

theorem swcCnt_keeps (a0 : Nat) (a1 : Nat) (a2 : Nat) {a3 : State} (k3 : Keeps d L s0 a3) (m : May 0x80000 L) : Keeps d L s0 (swcCnt a0 a1 a2 a3) := by
  unfold swcCnt
  exact modSwc_keeps _ _ k3 (m.sub rfl)

theorem routeCnt_keeps (a0 : Nat) (a1 : Nat) {a2 : State} (k2 : Keeps d L s0 a2) (m : May 0x4000 L) : Keeps d L s0 (routeCnt a0 a1 a2) := by
  unfold routeCnt
  exact modRoute_keeps _ k2 (m.sub rfl)

theorem redCnt_keeps (a0 : Nat) (a1 : Nat) (a2 : Nat) {a3 : State} (k3 : Keeps d L s0 a3) (m : May 0x2000000 L) : Keeps d L s0 (redCnt a0 a1 a2 a3) := by
  unfold redCnt
  exact modRed_keeps _ _ k3 (m.sub rfl)

theorem memCnt_keeps (a0 : Nat) (a1 : Nat) (a2 : Nat) {a3 : State} (k3 : Keeps d L s0 a3) (m : May 0x10000000 L) : Keeps d L s0 (memCnt a0 a1 a2 a3) := by
  unfold memCnt
  exact modStack_keeps _ _ k3 (m.sub rfl)

theorem bpmCnt_keeps (a0 : Nat) (a1 : Nat) {a2 : State} (k2 : Keeps d L s0 a2) (m : May 0x1000 L) : Keeps d L s0 (bpmCnt a0 a1 a2) := by
  unfold bpmCnt
  exact modBpm_keeps _ k2 (m.sub rfl)

theorem cmdCnt_keeps (a0 : Nat) (a1 : Nat) {a2 : State} (k2 : Keeps d L s0 a2) (m : May 0x400 L) : Keeps d L s0 (cmdCnt a0 a1 a2) := by
  unfold cmdCnt
  exact modCmd_keeps _ k2 (m.sub rfl)

theorem dmaCnt_keeps (a0 : Nat) (a1 : Nat) {a2 : State} (k2 : Keeps d L s0 a2) (m : May 0x800 L) : Keeps d L s0 (dmaCnt a0 a1 a2) := by
  unfold dmaCnt
  exact modDma_keeps _ k2 (m.sub rfl)

theorem countBytes_keeps (a0 : Nat) (a1 : Nat) {a2 : State} (k2 : Keeps d L s0 a2) (m : May 0x2000 L) : Keeps d L s0 (countBytes a0 a1 a2) := by
  unfold countBytes
  exact modDbg_keeps _ k2 (m.sub rfl)

theorem timCnt_keeps (a0 : Nat) (a1 : Nat) {a2 : State} (k2 : Keeps d L s0 a2) (m : May 0x200 L) : Keeps d L s0 (timCnt a0 a1 a2) := by
  unfold timCnt
  exact modTim_keeps _ k2 (m.sub rfl)

theorem evrCnt_keeps (a0 : Nat) (a1 : Nat) {a2 : State} (k2 : Keeps d L s0 a2) (m : May 0x100 L) : Keeps d L s0 (evrCnt a0 a1 a2) := by
  unfold evrCnt
  exact modEvr_keeps _ k2 (m.sub rfl)

theorem clearCtlPut_keeps (a0 : Word) {a1 : State} (k1 : Keeps d L s0 a1) (m : May 0x4000 L) : Keeps d L s0 (clearCtlPut a0 a1) := by
  unfold clearCtlPut
  exact modRoute_keeps _ k1 (m.sub rfl)

theorem raiseVec_keeps (a0 : Nat) {a1 : State} (k1 : Keeps d L s0 a1) (m : May 0x401 L) : Keeps d L s0 (raiseVec a0 a1) := by
  unfold raiseVec
  exact Keeps.ite (Keeps.ite (emit_keeps _ k1 (m.sub rfl)) (modCmd_keeps _ k1 (m.sub rfl))) k1

theorem raisePending_keeps {a0 : State} (k0 : Keeps d L s0 a0) (m : May 0x401 L) : Keeps d L s0 (raisePending a0) := by
  unfold raisePending
  exact each_keeps (fun _ _ h0 => Keeps.ite (emit_keeps _ (modCmd_keeps _ h0 (m.sub rfl)) (m.sub rfl)) h0) k0

theorem freezeOnUc_keeps {a0 : State} (k0 : Keeps d L s0 a0) (m : May 0x2000 L) : Keeps d L s0 (freezeOnUc a0) := by
  unfold freezeOnUc
  exact modDbg_keeps _ k0 (m.sub rfl)

theorem capture_keeps (a0 : FaultKind) (a1 : Nat) (a2 : Nat) (a3 : Nat) (a4 : Nat) (a5 : Nat) (a6 : Bool) {a7 : State} (k7 : Keeps d L s0 a7) (m : May 0x2481 L) :
    Keeps d L s0 (capture a0 a1 a2 a3 a4 a5 a6 a7) := by
  unfold capture
  extract_lets z0 z1 z2 z3
  clear_value z0
  have h4 : Keeps d L s0 z1 := by unfold z1; exact modFlt_keeps _ (fun _ h => h) k7 (m.sub rfl)
  clear_value z1 z2
  have h5 : Keeps d L s0 z3 := by unfold z3; exact modFlt_keeps _ (fun _ h => h) k7 (m.sub rfl)
  clear_value z3
  split
  · exact k7
  · exact iff_keeps _ (fun _ h6 => raiseVec_keeps _ h6 (m.sub rfl)) h4
  · exact iff_keeps _ (fun _ h7 => raiseVec_keeps _ h7 (m.sub rfl)) (iff_keeps _ (fun _ h8 => freezeOnUc_keeps h8 (m.sub rfl)) h5)
  · exact modFlt_keeps _ (fun _ h => h) k7 (m.sub rfl)

theorem injSpent_keeps {a0 : State} (k0 : Keeps d L s0 a0) (m : May 0x80 L) : Keeps d L s0 (injSpent a0) := by
  unfold injSpent
  exact modFlt_keeps _ (fun _ h => h) k0 (m.sub rfl)

theorem injFire_keeps (a0 : Nat) (a1 : Nat) (a2 : Nat) {a3 : State} (k3 : Keeps d L s0 a3) (m : May 0x80 L) : Keeps d L s0 (injFire a0 a1 a2 a3).2 := by
  unfold injFire
  extract_lets z0
  clear_value z0
  split
  · dsimp only
    exact injSpent_keeps k3 (m.sub rfl)
  · exact k3

theorem injectCw_keeps (a0 : Nat) (a1 : CwResult) {a2 : State} (k2 : Keeps d L s0 a2) (m : May 0x82 L) : Keeps d L s0 (injectCw a0 a1 a2).2.2 := by
  unfold injectCw
  split
  · rename_i y0 _ y1 e2
    have h3 : Keeps d L s0 y1 := Keeps.snd_eq e2 (injFire_keeps _ _ _ k2 (m.sub rfl))
    split
    · exact h3
    · extract_lets z4 z5
      clear_value z4 z5
      split
      · rename_i y6 _ y7 e8
        have h9 : Keeps d L s0 y7 := by
          refine Keeps.snd_eq e8 ?_
          split
          · exact draw_keeps h3 (m.sub rfl)
          · exact h3
        split
        · exact h9
        · split
          · exact h9
          · exact h9

theorem swcInject_keeps (a0 : Nat) (a1 : Nat) {a2 : State} (k2 : Keeps d L s0 a2) (m : May 0x80 L) : Keeps d L s0 (swcInject a0 a1 a2) := by
  unfold swcInject
  exact injFire_keeps _ _ _ k2 (m.sub rfl)

theorem disarmAt_keeps (a0 : Nat → Nat → Bool) {a1 : State} (k1 : Keeps d L s0 a1) (m : May 0x80 L) : Keeps d L s0 (disarmAt a0 a1) := by
  unfold disarmAt
  exact Keeps.ite (modFlt_keeps _ (fun _ h => h) k1 (m.sub rfl)) k1

theorem persist_keeps (a0 : Record) {a1 : State} (k1 : Keeps d L s0 a1) (m : May 0x100 L) : Keeps d L s0 (persist a0 a1) := by
  unfold persist
  extract_lets z0
  clear_value z0
  exact Keeps.ite k1 (Keeps.ite (modEvr_keeps _ k1 (m.sub rfl)) (Keeps.ite (modEvr_keeps _ k1 (m.sub rfl)) (evrCnt_keeps _ _ k1 (m.sub rfl))))

theorem place_keeps (a0 : Record) {a1 : State} (k1 : Keeps d L s0 a1) (m : May 0x100 L) : Keeps d L s0 (place a0 a1) := by
  unfold place
  extract_lets z0
  clear_value z0
  refine Keeps.ite (modEvr_keeps _ k1 (m.sub rfl)) ?_
  refine Keeps.ite (modEvr_keeps _ k1 (m.sub rfl)) ?_
  split
  · exact evrCnt_keeps _ _ (modEvr_keeps _ k1 (m.sub rfl)) (m.sub rfl)
  · exact evrCnt_keeps _ _ (modEvr_keeps _ k1 (m.sub rfl)) (m.sub rfl)

theorem forwardRec_keeps (a0 : Record) {a1 : State} (k1 : Keeps d L s0 a1) (m : May 0x101 L) : Keeps d L s0 (forwardRec a0 a1) := by
  unfold forwardRec
  extract_lets z0 z1
  clear_value z0 z1
  exact Keeps.ite (Keeps.ite (emit_keeps _ (modEvr_keeps _ k1 (m.sub rfl)) (m.sub rfl)) (evrCnt_keeps _ _ k1 (m.sub rfl))) k1

theorem foldNewest_keeps {a0 : State} (k0 : Keeps d L s0 a0) (m : May 0x100 L) : Keeps d L s0 (foldNewest a0) := by
  unfold foldNewest
  extract_lets z0
  clear_value z0
  exact evrCnt_keeps _ _ (modEvr_keeps _ k0 (m.sub rfl)) (m.sub rfl)

theorem enterRec_keeps (a0 : Record) {a1 : State} (k1 : Keeps d L s0 a1) (m : May 0x501 L) : Keeps d L s0 (enterRec a0 a1) := by
  unfold enterRec
  extract_lets z0 z1 z2
  clear_value z0
  have h3 : Keeps d L s0 z1 := by unfold z1; exact place_keeps _ (evrCnt_keeps _ _ (modEvr_keeps _ k1 (m.sub rfl)) (m.sub rfl)) (m.sub rfl)
  clear_value z1
  have h4 : Keeps d L s0 z2 := by unfold z2; exact persist_keeps _ h3 (m.sub rfl)
  clear_value z2
  exact iff_keeps _ (fun _ h5 => raiseVec_keeps _ h5 (m.sub rfl)) h4

theorem logEvent'_keeps (a0 : Nat) (a1 : Nat) (a2 : Nat) (a3 : List Byte) (a4 : Nat) (a5 : Nat) (a6 : Bool) {a7 : State} (k7 : Keeps d L s0 a7) (m : May 0x2581 L) :
    Keeps d L s0 (logEvent' a0 a1 a2 a3 a4 a5 a6 a7) := by
  unfold logEvent'
  extract_lets z0 z1 z2
  have h3 : Keeps d L s0 z0 := by unfold z0; exact each_keeps (fun _ _ h4 => raiseVec_keeps _ h4 (m.sub rfl)) (capture_keeps _ _ _ _ _ _ _ k7 (m.sub rfl))
  clear_value z0 z1
  have h5 : Keeps d L s0 z2 := by unfold z2; exact enterRec_keeps _ h3 (m.sub rfl)
  clear_value z2
  refine Keeps.ite k7 ?_
  refine Keeps.ite (foldNewest_keeps h3 (m.sub rfl)) ?_
  split
  · exact forwardRec_keeps _ h5 (m.sub rfl)
  · exact h5

theorem logEvent_keeps (a0 : Nat) (a1 : Nat) (a2 : Nat) (a3 : List Byte) {a4 : State} (k4 : Keeps d L s0 a4) (m : May 0x2581 L) :
    Keeps d L s0 (logEvent a0 a1 a2 a3 a4) := by
  unfold logEvent
  exact logEvent'_keeps _ _ _ _ _ _ _ k4 (m.sub rfl)

theorem dieTally_keeps (a0 : Nat) (a1 : Option (Fin 15)) {a2 : State} (k2 : Keeps d L s0 a2) (m : May 0x10000000 L) : Keeps d L s0 (dieTally a0 a1 a2) := by
  unfold dieTally
  split
  · exact modStack_keeps _ _ k2 (m.sub rfl)
  · exact k2

theorem cwRead_keeps (a0 : Nat) (a1 : Nat) (a2 : Nat) (a3 : Nat) (a4 : CwResult) {a5 : State} (k5 : Keeps d L s0 a5) (m : May 0x10002583 L) :
    Keeps d L s0 (cwRead a0 a1 a2 a3 a4 a5).2 := by
  unfold cwRead
  split
  · rename_i y0 _ _ y1 e2
    have h3 : Keeps d L s0 y1 := Keeps.trd_eq e2 (injectCw_keeps _ _ k5 (m.sub rfl))
    extract_lets z4 z5
    clear_value z4 z5
    split
    · exact h3
    · dsimp only
      exact dieTally_keeps _ _ (logEvent'_keeps _ _ _ _ _ _ _ (memCnt_keeps _ _ _ h3 (m.sub rfl)) (m.sub rfl)) (m.sub rfl)
    · dsimp only
      exact modStack_keeps _ _ (logEvent'_keeps _ _ _ _ _ _ _ (memCnt_keeps _ _ _ h3 (m.sub rfl)) (m.sub rfl)) (m.sub rfl)

theorem cwWritten_keeps (a0 : Nat) (a1 : Nat) (a2 : Nat) {a3 : State} (k3 : Keeps d L s0 a3) (m : May 0x10000000 L) : Keeps d L s0 (cwWritten a0 a1 a2 a3) := by
  unfold cwWritten
  exact Keeps.ite (modStack_keeps _ _ k3 (m.sub rfl)) k3

theorem logMb_keeps (a0 : Nat) (a1 : List Byte) {a2 : State} (k2 : Keeps d L s0 a2) (m : May 0x2581 L) : Keeps d L s0 (logMb a0 a1 a2) := by
  unfold logMb
  exact logEvent_keeps _ _ _ _ k2 (m.sub rfl)

/-! ## Glade -/

theorem releaseFlits_keeps (a0 : Nat) (a1 : Nat) (a2 : Nat) {a3 : State} (k3 : Keeps d L s0 a3) (m : May 0x20000 L) : Keeps d L s0 (releaseFlits a0 a1 a2 a3) := by
  unfold releaseFlits
  exact modLink_keeps _ _ k3 (m.sub rfl)

theorem leaveStaging_keeps (a0 : Nat) {a1 : State} (k1 : Keeps d L s0 a1) (m : May 0x420000 L) : Keeps d L s0 (leaveStaging a0 a1) := by
  unfold leaveStaging
  split
  · split
    · exact modPkt_keeps _ _ (releaseFlits_keeps _ _ _ k1 (m.sub rfl)) (m.sub rfl)
    · exact k1
  · exact k1

theorem setStaging_keeps (a0 : Nat) (a1 : Nat) (a2 : List InEnt) {a3 : State} (k3 : Keeps d L s0 a3) (m : May 0x1000000 L) : Keeps d L s0 (setStaging a0 a1 a2 a3) := by
  unfold setStaging
  exact Keeps.set_staging (s := a3) _ k3 (m.sub rfl)

theorem setStage_keeps (a0 : Nat) (a1 : Nat) (a2 : Nat) (a3 : Stage) {a4 : State} (k4 : Keeps d L s0 a4) (m : May 0x1000000 L) : Keeps d L s0 (setStage a0 a1 a2 a3 a4) := by
  unfold setStage
  exact setStaging_keeps _ _ _ k4 (m.sub rfl)

theorem landFree_keeps (a0 : Nat) (a1 : Nat) (a2 : Nat) (a3 : Nat) {a4 : State} (k4 : Keeps d L s0 a4) (m : May 0x80000 L) : Keeps d L s0 (landFree a0 a1 a2 a3 a4) := by
  unfold landFree
  exact Keeps.ite k4 (modSwc_keeps _ _ k4 (m.sub rfl))

theorem landTake_keeps (a0 : Nat) (a1 : Nat) (a2 : Nat) (a3 : Nat) {a4 : State} (k4 : Keeps d L s0 a4) (m : May 0x80000 L) : Keeps d L s0 (landTake a0 a1 a2 a3 a4) := by
  unfold landTake
  exact modSwc_keeps _ _ k4 (m.sub rfl)

theorem pullFlits_keeps (a0 : Nat) (a1 : Nat) {a2 : State} (k2 : Keeps d L s0 a2) (m : May 0x220000 L) : Keeps d L s0 (pullFlits a0 a1 a2) := by
  unfold pullFlits
  exact modSched_keeps _ _ (modLink_keeps _ _ k2 (m.sub rfl)) (m.sub rfl)

theorem unlink_keeps (a0 : Nat) (a1 : Nat) {a2 : State} (k2 : Keeps d L s0 a2) (m : May 0x17a0000 L) : Keeps d L s0 (unlink a0 a1 a2) := by
  unfold unlink
  split
  · extract_lets z0 z1 z2 z3 z4 z5
    clear_value z0
    have h6 : Keeps d L s0 z1 := by unfold z1; exact pullFlits_keeps _ _ k2 (m.sub rfl)
    clear_value z1
    have h7 : Keeps d L s0 z2 := by unfold z2; exact modQueue_keeps _ _ h6 (m.sub rfl)
    clear_value z2
    have h8 : Keeps d L s0 z3 := by unfold z3; exact modPkt_keeps _ _ h7 (m.sub rfl)
    clear_value z3
    have h9 : Keeps d L s0 z4 := by unfold z4; exact modSwc_keeps _ _ h8 (m.sub rfl)
    clear_value z4
    have h10 : Keeps d L s0 z5 := by
      unfold z5
      split
      · exact Keeps.ite h9 (setStage_keeps _ _ _ _ h9 (m.sub rfl))
      · exact h9
    clear_value z5
    exact Keeps.ite (setPkt_keeps _ _ h10 (m.sub rfl)) h8
  · exact k2

theorem dropPkt_keeps (a0 : Nat) {a1 : State} (k1 : Keeps d L s0 a1) (m : May 0x17a0000 L) : Keeps d L s0 (dropPkt a0 a1) := by
  unfold dropPkt
  split
  · exact k1
  · extract_lets z0 z1 z2 z3
    clear_value z0
    have h4 : Keeps d L s0 z1 := by unfold z1; exact leaveStaging_keeps _ k1 (m.sub rfl)
    clear_value z1
    have h5 : Keeps d L s0 z2 := by
      unfold z2
      refine each_keeps (fun _ _ h6 => ?_) h4
      extract_lets z7 z8
      clear_value z7
      have h9 : Keeps d L s0 z8 := by unfold z8; exact each_keeps (fun _ _ h10 => landFree_keeps _ _ _ _ h10 (m.sub rfl)) h6
      clear_value z8
      exact modSwc_keeps _ _ h9 (m.sub rfl)
    clear_value z2
    have h11 : Keeps d L s0 z3 := by
      unfold z3
      split
      · exact Keeps.ite (setStaging_keeps _ _ _ h5 (m.sub rfl)) (setStage_keeps _ _ _ _ h5 (m.sub rfl))
      · exact h5
    clear_value z3
    exact Keeps.ite (setPkt_keeps _ _ h11 (m.sub rfl)) (each_keeps (fun _ _ h12 => unlink_keeps _ _ h12 (m.sub rfl)) h5)

theorem refresh_keeps (a0 : Nat) {a1 : State} (k1 : Keeps d L s0 a1) (m : May 0x200000 L) : Keeps d L s0 (refresh a0 a1) := by
  unfold refresh
  exact modSched_keeps _ _ k1 (m.sub rfl)

theorem takeCells_keeps (a0 : Nat) (a1 : Nat) (a2 : Bool) {a3 : State} (k3 : Keeps d L s0 a3) (m : May 0x482000 L) : Keeps d L s0 (takeCells a0 a1 a2 a3) := by
  unfold takeCells
  split
  · exact k3
  · extract_lets z0 z1 z2
    have h3 : Keeps d L s0 z0 := by unfold z0; exact modSwc_keeps _ _ k3 (m.sub rfl)
    clear_value z0
    have h4 : Keeps d L s0 z1 := by unfold z1; exact modPkt_keeps _ _ h3 (m.sub rfl)
    clear_value z1 z2
    exact Keeps.set_dbg (s := z1) _ h4 (m.sub rfl)

theorem closeCells_keeps (a0 : Nat) {a1 : State} (k1 : Keeps d L s0 a1) (m : May 0x580000 L) : Keeps d L s0 (closeCells a0 a1) := by
  unfold closeCells
  split
  · extract_lets z0 z1 z2 z3
    clear_value z0 z1
    have h4 : Keeps d L s0 z2 := by unfold z2; exact modSwc_keeps _ _ k1 (m.sub rfl)
    clear_value z2
    have h5 : Keeps d L s0 z3 := by unfold z3; exact each_keeps (fun _ _ h6 => modQueue_keeps _ _ h6 (m.sub rfl)) h4
    clear_value z3
    exact Keeps.ite (modPkt_keeps _ _ h5 (m.sub rfl)) k1
  · exact k1

theorem lookup_keeps (a0 : Nat) (a1 : Hdr) {a2 : State} (k2 : Keeps d L s0 a2) (m : May 0x4000 L) : Keeps d L s0 (lookup a0 a1 a2).2 := by
  unfold lookup
  extract_lets z0 z1 z2 z3 z4 z5
  clear_value z0 z1 z2 z3 z4 z5
  split
  · split
    · exact k2
    · split
      · exact k2
      · split
        · split
          · exact k2
          · split
            · exact k2
            · exact k2
        · split
          · dsimp only
            exact modRoute_keeps _ k2 (m.sub rfl)
          · exact k2
  · exact k2
  · exact k2

theorem leaveDoze_keeps (a0 : Nat) {a1 : State} (k1 : Keeps d L s0 a1) (m : May 0x30001 L) : Keeps d L s0 (leaveDoze a0 a1) := by
  unfold leaveDoze
  extract_lets z0
  have h1 : Keeps d L s0 z0 := by unfold z0; exact each_keeps (fun _ _ h2 => emit_keeps _ (modStrand_keeps _ _ h2 (m.sub rfl)) (m.sub rfl)) k1
  clear_value z0
  exact Keeps.ite (modLink_keeps _ _ h1 (m.sub rfl)) k1

theorem toEgress_keeps (a0 : Nat) (a1 : Nat) (a2 : Nat) (a3 : Nat) (a4 : List Nat) (a5 : Nat) {a6 : State} (k6 : Keeps d L s0 a6) (m : May 0x4b0081 L) :
    Keeps d L s0 (toEgress a0 a1 a2 a3 a4 a5 a6) := by
  unfold toEgress
  extract_lets z0 z1 z2 z3
  clear_value z0
  have h4 : Keeps d L s0 z1 := by unfold z1; exact leaveDoze_keeps _ k6 (m.sub rfl)
  clear_value z1 z2 z3
  split
  · exact h4
  · extract_lets z5 z6 z7
    have h8 : Keeps d L s0 z5 := by unfold z5; exact modSwc_keeps _ _ h4 (m.sub rfl)
    clear_value z5
    have h9 : Keeps d L s0 z6 := by unfold z6; exact landTake_keeps _ _ _ _ (leaveStaging_keeps _ (swcInject_keeps _ _ h8 (m.sub rfl)) (m.sub rfl)) (m.sub rfl)
    clear_value z6
    have h10 : Keeps d L s0 z7 := by unfold z7; exact landTake_keeps _ _ _ _ h4 (m.sub rfl)
    clear_value z7
    exact Keeps.ite (modSwc_keeps _ _ h4 (m.sub rfl)) (Keeps.ite (Keeps.ite (modSwc_keeps _ _ h4 (m.sub rfl)) (modSwc_keeps _ _ h9 (m.sub rfl))) (Keeps.ite (modSwc_keeps _ _ h4 (m.sub rfl)) (modSwc_keeps _ _ h10 (m.sub rfl))))

theorem routePkt_keeps (a0 : Nat) (a1 : Nat) {a2 : State} (k2 : Keeps d L s0 a2) (m : May 0x17b4081 L) : Keeps d L s0 (routePkt a0 a1 a2) := by
  unfold routePkt
  split
  · exact k2
  · refine Keeps.ite (dropPkt_keeps _ k2 (m.sub rfl)) ?_
    split
    · rename_i y0 _ y1 e2
      have h3 : Keeps d L s0 y1 := Keeps.snd_eq e2 (lookup_keeps _ _ (swcInject_keeps _ _ k2 (m.sub rfl)) (m.sub rfl))
      exact dropPkt_keeps _ (routeCnt_keeps _ _ h3 (m.sub rfl)) (m.sub rfl)
    · rename_i y4 _ y5 e6
      have h7 : Keeps d L s0 y5 := Keeps.snd_eq e6 (lookup_keeps _ _ (swcInject_keeps _ _ k2 (m.sub rfl)) (m.sub rfl))
      exact toEgress_keeps _ _ _ _ _ _ h7 (m.sub rfl)

theorem newPkt_keeps (a0 : Hdr) (a1 : List Ext) (a2 : List Byte) (a3 : Bool) (a4 : Bool) {a5 : State} (k5 : Keeps d L s0 a5) (m : May 0xc00000 L) :
    Keeps d L s0 (newPkt a0 a1 a2 a3 a4 a5).2 := by
  unfold newPkt
  extract_lets z0
  clear_value z0
  dsimp only
  exact setPkt_keeps _ _ (Keeps.set_nextPid (s := a5) _ k5 (m.sub rfl)) (m.sub rfl)

theorem sendPkt_keeps (a0 : Hdr) (a1 : List Ext) (a2 : List Byte) (a3 : Bool) {a4 : State} (k4 : Keeps d L s0 a4) (m : May 0x1fb4081 L) :
    Keeps d L s0 (sendPkt a0 a1 a2 a3 a4) := by
  unfold sendPkt
  split
  · rename_i y0 _ y1 e2
    have h3 : Keeps d L s0 y1 := Keeps.snd_eq e2 (newPkt_keeps _ _ _ _ _ k4 (m.sub rfl))
    exact routePkt_keeps _ _ h3 (m.sub rfl)

theorem sendMgmt_keeps (a0 : Nat) (a1 : List Byte) {a2 : State} (k2 : Keeps d L s0 a2) (m : May 0x1fb4081 L) : Keeps d L s0 (sendMgmt a0 a1 a2) := by
  unfold sendMgmt
  exact sendPkt_keeps _ _ _ _ k2 (m.sub rfl)

theorem observe_keeps (a0 : Nat) (a1 : Nat) (a2 : Bool) (a3 : Pkt) {a4 : State} (k4 : Keeps d L s0 a4) (m : May 0x80000 L) : Keeps d L s0 (observe a0 a1 a2 a3 a4).2 := by
  unfold observe
  extract_lets z0
  clear_value z0
  split
  · exact k4
  · refine foldl_snd_keeps (fun _ _ _ h1 => ?_) k4
    extract_lets z2 z3 z4 z5 z6 z7
    have h8 : Keeps d L s0 z2 := by unfold z2; exact h1
    clear_value z2 z3 z4 z5 z6
    have h9 : Keeps d L s0 z7 := by unfold z7; exact iff_keeps _ (fun _ h10 => modSwc_keeps _ _ h10 (m.sub rfl)) h8
    clear_value z7
    split
    · split
      · exact h9
      · exact h9
    · exact h1

theorem formCopy_keeps (a0 : Obs) {a1 : State} (k1 : Keeps d L s0 a1) (m : May 0x1fbc083 L) : Keeps d L s0 (formCopy a0 a1) := by
  unfold formCopy
  extract_lets z0 z1 z2 z3 z4
  clear_value z0 z1 z2 z3 z4
  split
  · rename_i y5 _ y6 e7
    have h8 : Keeps d L s0 y6 := by
      refine Keeps.snd_eq e7 ?_
      split
      · exact draw_keeps k1 (m.sub rfl)
      · exact k1
    refine Keeps.ite (swcCnt_keeps _ _ _ h8 (m.sub rfl)) ?_
    refine Keeps.ite (portCnt_keeps _ _ _ h8 (m.sub rfl)) ?_
    split
    · rename_i y9 _ y10 e11
      have h12 : Keeps d L s0 y10 := Keeps.snd_eq e11 (newPkt_keeps _ _ _ _ _ h8 (m.sub rfl))
      exact routePkt_keeps _ _ h12 (m.sub rfl)

theorem mirrorDrop_keeps (a0 : Nat) (a1 : Nat) {a2 : State} (k2 : Keeps d L s0 a2) (m : May 0x1fbc083 L) : Keeps d L s0 (mirrorDrop a0 a1 a2) := by
  unfold mirrorDrop
  split
  · exact k2
  · split
    · rename_i y0 _ y1 e2
      have h3 : Keeps d L s0 y1 := Keeps.snd_eq e2 (observe_keeps _ _ _ _ k2 (m.sub rfl))
      split
      · exact Keeps.ite (each_keeps (fun _ _ h4 => formCopy_keeps _ h4 (m.sub rfl)) h3) (setStaging_keeps _ _ _ h3 (m.sub rfl))
      · exact each_keeps (fun _ _ h5 => formCopy_keeps _ h5 (m.sub rfl)) h3

theorem ageHead_keeps (n g : Nat) {s : State} (h : Keeps d L s0 s) (m : May 0x1fbc083 L) : Keeps d L s0 (ageHead n g s) := by
  induction n generalizing s with
  | zero => exact h
  | succ f ih =>
    unfold ageHead
    split
    · split
      · exact Keeps.ite (ih (swcCnt_keeps _ _ _ (unlink_keeps _ _ (mirrorDrop_keeps _ _ h (m.sub rfl)) (m.sub rfl)) (m.sub rfl))) h
      · exact h
    · exact h

theorem newHead_keeps (a0 : Nat) {a1 : State} (k1 : Keeps d L s0 a1) (m : May 0x1fbc083 L) : Keeps d L s0 (newHead a0 a1) := by
  unfold newHead
  exact ageHead_keeps _ _ k1 (m.sub rfl)

theorem endPoisoned_keeps (a0 : Nat) {a1 : State} (k1 : Keeps d L s0 a1) (m : May 0x1fbc083 L) : Keeps d L s0 (endPoisoned a0 a1) := by
  unfold endPoisoned
  split
  · extract_lets z0
    clear_value z0
    exact Keeps.ite (closeCells_keeps _ (modPkt_keeps _ _ k1 (m.sub rfl)) (m.sub rfl)) (each_keeps (fun _ _ h1 => newHead_keeps _ h1 (m.sub rfl)) (dropPkt_keeps _ k1 (m.sub rfl)))
  · exact k1

theorem agePurge_keeps (a0 : Nat) {a1 : State} (k1 : Keeps d L s0 a1) (m : May 0x1fbc083 L) : Keeps d L s0 (agePurge a0 a1) := by
  unfold agePurge
  refine each_keeps (fun _ _ h0 => ?_) k1
  split
  · exact Keeps.ite (swcCnt_keeps _ _ _ (unlink_keeps _ _ (mirrorDrop_keeps _ _ h0 (m.sub rfl)) (m.sub rfl)) (m.sub rfl)) h0
  · exact h0

theorem linkQueue_keeps (a0 : Nat) (a1 : Nat) (a2 : Bool) (a3 : Bool) {a4 : State} (k4 : Keeps d L s0 a4) (m : May 0x1fbc083 L) :
    Keeps d L s0 (linkQueue a0 a1 a2 a3 a4) := by
  unfold linkQueue
  split
  · exact k4
  · extract_lets z0 z1
    clear_value z0
    have h2 : Keeps d L s0 z1 := by unfold z1; exact modQueue_keeps _ _ k4 (m.sub rfl)
    clear_value z1
    exact iff_keeps _ (fun _ h3 => ageHead_keeps _ _ h3 (m.sub rfl)) h2

theorem dropArr_keeps (a0 : Nat) (a1 : Arr) {a2 : State} (k2 : Keeps d L s0 a2) (m : May 0x80000 L) : Keeps d L s0 (dropArr a0 a1 a2) := by
  unfold dropArr
  exact modSwc_keeps _ _ k2 (m.sub rfl)

theorem admitOne_keeps (a0 : Nat) (a1 : Arr) (a2 : Nat) (a3 : Bool) {a4 : State} (k4 : Keeps d L s0 a4) (m : May 0x1fbe083 L) : Keeps d L s0 (admitOne a0 a1 a2 a3 a4) := by
  unfold admitOne
  split
  · exact dropArr_keeps _ _ k4 (m.sub rfl)
  · extract_lets z0 z1
    clear_value z0
    have h2 : Keeps d L s0 z1 := by unfold z1; exact leaveStaging_keeps _ (landFree_keeps _ _ _ _ (dropArr_keeps _ _ k4 (m.sub rfl)) (m.sub rfl)) (m.sub rfl)
    clear_value z1
    exact refresh_keeps _ (linkQueue_keeps _ _ _ _ (takeCells_keeps _ _ _ h2 (m.sub rfl)) (m.sub rfl)) (m.sub rfl)

theorem dropEgress_keeps (a0 : Nat) (a1 : Nat) (a2 : Nat) (a3 : Nat) {a4 : State} (k4 : Keeps d L s0 a4) (m : May 0x1fbc083 L) :
    Keeps d L s0 (dropEgress a0 a1 a2 a3 a4) := by
  unfold dropEgress
  exact dropPkt_keeps _ (swcCnt_keeps _ _ _ (mirrorDrop_keeps _ _ k4 (m.sub rfl)) (m.sub rfl)) (m.sub rfl)

theorem tryAdmit_keeps (a0 : Nat) (a1 : Arr) (a2 : Nat) (a3 : Bool) {a4 : State} (k4 : Keeps d L s0 a4) (m : May 0x1fbe083 L) : Keeps d L s0 (tryAdmit a0 a1 a2 a3 a4) := by
  unfold tryAdmit
  split
  · exact dropArr_keeps _ _ k4 (m.sub rfl)
  · extract_lets z0 z1 z2
    clear_value z0
    have h3 : ∀ x0, Keeps d L s0 x0 → Keeps d L s0 (z1 x0) := by
      intro x0 h4
      unfold z1
      exact modSwc_keeps _ _ h4 (m.sub rfl)
    clear_value z1
    have h5 : ∀ x0, Keeps d L s0 x0 → Keeps d L s0 (z2 x0) := by
      intro x0 h6
      unfold z2
      exact iff_keeps _ (fun _ h7 => swcCnt_keeps _ _ _ h7 (m.sub rfl)) h6
    clear_value z2
    refine Keeps.ite (dropEgress_keeps _ _ _ _ k4 (m.sub rfl)) ?_
    refine Keeps.ite (h5 _ (h3 _ k4)) ?_
    split
    · exact h5 _ (admitOne_keeps _ _ _ _ k4 (m.sub rfl))
    · exact Keeps.ite (dropPkt_keeps _ (swcCnt_keeps _ _ _ k4 (m.sub rfl)) (m.sub rfl)) (h5 _ (admitOne_keeps _ _ _ _ k4 (m.sub rfl)))
    · exact Keeps.ite (h5 _ (h3 _ k4)) (Keeps.ite (dropPkt_keeps _ (swcCnt_keeps _ _ _ k4 (m.sub rfl)) (m.sub rfl)) (dropEgress_keeps _ _ _ _ k4 (m.sub rfl)))

theorem tryMulticast_keeps (a0 : Nat) (a1 : Arr) {a2 : State} (k2 : Keeps d L s0 a2) (m : May 0x1fbe083 L) : Keeps d L s0 (tryMulticast a0 a1 a2) := by
  unfold tryMulticast
  split
  · exact dropArr_keeps _ _ k2 (m.sub rfl)
  · extract_lets z0 z1 z2 z3 z4 z5 z6 z7
    clear_value z0 z1 z2 z3
    have h8 : Keeps d L s0 z4 := by unfold z4; exact modPkt_keeps _ _ (landFree_keeps _ _ _ _ (dropArr_keeps _ _ k2 (m.sub rfl)) (m.sub rfl)) (m.sub rfl)
    clear_value z4
    have h9 : Keeps d L s0 z5 := by unfold z5; exact takeCells_keeps _ _ _ h8 (m.sub rfl)
    clear_value z5
    have h10 : Keeps d L s0 z6 := by unfold z6; exact each_keeps (fun _ _ h11 => refresh_keeps _ (linkQueue_keeps _ _ _ _ h11 (m.sub rfl)) (m.sub rfl)) h9
    clear_value z6 z7
    exact Keeps.ite (setPkt_keeps _ _ (landFree_keeps _ _ _ _ (dropArr_keeps _ _ k2 (m.sub rfl)) (m.sub rfl)) (m.sub rfl)) (Keeps.ite (swcCnt_keeps _ _ _ h10 (m.sub rfl)) (modSwc_keeps _ _ k2 (m.sub rfl)))

/-! ## Pools -/

theorem refill_keeps (k n : Nat) {s : State} (h : Keeps d L s0 s) (m : May 0x1080 L) : Keeps d L s0 (refill k n s) := by
  induction n generalizing s with
  | zero => exact h
  | succ f ih =>
    unfold refill
    split
    · exact h
    · dsimp only
      have h1 := modPoolRing_keeps k (fun r => { r with ring := ‹List (BitVec 64)› }) (injFire_keeps 7 k 0 h (m.sub rfl)) (m.sub rfl)
      exact ih (Keeps.ite (modPoolRing_keeps _ _ h1 (m.sub rfl)) (modBpm_keeps _ (modPoolRing_keeps _ _ (bpmCnt_keeps _ _ h1 (m.sub rfl)) (m.sub rfl)) (m.sub rfl)))

theorem takeBuf_keeps (a0 : Nat) {a1 : State} (k1 : Keeps d L s0 a1) (m : May 0x1080 L) : Keeps d L s0 (takeBuf a0 a1).2 := by
  unfold takeBuf
  extract_lets z0
  have h1 : Keeps d L s0 z0 := by unfold z0; exact Keeps.ite (refill_keeps _ _ k1 (m.sub rfl)) k1
  clear_value z0
  split
  · exact h1
  · dsimp only
    exact modPoolRing_keeps _ _ h1 (m.sub rfl)

theorem chargeBuf_keeps (a0 : Nat) (a1 : Nat) (a2 : Nat) (a3 : Option InstId) {a4 : State} (k4 : Keeps d L s0 a4) (m : May 0x1000 L) :
    Keeps d L s0 (chargeBuf a0 a1 a2 a3 a4) := by
  unfold chargeBuf
  exact modBpm_keeps _ k4 (m.sub rfl)

theorem serveFrom_keeps (q : Nat) (i : Option InstId) (b : Bool) (l : List Nat) {s : State} (h : Keeps d L s0 s) (m : May 0x1080 L) :
    Keeps d L s0 (serveFrom q i b l s).2 := by
  induction l generalizing b s with
  | nil => exact h
  | cons k rest ih =>
    unfold serveFrom
    split
    · exact h
    · split
      · rename_i e
        exact chargeBuf_keeps _ _ _ _ (Keeps.ite (Keeps.snd_eq e (takeBuf_keeps _ h (m.sub rfl))) (bpmCnt_keeps _ _ (Keeps.snd_eq e (takeBuf_keeps _ h (m.sub rfl))) (m.sub rfl))) (m.sub rfl)
      · rename_i e
        split
        · exact Keeps.snd_eq e (takeBuf_keeps _ h (m.sub rfl))
        · exact ih _ (Keeps.snd_eq e (takeBuf_keeps _ h (m.sub rfl)))

theorem poolAsk_keeps (a0 : Nat) (a1 : Nat) (a2 : Option InstId) {a3 : State} (k3 : Keeps d L s0 a3) (m : May 0x1080 L) : Keeps d L s0 (poolAsk a0 a1 a2 a3) := by
  unfold poolAsk
  split
  · rename_i y0 y1 e2
    have h3 : Keeps d L s0 y1 := Keeps.snd_eq e2 (serveFrom_keeps _ _ _ _ k3 (m.sub rfl))
    exact h3
  · rename_i y4 _ y5 e6
    have h7 : Keeps d L s0 y5 := Keeps.snd_eq e6 (serveFrom_keeps _ _ _ _ k3 (m.sub rfl))
    exact bpmCnt_keeps _ _ (modBpm_keeps _ h7 (m.sub rfl)) (m.sub rfl)

theorem serveWaiters_keeps (a0 : Nat) {a1 : State} (k1 : Keeps d L s0 a1) (m : May 0x1080 L) : Keeps d L s0 (serveWaiters a0 a1) := by
  unfold serveWaiters
  refine each_keeps (fun _ _ h0 => ?_) k1
  split
  · rename_i y1 y2 e3
    have h4 : Keeps d L s0 y2 := Keeps.snd_eq e3 (serveFrom_keeps _ _ _ _ h0 (m.sub rfl))
    exact modBpm_keeps _ h4 (m.sub rfl)
  · rename_i y5 _ y6 e7
    have h8 : Keeps d L s0 y6 := Keeps.snd_eq e7 (serveFrom_keeps _ _ _ _ h0 (m.sub rfl))
    exact modBpm_keeps _ h8 (m.sub rfl)

theorem giveBack_keeps (a0 : Nat) (a1 : Nat) {a2 : State} (k2 : Keeps d L s0 a2) (m : May 0x1000 L) : Keeps d L s0 (giveBack a0 a1 a2) := by
  unfold giveBack
  extract_lets z0
  clear_value z0
  exact Keeps.ite (modBpm_keeps _ (modPoolRing_keeps _ _ k2 (m.sub rfl)) (m.sub rfl)) (Keeps.ite (modPoolRing_keeps _ _ k2 (m.sub rfl)) (Keeps.ite (modBpm_keeps _ (modPoolRing_keeps _ _ k2 (m.sub rfl)) (m.sub rfl)) (modPoolRing_keeps _ _ k2 (m.sub rfl))))

theorem releaseBuf_keeps (a0 : Nat) (a1 : Nat) (a2 : Nat) {a3 : State} (k3 : Keeps d L s0 a3) (m : May 0x1080 L) : Keeps d L s0 (releaseBuf a0 a1 a2 a3) := by
  unfold releaseBuf
  extract_lets z0
  have h1 : Keeps d L s0 z0 := by unfold z0; exact modBpm_keeps _ k3 (m.sub rfl)
  clear_value z0
  exact serveWaiters_keeps _ (giveBack_keeps _ _ h1 (m.sub rfl)) (m.sub rfl)

theorem poolGive_keeps (a0 : Nat) (a1 : Nat) (a2 : Nat) {a3 : State} (k3 : Keeps d L s0 a3) (m : May 0x3581 L) : Keeps d L s0 (poolGive a0 a1 a2 a3) := by
  unfold poolGive
  extract_lets z0
  have h1 : ∀ x0 x1, Keeps d L s0 x1 → Keeps d L s0 (z0 x0 x1) := by
    intro x0 x1 h2
    unfold z0
    exact logEvent'_keeps _ _ _ _ _ _ _ (bpmCnt_keeps _ _ h2 (m.sub rfl)) (m.sub rfl)
  clear_value z0
  split
  · exact h1 _ _ k3
  · extract_lets z3
    clear_value z3
    exact Keeps.ite k3 (Keeps.ite (logEvent'_keeps _ _ _ _ _ _ _ (bpmCnt_keeps _ _ k3 (m.sub rfl)) (m.sub rfl)) (Keeps.ite (h1 _ _ k3) (releaseBuf_keeps _ _ _ k3 (m.sub rfl))))

theorem freeOwned_keeps (a0 : InstId → Bool) {a1 : State} (k1 : Keeps d L s0 a1) (m : May 0x1080 L) : Keeps d L s0 (freeOwned a0 a1) := by
  unfold freeOwned
  extract_lets z0
  have h1 : Keeps d L s0 z0 := by unfold z0; exact modBpm_keeps _ k1 (m.sub rfl)
  clear_value z0
  exact each_keeps (fun _ _ h2 => releaseBuf_keeps _ _ _ h2 (m.sub rfl)) h1

theorem freeAllOf_keeps (a0 : Nat) {a1 : State} (k1 : Keeps d L s0 a1) (m : May 0x1080 L) : Keeps d L s0 (freeAllOf a0 a1) := by
  unfold freeAllOf
  extract_lets z0
  have h1 : Keeps d L s0 z0 := by unfold z0; exact modBpm_keeps _ k1 (m.sub rfl)
  clear_value z0
  exact each_keeps (fun _ _ h2 => releaseBuf_keeps _ _ _ h2 (m.sub rfl)) h1

theorem poolsLoseStack_keeps (a0 : Nat) {a1 : State} (k1 : Keeps d L s0 a1) (m : May 0x1000 L) : Keeps d L s0 (poolsLoseStack a0 a1) := by
  unfold poolsLoseStack
  refine each_keeps (fun _ _ h0 => ?_) k1
  extract_lets z1 z2 z3 z4 z5 z6 z7 z8
  clear_value z1 z2 z3 z4 z5 z6 z7 z8
  exact Keeps.ite h0 (modBpm_keeps _ (modPoolRing_keeps _ _ h0 (m.sub rfl)) (m.sub rfl))

theorem poolsLoseDie_keeps (a0 : Nat) {a1 : State} (k1 : Keeps d L s0 a1) (m : May 0x1000 L) : Keeps d L s0 (poolsLoseDie a0 a1) := by
  unfold poolsLoseDie
  extract_lets z0
  have h1 : Keeps d L s0 z0 := by unfold z0; exact modBpm_keeps _ k1 (m.sub rfl)
  clear_value z0
  exact each_keeps (fun _ _ h2 => modPoolRing_keeps _ _ h2 (m.sub rfl)) h1

theorem rebuildRing_keeps (a0 : Nat) {a1 : State} (k1 : Keeps d L s0 a1) (m : May 0x3581 L) : Keeps d L s0 (rebuildRing a0 a1) := by
  unfold rebuildRing
  extract_lets z0 z1
  clear_value z0 z1
  refine Keeps.ite k1 ?_
  split
  · extract_lets z2
    have h3 : Keeps d L s0 z2 := by unfold z2; exact modPoolRing_keeps _ _ k1 (m.sub rfl)
    clear_value z2
    exact logEvent_keeps _ _ _ _ h3 (m.sub rfl)
  · exact modPoolRing_keeps _ _ k1 (m.sub rfl)

theorem execRingRebuilt_keeps (a0 : Fin 11) {a1 : State} (k1 : Keeps d L s0 a1) (m : May 0x3581 L) : KeepsO d L s0 (execRingRebuilt a0 a1) := by
  unfold execRingRebuilt
  exact KeepsO.next (Keeps.ite (rebuildRing_keeps _ k1 (m.sub rfl)) k1)

theorem execPoolRequest_keeps (a0 : Fin 52) (a1 : Nat) {a2 : State} (k2 : Keeps d L s0 a2) (m : May 0x1080 L) : KeepsO d L s0 (execPoolRequest a0 a1 a2) := by
  unfold execPoolRequest
  exact KeepsO.next (Keeps.ite (poolAsk_keeps _ _ _ k2 (m.sub rfl)) k2)

theorem execPoolFree_keeps (a0 : Fin 52) (a1 : Fin 5) (a2 : BitVec 14) {a3 : State} (k3 : Keeps d L s0 a3) (m : May 0x3581 L) :
    KeepsO d L s0 (execPoolFree a0 a1 a2 a3) := by
  unfold execPoolFree
  exact KeepsO.next (Keeps.ite (poolGive_keeps _ _ _ k3 (m.sub rfl)) k3)

theorem batchLost_keeps (a0 : Nat) (a1 : CwResult) {a2 : State} (k2 : Keeps d L s0 a2) (m : May 0x1000 L) : Keeps d L s0 (batchLost a0 a1 a2) := by
  unfold batchLost
  extract_lets z0
  clear_value z0
  exact Keeps.ite (modPoolRing_keeps _ _ k2 (m.sub rfl)) k2

theorem execCacheRefill_keeps (a0 : Fin 11) (a1 : CwResult) {a2 : State} (k2 : Keeps d L s0 a2) (m : May 0x10003583 L) : KeepsO d L s0 (execCacheRefill a0 a1 a2) := by
  unfold execCacheRefill
  extract_lets z0 z1
  clear_value z0 z1
  refine KeepsO.next ?_
  refine Keeps.ite k2 ?_
  refine Keeps.ite (refill_keeps _ _ k2 (m.sub rfl)) ?_
  split
  · rename_i y2 _ y3 e4
    have h5 : Keeps d L s0 y3 := Keeps.snd_eq e4 (cwRead_keeps _ _ _ _ _ k2 (m.sub rfl))
    exact refill_keeps _ _ (batchLost_keeps _ _ (cwWritten_keeps _ _ _ h5 (m.sub rfl)) (m.sub rfl)) (m.sub rfl)

theorem execCacheWriteback_keeps (a0 : Fin 11) {a1 : State} (k1 : Keeps d L s0 a1) (m : May 0x1000 L) : KeepsO d L s0 (execCacheWriteback a0 a1) := by
  unfold execCacheWriteback
  exact KeepsO.next (Keeps.ite k1 (modPoolRing_keeps _ _ k1 (m.sub rfl)))

theorem bpmSnap_keeps {a0 : State} (k0 : Keeps d L s0 a0) (m : May 0x3581 L) : Keeps d L s0 (bpmSnap a0) := by
  unfold bpmSnap
  extract_lets z0 z1
  have h2 : Keeps d L s0 z0 := by unfold z0; exact each_keeps (fun _ _ h3 => modPoolRing_keeps _ _ h3 (m.sub rfl)) k0
  clear_value z0
  have h4 : Keeps d L s0 z1 := by unfold z1; exact modBpm_keeps _ h2 (m.sub rfl)
  clear_value z1
  exact Keeps.ite h4 (logEvent_keeps _ _ _ _ (modBpm_keeps _ h4 (m.sub rfl)) (m.sub rfl))

theorem execBpmSnap_keeps {a0 : State} (k0 : Keeps d L s0 a0) (m : May 0x3581 L) : KeepsO d L s0 (execBpmSnap a0) := by
  unfold execBpmSnap
  exact KeepsO.next (Keeps.ite (bpmSnap_keeps k0 (m.sub rfl)) k0)

/-! ## Groups -/

theorem sendMany_keeps (a0 : Ctx) (a1 : Hdr) (a2 : List Byte) (a3 : List Nat) {a4 : State} (k4 : Keeps d L s0 a4) (m : May 0xcb0081 L) :
    Keeps d L s0 (sendMany a0 a1 a2 a3 a4) := by
  unfold sendMany
  refine each_keeps (fun _ _ h0 => ?_) k4
  extract_lets z1
  clear_value z1
  split
  · exact h0
  · split
    · rename_i y2 _ y3 e4
      have h5 : Keeps d L s0 y3 := Keeps.snd_eq e4 (newPkt_keeps _ _ _ _ _ h0 (m.sub rfl))
      exact toEgress_keeps _ _ _ _ _ _ h5 (m.sub rfl)

theorem sendOne_keeps (a0 : Ctx) (a1 : Hdr) (a2 : List Byte) (a3 : Nat) {a4 : State} (k4 : Keeps d L s0 a4) (m : May 0xcb0081 L) :
    Keeps d L s0 (sendOne a0 a1 a2 a3 a4) := by
  unfold sendOne
  split
  · rename_i y0 _ y1 e2
    have h3 : Keeps d L s0 y1 := Keeps.snd_eq e2 (newPkt_keeps _ _ _ _ _ k4 (m.sub rfl))
    exact toEgress_keeps _ _ _ _ _ _ h3 (m.sub rfl)

theorem ctrlDown_keeps (a0 : Ctx) (a1 : Nat) (a2 : Nat) (a3 : Nat) (a4 : Nat) (a5 : List Byte) {a6 : State} (k6 : Keeps d L s0 a6) (m : May 0xcb0081 L) :
    Keeps d L s0 (ctrlDown a0 a1 a2 a3 a4 a5 a6) := by
  unfold ctrlDown
  extract_lets z0
  clear_value z0
  exact sendMany_keeps _ _ _ _ k6 (m.sub rfl)

theorem ctrlUp_keeps (a0 : Ctx) (a1 : Nat) (a2 : Nat) (a3 : Nat) (a4 : Nat) (a5 : List Byte) {a6 : State} (k6 : Keeps d L s0 a6) (m : May 0xcb0081 L) :
    Keeps d L s0 (ctrlUp a0 a1 a2 a3 a4 a5 a6) := by
  unfold ctrlUp
  split
  · extract_lets z0
    clear_value z0
    exact sendOne_keeps _ _ _ _ k6 (m.sub rfl)
  · exact k6

theorem answerLeader_keeps (a0 : Ctx) (a1 : Nat) (a2 : Detail) (a3 : StepNo) {a4 : State} (k4 : Keeps d L s0 a4) (m : May 0xcb0081 L) :
    Keeps d L s0 (answerLeader a0 a1 a2 a3 a4) := by
  unfold answerLeader
  split
  · extract_lets z0
    clear_value z0
    exact sendOne_keeps _ _ _ _ k4 (m.sub rfl)
  · exact k4

theorem sendWindows_keeps (a0 : Nat) (a1 : Bool) {a2 : State} (k2 : Keeps d L s0 a2) (m : May 0x4cb0081 L) : Keeps d L s0 (sendWindows a0 a1 a2) := by
  unfold sendWindows
  split
  · exact k2
  · refine each_keeps (fun _ _ h0 => ?_) k2
    extract_lets z1
    clear_value z1
    exact Keeps.ite (ctrlDown_keeps _ _ _ _ _ _ (modCtx_keeps _ _ h0 (m.sub rfl)) (m.sub rfl)) h0

theorem unhalt_keeps (a0 : Nat) {a1 : State} (k1 : Keeps d L s0 a1) (m : May 0x6000000 L) : Keeps d L s0 (unhalt a0 a1) := by
  unfold unhalt
  extract_lets z0
  clear_value z0
  split
  · exact k1
  · exact modCtx_keeps _ _ (modRed_keeps _ _ k1 (m.sub rfl)) (m.sub rfl)

theorem sweepInsts_keeps (a0 : Nat) {a1 : State} (k1 : Keeps d L s0 a1) (m : May 0x6001080 L) : Keeps d L s0 (sweepInsts a0 a1) := by
  unfold sweepInsts
  extract_lets z0 z1
  clear_value z0
  have h2 : Keeps d L s0 z1 := by unfold z1; exact each_keeps (fun _ _ h3 => Keeps.ite (unhalt_keeps _ h3 (m.sub rfl)) h3) k1
  clear_value z1
  exact freeOwned_keeps _ h2 (m.sub rfl)

theorem freeCtx_keeps (a0 : Nat) {a1 : State} (k1 : Keeps d L s0 a1) (m : May 0x6081080 L) : Keeps d L s0 (freeCtx a0 a1) := by
  unfold freeCtx
  split
  · exact k1
  · extract_lets z0 z1
    have h2 : Keeps d L s0 z0 := by unfold z0; exact each_keeps (fun _ _ h3 => modSwc_keeps _ _ h3 (m.sub rfl)) k1
    clear_value z0
    have h4 : Keeps d L s0 z1 := by unfold z1; exact iff_keeps _ (fun _ h5 => modRed_keeps _ _ h5 (m.sub rfl)) h2
    clear_value z1
    exact sweepInsts_keeps _ (setCtx_keeps _ _ h4 (m.sub rfl)) (m.sub rfl)

theorem freeIfDeleting_keeps (a0 : Nat) {a1 : State} (k1 : Keeps d L s0 a1) (m : May 0x6081080 L) : Keeps d L s0 (freeIfDeleting a0 a1) := by
  unfold freeIfDeleting
  split
  · exact Keeps.ite (freeCtx_keeps _ k1 (m.sub rfl)) k1
  · exact k1

theorem closeStep_keeps (a0 : Nat) (a1 : StepNo) (a2 : Nat) (a3 : Detail) (a4 : Option (Byte × BitVec 64)) {a5 : State} (k5 : Keeps d L s0 a5) (m : May 0x6cb1081 L) :
    Keeps d L s0 (closeStep a0 a1 a2 a3 a4 a5) := by
  unfold closeStep
  split
  · exact k5
  · extract_lets z0
    have h1 : Keeps d L s0 z0 := by unfold z0; exact redCnt_keeps _ _ _ k5 (m.sub rfl)
    clear_value z0
    exact sendWindows_keeps _ _ (sweepInsts_keeps _ (modCtx_keeps _ _ h1 (m.sub rfl)) (m.sub rfl)) (m.sub rfl)

theorem sendEnd_keeps (a0 : Ctx) (a1 : Step) (a2 : Nat) (a3 : Detail) {a4 : State} (k4 : Keeps d L s0 a4) (m : May 0xcb0081 L) : Keeps d L s0 (sendEnd a0 a1 a2 a3 a4) := by
  unfold sendEnd
  exact ctrlDown_keeps _ _ _ _ _ _ k4 (m.sub rfl)

theorem endStep_keeps (a0 : Nat) (a1 : StepNo) (a2 : Nat) (a3 : Detail) (a4 : Option (Byte × BitVec 64)) {a5 : State} (k5 : Keeps d L s0 a5) (m : May 0x6cb1081 L) :
    Keeps d L s0 (endStep a0 a1 a2 a3 a4 a5) := by
  unfold endStep
  split
  · exact k5
  · exact freeIfDeleting_keeps _ (closeStep_keeps _ _ _ _ _ (iff_keeps _ (fun _ h0 => sendEnd_keeps _ _ _ _ h0 (m.sub rfl)) k5) (m.sub rfl)) (m.sub rfl)

theorem releaseEnd_keeps (a0 : Nat) (a1 : StepNo) {a2 : State} (k2 : Keeps d L s0 a2) (m : May 0x6cb1081 L) : Keeps d L s0 (releaseEnd a0 a1 a2) := by
  unfold releaseEnd
  split
  · extract_lets z0
    have h1 : Keeps d L s0 z0 := by unfold z0; exact sendEnd_keeps _ _ _ _ k2 (m.sub rfl)
    clear_value z0
    exact freeIfDeleting_keeps _ (modCtx_keeps _ _ h1 (m.sub rfl)) (m.sub rfl)
  · exact k2

theorem failStep_keeps (a0 : Nat) (a1 : StepNo) (a2 : Nat) (a3 : Detail) {a4 : State} (k4 : Keeps d L s0 a4) (m : May 0x6cb1081 L) :
    Keeps d L s0 (failStep a0 a1 a2 a3 a4) := by
  unfold failStep
  split
  · exact k4
  · extract_lets z0 z1 z2
    clear_value z0
    have h3 : Keeps d L s0 z1 := by unfold z1; exact modCtx_keeps _ _ k4 (m.sub rfl)
    clear_value z1
    have h4 : Keeps d L s0 z2 := by unfold z2; exact iff_keeps _ (fun _ h5 => modCtx_keeps _ _ h5 (m.sub rfl)) h3
    clear_value z2
    exact Keeps.ite (endStep_keeps _ _ _ _ _ k4 (m.sub rfl)) (Keeps.ite k4 (ctrlUp_keeps _ _ _ _ _ _ (sweepInsts_keeps _ h4 (m.sub rfl)) (m.sub rfl)))

theorem closeOk_keeps (a0 : Nat) (a1 : StepNo) {a2 : State} (k2 : Keeps d L s0 a2) (m : May 0x6cb1081 L) : Keeps d L s0 (closeOk a0 a1 a2) := by
  unfold closeOk
  split
  · exact k2
  · extract_lets z0 z1 z2 z3
    clear_value z0 z1 z2 z3
    exact endStep_keeps _ _ _ _ _ (iff_keeps _ (fun _ h4 => redCnt_keeps _ _ _ h4 (m.sub rfl)) k2) (m.sub rfl)

theorem failStraggler_keeps (a0 : Nat) (a1 : StepNo) (a2 : Nat) {a3 : State} (k3 : Keeps d L s0 a3) (m : May 0x6cb3581 L) : Keeps d L s0 (failStraggler a0 a1 a2 a3) := by
  unfold failStraggler
  split
  · exact k3
  · split
    · exact k3
    · extract_lets z0 z1 z2 z3 z4 z5 z6
      clear_value z0 z1 z2 z3 z4
      have h7 : Keeps d L s0 z5 := by unfold z5; exact logEvent_keeps _ _ _ _ k3 (m.sub rfl)
      clear_value z5
      have h8 : Keeps d L s0 z6 := by unfold z6; exact redCnt_keeps _ _ _ h7 (m.sub rfl)
      clear_value z6
      exact Keeps.ite k3 (failStep_keeps _ _ _ _ h8 (m.sub rfl))

theorem markStale_keeps (a0 : Nat) {a1 : State} (k1 : Keeps d L s0 a1) (m : May 0x4002581 L) : Keeps d L s0 (markStale a0 a1) := by
  unfold markStale
  split
  · extract_lets z0 z1
    have h2 : Keeps d L s0 z0 := by unfold z0; exact modCtx_keeps _ _ k1 (m.sub rfl)
    clear_value z0
    have h3 : Keeps d L s0 z1 := by unfold z1; exact modCtx_keeps _ _ h2 (m.sub rfl)
    clear_value z1
    exact Keeps.ite (logEvent_keeps _ _ _ _ h3 (m.sub rfl)) k1
  · exact k1

theorem groupsLinkDown_keeps (a0 : Nat) {a1 : State} (k1 : Keeps d L s0 a1) (m : May 0x6cb3581 L) : Keeps d L s0 (groupsLinkDown a0 a1) := by
  unfold groupsLinkDown
  refine each_keeps (fun _ _ h0 => ?_) k1
  split
  · exact h0
  · extract_lets z1
    have h2 : Keeps d L s0 z1 := by unfold z1; exact iff_keeps _ (fun _ h3 => markStale_keeps _ h3 (m.sub rfl)) h0
    clear_value z1
    split
    · exact each_keeps (fun _ _ h4 => failStraggler_keeps _ _ _ h4 (m.sub rfl)) h2
    · refine Keeps.ite ?_ h2
      refine each_keeps (fun _ _ h5 => ?_) h2
      extract_lets z6 z7 z8 z9
      clear_value z6 z7
      have h10 : Keeps d L s0 z8 := by unfold z8; exact logEvent_keeps _ _ _ _ h5 (m.sub rfl)
      clear_value z8
      have h11 : Keeps d L s0 z9 := by unfold z9; exact redCnt_keeps _ _ _ h10 (m.sub rfl)
      clear_value z9
      exact Keeps.ite h5 (failStep_keeps _ _ _ _ h11 (m.sub rfl))

/-! ## Registry -/

theorem stopStep_keeps (n a : Nat) (num : StepNo) {s : State} (h : Keeps d L s0 s) (m : May 0x6cb1081 L) : Keeps d L s0 (stopStep n a num s) := by
  induction n generalizing num s with
  | zero => exact h
  | succ f ih =>
    unfold stopStep
    split
    · exact h
    · split
      · exact freeIfDeleting_keeps _ (ctrlDown_keeps _ _ _ _ _ _ (modCtx_keeps _ _ h (m.sub rfl)) (m.sub rfl)) (m.sub rfl)
      · split
        · split
          · exact endStep_keeps _ _ _ _ _ (modCtx_keeps _ _ h (m.sub rfl)) (m.sub rfl)
          · split
            · exact ih _ h
            · exact modCtx_keeps _ _ h (m.sub rfl)
        · split
          · exact modCtx_keeps _ _ h (m.sub rfl)
          · exact h

theorem rootStop_keeps (a0 : Nat) (a1 : StepNo) {a2 : State} (k2 : Keeps d L s0 a2) (m : May 0x6cb1081 L) : Keeps d L s0 (rootStop a0 a1 a2) := by
  unfold rootStop
  split
  · exact Keeps.ite (modCtx_keeps _ _ k2 (m.sub rfl)) (stopStep_keeps _ _ _ k2 (m.sub rfl))
  · exact k2

theorem discardChunk_keeps (a0 : Nat) {a1 : State} (k1 : Keeps d L s0 a1) (m : May 0x6400000 L) : Keeps d L s0 (discardChunk a0 a1) := by
  unfold discardChunk
  split
  · exact k1
  · refine setPkt_keeps _ _ ?_ (m.sub rfl)
    split
    · extract_lets z0
      clear_value z0
      exact Keeps.ite (redCnt_keeps _ _ _ k1 (m.sub rfl)) (Keeps.ite k1 (modCtx_keeps _ _ k1 (m.sub rfl)))
    · exact k1

theorem deleteLocal_keeps (a0 : GroupId) {a1 : State} (k1 : Keeps d L s0 a1) (m : May 0x6cb1081 L) : Keeps d L s0 (deleteLocal a0 a1) := by
  unfold deleteLocal
  split
  · exact k1
  · split
    · exact k1
    · extract_lets z0 z1 z2
      have h3 : Keeps d L s0 z0 := by unfold z0; exact modCtx_keeps _ _ k1 (m.sub rfl)
      clear_value z0 z1
      have h4 : Keeps d L s0 z2 := by unfold z2; exact iff_keeps _ (fun _ h5 => each_keeps (fun _ _ h6 => rootStop_keeps _ _ h6 (m.sub rfl)) h5) h3
      clear_value z2
      exact Keeps.ite (freeCtx_keeps _ k1 (m.sub rfl)) (freeIfDeleting_keeps _ h4 (m.sub rfl))

theorem deleteGroup_keeps (a0 : Nat) {a1 : State} (k1 : Keeps d L s0 a1) (m : May 0xecb1081 L) : Keeps d L s0 (deleteGroup a0 a1) := by
  unfold deleteGroup
  split
  · exact k1
  · extract_lets z0
    have h1 : Keeps d L s0 z0 := by unfold z0; exact modMgr_keeps _ k1 (m.sub rfl)
    clear_value z0
    exact each_keeps (fun _ _ h2 => Keeps.ite (deleteLocal_keeps _ h2 (m.sub rfl)) (emit_keeps _ h2 (m.sub rfl))) h1

theorem serveReg_keeps (a0 : RegReq) {a1 : State} (k1 : Keeps d L s0 a1) (m : May 0x8002581 L) : Keeps d L s0 (serveReg a0 a1).2 := by
  unfold serveReg
  split
  · extract_lets z0
    clear_value z0
    dsimp only
    exact modMgr_keeps _ k1 (m.sub rfl)
  · dsimp only
    exact logMb_keeps _ _ k1 (m.sub rfl)

theorem serveWithdraw_keeps (a0 : RegReq) {a1 : State} (k1 : Keeps d L s0 a1) (m : May 0xecb1081 L) : Keeps d L s0 (serveWithdraw a0 a1) := by
  unfold serveWithdraw
  split
  · extract_lets z0
    have h1 : Keeps d L s0 z0 := by unfold z0; exact modMgr_keeps _ k1 (m.sub rfl)
    clear_value z0
    exact Keeps.ite (each_keeps (fun _ _ h2 => Keeps.ite (deleteGroup_keeps _ h2 (m.sub rfl)) h2) h1) k1
  · exact k1

theorem serveWithdraws_keeps (a0 : List RegReq) {a1 : State} (k1 : Keeps d L s0 a1) (m : May 0xecb1081 L) : Keeps d L s0 (serveWithdraws a0 a1) := by
  unfold serveWithdraws
  exact each_keeps (fun _ _ h0 => serveWithdraw_keeps _ h0 (m.sub rfl)) k1

theorem serveRegs_keeps (a0 : List RegReq) {a1 : State} (k1 : Keeps d L s0 a1) (m : May 0x8002581 L) : Keeps d L s0 (serveRegs a0 a1) := by
  unfold serveRegs
  refine each_keeps (fun _ _ h0 => ?_) k1
  split
  · rename_i y1 _ y2 e3
    have h4 : Keeps d L s0 y2 := Keeps.snd_eq e3 (serveReg_keeps _ h0 (m.sub rfl))
    exact emit_keeps _ h4 (m.sub rfl)

theorem linkTo_keeps (a0 : Nat) (a1 : LinkSt) {a2 : State} (k2 : Keeps d L s0 a2) (m : May 0x30000 L) : Keeps d L s0 (linkTo a0 a1 a2) := by
  unfold linkTo
  extract_lets z0
  have h1 : Keeps d L s0 z0 := by unfold z0; exact each_keeps (fun _ _ h2 => modStrand_keeps _ _ h2 (m.sub rfl)) k2
  clear_value z0
  exact modLink_keeps _ _ h1 (m.sub rfl)

/-! ## Loss -/

theorem domSet_keeps (a0 : Nat) (a1 : Bool) {a2 : State} (k2 : Keeps d L s0 a2) (m : May 0x40 L) : Keeps d L s0 (domSet a0 a1 a2) := by
  unfold domSet
  exact Keeps.ite k2 (modPwr_keeps _ k2 (m.sub rfl))

theorem domsLost_keeps (a0 : List Nat) {a1 : State} (k1 : Keeps d L s0 a1) (m : May 0x40 L) : Keeps d L s0 (domsLost a0 a1) := by
  unfold domsLost
  exact each_keeps (fun _ _ h0 => modPwr_keeps _ (domSet_keeps _ _ h0 (m.sub rfl)) (m.sub rfl)) k1

theorem offAccess_keeps (a0 : Nat) (a1 : Nat) (a2 : Nat) {a3 : State} (k3 : Keeps d L s0 a3) (m : May 0x25c1 L) : Keeps d L s0 (offAccess a0 a1 a2 a3) := by
  unfold offAccess
  exact logEvent'_keeps _ _ _ _ _ _ _ (modPwr_keeps _ k3 (m.sub rfl)) (m.sub rfl)

theorem noteWake_keeps (a0 : Nat) {a1 : State} (k1 : Keeps d L s0 a1) (m : May 0x25c1 L) : Keeps d L s0 (noteWake a0 a1) := by
  unfold noteWake
  exact logEvent_keeps _ _ _ _ (modPwr_keeps _ k1 (m.sub rfl)) (m.sub rfl)

theorem wakeQuiet_keeps {a0 : State} (k0 : Keeps d L s0 a0) (m : May 0x40 L) : Keeps d L s0 (wakeQuiet a0) := by
  unfold wakeQuiet
  exact Keeps.ite (modPwr_keeps _ k0 (m.sub rfl)) k0

theorem discardQueues_keeps (a0 : Nat) {a1 : State} (k1 : Keeps d L s0 a1) (m : May 0x1fbc083 L) : Keeps d L s0 (discardQueues a0 a1) := by
  unfold discardQueues
  exact each_keeps (fun _ _ h0 => each_keeps (fun _ _ h1 => unlink_keeps _ _ (Keeps.ite h1 (swcCnt_keeps _ _ _ (mirrorDrop_keeps _ _ h1 (m.sub rfl)) (m.sub rfl))) (m.sub rfl)) h0) k1

theorem discardBound_keeps (a0 : Nat) {a1 : State} (k1 : Keeps d L s0 a1) (m : May 0x1fbc083 L) : Keeps d L s0 (discardBound a0 a1) := by
  unfold discardBound
  refine each_keeps (fun _ _ h0 => ?_) k1
  extract_lets z1
  clear_value z1
  refine each_keeps (fun _ _ h2 => ?_) h0
  extract_lets z3 z4
  clear_value z3 z4
  exact Keeps.ite (Keeps.ite (dropPkt_keeps _ h2 (m.sub rfl)) (dropEgress_keeps _ _ _ _ h2 (m.sub rfl))) (modSwc_keeps _ _ h2 (m.sub rfl))

theorem cutArrivals_keeps (a0 : Nat) {a1 : State} (k1 : Keeps d L s0 a1) (m : May 0x1fbc083 L) : Keeps d L s0 (cutArrivals a0 a1) := by
  unfold cutArrivals
  refine each_keeps (fun _ _ h0 => ?_) k1
  refine each_keeps (fun _ _ h1 => ?_) h0
  split
  · exact Keeps.ite (modPkt_keeps _ _ h1 (m.sub rfl)) (setStaging_keeps _ _ _ (endPoisoned_keeps _ (modPkt_keeps _ _ h1 (m.sub rfl)) (m.sub rfl)) (m.sub rfl))
  · exact setStaging_keeps _ _ _ h1 (m.sub rfl)

theorem withdrawLink_keeps (a0 : Nat) {a1 : State} (k1 : Keeps d L s0 a1) (m : May 0xecb1081 L) : Keeps d L s0 (withdrawLink a0 a1) := by
  unfold withdrawLink
  extract_lets z0
  clear_value z0
  exact Keeps.ite (Keeps.ite (serveWithdraw_keeps _ k1 (m.sub rfl)) (emit_keeps _ k1 (m.sub rfl))) k1

theorem endService_keeps (a0 : Nat) (a1 : LinkSt) (a2 : DownReason) {a3 : State} (k3 : Keeps d L s0 a3) (m : May 0xffbf583 L) : Keeps d L s0 (endService a0 a1 a2 a3) := by
  unfold endService
  extract_lets z0 z1 z2 z3 z4 z5 z6 z7
  clear_value z0
  have h8 : Keeps d L s0 z1 := by unfold z1; exact withdrawLink_keeps _ k3 (m.sub rfl)
  clear_value z1 z2
  have h9 : Keeps d L s0 z3 := by unfold z3; exact discardBound_keeps _ (discardQueues_keeps _ h8 (m.sub rfl)) (m.sub rfl)
  clear_value z3
  have h10 : Keeps d L s0 z4 := by unfold z4; exact Keeps.set_scheds (s := z3) _ h9 (m.sub rfl)
  clear_value z4
  have h11 : Keeps d L s0 z5 := by unfold z5; exact cutArrivals_keeps _ h10 (m.sub rfl)
  clear_value z5
  have h12 : Keeps d L s0 z6 := by unfold z6; exact each_keeps (fun _ _ h13 => modStrand_keeps _ _ h13 (m.sub rfl)) h11
  clear_value z6
  have h14 : Keeps d L s0 z7 := by unfold z7; exact modLink_keeps _ _ h12 (m.sub rfl)
  clear_value z7
  exact iff_keeps _ (fun _ h15 => groupsLinkDown_keeps _ h15 (m.sub rfl)) (iff_keeps _ (fun _ h16 => raiseVec_keeps _ h16 (m.sub rfl)) h14)

theorem sublinkDown_keeps (a0 : Nat) (a1 : DownReason) {a2 : State} (k2 : Keeps d L s0 a2) (m : May 0xffbf583 L) : Keeps d L s0 (sublinkDown a0 a1 a2) := by
  unfold sublinkDown
  extract_lets z0 z1 z2
  clear_value z0 z1
  have h3 : Keeps d L s0 z2 := by unfold z2; exact endService_keeps _ _ _ k2 (m.sub rfl)
  clear_value z2
  exact iff_keeps _ (fun _ h4 => logEvent_keeps _ _ _ _ h4 (m.sub rfl)) h3

theorem replayAll_keeps (a0 : Nat) {a1 : State} (k1 : Keeps d L s0 a1) (m : May 0x20000 L) : Keeps d L s0 (replayAll a0 a1) := by
  unfold replayAll
  exact modLink_keeps _ _ k1 (m.sub rfl)

theorem retireStrand_keeps (a0 : Nat) {a1 : State} (k1 : Keeps d L s0 a1) (m : May 0xffbf583 L) : Keeps d L s0 (retireStrand a0 a1) := by
  unfold retireStrand
  extract_lets z0 z1 z2 z3
  clear_value z0 z1
  have h4 : Keeps d L s0 z2 := by unfold z2; exact modStrand_keeps _ _ k1 (m.sub rfl)
  clear_value z2
  have h5 : Keeps d L s0 z3 := by unfold z3; exact logEvent_keeps _ _ _ _ h4 (m.sub rfl)
  clear_value z3
  exact Keeps.ite k1 (Keeps.ite (sublinkDown_keeps _ _ h5 (m.sub rfl)) (replayAll_keeps _ h5 (m.sub rfl)))

theorem portsDown_keeps (a0 : List Nat) (a1 : DownReason) {a2 : State} (k2 : Keeps d L s0 a2) (m : May 0xffbf583 L) : Keeps d L s0 (portsDown a0 a1 a2) := by
  unfold portsDown
  exact each_keeps (fun _ _ h0 => each_keeps (fun _ _ h1 => sublinkDown_keeps _ _ h1 (m.sub rfl)) h0) k2

theorem dropBound_keeps (a0 : Nat) {a1 : State} (k1 : Keeps d L s0 a1) (m : May 0x17a0000 L) : Keeps d L s0 (dropBound a0 a1) := by
  unfold dropBound
  refine each_keeps (fun _ _ h0 => ?_) k1
  extract_lets z1 z2 z3
  clear_value z1 z2
  have h4 : Keeps d L s0 z3 := by unfold z3; exact each_keeps (fun _ _ h5 => dropPkt_keeps _ (swcCnt_keeps _ _ _ h5 (m.sub rfl)) (m.sub rfl)) h0
  clear_value z3
  exact modSwc_keeps _ _ h4 (m.sub rfl)

theorem loseGlade_keeps (a0 : Nat) {a1 : State} (k1 : Keeps d L s0 a1) (m : May 0x17a0000 L) : Keeps d L s0 (loseGlade a0 a1) := by
  unfold loseGlade
  extract_lets z0 z1 z2 z3
  clear_value z0
  have h4 : Keeps d L s0 z1 := by unfold z1; exact each_keeps (fun _ _ h5 => dropPkt_keeps _ h5 (m.sub rfl)) k1
  clear_value z1
  have h6 : Keeps d L s0 z2 := by unfold z2; exact each_keeps (fun _ _ h7 => dropPkt_keeps _ h7 (m.sub rfl)) h4
  clear_value z2
  have h8 : Keeps d L s0 z3 := by unfold z3; exact each_keeps (fun _ _ h9 => setPkt_keeps _ _ h9 (m.sub rfl)) h6
  clear_value z3
  exact modSwc_keeps _ _ h8 (m.sub rfl)

theorem fenceDie_keeps (a0 : Nat) {a1 : State} (k1 : Keeps d L s0 a1) (m : May 0xffbf5e3 L) : Keeps d L s0 (fenceDie a0 a1) := by
  unfold fenceDie
  extract_lets z0 z1 z2 z3 z4
  have h5 : Keeps d L s0 z0 := by unfold z0; exact logEvent_keeps _ _ _ _ k1 (m.sub rfl)
  clear_value z0
  have h6 : Keeps d L s0 z1 := by unfold z1; exact modUnits_keeps _ h5 (m.sub rfl)
  clear_value z1
  have h7 : Keeps d L s0 z2 := by unfold z2; exact disarmAt_keeps _ h6 (m.sub rfl)
  clear_value z2
  have h8 : Keeps d L s0 z3 := by unfold z3; exact portsDown_keeps _ _ h7 (m.sub rfl)
  clear_value z3
  have h9 : Keeps d L s0 z4 := by unfold z4; exact loseGlade_keeps _ (dropBound_keeps _ h8 (m.sub rfl)) (m.sub rfl)
  clear_value z4
  exact Keeps.ite k1 (domsLost_keeps _ h9 (m.sub rfl))

theorem loseEngine_keeps (a0 : Nat) {a1 : State} (k1 : Keeps d L s0 a1) (m : May 0xffbf5e3 L) : Keeps d L s0 (loseEngine a0 a1) := by
  unfold loseEngine
  extract_lets z0 z1 z2 z3
  have h4 : Keeps d L s0 z0 := by unfold z0; exact logEvent_keeps _ _ _ _ k1 (m.sub rfl)
  clear_value z0
  have h5 : Keeps d L s0 z1 := by unfold z1; exact modUnits_keeps _ h4 (m.sub rfl)
  clear_value z1
  have h6 : Keeps d L s0 z2 := by unfold z2; exact disarmAt_keeps _ h5 (m.sub rfl)
  clear_value z2
  have h7 : Keeps d L s0 z3 := by unfold z3; exact portsDown_keeps _ _ h6 (m.sub rfl)
  clear_value z3
  exact Keeps.ite k1 (domsLost_keeps _ h7 (m.sub rfl))

end Sys2Proof.Machine
end

