-- ==== Sys2Proof/Laws/KeepsLink.lean ====
section
/-! SUPPORT. What every operation keeps (the relation Keeps), one lemma per operation: the link, its training, fabric time, ingress, egress and clearings. -/

namespace Sys2Proof.Machine

variable {d : Bool} {L : Nat} {s0 : State}

/-! ## Link -/

theorem countSlot_keeps (a0 : Nat) (a1 : Nat) {a2 : State} (k2 : Keeps d L s0 a2) (m : May 0x2000 L) : Keeps d L s0 (countSlot a0 a1 a2) := by
  unfold countSlot
  extract_lets z0
  clear_value z0
  exact each_keeps (fun _ _ h1 => countBytes_keeps _ _ h1 (m.sub rfl)) k2

theorem countFlit_keeps (a0 : Nat) (a1 : Nat) (a2 : Nat) {a3 : State} (k3 : Keeps d L s0 a3) (m : May 0x2000 L) : Keeps d L s0 (countFlit a0 a1 a2 a3) := by
  unfold countFlit
  exact countBytes_keeps _ _ (countBytes_keeps _ _ k3 (m.sub rfl)) (m.sub rfl)

theorem injectCrc_keeps (a0 : Nat) (a1 : Nat) {a2 : State} (k2 : Keeps d L s0 a2) (m : May 0x80 L) : Keeps d L s0 (injectCrc a0 a1 a2).2 := by
  unfold injectCrc
  split
  · rename_i y0 _ y1 e2
    have h3 : Keeps d L s0 y1 := Keeps.snd_eq e2 (injFire_keeps _ _ _ k2 (m.sub rfl))
    exact h3
  · rename_i y4 y5 e6
    have h7 : Keeps d L s0 y5 := Keeps.snd_eq e6 (injFire_keeps _ _ _ k2 (m.sub rfl))
    exact h7

theorem sendFlit_keeps (a0 : Nat) (a1 : Flit) {a2 : State} (k2 : Keeps d L s0 a2) (m : May 0x81 L) : Keeps d L s0 (sendFlit a0 a1 a2) := by
  unfold sendFlit
  split
  · rename_i y0 _ y1 e2
    have h3 : Keeps d L s0 y1 := Keeps.snd_eq e2 (injectCrc_keeps _ _ k2 (m.sub rfl))
    exact emit_keeps _ h3 (m.sub rfl)

theorem sendSlots_keeps (a0 : Nat) {a1 : State} (k1 : Keeps d L s0 a1) (m : May 0x32081 L) : Keeps d L s0 (sendSlots a0 a1) := by
  unfold sendSlots
  extract_lets z0 z1 z2 z3 z4
  have h5 : Keeps d L s0 z0 := by unfold z0; exact modLink_keeps _ _ k1 (m.sub rfl)
  clear_value z0 z1 z2
  have h6 : Keeps d L s0 z3 := by
    unfold z3
    refine each_keeps (fun _ _ h7 => ?_) h5
    refine each_keeps (fun _ _ h8 => ?_) h7
    split
    · rename_i y9 _ y10 e11
      have h12 : Keeps d L s0 y10 := Keeps.snd_eq e11 (injectCrc_keeps _ _ h8 (m.sub rfl))
      exact countBytes_keeps _ _ (emit_keeps _ h12 (m.sub rfl)) (m.sub rfl)
  clear_value z3
  have h13 : Keeps d L s0 z4 := by unfold z4; exact each_keeps (fun _ _ h14 => modStrand_keeps _ _ h14 (m.sub rfl)) h6
  clear_value z4
  exact modLink_keeps _ _ h13 (m.sub rfl)

theorem execControlSlotSend_keeps (a0 : Port) (a1 : Strand) {a2 : State} (k2 : Keeps d L s0 a2) (m : May 0x32081 L) : KeepsO d L s0 (execControlSlotSend a0 a1 a2) := by
  unfold execControlSlotSend
  extract_lets z0
  clear_value z0
  exact KeepsO.next (Keeps.ite (sendSlots_keeps _ k2 (m.sub rfl)) k2)

theorem rotateTx_keeps (a0 : Nat) (a1 : Byte) {a2 : State} (k2 : Keeps d L s0 a2) (m : May 0x18000 L) : Keeps d L s0 (rotateTx a0 a1 a2) := by
  unfold rotateTx
  extract_lets z0 z1 z2 z3
  clear_value z0 z1 z2 z3
  refine Keeps.ite k2 ?_
  split
  · split
    · exact portCnt_keeps _ _ _ (modStrand_keeps _ _ k2 (m.sub rfl)) (m.sub rfl)
    · exact k2
  · exact Keeps.ite (portCnt_keeps _ _ _ (modStrand_keeps _ _ k2 (m.sub rfl)) (m.sub rfl)) k2
  · exact k2

theorem rotateLane_keeps (a0 : Nat) (a1 : Fin 2) {a2 : State} (k2 : Keeps d L s0 a2) (m : May 0x18000 L) : Keeps d L s0 (rotateLane a0 a1 a2) := by
  unfold rotateLane
  extract_lets z0 z1 z2
  clear_value z0 z1 z2
  split
  · exact portCnt_keeps _ _ _ (modStrand_keeps _ _ k2 (m.sub rfl)) (m.sub rfl)
  · exact modStrand_keeps _ _ k2 (m.sub rfl)

theorem rotateDone_keeps (a0 : Nat) {a1 : State} (k1 : Keeps d L s0 a1) (m : May 0x18000 L) : Keeps d L s0 (rotateDone a0 a1) := by
  unfold rotateDone
  refine each_keeps (fun _ _ h0 => ?_) k1
  extract_lets z1
  clear_value z1
  split
  · exact modStrand_keeps _ _ h0 (m.sub rfl)
  · exact rotateLane_keeps _ _ h0 (m.sub rfl)
  · exact h0

theorem enterDoze_keeps (a0 : Nat) {a1 : State} (k1 : Keeps d L s0 a1) (m : May 0x30001 L) : Keeps d L s0 (enterDoze a0 a1) := by
  unfold enterDoze
  extract_lets z0
  have h1 : Keeps d L s0 z0 := by unfold z0; exact each_keeps (fun _ _ h2 => emit_keeps _ (modStrand_keeps _ _ h2 (m.sub rfl)) (m.sub rfl)) k1
  clear_value z0
  exact modLink_keeps _ _ (linkTo_keeps _ _ h1 (m.sub rfl)) (m.sub rfl)

theorem enterDark_keeps (a0 : Nat) {a1 : State} (k1 : Keeps d L s0 a1) (m : May 0xffbf583 L) : Keeps d L s0 (enterDark a0 a1) := by
  unfold enterDark
  extract_lets z0
  have h1 : Keeps d L s0 z0 := by unfold z0; exact each_keeps (fun _ _ h2 => emit_keeps _ (modStrand_keeps _ _ h2 (m.sub rfl)) (m.sub rfl)) k1
  clear_value z0
  exact endService_keeps _ _ _ h1 (m.sub rfl)

theorem ackLow_keeps (a0 : Nat) (a1 : LinkSt) {a2 : State} (k2 : Keeps d L s0 a2) (m : May 0x32081 L) : Keeps d L s0 (ackLow a0 a1 a2) := by
  unfold ackLow
  exact Keeps.ite k2 (sendSlots_keeps _ (modLink_keeps _ _ k2 (m.sub rfl)) (m.sub rfl))

theorem lowPower_keeps (a0 : Nat) {a1 : State} (k1 : Keeps d L s0 a1) (m : May 0xffbf583 L) : Keeps d L s0 (lowPower a0 a1) := by
  unfold lowPower
  extract_lets z0 z1
  clear_value z0
  have h2 : Keeps d L s0 z1 := by unfold z1; exact enterDoze_keeps _ (ackLow_keeps _ _ k1 (m.sub rfl)) (m.sub rfl)
  clear_value z1
  split
  · exact Keeps.ite (iff_keeps _ (fun _ h3 => modLink_keeps _ _ h3 (m.sub rfl)) h2) (modLink_keeps _ _ k1 (m.sub rfl))
  · exact Keeps.ite (iff_keeps _ (fun _ h4 => modLink_keeps _ _ h4 (m.sub rfl)) h2) (modLink_keeps _ _ k1 (m.sub rfl))
  · exact Keeps.ite (enterDark_keeps _ (ackLow_keeps _ _ k1 (m.sub rfl)) (m.sub rfl)) k1
  · exact k1

theorem execControlSlotReceived_keeps (a0 : Port) (a1 : Strand) (a2 : BitVec 2048) {a3 : State} (k3 : Keeps d L s0 a3) (m : May 0xffbf583 L) :
    KeepsO d L s0 (execControlSlotReceived a0 a1 a2 a3) := by
  unfold execControlSlotReceived
  extract_lets z0 z1 z2 z3 z4 z5 z6 z7 z8 z9 z10 z11 z12 z13 z14 z15 z16 z17 z18
  clear_value z0 z1 z2 z3
  have h19 : Keeps d L s0 z4 := by unfold z4; exact countBytes_keeps _ _ k3 (m.sub rfl)
  clear_value z4 z5 z6 z7 z8 z9 z10
  have h20 : Keeps d L s0 z11 := by unfold z11; exact modLink_keeps _ _ h19 (m.sub rfl)
  clear_value z11
  have h21 : Keeps d L s0 z12 := by unfold z12; exact modLink_keeps _ _ h20 (m.sub rfl)
  clear_value z12
  have h22 : Keeps d L s0 z13 := by unfold z13; exact modLink_keeps _ _ h21 (m.sub rfl)
  clear_value z13
  have h23 : Keeps d L s0 z14 := by unfold z14; exact iff_keeps _ (fun _ h24 => modStrand_keeps _ _ h24 (m.sub rfl)) h22
  clear_value z14
  have h25 : Keeps d L s0 z15 := by unfold z15; exact iff_keeps _ (fun _ h26 => replayAll_keeps _ h26 (m.sub rfl)) h23
  clear_value z15
  have h27 : Keeps d L s0 z16 := by unfold z16; exact iff_keeps _ (fun _ h28 => rotateDone_keeps _ h28 (m.sub rfl)) h25
  clear_value z16
  have h29 : Keeps d L s0 z17 := by unfold z17; exact rotateTx_keeps _ _ h27 (m.sub rfl)
  clear_value z17
  have h30 : Keeps d L s0 z18 := by unfold z18; exact each_keeps (fun _ _ h31 => Keeps.ite (retireStrand_keeps _ h31 (m.sub rfl)) h31) h29
  clear_value z18
  exact KeepsO.next (Keeps.ite k3 (Keeps.ite (portCnt_keeps _ _ _ h19 (m.sub rfl)) (Keeps.ite h19 (Keeps.ite h19 (lowPower_keeps _ h30 (m.sub rfl))))))

theorem queueTime_keeps (a0 : Nat) (a1 : Nat) (a2 : TimeMsg) {a3 : State} (k3 : Keeps d L s0 a3) (m : May 0x20000 L) : Keeps d L s0 (queueTime a0 a1 a2 a3) := by
  unfold queueTime
  exact modLink_keeps _ _ k3 (m.sub rfl)

theorem leaveIdle_keeps (a0 : Nat) {a1 : State} (k1 : Keeps d L s0 a1) (m : May 0x30001 L) : Keeps d L s0 (leaveIdle a0 a1) := by
  unfold leaveIdle
  extract_lets z0 z1
  clear_value z0
  have h2 : Keeps d L s0 z1 := by unfold z1; exact each_keeps (fun _ _ h3 => each_keeps (fun _ _ h4 => emit_keeps _ h4 (m.sub rfl)) (emit_keeps _ (modStrand_keeps _ _ h3 (m.sub rfl)) (m.sub rfl))) k1
  clear_value z1
  exact Keeps.ite (linkTo_keeps _ _ (modLink_keeps _ _ h2 (m.sub rfl)) (m.sub rfl)) k1

theorem enterIdle_keeps (a0 : Nat) {a1 : State} (k1 : Keeps d L s0 a1) (m : May 0x30001 L) : Keeps d L s0 (enterIdle a0 a1) := by
  unfold enterIdle
  extract_lets z0
  have h1 : Keeps d L s0 z0 := by unfold z0; exact each_keeps (fun _ _ h2 => emit_keeps _ (modStrand_keeps _ _ h2 (m.sub rfl)) (m.sub rfl)) k1
  clear_value z0
  exact linkTo_keeps _ _ (modLink_keeps _ _ h1 (m.sub rfl)) (m.sub rfl)

theorem setDue_keeps (a0 : Nat) (a1 : BitVec 24) {a2 : State} (k2 : Keeps d L s0 a2) (m : May 0x10000 L) : Keeps d L s0 (setDue a0 a1 a2) := by
  unfold setDue
  exact each_keeps (fun _ _ h0 => modStrand_keeps _ _ h0 (m.sub rfl)) k2

theorem dropKeyless_keeps (k n : Nat) {s : State} (h : Keeps d L s0 s) (m : May 0x1fbc083 L) : Keeps d L s0 (dropKeyless k n s) := by
  induction n generalizing s with
  | zero => exact h
  | succ f ih =>
    unfold dropKeyless
    split
    · refine Keeps.ite ?_ h
      split
      · exact ih (newHead_keeps _ (unlink_keeps _ _ (portCnt_keeps _ _ _ (mirrorDrop_keeps _ _ h (m.sub rfl)) (m.sub rfl)) (m.sub rfl)) (m.sub rfl))
      · exact h
    · exact h

theorem flitLeft_keeps (a0 : Flit) {a1 : State} (k1 : Keeps d L s0 a1) (m : May 0x17a0000 L) : Keeps d L s0 (flitLeft a0 a1) := by
  unfold flitLeft
  split
  · exact k1
  · extract_lets z0 z1
    have h2 : Keeps d L s0 z0 := by unfold z0; exact modPkt_keeps _ _ k1 (m.sub rfl)
    clear_value z0
    have h3 : Keeps d L s0 z1 := by unfold z1; exact modQueue_keeps _ _ h2 (m.sub rfl)
    clear_value z1
    exact Keeps.ite (refresh_keeps _ (unlink_keeps _ _ h3 (m.sub rfl)) (m.sub rfl)) h3

theorem execFlitTransmit_keeps (a0 : Port) (a1 : Strand) {a2 : State} (k2 : Keeps d L s0 a2) (m : May 0x1fbe083 L) : KeepsO d L s0 (execFlitTransmit a0 a1 a2) := by
  unfold execFlitTransmit
  extract_lets z0 z1 z2 z3
  clear_value z0 z1
  have h4 : Keeps d L s0 z2 := by unfold z2; exact countSlot_keeps _ _ k2 (m.sub rfl)
  clear_value z2
  have h5 : Keeps d L s0 z3 := by unfold z3; exact dropKeyless_keeps _ _ h4 (m.sub rfl)
  clear_value z3
  refine KeepsO.next ?_
  refine Keeps.ite k2 ?_
  split
  · extract_lets z6 z7 z8
    clear_value z6 z7
    have h9 : Keeps d L s0 z8 := by unfold z8; exact modLink_keeps _ _ h4 (m.sub rfl)
    clear_value z8
    exact setDue_keeps _ _ (sendFlit_keeps _ _ (portCnt_keeps _ _ _ (countFlit_keeps _ _ _ h9 (m.sub rfl)) (m.sub rfl)) (m.sub rfl)) (m.sub rfl)
  · split
    · extract_lets z10 z11 z12
      clear_value z10 z11
      have h13 : Keeps d L s0 z12 := by unfold z12; exact modLink_keeps _ _ h5 (m.sub rfl)
      clear_value z12
      exact setDue_keeps _ _ (sendFlit_keeps _ _ (countFlit_keeps _ _ _ (flitLeft_keeps _ h13 (m.sub rfl)) (m.sub rfl)) (m.sub rfl)) (m.sub rfl)
    · exact sendFlit_keeps _ _ h5 (m.sub rfl)

theorem dropEntry_keeps (a0 : Nat) (a1 : Nat) (a2 : Nat) {a3 : State} (k3 : Keeps d L s0 a3) (m : May 0x1000000 L) : Keeps d L s0 (dropEntry a0 a1 a2 a3) := by
  unfold dropEntry
  exact setStaging_keeps _ _ _ k3 (m.sub rfl)

theorem endOpen_keeps (a0 : Nat) (a1 : Nat) {a2 : State} (k2 : Keeps d L s0 a2) (m : May 0x1fbc083 L) : Keeps d L s0 (endOpen a0 a1 a2) := by
  unfold endOpen
  extract_lets z0 z1 z2 z3 z4 z5
  clear_value z0 z1 z2 z3
  have h6 : Keeps d L s0 z4 := by unfold z4; exact modLink_keeps _ _ k2 (m.sub rfl)
  clear_value z4
  have h7 : Keeps d L s0 z5 := by unfold z5; exact releaseFlits_keeps _ _ _ h6 (m.sub rfl)
  clear_value z5
  refine Keeps.ite h7 ?_
  split
  · exact dropEntry_keeps _ _ _ (endPoisoned_keeps _ (leaveStaging_keeps _ h7 (m.sub rfl)) (m.sub rfl)) (m.sub rfl)
  · exact h7

theorem framingErr_keeps (a0 : Nat) (a1 : Nat) {a2 : State} (k2 : Keeps d L s0 a2) (m : May 0x1fbc083 L) : Keeps d L s0 (framingErr a0 a1 a2) := by
  unfold framingErr
  extract_lets z0
  have h1 : Keeps d L s0 z0 := by unfold z0; exact portCnt_keeps _ _ _ k2 (m.sub rfl)
  clear_value z0
  exact iff_keeps _ (fun _ h2 => endOpen_keeps _ _ h2 (m.sub rfl)) h1

theorem setFraming_keeps (a0 : Nat) (a1 : Nat) (a2 : Nat) {a3 : State} (k3 : Keeps d L s0 a3) (m : May 0x20000 L) : Keeps d L s0 (setFraming a0 a1 a2 a3) := by
  unfold setFraming
  exact modLink_keeps _ _ k3 (m.sub rfl)

theorem absorbBody_keeps (a0 : Nat) (a1 : Nat) (a2 : Flit) {a3 : State} (k3 : Keeps d L s0 a3) (m : May 0x1fbc083 L) : Keeps d L s0 (absorbBody a0 a1 a2 a3) := by
  unfold absorbBody
  split
  · exact releaseFlits_keeps _ _ _ k3 (m.sub rfl)
  · extract_lets z0 z1 z2
    have h3 : Keeps d L s0 z0 := by unfold z0; exact Keeps.ite k3 (setStaging_keeps _ _ _ k3 (m.sub rfl))
    clear_value z0
    have h4 : Keeps d L s0 z1 := by unfold z1; exact endPoisoned_keeps _ (leaveStaging_keeps _ (releaseFlits_keeps _ _ _ h3 (m.sub rfl)) (m.sub rfl)) (m.sub rfl)
    clear_value z1
    have h5 : Keeps d L s0 z2 := by unfold z2; exact modPkt_keeps _ _ h3 (m.sub rfl)
    clear_value z2
    split
    · exact releaseFlits_keeps _ _ _ h3 (m.sub rfl)
    · exact releaseFlits_keeps _ _ _ h3 (m.sub rfl)
    · exact releaseFlits_keeps _ _ _ h3 (m.sub rfl)
    · exact releaseFlits_keeps _ _ _ h3 (m.sub rfl)
    · exact Keeps.ite (setStage_keeps _ _ _ _ h4 (m.sub rfl)) (iff_keeps _ (fun _ h6 => releaseFlits_keeps _ _ _ h6 (m.sub rfl)) h5)

theorem acceptFlit_keeps (a0 : Nat) (a1 : Flit) {a2 : State} (k2 : Keeps d L s0 a2) (m : May 0x1fbc083 L) : Keeps d L s0 (acceptFlit a0 a1 a2) := by
  unfold acceptFlit
  extract_lets z0 z1
  clear_value z0
  have h2 : Keeps d L s0 z1 := by unfold z1; exact modLink_keeps _ _ k2 (m.sub rfl)
  clear_value z1
  exact Keeps.ite (releaseFlits_keeps _ _ _ h2 (m.sub rfl)) (Keeps.ite (absorbBody_keeps _ _ _ h2 (m.sub rfl)) (modLink_keeps _ _ h2 (m.sub rfl)))

theorem frameFlit_keeps (a0 : Nat) (a1 : Flit) {a2 : State} (k2 : Keeps d L s0 a2) (m : May 0x1fbc083 L) : Keeps d L s0 (frameFlit a0 a1 a2) := by
  unfold frameFlit
  extract_lets z0 z1 z2 z3
  clear_value z0 z1
  have h4 : ∀ x0, Keeps d L s0 x0 → Keeps d L s0 (z3 x0) := by
    intro x0 h5
    unfold z3
    exact releaseFlits_keeps _ _ _ (modLink_keeps _ _ h5 (m.sub rfl)) (m.sub rfl)
  clear_value z3
  split
  · exact Keeps.ite (h4 _ (setFraming_keeps _ _ _ (framingErr_keeps _ _ k2 (m.sub rfl)) (m.sub rfl))) (Keeps.ite (acceptFlit_keeps _ _ (setFraming_keeps _ _ _ k2 (m.sub rfl)) (m.sub rfl)) (h4 _ (setFraming_keeps _ _ _ (framingErr_keeps _ _ k2 (m.sub rfl)) (m.sub rfl))))
  · exact Keeps.ite (h4 _ (setFraming_keeps _ _ _ (framingErr_keeps _ _ k2 (m.sub rfl)) (m.sub rfl))) (Keeps.ite (acceptFlit_keeps _ _ (setFraming_keeps _ _ _ k2 (m.sub rfl)) (m.sub rfl)) (h4 _ (setFraming_keeps _ _ _ (framingErr_keeps _ _ k2 (m.sub rfl)) (m.sub rfl))))
  · exact Keeps.ite (h4 _ (framingErr_keeps _ _ k2 (m.sub rfl))) (Keeps.ite (Keeps.ite (acceptFlit_keeps _ _ k2 (m.sub rfl)) (h4 _ (setFraming_keeps _ _ _ (framingErr_keeps _ _ k2 (m.sub rfl)) (m.sub rfl)))) (h4 _ k2))
  · exact Keeps.ite (h4 _ (framingErr_keeps _ _ k2 (m.sub rfl))) (Keeps.ite (Keeps.ite (acceptFlit_keeps _ _ (setFraming_keeps _ _ _ k2 (m.sub rfl)) (m.sub rfl)) (h4 _ (setFraming_keeps _ _ _ (framingErr_keeps _ _ k2 (m.sub rfl)) (m.sub rfl)))) (h4 _ (setFraming_keeps _ _ _ k2 (m.sub rfl))))
  · exact h4 _ (setFraming_keeps _ _ _ (framingErr_keeps _ _ k2 (m.sub rfl)) (m.sub rfl))

theorem discardFlit_keeps (a0 : Nat) (a1 : Flit) {a2 : State} (k2 : Keeps d L s0 a2) (m : May 0x1fbc083 L) : Keeps d L s0 (discardFlit a0 a1 a2) := by
  unfold discardFlit
  extract_lets z0 z1 z2 z3
  clear_value z0 z1 z2
  have h4 : Keeps d L s0 z3 := by unfold z3; exact Keeps.ite k2 (framingErr_keeps _ _ k2 (m.sub rfl))
  clear_value z3
  exact setFraming_keeps _ _ _ h4 (m.sub rfl)

theorem nak_keeps (a0 : Nat) {a1 : State} (k1 : Keeps d L s0 a1) (m : May 0x28000 L) : Keeps d L s0 (nak a0 a1) := by
  unfold nak
  extract_lets z0
  clear_value z0
  exact Keeps.ite k1 (portCnt_keeps _ _ _ (modLink_keeps _ _ k1 (m.sub rfl)) (m.sub rfl))

theorem noteCorrected_keeps (a0 : Nat) (a1 : Nat) {a2 : State} (k2 : Keeps d L s0 a2) (m : May 0x10000 L) : Keeps d L s0 (noteCorrected a0 a1 a2) := by
  unfold noteCorrected
  extract_lets z0
  clear_value z0
  exact modStrand_keeps _ _ k2 (m.sub rfl)

theorem decodeWord_keeps (a0 : Nat) (a1 : List (Fin 544)) {a2 : State} (k2 : Keeps d L s0 a2) (m : May 0x18000 L) : Keeps d L s0 (decodeWord a0 a1 a2) := by
  unfold decodeWord
  extract_lets z0
  clear_value z0
  refine Keeps.ite ?_ (portCnt_keeps _ _ _ k2 (m.sub rfl))
  refine each_keeps (fun _ _ h1 => ?_) (portCnt_keeps _ _ _ k2 (m.sub rfl))
  split
  · exact noteCorrected_keeps _ _ h1 (m.sub rfl)
  · exact h1

theorem execFlitReceived_keeps (a0 : Port) (a1 : Strand) (a2 : BitVec 2048) (a3 : List (Fin 544)) (a4 : Bool) {a5 : State} (k5 : Keeps d L s0 a5) (m : May 0x1fbe083 L) :
    KeepsO d L s0 (execFlitReceived a0 a1 a2 a3 a4 a5) := by
  unfold execFlitReceived
  extract_lets z0 z1 z2 z3 z4 z5 z6 z7
  clear_value z0 z1 z2 z3
  have h8 : Keeps d L s0 z4 := by unfold z4; exact iff_keeps _ (fun _ h9 => decodeWord_keeps _ _ h9 (m.sub rfl)) (countSlot_keeps _ _ k5 (m.sub rfl))
  clear_value z4
  have h10 : Keeps d L s0 z5 := by unfold z5; exact countFlit_keeps _ _ _ h8 (m.sub rfl)
  clear_value z5
  have h11 : Keeps d L s0 z6 := by unfold z6; exact modLink_keeps _ _ h10 (m.sub rfl)
  clear_value z6
  have h12 : ∀ x0, Keeps d L s0 x0 → Keeps d L s0 (z7 x0) := by
    intro x0 h13
    unfold z7
    exact releaseFlits_keeps _ _ _ (modLink_keeps _ _ h13 (m.sub rfl)) (m.sub rfl)
  clear_value z7
  exact KeepsO.next (Keeps.ite k5 (Keeps.ite (nak_keeps _ h8 (m.sub rfl)) (Keeps.ite (nak_keeps _ (portCnt_keeps _ _ _ h8 (m.sub rfl)) (m.sub rfl)) (Keeps.ite h8 (Keeps.ite (nak_keeps _ h10 (m.sub rfl)) (Keeps.ite (discardFlit_keeps _ _ h11 (m.sub rfl)) (Keeps.ite (h12 _ (portCnt_keeps _ _ _ h11 (m.sub rfl))) (Keeps.ite (h12 _ (discardFlit_keeps _ _ h11 (m.sub rfl))) (Keeps.ite (Keeps.ite (acceptFlit_keeps _ _ h11 (m.sub rfl)) (h12 _ (portCnt_keeps _ _ _ h11 (m.sub rfl)))) (frameFlit_keeps _ _ h11 (m.sub rfl)))))))))))

theorem setTrain_keeps (a0 : Nat) (a1 : List Byte) {a2 : State} (k2 : Keeps d L s0 a2) (m : May 0x20000 L) : Keeps d L s0 (setTrain a0 a1 a2) := by
  unfold setTrain
  exact modLink_keeps _ _ k2 (m.sub rfl)

theorem sendRefuse_keeps (a0 : Nat) (a1 : Nat) {a2 : State} (k2 : Keeps d L s0 a2) (m : May 0x32081 L) : Keeps d L s0 (sendRefuse a0 a1 a2) := by
  unfold sendRefuse
  exact sendSlots_keeps _ (setTrain_keeps _ _ k2 (m.sub rfl)) (m.sub rfl)

theorem rewindDue_keeps (a0 : Nat) (a1 : Nat) {a2 : State} (k2 : Keeps d L s0 a2) (m : May 0x10000 L) : Keeps d L s0 (rewindDue a0 a1 a2) := by
  unfold rewindDue
  extract_lets z0
  clear_value z0
  exact each_keeps (fun _ _ h1 => modStrand_keeps _ _ h1 (m.sub rfl)) k2

theorem execAckDeadlineMiss_keeps (a0 : Port) (a1 : Strand) {a2 : State} (k2 : Keeps d L s0 a2) (m : May 0x4ffbf583 L) : KeepsO d L s0 (execAckDeadlineMiss a0 a1 a2) := by
  unfold execAckDeadlineMiss
  extract_lets z0 z1 z2 z3 z4 z5 z6 z7
  clear_value z0 z1 z2 z3 z4 z5
  have h8 : Keeps d L s0 z6 := by unfold z6; exact rewindDue_keeps _ _ (replayAll_keeps _ (clockTo_keeps _ k2 (m.sub rfl)) (m.sub rfl)) (m.sub rfl)
  clear_value z6
  have h9 : Keeps d L s0 z7 := by unfold z7; exact iff_keeps _ (fun _ h10 => portCnt_keeps _ _ _ h10 (m.sub rfl)) h8
  clear_value z7
  refine KeepsO.next ?_
  refine Keeps.ite k2 ?_
  refine each_keeps (fun _ _ h11 => ?_) h9
  extract_lets z12
  have h13 : Keeps d L s0 z12 := by unfold z12; exact modStrand_keeps _ _ h11 (m.sub rfl)
  clear_value z12
  exact Keeps.ite (retireStrand_keeps _ h13 (m.sub rfl)) h13

theorem settle_keeps (a0 : Nat) {a1 : State} (k1 : Keeps d L s0 a1) (m : May 0x30000 L) : Keeps d L s0 (settle a0 a1) := by
  unfold settle
  extract_lets z0 z1 z2 z3 z4
  clear_value z0 z1 z2
  have h5 : Keeps d L s0 z3 := by unfold z3; exact iff_keeps _ (fun _ h6 => each_keeps (fun _ _ h7 => modStrand_keeps _ _ h7 (m.sub rfl)) h6) k1
  clear_value z3
  have h8 : Keeps d L s0 z4 := by unfold z4; exact iff_keeps _ (fun _ h9 => modLink_keeps _ _ h9 (m.sub rfl)) h5
  clear_value z4
  exact Keeps.ite (modLink_keeps _ _ k1 (m.sub rfl)) (Keeps.ite k1 (modLink_keeps _ _ h8 (m.sub rfl)))

theorem strandToStart_keeps (a0 : Nat) {a1 : State} (k1 : Keeps d L s0 a1) (m : May 0x30000 L) : Keeps d L s0 (strandToStart a0 a1) := by
  unfold strandToStart
  extract_lets z0
  have h1 : Keeps d L s0 z0 := by unfold z0; exact modStrand_keeps _ _ k1 (m.sub rfl)
  clear_value z0
  exact Keeps.ite h1 (settle_keeps _ h1 (m.sub rfl))

theorem execCLossTimeout_keeps (a0 : Port) (a1 : Strand) {a2 : State} (k2 : Keeps d L s0 a2) (m : May 0xffbf583 L) : KeepsO d L s0 (execCLossTimeout a0 a1 a2) := by
  unfold execCLossTimeout
  extract_lets z0 z1 z2
  clear_value z0 z1
  have h3 : Keeps d L s0 z2 := by unfold z2; exact modStrand_keeps _ _ k2 (m.sub rfl)
  clear_value z2
  refine KeepsO.next ?_
  refine Keeps.ite k2 ?_
  split
  · exact Keeps.ite (strandToStart_keeps _ h3 (m.sub rfl)) (retireStrand_keeps _ h3 (m.sub rfl))
  · exact Keeps.ite (strandToStart_keeps _ h3 (m.sub rfl)) (retireStrand_keeps _ h3 (m.sub rfl))
  · exact Keeps.ite (strandToStart_keeps _ h3 (m.sub rfl)) (retireStrand_keeps _ h3 (m.sub rfl))
  · exact Keeps.ite (strandToStart_keeps _ h3 (m.sub rfl)) (retireStrand_keeps _ h3 (m.sub rfl))
  · exact Keeps.ite (strandToStart_keeps _ h3 (m.sub rfl)) (retireStrand_keeps _ h3 (m.sub rfl))
  · exact strandToStart_keeps _ h3 (m.sub rfl)
  · exact strandToStart_keeps _ h3 (m.sub rfl)
  · exact strandToStart_keeps _ h3 (m.sub rfl)
  · exact strandToStart_keeps _ h3 (m.sub rfl)
  · exact strandToStart_keeps _ h3 (m.sub rfl)
  · exact h3
  · exact h3

theorem execRotationRequest_keeps (a0 : Port) (a1 : Strand) (a2 : Fin 2) (a3 : Bool) {a4 : State} (k4 : Keeps d L s0 a4) (m : May 0xffbf583 L) :
    KeepsO d L s0 (execRotationRequest a0 a1 a2 a3 a4) := by
  unfold execRotationRequest
  extract_lets z0 z1 z2
  clear_value z0 z1
  have h3 : Keeps d L s0 z2 := by unfold z2; exact logEvent_keeps _ _ _ _ (modStrand_keeps _ _ k4 (m.sub rfl)) (m.sub rfl)
  clear_value z2
  refine KeepsO.next ?_
  refine Keeps.ite k4 ?_
  refine Keeps.ite k4 ?_
  split
  · exact logEvent_keeps _ _ _ _ (modStrand_keeps _ _ k4 (m.sub rfl)) (m.sub rfl)
  · exact Keeps.ite (retireStrand_keeps _ h3 (m.sub rfl)) h3

theorem execRingRecalibrationSchedule_keeps (a0 : Port) (a1 : Strand) (a2 : Fin 2) {a3 : State} (k3 : Keeps d L s0 a3) (m : May 0x12581 L) :
    KeepsO d L s0 (execRingRecalibrationSchedule a0 a1 a2 a3) := by
  unfold execRingRecalibrationSchedule
  extract_lets z0 z1 z2 z3 z4
  clear_value z0 z1 z2 z3 z4
  refine KeepsO.next ?_
  refine Keeps.ite k3 ?_
  refine Keeps.ite ?_ (modStrand_keeps _ _ k3 (m.sub rfl))
  split
  · exact logEvent_keeps _ _ _ _ (modStrand_keeps _ _ k3 (m.sub rfl)) (m.sub rfl)
  · exact k3

theorem execRingRecalibrationDone_keeps (a0 : Port) (a1 : Strand) (a2 : Fin 2) (a3 : Bool) {a4 : State} (k4 : Keeps d L s0 a4) (m : May 0x10000 L) :
    KeepsO d L s0 (execRingRecalibrationDone a0 a1 a2 a3 a4) := by
  unfold execRingRecalibrationDone
  extract_lets z0 z1
  clear_value z0 z1
  exact KeepsO.next (Keeps.ite k4 (Keeps.ite (modStrand_keeps _ _ k4 (m.sub rfl)) (modStrand_keeps _ _ k4 (m.sub rfl))))

/-! ## Training -/

theorem refuseLink_keeps (a0 : Nat) (a1 : Nat) {a2 : State} (k2 : Keeps d L s0 a2) (m : May 0xffbf583 L) : Keeps d L s0 (refuseLink a0 a1 a2) := by
  unfold refuseLink
  exact sublinkDown_keeps _ _ (sendRefuse_keeps _ _ k2 (m.sub rfl)) (m.sub rfl)

theorem regAnswered_keeps (a0 : Nat) (a1 : RegAns) {a2 : State} (k2 : Keeps d L s0 a2) (m : May 0xffbf583 L) : Keeps d L s0 (regAnswered a0 a1 a2) := by
  unfold regAnswered
  extract_lets z0 z1 z2
  clear_value z0 z1
  have h3 : Keeps d L s0 z2 := by unfold z2; exact iff_keeps _ (fun _ h4 => logMb_keeps _ _ h4 (m.sub rfl)) k2
  clear_value z2
  refine Keeps.ite k2 ?_
  split
  · exact raiseVec_keeps _ (linkTo_keeps _ _ (modLink_keeps _ _ k2 (m.sub rfl)) (m.sub rfl)) (m.sub rfl)
  · exact raiseVec_keeps _ (linkTo_keeps _ _ (modLink_keeps _ _ h3 (m.sub rfl)) (m.sub rfl)) (m.sub rfl)
  · exact refuseLink_keeps _ _ h3 (m.sub rfl)

theorem registerLink_keeps (a0 : Nat) {a1 : State} (k1 : Keeps d L s0 a1) (m : May 0xffbf583 L) : Keeps d L s0 (registerLink a0 a1) := by
  unfold registerLink
  extract_lets z0 z1
  have h2 : Keeps d L s0 z0 := by unfold z0; exact modLink_keeps _ _ k1 (m.sub rfl)
  clear_value z0 z1
  refine Keeps.ite ?_ (emit_keeps _ h2 (m.sub rfl))
  split
  · rename_i y3 _ y4 e5
    have h6 : Keeps d L s0 y4 := Keeps.snd_eq e5 (serveReg_keeps _ h2 (m.sub rfl))
    exact regAnswered_keeps _ _ h6 (m.sub rfl)

theorem trainFull_keeps (a0 : Nat) {a1 : State} (k1 : Keeps d L s0 a1) (m : May 0x30001 L) : Keeps d L s0 (trainFull a0 a1) := by
  unfold trainFull
  extract_lets z0 z1 z2 z3 z4
  clear_value z0
  have h5 : Keeps d L s0 z1 := by unfold z1; exact iff_keeps _ (fun _ h6 => each_keeps (fun _ _ h7 => modStrand_keeps _ _ h7 (m.sub rfl)) h6) k1
  clear_value z1 z2
  have h8 : Keeps d L s0 z3 := by unfold z3; exact each_keeps (fun _ _ h9 => emit_keeps _ (modStrand_keeps _ _ h9 (m.sub rfl)) (m.sub rfl)) h5
  clear_value z3 z4
  exact modLink_keeps _ _ h8 (m.sub rfl)

theorem execCDetected_keeps (a0 : Port) (a1 : Strand) {a2 : State} (k2 : Keeps d L s0 a2) (m : May 0x30001 L) : KeepsO d L s0 (execCDetected a0 a1 a2) := by
  unfold execCDetected
  extract_lets z0 z1 z2 z3 z4
  clear_value z0 z1
  have h5 : Keeps d L s0 z2 := by unfold z2; exact modStrand_keeps _ _ k2 (m.sub rfl)
  clear_value z2 z3 z4
  refine KeepsO.next ?_
  refine Keeps.ite k2 ?_
  refine Keeps.ite h5 ?_
  refine Keeps.ite (Keeps.ite (modStrand_keeps _ _ h5 (m.sub rfl)) h5) ?_
  split
  · exact Keeps.ite h5 (trainFull_keeps _ h5 (m.sub rfl))
  · exact Keeps.ite (settle_keeps _ (modStrand_keeps _ _ h5 (m.sub rfl)) (m.sub rfl)) h5
  · exact Keeps.ite (settle_keeps _ (modStrand_keeps _ _ h5 (m.sub rfl)) (m.sub rfl)) h5
  · exact Keeps.ite (settle_keeps _ (modStrand_keeps _ _ h5 (m.sub rfl)) (m.sub rfl)) h5
  · exact Keeps.ite (settle_keeps _ (modStrand_keeps _ _ h5 (m.sub rfl)) (m.sub rfl)) h5
  · exact Keeps.ite (settle_keeps _ (modStrand_keeps _ _ h5 (m.sub rfl)) (m.sub rfl)) h5
  · exact h5

theorem storeEq_keeps (a0 : Nat) (a1 : Nat) (a2 : List EqResult) {a3 : State} (k3 : Keeps d L s0 a3) (m : May 0x40000 L) : Keeps d L s0 (storeEq a0 a1 a2 a3) := by
  unfold storeEq
  exact each_keeps (fun _ _ h0 => modOpt_keeps _ _ h0 (m.sub rfl)) k3

theorem rejoinStrand_keeps (a0 : Nat) {a1 : State} (k1 : Keeps d L s0 a1) (m : May 0x10000 L) : Keeps d L s0 (rejoinStrand a0 a1) := by
  unfold rejoinStrand
  extract_lets z0
  clear_value z0
  exact modStrand_keeps _ _ k1 (m.sub rfl)

theorem execTrainingStepDone_keeps (a0 : Port) (a1 : Strand) (a2 : List EqResult) {a3 : State} (k3 : Keeps d L s0 a3) (m : May 0x70000 L) :
    KeepsO d L s0 (execTrainingStepDone a0 a1 a2 a3) := by
  unfold execTrainingStepDone
  extract_lets z0 z1 z2
  clear_value z0 z1 z2
  refine KeepsO.next ?_
  refine Keeps.ite k3 ?_
  refine Keeps.ite ?_ ?_
  · split
    · exact modStrand_keeps _ _ k3 (m.sub rfl)
    · exact modStrand_keeps _ _ (storeEq_keeps _ _ _ k3 (m.sub rfl)) (m.sub rfl)
    · exact rejoinStrand_keeps _ (modStrand_keeps _ _ k3 (m.sub rfl)) (m.sub rfl)
    · exact k3
  · split
    · exact settle_keeps _ (modStrand_keeps _ _ k3 (m.sub rfl)) (m.sub rfl)
    · exact settle_keeps _ (modStrand_keeps _ _ (storeEq_keeps _ _ _ k3 (m.sub rfl)) (m.sub rfl)) (m.sub rfl)
    · exact settle_keeps _ (modStrand_keeps _ _ k3 (m.sub rfl)) (m.sub rfl)
    · exact k3

theorem execTrainingStepTimeout_keeps (a0 : Port) (a1 : Strand) {a2 : State} (k2 : Keeps d L s0 a2) (m : May 0xffbf583 L) :
    KeepsO d L s0 (execTrainingStepTimeout a0 a1 a2) := by
  unfold execTrainingStepTimeout
  extract_lets z0 z1 z2 z3 z4 z5
  clear_value z0 z1 z2 z3
  have h6 : Keeps d L s0 z4 := by unfold z4; exact modStrand_keeps _ _ k2 (m.sub rfl)
  clear_value z4
  have h7 : Keeps d L s0 z5 := by unfold z5; exact modStrand_keeps _ _ h6 (m.sub rfl)
  clear_value z5
  exact KeepsO.next (Keeps.ite k2 (Keeps.ite k2 (Keeps.ite (Keeps.ite (modStrand_keeps _ _ h7 (m.sub rfl)) (sublinkDown_keeps _ _ h7 (m.sub rfl))) (Keeps.ite h6 (settle_keeps _ h6 (m.sub rfl))))))

theorem execTs1_keeps (a0 : Port) (a1 : Strand) (a2 : Byte) (a3 : Byte) (a4 : Byte) (a5 : Byte) {a6 : State} (k6 : Keeps d L s0 a6) (m : May 0x20000 L) :
    KeepsO d L s0 (execTs1 a0 a1 a2 a3 a4 a5 a6) := by
  unfold execTs1
  extract_lets z0
  clear_value z0
  refine KeepsO.next ?_
  refine Keeps.ite k6 ?_
  split
  · exact Keeps.ite k6 (modLink_keeps _ _ k6 (m.sub rfl))
  · exact Keeps.ite k6 (modLink_keeps _ _ k6 (m.sub rfl))
  · exact Keeps.ite k6 (modLink_keeps _ _ k6 (m.sub rfl))
  · exact Keeps.ite k6 (modLink_keeps _ _ k6 (m.sub rfl))
  · exact Keeps.ite k6 (modLink_keeps _ _ k6 (m.sub rfl))
  · exact Keeps.ite k6 (modLink_keeps _ _ k6 (m.sub rfl))
  · exact k6

theorem execTs2_keeps (a0 : Port) (a1 : Strand) (a2 : List (BitVec 16)) (a3 : BitVec 16) (a4 : Byte) {a5 : State} (k5 : Keeps d L s0 a5) (m : May 0xffbf583 L) :
    KeepsO d L s0 (execTs2 a0 a1 a2 a3 a4 a5) := by
  unfold execTs2
  extract_lets z0 z1 z2
  clear_value z0
  have h3 : Keeps d L s0 z1 := by unfold z1; exact modLink_keeps _ _ k5 (m.sub rfl)
  clear_value z1
  have h4 : Keeps d L s0 z2 := by unfold z2; exact modLink_keeps _ _ h3 (m.sub rfl)
  clear_value z2
  refine KeepsO.next ?_
  refine Keeps.ite k5 ?_
  refine Keeps.ite (refuseLink_keeps _ _ k5 (m.sub rfl)) ?_
  refine Keeps.ite (refuseLink_keeps _ _ k5 (m.sub rfl)) ?_
  refine Keeps.ite (setTrain_keeps _ _ (linkTo_keeps _ _ h3 (m.sub rfl)) (m.sub rfl)) ?_
  split
  · exact refuseLink_keeps _ _ h3 (m.sub rfl)
  · exact setTrain_keeps _ _ (linkTo_keeps _ _ h4 (m.sub rfl)) (m.sub rfl)

theorem assigned_keeps (a0 : Nat) {a1 : State} (k1 : Keeps d L s0 a1) (m : May 0xffbf583 L) : Keeps d L s0 (assigned a0 a1) := by
  unfold assigned
  extract_lets z0 z1
  have h2 : Keeps d L s0 z0 := by unfold z0; exact modLink_keeps _ _ k1 (m.sub rfl)
  clear_value z0
  have h3 : Keeps d L s0 z1 := by unfold z1; exact each_keeps (fun _ _ h4 => modStrand_keeps _ _ h4 (m.sub rfl)) h2
  clear_value z1
  exact registerLink_keeps _ (linkTo_keeps _ _ h3 (m.sub rfl)) (m.sub rfl)

theorem execAssignAck_keeps (a0 : Port) (a1 : Strand) (a2 : BitVec 64) {a3 : State} (k3 : Keeps d L s0 a3) (m : May 0xffbf583 L) :
    KeepsO d L s0 (execAssignAck a0 a1 a2 a3) := by
  unfold execAssignAck
  extract_lets z0 z1
  clear_value z0 z1
  exact KeepsO.next (Keeps.ite k3 (Keeps.ite (assigned_keeps _ (modLink_keeps _ _ k3 (m.sub rfl)) (m.sub rfl)) (Keeps.ite (refuseLink_keeps _ _ k3 (m.sub rfl)) (modLink_keeps _ _ k3 (m.sub rfl)))))

theorem execCoord_keeps (a0 : Port) (a1 : Strand) (a2 : Coord) (a3 : BitVec 9) (a4 : BitVec 2) (a5 : Word) {a6 : State} (k6 : Keeps d L s0 a6) (m : May 0xffbf583 L) :
    KeepsO d L s0 (execCoord a0 a1 a2 a3 a4 a5 a6) := by
  unfold execCoord
  extract_lets z0 z1
  clear_value z0 z1
  exact KeepsO.next (Keeps.ite k6 (Keeps.ite (refuseLink_keeps _ _ k6 (m.sub rfl)) (assigned_keeps _ (modLink_keeps _ _ k6 (m.sub rfl)) (m.sub rfl))))

theorem execReady_keeps (a0 : Port) (a1 : Strand) (a2 : Byte) {a3 : State} (k3 : Keeps d L s0 a3) (m : May 0x20000 L) : KeepsO d L s0 (execReady a0 a1 a2 a3) := by
  unfold execReady
  extract_lets z0
  clear_value z0
  exact KeepsO.next (Keeps.ite (modLink_keeps _ _ k3 (m.sub rfl)) k3)

theorem execRefuse_keeps (a0 : Port) (a1 : Strand) (a2 : Byte) {a3 : State} (k3 : Keeps d L s0 a3) (m : May 0xffbf583 L) : KeepsO d L s0 (execRefuse a0 a1 a2 a3) := by
  unfold execRefuse
  extract_lets z0
  clear_value z0
  refine KeepsO.next ?_
  refine Keeps.ite k3 ?_
  split
  · exact k3
  · exact k3
  · exact k3
  · exact sublinkDown_keeps _ _ k3 (m.sub rfl)

theorem execDownRetry_keeps (a0 : Port) (a1 : Strand) {a2 : State} (k2 : Keeps d L s0 a2) (m : May 0x30001 L) : KeepsO d L s0 (execDownRetry a0 a1 a2) := by
  unfold execDownRetry
  extract_lets z0 z1
  clear_value z0 z1
  exact KeepsO.next (Keeps.ite (trainFull_keeps _ k2 (m.sub rfl)) k2)

theorem beginPort_keeps (a0 : Nat) {a1 : State} (k1 : Keeps d L s0 a1) (m : May 0x38001 L) : Keeps d L s0 (beginPort a0 a1) := by
  unfold beginPort
  extract_lets z0
  have h1 : Keeps d L s0 z0 := by unfold z0; exact modPort_keeps _ _ k1 (m.sub rfl)
  clear_value z0
  refine each_keeps (fun _ _ h2 => ?_) h1
  extract_lets z3
  have h4 : Keeps d L s0 z3 := by unfold z3; exact each_keeps (fun _ _ h5 => emit_keeps _ (modStrand_keeps _ _ h5 (m.sub rfl)) (m.sub rfl)) h2
  clear_value z3
  exact modLink_keeps _ _ h4 (m.sub rfl)

theorem toPhase_keeps (a0 : StartPhase) {a1 : State} (k1 : Keeps d L s0 a1) (m : May 0x405 L) : Keeps d L s0 (toPhase a0 a1) := by
  unfold toPhase
  exact raiseVec_keeps _ (modRst_keeps _ (fun _ h => h) k1 (m.sub rfl)) (m.sub rfl)

theorem beginWave_keeps (a0 : Nat) {a1 : State} (k1 : Keeps d L s0 a1) (m : May 0x38405 L) : Keeps d L s0 (beginWave a0 a1) := by
  unfold beginWave
  extract_lets z0 z1
  clear_value z0
  have h2 : Keeps d L s0 z1 := by unfold z1; exact each_keeps (fun _ _ h3 => beginPort_keeps _ h3 (m.sub rfl)) k1
  clear_value z1
  exact iff_keeps _ (fun _ h4 => toPhase_keeps _ h4 (m.sub rfl)) (modRst_keeps _ (fun _ h => h) h2 (m.sub rfl))

theorem execPortWaveBegin_keeps (a0 : Fin 12) {a1 : State} (k1 : Keeps d L s0 a1) (m : May 0x40038405 L) : KeepsO d L s0 (execPortWaveBegin a0 a1) := by
  unfold execPortWaveBegin
  exact KeepsO.next (Keeps.ite (beginWave_keeps _ (clockTo_keeps _ k1 (m.sub rfl)) (m.sub rfl)) k1)

theorem execRegistrationRequest_keeps (a0 : List RegReq) (a1 : List RegReq) {a2 : State} (k2 : Keeps d L s0 a2) (m : May 0xecb3581 L) :
    KeepsO d L s0 (execRegistrationRequest a0 a1 a2) := by
  unfold execRegistrationRequest
  exact KeepsO.next (Keeps.ite (serveRegs_keeps _ (serveWithdraws_keeps _ k2 (m.sub rfl)) (m.sub rfl)) k2)

theorem execRegistrationAnswer_keeps (a0 : Port) (a1 : Strand) (a2 : RegAns) {a3 : State} (k3 : Keeps d L s0 a3) (m : May 0xffbf583 L) :
    KeepsO d L s0 (execRegistrationAnswer a0 a1 a2 a3) := by
  unfold execRegistrationAnswer
  exact KeepsO.next (Keeps.ite (regAnswered_keeps _ _ k3 (m.sub rfl)) k3)

theorem execRegistrationResend_keeps (a0 : Port) (a1 : Strand) {a2 : State} (k2 : Keeps d L s0 a2) (m : May 0x4ffbf583 L) :
    KeepsO d L s0 (execRegistrationResend a0 a1 a2) := by
  unfold execRegistrationResend
  extract_lets z0
  clear_value z0
  exact KeepsO.next (Keeps.ite (registerLink_keeps _ (clockTo_keeps _ k2 (m.sub rfl)) (m.sub rfl)) k2)

theorem execWithdrawal_keeps (a0 : List RegReq) {a1 : State} (k1 : Keeps d L s0 a1) (m : May 0xecb1081 L) : KeepsO d L s0 (execWithdrawal a0 a1) := by
  unfold execWithdrawal
  exact KeepsO.next (Keeps.ite (serveWithdraws_keeps _ k1 (m.sub rfl)) k1)

theorem retrainStrand_keeps (a0 : Nat) (a1 : Bool) {a2 : State} (k2 : Keeps d L s0 a2) (m : May 0xffbf583 L) : Keeps d L s0 (retrainStrand a0 a1 a2) := by
  unfold retrainStrand
  extract_lets z0 z1 z2 z3
  clear_value z0 z1 z2
  have h4 : ∀ x0, Keeps d L s0 x0 → Keeps d L s0 (z3 x0) := by
    intro x0 h5
    unfold z3
    exact modStrand_keeps _ _ h5 (m.sub rfl)
  clear_value z3
  exact Keeps.ite (h4 _ k2) (Keeps.ite (h4 _ (retireStrand_keeps _ k2 (m.sub rfl))) k2)

theorem retrainLink_keeps (a0 : Nat) (a1 : BitVec 4) {a2 : State} (k2 : Keeps d L s0 a2) (m : May 0xffbf583 L) : Keeps d L s0 (retrainLink a0 a1 a2) := by
  unfold retrainLink
  extract_lets z0 z1 z2 z3 z4 z5 z6 z7 z8 z9
  clear_value z0
  have h10 : Keeps d L s0 z1 := by unfold z1; exact leaveDoze_keeps _ k2 (m.sub rfl)
  clear_value z1 z2 z3 z4 z5 z6
  have h11 : Keeps d L s0 z7 := by unfold z7; exact modLink_keeps _ _ (sublinkDown_keeps _ _ h10 (m.sub rfl)) (m.sub rfl)
  clear_value z7
  have h12 : Keeps d L s0 z8 := by unfold z8; exact modLink_keeps _ _ h11 (m.sub rfl)
  clear_value z8
  have h13 : Keeps d L s0 z9 := by unfold z9; exact each_keeps (fun _ _ h14 => modStrand_keeps _ _ h14 (m.sub rfl)) h12
  clear_value z9
  exact Keeps.ite k2 (Keeps.ite (each_keeps (fun _ _ h15 => retrainStrand_keeps _ _ h15 (m.sub rfl)) h10) (trainFull_keeps _ h13 (m.sub rfl)))

/-! ## Canopy -/

theorem rebase_keeps {a0 : State} (k0 : Keeps d L s0 a0) (m : May 0x200 L) : Keeps d L s0 (rebase a0) := by
  unfold rebase
  extract_lets z0 z1
  clear_value z0 z1
  exact modTim_keeps _ k0 (m.sub rfl)

theorem stepTime_keeps (a0 : Int) {a1 : State} (k1 : Keeps d L s0 a1) (m : May 0x200 L) : Keeps d L s0 (stepTime a0 a1) := by
  unfold stepTime
  exact modTim_keeps _ (rebase_keeps k1 (m.sub rfl)) (m.sub rfl)

theorem correct_keeps (a0 : Int) {a1 : State} (k1 : Keeps d L s0 a1) (m : May 0x2781 L) : Keeps d L s0 (correct a0 a1) := by
  unfold correct
  exact Keeps.ite (Keeps.ite (logMb_keeps _ _ (timCnt_keeps _ _ (stepTime_keeps _ k1 (m.sub rfl)) (m.sub rfl)) (m.sub rfl)) (modTim_keeps _ k1 (m.sub rfl))) (modTim_keeps _ (rebase_keeps k1 (m.sub rfl)) (m.sub rfl))

theorem followAnn_keeps (a0 : Nat) (a1 : Ann) {a2 : State} (k2 : Keeps d L s0 a2) (m : May 0x208 L) : Keeps d L s0 (followAnn a0 a1 a2) := by
  unfold followAnn
  extract_lets z0
  have h1 : Keeps d L s0 z0 := by unfold z0; exact modTim_keeps _ k2 (m.sub rfl)
  clear_value z0
  exact Keeps.ite h1 (Keeps.ite (modGctl_keeps _ h1 (m.sub rfl)) (Keeps.ite (modGctl_keeps _ h1 (m.sub rfl)) h1))

theorem chooseUpstream_keeps {a0 : State} (k0 : Keeps d L s0 a0) (m : May 0x208 L) : Keeps d L s0 (chooseUpstream a0) := by
  unfold chooseUpstream
  extract_lets z0 z1 z2 z3
  clear_value z0 z1 z2 z3
  refine Keeps.ite k0 ?_
  split
  · extract_lets z4
    have h5 : Keeps d L s0 z4 := by unfold z4; exact timCnt_keeps _ _ (followAnn_keeps _ _ k0 (m.sub rfl)) (m.sub rfl)
    clear_value z4
    exact modTim_keeps _ h5 (m.sub rfl)
  · exact k0

theorem enterHoldover_keeps {a0 : State} (k0 : Keeps d L s0 a0) (m : May 0x2781 L) : Keeps d L s0 (enterHoldover a0) := by
  unfold enterHoldover
  exact Keeps.ite (modTim_keeps _ k0 (m.sub rfl)) (logMb_keeps _ _ (timCnt_keeps _ _ (modTim_keeps _ k0 (m.sub rfl)) (m.sub rfl)) (m.sub rfl))

theorem execSyncSend_keeps (a0 : Port) (a1 : Strand) {a2 : State} (k2 : Keeps d L s0 a2) (m : May 0x30001 L) : KeepsO d L s0 (execSyncSend a0 a1 a2) := by
  unfold execSyncSend
  extract_lets z0 z1
  clear_value z0
  have h2 : Keeps d L s0 z1 := by unfold z1; exact modLink_keeps _ _ (leaveIdle_keeps _ k2 (m.sub rfl)) (m.sub rfl)
  clear_value z1
  exact KeepsO.next (Keeps.ite k2 (queueTime_keeps _ _ _ h2 (m.sub rfl)))

theorem execAnnounceSend_keeps (a0 : Port) (a1 : Strand) {a2 : State} (k2 : Keeps d L s0 a2) (m : May 0x30001 L) : KeepsO d L s0 (execAnnounceSend a0 a1 a2) := by
  unfold execAnnounceSend
  extract_lets z0 z1 z2 z3
  clear_value z0
  have h4 : Keeps d L s0 z1 := by unfold z1; exact modLink_keeps _ _ (leaveIdle_keeps _ k2 (m.sub rfl)) (m.sub rfl)
  clear_value z1 z2 z3
  exact KeepsO.next (Keeps.ite k2 (queueTime_keeps _ _ _ h4 (m.sub rfl)))

theorem execDelayReqSend_keeps {a0 : State} (k0 : Keeps d L s0 a0) (m : May 0x30001 L) : KeepsO d L s0 (execDelayReqSend a0) := by
  unfold execDelayReqSend
  refine KeepsO.next ?_
  split
  · extract_lets z0
    have h1 : Keeps d L s0 z0 := by unfold z0; exact modLink_keeps _ _ (leaveIdle_keeps _ k0 (m.sub rfl)) (m.sub rfl)
    clear_value z0
    exact Keeps.ite k0 (queueTime_keeps _ _ _ h1 (m.sub rfl))
  · exact k0

theorem execDelayReq_keeps (a0 : Port) (a1 : Strand) (a2 : TimeMsg) {a3 : State} (k3 : Keeps d L s0 a3) (m : May 0x30001 L) : KeepsO d L s0 (execDelayReq a0 a1 a2 a3) := by
  unfold execDelayReq
  extract_lets z0 z1 z2
  clear_value z0
  have h3 : Keeps d L s0 z1 := by unfold z1; exact leaveIdle_keeps _ k3 (m.sub rfl)
  clear_value z1 z2
  exact KeepsO.next (Keeps.ite k3 (queueTime_keeps _ _ _ h3 (m.sub rfl)))

theorem execSync_keeps (a0 : Port) (a1 : Strand) (a2 : TimeMsg) {a3 : State} (k3 : Keeps d L s0 a3) (m : May 0x22781 L) : KeepsO d L s0 (execSync a0 a1 a2 a3) := by
  unfold execSync
  extract_lets z0 z1 z2 z3 z4 z5
  clear_value z0 z1
  have h6 : Keeps d L s0 z2 := by unfold z2; exact timCnt_keeps _ _ (modLink_keeps _ _ k3 (m.sub rfl)) (m.sub rfl)
  clear_value z2 z3 z4
  have h7 : Keeps d L s0 z5 := by unfold z5; exact modTim_keeps _ h6 (m.sub rfl)
  clear_value z5
  exact KeepsO.next (Keeps.ite k3 (correct_keeps _ h7 (m.sub rfl)))

theorem execDelayResp_keeps (a0 : Port) (a1 : Strand) (a2 : TimeMsg) {a3 : State} (k3 : Keeps d L s0 a3) (m : May 0x200 L) : KeepsO d L s0 (execDelayResp a0 a1 a2 a3) := by
  unfold execDelayResp
  extract_lets z0 z1 z2
  clear_value z0 z1 z2
  exact KeepsO.next (Keeps.ite k3 (modTim_keeps _ k3 (m.sub rfl)))

theorem execAnnounce_keeps (a0 : Port) (a1 : Strand) (a2 : TimeMsg) (a3 : Option (Word × BitVec 16)) {a4 : State} (k4 : Keeps d L s0 a4) (m : May 0x20208 L) :
    KeepsO d L s0 (execAnnounce a0 a1 a2 a3 a4) := by
  unfold execAnnounce
  extract_lets z0 z1 z2 z3
  clear_value z0 z1
  have h4 : Keeps d L s0 z2 := by unfold z2; exact modLink_keeps _ _ k4 (m.sub rfl)
  clear_value z2
  have h5 : Keeps d L s0 z3 := by unfold z3; exact Keeps.ite (followAnn_keeps _ _ h4 (m.sub rfl)) (Keeps.ite (chooseUpstream_keeps h4 (m.sub rfl)) h4)
  clear_value z3
  refine KeepsO.next ?_
  refine Keeps.ite k4 ?_
  refine Keeps.ite h4 ?_
  refine Keeps.ite ?_ h5
  split
  · exact modTim_keeps _ h5 (m.sub rfl)
  · exact iff_keeps _ (fun _ h6 => modTim_keeps _ h6 (m.sub rfl)) h5

theorem execUpstreamLost_keeps {a0 : State} (k0 : Keeps d L s0 a0) (m : May 0x40022789 L) : KeepsO d L s0 (execUpstreamLost a0) := by
  unfold execUpstreamLost
  refine KeepsO.next ?_
  split
  · extract_lets z0 z1
    have h2 : Keeps d L s0 z0 := by unfold z0; exact iff_keeps _ (fun _ h3 => clockTo_keeps _ h3 (m.sub rfl)) k0
    clear_value z0
    have h4 : Keeps d L s0 z1 := by unfold z1; exact modLink_keeps _ _ (modTim_keeps _ h2 (m.sub rfl)) (m.sub rfl)
    clear_value z1
    exact Keeps.ite k0 (chooseUpstream_keeps (enterHoldover_keeps h4 (m.sub rfl)) (m.sub rfl))
  · exact k0

theorem execHoldoverTraceExpiry_keeps {a0 : State} (k0 : Keeps d L s0 a0) (m : May 0x40000200 L) : KeepsO d L s0 (execHoldoverTraceExpiry a0) := by
  unfold execHoldoverTraceExpiry
  exact KeepsO.next (Keeps.ite (modTim_keeps _ (clockTo_keeps _ k0 (m.sub rfl)) (m.sub rfl)) k0)

theorem execHoldoverExit_keeps {a0 : State} (k0 : Keeps d L s0 a0) (m : May 0x40002781 L) : KeepsO d L s0 (execHoldoverExit a0) := by
  unfold execHoldoverExit
  refine KeepsO.next ?_
  split
  · exact Keeps.ite (logMb_keeps _ _ (modTim_keeps _ (clockTo_keeps _ k0 (m.sub rfl)) (m.sub rfl)) (m.sub rfl)) k0
  · exact k0

theorem applySet_keeps {a0 : State} (k0 : Keeps d L s0 a0) (m : May 0x200 L) : Keeps d L s0 (applySet a0) := by
  unfold applySet
  extract_lets z0 z1
  have h2 : Keeps d L s0 z0 := by unfold z0; exact rebase_keeps k0 (m.sub rfl)
  clear_value z0 z1
  exact modTim_keeps _ h2 (m.sub rfl)

theorem timeSetApply_keeps {a0 : State} (k0 : Keeps d L s0 a0) (m : May 0x200 L) : Keeps d L s0 (timeSetApply a0) := by
  unfold timeSetApply
  exact Keeps.ite k0 (Keeps.ite (modTim_keeps _ k0 (m.sub rfl)) (applySet_keeps k0 (m.sub rfl)))

theorem execTimeSetApply_keeps {a0 : State} (k0 : Keeps d L s0 a0) (m : May 0x200 L) : KeepsO d L s0 (execTimeSetApply a0) := by
  unfold execTimeSetApply
  exact KeepsO.next (Keeps.ite (timeSetApply_keeps k0 (m.sub rfl)) k0)

theorem execPpsEdge_keeps {a0 : State} (k0 : Keeps d L s0 a0) (m : May 0x2781 L) : KeepsO d L s0 (execPpsEdge a0) := by
  unfold execPpsEdge
  extract_lets z0 z1 z2 z3
  clear_value z0 z1
  have h4 : Keeps d L s0 z2 := by unfold z2; exact modTim_keeps _ k0 (m.sub rfl)
  clear_value z2
  have h5 : Keeps d L s0 z3 := by unfold z3; exact iff_keeps _ (fun _ h6 => correct_keeps _ h6 (m.sub rfl)) h4
  clear_value z3
  exact KeepsO.next (Keeps.ite k0 (Keeps.ite h4 (Keeps.ite (modTim_keeps _ (applySet_keeps h4 (m.sub rfl)) (m.sub rfl)) (modTim_keeps _ h5 (m.sub rfl)))))

theorem execSyncInLost_keeps (a0 : SyncPin) {a1 : State} (k1 : Keeps d L s0 a1) (m : May 0x2781 L) : KeepsO d L s0 (execSyncInLost a0 a1) := by
  unfold execSyncInLost
  extract_lets z0 z1 z2
  clear_value z0
  have h3 : Keeps d L s0 z1 := by unfold z1; exact modTim_keeps _ k1 (m.sub rfl)
  clear_value z1
  have h4 : Keeps d L s0 z2 := by unfold z2; exact logMb_keeps _ _ h3 (m.sub rfl)
  clear_value z2
  exact KeepsO.next (Keeps.ite k1 (Keeps.ite h3 (Keeps.ite h4 (enterHoldover_keeps h4 (m.sub rfl)))))

theorem followRef_keeps {a0 : State} (k0 : Keeps d L s0 a0) (m : May 0x200 L) : Keeps d L s0 (followRef a0) := by
  unfold followRef
  exact modTim_keeps _ k0 (m.sub rfl)

theorem execSyncInRestored_keeps (a0 : SyncPin) {a1 : State} (k1 : Keeps d L s0 a1) (m : May 0x2781 L) : KeepsO d L s0 (execSyncInRestored a0 a1) := by
  unfold execSyncInRestored
  extract_lets z0 z1
  clear_value z0
  have h2 : Keeps d L s0 z1 := by unfold z1; exact modTim_keeps _ k1 (m.sub rfl)
  clear_value z1
  exact KeepsO.next (Keeps.ite k1 (Keeps.ite (logMb_keeps _ _ (followRef_keeps h2 (m.sub rfl)) (m.sub rfl)) h2))

theorem execLeapTakeEffect_keeps {a0 : State} (k0 : Keeps d L s0 a0) (m : May 0x40000200 L) : KeepsO d L s0 (execLeapTakeEffect a0) := by
  unfold execLeapTakeEffect
  exact KeepsO.next (Keeps.ite k0 (modTim_keeps _ (fabTo_keeps _ k0 (m.sub rfl)) (m.sub rfl)))

theorem execSyncOutEdge_keeps (a0 : SyncPin) (a1 : Bool) {a2 : State} (k2 : Keeps d L s0 a2) (m : May 0x40002781 L) : KeepsO d L s0 (execSyncOutEdge a0 a1 a2) := by
  unfold execSyncOutEdge
  extract_lets z0 z1 z2 z3 z4 z5
  clear_value z0 z1
  have h6 : Keeps d L s0 z2 := by unfold z2; exact emit_keeps _ (fabTo_keeps _ k2 (m.sub rfl)) (m.sub rfl)
  clear_value z2 z3 z4
  have h7 : Keeps d L s0 z5 := by unfold z5; exact modTim_keeps _ h6 (m.sub rfl)
  clear_value z5
  exact KeepsO.next (Keeps.ite k2 (Keeps.ite (modTim_keeps _ k2 (m.sub rfl)) (Keeps.ite k2 (iff_keeps _ (fun _ h8 => logMb_keeps _ _ h8 (m.sub rfl)) h7))))

theorem rearm_keeps {a0 : State} (k0 : Keeps d L s0 a0) (m : May 0x200 L) : Keeps d L s0 (rearm a0) := by
  unfold rearm
  exact modTim_keeps _ k0 (m.sub rfl)

theorem execRearm_keeps {a0 : State} (k0 : Keeps d L s0 a0) (m : May 0x200 L) : KeepsO d L s0 (execRearm a0) := by
  unfold execRearm
  exact KeepsO.next (Keeps.ite (rearm_keeps k0 (m.sub rfl)) k0)

theorem nowLoRead_keeps {a0 : State} (k0 : Keeps d L s0 a0) (m : May 0x200 L) : Keeps d L s0 (nowLoRead a0).2 := by
  unfold nowLoRead
  dsimp only
  exact modTim_keeps _ k0 (m.sub rfl)

theorem execNowLoRead_keeps (a0 : Path) {a1 : State} (k1 : Keeps d L s0 a1) (m : May 0x201 L) : KeepsO d L s0 (execNowLoRead a0 a1) := by
  unfold execNowLoRead
  refine KeepsO.next ?_
  refine Keeps.ite ?_ k1
  split
  · rename_i y0 _ y1 e2
    have h3 : Keeps d L s0 y1 := Keeps.snd_eq e2 (nowLoRead_keeps k1 (m.sub rfl))
    exact emit_keeps _ h3 (m.sub rfl)

/-! ## Ingress -/

theorem police_keeps (a0 : Nat) (a1 : Hdr) (a2 : Nat) {a3 : State} (k3 : Keeps d L s0 a3) (m : May 0x80000 L) : Keeps d L s0 (police a0 a1 a2 a3).2.2 := by
  unfold police
  extract_lets z0 z1 z2
  clear_value z0 z1 z2
  split
  · exact k3
  · split
    · extract_lets z3 z4
      have h5 : Keeps d L s0 z3 := by unfold z3; exact modSwc_keeps _ _ k3 (m.sub rfl)
      clear_value z3
      have h6 : Keeps d L s0 z4 := by unfold z4; exact iff_keeps _ (fun _ h7 => swcCnt_keeps _ _ _ h7 (m.sub rfl)) h5
      clear_value z4
      split
      · dsimp only
        exact swcCnt_keeps _ _ _ h6 (m.sub rfl)
      · exact h6

theorem voqPut_keeps (a0 : Nat) (a1 : Nat) (a2 : Nat) (a3 : Nat) {a4 : State} (k4 : Keeps d L s0 a4) (m : May 0x4a2000 L) : Keeps d L s0 (voqPut a0 a1 a2 a3 a4) := by
  unfold voqPut
  split
  · exact k4
  · extract_lets z0 z1 z2
    clear_value z0
    have h3 : Keeps d L s0 z1 := by unfold z1; exact leaveStaging_keeps _ k4 (m.sub rfl)
    clear_value z1
    have h4 : Keeps d L s0 z2 := by unfold z2; exact modSwc_keeps _ _ h3 (m.sub rfl)
    clear_value z2
    exact countBytes_keeps _ _ h4 (m.sub rfl)

theorem toVoq_keeps (a0 : Nat) (a1 : Nat) (a2 : Nat) {a3 : State} (k3 : Keeps d L s0 a3) (m : May 0x4a2000 L) : Keeps d L s0 (toVoq a0 a1 a2 a3) := by
  unfold toVoq
  extract_lets z0 z1
  clear_value z0 z1
  exact Keeps.ite (modSwc_keeps _ _ k3 (m.sub rfl)) (voqPut_keeps _ _ _ _ k3 (m.sub rfl))

theorem voqStall_keeps (a0 : Nat) {a1 : State} (k1 : Keeps d L s0 a1) (m : May 0x80002 L) : Keeps d L s0 (voqStall a0 a1) := by
  unfold voqStall
  refine Keeps.ite k1 ?_
  split
  · rename_i y0 _ y1 e2
    have h3 : Keeps d L s0 y1 := Keeps.snd_eq e2 (draw_keeps k1 (m.sub rfl))
    exact swcCnt_keeps _ _ _ (modSwc_keeps _ _ h3 (m.sub rfl)) (m.sub rfl)

theorem voqRetry_keeps (a0 : Nat) {a1 : State} (k1 : Keeps d L s0 a1) (m : May 0x4a2002 L) : Keeps d L s0 (voqRetry a0 a1) := by
  unfold voqRetry
  extract_lets z0
  have h1 : Keeps d L s0 z0 := by unfold z0; exact voqStall_keeps _ k1 (m.sub rfl)
  clear_value z0
  refine foldl_snd_keeps (fun _ _ _ h2 => ?_) h1
  split
  · exact h2
  · split
    · dsimp only
      exact voqPut_keeps _ _ _ _ (modSwc_keeps _ _ h2 (m.sub rfl)) (m.sub rfl)
    · exact h2

theorem wayOf_keeps (a0 : Nat) (a1 : Hdr) (a2 : List Byte) {a3 : State} (k3 : Keeps d L s0 a3) (m : May 0x4000 L) : Keeps d L s0 (wayOf a0 a1 a2 a3).2 := by
  unfold wayOf
  extract_lets z0
  clear_value z0
  split
  · exact k3
  · split
    · split
      · exact k3
      · exact k3
    · split
      · dsimp only
        exact routeCnt_keeps _ _ k3 (m.sub rfl)
      · split
        · rename_i y1 _ y2 e3
          have h4 : Keeps d L s0 y2 := Keeps.snd_eq e3 (lookup_keeps _ _ k3 (m.sub rfl))
          exact h4
        · rename_i y5 _ y6 e7
          have h8 : Keeps d L s0 y6 := Keeps.snd_eq e7 (lookup_keeps _ _ k3 (m.sub rfl))
          exact h8

theorem countDrop_keeps (a0 : Nat) (a1 : Bool) (a2 : Option Nat) {a3 : State} (k3 : Keeps d L s0 a3) (m : May 0x84000 L) : Keeps d L s0 (countDrop a0 a1 a2 a3) := by
  unfold countDrop
  split
  · exact k3
  · exact Keeps.ite (swcCnt_keeps _ _ _ k3 (m.sub rfl)) (routeCnt_keeps _ _ k3 (m.sub rfl))

theorem deliverMgmt_keeps (a0 : Nat) (a1 : Nat) (a2 : Nat) {a3 : State} (k3 : Keeps d L s0 a3) (m : May 0x1420000 L) : Keeps d L s0 (deliverMgmt a0 a1 a2 a3) := by
  unfold deliverMgmt
  exact setPkt_keeps _ _ (dropEntry_keeps _ _ _ (leaveStaging_keeps _ k3 (m.sub rfl)) (m.sub rfl)) (m.sub rfl)

theorem startPacket_keeps (a0 : Nat) (a1 : Nat) (a2 : Hdr) (a3 : List Ext) (a4 : List Byte) (a5 : Bool) {a6 : State} (k6 : Keeps d L s0 a6) (m : May 0x1fbe083 L) :
    Keeps d L s0 (startPacket a0 a1 a2 a3 a4 a5 a6) := by
  unfold startPacket
  extract_lets z0 z1 z2
  clear_value z0 z1
  have h3 : Keeps d L s0 z2 := by unfold z2; exact Keeps.set_nextPid (s := a6) _ k6 (m.sub rfl)
  clear_value z2
  split
  · rename_i y4 _ _ y5 e6
    have h7 : Keeps d L s0 y5 := Keeps.trd_eq e6 (police_keeps _ _ _ h3 (m.sub rfl))
    extract_lets z8 z9 z10
    clear_value z8 z9 z10
    split
    · rename_i y11 _ y12 e13
      have h14 : Keeps d L s0 y12 := by
        refine Keeps.snd_eq e13 ?_
        split
        · exact h7
        · exact wayOf_keeps _ _ _ h7 (m.sub rfl)
      extract_lets z15
      clear_value z15
      split
      · rename_i y16 _ y17 e18
        have h19 : Keeps d L s0 y17 := Keeps.snd_eq e18 (observe_keeps _ _ _ _ h14 (m.sub rfl))
        extract_lets z20 z21 z22 z23 z24
        clear_value z20
        have h25 : ∀ x0 x1, Keeps d L s0 x1 → Keeps d L s0 (z21 x0 x1) := by
          intro x0 x1 h26
          unfold z21
          exact setStaging_keeps _ _ _ h26 (m.sub rfl)
        clear_value z21
        have h27 : Keeps d L s0 z22 := by unfold z22; exact h25 _ _ (setPkt_keeps _ _ h19 (m.sub rfl))
        clear_value z22
        have h28 : Keeps d L s0 z23 := by unfold z23; exact setPkt_keeps _ _ h19 (m.sub rfl)
        clear_value z23
        have h29 : Keeps d L s0 z24 := by unfold z24; exact Keeps.ite h28 (h25 _ _ h28)
        clear_value z24
        refine iff_keeps _ (fun _ h30 => each_keeps (fun _ _ h31 => formCopy_keeps _ h31 (m.sub rfl)) h30) ?_
        split
        · extract_lets z32
          have h33 : Keeps d L s0 z32 := by unfold z32; exact releaseFlits_keeps _ _ _ (countDrop_keeps _ _ _ h19 (m.sub rfl)) (m.sub rfl)
          clear_value z32
          exact Keeps.ite h33 (h25 _ _ h33)
        · exact Keeps.ite (deliverMgmt_keeps _ _ _ h27 (m.sub rfl)) h27
        · exact h25 _ _ (setPkt_keeps _ _ h19 (m.sub rfl))
        · exact Keeps.ite (toVoq_keeps _ _ _ h28 (m.sub rfl)) (h25 _ _ h28)
        · exact toEgress_keeps _ _ _ _ _ _ h29 (m.sub rfl)

theorem absorbBodies_keeps (k v n : Nat) {s : State} (h : Keeps d L s0 s) (m : May 0x1fbc083 L) : Keeps d L s0 (absorbBodies k v n s) := by
  induction n generalizing s with
  | zero => exact h
  | succ f ih =>
    unfold absorbBodies
    split
    · split
      · exact ih (absorbBody_keeps _ _ _ (modLink_keeps _ _ h (m.sub rfl)) (m.sub rfl))
      · exact h
    · exact h

theorem handleHead_keeps (a0 : Nat) (a1 : Nat) (a2 : Flit) {a3 : State} (k3 : Keeps d L s0 a3) (m : May 0x1fbe083 L) : Keeps d L s0 (handleHead a0 a1 a2 a3) := by
  unfold handleHead
  extract_lets z0 z1 z2 z3
  clear_value z0 z1
  have h4 : Keeps d L s0 z2 := by unfold z2; exact modLink_keeps _ _ k3 (m.sub rfl)
  clear_value z2
  have h5 : ∀ x0 x1, Keeps d L s0 x1 → Keeps d L s0 (z3 x0 x1) := by
    intro x0 x1 h6
    unfold z3
    exact setStaging_keeps _ _ _ (Keeps.set_nextPid (s := x1) _ h6 (m.sub rfl)) (m.sub rfl)
  clear_value z3
  split
  · extract_lets z7
    have h8 : Keeps d L s0 z7 := by unfold z7; exact releaseFlits_keeps _ _ _ (portCnt_keeps _ _ _ h4 (m.sub rfl)) (m.sub rfl)
    clear_value z7
    exact Keeps.ite h8 (h5 _ _ h8)
  · extract_lets z9
    clear_value z9
    exact Keeps.ite (Keeps.ite (releaseFlits_keeps _ _ _ (portCnt_keeps _ _ _ h4 (m.sub rfl)) (m.sub rfl)) (Keeps.ite (startPacket_keeps _ _ _ _ _ _ h4 (m.sub rfl)) (releaseFlits_keeps _ _ _ (portCnt_keeps _ _ _ h4 (m.sub rfl)) (m.sub rfl)))) (Keeps.ite (h5 _ _ (releaseFlits_keeps _ _ _ h4 (m.sub rfl))) (startPacket_keeps _ _ _ _ _ _ h4 (m.sub rfl)))

theorem execPacketHeadArrival_keeps (a0 : Port) (a1 : Strand) (a2 : Vc) {a3 : State} (k3 : Keeps d L s0 a3) (m : May 0x1fbe083 L) :
    KeepsO d L s0 (execPacketHeadArrival a0 a1 a2 a3) := by
  unfold execPacketHeadArrival
  extract_lets z0
  clear_value z0
  refine KeepsO.next ?_
  refine Keeps.ite k3 ?_
  split
  · exact Keeps.ite (absorbBodies_keeps _ _ _ (handleHead_keeps _ _ _ k3 (m.sub rfl)) (m.sub rfl)) k3
  · exact k3

theorem tailGood_keeps (a0 : Nat) (a1 : Nat) (a2 : InEnt) {a3 : State} (k3 : Keeps d L s0 a3) (m : May 0x15a2000 L) : Keeps d L s0 (tailGood a0 a1 a2 a3) := by
  unfold tailGood
  split
  · exact closeCells_keeps _ (dropEntry_keeps _ _ _ k3 (m.sub rfl)) (m.sub rfl)
  · exact toVoq_keeps _ _ _ (dropEntry_keeps _ _ _ k3 (m.sub rfl)) (m.sub rfl)
  · exact deliverMgmt_keeps _ _ _ k3 (m.sub rfl)
  · exact k3

theorem handleTail_keeps (a0 : Nat) (a1 : Nat) (a2 : Flit) {a3 : State} (k3 : Keeps d L s0 a3) (m : May 0x1fbe083 L) : Keeps d L s0 (handleTail a0 a1 a2 a3) := by
  unfold handleTail
  extract_lets z0 z1 z2
  clear_value z0
  have h3 : Keeps d L s0 z1 := by unfold z1; exact modLink_keeps _ _ k3 (m.sub rfl)
  clear_value z1 z2
  split
  · exact releaseFlits_keeps _ _ _ h3 (m.sub rfl)
  · extract_lets z4 z5 z6
    have h7 : ∀ x0, Keeps d L s0 x0 → Keeps d L s0 (z4 x0) := by
      intro x0 h8
      unfold z4
      exact each_keeps (fun _ _ h9 => formCopy_keeps _ h9 (m.sub rfl)) h8
    clear_value z4
    have h10 : Keeps d L s0 z5 := by unfold z5; exact releaseFlits_keeps _ _ _ (dropEntry_keeps _ _ _ h3 (m.sub rfl)) (m.sub rfl)
    clear_value z5
    have h11 : Keeps d L s0 z6 := by unfold z6; exact modPkt_keeps _ _ h3 (m.sub rfl)
    clear_value z6
    split
    · exact releaseFlits_keeps _ _ _ (dropEntry_keeps _ _ _ h3 (m.sub rfl)) (m.sub rfl)
    · exact Keeps.ite (portCnt_keeps _ _ _ h10 (m.sub rfl)) (h7 _ h10)
    · exact releaseFlits_keeps _ _ _ (dropEntry_keeps _ _ _ (portCnt_keeps _ _ _ h3 (m.sub rfl)) (m.sub rfl)) (m.sub rfl)
    · exact releaseFlits_keeps _ _ _ (dropEntry_keeps _ _ _ h3 (m.sub rfl)) (m.sub rfl)
    · extract_lets z12 z13 z14 z15 z16
      clear_value z12 z13
      have h17 : Keeps d L s0 z14 := by unfold z14; exact iff_keeps _ (fun _ h18 => releaseFlits_keeps _ _ _ h18 (m.sub rfl)) h11
      clear_value z14
      have h19 : Keeps d L s0 z15 := by unfold z15; exact portCnt_keeps _ _ _ h17 (m.sub rfl)
      clear_value z15
      have h20 : Keeps d L s0 z16 := by unfold z16; exact h7 _ (tailGood_keeps _ _ _ h17 (m.sub rfl))
      clear_value z16
      exact Keeps.ite (endPoisoned_keeps _ (dropEntry_keeps _ _ _ h19 (m.sub rfl)) (m.sub rfl)) (each_keeps (fun _ _ h21 => formCopy_keeps _ h21 (m.sub rfl)) (modPkt_keeps _ _ h20 (m.sub rfl)))

theorem execPacketTailArrival_keeps (a0 : Port) (a1 : Strand) (a2 : Vc) {a3 : State} (k3 : Keeps d L s0 a3) (m : May 0x1fbe083 L) :
    KeepsO d L s0 (execPacketTailArrival a0 a1 a2 a3) := by
  unfold execPacketTailArrival
  extract_lets z0
  clear_value z0
  refine KeepsO.next ?_
  refine Keeps.ite k3 ?_
  split
  · exact Keeps.ite (handleTail_keeps _ _ _ k3 (m.sub rfl)) k3
  · exact k3

/-! ## Sched -/

theorem redMulticast_keeps (a0 : Nat) (a1 : Arr) (a2 : Pkt) {a3 : State} (k3 : Keeps d L s0 a3) (m : May 0x480002 L) : Keeps d L s0 (redMulticast a0 a1 a2 a3) := by
  unfold redMulticast
  split
  · rename_i y0 _ y1 e2
    have h3 : Keeps d L s0 y1 := by
      refine Keeps.snd_eq e2 ?_
      refine foldl_snd_keeps (fun _ _ _ h4 => ?_) k3
      split
      · rename_i y5 _ y6 e7
        have h8 : Keeps d L s0 y6 := Keeps.snd_eq e7 (draw_keeps h4 (m.sub rfl))
        exact h8
    exact Keeps.ite (swcCnt_keeps _ _ _ (modPkt_keeps _ _ h3 (m.sub rfl)) (m.sub rfl)) h3

theorem mcastFront_keeps (a0 : Nat) (a1 : Arr) (a2 : Pkt) {a3 : State} (k3 : Keeps d L s0 a3) (m : May 0x1fbe083 L) : Keeps d L s0 (mcastFront a0 a1 a2 a3) := by
  unfold mcastFront
  exact tryMulticast_keeps _ _ (redMulticast_keeps _ _ _ k3 (m.sub rfl)) (m.sub rfl)

theorem admitFront_keeps (a0 : Nat) (a1 : Arr) {a2 : State} (k2 : Keeps d L s0 a2) (m : May 0x1fbe083 L) : Keeps d L s0 (admitFront a0 a1 a2) := by
  unfold admitFront
  split
  · exact dropArr_keeps _ _ k2 (m.sub rfl)
  · extract_lets z0
    clear_value z0
    refine Keeps.ite (mcastFront_keeps _ _ _ k2 (m.sub rfl)) ?_
    split
    · rename_i y1 _ y2 e3
      have h4 : Keeps d L s0 y2 := Keeps.snd_eq e3 (draw_keeps k2 (m.sub rfl))
      split
      · exact tryAdmit_keeps _ _ _ _ h4 (m.sub rfl)
      · exact tryAdmit_keeps _ _ _ _ (modPkt_keeps _ _ h4 (m.sub rfl)) (m.sub rfl)
      · exact dropEgress_keeps _ _ _ _ h4 (m.sub rfl)

theorem execGladeAdmission_keeps (a0 : FabDie) {a1 : State} (k1 : Keeps d L s0 a1) (m : May 0x1fbe083 L) : KeepsO d L s0 (execGladeAdmission a0 a1) := by
  unfold execGladeAdmission
  refine KeepsO.next ?_
  refine Keeps.ite k1 ?_
  split
  · exact admitFront_keeps _ _ k1 (m.sub rfl)
  · exact k1

theorem execLosslessAdmit_keeps (a0 : FabDie) {a1 : State} (k1 : Keeps d L s0 a1) (m : May 0x1fbe083 L) : KeepsO d L s0 (execLosslessAdmit a0 a1) := by
  unfold execLosslessAdmit
  extract_lets z0
  clear_value z0
  refine KeepsO.next ?_
  refine Keeps.ite k1 ?_
  split
  · exact tryAdmit_keeps _ _ _ _ k1 (m.sub rfl)
  · exact k1

theorem execMulticastAdmission_keeps (a0 : FabDie) {a1 : State} (k1 : Keeps d L s0 a1) (m : May 0x1fbe083 L) : KeepsO d L s0 (execMulticastAdmission a0 a1) := by
  unfold execMulticastAdmission
  extract_lets z0 z1
  clear_value z0 z1
  refine KeepsO.next ?_
  refine Keeps.ite k1 ?_
  split
  · exact tryMulticast_keeps _ _ k1 (m.sub rfl)
  · split
    · exact mcastFront_keeps _ _ _ k1 (m.sub rfl)
    · exact k1
  · exact k1

theorem crossNext_keeps (a0 : Nat) (a1 : Nat) (a2 : Nat) {a3 : State} (k3 : Keeps d L s0 a3) (m : May 0x4a2000 L) : Keeps d L s0 (crossNext a0 a1 a2 a3) := by
  unfold crossNext
  extract_lets z0 z1
  clear_value z0 z1
  split
  · exact k3
  · extract_lets z2 z3 z4 z5
    clear_value z2
    have h6 : Keeps d L s0 z3 := by unfold z3; exact modSwc_keeps _ _ k3 (m.sub rfl)
    clear_value z3
    have h7 : Keeps d L s0 z4 := by unfold z4; exact iff_keeps _ (fun _ h8 => modSwc_keeps _ _ h8 (m.sub rfl)) h6
    clear_value z4
    have h9 : Keeps d L s0 z5 := by unfold z5; exact landTake_keeps _ _ _ _ (Keeps.ite (leaveStaging_keeps _ h7 (m.sub rfl)) h7) (m.sub rfl)
    clear_value z5
    exact Keeps.ite k3 (modSwc_keeps _ _ (countBytes_keeps _ _ h9 (m.sub rfl)) (m.sub rfl))

theorem execBridgeCreditReturn_keeps (a0 : Fin 8) (a1 : Fin 8) (a2 : Vc) {a3 : State} (k3 : Keeps d L s0 a3) (m : May 0x4a2000 L) :
    KeepsO d L s0 (execBridgeCreditReturn a0 a1 a2 a3) := by
  unfold execBridgeCreditReturn
  extract_lets z0 z1
  have h2 : Keeps d L s0 z0 := by unfold z0; exact modSwc_keeps _ _ k3 (m.sub rfl)
  clear_value z0
  have h3 : Keeps d L s0 z1 := by unfold z1; exact iff_keeps _ (fun _ h4 => modSwc_keeps _ _ h4 (m.sub rfl)) h2
  clear_value z1
  exact KeepsO.next (Keeps.ite k3 (crossNext_keeps _ _ _ h3 (m.sub rfl)))

theorem histSample_keeps (a0 : Nat) (a1 : Bool) (a2 : Nat) {a3 : State} (k3 : Keeps d L s0 a3) (m : May 0x80000 L) : Keeps d L s0 (histSample a0 a1 a2 a3) := by
  unfold histSample
  extract_lets z0
  clear_value z0
  exact each_keeps (fun _ _ h1 => modSwc_keeps _ _ h1 (m.sub rfl)) k3

theorem grantQueue_keeps (a0 : Nat) (a1 : Nat) (a2 : Nat) {a3 : State} (k3 : Keeps d L s0 a3) (m : May 0x1fbe083 L) : Keeps d L s0 (grantQueue a0 a1 a2 a3) := by
  unfold grantQueue
  extract_lets z0 z1
  clear_value z0 z1
  split
  · exact k3
  · split
    · exact k3
    · extract_lets z2 z3 z4 z5 z6 z7 z8 z9
      clear_value z2 z3
      have h10 : Keeps d L s0 z4 := by unfold z4; exact modPkt_keeps _ _ k3 (m.sub rfl)
      clear_value z4
      have h11 : Keeps d L s0 z5 := by unfold z5; exact modSched_keeps _ _ h10 (m.sub rfl)
      clear_value z5
      have h12 : Keeps d L s0 z6 := by unfold z6; exact modQueue_keeps _ _ h11 (m.sub rfl)
      clear_value z6
      have h13 : Keeps d L s0 z7 := by unfold z7; exact histSample_keeps _ _ _ h12 (m.sub rfl)
      clear_value z7
      have h14 : Keeps d L s0 z8 := by unfold z8; exact swcCnt_keeps _ _ _ h13 (m.sub rfl)
      clear_value z8
      have h15 : Keeps d L s0 z9 := by unfold z9; exact countBytes_keeps _ _ (swcInject_keeps _ _ h14 (m.sub rfl)) (m.sub rfl)
      clear_value z9
      refine Keeps.ite (refresh_keeps _ (newHead_keeps _ (unlink_keeps _ _ (portCnt_keeps _ _ _ (mirrorDrop_keeps _ _ k3 (m.sub rfl)) (m.sub rfl)) (m.sub rfl)) (m.sub rfl)) (m.sub rfl)) ?_
      split
      · rename_i y16 _ y17 e18
        have h19 : Keeps d L s0 y17 := Keeps.snd_eq e18 (observe_keeps _ _ _ _ h15 (m.sub rfl))
        extract_lets z20
        have h21 : Keeps d L s0 z20 := by unfold z20; exact Keeps.ite (each_keeps (fun _ _ h22 => formCopy_keeps _ h22 (m.sub rfl)) h19) (modPkt_keeps _ _ h19 (m.sub rfl))
        clear_value z20
        exact refresh_keeps _ (newHead_keeps _ h21 (m.sub rfl)) (m.sub rfl)

theorem execQueueGrant_keeps (a0 : Port) (a1 : Strand) (a2 : Vc) {a3 : State} (k3 : Keeps d L s0 a3) (m : May 0x1fbe083 L) : KeepsO d L s0 (execQueueGrant a0 a1 a2 a3) := by
  unfold execQueueGrant
  extract_lets z0 z1
  clear_value z0
  have h2 : Keeps d L s0 z1 := by unfold z1; exact refresh_keeps _ k3 (m.sub rfl)
  clear_value z1
  refine KeepsO.next ?_
  refine Keeps.ite k3 ?_
  split
  · exact grantQueue_keeps _ _ _ h2 (m.sub rfl)
  · exact h2

theorem buildFlit_keeps (a0 : Nat) (a1 : Nat) (a2 : Cur) (a3 : QEnt) (a4 : Pkt) {a5 : State} (k5 : Keeps d L s0 a5) (m : May 0x330001 L) :
    Keeps d L s0 (buildFlit a0 a1 a2 a3 a4 a5) := by
  unfold buildFlit
  extract_lets z0 z1 z2 z3 z4 z5 z6 z7 z8
  clear_value z0 z1 z3 z4 z5
  have h9 : Keeps d L s0 z6 := by unfold z6; exact leaveIdle_keeps _ (modLink_keeps _ _ k5 (m.sub rfl)) (m.sub rfl)
  clear_value z6
  have h10 : Keeps d L s0 z7 := by unfold z7; exact modQueue_keeps _ _ h9 (m.sub rfl)
  clear_value z7
  have h11 : Keeps d L s0 z8 := by unfold z8; exact Keeps.ite (modSched_keeps _ _ h10 (m.sub rfl)) h10
  clear_value z8
  exact refresh_keeps _ h11 (m.sub rfl)

theorem execVcGrant_keeps (a0 : Port) (a1 : Strand) {a2 : State} (k2 : Keeps d L s0 a2) (m : May 0x330001 L) : KeepsO d L s0 (execVcGrant a0 a1 a2) := by
  unfold execVcGrant
  extract_lets z0 z1
  clear_value z0
  have h2 : Keeps d L s0 z1 := by unfold z1; exact refresh_keeps _ k2 (m.sub rfl)
  clear_value z1
  refine KeepsO.next ?_
  split
  · exact h2
  · extract_lets z3 z4
    clear_value z3
    have h5 : Keeps d L s0 z4 := by unfold z4; exact modSched_keeps _ _ h2 (m.sub rfl)
    clear_value z4
    split
    · exact buildFlit_keeps _ _ _ _ _ h5 (m.sub rfl)
    · exact h2

theorem execAgeSweep_keeps (a0 : Port) (a1 : Strand) (a2 : Fin 8) {a3 : State} (k3 : Keeps d L s0 a3) (m : May 0x1fbc083 L) : KeepsO d L s0 (execAgeSweep a0 a1 a2 a3) := by
  unfold execAgeSweep
  extract_lets z0 z1 z2 z3
  clear_value z0 z1 z2 z3
  exact KeepsO.next (Keeps.ite k3 (refresh_keeps _ (agePurge_keeps _ k3 (m.sub rfl)) (m.sub rfl)))

theorem execShaperCreditZero_keeps (a0 : Port) (a1 : Strand) (a2 : Fin 8) {a3 : State} (k3 : Keeps d L s0 a3) (m : May 0x300000 L) :
    KeepsO d L s0 (execShaperCreditZero a0 a1 a2 a3) := by
  unfold execShaperCreditZero
  extract_lets z0
  clear_value z0
  exact KeepsO.next (Keeps.ite (refresh_keeps _ (modQueue_keeps _ _ k3 (m.sub rfl)) (m.sub rfl)) k3)

theorem execDepthSample_keeps (a0 : FabDie) {a1 : State} (k1 : Keeps d L s0 a1) (m : May 0x184000 L) : KeepsO d L s0 (execDepthSample a0 a1) := by
  unfold execDepthSample
  extract_lets z0 z1
  clear_value z0
  have h2 : Keeps d L s0 z1 := by
    unfold z1
    refine each_keeps (fun _ _ h3 => ?_) k1
    extract_lets z4 z5 z6
    clear_value z4 z5
    have h7 : Keeps d L s0 z6 := by unfold z6; exact modQueue_keeps _ _ h3 (m.sub rfl)
    clear_value z6
    exact modRoute_keeps _ h7 (m.sub rfl)
  clear_value z1
  exact KeepsO.next (Keeps.ite k1 (each_keeps (fun _ _ h8 => Keeps.ite (histSample_keeps _ _ _ h8 (m.sub rfl)) h8) h2))

theorem execRejoin_keeps (a0 : Port) (a1 : Strand) {a2 : State} (k2 : Keeps d L s0 a2) (m : May 0x40020000 L) : KeepsO d L s0 (execRejoin a0 a1 a2) := by
  unfold execRejoin
  extract_lets z0
  clear_value z0
  refine KeepsO.next ?_
  split
  · exact Keeps.ite (modLink_keeps _ _ (clockTo_keeps _ k2 (m.sub rfl)) (m.sub rfl)) k2
  · exact k2

theorem sendChunk_keeps (a0 : Nat) (a1 : Nat) (a2 : Nat) {a3 : State} (k3 : Keeps d L s0 a3) (m : May 0x6482000 L) : Keeps d L s0 (sendChunk a0 a1 a2 a3) := by
  unfold sendChunk
  extract_lets z0 z1 z2 z3
  clear_value z0 z1 z2 z3
  split
  · exact k3
  · split
    · exact k3
    · extract_lets z4 z5 z6
      clear_value z4
      have h7 : Keeps d L s0 z5 := by unfold z5; exact modSwc_keeps _ _ k3 (m.sub rfl)
      clear_value z5
      have h8 : Keeps d L s0 z6 := by unfold z6; exact countBytes_keeps _ _ h7 (m.sub rfl)
      clear_value z6
      exact Keeps.ite (discardChunk_keeps _ h8 (m.sub rfl)) (modRed_keeps _ _ h8 (m.sub rfl))

theorem execReducerMatchingRound_keeps (a0 : FabDie) {a1 : State} (k1 : Keeps d L s0 a1) (m : May 0x64a2002 L) : KeepsO d L s0 (execReducerMatchingRound a0 a1) := by
  unfold execReducerMatchingRound
  refine KeepsO.next ?_
  refine Keeps.ite k1 ?_
  split
  · split
    · split
      · extract_lets z0
        have h1 : Keeps d L s0 z0 := by unfold z0; exact modSwc_keeps _ _ k1 (m.sub rfl)
        clear_value z0
        exact voqRetry_keeps _ (each_keeps (fun _ _ h2 => sendChunk_keeps _ _ _ h2 (m.sub rfl)) h1) (m.sub rfl)

/-! ## Clearing -/

theorem shadowEnt_keeps (a0 : Nat) (a1 : Nat) (a2 : Word) {a3 : State} (k3 : Keeps d L s0 a3) (m : May 0x4000 L) : Keeps d L s0 (shadowEnt a0 a1 a2 a3) := by
  unfold shadowEnt
  exact modRoute_keeps _ k3 (m.sub rfl)

theorem shadowPutSet_keeps (a0 : Nat) (a1 : Nat) (a2 : BitVec 288) {a3 : State} (k3 : Keeps d L s0 a3) (m : May 0x4000 L) : Keeps d L s0 (shadowPutSet a0 a1 a2 a3) := by
  unfold shadowPutSet
  exact modRoute_keeps _ k3 (m.sub rfl)

theorem stageRec_keeps (a0 : BitVec 4) (a1 : RouteRec) {a2 : State} (k2 : Keeps d L s0 a2) (m : May 0x4000 L) : Keeps d L s0 (stageRec a0 a1 a2) := by
  unfold stageRec
  refine each_keeps (fun _ _ h0 => ?_) k2
  extract_lets z1
  clear_value z1
  exact Keeps.ite (Keeps.ite (shadowEnt_keeps _ _ _ h0 (m.sub rfl)) h0) (Keeps.ite (Keeps.ite (shadowPutSet_keeps _ _ _ h0 (m.sub rfl)) h0) h0)

theorem modClr_keeps (a0 : Clearing → Clearing) {a1 : State} (k1 : Keeps d L s0 a1) (m : May 0x4000 L) : Keeps d L s0 (modClr a0 a1) := by
  unfold modClr
  exact modRoute_keeps _ k1 (m.sub rfl)

theorem stageEnd_keeps {a0 : State} (k0 : Keeps d L s0 a0) (m : May 0x4000 L) : Keeps d L s0 (stageEnd a0) := by
  unfold stageEnd
  split
  · exact Keeps.ite (modClr_keeps _ k0 (m.sub rfl)) k0
  · exact k0

theorem clrBegin_keeps (a0 : ClrSrc) (a1 : BitVec 4) (a2 : Byte) (a3 : List RouteRec) {a4 : State} (k4 : Keeps d L s0 a4) (m : May 0x4000 L) :
    Keeps d L s0 (clrBegin a0 a1 a2 a3 a4) := by
  unfold clrBegin
  extract_lets z0 z1 z2
  clear_value z0 z1 z2
  exact stageEnd_keeps (modRoute_keeps _ k4 (m.sub rfl)) (m.sub rfl)

theorem releaseHeld_keeps {a0 : State} (k0 : Keeps d L s0 a0) (m : May 0x17b4081 L) : Keeps d L s0 (releaseHeld a0) := by
  unfold releaseHeld
  refine each_keeps (fun _ _ h0 => ?_) k0
  extract_lets z1 z2 z3
  clear_value z1 z2 z3
  refine each_keeps (fun _ _ h4 => ?_) h0
  split
  · exact dropEntry_keeps _ _ _ h4 (m.sub rfl)
  · extract_lets z5
    have h6 : Keeps d L s0 z5 := by unfold z5; exact Keeps.ite (dropEntry_keeps _ _ _ h4 (m.sub rfl)) (setStage_keeps _ _ _ _ h4 (m.sub rfl))
    clear_value z5
    exact Keeps.ite (dropPkt_keeps _ (swcCnt_keeps _ _ _ h6 (m.sub rfl)) (m.sub rfl)) (routePkt_keeps _ _ h6 (m.sub rfl))

theorem clrEnd_keeps (a0 : Bool) {a1 : State} (k1 : Keeps d L s0 a1) (m : May 0x17b4081 L) : Keeps d L s0 (clrEnd a0 a1) := by
  unfold clrEnd
  exact releaseHeld_keeps (modRoute_keeps _ k1 (m.sub rfl)) (m.sub rfl)

theorem dropDirty_keeps (a0 : BitVec 4) {a1 : State} (k1 : Keeps d L s0 a1) (m : May 0x4000 L) : Keeps d L s0 (dropDirty a0 a1) := by
  unfold dropDirty
  extract_lets z0
  have h1 : Keeps d L s0 z0 := by unfold z0; exact each_keeps (fun _ _ h2 => modRoute_keeps _ h2 (m.sub rfl)) k1
  clear_value z0
  exact each_keeps (fun _ _ h3 => modRoute_keeps _ h3 (m.sub rfl)) h1

theorem clrRevert_keeps {a0 : State} (k0 : Keeps d L s0 a0) (m : May 0x17b4081 L) : Keeps d L s0 (clrRevert a0) := by
  unfold clrRevert
  split
  · exact iff_keeps _ (fun _ h0 => modRoute_keeps _ h0 (m.sub rfl)) (clrEnd_keeps _ (dropDirty_keeps _ k0 (m.sub rfl)) (m.sub rfl))
  · exact k0

theorem clrStage_keeps (a0 : Clearing) {a1 : State} (k1 : Keeps d L s0 a1) (m : May 0x4000 L) : Keeps d L s0 (clrStage a0 a1) := by
  unfold clrStage
  exact Keeps.ite (modClr_keeps _ (each_keeps (fun _ _ h0 => stageRec_keeps _ _ h0 (m.sub rfl)) k1) (m.sub rfl)) (modClr_keeps _ k1 (m.sub rfl))

theorem clrHold_keeps {a0 : State} (k0 : Keeps d L s0 a0) (m : May 0x4000 L) : Keeps d L s0 (clrHold a0) := by
  unfold clrHold
  split
  · exact k0
  · extract_lets z0 z1 z2 z3 z4
    clear_value z0 z1 z2 z3 z4
    exact modClr_keeps _ k0 (m.sub rfl)

theorem clrCommit_keeps (a0 : BitVec 4) {a1 : State} (k1 : Keeps d L s0 a1) (m : May 0x4000 L) : Keeps d L s0 (clrCommit a0 a1) := by
  unfold clrCommit
  extract_lets z0 z1 z2 z3
  clear_value z0 z1 z2
  have h4 : Keeps d L s0 z3 := by unfold z3; exact modRoute_keeps _ k1 (m.sub rfl)
  clear_value z3
  exact modClr_keeps _ (modRoute_keeps _ h4 (m.sub rfl)) (m.sub rfl)

theorem clrPurge_keeps (a0 : Clearing) {a1 : State} (k1 : Keeps d L s0 a1) (m : May 0x1fbc083 L) : Keeps d L s0 (clrPurge a0 a1) := by
  unfold clrPurge
  refine each_keeps (fun _ _ h0 => ?_) k1
  refine each_keeps (fun _ _ h1 => ?_) h0
  split
  · extract_lets z2 z3
    have h4 : Keeps d L s0 z2 := by unfold z2; exact routeCnt_keeps _ _ h1 (m.sub rfl)
    clear_value z2
    have h5 : Keeps d L s0 z3 := by unfold z3; exact mirrorDrop_keeps _ _ h4 (m.sub rfl)
    clear_value z3
    exact Keeps.ite (Keeps.ite (newHead_keeps _ (unlink_keeps _ _ h5 (m.sub rfl)) (m.sub rfl)) (dropPkt_keeps _ h5 (m.sub rfl))) h1
  · exact h1

theorem clrTimeout_keeps {a0 : State} (k0 : Keeps d L s0 a0) (m : May 0x1fbc083 L) : Keeps d L s0 (clrTimeout a0) := by
  unfold clrTimeout
  split
  · extract_lets z0
    have h1 : Keeps d L s0 z0 := by unfold z0; exact clrPurge_keeps _ k0 (m.sub rfl)
    clear_value z0
    exact Keeps.ite (modClr_keeps _ h1 (m.sub rfl)) (clrRevert_keeps k0 (m.sub rfl))
  · exact k0

theorem clrMarkers_keeps {a0 : State} (k0 : Keeps d L s0 a0) (m : May 0x4000 L) : Keeps d L s0 (clrMarkers a0) := by
  unfold clrMarkers
  split
  · extract_lets z0
    clear_value z0
    exact modClr_keeps _ k0 (m.sub rfl)
  · exact k0

theorem clrCount_keeps (a0 : Nat) {a1 : State} (k1 : Keeps d L s0 a1) (m : May 0x4000 L) : Keeps d L s0 (clrCount a0 a1) := by
  unfold clrCount
  exact modClr_keeps _ k1 (m.sub rfl)

theorem clrStep_keeps {a0 : State} (k0 : Keeps d L s0 a0) (m : May 0x1fbc083 L) : Keeps d L s0 (clrStep a0).2 := by
  unfold clrStep
  split
  · exact k0
  · split
    · dsimp only
      exact modClr_keeps _ (stageEnd_keeps (clrStage_keeps _ k0 (m.sub rfl)) (m.sub rfl)) (m.sub rfl)
    · dsimp only
      exact modClr_keeps _ (clrHold_keeps k0 (m.sub rfl)) (m.sub rfl)
    · extract_lets z0 z1
      have h2 : Keeps d L s0 z0 := by unfold z0; exact clrMarkers_keeps k0 (m.sub rfl)
      clear_value z0 z1
      split
      · dsimp only
        exact clrCount_keeps _ (modClr_keeps _ h2 (m.sub rfl)) (m.sub rfl)
      · split
        · split
          · dsimp only
            exact clrCount_keeps _ (clrTimeout_keeps h2 (m.sub rfl)) (m.sub rfl)
          · dsimp only
            exact clrTimeout_keeps h2 (m.sub rfl)
        · dsimp only
          exact modClr_keeps _ h2 (m.sub rfl)
    · extract_lets z3
      have h4 : Keeps d L s0 z3 := by unfold z3; exact clrCommit_keeps _ k0 (m.sub rfl)
      clear_value z3
      dsimp only
      exact modClr_keeps _ h4 (m.sub rfl)
    · dsimp only
      exact clrEnd_keeps _ k0 (m.sub rfl)

theorem runPhase_keeps (a0 : PhaseMsg) {a1 : State} (k1 : Keeps d L s0 a1) (m : May 0x17b4081 L) : Keeps d L s0 (runPhase a0 a1).2 := by
  unfold runPhase
  split
  · extract_lets z0 z1
    have h2 : Keeps d L s0 z0 := by unfold z0; exact clrBegin_keeps _ _ _ _ k1 (m.sub rfl)
    clear_value z0
    have h3 : Keeps d L s0 z1 := by unfold z1; exact each_keeps (fun _ _ h4 => stageRec_keeps _ _ h4 (m.sub rfl)) h2
    clear_value z1
    split
    · dsimp only
      exact modRoute_keeps _ k1 (m.sub rfl)
    · dsimp only
      exact modClr_keeps _ h3 (m.sub rfl)
  · extract_lets z5
    have h6 : Keeps d L s0 z5 := by unfold z5; exact clrHold_keeps k1 (m.sub rfl)
    clear_value z5
    dsimp only
    exact modClr_keeps _ h6 (m.sub rfl)
  · extract_lets z7
    have h8 : Keeps d L s0 z7 := by unfold z7; exact clrMarkers_keeps (modClr_keeps _ k1 (m.sub rfl)) (m.sub rfl)
    clear_value z7
    exact h8
  · extract_lets z9 z10
    have h11 : Keeps d L s0 z9 := by unfold z9; exact modClr_keeps _ k1 (m.sub rfl)
    clear_value z9 z10
    dsimp only
    exact foldl_keeps (fun _ _ h12 => clrCommit_keeps _ h12 (m.sub rfl)) h11
  · dsimp only
    exact clrEnd_keeps _ k1 (m.sub rfl)
  · exact k1

theorem phaseDone_keeps (a0 : ClrPhase) {a1 : State} (k1 : Keeps d L s0 a1) (m : May 0x4000 L) : Keeps d L s0 (phaseDone a0 a1) := by
  unfold phaseDone
  exact modRoute_keeps _ k1 (m.sub rfl)

theorem servePhase_keeps (a0 : PhaseMsg) {a1 : State} (k1 : Keeps d L s0 a1) (m : May 0x17b4081 L) : Keeps d L s0 (servePhase a0 a1).2 := by
  unfold servePhase
  extract_lets z0
  have h1 : Keeps d L s0 z0.2 := by unfold z0; exact runPhase_keeps _ k1 (m.sub rfl)
  clear_value z0
  split
  · exact k1
  · split
    · dsimp only
      exact iff_keeps _ (fun _ h2 => phaseDone_keeps _ h2 (m.sub rfl)) h1
    · exact k1

theorem startPhase_keeps {a0 : State} (k0 : Keeps d L s0 a0) (m : May 0x97b4081 L) : Keeps d L s0 (startPhase a0) := by
  unfold startPhase
  split
  · exact k0
  · extract_lets z0 z1
    clear_value z0
    have h2 : Keeps d L s0 z1 := by unfold z1; exact modMgr_keeps _ k0 (m.sub rfl)
    clear_value z1
    refine each_keeps (fun _ _ h3 => ?_) h2
    refine Keeps.ite ?_ (emit_keeps _ h3 (m.sub rfl))
    split
    · rename_i y4 _ y5 e6
      have h7 : Keeps d L s0 y5 := Keeps.snd_eq e6 (servePhase_keeps _ h3 (m.sub rfl))
      exact Keeps.ite (modMgr_keeps _ h7 (m.sub rfl)) h7

theorem endChange_keeps (a0 : Nat) {a1 : State} (k1 : Keeps d L s0 a1) (m : May 0x8000400 L) : Keeps d L s0 (endChange a0 a1) := by
  unfold endChange
  split
  · exact k1
  · extract_lets z0
    have h1 : Keeps d L s0 z0 := by unfold z0; exact modMgr_keeps _ k1 (m.sub rfl)
    clear_value z0
    split
    · exact modRing_keeps _ _ h1 (m.sub rfl)
    · exact h1

theorem advance_keeps (n : Nat) {s : State} (h : Keeps d L s0 s) (m : May 0x97b4481 L) : Keeps d L s0 (advance n s) := by
  induction n generalizing s with
  | zero => exact h
  | succ f ih =>
    unfold advance
    split
    · exact h
    · split
      · exact h
      · split
        · dsimp only
          split
          · exact endChange_keeps _ h (m.sub rfl)
          · exact ih (startPhase_keeps (modMgr_keeps _ (endChange_keeps _ h (m.sub rfl)) (m.sub rfl)) (m.sub rfl))
        · exact ih (startPhase_keeps (modMgr_keeps _ h (m.sub rfl)) (m.sub rfl))

theorem fabBegin_keeps (a0 : Option Nat) (a1 : BitVec 4) (a2 : Byte) (a3 : List RouteRec) {a4 : State} (k4 : Keeps d L s0 a4) (m : May 0x97b4481 L) :
    Keeps d L s0 (fabBegin a0 a1 a2 a3 a4) := by
  unfold fabBegin
  extract_lets z0 z1
  clear_value z0
  have h2 : Keeps d L s0 z1 := by unfold z1; exact modMgr_keeps _ k4 (m.sub rfl)
  clear_value z1
  exact advance_keeps _ (startPhase_keeps h2 (m.sub rfl)) (m.sub rfl)

theorem ackRevert_keeps (a0 : Coord) {a1 : State} (k1 : Keeps d L s0 a1) (m : May 0x97b4481 L) : Keeps d L s0 (ackRevert a0 a1) := by
  unfold ackRevert
  split
  · exact Keeps.ite (Keeps.ite (advance_keeps _ (modMgr_keeps _ k1 (m.sub rfl)) (m.sub rfl)) k1) (modMgr_keeps _ k1 (m.sub rfl))
  · split
    · exact advance_keeps _ (startPhase_keeps (modMgr_keeps _ k1 (m.sub rfl)) (m.sub rfl)) (m.sub rfl)
    · exact k1

theorem ackPhase_keeps (a0 : Coord) (a1 : ClrPhase) {a2 : State} (k2 : Keeps d L s0 a2) (m : May 0x97b4481 L) : Keeps d L s0 (ackPhase a0 a1 a2) := by
  unfold ackPhase
  refine Keeps.ite (ackRevert_keeps _ k2 (m.sub rfl)) ?_
  split
  · exact k2
  · exact Keeps.ite (advance_keeps _ (modMgr_keeps _ k2 (m.sub rfl)) (m.sub rfl)) k2

theorem phaseEnded_keeps (a0 : ClrPhase) {a1 : State} (k1 : Keeps d L s0 a1) (m : May 0x97b4481 L) : Keeps d L s0 (phaseEnded a0 a1) := by
  unfold phaseEnded
  extract_lets z0
  have h1 : Keeps d L s0 z0 := by unfold z0; exact phaseDone_keeps _ k1 (m.sub rfl)
  clear_value z0
  exact Keeps.ite (ackPhase_keeps _ _ h1 (m.sub rfl)) (emit_keeps _ h1 (m.sub rfl))

theorem stageWaiting_keeps {a0 : State} (k0 : Keeps d L s0 a0) (m : May 0x97b4481 L) : Keeps d L s0 (stageWaiting a0) := by
  unfold stageWaiting
  split
  · split
    · rename_i y0 _ y1 e2
      have h3 : Keeps d L s0 y1 := Keeps.snd_eq e2 (runPhase_keeps _ (modRoute_keeps _ k0 (m.sub rfl)) (m.sub rfl))
      exact Keeps.ite (phaseEnded_keeps _ h3 (m.sub rfl)) h3
  · exact k0

theorem managerRevert_keeps {a0 : State} (k0 : Keeps d L s0 a0) (m : May 0x17b4081 L) : Keeps d L s0 (managerRevert a0) := by
  unfold managerRevert
  extract_lets z0
  have h1 : Keeps d L s0 z0 := by unfold z0; exact modRoute_keeps _ k0 (m.sub rfl)
  clear_value z0
  split
  · exact Keeps.ite (clrRevert_keeps h1 (m.sub rfl)) h1
  · exact h1

theorem revertChange_keeps {a0 : State} (k0 : Keeps d L s0 a0) (m : May 0x97b4481 L) : Keeps d L s0 (revertChange a0) := by
  unfold revertChange
  split
  · exact k0
  · extract_lets z0
    have h1 : Keeps d L s0 z0 := by unfold z0; exact each_keeps (fun _ _ h2 => Keeps.ite (managerRevert_keeps h2 (m.sub rfl)) (emit_keeps _ h2 (m.sub rfl))) k0
    clear_value z0
    exact endChange_keeps _ h1 (m.sub rfl)

theorem execDrainMarkerReached_keeps (a0 : Port) (a1 : Strand) (a2 : Fin 8) {a3 : State} (k3 : Keeps d L s0 a3) (m : May 0x97b4481 L) :
    KeepsO d L s0 (execDrainMarkerReached a0 a1 a2 a3) := by
  unfold execDrainMarkerReached
  extract_lets z0
  clear_value z0
  refine KeepsO.next ?_
  split
  · exact k3
  · extract_lets z1 z2
    clear_value z1
    have h3 : Keeps d L s0 z2 := by unfold z2; exact modClr_keeps _ k3 (m.sub rfl)
    clear_value z2
    exact Keeps.ite (phaseEnded_keeps _ h3 (m.sub rfl)) h3

theorem execDrainLimitTimeout_keeps {a0 : State} (k0 : Keeps d L s0 a0) (m : May 0x49fbc483 L) : KeepsO d L s0 (execDrainLimitTimeout a0) := by
  unfold execDrainLimitTimeout
  refine KeepsO.next ?_
  split
  · exact k0
  · extract_lets z0 z1
    have h2 : Keeps d L s0 z0 := by unfold z0; exact clrMarkers_keeps (clockTo_keeps _ k0 (m.sub rfl)) (m.sub rfl)
    clear_value z0
    have h3 : Keeps d L s0 z1 := by unfold z1; exact clrTimeout_keeps h2 (m.sub rfl)
    clear_value z1
    refine Keeps.ite k0 ?_
    split
    · exact stageWaiting_keeps (phaseEnded_keeps _ h3 (m.sub rfl)) (m.sub rfl)
    · exact Keeps.ite h3 (stageWaiting_keeps (modRing_keeps _ _ h3 (m.sub rfl)) (m.sub rfl))

theorem execFabricPhaseMessage_keeps (a0 : PhaseMsg) {a1 : State} (k1 : Keeps d L s0 a1) (m : May 0x97b4481 L) : KeepsO d L s0 (execFabricPhaseMessage a0 a1) := by
  unfold execFabricPhaseMessage
  extract_lets z0
  have h1 : Keeps d L s0 z0 := by unfold z0; exact modClr_keeps _ k1 (m.sub rfl)
  clear_value z0
  refine KeepsO.next ?_
  refine Keeps.ite k1 ?_
  refine Keeps.ite (managerRevert_keeps k1 (m.sub rfl)) ?_
  split
  · rename_i y2 _ y3 e4
    have h5 : Keeps d L s0 y3 := Keeps.snd_eq e4 (servePhase_keeps _ h1 (m.sub rfl))
    exact Keeps.ite (stageWaiting_keeps (phaseEnded_keeps _ h5 (m.sub rfl)) (m.sub rfl)) h5

theorem execPhaseAck_keeps (a0 : Coord) (a1 : ClrPhase) {a2 : State} (k2 : Keeps d L s0 a2) (m : May 0x97b4481 L) : KeepsO d L s0 (execPhaseAck a0 a1 a2) := by
  unfold execPhaseAck
  exact KeepsO.next (Keeps.ite (ackPhase_keeps _ _ k2 (m.sub rfl)) k2)

theorem execPhaseLimitTimeout_keeps (a0 : Coord) {a1 : State} (k1 : Keeps d L s0 a1) (m : May 0x497b4481 L) : KeepsO d L s0 (execPhaseLimitTimeout a0 a1) := by
  unfold execPhaseLimitTimeout
  refine KeepsO.next ?_
  split
  · exact k1
  · extract_lets z0
    have h1 : Keeps d L s0 z0 := by unfold z0; exact clockTo_keeps _ k1 (m.sub rfl)
    clear_value z0
    exact Keeps.ite k1 (Keeps.ite (revertChange_keeps h1 (m.sub rfl)) (advance_keeps _ (modMgr_keeps _ h1 (m.sub rfl)) (m.sub rfl)))

theorem execClearRevert_keeps {a0 : State} (k0 : Keeps d L s0 a0) (m : May 0x497b6581 L) : KeepsO d L s0 (execClearRevert a0) := by
  unfold execClearRevert
  refine KeepsO.next ?_
  split
  · exact Keeps.ite (stageWaiting_keeps (emit_keeps _ (clrRevert_keeps (logMb_keeps _ _ (clockTo_keeps _ k0 (m.sub rfl)) (m.sub rfl)) (m.sub rfl)) (m.sub rfl)) (m.sub rfl)) k0
  · exact k0

theorem rtWinCtl_keeps (a0 : Word) {a1 : State} (k1 : Keeps d L s0 a1) (m : May 0x4000 L) : Keeps d L s0 (rtWinCtl a0 a1) := by
  unfold rtWinCtl
  extract_lets z0 z1 z2
  clear_value z0
  have h3 : Keeps d L s0 z1 := by unfold z1; exact modRoute_keeps _ k1 (m.sub rfl)
  clear_value z1 z2
  exact Keeps.ite (modRoute_keeps _ h3 (m.sub rfl)) h3

theorem execRtWinCtlWrite_keeps (a0 : Word) {a1 : State} (k1 : Keeps d L s0 a1) (m : May 0x4000 L) : KeepsO d L s0 (execRtWinCtlWrite a0 a1) := by
  unfold execRtWinCtlWrite
  exact KeepsO.next (Keeps.ite (rtWinCtl_keeps _ k1 (m.sub rfl)) k1)

theorem winStatus_keeps (a0 : Nat) {a1 : State} (k1 : Keeps d L s0 a1) (m : May 0x4000 L) : Keeps d L s0 (winStatus a0 a1) := by
  unfold winStatus
  exact modRoute_keeps _ k1 (m.sub rfl)

theorem winWrite_keeps {a0 : State} (k0 : Keeps d L s0 a0) (m : May 0x84000 L) : Keeps d L s0 (winWrite a0) := by
  unfold winWrite
  extract_lets z0 z1 z2 z3 z4
  clear_value z0 z1 z2 z3
  have h5 : ∀ x0, Keeps d L s0 x0 → Keeps d L s0 (z4 x0) := by
    intro x0 h6
    unfold z4
    exact iff_keeps _ (fun _ h7 => modRoute_keeps _ h7 (m.sub rfl)) h6
  clear_value z4
  split
  · exact Keeps.ite (winStatus_keeps _ k0 (m.sub rfl)) (h5 _ (winStatus_keeps _ (shadowEnt_keeps _ _ _ k0 (m.sub rfl)) (m.sub rfl)))
  · exact Keeps.ite (winStatus_keeps _ k0 (m.sub rfl)) (Keeps.ite (winStatus_keeps _ k0 (m.sub rfl)) (Keeps.ite (h5 _ (winStatus_keeps _ (shadowPutSet_keeps _ _ _ k0 (m.sub rfl)) (m.sub rfl))) (winStatus_keeps _ k0 (m.sub rfl))))
  · exact Keeps.ite (winStatus_keeps _ k0 (m.sub rfl)) (h5 _ (winStatus_keeps _ (modSwc_keeps _ _ k0 (m.sub rfl)) (m.sub rfl)))
  · exact winStatus_keeps _ k0 (m.sub rfl)

theorem rtWinData_keeps (a0 : Nat) (a1 : Word) {a2 : State} (k2 : Keeps d L s0 a2) (m : May 0x865c1 L) : Keeps d L s0 (rtWinData a0 a1 a2) := by
  unfold rtWinData
  extract_lets z0
  have h1 : Keeps d L s0 z0 := by unfold z0; exact modRoute_keeps _ k2 (m.sub rfl)
  clear_value z0
  exact Keeps.ite (offAccess_keeps _ _ _ k2 (m.sub rfl)) (Keeps.ite (winWrite_keeps h1 (m.sub rfl)) h1)

theorem execRtWinDataWrite_keeps (a0 : Fin 12) (a1 : Word) {a2 : State} (k2 : Keeps d L s0 a2) (m : May 0x865c1 L) : KeepsO d L s0 (execRtWinDataWrite a0 a1 a2) := by
  unfold execRtWinDataWrite
  exact KeepsO.next (Keeps.ite (rtWinData_keeps _ _ k2 (m.sub rfl)) k2)

theorem onCore_keeps (a0 : Nat) (a1 : Nat) (a2 : State → State) {a3 : State} (k2 : ∀ y, Keeps d L s0 y → Keeps d L s0 (a2 y)) (k3 : Keeps d L s0 a3) (m : May 0x25c1 L) :
    Keeps d L s0 (onCore a0 a1 a2 a3) := by
  unfold onCore
  exact Keeps.ite k3 (Keeps.ite (k2 _ k3) (offAccess_keeps _ _ _ k3 (m.sub rfl)))

theorem auditFailed_keeps (a0 : Nat) {a1 : State} (k1 : Keeps d L s0 a1) (m : May 0xffbf5e3 L) : Keeps d L s0 (auditFailed a0 a1) := by
  unfold auditFailed
  extract_lets z0 z1 z2
  clear_value z0
  have h3 : Keeps d L s0 z1 := by unfold z1; exact modSwc_keeps _ _ k1 (m.sub rfl)
  clear_value z1
  have h4 : Keeps d L s0 z2 := by unfold z2; exact logEvent_keeps _ _ _ _ h3 (m.sub rfl)
  clear_value z2
  exact iff_keeps _ (fun _ h5 => fenceDie_keeps _ h5 (m.sub rfl)) h4

theorem auditSnap_keeps (a0 : Nat) {a1 : State} (k1 : Keeps d L s0 a1) (m : May 0xffbf5e3 L) : Keeps d L s0 (auditSnap a0 a1) := by
  unfold auditSnap
  extract_lets z0
  have h1 : Keeps d L s0 z0 := by unfold z0; exact modSwc_keeps _ _ k1 (m.sub rfl)
  clear_value z0
  exact Keeps.ite h1 (auditFailed_keeps _ h1 (m.sub rfl))

theorem execAuditSnap_keeps (a0 : FabDie) {a1 : State} (k1 : Keeps d L s0 a1) (m : May 0xffbf5e3 L) : KeepsO d L s0 (execAuditSnap a0 a1) := by
  unfold execAuditSnap
  exact KeepsO.next (onCore_keeps _ _ _ (fun _ h0 => auditSnap_keeps _ h0 (m.sub rfl)) k1 (m.sub rfl))

theorem shaperPut_keeps (a0 : Nat) (a1 : Word) {a2 : State} (k2 : Keeps d L s0 a2) (m : May 0x300000 L) : Keeps d L s0 (shaperPut a0 a1 a2) := by
  unfold shaperPut
  exact refresh_keeps _ (modQueue_keeps _ _ k2 (m.sub rfl)) (m.sub rfl)

theorem execShaperWrite_keeps (a0 : FabDie) (a1 : Fin 2304) (a2 : Word) {a3 : State} (k3 : Keeps d L s0 a3) (m : May 0x3025c1 L) :
    KeepsO d L s0 (execShaperWrite a0 a1 a2 a3) := by
  unfold execShaperWrite
  exact KeepsO.next (onCore_keeps _ _ _ (fun _ h0 => shaperPut_keeps _ _ h0 (m.sub rfl)) k3 (m.sub rfl))

theorem policerPut_keeps (a0 : Nat) (a1 : Nat) (a2 : Nat) (a3 : Word) {a4 : State} (k4 : Keeps d L s0 a4) (m : May 0x80000 L) :
    Keeps d L s0 (policerPut a0 a1 a2 a3 a4) := by
  unfold policerPut
  exact modSwc_keeps _ _ k4 (m.sub rfl)

theorem execPolicerWrite_keeps (a0 : FabDie) (a1 : Fin 2304) (a2 : Fin 3) (a3 : Word) {a4 : State} (k4 : Keeps d L s0 a4) (m : May 0x825c1 L) :
    KeepsO d L s0 (execPolicerWrite a0 a1 a2 a3 a4) := by
  unfold execPolicerWrite
  exact KeepsO.next (onCore_keeps _ _ _ (fun _ h0 => policerPut_keeps _ _ _ _ h0 (m.sub rfl)) k4 (m.sub rfl))

theorem modHist_keeps (a0 : Nat) (a1 : Nat) (a2 : Hist → Hist) {a3 : State} (k3 : Keeps d L s0 a3) (m : May 0x80000 L) : Keeps d L s0 (modHist a0 a1 a2 a3) := by
  unfold modHist
  exact modSwc_keeps _ _ k3 (m.sub rfl)

theorem execHistClr_keeps (a0 : FabDie) (a1 : Fin 64) {a2 : State} (k2 : Keeps d L s0 a2) (m : May 0x825c1 L) : KeepsO d L s0 (execHistClr a0 a1 a2) := by
  unfold execHistClr
  exact KeepsO.next (onCore_keeps _ _ _ (fun _ h0 => modHist_keeps _ _ _ h0 (m.sub rfl)) k2 (m.sub rfl))

theorem execHistQueueChange_keeps (a0 : FabDie) (a1 : Fin 64) (a2 : BitVec 12) {a3 : State} (k3 : Keeps d L s0 a3) (m : May 0x825c1 L) :
    KeepsO d L s0 (execHistQueueChange a0 a1 a2 a3) := by
  unfold execHistQueueChange
  exact KeepsO.next (onCore_keeps _ _ _ (fun _ h0 => modHist_keeps _ _ _ h0 (m.sub rfl)) k3 (m.sub rfl))

end Sys2Proof.Machine
end

