-- ==== Sys2Proof/Laws/KeepsCompute.lean ====
section
/-! SUPPORT. What every operation keeps (the relation Keeps), one lemma per operation: pools, contexts, steps, programs and Coppice. -/

namespace Sys2Proof.Machine

variable {d : Bool} {L : Nat} {s0 : State}

/-! ## Prog -/

theorem progWrite_offAccess36_keeps (a0 : Nat) {a1 : State} (k1 : Keeps d L s0 a1) (m : May 0x25c1 L) : Keeps d L s0 (progWrite.offAccess36 a0 a1) := by
  unfold progWrite.offAccess36
  exact logEvent'_keeps _ _ _ _ _ _ _ (modPwr_keeps _ k1 (m.sub rfl)) (m.sub rfl)

theorem progWrite_keeps (a0 : Nat) (a1 : Word) {a2 : State} (k2 : Keeps d L s0 a2) (m : May 0x20025c1 L) : Keeps d L s0 (progWrite a0 a1 a2) := by
  unfold progWrite
  extract_lets z0 z1 z2
  clear_value z0
  have h3 : Keeps d L s0 z1 := by unfold z1; exact each_keeps (fun _ _ h4 => modRed_keeps _ _ h4 (m.sub rfl)) k2
  clear_value z1
  have h5 : Keeps d L s0 z2 := by unfold z2; exact each_keeps (fun _ _ h6 => modPwr_keeps _ h6 (m.sub rfl)) h3
  clear_value z2
  exact Keeps.ite (progWrite_offAccess36_keeps _ k2 (m.sub rfl)) (Keeps.ite (each_keeps (fun _ _ h7 => redCnt_keeps _ _ _ (modRed_keeps _ _ h7 (m.sub rfl)) (m.sub rfl)) k2) (modCmd_keeps _ h5 (m.sub rfl)))

/-! ## Contexts -/

theorem finishRing_keeps (a0 : Option Nat) (a1 : Nat) (a2 : Word) {a3 : State} (k3 : Keeps d L s0 a3) (m : May 0x400 L) : Keeps d L s0 (finishRing a0 a1 a2 a3) := by
  unfold finishRing
  split
  · exact modRing_keeps _ _ k3 (m.sub rfl)
  · exact k3

theorem allocate_keeps (a0 : AllocMsg) {a1 : State} (k1 : Keeps d L s0 a1) (m : May 0x6000000 L) : Keeps d L s0 (allocate a0 a1).2 := by
  unfold allocate
  extract_lets z0 z1
  clear_value z0 z1
  split
  · exact k1
  · split
    · dsimp only
      exact each_keeps (fun _ _ h2 => modRed_keeps _ _ h2 (m.sub rfl)) k1
    · split
      · exact k1
      · split
        · exact k1
        · extract_lets z3
          have h4 : Keeps d L s0 z3 := by unfold z3; exact setCtx_keeps _ _ (modRed_keeps _ _ k1 (m.sub rfl)) (m.sub rfl)
          clear_value z3
          exact h4

theorem setLapsed_keeps (a0 : Nat) (a1 : Nat) {a2 : State} (k2 : Keeps d L s0 a2) (m : May 0x6002581 L) : Keeps d L s0 (setLapsed a0 a1 a2) := by
  unfold setLapsed
  split
  · exact k2
  · extract_lets z0 z1
    have h2 : Keeps d L s0 z0 := by unfold z0; exact modCtx_keeps _ _ k2 (m.sub rfl)
    clear_value z0
    have h3 : Keeps d L s0 z1 := by unfold z1; exact iff_keeps _ (fun _ h4 => redCnt_keeps _ _ _ h4 (m.sub rfl)) h2
    clear_value z1
    exact logEvent_keeps _ _ _ _ h3 (m.sub rfl)

theorem lapseAll_keeps (a0 : Ctx → Bool) (a1 : Nat) {a2 : State} (k2 : Keeps d L s0 a2) (m : May 0x6002581 L) : Keeps d L s0 (lapseAll a0 a1 a2) := by
  unfold lapseAll
  refine each_keeps (fun _ _ h0 => ?_) k2
  split
  · exact Keeps.ite (setLapsed_keeps _ _ h0 (m.sub rfl)) h0
  · exact h0

theorem writeMap_keeps (a0 : Nat) (a1 : Ctx) {a2 : State} (k2 : Keeps d L s0 a2) (m : May 0x80000 L) : Keeps d L s0 (writeMap a0 a1 a2) := by
  unfold writeMap
  extract_lets z0
  clear_value z0
  exact each_keeps (fun _ _ h1 => modSwc_keeps _ _ h1 (m.sub rfl)) k2

theorem commitLocal_keeps (a0 : GroupId) (a1 : Bool) {a2 : State} (k2 : Keeps d L s0 a2) (m : May 0x6082581 L) : Keeps d L s0 (commitLocal a0 a1 a2) := by
  unfold commitLocal
  split
  · exact k2
  · split
    · exact k2
    · extract_lets z0 z1
      clear_value z0
      have h2 : Keeps d L s0 z1 := by unfold z1; exact modCtx_keeps _ _ (writeMap_keeps _ _ k2 (m.sub rfl)) (m.sub rfl)
      clear_value z1
      exact Keeps.ite k2 (iff_keeps _ (fun _ h3 => setLapsed_keeps _ _ h3 (m.sub rfl)) h2)

theorem releaseLocal_keeps (a0 : GroupId) {a1 : State} (k1 : Keeps d L s0 a1) (m : May 0x6081080 L) : Keeps d L s0 (releaseLocal a0 a1) := by
  unfold releaseLocal
  split
  · split
    · exact Keeps.ite k1 (freeCtx_keeps _ k1 (m.sub rfl))
    · exact k1
  · exact k1

theorem refuseGroup_keeps (a0 : Option Nat) (a1 : GroupId) (a2 : Nat) (a3 : Nat) (a4 : Coord) {a5 : State} (k5 : Keeps d L s0 a5) (m : May 0x8002581 L) :
    Keeps d L s0 (refuseGroup a0 a1 a2 a3 a4 a5) := by
  unfold refuseGroup
  extract_lets z0 z1
  have h2 : Keeps d L s0 z0 := by unfold z0; exact modMgr_keeps _ k5 (m.sub rfl)
  clear_value z0
  have h3 : Keeps d L s0 z1 := by unfold z1; exact logMb_keeps _ _ h2 (m.sub rfl)
  clear_value z1
  exact finishRing_keeps _ _ _ h3 (m.sub rfl)

theorem releaseAll_keeps (a0 : GroupRec) {a1 : State} (k1 : Keeps d L s0 a1) (m : May 0x6081081 L) : Keeps d L s0 (releaseAll a0 a1) := by
  unfold releaseAll
  exact each_keeps (fun _ _ h0 => Keeps.ite h0 (Keeps.ite (releaseLocal_keeps _ h0 (m.sub rfl)) (emit_keeps _ h0 (m.sub rfl)))) k1

theorem decideGroup_keeps (a0 : Nat) {a1 : State} (k1 : Keeps d L s0 a1) (m : May 0xe083581 L) : Keeps d L s0 (decideGroup a0 a1) := by
  unfold decideGroup
  split
  · exact k1
  · extract_lets z0 z1 z2 z3 z4
    clear_value z0 z1 z2
    have h5 : Keeps d L s0 z3 := by unfold z3; exact modMgr_keeps _ k1 (m.sub rfl)
    clear_value z3
    have h6 : Keeps d L s0 z4 := by unfold z4; exact each_keeps (fun _ _ h7 => Keeps.ite (commitLocal_keeps _ _ h7 (m.sub rfl)) (emit_keeps _ h7 (m.sub rfl))) h5
    clear_value z4
    refine Keeps.ite k1 ?_
    split
    · exact refuseGroup_keeps _ _ _ _ _ (releaseAll_keeps _ k1 (m.sub rfl)) (m.sub rfl)
    · split
      · exact refuseGroup_keeps _ _ _ _ _ (releaseAll_keeps _ k1 (m.sub rfl)) (m.sub rfl)
      · exact finishRing_keeps _ _ _ h6 (m.sub rfl)

theorem groupAnswer_keeps (a0 : GroupId) (a1 : AllocAns) {a2 : State} (k2 : Keeps d L s0 a2) (m : May 0xe083581 L) : Keeps d L s0 (groupAnswer a0 a1 a2) := by
  unfold groupAnswer
  split
  · exact k2
  · extract_lets z0 z1
    clear_value z0
    have h2 : Keeps d L s0 z1 := by unfold z1; exact modMgr_keeps _ k2 (m.sub rfl)
    clear_value z1
    exact Keeps.ite k2 (Keeps.ite (decideGroup_keeps _ h2 (m.sub rfl)) h2)

theorem createGroup_keeps (a0 : Option Nat) (a1 : Desc) {a2 : State} (k2 : Keeps d L s0 a2) (m : May 0xe083581 L) : Keeps d L s0 (createGroup a0 a1 a2) := by
  unfold createGroup
  split
  · extract_lets z0
    have h1 : Keeps d L s0 z0 := by unfold z0; exact logMb_keeps _ _ k2 (m.sub rfl)
    clear_value z0
    exact finishRing_keeps _ _ _ h1 (m.sub rfl)
  · extract_lets z2
    have h3 : Keeps d L s0 z2 := by unfold z2; exact modMgr_keeps _ k2 (m.sub rfl)
    clear_value z2
    refine each_keeps (fun _ _ h4 => ?_) h3
    extract_lets z5
    clear_value z5
    refine Keeps.ite ?_ (emit_keeps _ h4 (m.sub rfl))
    split
    · rename_i y6 _ y7 e8
      have h9 : Keeps d L s0 y7 := Keeps.snd_eq e8 (allocate_keeps _ h4 (m.sub rfl))
      exact groupAnswer_keeps _ _ h9 (m.sub rfl)

theorem serveAlloc_keeps (a0 : AllocMsg) {a1 : State} (k1 : Keeps d L s0 a1) (m : May 0xe083581 L) : Keeps d L s0 (serveAlloc a0 a1) := by
  unfold serveAlloc
  refine Keeps.ite k1 ?_
  split
  · rename_i y0 _ y1 e2
    have h3 : Keeps d L s0 y1 := Keeps.snd_eq e2 (allocate_keeps _ k1 (m.sub rfl))
    exact Keeps.ite (groupAnswer_keeps _ _ h3 (m.sub rfl)) (emit_keeps _ h3 (m.sub rfl))

theorem execContextAllocation_keeps (a0 : AllocMsg) {a1 : State} (k1 : Keeps d L s0 a1) (m : May 0xe0835c1 L) : KeepsO d L s0 (execContextAllocation a0 a1) := by
  unfold execContextAllocation
  exact KeepsO.next (Keeps.ite k1 (Keeps.ite (modPwr_keeps _ (Keeps.ite k1 (wakeQuiet_keeps (noteWake_keeps _ k1 (m.sub rfl)) (m.sub rfl))) (m.sub rfl)) (serveAlloc_keeps _ k1 (m.sub rfl))))

theorem execAllocationAnswer_keeps (a0 : GroupId) (a1 : Coord) (a2 : Byte) (a3 : Word) (a4 : BitVec 2) (a5 : List Word) {a6 : State} (k6 : Keeps d L s0 a6) (m : May 0xe083581 L) :
    KeepsO d L s0 (execAllocationAnswer a0 a1 a2 a3 a4 a5 a6) := by
  unfold execAllocationAnswer
  exact KeepsO.next (Keeps.ite (groupAnswer_keeps _ _ k6 (m.sub rfl)) k6)

theorem execAllocationTimeout_keeps (a0 : GroupId) {a1 : State} (k1 : Keeps d L s0 a1) (m : May 0x4e083581 L) : KeepsO d L s0 (execAllocationTimeout a0 a1) := by
  unfold execAllocationTimeout
  refine KeepsO.next ?_
  split
  · exact Keeps.ite (decideGroup_keeps _ (clockTo_keeps _ k1 (m.sub rfl)) (m.sub rfl)) k1
  · exact k1

theorem execCommit_keeps (a0 : GroupId) (a1 : Bool) {a2 : State} (k2 : Keeps d L s0 a2) (m : May 0x6082581 L) : KeepsO d L s0 (execCommit a0 a1 a2) := by
  unfold execCommit
  exact KeepsO.next (Keeps.ite (commitLocal_keeps _ _ k2 (m.sub rfl)) k2)

theorem execRelease_keeps (a0 : GroupId) {a1 : State} (k1 : Keeps d L s0 a1) (m : May 0x6cb1081 L) : KeepsO d L s0 (execRelease a0 a1) := by
  unfold execRelease
  exact KeepsO.next (Keeps.ite (deleteLocal_keeps _ k1 (m.sub rfl)) k1)

theorem execReservationExpiry_keeps (a0 : Slot) {a1 : State} (k1 : Keeps d L s0 a1) (m : May 0x46081080 L) : KeepsO d L s0 (execReservationExpiry a0 a1) := by
  unfold execReservationExpiry
  refine KeepsO.next ?_
  split
  · exact Keeps.ite (freeCtx_keeps _ (clockTo_keeps _ k1 (m.sub rfl)) (m.sub rfl)) k1
  · exact k1

/-! ## Steps -/

theorem popInbox_keeps (a0 : Nat) {a1 : State} (k1 : Keeps d L s0 a1) (m : May 0x2000000 L) : Keeps d L s0 (popInbox a0 a1) := by
  unfold popInbox
  exact modRed_keeps _ _ k1 (m.sub rfl)

theorem eatFront_keeps (a0 : Nat) (a1 : Nat) {a2 : State} (k2 : Keeps d L s0 a2) (m : May 0x2400000 L) : Keeps d L s0 (eatFront a0 a1 a2) := by
  unfold eatFront
  exact setPkt_keeps _ _ (popInbox_keeps _ k2 (m.sub rfl)) (m.sub rfl)

theorem dropAt_keeps (a0 : Nat) (a1 : Nat) {a2 : State} (k2 : Keeps d L s0 a2) (m : May 0x2000000 L) : Keeps d L s0 (dropAt a0 a1 a2) := by
  unfold dropAt
  exact redCnt_keeps _ _ _ k2 (m.sub rfl)

theorem onCtrl_keeps (a0 : Nat) (a1 : Nat) (a2 : Nat → Ctx → Nat → Pkt → State → State) {a3 : State} (k2 : ∀ x0 x1 x2 x3 y, Keeps d L s0 y → Keeps d L s0 (a2 x0 x1 x2 x3 y)) (k3 : Keeps d L s0 a3) (m : May 0x2400000 L) :
    Keeps d L s0 (onCtrl a0 a1 a2 a3) := by
  unfold onCtrl
  split
  · exact k3
  · refine Keeps.ite k3 ?_
    split
    · exact eatFront_keeps _ _ k3 (m.sub rfl)
    · split
      · exact eatFront_keeps _ _ k3 (m.sub rfl)
      · extract_lets z0 z1 z2
        clear_value z0 z1 z2
        exact Keeps.ite (dropAt_keeps _ _ (eatFront_keeps _ _ k3 (m.sub rfl)) (m.sub rfl)) (Keeps.ite k3 (Keeps.ite (dropAt_keeps _ _ (eatFront_keeps _ _ k3 (m.sub rfl)) (m.sub rfl)) (k2 _ _ _ _ _ (eatFront_keeps _ _ k3 (m.sub rfl)))))

theorem openStep_keeps (a0 : Nat) (a1 : StepNo) (a2 : Nat) (a3 : List Word) (a4 : BitVec 80) (a5 : Bool) {a6 : State} (k6 : Keeps d L s0 a6) (m : May 0x4cb0081 L) :
    Keeps d L s0 (openStep a0 a1 a2 a3 a4 a5 a6) := by
  unfold openStep
  split
  · exact k6
  · extract_lets z0 z1
    have h2 : Keeps d L s0 z0 := by unfold z0; exact modCtx_keeps _ _ k6 (m.sub rfl)
    clear_value z0
    have h3 : Keeps d L s0 z1 := by unfold z1; exact iff_keeps _ (fun _ h4 => ctrlDown_keeps _ _ _ _ _ _ h4 (m.sub rfl)) h2
    clear_value z1
    exact sendWindows_keeps _ _ h3 (m.sub rfl)

theorem openReady_keeps (a0 : Nat) (a1 : BitVec 80) {a2 : State} (k2 : Keeps d L s0 a2) (m : May 0x4cb0081 L) : Keeps d L s0 (openReady a0 a1 a2) := by
  unfold openReady
  split
  · exact k2
  · split
    · exact k2
    · exact Keeps.ite (openStep_keeps _ _ _ _ _ _ (modCtx_keeps _ _ k2 (m.sub rfl)) (m.sub rfl)) k2

theorem acceptStart_keeps (a0 : Nat) (a1 : HeldCtrl) {a2 : State} (k2 : Keeps d L s0 a2) (m : May 0x4cb0081 L) : Keeps d L s0 (acceptStart a0 a1 a2) := by
  unfold acceptStart
  split
  · exact k2
  · extract_lets z0 z1 z2
    clear_value z0
    have h3 : Keeps d L s0 z1 := by unfold z1; exact iff_keeps _ (fun _ h4 => openReady_keeps _ _ h4 (m.sub rfl)) k2
    clear_value z1
    have h5 : Keeps d L s0 z2 := by unfold z2; exact modCtx_keeps _ _ h3 (m.sub rfl)
    clear_value z2
    refine Keeps.ite (answerLeader_keeps _ _ _ _ k2 (m.sub rfl)) ?_
    split
    · exact h3
    · exact Keeps.ite (answerLeader_keeps _ _ _ _ h3 (m.sub rfl)) (Keeps.ite (ctrlDown_keeps _ _ _ _ _ _ h5 (m.sub rfl)) (modCtx_keeps _ _ h3 (m.sub rfl)))

theorem rootCtrl_keeps (a0 : Nat) (a1 : HeldCtrl) {a2 : State} (k2 : Keeps d L s0 a2) (m : May 0x6cb1081 L) : Keeps d L s0 (rootCtrl a0 a1 a2) := by
  unfold rootCtrl
  split
  · exact k2
  · extract_lets z0
    have h1 : Keeps d L s0 z0 := by unfold z0; exact modCtx_keeps _ _ k2 (m.sub rfl)
    clear_value z0
    refine Keeps.ite k2 ?_
    refine Keeps.ite h1 ?_
    refine Keeps.ite (stopStep_keeps _ _ _ k2 (m.sub rfl)) ?_
    split
    · exact answerLeader_keeps _ _ _ _ k2 (m.sub rfl)
    · exact answerLeader_keeps _ _ _ _ k2 (m.sub rfl)
    · exact Keeps.ite h1 (acceptStart_keeps _ _ k2 (m.sub rfl))

theorem replayHeld_keeps (a0 : Nat) {a1 : State} (k1 : Keeps d L s0 a1) (m : May 0x6cb1081 L) : Keeps d L s0 (replayHeld a0 a1) := by
  unfold replayHeld
  split
  · exact k1
  · exact each_keeps (fun _ _ h0 => rootCtrl_keeps _ _ h0 (m.sub rfl)) (modCtx_keeps _ _ k1 (m.sub rfl))

theorem onRootCtrl_keeps (a0 : Nat) (a1 : Nat) {a2 : State} (k2 : Keeps d L s0 a2) (m : May 0x6cb1081 L) : Keeps d L s0 (onRootCtrl a0 a1 a2) := by
  unfold onRootCtrl
  split
  · exact k2
  · refine Keeps.ite ?_ (onCtrl_keeps _ _ _ (fun _ _ _ _ _ h0 => h0) k2 (m.sub rfl))
    split
    · exact rootCtrl_keeps _ _ (eatFront_keeps _ _ k2 (m.sub rfl)) (m.sub rfl)
    · exact eatFront_keeps _ _ k2 (m.sub rfl)

theorem stepEndAt_keeps (a0 : Nat) (a1 : Ctx) (a2 : Pkt) {a3 : State} (k3 : Keeps d L s0 a3) (m : May 0x6cb1081 L) : Keeps d L s0 (stepEndAt a0 a1 a2 a3) := by
  unfold stepEndAt
  extract_lets z0 z1
  clear_value z0 z1
  refine Keeps.ite ?_ (freeIfDeleting_keeps _ (closeStep_keeps _ _ _ _ _ (sendMany_keeps _ _ _ _ k3 (m.sub rfl)) (m.sub rfl)) (m.sub rfl))
  split
  · exact sendOne_keeps _ _ _ _ k3 (m.sub rfl)
  · exact k3

theorem stepOpenAt_stopLoads_keeps (a0 : Ctx) {a1 : State} (k1 : Keeps d L s0 a1) (m : May 0x400 L) : Keeps d L s0 (stepOpenAt.stopLoads a0 a1) := by
  unfold stepOpenAt.stopLoads
  split
  · exact each_keeps (fun _ _ h0 => modRing_keeps _ _ h0 (m.sub rfl)) k1
  · exact k1

theorem stepOpenAt_keeps (a0 : Nat) (a1 : Ctx) (a2 : Pkt) {a3 : State} (k3 : Keeps d L s0 a3) (m : May 0x4cb0481 L) : Keeps d L s0 (stepOpenAt a0 a1 a2 a3) := by
  unfold stepOpenAt
  extract_lets z0 z1 z2
  clear_value z0 z1
  have h3 : Keeps d L s0 z2 := by unfold z2; exact iff_keeps _ (fun _ h4 => stepOpenAt_stopLoads_keeps _ h4 (m.sub rfl)) k3
  clear_value z2
  split
  · exact sendMany_keeps _ _ _ _ (modCtx_keeps _ _ h3 (m.sub rfl)) (m.sub rfl)
  · exact Keeps.ite (openStep_keeps _ _ _ _ _ _ h3 (m.sub rfl)) h3

theorem windowAt_keeps (a0 : Nat) (a1 : Pkt) {a2 : State} (k2 : Keeps d L s0 a2) (m : May 0x4000000 L) : Keeps d L s0 (windowAt a0 a1 a2) := by
  unfold windowAt
  exact modCtx_keeps _ _ k2 (m.sub rfl)

theorem failAt_keeps (a0 : Nat) (a1 : Ctx) (a2 : Pkt) {a3 : State} (k3 : Keeps d L s0 a3) (m : May 0x6cb1081 L) : Keeps d L s0 (failAt a0 a1 a2 a3) := by
  unfold failAt
  refine Keeps.ite (failStep_keeps _ _ _ _ k3 (m.sub rfl)) ?_
  split
  · exact sendOne_keeps _ _ _ _ k3 (m.sub rfl)
  · exact k3

theorem openByChunk_keeps (a0 : Nat) (a1 : StepNo) {a2 : State} (k2 : Keeps d L s0 a2) (m : May 0x4cb0081 L) : Keeps d L s0 (openByChunk a0 a1 a2) := by
  unfold openByChunk
  split
  · exact k2
  · exact Keeps.ite (openStep_keeps _ _ _ _ _ _ k2 (m.sub rfl)) k2

theorem contribAt_keeps (a0 : Nat) (a1 : Pkt) {a2 : State} (k2 : Keeps d L s0 a2) (m : May 0x6cb0081 L) : Keeps d L s0 (contribAt a0 a1 a2) := by
  unfold contribAt
  split
  · exact k2
  · extract_lets z0 z1 z2
    clear_value z0
    have h3 : Keeps d L s0 z1 := by unfold z1; exact openByChunk_keeps _ _ k2 (m.sub rfl)
    clear_value z1
    have h4 : ∀ x0 x1, Keeps d L s0 x1 → Keeps d L s0 (z2 x0 x1) := by
      intro x0 x1 h5
      unfold z2
      exact modCtx_keeps _ _ h5 (m.sub rfl)
    clear_value z2
    split
    · exact dropAt_keeps _ _ (modCtx_keeps _ _ k2 (m.sub rfl)) (m.sub rfl)
    · split
      · exact dropAt_keeps _ _ h3 (m.sub rfl)
      · refine Keeps.ite (h4 _ _ h3) ?_
        split
        · exact dropAt_keeps _ _ (h4 _ _ h3) (m.sub rfl)
        · exact h4 _ _ h3

theorem onChunk_keeps (a0 : Nat) (a1 : State → Ctx → Nat → Pkt → Bool) (a2 : Nat → Pkt → State → State) {a3 : State} (k2 : ∀ x0 x1 y, Keeps d L s0 y → Keeps d L s0 (a2 x0 x1 y)) (k3 : Keeps d L s0 a3) (m : May 0x2400000 L) :
    Keeps d L s0 (onChunk a0 a1 a2 a3) := by
  unfold onChunk
  split
  · exact k3
  · refine Keeps.ite k3 ?_
    split
    · exact eatFront_keeps _ _ k3 (m.sub rfl)
    · split
      · exact eatFront_keeps _ _ k3 (m.sub rfl)
      · exact Keeps.ite (k2 _ _ _ (eatFront_keeps _ _ k3 (m.sub rfl))) k3

theorem passDown_keeps (a0 : Nat) (a1 : Pkt) {a2 : State} (k2 : Keeps d L s0 a2) (m : May 0x2cb0081 L) : Keeps d L s0 (passDown a0 a1 a2) := by
  unfold passDown
  split
  · exact k2
  · split
    · exact dropAt_keeps _ _ k2 (m.sub rfl)
    · exact Keeps.ite (dropAt_keeps _ _ k2 (m.sub rfl)) (sendMany_keeps _ _ _ _ k2 (m.sub rfl))

theorem loseStep_keeps (a0 : Nat) (a1 : StepNo) (a2 : Bool) {a3 : State} (k3 : Keeps d L s0 a3) (m : May 0x6cb1081 L) : Keeps d L s0 (loseStep a0 a1 a2 a3) := by
  unfold loseStep
  exact endStep_keeps _ _ _ _ _ (modCtx_keeps _ _ k3 (m.sub rfl)) (m.sub rfl)

theorem failLost_keeps (a0 : Nat) (a1 : StepNo) (a2 : Bool) {a3 : State} (k3 : Keeps d L s0 a3) (m : May 0x6cb1081 L) : Keeps d L s0 (failLost a0 a1 a2 a3) := by
  unfold failLost
  split
  · exact k3
  · exact Keeps.ite (loseStep_keeps _ _ _ k3 (m.sub rfl)) (failStep_keeps _ _ _ _ k3 (m.sub rfl))

theorem loseClosed_keeps (a0 : Nat) (a1 : Bool) {a2 : State} (k2 : Keeps d L s0 a2) (m : May 0x6cb1081 L) : Keeps d L s0 (loseClosed a0 a1 a2) := by
  unfold loseClosed
  split
  · exact k2
  · extract_lets z0 z1 z2
    clear_value z0 z1
    have h3 : Keeps d L s0 z2 := by unfold z2; exact modCtx_keeps _ _ k2 (m.sub rfl)
    clear_value z2
    exact sweepInsts_keeps _ (Keeps.ite h3 (each_keeps (fun _ _ h4 => releaseEnd_keeps _ _ h4 (m.sub rfl)) h3)) (m.sub rfl)

theorem discardFor_keeps (a0 : Nat) {a1 : State} (k1 : Keeps d L s0 a1) (m : May 0x6480000 L) : Keeps d L s0 (discardFor a0 a1) := by
  unfold discardFor
  extract_lets z0 z1
  have h2 : Keeps d L s0 z0 := by unfold z0; exact each_keeps (fun _ _ h3 => Keeps.ite (discardChunk_keeps _ h3 (m.sub rfl)) h3) k1
  clear_value z0
  have h4 : Keeps d L s0 z1 := by unfold z1; exact modRed_keeps _ _ h2 (m.sub rfl)
  clear_value z1
  refine each_keeps (fun _ _ h5 => ?_) h4
  refine each_keeps (fun _ _ h6 => ?_) h5
  extract_lets z7 z8 z9 z10
  clear_value z7 z8 z9
  have h11 : Keeps d L s0 z10 := by unfold z10; exact each_keeps (fun _ _ h12 => discardChunk_keeps _ h12 (m.sub rfl)) h6
  clear_value z10
  exact modSwc_keeps _ _ h11 (m.sub rfl)

theorem ctxMoving_keeps (a0 : Nat) {a1 : State} (k1 : Keeps d L s0 a1) (m : May 0x6cb1081 L) : Keeps d L s0 (ctxMoving a0 a1) := by
  unfold ctxMoving
  split
  · exact k1
  · extract_lets z0 z1
    have h2 : Keeps d L s0 z0 := by unfold z0; exact modCtx_keeps _ _ k1 (m.sub rfl)
    clear_value z0
    have h3 : Keeps d L s0 z1 := by unfold z1; exact each_keeps (fun _ _ h4 => failLost_keeps _ _ _ h4 (m.sub rfl)) h2
    clear_value z1
    exact loseClosed_keeps _ _ h3 (m.sub rfl)

theorem reportShard_keeps (a0 : Ctx) {a1 : State} (k1 : Keeps d L s0 a1) (m : May 0x1 L) : Keeps d L s0 (reportShard a0 a1) := by
  unfold reportShard
  exact emit_keeps _ k1 (m.sub rfl)

theorem shardGone_keeps (a0 : Nat) {a1 : State} (k1 : Keeps d L s0 a1) (m : May 0x4002581 L) : Keeps d L s0 (shardGone a0 a1) := by
  unfold shardGone
  split
  · exact k1
  · extract_lets z0
    have h1 : Keeps d L s0 z0 := by unfold z0; exact modCtx_keeps _ _ k1 (m.sub rfl)
    clear_value z0
    exact logEvent_keeps _ _ _ _ h1 (m.sub rfl)

theorem shardsLost_keeps (a0 : Nat) {a1 : State} (k1 : Keeps d L s0 a1) (m : May 0x6cb3581 L) : Keeps d L s0 (shardsLost a0 a1) := by
  unfold shardsLost
  refine each_keeps (fun _ _ h0 => ?_) k1
  split
  · exact h0
  · extract_lets z1
    have h2 : Keeps d L s0 z1 := by unfold z1; exact loseClosed_keeps _ _ (each_keeps (fun _ _ h3 => failLost_keeps _ _ _ h3 (m.sub rfl)) h0) (m.sub rfl)
    clear_value z1
    exact Keeps.ite h0 (Keeps.ite (Keeps.ite h2 (shardGone_keeps _ h2 (m.sub rfl))) (reportShard_keeps _ h0 (m.sub rfl)))

theorem loseStack_keeps (a0 : Nat) {a1 : State} (k1 : Keeps d L s0 a1) (m : May 0x16cb35e1 L) : Keeps d L s0 (loseStack a0 a1) := by
  unfold loseStack
  extract_lets z0 z1 z2 z3
  have h4 : Keeps d L s0 z0 := by unfold z0; exact logEvent_keeps _ _ _ _ k1 (m.sub rfl)
  clear_value z0
  have h5 : Keeps d L s0 z1 := by unfold z1; exact modUnits_keeps _ h4 (m.sub rfl)
  clear_value z1
  have h6 : Keeps d L s0 z2 := by unfold z2; exact disarmAt_keeps _ h5 (m.sub rfl)
  clear_value z2
  have h7 : Keeps d L s0 z3 := by unfold z3; exact poolsLoseStack_keeps _ (modStack_keeps _ _ h6 (m.sub rfl)) (m.sub rfl)
  clear_value z3
  exact Keeps.ite k1 (domsLost_keeps _ (shardsLost_keeps _ h7 (m.sub rfl)) (m.sub rfl))

theorem loseRed_keeps (a0 : Nat) (a1 : LossCause) {a2 : State} (k2 : Keeps d L s0 a2) (m : May 0x16cb35e1 L) : Keeps d L s0 (loseRed a0 a1 a2) := by
  unfold loseRed
  extract_lets z0 z1 z2 z3 z4 z5 z6 z7
  have h8 : Keeps d L s0 z0 := by unfold z0; exact logEvent_keeps _ _ _ _ k2 (m.sub rfl)
  clear_value z0
  have h9 : Keeps d L s0 z1 := by unfold z1; exact discardFor_keeps _ h8 (m.sub rfl)
  clear_value z1
  have h10 : Keeps d L s0 z2 := by unfold z2; exact modUnits_keeps _ h9 (m.sub rfl)
  clear_value z2 z3
  have h11 : Keeps d L s0 z4 := by
    unfold z4
    refine each_keeps (fun _ _ h12 => ?_) h10
    split
    · exact reportShard_keeps _ h12 (m.sub rfl)
    · exact h12
  clear_value z4
  have h13 : Keeps d L s0 z5 := by unfold z5; exact modRed_keeps _ _ (each_keeps (fun _ _ h14 => ctxMoving_keeps _ h14 (m.sub rfl)) h11) (m.sub rfl)
  clear_value z5
  have h15 : Keeps d L s0 z6 := by unfold z6; exact disarmAt_keeps _ h13 (m.sub rfl)
  clear_value z6
  have h16 : Keeps d L s0 z7 := by unfold z7; exact loseStack_keeps _ (loseStack_keeps _ (poolsLoseDie_keeps _ h15 (m.sub rfl)) (m.sub rfl)) (m.sub rfl)
  clear_value z7
  exact Keeps.ite k2 (domsLost_keeps _ h16 (m.sub rfl))

theorem rehome_keeps (a0 : Nat) {a1 : State} (k1 : Keeps d L s0 a1) (m : May 0x6082581 L) : Keeps d L s0 (rehome a0 a1) := by
  unfold rehome
  split
  · exact k1
  · split
    · extract_lets z0 z1 z2
      clear_value z0
      have h3 : Keeps d L s0 z1 := by unfold z1; exact modRed_keeps _ _ k1 (m.sub rfl)
      clear_value z1 z2
      exact redCnt_keeps _ _ _ (writeMap_keeps _ _ (setCtx_keeps _ _ h3 (m.sub rfl)) (m.sub rfl)) (m.sub rfl)
    · extract_lets z4
      have h5 : Keeps d L s0 z4 := by unfold z4; exact modCtx_keeps _ _ k1 (m.sub rfl)
      clear_value z4
      exact logEvent_keeps _ _ _ _ h5 (m.sub rfl)

theorem settleMoved_keeps (a0 : Nat) {a1 : State} (k1 : Keeps d L s0 a1) (m : May 0x6cb1081 L) : Keeps d L s0 (settleMoved a0 a1) := by
  unfold settleMoved
  split
  · exact k1
  · extract_lets z0
    have h1 : Keeps d L s0 z0 := by unfold z0; exact each_keeps (fun _ _ h2 => releaseEnd_keeps _ _ h2 (m.sub rfl)) k1
    clear_value z0
    exact freeIfDeleting_keeps _ (replayHeld_keeps _ h1 (m.sub rfl)) (m.sub rfl)

theorem rehomeOne_keeps (a0 : Nat) (a1 : Nat) {a2 : State} (k2 : Keeps d L s0 a2) (m : May 0x6cb3581 L) : Keeps d L s0 (rehomeOne a0 a1 a2) := by
  unfold rehomeOne
  split
  · exact k2
  · exact Keeps.ite (Keeps.ite k2 (settleMoved_keeps _ (shardGone_keeps _ k2 (m.sub rfl)) (m.sub rfl))) (settleMoved_keeps _ (rehome_keeps _ k2 (m.sub rfl)) (m.sub rfl))

theorem execStepStart_keeps (a0 : RedDie) {a1 : State} (k1 : Keeps d L s0 a1) (m : May 0x6cb1081 L) : KeepsO d L s0 (execStepStart a0 a1) := by
  unfold execStepStart
  exact KeepsO.next (onRootCtrl_keeps _ _ k1 (m.sub rfl))

theorem execRootStepOpen_keeps (a0 : Slot) {a1 : State} (k1 : Keeps d L s0 a1) (m : May 0x4cb0081 L) : KeepsO d L s0 (execRootStepOpen a0 a1) := by
  unfold execRootStepOpen
  refine KeepsO.next ?_
  split
  · exact Keeps.ite (openReady_keeps _ _ k1 (m.sub rfl)) k1
  · exact k1

theorem execStepOpen_keeps (a0 : RedDie) {a1 : State} (k1 : Keeps d L s0 a1) (m : May 0x6cb0481 L) : KeepsO d L s0 (execStepOpen a0 a1) := by
  unfold execStepOpen
  exact KeepsO.next (onCtrl_keeps _ _ _ (fun _ _ _ _ _ h0 => Keeps.ite (stepOpenAt_keeps _ _ _ h0 (m.sub rfl)) h0) k1 (m.sub rfl))

theorem execWindow_keeps (a0 : RedDie) {a1 : State} (k1 : Keeps d L s0 a1) (m : May 0x6400000 L) : KeepsO d L s0 (execWindow a0 a1) := by
  unfold execWindow
  exact KeepsO.next (onCtrl_keeps _ _ _ (fun _ _ _ _ _ h0 => Keeps.ite (windowAt_keeps _ _ h0 (m.sub rfl)) h0) k1 (m.sub rfl))

theorem execStepEnd_keeps (a0 : RedDie) {a1 : State} (k1 : Keeps d L s0 a1) (m : May 0x6cb1081 L) : KeepsO d L s0 (execStepEnd a0 a1) := by
  unfold execStepEnd
  exact KeepsO.next (onCtrl_keeps _ _ _ (fun _ _ _ _ _ h0 => Keeps.ite (stepEndAt_keeps _ _ _ h0 (m.sub rfl)) h0) k1 (m.sub rfl))

theorem execStop_keeps (a0 : RedDie) {a1 : State} (k1 : Keeps d L s0 a1) (m : May 0x6cb1081 L) : KeepsO d L s0 (execStop a0 a1) := by
  unfold execStop
  exact KeepsO.next (onRootCtrl_keeps _ _ k1 (m.sub rfl))

theorem execFail_keeps (a0 : RedDie) {a1 : State} (k1 : Keeps d L s0 a1) (m : May 0x6cb1081 L) : KeepsO d L s0 (execFail a0 a1) := by
  unfold execFail
  exact KeepsO.next (onCtrl_keeps _ _ _ (fun _ _ _ _ _ h0 => Keeps.ite (failAt_keeps _ _ _ h0 (m.sub rfl)) h0) k1 (m.sub rfl))

theorem execChunkContribution_keeps (a0 : RedDie) {a1 : State} (k1 : Keeps d L s0 a1) (m : May 0x6cb0081 L) : KeepsO d L s0 (execChunkContribution a0 a1) := by
  unfold execChunkContribution
  exact KeepsO.next (onChunk_keeps _ _ _ (fun _ _ _ h0 => contribAt_keeps _ _ h0 (m.sub rfl)) k1 (m.sub rfl))

theorem execResultPassDown_keeps (a0 : RedDie) {a1 : State} (k1 : Keeps d L s0 a1) (m : May 0x2cb0081 L) : KeepsO d L s0 (execResultPassDown a0 a1) := by
  unfold execResultPassDown
  exact KeepsO.next (onChunk_keeps _ _ _ (fun _ _ _ h0 => passDown_keeps _ _ h0 (m.sub rfl)) k1 (m.sub rfl))

theorem execStepTimerExpiry_keeps (a0 : Slot) {a1 : State} (k1 : Keeps d L s0 a1) (m : May 0x46cb3581 L) : KeepsO d L s0 (execStepTimerExpiry a0 a1) := by
  unfold execStepTimerExpiry
  refine KeepsO.next ?_
  split
  · exact k1
  · extract_lets z0
    clear_value z0
    split
    · extract_lets z1
      have h2 : Keeps d L s0 z1 := by unfold z1; exact clockTo_keeps _ k1 (m.sub rfl)
      clear_value z1
      refine Keeps.ite k1 ?_
      split
      · exact failStraggler_keeps _ _ _ h2 (m.sub rfl)
      · exact failStep_keeps _ _ _ _ (redCnt_keeps _ _ _ h2 (m.sub rfl)) (m.sub rfl)
    · exact k1

theorem execReductionDieLost_keeps (a0 : RedDie) (a1 : LossCause) {a2 : State} (k2 : Keeps d L s0 a2) (m : May 0x16cb35e1 L) :
    KeepsO d L s0 (execReductionDieLost a0 a1 a2) := by
  unfold execReductionDieLost
  exact KeepsO.next (Keeps.ite (loseRed_keeps _ _ k2 (m.sub rfl)) k2)

theorem execRehomeDone_keeps (a0 : RedDie) {a1 : State} (k1 : Keeps d L s0 a1) (m : May 0x6cb3581 L) : KeepsO d L s0 (execRehomeDone a0 a1) := by
  unfold execRehomeDone
  extract_lets z0 z1 z2
  clear_value z0
  have h3 : Keeps d L s0 z1 := by unfold z1; exact modRed_keeps _ _ (each_keeps (fun _ _ h4 => rehomeOne_keeps _ _ h4 (m.sub rfl)) k1) (m.sub rfl)
  clear_value z1 z2
  exact KeepsO.next (Keeps.ite k1 (logEvent_keeps _ _ _ _ h3 (m.sub rfl)))

/-! ## Program -/

theorem modInst_keeps (a0 : InstId) (a1 : Inst → Inst) {a2 : State} (k2 : Keeps d L s0 a2) (m : May 0x4000000 L) : Keeps d L s0 (modInst a0 a1 a2) := by
  unfold modInst
  exact modCtx_keeps _ _ k2 (m.sub rfl)

theorem modStepOf_keeps (a0 : InstId) (a1 : Step → Step) {a2 : State} (k2 : Keeps d L s0 a2) (m : May 0x4000000 L) : Keeps d L s0 (modStepOf a0 a1 a2) := by
  unfold modStepOf
  exact modCtx_keeps _ _ k2 (m.sub rfl)

theorem advance1_keeps (a0 : InstId) (a1 : Nat) {a2 : State} (k2 : Keeps d L s0 a2) (m : May 0x4000000 L) : Keeps d L s0 (advance1 a0 a1 a2) := by
  unfold advance1
  exact modInst_keeps _ _ k2 (m.sub rfl)

theorem haltAt_keeps (a0 : InstId) (a1 : Here) {a2 : State} (k2 : Keeps d L s0 a2) (m : May 0x2000000 L) : Keeps d L s0 (haltAt a0 a1 a2) := by
  unfold haltAt
  exact Keeps.ite (modRed_keeps _ _ k2 (m.sub rfl)) k2

theorem dropChunk_keeps (a0 : InstId) {a1 : State} (k1 : Keeps d L s0 a1) (m : May 0x6001080 L) : Keeps d L s0 (dropChunk a0 a1) := by
  unfold dropChunk
  exact sweepInsts_keeps _ (modCtx_keeps _ _ k1 (m.sub rfl)) (m.sub rfl)

theorem trap_keeps (a0 : InstId) (a1 : Here) (a2 : Bool) (a3 : Nat) (a4 : Option Nat) (a5 : Nat) (a6 : Nat) {a7 : State} (k7 : Keeps d L s0 a7) (m : May 0x6cb1081 L) :
    Keeps d L s0 (trap a0 a1 a2 a3 a4 a5 a6 a7) := by
  unfold trap
  extract_lets z0 z1 z2 z3 z4 z5 z6 z7 z8 z9
  clear_value z0 z1 z2 z3
  have h10 : Keeps d L s0 z4 := by unfold z4; exact redCnt_keeps _ _ _ k7 (m.sub rfl)
  clear_value z4
  have h11 : Keeps d L s0 z5 := by unfold z5; exact modCtx_keeps _ _ h10 (m.sub rfl)
  clear_value z5 z6 z7 z8
  have h12 : Keeps d L s0 z9 := by unfold z9; exact iff_keeps _ (fun _ h13 => modCtx_keeps _ _ h13 (m.sub rfl)) (dropChunk_keeps _ h11 (m.sub rfl))
  clear_value z9
  exact failStep_keeps _ _ _ _ h12 (m.sub rfl)

theorem noteOvf_keeps (a0 : InstId) {a1 : State} (k1 : Keeps d L s0 a1) (m : May 0x4000000 L) : Keeps d L s0 (noteOvf a0 a1) := by
  unfold noteOvf
  exact modCtx_keeps _ _ k1 (m.sub rfl)

theorem noteFlags_keeps (a0 : InstId) (a1 : Nat) (a2 : Nat) (a3 : Nat) {a4 : State} (k4 : Keeps d L s0 a4) (m : May 0x6000000 L) :
    Keeps d L s0 (noteFlags a0 a1 a2 a3 a4) := by
  unfold noteFlags
  extract_lets z0
  have h1 : Keeps d L s0 z0 := by unfold z0; exact iff_keeps _ (fun _ h2 => redCnt_keeps _ _ _ (noteOvf_keeps _ h2 (m.sub rfl)) (m.sub rfl)) k4
  clear_value z0
  exact iff_keeps _ (fun _ h3 => redCnt_keeps _ _ _ (modCtx_keeps _ _ h3 (m.sub rfl)) (m.sub rfl)) h1

theorem strike_keeps (a0 : Nat) (a1 : Nat) (a2 : Bool) {a3 : State} (k3 : Keeps d L s0 a3) (m : May 0x2002581 L) : Keeps d L s0 (strike a0 a1 a2 a3) := by
  unfold strike
  extract_lets z0 z1
  have h2 : Keeps d L s0 z0 := by unfold z0; exact logEvent'_keeps _ _ _ _ _ _ _ (redCnt_keeps _ _ _ k3 (m.sub rfl)) (m.sub rfl)
  clear_value z0 z1
  exact Keeps.ite (logEvent'_keeps _ _ _ _ _ _ _ (modRed_keeps _ _ h2 (m.sub rfl)) (m.sub rfl)) (modRed_keeps _ _ h2 (m.sub rfl))

theorem residue_keeps (a0 : Nat) (a1 : List (Fin 128)) (a2 : Bool) (a3 : Option (Fin 128)) {a4 : State} (k4 : Keeps d L s0 a4) (m : May 0x2002581 L) :
    Keeps d L s0 (residue a0 a1 a2 a3 a4).2 := by
  unfold residue
  extract_lets z0 z1
  clear_value z0
  have h2 : Keeps d L s0 z1 := by unfold z1; exact each_keeps (fun _ _ h3 => strike_keeps _ _ _ h3 (m.sub rfl)) k4
  clear_value z1
  dsimp only
  exact iff_keeps _ (fun _ h4 => redCnt_keeps _ _ _ h4 (m.sub rfl)) h2

theorem injectLane_keeps (a0 : Nat) (a1 : Checks) {a2 : State} (k2 : Keeps d L s0 a2) (m : May 0x80 L) : Keeps d L s0 (injectLane a0 a1 a2).2.2 := by
  unfold injectLane
  extract_lets z0
  clear_value z0
  split
  · split
    · extract_lets z1
      clear_value z1
      dsimp only
      exact injSpent_keeps k2 (m.sub rfl)
    · exact k2
  · exact k2

theorem injectOff_keeps (a0 : Nat) {a1 : State} (k1 : Keeps d L s0 a1) (m : May 0x80 L) : Keeps d L s0 (injectOff a0 a1) := by
  unfold injectOff
  extract_lets z0
  clear_value z0
  exact Keeps.ite (modFlt_keeps _ (fun _ h => h) k1 (m.sub rfl)) k1

theorem checkWord_keeps (a0 : Nat) (a1 : Checks) (a2 : Nat → Bool) {a3 : State} (k3 : Keeps d L s0 a3) (m : May 0x16cb35e1 L) : Keeps d L s0 (checkWord a0 a1 a2 a3) := by
  unfold checkWord
  split
  · rename_i y0 _ _ y1 e2
    have h3 : Keeps d L s0 y1 := Keeps.trd_eq e2 (injectLane_keeps _ _ k3 (m.sub rfl))
    split
    · rename_i y4 _ y5 e6
      have h7 : Keeps d L s0 y5 := by
        refine Keeps.snd_eq e6 ?_
        refine foldl_snd_keeps (fun _ _ _ h8 => ?_) h3
        extract_lets z9
        have h10 : Keeps d L s0 z9.2 := by unfold z9; exact residue_keeps _ _ _ _ h8 (m.sub rfl)
        clear_value z9
        exact h10
      exact injectOff_keeps _ (Keeps.ite (loseRed_keeps _ _ h7 (m.sub rfl)) h7) (m.sub rfl)

theorem countSram_keeps (a0 : Nat) (a1 : Nat) (a2 : Nat) {a3 : State} (k3 : Keeps d L s0 a3) (m : May 0x2000 L) : Keeps d L s0 (countSram a0 a1 a2 a3) := by
  unfold countSram
  exact countBytes_keeps _ _ k3 (m.sub rfl)

theorem accumulate_keeps (a0 : InstId) (a1 : Here) (a2 : Nat) (a3 : Checks) {a4 : State} (k4 : Keeps d L s0 a4) (m : May 0x16cb35e1 L) :
    Keeps d L s0 (accumulate a0 a1 a2 a3 a4) := by
  unfold accumulate
  split
  · exact k4
  · extract_lets z0 z1 z2 z3
    clear_value z0 z1
    have h4 : Keeps d L s0 z2 := by unfold z2; exact countSram_keeps _ _ _ k4 (m.sub rfl)
    clear_value z2
    have h5 : Keeps d L s0 z3 := by unfold z3; exact noteFlags_keeps _ _ _ _ h4 (m.sub rfl)
    clear_value z3
    refine Keeps.ite (modInst_keeps _ _ k4 (m.sub rfl)) ?_
    split
    · exact checkWord_keeps _ _ _ (trap_keeps _ _ _ _ _ _ _ h5 (m.sub rfl)) (m.sub rfl)
    · exact checkWord_keeps _ _ _ (modInst_keeps _ _ h5 (m.sub rfl)) (m.sub rfl)

theorem wordScl_keeps (a0 : InstId) (a1 : Here) (a2 : Checks) {a3 : State} (k3 : Keeps d L s0 a3) (m : May 0x16cb35e1 L) : Keeps d L s0 (wordScl a0 a1 a2 a3) := by
  unfold wordScl
  extract_lets z0 z1 z2
  clear_value z0 z2
  split
  · exact trap_keeps _ _ _ _ _ _ _ k3 (m.sub rfl)
  · exact checkWord_keeps _ _ _ (advance1_keeps _ _ (modInst_keeps _ _ (iff_keeps _ (fun _ h3 => noteOvf_keeps _ h3 (m.sub rfl)) k3) (m.sub rfl)) (m.sub rfl)) (m.sub rfl)

theorem laneDraws_keeps (a0 : Nat) {a1 : State} (k1 : Keeps d L s0 a1) (m : May 0x2000002 L) : Keeps d L s0 (laneDraws a0 a1).2 := by
  unfold laneDraws
  extract_lets z0
  clear_value z0
  split
  · rename_i y1 _ y2 e3
    have h4 : Keeps d L s0 y2 := Keeps.snd_eq e3 (draw_keeps k1 (m.sub rfl))
    extract_lets z5
    clear_value z5
    split
    · rename_i y6 _ y7 e8
      have h9 : Keeps d L s0 y7 := by
        refine Keeps.snd_eq e8 ?_
        split
        · exact h4
        · exact draw_keeps h4 (m.sub rfl)
      extract_lets z10
      clear_value z10
      dsimp only
      exact modRed_keeps _ _ h9 (m.sub rfl)

theorem castBlocks_keeps (a0 : InstId) (a1 : Here) (a2 : Nat) (a3 : Bool) (a4 : Bool) (a5 : List (List (Int × Int))) {a6 : State} (k6 : Keeps d L s0 a6) (m : May 0x2000002 L) :
    Keeps d L s0 (castBlocks a0 a1 a2 a3 a4 a5 a6).2 := by
  unfold castBlocks
  refine foldl_snd_keeps (fun _ _ _ h0 => ?_) k6
  split
  · split
    · rename_i y1 _ y2 e3
      have h4 : Keeps d L s0 y2 := by
        refine Keeps.snd_eq e3 ?_
        split
        · exact draw_keeps h0 (m.sub rfl)
        · exact h0
      exact h4
  · split
    · rename_i y5 _ y6 e7
      have h8 : Keeps d L s0 y6 := by
        refine Keeps.snd_eq e7 ?_
        split
        · exact h0
        · split
          · exact h0
          · exact laneDraws_keeps _ h0 (m.sub rfl)
      exact h8

theorem takeSpace_keeps (a0 : InstId) (a1 : Nat) (a2 : List Nat) {a3 : State} (k3 : Keeps d L s0 a3) (m : May 0x1080 L) : Keeps d L s0 (takeSpace a0 a1 a2 a3).2 := by
  unfold takeSpace
  extract_lets z0 z1 z2
  clear_value z0 z1
  have h5 : Keeps d L s0 z2 := by unfold z2; exact each_keeps (fun _ _ h6 => Keeps.ite h6 (poolAsk_keeps _ _ _ h6 (m.sub rfl))) k3
  clear_value z2
  exact h5

theorem wordCast_keeps (a0 : InstId) (a1 : Here) (a2 : Checks) {a3 : State} (k3 : Keeps d L s0 a3) (m : May 0x16cb35e3 L) : Keeps d L s0 (wordCast a0 a1 a2 a3) := by
  unfold wordCast
  extract_lets z0 z1 z2 z3
  clear_value z0 z1 z2 z3
  refine Keeps.ite k3 ?_
  split
  · rename_i y4 y5 e6
    have h7 : Keeps d L s0 y5 := Keeps.snd_eq e6 (takeSpace_keeps _ _ _ k3 (m.sub rfl))
    exact h7
  · rename_i y8 y9 e10
    have h11 : Keeps d L s0 y9 := Keeps.snd_eq e10 (takeSpace_keeps _ _ _ k3 (m.sub rfl))
    split
    · exact advance1_keeps _ _ (modInst_keeps _ _ h11 (m.sub rfl)) (m.sub rfl)
    · split
      · rename_i y12 _ y13 e14
        have h15 : Keeps d L s0 y13 := Keeps.snd_eq e14 (castBlocks_keeps _ _ _ _ _ _ h11 (m.sub rfl))
        extract_lets z16 z17 z18 z19
        clear_value z16 z17
        have h20 : Keeps d L s0 z18 := by unfold z18; exact countSram_keeps _ _ _ h15 (m.sub rfl)
        clear_value z18
        have h21 : Keeps d L s0 z19 := by unfold z19; exact noteFlags_keeps _ _ _ _ h20 (m.sub rfl)
        clear_value z19
        refine checkWord_keeps _ _ _ ?_ (m.sub rfl)
        split
        · exact Keeps.ite (trap_keeps _ _ _ _ _ _ _ h21 (m.sub rfl)) (advance1_keeps _ _ (modInst_keeps _ _ h21 (m.sub rfl)) (m.sub rfl))
        · exact advance1_keeps _ _ (modInst_keeps _ _ h21 (m.sub rfl)) (m.sub rfl)

theorem wordNorm_keeps (a0 : InstId) (a1 : Here) (a2 : Checks) {a3 : State} (k3 : Keeps d L s0 a3) (m : May 0x16cb35e1 L) : Keeps d L s0 (wordNorm a0 a1 a2 a3) := by
  unfold wordNorm
  extract_lets z0
  clear_value z0
  exact checkWord_keeps _ _ _ (advance1_keeps _ _ (modCtx_keeps _ _ k3 (m.sub rfl)) (m.sub rfl)) (m.sub rfl)

theorem wordDig_keeps (a0 : InstId) (a1 : Here) {a2 : State} (k2 : Keeps d L s0 a2) (m : May 0x4000000 L) : Keeps d L s0 (wordDig a0 a1 a2) := by
  unfold wordDig
  extract_lets z0
  clear_value z0
  exact advance1_keeps _ _ (iff_keeps _ (fun _ h1 => modCtx_keeps _ _ h1 (m.sub rfl)) k2) (m.sub rfl)

theorem wordSeed_keeps (a0 : InstId) (a1 : Here) {a2 : State} (k2 : Keeps d L s0 a2) (m : May 0x4000000 L) : Keeps d L s0 (wordSeed a0 a1 a2) := by
  unfold wordSeed
  extract_lets z0
  clear_value z0
  exact advance1_keeps _ _ (iff_keeps _ (fun _ h1 => modInst_keeps _ _ h1 (m.sub rfl)) k2) (m.sub rfl)

theorem wordHold_keeps (a0 : InstId) (a1 : Here) {a2 : State} (k2 : Keeps d L s0 a2) (m : May 0x4000000 L) : Keeps d L s0 (wordHold a0 a1 a2) := by
  unfold wordHold
  exact Keeps.ite (advance1_keeps _ _ k2 (m.sub rfl)) (modInst_keeps _ _ k2 (m.sub rfl))

theorem wordEmit_keeps (a0 : InstId) (a1 : Here) {a2 : State} (k2 : Keeps d L s0 a2) (m : May 0x4000000 L) : Keeps d L s0 (wordEmit a0 a1 a2) := by
  unfold wordEmit
  exact modInst_keeps _ _ k2 (m.sub rfl)

theorem wordFan_keeps (a0 : InstId) (a1 : Here) {a2 : State} (k2 : Keeps d L s0 a2) (m : May 0x4000000 L) : Keeps d L s0 (wordFan a0 a1 a2) := by
  unfold wordFan
  exact modInst_keeps _ _ k2 (m.sub rfl)

theorem grantDone_keeps (a0 : InstId) (a1 : Here) {a2 : State} (k2 : Keeps d L s0 a2) (m : May 0x4002000 L) : Keeps d L s0 (grantDone a0 a1 a2) := by
  unfold grantDone
  extract_lets z0 z1
  have h2 : Keeps d L s0 z0 := by unfold z0; exact countSram_keeps _ _ _ k2 (m.sub rfl)
  clear_value z0
  have h3 : Keeps d L s0 z1 := by unfold z1; exact advance1_keeps _ _ (modInst_keeps _ _ h2 (m.sub rfl)) (m.sub rfl)
  clear_value z1
  exact modCtx_keeps _ _ h3 (m.sub rfl)

theorem emitGrant_keeps (a0 : InstId) (a1 : Here) {a2 : State} (k2 : Keeps d L s0 a2) (m : May 0x4cb2081 L) : Keeps d L s0 (emitGrant a0 a1 a2) := by
  unfold emitGrant
  split
  · exact k2
  · refine Keeps.ite k2 ?_
    split
    · extract_lets z0
      have h1 : Keeps d L s0 z0 := by unfold z0; exact sendOne_keeps _ _ _ _ k2 (m.sub rfl)
      clear_value z0
      exact sendWindows_keeps _ _ (grantDone_keeps _ _ h1 (m.sub rfl)) (m.sub rfl)

theorem fanGrant_keeps (a0 : InstId) (a1 : Here) {a2 : State} (k2 : Keeps d L s0 a2) (m : May 0x6cb3081 L) : Keeps d L s0 (fanGrant a0 a1 a2) := by
  unfold fanGrant
  extract_lets z0 z1
  clear_value z0 z1
  refine Keeps.ite k2 ?_
  split
  · extract_lets z2 z3 z4
    have h5 : Keeps d L s0 z2 := by unfold z2; exact sendMany_keeps _ _ _ _ k2 (m.sub rfl)
    clear_value z2
    have h6 : Keeps d L s0 z3 := by unfold z3; exact modCtx_keeps _ _ (grantDone_keeps _ _ h5 (m.sub rfl)) (m.sub rfl)
    clear_value z3
    have h7 : Keeps d L s0 z4 := by unfold z4; exact sendWindows_keeps _ _ h6 (m.sub rfl)
    clear_value z4
    exact Keeps.ite (closeOk_keeps _ _ h7 (m.sub rfl)) h7

theorem countBlks_keeps (a0 : Ctx) (a1 : List Nat) (a2 : Nat) {a3 : State} (k3 : Keeps d L s0 a3) (m : May 0x2000 L) : Keeps d L s0 (countBlks a0 a1 a2 a3) := by
  unfold countBlks
  refine each_keeps (fun _ _ h0 => ?_) k3
  extract_lets z1
  clear_value z1
  exact countBytes_keeps _ _ h0 (m.sub rfl)

theorem wordLds_keeps (a0 : InstId) (a1 : Here) {a2 : State} (k2 : Keeps d L s0 a2) (m : May 0x4001080 L) : Keeps d L s0 (wordLds a0 a1 a2) := by
  unfold wordLds
  extract_lets z0 z1
  clear_value z0 z1
  refine Keeps.ite k2 ?_
  split
  · rename_i y2 y3 e4
    have h5 : Keeps d L s0 y3 := Keeps.snd_eq e4 (takeSpace_keeps _ _ _ k2 (m.sub rfl))
    exact h5
  · rename_i y6 y7 e8
    have h9 : Keeps d L s0 y7 := Keeps.snd_eq e8 (takeSpace_keeps _ _ _ k2 (m.sub rfl))
    exact advance1_keeps _ _ (modInst_keeps _ _ h9 (m.sub rfl)) (m.sub rfl)

theorem readBlks_keeps (a0 : Ctx) (a1 : List Nat) (a2 : List (Nat × CwResult)) {a3 : State} (k3 : Keeps d L s0 a3) (m : May 0x10002583 L) :
    Keeps d L s0 (readBlks a0 a1 a2 a3).2 := by
  unfold readBlks
  refine foldl_snd_keeps (fun _ _ _ h0 => ?_) k3
  extract_lets z1 z2
  clear_value z1
  have h3 : Keeps d L s0 z2.2 := by unfold z2; exact cwRead_keeps _ _ _ _ _ h0 (m.sub rfl)
  clear_value z2
  exact h3

theorem ldsDone_keeps (a0 : InstId) (a1 : Here) (a2 : List (Nat × CwResult)) {a3 : State} (k3 : Keeps d L s0 a3) (m : May 0x16cb3583 L) :
    Keeps d L s0 (ldsDone a0 a1 a2 a3) := by
  unfold ldsDone
  extract_lets z0 z1 z2
  clear_value z0 z1 z2
  split
  · exact k3
  · refine Keeps.ite k3 ?_
    split
    · rename_i y3 _ y4 e5
      have h6 : Keeps d L s0 y4 := Keeps.snd_eq e5 (readBlks_keeps _ _ _ (countBlks_keeps _ _ _ k3 (m.sub rfl)) (m.sub rfl))
      split
      · exact trap_keeps _ _ _ _ _ _ _ h6 (m.sub rfl)
      · extract_lets z7
        have h8 : Keeps d L s0 z7 := by unfold z7; exact iff_keeps _ (fun _ h9 => modCtx_keeps _ _ h9 (m.sub rfl)) h6
        clear_value z7
        exact modInst_keeps _ _ (countSram_keeps _ _ _ h8 (m.sub rfl)) (m.sub rfl)

theorem storeBlks_keeps (a0 : Ctx) (a1 : List (Nat × ShardBlk)) {a2 : State} (k2 : Keeps d L s0 a2) (m : May 0x30002040 L) : Keeps d L s0 (storeBlks a0 a1 a2) := by
  unfold storeBlks
  extract_lets z0 z1 z2
  have h3 : Keeps d L s0 z1 := by unfold z1; exact shard_keeps (s := a2) k2 (fun h => tblOk_foldl _ _ (fun _ _ h => tblOk_tset _ _ h _ _ (Nat.zero_le _)) _ _ h) (m.sub rfl)
  clear_value z1
  have h4 : Keeps d L s0 z2 := by
    unfold z2
    refine each_keeps (fun _ _ h5 => ?_) h3
    extract_lets z6
    clear_value z6
    exact cwWritten_keeps _ _ _ h5 (m.sub rfl)
  clear_value z2
  exact modPwr_keeps _ (countBlks_keeps _ _ _ h4 (m.sub rfl)) (m.sub rfl)

theorem wordSts_issue_keeps (a0 : InstId) (a1 : Here) (a2 : List (ShardBlk × Option (Nat × Nat))) {a3 : State} (k3 : Keeps d L s0 a3) (m : May 0x4000000 L) :
    Keeps d L s0 (wordSts.issue a0 a1 a2 a3) := by
  unfold wordSts.issue
  extract_lets z0 z1
  clear_value z0 z1
  exact advance1_keeps _ _ (modInst_keeps _ _ k3 (m.sub rfl)) (m.sub rfl)

theorem wordSts_keeps (a0 : InstId) (a1 : Here) {a2 : State} (k2 : Keeps d L s0 a2) (m : May 0x6cb1081 L) : Keeps d L s0 (wordSts a0 a1 a2) := by
  unfold wordSts
  extract_lets z0
  clear_value z0
  refine Keeps.ite k2 ?_
  split
  · rename_i y1 y2 e3
    have h4 : Keeps d L s0 y2 := Keeps.snd_eq e3 (takeSpace_keeps _ _ _ k2 (m.sub rfl))
    exact h4
  · rename_i y5 y6 e7
    have h8 : Keeps d L s0 y6 := Keeps.snd_eq e7 (takeSpace_keeps _ _ _ k2 (m.sub rfl))
    split
    · exact Keeps.ite (trap_keeps _ _ _ _ _ _ _ h8 (m.sub rfl)) (wordSts_issue_keeps _ _ _ (noteOvf_keeps _ h8 (m.sub rfl)) (m.sub rfl))
    · exact wordSts_issue_keeps _ _ _ h8 (m.sub rfl)

theorem sendTwin_keeps (a0 : InstId) (a1 : Here) {a2 : State} (k2 : Keeps d L s0 a2) (m : May 0x6cb2581 L) : Keeps d L s0 (sendTwin a0 a1 a2) := by
  unfold sendTwin
  split
  · exact k2
  · exact markStale_keeps _ k2 (m.sub rfl)
  · exact Keeps.ite (each_keeps (fun _ _ h0 => redCnt_keeps _ _ _ (sendOne_keeps _ _ _ _ h0 (m.sub rfl)) (m.sub rfl)) k2) (markStale_keeps _ k2 (m.sub rfl))

theorem stsDoneAt_keeps (a0 : InstId) (a1 : Here) {a2 : State} (k2 : Keeps d L s0 a2) (m : May 0x36cb25c1 L) : Keeps d L s0 (stsDoneAt a0 a1 a2) := by
  unfold stsDoneAt
  extract_lets z0
  clear_value z0
  exact Keeps.ite k2 (modInst_keeps _ _ (sendTwin_keeps _ _ (countSram_keeps _ _ _ (storeBlks_keeps _ _ k2 (m.sub rfl)) (m.sub rfl)) (m.sub rfl)) (m.sub rfl))

theorem wordUpd_keeps (a0 : InstId) (a1 : Here) (a2 : Checks) {a3 : State} (k3 : Keeps d L s0 a3) (m : May 0x16cb35e1 L) : Keeps d L s0 (wordUpd a0 a1 a2 a3) := by
  unfold wordUpd
  extract_lets z0 z1 z2 z3 z4 z5 z6 z7 z8 z9 z10 z11 z12 z13 z14 z15 z16
  clear_value z0 z1 z2 z3 z4 z5 z6
  have h17 : Keeps d L s0 z7 := by unfold z7; exact iff_keeps _ (fun _ h18 => noteOvf_keeps _ h18 (m.sub rfl)) k3
  clear_value z7 z8 z9 z10 z11 z12 z13
  have h19 : Keeps d L s0 z14 := by unfold z14; exact modStepOf_keeps _ _ h17 (m.sub rfl)
  clear_value z14 z15
  have h20 : Keeps d L s0 z16 := by unfold z16; exact countSram_keeps _ _ _ (countSram_keeps _ _ _ (redCnt_keeps _ _ _ h19 (m.sub rfl)) (m.sub rfl)) (m.sub rfl)
  clear_value z16
  refine Keeps.ite k3 ?_
  split
  · exact trap_keeps _ _ _ _ _ _ _ k3 (m.sub rfl)
  · exact checkWord_keeps _ _ _ (advance1_keeps _ _ (modInst_keeps _ _ h20 (m.sub rfl)) (m.sub rfl)) (m.sub rfl)

theorem wordEnd_keeps (a0 : InstId) (a1 : Here) {a2 : State} (k2 : Keeps d L s0 a2) (m : May 0x6081080 L) : Keeps d L s0 (wordEnd a0 a1 a2) := by
  unfold wordEnd
  exact Keeps.ite k2 (freeIfDeleting_keeps _ (dropChunk_keeps _ (redCnt_keeps _ _ _ k2 (m.sub rfl)) (m.sub rfl)) (m.sub rfl))

theorem runWord_keeps (a0 : InstId) (a1 : Here) (a2 : Checks) {a3 : State} (k3 : Keeps d L s0 a3) (m : May 0x16cb35e3 L) : Keeps d L s0 (runWord a0 a1 a2 a3) := by
  unfold runWord
  extract_lets z0
  have h1 : Keeps d L s0 z0 := by unfold z0; exact modInst_keeps _ _ k3 (m.sub rfl)
  clear_value z0
  split
  · exact wordHold_keeps _ _ h1 (m.sub rfl)
  · exact accumulate_keeps _ _ _ _ h1 (m.sub rfl)
  · exact accumulate_keeps _ _ _ _ h1 (m.sub rfl)
  · exact wordScl_keeps _ _ _ h1 (m.sub rfl)
  · exact wordCast_keeps _ _ _ h1 (m.sub rfl)
  · exact wordEmit_keeps _ _ h1 (m.sub rfl)
  · exact wordFan_keeps _ _ h1 (m.sub rfl)
  · exact wordLds_keeps _ _ h1 (m.sub rfl)
  · exact wordSts_keeps _ _ h1 (m.sub rfl)
  · exact wordUpd_keeps _ _ _ h1 (m.sub rfl)
  · exact wordNorm_keeps _ _ _ h1 (m.sub rfl)
  · exact wordDig_keeps _ _ h1 (m.sub rfl)
  · exact wordHold_keeps _ _ h1 (m.sub rfl)
  · exact wordSeed_keeps _ _ h1 (m.sub rfl)
  · exact wordEnd_keeps _ _ h1 (m.sub rfl)
  · exact advance1_keeps _ _ h1 (m.sub rfl)

theorem onWord_keeps (a0 : Nat) (a1 : Word → Bool) (a2 : InstId) (a3 : Checks) {a4 : State} (k4 : Keeps d L s0 a4) (m : May 0x16cb35e3 L) :
    Keeps d L s0 (onWord a0 a1 a2 a3 a4) := by
  unfold onWord
  split
  · exact k4
  · exact Keeps.ite k4 (Keeps.ite (haltAt_keeps _ _ k4 (m.sub rfl)) (runWord_keeps _ _ _ k4 (m.sub rfl)))

theorem onAcc_keeps (a0 : Nat) (a1 : InstId) (a2 : Checks) {a3 : State} (k3 : Keeps d L s0 a3) (m : May 0x16cb35e1 L) : Keeps d L s0 (onAcc a0 a1 a2 a3) := by
  unfold onAcc
  split
  · exact k3
  · split
    · exact k3
    · exact Keeps.ite k3 (accumulate_keeps _ _ _ _ (modInst_keeps _ _ k3 (m.sub rfl)) (m.sub rfl))

theorem execNopInstruction_keeps (a0 : InstId) {a1 : State} (k1 : Keeps d L s0 a1) (m : May 0x16cb35e3 L) : KeepsO d L s0 (execNopInstruction a0 a1) := by
  unfold execNopInstruction
  exact KeepsO.next (onWord_keeps _ _ _ _ k1 (m.sub rfl))

theorem execWaitComplete_keeps (a0 : InstId) {a1 : State} (k1 : Keeps d L s0 a1) (m : May 0x16cb35e3 L) : KeepsO d L s0 (execWaitComplete a0 a1) := by
  unfold execWaitComplete
  exact KeepsO.next (onWord_keeps _ _ _ _ k1 (m.sub rfl))

theorem execWaitPrev_keeps (a0 : InstId) {a1 : State} (k1 : Keeps d L s0 a1) (m : May 0x16cb35e3 L) : KeepsO d L s0 (execWaitPrev a0 a1) := by
  unfold execWaitPrev
  exact KeepsO.next (onWord_keeps _ _ _ _ k1 (m.sub rfl))

theorem execWaitRelease_keeps (a0 : InstId) {a1 : State} (k1 : Keeps d L s0 a1) (m : May 0x4000000 L) : KeepsO d L s0 (execWaitRelease a0 a1) := by
  unfold execWaitRelease
  refine KeepsO.next ?_
  split
  · exact Keeps.ite (advance1_keeps _ _ k1 (m.sub rfl)) k1
  · exact k1

theorem execAcc_keeps (a0 : InstId) (a1 : Checks) {a2 : State} (k2 : Keeps d L s0 a2) (m : May 0x16cb35e1 L) : KeepsO d L s0 (execAcc a0 a1 a2) := by
  unfold execAcc
  exact KeepsO.next (onAcc_keeps _ _ _ k2 (m.sub rfl))

theorem execAccx_keeps (a0 : InstId) (a1 : Checks) {a2 : State} (k2 : Keeps d L s0 a2) (m : May 0x16cb35e1 L) : KeepsO d L s0 (execAccx a0 a1 a2) := by
  unfold execAccx
  exact KeepsO.next (onAcc_keeps _ _ _ k2 (m.sub rfl))

theorem execScl_keeps (a0 : InstId) (a1 : Checks) {a2 : State} (k2 : Keeps d L s0 a2) (m : May 0x16cb35e3 L) : KeepsO d L s0 (execScl a0 a1 a2) := by
  unfold execScl
  exact KeepsO.next (onWord_keeps _ _ _ _ k2 (m.sub rfl))

theorem execCast_keeps (a0 : InstId) (a1 : Checks) {a2 : State} (k2 : Keeps d L s0 a2) (m : May 0x16cb35e3 L) : KeepsO d L s0 (execCast a0 a1 a2) := by
  unfold execCast
  exact KeepsO.next (onWord_keeps _ _ _ _ k2 (m.sub rfl))

theorem execEmit_keeps (a0 : InstId) {a1 : State} (k1 : Keeps d L s0 a1) (m : May 0x16cb35e3 L) : KeepsO d L s0 (execEmit a0 a1) := by
  unfold execEmit
  exact KeepsO.next (onWord_keeps _ _ _ _ k1 (m.sub rfl))

theorem execFan_keeps (a0 : InstId) {a1 : State} (k1 : Keeps d L s0 a1) (m : May 0x16cb35e3 L) : KeepsO d L s0 (execFan a0 a1) := by
  unfold execFan
  exact KeepsO.next (onWord_keeps _ _ _ _ k1 (m.sub rfl))

theorem execLds_keeps (a0 : InstId) {a1 : State} (k1 : Keeps d L s0 a1) (m : May 0x16cb35e3 L) : KeepsO d L s0 (execLds a0 a1) := by
  unfold execLds
  exact KeepsO.next (onWord_keeps _ _ _ _ k1 (m.sub rfl))

theorem execLdsComplete_keeps (a0 : InstId) (a1 : List (Nat × CwResult)) {a2 : State} (k2 : Keeps d L s0 a2) (m : May 0x16cb3583 L) :
    KeepsO d L s0 (execLdsComplete a0 a1 a2) := by
  unfold execLdsComplete
  refine KeepsO.next ?_
  split
  · exact ldsDone_keeps _ _ _ k2 (m.sub rfl)
  · exact k2

theorem execSts_keeps (a0 : InstId) {a1 : State} (k1 : Keeps d L s0 a1) (m : May 0x16cb35e3 L) : KeepsO d L s0 (execSts a0 a1) := by
  unfold execSts
  exact KeepsO.next (onWord_keeps _ _ _ _ k1 (m.sub rfl))

theorem execStsComplete_keeps (a0 : InstId) {a1 : State} (k1 : Keeps d L s0 a1) (m : May 0x36cb25c1 L) : KeepsO d L s0 (execStsComplete a0 a1) := by
  unfold execStsComplete
  refine KeepsO.next ?_
  split
  · exact stsDoneAt_keeps _ _ k1 (m.sub rfl)
  · exact k1

theorem execUpd_keeps (a0 : InstId) (a1 : Checks) {a2 : State} (k2 : Keeps d L s0 a2) (m : May 0x16cb35e3 L) : KeepsO d L s0 (execUpd a0 a1 a2) := by
  unfold execUpd
  exact KeepsO.next (onWord_keeps _ _ _ _ k2 (m.sub rfl))

theorem execNorm_keeps (a0 : InstId) (a1 : Checks) {a2 : State} (k2 : Keeps d L s0 a2) (m : May 0x16cb35e3 L) : KeepsO d L s0 (execNorm a0 a1 a2) := by
  unfold execNorm
  exact KeepsO.next (onWord_keeps _ _ _ _ k2 (m.sub rfl))

theorem execDig_keeps (a0 : InstId) {a1 : State} (k1 : Keeps d L s0 a1) (m : May 0x16cb35e3 L) : KeepsO d L s0 (execDig a0 a1) := by
  unfold execDig
  exact KeepsO.next (onWord_keeps _ _ _ _ k1 (m.sub rfl))

theorem execBar_keeps (a0 : InstId) {a1 : State} (k1 : Keeps d L s0 a1) (m : May 0x16cb35e3 L) : KeepsO d L s0 (execBar a0 a1) := by
  unfold execBar
  exact KeepsO.next (onWord_keeps _ _ _ _ k1 (m.sub rfl))

theorem execSeed_keeps (a0 : InstId) {a1 : State} (k1 : Keeps d L s0 a1) (m : May 0x16cb35e3 L) : KeepsO d L s0 (execSeed a0 a1) := by
  unfold execSeed
  exact KeepsO.next (onWord_keeps _ _ _ _ k1 (m.sub rfl))

theorem execEndWord_keeps (a0 : InstId) {a1 : State} (k1 : Keeps d L s0 a1) (m : May 0x16cb35e3 L) : KeepsO d L s0 (execEndWord a0 a1) := by
  unfold execEndWord
  exact KeepsO.next (onWord_keeps _ _ _ _ k1 (m.sub rfl))

theorem execEmitGrant_keeps (a0 : InstId) {a1 : State} (k1 : Keeps d L s0 a1) (m : May 0x4cb2081 L) : KeepsO d L s0 (execEmitGrant a0 a1) := by
  unfold execEmitGrant
  refine KeepsO.next ?_
  split
  · exact emitGrant_keeps _ _ k1 (m.sub rfl)
  · exact k1

theorem execFanGrant_keeps (a0 : InstId) {a1 : State} (k1 : Keeps d L s0 a1) (m : May 0x6cb3081 L) : KeepsO d L s0 (execFanGrant a0 a1) := by
  unfold execFanGrant
  refine KeepsO.next ?_
  split
  · exact fanGrant_keeps _ _ k1 (m.sub rfl)
  · exact k1

theorem execProgramStoreWrite_keeps (a0 : BitVec 14) (a1 : Word) {a2 : State} (k2 : Keeps d L s0 a2) (m : May 0x20025c1 L) :
    KeepsO d L s0 (execProgramStoreWrite a0 a1 a2) := by
  unfold execProgramStoreWrite
  exact KeepsO.next (Keeps.ite (progWrite_keeps _ _ k2 (m.sub rfl)) k2)

theorem pstepPut_keeps (a0 : Nat) (a1 : Word) {a2 : State} (k2 : Keeps d L s0 a2) (m : May 0x6000000 L) : Keeps d L s0 (pstepPut a0 a1 a2) := by
  unfold pstepPut
  extract_lets z0
  have h1 : Keeps d L s0 z0 := by unfold z0; exact Keeps.ite k2 (unhalt_keeps _ k2 (m.sub rfl))
  clear_value z0
  exact modRed_keeps _ _ h1 (m.sub rfl)

theorem execPstepEnWrite_keeps (a0 : RedDie) (a1 : Word) {a2 : State} (k2 : Keeps d L s0 a2) (m : May 0x60025c1 L) : KeepsO d L s0 (execPstepEnWrite a0 a1 a2) := by
  unfold execPstepEnWrite
  exact KeepsO.next (Keeps.ite k2 (Keeps.ite (pstepPut_keeps _ _ k2 (m.sub rfl)) (offAccess_keeps _ _ _ k2 (m.sub rfl))))

theorem pstepGo_keeps (a0 : Nat) {a1 : State} (k1 : Keeps d L s0 a1) (m : May 0x16cb35e3 L) : Keeps d L s0 (pstepGo a0 a1) := by
  unfold pstepGo
  split
  · exact k1
  · split
    · exact unhalt_keeps _ k1 (m.sub rfl)
    · exact runWord_keeps _ _ _ k1 (m.sub rfl)

theorem execPstepGo_keeps (a0 : RedDie) {a1 : State} (k1 : Keeps d L s0 a1) (m : May 0x16cb35e3 L) : KeepsO d L s0 (execPstepGo a0 a1) := by
  unfold execPstepGo
  exact KeepsO.next (Keeps.ite k1 (Keeps.ite (pstepGo_keeps _ k1 (m.sub rfl)) (offAccess_keeps _ _ _ k1 (m.sub rfl))))

/-! ## Coppice -/

theorem twinAt_keeps (a0 : Nat) (a1 : Pkt) {a2 : State} (k2 : Keeps d L s0 a2) (m : May 0x360025c1 L) : Keeps d L s0 (twinAt a0 a1 a2) := by
  unfold twinAt
  split
  · exact k2
  · extract_lets z0 z1 z2 z3
    clear_value z0 z1
    have h4 : Keeps d L s0 z2 := by unfold z2; exact redCnt_keeps _ _ _ k2 (m.sub rfl)
    clear_value z2
    have h5 : Keeps d L s0 z3 := by unfold z3; exact modCtx_keeps _ _ h4 (m.sub rfl)
    clear_value z3
    exact Keeps.ite (redCnt_keeps _ _ _ k2 (m.sub rfl)) (Keeps.ite (logEvent_keeps _ _ _ _ h5 (m.sub rfl)) (redCnt_keeps _ _ _ (storeBlks_keeps _ _ k2 (m.sub rfl)) (m.sub rfl)))

theorem execTwinWrite_keeps (a0 : RedDie) {a1 : State} (k1 : Keeps d L s0 a1) (m : May 0x364025c1 L) : KeepsO d L s0 (execTwinWrite a0 a1) := by
  unfold execTwinWrite
  exact KeepsO.next (onChunk_keeps _ _ _ (fun _ _ _ h0 => twinAt_keeps _ _ h0 (m.sub rfl)) k1 (m.sub rfl))

theorem execShardLostReport_keeps (a0 : GroupId) {a1 : State} (k1 : Keeps d L s0 a1) (m : May 0x4002581 L) : KeepsO d L s0 (execShardLostReport a0 a1) := by
  unfold execShardLostReport
  refine KeepsO.next ?_
  split
  · split
    · exact Keeps.ite (markStale_keeps _ k1 (m.sub rfl)) k1
    · exact k1
  · exact k1

theorem rerootMgr_keeps (a0 : GroupId) {a1 : State} (k1 : Keeps d L s0 a1) (m : May 0x9fb6581 L) : Keeps d L s0 (rerootMgr a0 a1) := by
  unfold rerootMgr
  split
  · exact k1
  · extract_lets z0 z1 z2
    clear_value z0
    have h3 : Keeps d L s0 z1 := by unfold z1; exact modMgr_keeps _ k1 (m.sub rfl)
    clear_value z1
    have h4 : Keeps d L s0 z2 := by unfold z2; exact sendMgmt_keeps _ _ h3 (m.sub rfl)
    clear_value z2
    exact Keeps.ite k1 (logMb_keeps _ _ h4 (m.sub rfl))

theorem rerootOld_keeps (a0 : Nat) (a1 : Nat) {a2 : State} (k2 : Keeps d L s0 a2) (m : May 0x6cb3581 L) : Keeps d L s0 (rerootOld a0 a1 a2) := by
  unfold rerootOld
  split
  · exact k2
  · extract_lets z0 z1 z2 z3 z4 z5 z6 z7 z8
    have h9 : Keeps d L s0 z0 := by unfold z0; exact each_keeps (fun _ _ h10 => failLost_keeps _ _ _ h10 (m.sub rfl)) k2
    clear_value z0
    have h11 : Keeps d L s0 z1 := by unfold z1; exact each_keeps (fun _ _ h12 => releaseEnd_keeps _ _ h12 (m.sub rfl)) h9
    clear_value z1
    have h13 : ∀ x0 x1, Keeps d L s0 x1 → Keeps d L s0 (z2 x0 x1) := by
      intro x0 x1 h14
      unfold z2
      exact answerLeader_keeps _ _ _ _ h14 (m.sub rfl)
    clear_value z2
    have h15 : Keeps d L s0 z3 := by unfold z3; exact each_keeps (fun _ _ h16 => h13 _ _ h16) h11
    clear_value z3
    have h17 : Keeps d L s0 z4 := by unfold z4; exact each_keeps (fun _ _ h18 => h13 _ _ h18) h15
    clear_value z4 z5 z6 z7
    have h19 : Keeps d L s0 z8 := by unfold z8; exact modCtx_keeps _ _ h17 (m.sub rfl)
    clear_value z8
    exact Keeps.ite (settleMoved_keeps _ (rehome_keeps _ h19 (m.sub rfl)) (m.sub rfl)) h19

theorem rerootNew_keeps (a0 : Nat) (a1 : Nat) {a2 : State} (k2 : Keeps d L s0 a2) (m : May 0x6cb1081 L) : Keeps d L s0 (rerootNew a0 a1 a2) := by
  unfold rerootNew
  split
  · exact k2
  · extract_lets z0 z1 z2 z3 z4 z5
    clear_value z0
    have h6 : Keeps d L s0 z1 := by unfold z1; exact each_keeps (fun _ _ h7 => closeStep_keeps _ _ _ _ _ (sendEnd_keeps _ _ _ _ h7 (m.sub rfl)) (m.sub rfl)) k2
    clear_value z1 z2 z3 z4 z5
    exact modCtx_keeps _ _ h6 (m.sub rfl)

theorem execGroupReroot_keeps (a0 : GroupId) (a1 : Nat) {a2 : State} (k2 : Keeps d L s0 a2) (m : May 0xffb7581 L) : KeepsO d L s0 (execGroupReroot a0 a1 a2) := by
  unfold execGroupReroot
  extract_lets z0
  have h1 : Keeps d L s0 z0 := by unfold z0; exact Keeps.ite (rerootMgr_keeps _ k2 (m.sub rfl)) k2
  clear_value z0
  refine KeepsO.next ?_
  refine Keeps.ite k2 ?_
  split
  · exact h1
  · split
    · exact h1
    · exact Keeps.ite h1 (Keeps.ite (rerootOld_keeps _ _ h1 (m.sub rfl)) (Keeps.ite (rerootNew_keeps _ _ h1 (m.sub rfl)) h1))

theorem execPaceInstant_keeps (a0 : Slot) {a1 : State} (k1 : Keeps d L s0 a1) (m : May 0x46cb0081 L) : KeepsO d L s0 (execPaceInstant a0 a1) := by
  unfold execPaceInstant
  refine KeepsO.next ?_
  split
  · exact k1
  · extract_lets z0
    clear_value z0
    exact Keeps.ite k1 (openReady_keeps _ _ (iff_keeps _ (fun _ h1 => redCnt_keeps _ _ _ h1 (m.sub rfl)) (fabTo_keeps _ k1 (m.sub rfl))) (m.sub rfl))

theorem execStepEndRelease_keeps (a0 : Slot) (a1 : StepNo) {a2 : State} (k2 : Keeps d L s0 a2) (m : May 0x46cb1081 L) : KeepsO d L s0 (execStepEndRelease a0 a1 a2) := by
  unfold execStepEndRelease
  refine KeepsO.next ?_
  split
  · exact k2
  · extract_lets z0 z1
    clear_value z0
    have h2 : Keeps d L s0 z1 := by unfold z1; exact fabTo_keeps _ k2 (m.sub rfl)
    clear_value z1
    exact Keeps.ite k2 (Keeps.ite h2 (releaseEnd_keeps _ _ h2 (m.sub rfl)))

theorem execPaceLapseTemperature_keeps (a0 : Fin 8) (a1 : Byte) {a2 : State} (k2 : Keeps d L s0 a2) (m : May 0x60025c1 L) :
    KeepsO d L s0 (execPaceLapseTemperature a0 a1 a2) := by
  unfold execPaceLapseTemperature
  extract_lets z0
  have h1 : Keeps d L s0 z0 := by unfold z0; exact modPwr_keeps _ k2 (m.sub rfl)
  clear_value z0
  exact KeepsO.next (Keeps.ite k2 (Keeps.ite (lapseAll_keeps _ _ h1 (m.sub rfl)) h1))

end Sys2Proof.Machine
end

