-- ==== Sys2Proof/Laws/KeepsDevice.lean ====
section
/-! SUPPORT. What every operation keeps (the relation Keeps), one lemma per operation: memory, start-up, power, DMA, rings, faults and debug. -/

namespace Sys2Proof.Machine

variable {d : Bool} {L : Nat} {s0 : State}

/-! ## Memory -/

theorem scrubPace_keeps (a0 : Nat) {a1 : State} (k1 : Keeps d L s0 a1) (m : May 0x10002581 L) : Keeps d L s0 (scrubPace a0 a1) := by
  unfold scrubPace
  extract_lets z0
  clear_value z0
  exact Keeps.ite (modStack_keeps _ _ k1 (m.sub rfl)) (Keeps.ite (logEvent_keeps _ _ _ _ (modStack_keeps _ _ k1 (m.sub rfl)) (m.sub rfl)) k1)

theorem scrubResultAt_keeps (a0 : Nat) (a1 : Nat) (a2 : CwResult) {a3 : State} (k3 : Keeps d L s0 a3) (m : May 0x10002583 L) : Keeps d L s0 (scrubResultAt a0 a1 a2 a3) := by
  unfold scrubResultAt
  split
  · rename_i y0 y1 e2
    have h3 : Keeps d L s0 y1 := Keeps.snd_eq e2 (cwRead_keeps _ _ _ _ _ k3 (m.sub rfl))
    exact h3
  · rename_i y4 _ y5 e6
    have h7 : Keeps d L s0 y5 := Keeps.snd_eq e6 (cwRead_keeps _ _ _ _ _ k3 (m.sub rfl))
    exact countBytes_keeps _ _ (memCnt_keeps _ _ _ h7 (m.sub rfl)) (m.sub rfl)
  · rename_i y8 y9 e10
    have h11 : Keeps d L s0 y9 := Keeps.snd_eq e10 (cwRead_keeps _ _ _ _ _ k3 (m.sub rfl))
    exact memCnt_keeps _ _ _ h11 (m.sub rfl)

theorem scrubNext_keeps (a0 : Nat) {a1 : State} (k1 : Keeps d L s0 a1) (m : May 0x10000000 L) : Keeps d L s0 (scrubNext a0 a1) := by
  unfold scrubNext
  exact modStack_keeps _ _ k1 (m.sub rfl)

theorem takeShare_keeps (a0 : Nat) (a1 : Option Nat) (a2 : Bool) {a3 : State} (k3 : Keeps d L s0 a3) (m : May 0x10000000 L) : Keeps d L s0 (takeShare a0 a1 a2 a3) := by
  unfold takeShare
  split
  · exact k3
  · exact modStack_keeps _ _ k3 (m.sub rfl)

theorem rebuildHere_keeps (a0 : Nat) {a1 : State} (k1 : Keeps d L s0 a1) (m : May 0x6cb1081 L) : Keeps d L s0 (rebuildHere a0 a1) := by
  unfold rebuildHere
  split
  · exact k1
  · extract_lets z0
    have h1 : Keeps d L s0 z0 := by unfold z0; exact each_keeps (fun _ _ h2 => failLost_keeps _ _ _ h2 (m.sub rfl)) k1
    clear_value z0
    exact loseClosed_keeps _ _ h1 (m.sub rfl)

theorem sramDouble_keeps (a0 : Nat) (a1 : Nat) (a2 : SramPlace) {a3 : State} (k3 : Keeps d L s0 a3) (m : May 0x26cb1081 L) : Keeps d L s0 (sramDouble a0 a1 a2 a3) := by
  unfold sramDouble
  split
  · exact iff_keeps _ (fun _ h0 => rebuildHere_keeps _ h0 (m.sub rfl)) k3
  · exact iff_keeps _ (fun _ h1 => failLost_keeps _ _ _ h1 (m.sub rfl)) k3
  · exact modRed_keeps _ _ k3 (m.sub rfl)
  · exact sram_keeps (s := a3) k3 (fun h => tblOk_wrBytes _ h _ _) (m.sub rfl)

theorem injectSecDed_keeps (a0 : Nat) (a1 : SecDed) {a2 : State} (k2 : Keeps d L s0 a2) (m : May 0x82 L) : Keeps d L s0 (injectSecDed a0 a1 a2).2.2 := by
  unfold injectSecDed
  extract_lets z0 z1 z2
  clear_value z0 z1
  have h3 : Keeps d L s0 z2 := by unfold z2; exact injSpent_keeps k2 (m.sub rfl)
  clear_value z2
  split
  · exact k2
  · split
    · rename_i y4 _ y5 e6
      have h7 : Keeps d L s0 y5 := by
        refine Keeps.snd_eq e6 ?_
        split
        · exact draw_keeps h3 (m.sub rfl)
        · exact h3
      split
      · exact h7
      · split
        · exact h7
        · exact h7

theorem execDieMarked_keeps (a0 : Stack) (a1 : Fin 15) {a2 : State} (k2 : Keeps d L s0 a2) (m : May 0x16cb35e1 L) : KeepsO d L s0 (execDieMarked a0 a1 a2) := by
  unfold execDieMarked
  extract_lets z0
  clear_value z0
  exact KeepsO.next (Keeps.ite k2 (Keeps.ite (logEvent_keeps _ _ _ _ (modStack_keeps _ _ k2 (m.sub rfl)) (m.sub rfl)) (loseStack_keeps _ k2 (m.sub rfl))))

theorem execRowSpare_keeps (a0 : Stack) (a1 : Nat) (a2 : Nat) (a3 : Bool) {a4 : State} (k4 : Keeps d L s0 a4) (m : May 0x10000000 L) :
    KeepsO d L s0 (execRowSpare a0 a1 a2 a3 a4) := by
  unfold execRowSpare
  extract_lets z0
  clear_value z0
  exact KeepsO.next (Keeps.ite (modStack_keeps _ _ k4 (m.sub rfl)) k4)

theorem execRowSpareDone_keeps (a0 : Stack) (a1 : Nat) {a2 : State} (k2 : Keeps d L s0 a2) (m : May 0x10002581 L) : KeepsO d L s0 (execRowSpareDone a0 a1 a2) := by
  unfold execRowSpareDone
  extract_lets z0 z1
  have h2 : Keeps d L s0 z0 := by unfold z0; exact modStack_keeps _ _ k2 (m.sub rfl)
  clear_value z0
  have h3 : Keeps d L s0 z1 := by unfold z1; exact logEvent_keeps _ _ _ _ h2 (m.sub rfl)
  clear_value z1
  exact KeepsO.next (Keeps.ite k2 (Keeps.ite (logEvent_keeps _ _ _ _ h3 (m.sub rfl)) h3))

theorem execPatrolScrubSlot_keeps (a0 : Stack) (a1 : CwResult) (a2 : Option Nat) {a3 : State} (k3 : Keeps d L s0 a3) (m : May 0x10002583 L) :
    KeepsO d L s0 (execPatrolScrubSlot a0 a1 a2 a3) := by
  unfold execPatrolScrubSlot
  extract_lets z0 z1 z2 z3
  have h4 : Keeps d L s0 z0 := by unfold z0; exact scrubPace_keeps _ k3 (m.sub rfl)
  clear_value z0 z1 z2
  have h5 : Keeps d L s0 z3 := by unfold z3; exact takeShare_keeps _ _ _ h4 (m.sub rfl)
  clear_value z3
  exact KeepsO.next (Keeps.ite k3 (Keeps.ite (scrubPace_keeps _ (scrubNext_keeps _ (scrubResultAt_keeps _ _ _ (countBytes_keeps _ _ h5 (m.sub rfl)) (m.sub rfl)) (m.sub rfl)) (m.sub rfl)) h5))

theorem execScrubLate_keeps (a0 : Stack) {a1 : State} (k1 : Keeps d L s0 a1) (m : May 0x50002581 L) : KeepsO d L s0 (execScrubLate a0 a1) := by
  unfold execScrubLate
  extract_lets z0
  clear_value z0
  exact KeepsO.next (Keeps.ite (logEvent_keeps _ _ _ _ (modStack_keeps _ _ (clockTo_keeps _ k1 (m.sub rfl)) (m.sub rfl)) (m.sub rfl)) k1)

theorem execSramScrub_keeps (a0 : RedDie) (a1 : BitVec 29) (a2 : SecDed) (a3 : SramPlace) {a4 : State} (k4 : Keeps d L s0 a4) (m : May 0x26cb3583 L) :
    KeepsO d L s0 (execSramScrub a0 a1 a2 a3 a4) := by
  unfold execSramScrub
  refine KeepsO.next ?_
  refine Keeps.ite k4 ?_
  split
  · rename_i y0 _ _ y1 e2
    have h3 : Keeps d L s0 y1 := Keeps.trd_eq e2 (injectSecDed_keeps _ _ k4 (m.sub rfl))
    split
    · exact h3
    · exact logEvent'_keeps _ _ _ _ _ _ _ (redCnt_keeps _ _ _ h3 (m.sub rfl)) (m.sub rfl)
    · exact sramDouble_keeps _ _ _ (logEvent'_keeps _ _ _ _ _ _ _ (redCnt_keeps _ _ _ h3 (m.sub rfl)) (m.sub rfl)) (m.sub rfl)

theorem execStackLost_keeps (a0 : Stack) (a1 : LossCause) {a2 : State} (k2 : Keeps d L s0 a2) (m : May 0x16cb35e1 L) : KeepsO d L s0 (execStackLost a0 a1 a2) := by
  unfold execStackLost
  refine KeepsO.next ?_
  split
  · exact k2
  · exact Keeps.ite (loseStack_keeps _ k2 (m.sub rfl)) k2

/-! ## Startup -/

theorem loadPorts_keeps (a0 : ImageContent) {a1 : State} (k1 : Keeps d L s0 a1) (m : May 0x8000 L) : Keeps d L s0 (loadPorts a0 a1) := by
  unfold loadPorts
  exact Keeps.set_ports (s := a1) _ k1 (m.sub rfl)

theorem loadRoute_keeps (a0 : Nat) (a1 : RouteRec) {a2 : State} (k2 : Keeps d L s0 a2) (m : May 0x4000 L) : Keeps d L s0 (loadRoute a0 a1 a2) := by
  unfold loadRoute
  extract_lets z0 z1
  clear_value z0
  have h2 : ∀ x0 x1 x2, Keeps d L s0 x2 → Keeps d L s0 (z1 x0 x1 x2) := by
    intro x0 x1 x2 h3
    unfold z1
    exact modRoute_keeps _ h3 (m.sub rfl)
  clear_value z1
  exact Keeps.ite (Keeps.ite (h2 _ _ _ k2) k2) (Keeps.ite (Keeps.ite (modRoute_keeps _ k2 (m.sub rfl)) k2) (Keeps.ite (each_keeps (fun _ _ h4 => Keeps.ite (h2 _ _ _ h4) h4) k2) k2))

theorem loadClasses_keeps (c : ClassSect) {s : State} (h : Keeps d L s0 s) (m : May 0x184000 L) : Keeps d L s0 (loadClasses c s) := by
  unfold loadClasses
  refine modRoute_keeps _ (each_keeps (fun x y hy => modSwc_keeps _ _ hy (m.sub rfl)) ?_) (m.sub rfl)
  refine each_keeps (fun x y hy => Keeps.ite (modQueue_keeps _ _ hy (m.sub rfl)) hy) ?_
  refine each_keeps (fun x y hy => Keeps.ite (modQueue_keeps _ _ hy (m.sub rfl)) hy) ?_
  exact each_keeps (fun x y hy => Keeps.ite (modQueue_keeps _ _ hy (m.sub rfl)) hy) h

theorem loadPools_keeps (a0 : Option RedSect) {a1 : State} (k1 : Keeps d L s0 a1) (m : May 0x1000 L) : Keeps d L s0 (loadPools a0 a1) := by
  unfold loadPools
  extract_lets z0 z1 z2 z3
  clear_value z0 z1 z2
  have h4 : Keeps d L s0 z3 := by unfold z3; exact modBpm_keeps _ k1 (m.sub rfl)
  clear_value z3
  exact each_keeps (fun _ _ h5 => poolsLoseStack_keeps _ h5 (m.sub rfl)) (each_keeps (fun _ _ h6 => poolsLoseDie_keeps _ h6 (m.sub rfl)) h4)

theorem loadImage_keeps (a0 : FlashRead) {a1 : State} (k1 : Keeps d L s0 a1) (m : May 0x83cc758 L) : Keeps d L s0 (loadImage a0 a1) := by
  unfold loadImage
  extract_lets z0 z1 z2 z3 z4 z5 z6 z7 z8 z9 z10 z11
  clear_value z0
  have h12 : Keeps d L s0 z1 := by unfold z1; exact Keeps.set_img (s := a1) _ k1 (m.sub rfl)
  clear_value z1
  have h13 : Keeps d L s0 z2 := by unfold z2; exact modGctl_keeps _ h12 (m.sub rfl)
  clear_value z2
  have h14 : Keeps d L s0 z3 := by unfold z3; exact loadPorts_keeps _ h13 (m.sub rfl)
  clear_value z3
  have h15 : Keeps d L s0 z4 := by unfold z4; exact each_keeps (fun _ _ h16 => each_keeps (fun _ _ h17 => loadRoute_keeps _ _ h17 (m.sub rfl)) h16) h14
  clear_value z4
  have h18 : Keeps d L s0 z5 := by unfold z5; exact each_keeps (fun _ _ h19 => modSwc_keeps _ _ h19 (m.sub rfl)) h15
  clear_value z5
  have h20 : Keeps d L s0 z6 := by unfold z6; exact loadClasses_keeps _ h18 (m.sub rfl)
  clear_value z6
  have h21 : Keeps d L s0 z7 := by
    unfold z7
    split
    · exact each_keeps (fun _ _ h22 => each_keeps (fun _ _ h23 => policerPut_keeps _ _ _ _ h23 (m.sub rfl)) h22) (each_keeps (fun _ _ h24 => shaperPut_keeps _ _ h24 (m.sub rfl)) h20)
    · exact h20
  clear_value z7 z8
  have h25 : Keeps d L s0 z9 := by unfold z9; exact modCmd_keeps _ h21 (m.sub rfl)
  clear_value z9
  have h26 : Keeps d L s0 z10 := by
    unfold z10
    split
    · exact modTim_keeps _ h25 (m.sub rfl)
    · exact h25
  clear_value z10
  have h27 : Keeps d L s0 z11 := by
    unfold z11
    split
    · exact modPwr_keeps _ h26 (m.sub rfl)
    · exact h26
  clear_value z11
  split
  · extract_lets z28 z29
    have h30 : Keeps d L s0 z28 := by unfold z28; exact each_keeps (fun _ _ h31 => modOpt_keeps _ _ h31 (m.sub rfl)) h27
    clear_value z28
    have h32 : Keeps d L s0 z29 := by unfold z29; exact clearCtlPut_keeps _ h30 (m.sub rfl)
    clear_value z29
    exact modEvr_keeps _ (modMgr_keeps _ h32 (m.sub rfl)) (m.sub rfl)
  · exact h27

theorem freshStack_keeps (k : Nat) {s : State} (h : Keeps d L s0 s) (m : May 0x30000000 L) : Keeps d L s0 (freshStack k s) := by
  unfold freshStack
  extract_lets r u y
  have hy : Keeps d L s0 y := by unfold y; exact modStack_keeps _ _ h (m.sub rfl)
  clear_value y
  refine mem_keeps hy _ (fun w => ?_) (m.sub rfl)
  simp only [Memory.wf, Bool.and_eq_true] at w ⊢
  exact ⟨⟨⟨w.1.1.1, tblOk_filter _ _ w.1.1.2 _⟩, w.1.2⟩, tblOk_filter _ _ w.2 _⟩

theorem loadStore_keeps (a0 : Nat) {a1 : State} (k1 : Keeps d L s0 a1) (m : May 0x2000040 L) : Keeps d L s0 (loadStore a0 a1) := by
  unfold loadStore
  exact modPwr_keeps _ (modRed_keeps _ _ k1 (m.sub rfl)) (m.sub rfl)

theorem clearQuad_keeps (a0 : Nat) (a1 : Nat) {a2 : State} (k2 : Keeps d L s0 a2) (m : May 0x22000000 L) : Keeps d L s0 (clearQuad a0 a1 a2) := by
  unfold clearQuad
  extract_lets z0 z1
  have h2 : Keeps d L s0 z0 := by unfold z0; exact modRed_keeps _ _ k2 (m.sub rfl)
  clear_value z0
  exact sram_keeps (s := z0) h2 (fun h => tblOk_filter _ _ h _) (m.sub rfl)

theorem domUp_keeps (a0 : Nat) {a1 : State} (k1 : Keeps d L s0 a1) (m : May 0x32000040 L) : Keeps d L s0 (domUp a0 a1) := by
  unfold domUp
  extract_lets z0 z1
  have h2 : Keeps d L s0 z0 := by unfold z0; exact domSet_keeps _ _ k1 (m.sub rfl)
  clear_value z0
  have h3 : Keeps d L s0 z1 := by unfold z1; exact clearQuad_keeps _ _ h2 (m.sub rfl)
  clear_value z1
  exact Keeps.ite k1 (Keeps.ite h2 (Keeps.ite (Keeps.ite (loadStore_keeps _ h3 (m.sub rfl)) h3) (freshStack_keeps _ h2 (m.sub rfl))))

theorem powerUp_keeps {a0 : State} (k0 : Keeps d L s0 a0) (m : May 0x32001445 L) : Keeps d L s0 (powerUp a0) := by
  unfold powerUp
  extract_lets z0 z1 z2 z3
  have h4 : Keeps d L s0 z0 := by unfold z0; exact modPwr_keeps _ k0 (m.sub rfl)
  clear_value z0
  have h5 : Keeps d L s0 z1 := by unfold z1; exact each_keeps (fun _ _ h6 => domUp_keeps _ h6 (m.sub rfl)) h4
  clear_value z1 z2
  have h7 : Keeps d L s0 z3 := by unfold z3; exact each_keeps (fun _ _ h8 => Keeps.ite (modRed_keeps _ _ h8 (m.sub rfl)) h8) h5
  clear_value z3
  exact loadPools_keeps _ (toPhase_keeps _ (modRst_keeps _ (fun _ h => h) h7 (m.sub rfl)) (m.sub rfl)) (m.sub rfl)

theorem setResult_keeps (a0 : ImgCopy) (a1 : Nat) (a2 : Nat) {a3 : State} (k3 : Keeps d L s0 a3) (m : May 0x4 L) : Keeps d L s0 (setResult a0 a1 a2 a3) := by
  unfold setResult
  exact modRst_keeps _ (by intro r h; split <;> exact h) k3 (m.sub rfl)

theorem setGen_keeps (a0 : ImgCopy) (a1 : FlashRead) {a2 : State} (k2 : Keeps d L s0 a2) (m : May 0x4 L) : Keeps d L s0 (setGen a0 a1 a2) := by
  unfold setGen
  exact Keeps.ite (modRst_keeps _ (by intro r h; split <;> exact h) k2 (m.sub rfl)) k2

theorem copyFailed_keeps (a0 : ImgCopy) (a1 : Nat × Nat × Nat) {a2 : State} (k2 : Keeps d L s0 a2) (m : May 0x2585 L) : Keeps d L s0 (copyFailed a0 a1 a2) := by
  unfold copyFailed
  exact logMb_keeps _ _ (setResult_keeps _ _ _ k2 (m.sub rfl)) (m.sub rfl)

theorem acceptCopy_keeps (a0 : ImgCopy) (a1 : FlashRead) (a2 : BitVec 4) {a3 : State} (k3 : Keeps d L s0 a3) (m : May 0x3a3cf7dd L) :
    Keeps d L s0 (acceptCopy a0 a1 a2 a3) := by
  unfold acceptCopy
  extract_lets z0 z1 z2
  have h3 : Keeps d L s0 z0 := by unfold z0; exact modRst_keeps _ (fun _ h => h) (setResult_keeps _ _ _ k3 (m.sub rfl)) (m.sub rfl)
  clear_value z0
  have h4 : Keeps d L s0 z1 := by unfold z1; exact modTim_keeps _ (loadImage_keeps _ h3 (m.sub rfl)) (m.sub rfl)
  clear_value z1
  have h5 : Keeps d L s0 z2 := by unfold z2; exact iff_keeps _ (fun _ h6 => logMb_keeps _ _ h6 (m.sub rfl)) h4
  clear_value z2
  exact powerUp_keeps h5 (m.sub rfl)

theorem imageFailed_keeps {a0 : State} (k0 : Keeps d L s0 a0) (m : May 0x485 L) : Keeps d L s0 (imageFailed a0) := by
  unfold imageFailed
  exact modFlt_keeps _ (fun _ h => h) (toPhase_keeps _ (modRst_keeps _ (fun _ h => h) k0 (m.sub rfl)) (m.sub rfl)) (m.sub rfl)

theorem checkCopy_keeps (a0 : ImgCopy) (a1 : FlashRead) (a2 : FlashRead) {a3 : State} (k3 : Keeps d L s0 a3) (m : May 0x7a3cf7dd L) :
    Keeps d L s0 (checkCopy a0 a1 a2 a3) := by
  unfold checkCopy
  extract_lets z0 z1 z2 z3 z4 z5
  clear_value z0 z1
  have h6 : ∀ x0, Keeps d L s0 x0 → Keeps d L s0 (z2 x0) := by
    intro x0 h7
    unfold z2
    refine Keeps.ite (setGen_keeps _ _ h7 (m.sub rfl)) ?_
    refine each_keeps (fun _ _ h8 => ?_) h7
    split
    · exact copyFailed_keeps _ _ (setGen_keeps _ _ h8 (m.sub rfl)) (m.sub rfl)
    · exact setGen_keeps _ _ h8 (m.sub rfl)
  clear_value z2
  have h9 : Keeps d L s0 z3 := by unfold z3; exact clockTo_keeps _ k3 (m.sub rfl)
  clear_value z3 z4
  have h10 : Keeps d L s0 z5 := by unfold z5; exact h6 _ h9
  clear_value z5
  split
  · exact imageFailed_keeps (h6 _ k3) (m.sub rfl)
  · refine Keeps.ite k3 ?_
    split
    · exact acceptCopy_keeps _ _ _ h10 (m.sub rfl)
    · extract_lets z11
      have h12 : Keeps d L s0 z11 := by unfold z11; exact modRst_keeps _ (fun _ h => h) (copyFailed_keeps _ _ h10 (m.sub rfl)) (m.sub rfl)
      clear_value z11
      exact Keeps.ite (imageFailed_keeps h12 (m.sub rfl)) h12

theorem closeWindow_keeps {a0 : State} (k0 : Keeps d L s0 a0) (m : May 0x258d L) : Keeps d L s0 (closeWindow a0) := by
  unfold closeWindow
  extract_lets z0 z1 z2 z3
  have h4 : Keeps d L s0 z0 := by unfold z0; exact modRst_keeps _ (fun _ h => h) k0 (m.sub rfl)
  clear_value z0
  have h5 : Keeps d L s0 z1 := by unfold z1; exact Keeps.ite (logMb_keeps _ _ (modGctl_keeps _ h4 (m.sub rfl)) (m.sub rfl)) h4
  clear_value z1 z2
  have h6 : Keeps d L s0 z3 := by unfold z3; exact modGctl_keeps _ h5 (m.sub rfl)
  clear_value z3
  exact Keeps.ite k0 (iff_keeps _ (fun _ h7 => logMb_keeps _ _ h7 (m.sub rfl)) h6)

theorem beginWaves_keeps {a0 : State} (k0 : Keeps d L s0 a0) (m : May 0x803a58d L) : Keeps d L s0 (beginWaves a0) := by
  unfold beginWaves
  extract_lets z0 z1
  have h2 : Keeps d L s0 z0 := by unfold z0; exact closeWindow_keeps k0 (m.sub rfl)
  clear_value z0
  have h3 : Keeps d L s0 z1 := by unfold z1; exact toPhase_keeps _ (modRst_keeps _ (fun _ h => h) h2 (m.sub rfl)) (m.sub rfl)
  clear_value z1
  exact beginWave_keeps _ (modMgr_keeps _ h3 (m.sub rfl)) (m.sub rfl)

theorem startHoldPut_keeps (a0 : Bool) {a1 : State} (k1 : Keeps d L s0 a1) (m : May 0x803a58d L) : Keeps d L s0 (startHoldPut a0 a1) := by
  unfold startHoldPut
  extract_lets z0
  have h1 : Keeps d L s0 z0 := by unfold z0; exact modRst_keeps _ (fun _ h => h) k1 (m.sub rfl)
  clear_value z0
  exact Keeps.ite (Keeps.ite (modRst_keeps _ (fun _ h => h) k1 (m.sub rfl)) k1) (Keeps.ite (beginWaves_keeps h1 (m.sub rfl)) h1)

theorem coordOvrPut_keeps (a0 : Word) {a1 : State} (k1 : Keeps d L s0 a1) (m : May 0x8 L) : Keeps d L s0 (coordOvrPut a0 a1) := by
  unfold coordOvrPut
  exact Keeps.ite (modGctl_keeps _ k1 (m.sub rfl)) (modGctl_keeps _ k1 (m.sub rfl))

theorem resetTo_keeps (c : BitVec 3) (b : Bool) {s : State} (h : Keeps d L s0 s) (m : May 0x3fffffff L) : Keeps d L s0 (resetTo c b s) := by
  unfold resetTo
  extract_lets y l z
  have hy : Keeps d L s0 y := by unfold y; exact each_keeps (fun _ _ hy => domSet_keeps _ _ hy (m.sub rfl)) h
  clear_value y
  have hz : Keeps d L s0 z := by unfold z; exact each_keeps (fun _ _ hy => emit_keeps _ hy (m.sub rfl)) hy
  clear_value z
  refine hz.trans ⟨rfl, Nat.le_refl _, rfl, List.suffix_refl _, Nat.le_refl _, fun w => ?_, fun _ _ => rfl, Only.all (m.sub rfl) _ _ rfl⟩
  simp only [Memory.wf, Bool.and_eq_true] at w ⊢
  exact ⟨⟨⟨w.1.1.1, rfl⟩, rfl⟩, rfl⟩

theorem takeMirror_keeps (a0 : MgrMirror) {a1 : State} (k1 : Keeps d L s0 a1) (m : May 0x8000000 L) : Keeps d L s0 (takeMirror a0 a1) := by
  unfold takeMirror
  exact modMgr_keeps _ k1 (m.sub rfl)

theorem resendRegs_keeps {a0 : State} (k0 : Keeps d L s0 a0) (m : May 0x1 L) : Keeps d L s0 (resendRegs a0) := by
  unfold resendRegs
  exact each_keeps (fun _ _ h0 => emit_keeps _ h0 (m.sub rfl)) k0

theorem execResetRelease_keeps {L : Nat} {s0 : State} (straps : Straps) (a b c : Bool) {s : State} (h : Keeps false L s0 s) (m : May 0x4a5 L) :
    KeepsO false L s0 (execResetRelease straps a b c s) := by
  have rst : ∀ {y : State} (f : RstSt → RstSt), Keeps false L s0 y → Keeps false L s0 (modRst f y) := fun f hy =>
    hy.trans ⟨rfl, Nat.le_refl _, rfl, List.suffix_refl _, Nat.le_refl _, id, (fun e => by cases e), Only.set_rst _ (m.sub rfl)⟩
  unfold execResetRelease
  refine KeepsO.next (Keeps.ite h ?_)
  extract_lets y z u
  have hz : Keeps false L s0 z := by unfold z; exact modCmd_keeps _ (rst _ h) (m.sub rfl)
  clear_value z
  have hu : Keeps false L s0 u := by unfold u; exact modUnits_keeps _ hz (m.sub rfl)
  clear_value u
  exact Keeps.ite (modFlt_keeps _ (fun _ _ => rfl) hz (m.sub rfl)) (Keeps.ite (modFlt_keeps _ (fun _ h => h) (rst _ hu) (m.sub rfl)) (toPhase_keeps _ (rst _ hu) (m.sub rfl)))

theorem execFlashDiscoveryDone_keeps (a0 : Sfdp) {a1 : State} (k1 : Keeps d L s0 a1) (m : May 0x2585 L) : KeepsO d L s0 (execFlashDiscoveryDone a0 a1) := by
  unfold execFlashDiscoveryDone
  exact KeepsO.next (Keeps.ite k1 (Keeps.ite (toPhase_keeps _ (modRst_keeps _ (fun _ h => h) k1 (m.sub rfl)) (m.sub rfl)) (logMb_keeps _ _ (toPhase_keeps _ (modRst_keeps _ (fun _ h => h) k1 (m.sub rfl)) (m.sub rfl)) (m.sub rfl))))

theorem execImageCopyCheck_keeps (a0 : ImgCopy) (a1 : FlashRead) (a2 : FlashRead) {a3 : State} (k3 : Keeps d L s0 a3) (m : May 0x7a3cf7dd L) :
    KeepsO d L s0 (execImageCopyCheck a0 a1 a2 a3) := by
  unfold execImageCopyCheck
  refine KeepsO.next ?_
  refine Keeps.ite k3 ?_
  split
  · exact checkCopy_keeps _ _ _ k3 (m.sub rfl)
  · exact checkCopy_keeps _ _ _ k3 (m.sub rfl)

theorem execOverrideWindowClose_keeps {a0 : State} (k0 : Keeps d L s0 a0) (m : May 0x4803a58d L) : KeepsO d L s0 (execOverrideWindowClose a0) := by
  unfold execOverrideWindowClose
  extract_lets z0
  have h1 : Keeps d L s0 z0 := by unfold z0; exact clockTo_keeps _ k0 (m.sub rfl)
  clear_value z0
  exact KeepsO.next (Keeps.ite k0 (Keeps.ite (modRst_keeps _ (fun _ h => h) h1 (m.sub rfl)) (beginWaves_keeps h1 (m.sub rfl))))

theorem execStartHoldTimeout_keeps {a0 : State} (k0 : Keeps d L s0 a0) (m : May 0x4803a58d L) : KeepsO d L s0 (execStartHoldTimeout a0) := by
  unfold execStartHoldTimeout
  exact KeepsO.next (Keeps.ite (beginWaves_keeps (clockTo_keeps _ k0 (m.sub rfl)) (m.sub rfl)) k0)

theorem execCoordOvrWrite_keeps (a0 : Path) (a1 : Word) {a2 : State} (k2 : Keeps d L s0 a2) (m : May 0x8 L) : KeepsO d L s0 (execCoordOvrWrite a0 a1 a2) := by
  unfold execCoordOvrWrite
  exact KeepsO.next (Keeps.ite (coordOvrPut_keeps _ k2 (m.sub rfl)) k2)

theorem execStartHoldClear_keeps {a0 : State} (k0 : Keeps d L s0 a0) (m : May 0x803a58d L) : KeepsO d L s0 (execStartHoldClear a0) := by
  unfold execStartHoldClear
  exact KeepsO.next (Keeps.ite (startHoldPut_keeps _ k0 (m.sub rfl)) k0)

theorem execManagerHeartbeatSend_keeps {a0 : State} (k0 : Keeps d L s0 a0) (m : May 0x8000001 L) : KeepsO d L s0 (execManagerHeartbeatSend a0) := by
  unfold execManagerHeartbeatSend
  exact KeepsO.next (Keeps.ite (emit_keeps _ (modMgr_keeps _ k0 (m.sub rfl)) (m.sub rfl)) k0)

theorem execManagerHeartbeat_keeps (a0 : Coord) (a1 : Ident) (a2 : MgrMirror) {a3 : State} (k3 : Keeps d L s0 a3) (m : May 0x8002789 L) :
    KeepsO d L s0 (execManagerHeartbeat a0 a1 a2 a3) := by
  unfold execManagerHeartbeat
  refine KeepsO.next ?_
  refine Keeps.ite k3 ?_
  split
  · exact k3
  · exact takeMirror_keeps _ (modGctl_keeps _ k3 (m.sub rfl)) (m.sub rfl)
  · extract_lets z0 z1 z2 z3
    clear_value z0
    have h4 : Keeps d L s0 z1 := by unfold z1; exact modGctl_keeps _ k3 (m.sub rfl)
    clear_value z1
    have h5 : Keeps d L s0 z2 := by unfold z2; exact modMgr_keeps _ (takeMirror_keeps _ h4 (m.sub rfl)) (m.sub rfl)
    clear_value z2
    have h6 : Keeps d L s0 z3 := by unfold z3; exact chooseUpstream_keeps (enterHoldover_keeps h5 (m.sub rfl)) (m.sub rfl)
    clear_value z3
    exact Keeps.ite k3 (resendRegs_keeps (raiseVec_keeps _ (iff_keeps _ (fun _ h7 => logMb_keeps _ _ h7 (m.sub rfl)) h6) (m.sub rfl)) (m.sub rfl))

theorem execManagerAssumed_keeps {a0 : State} (k0 : Keeps d L s0 a0) (m : May 0x497b6789 L) : KeepsO d L s0 (execManagerAssumed a0) := by
  unfold execManagerAssumed
  extract_lets z0 z1 z2
  have h3 : Keeps d L s0 z0 := by unfold z0; exact clockTo_keeps _ k0 (m.sub rfl)
  clear_value z0
  have h4 : Keeps d L s0 z1 := by unfold z1; exact modGctl_keeps _ h3 (m.sub rfl)
  clear_value z1
  have h5 : Keeps d L s0 z2 := by unfold z2; exact followRef_keeps (modTim_keeps _ h4 (m.sub rfl)) (m.sub rfl)
  clear_value z2
  exact KeepsO.next (Keeps.ite k0 (startPhase_keeps (raiseVec_keeps _ (logMb_keeps _ _ h5 (m.sub rfl)) (m.sub rfl)) (m.sub rfl)))

theorem execDevReset_keeps (a0 : Byte) {a1 : State} (k1 : Keeps d L s0 a1) (m : May 0x3fffffff L) : KeepsO d L s0 (execDevReset a0 a1) := by
  unfold execDevReset
  exact KeepsO.next (Keeps.ite (resetTo_keeps _ _ k1 (m.sub rfl)) k1)

theorem execResetAsserted_keeps (a0 : Bool) {a1 : State} (k1 : Keeps d L s0 a1) (m : May 0x3fffffff L) : KeepsO d L s0 (execResetAsserted a0 a1) := by
  unfold execResetAsserted
  exact KeepsO.next (resetTo_keeps _ _ k1 (m.sub rfl))

theorem execVaux3v3Loss_keeps {a0 : State} (k0 : Keeps d L s0 a0) (m : May 0x3fffffff L) : KeepsO d L s0 (execVaux3v3Loss a0) := by
  unfold execVaux3v3Loss
  extract_lets z0
  have h1 : Keeps d L s0 z0 := by unfold z0; exact resetTo_keeps _ _ k0 (m.sub rfl)
  clear_value z0
  exact KeepsO.next (modFlt_keeps _ (fun _ h => h) h1 (m.sub rfl))

/-! ## Power -/

theorem askDoze_keeps (a0 : Nat) {a1 : State} (k1 : Keeps d L s0 a1) (m : May 0x30001 L) : Keeps d L s0 (askDoze a0 a1) := by
  unfold askDoze
  split
  · exact Keeps.ite (modLink_keeps _ _ (leaveIdle_keeps _ k1 (m.sub rfl)) (m.sub rfl)) k1
  · exact Keeps.ite (modLink_keeps _ _ (leaveIdle_keeps _ k1 (m.sub rfl)) (m.sub rfl)) k1
  · exact k1

theorem askDark_keeps (a0 : Nat) {a1 : State} (k1 : Keeps d L s0 a1) (m : May 0x20000 L) : Keeps d L s0 (askDark a0 a1) := by
  unfold askDark
  exact Keeps.ite (modLink_keeps _ _ k1 (m.sub rfl)) k1

theorem wakeLink_keeps (a0 : Nat) {a1 : State} (k1 : Keeps d L s0 a1) (m : May 0x30001 L) : Keeps d L s0 (wakeLink a0 a1) := by
  unfold wakeLink
  split
  · exact leaveDoze_keeps _ k1 (m.sub rfl)
  · exact trainFull_keeps _ (each_keeps (fun _ _ h0 => Keeps.ite h0 (emit_keeps _ h0 (m.sub rfl))) k1) (m.sub rfl)
  · exact modLink_keeps _ _ k1 (m.sub rfl)

theorem lpRequest_keeps (a0 : Nat) (a1 : Nat) {a2 : State} (k2 : Keeps d L s0 a2) (m : May 0x38001 L) : Keeps d L s0 (lpRequest a0 a1 a2) := by
  unfold lpRequest
  extract_lets z0
  have h1 : Keeps d L s0 z0 := by unfold z0; exact modPort_keeps _ _ k2 (m.sub rfl)
  clear_value z0
  refine Keeps.ite h1 ?_
  refine each_keeps (fun _ _ h2 => ?_) h1
  split
  · exact askDoze_keeps _ h2 (m.sub rfl)
  · exact askDark_keeps _ h2 (m.sub rfl)
  · exact wakeLink_keeps _ h2 (m.sub rfl)
  · exact h2

theorem darken_keeps (a0 : Nat) {a1 : State} (k1 : Keeps d L s0 a1) (m : May 0x10001 L) : Keeps d L s0 (darken a0 a1) := by
  unfold darken
  exact each_keeps (fun _ _ h0 => Keeps.ite h0 (emit_keeps _ (modStrand_keeps _ _ h0 (m.sub rfl)) (m.sub rfl))) k1

theorem resMark_keeps {a0 : State} (k0 : Keeps d L s0 a0) (m : May 0x40 L) : Keeps d L s0 (resMark a0) := by
  unfold resMark
  exact modPwr_keeps _ k0 (m.sub rfl)

theorem startRamp_keeps (a0 : BitVec 2) {a1 : State} (k1 : Keeps d L s0 a1) (m : May 0x60025c1 L) : Keeps d L s0 (startRamp a0 a1) := by
  unfold startRamp
  exact lapseAll_keeps _ _ (modPwr_keeps _ k1 (m.sub rfl)) (m.sub rfl)

theorem pointPut_keeps (a0 : BitVec 2) {a1 : State} (k1 : Keeps d L s0 a1) (m : May 0x60025c1 L) : Keeps d L s0 (pointPut a0 a1) := by
  unfold pointPut
  extract_lets z0 z1
  clear_value z0
  have h2 : Keeps d L s0 z1 := by unfold z1; exact modPwr_keeps _ k1 (m.sub rfl)
  clear_value z1
  split
  · exact Keeps.ite (modPwr_keeps _ h2 (m.sub rfl)) (Keeps.ite h2 (startRamp_keeps _ h2 (m.sub rfl)))
  · exact modPwr_keeps _ h2 (m.sub rfl)

theorem domStopped_keeps (a0 : Nat) {a1 : State} (k1 : Keeps d L s0 a1) (m : May 0x317b0041 L) : Keeps d L s0 (domStopped a0 a1) := by
  unfold domStopped
  extract_lets z0 z1 z2 z3 z4 z5
  clear_value z0
  have h6 : Keeps d L s0 z1 := by unfold z1; exact modPwr_keeps _ k1 (m.sub rfl)
  clear_value z1 z2
  have h7 : Keeps d L s0 z3 := by unfold z3; exact modPwr_keeps _ (domSet_keeps _ _ h6 (m.sub rfl)) (m.sub rfl)
  clear_value z3
  have h8 : Keeps d L s0 z4 := by unfold z4; exact modStack_keeps _ _ h7 (m.sub rfl)
  clear_value z4
  exact Keeps.ite (modPwr_keeps _ (modStack_keeps _ _ h6 (m.sub rfl)) (m.sub rfl)) (Keeps.ite (dram_keeps (s := z4) h8 (fun h => tblOk_filter _ _ h _) (m.sub rfl)) (Keeps.ite (domSet_keeps _ _ (each_keeps (fun _ _ h9 => darken_keeps _ h9 (m.sub rfl)) h6) (m.sub rfl)) (Keeps.ite (domSet_keeps _ _ (loseGlade_keeps _ h6 (m.sub rfl)) (m.sub rfl)) (domSet_keeps _ _ h6 (m.sub rfl)))))

theorem domBack_keeps (a0 : Nat) {a1 : State} (k1 : Keeps d L s0 a1) (m : May 0x32000040 L) : Keeps d L s0 (domBack a0 a1) := by
  unfold domBack
  exact Keeps.ite (modPwr_keeps _ (modStack_keeps _ _ k1 (m.sub rfl)) (m.sub rfl)) (domUp_keeps _ k1 (m.sub rfl))

theorem endEntry_keeps (a0 : Nat) {a1 : State} (k1 : Keeps d L s0 a1) (m : May 0x32030041 L) : Keeps d L s0 (endEntry a0 a1) := by
  unfold endEntry
  extract_lets z0 z1 z2 z3
  clear_value z0 z1
  have h4 : Keeps d L s0 z2 := by unfold z2; exact modPwr_keeps _ k1 (m.sub rfl)
  clear_value z2
  have h5 : Keeps d L s0 z3 := by unfold z3; exact each_keeps (fun _ _ h6 => domBack_keeps _ h6 (m.sub rfl)) h4
  clear_value z3
  exact each_keeps (fun _ _ h7 => wakeLink_keeps _ h7 (m.sub rfl)) h5

theorem refuseEntry_keeps (a0 : Nat) (a1 : Nat) {a2 : State} (k2 : Keeps d L s0 a2) (m : May 0x320325c1 L) : Keeps d L s0 (refuseEntry a0 a1 a2) := by
  unfold refuseEntry
  extract_lets z0 z1
  have h2 : Keeps d L s0 z0 := by unfold z0; exact endEntry_keeps _ k2 (m.sub rfl)
  clear_value z0
  have h3 : Keeps d L s0 z1 := by unfold z1; exact modPwr_keeps _ h2 (m.sub rfl)
  clear_value z1
  exact logEvent_keeps _ _ _ _ h3 (m.sub rfl)

theorem finishEntry_keeps {a0 : State} (k0 : Keeps d L s0 a0) (m : May 0x3a5c1 L) : Keeps d L s0 (finishEntry a0) := by
  unfold finishEntry
  extract_lets z0 z1 z2 z3
  clear_value z0
  have h4 : Keeps d L s0 z1 := by unfold z1; exact resMark_keeps k0 (m.sub rfl)
  clear_value z1
  have h5 : Keeps d L s0 z2 := by unfold z2; exact modPwr_keeps _ h4 (m.sub rfl)
  clear_value z2
  have h6 : Keeps d L s0 z3 := by
    unfold z3
    split
    · exact each_keeps (fun _ _ h7 => askDoze_keeps _ h7 (m.sub rfl)) h5
    · exact each_keeps (fun _ _ h8 => modPort_keeps _ _ h8 (m.sub rfl)) h5
    · exact h5
  clear_value z3
  exact Keeps.ite h5 (logEvent_keeps _ _ _ _ h6 (m.sub rfl))

theorem voteCheck_keeps {a0 : State} (k0 : Keeps d L s0 a0) (m : May 0x3a5c1 L) : Keeps d L s0 (voteCheck a0) := by
  unfold voteCheck
  refine Keeps.ite k0 ?_
  split
  · exact Keeps.ite (finishEntry_keeps k0 (m.sub rfl)) (Keeps.ite (modPwr_keeps _ k0 (m.sub rfl)) k0)
  · exact Keeps.ite (finishEntry_keeps k0 (m.sub rfl)) k0
  · exact k0

theorem beginEntry_keeps (a0 : DevState) (a1 : Option Nat) {a2 : State} (k2 : Keeps d L s0 a2) (m : May 0x3a5c1 L) : Keeps d L s0 (beginEntry a0 a1 a2) := by
  unfold beginEntry
  extract_lets z0 z1
  have h2 : Keeps d L s0 z0 := by unfold z0; exact modPwr_keeps _ k2 (m.sub rfl)
  clear_value z0
  have h3 : Keeps d L s0 z1 := by unfold z1; exact iff_keeps _ (fun _ h4 => each_keeps (fun _ _ h5 => askDark_keeps _ (askDoze_keeps _ h5 (m.sub rfl)) (m.sub rfl)) h4) h2
  clear_value z1
  exact voteCheck_keeps h3 (m.sub rfl)

theorem switchOff_keeps (a0 : Nat) {a1 : State} (k1 : Keeps d L s0 a1) (m : May 0x3a5c1 L) : Keeps d L s0 (switchOff a0 a1) := by
  unfold switchOff
  extract_lets z0
  have h1 : Keeps d L s0 z0 := by unfold z0; exact beginEntry_keeps _ _ k1 (m.sub rfl)
  clear_value z0
  exact iff_keeps _ (fun _ h2 => each_keeps (fun _ _ h3 => askDark_keeps _ (askDoze_keeps _ h3 (m.sub rfl)) (m.sub rfl)) h2) h1

theorem switchOn_keeps (a0 : Nat) {a1 : State} (k1 : Keeps d L s0 a1) (m : May 0x32038041 L) : Keeps d L s0 (switchOn a0 a1) := by
  unfold switchOn
  extract_lets z0 z1
  have h2 : Keeps d L s0 z0 := by unfold z0; exact domUp_keeps _ k1 (m.sub rfl)
  clear_value z0 z1
  exact Keeps.ite (each_keeps (fun _ _ h3 => beginPort_keeps _ h3 (m.sub rfl)) h2) (Keeps.ite (each_keeps (fun _ _ h4 => Keeps.ite (domBack_keeps _ h4 (m.sub rfl)) h4) (each_keeps (fun _ _ h5 => Keeps.ite h5 (domUp_keeps _ h5 (m.sub rfl))) h2)) h2)

theorem settleWant_keeps (a0 : Nat) {a1 : State} (k1 : Keeps d L s0 a1) (m : May 0x3203a5c1 L) : Keeps d L s0 (settleWant a0 a1) := by
  unfold settleWant
  exact Keeps.ite k1 (Keeps.ite (switchOff_keeps _ k1 (m.sub rfl)) (Keeps.ite (switchOn_keeps _ k1 (m.sub rfl)) k1))

theorem settleWants_keeps {a0 : State} (k0 : Keeps d L s0 a0) (m : May 0x3203a5c1 L) : Keeps d L s0 (settleWants a0) := by
  unfold settleWants
  exact each_keeps (fun _ _ h0 => settleWant_keeps _ h0 (m.sub rfl)) k0

theorem wantOffPut_keeps (a0 : Nat) (a1 : Bool) {a2 : State} (k2 : Keeps d L s0 a2) (m : May 0x3203a5c1 L) : Keeps d L s0 (wantOffPut a0 a1 a2) := by
  unfold wantOffPut
  exact Keeps.ite (logEvent_keeps _ _ _ _ (modPwr_keeps _ k2 (m.sub rfl)) (m.sub rfl)) (settleWant_keeps _ (modPwr_keeps _ k2 (m.sub rfl)) (m.sub rfl))

theorem leaveLow_keeps {a0 : State} (k0 : Keeps d L s0 a0) (m : May 0x32001445 L) : Keeps d L s0 (leaveLow a0) := by
  unfold leaveLow
  split
  · exact k0
  · exact wakeQuiet_keeps k0 (m.sub rfl)
  · extract_lets z0 z1
    have h2 : Keeps d L s0 z0 := by unfold z0; exact resMark_keeps k0 (m.sub rfl)
    clear_value z0
    have h3 : Keeps d L s0 z1 := by unfold z1; exact modPwr_keeps _ h2 (m.sub rfl)
    clear_value z1
    exact powerUp_keeps (modRst_keeps _ (fun _ h => h) h3 (m.sub rfl)) (m.sub rfl)

theorem wakeBy_keeps (a0 : Nat) {a1 : State} (k1 : Keeps d L s0 a1) (m : May 0x3203b5c5 L) : Keeps d L s0 (wakeBy a0 a1) := by
  unfold wakeBy
  refine Keeps.ite k1 ?_
  refine Keeps.ite ?_ ?_
  · split
    · exact Keeps.ite k1 (settleWants_keeps (noteWake_keeps _ (endEntry_keeps _ k1 (m.sub rfl)) (m.sub rfl)) (m.sub rfl))
    · exact Keeps.ite k1 (settleWants_keeps (noteWake_keeps _ (endEntry_keeps _ k1 (m.sub rfl)) (m.sub rfl)) (m.sub rfl))
    · exact k1
  · split
    · exact k1
    · exact leaveLow_keeps (noteWake_keeps _ k1 (m.sub rfl)) (m.sub rfl)

theorem devRequest_keeps (a0 : Nat) {a1 : State} (k1 : Keeps d L s0 a1) (m : May 0x3203b5c5 L) : Keeps d L s0 (devRequest a0 a1) := by
  unfold devRequest
  refine Keeps.ite k1 ?_
  refine Keeps.ite (modPwr_keeps _ k1 (m.sub rfl)) ?_
  refine Keeps.ite k1 ?_
  split
  · exact leaveLow_keeps k1 (m.sub rfl)
  · exact beginEntry_keeps _ _ k1 (m.sub rfl)
  · exact beginEntry_keeps _ _ k1 (m.sub rfl)
  · exact beginEntry_keeps _ _ k1 (m.sub rfl)
  · exact k1

theorem execIdleEntry_keeps (a0 : Port) (a1 : Strand) {a2 : State} (k2 : Keeps d L s0 a2) (m : May 0x40030001 L) : KeepsO d L s0 (execIdleEntry a0 a1 a2) := by
  unfold execIdleEntry
  extract_lets z0 z1
  clear_value z0 z1
  exact KeepsO.next (Keeps.ite (enterIdle_keeps _ (clockTo_keeps _ k2 (m.sub rfl)) (m.sub rfl)) k2)

theorem execIdleExit_keeps (a0 : Port) (a1 : Strand) {a2 : State} (k2 : Keeps d L s0 a2) (m : May 0x30001 L) : KeepsO d L s0 (execIdleExit a0 a1 a2) := by
  unfold execIdleExit
  extract_lets z0 z1
  clear_value z0 z1
  exact KeepsO.next (Keeps.ite (leaveIdle_keeps _ k2 (m.sub rfl)) k2)

theorem execRequestDoze_keeps (a0 : Port) {a1 : State} (k1 : Keeps d L s0 a1) (m : May 0x38001 L) : KeepsO d L s0 (execRequestDoze a0 a1) := by
  unfold execRequestDoze
  exact KeepsO.next (Keeps.ite (lpRequest_keeps _ _ k1 (m.sub rfl)) k1)

theorem execRequestDark_keeps (a0 : Port) {a1 : State} (k1 : Keeps d L s0 a1) (m : May 0x38001 L) : KeepsO d L s0 (execRequestDark a0 a1) := by
  unfold execRequestDark
  exact KeepsO.next (Keeps.ite (lpRequest_keeps _ _ k1 (m.sub rfl)) k1)

theorem execWake_keeps (a0 : Port) {a1 : State} (k1 : Keeps d L s0 a1) (m : May 0x38001 L) : KeepsO d L s0 (execWake a0 a1) := by
  unfold execWake
  exact KeepsO.next (Keeps.ite (lpRequest_keeps _ _ k1 (m.sub rfl)) k1)

theorem lightWake_keeps (a0 : Nat) (a1 : Nat) (a2 : Bool) {a3 : State} (k3 : Keeps d L s0 a3) (m : May 0x30001 L) : Keeps d L s0 (lightWake a0 a1 a2 a3) := by
  unfold lightWake
  split
  · exact leaveDoze_keeps _ k3 (m.sub rfl)
  · exact Keeps.ite (trainFull_keeps _ (modStrand_keeps _ _ k3 (m.sub rfl)) (m.sub rfl)) k3
  · exact k3

theorem detectorWake_keeps (a0 : Nat) (a1 : Nat) (a2 : Nat) (a3 : Bool) {a4 : State} (k4 : Keeps d L s0 a4) (m : May 0x3203b5c5 L) :
    Keeps d L s0 (detectorWake a0 a1 a2 a3 a4) := by
  unfold detectorWake
  extract_lets z0 z1
  clear_value z0
  have h2 : Keeps d L s0 z1 := by unfold z1; exact iff_keeps _ (fun _ h3 => wakeBy_keeps _ h3 (m.sub rfl)) k4
  clear_value z1
  exact Keeps.ite (lightWake_keeps _ _ _ h2 (m.sub rfl)) h2

theorem execWakePatternDetected_keeps (a0 : Port) (a1 : Strand) (a2 : Nat) {a3 : State} (k3 : Keeps d L s0 a3) (m : May 0x3203b5c5 L) :
    KeepsO d L s0 (execWakePatternDetected a0 a1 a2 a3) := by
  unfold execWakePatternDetected
  exact KeepsO.next (Keeps.ite (detectorWake_keeps _ _ _ _ k3 (m.sub rfl)) k3)

theorem execDozeLightWake_keeps (a0 : Port) (a1 : Strand) {a2 : State} (k2 : Keeps d L s0 a2) (m : May 0x3203b5c5 L) : KeepsO d L s0 (execDozeLightWake a0 a1 a2) := by
  unfold execDozeLightWake
  exact KeepsO.next (Keeps.ite (detectorWake_keeps _ _ _ _ k2 (m.sub rfl)) k2)

theorem execRequestRun_keeps {a0 : State} (k0 : Keeps d L s0 a0) (m : May 0x3203b5c5 L) : KeepsO d L s0 (execRequestRun a0) := by
  unfold execRequestRun
  exact KeepsO.next (Keeps.ite (devRequest_keeps _ k0 (m.sub rfl)) k0)

theorem execRequestQuiet_keeps {a0 : State} (k0 : Keeps d L s0 a0) (m : May 0x3203b5c5 L) : KeepsO d L s0 (execRequestQuiet a0) := by
  unfold execRequestQuiet
  exact KeepsO.next (Keeps.ite (devRequest_keeps _ k0 (m.sub rfl)) k0)

theorem execRequestHold_keeps {a0 : State} (k0 : Keeps d L s0 a0) (m : May 0x3203b5c5 L) : KeepsO d L s0 (execRequestHold a0) := by
  unfold execRequestHold
  exact KeepsO.next (Keeps.ite (devRequest_keeps _ k0 (m.sub rfl)) k0)

theorem execDomainVoteAnswer_keeps (a0 : Dom) {a1 : State} (k1 : Keeps d L s0 a1) (m : May 0x3203a5c1 L) : KeepsO d L s0 (execDomainVoteAnswer a0 a1) := by
  unfold execDomainVoteAnswer
  refine KeepsO.next ?_
  refine Keeps.ite k1 ?_
  refine settleWants_keeps ?_ (m.sub rfl)
  refine Keeps.ite (voteCheck_keeps k1 (m.sub rfl)) ?_
  split
  · exact voteCheck_keeps (modPwr_keeps _ k1 (m.sub rfl)) (m.sub rfl)
  · exact k1
  · exact refuseEntry_keeps _ _ k1 (m.sub rfl)

theorem execVoteTimeout_keeps (a0 : Dom) {a1 : State} (k1 : Keeps d L s0 a1) (m : May 0x7203a5c1 L) : KeepsO d L s0 (execVoteTimeout a0 a1) := by
  unfold execVoteTimeout
  extract_lets z0
  have h1 : Keeps d L s0 z0 := by unfold z0; exact clockTo_keeps _ k1 (m.sub rfl)
  clear_value z0
  exact KeepsO.next (Keeps.ite k1 (settleWants_keeps (Keeps.ite (voteCheck_keeps k1 (m.sub rfl)) (refuseEntry_keeps _ _ h1 (m.sub rfl))) (m.sub rfl)))

theorem execDomainStop_keeps (a0 : Dom) {a1 : State} (k1 : Keeps d L s0 a1) (m : May 0x337ba5c1 L) : KeepsO d L s0 (execDomainStop a0 a1) := by
  unfold execDomainStop
  refine KeepsO.next ?_
  refine Keeps.ite k1 ?_
  refine settleWants_keeps ?_ (m.sub rfl)
  refine Keeps.ite (voteCheck_keeps k1 (m.sub rfl)) ?_
  refine Keeps.ite k1 ?_
  split
  · exact voteCheck_keeps (domStopped_keeps _ k1 (m.sub rfl)) (m.sub rfl)
  · exact refuseEntry_keeps _ _ k1 (m.sub rfl)

theorem execWantOff_keeps (a0 : Dom) (a1 : Bool) {a2 : State} (k2 : Keeps d L s0 a2) (m : May 0x3203a5c1 L) : KeepsO d L s0 (execWantOff a0 a1 a2) := by
  unfold execWantOff
  exact KeepsO.next (Keeps.ite (wantOffPut_keeps _ _ k2 (m.sub rfl)) k2)

theorem execWakeSource_keeps (a0 : Fin 3) {a1 : State} (k1 : Keeps d L s0 a1) (m : May 0x3203b5c5 L) : KeepsO d L s0 (execWakeSource a0 a1) := by
  unfold execWakeSource
  exact KeepsO.next (Keeps.ite (wakeBy_keeps _ k1 (m.sub rfl)) k1)

theorem execReturnToRun_keeps {a0 : State} (k0 : Keeps d L s0 a0) (m : May 0x3e0bb5c1 L) : KeepsO d L s0 (execReturnToRun a0) := by
  unfold execReturnToRun
  extract_lets z0 z1 z2 z3 z4
  have h5 : Keeps d L s0 z0 := by unfold z0; exact resMark_keeps k0 (m.sub rfl)
  clear_value z0
  have h6 : Keeps d L s0 z1 := by unfold z1; exact modPwr_keeps _ h5 (m.sub rfl)
  clear_value z1
  have h7 : Keeps d L s0 z2 := by unfold z2; exact each_keeps (fun _ _ h8 => domBack_keeps _ h8 (m.sub rfl)) h6
  clear_value z2 z3
  have h9 : Keeps d L s0 z4 := by unfold z4; exact modPwr_keeps _ h7 (m.sub rfl)
  clear_value z4
  exact KeepsO.next (Keeps.ite k0 (settleWants_keeps (each_keeps (fun _ _ h10 => serveAlloc_keeps _ h10 (m.sub rfl)) h9) (m.sub rfl)))

theorem execPointWrite_keeps (a0 : BitVec 2) {a1 : State} (k1 : Keeps d L s0 a1) (m : May 0x60025c1 L) : KeepsO d L s0 (execPointWrite a0 a1) := by
  unfold execPointWrite
  exact KeepsO.next (Keeps.ite (pointPut_keeps _ k1 (m.sub rfl)) k1)

theorem execRampEnd_keeps {a0 : State} (k0 : Keeps d L s0 a0) (m : May 0x460025c1 L) : KeepsO d L s0 (execRampEnd a0) := by
  unfold execRampEnd
  extract_lets z0 z1 z2
  have h3 : Keeps d L s0 z0 := by unfold z0; exact resMark_keeps (clockTo_keeps _ k0 (m.sub rfl)) (m.sub rfl)
  clear_value z0
  have h4 : Keeps d L s0 z1 := by unfold z1; exact modPwr_keeps _ h3 (m.sub rfl)
  clear_value z1
  have h5 : Keeps d L s0 z2 := by unfold z2; exact modPwr_keeps _ h4 (m.sub rfl)
  clear_value z2
  refine KeepsO.next ?_
  refine Keeps.ite k0 ?_
  split
  · exact Keeps.ite h5 (startRamp_keeps _ h5 (m.sub rfl))
  · exact h4

/-! ## Dma -/

theorem dramWrite_keeps (a0 : Nat) (a1 : Nat) (a2 : List Byte) {a3 : State} (k3 : Keeps d L s0 a3) (m : May 0x20000000 L) : Keeps d L s0 (dramWrite a0 a1 a2 a3) := by
  unfold dramWrite
  extract_lets z0 z1
  clear_value z0
  exact Keeps.ite (each_keeps (fun _ _ h2 => Keeps.ite (shard_keeps h2 (fun h => tblOk_tset _ _ h _ _ (Nat.zero_le _)) (m.sub rfl)) (dram_keeps h2 (fun h => tblOk_tset _ _ h _ _ (Nat.zero_le _)) (m.sub rfl))) k3) (dram_keeps (s := a3) k3 (fun h => tblOk_wrBytes _ h _ _) (m.sub rfl))

theorem placeWrite_keeps (a0 : Nat) (a1 : Nat) (a2 : List Byte) {a3 : State} (k3 : Keeps d L s0 a3) (m : May 0x30002000 L) : Keeps d L s0 (placeWrite a0 a1 a2 a3) := by
  unfold placeWrite
  split
  · exact countBytes_keeps _ _ (host_keeps (s := a3) k3 (fun h => tblOk_wrBytes _ h _ _) (m.sub rfl)) (m.sub rfl)
  · exact countBytes_keeps _ _ (cwWritten_keeps _ _ _ (dramWrite_keeps _ _ _ k3 (m.sub rfl)) (m.sub rfl)) (m.sub rfl)
  · exact countBytes_keeps _ _ (sram_keeps (s := a3) k3 (fun h => tblOk_wrBytes _ h _ _) (m.sub rfl)) (m.sub rfl)
  · exact k3

theorem countRead_keeps (a0 : Nat) (a1 : Nat) (a2 : Nat) {a3 : State} (k3 : Keeps d L s0 a3) (m : May 0x2000 L) : Keeps d L s0 (countRead a0 a1 a2 a3) := by
  unfold countRead
  split
  · exact countBytes_keeps _ _ k3 (m.sub rfl)
  · exact countBytes_keeps _ _ k3 (m.sub rfl)
  · exact countBytes_keeps _ _ k3 (m.sub rfl)
  · exact id_keeps _ k3

theorem readCheck_keeps (a0 : BeatResult) (a1 : Nat) (a2 : Nat) (a3 : Nat) {a4 : State} (k4 : Keeps d L s0 a4) (m : May 0x36cb3583 L) :
    Keeps d L s0 (readCheck a0 a1 a2 a3 a4).2 := by
  unfold readCheck
  split
  · exact k4
  · split
    · rename_i y0 _ y1 e2
      have h3 : Keeps d L s0 y1 := Keeps.snd_eq e2 (cwRead_keeps _ _ _ _ _ k4 (m.sub rfl))
      exact h3
  · extract_lets z4
    clear_value z4
    split
    · rename_i y5 _ _ y6 e7
      have h8 : Keeps d L s0 y6 := Keeps.trd_eq e7 (injectSecDed_keeps _ _ k4 (m.sub rfl))
      split
      · exact h8
      · dsimp only
        exact logEvent'_keeps _ _ _ _ _ _ _ (redCnt_keeps _ _ _ h8 (m.sub rfl)) (m.sub rfl)
      · dsimp only
        exact sramDouble_keeps _ _ _ (logEvent'_keeps _ _ _ _ _ _ _ (redCnt_keeps _ _ _ h8 (m.sub rfl)) (m.sub rfl)) (m.sub rfl)
  · exact k4

theorem drainEnd_keeps (a0 : Nat) (a1 : Bool) {a2 : State} (k2 : Keeps d L s0 a2) (m : May 0x2000 L) : Keeps d L s0 (drainEnd a0 a1 a2) := by
  unfold drainEnd
  exact modTrace_keeps _ _ k2 (m.sub rfl)

theorem tellOwner_keeps (a0 : Nat) (a1 : Xfer) {a2 : State} (k2 : Keeps d L s0 a2) (m : May 0x2400 L) : Keeps d L s0 (tellOwner a0 a1 a2) := by
  unfold tellOwner
  extract_lets z0 z1
  clear_value z0
  have h2 : Keeps d L s0 z1 := by
    unfold z1
    split
    · exact modRing_keeps _ _ k2 (m.sub rfl)
    · exact k2
  clear_value z1
  split
  · exact drainEnd_keeps _ _ h2 (m.sub rfl)
  · exact h2

theorem leaveRun_keeps (a0 : Nat) (a1 : Xfer) {a2 : State} (k2 : Keeps d L s0 a2) (m : May 0x3c81 L) : Keeps d L s0 (leaveRun a0 a1 a2) := by
  unfold leaveRun
  extract_lets z0 z1 z2
  have h3 : Keeps d L s0 z0 := by unfold z0; exact tellOwner_keeps _ _ k2 (m.sub rfl)
  clear_value z0
  have h4 : Keeps d L s0 z1 := by unfold z1; exact modChan_keeps _ _ h3 (m.sub rfl)
  clear_value z1
  have h5 : Keeps d L s0 z2 := by unfold z2; exact freeAllOf_keeps _ h4 (m.sub rfl)
  clear_value z2
  exact iff_keeps _ (fun _ h6 => raiseVec_keeps _ h6 (m.sub rfl)) h5

theorem chanDone_keeps (a0 : Nat) {a1 : State} (k1 : Keeps d L s0 a1) (m : May 0x3c81 L) : Keeps d L s0 (chanDone a0 a1) := by
  unfold chanDone
  exact leaveRun_keeps _ _ (modChan_keeps _ _ k1 (m.sub rfl)) (m.sub rfl)

theorem chanHalt_keeps (a0 : Nat) (a1 : Nat) {a2 : State} (k2 : Keeps d L s0 a2) (m : May 0x3c81 L) : Keeps d L s0 (chanHalt a0 a1 a2) := by
  unfold chanHalt
  extract_lets z0
  have h1 : Keeps d L s0 z0 := by unfold z0; exact modDma_keeps _ (dmaCnt_keeps _ _ k2 (m.sub rfl)) (m.sub rfl)
  clear_value z0
  exact leaveRun_keeps _ _ (modChan_keeps _ _ h1 (m.sub rfl)) (m.sub rfl)

theorem chanRun_keeps (a0 : Nat) (a1 : Option (Elem × Ident)) (a2 : Option Nat) {a3 : State} (k3 : Keeps d L s0 a3) (m : May 0x1880 L) :
    Keeps d L s0 (chanRun a0 a1 a2 a3) := by
  unfold chanRun
  exact poolAsk_keeps _ _ _ (modChan_keeps _ _ k3 (m.sub rfl)) (m.sub rfl)

theorem chanGo_keeps (a0 : Nat) {a1 : State} (k1 : Keeps d L s0 a1) (m : May 0x3c81 L) : Keeps d L s0 (chanGo a0 a1) := by
  unfold chanGo
  extract_lets z0
  clear_value z0
  exact Keeps.ite k1 (Keeps.ite (chanHalt_keeps _ _ (modChan_keeps _ _ k1 (m.sub rfl)) (m.sub rfl)) (chanRun_keeps _ _ _ k1 (m.sub rfl)))

theorem elemAdvance_keeps (a0 : Nat) {a1 : State} (k1 : Keeps d L s0 a1) (m : May 0x3c81 L) : Keeps d L s0 (elemAdvance a0 a1) := by
  unfold elemAdvance
  extract_lets z0
  clear_value z0
  exact Keeps.ite k1 (Keeps.ite (chanDone_keeps _ k1 (m.sub rfl)) (modChan_keeps _ _ k1 (m.sub rfl)))

theorem chanStop_keeps (a0 : Nat) {a1 : State} (k1 : Keeps d L s0 a1) (m : May 0x3c81 L) : Keeps d L s0 (chanStop a0 a1) := by
  unfold chanStop
  extract_lets z0
  clear_value z0
  exact Keeps.ite k1 (Keeps.ite (chanDone_keeps _ k1 (m.sub rfl)) (chanHalt_keeps _ _ k1 (m.sub rfl)))

theorem haltAll_keeps (a0 : Nat) {a1 : State} (k1 : Keeps d L s0 a1) (m : May 0x3c81 L) : Keeps d L s0 (haltAll a0 a1) := by
  unfold haltAll
  exact each_keeps (fun _ _ h0 => Keeps.ite (chanHalt_keeps _ _ h0 (m.sub rfl)) h0) k1

theorem beatError_keeps (a0 : Nat) {a1 : State} (k1 : Keeps d L s0 a1) (m : May 0x3c81 L) : Keeps d L s0 (beatError a0 a1) := by
  unfold beatError
  extract_lets z0 z1
  have h2 : Keeps d L s0 z0 := by unfold z0; exact dmaCnt_keeps _ _ k1 (m.sub rfl)
  clear_value z0 z1
  exact Keeps.ite (chanHalt_keeps _ _ h2 (m.sub rfl)) (modChan_keeps _ _ h2 (m.sub rfl))

theorem beatOk_keeps (a0 : Nat) {a1 : State} (k1 : Keeps d L s0 a1) (m : May 0x800 L) : Keeps d L s0 (beatOk a0 a1) := by
  unfold beatOk
  exact Keeps.ite k1 (modChan_keeps _ _ (dmaCnt_keeps _ _ k1 (m.sub rfl)) (m.sub rfl))

theorem placeOff_keeps (a0 : Nat) {a1 : State} (k1 : Keeps d L s0 a1) (m : May 0x3203bdc5 L) : Keeps d L s0 (placeOff a0 a1) := by
  unfold placeOff
  exact Keeps.ite (wakeBy_keeps _ k1 (m.sub rfl)) (chanHalt_keeps _ _ k1 (m.sub rfl))

theorem sendRemote_keeps (a0 : Nat) (a1 : Elem) (a2 : Bool) (a3 : Nat) (a4 : Nat) (a5 : Nat) {a6 : State} (k6 : Keeps d L s0 a6) (m : May 0x1fb4881 L) :
    Keeps d L s0 (sendRemote a0 a1 a2 a3 a4 a5 a6) := by
  unfold sendRemote
  extract_lets z0 z1 z2
  clear_value z0 z1
  have h3 : Keeps d L s0 z2 := by unfold z2; exact modChan_keeps _ _ k6 (m.sub rfl)
  clear_value z2
  exact Keeps.ite (sendMgmt_keeps _ _ h3 (m.sub rfl)) (sendMgmt_keeps _ _ h3 (m.sub rfl))

theorem syncOffset_keeps (a0 : Nat) {a1 : State} (k1 : Keeps d L s0 a1) (m : May 0x800 L) : Keeps d L s0 (syncOffset a0 a1) := by
  unfold syncOffset
  exact modChan_keeps _ _ k1 (m.sub rfl)

theorem startElem_keeps (a0 : Nat) (a1 : BeatResult) {a2 : State} (k2 : Keeps d L s0 a2) (m : May 0x36cbbdc7 L) : Keeps d L s0 (startElem a0 a1 a2) := by
  unfold startElem
  extract_lets z0 z1
  clear_value z0 z1
  refine Keeps.ite (chanHalt_keeps _ _ k2 (m.sub rfl)) ?_
  refine Keeps.ite (placeOff_keeps _ k2 (m.sub rfl)) ?_
  split
  · rename_i y2 _ y3 e4
    have h5 : Keeps d L s0 y3 := by
      refine Keeps.snd_eq e4 ?_
      split
      · exact k2
      · exact readCheck_keeps _ _ _ _ k2 (m.sub rfl)
    extract_lets z6 z7 z8
    clear_value z6
    have h9 : Keeps d L s0 z7 := by unfold z7; exact iff_keeps _ (fun _ h10 => countRead_keeps _ _ _ (beatOk_keeps _ h10 (m.sub rfl)) (m.sub rfl)) h5
    clear_value z7 z8
    exact Keeps.ite (beatError_keeps _ h5 (m.sub rfl)) (Keeps.ite (chanHalt_keeps _ _ h9 (m.sub rfl)) (Keeps.ite (chanHalt_keeps _ _ h9 (m.sub rfl)) (Keeps.ite (placeOff_keeps _ h9 (m.sub rfl)) (modChan_keeps _ _ h9 (m.sub rfl)))))

theorem putBytes_keeps (a0 : Nat) (a1 : Elem) (a2 : List Byte) {a3 : State} (k3 : Keeps d L s0 a3) (m : May 0x31fb6881 L) : Keeps d L s0 (putBytes a0 a1 a2 a3) := by
  unfold putBytes
  extract_lets z0
  have h1 : Keeps d L s0 z0 := by unfold z0; exact Keeps.ite (modChan_keeps _ _ k3 (m.sub rfl)) (Keeps.ite (sendRemote_keeps _ _ _ _ _ _ k3 (m.sub rfl)) (placeWrite_keeps _ _ _ k3 (m.sub rfl)))
  clear_value z0
  exact syncOffset_keeps _ (modChan_keeps _ _ h1 (m.sub rfl)) (m.sub rfl)

theorem putBeat_keeps (a0 : Nat) (a1 : Elem) (a2 : BeatResult) {a3 : State} (k3 : Keeps d L s0 a3) (m : May 0x37fb7d83 L) : Keeps d L s0 (putBeat a0 a1 a2 a3) := by
  unfold putBeat
  extract_lets z0
  clear_value z0
  refine Keeps.ite (beatError_keeps _ k3 (m.sub rfl)) ?_
  split
  · rename_i y1 _ y2 e3
    have h4 : Keeps d L s0 y2 := by
      refine Keeps.snd_eq e3 ?_
      split
      · exact k3
      · exact readCheck_keeps _ _ _ _ k3 (m.sub rfl)
    extract_lets z5 z6
    clear_value z5
    have h7 : Keeps d L s0 z6 := by unfold z6; exact Keeps.ite h4 (countRead_keeps _ _ _ h4 (m.sub rfl))
    clear_value z6
    exact Keeps.ite (beatError_keeps _ h4 (m.sub rfl)) (putBytes_keeps _ _ _ (beatOk_keeps _ h7 (m.sub rfl)) (m.sub rfl))

theorem askBeat_keeps (a0 : Nat) (a1 : Elem) {a2 : State} (k2 : Keeps d L s0 a2) (m : May 0x1fb4881 L) : Keeps d L s0 (askBeat a0 a1 a2) := by
  unfold askBeat
  extract_lets z0
  clear_value z0
  exact sendRemote_keeps _ _ _ _ _ _ (modChan_keeps _ _ k2 (m.sub rfl)) (m.sub rfl)

theorem chanBeat_keeps (a0 : Nat) (a1 : BeatResult) {a2 : State} (k2 : Keeps d L s0 a2) (m : May 0x37fbfdc7 L) : Keeps d L s0 (chanBeat a0 a1 a2) := by
  unfold chanBeat
  extract_lets z0
  clear_value z0
  refine Keeps.ite k2 ?_
  split
  · exact startElem_keeps _ _ k2 (m.sub rfl)
  · exact Keeps.ite (putBeat_keeps _ _ _ k2 (m.sub rfl)) (askBeat_keeps _ _ k2 (m.sub rfl))

theorem blockHost_keeps {a0 : State} (k0 : Keeps d L s0 a0) (m : May 0x800 L) : Keeps d L s0 (blockHost a0) := by
  unfold blockHost
  refine Keeps.ite k0 ?_
  refine each_keeps (fun _ _ h0 => ?_) k0
  extract_lets z1
  clear_value z1
  exact Keeps.ite (modChan_keeps _ _ h0 (m.sub rfl)) h0

theorem engineBeat_keeps (a0 : BeatResult) {a1 : State} (k1 : Keeps d L s0 a1) (m : May 0x37fbfdc7 L) : Keeps d L s0 (engineBeat a0 a1) := by
  unfold engineBeat
  extract_lets z0 z1
  have h2 : Keeps d L s0 z0 := by unfold z0; exact blockHost_keeps k1 (m.sub rfl)
  clear_value z0 z1
  split
  · exact h2
  · extract_lets z3
    have h4 : Keeps d L s0 z3 := by unfold z3; exact Keeps.ite (modDma_keeps _ (iff_keeps _ (fun _ h5 => dmaCnt_keeps _ _ h5 (m.sub rfl)) h2) (m.sub rfl)) (modDma_keeps _ h2 (m.sub rfl))
    clear_value z3
    exact chanBeat_keeps _ _ h4 (m.sub rfl)

theorem dropRemote_keeps (a0 : Nat) (a1 : RemoteMsg) {a2 : State} (k2 : Keeps d L s0 a2) (m : May 0x800 L) : Keeps d L s0 (dropRemote a0 a1 a2) := by
  unfold dropRemote
  exact modChan_keeps _ _ k2 (m.sub rfl)

theorem remoteError_keeps (a0 : Nat) (a1 : RemoteMsg) {a2 : State} (k2 : Keeps d L s0 a2) (m : May 0x1fb7c81 L) : Keeps d L s0 (remoteError a0 a1 a2) := by
  unfold remoteError
  extract_lets z0 z1
  have h2 : Keeps d L s0 z0 := by unfold z0; exact dmaCnt_keeps _ _ k2 (m.sub rfl)
  clear_value z0 z1
  split
  · exact h2
  · exact Keeps.ite (chanHalt_keeps _ _ (modChan_keeps _ _ h2 (m.sub rfl)) (m.sub rfl)) (sendRemote_keeps _ _ _ _ _ _ (dropRemote_keeps _ _ h2 (m.sub rfl)) (m.sub rfl))

theorem remoteOk_keeps (a0 : Nat) (a1 : RemoteMsg) {a2 : State} (k2 : Keeps d L s0 a2) (m : May 0x800 L) : Keeps d L s0 (remoteOk a0 a1 a2) := by
  unfold remoteOk
  exact iff_keeps _ (fun _ h0 => dmaCnt_keeps _ _ h0 (m.sub rfl)) (dropRemote_keeps _ _ k2 (m.sub rfl))

theorem remoteRead_keeps (a0 : Nat) (a1 : Word) (a2 : Byte) (a3 : List Byte) {a4 : State} (k4 : Keeps d L s0 a4) (m : May 0x1fb7c81 L) :
    Keeps d L s0 (remoteRead a0 a1 a2 a3 a4) := by
  unfold remoteRead
  split
  · exact k4
  · exact Keeps.ite (remoteError_keeps _ _ k4 (m.sub rfl)) (modChan_keeps _ _ (remoteOk_keeps _ _ k4 (m.sub rfl)) (m.sub rfl))

theorem remoteWritten_keeps (a0 : Nat) (a1 : Word) (a2 : Byte) {a3 : State} (k3 : Keeps d L s0 a3) (m : May 0x1fb7c81 L) : Keeps d L s0 (remoteWritten a0 a1 a2 a3) := by
  unfold remoteWritten
  split
  · exact k3
  · exact Keeps.ite (remoteError_keeps _ _ k3 (m.sub rfl)) (syncOffset_keeps _ (remoteOk_keeps _ _ k3 (m.sub rfl)) (m.sub rfl))

theorem unblockChans_keeps {a0 : State} (k0 : Keeps d L s0 a0) (m : May 0x800 L) : Keeps d L s0 (unblockChans a0) := by
  unfold unblockChans
  exact each_keeps (fun _ _ h0 => Keeps.ite (modChan_keeps _ _ h0 (m.sub rfl)) h0) k0

theorem execGo_keeps (a0 : Chan) {a1 : State} (k1 : Keeps d L s0 a1) (m : May 0x3c81 L) : KeepsO d L s0 (execGo a0 a1) := by
  unfold execGo
  exact KeepsO.next (Keeps.ite (chanGo_keeps _ k1 (m.sub rfl)) k1)

theorem execStopChannel_keeps (a0 : Chan) {a1 : State} (k1 : Keeps d L s0 a1) (m : May 0x3c81 L) : KeepsO d L s0 (execStopChannel a0 a1) := by
  unfold execStopChannel
  exact KeepsO.next (Keeps.ite (chanStop_keeps _ k1 (m.sub rfl)) k1)

theorem execDmaStagingGrant_keeps (a0 : Chan) {a1 : State} (k1 : Keeps d L s0 a1) (m : May 0x800 L) : KeepsO d L s0 (execDmaStagingGrant a0 a1) := by
  unfold execDmaStagingGrant
  exact KeepsO.next (Keeps.ite (modChan_keeps _ _ k1 (m.sub rfl)) k1)

theorem execDmaBeat_keeps (a0 : BeatResult) {a1 : State} (k1 : Keeps d L s0 a1) (m : May 0x37fbfdc7 L) : KeepsO d L s0 (execDmaBeat a0 a1) := by
  unfold execDmaBeat
  exact KeepsO.next (Keeps.ite (engineBeat_keeps _ k1 (m.sub rfl)) k1)

theorem execDmaElementDone_keeps (a0 : Chan) {a1 : State} (k1 : Keeps d L s0 a1) (m : May 0x3c81 L) : KeepsO d L s0 (execDmaElementDone a0 a1) := by
  unfold execDmaElementDone
  exact KeepsO.next (Keeps.ite (elemAdvance_keeps _ k1 (m.sub rfl)) k1)

theorem execRdResp_keeps (a0 : Chan) (a1 : Word) (a2 : Byte) (a3 : List Byte) {a4 : State} (k4 : Keeps d L s0 a4) (m : May 0x1fb7c81 L) :
    KeepsO d L s0 (execRdResp a0 a1 a2 a3 a4) := by
  unfold execRdResp
  exact KeepsO.next (Keeps.ite (remoteRead_keeps _ _ _ _ k4 (m.sub rfl)) k4)

theorem execWrAck_keeps (a0 : Chan) (a1 : Word) (a2 : Byte) {a3 : State} (k3 : Keeps d L s0 a3) (m : May 0x1fb7c81 L) : KeepsO d L s0 (execWrAck a0 a1 a2 a3) := by
  unfold execWrAck
  exact KeepsO.next (Keeps.ite (remoteWritten_keeps _ _ _ k3 (m.sub rfl)) k3)

theorem execRemoteResponseTimeout_keeps (a0 : Chan) (a1 : Word) {a2 : State} (k2 : Keeps d L s0 a2) (m : May 0x41fb7c81 L) :
    KeepsO d L s0 (execRemoteResponseTimeout a0 a1 a2) := by
  unfold execRemoteResponseTimeout
  refine KeepsO.next ?_
  refine Keeps.ite k2 ?_
  split
  · exact remoteError_keeps _ _ (clockTo_keeps _ k2 (m.sub rfl)) (m.sub rfl)
  · exact k2

/-! ## Rings -/

theorem countComp_keeps (a0 : HeldComp) {a1 : State} (k1 : Keeps d L s0 a1) (m : May 0x400 L) : Keeps d L s0 (countComp a0 a1) := by
  unfold countComp
  extract_lets z0 z1 z2
  have h3 : Keeps d L s0 z0 := by unfold z0; exact cmdCnt_keeps _ _ k1 (m.sub rfl)
  clear_value z0
  have h4 : Keeps d L s0 z1 := by unfold z1; exact iff_keeps _ (fun _ h5 => cmdCnt_keeps _ _ h5 (m.sub rfl)) h3
  clear_value z1
  have h6 : Keeps d L s0 z2 := by unfold z2; exact iff_keeps _ (fun _ h7 => cmdCnt_keeps _ _ h7 (m.sub rfl)) h4
  clear_value z2
  exact iff_keeps _ (fun _ h8 => cmdCnt_keeps _ _ h8 (m.sub rfl)) h6

theorem writeComp_keeps (a0 : HeldComp) {a1 : State} (k1 : Keeps d L s0 a1) (m : May 0x30002401 L) : Keeps d L s0 (writeComp a0 a1) := by
  unfold writeComp
  extract_lets z0 z1 z2
  clear_value z0
  have h3 : Keeps d L s0 z1 := by unfold z1; exact placeWrite_keeps _ _ _ k1 (m.sub rfl)
  clear_value z1
  have h4 : Keeps d L s0 z2 := by unfold z2; exact modRing_keeps _ _ h3 (m.sub rfl)
  clear_value z2
  exact iff_keeps _ (fun _ h5 => raiseVec_keeps _ h5 (m.sub rfl)) (countComp_keeps _ h4 (m.sub rfl))

theorem dropCur_keeps (a0 : Nat) {a1 : State} (k1 : Keeps d L s0 a1) (m : May 0x400 L) : Keeps d L s0 (dropCur a0 a1) := by
  unfold dropCur
  exact modRing_keeps _ _ k1 (m.sub rfl)

theorem tryPost_keeps (a0 : Nat) {a1 : State} (k1 : Keeps d L s0 a1) (m : May 0x31fb6481 L) : Keeps d L s0 (tryPost a0 a1) := by
  unfold tryPost
  split
  · exact k1
  · split
    · exact k1
    · extract_lets z0
      clear_value z0
      exact Keeps.ite (sendMgmt_keeps _ _ (countComp_keeps _ (dropCur_keeps _ k1 (m.sub rfl)) (m.sub rfl)) (m.sub rfl)) (Keeps.ite (Keeps.ite (modCmd_keeps _ (dropCur_keeps _ k1 (m.sub rfl)) (m.sub rfl)) k1) (Keeps.ite k1 (writeComp_keeps _ (dropCur_keeps _ k1 (m.sub rfl)) (m.sub rfl))))

theorem flushHeld_keeps {a0 : State} (k0 : Keeps d L s0 a0) (m : May 0x30002401 L) : Keeps d L s0 (flushHeld a0) := by
  unfold flushHeld
  refine Keeps.ite k0 ?_
  refine each_keeps (fun _ _ h0 => ?_) k0
  extract_lets z1
  clear_value z1
  exact Keeps.ite (writeComp_keeps _ (modCmd_keeps _ h0 (m.sub rfl)) (m.sub rfl)) h0

theorem postAll_keeps {a0 : State} (k0 : Keeps d L s0 a0) (m : May 0x31fb6481 L) : Keeps d L s0 (postAll a0) := by
  unfold postAll
  exact each_keeps (fun _ _ h0 => tryPost_keeps _ h0 (m.sub rfl)) (flushHeld_keeps k0 (m.sub rfl))

theorem unlockShards_keeps (a0 : Nat) {a1 : State} (k1 : Keeps d L s0 a1) (m : May 0x6cb1081 L) : Keeps d L s0 (unlockShards a0 a1) := by
  unfold unlockShards
  extract_lets z0
  have h1 : Keeps d L s0 z0 := by unfold z0; exact each_keeps (fun _ _ h2 => modRed_keeps _ _ h2 (m.sub rfl)) k1
  clear_value z0
  refine Keeps.ite k1 ?_
  refine each_keeps (fun _ _ h3 => ?_) h1
  split
  · exact Keeps.ite (replayHeld_keeps _ h3 (m.sub rfl)) h3
  · exact h3

theorem letGo_keeps (a0 : Nat) {a1 : State} (k1 : Keeps d L s0 a1) (m : May 0x6cb3c81 L) : Keeps d L s0 (letGo a0 a1) := by
  unfold letGo
  extract_lets z0 z1 z2
  have h3 : Keeps d L s0 z0 := by unfold z0; exact unlockShards_keeps _ k1 (m.sub rfl)
  clear_value z0
  have h4 : Keeps d L s0 z1 := by unfold z1; exact each_keeps (fun _ _ h5 => Keeps.ite (modChan_keeps _ _ h5 (m.sub rfl)) h5) h3
  clear_value z1
  have h6 : Keeps d L s0 z2 := by unfold z2; exact Keeps.ite (modDbg_keeps _ h4 (m.sub rfl)) h4
  clear_value z2
  exact modCmd_keeps _ h6 (m.sub rfl)

theorem endCmd_keeps (a0 : Nat) (a1 : Nat) (a2 : Nat) {a3 : State} (k3 : Keeps d L s0 a3) (m : May 0x37fb7c81 L) : Keeps d L s0 (endCmd a0 a1 a2 a3) := by
  unfold endCmd
  extract_lets z0
  have h1 : Keeps d L s0 z0 := by unfold z0; exact letGo_keeps _ k3 (m.sub rfl)
  clear_value z0
  exact tryPost_keeps _ (modRing_keeps _ _ h1 (m.sub rfl)) (m.sub rfl)

theorem endDone_keeps (a0 : Nat) (a1 : Nat) {a2 : State} (k2 : Keeps d L s0 a2) (m : May 0x37fb7c81 L) : Keeps d L s0 (endDone a0 a1 a2) := by
  unfold endDone
  split
  · exact endCmd_keeps _ _ _ k2 (m.sub rfl)
  · exact k2

theorem clrFinish_keeps {a0 : State} (k0 : Keeps d L s0 a0) (m : May 0x1fbc083 L) : Keeps d L s0 (clrFinish a0) := by
  unfold clrFinish
  split
  · exact k0
  · exact foldl_keeps (fun _ _ h0 => Keeps.ite (clrStep_keeps h0 (m.sub rfl)) h0) k0

theorem clrStop_keeps (a0 : Nat) (a1 : Bool) {a2 : State} (k2 : Keeps d L s0 a2) (m : May 0x9fbc483 L) : Keeps d L s0 (clrStop a0 a1 a2) := by
  unfold clrStop
  split
  · exact Keeps.ite (stageWaiting_keeps (Keeps.ite (clrFinish_keeps k2 (m.sub rfl)) (clrRevert_keeps k2 (m.sub rfl))) (m.sub rfl)) k2
  · exact k2

theorem fabStop_keeps (a0 : Nat) (a1 : Bool) {a2 : State} (k2 : Keeps d L s0 a2) (m : May 0xf7b5481 L) : Keeps d L s0 (fabStop a0 a1 a2) := by
  unfold fabStop
  extract_lets z0
  have h1 : Keeps d L s0 z0 := by
    unfold z0
    refine each_keeps (fun _ _ h2 => ?_) k2
    split
    · exact Keeps.ite h2 (Keeps.ite (modMgr_keeps _ h2 (m.sub rfl)) (modMgr_keeps _ (releaseAll_keeps _ h2 (m.sub rfl)) (m.sub rfl)))
    · exact h2
  clear_value z0
  split
  · extract_lets z3
    have h4 : Keeps d L s0 z3 := by unfold z3; exact modMgr_keeps _ h1 (m.sub rfl)
    clear_value z3
    exact Keeps.ite h1 (Keeps.ite h4 (revertChange_keeps h4 (m.sub rfl)))
  · exact h1

theorem abortCmd_keeps (a0 : Nat) {a1 : State} (k1 : Keeps d L s0 a1) (m : May 0x3ffbfc83 L) : Keeps d L s0 (abortCmd a0 a1) := by
  unfold abortCmd
  exact endDone_keeps _ _ (fabStop_keeps _ _ (clrStop_keeps _ _ k1 (m.sub rfl)) (m.sub rfl)) (m.sub rfl)

theorem abortTag_keeps (a0 : Nat) (a1 : Word) {a2 : State} (k2 : Keeps d L s0 a2) (m : May 0x3ffbfc83 L) : Keeps d L s0 (abortTag a0 a1 a2) := by
  unfold abortTag
  extract_lets z0
  clear_value z0
  split
  · exact Keeps.ite (modRing_keeps _ _ k2 (m.sub rfl)) (Keeps.ite (abortCmd_keeps _ k2 (m.sub rfl)) (modRing_keeps _ _ k2 (m.sub rfl)))
  · exact Keeps.ite (modRing_keeps _ _ k2 (m.sub rfl)) (cmdCnt_keeps _ _ k2 (m.sub rfl))

theorem stopCmd_keeps (a0 : Nat) (a1 : Nat) {a2 : State} (k2 : Keeps d L s0 a2) (m : May 0xffbfd83 L) : Keeps d L s0 (stopCmd a0 a1 a2) := by
  unfold stopCmd
  split
  · exact k2
  · extract_lets z0
    have h1 : Keeps d L s0 z0 := by unfold z0; exact iff_keeps _ (fun _ h2 => logMb_keeps _ _ h2 (m.sub rfl)) k2
    clear_value z0
    exact dropCur_keeps _ (letGo_keeps _ (fabStop_keeps _ _ (clrStop_keeps _ _ h1 (m.sub rfl)) (m.sub rfl)) (m.sub rfl)) (m.sub rfl)

theorem stopRemote_keeps (a0 : Nat) {a1 : State} (k1 : Keeps d L s0 a1) (m : May 0xffbfd83 L) : Keeps d L s0 (stopRemote a0 a1) := by
  unfold stopRemote
  split
  · exact Keeps.ite (stopCmd_keeps _ _ k1 (m.sub rfl)) k1
  · exact k1

theorem hostReset_keeps (a0 : Nat) {a1 : State} (k1 : Keeps d L s0 a1) (m : May 0xffbfd83 L) : Keeps d L s0 (hostReset a0 a1) := by
  unfold hostReset
  extract_lets z0 z1 z2
  have h3 : Keeps d L s0 z0 := by unfold z0; exact haltAll_keeps _ k1 (m.sub rfl)
  clear_value z0
  have h4 : Keeps d L s0 z1 := by unfold z1; exact each_keeps (fun _ _ h5 => stopCmd_keeps _ _ h5 (m.sub rfl)) h3
  clear_value z1
  have h6 : Keeps d L s0 z2 := by unfold z2; exact stopRemote_keeps _ h4 (m.sub rfl)
  clear_value z2
  exact modCmd_keeps _ h6 (m.sub rfl)

theorem clearBme_keeps {a0 : State} (k0 : Keeps d L s0 a0) (m : May 0xc00 L) : Keeps d L s0 (clearBme a0) := by
  unfold clearBme
  extract_lets z0
  have h1 : Keeps d L s0 z0 := by unfold z0; exact modCmd_keeps _ k0 (m.sub rfl)
  clear_value z0
  exact blockHost_keeps (each_keeps (fun _ _ h2 => Keeps.ite (modRing_keeps _ _ h2 (m.sub rfl)) h2) h1) (m.sub rfl)

theorem setBme_keeps {a0 : State} (k0 : Keeps d L s0 a0) (m : May 0x31fb6c81 L) : Keeps d L s0 (setBme a0) := by
  unfold setBme
  extract_lets z0 z1
  have h2 : Keeps d L s0 z0 := by unfold z0; exact modCmd_keeps _ k0 (m.sub rfl)
  clear_value z0
  have h3 : Keeps d L s0 z1 := by unfold z1; exact each_keeps (fun _ _ h4 => Keeps.ite (modRing_keeps _ _ h4 (m.sub rfl)) h4) h2
  clear_value z1
  exact Keeps.ite k0 (raisePending_keeps (unblockChans_keeps (postAll_keeps h3 (m.sub rfl)) (m.sub rfl)) (m.sub rfl))

theorem execSqTail_keeps (a0 : Fin 8) (a1 : BitVec 12) {a2 : State} (k2 : Keeps d L s0 a2) (m : May 0x400 L) : KeepsO d L s0 (execSqTail a0 a1 a2) := by
  unfold execSqTail
  exact KeepsO.next (Keeps.ite (modRing_keeps _ _ k2 (m.sub rfl)) k2)

theorem execCqHead_keeps (a0 : Fin 8) (a1 : BitVec 12) {a2 : State} (k2 : Keeps d L s0 a2) (m : May 0x31fb6481 L) : KeepsO d L s0 (execCqHead a0 a1 a2) := by
  unfold execCqHead
  exact KeepsO.next (Keeps.ite (postAll_keeps (modRing_keeps _ _ k2 (m.sub rfl)) (m.sub rfl)) k2)

theorem execAbort_keeps (a0 : Fin 8) (a1 : Word) {a2 : State} (k2 : Keeps d L s0 a2) (m : May 0x3ffbfc83 L) : KeepsO d L s0 (execAbort a0 a1 a2) := by
  unfold execAbort
  exact KeepsO.next (Keeps.ite (abortTag_keeps _ _ k2 (m.sub rfl)) k2)

theorem execBusMasterEnableClear_keeps {a0 : State} (k0 : Keeps d L s0 a0) (m : May 0xc00 L) : KeepsO d L s0 (execBusMasterEnableClear a0) := by
  unfold execBusMasterEnableClear
  exact KeepsO.next (Keeps.ite (clearBme_keeps k0 (m.sub rfl)) k0)

theorem execBusMasterEnableSet_keeps {a0 : State} (k0 : Keeps d L s0 a0) (m : May 0x31fb6c81 L) : KeepsO d L s0 (execBusMasterEnableSet a0) := by
  unfold execBusMasterEnableSet
  exact KeepsO.next (Keeps.ite (setBme_keeps k0 (m.sub rfl)) k0)

theorem execFunctionLevelReset_keeps {a0 : State} (k0 : Keeps d L s0 a0) (m : May 0xffbfd83 L) : KeepsO d L s0 (execFunctionLevelReset a0) := by
  unfold execFunctionLevelReset
  exact KeepsO.next (Keeps.ite (hostReset_keeps _ k0 (m.sub rfl)) k0)

/-! ## Faults -/

theorem faultLinks_keeps {a0 : State} (k0 : Keeps d L s0 a0) (m : May 0x230001 L) : Keeps d L s0 (faultLinks a0) := by
  unfold faultLinks
  refine each_keeps (fun _ _ h0 => ?_) k0
  extract_lets z1
  have h2 : Keeps d L s0 z1 := by unfold z1; exact modLink_keeps _ _ (Keeps.set_scheds _ h0 (m.sub rfl)) (m.sub rfl)
  clear_value z1
  refine each_keeps (fun _ _ h3 => ?_) h2
  extract_lets z4
  have h5 : Keeps d L s0 z4 := by unfold z4; exact Keeps.ite h3 (emit_keeps _ h3 (m.sub rfl))
  clear_value z4
  exact modStrand_keeps _ _ h5 (m.sub rfl)

theorem islandsUnder_keeps (a0 : Nat) {a1 : State} (k1 : Keeps d L s0 a1) (m : May 0x20 L) : Keeps d L s0 (islandsUnder a0 a1) := by
  unfold islandsUnder
  exact Keeps.ite k1 (modUnits_keeps _ k1 (m.sub rfl))

theorem latchCause_keeps (a0 : Nat) {a1 : State} (k1 : Keeps d L s0 a1) (m : May 0x80 L) : Keeps d L s0 (latchCause a0 a1) := by
  unfold latchCause
  exact modFlt_keeps _ (fun _ _ => rfl) k1 (m.sub rfl)

theorem enterFault_keeps (a0 : Nat) (a1 : Bool) {a2 : State} (k2 : Keeps d L s0 a2) (m : May 0x2325e1 L) : Keeps d L s0 (enterFault a0 a1 a2) := by
  unfold enterFault
  extract_lets z0 z1 z2
  have h3 : Keeps d L s0 z0 := by unfold z0; exact Keeps.ite (logEvent'_keeps _ _ _ _ _ _ _ k2 (m.sub rfl)) k2
  clear_value z0
  have h4 : Keeps d L s0 z1 := by unfold z1; exact faultLinks_keeps (latchCause_keeps _ h3 (m.sub rfl)) (m.sub rfl)
  clear_value z1
  have h5 : Keeps d L s0 z2 := by unfold z2; exact each_keeps (fun _ _ h6 => domSet_keeps _ _ h6 (m.sub rfl)) h4
  clear_value z2
  exact Keeps.ite k2 (Keeps.ite (Keeps.ite (islandsUnder_keeps _ (latchCause_keeps _ k2 (m.sub rfl)) (m.sub rfl)) k2) (islandsUnder_keeps _ h5 (m.sub rfl)))

theorem loseMb_keeps (a0 : MbId) {a1 : State} (k1 : Keeps d L s0 a1) (m : May 0x20 L) : Keeps d L s0 (loseMb a0 a1) := by
  unfold loseMb
  exact modUnits_keeps _ k1 (m.sub rfl)

theorem takeover_keeps {a0 : State} (k0 : Keeps d L s0 a0) (m : May 0x3ffbfde3 L) : Keeps d L s0 (takeover a0) := by
  unfold takeover
  extract_lets z0 z1 z2 z3 z4 z5 z6
  clear_value z0
  have h7 : Keeps d L s0 z1 := by unfold z1; exact modUnits_keeps _ (loseMb_keeps _ k0 (m.sub rfl)) (m.sub rfl)
  clear_value z1
  have h8 : Keeps d L s0 z2 := by unfold z2; exact Keeps.ite (settleWants_keeps (endEntry_keeps _ h7 (m.sub rfl)) (m.sub rfl)) h7
  clear_value z2
  have h9 : Keeps d L s0 z3 := by unfold z3; exact modFlt_keeps _ (fun _ h => h) h8 (m.sub rfl)
  clear_value z3
  have h10 : Keeps d L s0 z4 := by unfold z4; exact hostReset_keeps _ h9 (m.sub rfl)
  clear_value z4
  have h11 : Keeps d L s0 z5 := by unfold z5; exact modCmd_keeps _ h10 (m.sub rfl)
  clear_value z5
  have h12 : Keeps d L s0 z6 := by unfold z6; exact modEvr_keeps _ h11 (m.sub rfl)
  clear_value z6
  exact Keeps.ite k0 (raiseVec_keeps _ (logMb_keeps _ _ (logEvent_keeps _ _ _ _ h12 (m.sub rfl)) (m.sub rfl)) (m.sub rfl))

theorem injCtlPut_keeps (a0 : Word) {a1 : State} (k1 : Keeps d L s0 a1) (m : May 0x80 L) : Keeps d L s0 (injCtlPut a0 a1) := by
  unfold injCtlPut
  exact modFlt_keeps _ (by intro r h; split <;> exact h) k1 (m.sub rfl)

theorem injKeyPut_keeps (a0 : Byte) {a1 : State} (k1 : Keeps d L s0 a1) (m : May 0x2325e1 L) : Keeps d L s0 (injKeyPut a0 a1) := by
  unfold injKeyPut
  extract_lets z0
  have h1 : Keeps d L s0 z0 := by unfold z0; exact modFlt_keeps _ (fun _ h => h) k1 (m.sub rfl)
  clear_value z0
  refine Keeps.ite k1 ?_
  split
  · rename_i y2 _ y3 e4
    have h5 : Keeps d L s0 y3 := Keeps.snd_eq e4 (injFire_keeps _ _ _ h1 (m.sub rfl))
    exact enterFault_keeps _ _ h5 (m.sub rfl)
  · rename_i y6 y7 e8
    have h9 : Keeps d L s0 y7 := Keeps.snd_eq e8 (injFire_keeps _ _ _ h1 (m.sub rfl))
    exact h9

theorem modLaser_keeps (a0 : Nat) (a1 : Nat) (a2 : Laser → Laser) {a3 : State} (k3 : Keeps d L s0 a3) (m : May 0x40000 L) : Keeps d L s0 (modLaser a0 a1 a2 a3) := by
  unfold modLaser
  exact modOpt_keeps _ _ k3 (m.sub rfl)

theorem loseLaser_keeps (a0 : Nat) (a1 : Nat) {a2 : State} (k2 : Keeps d L s0 a2) (m : May 0xffff5e3 L) : Keeps d L s0 (loseLaser a0 a1 a2) := by
  unfold loseLaser
  extract_lets z0
  have h1 : Keeps d L s0 z0 := by unfold z0; exact logEvent_keeps _ _ _ _ (modLaser_keeps _ _ _ k2 (m.sub rfl)) (m.sub rfl)
  clear_value z0
  exact Keeps.ite k2 (Keeps.ite h1 (loseEngine_keeps _ h1 (m.sub rfl)))

theorem laserReply_keeps (a0 : Nat) (a1 : Nat) (a2 : LaserReply) {a3 : State} (k3 : Keeps d L s0 a3) (m : May 0x42581 L) : Keeps d L s0 (laserReply a0 a1 a2 a3) := by
  unfold laserReply
  extract_lets z0 z1 z2 z3 z4 z5
  have h6 : Keeps d L s0 z0 := by unfold z0; exact modLaser_keeps _ _ _ k3 (m.sub rfl)
  clear_value z0 z1 z2
  have h7 : Keeps d L s0 z3 := by
    unfold z3
    refine Keeps.ite h6 ?_
    split
    · exact Keeps.ite (modLaser_keeps _ _ _ h6 (m.sub rfl)) (Keeps.ite (emit_keeps _ (modLaser_keeps _ _ _ h6 (m.sub rfl)) (m.sub rfl)) h6)
    · exact Keeps.ite (modLaser_keeps _ _ _ h6 (m.sub rfl)) h6
  clear_value z3 z4
  have h8 : Keeps d L s0 z5 := by unfold z5; exact modLaser_keeps _ _ _ h7 (m.sub rfl)
  clear_value z5
  exact Keeps.ite (iff_keeps _ (fun _ h9 => logEvent_keeps _ _ _ _ h9 (m.sub rfl)) h8) h7

theorem laserNack_keeps (a0 : Nat) (a1 : Nat) {a2 : State} (k2 : Keeps d L s0 a2) (m : May 0x40000 L) : Keeps d L s0 (laserNack a0 a1 a2) := by
  unfold laserNack
  exact modLaser_keeps _ _ _ k2 (m.sub rfl)

theorem rdSeqPut_keeps (a0 : Path) (a1 : Word) {a2 : State} (k2 : Keeps d L s0 a2) (m : May 0x100 L) : Keeps d L s0 (rdSeqPut a0 a1 a2) := by
  unfold rdSeqPut
  extract_lets z0 z1 z2
  clear_value z0 z1 z2
  exact modEvr_keeps _ k2 (m.sub rfl)

theorem clearSram_keeps (a0 : Path) {a1 : State} (k1 : Keeps d L s0 a1) (m : May 0x2581 L) : Keeps d L s0 (clearSram a0 a1) := by
  unfold clearSram
  exact logMb_keeps _ _ (modEvr_keeps _ k1 (m.sub rfl)) (m.sub rfl)

theorem clearFlashMark_keeps (a0 : Path) {a1 : State} (k1 : Keeps d L s0 a1) (m : May 0x2581 L) : Keeps d L s0 (clearFlashMark a0 a1) := by
  unfold clearFlashMark
  exact logMb_keeps _ _ (modEvr_keeps _ k1 (m.sub rfl)) (m.sub rfl)

theorem programmed_keeps (a0 : Bool) {a1 : State} (k1 : Keeps d L s0 a1) (m : May 0x181 L) : Keeps d L s0 (programmed a0 a1) := by
  unfold programmed
  split
  · exact k1
  · extract_lets z0 z1 z2 z3 z4
    have h5 : Keeps d L s0 z0 := by unfold z0; exact modEvr_keeps _ k1 (m.sub rfl)
    clear_value z0 z1 z2 z3 z4
    refine Keeps.ite h5 ?_
    split
    · rename_i y6 _ y7 e8
      have h9 : Keeps d L s0 y7 := Keeps.snd_eq e8 (injFire_keeps _ _ _ h5 (m.sub rfl))
      extract_lets z10 z11
      have h12 : Keeps d L s0 z10 := by unfold z10; exact emit_keeps _ h9 (m.sub rfl)
      clear_value z10
      have h13 : Keeps d L s0 z11 := by unfold z11; exact emit_keeps _ h12 (m.sub rfl)
      clear_value z11
      exact Keeps.ite (modEvr_keeps _ h12 (m.sub rfl)) (Keeps.ite (modEvr_keeps _ h13 (m.sub rfl)) (modEvr_keeps _ h12 (m.sub rfl)))

theorem beginErase_keeps {a0 : State} (k0 : Keeps d L s0 a0) (m : May 0x40000101 L) : Keeps d L s0 (beginErase a0) := by
  unfold beginErase
  extract_lets z0 z1
  clear_value z0
  have h2 : Keeps d L s0 z1 := by unfold z1; exact clockTo_keeps _ k0 (m.sub rfl)
  clear_value z1
  refine Keeps.ite k0 ?_
  split
  · exact modEvr_keeps _ k0 (m.sub rfl)
  · exact emit_keeps _ (modEvr_keeps _ h2 (m.sub rfl)) (m.sub rfl)

theorem endErase_keeps (a0 : Bool) {a1 : State} (k1 : Keeps d L s0 a1) (m : May 0x2581 L) : Keeps d L s0 (endErase a0 a1) := by
  unfold endErase
  split
  · exact k1
  · extract_lets z0 z1 z2
    have h3 : Keeps d L s0 z0 := by unfold z0; exact modEvr_keeps _ k1 (m.sub rfl)
    clear_value z0
    have h4 : Keeps d L s0 z1 := by unfold z1; exact modEvr_keeps _ h3 (m.sub rfl)
    clear_value z1
    have h5 : Keeps d L s0 z2 := by unfold z2; exact logMb_keeps _ _ (emit_keeps _ h4 (m.sub rfl)) (m.sub rfl)
    clear_value z2
    exact Keeps.ite (modEvr_keeps _ h3 (m.sub rfl)) (Keeps.ite h5 (modEvr_keeps _ (logMb_keeps _ _ h5 (m.sub rfl)) (m.sub rfl)))

theorem renumber_keeps (a0 : Word) {a1 : State} (k1 : Keeps d L s0 a1) (m : May 0x100 L) : Keeps d L s0 (renumber a0 a1) := by
  unfold renumber
  extract_lets z0
  clear_value z0
  exact modEvr_keeps _ k1 (m.sub rfl)

theorem scanDone_keeps (a0 : ScanResult) {a1 : State} (k1 : Keeps d L s0 a1) (m : May 0x2581 L) : Keeps d L s0 (scanDone a0 a1) := by
  unfold scanDone
  extract_lets z0 z1 z2 z3 z4 z5 z6 z7 z8 z9 z10 z11
  clear_value z0 z1 z2 z3 z4 z5
  have h12 : Keeps d L s0 z6 := by unfold z6; exact renumber_keeps _ k1 (m.sub rfl)
  clear_value z6
  have h13 : Keeps d L s0 z7 := by unfold z7; exact modEvr_keeps _ h12 (m.sub rfl)
  clear_value z7
  have h14 : Keeps d L s0 z8 := by unfold z8; exact each_keeps (fun _ _ h15 => logMb_keeps _ _ (evrCnt_keeps _ _ h15 (m.sub rfl)) (m.sub rfl)) h13
  clear_value z8
  have h16 : Keeps d L s0 z9 := by unfold z9; exact iff_keeps _ (fun _ h17 => logMb_keeps _ _ h17 (m.sub rfl)) h14
  clear_value z9
  have h18 : Keeps d L s0 z10 := by unfold z10; exact iff_keeps _ (fun _ h19 => logMb_keeps _ _ h19 (m.sub rfl)) h16
  clear_value z10 z11
  exact each_keeps (fun _ _ h20 => persist_keeps _ h20 (m.sub rfl)) (modEvr_keeps _ h18 (m.sub rfl))

theorem takeForward_keeps (a0 : Record) {a1 : State} (k1 : Keeps d L s0 a1) (m : May 0x501 L) : Keeps d L s0 (takeForward a0 a1) := by
  unfold takeForward
  exact Keeps.ite (foldNewest_keeps k1 (m.sub rfl)) (enterRec_keeps _ k1 (m.sub rfl))

theorem execFatalCause_keeps (a0 : BitVec 3) {a1 : State} (k1 : Keeps d L s0 a1) (m : May 0x2325e1 L) : KeepsO d L s0 (execFatalCause a0 a1) := by
  unfold execFatalCause
  exact KeepsO.next (enterFault_keeps _ _ k1 (m.sub rfl))

theorem execThermtrip_keeps (a0 : Fin 8) {a1 : State} (k1 : Keeps d L s0 a1) (m : May 0x2325e1 L) : KeepsO d L s0 (execThermtrip a0 a1) := by
  unfold execThermtrip
  exact KeepsO.next (enterFault_keeps _ _ k1 (m.sub rfl))

theorem execSupplyFault_keeps {a0 : State} (k0 : Keeps d L s0 a0) (m : May 0x2325e1 L) : KeepsO d L s0 (execSupplyFault a0) := by
  unfold execSupplyFault
  exact KeepsO.next (enterFault_keeps _ _ k0 (m.sub rfl))

theorem execMbTakeover_keeps {a0 : State} (k0 : Keeps d L s0 a0) (m : May 0x3ffbfde3 L) : KeepsO d L s0 (execMbTakeover a0) := by
  unfold execMbTakeover
  exact KeepsO.next (Keeps.ite (takeover_keeps k0 (m.sub rfl)) k0)

theorem execMirrorHeartbeatSend_keeps {a0 : State} (k0 : Keeps d L s0 a0) (m : May 0x81 L) : KeepsO d L s0 (execMirrorHeartbeatSend a0) := by
  unfold execMirrorHeartbeatSend
  refine KeepsO.next ?_
  refine Keeps.ite k0 ?_
  split
  · rename_i y0 _ y1 e2
    have h3 : Keeps d L s0 y1 := Keeps.snd_eq e2 (injFire_keeps _ _ _ k0 (m.sub rfl))
    exact h3
  · rename_i y4 y5 e6
    have h7 : Keeps d L s0 y5 := Keeps.snd_eq e6 (injFire_keeps _ _ _ k0 (m.sub rfl))
    exact emit_keeps _ h7 (m.sub rfl)

theorem execStandbyLost_keeps {a0 : State} (k0 : Keeps d L s0 a0) (m : May 0x25a1 L) : KeepsO d L s0 (execStandbyLost a0) := by
  unfold execStandbyLost
  extract_lets z0
  clear_value z0
  exact KeepsO.next (Keeps.ite (logEvent_keeps _ _ _ _ (loseMb_keeps _ k0 (m.sub rfl)) (m.sub rfl)) k0)

theorem execDieFenced_keeps (a0 : FabDie) (a1 : FenceCause) {a2 : State} (k2 : Keeps d L s0 a2) (m : May 0xffbf5e3 L) : KeepsO d L s0 (execDieFenced a0 a1 a2) := by
  unfold execDieFenced
  exact KeepsO.next (Keeps.ite (fenceDie_keeps _ k2 (m.sub rfl)) k2)

theorem execLaserLost_keeps (a0 : Engine) (a1 : Fin 2) {a2 : State} (k2 : Keeps d L s0 a2) (m : May 0xffff5e3 L) : KeepsO d L s0 (execLaserLost a0 a1 a2) := by
  unfold execLaserLost
  exact KeepsO.next (Keeps.ite (loseLaser_keeps _ _ k2 (m.sub rfl)) k2)

theorem execEngineLost_keeps (a0 : Engine) {a1 : State} (k1 : Keeps d L s0 a1) (m : May 0xffbf5e3 L) : KeepsO d L s0 (execEngineLost a0 a1) := by
  unfold execEngineLost
  exact KeepsO.next (Keeps.ite (loseEngine_keeps _ k1 (m.sub rfl)) k1)

theorem execArm_keeps (a0 : Word) {a1 : State} (k1 : Keeps d L s0 a1) (m : May 0x80 L) : KeepsO d L s0 (execArm a0 a1) := by
  unfold execArm
  exact KeepsO.next (Keeps.ite (injCtlPut_keeps _ k1 (m.sub rfl)) k1)

theorem execDisarm_keeps {a0 : State} (k0 : Keeps d L s0 a0) (m : May 0x80 L) : KeepsO d L s0 (execDisarm a0) := by
  unfold execDisarm
  exact KeepsO.next (Keeps.ite (modFlt_keeps _ (fun _ h => h) k0 (m.sub rfl)) k0)

theorem execInjKey_keeps (a0 : Byte) {a1 : State} (k1 : Keeps d L s0 a1) (m : May 0x2325e1 L) : KeepsO d L s0 (execInjKey a0 a1) := by
  unfold execInjKey
  exact KeepsO.next (Keeps.ite (injKeyPut_keeps _ k1 (m.sub rfl)) k1)

theorem execEventForward_keeps (a0 : Record) {a1 : State} (k1 : Keeps d L s0 a1) (m : May 0x501 L) : KeepsO d L s0 (execEventForward a0 a1) := by
  unfold execEventForward
  exact KeepsO.next (Keeps.ite (takeForward_keeps _ k1 (m.sub rfl)) k1)

theorem execRdSeq_keeps (a0 : Path) (a1 : Word) {a2 : State} (k2 : Keeps d L s0 a2) (m : May 0x100 L) : KeepsO d L s0 (execRdSeq a0 a1 a2) := by
  unfold execRdSeq
  exact KeepsO.next (Keeps.ite (rdSeqPut_keeps _ _ k2 (m.sub rfl)) k2)

theorem execEvrClear_keeps (a0 : Path) (a1 : Byte) {a2 : State} (k2 : Keeps d L s0 a2) (m : May 0x2581 L) : KeepsO d L s0 (execEvrClear a0 a1 a2) := by
  unfold execEvrClear
  exact KeepsO.next (Keeps.ite (clearSram_keeps _ k2 (m.sub rfl)) k2)

theorem execClearFlash_keeps (a0 : Path) (a1 : Byte) {a2 : State} (k2 : Keeps d L s0 a2) (m : May 0x2581 L) : KeepsO d L s0 (execClearFlash a0 a1 a2) := by
  unfold execClearFlash
  exact KeepsO.next (Keeps.ite (clearFlashMark_keeps _ k2 (m.sub rfl)) k2)

theorem execRecordProgramDone_keeps (a0 : Bool) {a1 : State} (k1 : Keeps d L s0 a1) (m : May 0x181 L) : KeepsO d L s0 (execRecordProgramDone a0 a1) := by
  unfold execRecordProgramDone
  exact KeepsO.next (Keeps.ite (programmed_keeps _ k1 (m.sub rfl)) k1)

theorem execSectorErase_keeps {a0 : State} (k0 : Keeps d L s0 a0) (m : May 0x40000101 L) : KeepsO d L s0 (execSectorErase a0) := by
  unfold execSectorErase
  exact KeepsO.next (Keeps.ite (beginErase_keeps k0 (m.sub rfl)) k0)

theorem execSectorEraseDone_keeps (a0 : Bool) {a1 : State} (k1 : Keeps d L s0 a1) (m : May 0x2581 L) : KeepsO d L s0 (execSectorEraseDone a0 a1) := by
  unfold execSectorEraseDone
  exact KeepsO.next (Keeps.ite (endErase_keeps _ k1 (m.sub rfl)) k1)

theorem execEventRegionScanDone_keeps (a0 : ScanResult) {a1 : State} (k1 : Keeps d L s0 a1) (m : May 0x2581 L) : KeepsO d L s0 (execEventRegionScanDone a0 a1) := by
  unfold execEventRegionScanDone
  exact KeepsO.next (Keeps.ite (scanDone_keeps _ k1 (m.sub rfl)) k1)

theorem execOpTime_keeps {a0 : State} (k0 : Keeps d L s0 a0) (m : May 0x2581 L) : KeepsO d L s0 (execOpTime a0) := by
  unfold execOpTime
  exact KeepsO.next (Keeps.ite (logMb_keeps _ _ k0 (m.sub rfl)) k0)

theorem execLaserModulePoll_keeps (a0 : Engine) (a1 : Fin 2) (a2 : Option LaserReply) {a3 : State} (k3 : Keeps d L s0 a3) (m : May 0x42581 L) :
    KeepsO d L s0 (execLaserModulePoll a0 a1 a2 a3) := by
  unfold execLaserModulePoll
  refine KeepsO.next ?_
  refine Keeps.ite k3 ?_
  split
  · exact laserReply_keeps _ _ _ k3 (m.sub rfl)
  · exact laserNack_keeps _ _ k3 (m.sub rfl)

/-! ## Debug -/

theorem ctrRead_keeps (p : Path) (o : Nat) {s : State} (h : Keeps d L s0 s) (m : May 0x2000 L) : ∀ r, ctrRead p o s = some r → Keeps d L s0 r.2 := by
  intro r e
  unfold ctrRead at e
  split at e
  · cases e
    exact iff_keeps _ (fun y hy => modDbg_keeps _ hy (m.sub rfl)) (modDbg_keeps _ h (m.sub rfl))
  · rw [Option.ite_none_right_eq_some] at e
    rw [← Option.some.inj e.2]; exact h

theorem ctrClear_keeps {a0 : State} (k0 : Keeps d L s0 a0) (m : May 0x2000 L) : Keeps d L s0 (ctrClear a0) := by
  unfold ctrClear
  exact modDbg_keeps _ k0 (m.sub rfl)

theorem ctrFreeze_keeps (a0 : Bool) {a1 : State} (k1 : Keeps d L s0 a1) (m : May 0x2000 L) : Keeps d L s0 (ctrFreeze a0 a1) := by
  unfold ctrFreeze
  exact modDbg_keeps _ k1 (m.sub rfl)

theorem resLo_keeps (a0 : Nat) {a1 : State} (k1 : Keeps d L s0 a1) (m : May 0x40 L) : Keeps d L s0 (resLo a0 a1).2 := by
  unfold resLo
  dsimp only
  exact modPwr_keeps _ k1 (m.sub rfl)

theorem traceLost_keeps (a0 : Nat) {a1 : State} (k1 : Keeps d L s0 a1) (m : May 0x2000 L) : Keeps d L s0 (traceLost a0 a1) := by
  unfold traceLost
  exact modTrace_keeps _ _ k1 (m.sub rfl)

theorem trace_keeps (a0 : Nat) (a1 : Byte) (a2 : BitVec 24) (a3 : List Byte) (a4 : Bool) {a5 : State} (k5 : Keeps d L s0 a5) (m : May 0x2000 L) :
    Keeps d L s0 (trace a0 a1 a2 a3 a4 a5) := by
  unfold trace
  extract_lets z0 z1
  clear_value z0 z1
  exact Keeps.ite k5 (Keeps.ite k5 (Keeps.ite (traceLost_keeps _ k5 (m.sub rfl)) (Keeps.ite (modTrace_keeps _ _ k5 (m.sub rfl)) (Keeps.ite (modTrace_keeps _ _ k5 (m.sub rfl)) (traceLost_keeps _ k5 (m.sub rfl))))))

theorem drainGo_keeps (a0 : Nat) {a1 : State} (k1 : Keeps d L s0 a1) (m : May 0x3880 L) : Keeps d L s0 (drainGo a0 a1) := by
  unfold drainGo
  extract_lets z0
  clear_value z0
  exact Keeps.ite (modTrace_keeps _ _ k1 (m.sub rfl)) (chanRun_keeps _ _ _ (modTrace_keeps _ _ k1 (m.sub rfl)) (m.sub rfl))

theorem wtFreeze_keeps {a0 : State} (k0 : Keeps d L s0 a0) (m : May 0x2400 L) : Keeps d L s0 (wtFreeze a0) := by
  unfold wtFreeze
  split
  · extract_lets z0 z1
    clear_value z0
    have h2 : Keeps d L s0 z1 := by unfold z1; exact modDbg_keeps _ k0 (m.sub rfl)
    clear_value z1
    exact Keeps.ite k0 (modRing_keeps _ _ h2 (m.sub rfl))
  · exact k0

theorem auditBit_keeps (a0 : Nat) {a1 : State} (k1 : Keeps d L s0 a1) (m : May 0x2000 L) : Keeps d L s0 (auditBit a0 a1) := by
  unfold auditBit
  exact modDbg_keeps _ k1 (m.sub rfl)

theorem auditShot_keeps {a0 : State} (k0 : Keeps d L s0 a0) (m : May 0x2000 L) : Keeps d L s0 (auditShot a0) := by
  unfold auditShot
  extract_lets z0 z1 z2
  clear_value z0 z1 z2
  exact modDbg_keeps _ k0 (m.sub rfl)

theorem auditAll_keeps {a0 : State} (k0 : Keeps d L s0 a0) (m : May 0xffbf5e3 L) : Keeps d L s0 (auditAll a0) := by
  unfold auditAll
  extract_lets z0 z1 z2 z3 z4
  have h5 : Keeps d L s0 z0 := by unfold z0; exact auditShot_keeps k0 (m.sub rfl)
  clear_value z0
  have h6 : Keeps d L s0 z1 := by
    unfold z1
    refine each_keeps (fun _ _ h7 => ?_) h5
    extract_lets z8 z9
    have h10 : Keeps d L s0 z8 := by unfold z8; exact iff_keeps _ (fun _ h11 => auditBit_keeps _ h11 (m.sub rfl)) h7
    clear_value z8
    have h12 : Keeps d L s0 z9 := by unfold z9; exact iff_keeps _ (fun _ h13 => auditBit_keeps _ h13 (m.sub rfl)) h10
    clear_value z9
    exact auditSnap_keeps _ h12 (m.sub rfl)
  clear_value z1
  have h14 : Keeps d L s0 z2 := by unfold z2; exact Keeps.ite h6 (logEvent_keeps _ _ _ _ (auditBit_keeps _ h6 (m.sub rfl)) (m.sub rfl))
  clear_value z2
  have h15 : Keeps d L s0 z3 := by unfold z3; exact iff_keeps _ (fun _ h16 => auditBit_keeps _ h16 (m.sub rfl)) h14
  clear_value z3
  have h17 : Keeps d L s0 z4 := by unfold z4; exact bpmSnap_keeps h15 (m.sub rfl)
  clear_value z4
  exact Keeps.ite h17 (logEvent_keeps _ _ _ _ (auditBit_keeps _ h17 (m.sub rfl)) (m.sub rfl))

theorem execCntClear_keeps (a0 : Byte) {a1 : State} (k1 : Keeps d L s0 a1) (m : May 0x2000 L) : KeepsO d L s0 (execCntClear a0 a1) := by
  unfold execCntClear
  exact KeepsO.next (Keeps.ite (ctrClear_keeps k1 (m.sub rfl)) k1)

theorem execFreeze_keeps (a0 : Bool) {a1 : State} (k1 : Keeps d L s0 a1) (m : May 0x2000 L) : KeepsO d L s0 (execFreeze a0 a1) := by
  unfold execFreeze
  exact KeepsO.next (Keeps.ite (ctrFreeze_keeps _ k1 (m.sub rfl)) k1)

theorem execByteCounterRead_keeps (a0 : Path) (a1 : Off) {a2 : State} (k2 : Keeps d L s0 a2) (m : May 0x2001 L) : KeepsO d L s0 (execByteCounterRead a0 a1 a2) := by
  unfold execByteCounterRead
  refine KeepsO.next ?_
  refine Keeps.ite k2 ?_
  split
  · rename_i y0 _ y1 e2
    have h3 : Keeps d L s0 y1 := Keeps.some_snd_eq e2 (ctrRead_keeps _ _ k2 (m.sub rfl))
    exact emit_keeps _ h3 (m.sub rfl)
  · exact k2

theorem execResLoRead_keeps (a0 : Path) (a1 : Fin 4) {a2 : State} (k2 : Keeps d L s0 a2) (m : May 0x41 L) : KeepsO d L s0 (execResLoRead a0 a1 a2) := by
  unfold execResLoRead
  refine KeepsO.next ?_
  refine Keeps.ite ?_ k2
  split
  · rename_i y0 _ y1 e2
    have h3 : Keeps d L s0 y1 := Keeps.snd_eq e2 (resLo_keeps _ k2 (m.sub rfl))
    exact emit_keeps _ h3 (m.sub rfl)

theorem execTraceEvent_keeps (a0 : Fin 10) (a1 : Byte) (a2 : BitVec 24) (a3 : List Byte) (a4 : Bool) {a5 : State} (k5 : Keeps d L s0 a5) (m : May 0x2000 L) :
    KeepsO d L s0 (execTraceEvent a0 a1 a2 a3 a4 a5) := by
  unfold execTraceEvent
  exact KeepsO.next (Keeps.ite (trace_keeps _ _ _ _ _ k5 (m.sub rfl)) k5)

theorem execDrainGo_keeps (a0 : Fin 10) {a1 : State} (k1 : Keeps d L s0 a1) (m : May 0x3880 L) : KeepsO d L s0 (execDrainGo a0 a1) := by
  unfold execDrainGo
  exact KeepsO.next (Keeps.ite (drainGo_keeps _ k1 (m.sub rfl)) k1)

theorem execDbgAuditSnap_keeps {a0 : State} (k0 : Keeps d L s0 a0) (m : May 0xffbf5e3 L) : KeepsO d L s0 (execDbgAuditSnap a0) := by
  unfold execDbgAuditSnap
  exact KeepsO.next (Keeps.ite (auditAll_keeps k0 (m.sub rfl)) k0)

theorem execWindthrowFreeze_keeps {a0 : State} (k0 : Keeps d L s0 a0) (m : May 0x40002400 L) : KeepsO d L s0 (execWindthrowFreeze a0) := by
  unfold execWindthrowFreeze
  refine KeepsO.next ?_
  refine Keeps.ite k0 ?_
  split
  · exact wtFreeze_keeps (iff_keeps _ (fun _ h0 => fabTo_keeps _ h0 (m.sub rfl)) k0) (m.sub rfl)
  · exact k0

end Sys2Proof.Machine
end

