-- ==== Sys2Proof/Laws/KeepsAccess.lean ====
section
/-! SUPPORT. What every operation keeps (the relation Keeps), one lemma per operation: the register map, the ring commands and the access paths. -/

namespace Sys2Proof.Machine

variable {d : Bool} {L : Nat} {s0 : State}

/-! ## RegMap -/

theorem modCap_keeps (a0 : Nat) (a1 : FltCap → FltCap) {a2 : State} (k2 : Keeps d L s0 a2) (m : May 0x80 L) : Keeps d L s0 (modCap a0 a1 a2) := by
  unfold modCap
  exact modFlt_keeps _ (by intro r h; split <;> exact h) k2 (m.sub rfl)

theorem readEffect_keeps (a0 : Path) (a1 : Nat) (a2 : Word) {a3 : State} (k3 : Keeps d L s0 a3) (m : May 0x120dffc2 L) : Keeps d L s0 (readEffect a0 a1 a2 a3) := by
  unfold readEffect
  extract_lets z0 z1 z2 z3 z4 z5 z6 z7 z8
  clear_value z0 z1 z2 z3 z4 z5 z6 z7 z8
  refine Keeps.ite k3 ?_
  refine Keeps.ite ?_ ?_
  · refine Keeps.ite (resLo_keeps _ k3 (m.sub rfl)) ?_
    refine Keeps.ite (draw_keeps k3 (m.sub rfl)) ?_
    split
    · exact modPwr_keeps _ k3 (m.sub rfl)
    · exact modPwr_keeps _ k3 (m.sub rfl)
    · exact k3
  · refine Keeps.ite ?_ ?_
    · refine Keeps.ite (modCap_keeps _ _ k3 (m.sub rfl)) ?_
      split
      · exact modFlt_keeps _ (fun _ h => h) k3 (m.sub rfl)
      · exact modFlt_keeps _ (fun _ h => h) k3 (m.sub rfl)
      · exact k3
    · refine Keeps.ite (iff_keeps _ (fun _ h9 => modEvr_keeps _ h9 (m.sub rfl)) k3) ?_
      refine Keeps.ite (Keeps.ite (nowLoRead_keeps k3 (m.sub rfl)) (iff_keeps _ (fun _ h10 => modTim_keeps _ h10 (m.sub rfl)) k3)) ?_
      refine Keeps.ite (iff_keeps _ (fun _ h11 => modCmd_keeps _ h11 (m.sub rfl)) k3) ?_
      refine Keeps.ite (iff_keeps _ (fun _ h12 => modDma_keeps _ h12 (m.sub rfl)) k3) ?_
      refine Keeps.ite (iff_keeps _ (fun _ h13 => modBpm_keeps _ h13 (m.sub rfl)) k3) ?_
      refine Keeps.ite ?_ ?_
      · refine Keeps.ite (iff_keeps _ (fun _ h14 => modTrace_keeps _ _ h14 (m.sub rfl)) k3) ?_
        refine Keeps.ite ?_ k3
        split
        · rename_i y15 _ y16 e17
          have h18 : Keeps d L s0 y16 := Keeps.some_snd_eq e17 (ctrRead_keeps _ _ k3 (m.sub rfl))
          exact h18
        · exact k3
      · refine Keeps.ite (iff_keeps _ (fun _ h21 => modRoute_keeps _ h21 (m.sub rfl)) k3) ?_
        refine Keeps.ite ?_ (Keeps.ite (Keeps.ite (modStrand_keeps _ _ k3 (m.sub rfl)) (iff_keeps _ (fun _ h23 => modPort_keeps _ _ h23 (m.sub rfl)) k3)) (Keeps.ite (iff_keeps _ (fun _ h24 => modLaser_keeps _ _ _ h24 (m.sub rfl)) k3) (Keeps.ite (iff_keeps _ (fun _ h25 => modRed_keeps _ _ h25 (m.sub rfl)) k3) (Keeps.ite (iff_keeps _ (fun _ h26 => modStack_keeps _ _ h26 (m.sub rfl)) k3) k3))))
        refine Keeps.ite ?_ (iff_keeps _ (fun _ h22 => modSwc_keeps _ _ h22 (m.sub rfl)) k3)
        split
        · exact modHist_keeps _ _ _ k3 (m.sub rfl)
        · exact modHist_keeps _ _ _ k3 (m.sub rfl)
        · exact k3

theorem beforeRead_keeps (a0 : Nat) {a1 : State} (k1 : Keeps d L s0 a1) (m : May 0x80002 L) : Keeps d L s0 (beforeRead a0 a1) := by
  unfold beforeRead
  exact Keeps.ite (voqStall_keeps _ k1 (m.sub rfl)) k1

theorem regReadUpd_keeps (a0 : Path) (a1 : Nat) (a2 : Word) {a3 : State} (k3 : Keeps d L s0 a3) (m : May 0x120dffc3 L) : Keeps d L s0 (regReadUpd a0 a1 a2 a3).2.2 := by
  unfold regReadUpd
  split
  · dsimp only
    exact cmdCnt_keeps _ _ k3 (m.sub rfl)
  · dsimp only
    exact offAccess_keeps _ _ _ k3 (m.sub rfl)
  · extract_lets z0
    have h1 : Keeps d L s0 z0 := by unfold z0; exact beforeRead_keeps _ k3 (m.sub rfl)
    clear_value z0
    dsimp only
    exact readEffect_keeps _ _ _ h1 (m.sub rfl)

theorem regRead_keeps (a0 : Path) (a1 : Nat) {a2 : State} (k2 : Keeps d L s0 a2) (m : May 0x120dffc3 L) : Keeps d L s0 (regRead a0 a1 a2).2.2 := by
  unfold regRead
  split
  · exact regReadUpd_keeps _ _ _ k2 (m.sub rfl)
  · dsimp only
    exact cmdCnt_keeps _ _ k2 (m.sub rfl)

theorem pwrPut_keeps (a0 : Nat) (a1 : Word) {a2 : State} (k2 : Keeps d L s0 a2) (m : May 0x3603b5c5 L) : Keeps d L s0 (pwrPut a0 a1 a2) := by
  unfold pwrPut
  refine Keeps.ite (wantOffPut_keeps _ _ k2 (m.sub rfl)) ?_
  split
  · exact devRequest_keeps _ (modPwr_keeps _ k2 (m.sub rfl)) (m.sub rfl)
  · exact pointPut_keeps _ k2 (m.sub rfl)
  · exact modPwr_keeps _ k2 (m.sub rfl)
  · exact k2

theorem fltPut_keeps (a0 : Nat) (a1 : Word) {a2 : State} (k2 : Keeps d L s0 a2) (m : May 0x2325e1 L) : Keeps d L s0 (fltPut a0 a1 a2) := by
  unfold fltPut
  refine Keeps.ite (iff_keeps _ (fun _ h0 => modCap_keeps _ _ h0 (m.sub rfl)) k2) ?_
  split
  · exact modFlt_keeps _ (fun _ h => h) k2 (m.sub rfl)
  · exact modFlt_keeps _ (fun _ h => h) k2 (m.sub rfl)
  · exact modFlt_keeps _ (fun _ h => h) k2 (m.sub rfl)
  · exact injCtlPut_keeps _ k2 (m.sub rfl)
  · exact modFlt_keeps _ (fun _ h => h) k2 (m.sub rfl)
  · exact injKeyPut_keeps _ k2 (m.sub rfl)
  · exact k2

theorem evrPut_keeps (a0 : Path) (a1 : Nat) (a2 : Word) {a3 : State} (k3 : Keeps d L s0 a3) (m : May 0x2581 L) : Keeps d L s0 (evrPut a0 a1 a2 a3) := by
  unfold evrPut
  split
  · extract_lets z0 z1 z2
    have h3 : Keeps d L s0 z0 := by unfold z0; exact modEvr_keeps _ k3 (m.sub rfl)
    clear_value z0 z1
    have h4 : Keeps d L s0 z2 := by unfold z2; exact iff_keeps _ (fun _ h5 => clearSram_keeps _ h5 (m.sub rfl)) h3
    clear_value z2
    exact iff_keeps _ (fun _ h6 => clearFlashMark_keeps _ h6 (m.sub rfl)) h4
  · exact rdSeqPut_keeps _ _ k3 (m.sub rfl)
  · exact modEvr_keeps _ k3 (m.sub rfl)
  · exact k3

theorem timPut_keeps (a0 : Nat) (a1 : Word) {a2 : State} (k2 : Keeps d L s0 a2) (m : May 0x200 L) : Keeps d L s0 (timPut a0 a1 a2) := by
  unfold timPut
  split
  · exact modTim_keeps _ k2 (m.sub rfl)
  · exact modTim_keeps _ k2 (m.sub rfl)
  · exact iff_keeps _ (fun _ h0 => timeSetApply_keeps h0 (m.sub rfl)) (modTim_keeps _ k2 (m.sub rfl))
  · exact iff_keeps _ (fun _ h1 => modTim_keeps _ h1 (m.sub rfl)) k2
  · exact iff_keeps _ (fun _ h2 => modTim_keeps _ h2 (m.sub rfl)) k2
  · exact modTim_keeps _ k2 (m.sub rfl)
  · exact iff_keeps _ (fun _ h3 => rearm_keeps h3 (m.sub rfl)) (modTim_keeps _ k2 (m.sub rfl))
  · exact k2

theorem ringEn_keeps (a0 : Nat) (a1 : Bool) {a2 : State} (k2 : Keeps d L s0 a2) (m : May 0x400 L) : Keeps d L s0 (ringEn a0 a1 a2) := by
  unfold ringEn
  exact modRing_keeps _ _ k2 (m.sub rfl)

theorem cmdPut_keeps (a0 : Nat) (a1 : Word) {a2 : State} (k2 : Keeps d L s0 a2) (m : May 0x400 L) : Keeps d L s0 (cmdPut a0 a1 a2) := by
  unfold cmdPut
  extract_lets z0 z1
  clear_value z0 z1
  refine Keeps.ite ?_ ?_
  · split
    · exact iff_keeps _ (fun _ h2 => modRing_keeps _ _ h2 (m.sub rfl)) k2
    · exact iff_keeps _ (fun _ h3 => modRing_keeps _ _ h3 (m.sub rfl)) k2
    · exact iff_keeps _ (fun _ h4 => modRing_keeps _ _ h4 (m.sub rfl)) k2
    · exact iff_keeps _ (fun _ h5 => modRing_keeps _ _ h5 (m.sub rfl)) k2
    · exact ringEn_keeps _ _ k2 (m.sub rfl)
    · exact k2
  · split
    · exact modCmd_keeps _ k2 (m.sub rfl)
    · exact modCmd_keeps _ k2 (m.sub rfl)
    · exact k2

theorem dmaPut_keeps (a0 : Nat) (a1 : Word) {a2 : State} (k2 : Keeps d L s0 a2) (m : May 0x3c81 L) : Keeps d L s0 (dmaPut a0 a1 a2) := by
  unfold dmaPut
  extract_lets z0 z1 z2
  clear_value z0
  have h3 : Keeps d L s0 z1 := by unfold z1; exact modChan_keeps _ _ k2 (m.sub rfl)
  clear_value z1
  have h4 : Keeps d L s0 z2 := by unfold z2; exact iff_keeps _ (fun _ h5 => chanStop_keeps _ h5 (m.sub rfl)) h3
  clear_value z2
  refine Keeps.ite ?_ (Keeps.ite (modDma_keeps _ k2 (m.sub rfl)) k2)
  refine Keeps.ite k2 ?_
  split
  · exact modChan_keeps _ _ k2 (m.sub rfl)
  · exact modChan_keeps _ _ k2 (m.sub rfl)
  · exact iff_keeps _ (fun _ h6 => chanGo_keeps _ h6 (m.sub rfl)) h4
  · exact modChan_keeps _ _ k2 (m.sub rfl)
  · exact k2

theorem bpmPut_keeps (a0 : Nat) (a1 : Word) {a2 : State} (k2 : Keeps d L s0 a2) (m : May 0x3581 L) : Keeps d L s0 (bpmPut a0 a1 a2) := by
  unfold bpmPut
  extract_lets z0
  clear_value z0
  exact Keeps.ite (iff_keeps _ (fun _ h1 => serveWaiters_keeps _ (modBpm_keeps _ h1 (m.sub rfl)) (m.sub rfl)) k2) (Keeps.ite (iff_keeps _ (fun _ h2 => bpmSnap_keeps h2 (m.sub rfl)) (modBpm_keeps _ k2 (m.sub rfl))) k2)

theorem tracePut_keeps (a0 : Nat) (a1 : Nat) (a2 : Word) {a3 : State} (k3 : Keeps d L s0 a3) (m : May 0x3880 L) : Keeps d L s0 (tracePut a0 a1 a2 a3) := by
  unfold tracePut
  split
  · exact modTrace_keeps _ _ k3 (m.sub rfl)
  · exact modTrace_keeps _ _ k3 (m.sub rfl)
  · extract_lets z0
    have h1 : Keeps d L s0 z0 := by unfold z0; exact modTrace_keeps _ _ k3 (m.sub rfl)
    clear_value z0
    exact iff_keeps _ (fun _ h2 => drainGo_keeps _ h2 (m.sub rfl)) h1
  · exact modTrace_keeps _ _ k3 (m.sub rfl)
  · exact modTrace_keeps _ _ k3 (m.sub rfl)
  · exact modTrace_keeps _ _ k3 (m.sub rfl)
  · exact k3

theorem dbgPut_keeps (a0 : Nat) (a1 : Word) {a2 : State} (k2 : Keeps d L s0 a2) (m : May 0xffbfde3 L) : Keeps d L s0 (dbgPut a0 a1 a2) := by
  unfold dbgPut
  extract_lets z0
  clear_value z0
  refine Keeps.ite (iff_keeps _ (fun _ h1 => tracePut_keeps _ _ _ h1 (m.sub rfl)) k2) ?_
  split
  · exact iff_keeps _ (fun _ h2 => auditAll_keeps h2 (m.sub rfl)) (modDbg_keeps _ k2 (m.sub rfl))
  · exact modDbg_keeps _ k2 (m.sub rfl)
  · exact modDbg_keeps _ k2 (m.sub rfl)
  · exact ctrFreeze_keeps _ (iff_keeps _ (fun _ h3 => ctrClear_keeps h3 (m.sub rfl)) k2) (m.sub rfl)
  · exact modDbg_keeps _ k2 (m.sub rfl)
  · exact k2

theorem routePut_keeps (a0 : Nat) (a1 : Word) {a2 : State} (k2 : Keeps d L s0 a2) (m : May 0x865c1 L) : Keeps d L s0 (routePut a0 a1 a2) := by
  unfold routePut
  extract_lets z0
  clear_value z0
  refine Keeps.ite (rtWinData_keeps _ _ k2 (m.sub rfl)) ?_
  refine Keeps.ite ?_ ?_
  · split
    · exact modRoute_keeps _ k2 (m.sub rfl)
    · exact modRoute_keeps _ k2 (m.sub rfl)
    · exact modRoute_keeps _ k2 (m.sub rfl)
    · exact modRoute_keeps _ k2 (m.sub rfl)
    · exact k2
  · split
    · exact rtWinCtl_keeps _ k2 (m.sub rfl)
    · exact modRoute_keeps _ k2 (m.sub rfl)
    · exact clearCtlPut_keeps _ k2 (m.sub rfl)
    · exact k2

theorem histPut_keeps (a0 : Nat) (a1 : Nat) (a2 : Word) {a3 : State} (k3 : Keeps d L s0 a3) (m : May 0x80000 L) : Keeps d L s0 (histPut a0 a1 a2 a3) := by
  unfold histPut
  exact modHist_keeps _ _ _ k3 (m.sub rfl)

theorem swcPut_keeps (a0 : Nat) (a1 : Nat) (a2 : Word) {a3 : State} (k3 : Keeps d L s0 a3) (m : May 0xffbf5e3 L) : Keeps d L s0 (swcPut a0 a1 a2 a3) := by
  unfold swcPut
  refine Keeps.ite (modSwc_keeps _ _ k3 (m.sub rfl)) ?_
  refine Keeps.ite (modSwc_keeps _ _ k3 (m.sub rfl)) ?_
  refine Keeps.ite (modQueue_keeps _ _ k3 (m.sub rfl)) ?_
  refine Keeps.ite (iff_keeps _ (fun _ h0 => shaperPut_keeps _ _ h0 (m.sub rfl)) k3) ?_
  refine Keeps.ite (modQueue_keeps _ _ k3 (m.sub rfl)) ?_
  refine Keeps.ite (policerPut_keeps _ _ _ _ k3 (m.sub rfl)) ?_
  refine Keeps.ite (modSwc_keeps _ _ k3 (m.sub rfl)) ?_
  refine Keeps.ite (iff_keeps _ (fun _ h1 => histPut_keeps _ _ _ h1 (m.sub rfl)) k3) ?_
  split
  · exact modSwc_keeps _ _ k3 (m.sub rfl)
  · exact modSwc_keeps _ _ k3 (m.sub rfl)
  · exact iff_keeps _ (fun _ h2 => auditSnap_keeps _ h2 (m.sub rfl)) (modSwc_keeps _ _ k3 (m.sub rfl))
  · exact k3

theorem portPut_keeps (a0 : Nat) (a1 : Nat) (a2 : Word) {a3 : State} (k3 : Keeps d L s0 a3) (m : May 0x603a581 L) : Keeps d L s0 (portPut a0 a1 a2 a3) := by
  unfold portPut
  refine Keeps.ite (iff_keeps _ (fun _ h0 => modStrand_keeps _ _ h0 (m.sub rfl)) k3) ?_
  refine Keeps.ite (modPort_keeps _ _ k3 (m.sub rfl)) ?_
  split
  · exact lpRequest_keeps _ _ (modPort_keeps _ _ k3 (m.sub rfl)) (m.sub rfl)
  · exact lapseAll_keeps _ _ (modPort_keeps _ _ k3 (m.sub rfl)) (m.sub rfl)
  · exact lapseAll_keeps _ _ (modPort_keeps _ _ k3 (m.sub rfl)) (m.sub rfl)
  · exact k3

theorem eqPut_keeps (a0 : Nat) (a1 : Nat) (a2 : Word) {a3 : State} (k3 : Keeps d L s0 a3) (m : May 0x40000 L) : Keeps d L s0 (eqPut a0 a1 a2 a3) := by
  unfold eqPut
  exact modOpt_keeps _ _ k3 (m.sub rfl)

theorem optPut_keeps (a0 : Nat) (a1 : Nat) (a2 : Word) {a3 : State} (k3 : Keeps d L s0 a3) (m : May 0x40000 L) : Keeps d L s0 (optPut a0 a1 a2 a3) := by
  unfold optPut
  exact Keeps.ite (eqPut_keeps _ _ _ k3 (m.sub rfl)) (Keeps.ite (modLaser_keeps _ _ _ k3 (m.sub rfl)) (Keeps.ite (modOpt_keeps _ _ k3 (m.sub rfl)) k3))

theorem lapsedClear_keeps (a0 : Nat) {a1 : State} (k1 : Keeps d L s0 a1) (m : May 0x6002581 L) : Keeps d L s0 (lapsedClear a0 a1) := by
  unfold lapsedClear
  extract_lets z0
  have h1 : Keeps d L s0 z0 := by unfold z0; exact modCtx_keeps _ _ k1 (m.sub rfl)
  clear_value z0
  exact iff_keeps _ (fun _ h2 => setLapsed_keeps _ _ h2 (m.sub rfl)) h1

theorem redPut_keeps (a0 : Nat) (a1 : Nat) (a2 : Word) {a3 : State} (k3 : Keeps d L s0 a3) (m : May 0x16cb35e3 L) : Keeps d L s0 (redPut a0 a1 a2 a3) := by
  unfold redPut
  extract_lets z0 z1
  clear_value z0 z1
  split
  · exact modRed_keeps _ _ k3 (m.sub rfl)
  · exact iff_keeps _ (fun _ h2 => modCtx_keeps _ _ h2 (m.sub rfl)) k3
  · exact modRed_keeps _ _ k3 (m.sub rfl)
  · exact iff_keeps _ (fun _ h3 => pstepGo_keeps _ h3 (m.sub rfl)) (pstepPut_keeps _ _ k3 (m.sub rfl))
  · exact iff_keeps _ (fun _ h4 => lapsedClear_keeps _ h4 (m.sub rfl)) k3
  · exact k3

theorem memPut_keeps (a0 : Nat) (a1 : Nat) (a2 : Word) {a3 : State} (k3 : Keeps d L s0 a3) (m : May 0x10000000 L) : Keeps d L s0 (memPut a0 a1 a2 a3) := by
  unfold memPut
  exact Keeps.ite (modStack_keeps _ _ k3 (m.sub rfl)) k3

theorem poke_keeps (a0 : Path) (a1 : Nat) (a2 : Word) {a3 : State} (k3 : Keeps d L s0 a3) (m : May 0x3fffffff L) : Keeps d L s0 (poke a0 a1 a2 a3) := by
  unfold poke
  extract_lets z0 z1
  clear_value z0
  refine Keeps.ite (Keeps.ite (coordOvrPut_keeps _ k3 (m.sub rfl)) k3) ?_
  refine Keeps.ite ?_ (Keeps.ite (pwrPut_keeps _ _ k3 (m.sub rfl)) (Keeps.ite (fltPut_keeps _ _ k3 (m.sub rfl)) (Keeps.ite (evrPut_keeps _ _ _ k3 (m.sub rfl)) (Keeps.ite (timPut_keeps _ _ k3 (m.sub rfl)) (Keeps.ite (cmdPut_keeps _ _ k3 (m.sub rfl)) (Keeps.ite (dmaPut_keeps _ _ k3 (m.sub rfl)) (Keeps.ite (bpmPut_keeps _ _ k3 (m.sub rfl)) (Keeps.ite (dbgPut_keeps _ _ k3 (m.sub rfl)) (Keeps.ite (routePut_keeps _ _ k3 (m.sub rfl)) (Keeps.ite (swcPut_keeps _ _ _ k3 (m.sub rfl)) (Keeps.ite (portPut_keeps _ _ _ k3 (m.sub rfl)) (Keeps.ite (optPut_keeps _ _ _ k3 (m.sub rfl)) (Keeps.ite (redPut_keeps _ _ _ k3 (m.sub rfl)) (Keeps.ite (memPut_keeps _ _ _ k3 (m.sub rfl)) (Keeps.ite (Keeps.ite (sram_keeps (s := a3) k3 (fun h => tblOk_wrBytes _ h _ _) (m.sub rfl)) k3) (progWrite_keeps _ _ k3 (m.sub rfl)))))))))))))))))
  split
  · exact startHoldPut_keeps _ k3 (m.sub rfl)
  · exact iff_keeps _ (fun _ h2 => resetTo_keeps _ _ h2 (m.sub rfl)) k3
  · exact k3

theorem regWrite_keeps (a0 : Path) (a1 : Nat) (a2 : Word) {a3 : State} (k3 : Keeps d L s0 a3) (m : May 0x3fffffff L) : Keeps d L s0 (regWrite a0 a1 a2 a3).2 := by
  unfold regWrite
  split
  · dsimp only
    exact cmdCnt_keeps _ _ k3 (m.sub rfl)
  · split
    · dsimp only
      exact cmdCnt_keeps _ _ k3 (m.sub rfl)
    · dsimp only
      exact offAccess_keeps _ _ _ k3 (m.sub rfl)
    · dsimp only
      exact poke_keeps _ _ _ k3 (m.sub rfl)

/-! ## Cmd -/

theorem modCur_keeps (a0 : Nat) (a1 : RunCmd → RunCmd) {a2 : State} (k2 : Keeps d L s0 a2) (m : May 0x400 L) : Keeps d L s0 (modCur a0 a1 a2) := by
  unfold modCur
  exact modRing_keeps _ _ k2 (m.sub rfl)

theorem refuse_keeps (a0 : Nat) (a1 : Nat) {a2 : State} (k2 : Keeps d L s0 a2) (m : May 0x37fb7c81 L) : Keeps d L s0 (refuse a0 a1 a2) := by
  unfold refuse
  exact endCmd_keeps _ _ _ (modCur_keeps _ _ k2 (m.sub rfl)) (m.sub rfl)

theorem countStep_keeps (a0 : Nat) {a1 : State} (k1 : Keeps d L s0 a1) (m : May 0x400 L) : Keeps d L s0 (countStep a0 a1) := by
  unfold countStep
  exact modCur_keeps _ _ k1 (m.sub rfl)

theorem toBackground_keeps (a0 : Nat) {a1 : State} (k1 : Keeps d L s0 a1) (m : May 0x400 L) : Keeps d L s0 (toBackground a0 a1) := by
  unfold toBackground
  exact modCur_keeps _ _ k1 (m.sub rfl)

theorem startXfer_keeps (a0 : Nat) (a1 : Nat) (a2 : Elem) (a3 : Ident) {a4 : State} (k4 : Keeps d L s0 a4) (m : May 0x1c80 L) : Keeps d L s0 (startXfer a0 a1 a2 a3 a4) := by
  unfold startXfer
  extract_lets z0
  have h1 : Keeps d L s0 z0 := by unfold z0; exact modCur_keeps _ _ k4 (m.sub rfl)
  clear_value z0
  exact chanRun_keeps _ _ _ (modChan_keeps _ _ h1 (m.sub rfl)) (m.sub rfl)

theorem freeChan_keeps (a0 : Nat) {a1 : State} (k1 : Keeps d L s0 a1) (m : May 0xc00 L) : Keeps d L s0 (freeChan a0 a1) := by
  unfold freeChan
  extract_lets z0
  have h1 : Keeps d L s0 z0 := by unfold z0; exact each_keeps (fun _ _ h2 => Keeps.ite (modChan_keeps _ _ h2 (m.sub rfl)) h2) k1
  clear_value z0
  exact modCur_keeps _ _ h1 (m.sub rfl)

theorem gather_keeps (a0 : Nat) (a1 : Nat) (a2 : CmdHdr) (a3 : Nat) (a4 : Nat) {a5 : State} (k5 : Keeps d L s0 a5) (m : May 0x1c80 L) :
    Keeps d L s0 (gather a0 a1 a2 a3 a4 a5) := by
  unfold gather
  exact startXfer_keeps _ _ _ _ k5 (m.sub rfl)

theorem deliver_keeps (a0 : Nat) (a1 : Nat) (a2 : CmdHdr) (a3 : Nat) (a4 : List Byte) {a5 : State} (k5 : Keeps d L s0 a5) (m : May 0x1c80 L) :
    Keeps d L s0 (deliver a0 a1 a2 a3 a4 a5) := by
  unfold deliver
  exact startXfer_keeps _ _ _ _ k5 (m.sub rfl)

theorem direct_keeps (a0 : CmdHdr) (a1 : Nat) {a2 : State} (k2 : Keeps d L s0 a2) (m : May 0x3203b5c5 L) : Keeps d L s0 (direct a0 a1 a2).2 := by
  unfold direct
  extract_lets z0
  clear_value z0
  split
  · exact k2
  · split
    · exact k2
    · split
      · exact k2
      · split
        · dsimp only
          exact wakeBy_keeps _ k2 (m.sub rfl)
        · exact k2

theorem readDirect_keeps (a0 : CmdHdr) (a1 : Nat) {a2 : State} (k2 : Keeps d L s0 a2) (m : May 0x36cb3583 L) : Keeps d L s0 (readDirect a0 a1 a2).2 := by
  unfold readDirect
  extract_lets z0 z1
  clear_value z0 z1
  split
  · rename_i y2 _ y3 e4
    have h5 : Keeps d L s0 y3 := Keeps.snd_eq e4 (readCheck_keeps _ _ _ _ k2 (m.sub rfl))
    split
    · exact h5
    · dsimp only
      exact countRead_keeps _ _ _ h5 (m.sub rfl)

theorem fetchData_keeps (a0 : Nat) (a1 : RunCmd) (a2 : Nat) {a3 : State} (k3 : Keeps d L s0 a3) (m : May 0x37fbfdc7 L) : Keeps d L s0 (fetchData a0 a1 a2 a3).2 := by
  unfold fetchData
  split
  · split
    · dsimp only
      exact freeChan_keeps _ k3 (m.sub rfl)
    · exact k3
    · dsimp only
      exact endDone_keeps _ _ k3 (m.sub rfl)
    · split
      · dsimp only
        exact gather_keeps _ _ _ _ _ k3 (m.sub rfl)
      · exact k3
  · split
    · rename_i y0 y1 e2
      have h3 : Keeps d L s0 y1 := Keeps.snd_eq e2 (direct_keeps _ _ k3 (m.sub rfl))
      exact h3
    · rename_i y4 y5 e6
      have h7 : Keeps d L s0 y5 := Keeps.snd_eq e6 (direct_keeps _ _ k3 (m.sub rfl))
      dsimp only
      exact endDone_keeps _ _ h7 (m.sub rfl)
    · rename_i y8 y9 e10
      have h11 : Keeps d L s0 y9 := Keeps.snd_eq e10 (direct_keeps _ _ k3 (m.sub rfl))
      split
      · rename_i y12 _ y13 e14
        have h15 : Keeps d L s0 y13 := Keeps.snd_eq e14 (readDirect_keeps _ _ h11 (m.sub rfl))
        exact h15
      · rename_i y16 y17 e18
        have h19 : Keeps d L s0 y17 := Keeps.snd_eq e18 (readDirect_keeps _ _ h11 (m.sub rfl))
        dsimp only
        exact endDone_keeps _ _ h19 (m.sub rfl)

theorem forward_keeps (a0 : Nat) (a1 : RunCmd) (a2 : List Byte) {a3 : State} (k3 : Keeps d L s0 a3) (m : May 0x401 L) : Keeps d L s0 (forward a0 a1 a2 a3) := by
  unfold forward
  extract_lets z0
  have h1 : Keeps d L s0 z0 := by unfold z0; exact modCmd_keeps _ k3 (m.sub rfl)
  clear_value z0
  exact toBackground_keeps _ (emit_keeps _ h1 (m.sub rfl)) (m.sub rfl)

theorem expire_keeps {a0 : State} (k0 : Keeps d L s0 a0) (m : May 0x37fb7c81 L) : Keeps d L s0 (expire a0) := by
  unfold expire
  exact each_keeps (fun _ _ h0 => endCmd_keeps _ _ _ h0 (m.sub rfl)) k0

theorem clearStep_keeps (a0 : Nat) {a1 : State} (k1 : Keeps d L s0 a1) (m : May 0x3ffbfc83 L) : Keeps d L s0 (clearStep a0 a1) := by
  unfold clearStep
  extract_lets z0 z1
  clear_value z0
  have h2 : Keeps d L s0 z1.2 := by unfold z1; exact clrStep_keeps k1 (m.sub rfl)
  clear_value z1
  split
  · rename_i y3 y4 e5
    have h6 : Keeps d L s0 y4 := by
      refine Keeps.snd_eq e5 ?_
      dsimp only
      exact stageWaiting_keeps h2 (m.sub rfl)
    split
    · exact modCur_keeps _ _ h6 (m.sub rfl)
    · exact h6
  · rename_i y7 y8 e9
    have h10 : Keeps d L s0 y8 := by
      refine Keeps.snd_eq e9 ?_
      dsimp only
      exact stageWaiting_keeps h2 (m.sub rfl)
    exact endDone_keeps _ _ (modCur_keeps _ _ h10 (m.sub rfl)) (m.sub rfl)
  · rename_i y11 y12 e13
    have h14 : Keeps d L s0 y12 := by
      refine Keeps.snd_eq e13 ?_
      dsimp only
      exact stageWaiting_keeps h2 (m.sub rfl)
    exact endDone_keeps _ _ (modCur_keeps _ _ h14 (m.sub rfl)) (m.sub rfl)

theorem stepClear_keeps (a0 : Nat) (a1 : RunCmd) (a2 : Nat) (a3 : BitVec 4) (a4 : Byte) (a5 : Bool) {a6 : State} (k6 : Keeps d L s0 a6) (m : May 0x3ffbfdc7 L) :
    Keeps d L s0 (stepClear a0 a1 a2 a3 a4 a5 a6) := by
  unfold stepClear
  refine Keeps.ite (clearStep_keeps _ k6 (m.sub rfl)) ?_
  refine Keeps.ite ?_ ?_
  · split
    · rename_i y0 _ y1 e2
      have h3 : Keeps d L s0 y1 := Keeps.snd_eq e2 (fetchData_keeps _ _ _ k6 (m.sub rfl))
      exact forward_keeps _ _ _ h3 (m.sub rfl)
    · rename_i y4 y5 e6
      have h7 : Keeps d L s0 y5 := Keeps.snd_eq e6 (fetchData_keeps _ _ _ k6 (m.sub rfl))
      exact h7
  · refine Keeps.ite ?_ ?_
    · refine Keeps.ite k6 ?_
      split
      · rename_i y8 _ y9 e10
        have h11 : Keeps d L s0 y9 := Keeps.snd_eq e10 (fetchData_keeps _ _ _ k6 (m.sub rfl))
        exact fabBegin_keeps _ _ _ _ (toBackground_keeps _ h11 (m.sub rfl)) (m.sub rfl)
      · rename_i y12 y13 e14
        have h15 : Keeps d L s0 y13 := Keeps.snd_eq e14 (fetchData_keeps _ _ _ k6 (m.sub rfl))
        exact h15
    · refine Keeps.ite k6 ?_
      split
      · rename_i y16 _ y17 e18
        have h19 : Keeps d L s0 y17 := Keeps.snd_eq e18 (fetchData_keeps _ _ _ k6 (m.sub rfl))
        exact clearStep_keeps _ (clrBegin_keeps _ _ _ _ h19 (m.sub rfl)) (m.sub rfl)
      · rename_i y20 y21 e22
        have h23 : Keeps d L s0 y21 := Keeps.snd_eq e22 (fetchData_keeps _ _ _ k6 (m.sub rfl))
        exact h23

theorem takeFragment_keeps (a0 : Nat) (a1 : RunCmd) (a2 : Bool) (a3 : Nat) (a4 : List Byte) {a5 : State} (k5 : Keeps d L s0 a5) (m : May 0x3ffb7d81 L) :
    Keeps d L s0 (takeFragment a0 a1 a2 a3 a4 a5) := by
  unfold takeFragment
  extract_lets z0 z1 z2
  clear_value z0 z1
  have h3 : Keeps d L s0 z2 := by unfold z2; exact modMgr_keeps _ k5 (m.sub rfl)
  clear_value z2
  exact Keeps.ite (tryPost_keeps _ (createGroup_keeps _ _ (toBackground_keeps _ h3 (m.sub rfl)) (m.sub rfl)) (m.sub rfl)) (endCmd_keeps _ _ _ (modMgr_keeps _ k5 (m.sub rfl)) (m.sub rfl))

theorem stepGroupCreate_keeps (a0 : Nat) (a1 : RunCmd) (a2 : Nat) (a3 : Bool) (a4 : Nat) {a5 : State} (k5 : Keeps d L s0 a5) (m : May 0x3ffbfdc7 L) :
    Keeps d L s0 (stepGroupCreate a0 a1 a2 a3 a4 a5) := by
  unfold stepGroupCreate
  split
  · rename_i y0 _ y1 e2
    have h3 : Keeps d L s0 y1 := Keeps.snd_eq e2 (fetchData_keeps _ _ _ k5 (m.sub rfl))
    exact Keeps.ite (takeFragment_keeps _ _ _ _ _ h3 (m.sub rfl)) (forward_keeps _ _ _ h3 (m.sub rfl))
  · rename_i y4 y5 e6
    have h7 : Keeps d L s0 y5 := Keeps.snd_eq e6 (fetchData_keeps _ _ _ k5 (m.sub rfl))
    exact h7

theorem atManager_keeps (a0 : Nat) (a1 : RunCmd) (a2 : GroupId) (a3 : GroupRec → State → State) {a4 : State} (k3 : ∀ x0 y, Keeps d L s0 y → Keeps d L s0 (a3 x0 y)) (k4 : Keeps d L s0 a4) (m : May 0x37fb7c81 L) :
    Keeps d L s0 (atManager a0 a1 a2 a3 a4) := by
  unfold atManager
  refine Keeps.ite (forward_keeps _ _ _ k4 (m.sub rfl)) ?_
  split
  · exact endCmd_keeps _ _ _ (k3 _ _ k4) (m.sub rfl)
  · exact refuse_keeps _ _ k4 (m.sub rfl)

theorem sendStop_keeps (a0 : GroupRec) (a1 : StepNo) {a2 : State} (k2 : Keeps d L s0 a2) (m : May 0x7fb5081 L) : Keeps d L s0 (sendStop a0 a1 a2) := by
  unfold sendStop
  extract_lets z0
  clear_value z0
  refine Keeps.ite ?_ (sendPkt_keeps _ _ _ _ k2 (m.sub rfl))
  split
  · exact rootStop_keeps _ _ k2 (m.sub rfl)
  · exact k2

theorem resumeLocal_keeps (a0 : GroupId) {a1 : State} (k1 : Keeps d L s0 a1) (m : May 0x4000000 L) : Keeps d L s0 (resumeLocal a0 a1) := by
  unfold resumeLocal
  split
  · exact k1
  · exact modCtx_keeps _ _ k1 (m.sub rfl)

theorem resumeAll_keeps (a0 : GroupRec) {a1 : State} (k1 : Keeps d L s0 a1) (m : May 0x5fb4081 L) : Keeps d L s0 (resumeAll a0 a1) := by
  unfold resumeAll
  exact each_keeps (fun _ _ h0 => Keeps.ite (resumeLocal_keeps _ h0 (m.sub rfl)) (sendMgmt_keeps _ _ h0 (m.sub rfl))) k1

theorem stepGroupResume_keeps (a0 : Nat) (a1 : RunCmd) (a2 : GroupId) {a3 : State} (k3 : Keeps d L s0 a3) (m : May 0x37fb7c81 L) :
    Keeps d L s0 (stepGroupResume a0 a1 a2 a3) := by
  unfold stepGroupResume
  exact Keeps.ite (endCmd_keeps _ _ _ (resumeLocal_keeps _ k3 (m.sub rfl)) (m.sub rfl)) (atManager_keeps _ _ _ _ (fun _ _ h0 => resumeAll_keeps _ h0 (m.sub rfl)) k3 (m.sub rfl))

theorem countRange_keeps (a0 : Nat) (a1 : Nat) (a2 : Nat) (a3 : Nat) {a4 : State} (k4 : Keeps d L s0 a4) (m : May 0x2000 L) : Keeps d L s0 (countRange a0 a1 a2 a3 a4) := by
  unfold countRange
  exact each_keeps (fun _ _ h0 => countBytes_keeps _ _ h0 (m.sub rfl)) k4

theorem takeLock_keeps (a0 : Nat) (a1 : RunCmd) (a2 : Nat) (a3 : Nat) (a4 : Nat) (a5 : State → State) {a6 : State} (k5 : ∀ y, Keeps d L s0 y → Keeps d L s0 (a5 y)) (k6 : Keeps d L s0 a6) (m : May 0x37fb7c81 L) :
    Keeps d L s0 (takeLock a0 a1 a2 a3 a4 a5 a6) := by
  unfold takeLock
  exact Keeps.ite (k5 _ k6) (Keeps.ite (refuse_keeps _ _ k6 (m.sub rfl)) (Keeps.ite k6 (k5 _ (modCur_keeps _ _ (modRed_keeps _ _ k6 (m.sub rfl)) (m.sub rfl)))))

theorem withStacks_keeps (a0 : Nat) (a1 : Nat) (a2 : Nat) (a3 : Nat) (a4 : State → State) {a5 : State} (k4 : ∀ y, Keeps d L s0 y → Keeps d L s0 (a4 y)) (k5 : Keeps d L s0 a5) (m : May 0x37fbfdc5 L) :
    Keeps d L s0 (withStacks a0 a1 a2 a3 a4 a5) := by
  unfold withStacks
  extract_lets z0
  clear_value z0
  exact Keeps.ite (k4 _ k5) (Keeps.ite (wakeBy_keeps _ k5 (m.sub rfl)) (endDone_keeps _ _ k5 (m.sub rfl)))

theorem stepLoad_keeps (a0 : Nat) (a1 : RunCmd) (a2 : Nat) (a3 : Nat) (a4 : Nat) {a5 : State} (k5 : Keeps d L s0 a5) (m : May 0x37fbfdc5 L) :
    Keeps d L s0 (stepLoad a0 a1 a2 a3 a4 a5) := by
  unfold stepLoad
  refine takeLock_keeps _ _ _ _ _ _ (fun _ h0 => ?_) k5 (m.sub rfl)
  refine withStacks_keeps _ _ _ _ _ (fun _ h1 => ?_) h0 (m.sub rfl)
  split
  · exact gather_keeps _ _ _ _ _ h1 (m.sub rfl)
  · exact h1

theorem rangeCheck_keeps (a0 : Nat) (a1 : Nat) (a2 : Nat) {a3 : State} (k3 : Keeps d L s0 a3) (m : May 0x36cb3583 L) : Keeps d L s0 (rangeCheck a0 a1 a2 a3).2 := by
  unfold rangeCheck
  refine foldl_snd_keeps (fun _ _ _ h0 => ?_) k3
  extract_lets z1
  have h2 : Keeps d L s0 z1.2 := by unfold z1; exact readCheck_keeps _ _ _ _ h0 (m.sub rfl)
  clear_value z1
  exact h2

theorem stepSave_keeps (a0 : Nat) (a1 : RunCmd) (a2 : Nat) (a3 : Nat) (a4 : Nat) {a5 : State} (k5 : Keeps d L s0 a5) (m : May 0x37fbfdc7 L) :
    Keeps d L s0 (stepSave a0 a1 a2 a3 a4 a5) := by
  unfold stepSave
  refine takeLock_keeps _ _ _ _ _ _ (fun _ h0 => ?_) k5 (m.sub rfl)
  refine withStacks_keeps _ _ _ _ _ (fun _ h1 => ?_) h0 (m.sub rfl)
  split
  · exact h1
  · extract_lets z2
    clear_value z2
    split
    · rename_i y3 _ y4 e5
      have h6 : Keeps d L s0 y4 := Keeps.snd_eq e5 (rangeCheck_keeps _ _ _ h1 (m.sub rfl))
      exact Keeps.ite (endDone_keeps _ _ h6 (m.sub rfl)) (deliver_keeps _ _ _ _ _ (countRange_keeps _ _ _ _ h6 (m.sub rfl)) (m.sub rfl))

theorem putBlocks_keeps (a0 : Nat) (a1 : Nat) (a2 : List (List Byte)) {a3 : State} (k3 : Keeps d L s0 a3) (m : May 0x30002040 L) : Keeps d L s0 (putBlocks a0 a1 a2 a3) := by
  unfold putBlocks
  extract_lets z0
  have h1 : Keeps d L s0 z0 := by unfold z0; exact each_keeps (fun _ _ h2 => cwWritten_keeps _ _ _ (shard_keeps h2 (fun h => tblOk_tset _ _ h _ _ (Nat.zero_le _)) (m.sub rfl)) (m.sub rfl)) k3
  clear_value z0
  exact iff_keeps _ (fun _ h3 => modPwr_keeps _ h3 (m.sub rfl)) (countRange_keeps _ _ _ _ h1 (m.sub rfl))

theorem nextStep_keeps (a0 : Nat) (a1 : Nat) (a2 : Nat) {a3 : State} (k3 : Keeps d L s0 a3) (m : May 0x3ffbfc83 L) : Keeps d L s0 (nextStep a0 a1 a2 a3) := by
  unfold nextStep
  split
  · exact k3
  · extract_lets z0
    have h1 : Keeps d L s0 z0 := by unfold z0; exact modCur_keeps _ _ k3 (m.sub rfl)
    clear_value z0
    exact Keeps.ite (endDone_keeps _ _ h1 (m.sub rfl)) (Keeps.ite (abortCmd_keeps _ h1 (m.sub rfl)) h1)

theorem endLoad_keeps (a0 : Nat) (a1 : RunCmd) (a2 : Nat) (a3 : Nat) (a4 : Nat) {a5 : State} (k5 : Keeps d L s0 a5) (m : May 0x3ffbfcc3 L) :
    Keeps d L s0 (endLoad a0 a1 a2 a3 a4 a5) := by
  unfold endLoad
  extract_lets z0 z1 z2 z3 z4
  clear_value z0 z1 z2 z3
  have h5 : Keeps d L s0 z4 := by unfold z4; exact putBlocks_keeps _ _ _ (modCur_keeps _ _ k5 (m.sub rfl)) (m.sub rfl)
  clear_value z4
  exact Keeps.ite (endCmd_keeps _ _ _ h5 (m.sub rfl)) (nextStep_keeps _ _ _ h5 (m.sub rfl))

theorem stepScrub_keeps (a0 : Nat) (a1 : RunCmd) (a2 : Nat) {a3 : State} (k3 : Keeps d L s0 a3) (m : May 0x37fbfdc7 L) : Keeps d L s0 (stepScrub a0 a1 a2 a3) := by
  unfold stepScrub
  extract_lets z0 z1
  have h2 : Keeps d L s0 z0 := by unfold z0; exact scrubResultAt_keeps _ _ _ (countBytes_keeps _ _ k3 (m.sub rfl)) (m.sub rfl)
  clear_value z0
  have h3 : Keeps d L s0 z1 := by unfold z1; exact countStep_keeps _ h2 (m.sub rfl)
  clear_value z1
  exact Keeps.ite (Keeps.ite (wakeBy_keeps _ k3 (m.sub rfl)) (endDone_keeps _ _ k3 (m.sub rfl))) (Keeps.ite (endDone_keeps _ _ h3 (m.sub rfl)) h3)

theorem stepTest_keeps (r : Nat) (c : RunCmd) (cls u : Nat) {s : State} (h : Keeps d L s0 s) (m : May 0x37fbfdc7 L) : Keeps d L s0 (stepTest r c cls u s) := by
  unfold stepTest
  refine Keeps.ite (refuse_keeps _ _ h (m.sub rfl)) ?_
  dsimp only
  split
  · split
    · exact h
    · exact deliver_keeps _ _ _ _ _ (modCur_keeps _ _ (draw_keeps h (m.sub rfl)) (m.sub rfl)) (m.sub rfl)
  · split
    · rename_i e; exact Keeps.snd_eq e (direct_keeps _ _ h (m.sub rfl))
    · rename_i e; exact endDone_keeps _ _ (Keeps.snd_eq e (direct_keeps _ _ h (m.sub rfl))) (m.sub rfl)
    · rename_i e; exact endDone_keeps _ _ (countStep_keeps _ (placeWrite_keeps _ _ _ (draw_keeps (Keeps.snd_eq e (direct_keeps _ _ h (m.sub rfl))) (m.sub rfl)) (m.sub rfl)) (m.sub rfl)) (m.sub rfl)

theorem stepWindthrow_keeps (a0 : Nat) (a1 : RunCmd) {a2 : State} (k2 : Keeps d L s0 a2) (m : May 0x3c80 L) : Keeps d L s0 (stepWindthrow a0 a1 a2) := by
  unfold stepWindthrow
  split
  · split
    · exact k2
    · extract_lets z0
      have h1 : Keeps d L s0 z0 := by unfold z0; exact modChan_keeps _ _ k2 (m.sub rfl)
      clear_value z0
      exact countStep_keeps _ (modDbg_keeps _ (modCur_keeps _ _ h1 (m.sub rfl)) (m.sub rfl)) (m.sub rfl)
  · refine Keeps.ite k2 ?_
    split
    · exact deliver_keeps _ _ _ _ _ k2 (m.sub rfl)
    · exact k2

theorem stepRetrain_keeps (a0 : Nat) (a1 : RunCmd) (a2 : Nat) (a3 : BitVec 4) {a4 : State} (k4 : Keeps d L s0 a4) (m : May 0x3ffbfd83 L) :
    Keeps d L s0 (stepRetrain a0 a1 a2 a3 a4) := by
  unfold stepRetrain
  extract_lets z0 z1
  have h2 : Keeps d L s0 z0 := by unfold z0; exact Keeps.ite (each_keeps (fun _ _ h3 => Keeps.ite (retrainLink_keeps _ _ (Keeps.ite (wakeLink_keeps _ h3 (m.sub rfl)) h3) (m.sub rfl)) h3) k4) k4
  clear_value z0
  have h4 : Keeps d L s0 z1 := by unfold z1; exact modCur_keeps _ _ h2 (m.sub rfl)
  clear_value z1
  exact Keeps.ite (Keeps.ite (abortCmd_keeps _ h4 (m.sub rfl)) h4) (endDone_keeps _ _ (modCur_keeps _ _ h4 (m.sub rfl)) (m.sub rfl))

theorem flashPut_keeps (a0 : Nat) (a1 : List Byte) {a2 : State} (k2 : Keeps d L s0 a2) (m : May 0x3 L) : Keeps d L s0 (flashPut a0 a1 a2).2 := by
  unfold flashPut
  split
  · rename_i y0 _ y1 e2
    have h3 : Keeps d L s0 y1 := Keeps.snd_eq e2 (draw_keeps (emit_keeps _ k2 (m.sub rfl)) (m.sub rfl))
    exact h3

theorem flashErase_keeps (a0 : Nat) {a1 : State} (k1 : Keeps d L s0 a1) (m : May 0x3 L) : Keeps d L s0 (flashErase a0 a1).2 := by
  unfold flashErase
  split
  · rename_i y0 _ y1 e2
    have h3 : Keeps d L s0 y1 := Keeps.snd_eq e2 (draw_keeps (emit_keeps _ k1 (m.sub rfl)) (m.sub rfl))
    exact h3

theorem startImage_keeps (a0 : Nat) (a1 : Nat) {a2 : State} (k2 : Keeps d L s0 a2) (m : May 0x37fb7c81 L) : Keeps d L s0 (startImage a0 a1 a2) := by
  unfold startImage
  refine Keeps.ite (refuse_keeps _ _ k2 (m.sub rfl)) ?_
  split
  · exact k2
  · extract_lets z0
    have h1 : Keeps d L s0 z0 := by unfold z0; exact modChan_keeps _ _ k2 (m.sub rfl)
    clear_value z0
    exact toBackground_keeps _ (modCmd_keeps _ (modCur_keeps _ _ h1 (m.sub rfl)) (m.sub rfl)) (m.sub rfl)

theorem imagePiece_keeps (a0 : Nat) (a1 : Nat) (a2 : Nat) (a3 : RunCmd) {a4 : State} (k4 : Keeps d L s0 a4) (m : May 0x37fb7c83 L) :
    Keeps d L s0 (imagePiece a0 a1 a2 a3 a4) := by
  unfold imagePiece
  extract_lets z0 z1
  clear_value z0 z1
  split
  · rename_i y2 _ y3 e4
    have h5 : Keeps d L s0 y3 := by
      refine Keeps.snd_eq e4 ?_
      split
      · exact k4
      · exact flashErase_keeps _ k4 (m.sub rfl)
    split
    · rename_i y6 _ y7 e8
      have h9 : Keeps d L s0 y7 := by
        refine Keeps.snd_eq e8 ?_
        split
        · exact flashPut_keeps _ _ h5 (m.sub rfl)
        · exact h5
      extract_lets z10
      have h11 : Keeps d L s0 z10 := by unfold z10; exact modCur_keeps _ _ h9 (m.sub rfl)
      clear_value z10
      exact Keeps.ite (endCmd_keeps _ _ _ h9 (m.sub rfl)) (Keeps.ite (modCmd_keeps _ h11 (m.sub rfl)) h11)

theorem imageWork_keeps {a0 : State} (k0 : Keeps d L s0 a0) (m : May 0x37fb7c83 L) : Keeps d L s0 (imageWork a0) := by
  unfold imageWork
  split
  · exact k0
  · split
    · exact k0
    · split
      · refine Keeps.ite k0 ?_
        split
        · split
          · rename_i y0 _ y1 e2
            have h3 : Keeps d L s0 y1 := Keeps.snd_eq e2 (flashErase_keeps _ k0 (m.sub rfl))
            exact Keeps.ite (modCmd_keeps _ h3 (m.sub rfl)) (endCmd_keeps _ _ _ h3 (m.sub rfl))
        · split
          · split
            · exact gather_keeps _ _ _ _ _ k0 (m.sub rfl)
            · exact k0
          · exact k0
          · exact endCmd_keeps _ _ _ k0 (m.sub rfl)
          · exact imagePiece_keeps _ _ _ _ k0 (m.sub rfl)
        · split
          · rename_i y4 _ y5 e6
            have h7 : Keeps d L s0 y5 := Keeps.snd_eq e6 (flashPut_keeps _ _ k0 (m.sub rfl))
            exact endCmd_keeps _ _ _ h7 (m.sub rfl)
      · exact k0

theorem stepRegRead_keeps (a0 : Nat) (a1 : Nat) {a2 : State} (k2 : Keeps d L s0 a2) (m : May 0x37ffffc3 L) : Keeps d L s0 (stepRegRead a0 a1 a2) := by
  unfold stepRegRead
  split
  · rename_i y0 _ _ y1 e2
    have h3 : Keeps d L s0 y1 := Keeps.trd_eq e2 (regRead_keeps _ _ k2 (m.sub rfl))
    exact endCmd_keeps _ _ _ h3 (m.sub rfl)
  · rename_i y4 _ _ y5 _ e6
    have h7 : Keeps d L s0 y5 := Keeps.trd_eq e6 (regRead_keeps _ _ k2 (m.sub rfl))
    exact endCmd_keeps _ _ _ h7 (m.sub rfl)

theorem stepRegWrite_keeps (a0 : Nat) (a1 : Nat) (a2 : Word) {a3 : State} (k3 : Keeps d L s0 a3) (m : May 0x3fffffff L) : Keeps d L s0 (stepRegWrite a0 a1 a2 a3) := by
  unfold stepRegWrite
  split
  · rename_i y0 _ y1 e2
    have h3 : Keeps d L s0 y1 := Keeps.snd_eq e2 (regWrite_keeps _ _ _ k3 (m.sub rfl))
    exact endCmd_keeps _ _ _ h3 (m.sub rfl)
  · rename_i y4 _ y5 _ e6
    have h7 : Keeps d L s0 y5 := Keeps.snd_eq e6 (regWrite_keeps _ _ _ k3 (m.sub rfl))
    exact endCmd_keeps _ _ _ h7 (m.sub rfl)

theorem stepCmd_keeps (a0 : Nat) {a1 : State} (k1 : Keeps d L s0 a1) (m : May 0x3fffffff L) : Keeps d L s0 (stepCmd a0 a1) := by
  unfold stepCmd
  split
  · exact k1
  · refine Keeps.ite k1 ?_
    refine Keeps.ite (abortCmd_keeps _ k1 (m.sub rfl)) ?_
    split
    · exact endCmd_keeps _ _ _ k1 (m.sub rfl)
    · exact stepClear_keeps _ _ _ _ _ _ k1 (m.sub rfl)
    · exact stepGroupCreate_keeps _ _ _ _ _ k1 (m.sub rfl)
    · exact atManager_keeps _ _ _ _ (fun _ _ h0 => deleteGroup_keeps _ h0 (m.sub rfl)) k1 (m.sub rfl)
    · exact atManager_keeps _ _ _ _ (fun _ _ h1 => sendStop_keeps _ _ h1 (m.sub rfl)) k1 (m.sub rfl)
    · exact stepGroupResume_keeps _ _ _ k1 (m.sub rfl)
    · exact stepLoad_keeps _ _ _ _ _ k1 (m.sub rfl)
    · exact stepSave_keeps _ _ _ _ _ k1 (m.sub rfl)
    · exact stepScrub_keeps _ _ _ k1 (m.sub rfl)
    · exact stepTest_keeps _ _ _ _ k1 (m.sub rfl)
    · exact stepWindthrow_keeps _ _ k1 (m.sub rfl)
    · exact stepRetrain_keeps _ _ _ _ k1 (m.sub rfl)
    · exact startImage_keeps _ _ k1 (m.sub rfl)
    · exact stepRegRead_keeps _ _ k1 (m.sub rfl)
    · exact stepRegWrite_keeps _ _ _ k1 (m.sub rfl)

theorem startCmd_keeps (a0 : Nat) (a1 : Ident) (a2 : CmdHdr) (a3 : CmdBody) {a4 : State} (k4 : Keeps d L s0 a4) (m : May 0x3fffffff L) :
    Keeps d L s0 (startCmd a0 a1 a2 a3 a4) := by
  unfold startCmd
  extract_lets z0
  have h1 : Keeps d L s0 z0 := by unfold z0; exact modRing_keeps _ _ k4 (m.sub rfl)
  clear_value z0
  exact Keeps.ite (refuse_keeps _ _ h1 (m.sub rfl)) (stepCmd_keeps _ h1 (m.sub rfl))

theorem endXfer_keeps (a0 : Nat) (a1 : RunCmd) {a2 : State} (k2 : Keeps d L s0 a2) (m : May 0x3fffffff L) : Keeps d L s0 (endXfer a0 a1 a2) := by
  unfold endXfer
  split
  · exact endDone_keeps _ _ k2 (m.sub rfl)
  · split
    · exact endLoad_keeps _ _ _ _ _ k2 (m.sub rfl)
    · exact nextStep_keeps _ _ _ k2 (m.sub rfl)
    · exact nextStep_keeps _ _ _ k2 (m.sub rfl)
    · exact endDone_keeps _ _ (countStep_keeps _ k2 (m.sub rfl)) (m.sub rfl)
    · exact stepCmd_keeps _ k2 (m.sub rfl)
  · exact k2

theorem noteHalt_keeps {a0 : State} (k0 : Keeps d L s0 a0) (m : May 0x400 L) : Keeps d L s0 (noteHalt a0) := by
  unfold noteHalt
  exact iff_keeps _ (fun _ h0 => modCmd_keeps _ h0 (m.sub rfl)) k0

theorem endXfers_keeps {a0 : State} (k0 : Keeps d L s0 a0) (m : May 0x3fffffff L) : Keeps d L s0 (endXfers a0) := by
  unfold endXfers
  refine each_keeps (fun _ _ h0 => ?_) k0
  split
  · exact Keeps.ite (noteHalt_keeps (endXfer_keeps _ _ h0 (m.sub rfl)) (m.sub rfl)) h0
  · exact h0

theorem takeEntry_keeps (a0 : Nat) (a1 : Ident) (a2 : List Byte) {a3 : State} (k3 : Keeps d L s0 a3) (m : May 0x3fffffff L) : Keeps d L s0 (takeEntry a0 a1 a2 a3) := by
  unfold takeEntry
  extract_lets z0 z1
  clear_value z0
  have h2 : ∀ x0 x1, Keeps d L s0 x1 → Keeps d L s0 (z1 x0 x1) := by
    intro x0 x1 h3
    unfold z1
    exact refuse_keeps _ _ (modRing_keeps _ _ h3 (m.sub rfl)) (m.sub rfl)
  clear_value z1
  refine Keeps.ite (h2 _ _ (modRing_keeps _ _ k3 (m.sub rfl))) ?_
  split
  · exact h2 _ _ k3
  · exact startCmd_keeps _ _ _ _ k3 (m.sub rfl)

theorem fetchEntry_keeps (a0 : Nat) {a1 : State} (k1 : Keeps d L s0 a1) (m : May 0x3fffffff L) : Keeps d L s0 (fetchEntry a0 a1) := by
  unfold fetchEntry
  extract_lets z0 z1
  clear_value z0 z1
  refine Keeps.ite ?_ (takeEntry_keeps _ _ _ (modRing_keeps _ _ (countBytes_keeps _ _ k1 (m.sub rfl)) (m.sub rfl)) (m.sub rfl))
  split
  · exact k1
  · exact takeEntry_keeps _ _ _ (modRing_keeps _ _ k1 (m.sub rfl)) (m.sub rfl)

theorem serve_keeps (a0 : Nat) {a1 : State} (k1 : Keeps d L s0 a1) (m : May 0x3fffffff L) : Keeps d L s0 (serve a0 a1) := by
  unfold serve
  extract_lets z0 z1 z2
  clear_value z0
  have h3 : Keeps d L s0 z1 := by unfold z1; exact modCmd_keeps _ k1 (m.sub rfl)
  clear_value z1
  have h4 : Keeps d L s0 z2 := by unfold z2; exact Keeps.ite (stepCmd_keeps _ h3 (m.sub rfl)) (fetchEntry_keeps _ h3 (m.sub rfl))
  clear_value z2
  exact iff_keeps _ (fun _ h5 => noteHalt_keeps h5 (m.sub rfl)) h4

theorem housekeep_keeps {a0 : State} (k0 : Keeps d L s0 a0) (m : May 0x3fffffff L) : Keeps d L s0 (housekeep a0) := by
  unfold housekeep
  exact endXfers_keeps (imageWork_keeps (expire_keeps (postAll_keeps k0 (m.sub rfl)) (m.sub rfl)) (m.sub rfl)) (m.sub rfl)

theorem turn_keeps {a0 : State} (k0 : Keeps d L s0 a0) (m : May 0x3fffffff L) : Keeps d L s0 (turn a0) := by
  unfold turn
  extract_lets z0
  have h1 : Keeps d L s0 z0 := by unfold z0; exact housekeep_keeps k0 (m.sub rfl)
  clear_value z0
  refine Keeps.ite h1 ?_
  split
  · exact serve_keeps _ h1 (m.sub rfl)
  · exact h1

theorem sstepGo_keeps {a0 : State} (k0 : Keeps d L s0 a0) (m : May 0x3fffffff L) : Keeps d L s0 (sstepGo a0) := by
  unfold sstepGo
  exact Keeps.ite (turn_keeps (modCmd_keeps _ k0 (m.sub rfl)) (m.sub rfl)) k0

theorem runRow_keeps (a0 : RingId) (a1 : CmdHdr) (a2 : CmdBody) {a3 : State} (k3 : Keeps d L s0 a3) (m : May 0x3fffffff L) : Keeps d L s0 (runRow a0 a1 a2 a3) := by
  unfold runRow
  extract_lets z0
  have h1 : Keeps d L s0 z0 := by unfold z0; exact startCmd_keeps _ _ _ _ k3 (m.sub rfl)
  clear_value z0
  exact Keeps.ite (iff_keeps _ (fun _ h2 => noteHalt_keeps h2 (m.sub rfl)) h1) k3

theorem execCommandStepTurn_keeps {a0 : State} (k0 : Keeps d L s0 a0) (m : May 0x3fffffff L) : KeepsO d L s0 (execCommandStepTurn a0) := by
  unfold execCommandStepTurn
  exact KeepsO.next (Keeps.ite (turn_keeps k0 (m.sub rfl)) k0)

theorem execNop_keeps (a0 : RingId) (a1 : CmdHdr) {a2 : State} (k2 : Keeps d L s0 a2) (m : May 0x3fffffff L) : KeepsO d L s0 (execNop a0 a1 a2) := by
  unfold execNop
  exact KeepsO.next (runRow_keeps _ _ _ k2 (m.sub rfl))

theorem execClear_keeps (a0 : RingId) (a1 : CmdHdr) (a2 : Word) (a3 : BitVec 4) (a4 : Byte) (a5 : Bool) {a6 : State} (k6 : Keeps d L s0 a6) (m : May 0x3fffffff L) :
    KeepsO d L s0 (execClear a0 a1 a2 a3 a4 a5 a6) := by
  unfold execClear
  exact KeepsO.next (runRow_keeps _ _ _ k6 (m.sub rfl))

theorem execGroupCreate_keeps (a0 : RingId) (a1 : CmdHdr) (a2 : BitVec 16) (a3 : Bool) (a4 : Word) {a5 : State} (k5 : Keeps d L s0 a5) (m : May 0x3fffffff L) :
    KeepsO d L s0 (execGroupCreate a0 a1 a2 a3 a4 a5) := by
  unfold execGroupCreate
  exact KeepsO.next (runRow_keeps _ _ _ k5 (m.sub rfl))

theorem execGroupDelete_keeps (a0 : RingId) (a1 : CmdHdr) (a2 : GroupId) {a3 : State} (k3 : Keeps d L s0 a3) (m : May 0x3fffffff L) :
    KeepsO d L s0 (execGroupDelete a0 a1 a2 a3) := by
  unfold execGroupDelete
  exact KeepsO.next (runRow_keeps _ _ _ k3 (m.sub rfl))

theorem execGroupStop_keeps (a0 : RingId) (a1 : CmdHdr) (a2 : GroupId) (a3 : StepNo) {a4 : State} (k4 : Keeps d L s0 a4) (m : May 0x3fffffff L) :
    KeepsO d L s0 (execGroupStop a0 a1 a2 a3 a4) := by
  unfold execGroupStop
  exact KeepsO.next (runRow_keeps _ _ _ k4 (m.sub rfl))

theorem execGroupResume_keeps (a0 : RingId) (a1 : CmdHdr) (a2 : GroupId) {a3 : State} (k3 : Keeps d L s0 a3) (m : May 0x3fffffff L) :
    KeepsO d L s0 (execGroupResume a0 a1 a2 a3) := by
  unfold execGroupResume
  exact KeepsO.next (runRow_keeps _ _ _ k3 (m.sub rfl))

theorem execShardLoad_keeps (a0 : RingId) (a1 : CmdHdr) (a2 : Byte) (a3 : Word) (a4 : Word) {a5 : State} (k5 : Keeps d L s0 a5) (m : May 0x3fffffff L) :
    KeepsO d L s0 (execShardLoad a0 a1 a2 a3 a4 a5) := by
  unfold execShardLoad
  exact KeepsO.next (runRow_keeps _ _ _ k5 (m.sub rfl))

theorem execShardSave_keeps (a0 : RingId) (a1 : CmdHdr) (a2 : Byte) (a3 : Word) (a4 : Word) {a5 : State} (k5 : Keeps d L s0 a5) (m : May 0x3fffffff L) :
    KeepsO d L s0 (execShardSave a0 a1 a2 a3 a4 a5) := by
  unfold execShardSave
  exact KeepsO.next (runRow_keeps _ _ _ k5 (m.sub rfl))

theorem execScrubPass_keeps (a0 : RingId) (a1 : CmdHdr) (a2 : Byte) {a3 : State} (k3 : Keeps d L s0 a3) (m : May 0x3fffffff L) :
    KeepsO d L s0 (execScrubPass a0 a1 a2 a3) := by
  unfold execScrubPass
  exact KeepsO.next (runRow_keeps _ _ _ k3 (m.sub rfl))

theorem execSelfTest_keeps (a0 : RingId) (a1 : CmdHdr) (a2 : Byte) (a3 : Byte) {a4 : State} (k4 : Keeps d L s0 a4) (m : May 0x3fffffff L) :
    KeepsO d L s0 (execSelfTest a0 a1 a2 a3 a4) := by
  unfold execSelfTest
  exact KeepsO.next (runRow_keeps _ _ _ k4 (m.sub rfl))

theorem execWindthrow_keeps (a0 : RingId) (a1 : CmdHdr) {a2 : State} (k2 : Keeps d L s0 a2) (m : May 0x3fffffff L) : KeepsO d L s0 (execWindthrow a0 a1 a2) := by
  unfold execWindthrow
  exact KeepsO.next (runRow_keeps _ _ _ k2 (m.sub rfl))

theorem execPortRetrain_keeps (a0 : RingId) (a1 : CmdHdr) (a2 : BitVec 16) (a3 : BitVec 4) {a4 : State} (k4 : Keeps d L s0 a4) (m : May 0x3fffffff L) :
    KeepsO d L s0 (execPortRetrain a0 a1 a2 a3 a4) := by
  unfold execPortRetrain
  exact KeepsO.next (runRow_keeps _ _ _ k4 (m.sub rfl))

theorem execImageUpdate_keeps (a0 : RingId) (a1 : CmdHdr) (a2 : Byte) (a3 : Word) {a4 : State} (k4 : Keeps d L s0 a4) (m : May 0x3fffffff L) :
    KeepsO d L s0 (execImageUpdate a0 a1 a2 a3 a4) := by
  unfold execImageUpdate
  exact KeepsO.next (runRow_keeps _ _ _ k4 (m.sub rfl))

theorem execRegRead_keeps (a0 : RingId) (a1 : CmdHdr) (a2 : Word) {a3 : State} (k3 : Keeps d L s0 a3) (m : May 0x3fffffff L) : KeepsO d L s0 (execRegRead a0 a1 a2 a3) := by
  unfold execRegRead
  exact KeepsO.next (runRow_keeps _ _ _ k3 (m.sub rfl))

theorem execRegWrite_keeps (a0 : RingId) (a1 : CmdHdr) (a2 : Word) (a3 : Word) {a4 : State} (k4 : Keeps d L s0 a4) (m : May 0x3fffffff L) :
    KeepsO d L s0 (execRegWrite a0 a1 a2 a3 a4) := by
  unfold execRegWrite
  exact KeepsO.next (runRow_keeps _ _ _ k4 (m.sub rfl))

theorem execSstepGo_keeps {a0 : State} (k0 : Keeps d L s0 a0) (m : May 0x3fffffff L) : KeepsO d L s0 (execSstepGo a0) := by
  unfold execSstepGo
  exact KeepsO.next (Keeps.ite (sstepGo_keeps k0 (m.sub rfl)) k0)

/-! ## Access -/

theorem busRead_keeps (a0 : Path) (a1 : Nat) {a2 : State} (k2 : Keeps d L s0 a2) (m : May 0x120dffc3 L) : Keeps d L s0 (busRead a0 a1 a2).2.2 := by
  unfold busRead
  split
  · exact regRead_keeps _ _ k2 (m.sub rfl)
  · exact k2

theorem busWrite_keeps (a0 : Path) (a1 : Nat) (a2 : Word) {a3 : State} (k3 : Keeps d L s0 a3) (m : May 0x3fffffff L) : Keeps d L s0 (busWrite a0 a1 a2 a3).2 := by
  unfold busWrite
  split
  · split
    · rename_i y0 y1 e2
      have h3 : Keeps d L s0 y1 := Keeps.snd_eq e2 (regWrite_keeps _ _ _ k3 (m.sub rfl))
      dsimp only
      exact iff_keeps _ (fun _ h4 => sstepGo_keeps h4 (m.sub rfl)) h3
    · exact regWrite_keeps _ _ _ k3 (m.sub rfl)
  · exact k3

theorem execRegisterWrite_keeps (a0 : Path) (a1 : Off) (a2 : Word) {a3 : State} (k3 : Keeps d L s0 a3) (m : May 0x3fffffff L) :
    KeepsO d L s0 (execRegisterWrite a0 a1 a2 a3) := by
  unfold execRegisterWrite
  exact KeepsO.next (Keeps.ite (busWrite_keeps _ _ _ k3 (m.sub rfl)) k3)

theorem execRcCounterRead_keeps (a0 : Path) (a1 : Off) (a2 : Word) {a3 : State} (k3 : Keeps d L s0 a3) (m : May 0x120dffc3 L) :
    KeepsO d L s0 (execRcCounterRead a0 a1 a2 a3) := by
  unfold execRcCounterRead
  refine KeepsO.next ?_
  refine Keeps.ite k3 ?_
  refine Keeps.ite (emit_keeps _ (cmdCnt_keeps _ _ k3 (m.sub rfl)) (m.sub rfl)) ?_
  split
  · rename_i y0 _ _ y1 e2
    have h3 : Keeps d L s0 y1 := Keeps.trd_eq e2 (regReadUpd_keeps _ _ _ k3 (m.sub rfl))
    exact emit_keeps _ h3 (m.sub rfl)

theorem setCfg_keeps (a0 : Nat) (a1 : Word) {a2 : State} (k2 : Keeps d L s0 a2) (m : May 0x400 L) : Keeps d L s0 (setCfg a0 a1 a2) := by
  unfold setCfg
  exact modCmd_keeps _ k2 (m.sub rfl)

theorem cfgWrite_keeps (a0 : Nat) (a1 : Word) {a2 : State} (k2 : Keeps d L s0 a2) (m : May 0x31fb6c81 L) : Keeps d L s0 (cfgWrite a0 a1 a2) := by
  unfold cfgWrite
  split
  · extract_lets z0
    have h1 : Keeps d L s0 z0 := by unfold z0; exact setCfg_keeps _ _ k2 (m.sub rfl)
    clear_value z0
    exact Keeps.ite (setBme_keeps h1 (m.sub rfl)) (clearBme_keeps h1 (m.sub rfl))
  · exact setCfg_keeps _ _ k2 (m.sub rfl)
  · exact setCfg_keeps _ _ k2 (m.sub rfl)
  · exact setCfg_keeps _ _ k2 (m.sub rfl)
  · exact setCfg_keeps _ _ k2 (m.sub rfl)
  · exact setCfg_keeps _ _ k2 (m.sub rfl)
  · exact setCfg_keeps _ _ k2 (m.sub rfl)
  · exact k2

theorem execPcieConfigRequest_keeps (a0 : MbId) (a1 : Bool) (a2 : BitVec 12) (a3 : Word) {a4 : State} (k4 : Keeps d L s0 a4) (m : May 0x31fb6c83 L) :
    KeepsO d L s0 (execPcieConfigRequest a0 a1 a2 a3 a4) := by
  unfold execPcieConfigRequest
  extract_lets z0
  clear_value z0
  refine KeepsO.next ?_
  refine Keeps.ite k4 ?_
  refine Keeps.ite (emit_keeps _ k4 (m.sub rfl)) ?_
  refine Keeps.ite (emit_keeps _ (cfgWrite_keeps _ _ k4 (m.sub rfl)) (m.sub rfl)) ?_
  split
  · exact emit_keeps _ k4 (m.sub rfl)
  · split
    · rename_i y1 _ y2 e3
      have h4 : Keeps d L s0 y2 := Keeps.snd_eq e3 (draw_keeps k4 (m.sub rfl))
      exact emit_keeps _ h4 (m.sub rfl)

theorem msixPut_keeps (a0 : Nat) (a1 : Word) {a2 : State} (k2 : Keeps d L s0 a2) (m : May 0x401 L) : Keeps d L s0 (msixPut a0 a1 a2) := by
  unfold msixPut
  extract_lets z0
  clear_value z0
  exact raisePending_keeps (modCmd_keeps _ k2 (m.sub rfl)) (m.sub rfl)

theorem bar2Write_keeps (a0 : Nat) (a1 : Word) {a2 : State} (k2 : Keeps d L s0 a2) (m : May 0x3ffbfc83 L) : Keeps d L s0 (bar2Write a0 a1 a2) := by
  unfold bar2Write
  extract_lets z0
  clear_value z0
  refine Keeps.ite ?_ (Keeps.ite (msixPut_keeps _ _ k2 (m.sub rfl)) k2)
  split
  · exact modRing_keeps _ _ k2 (m.sub rfl)
  · exact postAll_keeps (modRing_keeps _ _ k2 (m.sub rfl)) (m.sub rfl)
  · exact abortTag_keeps _ _ k2 (m.sub rfl)
  · exact k2

theorem dwordRead_keeps (a0 : Bar) (a1 : Nat) (a2 : Dword) {a3 : State} (k3 : Keeps d L s0 a3) (m : May 0x120dffc3 L) : Keeps d L s0 (dwordRead a0 a1 a2 a3).2 := by
  unfold dwordRead
  split
  · split
    · split
      · rename_i y0 _ _ y1 e2
        have h3 : Keeps d L s0 y1 := Keeps.trd_eq e2 (busRead_keeps _ _ k3 (m.sub rfl))
        exact h3
    · dsimp only
      exact iff_keeps _ (fun _ h4 => cmdCnt_keeps _ _ h4 (m.sub rfl)) k3
  · exact k3

theorem dwordWrite_keeps (a0 : Bar) (a1 : Nat) (a2 : Dword) {a3 : State} (k3 : Keeps d L s0 a3) (m : May 0x3fffffff L) : Keeps d L s0 (dwordWrite a0 a1 a2 a3) := by
  unfold dwordWrite
  split
  · exact Keeps.ite (busWrite_keeps _ _ _ k3 (m.sub rfl)) (iff_keeps _ (fun _ h0 => cmdCnt_keeps _ _ h0 (m.sub rfl)) k3)
  · exact Keeps.ite (bar2Write_keeps _ _ k3 (m.sub rfl)) k3

theorem dwordsRead_keeps (bar : Bar) (off : Nat) (l : List Dword) {s : State} (h : Keeps d L s0 s) (m : May 0x120dffc3 L) :
    Keeps d L s0 (dwordsRead bar off l s).2 := by
  induction l generalizing off s with
  | nil => exact h
  | cons a r ih => exact ih (off + 4) (dwordRead_keeps bar off a h (m.sub rfl))

theorem dwordsWrite_keeps (bar : Bar) (off : Nat) (l : List Dword) {s : State} (h : Keeps d L s0 s) (m : May 0x3fffffff L) :
    Keeps d L s0 (dwordsWrite bar off l s) := by
  induction l generalizing off s with
  | nil => exact h
  | cons a r ih => exact ih (off + 4) (dwordWrite_keeps bar off a h (m.sub rfl))

theorem execPcieMemoryRequest_keeps (a0 : MbId) (a1 : Bar) (a2 : Bool) (a3 : Off) (a4 : List Dword) {a5 : State} (k5 : Keeps d L s0 a5) (m : May 0x3fffffff L) :
    KeepsO d L s0 (execPcieMemoryRequest a0 a1 a2 a3 a4 a5) := by
  unfold execPcieMemoryRequest
  extract_lets z0
  clear_value z0
  refine KeepsO.next ?_
  refine Keeps.ite k5 ?_
  refine Keeps.ite (emit_keeps _ k5 (m.sub rfl)) ?_
  refine Keeps.ite (dwordsWrite_keeps _ _ _ k5 (m.sub rfl)) ?_
  split
  · rename_i y1 _ y2 e3
    have h4 : Keeps d L s0 y2 := Keeps.snd_eq e3 (dwordsRead_keeps _ _ _ k5 (m.sub rfl))
    exact emit_keeps _ h4 (m.sub rfl)

theorem smbNote_keeps (a0 : Reach) {a1 : State} (k1 : Keeps d L s0 a1) (m : May 0x400 L) : Keeps d L s0 (smbNote a0 a1) := by
  unfold smbNote
  exact modCmd_keeps _ k1 (m.sub rfl)

theorem execSetAddr_keeps (a0 : BitVec 7) (a1 : Word) (a2 : Bool) {a3 : State} (k3 : Keeps d L s0 a3) (m : May 0x401 L) : KeepsO d L s0 (execSetAddr a0 a1 a2 a3) := by
  unfold execSetAddr
  exact KeepsO.next (Keeps.ite k3 (Keeps.ite (emit_keeps _ k3 (m.sub rfl)) (emit_keeps _ (modCmd_keeps _ k3 (m.sub rfl)) (m.sub rfl))))

theorem execRead_keeps (a0 : BitVec 7) (a1 : Bool) {a2 : State} (k2 : Keeps d L s0 a2) (m : May 0x120dffc3 L) : KeepsO d L s0 (execRead a0 a1 a2) := by
  unfold execRead
  refine KeepsO.next ?_
  refine Keeps.ite k2 ?_
  refine Keeps.ite (emit_keeps _ k2 (m.sub rfl)) ?_
  split
  · rename_i y0 _ _ y1 e2
    have h3 : Keeps d L s0 y1 := Keeps.trd_eq e2 (busRead_keeps _ _ k2 (m.sub rfl))
    exact emit_keeps _ (smbNote_keeps _ h3 (m.sub rfl)) (m.sub rfl)

theorem execWrite_keeps (a0 : BitVec 7) (a1 : Word) (a2 : Bool) {a3 : State} (k3 : Keeps d L s0 a3) (m : May 0x3fffffff L) : KeepsO d L s0 (execWrite a0 a1 a2 a3) := by
  unfold execWrite
  refine KeepsO.next ?_
  refine Keeps.ite k3 ?_
  refine Keeps.ite (emit_keeps _ k3 (m.sub rfl)) ?_
  split
  · rename_i y0 _ y1 e2
    have h3 : Keeps d L s0 y1 := Keeps.snd_eq e2 (busWrite_keeps _ _ _ k3 (m.sub rfl))
    exact emit_keeps _ (smbNote_keeps _ h3 (m.sub rfl)) (m.sub rfl)

theorem execStatus_keeps (a0 : BitVec 7) (a1 : Bool) {a2 : State} (k2 : Keeps d L s0 a2) (m : May 0x1 L) : KeepsO d L s0 (execStatus a0 a1 a2) := by
  unfold execStatus
  exact KeepsO.next (Keeps.ite k2 (Keeps.ite (emit_keeps _ k2 (m.sub rfl)) (emit_keeps _ k2 (m.sub rfl))))

theorem execCommand_keeps (a0 : Ident) (a1 : BitVec 512) {a2 : State} (k2 : Keeps d L s0 a2) (m : May 0x400 L) : KeepsO d L s0 (execCommand a0 a1 a2) := by
  unfold execCommand
  exact KeepsO.next (Keeps.ite (modRing_keeps _ _ k2 (m.sub rfl)) k2)

theorem takeCompletion_keeps (a0 : BitVec 128) {a1 : State} (k1 : Keeps d L s0 a1) (m : May 0x37fb7c81 L) : Keeps d L s0 (takeCompletion a0 a1) := by
  unfold takeCompletion
  split
  · exact k1
  · exact endCmd_keeps _ _ _ (modCur_keeps _ _ k1 (m.sub rfl)) (m.sub rfl)

theorem execCompletion_keeps (a0 : BitVec 128) {a1 : State} (k1 : Keeps d L s0 a1) (m : May 0x37fb7c81 L) : KeepsO d L s0 (execCompletion a0 a1) := by
  unfold execCompletion
  exact KeepsO.next (Keeps.ite (takeCompletion_keeps _ k1 (m.sub rfl)) k1)

theorem newNonce_keeps {a0 : State} (k0 : Keeps d L s0 a0) (m : May 0x402 L) : Keeps d L s0 (newNonce a0) := by
  unfold newNonce
  split
  · rename_i y0 _ y1 e2
    have h3 : Keeps d L s0 y1 := Keeps.snd_eq e2 (draw_keeps k0 (m.sub rfl))
    split
    · rename_i y4 _ y5 e6
      have h7 : Keeps d L s0 y5 := Keeps.snd_eq e6 (draw_keeps h3 (m.sub rfl))
      exact modCmd_keeps _ h7 (m.sub rfl)

theorem execUnlock_keeps (a0 : Byte) (a1 : BitVec 768) {a2 : State} (k2 : Keeps d L s0 a2) (m : May 0x2583 L) : KeepsO d L s0 (execUnlock a0 a1 a2) := by
  unfold execUnlock
  refine KeepsO.next ?_
  refine Keeps.ite k2 ?_
  split
  · exact k2
  · exact Keeps.ite (logMb_keeps _ _ (modCmd_keeps _ k2 (m.sub rfl)) (m.sub rfl)) (logMb_keeps _ _ (newNonce_keeps k2 (m.sub rfl)) (m.sub rfl))

theorem execBypass_keeps {a0 : State} (k0 : Keeps d L s0 a0) (m : May 0x400 L) : KeepsO d L s0 (execBypass a0) := by
  unfold execBypass
  exact KeepsO.next (Keeps.ite (modCmd_keeps _ k0 (m.sub rfl)) k0)

theorem execIdcode_keeps {a0 : State} (k0 : Keeps d L s0 a0) (m : May 0x401 L) : KeepsO d L s0 (execIdcode a0) := by
  unfold execIdcode
  exact KeepsO.next (Keeps.ite (emit_keeps _ (modCmd_keeps _ k0 (m.sub rfl)) (m.sub rfl)) k0)

theorem execIeee1149Instruction_keeps (a0 : BitVec 16) {a1 : State} (k1 : Keeps d L s0 a1) (m : May 0x400 L) : KeepsO d L s0 (execIeee1149Instruction a0 a1) := by
  unfold execIeee1149Instruction
  exact KeepsO.next (Keeps.ite (modCmd_keeps _ k1 (m.sub rfl)) k1)

end Sys2Proof.Machine
end

