-- ==== Sys2Proof/Laws/State.lean ====
section
/-! SUPPORT. What each update of State does to each field: one lemma per field per update, all true by rfl. -/

namespace Sys2Proof.Machine

/-! ## modPort -/

@[simp] theorem modPort_pending (p : Nat) (f : PortSt → PortSt) (s : State) : (modPort p f s).pending = s.pending := rfl
@[simp] theorem modPort_clock (p : Nat) (f : PortSt → PortSt) (s : State) : (modPort p f s).clock = s.clock := rfl
@[simp] theorem modPort_free (p : Nat) (f : PortSt → PortSt) (s : State) : (modPort p f s).free = s.free := rfl
@[simp] theorem modPort_out (p : Nat) (f : PortSt → PortSt) (s : State) : (modPort p f s).out = s.out := rfl
@[simp] theorem modPort_fuses (p : Nat) (f : PortSt → PortSt) (s : State) : (modPort p f s).fuses = s.fuses := rfl
@[simp] theorem modPort_rst (p : Nat) (f : PortSt → PortSt) (s : State) : (modPort p f s).rst = s.rst := rfl
@[simp] theorem modPort_gctl (p : Nat) (f : PortSt → PortSt) (s : State) : (modPort p f s).gctl = s.gctl := rfl
@[simp] theorem modPort_img (p : Nat) (f : PortSt → PortSt) (s : State) : (modPort p f s).img = s.img := rfl
@[simp] theorem modPort_units (p : Nat) (f : PortSt → PortSt) (s : State) : (modPort p f s).units = s.units := rfl
@[simp] theorem modPort_pwr (p : Nat) (f : PortSt → PortSt) (s : State) : (modPort p f s).pwr = s.pwr := rfl
@[simp] theorem modPort_flt (p : Nat) (f : PortSt → PortSt) (s : State) : (modPort p f s).flt = s.flt := rfl
@[simp] theorem modPort_evr (p : Nat) (f : PortSt → PortSt) (s : State) : (modPort p f s).evr = s.evr := rfl
@[simp] theorem modPort_tim (p : Nat) (f : PortSt → PortSt) (s : State) : (modPort p f s).tim = s.tim := rfl
@[simp] theorem modPort_cmd (p : Nat) (f : PortSt → PortSt) (s : State) : (modPort p f s).cmd = s.cmd := rfl
@[simp] theorem modPort_dma (p : Nat) (f : PortSt → PortSt) (s : State) : (modPort p f s).dma = s.dma := rfl
@[simp] theorem modPort_bpm (p : Nat) (f : PortSt → PortSt) (s : State) : (modPort p f s).bpm = s.bpm := rfl
@[simp] theorem modPort_dbg (p : Nat) (f : PortSt → PortSt) (s : State) : (modPort p f s).dbg = s.dbg := rfl
@[simp] theorem modPort_route (p : Nat) (f : PortSt → PortSt) (s : State) : (modPort p f s).route = s.route := rfl
@[simp] theorem modPort_ports (p : Nat) (f : PortSt → PortSt) (s : State) : (modPort p f s).ports = tmod {} s.ports p f := rfl
@[simp] theorem modPort_strands (p : Nat) (f : PortSt → PortSt) (s : State) : (modPort p f s).strands = s.strands := rfl
@[simp] theorem modPort_links (p : Nat) (f : PortSt → PortSt) (s : State) : (modPort p f s).links = s.links := rfl
@[simp] theorem modPort_opt (p : Nat) (f : PortSt → PortSt) (s : State) : (modPort p f s).opt = s.opt := rfl
@[simp] theorem modPort_swc (p : Nat) (f : PortSt → PortSt) (s : State) : (modPort p f s).swc = s.swc := rfl
@[simp] theorem modPort_queues (p : Nat) (f : PortSt → PortSt) (s : State) : (modPort p f s).queues = s.queues := rfl
@[simp] theorem modPort_scheds (p : Nat) (f : PortSt → PortSt) (s : State) : (modPort p f s).scheds = s.scheds := rfl
@[simp] theorem modPort_pkts (p : Nat) (f : PortSt → PortSt) (s : State) : (modPort p f s).pkts = s.pkts := rfl
@[simp] theorem modPort_nextPid (p : Nat) (f : PortSt → PortSt) (s : State) : (modPort p f s).nextPid = s.nextPid := rfl
@[simp] theorem modPort_staging (p : Nat) (f : PortSt → PortSt) (s : State) : (modPort p f s).staging = s.staging := rfl
@[simp] theorem modPort_red (p : Nat) (f : PortSt → PortSt) (s : State) : (modPort p f s).red = s.red := rfl
@[simp] theorem modPort_ctxs (p : Nat) (f : PortSt → PortSt) (s : State) : (modPort p f s).ctxs = s.ctxs := rfl
@[simp] theorem modPort_mgr (p : Nat) (f : PortSt → PortSt) (s : State) : (modPort p f s).mgr = s.mgr := rfl
@[simp] theorem modPort_stackTbl (p : Nat) (f : PortSt → PortSt) (s : State) : (modPort p f s).stackTbl = s.stackTbl := rfl
@[simp] theorem modPort_mem (p : Nat) (f : PortSt → PortSt) (s : State) : (modPort p f s).mem = s.mem := rfl

/-! ## modStrand -/

@[simp] theorem modStrand_pending (p : Nat) (f : StrandSt → StrandSt) (s : State) : (modStrand p f s).pending = s.pending := rfl
@[simp] theorem modStrand_clock (p : Nat) (f : StrandSt → StrandSt) (s : State) : (modStrand p f s).clock = s.clock := rfl
@[simp] theorem modStrand_free (p : Nat) (f : StrandSt → StrandSt) (s : State) : (modStrand p f s).free = s.free := rfl
@[simp] theorem modStrand_out (p : Nat) (f : StrandSt → StrandSt) (s : State) : (modStrand p f s).out = s.out := rfl
@[simp] theorem modStrand_fuses (p : Nat) (f : StrandSt → StrandSt) (s : State) : (modStrand p f s).fuses = s.fuses := rfl
@[simp] theorem modStrand_rst (p : Nat) (f : StrandSt → StrandSt) (s : State) : (modStrand p f s).rst = s.rst := rfl
@[simp] theorem modStrand_gctl (p : Nat) (f : StrandSt → StrandSt) (s : State) : (modStrand p f s).gctl = s.gctl := rfl
@[simp] theorem modStrand_img (p : Nat) (f : StrandSt → StrandSt) (s : State) : (modStrand p f s).img = s.img := rfl
@[simp] theorem modStrand_units (p : Nat) (f : StrandSt → StrandSt) (s : State) : (modStrand p f s).units = s.units := rfl
@[simp] theorem modStrand_pwr (p : Nat) (f : StrandSt → StrandSt) (s : State) : (modStrand p f s).pwr = s.pwr := rfl
@[simp] theorem modStrand_flt (p : Nat) (f : StrandSt → StrandSt) (s : State) : (modStrand p f s).flt = s.flt := rfl
@[simp] theorem modStrand_evr (p : Nat) (f : StrandSt → StrandSt) (s : State) : (modStrand p f s).evr = s.evr := rfl
@[simp] theorem modStrand_tim (p : Nat) (f : StrandSt → StrandSt) (s : State) : (modStrand p f s).tim = s.tim := rfl
@[simp] theorem modStrand_cmd (p : Nat) (f : StrandSt → StrandSt) (s : State) : (modStrand p f s).cmd = s.cmd := rfl
@[simp] theorem modStrand_dma (p : Nat) (f : StrandSt → StrandSt) (s : State) : (modStrand p f s).dma = s.dma := rfl
@[simp] theorem modStrand_bpm (p : Nat) (f : StrandSt → StrandSt) (s : State) : (modStrand p f s).bpm = s.bpm := rfl
@[simp] theorem modStrand_dbg (p : Nat) (f : StrandSt → StrandSt) (s : State) : (modStrand p f s).dbg = s.dbg := rfl
@[simp] theorem modStrand_route (p : Nat) (f : StrandSt → StrandSt) (s : State) : (modStrand p f s).route = s.route := rfl
@[simp] theorem modStrand_ports (p : Nat) (f : StrandSt → StrandSt) (s : State) : (modStrand p f s).ports = s.ports := rfl
@[simp] theorem modStrand_strands (p : Nat) (f : StrandSt → StrandSt) (s : State) : (modStrand p f s).strands = tmod {} s.strands p f := rfl
@[simp] theorem modStrand_links (p : Nat) (f : StrandSt → StrandSt) (s : State) : (modStrand p f s).links = s.links := rfl
@[simp] theorem modStrand_opt (p : Nat) (f : StrandSt → StrandSt) (s : State) : (modStrand p f s).opt = s.opt := rfl
@[simp] theorem modStrand_swc (p : Nat) (f : StrandSt → StrandSt) (s : State) : (modStrand p f s).swc = s.swc := rfl
@[simp] theorem modStrand_queues (p : Nat) (f : StrandSt → StrandSt) (s : State) : (modStrand p f s).queues = s.queues := rfl
@[simp] theorem modStrand_scheds (p : Nat) (f : StrandSt → StrandSt) (s : State) : (modStrand p f s).scheds = s.scheds := rfl
@[simp] theorem modStrand_pkts (p : Nat) (f : StrandSt → StrandSt) (s : State) : (modStrand p f s).pkts = s.pkts := rfl
@[simp] theorem modStrand_nextPid (p : Nat) (f : StrandSt → StrandSt) (s : State) : (modStrand p f s).nextPid = s.nextPid := rfl
@[simp] theorem modStrand_staging (p : Nat) (f : StrandSt → StrandSt) (s : State) : (modStrand p f s).staging = s.staging := rfl
@[simp] theorem modStrand_red (p : Nat) (f : StrandSt → StrandSt) (s : State) : (modStrand p f s).red = s.red := rfl
@[simp] theorem modStrand_ctxs (p : Nat) (f : StrandSt → StrandSt) (s : State) : (modStrand p f s).ctxs = s.ctxs := rfl
@[simp] theorem modStrand_mgr (p : Nat) (f : StrandSt → StrandSt) (s : State) : (modStrand p f s).mgr = s.mgr := rfl
@[simp] theorem modStrand_stackTbl (p : Nat) (f : StrandSt → StrandSt) (s : State) : (modStrand p f s).stackTbl = s.stackTbl := rfl
@[simp] theorem modStrand_mem (p : Nat) (f : StrandSt → StrandSt) (s : State) : (modStrand p f s).mem = s.mem := rfl

/-! ## modLink -/

@[simp] theorem modLink_pending (p : Nat) (f : SubLink → SubLink) (s : State) : (modLink p f s).pending = s.pending := rfl
@[simp] theorem modLink_clock (p : Nat) (f : SubLink → SubLink) (s : State) : (modLink p f s).clock = s.clock := rfl
@[simp] theorem modLink_free (p : Nat) (f : SubLink → SubLink) (s : State) : (modLink p f s).free = s.free := rfl
@[simp] theorem modLink_out (p : Nat) (f : SubLink → SubLink) (s : State) : (modLink p f s).out = s.out := rfl
@[simp] theorem modLink_fuses (p : Nat) (f : SubLink → SubLink) (s : State) : (modLink p f s).fuses = s.fuses := rfl
@[simp] theorem modLink_rst (p : Nat) (f : SubLink → SubLink) (s : State) : (modLink p f s).rst = s.rst := rfl
@[simp] theorem modLink_gctl (p : Nat) (f : SubLink → SubLink) (s : State) : (modLink p f s).gctl = s.gctl := rfl
@[simp] theorem modLink_img (p : Nat) (f : SubLink → SubLink) (s : State) : (modLink p f s).img = s.img := rfl
@[simp] theorem modLink_units (p : Nat) (f : SubLink → SubLink) (s : State) : (modLink p f s).units = s.units := rfl
@[simp] theorem modLink_pwr (p : Nat) (f : SubLink → SubLink) (s : State) : (modLink p f s).pwr = s.pwr := rfl
@[simp] theorem modLink_flt (p : Nat) (f : SubLink → SubLink) (s : State) : (modLink p f s).flt = s.flt := rfl
@[simp] theorem modLink_evr (p : Nat) (f : SubLink → SubLink) (s : State) : (modLink p f s).evr = s.evr := rfl
@[simp] theorem modLink_tim (p : Nat) (f : SubLink → SubLink) (s : State) : (modLink p f s).tim = s.tim := rfl
@[simp] theorem modLink_cmd (p : Nat) (f : SubLink → SubLink) (s : State) : (modLink p f s).cmd = s.cmd := rfl
@[simp] theorem modLink_dma (p : Nat) (f : SubLink → SubLink) (s : State) : (modLink p f s).dma = s.dma := rfl
@[simp] theorem modLink_bpm (p : Nat) (f : SubLink → SubLink) (s : State) : (modLink p f s).bpm = s.bpm := rfl
@[simp] theorem modLink_dbg (p : Nat) (f : SubLink → SubLink) (s : State) : (modLink p f s).dbg = s.dbg := rfl
@[simp] theorem modLink_route (p : Nat) (f : SubLink → SubLink) (s : State) : (modLink p f s).route = s.route := rfl
@[simp] theorem modLink_ports (p : Nat) (f : SubLink → SubLink) (s : State) : (modLink p f s).ports = s.ports := rfl
@[simp] theorem modLink_strands (p : Nat) (f : SubLink → SubLink) (s : State) : (modLink p f s).strands = s.strands := rfl
@[simp] theorem modLink_links (p : Nat) (f : SubLink → SubLink) (s : State) : (modLink p f s).links = tmod {} s.links p f := rfl
@[simp] theorem modLink_opt (p : Nat) (f : SubLink → SubLink) (s : State) : (modLink p f s).opt = s.opt := rfl
@[simp] theorem modLink_swc (p : Nat) (f : SubLink → SubLink) (s : State) : (modLink p f s).swc = s.swc := rfl
@[simp] theorem modLink_queues (p : Nat) (f : SubLink → SubLink) (s : State) : (modLink p f s).queues = s.queues := rfl
@[simp] theorem modLink_scheds (p : Nat) (f : SubLink → SubLink) (s : State) : (modLink p f s).scheds = s.scheds := rfl
@[simp] theorem modLink_pkts (p : Nat) (f : SubLink → SubLink) (s : State) : (modLink p f s).pkts = s.pkts := rfl
@[simp] theorem modLink_nextPid (p : Nat) (f : SubLink → SubLink) (s : State) : (modLink p f s).nextPid = s.nextPid := rfl
@[simp] theorem modLink_staging (p : Nat) (f : SubLink → SubLink) (s : State) : (modLink p f s).staging = s.staging := rfl
@[simp] theorem modLink_red (p : Nat) (f : SubLink → SubLink) (s : State) : (modLink p f s).red = s.red := rfl
@[simp] theorem modLink_ctxs (p : Nat) (f : SubLink → SubLink) (s : State) : (modLink p f s).ctxs = s.ctxs := rfl
@[simp] theorem modLink_mgr (p : Nat) (f : SubLink → SubLink) (s : State) : (modLink p f s).mgr = s.mgr := rfl
@[simp] theorem modLink_stackTbl (p : Nat) (f : SubLink → SubLink) (s : State) : (modLink p f s).stackTbl = s.stackTbl := rfl
@[simp] theorem modLink_mem (p : Nat) (f : SubLink → SubLink) (s : State) : (modLink p f s).mem = s.mem := rfl

/-! ## modOpt -/

@[simp] theorem modOpt_pending (p : Nat) (f : OptSt → OptSt) (s : State) : (modOpt p f s).pending = s.pending := rfl
@[simp] theorem modOpt_clock (p : Nat) (f : OptSt → OptSt) (s : State) : (modOpt p f s).clock = s.clock := rfl
@[simp] theorem modOpt_free (p : Nat) (f : OptSt → OptSt) (s : State) : (modOpt p f s).free = s.free := rfl
@[simp] theorem modOpt_out (p : Nat) (f : OptSt → OptSt) (s : State) : (modOpt p f s).out = s.out := rfl
@[simp] theorem modOpt_fuses (p : Nat) (f : OptSt → OptSt) (s : State) : (modOpt p f s).fuses = s.fuses := rfl
@[simp] theorem modOpt_rst (p : Nat) (f : OptSt → OptSt) (s : State) : (modOpt p f s).rst = s.rst := rfl
@[simp] theorem modOpt_gctl (p : Nat) (f : OptSt → OptSt) (s : State) : (modOpt p f s).gctl = s.gctl := rfl
@[simp] theorem modOpt_img (p : Nat) (f : OptSt → OptSt) (s : State) : (modOpt p f s).img = s.img := rfl
@[simp] theorem modOpt_units (p : Nat) (f : OptSt → OptSt) (s : State) : (modOpt p f s).units = s.units := rfl
@[simp] theorem modOpt_pwr (p : Nat) (f : OptSt → OptSt) (s : State) : (modOpt p f s).pwr = s.pwr := rfl
@[simp] theorem modOpt_flt (p : Nat) (f : OptSt → OptSt) (s : State) : (modOpt p f s).flt = s.flt := rfl
@[simp] theorem modOpt_evr (p : Nat) (f : OptSt → OptSt) (s : State) : (modOpt p f s).evr = s.evr := rfl
@[simp] theorem modOpt_tim (p : Nat) (f : OptSt → OptSt) (s : State) : (modOpt p f s).tim = s.tim := rfl
@[simp] theorem modOpt_cmd (p : Nat) (f : OptSt → OptSt) (s : State) : (modOpt p f s).cmd = s.cmd := rfl
@[simp] theorem modOpt_dma (p : Nat) (f : OptSt → OptSt) (s : State) : (modOpt p f s).dma = s.dma := rfl
@[simp] theorem modOpt_bpm (p : Nat) (f : OptSt → OptSt) (s : State) : (modOpt p f s).bpm = s.bpm := rfl
@[simp] theorem modOpt_dbg (p : Nat) (f : OptSt → OptSt) (s : State) : (modOpt p f s).dbg = s.dbg := rfl
@[simp] theorem modOpt_route (p : Nat) (f : OptSt → OptSt) (s : State) : (modOpt p f s).route = s.route := rfl
@[simp] theorem modOpt_ports (p : Nat) (f : OptSt → OptSt) (s : State) : (modOpt p f s).ports = s.ports := rfl
@[simp] theorem modOpt_strands (p : Nat) (f : OptSt → OptSt) (s : State) : (modOpt p f s).strands = s.strands := rfl
@[simp] theorem modOpt_links (p : Nat) (f : OptSt → OptSt) (s : State) : (modOpt p f s).links = s.links := rfl
@[simp] theorem modOpt_opt (p : Nat) (f : OptSt → OptSt) (s : State) : (modOpt p f s).opt = tmod {} s.opt p f := rfl
@[simp] theorem modOpt_swc (p : Nat) (f : OptSt → OptSt) (s : State) : (modOpt p f s).swc = s.swc := rfl
@[simp] theorem modOpt_queues (p : Nat) (f : OptSt → OptSt) (s : State) : (modOpt p f s).queues = s.queues := rfl
@[simp] theorem modOpt_scheds (p : Nat) (f : OptSt → OptSt) (s : State) : (modOpt p f s).scheds = s.scheds := rfl
@[simp] theorem modOpt_pkts (p : Nat) (f : OptSt → OptSt) (s : State) : (modOpt p f s).pkts = s.pkts := rfl
@[simp] theorem modOpt_nextPid (p : Nat) (f : OptSt → OptSt) (s : State) : (modOpt p f s).nextPid = s.nextPid := rfl
@[simp] theorem modOpt_staging (p : Nat) (f : OptSt → OptSt) (s : State) : (modOpt p f s).staging = s.staging := rfl
@[simp] theorem modOpt_red (p : Nat) (f : OptSt → OptSt) (s : State) : (modOpt p f s).red = s.red := rfl
@[simp] theorem modOpt_ctxs (p : Nat) (f : OptSt → OptSt) (s : State) : (modOpt p f s).ctxs = s.ctxs := rfl
@[simp] theorem modOpt_mgr (p : Nat) (f : OptSt → OptSt) (s : State) : (modOpt p f s).mgr = s.mgr := rfl
@[simp] theorem modOpt_stackTbl (p : Nat) (f : OptSt → OptSt) (s : State) : (modOpt p f s).stackTbl = s.stackTbl := rfl
@[simp] theorem modOpt_mem (p : Nat) (f : OptSt → OptSt) (s : State) : (modOpt p f s).mem = s.mem := rfl

/-! ## modSwc -/

@[simp] theorem modSwc_pending (p : Nat) (f : SwcSt → SwcSt) (s : State) : (modSwc p f s).pending = s.pending := rfl
@[simp] theorem modSwc_clock (p : Nat) (f : SwcSt → SwcSt) (s : State) : (modSwc p f s).clock = s.clock := rfl
@[simp] theorem modSwc_free (p : Nat) (f : SwcSt → SwcSt) (s : State) : (modSwc p f s).free = s.free := rfl
@[simp] theorem modSwc_out (p : Nat) (f : SwcSt → SwcSt) (s : State) : (modSwc p f s).out = s.out := rfl
@[simp] theorem modSwc_fuses (p : Nat) (f : SwcSt → SwcSt) (s : State) : (modSwc p f s).fuses = s.fuses := rfl
@[simp] theorem modSwc_rst (p : Nat) (f : SwcSt → SwcSt) (s : State) : (modSwc p f s).rst = s.rst := rfl
@[simp] theorem modSwc_gctl (p : Nat) (f : SwcSt → SwcSt) (s : State) : (modSwc p f s).gctl = s.gctl := rfl
@[simp] theorem modSwc_img (p : Nat) (f : SwcSt → SwcSt) (s : State) : (modSwc p f s).img = s.img := rfl
@[simp] theorem modSwc_units (p : Nat) (f : SwcSt → SwcSt) (s : State) : (modSwc p f s).units = s.units := rfl
@[simp] theorem modSwc_pwr (p : Nat) (f : SwcSt → SwcSt) (s : State) : (modSwc p f s).pwr = s.pwr := rfl
@[simp] theorem modSwc_flt (p : Nat) (f : SwcSt → SwcSt) (s : State) : (modSwc p f s).flt = s.flt := rfl
@[simp] theorem modSwc_evr (p : Nat) (f : SwcSt → SwcSt) (s : State) : (modSwc p f s).evr = s.evr := rfl
@[simp] theorem modSwc_tim (p : Nat) (f : SwcSt → SwcSt) (s : State) : (modSwc p f s).tim = s.tim := rfl
@[simp] theorem modSwc_cmd (p : Nat) (f : SwcSt → SwcSt) (s : State) : (modSwc p f s).cmd = s.cmd := rfl
@[simp] theorem modSwc_dma (p : Nat) (f : SwcSt → SwcSt) (s : State) : (modSwc p f s).dma = s.dma := rfl
@[simp] theorem modSwc_bpm (p : Nat) (f : SwcSt → SwcSt) (s : State) : (modSwc p f s).bpm = s.bpm := rfl
@[simp] theorem modSwc_dbg (p : Nat) (f : SwcSt → SwcSt) (s : State) : (modSwc p f s).dbg = s.dbg := rfl
@[simp] theorem modSwc_route (p : Nat) (f : SwcSt → SwcSt) (s : State) : (modSwc p f s).route = s.route := rfl
@[simp] theorem modSwc_ports (p : Nat) (f : SwcSt → SwcSt) (s : State) : (modSwc p f s).ports = s.ports := rfl
@[simp] theorem modSwc_strands (p : Nat) (f : SwcSt → SwcSt) (s : State) : (modSwc p f s).strands = s.strands := rfl
@[simp] theorem modSwc_links (p : Nat) (f : SwcSt → SwcSt) (s : State) : (modSwc p f s).links = s.links := rfl
@[simp] theorem modSwc_opt (p : Nat) (f : SwcSt → SwcSt) (s : State) : (modSwc p f s).opt = s.opt := rfl
@[simp] theorem modSwc_swc (p : Nat) (f : SwcSt → SwcSt) (s : State) : (modSwc p f s).swc = tmod {} s.swc p f := rfl
@[simp] theorem modSwc_queues (p : Nat) (f : SwcSt → SwcSt) (s : State) : (modSwc p f s).queues = s.queues := rfl
@[simp] theorem modSwc_scheds (p : Nat) (f : SwcSt → SwcSt) (s : State) : (modSwc p f s).scheds = s.scheds := rfl
@[simp] theorem modSwc_pkts (p : Nat) (f : SwcSt → SwcSt) (s : State) : (modSwc p f s).pkts = s.pkts := rfl
@[simp] theorem modSwc_nextPid (p : Nat) (f : SwcSt → SwcSt) (s : State) : (modSwc p f s).nextPid = s.nextPid := rfl
@[simp] theorem modSwc_staging (p : Nat) (f : SwcSt → SwcSt) (s : State) : (modSwc p f s).staging = s.staging := rfl
@[simp] theorem modSwc_red (p : Nat) (f : SwcSt → SwcSt) (s : State) : (modSwc p f s).red = s.red := rfl
@[simp] theorem modSwc_ctxs (p : Nat) (f : SwcSt → SwcSt) (s : State) : (modSwc p f s).ctxs = s.ctxs := rfl
@[simp] theorem modSwc_mgr (p : Nat) (f : SwcSt → SwcSt) (s : State) : (modSwc p f s).mgr = s.mgr := rfl
@[simp] theorem modSwc_stackTbl (p : Nat) (f : SwcSt → SwcSt) (s : State) : (modSwc p f s).stackTbl = s.stackTbl := rfl
@[simp] theorem modSwc_mem (p : Nat) (f : SwcSt → SwcSt) (s : State) : (modSwc p f s).mem = s.mem := rfl

/-! ## modQueue -/

@[simp] theorem modQueue_pending (p : Nat) (f : QueueSt → QueueSt) (s : State) : (modQueue p f s).pending = s.pending := rfl
@[simp] theorem modQueue_clock (p : Nat) (f : QueueSt → QueueSt) (s : State) : (modQueue p f s).clock = s.clock := rfl
@[simp] theorem modQueue_free (p : Nat) (f : QueueSt → QueueSt) (s : State) : (modQueue p f s).free = s.free := rfl
@[simp] theorem modQueue_out (p : Nat) (f : QueueSt → QueueSt) (s : State) : (modQueue p f s).out = s.out := rfl
@[simp] theorem modQueue_fuses (p : Nat) (f : QueueSt → QueueSt) (s : State) : (modQueue p f s).fuses = s.fuses := rfl
@[simp] theorem modQueue_rst (p : Nat) (f : QueueSt → QueueSt) (s : State) : (modQueue p f s).rst = s.rst := rfl
@[simp] theorem modQueue_gctl (p : Nat) (f : QueueSt → QueueSt) (s : State) : (modQueue p f s).gctl = s.gctl := rfl
@[simp] theorem modQueue_img (p : Nat) (f : QueueSt → QueueSt) (s : State) : (modQueue p f s).img = s.img := rfl
@[simp] theorem modQueue_units (p : Nat) (f : QueueSt → QueueSt) (s : State) : (modQueue p f s).units = s.units := rfl
@[simp] theorem modQueue_pwr (p : Nat) (f : QueueSt → QueueSt) (s : State) : (modQueue p f s).pwr = s.pwr := rfl
@[simp] theorem modQueue_flt (p : Nat) (f : QueueSt → QueueSt) (s : State) : (modQueue p f s).flt = s.flt := rfl
@[simp] theorem modQueue_evr (p : Nat) (f : QueueSt → QueueSt) (s : State) : (modQueue p f s).evr = s.evr := rfl
@[simp] theorem modQueue_tim (p : Nat) (f : QueueSt → QueueSt) (s : State) : (modQueue p f s).tim = s.tim := rfl
@[simp] theorem modQueue_cmd (p : Nat) (f : QueueSt → QueueSt) (s : State) : (modQueue p f s).cmd = s.cmd := rfl
@[simp] theorem modQueue_dma (p : Nat) (f : QueueSt → QueueSt) (s : State) : (modQueue p f s).dma = s.dma := rfl
@[simp] theorem modQueue_bpm (p : Nat) (f : QueueSt → QueueSt) (s : State) : (modQueue p f s).bpm = s.bpm := rfl
@[simp] theorem modQueue_dbg (p : Nat) (f : QueueSt → QueueSt) (s : State) : (modQueue p f s).dbg = s.dbg := rfl
@[simp] theorem modQueue_route (p : Nat) (f : QueueSt → QueueSt) (s : State) : (modQueue p f s).route = s.route := rfl
@[simp] theorem modQueue_ports (p : Nat) (f : QueueSt → QueueSt) (s : State) : (modQueue p f s).ports = s.ports := rfl
@[simp] theorem modQueue_strands (p : Nat) (f : QueueSt → QueueSt) (s : State) : (modQueue p f s).strands = s.strands := rfl
@[simp] theorem modQueue_links (p : Nat) (f : QueueSt → QueueSt) (s : State) : (modQueue p f s).links = s.links := rfl
@[simp] theorem modQueue_opt (p : Nat) (f : QueueSt → QueueSt) (s : State) : (modQueue p f s).opt = s.opt := rfl
@[simp] theorem modQueue_swc (p : Nat) (f : QueueSt → QueueSt) (s : State) : (modQueue p f s).swc = s.swc := rfl
@[simp] theorem modQueue_queues (p : Nat) (f : QueueSt → QueueSt) (s : State) : (modQueue p f s).queues = tmod {} s.queues p f := rfl
@[simp] theorem modQueue_scheds (p : Nat) (f : QueueSt → QueueSt) (s : State) : (modQueue p f s).scheds = s.scheds := rfl
@[simp] theorem modQueue_pkts (p : Nat) (f : QueueSt → QueueSt) (s : State) : (modQueue p f s).pkts = s.pkts := rfl
@[simp] theorem modQueue_nextPid (p : Nat) (f : QueueSt → QueueSt) (s : State) : (modQueue p f s).nextPid = s.nextPid := rfl
@[simp] theorem modQueue_staging (p : Nat) (f : QueueSt → QueueSt) (s : State) : (modQueue p f s).staging = s.staging := rfl
@[simp] theorem modQueue_red (p : Nat) (f : QueueSt → QueueSt) (s : State) : (modQueue p f s).red = s.red := rfl
@[simp] theorem modQueue_ctxs (p : Nat) (f : QueueSt → QueueSt) (s : State) : (modQueue p f s).ctxs = s.ctxs := rfl
@[simp] theorem modQueue_mgr (p : Nat) (f : QueueSt → QueueSt) (s : State) : (modQueue p f s).mgr = s.mgr := rfl
@[simp] theorem modQueue_stackTbl (p : Nat) (f : QueueSt → QueueSt) (s : State) : (modQueue p f s).stackTbl = s.stackTbl := rfl
@[simp] theorem modQueue_mem (p : Nat) (f : QueueSt → QueueSt) (s : State) : (modQueue p f s).mem = s.mem := rfl

/-! ## modSched -/

@[simp] theorem modSched_pending (p : Nat) (f : SchedSt → SchedSt) (s : State) : (modSched p f s).pending = s.pending := rfl
@[simp] theorem modSched_clock (p : Nat) (f : SchedSt → SchedSt) (s : State) : (modSched p f s).clock = s.clock := rfl
@[simp] theorem modSched_free (p : Nat) (f : SchedSt → SchedSt) (s : State) : (modSched p f s).free = s.free := rfl
@[simp] theorem modSched_out (p : Nat) (f : SchedSt → SchedSt) (s : State) : (modSched p f s).out = s.out := rfl
@[simp] theorem modSched_fuses (p : Nat) (f : SchedSt → SchedSt) (s : State) : (modSched p f s).fuses = s.fuses := rfl
@[simp] theorem modSched_rst (p : Nat) (f : SchedSt → SchedSt) (s : State) : (modSched p f s).rst = s.rst := rfl
@[simp] theorem modSched_gctl (p : Nat) (f : SchedSt → SchedSt) (s : State) : (modSched p f s).gctl = s.gctl := rfl
@[simp] theorem modSched_img (p : Nat) (f : SchedSt → SchedSt) (s : State) : (modSched p f s).img = s.img := rfl
@[simp] theorem modSched_units (p : Nat) (f : SchedSt → SchedSt) (s : State) : (modSched p f s).units = s.units := rfl
@[simp] theorem modSched_pwr (p : Nat) (f : SchedSt → SchedSt) (s : State) : (modSched p f s).pwr = s.pwr := rfl
@[simp] theorem modSched_flt (p : Nat) (f : SchedSt → SchedSt) (s : State) : (modSched p f s).flt = s.flt := rfl
@[simp] theorem modSched_evr (p : Nat) (f : SchedSt → SchedSt) (s : State) : (modSched p f s).evr = s.evr := rfl
@[simp] theorem modSched_tim (p : Nat) (f : SchedSt → SchedSt) (s : State) : (modSched p f s).tim = s.tim := rfl
@[simp] theorem modSched_cmd (p : Nat) (f : SchedSt → SchedSt) (s : State) : (modSched p f s).cmd = s.cmd := rfl
@[simp] theorem modSched_dma (p : Nat) (f : SchedSt → SchedSt) (s : State) : (modSched p f s).dma = s.dma := rfl
@[simp] theorem modSched_bpm (p : Nat) (f : SchedSt → SchedSt) (s : State) : (modSched p f s).bpm = s.bpm := rfl
@[simp] theorem modSched_dbg (p : Nat) (f : SchedSt → SchedSt) (s : State) : (modSched p f s).dbg = s.dbg := rfl
@[simp] theorem modSched_route (p : Nat) (f : SchedSt → SchedSt) (s : State) : (modSched p f s).route = s.route := rfl
@[simp] theorem modSched_ports (p : Nat) (f : SchedSt → SchedSt) (s : State) : (modSched p f s).ports = s.ports := rfl
@[simp] theorem modSched_strands (p : Nat) (f : SchedSt → SchedSt) (s : State) : (modSched p f s).strands = s.strands := rfl
@[simp] theorem modSched_links (p : Nat) (f : SchedSt → SchedSt) (s : State) : (modSched p f s).links = s.links := rfl
@[simp] theorem modSched_opt (p : Nat) (f : SchedSt → SchedSt) (s : State) : (modSched p f s).opt = s.opt := rfl
@[simp] theorem modSched_swc (p : Nat) (f : SchedSt → SchedSt) (s : State) : (modSched p f s).swc = s.swc := rfl
@[simp] theorem modSched_queues (p : Nat) (f : SchedSt → SchedSt) (s : State) : (modSched p f s).queues = s.queues := rfl
@[simp] theorem modSched_scheds (p : Nat) (f : SchedSt → SchedSt) (s : State) : (modSched p f s).scheds = tmod {} s.scheds p f := rfl
@[simp] theorem modSched_pkts (p : Nat) (f : SchedSt → SchedSt) (s : State) : (modSched p f s).pkts = s.pkts := rfl
@[simp] theorem modSched_nextPid (p : Nat) (f : SchedSt → SchedSt) (s : State) : (modSched p f s).nextPid = s.nextPid := rfl
@[simp] theorem modSched_staging (p : Nat) (f : SchedSt → SchedSt) (s : State) : (modSched p f s).staging = s.staging := rfl
@[simp] theorem modSched_red (p : Nat) (f : SchedSt → SchedSt) (s : State) : (modSched p f s).red = s.red := rfl
@[simp] theorem modSched_ctxs (p : Nat) (f : SchedSt → SchedSt) (s : State) : (modSched p f s).ctxs = s.ctxs := rfl
@[simp] theorem modSched_mgr (p : Nat) (f : SchedSt → SchedSt) (s : State) : (modSched p f s).mgr = s.mgr := rfl
@[simp] theorem modSched_stackTbl (p : Nat) (f : SchedSt → SchedSt) (s : State) : (modSched p f s).stackTbl = s.stackTbl := rfl
@[simp] theorem modSched_mem (p : Nat) (f : SchedSt → SchedSt) (s : State) : (modSched p f s).mem = s.mem := rfl

/-! ## setPkt -/

@[simp] theorem setPkt_pending (p : Nat) (f : Option Pkt) (s : State) : (setPkt p f s).pending = s.pending := rfl
@[simp] theorem setPkt_clock (p : Nat) (f : Option Pkt) (s : State) : (setPkt p f s).clock = s.clock := rfl
@[simp] theorem setPkt_free (p : Nat) (f : Option Pkt) (s : State) : (setPkt p f s).free = s.free := rfl
@[simp] theorem setPkt_out (p : Nat) (f : Option Pkt) (s : State) : (setPkt p f s).out = s.out := rfl
@[simp] theorem setPkt_fuses (p : Nat) (f : Option Pkt) (s : State) : (setPkt p f s).fuses = s.fuses := rfl
@[simp] theorem setPkt_rst (p : Nat) (f : Option Pkt) (s : State) : (setPkt p f s).rst = s.rst := rfl
@[simp] theorem setPkt_gctl (p : Nat) (f : Option Pkt) (s : State) : (setPkt p f s).gctl = s.gctl := rfl
@[simp] theorem setPkt_img (p : Nat) (f : Option Pkt) (s : State) : (setPkt p f s).img = s.img := rfl
@[simp] theorem setPkt_units (p : Nat) (f : Option Pkt) (s : State) : (setPkt p f s).units = s.units := rfl
@[simp] theorem setPkt_pwr (p : Nat) (f : Option Pkt) (s : State) : (setPkt p f s).pwr = s.pwr := rfl
@[simp] theorem setPkt_flt (p : Nat) (f : Option Pkt) (s : State) : (setPkt p f s).flt = s.flt := rfl
@[simp] theorem setPkt_evr (p : Nat) (f : Option Pkt) (s : State) : (setPkt p f s).evr = s.evr := rfl
@[simp] theorem setPkt_tim (p : Nat) (f : Option Pkt) (s : State) : (setPkt p f s).tim = s.tim := rfl
@[simp] theorem setPkt_cmd (p : Nat) (f : Option Pkt) (s : State) : (setPkt p f s).cmd = s.cmd := rfl
@[simp] theorem setPkt_dma (p : Nat) (f : Option Pkt) (s : State) : (setPkt p f s).dma = s.dma := rfl
@[simp] theorem setPkt_bpm (p : Nat) (f : Option Pkt) (s : State) : (setPkt p f s).bpm = s.bpm := rfl
@[simp] theorem setPkt_dbg (p : Nat) (f : Option Pkt) (s : State) : (setPkt p f s).dbg = s.dbg := rfl
@[simp] theorem setPkt_route (p : Nat) (f : Option Pkt) (s : State) : (setPkt p f s).route = s.route := rfl
@[simp] theorem setPkt_ports (p : Nat) (f : Option Pkt) (s : State) : (setPkt p f s).ports = s.ports := rfl
@[simp] theorem setPkt_strands (p : Nat) (f : Option Pkt) (s : State) : (setPkt p f s).strands = s.strands := rfl
@[simp] theorem setPkt_links (p : Nat) (f : Option Pkt) (s : State) : (setPkt p f s).links = s.links := rfl
@[simp] theorem setPkt_opt (p : Nat) (f : Option Pkt) (s : State) : (setPkt p f s).opt = s.opt := rfl
@[simp] theorem setPkt_swc (p : Nat) (f : Option Pkt) (s : State) : (setPkt p f s).swc = s.swc := rfl
@[simp] theorem setPkt_queues (p : Nat) (f : Option Pkt) (s : State) : (setPkt p f s).queues = s.queues := rfl
@[simp] theorem setPkt_scheds (p : Nat) (f : Option Pkt) (s : State) : (setPkt p f s).scheds = s.scheds := rfl
@[simp] theorem setPkt_pkts (p : Nat) (f : Option Pkt) (s : State) : (setPkt p f s).pkts = tset none s.pkts p f := rfl
@[simp] theorem setPkt_nextPid (p : Nat) (f : Option Pkt) (s : State) : (setPkt p f s).nextPid = s.nextPid := rfl
@[simp] theorem setPkt_staging (p : Nat) (f : Option Pkt) (s : State) : (setPkt p f s).staging = s.staging := rfl
@[simp] theorem setPkt_red (p : Nat) (f : Option Pkt) (s : State) : (setPkt p f s).red = s.red := rfl
@[simp] theorem setPkt_ctxs (p : Nat) (f : Option Pkt) (s : State) : (setPkt p f s).ctxs = s.ctxs := rfl
@[simp] theorem setPkt_mgr (p : Nat) (f : Option Pkt) (s : State) : (setPkt p f s).mgr = s.mgr := rfl
@[simp] theorem setPkt_stackTbl (p : Nat) (f : Option Pkt) (s : State) : (setPkt p f s).stackTbl = s.stackTbl := rfl
@[simp] theorem setPkt_mem (p : Nat) (f : Option Pkt) (s : State) : (setPkt p f s).mem = s.mem := rfl

/-! ## modPkt -/

@[simp] theorem modPkt_pending (p : Nat) (f : Pkt → Pkt) (s : State) : (modPkt p f s).pending = s.pending := rfl
@[simp] theorem modPkt_clock (p : Nat) (f : Pkt → Pkt) (s : State) : (modPkt p f s).clock = s.clock := rfl
@[simp] theorem modPkt_free (p : Nat) (f : Pkt → Pkt) (s : State) : (modPkt p f s).free = s.free := rfl
@[simp] theorem modPkt_out (p : Nat) (f : Pkt → Pkt) (s : State) : (modPkt p f s).out = s.out := rfl
@[simp] theorem modPkt_fuses (p : Nat) (f : Pkt → Pkt) (s : State) : (modPkt p f s).fuses = s.fuses := rfl
@[simp] theorem modPkt_rst (p : Nat) (f : Pkt → Pkt) (s : State) : (modPkt p f s).rst = s.rst := rfl
@[simp] theorem modPkt_gctl (p : Nat) (f : Pkt → Pkt) (s : State) : (modPkt p f s).gctl = s.gctl := rfl
@[simp] theorem modPkt_img (p : Nat) (f : Pkt → Pkt) (s : State) : (modPkt p f s).img = s.img := rfl
@[simp] theorem modPkt_units (p : Nat) (f : Pkt → Pkt) (s : State) : (modPkt p f s).units = s.units := rfl
@[simp] theorem modPkt_pwr (p : Nat) (f : Pkt → Pkt) (s : State) : (modPkt p f s).pwr = s.pwr := rfl
@[simp] theorem modPkt_flt (p : Nat) (f : Pkt → Pkt) (s : State) : (modPkt p f s).flt = s.flt := rfl
@[simp] theorem modPkt_evr (p : Nat) (f : Pkt → Pkt) (s : State) : (modPkt p f s).evr = s.evr := rfl
@[simp] theorem modPkt_tim (p : Nat) (f : Pkt → Pkt) (s : State) : (modPkt p f s).tim = s.tim := rfl
@[simp] theorem modPkt_cmd (p : Nat) (f : Pkt → Pkt) (s : State) : (modPkt p f s).cmd = s.cmd := rfl
@[simp] theorem modPkt_dma (p : Nat) (f : Pkt → Pkt) (s : State) : (modPkt p f s).dma = s.dma := rfl
@[simp] theorem modPkt_bpm (p : Nat) (f : Pkt → Pkt) (s : State) : (modPkt p f s).bpm = s.bpm := rfl
@[simp] theorem modPkt_dbg (p : Nat) (f : Pkt → Pkt) (s : State) : (modPkt p f s).dbg = s.dbg := rfl
@[simp] theorem modPkt_route (p : Nat) (f : Pkt → Pkt) (s : State) : (modPkt p f s).route = s.route := rfl
@[simp] theorem modPkt_ports (p : Nat) (f : Pkt → Pkt) (s : State) : (modPkt p f s).ports = s.ports := rfl
@[simp] theorem modPkt_strands (p : Nat) (f : Pkt → Pkt) (s : State) : (modPkt p f s).strands = s.strands := rfl
@[simp] theorem modPkt_links (p : Nat) (f : Pkt → Pkt) (s : State) : (modPkt p f s).links = s.links := rfl
@[simp] theorem modPkt_opt (p : Nat) (f : Pkt → Pkt) (s : State) : (modPkt p f s).opt = s.opt := rfl
@[simp] theorem modPkt_swc (p : Nat) (f : Pkt → Pkt) (s : State) : (modPkt p f s).swc = s.swc := rfl
@[simp] theorem modPkt_queues (p : Nat) (f : Pkt → Pkt) (s : State) : (modPkt p f s).queues = s.queues := rfl
@[simp] theorem modPkt_scheds (p : Nat) (f : Pkt → Pkt) (s : State) : (modPkt p f s).scheds = s.scheds := rfl
@[simp] theorem modPkt_pkts (p : Nat) (f : Pkt → Pkt) (s : State) : (modPkt p f s).pkts = tmod none s.pkts p (Option.map f) := rfl
@[simp] theorem modPkt_nextPid (p : Nat) (f : Pkt → Pkt) (s : State) : (modPkt p f s).nextPid = s.nextPid := rfl
@[simp] theorem modPkt_staging (p : Nat) (f : Pkt → Pkt) (s : State) : (modPkt p f s).staging = s.staging := rfl
@[simp] theorem modPkt_red (p : Nat) (f : Pkt → Pkt) (s : State) : (modPkt p f s).red = s.red := rfl
@[simp] theorem modPkt_ctxs (p : Nat) (f : Pkt → Pkt) (s : State) : (modPkt p f s).ctxs = s.ctxs := rfl
@[simp] theorem modPkt_mgr (p : Nat) (f : Pkt → Pkt) (s : State) : (modPkt p f s).mgr = s.mgr := rfl
@[simp] theorem modPkt_stackTbl (p : Nat) (f : Pkt → Pkt) (s : State) : (modPkt p f s).stackTbl = s.stackTbl := rfl
@[simp] theorem modPkt_mem (p : Nat) (f : Pkt → Pkt) (s : State) : (modPkt p f s).mem = s.mem := rfl

/-! ## modRed -/

@[simp] theorem modRed_pending (p : Nat) (f : RedSt → RedSt) (s : State) : (modRed p f s).pending = s.pending := rfl
@[simp] theorem modRed_clock (p : Nat) (f : RedSt → RedSt) (s : State) : (modRed p f s).clock = s.clock := rfl
@[simp] theorem modRed_free (p : Nat) (f : RedSt → RedSt) (s : State) : (modRed p f s).free = s.free := rfl
@[simp] theorem modRed_out (p : Nat) (f : RedSt → RedSt) (s : State) : (modRed p f s).out = s.out := rfl
@[simp] theorem modRed_fuses (p : Nat) (f : RedSt → RedSt) (s : State) : (modRed p f s).fuses = s.fuses := rfl
@[simp] theorem modRed_rst (p : Nat) (f : RedSt → RedSt) (s : State) : (modRed p f s).rst = s.rst := rfl
@[simp] theorem modRed_gctl (p : Nat) (f : RedSt → RedSt) (s : State) : (modRed p f s).gctl = s.gctl := rfl
@[simp] theorem modRed_img (p : Nat) (f : RedSt → RedSt) (s : State) : (modRed p f s).img = s.img := rfl
@[simp] theorem modRed_units (p : Nat) (f : RedSt → RedSt) (s : State) : (modRed p f s).units = s.units := rfl
@[simp] theorem modRed_pwr (p : Nat) (f : RedSt → RedSt) (s : State) : (modRed p f s).pwr = s.pwr := rfl
@[simp] theorem modRed_flt (p : Nat) (f : RedSt → RedSt) (s : State) : (modRed p f s).flt = s.flt := rfl
@[simp] theorem modRed_evr (p : Nat) (f : RedSt → RedSt) (s : State) : (modRed p f s).evr = s.evr := rfl
@[simp] theorem modRed_tim (p : Nat) (f : RedSt → RedSt) (s : State) : (modRed p f s).tim = s.tim := rfl
@[simp] theorem modRed_cmd (p : Nat) (f : RedSt → RedSt) (s : State) : (modRed p f s).cmd = s.cmd := rfl
@[simp] theorem modRed_dma (p : Nat) (f : RedSt → RedSt) (s : State) : (modRed p f s).dma = s.dma := rfl
@[simp] theorem modRed_bpm (p : Nat) (f : RedSt → RedSt) (s : State) : (modRed p f s).bpm = s.bpm := rfl
@[simp] theorem modRed_dbg (p : Nat) (f : RedSt → RedSt) (s : State) : (modRed p f s).dbg = s.dbg := rfl
@[simp] theorem modRed_route (p : Nat) (f : RedSt → RedSt) (s : State) : (modRed p f s).route = s.route := rfl
@[simp] theorem modRed_ports (p : Nat) (f : RedSt → RedSt) (s : State) : (modRed p f s).ports = s.ports := rfl
@[simp] theorem modRed_strands (p : Nat) (f : RedSt → RedSt) (s : State) : (modRed p f s).strands = s.strands := rfl
@[simp] theorem modRed_links (p : Nat) (f : RedSt → RedSt) (s : State) : (modRed p f s).links = s.links := rfl
@[simp] theorem modRed_opt (p : Nat) (f : RedSt → RedSt) (s : State) : (modRed p f s).opt = s.opt := rfl
@[simp] theorem modRed_swc (p : Nat) (f : RedSt → RedSt) (s : State) : (modRed p f s).swc = s.swc := rfl
@[simp] theorem modRed_queues (p : Nat) (f : RedSt → RedSt) (s : State) : (modRed p f s).queues = s.queues := rfl
@[simp] theorem modRed_scheds (p : Nat) (f : RedSt → RedSt) (s : State) : (modRed p f s).scheds = s.scheds := rfl
@[simp] theorem modRed_pkts (p : Nat) (f : RedSt → RedSt) (s : State) : (modRed p f s).pkts = s.pkts := rfl
@[simp] theorem modRed_nextPid (p : Nat) (f : RedSt → RedSt) (s : State) : (modRed p f s).nextPid = s.nextPid := rfl
@[simp] theorem modRed_staging (p : Nat) (f : RedSt → RedSt) (s : State) : (modRed p f s).staging = s.staging := rfl
@[simp] theorem modRed_red (p : Nat) (f : RedSt → RedSt) (s : State) : (modRed p f s).red = tmod {} s.red p f := rfl
@[simp] theorem modRed_ctxs (p : Nat) (f : RedSt → RedSt) (s : State) : (modRed p f s).ctxs = s.ctxs := rfl
@[simp] theorem modRed_mgr (p : Nat) (f : RedSt → RedSt) (s : State) : (modRed p f s).mgr = s.mgr := rfl
@[simp] theorem modRed_stackTbl (p : Nat) (f : RedSt → RedSt) (s : State) : (modRed p f s).stackTbl = s.stackTbl := rfl
@[simp] theorem modRed_mem (p : Nat) (f : RedSt → RedSt) (s : State) : (modRed p f s).mem = s.mem := rfl

/-! ## setCtx -/

@[simp] theorem setCtx_pending (p : Nat) (f : Option Ctx) (s : State) : (setCtx p f s).pending = s.pending := rfl
@[simp] theorem setCtx_clock (p : Nat) (f : Option Ctx) (s : State) : (setCtx p f s).clock = s.clock := rfl
@[simp] theorem setCtx_free (p : Nat) (f : Option Ctx) (s : State) : (setCtx p f s).free = s.free := rfl
@[simp] theorem setCtx_out (p : Nat) (f : Option Ctx) (s : State) : (setCtx p f s).out = s.out := rfl
@[simp] theorem setCtx_fuses (p : Nat) (f : Option Ctx) (s : State) : (setCtx p f s).fuses = s.fuses := rfl
@[simp] theorem setCtx_rst (p : Nat) (f : Option Ctx) (s : State) : (setCtx p f s).rst = s.rst := rfl
@[simp] theorem setCtx_gctl (p : Nat) (f : Option Ctx) (s : State) : (setCtx p f s).gctl = s.gctl := rfl
@[simp] theorem setCtx_img (p : Nat) (f : Option Ctx) (s : State) : (setCtx p f s).img = s.img := rfl
@[simp] theorem setCtx_units (p : Nat) (f : Option Ctx) (s : State) : (setCtx p f s).units = s.units := rfl
@[simp] theorem setCtx_pwr (p : Nat) (f : Option Ctx) (s : State) : (setCtx p f s).pwr = s.pwr := rfl
@[simp] theorem setCtx_flt (p : Nat) (f : Option Ctx) (s : State) : (setCtx p f s).flt = s.flt := rfl
@[simp] theorem setCtx_evr (p : Nat) (f : Option Ctx) (s : State) : (setCtx p f s).evr = s.evr := rfl
@[simp] theorem setCtx_tim (p : Nat) (f : Option Ctx) (s : State) : (setCtx p f s).tim = s.tim := rfl
@[simp] theorem setCtx_cmd (p : Nat) (f : Option Ctx) (s : State) : (setCtx p f s).cmd = s.cmd := rfl
@[simp] theorem setCtx_dma (p : Nat) (f : Option Ctx) (s : State) : (setCtx p f s).dma = s.dma := rfl
@[simp] theorem setCtx_bpm (p : Nat) (f : Option Ctx) (s : State) : (setCtx p f s).bpm = s.bpm := rfl
@[simp] theorem setCtx_dbg (p : Nat) (f : Option Ctx) (s : State) : (setCtx p f s).dbg = s.dbg := rfl
@[simp] theorem setCtx_route (p : Nat) (f : Option Ctx) (s : State) : (setCtx p f s).route = s.route := rfl
@[simp] theorem setCtx_ports (p : Nat) (f : Option Ctx) (s : State) : (setCtx p f s).ports = s.ports := rfl
@[simp] theorem setCtx_strands (p : Nat) (f : Option Ctx) (s : State) : (setCtx p f s).strands = s.strands := rfl
@[simp] theorem setCtx_links (p : Nat) (f : Option Ctx) (s : State) : (setCtx p f s).links = s.links := rfl
@[simp] theorem setCtx_opt (p : Nat) (f : Option Ctx) (s : State) : (setCtx p f s).opt = s.opt := rfl
@[simp] theorem setCtx_swc (p : Nat) (f : Option Ctx) (s : State) : (setCtx p f s).swc = s.swc := rfl
@[simp] theorem setCtx_queues (p : Nat) (f : Option Ctx) (s : State) : (setCtx p f s).queues = s.queues := rfl
@[simp] theorem setCtx_scheds (p : Nat) (f : Option Ctx) (s : State) : (setCtx p f s).scheds = s.scheds := rfl
@[simp] theorem setCtx_pkts (p : Nat) (f : Option Ctx) (s : State) : (setCtx p f s).pkts = s.pkts := rfl
@[simp] theorem setCtx_nextPid (p : Nat) (f : Option Ctx) (s : State) : (setCtx p f s).nextPid = s.nextPid := rfl
@[simp] theorem setCtx_staging (p : Nat) (f : Option Ctx) (s : State) : (setCtx p f s).staging = s.staging := rfl
@[simp] theorem setCtx_red (p : Nat) (f : Option Ctx) (s : State) : (setCtx p f s).red = s.red := rfl
@[simp] theorem setCtx_ctxs (p : Nat) (f : Option Ctx) (s : State) : (setCtx p f s).ctxs = tset none s.ctxs p f := rfl
@[simp] theorem setCtx_mgr (p : Nat) (f : Option Ctx) (s : State) : (setCtx p f s).mgr = s.mgr := rfl
@[simp] theorem setCtx_stackTbl (p : Nat) (f : Option Ctx) (s : State) : (setCtx p f s).stackTbl = s.stackTbl := rfl
@[simp] theorem setCtx_mem (p : Nat) (f : Option Ctx) (s : State) : (setCtx p f s).mem = s.mem := rfl

/-! ## modCtx -/

@[simp] theorem modCtx_pending (p : Nat) (f : Ctx → Ctx) (s : State) : (modCtx p f s).pending = s.pending := rfl
@[simp] theorem modCtx_clock (p : Nat) (f : Ctx → Ctx) (s : State) : (modCtx p f s).clock = s.clock := rfl
@[simp] theorem modCtx_free (p : Nat) (f : Ctx → Ctx) (s : State) : (modCtx p f s).free = s.free := rfl
@[simp] theorem modCtx_out (p : Nat) (f : Ctx → Ctx) (s : State) : (modCtx p f s).out = s.out := rfl
@[simp] theorem modCtx_fuses (p : Nat) (f : Ctx → Ctx) (s : State) : (modCtx p f s).fuses = s.fuses := rfl
@[simp] theorem modCtx_rst (p : Nat) (f : Ctx → Ctx) (s : State) : (modCtx p f s).rst = s.rst := rfl
@[simp] theorem modCtx_gctl (p : Nat) (f : Ctx → Ctx) (s : State) : (modCtx p f s).gctl = s.gctl := rfl
@[simp] theorem modCtx_img (p : Nat) (f : Ctx → Ctx) (s : State) : (modCtx p f s).img = s.img := rfl
@[simp] theorem modCtx_units (p : Nat) (f : Ctx → Ctx) (s : State) : (modCtx p f s).units = s.units := rfl
@[simp] theorem modCtx_pwr (p : Nat) (f : Ctx → Ctx) (s : State) : (modCtx p f s).pwr = s.pwr := rfl
@[simp] theorem modCtx_flt (p : Nat) (f : Ctx → Ctx) (s : State) : (modCtx p f s).flt = s.flt := rfl
@[simp] theorem modCtx_evr (p : Nat) (f : Ctx → Ctx) (s : State) : (modCtx p f s).evr = s.evr := rfl
@[simp] theorem modCtx_tim (p : Nat) (f : Ctx → Ctx) (s : State) : (modCtx p f s).tim = s.tim := rfl
@[simp] theorem modCtx_cmd (p : Nat) (f : Ctx → Ctx) (s : State) : (modCtx p f s).cmd = s.cmd := rfl
@[simp] theorem modCtx_dma (p : Nat) (f : Ctx → Ctx) (s : State) : (modCtx p f s).dma = s.dma := rfl
@[simp] theorem modCtx_bpm (p : Nat) (f : Ctx → Ctx) (s : State) : (modCtx p f s).bpm = s.bpm := rfl
@[simp] theorem modCtx_dbg (p : Nat) (f : Ctx → Ctx) (s : State) : (modCtx p f s).dbg = s.dbg := rfl
@[simp] theorem modCtx_route (p : Nat) (f : Ctx → Ctx) (s : State) : (modCtx p f s).route = s.route := rfl
@[simp] theorem modCtx_ports (p : Nat) (f : Ctx → Ctx) (s : State) : (modCtx p f s).ports = s.ports := rfl
@[simp] theorem modCtx_strands (p : Nat) (f : Ctx → Ctx) (s : State) : (modCtx p f s).strands = s.strands := rfl
@[simp] theorem modCtx_links (p : Nat) (f : Ctx → Ctx) (s : State) : (modCtx p f s).links = s.links := rfl
@[simp] theorem modCtx_opt (p : Nat) (f : Ctx → Ctx) (s : State) : (modCtx p f s).opt = s.opt := rfl
@[simp] theorem modCtx_swc (p : Nat) (f : Ctx → Ctx) (s : State) : (modCtx p f s).swc = s.swc := rfl
@[simp] theorem modCtx_queues (p : Nat) (f : Ctx → Ctx) (s : State) : (modCtx p f s).queues = s.queues := rfl
@[simp] theorem modCtx_scheds (p : Nat) (f : Ctx → Ctx) (s : State) : (modCtx p f s).scheds = s.scheds := rfl
@[simp] theorem modCtx_pkts (p : Nat) (f : Ctx → Ctx) (s : State) : (modCtx p f s).pkts = s.pkts := rfl
@[simp] theorem modCtx_nextPid (p : Nat) (f : Ctx → Ctx) (s : State) : (modCtx p f s).nextPid = s.nextPid := rfl
@[simp] theorem modCtx_staging (p : Nat) (f : Ctx → Ctx) (s : State) : (modCtx p f s).staging = s.staging := rfl
@[simp] theorem modCtx_red (p : Nat) (f : Ctx → Ctx) (s : State) : (modCtx p f s).red = s.red := rfl
@[simp] theorem modCtx_ctxs (p : Nat) (f : Ctx → Ctx) (s : State) : (modCtx p f s).ctxs = tmod none s.ctxs p (Option.map f) := rfl
@[simp] theorem modCtx_mgr (p : Nat) (f : Ctx → Ctx) (s : State) : (modCtx p f s).mgr = s.mgr := rfl
@[simp] theorem modCtx_stackTbl (p : Nat) (f : Ctx → Ctx) (s : State) : (modCtx p f s).stackTbl = s.stackTbl := rfl
@[simp] theorem modCtx_mem (p : Nat) (f : Ctx → Ctx) (s : State) : (modCtx p f s).mem = s.mem := rfl

/-! ## modStack -/

@[simp] theorem modStack_pending (p : Nat) (f : MemSt → MemSt) (s : State) : (modStack p f s).pending = s.pending := rfl
@[simp] theorem modStack_clock (p : Nat) (f : MemSt → MemSt) (s : State) : (modStack p f s).clock = s.clock := rfl
@[simp] theorem modStack_free (p : Nat) (f : MemSt → MemSt) (s : State) : (modStack p f s).free = s.free := rfl
@[simp] theorem modStack_out (p : Nat) (f : MemSt → MemSt) (s : State) : (modStack p f s).out = s.out := rfl
@[simp] theorem modStack_fuses (p : Nat) (f : MemSt → MemSt) (s : State) : (modStack p f s).fuses = s.fuses := rfl
@[simp] theorem modStack_rst (p : Nat) (f : MemSt → MemSt) (s : State) : (modStack p f s).rst = s.rst := rfl
@[simp] theorem modStack_gctl (p : Nat) (f : MemSt → MemSt) (s : State) : (modStack p f s).gctl = s.gctl := rfl
@[simp] theorem modStack_img (p : Nat) (f : MemSt → MemSt) (s : State) : (modStack p f s).img = s.img := rfl
@[simp] theorem modStack_units (p : Nat) (f : MemSt → MemSt) (s : State) : (modStack p f s).units = s.units := rfl
@[simp] theorem modStack_pwr (p : Nat) (f : MemSt → MemSt) (s : State) : (modStack p f s).pwr = s.pwr := rfl
@[simp] theorem modStack_flt (p : Nat) (f : MemSt → MemSt) (s : State) : (modStack p f s).flt = s.flt := rfl
@[simp] theorem modStack_evr (p : Nat) (f : MemSt → MemSt) (s : State) : (modStack p f s).evr = s.evr := rfl
@[simp] theorem modStack_tim (p : Nat) (f : MemSt → MemSt) (s : State) : (modStack p f s).tim = s.tim := rfl
@[simp] theorem modStack_cmd (p : Nat) (f : MemSt → MemSt) (s : State) : (modStack p f s).cmd = s.cmd := rfl
@[simp] theorem modStack_dma (p : Nat) (f : MemSt → MemSt) (s : State) : (modStack p f s).dma = s.dma := rfl
@[simp] theorem modStack_bpm (p : Nat) (f : MemSt → MemSt) (s : State) : (modStack p f s).bpm = s.bpm := rfl
@[simp] theorem modStack_dbg (p : Nat) (f : MemSt → MemSt) (s : State) : (modStack p f s).dbg = s.dbg := rfl
@[simp] theorem modStack_route (p : Nat) (f : MemSt → MemSt) (s : State) : (modStack p f s).route = s.route := rfl
@[simp] theorem modStack_ports (p : Nat) (f : MemSt → MemSt) (s : State) : (modStack p f s).ports = s.ports := rfl
@[simp] theorem modStack_strands (p : Nat) (f : MemSt → MemSt) (s : State) : (modStack p f s).strands = s.strands := rfl
@[simp] theorem modStack_links (p : Nat) (f : MemSt → MemSt) (s : State) : (modStack p f s).links = s.links := rfl
@[simp] theorem modStack_opt (p : Nat) (f : MemSt → MemSt) (s : State) : (modStack p f s).opt = s.opt := rfl
@[simp] theorem modStack_swc (p : Nat) (f : MemSt → MemSt) (s : State) : (modStack p f s).swc = s.swc := rfl
@[simp] theorem modStack_queues (p : Nat) (f : MemSt → MemSt) (s : State) : (modStack p f s).queues = s.queues := rfl
@[simp] theorem modStack_scheds (p : Nat) (f : MemSt → MemSt) (s : State) : (modStack p f s).scheds = s.scheds := rfl
@[simp] theorem modStack_pkts (p : Nat) (f : MemSt → MemSt) (s : State) : (modStack p f s).pkts = s.pkts := rfl
@[simp] theorem modStack_nextPid (p : Nat) (f : MemSt → MemSt) (s : State) : (modStack p f s).nextPid = s.nextPid := rfl
@[simp] theorem modStack_staging (p : Nat) (f : MemSt → MemSt) (s : State) : (modStack p f s).staging = s.staging := rfl
@[simp] theorem modStack_red (p : Nat) (f : MemSt → MemSt) (s : State) : (modStack p f s).red = s.red := rfl
@[simp] theorem modStack_ctxs (p : Nat) (f : MemSt → MemSt) (s : State) : (modStack p f s).ctxs = s.ctxs := rfl
@[simp] theorem modStack_mgr (p : Nat) (f : MemSt → MemSt) (s : State) : (modStack p f s).mgr = s.mgr := rfl
@[simp] theorem modStack_stackTbl (p : Nat) (f : MemSt → MemSt) (s : State) : (modStack p f s).stackTbl = tmod {} s.stackTbl p f := rfl
@[simp] theorem modStack_mem (p : Nat) (f : MemSt → MemSt) (s : State) : (modStack p f s).mem = s.mem := rfl

/-! ## modCmd -/

@[simp] theorem modCmd_pending (f : CmdSt → CmdSt) (s : State) : (modCmd f s).pending = s.pending := rfl
@[simp] theorem modCmd_clock (f : CmdSt → CmdSt) (s : State) : (modCmd f s).clock = s.clock := rfl
@[simp] theorem modCmd_free (f : CmdSt → CmdSt) (s : State) : (modCmd f s).free = s.free := rfl
@[simp] theorem modCmd_out (f : CmdSt → CmdSt) (s : State) : (modCmd f s).out = s.out := rfl
@[simp] theorem modCmd_fuses (f : CmdSt → CmdSt) (s : State) : (modCmd f s).fuses = s.fuses := rfl
@[simp] theorem modCmd_rst (f : CmdSt → CmdSt) (s : State) : (modCmd f s).rst = s.rst := rfl
@[simp] theorem modCmd_gctl (f : CmdSt → CmdSt) (s : State) : (modCmd f s).gctl = s.gctl := rfl
@[simp] theorem modCmd_img (f : CmdSt → CmdSt) (s : State) : (modCmd f s).img = s.img := rfl
@[simp] theorem modCmd_units (f : CmdSt → CmdSt) (s : State) : (modCmd f s).units = s.units := rfl
@[simp] theorem modCmd_pwr (f : CmdSt → CmdSt) (s : State) : (modCmd f s).pwr = s.pwr := rfl
@[simp] theorem modCmd_flt (f : CmdSt → CmdSt) (s : State) : (modCmd f s).flt = s.flt := rfl
@[simp] theorem modCmd_evr (f : CmdSt → CmdSt) (s : State) : (modCmd f s).evr = s.evr := rfl
@[simp] theorem modCmd_tim (f : CmdSt → CmdSt) (s : State) : (modCmd f s).tim = s.tim := rfl
@[simp] theorem modCmd_cmd (f : CmdSt → CmdSt) (s : State) : (modCmd f s).cmd = f s.cmd := rfl
@[simp] theorem modCmd_dma (f : CmdSt → CmdSt) (s : State) : (modCmd f s).dma = s.dma := rfl
@[simp] theorem modCmd_bpm (f : CmdSt → CmdSt) (s : State) : (modCmd f s).bpm = s.bpm := rfl
@[simp] theorem modCmd_dbg (f : CmdSt → CmdSt) (s : State) : (modCmd f s).dbg = s.dbg := rfl
@[simp] theorem modCmd_route (f : CmdSt → CmdSt) (s : State) : (modCmd f s).route = s.route := rfl
@[simp] theorem modCmd_ports (f : CmdSt → CmdSt) (s : State) : (modCmd f s).ports = s.ports := rfl
@[simp] theorem modCmd_strands (f : CmdSt → CmdSt) (s : State) : (modCmd f s).strands = s.strands := rfl
@[simp] theorem modCmd_links (f : CmdSt → CmdSt) (s : State) : (modCmd f s).links = s.links := rfl
@[simp] theorem modCmd_opt (f : CmdSt → CmdSt) (s : State) : (modCmd f s).opt = s.opt := rfl
@[simp] theorem modCmd_swc (f : CmdSt → CmdSt) (s : State) : (modCmd f s).swc = s.swc := rfl
@[simp] theorem modCmd_queues (f : CmdSt → CmdSt) (s : State) : (modCmd f s).queues = s.queues := rfl
@[simp] theorem modCmd_scheds (f : CmdSt → CmdSt) (s : State) : (modCmd f s).scheds = s.scheds := rfl
@[simp] theorem modCmd_pkts (f : CmdSt → CmdSt) (s : State) : (modCmd f s).pkts = s.pkts := rfl
@[simp] theorem modCmd_nextPid (f : CmdSt → CmdSt) (s : State) : (modCmd f s).nextPid = s.nextPid := rfl
@[simp] theorem modCmd_staging (f : CmdSt → CmdSt) (s : State) : (modCmd f s).staging = s.staging := rfl
@[simp] theorem modCmd_red (f : CmdSt → CmdSt) (s : State) : (modCmd f s).red = s.red := rfl
@[simp] theorem modCmd_ctxs (f : CmdSt → CmdSt) (s : State) : (modCmd f s).ctxs = s.ctxs := rfl
@[simp] theorem modCmd_mgr (f : CmdSt → CmdSt) (s : State) : (modCmd f s).mgr = s.mgr := rfl
@[simp] theorem modCmd_stackTbl (f : CmdSt → CmdSt) (s : State) : (modCmd f s).stackTbl = s.stackTbl := rfl
@[simp] theorem modCmd_mem (f : CmdSt → CmdSt) (s : State) : (modCmd f s).mem = s.mem := rfl

/-! ## modRing -/

@[simp] theorem modRing_pending (p : Nat) (f : Ring → Ring) (s : State) : (modRing p f s).pending = s.pending := rfl
@[simp] theorem modRing_clock (p : Nat) (f : Ring → Ring) (s : State) : (modRing p f s).clock = s.clock := rfl
@[simp] theorem modRing_free (p : Nat) (f : Ring → Ring) (s : State) : (modRing p f s).free = s.free := rfl
@[simp] theorem modRing_out (p : Nat) (f : Ring → Ring) (s : State) : (modRing p f s).out = s.out := rfl
@[simp] theorem modRing_fuses (p : Nat) (f : Ring → Ring) (s : State) : (modRing p f s).fuses = s.fuses := rfl
@[simp] theorem modRing_rst (p : Nat) (f : Ring → Ring) (s : State) : (modRing p f s).rst = s.rst := rfl
@[simp] theorem modRing_gctl (p : Nat) (f : Ring → Ring) (s : State) : (modRing p f s).gctl = s.gctl := rfl
@[simp] theorem modRing_img (p : Nat) (f : Ring → Ring) (s : State) : (modRing p f s).img = s.img := rfl
@[simp] theorem modRing_units (p : Nat) (f : Ring → Ring) (s : State) : (modRing p f s).units = s.units := rfl
@[simp] theorem modRing_pwr (p : Nat) (f : Ring → Ring) (s : State) : (modRing p f s).pwr = s.pwr := rfl
@[simp] theorem modRing_flt (p : Nat) (f : Ring → Ring) (s : State) : (modRing p f s).flt = s.flt := rfl
@[simp] theorem modRing_evr (p : Nat) (f : Ring → Ring) (s : State) : (modRing p f s).evr = s.evr := rfl
@[simp] theorem modRing_tim (p : Nat) (f : Ring → Ring) (s : State) : (modRing p f s).tim = s.tim := rfl
@[simp] theorem modRing_dma (p : Nat) (f : Ring → Ring) (s : State) : (modRing p f s).dma = s.dma := rfl
@[simp] theorem modRing_bpm (p : Nat) (f : Ring → Ring) (s : State) : (modRing p f s).bpm = s.bpm := rfl
@[simp] theorem modRing_dbg (p : Nat) (f : Ring → Ring) (s : State) : (modRing p f s).dbg = s.dbg := rfl
@[simp] theorem modRing_route (p : Nat) (f : Ring → Ring) (s : State) : (modRing p f s).route = s.route := rfl
@[simp] theorem modRing_ports (p : Nat) (f : Ring → Ring) (s : State) : (modRing p f s).ports = s.ports := rfl
@[simp] theorem modRing_strands (p : Nat) (f : Ring → Ring) (s : State) : (modRing p f s).strands = s.strands := rfl
@[simp] theorem modRing_links (p : Nat) (f : Ring → Ring) (s : State) : (modRing p f s).links = s.links := rfl
@[simp] theorem modRing_opt (p : Nat) (f : Ring → Ring) (s : State) : (modRing p f s).opt = s.opt := rfl
@[simp] theorem modRing_swc (p : Nat) (f : Ring → Ring) (s : State) : (modRing p f s).swc = s.swc := rfl
@[simp] theorem modRing_queues (p : Nat) (f : Ring → Ring) (s : State) : (modRing p f s).queues = s.queues := rfl
@[simp] theorem modRing_scheds (p : Nat) (f : Ring → Ring) (s : State) : (modRing p f s).scheds = s.scheds := rfl
@[simp] theorem modRing_pkts (p : Nat) (f : Ring → Ring) (s : State) : (modRing p f s).pkts = s.pkts := rfl
@[simp] theorem modRing_nextPid (p : Nat) (f : Ring → Ring) (s : State) : (modRing p f s).nextPid = s.nextPid := rfl
@[simp] theorem modRing_staging (p : Nat) (f : Ring → Ring) (s : State) : (modRing p f s).staging = s.staging := rfl
@[simp] theorem modRing_red (p : Nat) (f : Ring → Ring) (s : State) : (modRing p f s).red = s.red := rfl
@[simp] theorem modRing_ctxs (p : Nat) (f : Ring → Ring) (s : State) : (modRing p f s).ctxs = s.ctxs := rfl
@[simp] theorem modRing_mgr (p : Nat) (f : Ring → Ring) (s : State) : (modRing p f s).mgr = s.mgr := rfl
@[simp] theorem modRing_stackTbl (p : Nat) (f : Ring → Ring) (s : State) : (modRing p f s).stackTbl = s.stackTbl := rfl
@[simp] theorem modRing_mem (p : Nat) (f : Ring → Ring) (s : State) : (modRing p f s).mem = s.mem := rfl

/-! ## modDma -/

@[simp] theorem modDma_pending (f : DmaSt → DmaSt) (s : State) : (modDma f s).pending = s.pending := rfl
@[simp] theorem modDma_clock (f : DmaSt → DmaSt) (s : State) : (modDma f s).clock = s.clock := rfl
@[simp] theorem modDma_free (f : DmaSt → DmaSt) (s : State) : (modDma f s).free = s.free := rfl
@[simp] theorem modDma_out (f : DmaSt → DmaSt) (s : State) : (modDma f s).out = s.out := rfl
@[simp] theorem modDma_fuses (f : DmaSt → DmaSt) (s : State) : (modDma f s).fuses = s.fuses := rfl
@[simp] theorem modDma_rst (f : DmaSt → DmaSt) (s : State) : (modDma f s).rst = s.rst := rfl
@[simp] theorem modDma_gctl (f : DmaSt → DmaSt) (s : State) : (modDma f s).gctl = s.gctl := rfl
@[simp] theorem modDma_img (f : DmaSt → DmaSt) (s : State) : (modDma f s).img = s.img := rfl
@[simp] theorem modDma_units (f : DmaSt → DmaSt) (s : State) : (modDma f s).units = s.units := rfl
@[simp] theorem modDma_pwr (f : DmaSt → DmaSt) (s : State) : (modDma f s).pwr = s.pwr := rfl
@[simp] theorem modDma_flt (f : DmaSt → DmaSt) (s : State) : (modDma f s).flt = s.flt := rfl
@[simp] theorem modDma_evr (f : DmaSt → DmaSt) (s : State) : (modDma f s).evr = s.evr := rfl
@[simp] theorem modDma_tim (f : DmaSt → DmaSt) (s : State) : (modDma f s).tim = s.tim := rfl
@[simp] theorem modDma_cmd (f : DmaSt → DmaSt) (s : State) : (modDma f s).cmd = s.cmd := rfl
@[simp] theorem modDma_dma (f : DmaSt → DmaSt) (s : State) : (modDma f s).dma = f s.dma := rfl
@[simp] theorem modDma_bpm (f : DmaSt → DmaSt) (s : State) : (modDma f s).bpm = s.bpm := rfl
@[simp] theorem modDma_dbg (f : DmaSt → DmaSt) (s : State) : (modDma f s).dbg = s.dbg := rfl
@[simp] theorem modDma_route (f : DmaSt → DmaSt) (s : State) : (modDma f s).route = s.route := rfl
@[simp] theorem modDma_ports (f : DmaSt → DmaSt) (s : State) : (modDma f s).ports = s.ports := rfl
@[simp] theorem modDma_strands (f : DmaSt → DmaSt) (s : State) : (modDma f s).strands = s.strands := rfl
@[simp] theorem modDma_links (f : DmaSt → DmaSt) (s : State) : (modDma f s).links = s.links := rfl
@[simp] theorem modDma_opt (f : DmaSt → DmaSt) (s : State) : (modDma f s).opt = s.opt := rfl
@[simp] theorem modDma_swc (f : DmaSt → DmaSt) (s : State) : (modDma f s).swc = s.swc := rfl
@[simp] theorem modDma_queues (f : DmaSt → DmaSt) (s : State) : (modDma f s).queues = s.queues := rfl
@[simp] theorem modDma_scheds (f : DmaSt → DmaSt) (s : State) : (modDma f s).scheds = s.scheds := rfl
@[simp] theorem modDma_pkts (f : DmaSt → DmaSt) (s : State) : (modDma f s).pkts = s.pkts := rfl
@[simp] theorem modDma_nextPid (f : DmaSt → DmaSt) (s : State) : (modDma f s).nextPid = s.nextPid := rfl
@[simp] theorem modDma_staging (f : DmaSt → DmaSt) (s : State) : (modDma f s).staging = s.staging := rfl
@[simp] theorem modDma_red (f : DmaSt → DmaSt) (s : State) : (modDma f s).red = s.red := rfl
@[simp] theorem modDma_ctxs (f : DmaSt → DmaSt) (s : State) : (modDma f s).ctxs = s.ctxs := rfl
@[simp] theorem modDma_mgr (f : DmaSt → DmaSt) (s : State) : (modDma f s).mgr = s.mgr := rfl
@[simp] theorem modDma_stackTbl (f : DmaSt → DmaSt) (s : State) : (modDma f s).stackTbl = s.stackTbl := rfl
@[simp] theorem modDma_mem (f : DmaSt → DmaSt) (s : State) : (modDma f s).mem = s.mem := rfl

/-! ## modChan -/

@[simp] theorem modChan_pending (p : Nat) (f : ChanSt → ChanSt) (s : State) : (modChan p f s).pending = s.pending := rfl
@[simp] theorem modChan_clock (p : Nat) (f : ChanSt → ChanSt) (s : State) : (modChan p f s).clock = s.clock := rfl
@[simp] theorem modChan_free (p : Nat) (f : ChanSt → ChanSt) (s : State) : (modChan p f s).free = s.free := rfl
@[simp] theorem modChan_out (p : Nat) (f : ChanSt → ChanSt) (s : State) : (modChan p f s).out = s.out := rfl
@[simp] theorem modChan_fuses (p : Nat) (f : ChanSt → ChanSt) (s : State) : (modChan p f s).fuses = s.fuses := rfl
@[simp] theorem modChan_rst (p : Nat) (f : ChanSt → ChanSt) (s : State) : (modChan p f s).rst = s.rst := rfl
@[simp] theorem modChan_gctl (p : Nat) (f : ChanSt → ChanSt) (s : State) : (modChan p f s).gctl = s.gctl := rfl
@[simp] theorem modChan_img (p : Nat) (f : ChanSt → ChanSt) (s : State) : (modChan p f s).img = s.img := rfl
@[simp] theorem modChan_units (p : Nat) (f : ChanSt → ChanSt) (s : State) : (modChan p f s).units = s.units := rfl
@[simp] theorem modChan_pwr (p : Nat) (f : ChanSt → ChanSt) (s : State) : (modChan p f s).pwr = s.pwr := rfl
@[simp] theorem modChan_flt (p : Nat) (f : ChanSt → ChanSt) (s : State) : (modChan p f s).flt = s.flt := rfl
@[simp] theorem modChan_evr (p : Nat) (f : ChanSt → ChanSt) (s : State) : (modChan p f s).evr = s.evr := rfl
@[simp] theorem modChan_tim (p : Nat) (f : ChanSt → ChanSt) (s : State) : (modChan p f s).tim = s.tim := rfl
@[simp] theorem modChan_cmd (p : Nat) (f : ChanSt → ChanSt) (s : State) : (modChan p f s).cmd = s.cmd := rfl
@[simp] theorem modChan_bpm (p : Nat) (f : ChanSt → ChanSt) (s : State) : (modChan p f s).bpm = s.bpm := rfl
@[simp] theorem modChan_dbg (p : Nat) (f : ChanSt → ChanSt) (s : State) : (modChan p f s).dbg = s.dbg := rfl
@[simp] theorem modChan_route (p : Nat) (f : ChanSt → ChanSt) (s : State) : (modChan p f s).route = s.route := rfl
@[simp] theorem modChan_ports (p : Nat) (f : ChanSt → ChanSt) (s : State) : (modChan p f s).ports = s.ports := rfl
@[simp] theorem modChan_strands (p : Nat) (f : ChanSt → ChanSt) (s : State) : (modChan p f s).strands = s.strands := rfl
@[simp] theorem modChan_links (p : Nat) (f : ChanSt → ChanSt) (s : State) : (modChan p f s).links = s.links := rfl
@[simp] theorem modChan_opt (p : Nat) (f : ChanSt → ChanSt) (s : State) : (modChan p f s).opt = s.opt := rfl
@[simp] theorem modChan_swc (p : Nat) (f : ChanSt → ChanSt) (s : State) : (modChan p f s).swc = s.swc := rfl
@[simp] theorem modChan_queues (p : Nat) (f : ChanSt → ChanSt) (s : State) : (modChan p f s).queues = s.queues := rfl
@[simp] theorem modChan_scheds (p : Nat) (f : ChanSt → ChanSt) (s : State) : (modChan p f s).scheds = s.scheds := rfl
@[simp] theorem modChan_pkts (p : Nat) (f : ChanSt → ChanSt) (s : State) : (modChan p f s).pkts = s.pkts := rfl
@[simp] theorem modChan_nextPid (p : Nat) (f : ChanSt → ChanSt) (s : State) : (modChan p f s).nextPid = s.nextPid := rfl
@[simp] theorem modChan_staging (p : Nat) (f : ChanSt → ChanSt) (s : State) : (modChan p f s).staging = s.staging := rfl
@[simp] theorem modChan_red (p : Nat) (f : ChanSt → ChanSt) (s : State) : (modChan p f s).red = s.red := rfl
@[simp] theorem modChan_ctxs (p : Nat) (f : ChanSt → ChanSt) (s : State) : (modChan p f s).ctxs = s.ctxs := rfl
@[simp] theorem modChan_mgr (p : Nat) (f : ChanSt → ChanSt) (s : State) : (modChan p f s).mgr = s.mgr := rfl
@[simp] theorem modChan_stackTbl (p : Nat) (f : ChanSt → ChanSt) (s : State) : (modChan p f s).stackTbl = s.stackTbl := rfl
@[simp] theorem modChan_mem (p : Nat) (f : ChanSt → ChanSt) (s : State) : (modChan p f s).mem = s.mem := rfl

/-! ## modBpm -/

@[simp] theorem modBpm_pending (f : BpmSt → BpmSt) (s : State) : (modBpm f s).pending = s.pending := rfl
@[simp] theorem modBpm_clock (f : BpmSt → BpmSt) (s : State) : (modBpm f s).clock = s.clock := rfl
@[simp] theorem modBpm_free (f : BpmSt → BpmSt) (s : State) : (modBpm f s).free = s.free := rfl
@[simp] theorem modBpm_out (f : BpmSt → BpmSt) (s : State) : (modBpm f s).out = s.out := rfl
@[simp] theorem modBpm_fuses (f : BpmSt → BpmSt) (s : State) : (modBpm f s).fuses = s.fuses := rfl
@[simp] theorem modBpm_rst (f : BpmSt → BpmSt) (s : State) : (modBpm f s).rst = s.rst := rfl
@[simp] theorem modBpm_gctl (f : BpmSt → BpmSt) (s : State) : (modBpm f s).gctl = s.gctl := rfl
@[simp] theorem modBpm_img (f : BpmSt → BpmSt) (s : State) : (modBpm f s).img = s.img := rfl
@[simp] theorem modBpm_units (f : BpmSt → BpmSt) (s : State) : (modBpm f s).units = s.units := rfl
@[simp] theorem modBpm_pwr (f : BpmSt → BpmSt) (s : State) : (modBpm f s).pwr = s.pwr := rfl
@[simp] theorem modBpm_flt (f : BpmSt → BpmSt) (s : State) : (modBpm f s).flt = s.flt := rfl
@[simp] theorem modBpm_evr (f : BpmSt → BpmSt) (s : State) : (modBpm f s).evr = s.evr := rfl
@[simp] theorem modBpm_tim (f : BpmSt → BpmSt) (s : State) : (modBpm f s).tim = s.tim := rfl
@[simp] theorem modBpm_cmd (f : BpmSt → BpmSt) (s : State) : (modBpm f s).cmd = s.cmd := rfl
@[simp] theorem modBpm_dma (f : BpmSt → BpmSt) (s : State) : (modBpm f s).dma = s.dma := rfl
@[simp] theorem modBpm_bpm (f : BpmSt → BpmSt) (s : State) : (modBpm f s).bpm = f s.bpm := rfl
@[simp] theorem modBpm_dbg (f : BpmSt → BpmSt) (s : State) : (modBpm f s).dbg = s.dbg := rfl
@[simp] theorem modBpm_route (f : BpmSt → BpmSt) (s : State) : (modBpm f s).route = s.route := rfl
@[simp] theorem modBpm_ports (f : BpmSt → BpmSt) (s : State) : (modBpm f s).ports = s.ports := rfl
@[simp] theorem modBpm_strands (f : BpmSt → BpmSt) (s : State) : (modBpm f s).strands = s.strands := rfl
@[simp] theorem modBpm_links (f : BpmSt → BpmSt) (s : State) : (modBpm f s).links = s.links := rfl
@[simp] theorem modBpm_opt (f : BpmSt → BpmSt) (s : State) : (modBpm f s).opt = s.opt := rfl
@[simp] theorem modBpm_swc (f : BpmSt → BpmSt) (s : State) : (modBpm f s).swc = s.swc := rfl
@[simp] theorem modBpm_queues (f : BpmSt → BpmSt) (s : State) : (modBpm f s).queues = s.queues := rfl
@[simp] theorem modBpm_scheds (f : BpmSt → BpmSt) (s : State) : (modBpm f s).scheds = s.scheds := rfl
@[simp] theorem modBpm_pkts (f : BpmSt → BpmSt) (s : State) : (modBpm f s).pkts = s.pkts := rfl
@[simp] theorem modBpm_nextPid (f : BpmSt → BpmSt) (s : State) : (modBpm f s).nextPid = s.nextPid := rfl
@[simp] theorem modBpm_staging (f : BpmSt → BpmSt) (s : State) : (modBpm f s).staging = s.staging := rfl
@[simp] theorem modBpm_red (f : BpmSt → BpmSt) (s : State) : (modBpm f s).red = s.red := rfl
@[simp] theorem modBpm_ctxs (f : BpmSt → BpmSt) (s : State) : (modBpm f s).ctxs = s.ctxs := rfl
@[simp] theorem modBpm_mgr (f : BpmSt → BpmSt) (s : State) : (modBpm f s).mgr = s.mgr := rfl
@[simp] theorem modBpm_stackTbl (f : BpmSt → BpmSt) (s : State) : (modBpm f s).stackTbl = s.stackTbl := rfl
@[simp] theorem modBpm_mem (f : BpmSt → BpmSt) (s : State) : (modBpm f s).mem = s.mem := rfl

/-! ## modPoolRing -/

@[simp] theorem modPoolRing_pending (p : Nat) (f : PoolRing → PoolRing) (s : State) : (modPoolRing p f s).pending = s.pending := rfl
@[simp] theorem modPoolRing_clock (p : Nat) (f : PoolRing → PoolRing) (s : State) : (modPoolRing p f s).clock = s.clock := rfl
@[simp] theorem modPoolRing_free (p : Nat) (f : PoolRing → PoolRing) (s : State) : (modPoolRing p f s).free = s.free := rfl
@[simp] theorem modPoolRing_out (p : Nat) (f : PoolRing → PoolRing) (s : State) : (modPoolRing p f s).out = s.out := rfl
@[simp] theorem modPoolRing_fuses (p : Nat) (f : PoolRing → PoolRing) (s : State) : (modPoolRing p f s).fuses = s.fuses := rfl
@[simp] theorem modPoolRing_rst (p : Nat) (f : PoolRing → PoolRing) (s : State) : (modPoolRing p f s).rst = s.rst := rfl
@[simp] theorem modPoolRing_gctl (p : Nat) (f : PoolRing → PoolRing) (s : State) : (modPoolRing p f s).gctl = s.gctl := rfl
@[simp] theorem modPoolRing_img (p : Nat) (f : PoolRing → PoolRing) (s : State) : (modPoolRing p f s).img = s.img := rfl
@[simp] theorem modPoolRing_units (p : Nat) (f : PoolRing → PoolRing) (s : State) : (modPoolRing p f s).units = s.units := rfl
@[simp] theorem modPoolRing_pwr (p : Nat) (f : PoolRing → PoolRing) (s : State) : (modPoolRing p f s).pwr = s.pwr := rfl
@[simp] theorem modPoolRing_flt (p : Nat) (f : PoolRing → PoolRing) (s : State) : (modPoolRing p f s).flt = s.flt := rfl
@[simp] theorem modPoolRing_evr (p : Nat) (f : PoolRing → PoolRing) (s : State) : (modPoolRing p f s).evr = s.evr := rfl
@[simp] theorem modPoolRing_tim (p : Nat) (f : PoolRing → PoolRing) (s : State) : (modPoolRing p f s).tim = s.tim := rfl
@[simp] theorem modPoolRing_cmd (p : Nat) (f : PoolRing → PoolRing) (s : State) : (modPoolRing p f s).cmd = s.cmd := rfl
@[simp] theorem modPoolRing_dma (p : Nat) (f : PoolRing → PoolRing) (s : State) : (modPoolRing p f s).dma = s.dma := rfl
@[simp] theorem modPoolRing_dbg (p : Nat) (f : PoolRing → PoolRing) (s : State) : (modPoolRing p f s).dbg = s.dbg := rfl
@[simp] theorem modPoolRing_route (p : Nat) (f : PoolRing → PoolRing) (s : State) : (modPoolRing p f s).route = s.route := rfl
@[simp] theorem modPoolRing_ports (p : Nat) (f : PoolRing → PoolRing) (s : State) : (modPoolRing p f s).ports = s.ports := rfl
@[simp] theorem modPoolRing_strands (p : Nat) (f : PoolRing → PoolRing) (s : State) : (modPoolRing p f s).strands = s.strands := rfl
@[simp] theorem modPoolRing_links (p : Nat) (f : PoolRing → PoolRing) (s : State) : (modPoolRing p f s).links = s.links := rfl
@[simp] theorem modPoolRing_opt (p : Nat) (f : PoolRing → PoolRing) (s : State) : (modPoolRing p f s).opt = s.opt := rfl
@[simp] theorem modPoolRing_swc (p : Nat) (f : PoolRing → PoolRing) (s : State) : (modPoolRing p f s).swc = s.swc := rfl
@[simp] theorem modPoolRing_queues (p : Nat) (f : PoolRing → PoolRing) (s : State) : (modPoolRing p f s).queues = s.queues := rfl
@[simp] theorem modPoolRing_scheds (p : Nat) (f : PoolRing → PoolRing) (s : State) : (modPoolRing p f s).scheds = s.scheds := rfl
@[simp] theorem modPoolRing_pkts (p : Nat) (f : PoolRing → PoolRing) (s : State) : (modPoolRing p f s).pkts = s.pkts := rfl
@[simp] theorem modPoolRing_nextPid (p : Nat) (f : PoolRing → PoolRing) (s : State) : (modPoolRing p f s).nextPid = s.nextPid := rfl
@[simp] theorem modPoolRing_staging (p : Nat) (f : PoolRing → PoolRing) (s : State) : (modPoolRing p f s).staging = s.staging := rfl
@[simp] theorem modPoolRing_red (p : Nat) (f : PoolRing → PoolRing) (s : State) : (modPoolRing p f s).red = s.red := rfl
@[simp] theorem modPoolRing_ctxs (p : Nat) (f : PoolRing → PoolRing) (s : State) : (modPoolRing p f s).ctxs = s.ctxs := rfl
@[simp] theorem modPoolRing_mgr (p : Nat) (f : PoolRing → PoolRing) (s : State) : (modPoolRing p f s).mgr = s.mgr := rfl
@[simp] theorem modPoolRing_stackTbl (p : Nat) (f : PoolRing → PoolRing) (s : State) : (modPoolRing p f s).stackTbl = s.stackTbl := rfl
@[simp] theorem modPoolRing_mem (p : Nat) (f : PoolRing → PoolRing) (s : State) : (modPoolRing p f s).mem = s.mem := rfl

/-! ## modDbg -/

@[simp] theorem modDbg_pending (f : DbgSt → DbgSt) (s : State) : (modDbg f s).pending = s.pending := rfl
@[simp] theorem modDbg_clock (f : DbgSt → DbgSt) (s : State) : (modDbg f s).clock = s.clock := rfl
@[simp] theorem modDbg_free (f : DbgSt → DbgSt) (s : State) : (modDbg f s).free = s.free := rfl
@[simp] theorem modDbg_out (f : DbgSt → DbgSt) (s : State) : (modDbg f s).out = s.out := rfl
@[simp] theorem modDbg_fuses (f : DbgSt → DbgSt) (s : State) : (modDbg f s).fuses = s.fuses := rfl
@[simp] theorem modDbg_rst (f : DbgSt → DbgSt) (s : State) : (modDbg f s).rst = s.rst := rfl
@[simp] theorem modDbg_gctl (f : DbgSt → DbgSt) (s : State) : (modDbg f s).gctl = s.gctl := rfl
@[simp] theorem modDbg_img (f : DbgSt → DbgSt) (s : State) : (modDbg f s).img = s.img := rfl
@[simp] theorem modDbg_units (f : DbgSt → DbgSt) (s : State) : (modDbg f s).units = s.units := rfl
@[simp] theorem modDbg_pwr (f : DbgSt → DbgSt) (s : State) : (modDbg f s).pwr = s.pwr := rfl
@[simp] theorem modDbg_flt (f : DbgSt → DbgSt) (s : State) : (modDbg f s).flt = s.flt := rfl
@[simp] theorem modDbg_evr (f : DbgSt → DbgSt) (s : State) : (modDbg f s).evr = s.evr := rfl
@[simp] theorem modDbg_tim (f : DbgSt → DbgSt) (s : State) : (modDbg f s).tim = s.tim := rfl
@[simp] theorem modDbg_cmd (f : DbgSt → DbgSt) (s : State) : (modDbg f s).cmd = s.cmd := rfl
@[simp] theorem modDbg_dma (f : DbgSt → DbgSt) (s : State) : (modDbg f s).dma = s.dma := rfl
@[simp] theorem modDbg_bpm (f : DbgSt → DbgSt) (s : State) : (modDbg f s).bpm = s.bpm := rfl
@[simp] theorem modDbg_dbg (f : DbgSt → DbgSt) (s : State) : (modDbg f s).dbg = f s.dbg := rfl
@[simp] theorem modDbg_route (f : DbgSt → DbgSt) (s : State) : (modDbg f s).route = s.route := rfl
@[simp] theorem modDbg_ports (f : DbgSt → DbgSt) (s : State) : (modDbg f s).ports = s.ports := rfl
@[simp] theorem modDbg_strands (f : DbgSt → DbgSt) (s : State) : (modDbg f s).strands = s.strands := rfl
@[simp] theorem modDbg_links (f : DbgSt → DbgSt) (s : State) : (modDbg f s).links = s.links := rfl
@[simp] theorem modDbg_opt (f : DbgSt → DbgSt) (s : State) : (modDbg f s).opt = s.opt := rfl
@[simp] theorem modDbg_swc (f : DbgSt → DbgSt) (s : State) : (modDbg f s).swc = s.swc := rfl
@[simp] theorem modDbg_queues (f : DbgSt → DbgSt) (s : State) : (modDbg f s).queues = s.queues := rfl
@[simp] theorem modDbg_scheds (f : DbgSt → DbgSt) (s : State) : (modDbg f s).scheds = s.scheds := rfl
@[simp] theorem modDbg_pkts (f : DbgSt → DbgSt) (s : State) : (modDbg f s).pkts = s.pkts := rfl
@[simp] theorem modDbg_nextPid (f : DbgSt → DbgSt) (s : State) : (modDbg f s).nextPid = s.nextPid := rfl
@[simp] theorem modDbg_staging (f : DbgSt → DbgSt) (s : State) : (modDbg f s).staging = s.staging := rfl
@[simp] theorem modDbg_red (f : DbgSt → DbgSt) (s : State) : (modDbg f s).red = s.red := rfl
@[simp] theorem modDbg_ctxs (f : DbgSt → DbgSt) (s : State) : (modDbg f s).ctxs = s.ctxs := rfl
@[simp] theorem modDbg_mgr (f : DbgSt → DbgSt) (s : State) : (modDbg f s).mgr = s.mgr := rfl
@[simp] theorem modDbg_stackTbl (f : DbgSt → DbgSt) (s : State) : (modDbg f s).stackTbl = s.stackTbl := rfl
@[simp] theorem modDbg_mem (f : DbgSt → DbgSt) (s : State) : (modDbg f s).mem = s.mem := rfl

/-! ## modTrace -/

@[simp] theorem modTrace_pending (p : Nat) (f : Trace → Trace) (s : State) : (modTrace p f s).pending = s.pending := rfl
@[simp] theorem modTrace_clock (p : Nat) (f : Trace → Trace) (s : State) : (modTrace p f s).clock = s.clock := rfl
@[simp] theorem modTrace_free (p : Nat) (f : Trace → Trace) (s : State) : (modTrace p f s).free = s.free := rfl
@[simp] theorem modTrace_out (p : Nat) (f : Trace → Trace) (s : State) : (modTrace p f s).out = s.out := rfl
@[simp] theorem modTrace_fuses (p : Nat) (f : Trace → Trace) (s : State) : (modTrace p f s).fuses = s.fuses := rfl
@[simp] theorem modTrace_rst (p : Nat) (f : Trace → Trace) (s : State) : (modTrace p f s).rst = s.rst := rfl
@[simp] theorem modTrace_gctl (p : Nat) (f : Trace → Trace) (s : State) : (modTrace p f s).gctl = s.gctl := rfl
@[simp] theorem modTrace_img (p : Nat) (f : Trace → Trace) (s : State) : (modTrace p f s).img = s.img := rfl
@[simp] theorem modTrace_units (p : Nat) (f : Trace → Trace) (s : State) : (modTrace p f s).units = s.units := rfl
@[simp] theorem modTrace_pwr (p : Nat) (f : Trace → Trace) (s : State) : (modTrace p f s).pwr = s.pwr := rfl
@[simp] theorem modTrace_flt (p : Nat) (f : Trace → Trace) (s : State) : (modTrace p f s).flt = s.flt := rfl
@[simp] theorem modTrace_evr (p : Nat) (f : Trace → Trace) (s : State) : (modTrace p f s).evr = s.evr := rfl
@[simp] theorem modTrace_tim (p : Nat) (f : Trace → Trace) (s : State) : (modTrace p f s).tim = s.tim := rfl
@[simp] theorem modTrace_cmd (p : Nat) (f : Trace → Trace) (s : State) : (modTrace p f s).cmd = s.cmd := rfl
@[simp] theorem modTrace_dma (p : Nat) (f : Trace → Trace) (s : State) : (modTrace p f s).dma = s.dma := rfl
@[simp] theorem modTrace_bpm (p : Nat) (f : Trace → Trace) (s : State) : (modTrace p f s).bpm = s.bpm := rfl
@[simp] theorem modTrace_route (p : Nat) (f : Trace → Trace) (s : State) : (modTrace p f s).route = s.route := rfl
@[simp] theorem modTrace_ports (p : Nat) (f : Trace → Trace) (s : State) : (modTrace p f s).ports = s.ports := rfl
@[simp] theorem modTrace_strands (p : Nat) (f : Trace → Trace) (s : State) : (modTrace p f s).strands = s.strands := rfl
@[simp] theorem modTrace_links (p : Nat) (f : Trace → Trace) (s : State) : (modTrace p f s).links = s.links := rfl
@[simp] theorem modTrace_opt (p : Nat) (f : Trace → Trace) (s : State) : (modTrace p f s).opt = s.opt := rfl
@[simp] theorem modTrace_swc (p : Nat) (f : Trace → Trace) (s : State) : (modTrace p f s).swc = s.swc := rfl
@[simp] theorem modTrace_queues (p : Nat) (f : Trace → Trace) (s : State) : (modTrace p f s).queues = s.queues := rfl
@[simp] theorem modTrace_scheds (p : Nat) (f : Trace → Trace) (s : State) : (modTrace p f s).scheds = s.scheds := rfl
@[simp] theorem modTrace_pkts (p : Nat) (f : Trace → Trace) (s : State) : (modTrace p f s).pkts = s.pkts := rfl
@[simp] theorem modTrace_nextPid (p : Nat) (f : Trace → Trace) (s : State) : (modTrace p f s).nextPid = s.nextPid := rfl
@[simp] theorem modTrace_staging (p : Nat) (f : Trace → Trace) (s : State) : (modTrace p f s).staging = s.staging := rfl
@[simp] theorem modTrace_red (p : Nat) (f : Trace → Trace) (s : State) : (modTrace p f s).red = s.red := rfl
@[simp] theorem modTrace_ctxs (p : Nat) (f : Trace → Trace) (s : State) : (modTrace p f s).ctxs = s.ctxs := rfl
@[simp] theorem modTrace_mgr (p : Nat) (f : Trace → Trace) (s : State) : (modTrace p f s).mgr = s.mgr := rfl
@[simp] theorem modTrace_stackTbl (p : Nat) (f : Trace → Trace) (s : State) : (modTrace p f s).stackTbl = s.stackTbl := rfl
@[simp] theorem modTrace_mem (p : Nat) (f : Trace → Trace) (s : State) : (modTrace p f s).mem = s.mem := rfl

/-! ## modRoute -/

@[simp] theorem modRoute_pending (f : RouteSt → RouteSt) (s : State) : (modRoute f s).pending = s.pending := rfl
@[simp] theorem modRoute_clock (f : RouteSt → RouteSt) (s : State) : (modRoute f s).clock = s.clock := rfl
@[simp] theorem modRoute_free (f : RouteSt → RouteSt) (s : State) : (modRoute f s).free = s.free := rfl
@[simp] theorem modRoute_out (f : RouteSt → RouteSt) (s : State) : (modRoute f s).out = s.out := rfl
@[simp] theorem modRoute_fuses (f : RouteSt → RouteSt) (s : State) : (modRoute f s).fuses = s.fuses := rfl
@[simp] theorem modRoute_rst (f : RouteSt → RouteSt) (s : State) : (modRoute f s).rst = s.rst := rfl
@[simp] theorem modRoute_gctl (f : RouteSt → RouteSt) (s : State) : (modRoute f s).gctl = s.gctl := rfl
@[simp] theorem modRoute_img (f : RouteSt → RouteSt) (s : State) : (modRoute f s).img = s.img := rfl
@[simp] theorem modRoute_units (f : RouteSt → RouteSt) (s : State) : (modRoute f s).units = s.units := rfl
@[simp] theorem modRoute_pwr (f : RouteSt → RouteSt) (s : State) : (modRoute f s).pwr = s.pwr := rfl
@[simp] theorem modRoute_flt (f : RouteSt → RouteSt) (s : State) : (modRoute f s).flt = s.flt := rfl
@[simp] theorem modRoute_evr (f : RouteSt → RouteSt) (s : State) : (modRoute f s).evr = s.evr := rfl
@[simp] theorem modRoute_tim (f : RouteSt → RouteSt) (s : State) : (modRoute f s).tim = s.tim := rfl
@[simp] theorem modRoute_cmd (f : RouteSt → RouteSt) (s : State) : (modRoute f s).cmd = s.cmd := rfl
@[simp] theorem modRoute_dma (f : RouteSt → RouteSt) (s : State) : (modRoute f s).dma = s.dma := rfl
@[simp] theorem modRoute_bpm (f : RouteSt → RouteSt) (s : State) : (modRoute f s).bpm = s.bpm := rfl
@[simp] theorem modRoute_dbg (f : RouteSt → RouteSt) (s : State) : (modRoute f s).dbg = s.dbg := rfl
@[simp] theorem modRoute_route (f : RouteSt → RouteSt) (s : State) : (modRoute f s).route = f s.route := rfl
@[simp] theorem modRoute_ports (f : RouteSt → RouteSt) (s : State) : (modRoute f s).ports = s.ports := rfl
@[simp] theorem modRoute_strands (f : RouteSt → RouteSt) (s : State) : (modRoute f s).strands = s.strands := rfl
@[simp] theorem modRoute_links (f : RouteSt → RouteSt) (s : State) : (modRoute f s).links = s.links := rfl
@[simp] theorem modRoute_opt (f : RouteSt → RouteSt) (s : State) : (modRoute f s).opt = s.opt := rfl
@[simp] theorem modRoute_swc (f : RouteSt → RouteSt) (s : State) : (modRoute f s).swc = s.swc := rfl
@[simp] theorem modRoute_queues (f : RouteSt → RouteSt) (s : State) : (modRoute f s).queues = s.queues := rfl
@[simp] theorem modRoute_scheds (f : RouteSt → RouteSt) (s : State) : (modRoute f s).scheds = s.scheds := rfl
@[simp] theorem modRoute_pkts (f : RouteSt → RouteSt) (s : State) : (modRoute f s).pkts = s.pkts := rfl
@[simp] theorem modRoute_nextPid (f : RouteSt → RouteSt) (s : State) : (modRoute f s).nextPid = s.nextPid := rfl
@[simp] theorem modRoute_staging (f : RouteSt → RouteSt) (s : State) : (modRoute f s).staging = s.staging := rfl
@[simp] theorem modRoute_red (f : RouteSt → RouteSt) (s : State) : (modRoute f s).red = s.red := rfl
@[simp] theorem modRoute_ctxs (f : RouteSt → RouteSt) (s : State) : (modRoute f s).ctxs = s.ctxs := rfl
@[simp] theorem modRoute_mgr (f : RouteSt → RouteSt) (s : State) : (modRoute f s).mgr = s.mgr := rfl
@[simp] theorem modRoute_stackTbl (f : RouteSt → RouteSt) (s : State) : (modRoute f s).stackTbl = s.stackTbl := rfl
@[simp] theorem modRoute_mem (f : RouteSt → RouteSt) (s : State) : (modRoute f s).mem = s.mem := rfl

/-! ## modPwr -/

@[simp] theorem modPwr_pending (f : PwrSt → PwrSt) (s : State) : (modPwr f s).pending = s.pending := rfl
@[simp] theorem modPwr_clock (f : PwrSt → PwrSt) (s : State) : (modPwr f s).clock = s.clock := rfl
@[simp] theorem modPwr_free (f : PwrSt → PwrSt) (s : State) : (modPwr f s).free = s.free := rfl
@[simp] theorem modPwr_out (f : PwrSt → PwrSt) (s : State) : (modPwr f s).out = s.out := rfl
@[simp] theorem modPwr_fuses (f : PwrSt → PwrSt) (s : State) : (modPwr f s).fuses = s.fuses := rfl
@[simp] theorem modPwr_rst (f : PwrSt → PwrSt) (s : State) : (modPwr f s).rst = s.rst := rfl
@[simp] theorem modPwr_gctl (f : PwrSt → PwrSt) (s : State) : (modPwr f s).gctl = s.gctl := rfl
@[simp] theorem modPwr_img (f : PwrSt → PwrSt) (s : State) : (modPwr f s).img = s.img := rfl
@[simp] theorem modPwr_units (f : PwrSt → PwrSt) (s : State) : (modPwr f s).units = s.units := rfl
@[simp] theorem modPwr_pwr (f : PwrSt → PwrSt) (s : State) : (modPwr f s).pwr = f s.pwr := rfl
@[simp] theorem modPwr_flt (f : PwrSt → PwrSt) (s : State) : (modPwr f s).flt = s.flt := rfl
@[simp] theorem modPwr_evr (f : PwrSt → PwrSt) (s : State) : (modPwr f s).evr = s.evr := rfl
@[simp] theorem modPwr_tim (f : PwrSt → PwrSt) (s : State) : (modPwr f s).tim = s.tim := rfl
@[simp] theorem modPwr_cmd (f : PwrSt → PwrSt) (s : State) : (modPwr f s).cmd = s.cmd := rfl
@[simp] theorem modPwr_dma (f : PwrSt → PwrSt) (s : State) : (modPwr f s).dma = s.dma := rfl
@[simp] theorem modPwr_bpm (f : PwrSt → PwrSt) (s : State) : (modPwr f s).bpm = s.bpm := rfl
@[simp] theorem modPwr_dbg (f : PwrSt → PwrSt) (s : State) : (modPwr f s).dbg = s.dbg := rfl
@[simp] theorem modPwr_route (f : PwrSt → PwrSt) (s : State) : (modPwr f s).route = s.route := rfl
@[simp] theorem modPwr_ports (f : PwrSt → PwrSt) (s : State) : (modPwr f s).ports = s.ports := rfl
@[simp] theorem modPwr_strands (f : PwrSt → PwrSt) (s : State) : (modPwr f s).strands = s.strands := rfl
@[simp] theorem modPwr_links (f : PwrSt → PwrSt) (s : State) : (modPwr f s).links = s.links := rfl
@[simp] theorem modPwr_opt (f : PwrSt → PwrSt) (s : State) : (modPwr f s).opt = s.opt := rfl
@[simp] theorem modPwr_swc (f : PwrSt → PwrSt) (s : State) : (modPwr f s).swc = s.swc := rfl
@[simp] theorem modPwr_queues (f : PwrSt → PwrSt) (s : State) : (modPwr f s).queues = s.queues := rfl
@[simp] theorem modPwr_scheds (f : PwrSt → PwrSt) (s : State) : (modPwr f s).scheds = s.scheds := rfl
@[simp] theorem modPwr_pkts (f : PwrSt → PwrSt) (s : State) : (modPwr f s).pkts = s.pkts := rfl
@[simp] theorem modPwr_nextPid (f : PwrSt → PwrSt) (s : State) : (modPwr f s).nextPid = s.nextPid := rfl
@[simp] theorem modPwr_staging (f : PwrSt → PwrSt) (s : State) : (modPwr f s).staging = s.staging := rfl
@[simp] theorem modPwr_red (f : PwrSt → PwrSt) (s : State) : (modPwr f s).red = s.red := rfl
@[simp] theorem modPwr_ctxs (f : PwrSt → PwrSt) (s : State) : (modPwr f s).ctxs = s.ctxs := rfl
@[simp] theorem modPwr_mgr (f : PwrSt → PwrSt) (s : State) : (modPwr f s).mgr = s.mgr := rfl
@[simp] theorem modPwr_stackTbl (f : PwrSt → PwrSt) (s : State) : (modPwr f s).stackTbl = s.stackTbl := rfl
@[simp] theorem modPwr_mem (f : PwrSt → PwrSt) (s : State) : (modPwr f s).mem = s.mem := rfl

/-! ## modFlt -/

@[simp] theorem modFlt_pending (f : FltSt → FltSt) (s : State) : (modFlt f s).pending = s.pending := rfl
@[simp] theorem modFlt_clock (f : FltSt → FltSt) (s : State) : (modFlt f s).clock = s.clock := rfl
@[simp] theorem modFlt_free (f : FltSt → FltSt) (s : State) : (modFlt f s).free = s.free := rfl
@[simp] theorem modFlt_out (f : FltSt → FltSt) (s : State) : (modFlt f s).out = s.out := rfl
@[simp] theorem modFlt_fuses (f : FltSt → FltSt) (s : State) : (modFlt f s).fuses = s.fuses := rfl
@[simp] theorem modFlt_rst (f : FltSt → FltSt) (s : State) : (modFlt f s).rst = s.rst := rfl
@[simp] theorem modFlt_gctl (f : FltSt → FltSt) (s : State) : (modFlt f s).gctl = s.gctl := rfl
@[simp] theorem modFlt_img (f : FltSt → FltSt) (s : State) : (modFlt f s).img = s.img := rfl
@[simp] theorem modFlt_units (f : FltSt → FltSt) (s : State) : (modFlt f s).units = s.units := rfl
@[simp] theorem modFlt_pwr (f : FltSt → FltSt) (s : State) : (modFlt f s).pwr = s.pwr := rfl
@[simp] theorem modFlt_flt (f : FltSt → FltSt) (s : State) : (modFlt f s).flt = f s.flt := rfl
@[simp] theorem modFlt_evr (f : FltSt → FltSt) (s : State) : (modFlt f s).evr = s.evr := rfl
@[simp] theorem modFlt_tim (f : FltSt → FltSt) (s : State) : (modFlt f s).tim = s.tim := rfl
@[simp] theorem modFlt_cmd (f : FltSt → FltSt) (s : State) : (modFlt f s).cmd = s.cmd := rfl
@[simp] theorem modFlt_dma (f : FltSt → FltSt) (s : State) : (modFlt f s).dma = s.dma := rfl
@[simp] theorem modFlt_bpm (f : FltSt → FltSt) (s : State) : (modFlt f s).bpm = s.bpm := rfl
@[simp] theorem modFlt_dbg (f : FltSt → FltSt) (s : State) : (modFlt f s).dbg = s.dbg := rfl
@[simp] theorem modFlt_route (f : FltSt → FltSt) (s : State) : (modFlt f s).route = s.route := rfl
@[simp] theorem modFlt_ports (f : FltSt → FltSt) (s : State) : (modFlt f s).ports = s.ports := rfl
@[simp] theorem modFlt_strands (f : FltSt → FltSt) (s : State) : (modFlt f s).strands = s.strands := rfl
@[simp] theorem modFlt_links (f : FltSt → FltSt) (s : State) : (modFlt f s).links = s.links := rfl
@[simp] theorem modFlt_opt (f : FltSt → FltSt) (s : State) : (modFlt f s).opt = s.opt := rfl
@[simp] theorem modFlt_swc (f : FltSt → FltSt) (s : State) : (modFlt f s).swc = s.swc := rfl
@[simp] theorem modFlt_queues (f : FltSt → FltSt) (s : State) : (modFlt f s).queues = s.queues := rfl
@[simp] theorem modFlt_scheds (f : FltSt → FltSt) (s : State) : (modFlt f s).scheds = s.scheds := rfl
@[simp] theorem modFlt_pkts (f : FltSt → FltSt) (s : State) : (modFlt f s).pkts = s.pkts := rfl
@[simp] theorem modFlt_nextPid (f : FltSt → FltSt) (s : State) : (modFlt f s).nextPid = s.nextPid := rfl
@[simp] theorem modFlt_staging (f : FltSt → FltSt) (s : State) : (modFlt f s).staging = s.staging := rfl
@[simp] theorem modFlt_red (f : FltSt → FltSt) (s : State) : (modFlt f s).red = s.red := rfl
@[simp] theorem modFlt_ctxs (f : FltSt → FltSt) (s : State) : (modFlt f s).ctxs = s.ctxs := rfl
@[simp] theorem modFlt_mgr (f : FltSt → FltSt) (s : State) : (modFlt f s).mgr = s.mgr := rfl
@[simp] theorem modFlt_stackTbl (f : FltSt → FltSt) (s : State) : (modFlt f s).stackTbl = s.stackTbl := rfl
@[simp] theorem modFlt_mem (f : FltSt → FltSt) (s : State) : (modFlt f s).mem = s.mem := rfl

/-! ## modEvr -/

@[simp] theorem modEvr_pending (f : EvrSt → EvrSt) (s : State) : (modEvr f s).pending = s.pending := rfl
@[simp] theorem modEvr_clock (f : EvrSt → EvrSt) (s : State) : (modEvr f s).clock = s.clock := rfl
@[simp] theorem modEvr_free (f : EvrSt → EvrSt) (s : State) : (modEvr f s).free = s.free := rfl
@[simp] theorem modEvr_out (f : EvrSt → EvrSt) (s : State) : (modEvr f s).out = s.out := rfl
@[simp] theorem modEvr_fuses (f : EvrSt → EvrSt) (s : State) : (modEvr f s).fuses = s.fuses := rfl
@[simp] theorem modEvr_rst (f : EvrSt → EvrSt) (s : State) : (modEvr f s).rst = s.rst := rfl
@[simp] theorem modEvr_gctl (f : EvrSt → EvrSt) (s : State) : (modEvr f s).gctl = s.gctl := rfl
@[simp] theorem modEvr_img (f : EvrSt → EvrSt) (s : State) : (modEvr f s).img = s.img := rfl
@[simp] theorem modEvr_units (f : EvrSt → EvrSt) (s : State) : (modEvr f s).units = s.units := rfl
@[simp] theorem modEvr_pwr (f : EvrSt → EvrSt) (s : State) : (modEvr f s).pwr = s.pwr := rfl
@[simp] theorem modEvr_flt (f : EvrSt → EvrSt) (s : State) : (modEvr f s).flt = s.flt := rfl
@[simp] theorem modEvr_evr (f : EvrSt → EvrSt) (s : State) : (modEvr f s).evr = f s.evr := rfl
@[simp] theorem modEvr_tim (f : EvrSt → EvrSt) (s : State) : (modEvr f s).tim = s.tim := rfl
@[simp] theorem modEvr_cmd (f : EvrSt → EvrSt) (s : State) : (modEvr f s).cmd = s.cmd := rfl
@[simp] theorem modEvr_dma (f : EvrSt → EvrSt) (s : State) : (modEvr f s).dma = s.dma := rfl
@[simp] theorem modEvr_bpm (f : EvrSt → EvrSt) (s : State) : (modEvr f s).bpm = s.bpm := rfl
@[simp] theorem modEvr_dbg (f : EvrSt → EvrSt) (s : State) : (modEvr f s).dbg = s.dbg := rfl
@[simp] theorem modEvr_route (f : EvrSt → EvrSt) (s : State) : (modEvr f s).route = s.route := rfl
@[simp] theorem modEvr_ports (f : EvrSt → EvrSt) (s : State) : (modEvr f s).ports = s.ports := rfl
@[simp] theorem modEvr_strands (f : EvrSt → EvrSt) (s : State) : (modEvr f s).strands = s.strands := rfl
@[simp] theorem modEvr_links (f : EvrSt → EvrSt) (s : State) : (modEvr f s).links = s.links := rfl
@[simp] theorem modEvr_opt (f : EvrSt → EvrSt) (s : State) : (modEvr f s).opt = s.opt := rfl
@[simp] theorem modEvr_swc (f : EvrSt → EvrSt) (s : State) : (modEvr f s).swc = s.swc := rfl
@[simp] theorem modEvr_queues (f : EvrSt → EvrSt) (s : State) : (modEvr f s).queues = s.queues := rfl
@[simp] theorem modEvr_scheds (f : EvrSt → EvrSt) (s : State) : (modEvr f s).scheds = s.scheds := rfl
@[simp] theorem modEvr_pkts (f : EvrSt → EvrSt) (s : State) : (modEvr f s).pkts = s.pkts := rfl
@[simp] theorem modEvr_nextPid (f : EvrSt → EvrSt) (s : State) : (modEvr f s).nextPid = s.nextPid := rfl
@[simp] theorem modEvr_staging (f : EvrSt → EvrSt) (s : State) : (modEvr f s).staging = s.staging := rfl
@[simp] theorem modEvr_red (f : EvrSt → EvrSt) (s : State) : (modEvr f s).red = s.red := rfl
@[simp] theorem modEvr_ctxs (f : EvrSt → EvrSt) (s : State) : (modEvr f s).ctxs = s.ctxs := rfl
@[simp] theorem modEvr_mgr (f : EvrSt → EvrSt) (s : State) : (modEvr f s).mgr = s.mgr := rfl
@[simp] theorem modEvr_stackTbl (f : EvrSt → EvrSt) (s : State) : (modEvr f s).stackTbl = s.stackTbl := rfl
@[simp] theorem modEvr_mem (f : EvrSt → EvrSt) (s : State) : (modEvr f s).mem = s.mem := rfl

/-! ## modTim -/

@[simp] theorem modTim_pending (f : TimSt → TimSt) (s : State) : (modTim f s).pending = s.pending := rfl
@[simp] theorem modTim_clock (f : TimSt → TimSt) (s : State) : (modTim f s).clock = s.clock := rfl
@[simp] theorem modTim_free (f : TimSt → TimSt) (s : State) : (modTim f s).free = s.free := rfl
@[simp] theorem modTim_out (f : TimSt → TimSt) (s : State) : (modTim f s).out = s.out := rfl
@[simp] theorem modTim_fuses (f : TimSt → TimSt) (s : State) : (modTim f s).fuses = s.fuses := rfl
@[simp] theorem modTim_rst (f : TimSt → TimSt) (s : State) : (modTim f s).rst = s.rst := rfl
@[simp] theorem modTim_gctl (f : TimSt → TimSt) (s : State) : (modTim f s).gctl = s.gctl := rfl
@[simp] theorem modTim_img (f : TimSt → TimSt) (s : State) : (modTim f s).img = s.img := rfl
@[simp] theorem modTim_units (f : TimSt → TimSt) (s : State) : (modTim f s).units = s.units := rfl
@[simp] theorem modTim_pwr (f : TimSt → TimSt) (s : State) : (modTim f s).pwr = s.pwr := rfl
@[simp] theorem modTim_flt (f : TimSt → TimSt) (s : State) : (modTim f s).flt = s.flt := rfl
@[simp] theorem modTim_evr (f : TimSt → TimSt) (s : State) : (modTim f s).evr = s.evr := rfl
@[simp] theorem modTim_tim (f : TimSt → TimSt) (s : State) : (modTim f s).tim = f s.tim := rfl
@[simp] theorem modTim_cmd (f : TimSt → TimSt) (s : State) : (modTim f s).cmd = s.cmd := rfl
@[simp] theorem modTim_dma (f : TimSt → TimSt) (s : State) : (modTim f s).dma = s.dma := rfl
@[simp] theorem modTim_bpm (f : TimSt → TimSt) (s : State) : (modTim f s).bpm = s.bpm := rfl
@[simp] theorem modTim_dbg (f : TimSt → TimSt) (s : State) : (modTim f s).dbg = s.dbg := rfl
@[simp] theorem modTim_route (f : TimSt → TimSt) (s : State) : (modTim f s).route = s.route := rfl
@[simp] theorem modTim_ports (f : TimSt → TimSt) (s : State) : (modTim f s).ports = s.ports := rfl
@[simp] theorem modTim_strands (f : TimSt → TimSt) (s : State) : (modTim f s).strands = s.strands := rfl
@[simp] theorem modTim_links (f : TimSt → TimSt) (s : State) : (modTim f s).links = s.links := rfl
@[simp] theorem modTim_opt (f : TimSt → TimSt) (s : State) : (modTim f s).opt = s.opt := rfl
@[simp] theorem modTim_swc (f : TimSt → TimSt) (s : State) : (modTim f s).swc = s.swc := rfl
@[simp] theorem modTim_queues (f : TimSt → TimSt) (s : State) : (modTim f s).queues = s.queues := rfl
@[simp] theorem modTim_scheds (f : TimSt → TimSt) (s : State) : (modTim f s).scheds = s.scheds := rfl
@[simp] theorem modTim_pkts (f : TimSt → TimSt) (s : State) : (modTim f s).pkts = s.pkts := rfl
@[simp] theorem modTim_nextPid (f : TimSt → TimSt) (s : State) : (modTim f s).nextPid = s.nextPid := rfl
@[simp] theorem modTim_staging (f : TimSt → TimSt) (s : State) : (modTim f s).staging = s.staging := rfl
@[simp] theorem modTim_red (f : TimSt → TimSt) (s : State) : (modTim f s).red = s.red := rfl
@[simp] theorem modTim_ctxs (f : TimSt → TimSt) (s : State) : (modTim f s).ctxs = s.ctxs := rfl
@[simp] theorem modTim_mgr (f : TimSt → TimSt) (s : State) : (modTim f s).mgr = s.mgr := rfl
@[simp] theorem modTim_stackTbl (f : TimSt → TimSt) (s : State) : (modTim f s).stackTbl = s.stackTbl := rfl
@[simp] theorem modTim_mem (f : TimSt → TimSt) (s : State) : (modTim f s).mem = s.mem := rfl

/-! ## modRst -/

@[simp] theorem modRst_pending (f : RstSt → RstSt) (s : State) : (modRst f s).pending = s.pending := rfl
@[simp] theorem modRst_clock (f : RstSt → RstSt) (s : State) : (modRst f s).clock = s.clock := rfl
@[simp] theorem modRst_free (f : RstSt → RstSt) (s : State) : (modRst f s).free = s.free := rfl
@[simp] theorem modRst_out (f : RstSt → RstSt) (s : State) : (modRst f s).out = s.out := rfl
@[simp] theorem modRst_fuses (f : RstSt → RstSt) (s : State) : (modRst f s).fuses = s.fuses := rfl
@[simp] theorem modRst_rst (f : RstSt → RstSt) (s : State) : (modRst f s).rst = f s.rst := rfl
@[simp] theorem modRst_gctl (f : RstSt → RstSt) (s : State) : (modRst f s).gctl = s.gctl := rfl
@[simp] theorem modRst_img (f : RstSt → RstSt) (s : State) : (modRst f s).img = s.img := rfl
@[simp] theorem modRst_units (f : RstSt → RstSt) (s : State) : (modRst f s).units = s.units := rfl
@[simp] theorem modRst_pwr (f : RstSt → RstSt) (s : State) : (modRst f s).pwr = s.pwr := rfl
@[simp] theorem modRst_flt (f : RstSt → RstSt) (s : State) : (modRst f s).flt = s.flt := rfl
@[simp] theorem modRst_evr (f : RstSt → RstSt) (s : State) : (modRst f s).evr = s.evr := rfl
@[simp] theorem modRst_tim (f : RstSt → RstSt) (s : State) : (modRst f s).tim = s.tim := rfl
@[simp] theorem modRst_cmd (f : RstSt → RstSt) (s : State) : (modRst f s).cmd = s.cmd := rfl
@[simp] theorem modRst_dma (f : RstSt → RstSt) (s : State) : (modRst f s).dma = s.dma := rfl
@[simp] theorem modRst_bpm (f : RstSt → RstSt) (s : State) : (modRst f s).bpm = s.bpm := rfl
@[simp] theorem modRst_dbg (f : RstSt → RstSt) (s : State) : (modRst f s).dbg = s.dbg := rfl
@[simp] theorem modRst_route (f : RstSt → RstSt) (s : State) : (modRst f s).route = s.route := rfl
@[simp] theorem modRst_ports (f : RstSt → RstSt) (s : State) : (modRst f s).ports = s.ports := rfl
@[simp] theorem modRst_strands (f : RstSt → RstSt) (s : State) : (modRst f s).strands = s.strands := rfl
@[simp] theorem modRst_links (f : RstSt → RstSt) (s : State) : (modRst f s).links = s.links := rfl
@[simp] theorem modRst_opt (f : RstSt → RstSt) (s : State) : (modRst f s).opt = s.opt := rfl
@[simp] theorem modRst_swc (f : RstSt → RstSt) (s : State) : (modRst f s).swc = s.swc := rfl
@[simp] theorem modRst_queues (f : RstSt → RstSt) (s : State) : (modRst f s).queues = s.queues := rfl
@[simp] theorem modRst_scheds (f : RstSt → RstSt) (s : State) : (modRst f s).scheds = s.scheds := rfl
@[simp] theorem modRst_pkts (f : RstSt → RstSt) (s : State) : (modRst f s).pkts = s.pkts := rfl
@[simp] theorem modRst_nextPid (f : RstSt → RstSt) (s : State) : (modRst f s).nextPid = s.nextPid := rfl
@[simp] theorem modRst_staging (f : RstSt → RstSt) (s : State) : (modRst f s).staging = s.staging := rfl
@[simp] theorem modRst_red (f : RstSt → RstSt) (s : State) : (modRst f s).red = s.red := rfl
@[simp] theorem modRst_ctxs (f : RstSt → RstSt) (s : State) : (modRst f s).ctxs = s.ctxs := rfl
@[simp] theorem modRst_mgr (f : RstSt → RstSt) (s : State) : (modRst f s).mgr = s.mgr := rfl
@[simp] theorem modRst_stackTbl (f : RstSt → RstSt) (s : State) : (modRst f s).stackTbl = s.stackTbl := rfl
@[simp] theorem modRst_mem (f : RstSt → RstSt) (s : State) : (modRst f s).mem = s.mem := rfl

/-! ## modGctl -/

@[simp] theorem modGctl_pending (f : GctlSt → GctlSt) (s : State) : (modGctl f s).pending = s.pending := rfl
@[simp] theorem modGctl_clock (f : GctlSt → GctlSt) (s : State) : (modGctl f s).clock = s.clock := rfl
@[simp] theorem modGctl_free (f : GctlSt → GctlSt) (s : State) : (modGctl f s).free = s.free := rfl
@[simp] theorem modGctl_out (f : GctlSt → GctlSt) (s : State) : (modGctl f s).out = s.out := rfl
@[simp] theorem modGctl_fuses (f : GctlSt → GctlSt) (s : State) : (modGctl f s).fuses = s.fuses := rfl
@[simp] theorem modGctl_rst (f : GctlSt → GctlSt) (s : State) : (modGctl f s).rst = s.rst := rfl
@[simp] theorem modGctl_gctl (f : GctlSt → GctlSt) (s : State) : (modGctl f s).gctl = f s.gctl := rfl
@[simp] theorem modGctl_img (f : GctlSt → GctlSt) (s : State) : (modGctl f s).img = s.img := rfl
@[simp] theorem modGctl_units (f : GctlSt → GctlSt) (s : State) : (modGctl f s).units = s.units := rfl
@[simp] theorem modGctl_pwr (f : GctlSt → GctlSt) (s : State) : (modGctl f s).pwr = s.pwr := rfl
@[simp] theorem modGctl_flt (f : GctlSt → GctlSt) (s : State) : (modGctl f s).flt = s.flt := rfl
@[simp] theorem modGctl_evr (f : GctlSt → GctlSt) (s : State) : (modGctl f s).evr = s.evr := rfl
@[simp] theorem modGctl_tim (f : GctlSt → GctlSt) (s : State) : (modGctl f s).tim = s.tim := rfl
@[simp] theorem modGctl_cmd (f : GctlSt → GctlSt) (s : State) : (modGctl f s).cmd = s.cmd := rfl
@[simp] theorem modGctl_dma (f : GctlSt → GctlSt) (s : State) : (modGctl f s).dma = s.dma := rfl
@[simp] theorem modGctl_bpm (f : GctlSt → GctlSt) (s : State) : (modGctl f s).bpm = s.bpm := rfl
@[simp] theorem modGctl_dbg (f : GctlSt → GctlSt) (s : State) : (modGctl f s).dbg = s.dbg := rfl
@[simp] theorem modGctl_route (f : GctlSt → GctlSt) (s : State) : (modGctl f s).route = s.route := rfl
@[simp] theorem modGctl_ports (f : GctlSt → GctlSt) (s : State) : (modGctl f s).ports = s.ports := rfl
@[simp] theorem modGctl_strands (f : GctlSt → GctlSt) (s : State) : (modGctl f s).strands = s.strands := rfl
@[simp] theorem modGctl_links (f : GctlSt → GctlSt) (s : State) : (modGctl f s).links = s.links := rfl
@[simp] theorem modGctl_opt (f : GctlSt → GctlSt) (s : State) : (modGctl f s).opt = s.opt := rfl
@[simp] theorem modGctl_swc (f : GctlSt → GctlSt) (s : State) : (modGctl f s).swc = s.swc := rfl
@[simp] theorem modGctl_queues (f : GctlSt → GctlSt) (s : State) : (modGctl f s).queues = s.queues := rfl
@[simp] theorem modGctl_scheds (f : GctlSt → GctlSt) (s : State) : (modGctl f s).scheds = s.scheds := rfl
@[simp] theorem modGctl_pkts (f : GctlSt → GctlSt) (s : State) : (modGctl f s).pkts = s.pkts := rfl
@[simp] theorem modGctl_nextPid (f : GctlSt → GctlSt) (s : State) : (modGctl f s).nextPid = s.nextPid := rfl
@[simp] theorem modGctl_staging (f : GctlSt → GctlSt) (s : State) : (modGctl f s).staging = s.staging := rfl
@[simp] theorem modGctl_red (f : GctlSt → GctlSt) (s : State) : (modGctl f s).red = s.red := rfl
@[simp] theorem modGctl_ctxs (f : GctlSt → GctlSt) (s : State) : (modGctl f s).ctxs = s.ctxs := rfl
@[simp] theorem modGctl_mgr (f : GctlSt → GctlSt) (s : State) : (modGctl f s).mgr = s.mgr := rfl
@[simp] theorem modGctl_stackTbl (f : GctlSt → GctlSt) (s : State) : (modGctl f s).stackTbl = s.stackTbl := rfl
@[simp] theorem modGctl_mem (f : GctlSt → GctlSt) (s : State) : (modGctl f s).mem = s.mem := rfl

/-! ## modMgr -/

@[simp] theorem modMgr_pending (f : MgrSt → MgrSt) (s : State) : (modMgr f s).pending = s.pending := rfl
@[simp] theorem modMgr_clock (f : MgrSt → MgrSt) (s : State) : (modMgr f s).clock = s.clock := rfl
@[simp] theorem modMgr_free (f : MgrSt → MgrSt) (s : State) : (modMgr f s).free = s.free := rfl
@[simp] theorem modMgr_out (f : MgrSt → MgrSt) (s : State) : (modMgr f s).out = s.out := rfl
@[simp] theorem modMgr_fuses (f : MgrSt → MgrSt) (s : State) : (modMgr f s).fuses = s.fuses := rfl
@[simp] theorem modMgr_rst (f : MgrSt → MgrSt) (s : State) : (modMgr f s).rst = s.rst := rfl
@[simp] theorem modMgr_gctl (f : MgrSt → MgrSt) (s : State) : (modMgr f s).gctl = s.gctl := rfl
@[simp] theorem modMgr_img (f : MgrSt → MgrSt) (s : State) : (modMgr f s).img = s.img := rfl
@[simp] theorem modMgr_units (f : MgrSt → MgrSt) (s : State) : (modMgr f s).units = s.units := rfl
@[simp] theorem modMgr_pwr (f : MgrSt → MgrSt) (s : State) : (modMgr f s).pwr = s.pwr := rfl
@[simp] theorem modMgr_flt (f : MgrSt → MgrSt) (s : State) : (modMgr f s).flt = s.flt := rfl
@[simp] theorem modMgr_evr (f : MgrSt → MgrSt) (s : State) : (modMgr f s).evr = s.evr := rfl
@[simp] theorem modMgr_tim (f : MgrSt → MgrSt) (s : State) : (modMgr f s).tim = s.tim := rfl
@[simp] theorem modMgr_cmd (f : MgrSt → MgrSt) (s : State) : (modMgr f s).cmd = s.cmd := rfl
@[simp] theorem modMgr_dma (f : MgrSt → MgrSt) (s : State) : (modMgr f s).dma = s.dma := rfl
@[simp] theorem modMgr_bpm (f : MgrSt → MgrSt) (s : State) : (modMgr f s).bpm = s.bpm := rfl
@[simp] theorem modMgr_dbg (f : MgrSt → MgrSt) (s : State) : (modMgr f s).dbg = s.dbg := rfl
@[simp] theorem modMgr_route (f : MgrSt → MgrSt) (s : State) : (modMgr f s).route = s.route := rfl
@[simp] theorem modMgr_ports (f : MgrSt → MgrSt) (s : State) : (modMgr f s).ports = s.ports := rfl
@[simp] theorem modMgr_strands (f : MgrSt → MgrSt) (s : State) : (modMgr f s).strands = s.strands := rfl
@[simp] theorem modMgr_links (f : MgrSt → MgrSt) (s : State) : (modMgr f s).links = s.links := rfl
@[simp] theorem modMgr_opt (f : MgrSt → MgrSt) (s : State) : (modMgr f s).opt = s.opt := rfl
@[simp] theorem modMgr_swc (f : MgrSt → MgrSt) (s : State) : (modMgr f s).swc = s.swc := rfl
@[simp] theorem modMgr_queues (f : MgrSt → MgrSt) (s : State) : (modMgr f s).queues = s.queues := rfl
@[simp] theorem modMgr_scheds (f : MgrSt → MgrSt) (s : State) : (modMgr f s).scheds = s.scheds := rfl
@[simp] theorem modMgr_pkts (f : MgrSt → MgrSt) (s : State) : (modMgr f s).pkts = s.pkts := rfl
@[simp] theorem modMgr_nextPid (f : MgrSt → MgrSt) (s : State) : (modMgr f s).nextPid = s.nextPid := rfl
@[simp] theorem modMgr_staging (f : MgrSt → MgrSt) (s : State) : (modMgr f s).staging = s.staging := rfl
@[simp] theorem modMgr_red (f : MgrSt → MgrSt) (s : State) : (modMgr f s).red = s.red := rfl
@[simp] theorem modMgr_ctxs (f : MgrSt → MgrSt) (s : State) : (modMgr f s).ctxs = s.ctxs := rfl
@[simp] theorem modMgr_mgr (f : MgrSt → MgrSt) (s : State) : (modMgr f s).mgr = f s.mgr := rfl
@[simp] theorem modMgr_stackTbl (f : MgrSt → MgrSt) (s : State) : (modMgr f s).stackTbl = s.stackTbl := rfl
@[simp] theorem modMgr_mem (f : MgrSt → MgrSt) (s : State) : (modMgr f s).mem = s.mem := rfl

/-! ## modUnits -/

@[simp] theorem modUnits_pending (f : UnitsSt → UnitsSt) (s : State) : (modUnits f s).pending = s.pending := rfl
@[simp] theorem modUnits_clock (f : UnitsSt → UnitsSt) (s : State) : (modUnits f s).clock = s.clock := rfl
@[simp] theorem modUnits_free (f : UnitsSt → UnitsSt) (s : State) : (modUnits f s).free = s.free := rfl
@[simp] theorem modUnits_out (f : UnitsSt → UnitsSt) (s : State) : (modUnits f s).out = s.out := rfl
@[simp] theorem modUnits_fuses (f : UnitsSt → UnitsSt) (s : State) : (modUnits f s).fuses = s.fuses := rfl
@[simp] theorem modUnits_rst (f : UnitsSt → UnitsSt) (s : State) : (modUnits f s).rst = s.rst := rfl
@[simp] theorem modUnits_gctl (f : UnitsSt → UnitsSt) (s : State) : (modUnits f s).gctl = s.gctl := rfl
@[simp] theorem modUnits_img (f : UnitsSt → UnitsSt) (s : State) : (modUnits f s).img = s.img := rfl
@[simp] theorem modUnits_units (f : UnitsSt → UnitsSt) (s : State) : (modUnits f s).units = f s.units := rfl
@[simp] theorem modUnits_pwr (f : UnitsSt → UnitsSt) (s : State) : (modUnits f s).pwr = s.pwr := rfl
@[simp] theorem modUnits_flt (f : UnitsSt → UnitsSt) (s : State) : (modUnits f s).flt = s.flt := rfl
@[simp] theorem modUnits_evr (f : UnitsSt → UnitsSt) (s : State) : (modUnits f s).evr = s.evr := rfl
@[simp] theorem modUnits_tim (f : UnitsSt → UnitsSt) (s : State) : (modUnits f s).tim = s.tim := rfl
@[simp] theorem modUnits_cmd (f : UnitsSt → UnitsSt) (s : State) : (modUnits f s).cmd = s.cmd := rfl
@[simp] theorem modUnits_dma (f : UnitsSt → UnitsSt) (s : State) : (modUnits f s).dma = s.dma := rfl
@[simp] theorem modUnits_bpm (f : UnitsSt → UnitsSt) (s : State) : (modUnits f s).bpm = s.bpm := rfl
@[simp] theorem modUnits_dbg (f : UnitsSt → UnitsSt) (s : State) : (modUnits f s).dbg = s.dbg := rfl
@[simp] theorem modUnits_route (f : UnitsSt → UnitsSt) (s : State) : (modUnits f s).route = s.route := rfl
@[simp] theorem modUnits_ports (f : UnitsSt → UnitsSt) (s : State) : (modUnits f s).ports = s.ports := rfl
@[simp] theorem modUnits_strands (f : UnitsSt → UnitsSt) (s : State) : (modUnits f s).strands = s.strands := rfl
@[simp] theorem modUnits_links (f : UnitsSt → UnitsSt) (s : State) : (modUnits f s).links = s.links := rfl
@[simp] theorem modUnits_opt (f : UnitsSt → UnitsSt) (s : State) : (modUnits f s).opt = s.opt := rfl
@[simp] theorem modUnits_swc (f : UnitsSt → UnitsSt) (s : State) : (modUnits f s).swc = s.swc := rfl
@[simp] theorem modUnits_queues (f : UnitsSt → UnitsSt) (s : State) : (modUnits f s).queues = s.queues := rfl
@[simp] theorem modUnits_scheds (f : UnitsSt → UnitsSt) (s : State) : (modUnits f s).scheds = s.scheds := rfl
@[simp] theorem modUnits_pkts (f : UnitsSt → UnitsSt) (s : State) : (modUnits f s).pkts = s.pkts := rfl
@[simp] theorem modUnits_nextPid (f : UnitsSt → UnitsSt) (s : State) : (modUnits f s).nextPid = s.nextPid := rfl
@[simp] theorem modUnits_staging (f : UnitsSt → UnitsSt) (s : State) : (modUnits f s).staging = s.staging := rfl
@[simp] theorem modUnits_red (f : UnitsSt → UnitsSt) (s : State) : (modUnits f s).red = s.red := rfl
@[simp] theorem modUnits_ctxs (f : UnitsSt → UnitsSt) (s : State) : (modUnits f s).ctxs = s.ctxs := rfl
@[simp] theorem modUnits_mgr (f : UnitsSt → UnitsSt) (s : State) : (modUnits f s).mgr = s.mgr := rfl
@[simp] theorem modUnits_stackTbl (f : UnitsSt → UnitsSt) (s : State) : (modUnits f s).stackTbl = s.stackTbl := rfl
@[simp] theorem modUnits_mem (f : UnitsSt → UnitsSt) (s : State) : (modUnits f s).mem = s.mem := rfl

/-! ## emit -/

@[simp] theorem emit_pending (f : Out) (s : State) : (emit f s).pending = s.pending := rfl
@[simp] theorem emit_clock (f : Out) (s : State) : (emit f s).clock = s.clock := rfl
@[simp] theorem emit_free (f : Out) (s : State) : (emit f s).free = s.free := rfl
@[simp] theorem emit_out (f : Out) (s : State) : (emit f s).out = f :: s.out := rfl
@[simp] theorem emit_fuses (f : Out) (s : State) : (emit f s).fuses = s.fuses := rfl
@[simp] theorem emit_rst (f : Out) (s : State) : (emit f s).rst = s.rst := rfl
@[simp] theorem emit_gctl (f : Out) (s : State) : (emit f s).gctl = s.gctl := rfl
@[simp] theorem emit_img (f : Out) (s : State) : (emit f s).img = s.img := rfl
@[simp] theorem emit_units (f : Out) (s : State) : (emit f s).units = s.units := rfl
@[simp] theorem emit_pwr (f : Out) (s : State) : (emit f s).pwr = s.pwr := rfl
@[simp] theorem emit_flt (f : Out) (s : State) : (emit f s).flt = s.flt := rfl
@[simp] theorem emit_evr (f : Out) (s : State) : (emit f s).evr = s.evr := rfl
@[simp] theorem emit_tim (f : Out) (s : State) : (emit f s).tim = s.tim := rfl
@[simp] theorem emit_cmd (f : Out) (s : State) : (emit f s).cmd = s.cmd := rfl
@[simp] theorem emit_dma (f : Out) (s : State) : (emit f s).dma = s.dma := rfl
@[simp] theorem emit_bpm (f : Out) (s : State) : (emit f s).bpm = s.bpm := rfl
@[simp] theorem emit_dbg (f : Out) (s : State) : (emit f s).dbg = s.dbg := rfl
@[simp] theorem emit_route (f : Out) (s : State) : (emit f s).route = s.route := rfl
@[simp] theorem emit_ports (f : Out) (s : State) : (emit f s).ports = s.ports := rfl
@[simp] theorem emit_strands (f : Out) (s : State) : (emit f s).strands = s.strands := rfl
@[simp] theorem emit_links (f : Out) (s : State) : (emit f s).links = s.links := rfl
@[simp] theorem emit_opt (f : Out) (s : State) : (emit f s).opt = s.opt := rfl
@[simp] theorem emit_swc (f : Out) (s : State) : (emit f s).swc = s.swc := rfl
@[simp] theorem emit_queues (f : Out) (s : State) : (emit f s).queues = s.queues := rfl
@[simp] theorem emit_scheds (f : Out) (s : State) : (emit f s).scheds = s.scheds := rfl
@[simp] theorem emit_pkts (f : Out) (s : State) : (emit f s).pkts = s.pkts := rfl
@[simp] theorem emit_nextPid (f : Out) (s : State) : (emit f s).nextPid = s.nextPid := rfl
@[simp] theorem emit_staging (f : Out) (s : State) : (emit f s).staging = s.staging := rfl
@[simp] theorem emit_red (f : Out) (s : State) : (emit f s).red = s.red := rfl
@[simp] theorem emit_ctxs (f : Out) (s : State) : (emit f s).ctxs = s.ctxs := rfl
@[simp] theorem emit_mgr (f : Out) (s : State) : (emit f s).mgr = s.mgr := rfl
@[simp] theorem emit_stackTbl (f : Out) (s : State) : (emit f s).stackTbl = s.stackTbl := rfl
@[simp] theorem emit_mem (f : Out) (s : State) : (emit f s).mem = s.mem := rfl

/-! ## clockTo -/

@[simp] theorem clockTo_pending (f : Nat) (s : State) : (clockTo f s).pending = s.pending := rfl
@[simp] theorem clockTo_clock (f : Nat) (s : State) : (clockTo f s).clock = max s.clock f := rfl
@[simp] theorem clockTo_free (f : Nat) (s : State) : (clockTo f s).free = s.free := rfl
@[simp] theorem clockTo_out (f : Nat) (s : State) : (clockTo f s).out = s.out := rfl
@[simp] theorem clockTo_fuses (f : Nat) (s : State) : (clockTo f s).fuses = s.fuses := rfl
@[simp] theorem clockTo_rst (f : Nat) (s : State) : (clockTo f s).rst = s.rst := rfl
@[simp] theorem clockTo_gctl (f : Nat) (s : State) : (clockTo f s).gctl = s.gctl := rfl
@[simp] theorem clockTo_img (f : Nat) (s : State) : (clockTo f s).img = s.img := rfl
@[simp] theorem clockTo_units (f : Nat) (s : State) : (clockTo f s).units = s.units := rfl
@[simp] theorem clockTo_pwr (f : Nat) (s : State) : (clockTo f s).pwr = s.pwr := rfl
@[simp] theorem clockTo_flt (f : Nat) (s : State) : (clockTo f s).flt = s.flt := rfl
@[simp] theorem clockTo_evr (f : Nat) (s : State) : (clockTo f s).evr = s.evr := rfl
@[simp] theorem clockTo_tim (f : Nat) (s : State) : (clockTo f s).tim = s.tim := rfl
@[simp] theorem clockTo_cmd (f : Nat) (s : State) : (clockTo f s).cmd = s.cmd := rfl
@[simp] theorem clockTo_dma (f : Nat) (s : State) : (clockTo f s).dma = s.dma := rfl
@[simp] theorem clockTo_bpm (f : Nat) (s : State) : (clockTo f s).bpm = s.bpm := rfl
@[simp] theorem clockTo_dbg (f : Nat) (s : State) : (clockTo f s).dbg = s.dbg := rfl
@[simp] theorem clockTo_route (f : Nat) (s : State) : (clockTo f s).route = s.route := rfl
@[simp] theorem clockTo_ports (f : Nat) (s : State) : (clockTo f s).ports = s.ports := rfl
@[simp] theorem clockTo_strands (f : Nat) (s : State) : (clockTo f s).strands = s.strands := rfl
@[simp] theorem clockTo_links (f : Nat) (s : State) : (clockTo f s).links = s.links := rfl
@[simp] theorem clockTo_opt (f : Nat) (s : State) : (clockTo f s).opt = s.opt := rfl
@[simp] theorem clockTo_swc (f : Nat) (s : State) : (clockTo f s).swc = s.swc := rfl
@[simp] theorem clockTo_queues (f : Nat) (s : State) : (clockTo f s).queues = s.queues := rfl
@[simp] theorem clockTo_scheds (f : Nat) (s : State) : (clockTo f s).scheds = s.scheds := rfl
@[simp] theorem clockTo_pkts (f : Nat) (s : State) : (clockTo f s).pkts = s.pkts := rfl
@[simp] theorem clockTo_nextPid (f : Nat) (s : State) : (clockTo f s).nextPid = s.nextPid := rfl
@[simp] theorem clockTo_staging (f : Nat) (s : State) : (clockTo f s).staging = s.staging := rfl
@[simp] theorem clockTo_red (f : Nat) (s : State) : (clockTo f s).red = s.red := rfl
@[simp] theorem clockTo_ctxs (f : Nat) (s : State) : (clockTo f s).ctxs = s.ctxs := rfl
@[simp] theorem clockTo_mgr (f : Nat) (s : State) : (clockTo f s).mgr = s.mgr := rfl
@[simp] theorem clockTo_stackTbl (f : Nat) (s : State) : (clockTo f s).stackTbl = s.stackTbl := rfl
@[simp] theorem clockTo_mem (f : Nat) (s : State) : (clockTo f s).mem = s.mem := rfl

@[simp] theorem modRing_cmd (p : Nat) (f : Ring → Ring) (s : State) : (modRing p f s).cmd = { s.cmd with rings := tmod {} s.cmd.rings p f } := rfl
@[simp] theorem modChan_dma (p : Nat) (f : ChanSt → ChanSt) (s : State) : (modChan p f s).dma = { s.dma with chans := tmod {} s.dma.chans p f } := rfl
@[simp] theorem modPoolRing_bpm (p : Nat) (f : PoolRing → PoolRing) (s : State) : (modPoolRing p f s).bpm = { s.bpm with rings := tmod {} s.bpm.rings p f } := rfl
@[simp] theorem modTrace_dbg (p : Nat) (f : Trace → Trace) (s : State) : (modTrace p f s).dbg = { s.dbg with traces := tmod {} s.dbg.traces p f } := rfl

/-- A condition picks one of two states, field by field. -/
@[simp] theorem iff_true (f : State → State) (s : State) : iff true f s = f s := rfl
@[simp] theorem iff_false (f : State → State) (s : State) : iff false f s = s := rfl

/-- fabTo moves the clock, and only forward. -/
theorem fabTo_eq (t : Nat) (s : State) : ∃ n, s.clock ≤ n ∧ fabTo t s = { s with clock := n } := by
  unfold fabTo
  split
  · rename_i h; clear h; generalize List.range 8 = l
    induction l generalizing s with
    | nil => exact ⟨s.clock, Nat.le_refl _, rfl⟩
    | cons a r ih =>
      obtain ⟨n, h, e⟩ := ih (clockTo (s.clock + (t - (fabNs s).toNat)) s)
      exact ⟨n, Nat.le_trans (Nat.le_max_left _ _) h, e⟩
  · exact ⟨s.clock, Nat.le_refl _, rfl⟩

@[simp] theorem fabTo_pending (t : Nat) (s : State) : (fabTo t s).pending = s.pending := by obtain ⟨_, _, e⟩ := fabTo_eq t s; rw [e]
@[simp] theorem fabTo_free (t : Nat) (s : State) : (fabTo t s).free = s.free := by obtain ⟨_, _, e⟩ := fabTo_eq t s; rw [e]
@[simp] theorem fabTo_out (t : Nat) (s : State) : (fabTo t s).out = s.out := by obtain ⟨_, _, e⟩ := fabTo_eq t s; rw [e]
@[simp] theorem fabTo_fuses (t : Nat) (s : State) : (fabTo t s).fuses = s.fuses := by obtain ⟨_, _, e⟩ := fabTo_eq t s; rw [e]
@[simp] theorem fabTo_rst (t : Nat) (s : State) : (fabTo t s).rst = s.rst := by obtain ⟨_, _, e⟩ := fabTo_eq t s; rw [e]
@[simp] theorem fabTo_gctl (t : Nat) (s : State) : (fabTo t s).gctl = s.gctl := by obtain ⟨_, _, e⟩ := fabTo_eq t s; rw [e]
@[simp] theorem fabTo_img (t : Nat) (s : State) : (fabTo t s).img = s.img := by obtain ⟨_, _, e⟩ := fabTo_eq t s; rw [e]
@[simp] theorem fabTo_units (t : Nat) (s : State) : (fabTo t s).units = s.units := by obtain ⟨_, _, e⟩ := fabTo_eq t s; rw [e]
@[simp] theorem fabTo_pwr (t : Nat) (s : State) : (fabTo t s).pwr = s.pwr := by obtain ⟨_, _, e⟩ := fabTo_eq t s; rw [e]
@[simp] theorem fabTo_flt (t : Nat) (s : State) : (fabTo t s).flt = s.flt := by obtain ⟨_, _, e⟩ := fabTo_eq t s; rw [e]
@[simp] theorem fabTo_evr (t : Nat) (s : State) : (fabTo t s).evr = s.evr := by obtain ⟨_, _, e⟩ := fabTo_eq t s; rw [e]
@[simp] theorem fabTo_tim (t : Nat) (s : State) : (fabTo t s).tim = s.tim := by obtain ⟨_, _, e⟩ := fabTo_eq t s; rw [e]
@[simp] theorem fabTo_cmd (t : Nat) (s : State) : (fabTo t s).cmd = s.cmd := by obtain ⟨_, _, e⟩ := fabTo_eq t s; rw [e]
@[simp] theorem fabTo_dma (t : Nat) (s : State) : (fabTo t s).dma = s.dma := by obtain ⟨_, _, e⟩ := fabTo_eq t s; rw [e]
@[simp] theorem fabTo_bpm (t : Nat) (s : State) : (fabTo t s).bpm = s.bpm := by obtain ⟨_, _, e⟩ := fabTo_eq t s; rw [e]
@[simp] theorem fabTo_dbg (t : Nat) (s : State) : (fabTo t s).dbg = s.dbg := by obtain ⟨_, _, e⟩ := fabTo_eq t s; rw [e]
@[simp] theorem fabTo_route (t : Nat) (s : State) : (fabTo t s).route = s.route := by obtain ⟨_, _, e⟩ := fabTo_eq t s; rw [e]
@[simp] theorem fabTo_ports (t : Nat) (s : State) : (fabTo t s).ports = s.ports := by obtain ⟨_, _, e⟩ := fabTo_eq t s; rw [e]
@[simp] theorem fabTo_strands (t : Nat) (s : State) : (fabTo t s).strands = s.strands := by obtain ⟨_, _, e⟩ := fabTo_eq t s; rw [e]
@[simp] theorem fabTo_links (t : Nat) (s : State) : (fabTo t s).links = s.links := by obtain ⟨_, _, e⟩ := fabTo_eq t s; rw [e]
@[simp] theorem fabTo_opt (t : Nat) (s : State) : (fabTo t s).opt = s.opt := by obtain ⟨_, _, e⟩ := fabTo_eq t s; rw [e]
@[simp] theorem fabTo_swc (t : Nat) (s : State) : (fabTo t s).swc = s.swc := by obtain ⟨_, _, e⟩ := fabTo_eq t s; rw [e]
@[simp] theorem fabTo_queues (t : Nat) (s : State) : (fabTo t s).queues = s.queues := by obtain ⟨_, _, e⟩ := fabTo_eq t s; rw [e]
@[simp] theorem fabTo_scheds (t : Nat) (s : State) : (fabTo t s).scheds = s.scheds := by obtain ⟨_, _, e⟩ := fabTo_eq t s; rw [e]
@[simp] theorem fabTo_pkts (t : Nat) (s : State) : (fabTo t s).pkts = s.pkts := by obtain ⟨_, _, e⟩ := fabTo_eq t s; rw [e]
@[simp] theorem fabTo_nextPid (t : Nat) (s : State) : (fabTo t s).nextPid = s.nextPid := by obtain ⟨_, _, e⟩ := fabTo_eq t s; rw [e]
@[simp] theorem fabTo_staging (t : Nat) (s : State) : (fabTo t s).staging = s.staging := by obtain ⟨_, _, e⟩ := fabTo_eq t s; rw [e]
@[simp] theorem fabTo_red (t : Nat) (s : State) : (fabTo t s).red = s.red := by obtain ⟨_, _, e⟩ := fabTo_eq t s; rw [e]
@[simp] theorem fabTo_ctxs (t : Nat) (s : State) : (fabTo t s).ctxs = s.ctxs := by obtain ⟨_, _, e⟩ := fabTo_eq t s; rw [e]
@[simp] theorem fabTo_mgr (t : Nat) (s : State) : (fabTo t s).mgr = s.mgr := by obtain ⟨_, _, e⟩ := fabTo_eq t s; rw [e]
@[simp] theorem fabTo_stackTbl (t : Nat) (s : State) : (fabTo t s).stackTbl = s.stackTbl := by obtain ⟨_, _, e⟩ := fabTo_eq t s; rw [e]
@[simp] theorem fabTo_mem (t : Nat) (s : State) : (fabTo t s).mem = s.mem := by obtain ⟨_, _, e⟩ := fabTo_eq t s; rw [e]

/-- Where fabric time is stopped, or already there, nothing moves. -/
theorem fabTo_stopped (t : Nat) (s : State) (h : s.tim.running = false) : fabTo t s = s := by unfold fabTo; rw [h]; rfl

theorem fabTo_there (t : Nat) (s : State) (h : t ≤ (fabNs s).toNat) : fabTo t s = s := by
  unfold fabTo
  split
  · have e : clockTo (s.clock + (t - (fabNs s).toNat)) s = s := by
      simp only [clockTo, Nat.sub_eq_zero_of_le h, Nat.add_zero, Nat.max_self]
    generalize List.range 8 = l
    induction l with
    | nil => rfl
    | cons a r ih => rw [List.foldl_cons, e]; exact ih
  · rfl

end Sys2Proof.Machine
end

