-- ==== Sys2Proof/WellFormed.lean ====
section
/-! DEFINITION. Which commands are well formed: the ranges of operands that their types leave wider than the spec does. The
meanings are total; a command that is not well formed has the effect its meaning gives it, and no statement needs this
predicate unless it says so. -/

namespace Sys2Proof

/-- A position 4p + s of the package (R14, R36). -/
def posOk (p : Nat) : Bool := decide (p < 1152)

/-- The rows a memory request may carry: at least one dword, and bytes enabled in the first (R372). -/
def dwordsOk (l : List Dword) : Bool := !l.isEmpty && decide (l.length ≤ 64)

/-- The place a registration or a withdrawal names (R98). -/
def regOk (q : RegReq) : Bool := decide (q.port < 288) && decide (q.strand < 4)

/-- The residue checks a word may carry: each block once, and for a block at most three attempts, each on a lane of its own (R240). -/
def checksOk (c : Checks) : Bool := decide (c.map Prod.fst).Nodup && c.all fun b => decide (b.2.length ≤ 3) && decide b.2.Nodup

/-- The operand ranges of a command. -/
def wf : Instr → Bool
  | .pcieMemoryRequest _ _ _ off dws => dwordsOk dws && off.toNat % 4 == 0
  | .registerWrite _ off _ => off.toNat % 4 == 0
  | .rcCounterRead _ off _ => off.toNat % 4 == 0
  | .byteCounterRead _ off => off.toNat % 4 == 0
  | .ts1 _ _ _ strand breakout _ => decide (strand.toNat < 4) && decide (breakout.toNat < 5)
  | .ts2 _ _ credits _ _ => decide (credits.length = 8)
  | .coord _ _ _ pport _ _ => decide (pport.toNat < 288)
  | .flitReceived _ _ _ errs _ => decide errs.Nodup
  | .registrationRequest qs ws => !qs.isEmpty && qs.all regOk && ws.all regOk
  | .withdrawal ws => !ws.isEmpty && ws.all regOk
  | .contextAllocation a => a.children.all (fun c => posOk c.pos) && decide (a.upPos < 2048) && decide (a.children.length ≤ 1152)
  | .poolRequest _ need => decide (1 ≤ need)
  | .rdResp _ _ _ data => decide (data.length ≤ 4072)
  | .traceEvent _ _ _ fields _ => decide (fields.length ≤ 19)
  | .managerHeartbeat _ id _ => decide (id ≠ 0)
  | .fatalCause c => decide (1 ≤ c.toNat ∧ c.toNat ≤ 5)
  | .acc _ c => checksOk c
  | .accx _ c => checksOk c
  | .scl _ c => checksOk c
  | .cast _ c => checksOk c
  | .upd _ c => checksOk c
  | .norm _ c => checksOk c
  | .rowSpare _ row _ _ => decide (row < 2 ^ 20)
  | _ => true

end Sys2Proof
end

