-- ==== Sys2Proof/Tests/Slice0.lean ====
section
/-! SUPPORT. Tests: the checks of WellFormed each refuse an ill-formed term; states and operands that meet the hypotheses of each
statement; and single commands on small states. -/

namespace Sys2Proof.Tests

open Sys2Proof.Machine

/-- A running Skarad: out of reset, both management blocks up, every domain on, ports 0 to 2 in use, begun, and on port 0 a switch's
sub-link and on port 1 an endpoint's. -/
def up : State := { State.reset with
  rst := { held := false, phase := .run }
  units := { mb0Ok := true, mb1Ok := true }
  pwr := { on := BitVec.allOnes 60 }
  gctl := { ownId := 0x90001, coord := 0x4102, acting := 0x4100, actingId := 0x90000 }
  ports := [(0, { enabled := true, begun := true, wave := 0, darkEn := true }), (1, { enabled := true, begun := true, breakout := 4 }),
    (2, { enabled := true, begun := true, breakout := 2 })]
  strands := [(0, { st := .active, wl0 := 1, wl1 := 2, light := .full }), (1, { st := .active, wl0 := 1, wl1 := 2, light := .full }),
    (2, { st := .active, wl0 := 1, wl1 := 2, light := .full }), (3, { st := .active, wl0 := 1, wl1 := 2, light := .full }),
    (4, { st := .active, wl0 := 1, wl1 := 2, light := .full }), (5, { st := .clock })]
  links := [(0, { st := .active, valid := true, peerSwitch := true, peer := 0x4103, adv := [(0, 64), (1, 64), (3, 64), (7, 64)],
                  credHeld := [(0, 16), (1, 16), (3, 16), (7, 16)] }),
    (4, { st := .active, valid := true, ident := 0x12345, adv := [(0, 64), (1, 64), (3, 64), (7, 64)], credHeld := [(0, 16), (1, 16), (3, 16), (7, 16)] }),
    (5, { st := .clock })] }

/-- A header whose command has SPACE 1. -/
def aHdr : CmdHdr := { tag := 7, intr := false, space := 1, stack := 0, ep := 0, addr := 0 }

/-- A command that has just been taken from its ring. -/
def aCmd (b : CmdBody) : RunCmd :=
  { hdr := aHdr, body := b, dones := 0, total := 1, abort := false, late := false, chan := none, src := 0, background := false, result := none }

/-- The content of a small unsigned image: manager 0x4102, standby 0x4103, no routes, no ports in use. -/
def aContent : ImageContent :=
  { ownId := 0x90001, coord := 0x4102, fabricId := 7, mgrCoord := 0x4100, mgrId := 0x90000, sbyCoord := 0x4101, sbyId := 0x90002, mgrWaitMs := 1000
    ports := [], routes := [], parts := [], shape := none, red := none, time := none, power := none, faults := none
    classes := { tcQueue := [], tcVc := [], minCells := [], qcfgAlpha := [], qsched := [], age := [], voqReserve := 16, voqCap := 1024, mirrorFloor := 0, staging := [],
                 redProf := [], qthr := [], hashSeed := 0, rejoinUs := 0 } }

/-- The directory of that image: sections 1, 2, 3 and 6, all empty, from byte 192. -/
def aDir : List Byte := [1, 2, 3, 6].flatMap fun t => [t, 0xFF, 0, 0] ++ bytesLE 4 192 ++ bytesLE 4 0 ++ bytesLE 4 (crc32c []).toNat

/-- Its header (R354). -/
def aHead : List Byte :=
  let h := [0x4F, 0x4C, 0x53, 0x4B, 0x49, 0x4D, 0x47, 0x31] ++ bytesLE 2 1 ++ bytesLE 2 4 ++ bytesLE 4 192 ++ bytesLE 4 5 ++ bytesLE 4 7 ++ bytesLE 4 0 ++ bytesLE 4 128 ++
    bytesLE 4 (crc32c aDir).toNat ++ List.replicate 88 0
  h ++ bytesLE 4 (crc32c h).toNat

def aFlash : FlashRead := { readOk := true, header := aHead, dir := aDir, sects := [[], [], [], []], content := aContent }

/-- Out of reset and about to check the copies. -/
def loading : State := { State.reset with
  rst := { held := false, phase := .load, windowOpen := true }
  units := { mb0Ok := true, mb1Ok := true } }

/-- A running channel that copies 100 bytes of host memory, 64 of them done. -/
def copying : State := modChan 5 (fun k => { k with
  state := .run, count := 1, granted := some 3
  cur := some { dstSp := 0, srcSp := 0, len := 100, dst := 4096, src := 0, data := List.replicate 100 7, put := 64 } }) (modCmd (fun k => { k with bme := true }) up)

/-- Ring 7 enabled and idle, with Bus Master Enable set and room in its completion ring. -/
def ring7 : State := modCmd (fun k => { k with bme := true }) (modRing 7 (fun g => { g with en := true, sqBase := 0x10000, cqBase := 0x20000 }) up)

/-- A group's descriptor with no switches and no members. -/
def aDesc : Desc :=
  { group := 5, op := 0, comb := 0, outFmt := 0, inFmts := 1, mode := 0, tc := 0, pkey := 1, program := 0, window := 4, timeoutUs := 100, paceNs := 0, seed := 0, leader := 0x12345,
    root := 0x4102, nMembers := 0, nSwitches := 0, coppice := 0, members := [], switches := [], zerosOk := true, lengthOk := true }

/-- The manager, with a group that has no switches. -/
def manager : State := modMgr (fun m => { m with groups := [(5, some { desc := aDesc, live := true, answers := [], ring := none })] })
  (modGctl (fun g => { g with role := .manager }) ring7)

/-- The ring, with every stack in service and 10,000 shard blocks on die 3. -/
def shards : State := modRed 3 (fun x => { x with shardBlocks := 10000 }) { ring7 with
  stackTbl := [(0, { live := true }), (1, { live := true }), (2, { live := true }), (3, { live := true }), (4, { live := true }), (5, { live := true }), (6, { live := true }), (7, { live := true })] }

/-- The state above with two free buffers of 1 MiB and one held by requester 51; one copy of their ring is lost. -/
def pools : State := modPoolRing 10 (fun r => { r with valid := true, total := 3, copyB := 2, cache := [4, 5], held := 1 })
  (modBpm (fun b => { b with holders := [(bufKey 10 3, 52)], used := [(51, 256)], quota := [(51, 512)] }) shards)

/-- A clearing in a phase, one marker in queue 3 outstanding. -/
def aClr (src : ClrSrc) (ph : ClrPhase) : Clearing :=
  { src := src, phase := ph, dieMask := 15, tcMask := 0xF8, recs := [], staged := 0, scanned := 16, drainAt := 1, markers := [{ g := 3, ahead := [4] }], affected := []
    dones := 3, total := 60, aborted := false, committed := false, heardAt := 0 }

/-- A phase message of the manager. -/
def anAck : PhaseMsg := { revert := false, phase := .stage, dieMask := 15, tcMask := 0xF8, recs := [] }

/-- A whole packet of 300 bytes to identifier 0x777, TC 3, that came in on position 4. -/
def aPkt : Pkt :=
  { hdr := mkHdr 0 0 3 0x777 0x12345 5 268 9 0 0 0 0 false, exts := [], body := List.replicate 268 0xAB, pos := some 4, vc := 3, stamp := 0, tailIn := true, poison := false
    begun := false, flits := 2, stag := 0, cells := 2, opened := false, shared := false, mirror := false, mcast := false, refs := 1, obs := [] }

/-- That packet, number 4, in queue 1 of position 1. -/
def oneQueued : State := modQueue 9 (fun q => { q with ents := [{ pid := 4, guar := true, cut := false, sent := 0, linkedAt := 0, granted := false }], gocc := 2 })
  { up with pkts := [(4, some aPkt)], nextPid := 5 }

/-- A SINGLE flit of 40 bytes on VC3. -/
def aFlit : Flit := { seq := 0, vc := 3, typ := 3, len := 40, poison := false, replay := false, data := List.replicate 40 7, sentAt := 0 }

/-- A DATA packet of 40 bytes in one flit, and a state in which it has arrived on position 0 with a route to position 4. -/
def aHead2 : Hdr := mkHdr 0 0 3 0x777 0x12346 5 8 9 0 0 0 0 false
def routed : Flit := { aFlit with data := hdrBytes aHead2 ++ List.replicate 8 7 }
def arriving : State := modLink 0 (fun l => { l with rxq := [routed], occ := [(3, 1)] }) (modRoute (fun r => { r with live := [(0x777, 0x40000005)], liveSet := [(5, 0x400000001)] }) up)

/-- An image whose classes put TC t in queue t and VC t. -/
def classed : ImageContent := { aContent with classes := { aContent.classes with tcQueue := [0, 1, 2, 3, 4, 5, 6, 7], tcVc := [0, 1, 2, 3, 4, 5, 6, 6] } }

/-- Such classes, and packet 4 in queue 3 of position 0. -/
def oneQueued2 : State := modQueue 3 (fun q => { q with ents := [{ pid := 4, guar := true, cut := false, sent := 0, linkedAt := 0, granted := false }], gocc := 2, qsched := 7 })
  { up with
    pkts := [(4, some aPkt)], nextPid := 5
    img := some classed }

/-- A program for a Muslin ALLREDUCE in format 7: ACC, WAIT COMPLETE, CAST, FAN at the root, EMIT elsewhere, END. -/
def prog7 : Tbl Word := [(0, 0x02000007), (1, 0x01000000), (2, 0x0500000F), (3, 0x07400000), (4, 0x06800000), (5, 0x0F000000)]

/-- A root's allocation of one member on position 4, and a running Skarad whose dies hold its program. -/
def anAlloc : AllocMsg :=
  { group := 5, op := 0, comb := 0, outFmt := 7, inFmts := 0x80, mode := 0, tc := 1, pkey := 1, program := 0, window := 4, timeoutUs := 200, paceNs := 0, seed := 9, leader := 0x12345,
    leaderRank := 0, nMembers := 1, isRoot := true, upCoord := 0, upPos := 0, children := [{ pos := 4, isSwitch := false, id := 0x12345, coord := 0, ranks := [0] }], height := 0,
    coppice := 0, cs := 0 }
def grouped : State := each (List.range 4) (fun x => modRed x fun r => { r with prog := prog7 }) up

/-- The bytes of a descriptor of one member and one switch, the root. -/
def descBytes (root : Nat) : List Byte :=
  bytesBE 3 5 ++ [0, 0, 7] ++ bytesBE 2 0x80 ++ [0, 1] ++ bytesBE 2 1 ++ bytesBE 2 0 ++ bytesBE 2 4 ++ bytesBE 4 200 ++ bytesBE 4 0 ++ bytesBE 8 9 ++ bytesBE 4 0x12345 ++ bytesBE 2 root ++ bytesBE 2 0 ++
    bytesBE 4 1 ++ bytesBE 2 1 ++ bytesBE 2 0 ++ List.replicate 16 0 ++ bytesBE 4 0x12345 ++ bytesBE 2 root ++ bytesBE 2 0 ++ bytesBE 2 0x8000 ++ bytesBE 2 0

/-- The manager with that descriptor in host memory at 0, and its member registered at the root. -/
def creating (root : Nat) : State :=
  let s := each (List.range 4) (fun x => modRed x fun r => { r with prog := prog7 }) ring7
  let s := modMgr (fun m => { m with reg := [(0x12345, some { coord := BitVec.ofNat 16 root, port := 1, strand := 0, isSwitch := false })] }) (modGctl (fun g => { g with role := .manager }) s)
  { s with img := some classed, mem := { s.mem with host := wrBytes [] 0 (descBytes root) } }

/-- The manager with a group of two switches, one of which has answered. -/
def twoSwitches : Desc := { aDesc with switches := [{ coord := 0x4102, parent := 0, root := true, parentPos := 0 }, { coord := 0x4103, parent := 0x4102, root := false, parentPos := 0 }] }
def answering : State :=
  modMgr (fun m => { m with groups := [(5, some { desc := twoSwitches, live := false, answers := [{ coord := 0x4102, status := 0, crc := 3, point := 0, vcw := [] }], ring := none })] })
    (modGctl (fun g => { g with role := .manager, coord := 0x4100 }) up)

/-- A CTRL of group 5, step 7, that came in on a position, and a die 0 with it at the front of its arrivals for a context in slot 0. -/
def ctrlPkt (body : List Byte) (pos : Nat) : Pkt :=
  { aPkt with hdr := mkHdr 0 ptCtrl 1 0x12345 0x12345 1 body.length 255 5 7 0 0 false, body := body, pos := some pos }
def ctrlAt (c : Ctx) (body : List Byte) (pos : Nat) : State :=
  setCtx 0 (some c) (setPkt 4 (some (ctrlPkt body pos)) (modRed 0 (fun r => { r with inbox := [(0, 4)] }) { grouped with nextPid := 5 }))

/-- A context with step 7 of 3 chunks open. -/
def running (c : Ctx) (up : Option Nat) : Ctx := { c with st := .run, up := up, steps := [newStep grouped c 7 3 [] 0] }

/-- The step has been given LIMIT 3 by the parent, and LIMIT 3 has been sent. -/
def open3 (c : Ctx) : Ctx := { c with steps := c.steps.map fun y => { y with upLimit := 3, limSent := 3 } }

/-- CHUNK k of step 7 of group 5, and a die 0 with it at the front of its arrivals for a context in slot 0. -/
def chunkPkt (k fmt : Nat) (body : List Byte) (pos : Nat) : Pkt :=
  { aPkt with hdr := mkHdr 0 ptChunk 1 0x12345 0x12345 1 body.length 255 5 7 k fmt false, body := body, pos := some pos }
def chunkAt (c : Ctx) (k fmt : Nat) (body : List Byte) (pos : Nat) : State :=
  setCtx 0 (some c) (setPkt 4 (some (chunkPkt k fmt body pos)) (modRed 0 (fun r => { r with inbox := [(0, 4)] }) { grouped with nextPid := 5 }))

/-- The instance of chunk 0 of step 7 in slot 0, and a state in which it stands as f says. -/
def inst0 : InstId := { slot := 0, step := 7, chunk := 0 }
def standing (c : Ctx) (f : Inst → Inst) : State :=
  setCtx 0 (some { c with steps := c.steps.map (setChunk 0 (some { bits := [0], elems := 32, raw := none, inst := f (newInst c) })) }) grouped

/-- The instance of chunk 0 at address 9, where a word stands before END. -/
def atWord (w : Word) (f : Inst → Inst) : State :=
  let s := standing (running (newCtx grouped { anAlloc with program := 9 } 0) none) (fun n => f { n with pc := 9 })
  each (List.range 4) (fun x => modRed x fun r => { r with prog := [(9, w), (10, 0x0F000000)] }) s

/-- The COPPICE bytes of a group with a twin at 0x4103, base 0, one segment of 4 chunks. -/
def twinBytes : BitVec 128 := BitVec.ofNat 128 (0x80 * 2 ^ 120 + 4 * 2 ^ 96 + 1 * 2 ^ 72 + 0x4103 * 2 ^ 16)

/-! ## Each check of WellFormed refuses an ill-formed command -/

def aReg (port strand : Nat) : RegReq := { id := 5, coord := 1, port := port, strand := strand, isSwitch := false }

theorem test_wf_refuses_an_empty_request : wf (.pcieMemoryRequest .mb0 .bar0 false 0 []) = false := by decide
theorem test_wf_refuses_a_request_off_its_dword : wf (.pcieMemoryRequest .mb0 .bar0 false 2 [⟨0xF, 0⟩]) = false := by decide
theorem test_wf_refuses_register_offsets : wf (.registerWrite .pcie 1 0) = false ∧ wf (.rcCounterRead .pcie 2 0) = false ∧ wf (.byteCounterRead .pcie 3) = false := by decide
theorem test_wf_refuses_ts1 : wf (.ts1 0 0 0 4 0 0) = false ∧ wf (.ts1 0 0 0 3 5 0) = false := by decide
theorem test_wf_refuses_ts2 : wf (.ts2 0 0 [1, 2, 3] 0 0) = false := by decide
theorem test_wf_refuses_coord : wf (.coord 0 0 1 288 0 0) = false := by decide
theorem test_wf_refuses_registrations :
    wf (.registrationRequest [aReg 288 0] []) = false ∧ wf (.registrationRequest [] [aReg 0 4]) = false ∧ wf (.withdrawal [aReg 0 0, aReg 288 0]) = false := by decide
theorem test_wf_refuses_allocations :
    wf (.contextAllocation { anAlloc with children := [{ pos := 1152, isSwitch := false, id := 1, coord := 0, ranks := [0] }] }) = false ∧
      wf (.contextAllocation { anAlloc with upPos := 2048 }) = false := by decide
set_option maxRecDepth 20000 in
theorem test_wf_refuses_too_many_children :
    wf (.contextAllocation { anAlloc with children := List.replicate 1153 { pos := 1, isSwitch := false, id := 1, coord := 0, ranks := [] } }) = false := by decide
theorem test_wf_refuses_a_request_of_nothing : wf (.poolRequest 0 0) = false := by decide
set_option maxRecDepth 20000 in
theorem test_wf_refuses_long_data : wf (.rdResp 0 0 0 (List.replicate 4073 0)) = false ∧ wf (.traceEvent 0 0 0 (List.replicate 20 0) false) = false := by decide
theorem test_wf_refuses_sender_zero (m : MgrMirror) : wf (.managerHeartbeat 1 0 m) = false := by simp [wf]
theorem test_wf_refuses_causes : wf (.fatalCause 0) = false ∧ wf (.fatalCause 6) = false := by decide
theorem test_wf_refuses_a_row : wf (.rowSpare 0 (2 ^ 20) 0 false) = false := by decide
theorem test_wf_refuses_checks :
    wf (.acc inst0 [(0, [1]), (0, [2])]) = false ∧ wf (.accx inst0 [(0, [1, 2, 3, 4])]) = false ∧ wf (.scl inst0 [(5, [7, 7])]) = false ∧ wf (.cast inst0 [(0, [1, 1])]) = false ∧
      wf (.upd inst0 [(0, []), (0, [])]) = false ∧ wf (.norm inst0 [(1, [0, 0])]) = false ∧ wf (.acc inst0 [(0, [1, 2, 3]), (1, [1])]) = true := by decide
theorem test_wf_refuses_a_symbol_twice : wf (.flitReceived 0 0 0 [5, 5] false) = false ∧ wf (.flitReceived 0 0 0 [5, 543] false) = true := by decide
theorem test_wf_takes_good_ones : wf (.registerWrite .pcie 4 0) = true ∧ wf (.fatalCause 5) = true ∧ wf (.contextAllocation anAlloc) = true := by decide

/-! ## The spec's worked examples -/

/-- The example of R90 and R88: 1,048 B take 5 flits, a mirror copy of 4,144 B takes 18. -/
theorem test_flits_of_the_worked_packets : flitsOf 1048 = 5 ∧ flitsOf 4144 = 18 := by decide

/-- The example after R166: the tag increments of weights 64 and 40. -/
theorem test_tag_increments : tagInc 1 64 = 1024 ∧ tagInc 1 40 = 1638 := by decide

/-- The example of R169: after a packet of 18 flits a shaper of 100 Gb/s allows the next one 368.64 ns later. -/
theorem test_shaper_interval :
    (let q : QueueSt := { shaper := BitVec.ofNat 32 (2 ^ 31 + 10 * 2 ^ 18 + 10000), spent := 18 * 256 * 800, ents := [{ pid := 1, guar := true, cut := false, sent := 0, linkedAt := 0, granted := false }] }
     shAllows 368 q = false ∧ shAllows 369 q = true) := by decide

/-- The sizing example of R188: leaf, root, and the same in Worsted. -/
theorem test_context_pages :
    (let a : AllocMsg := { anAlloc with inFmts := 0x40, window := 128 }
     let kids (n : Nat) : List ChildSpec := List.replicate n { pos := 0, isSwitch := false, id := 1, coord := 0, ranks := [] }
     pagesOf { a with children := kids 64 } = 391 ∧ pagesOf { a with children := kids 32 } = 391 ∧ pagesOf { a with children := kids 64, mode := 1 } = 2563) := by decide

/-- The example of R223: the order of arrival matters in Muslin. -/
theorem test_order_matters :
    (let a : MBlock := { m := [2 ^ 39], x := -39 }
     let b : MBlock := { m := [3 * 2 ^ 38], x := -79 }
     combBlock 0 (combBlock 0 a b) b = { m := [2 ^ 39], x := -39 } ∧ combBlock 0 (combBlock 0 b b) a = { m := [2 ^ 39 + 1], x := -39 }) := by decide

/-- The all-reduce example of chapter 9: RECIP_N, and the scaled element. -/
theorem test_recip_and_scale : recipN 2048 = (2 ^ 23, -11) ∧ scalePlane [1433 * 2 ^ 29] (-29) (2 ^ 23) (-11) = ([1433 * 2 ^ 28], -39) := by decide

/-- The first two bytes of a cast of one value with 31 zeros. -/
def castOne (f : Nat) (rne : Bool) (draw : Nat) (v : Int × Int) (n : Nat) : List Byte :=
  (castBlock f false rne (draw :: List.replicate 31 0) (v :: List.replicate 31 (0, 0))).bytes.take n

set_option maxRecDepth 4000 in
/-- The same element cast to BF16 with the draws 40,000 and 8,191, and to nearest even. -/
theorem test_cast_bf16_scaled :
    castOne 6 false 40000 (1433 * 2 ^ 28, -39) 2 = [0x33, 0x3F] ∧ castOne 6 false 8191 (1433 * 2 ^ 28, -39) 2 = [0x34, 0x3F] ∧ castOne 6 true 0 (1433 * 2 ^ 28, -39) 2 = [0x33, 0x3F] := by decide

set_option maxRecDepth 4000 in
/-- The casting example of R234: 0x4344 with the draw 16,128, 0x4343 to nearest even. -/
theorem test_cast_bf16 : castOne 6 false 16128 (0xC35A000000, -32) 2 = [0x44, 0x43] ∧ castOne 6 true 0 (0xC35A000000, -32) 2 = [0x43, 0x43] := by decide

set_option maxRecDepth 4000 in
/-- The reduce-scatter example: 1.0 and 2^-20 in BF16, 0.75 in MXFP8 E4M3, and the sum in FP32 without a draw. -/
theorem test_worsted_example :
    ((decodeVals 6 false false ([0x80, 0x3F, 0x80, 0x35] ++ List.replicate 60 0)).vals.take 2).map (fun v => toGrid v.1 v.2 (-149)) = [2 ^ 149, 2 ^ 129] ∧
    ((decodeVals 0xC false false ([0x7C, 0x4C] ++ List.replicate 31 0)).vals.take 1).map (fun v => toGrid v.1 v.2 (-149)) = [3 * 2 ^ 147] ∧
    castOne 7 false 65535 (7 * 2 ^ 147 + 2 ^ 129, -149) 4 = [0x08, 0x00, 0xE0, 0x3F] := by decide

/-- Chunk 19 of 64 goes to rank 2 of 8 (the reduce-scatter example of R199). -/
theorem test_rank_of_a_chunk : rankOf (newCtx up { anAlloc with op := 2, nMembers := 8 } 0) 64 19 = 2 := by decide

/-- The programs of chapter 9 at their entries. -/
def worked : Tbl Word :=
  [(0x100, 0x02000007), (0x101, 0x01000000), (0x102, 0x04400008), (0x103, 0x0500000F), (0x104, 0x06800000), (0x105, 0x0C400000), (0x106, 0x07400000), (0x107, 0x0F000000),
   (0x180, 0x03000007), (0x181, 0x01000000), (0x182, 0x0500000F), (0x183, 0x06800000), (0x184, 0x07400000), (0x185, 0x0F000000),
   (0x200, 0x03000007), (0x201, 0x08400007), (0x202, 0x01000000), (0x203, 0x0580000F), (0x204, 0x06800000), (0x205, 0x0B400000), (0x206, 0x0A400008), (0x207, 0x0540010F),
   (0x208, 0x0C400000), (0x209, 0x07400000), (0x20A, 0x09400007), (0x20B, 0x0F000000)]
def stored : State := each (List.range 4) (fun x => modRed x fun r => { r with prog := worked }) up

set_option maxRecDepth 20000 in
/-- The three programs pass R259 for their groups. -/
theorem test_worked_programs_validate :
    validate stored { anAlloc with op := 0, comb := 1, inFmts := 0x40, outFmt := 6, mode := 0x20, program := 0x100 } = none ∧
    validate stored { anAlloc with op := 2, comb := 0, inFmts := 0x1040, outFmt := 7, mode := 1, program := 0x180 } = none ∧
    validate stored { anAlloc with op := 6, comb := 0, inFmts := 0x40, outFmt := 6, mode := 0x21, program := 0x200 } = none := by decide

set_option maxRecDepth 20000 in
/-- R259: a program of zeros has no END, ACC is refused in Worsted, shard words need a COPPICE group. -/
theorem test_validation_reasons :
    (validate stored { anAlloc with program := 0x300 }).map Prod.fst = some 1 ∧
    validate stored { anAlloc with op := 0, comb := 1, inFmts := 0x40, outFmt := 6, mode := 1, program := 0x100 } = some (4, 0x100) ∧
    validate stored { anAlloc with op := 0, comb := 0, inFmts := 0x40, outFmt := 6, mode := 1, program := 0x200 } = some (7, 0x201) := by decide

/-- The abort example of R388: SHARD_SAVE of 10,000 blocks takes 10 steps. -/
theorem test_save_steps : stepsOf (.shardSave 0 0 10000) = 10 := by decide

set_option maxRecDepth 20000 in
/-- The clearing example of R118: 3 STAGE and 40 DRAIN steps. -/
theorem test_clearing_steps : stageSteps 20000 false = 3 ∧ drainSteps (modRoute (fun r => { r with drainLimit := 2000 }) up) = 40 := ⟨rfl, rfl⟩

/-- The layout example of R307: the pool area of M2. -/
theorem test_pool_units (q : Tbl Nat) : poolUnitsOf (some { program := [], shardBlocks := 0, pool0 := 0, pool1 := 0, n64 := [0, 0, 512], n256 := [0, 0, 256], n1m := [0, 0, 128], quotas := q }) 2 = 3584 := by simp [poolUnitsOf]

/-- A worker with the times t1 to t3 of the delay example of R342. -/
def measuring : State :=
  modTim (fun m => { m with running := true, upstream := some 0 }) (modLink 0 (fun l => { l with
    syncT1 := BitVec.ofNat 80 (65536 * 1000000), syncT2 := BitVec.ofNat 80 (65536 * 1000737 + 32768), reqT3 := BitVec.ofNat 80 (65536 * 1000900), reqSeq := 1 }) up)
set_option maxRecDepth 4000 in
/-- The delay example of R342: 735 ns, in 2^-16 ns and in ps. -/
theorem test_delay_measurement :
    (match Machine.exec (.delayResp 0 0 { traceable := true, holdover := false, leapPending := false, tseq := 1, t := BitVec.ofNat 80 (65536 * 1001632 + 32768), utcOfs := 0, gm := 0, hops := 0 }) measuring with
     | .next t => t.tim.delayFx == 65536 * 735 && t.tim.delay == 735000
     | _ => false) = true := by decide

/-- The pacing example of chapter 11, step 101: its STEP_START comes at 8,150 µs, its first instant is 8,400 µs at a PACE_NS of 400,000; a
step that two open steps kept waiting to 8,713 µs opens at 8,800 µs. -/
theorem test_pace_instants :
    (let c := newCtx up { anAlloc with mode := 0x10, paceNs := 400000 } 0
     let r : Ready := { num := 101, n := 1, scalars := [], arrived := BitVec.ofNat 80 (65536 * 8150000), after := 0 }
     firstInstant c r = 8400000 ∧ openInstant up c r = 8400000 ∧ openInstant up c { r with after := 8713000 } = 8800000) := by decide



/-- Witness for StepTakesTheFront. -/
theorem wit_StepTakesTheFront : ({ State.reset with pending := [Instr.bpmSnap] }).pending = [Instr.bpmSnap] ∧ State.reset.pending = [] :=
  ⟨rfl, rfl⟩

/-- Witness for CommandsKeepQueueAndFuses. -/
theorem wit_CommandsKeepQueueAndFuses : (match Sys2Proof.Machine.exec .bypass up with | .next t => t.cmd.jtagIr == 0xFFFF | _ => false) = true ∧
    isInstant .bypass = false ∧ isInstant (.startHoldTimeout) = true := by decide

/-- Witness for StepKeepsMemoryCanonical. -/
theorem wit_StepKeepsMemoryCanonical : Memory.wf State.reset.mem = true ∧ Memory.wf { host := [(3, 7), (4, 1)] } = true ∧ Memory.wf { host := [(4, 1), (3, 7)] } = false := by
  decide

/-- Witness for DownUntilRelease. -/
theorem wit_DownUntilRelease : isRelease .bpmSnap = false ∧ down State.reset = true ∧ down up = false ∧ State.reset.pending = [] := by
  decide

/-- Witness for SmbusCommands. -/
theorem wit_SmbusCommands : mgmtUp up = true ∧ (up.cmd.smbOff.toNat % 4 = 0 ∧ reachOf up up.cmd.smbOff.toNat = .ok) ∧
    (let s := { up with cmd := { up.cmd with smbOff := 0x3000000 } }; mgmtUp s = true ∧ reachOf s s.cmd.smbOff.toNat = .none) := by decide

/-- The target address, and a write of an offset in SET_LO, for SmbusCommands. -/
theorem wit_SmbusCommands_target : (0x5A : BitVec 7) = (if up.rst.addrSel then 0x5B else 0x5A) ∧ (0x5B : BitVec 7) ≠ (if up.rst.addrSel then 0x5B else 0x5A) ∧
    (let s := modCmd (fun k => { k with smbOff := 0x50020 }) up; mgmtUp s = true ∧ s.cmd.smbOff = 0x50020) := by decide

/-- Witness for RegistersHoldWhatIsWritten. -/
theorem wit_RegistersHoldWhatIsWritten : mgmtUp up = true ∧ pathOpen up .pcie = true ∧ pathOpen up .jtag = false ∧ up.cmd.jtagLevel ≠ 2 := by decide

/-- Witness for ReadClearCounters. -/
theorem wit_ReadClearCounters : mgmtUp up = true ∧ pathOpen up .pcie = true ∧ domOn up (domPort 287) = true ∧ domOn up (domQuad 3 0) = true := by decide

/-- Witness for LatchedReads. -/
theorem wit_LatchedReads : mgmtUp up = true ∧ pathNo .smbus ≠ pathNo .pcie := by decide

/-- Witness for PcieRequests. -/
theorem wit_PcieRequests : mgmtUp up = true ∧ mbLive up .mb0 = true ∧ MbId.mb0 = up.units.active ∧ mbLive up .mb1 = true ∧ MbId.mb1 ≠ up.units.active ∧
    (0x81 : BitVec 4) ≠ 0xF ∧ (0x1FFFFFC : Off).toNat % 4 = 0 := by decide

/-- Witness for JtagAndMessages. -/
theorem wit_JtagAndMessages : islandUp up = true ∧ mgmtUp up = true ∧ up.fuses.jtagKey = none ∧
    ({ up with fuses := { up.fuses with jtagKey := some 5 } }).fuses.jtagKey = some 5 ∧ (∀ f ∈ up.cmd.forwarded, f.1 ≠ (7 : BitVec 128).extractLsb' 0 32) := by decide

/-- A command sent to the manager and its completion, with and without host memory open, for JtagAndMessages. -/
theorem wit_JtagAndMessages_completion :
    (let s := modCmd (fun k => { k with forwarded := [(6, 3, 0), (7, 2, 0)] }) (modRing 2 (fun g => { g with en := true, cur := some (aCmd (.groupDelete 5)) }) up)
     mgmtUp s = true ∧ (s.cmd.forwarded.find? fun f => f.1 == (7 : BitVec 128).extractLsb' 0 32) = some (7, 2, 0) ∧ (ringOf s (2 : Fin 8).val).cur = some (aCmd (.groupDelete 5)) ∧ s.cmd.bme = false ∧
     s.cmd.heldComps.length < 64 ∧ ∀ d < 4, ∀ l ∈ (redOf s d).locks, l.1 ≠ (2 : Fin 8).val) ∧
    (let s := modCmd (fun k => { k with bme := true, forwarded := [(7, 2, 0)] }) (modRing 2 (fun g => { g with en := true, cur := some (aCmd (.groupDelete 5)) }) up)
     mgmtUp s = true ∧ s.cmd.bme = true ∧ s.cmd.heldComps = [] ∧ slotThere (ringOf s (2 : Fin 8).val) = true) := by decide

/-- Witness for FreezeHoldsTheCounters. -/
theorem wit_FreezeHoldsTheCounters : mgmtUp up = true ∧ pathOpen up .smbus = true ∧ mgmtUp (countBytes 3 7 (ctrFreeze true up)) = true ∧ (0xC2 : Byte) ≠ 0xC3 := by decide

/-- Witness for TraceBuffers. -/
theorem wit_TraceBuffers :
    (let s := modTrace 0 (fun t => { t with en := true, point := 1, matchEn := true, mtch := 5 }) up
     alive s = true ∧ (traceOf s 0).en = true ∧ (traceOf s 0).point = 1 ∧ (1 : Byte).toNat ∈ pointOf 0 ∧ fld (6 : BitVec 24) 0 (matchBits 1) ≠ fld (traceOf s 0).mtch 0 (matchBits 1) ∧
       (traceOf s 0).ents.length < 2048 ∧ (traceOf s 0).frozen = false) ∧
    (let s := modTrace 9 (fun t => { t with chan := 28 }) up; mgmtUp s = true ∧ 28 ≤ (traceOf s 9).chan.toNat) ∧
    (let s := modTrace 9 (fun t => { t with chan := 27, dest := 32 }) up
     (traceOf s 9).chan.toNat < 28 ∧ (traceOf s 9).dest.toNat % 32 = 0 ∧ (traceOf s 9).busy = false ∧ chanBusy (chanOf s 27) = false) ∧
    (let s := modTrace 0 (fun t => { t with en := true, point := 1, mode := true, ents := List.replicate 2048 [] }) up; 2048 ≤ (traceOf s 0).ents.length ∧ (traceOf s 0).mode = true) := by
  refine ⟨by decide, by decide, by decide, ?_, by decide⟩
  exact Nat.le_of_eq List.length_replicate.symm

/-- Witness for AuditAndWindthrow. -/
theorem wit_AuditAndWindthrow :
    mgmtUp up = true ∧ (∀ d < 4, dieLive up d = true → gladeBook up d = true ∧ bridgeBook up d = true) ∧ poolBooks up = true ∧ stepBook up = true ∧
    (let s := { up with ports := [] }; linkBook s = true) := by
  refine ⟨by decide, by decide, by decide, by decide, by decide⟩

/-- The windthrow clauses of AuditAndWindthrow. -/
theorem wit_AuditAndWindthrow_freeze :
    (let s := modDbg (fun d => { d with windAt := some 1, windRing := some 2 }) (modRing 2 (fun g => { g with cur := some (aCmd .windthrow) }) up)
     mgmtUp s = true ∧ s.dbg.windAt = some 1 ∧ s.dbg.windRing = some (2 : RingId).val ∧ s.dbg.windShadow = [] ∧ (ringOf s 2).cur = some (aCmd .windthrow) ∧ fabNs s < 1) ∧
    (let s := modTim (fun m => { m with running := true }) (modDbg (fun d => { d with windAt := some 1, windRing := some 2 }) (modRing 2 (fun g => { g with cur := some (aCmd .windthrow) }) up))
     s.dbg.windAt = some 1 ∧ (ringOf s 2).cur = some (aCmd .windthrow) ∧ s.tim.running = true ∧ s.tim.slew = 0 ∧ s.tim.baseAt ≤ s.clock) := by
  refine ⟨⟨by decide, rfl, rfl, rfl, rfl, by decide⟩, ⟨rfl, rfl, by decide⟩⟩

/-- Witness for StartOfTheDevice. -/
theorem wit_StartOfTheDevice : State.reset.rst.held = true ∧ (true || false) = true ∧ up.rst.held = false ∧
    (let s := { up with rst := { up.rst with phase := .flash } }; alive s = true ∧ s.rst.phase = .flash) ∧
    (let f : Sfdp := { signature := true, densityMiB := 128, read8d := true, erase64k := true }; f.signature = true ∧ 128 ≤ f.densityMiB ∧ f.read8d = true ∧ f.erase64k = true) ∧
    (let f : Sfdp := { signature := true, densityMiB := 127, read8d := true, erase64k := true }; f.densityMiB < 128) ∧
    alive loading = true ∧ loading.rst.phase = .load ∧ loading.rst.bootSel = 0 ∧ loading.rst.resultA = 0 ∧ loading.rst.resultB = 0 ∧ ({ aFlash with readOk := false }).readOk = false ∧
    (let s := { loading with rst := { loading.rst with resultB := 4 } }; alive s = true ∧ s.rst.phase = .load ∧ s.rst.resultB ≠ 0) := by decide

/-- What a table filled for the numbers below n holds. -/
theorem get_range {α : Type} [DecidableEq α] (d : α) (g : Nat → α) (n p : Nat) (t : Tbl α) (h : p < n) :
    tget d ((List.range n).foldl (fun t p => tset d t p (g p)) t) p = g p := by
  induction n with
  | zero => omega
  | succ n ih =>
    rw [List.range_succ, List.foldl_append]
    rcases Nat.lt_or_ge p n with h' | h'
    · simp only [List.foldl_cons, List.foldl_nil]
      rw [tget_tset_ne _ _ _ (by omega), ih h']
    · have : p = n := by omega
      subst this; simp

/-- The ports of the small image. -/
theorem port_loaded (p : Nat) (h : p < 288) (s : State) : portOf (loadPorts aContent s) p = portFrom {} p := by
  have k := get_range {} (fun p => portFrom (tget {} aContent.ports p) p) 288 p [] h
  unfold portOf loadPorts
  generalize 288 = n at *
  exact k
set_option maxRecDepth 100000 in
theorem head_ok : headFail aFlash = none ∧ sectFail aFlash = none := by decide

set_option maxRecDepth 100000 in
theorem content_ok (sc : State) (f : FlashRead)
    (e : dirEnts f = [⟨1, 255, true, 192, 0, 0⟩, ⟨2, 255, true, 192, 0, 0⟩, ⟨3, 255, true, 192, 0, 0⟩, ⟨6, 255, true, 192, 0, 0⟩])
    (c : f.content = aContent) (g : le f.header 20 4 = 7 ∧ imgSigned f = false) (p1 : (List.range 288).any (fun p => decide ((portOf sc p).breakout.toNat > 4)) = false)
    (p2 : ((List.range 24).any fun e => (List.range 12).any fun w => (List.range 12).all fun i => (portOf sc (12 * e + i)).wave != w) = false) :
    contentCheck sc f = none := by
  unfold contentCheck
  simp only [e, c, g.1, g.2]
  rw [if_neg (by simp), p1, p2]
  have h : ∀ d, sumMin sc aContent.classes d = 0 := fun _ => rfl
  simp only [h, show aContent.routes = [] from rfl, List.find?_nil]
  decide

theorem content_fail (s : State) : contentFail s aFlash = none := by
  unfold contentFail
  refine content_ok _ _ (by decide) rfl (by decide) ?_ ?_
  · rw [List.any_eq_false]; intro p hp; rw [show aFlash.content = aContent from rfl, port_loaded p (List.mem_range.mp hp)]; simp [portFrom]
  · rw [List.any_eq_false]; intro e he
    rw [Bool.not_eq_true, List.any_eq_false]; intro w hw
    rw [Bool.not_eq_true, List.all_eq_false]
    simp only [List.mem_range] at he hw
    refine ⟨w, List.mem_range.mpr hw, ?_⟩
    rw [show aFlash.content = aContent from rfl, port_loaded _ (by omega)]
    simp [portFrom]; omega

set_option maxRecDepth 100000 in
/-- An image that passes every check, for StartOfTheDevice. -/
theorem wit_StartOfTheDevice_image : imageFail (setGen .copyA aFlash loading) aFlash = none := by
  have e : sigOk (setGen .copyA aFlash loading) aFlash = true := by unfold sigOk; rfl
  have k := content_fail (setGen .copyA aFlash loading)
  generalize setGen .copyA aFlash loading = s at *
  unfold imageFail
  rw [head_ok.1, head_ok.2, e, k]
  rfl

/-- Witness for WindowAndWaves. -/
theorem wit_WindowAndWaves :
    (let s := { up with rst := { up.rst with phase := .power, startHold := true, windowOpen := true } }; alive s = true ∧ s.rst.phase = .power ∧ s.rst.startHold = true) ∧
    (let s := { up with rst := { up.rst with phase := .power, windowOpen := true, wavesDue := true } }
     alive s = true ∧ s.rst.phase = .power ∧ s.rst.windowOpen = true ∧ s.rst.startHold = false ∧ s.rst.wavesDue = true ∧ mgmtUp s = true) ∧
    mgmtUp up = true ∧ alive up = true ∧ up.rst.wavesDue = false ∧ up.rst.windowOpen = false ∧
    (let s := { up with rst := { up.rst with phase := .waves, wave := 11 } }; alive s = true ∧ s.rst.phase = .waves ∧ s.rst.wave = (11 : Fin 12).val ∧ s.rst.wave ≠ (0 : Fin 12).val) := by decide

/-- Witness for ManagerHeartbeats. -/
theorem wit_ManagerHeartbeats : alive up = true ∧ up.rst.phase = .run ∧ up.gctl.role = .worker ∧ (0x4103 : Coord) ≠ up.gctl.coord ∧ up.mgr.change = none ∧
    (modGctl (fun g => { g with role := .standby }) up).gctl.role = .standby ∧
    (let s := modGctl (fun g => { g with role := .manager }) up; s.gctl.role = .manager ∧ s.gctl.cfgRole ≠ .manager) ∧
    (let s := modMgr (fun m => { m with acted := true }) (modGctl (fun g => { g with role := .manager, cfgRole := .manager }) up)
     s.gctl.role = .manager ∧ s.gctl.cfgRole = .manager ∧ s.mgr.acted = true) := by decide

/-- Witness for ResetsKeep. -/
theorem wit_ResetsKeep : mgmtUp up = true ∧ faultReads ({ up with flt := { up.flt with fatal := true, cause := 4 } }) = true ∧ (0xA4 : Byte) ≠ 0xA5 := by decide

/-- Witness for FaultState. -/
theorem wit_FaultState : Instr.supplyFault = .supplyFault ∧ alive up = true ∧ down State.reset = true := by decide

/-- A cause that comes at the same time as a higher one, for FaultState. -/
theorem wit_FaultState_lower : (let s := modFlt (fun f => { f with fatal := true, cause := 4, faultAt := 0 }) up
    s.rst.held = false ∧ s.flt.fatal = true ∧ s.flt.faultAt = s.clock ∧ 2 < s.flt.cause.toNat) := by decide

/-- Witness for ManagementBlocks. -/
theorem wit_ManagementBlocks : mgmtUp up = true ∧ up.units.active = .mb0 ∧ up.units.mb1Ok = true ∧ up.flt.injActive = false ∧
    (let s := { up with units := { up.units with mb1Ok := false } }; mgmtUp s = true ∧ s.units.active = .mb0 ∧ s.units.mb1Ok = false) ∧
    (let s := modFlt (fun f => { f with injActive := true, injBlock := 5, injChecker := 1 }) up
     mgmtUp s = true ∧ s.flt.injActive = true ∧ s.flt.injBlock = 5 ∧ s.flt.injInst = 0 ∧ s.flt.injChecker = 1) := by decide

/-- Witness for LossOfParts. -/
theorem wit_LossOfParts : alive up = true ∧ bitOf up.units.fabLost 3 = false ∧ bitOf up.units.engineLost 23 = false ∧ laserOk up 0 0 = true ∧ laserOk up 0 1 = true ∧
    (let s := modLaser 23 1 (fun l => { l with lost := true }) up; laserOk s 23 0 = true ∧ laserOk s 23 1 = false) ∧
    (let s := modUnits (fun u => { u with fabLost := 8, engineLost := 1 }) up; bitOf s.units.fabLost 3 = true ∧ bitOf s.units.engineLost 0 = true) := by decide

set_option maxRecDepth 20000 in
/-- A lost die with a MOVING context, with and without room for it, for LossOfParts. -/
theorem wit_LossOfParts_reduction :
    (let s := setCtx 0 (some { newCtx grouped anAlloc 0 with st := .moving }) { grouped with units := { grouped.units with redLost := 1 } }
     alive s = true ∧ bitOf s.units.redLost (0 : RedDie) = true ∧ (ctxsOn s (0 : RedDie)).filter (fun j => match ctxOf s j with | some c => c.st == .moving | none => false) = [0] ∧ (ctxOf s 0).isSome = true ∧
     bestDie s (pagesOf anAlloc) = some 1 ∧ bestDie (each (List.range 4) (fun x => modRed x fun r => { r with freePages := 0 }) s) (pagesOf anAlloc) = none) ∧
    redEnabled grouped (0 : RedDie) = true ∧ bitOf grouped.units.redLost (0 : RedDie) = false ∧ redEnabled { grouped with fuses := { sk2x := true } } (3 : RedDie) = false := by decide

/-- A context on the die that is lost, for LossOfParts. -/
theorem wit_LossOfParts_context :
    (let s := setCtx 0 (some { newCtx grouped anAlloc 0 with st := .idle }) grouped
     alive s = true ∧ bitOf s.units.redLost (0 : RedDie) = false ∧ (ctxOf s 0).any (fun c => c.die == (0 : RedDie).val && c.spec.op != 6) = true) := by decide

/-- Witness for Injection. -/
theorem wit_Injection : mgmtUp up = true ∧ up.flt.injActive = false ∧ (0x5B : Byte) ≠ 0x5A ∧
    (let s := modFlt (fun f => { f with injActive := true, injBlock := 5, injChecker := 0 }) up
     mgmtUp s = true ∧ s.flt.injActive = true ∧ s.flt.injBlock = 5 ∧ s.flt.injInst.toNat = mbInst s ∧ s.flt.injChecker = 0) := by decide

/-- Witness for RecorderWindows. -/
theorem wit_RecorderWindows : mgmtUp up = true ∧ (tget {} up.evr.wins (pathNo .smbus)).flash = false ∧ (∀ r ∈ up.evr.kept ++ up.evr.ring, r.seq ≠ 5) ∧ up.gctl.role ≠ .manager ∧
    (let s := modGctl (fun g => { g with role := .manager }) up; s.gctl.role = .manager ∧ newestRec s = none ∧ s.evr.kept.length < 1024 ∧ s.evr.ring.length < 15360) ∧
    (let s := enterRec (newRec 0x5032 5 0 [] false up) up; ((s.evr.kept ++ s.evr.ring).find? (fun r => r.seq == 1)).isSome = true) := by decide

/-- Witness for RecorderPersistence. -/
theorem wit_RecorderPersistence :
    (let s := modEvr (fun e => { e with queue := [newRec 0x5032 5 0 [] false up], curSlot := 63 }) up
     mgmtUp s = true ∧ s.evr.queue = newRec 0x5032 5 0 [] false up :: [] ∧ s.evr.curSlot < 64 ∧ s.flt.injActive = false) ∧
    (let s := modEvr (fun e => { e with scanned := true, eraseDue := true, curSector := 63 }) up
     s.evr.scanned = true ∧ s.evr.stopped = false ∧ s.evr.eraseDue = true ∧ s.evr.erasing = none ∧ nextErase s.evr = some 0 ∧ s.evr.eraseAt = none) ∧
    (let s := modEvr (fun e => { e with erasing := some 5 }) up; mgmtUp s = true ∧ s.evr.erasing = some 5) ∧
    (let s := { up with img := some aContent, rst := { up.rst with cause := 1 } }
     mgmtUp s = true ∧ s.img.isSome = true ∧ s.evr.scanned = false ∧ s.flt.prior = 0 ∧ s.rst.cause ≠ 0) ∧
    (let s := modEvr (fun e => { e with erasing := some 63, sectorsRetired := List.range 56 }) up; s.evr.erasing = some 63 ∧ 56 < (insNat 63 s.evr.sectorsRetired).length) := by decide

/-- Witness for LaserPolls. -/
theorem wit_LaserPolls : alive up = true ∧ domOn up 23 = true ∧ (optOf up 23).lsrA.locked = false ∧
    (let s := modLaser 23 0 (fun l => { l with hist := [1, 1, 1, 1, 1, 1, 1, 1, 1] }) up; 9 ≤ (optOf s 23).lsrA.hist.length ∧ (optOf s 23).lsrA.locked = false ∧ ({ area := some 0, bias := 1, power := 2, temp := 3 } : LaserReply).area = some 0) ∧
    (let s := modLaser 23 0 (fun l => { l with locked := true, biasRef := 100, hist := [121, 121, 121, 121, 121, 121, 121, 121, 121] }) up; (optOf s 23).lsrA.locked = true ∧ ({ area := none, bias := 121, power := 2, temp := 3 } : LaserReply).bias = 121) := by decide

/-- Witness for ChannelControl. -/
theorem wit_ChannelControl : mgmtUp up = true ∧
    (let s := modChan 27 (fun k => { k with count := 1, listSpace := 3 }) up
     (27 : Chan).val < 28 ∧ chanBusy (chanOf s 27) = false ∧ (chanOf s 27).count ≠ 0 ∧ (chanOf s 27).listSpace ≠ 2) ∧ (chanOf up 27).count = 0 ∧ 28 ≤ (28 : Chan).val ∧
    (let s := modChan 27 (fun k => { k with state := .run, count := 2, cur := some { dstSp := 0, srcSp := 0, len := 64, dst := 0, src := 0, put := 64 } }) up
     chanBusy (chanOf s 27) = true ∧ (chanOf s 27).granted = none ∧ elemOver (chanOf s 27) = true ∧ lastElem (chanOf s 27) = false) ∧
    (let s := modChan 27 (fun k => { k with state := .run, count := 1, cur := some { dstSp := 0, srcSp := 0, len := 64, dst := 0, src := 0, put := 64 } }) up
     elemOver (chanOf s 27) = true ∧ lastElem (chanOf s 27) = true) := by decide

/-- Witness for BeatCopiesBytes. -/
theorem wit_BeatCopiesBytes : mgmtUp copying = true ∧ copying.cmd.bme = true ∧ pickChan copying = some 5 ∧ (chanOf copying 5).tries = 0 ∧
    (∃ e, (chanOf copying 5).cur = some e ∧ canPut (chanOf copying 5) e = true ∧ e.data.length = e.len ∧ e.srcSp = 0 ∧ e.dstSp = 0 ∧ e.fromBuf = false ∧ e.intoBuf = false) ∧
    pickChan up = none ∧ (let s := modCmd (fun k => { k with bme := false }) copying; mgmtUp s = true ∧ s.cmd.bme = false ∧ chanReady s (chanOf s 5) = true ∧ touchesHost (chanOf s 5) = true) := by
  refine ⟨by decide, by decide, by decide, by decide, ⟨_, rfl, by decide, by decide, by decide, by decide, by decide, by decide⟩, by decide, by decide⟩

/-- Witness for RemoteAnswers. -/
theorem wit_RemoteAnswers :
    (let s := modChan 5 (fun k => { k with state := .run, retry := 2, cur := some { dstSp := 0, srcSp := 2, len := 100, dst := 4096, src := 0 }, remote := [{ seq := 9, wr := false, ofs := 0, len := 2, sentAt := 0 }] }) up
     mgmtUp s = true ∧ (5 : Chan).val = 5 ∧ (9 : Word) ≠ 8 ∧ (∀ m ∈ (chanOf s 5).remote, m.seq ≠ 8) ∧ (chanOf s 5).cur = some { dstSp := 0, srcSp := 2, len := 100, dst := 4096, src := 0 } ∧
     (chanOf s 5).remote = { seq := 9, wr := false, ofs := 0, len := 2, sentAt := 0 } :: [] ∧ ([1, 2] : List Byte).length = 2 ∧ 0 < (chanOf s 5).retry.toNat) ∧
    (let s := modChan 5 (fun k => { k with state := .run, cur := some { dstSp := 2, srcSp := 0, len := 100, dst := 0, src := 0 }, remote := [{ seq := 9, wr := true, ofs := 0, len := 2, sentAt := 0 }] }) up
     (chanOf s 5).retry.toNat ≤ 0 ∧ (chanOf s 5).remote = { seq := 9, wr := true, ofs := 0, len := 2, sentAt := 0 } :: []) := by decide

/-- Witness for EntryRoundTrip. -/
theorem wit_EntryRoundTrip : bodyFits (.shardLoad 255 0xFFFFFFFF 0xFFFFFFFF) = true ∧ bodyFits (.groupCreate 65535 true 0xFFFFFFFF) = true ∧ bodyFits (.portRetrain 287 15) = true := by decide

/-- Witness for RingControl. -/
theorem wit_RingControl : mgmtUp up = true ∧ (∀ q < 9, (ringOf up q).cur = none) ∧ up.cmd.heldComps = [] ∧ up.cmd.bme = false ∧ copying.cmd.bme = true ∧ mgmtUp copying = true ∧
    ((ringOf up 7).en && (waitingTags up 7).contains 5) = false ∧
    (let s := modRing 7 (fun g => { g with en := true, tail := 1 }) up; (ringOf s 7).cur = none ∧ (ringOf s 7).en = true ∧ (0 : Word) ∈ waitingTags s 7) ∧
    (let s := modRing 7 (fun g => { g with cur := some { aCmd (.scrubPass 0) with total := 9 } }) up
     ∃ c, (ringOf s 7).cur = some c ∧ c.hdr.tag = 7 ∧ pastAbort s 7 c = false ∧ c.background = false) ∧
    (chanReady copying (chanOf copying 5) = true ∧ touchesHost (chanOf copying 5) = true) := by
  refine ⟨by decide, by decide, by decide, by decide, by decide, by decide, by decide, by decide, ⟨_, rfl, by decide, by decide, by decide⟩, by decide⟩

/-- Witness for ShortCommands. -/
theorem wit_ShortCommands : idleRing ring7 7 = true ∧ (0x30208 : Word).toNat % 4 = 0 ∧ reachOf ring7 (0x30208 : Word).toNat = .ok ∧ reachOf ring7 (0x3000000 : Word).toNat = .none ∧ reachOf ring7 (0x1000000 : Word).toNat = .ok ∧
    (1 : Word).toNat % 4 ≠ 0 ∧ (ringOf (modRing 7 (fun g => { g with cur := some (aCmd .nop) }) up) 7).cur.isSome = true := by decide

/-- Witness for GroupCommands. -/
theorem wit_GroupCommands : idleRing ring7 7 = true ∧ ring7.gctl.role ≠ .manager ∧ bodyRefused ring7 (.groupCreate 4000 true 0) = false ∧ addrRefused 7 { aHdr with space := 0 } (.groupCreate 4000 true 0) = false ∧
    idleRing manager 7 = true ∧ manager.gctl.role = .manager ∧ groupOf manager 6 = none ∧ (groupOf manager 5).isSome = true := by decide

set_option maxRecDepth 20000 in
/-- Descriptors complete in host memory, of a group at another switch and of one here, for GroupCommands. -/
theorem wit_GroupCommands_create :
    (let s := creating 0x4103; let h := { aHdr with space := 0 }
     idleRing s 7 = true ∧ s.gctl.role = .manager ∧ h.space = 0 ∧ bodyRefused s (.groupCreate (76 : BitVec 16).toNat true (0 : Word).toNat) = false ∧ addrRefused 7 h (.groupCreate 76 true 0) = false ∧
     createRefusal s (descOf (patch [] 0 (rdBytes s.mem.host (dataAddr h 0) 76))) = none ∧ ∀ w ∈ (descOf (patch [] 0 (rdBytes s.mem.host (dataAddr h 0) 76))).switches, w.coord ≠ s.gctl.coord) ∧
    (let s := creating 0x4102; let d := descOf (patch [] 0 (rdBytes s.mem.host (dataAddr { aHdr with space := 0 } 0) 76))
     createRefusal s d = none ∧ d.switches.map SwRec.coord = [s.gctl.coord] ∧ bitOf d.mode 4 = false ∧ slotOf s d.group = none ∧
     (d.switches.map (allocOf s d)).all (fun a => Machine.posOk s a && (validate s a).isNone && homeFor s a == some 0) = true ∧ freeSlot s = some 0) ∧
    (let s := modMgr (fun m => { m with groups := [(5, some { desc := { twoSwitches with root := 0x4103 }, live := true, answers := [], ring := none })] }) (modGctl (fun g => { g with coord := 0x4100 }) manager)
     (groupOf s 5).any (fun x => x.desc.root != s.gctl.coord && x.desc.switches.all fun w => w.coord != s.gctl.coord) = true ∧ idleRing s 7 = true) ∧
    bodyRefused (creating 0x4102) (.groupCreate (300 : BitVec 16).toNat false (64 : Word).toNat) = false := by decide

/-- A group whose root is this switch, and its context, for GroupCommands. -/
def rootHere (c : Ctx) : State :=
  let d : Desc := { aDesc with switches := [{ coord := 0x4102, parent := 0, root := true, parentPos := 0 }] }
  setCtx 0 (some c) (modMgr (fun m => { m with groups := [(5, some { desc := d, live := true, answers := [], ring := none })] }) manager)

set_option maxRecDepth 20000 in
/-- The context moving, with a step open, idle, not committed and halted, for GroupCommands. -/
theorem wit_GroupCommands_root :
    (let c := { newCtx grouped anAlloc 0 with st := .moving, committed := true }; let s := rootHere c
     idleRing s 7 = true ∧ groupOf s (5 : GroupId) = groupOf s 5 ∧ (groupOf s 5).map (fun x => x.desc.root) = some s.gctl.coord ∧ slotOf s 5 = some 0 ∧ ctxOf s 0 = some c) ∧
    (let c := { running (newCtx grouped anAlloc 0) none with committed := true }; let s := rootHere c
     c.st = .run ∧ c.ready = none ∧ c.steps.map Step.num = [(7 : StepNo)] ∧ c.steps.map Step.closed = [false] ∧ c.deleting = false ∧ c.steps.map Step.results = [0] ∧ ctxOf s 0 = some c) ∧
    (let c := { newCtx grouped anAlloc 0 with st := .idle, committed := true }; let s := rootHere c; c.st = .idle ∧ c.steps = [] ∧ ctxOf s 0 = some c) ∧
    (let c := newCtx grouped anAlloc 0; let s := rootHere c; c.committed = false ∧ ctxOf s 0 = some c) ∧
    (let c := { running (newCtx grouped anAlloc 0) none with st := .halt, committed := true }; let s := rootHere c; c.st = .halt ∧ ctxOf s 0 = some c) ∧
    (let c := { running (newCtx grouped anAlloc 0) none with committed := true, steps := [{ newStep grouped (newCtx grouped anAlloc 0) 7 3 [] 0 with results := 1 }] }; let s := rootHere c
     c.steps.map Step.results = [1] ∧ ctxOf s 0 = some c) := by decide

set_option maxRecDepth 20000 in
/-- A root at another switch that a route leads to, and a context of a group whose tree does not pass here, for GroupCommands. -/
theorem wit_GroupCommands_elsewhere :
    (let d : Desc := { twoSwitches with root := 0x4103 }
     let s := modRoute (fun r => { r with live := [(0x777, 0x40000005)], liveSet := [(5, 0x400000001)] })
       (modMgr (fun m => { m with reg := [(0x777, some { coord := 0x4103, port := 0, strand := 0, isSwitch := true })], groups := [(5, some { desc := d, live := true, answers := [], ring := none })] }) manager)
     idleRing s 7 = true ∧ (groupOf s 5).map (fun x => x.desc.root) = some 0x4103 ∧ d.root ≠ s.gctl.coord ∧ switchId s d.root = 0x777) ∧
    (let d : Desc := { aDesc with root := 0x4103, switches := [{ coord := 0x4103, parent := 0, root := true, parentPos := 0 }] }
     let s := setCtx 0 (some (newCtx grouped anAlloc 0)) (modMgr (fun m => { m with groups := [(5, some { desc := d, live := true, answers := [], ring := none })] }) manager)
     slotOf s 5 = some 0 ∧ (ctxOf s 0).isSome = true ∧ (d.switches.map SwRec.coord).Nodup ∧ ∀ w ∈ d.switches, w.coord ≠ s.gctl.coord) := by decide

/-- Witness for StartOfLongCommands. -/
theorem wit_StartOfLongCommands :
    idleRing ring7 7 = true ∧ ring7.route.clr = none ∧ bodyRefused ring7 (.clear 2 15 0 false) = false ∧ addrRefused 7 { aHdr with space := 0 } (.clear 2 15 0 false) = false ∧
    (let s := shards; idleRing s 7 = true ∧ bodyRefused s (.shardLoad (3 : Byte).toNat (0 : Word).toNat (5000 : Word).toNat) = false ∧ bodyRefused s (.shardSave 3 0 5000) = false ∧ rangeLocked s 3 7 0 5000 = false ∧ rootOpen s 3 0 5000 = false ∧
      (∀ m < 8, stackUp s m = true) ∧ (∀ ch < 32, (chanOf s ch).owner = none) ∧ chanBusy (chanOf s 28) = false ∧
      rangeLocked (modRed 3 (fun x => { x with locks := [(2, 4999, 1)] }) s) 3 7 0 5000 = true ∧ bodyRefused s (.scrubPass 7) = false ∧ s.flt.injActive = false) ∧
    bodyRefused shards (.selfTest 1 7) = false ∧ addrRefused 7 { aHdr with space := 0 } (.selfTest 1 7) = false ∧ unitBusy shards 7 1 7 = false ∧
    ring7.dbg.windRing = none ∧ addrRefused 7 aHdr .windthrow = false ∧
    bodyRefused ring7 (.portRetrain 287 15) = false ∧ portOn ring7 287 = false ∧ stillTrains ring7 287 15 = false ∧
    bodyRefused ring7 (.imageUpdate (1 : Byte).toNat (192 : Word).toNat) = false ∧ addrRefused 7 aHdr (.imageUpdate 1 192) = false ∧ ring7.cmd.updating = none ∧
    ((287 : BitVec 16).toNat < 288 ∧ portOn ring7 1 = true ∧ ∀ k ∈ subKeys ring7 1, (∃ q ∈ strandPos ring7 k, (strandOf ring7 q).outOfUse = false)) := by decide

/-- A port none of whose strands gets light, for StartOfLongCommands. -/
theorem wit_StartOfLongCommands_dark : (let s := { ring7 with links := [(5, { st := .down })], strands := [(4, { cLost := true }), (5, { cLost := true }), (6, { cLost := true }), (7, { cLost := true })] }
    idleRing s 7 = true ∧ (1 : BitVec 16).toNat < 288 ∧ portOn s 1 = true ∧ stillTrains s 1 15 = false) := by decide

/-- Witness for ProcessorTurns. -/
theorem wit_ProcessorTurns :
    (let s := { ring7 with mem := { ring7.mem with host := wrBytes [] 0x10000 (entryBytes aHdr (.regRead 0x30208)) } }
     let s := modRing 7 (fun g => { g with tail := 1 }) s
     mgmtUp s = true ∧ s.cmd.halted = false ∧ s.cmd.sstep = false ∧ procBusy s = false ∧ nextRing s = some (7 : Fin 8).val ∧ (ringOf s 7).cur = none ∧ (ringOf s 7).aborts = [] ∧
      bodyFits (.regRead 0x30208) = true ∧ rdBytes s.mem.host ((ringOf s 7).sqBase.toNat + 64 * (ringOf s 7).head.toNat) 64 = entryBytes aHdr (.regRead 0x30208)) ∧
    nextRing ring7 = none ∧ (modCmd (fun k => { k with halted := true }) ring7).cmd.halted = true := by decide

/-- Nothing to do beside the rotation, for ProcessorTurns. -/
theorem wit_ProcessorTurns_quiet : housekeep ring7 = ring7 := by decide

/-- Witness for MemoryErrors. -/
theorem wit_MemoryErrors : alive shards = true ∧ shards.flt.injActive = false ∧ stackUp shards 7 = true ∧ (stackOf shards 7).marked = 15 ∧
    (let s := modStack 7 (fun k => { k with marked := 14, sparing := [9], passAt := 0, tally := [(0, List.replicate 64 86400000000000)] }) { shards with clock := 86400000000000 }
     alive s = true ∧ stackUp s 7 = true ∧ (stackOf s 7).marked.toNat = (14 : Fin 15).val ∧ (stackOf s 7).marked ≠ 15 ∧ (stackOf s 7).marked.toNat ≠ (0 : Fin 15).val ∧
     (9 ∈ (stackOf s 7).sparing) ∧ (stackOf s 7).lateFor ≠ some (stackOf s 7).passes) ∧
    (let s := modStack 7 (fun k => { k with lateFor := some k.passes }) shards; stackUp s 7 = true ∧ (stackOf s 7).lateFor = some (stackOf s 7).passes) ∧
    (stackOf shards 7).sparing = [] ∧ (stackOf shards 7).scrubEn = true ∧ (stackOf shards 7).paused = false ∧ (stackOf shards 7).boost = false ∧
    scrubTooSlow shards (stackOf shards 7) = false ∧ redLive shards 3 = true ∧
    (let s := modStack 7 (fun k => { k with pos := 2 ^ 30 - 1 }) shards; stackUp s 7 = true ∧ (stackOf s 7).pos + 1 = scrubWords ∧ scrubTooSlow s (stackOf s 7) = false) := by decide

/-- A memory die whose codewords fail, with none marked yet, and a codeword that an SRAM scrub reads, for MemoryErrors. -/
theorem wit_MemoryErrors_mark :
    (let s := modStack 7 (fun k => { k with tally := [(14, List.replicate 64 5)] }) { shards with clock := 1000000005 }
     alive s = true ∧ stackUp s 7 = true ∧ dieDue s 7 (14 : Fin 15) = true ∧ (stackOf s 7).marked = 15 ∧ dieDue { s with clock := 1000000006 } 7 14 = false) ∧
    (let s := modStack 7 (fun k => { k with pos := 9, bad := [9] }) shards; 9 ∈ (stackOf s 7).bad) ∧
    (16 : Nat) ≤ 16 ∧ redLive shards (3 : RedDie) = true := by decide

/-- The row that a scrub would read is being spared, for MemoryErrors. -/
theorem wit_MemoryErrors_row :
    (let s := modStack 7 (fun k => { k with pos := 9, sparing := [Config.rowOf 576] }) shards; rowBusy s 7 (64 * (stackOf s 7).pos) 64 = true) := by
  simp [rowBusy, stackOf, modStack, shards]
  exact ⟨0, by decide, by simp⟩

/-- Witness for BufferPools. -/
theorem wit_BufferPools : mgmtUp pools = true ∧ pools.flt.injActive = false ∧ fitRings 51 300000 = 10 :: [] ∧ (∀ w ∈ pools.bpm.waiters, ringsOf w.q ≠ ringsOf 51) ∧
    usedOf pools 51 + ringSize 10 ≤ quotaOf pools 51 ∧ (poolRingOf pools 10).cache = 4 :: [5] ∧ quotaOf pools 50 < usedOf pools 50 + ringSize 10 ∧
    ringFor 51 4 = some 10 ∧ ringFor 16 0 = none ∧ (poolRingOf pools 10).valid = true ∧ tget 0 pools.bpm.holders (bufKey 10 9) = 0 ∧ tget 0 pools.bpm.holders (bufKey 10 3) ≠ 0 ∧
    tget 0 pools.bpm.holders (bufKey 10 3) ≠ (50 : Fin 52).val + 1 ∧ tget 0 pools.bpm.holders (bufKey 10 3) = (51 : Fin 52).val + 1 ∧ pools.bpm.waiters = [] ∧
    pools.units.stackLost = 0 ∧ (poolRingOf pools 10).cache.length < 128 ∧ ((poolRingOf pools 9).copyA = 15 ↔ (poolRingOf pools 9).copyB = 15) ∧
    (poolRingOf pools 10).copyA = 15 ∧ (poolRingOf pools 10).copyB ≠ 15 ∧ copyTarget pools 10 (poolRingOf pools 10).copyB.toNat = some 0 ∧ poolBooks pools = true ∧ poolBooks (modPoolRing 10 (fun r => { r with total := 4 }) pools) = false := by decide

set_option maxRecDepth 20000 in
/-- An empty first ring, a free of a pool that the requester has not, of a free and of another's buffer, and rings with entries, good and bad, for BufferPools. -/
theorem wit_BufferPools_more :
    fitRings (51 : Fin 52) 200000 = 9 :: [10] ∧ (poolRingOf pools 9).cache = [] ∧ (poolRingOf pools 9).ring = [] ∧ ringFor (16 : Fin 52) (0 : Fin 5) = none ∧ ringFor (51 : Fin 52) (4 : Fin 5) = some 10 ∧
    (9 : BitVec 14).toNat = 9 ∧ (3 : BitVec 14).toNat = 3 ∧
    (let s := modPoolRing 10 (fun r => { r with ring := [entryOf 7], copyA := 0 }) pools; (poolRingOf s 10).ring = [entryOf 7] ∧ entryGood (entryOf 7) = true ∧ (stackOf s 0).bad = [] ∧ (poolRingOf s (10 : Fin 11)).copyB ≠ 15) ∧
    (let s := modPoolRing 10 (fun r => { r with ring := [3], copyB := 15 }) pools; (poolRingOf s 10).ring = [3] ∧ entryGood 3 = false ∧ (poolRingOf s 10).copyA = 15) ∧
    (let s := modBpm (fun b => { b with used := [(51, 512)] }) pools; fitRings (51 : Fin 52) 300000 = [10] ∧ quotaOf s 51 < usedOf s 51 + ringSize 10) ∧
    (let s := modPoolRing 10 (fun r => { r with copyB := 15 }) pools; (poolRingOf s 10).copyA = 15 ∧ (poolRingOf s 10).copyB = 15) := by decide

/-- Caches that are full, with a copy of the ring in DRAM and without, for BufferPools. -/
theorem wit_BufferPools_full_cache :
    (let s := modPoolRing 10 (fun r => { r with cache := List.replicate 512 0 }) pools; (poolRingOf s 10).cache = List.replicate 512 0) ∧
    (let s := modPoolRing 10 (fun r => { r with cache := List.replicate 512 0, copyB := 15 }) pools; (poolRingOf s 10).cache = List.replicate 512 0) := ⟨rfl, rfl⟩

/-- A cache above 448, for BufferPools. -/
theorem wit_BufferPools_full : ((poolRingOf pools 10).copyA ≠ 15 ∨ (poolRingOf pools 10).copyB ≠ 15) ∧
    (let s := modPoolRing 10 (fun r => { r with cache := List.replicate 449 0 }) pools; 448 < (poolRingOf s 10).cache.length) := by
  refine ⟨by decide, ?_⟩
  show 448 < (poolRingOf (modPoolRing 10 (fun r => { r with cache := List.replicate 449 0 }) pools) 10).cache.length
  rw [show (poolRingOf (modPoolRing 10 (fun r => { r with cache := List.replicate 449 0 }) pools) 10).cache = List.replicate 449 0 from rfl, List.length_replicate]; decide

/-- Witness for FabricPhases. -/
theorem wit_FabricPhases : up.route.waitMsg = none ∧ up.route.clr = none ∧ alive up = true ∧ up.gctl.role ≠ .manager ∧ phaseFits up { anAck with phase := .commit } = false ∧
    (let s := modRoute (fun r => { r with clr := some (aClr (.ring 7) .drain) }) (modRing 7 (fun g => { g with cur := some (aCmd (.clear 1 1 1 false)) }) oneQueued2)
     s.route.waitMsg = none ∧ s.route.clr = some (aClr (.ring 7) .drain) ∧ (aClr (.ring 7) .drain).src = .ring 7 ∧ (aClr (.ring 7) .drain).phase = .drain ∧
     (∃ m ∈ (aClr (.ring 7) .drain).markers, markerDone s m = false) ∧ (ringOf s 7).cur = some (aCmd (.clear 1 1 1 false)) ∧ s.route.onTimeout = false) ∧
    (∀ p ∈ [ClrPhase.stage, .drain, .commit, .hold], (aClr .manager p).src = .manager ∧ (aClr .manager p).dieMask = anAck.dieMask ∧ (aClr .manager p).committed = false ∧ (aClr .manager p).phase = p) ∧
    anAck.revert = false ∧ anAck.phase = .stage := by decide

/-- A worker with a clearing of the manager's in a phase, entry 5 of die 0 written. -/
def clearing (ph : ClrPhase) (f : Clearing → Clearing) : State :=
  modRoute (fun r => { r with clr := some (f (aClr .manager ph)), dirtyEnt := [5], shadow := [(5, 0x40000002)], live := [(5, 0x40000005)], reverted := true }) oneQueued2

/-- Each phase's message where it fits, repeated, and out of place, for FabricPhases. -/
theorem wit_FabricPhases_messages :
    coversVc0 oneQueued2 anAck.tcMask = false ∧ alive oneQueued2 = true ∧ oneQueued2.gctl.role ≠ .manager ∧ oneQueued2.route.clr = none ∧ oneQueued2.route.lastAck ≠ .stage ∧ oneQueued2.route.waitMsg = none ∧
    (let s := clearing .stage id; s.route.clr = some (aClr .manager .stage) ∧ { anAck with phase := .hold }.phase = .hold ∧ (aClr .manager .stage).committed = false) ∧
    (let s := clearing .hold id; s.route.clr = some (aClr .manager .hold) ∧ { anAck with phase := .drain }.phase = .drain ∧ ∃ k ∈ (aClr .manager .hold).markers, markerDone s k = false) ∧
    (let s := clearing .hold fun c => { c with markers := [] }; s.route.clr = some { aClr .manager .hold with markers := [] } ∧ ({ aClr .manager .hold with markers := [] }).markers = []) ∧
    (let s := clearing .drain id; s.route.clr = some (aClr .manager .drain) ∧ { anAck with phase := .commit }.phase = .commit ∧ 5 ∈ dirtyEnts s 15) ∧
    (let s := clearing .drain fun c => { c with markers := [{ g := 3, ahead := [] }] }; markerDone s { g := 3, ahead := [] } = true ∧ 3 = 8 * 0 + (3 : Fin 8).val ∧ s.route.clr = some { aClr .manager .drain with markers := [{ g := 3, ahead := [] }] }) ∧
    (let s := clearing .commit fun c => { c with committed := true }; s.route.clr = some { aClr .manager .commit with committed := true } ∧ { anAck with phase := .release }.phase = .release) ∧
    (let s := modRoute (fun r => { r with lastAck := .hold }) (clearing .hold id); { anAck with phase := .hold }.phase = s.route.lastAck) ∧
    { anAck with revert := true }.revert = true ∧
    (let s := modRoute (fun r => { r with clr := some (aClr (.ring 7) .hold) }) oneQueued2; s.route.clr = some (aClr (.ring 7) .hold) ∧ (aClr (.ring 7) .hold).phase ≠ .drain) ∧
    (let s := modRoute (fun r => { r with clr := some (aClr (.ring 7) .drain), dirtyEnt := [5] }) (modRing 7 (fun g => { g with cur := some (aCmd (.clear 1 1 1 false)) }) oneQueued2); 5 ∈ dirtyEnts s 15) ∧
    (let s := modRoute (fun r => { r with onTimeout := true, clr := some (aClr (.ring 7) .drain), dirtyEnt := [5] }) (modRing 7 (fun g => { g with cur := some (aCmd (.clear 1 1 1 false)) }) oneQueued2)
     s.route.onTimeout = true ∧ (ringOf s 7).cur = some (aCmd (.clear 1 1 1 false))) := by decide

/-- Witness for FabricChange. -/
theorem wit_FabricChange : alive manager = true ∧ manager.gctl.role = .manager ∧ manager.mgr.change = none ∧
    (let f : FabChange := { phase := .drain, workers := [1, 2], waiting := [1, 2], begun := false, reverting := false, dieMask := 15, tcMask := 1, recs := [], ring := some 7 }
     let s := modRing 7 (fun g => { g with cur := some (aCmd .nop) }) (modMgr (fun m => { m with change := some f }) manager)
     alive s = true ∧ s.gctl.role = .manager ∧ s.mgr.change = some f ∧ f.phase ≠ .idle ∧ f.waiting.filter (· ≠ 1) ≠ [] ∧ ClrPhase.commit ≠ .idle ∧ ClrPhase.commit ≠ f.phase ∧
     (f.phase, ClrPhase.commit) ∈ [(ClrPhase.stage, ClrPhase.hold), (.hold, .drain), (.drain, .commit), (.commit, .release)] ∧ f.workers ≠ [] ∧ s.gctl.coord ∉ f.workers ∧
     { f with waiting := [1] }.waiting.filter (· ≠ 1) = [] ∧ 3 ∉ f.waiting ∧ 1 ∈ f.waiting ∧ f.begun = false ∧ { f with begun := true }.begun = true ∧
     (ringOf s 7).cur = some (aCmd .nop)) ∧
    (let f : FabChange := { phase := .hold, workers := [1, 2], waiting := [1], begun := false, reverting := false, dieMask := 15, tcMask := 1, recs := [], ring := some 7 }
     let s := modRing 7 (fun g => { g with cur := some (aCmd .nop) }) (modMgr (fun m => { m with change := some f }) manager)
     s.mgr.change = some f ∧ f.waiting.filter (· ≠ (1 : Coord)) = [] ∧ f.begun = false) ∧
    (let f : FabChange := { phase := .release, workers := [1, 2], waiting := [1], begun := true, reverting := false, dieMask := 15, tcMask := 1, recs := [], ring := some 7 }
     let s := modRing 7 (fun g => { g with cur := some (aCmd .nop) }) (modMgr (fun m => { m with change := some f }) manager)
     s.mgr.change = some f ∧ f.phase = .release ∧ f.waiting.filter (· ≠ (1 : Coord)) = [] ∧ s.mgr.again = []) ∧
    (let f : FabChange := { phase := .commit, workers := [1, 2], waiting := [1, 2], begun := true, reverting := false, dieMask := 15, tcMask := 1, recs := [], ring := some 7 }
     let s := modMgr (fun m => { m with change := some f }) manager
     s.mgr.change = some f ∧ f.begun = true ∧ (1 : Coord) ∈ f.workers ∧ f.waiting.filter (· ≠ 1) ≠ []) ∧
    (let f : FabChange := { phase := .release, workers := [], waiting := [], begun := true, reverting := false, dieMask := 15, tcMask := 1, recs := [], ring := none }
     let s := modMgr (fun m => { m with lastChange := some f }) manager
     s.mgr.change = none ∧ s.mgr.lastChange = some f ∧ (1 : Coord) ≠ s.gctl.coord) := by decide

/-- Witness for TableWindow. -/
theorem wit_TableWindow : mgmtUp up = true ∧ dieLive up (fld (0xC4000005 : Word) 30 2) = true ∧
    (let s := modRoute (fun r => { r with winCtl := 0xC40FFFFF }) up; dieLive s (winDie s) = true ∧ winTable s = 0 ∧ s.route.clr = none ∧ winIndex s = 2 ^ 20 - 1 ∧ bitOf s.route.winCtl 26 = true) ∧
    (let s := modRoute (fun r => { r with winCtl := 0x00000005, clr := some (aClr .manager .hold), dirtyEnt := [5] }) up
     winTable s = 0 ∧ s.route.clr.isSome = true ∧ entKey (winDie s) (winIndex s) ∈ s.route.dirtyEnt) ∧
    (let s := modRoute (fun r => { r with winCtl := 0x10003FFF, winData := [(0, 1)] }) up
     dieLive s (winDie s) = true ∧ winTable s = 1 ∧ winIndex s < 2 ^ 14 ∧ s.route.clr = none ∧ setOk s (setOfWords ((List.range 8).map (fun k => tget 0 s.route.winData k) ++ [0])) = true ∧
     setOk s (setOfWords ([2] ++ (List.range 7).map (fun _ => 0) ++ [0])) = false) ∧
    (let s := modRoute (fun r => { r with winCtl := 0x10003FFF, winData := [(0, 2)] }) up; winTable s = 1 ∧ tget 0 s.route.winData 0 = 2) ∧
    (let s := modUnits (fun u => { u with fabLost := 1 }) up; mgmtUp s = true ∧ dieLive s (winDie s) = false) := by decide

/-- Witness for SwitchCoreRegisters. -/
theorem wit_SwitchCoreRegisters : mgmtUp up = true ∧ dieLive up 3 = true ∧ gladeBook up 3 = true ∧ bridgeBook up 3 = true ∧
    (let s := modSwc 3 (fun w => { w with free := 5 }) up; (gladeBook s 3 && bridgeBook s 3) = false ∧ (swcOf s 3).auditFailAt = none) ∧
    (let s := modSwc 3 (fun w => { w with free := 5, auditFailAt := some 0 }) { up with clock := 1000000000 }
     mgmtUp s = true ∧ (gladeBook s 3 && bridgeBook s 3) = false ∧ (swcOf s 3).auditFailAt = some 0 ∧ s.clock ≤ 0 + 1000000000 ∧ bitOf s.units.fabLost 3 = false) ∧
    (let s := modUnits (fun u => { u with fabLost := 8 }) up; mgmtUp s = true ∧ dieLive s 3 = false) ∧
    (tget {} (swcOf up 3).hist 63).queue ≠ 2303 ∧ (tget {} (swcOf up 3).hist 63).queue = 0 := by decide

/-- Witness for LinkFlits. -/
theorem wit_LinkFlits : portOn up 1 = true ∧ up.flt.injActive = false ∧ linkRuns (linkOf up (subKey up 1 0)) = true ∧ slotsRun (linkOf up 4) = true ∧
    (let s := modLink 4 (fun l => { l with st := .idle, idleTx := true }) up; linkRuns (linkOf s (subKey s 1 0)) = true ∧ slotsRun (linkOf s 4) = false) ∧
    (strandOf up 4).outOfUse = false ∧ (linkOf up 4).st = .active ∧ (linkOf up 4).idleTx = false ∧ nextFlit (linkOf up 4) = none ∧
    nextFlit { linkOf up 4 with txq := [aFlit] } = some aFlit ∧ aFlit.typ ≠ 5 ∧ (linkOf up 4).nakFor = none ∧ (∀ q ∈ liveStrands up 4, (strandOf up q).misses < 3) ∧
    tget 0 (linkOf up 4).framing 3 = 0 ∧ tget 0 (linkOf up 4).occ 3 < tget 0 (linkOf up 4).adv 3 := by decide

set_option maxRecDepth 4000 in
/-- A good SINGLE flit on VC3 with SEQ 0, for LinkFlits. -/
theorem wit_LinkFlits_flit : be (flitBytes aFlit) 248 8 = (crc64 ((flitBytes aFlit).take 248)).toNat ∧ (flitOfBytes (flitBytes aFlit)).seq = (linkOf up 4).rxSeq ∧
    (flitOfBytes (flitBytes aFlit)).typ = 3 ∧ (flitOfBytes (flitBytes aFlit)).vc = 3 ∧ (flitOfBytes (flitBytes aFlit)).len = 40 :=
  ⟨crc64_checks _ (by decide), by decide, by decide, by decide, by decide⟩

set_option maxRecDepth 4000 in
/-- A good control slot with CSC 2, STATE 8, no NAK and no RET, for LinkFlits. -/
theorem wit_LinkFlits_slot : (let b := slotBytes (modLink 4 (fun l => { l with csc := 2 }) up) 4 4 0
    be b 248 8 = (crc64 (b.take 248)).toNat ∧ be b 0 8 = 0xA5C30FF0E1963C5A ∧ be b 10 2 = 2 ∧ byteAt b 9 = 8 ∧ byteAt b 35 = 0 ∧ byteAt b 15 = 0 ∧
    seqGe (2 : BitVec 16) 1 = true) :=
  ⟨crc64_checks _ (by decide), by decide, by decide, by decide, by decide, by decide, by decide⟩

set_option maxRecDepth 8000 in
/-- A flit of the replay buffer to resend, one that comes from a queue, and a strand whose oldest deadline passes, for LinkFlits. -/
theorem wit_LinkFlits_resend :
    (let s := modLink 4 (fun l => { l with resend := [aFlit], replay := [aFlit] }) (modStrand 4 (fun x => { x with due := [(0, 5), (3, 9)] }) up)
     (linkOf s 4).idleTx = false ∧ (linkOf s 4).resend = aFlit :: [] ∧ 4 ∈ liveStrands s 4 ∧ (strandOf s 4).due = (0, 5) :: [(3, 9)] ∧ ∀ r ∈ liveStrands s 4, (strandOf s r).misses < 3) ∧
    (let f := { aFlit with src := some (3, 4) }; let s := modLink 0 (fun l => { l with txq := [f] }) oneQueued2
     nextFlit (linkOf s 0) = some f ∧ f.typ ≠ 5 ∧ keyGone s 0 f = false ∧ (linkOf s 0).resend = [] ∧ pktOf s 4 = some aPkt) ∧
    (let s := modLink 0 (fun l => { l with peerHealth := 0x6660 }) (modStrand 3 (fun x => { x with due := [(0, 5)], misses := 2 }) up)
     ((liveStrands s 0).filter fun r => !((lanesOf s r).all fun lane => bitOf (linkOf s 0).peerHealth (4 * (r % 4) + laneWl (strandOf s r) lane))) = [0] ∧ (strandOf s 0).rotating = none) ∧
    slotStrands up 4 ≠ [] ∧ slotStrands up 5 = [] := by decide

/-- Witness for StrandsAndLanes. -/
theorem wit_StrandsAndLanes : portOn up 0 = true ∧ pastTraining (linkOf up (subKey up 0 3)).st = true ∧ (strandOf up 3).alone = false ∧ (strandOf up 3).outOfUse = false ∧
    0 ≠ 3 ∧ 0 ∈ liveStrands up (subKey up 0 3) ∧ portOn up 1 = true ∧ (∀ r, r ∈ liveStrands up (subKey up 1 0) → r = 4) ∧ (optOf up 0).rotThr.toNat < 1 ∧ rotatable up 3 1 = true ∧
    (strandOf up 3).recal = none ∧ spareFor up 3 = some 3 ∧ laneWl (strandOf up 3) (1 : Fin 2) = (1 : Fin 2).val + 1 ∧ (strandOf up 3).recalAt1 = 0 ∧
    (let s := modStrand 3 (fun x => { x with released := 8 }) up; spareFor s 3 = none ∧ rotatable s 3 1 = true ∧ laneWl (strandOf s 3) ((1 : Fin 2) - 1 : Fin 2) ≠ 0) ∧
    (strandOf (modStrand 3 (fun x => { x with recal := some 1 }) up) 3).recal = some 1 := by decide

/-- A lane whose ring has been recalibrated, for StrandsAndLanes. -/
theorem wit_StrandsAndLanes_done : (let s := modStrand 3 (fun x => { x with recal := some 1, wl1 := 3 }) up
    (strandOf s 3).recal = some (1 : Fin 2) ∧ (strandOf s 3).rotating = none ∧ laneWl (strandOf s 3) (1 : Fin 2) ≠ (1 : Fin 2).val + 1) := by decide

/-- Witness for TrainingSequence. -/
theorem wit_TrainingSequence : listening up 1 = true ∧ subKey up 1 1 = 5 ∧
    (let s := modLink 5 (fun l => { l with st := .down, reason := .noLight }) up
     listening s 1 = true ∧ (linkOf s 5).st = .down ∧ (linkOf s 5).quar = false ∧ (linkOf s 5).reason = .noLight ∧ (strandOf s 5).outOfUse = false ∧ (strandOf s 5).alone = false ∧
     5 ∈ strandPos s 5 ∧ (strandOf s 5).cLost = false) ∧
    (let s := modStrand 5 (fun x => { x with st := .down }) up; (linkOf s 5).st = .clock ∧ (strandOf s 5).st = .down ∧ (strandOf s 5).outOfUse = false ∧ (strandOf s 5).alone = false) ∧
    (linkOf up 5).st = .clock ∧ (strandOf up 5).st = .clock ∧ 5 ∈ liveStrands up 5 ∧ (strandOf up 5).row < 7 ∧ 7 ≤ (strandOf (modStrand 5 (fun x => { x with row := 7 }) up) 5).row ∧
    (∀ r ∈ liveStrands up 5, trainRank (linkOf up 5).st ≤ trainRank (strandOf up r).st ∧ r = 5) ∧
    (let s := modLink 0 (fun l => { l with st := .eq }) (modStrand 0 (fun x => { x with st := .eq }) (modStrand 1 (fun x => { x with st := .eq }) up))
     listening s 0 = true ∧ subKey s 0 0 = 0 ∧ 0 ∈ liveStrands s 0 ∧ 1 ∈ liveStrands s 0 ∧ (strandOf s 1).st = (linkOf s 0).st ∧ (∀ r ∈ liveStrands s 0, trainRank (linkOf s 0).st ≤ trainRank (strandOf s r).st)) ∧
    (let s := modLink 5 (fun l => { l with st := .eq }) (modStrand 5 (fun x => { x with st := .eq }) up); (linkOf s 5).st = .eq ∧ bitOf (tget 0 (optOf s 0).eq (16 * 1 + 4 * 1 + 3)) 5 = false) ∧
    (linkOf (modLink 5 (fun l => { l with st := .align }) up) 5).st = .align ∧ (linkOf (modLink 5 (fun l => { l with st := .down, quar := true }) up) 5).quar = true := by decide

/-- The last strand of its sub-link in ALIGN, for TrainingSequence. -/
theorem wit_TrainingSequence_align : (let s := modLink 5 (fun l => { l with st := .align }) (modStrand 5 (fun x => { x with st := .align }) up)
    (strandOf s 5).st = (linkOf s 5).st ∧ (linkOf s 5).st = .align ∧ ∀ r ∈ liveStrands s 5, r = 5) := by decide

/-- Witness for AssignmentAndRegistration. -/
theorem wit_AssignmentAndRegistration : listening up 1 = true ∧ subKey up 1 1 = 5 ∧ up.gctl.role ≠ .manager ∧
    (let s := modLink 5 (fun l => { l with st := .config, partnerBreakout := some 4 }) { up with img := some { aContent with ports := [(1, { ids := [none, some 0x321] })] } }
     listening s 1 = true ∧ (linkOf s 5).st = .config ∧ (linkOf s 5).partnerBreakout = some ((portOf s 1).breakout.setWidth 8) ∧ (linkOf s 5).partnerSwitch = false ∧ tableId s 5 = some 0x321 ∧
     tableId s 4 = none) ∧
    (let s := modLink 5 (fun l => { l with st := .assign, assignTries := 1 }) { up with img := some { aContent with ports := [(1, { ids := [none, some 0x321] })] } }
     (linkOf s 5).st = .assign ∧ (linkOf s 5).partnerSwitch = false ∧ bytesBE 8 (0x0003214102000101 : BitVec 64).toNat = assignMsg s 5 ∧ bytesBE 8 (0 : BitVec 64).toNat ≠ assignMsg s 5 ∧
     (linkOf s 5).assignTries < 8) ∧ (up.gctl.fabricId = 0 ∧ (1 : Word) ≠ 0) ∧
    (let s := modLink 5 (fun l => { l with st := .register, regPending := true }) up; portOn s 1 = true ∧ (linkOf s 5).st = .register ∧ (linkOf s 5).regPending = true ∧ pastTraining (linkOf s 5).st = true) ∧
    (let q : RegReq := { id := 9, coord := 0x4101, port := 3, strand := 0, isSwitch := false }
     let s := modMgr (fun m => { m with groups := [] }) manager
     alive s = true ∧ s.gctl.role = .manager ∧ regOf s q.id.toNat = none ∧ (regRecs s).length < 524288 ∧
     (let t := modMgr (fun m => { m with reg := [(9, some { coord := 0x4101, port := 3, strand := 0, isSwitch := false })] }) s
      regOf t q.id.toNat = some { coord := q.coord, port := q.port, strand := q.strand, isSwitch := false } ∧ (0x4101 : Coord) ≠ { q with coord := 0x4102 }.coord ∧ t.mgr.groups = [])) := by decide

/-- Position 5 in CONFIG, its strand with both lanes. -/
def config5 (f : SubLink → SubLink) : State :=
  modStrand 5 (fun x => { x with st := .config, wl0 := 1, wl1 := 2 }) (modLink 5 (fun l => f { l with st := .config, partnerBreakout := some 4 }) { up with img := some { aContent with ports := [(1, { ids := [none, some 0x321] })] } })

/-- Its strand sends slots, so each refusal is told; the partner's breakout differs; nothing is assigned; a switch; the eighth ASSIGN_ACK; and a registration refused. -/
theorem wit_AssignmentAndRegistration_told :
    (let s := config5 id; listening s 1 = true ∧ 5 ∈ slotStrands s 5 ∧ (strandOf s 5).alone = false ∧ (strandOf s 5).st ≠ .eq ∧ (strandOf s 5).st ≠ .align ∧ lanesOf s 5 ≠ [] ∧ (2 : Byte) ≠ 1) ∧
    (let s := config5 fun l => { l with partnerBreakout := some 2 }; (linkOf s 5).partnerBreakout ≠ some ((portOf s 1).breakout.setWidth 8)) ∧
    (let s := { config5 id with img := none }; (linkOf s 5).partnerSwitch = false ∧ tableId s 5 = none) ∧
    (let s := config5 fun l => { l with partnerSwitch := true }; (linkOf s 5).partnerSwitch = true) ∧
    (let s := config5 fun l => { l with st := .assign, assignTries := 8 }; (linkOf s 5).st = .assign ∧ bytesBE 8 (0 : BitVec 64).toNat ≠ assignMsg s 5 ∧ 8 ≤ (linkOf s 5).assignTries) ∧
    (let s := config5 fun l => { l with st := .assign, partnerSwitch := true }; (linkOf s 5).st = .assign ∧ (linkOf s 5).partnerSwitch = true ∧ s.gctl.role ≠ .manager) ∧
    (let s := config5 fun l => { l with st := .register, regPending := true }; portOn s 1 = true ∧ (linkOf s 5).st = .register ∧ (linkOf s 5).regPending = true ∧ 5 ∈ slotStrands s 5) := by decide

/-- Witness for LowPowerLinks. -/
theorem wit_LowPowerLinks : mgmtUp up = true ∧ portOn up 1 = true ∧ up.pwr.state = .run ∧ up.pwr.busy = false ∧ subKey up 1 0 = 4 ∧ bitOf up.pwr.wantOff (1 / 12) = false ∧
    (let s := modPort 1 (fun x => { x with idleEn := true }) up
     (linkOf s 4).st = .active ∧ (linkOf s 4).idleTx = false ∧ (portOf s 1).idleEn = true ∧ (linkOf s 4).txq = [] ∧ (linkOf s 4).replay = [] ∧ (linkOf s 4).resend = [] ∧
     credShown s 4 = (linkOf s 4).credSent ∧ (linkOf s 4).nakPend = false ∧ (linkOf s 4).lpWant = none) ∧
    (let s := modLink 4 (fun l => { l with st := .idle, idleTx := true, txq := [aFlit] }) up; (linkOf s 4).idleTx = true ∧ (linkOf s 4).txq ≠ []) ∧
    (let s := modLink 4 (fun l => { l with st := .dark }) up; (linkOf s 4).st = .dark ∧ (strandOf s (4 * 1 + 0)).outOfUse = false ∧ 4 * 1 + 0 ∈ strandPos s 4) ∧
    (linkOf (modLink 4 (fun l => { l with st := .doze }) up) 4).st = .doze := by decide

/-- Witness for PowerEntries. -/
theorem wit_PowerEntries : mgmtUp up = true ∧ hasRole up = true ∧ up.pwr.state = .run ∧ up.pwr.busy = false ∧ domOn up 36 = true ∧ domOn up (24 : Dom) = true ∧ domOn up (59 : Dom) = true ∧
    (let s := modPwr (fun p => { p with busy := true, phase := .vote, target := .quiet, wakeEn := 1 }) up
     s.pwr.busy = true ∧ s.pwr.phase = .vote ∧ (51 : Dom).val ∈ concerned s ∧ refuseReason s 51 = 0 ∧ (36 ∈ concerned s ∧ 36 ≠ (51 : Dom).val ∧ bitOf s.pwr.voted 36 = false) ∧
     bitOf s.pwr.voted 51 = false ∧ bitOf s.pwr.wakeEn 0 = true ∧ s.pwr.single = none) ∧
    (let s := modPwr (fun p => { p with busy := true, phase := .vote, target := .hold }) up; (25 : Dom).val ∈ concerned s ∧ refuseReason s (25 : Dom) = 3) ∧
    (let s := modRoute (fun r => { r with clr := some (aClr .manager .hold) }) (modPwr (fun p => { p with busy := true, phase := .vote, target := .hold }) up)
     (24 : Dom).val ∈ concerned s ∧ refuseReason s 24 = 1) ∧
    (let s := modPwr (fun p => { p with busy := true, phase := .stop, target := .quiet }) up
     (51 : Dom).val ∈ concerned s ∧ 59 ∈ concerned s ∧ stopRank 59 < stopRank 51 ∧ (∀ j ∈ concerned s, stopRank 59 ≤ stopRank j) ∧ refuseReason s 59 = 0 ∧ toRefresh s 59 = true) ∧
    (let s := modPwr (fun p => { p with busy := true, phase := .restart, state := .quiet, selfRefresh := 1 <<< 59 }) up
     s.pwr.busy = true ∧ s.pwr.phase = .restart ∧ s.pwr.state = .quiet ∧ s.pwr.waitAlloc = [] ∧ bitOf s.pwr.wantOff 59 = false ∧ domUsable s 59 = true ∧ bitOf s.pwr.selfRefresh 59 = true ∧ domOn s 59 = true) := by decide

/-- Quiet and Hold, the last vote, a vote given, and a stop of every domain, for PowerEntries. -/
theorem wit_PowerEntries_more :
    (let s := modPwr (fun p => { p with state := .quiet, wakeEn := 7 }) up; s.pwr.state = .quiet ∧ s.pwr.busy = false ∧ mgmtUp s = true ∧ hasRole s = true ∧ bitOf s.pwr.wakeEn (0 : Fin 3).val = true) ∧
    (let s := modPwr (fun p => { p with state := .hold, on := 0 }) up; s.pwr.state = .hold ∧ s.pwr.busy = false ∧ mgmtUp s = true ∧ hasRole s = true) ∧
    (let s := modPwr (fun p => { p with busy := true, phase := .vote, target := .quiet, voted := BitVec.ofNat 60 (2 ^ 60 - 1 - 2 ^ 51) }) up
     (51 : Dom).val ∈ concerned s ∧ refuseReason s 51 = 0 ∧ ∀ j ∈ concerned s, j ≠ 51 → bitOf s.pwr.voted j = true) ∧
    (let s := modPwr (fun p => { p with busy := true, phase := .vote, target := .quiet, voted := BitVec.allOnes 60 }) up; bitOf s.pwr.voted 51 = true) ∧
    (let s := modPwr (fun p => { p with busy := true, phase := .stop, target := .hold }) up; (59 : Dom).val ∈ concerned s ∧ (∀ j ∈ concerned s, stopRank 59 ≤ stopRank j) ∧ refuseReason s 59 = 0 ∧ toRefresh s 59 = false) := by decide

/-- Witness for PerformancePoints. -/
theorem wit_PerformancePoints : mgmtUp up = true ∧ alive up = true ∧ (95 < (96 : Byte).toNat) ∧ (3 : Fin 8).val < 4 ∧ redEnabled up ((7 : Fin 8).val - 4) = true ∧ redEnabled { up with fuses := { sk2x := true } } ((7 : Fin 8).val - 4) = false ∧ up.pwr.state = .run ∧ up.pwr.ramping = false ∧ (0 : BitVec 2) = up.pwr.cur ∧ (3 : BitVec 2) ≠ up.pwr.cur ∧
    (let s := modPwr (fun p => { p with ramping := true, rampTo := 2, heldPoint := some 1 }) up
     mgmtUp s = true ∧ s.pwr.ramping = true ∧ s.pwr.heldPoint = some 1 ∧ (1 : BitVec 2) ≠ s.pwr.rampTo) ∧
    (modPwr (fun p => { p with ramping := true }) up).pwr.heldPoint = none := by decide

set_option maxRecDepth 20000 in
/-- A paced context, for PerformancePoints. -/
theorem wit_PerformancePoints_paced : (let c : Ctx := { newCtx grouped { anAlloc with mode := 0x10, paceNs := 10000 } 0 with st := .idle, committed := true }
    let s := setCtx 0 (some c) grouped; mgmtUp s = true ∧ alive s = true ∧ ctxOf s 0 = some c ∧ isPaced c = true ∧ c.lapsed = false) := by decide

/-- Witness for TimeMessages. -/
theorem wit_TimeMessages : timeRuns up (subKey up 0 0) = true ∧ subKey up 0 0 = 0 ∧ (linkOf up 0).idleTx = false ∧ up.gctl.role ≠ .manager ∧ up.tim.upstream ≠ some 0 ∧
    manager.gctl.role = .manager ∧ timeRuns manager (subKey manager 0 0) = true ∧
    (let s := modTim (fun x => { x with upstream := some 0, running := true }) up
     timeRuns s 0 = true ∧ s.tim.upstream = some 0 ∧ (0 : Int).natAbs ≤ s.tim.stepThr.toNat * 65536 ∧ s.tim.stepThr.toNat * 65536 < (-70000000 : Int).natAbs ∧
     (fabT s - 70000000).toInt - (s.tim.delayFx + psToFx (tget 0 (portOf s 0).asym 0).toInt / 2) = -70000000 ∧ s.tim.stepDue = false ∧ (linkOf s 0).reqSeq = 0) ∧
    (modTim (fun x => { x with stepDue := true }) up).tim.stepDue = true := by decide

set_option maxRecDepth 4000 in
/-- A small offset, and a second large one, and the answer to the last request, for TimeMessages. -/
theorem wit_TimeMessages_more :
    (let s := modTim (fun x => { x with upstream := some 0, running := true, stepDue := true }) up
     (fabT s - (-5 : BitVec 80)).toInt - (s.tim.delayFx + psToFx (tget 0 (portOf s 0).asym 0).toInt / 2) = 5 ∧ (5 : Int).natAbs ≤ s.tim.stepThr.toNat * 65536 ∧ s.tim.stepDue = true) ∧
    (linkOf measuring 0).reqSeq = 1 ∧ measuring.tim.upstream = some 0 ∧ timeRuns measuring 0 = true := by decide

/-- No other candidate for the upstream, for TimeMessages. -/
theorem wit_TimeMessages_alone : ∀ j, j ≠ 0 → upCandidate up j = none := by
  intro j hj
  by_cases h4 : j = 4
  · subst h4; decide
  · by_cases h5 : j = 5
    · subst h5; decide
    · have : linkOf up j = {} := by simp [linkOf, up, tget, Ne.symm hj, Ne.symm h4, Ne.symm h5]
      simp [upCandidate, this]

/-- Witness for GrandmasterTime. -/
theorem wit_GrandmasterTime : mgmtUp up = true ∧ up.gctl.role ≠ .manager ∧ up.tim.holdover = false ∧ up.tim.leapAt = 0 ∧ domOn up 0 = true ∧ (up.tim.ppsEn && !up.tim.ppsDis) = false ∧
    mgmtUp manager = true ∧ manager.gctl.role = .manager ∧ manager.tim.armPps = false ∧ manager.tim.armed = false ∧ manager.tim.ppsOk = false ∧ manager.tim.tenmOk = false ∧
    (fromSecond manager).natAbs ≤ manager.tim.stepThr.toNat * 65536 ∧
    (let s := modTim (fun x => { x with armed := true, armPps := true, ppsOk := true, tenmOk := true, holdover := true, followAt := some 0, running := true, leapAt := 5, ppsEn := true, ppsMiss := 7 }) { manager with clock := 1000 }
     mgmtUp s = true ∧ s.gctl.role = .manager ∧ s.tim.armed = true ∧ s.tim.armedAt + 1000 ≤ s.clock ∧ s.tim.ppsOk = true ∧ s.tim.tenmOk = true ∧ s.tim.holdover = true ∧ s.tim.followAt = some 0 ∧
     s.tim.leapAt ≠ 0 ∧ s.tim.slew = 0 ∧ s.tim.baseAt ≤ s.clock ∧ domOn s 0 = true ∧ s.tim.ppsEn = true ∧ s.tim.ppsDis = false ∧ s.tim.ppsMiss = 7) := by decide

/-- A worker and managers with one input or the other, and time that has not started, for GrandmasterTime. -/
theorem wit_GrandmasterTime_inputs :
    (modTim (fun x => { x with tenmOk := true }) up).tim.tenmOk = true ∧ (let s := modTim (fun x => { x with ppsOk := true }) manager; s.tim.ppsOk = true ∧ s.tim.tenmOk = false ∧ s.tim.armed = false) ∧
    (let s := modTim (fun x => { x with tenmOk := true }) manager; s.tim.tenmOk = true ∧ s.tim.ppsOk = false) ∧
    (let s := modTim (fun x => { x with ppsOk := true, base := 65536 * 1000000010, lastPps := some 0 }) { manager with clock := 5 }; (fromSecond s).natAbs ≤ s.tim.stepThr.toNat * 65536) ∧
    (let s := modTim (fun x => { x with leapAt := 5, running := false }) up; s.tim.leapAt ≠ 0 ∧ s.tim.running = false) := by decide

set_option maxRecDepth 4000 in
/-- Witness for ArrivalAndAdmission. -/
theorem wit_ArrivalAndAdmission_head :
    (let s := arriving; let f := routed; portOn s 0 = true ∧ s.flt.injActive = false ∧ subKey s 0 0 = 0 ∧ (linkOf s 0).rxq = [f] ∧ f.vc = (3 : Vc).val ∧ vcBlocked s 0 (3 : Vc) = false ∧ f.typ = 3 ∧
      f.poison = false ∧ headChecks s 0 (3 : Vc) f.data f.len true = .inr (aHead2, []) ∧ totalLen aHead2 0 = f.len ∧ hPtype aHead2 = ptData ∧ tcVc s (hTc aHead2) ≤ 2 ∧ (swcOf s (dieOf 0)).sess = [] ∧
      s.route.clr = none ∧ (lookup (dieOf 0) (ingressHdr aHead2) s).1 = .go 4 ∧ dieOf 4 = dieOf 0 ∧ (linkOf s 4).st ≠ .doze ∧
      headChecks s 0 (3 : Vc) [] 0 true = .inl 0x128) := by
  refine ⟨by decide, by decide, by decide, by decide, by decide, by decide, by decide, by decide, by rfl, by decide, by decide, by decide, by decide, by decide, by rfl, by decide, by decide, by rfl⟩

set_option maxRecDepth 4000 in
/-- A TAIL of 68 bytes for the open packet of position 4, for ArrivalAndAdmission. -/
theorem wit_ArrivalAndAdmission_tail :
    (let y : Pkt := { aPkt with tailIn := false, flits := 1 }
     let s := { up with pkts := [(4, some y)], staging := [(35, [{ pid := 4, stage := .forwarded }])] }
     openEntry s 4 (3 : Vc) = some { pid := 4, stage := .forwarded } ∧ pktOf s 4 = some y ∧ y.obs = [] ∧ y.flits + 1 = flitsOf (pktTotal y) ∧ 68 = pktTotal y - 232 * (flitsOf (pktTotal y) - 1) ∧
     { y with begun := true }.begun = true) := by decide

/-- Its two ways in: the flit at the front, good and poisoned, for ArrivalAndAdmission. -/
theorem wit_ArrivalAndAdmission_tail_flit :
    (let y : Pkt := { aPkt with tailIn := false, flits := 1, body := List.replicate 200 0xAB, rxTotal := 300 }
     let f (b : Bool) : Flit := { aFlit with typ := 2, len := 68, data := List.replicate 68 9, poison := b }
     let s (y : Pkt) (b : Bool) := modLink 4 (fun l => { l with rxq := [f b], occ := [(3, 1)] }) { up with pkts := [(4, some y)], nextPid := 5, staging := [(35, [{ pid := 4, stage := .forwarded }])] }
     portOn (s y false) 1 = true ∧ subKey (s y false) 1 0 = 4 ∧ (linkOf (s y false) 4).rxq = [f false] ∧ (f false).vc = (3 : Vc).val ∧ vcBlocked (s y false) 4 3 = false ∧
     (openEntry (s y false) 4 3).map InEnt.stage = some .forwarded ∧ y.flits + 1 = flitsOf y.rxTotal ∧ 68 = y.rxTotal - 232 * (flitsOf y.rxTotal - 1) ∧
     (openEntry (s { y with begun := true } true) 4 3).isSome = true ∧ (f true).poison = true) := by decide

set_option maxRecDepth 4000 in
/-- A packet that waits for queue 3 of die 0, with room and without, lossless and lossy, for ArrivalAndAdmission. -/
theorem wit_ArrivalAndAdmission_queue :
    (let a : Arr := { pid := 4, src := 0, vc := 3, targets := [3] }
     let s (n : Nat) (y : Pkt) := modSwc 0 (fun w => { w with arrive := [a] }) (modQueue 3 (fun q => { q with minCells := n, alpha := 15 }) { up with pkts := [(4, some y)], nextPid := 5 })
     coreUp (s 2 aPkt) (0 : FabDie) = true ∧ pktOf (s 2 aPkt) 4 = some aPkt ∧ aPkt.mcast = false ∧ (swcOf (s 2 aPkt) 0).arrive = [a] ∧ (swcOf (s 2 aPkt) 0).waiting = [] ∧ linkGone (s 2 aPkt) (3 / 8) = false ∧
     admits (s 2 aPkt) 3 aPkt.cells = some true ∧ admits (s 1 aPkt) 3 aPkt.cells = none ∧ qdie 3 = (0 : FabDie).val ∧ tooOld (s 2 aPkt) 0 aPkt = false ∧ aPkt.tailIn = true ∧ a.src = (0 : FabDie).val ∧
     lossless (s 1 aPkt) 0 (hTc aPkt.hdr) = true ∧ queuesWith (s 1 aPkt) 4 = [] ∧ aPkt.mirror = false ∧
     (let t := modSwc 0 (fun w => { w with arrive := [], waiting := [a] }) (s 2 aPkt); (swcOf t 0).waiting = [a] ∧ { aPkt with mcast := true }.mcast = true ∧ (linkOf t (3 / 8)).st = .active) ∧
     (let t := modSwc 0 (fun w => { w with landRet := [(11, 1)] }) up; tget 0 (swcOf t (0 : Fin 8)).landRet (8 * (1 : Fin 8).val + (3 : Vc).val) = 0 + 1 ∧ (swcOf t (1 : Fin 8)).bridgeWait = [])) := by decide

/-- RED passes that packet, whatever the draw, for ArrivalAndAdmission. -/
theorem wit_ArrivalAndAdmission_red : ∀ v, redDecision up 3 aPkt.hdr false v = none := by
  intro v
  have h1 : lossless up (qdie 3) (hTc aPkt.hdr) = true := by decide
  have h2 : bitOf (queueOf up 3).qsched 27 = false := by decide
  simp [redDecision, h1, h2]

/-- A lossy packet that RED passes whatever the draw, for ArrivalAndAdmission. -/
theorem wit_ArrivalAndAdmission_lossy :
    (let s := modSwc 0 (fun w => { w with redProf := [(0, 1)] }) { up with img := some { aContent with classes := { aContent.classes with tcVc := [0, 0, 0, 3] } } }
     lossless s 0 (hTc aPkt.hdr) = false ∧ ∀ v, redDecision s 3 aPkt.hdr false v = none) := by
  refine ⟨by decide, fun v => ?_⟩
  have h1 : hColour aPkt.hdr = 0 := by decide
  have h2 (s : State) (e : s.queues = []) : queueOf s 3 = {} := by rw [queueOf, e]; rfl
  rw [redDecision, h1, h2 _ rfl]
  have h3 : fld ({} : QueueSt).qsched 28 4 = 0 := by decide
  simp only [h3]
  rw [show tget 0 (swcOf (modSwc 0 (fun w => { w with redProf := [(0, 1)] }) { up with img := some { aContent with classes := { aContent.classes with tcVc := [0, 0, 0, 3] } } }) (qdie 3)).redProf
    (4 * 0 + min 0 2) = 1 from by decide]
  have h4 : fld (1#32) 0 12 = 1 := by decide
  have h5 : ¬ ((v : Rat) < 0) := Rat.not_lt.mpr Rat.natCast_nonneg
  have h6 : (0 : Rat) < 64 := by decide
  simp [h4, h5, h6]

/-- A lossy packet that RED drops whatever the draw, for ArrivalAndAdmission. -/
theorem wit_ArrivalAndAdmission_red_drop :
    (let s := { up with img := some { aContent with classes := { aContent.classes with tcVc := [0, 0, 0, 3] } } }
     ∀ v : Nat, v < 65536 → redDecision s 3 aPkt.hdr false v = some false) := by
  intro s v hv
  have h1 : lossless s (qdie 3) (hTc aPkt.hdr) = false := by decide
  have h2 : queueOf s 3 = {} := by rw [queueOf, show s.queues = [] from rfl]; rfl
  have h4 : hColour aPkt.hdr = 0 := by decide
  have h3 : tget 0 (swcOf s (qdie 3)).redProf (4 * 0 + min 0 2) = 0 := by decide
  have h5 : (v : Rat) < 65536 := by exact_mod_cast hv
  have h6 : bitOf ({} : QueueSt).qsched 27 = false := by decide
  have h7 : fld ({} : QueueSt).qsched 28 4 = 0 := by decide
  have h8 : fld (0#32) 0 12 = 0 ∧ fld (0#32) 12 12 = 0 := by decide
  rw [redDecision, h4, h2, h1, h7, h6, h3]
  simp [h8, h5]

set_option maxRecDepth 8000 in
/-- Witness for SchedulerGrants. -/
theorem wit_SchedulerGrants :
    (let s := oneQueued2; s.flt.injActive = false ∧ alive s = true ∧ subKey s 0 0 = 0 ∧ vcOpen s 0 (3 : Vc) = true ∧ (schedOf s 0).cur.any (fun e => e.1 == (3 : Vc).val) = false ∧
      leastTag (fun q => tget 0 (schedOf (refresh 0 s) 0).qS q) ((queuesOfVc s (3 : Vc)).filter fun q => queueEligible s (8 * 0 + q)) = some 3 ∧
      (queueOf s (8 * 0 + 3)).ents = [{ pid := 4, guar := true, cut := false, sent := 0, linkedAt := 0, granted := false }] ∧ pktOf s 4 = some aPkt ∧ aPkt.exts = [] ∧
      (swcOf s (dieOf 0)).sess = [] ∧ (linkOf s 0).peerSwitch = true ∧ (linkOf s 0).idleTx = false ∧ ((queueOf s 3).ents.map QEnt.pid).Nodup ∧ (s.queues.map Prod.fst).Nodup ∧
      memberLive s 0 = true ∧ (linkOf s 0).liveSince = none ∧ coreUp s (0 : FabDie) = true) := by decide

set_option maxRecDepth 8000 in
/-- A packet in progress on VC3, first and last flit to come, for SchedulerGrants. -/
theorem wit_SchedulerGrants_flit :
    (let s (n : Nat) := modSched 0 (fun c => { c with cur := [(3, { q := 3, pid := 4 })] })
       (modQueue 3 (fun q => { q with ents := [{ pid := 4, guar := true, cut := false, sent := n, linkedAt := 0, granted := true }] }) oneQueued2)
     (schedOf (s 0) 0).cur.any (fun e => e.1 == (3 : Vc).val) = true ∧
     leastTag (fun v => tget 0 (schedOf (refresh 0 (s 0)) 0).vS v) ((List.range 7).filter fun v => vcOpen (refresh 0 (s 0)) 0 v && vcEligible (refresh 0 (s 0)) 0 v) = some (3 : Vc).val ∧
     leastTag (fun v => tget 0 (schedOf (refresh 0 (s 1)) 0).vS v) ((List.range 7).filter fun v => vcOpen (refresh 0 (s 1)) 0 v && vcEligible (refresh 0 (s 1)) 0 v) = some (3 : Vc).val ∧
     tget { q := 0, pid := 5 } (schedOf (s 0) 0).cur (3 : Vc) = { q := 3, pid := 4 } ∧ aPkt.tailIn = true ∧ 0 + 1 < flitsOf (wire aPkt).length ∧ 1 + 1 = flitsOf (wire aPkt).length) := by decide

/-- A queue on a sub-link that is not in service, a key that an endpoint may not have, and a single waiting chunk, for SchedulerGrants. -/
theorem wit_SchedulerGrants_more : vcOpen up 5 0 = false ∧ keyAllowed up 4 (egressKey aPkt) true = false ∧ (linkOf up 4).peerSwitch = false ∧
    (let s := modSwc 0 (fun w => { w with voqs := [(8 * 71 + 2 * 3 + 1, [4])] }) up; (swcOf s (0 : FabDie)).voqs = [(8 * 71 + 2 * 3 + 1, [4])] ∧ (swcOf s (0 : FabDie)).voqWait = [] ∧ redLive s 3 = true ∧ poolWaits s (4 * 3) = false) ∧
    (let s := modBpm (fun b => { b with waiters := [{ q := 12, k := 6, need := 4096 }] }) (setPkt 4 (some { aPkt with hdr := BitVec.ofNat 256 (2 ^ 245) }) up)
     poolWaits s (4 * 3) = true ∧ (pktOf s 4).map (fun y => hPtype y.hdr) = some ptChunk) ∧
    (let s := modLink 0 (fun l => { l with liveSince := some 0 }) oneQueued2; memberLive s 0 = true ∧ (linkOf s 0).liveSince = some 0) ∧
    (let s := modQueue 3 (fun q => { q with shaper := 0 }) up; vcOpen s 0 0 = true ∧ shAllows s.clock (queueOf s 3) = true ∧ 0 < tget 0 (linkOf s 0).credHeld 0) := by decide

set_option maxRecDepth 8000 in
/-- A packet for an endpoint that may not have its key, and a chunk that its pool holds up, for SchedulerGrants. -/
theorem wit_SchedulerGrants_held :
    (let s := modQueue 35 (fun q => { q with ents := [{ pid := 4, guar := true, cut := false, sent := 0, linkedAt := 0, granted := false }], gocc := 2, qsched := 7 })
       { up with pkts := [(4, some aPkt)], nextPid := 5, img := some classed }
     subKey s 1 0 = 4 ∧ vcOpen s 4 (3 : Vc) = true ∧ leastTag (fun q => tget 0 (schedOf (refresh 4 s) 4).qS q) ((queuesOfVc s (3 : Vc)).filter fun q => queueEligible s (8 * 4 + q)) = some 3 ∧
     (linkOf s 4).peerSwitch = false ∧ keyAllowed s 4 (egressKey aPkt) true = false ∧ (linkOf s 4).txq = []) ∧
    (let y : Pkt := { aPkt with hdr := mkHdr 0 ptChunk 3 0x777 0x12345 5 268 9 0 0 0 0 false }
     let s := modBpm (fun b => { b with waiters := [{ q := 12, k := 6, need := 4096 }] }) (modSwc 0 (fun w => { w with voqs := [(8 * 71 + 2 * 3 + 1, [4])] }) (setPkt 4 (some y) up))
     coreUp s (0 : FabDie) = true ∧ (swcOf s (0 : FabDie)).voqs = [(8 * 71 + 2 * 3 + 1, [4])] ∧ (swcOf s (0 : FabDie)).voqWait = [] ∧ redLive s 3 = true ∧ poolWaits s (4 * 3) = true ∧ hPtype y.hdr = ptChunk) := by decide

set_option maxRecDepth 20000 in
/-- Witness for ContextLifecycle. -/
theorem wit_ContextLifecycle : alive grouped = true ∧ slotOf grouped anAlloc.group = none ∧ grouped.pwr.state ≠ .quiet ∧ isMgr grouped = false ∧ Machine.posOk grouped anAlloc = true ∧
    validate grouped anAlloc = none ∧ freeSlot grouped = some 0 ∧ homeFor grouped anAlloc = some 0 ∧ validate up anAlloc ≠ none ∧
    Machine.posOk up { anAlloc with children := [{ pos := 4, isSwitch := true, id := 0, coord := 7, ranks := [0] }] } = false := by decide

set_option maxRecDepth 20000 in
/-- No die has room; a reservation; the other hypotheses of ContextLifecycle. -/
theorem wit_ContextLifecycle_more :
    (let s := each (List.range 4) (fun x => modRed x fun r => { r with freePages := 0 }) grouped; Machine.posOk s anAlloc = true ∧ validate s anAlloc = none ∧ freeSlot s ≠ none ∧ homeFor s anAlloc = none) ∧
    (let s := setCtx 0 (some (newCtx grouped anAlloc 0)) grouped; slotOf s 5 = some 0 ∧ (ctxOf s 0).map Ctx.st = some .reserved ∧ (ctxOf s 0).map Ctx.die = some 0) ∧
    (let s := modPwr (fun p => { p with state := .quiet, wakeEn := 4, busy := true }) grouped; alive s = true ∧ s.pwr.state = .quiet ∧ bitOf s.pwr.wakeEn 2 = true ∧ s.pwr.busy = true) ∧
    isMgr answering = true ∧ (tget none answering.mgr.groups 5).isSome = true := by decide

/-- A Skarad with n contexts. -/
def withContexts (n : Nat) : State := { grouped with ctxs := (List.range n).map fun k => (k, some (newCtx grouped anAlloc 0)) }

theorem withContexts_live (n : Nat) : (liveSlots (withContexts n)).length = n := by
  unfold liveSlots withContexts
  rw [List.filter_eq_self.mpr (by simp)]; simp

/-- Every slot taken, for ContextLifecycle. -/
theorem wit_ContextLifecycle_full : freeSlot (withContexts 262144) = none := by
  rw [freeSlot, withContexts_live]; rfl

set_option maxRecDepth 20000 in
/-- The context mapped beside another, committed, and the answers of two of three switches and of all, good and bad, for ContextLifecycle. -/
theorem wit_ContextLifecycle_answers :
    (let s := { setCtx 0 (some (newCtx grouped anAlloc 0)) grouped with swc := [(0, { (swcOf up 0) with ctxMap := [(5, { slot := 0, die := 0 }), (6, { slot := 3, die := 0 })] })] }
     slotOf s 5 = some 0 ∧ (ctxOf s 0).map (fun c => (c.committed, c.die)) = some (false, 0)) ∧
    (let s := setCtx 0 (some { newCtx grouped anAlloc 0 with committed := true, st := .idle }) grouped; (ctxOf s 0).map Ctx.committed = some true) ∧
    (let d : Desc := { twoSwitches with switches := twoSwitches.switches ++ [{ coord := 0x4104, parent := 0x4102, root := false, parentPos := 0 }] }
     (∃ w ∈ d.switches, w.coord = 0x4103) ∧ ∃ w ∈ d.switches, ¬ (w.coord = 0x4103 ∨ ∃ a ∈ [({ coord := 0x4102, status := 0, crc := 3, point := 0, vcw := [] } : AllocAns)], a.coord = w.coord)) ∧
    (let a : AllocAns := { coord := 0x4102, status := 0, crc := 3, point := 0, vcw := [] }
     let s := modMgr (fun m => { m with groups := [(5, some { desc := twoSwitches, live := false, answers := [a], ring := none })] }) (modGctl (fun g => { g with role := .manager, coord := 0x4100 }) up)
     isMgr s = true ∧ (tget none s.mgr.groups 5).isSome = true ∧ (∀ w ∈ twoSwitches.switches, w.coord = 0x4103 ∨ ∃ b ∈ [a], b.coord = w.coord) ∧ a.status = 0 ∧ a.crc = 3 ∧
     (∃ w ∈ twoSwitches.switches, w.coord = twoSwitches.root) ∧ bitOf twoSwitches.mode 4 = false ∧ (∀ w ∈ twoSwitches.switches, w.coord ≠ s.gctl.coord) ∧ (0x10 : Byte) ≠ 0) := by decide

set_option maxRecDepth 20000 in
/-- Witness for StepOpening. -/
theorem wit_StepOpening :
    (let c : Ctx := { newCtx grouped anAlloc 0 with st := .idle }
     let s := ctrlAt c (ctrlBody kStepStart 0 3 (List.replicate 32 0)) 4
     inboxFront s 0 = some (4, ctrlPkt (ctrlBody kStepStart 0 3 (List.replicate 32 0)) 4) ∧ pktSlot s (ctrlPkt (ctrlBody kStepStart 0 3 (List.replicate 32 0)) 4) = some 0 ∧
     ctrlOk (ctrlBody kStepStart 0 3 (List.replicate 32 0)) = true ∧ c.spec.isRoot = true ∧ shardLocked s c = false ∧ countOk s c 3 = true ∧ countOk s c 0 = false ∧
     c.lastAcc = none ∧ c.ready = none ∧ c.stopHeld = false) ∧
    (let c : Ctx := { newCtx grouped anAlloc 0 with st := .ready, ready := some { num := 7, n := 3, scalars := [], arrived := 0, after := 0 } }
     ctxOf (setCtx 0 (some c) grouped) 0 = some c ∧ isPaced c = false ∧ c.steps = []) := by decide

set_option maxRecDepth 20000 in
/-- Messages from the parent on position 0, a malformed one, and one from outside the tree, for StepOpening. -/
theorem wit_StepOpening_below :
    (let c : Ctx := { newCtx grouped { anAlloc with isRoot := false, upCoord := 0x4103 } 0 with st := .idle, up := some 0 }
     let m := ctrlBody kStepOpen 0 3 []
     let s := ctrlAt c m 0
     inboxFront s 0 = some (4, ctrlPkt m 0) ∧ pktSlot s (ctrlPkt m 0) = some 0 ∧ ctrlOk m = true ∧ be m 0 1 = kStepOpen ∧ be m 4 4 = 3 ∧ c.up = some (pktPos s (ctrlPkt m 0)) ∧ c.isTwin = false ∧
     ctrlOk (ctrlBody kWindow 0 3 []) = true ∧ ctrlOk [3] = false ∧ childIdx c (pktPos s (ctrlPkt m 8)) = none ∧ c.up ≠ some (pktPos s (ctrlPkt m 8))) := by decide

set_option maxRecDepth 20000 in
/-- The root moving, halted, with its shard locked and down, a number out of turn and the next one, one cancelled, and a context that runs; below it a step that is there, for StepOpening. -/
theorem wit_StepOpening_states :
    (let c := newCtx grouped anAlloc 0; let m := ctrlBody kStepStart 0 3 (List.replicate 32 1); let s (c : Ctx) := ctrlAt c m 4
     (∀ st ∈ [CtxSt.moving, .halt, .lost], (inboxFront (s { c with st := st }) 0).isSome = true ∧ (ctxOf (s { c with st := st }) 0).map Ctx.st = some st) ∧
     (let d : Ctx := { newCtx grouped { anAlloc with coppice := twinBytes, op := 6 } 0 with st := .idle }
      shardLocked (each (List.range 4) (fun x => modRed x fun r => { r with locks := [(7, 0, 100000)] }) (s d)) d = true ∧ shardDown { s d with units := { up.units with stackLost := 0xFF } } d = true) ∧
     (let d : Ctx := { c with st := .idle, lastAcc := some 3 }; d.lastAcc = some 3 ∧ BitVec.ofNat 48 (hStep (ctrlPkt m 4).hdr) ≠ (3 + 1 : StepNo)) ∧
     (let d : Ctx := { c with st := .idle, lastAcc := some 6, stopHeld := true }; d.lastAcc = some (BitVec.ofNat 48 (hStep (ctrlPkt m 4).hdr) - 1) ∧ countOk (s d) d 3 = true ∧ d.ready = none ∧ d.stopHeld = true) ∧
     (let d : Ctx := { running c none with lastAcc := some 6 }; d.st = .run ∧ openSteps d ≠ [] ∧ d.stopHeld = false)) ∧
    (let c := running { newCtx grouped { anAlloc with isRoot := false, upCoord := 0x4103 } 0 with up := some 0 } (some 0)
     c.steps.map Step.num = [BitVec.ofNat 48 (hStep (ctrlPkt (ctrlBody kStepOpen 0 5 []) 0).hdr)] ∧ c.steps.map Step.closed = [false] ∧ c.isTwin = false) := by decide

set_option maxRecDepth 20000 in
/-- Witness for StepClosing. -/
theorem wit_StepClosing :
    (let c : Ctx := running (newCtx grouped { anAlloc with isRoot := false, upCoord := 0x4103 } 0) (some 0)
     let m := ctrlBody kStepEnd 4 3 (endMore 0 0)
     let s := ctrlAt c m 0
     inboxFront s 0 = some (4, ctrlPkt m 0) ∧ pktSlot s (ctrlPkt m 0) = some 0 ∧ ctrlOk m = true ∧ be m 0 1 = kStepEnd ∧ be m 1 1 = stNanTrap ∧ c.up = some (pktPos s (ctrlPkt m 0)) ∧ 4 < s.nextPid ∧
     c.deleting = false ∧ c.st = .run ∧ c.ready = none ∧ (c.steps.map Step.num) = [7] ∧ (c.steps.map Step.closed) = [false]) := by decide

set_option maxRecDepth 20000 in
/-- A STOP and a FAIL at a root, and its timer, for StepClosing. -/
theorem wit_StepClosing_root :
    (let c : Ctx := running (newCtx grouped anAlloc 0) none
     let m := ctrlBody kFail 3 0 (List.replicate 16 0)
     let s := ctrlAt c m 4
     inboxFront s 0 = some (4, ctrlPkt m 4) ∧ pktSlot s (ctrlPkt m 4) = some 0 ∧ ctrlOk m = true ∧ be m 0 1 = kFail ∧ (childIdx c (pktPos s (ctrlPkt m 4))).isSome = true ∧ c.spec.isRoot = true ∧
     c.spec.op ≠ 6 ∧ ctrlOk (ctrlBody kStop 0 0 []) = true ∧ (c.steps.map Step.results) = [0] ∧ (c.steps.map Step.failed) = [none] ∧ (c.steps.map Step.endHeld) = [none] ∧ (redOf s c.die).halted = none) ∧
    (let c : Ctx := { newCtx grouped anAlloc 0 with st := .ready, ready := some { num := 7, n := 3, scalars := [], arrived := 0, after := 0 } }
     openSteps c = [] ∧ c.st ≠ .moving) ∧
    (let c : Ctx := { newCtx grouped anAlloc 0 with st := .idle, lastClosed := some (7, 0) }
     openSteps c = [] ∧ c.ready = none) := by decide

set_option maxRecDepth 20000 in
/-- STOP of a READY step, of one with results and of a closed one, and a context that is being stepped, for StepClosing. -/
theorem wit_StepClosing_stop :
    (let m := ctrlBody kStop 0 0 []; let s (c : Ctx) := ctrlAt c m 4; let c := newCtx grouped anAlloc 0
     let rd : Ctx := { c with st := .ready, ready := some { num := 7, n := 3, scalars := [], arrived := 0, after := 0 } }
     (inboxFront (s rd) 0 = some (4, ctrlPkt m 4) ∧ ctrlOk m = true ∧ be m 0 1 = kStop ∧ BitVec.ofNat 48 (hStep (ctrlPkt m 4).hdr) = (7 : StepNo) ∧ openSteps rd = [] ∧ 4 < (s rd).nextPid) ∧
     (let d : Ctx := { running c none with steps := (running c none).steps.map fun y => { y with results := 1 } }; d.steps.map Step.results = [1] ∧ d.st = .run) ∧
     (let d : Ctx := { c with st := .idle, lastClosed := some (7, 0) }; d.lastClosed = some (7, 0) ∧ openSteps d = [] ∧ d.ready = none) ∧
     (let s := modRed 0 (fun r => { r with halted := some inst0 }) (setCtx 0 (some (running c none)) grouped); (redOf s 0).halted = some inst0 ∧ inst0.slot = 0)) ∧
    (let c : Ctx := running (newCtx grouped { anAlloc with isRoot := false, upCoord := 0x4103 } 0) (some 0)
     let q : Chunk := { bits := [0], elems := 32, raw := none, inst := { newInst c with granted := true } }
     c.steps.map (fun y => (chunkOf (setChunk 0 (some q) y) 0).map fun x => x.inst.granted) = [some true]) := by decide

set_option maxRecDepth 20000 in
/-- Witness for ChunksAndResults. -/
theorem wit_ChunksAndResults :
    (let c : Ctx := open3 (running (newCtx grouped anAlloc 0) none)
     let s := chunkAt c 2 7 (List.replicate 128 1) 4
     inboxFront s 0 = some (4, chunkPkt 2 7 (List.replicate 128 1) 4) ∧ pktSlot s (chunkPkt 2 7 (List.replicate 128 1) 4) = some 0 ∧ hChunk (chunkPkt 2 7 (List.replicate 128 1) 4).hdr = 2 ∧
     hFmt (chunkPkt 2 7 (List.replicate 128 1) 4).hdr = 7 ∧ hPtype (chunkPkt 2 7 (List.replicate 128 1) 4).hdr = ptChunk ∧ c.up ≠ some (pktPos s (chunkPkt 2 7 (List.replicate 128 1) 4)) ∧
     childIdx c (pktPos s (chunkPkt 2 7 (List.replicate 128 1) 4)) = some 0 ∧ (c.steps.map Step.limSent) = [3] ∧ c.spec.inFmts.getLsbD 7 = true ∧ c.spec.inFmts.getLsbD 5 = false ∧
     32 * (128 / blockBytes 7) ≤ chunkLimit c ∧ 0 < c.spec.children.length) := by decide

set_option maxRecDepth 20000 in
/-- A result from the parent on position 0, and instances with EMIT and FAN issued, for ChunksAndResults. -/
theorem wit_ChunksAndResults_grants :
    (let c : Ctx := open3 (running (newCtx grouped { anAlloc with isRoot := false, upCoord := 0x4103 } 0) (some 0))
     let s := chunkAt c 2 7 (List.replicate 128 1) 0
     c.up = some (pktPos s (chunkPkt 2 7 (List.replicate 128 1) 0)) ∧ c.isTwin = false ∧ resultTo c 3 2 = [0]) ∧
    (let s := standing (open3 (running (newCtx grouped { anAlloc with isRoot := false, upCoord := 0x4103 } 0) (some 0))) (fun n => { n with pc := 4, emitted := true })
     (hereOf s inst0).map (fun h => (h.addr, h.x.inst.emitted, h.c.up, h.t.upLimit)) = some (4, true, some 0, 3)) ∧
    (let s := standing (open3 (running (newCtx grouped anAlloc 0) none)) (fun n => { n with pc := 3, fanned := true })
     (hereOf s inst0).map (fun h => (h.addr, h.x.inst.fanned, h.t.results, h.t.n)) = some (3, true, 0, 3)) := by decide

set_option maxRecDepth 20000 in
/-- Of a context of two children: a contribution to a chunk that has the other's, has its own, or has another count, one in a format of no input, one beyond the window, and one to a failed step, for ChunksAndResults. -/
theorem wit_ChunksAndResults_two :
    (let c : Ctx := open3 (running (newCtx grouped { anAlloc with nMembers := 2, children := [{ pos := 4, isSwitch := false, id := 0x12345, coord := 0, ranks := [0] },
        { pos := 0, isSwitch := true, id := 0x12347, coord := 0x4103, ranks := [1] }] } 0) none)
     let has (b : List Nat) : Ctx := { c with steps := c.steps.map (setChunk 2 (some { bits := b, elems := 32, raw := none, inst := newInst c })) }
     let p := chunkPkt 2 7 (List.replicate 128 1) 4; let s (c : Ctx) := chunkAt c 2 7 (List.replicate 128 1) 4
     inboxFront (s (has [1])) 0 = some (4, p) ∧ pktSlot (s (has [1])) p = some 0 ∧ childIdx c 4 = some 0 ∧ childIdx c 8 = none ∧
     ((has [1]).steps.map fun y => (chunkOf y 2).map fun q => (q.bits, q.elems)) = [some ([1], 32)] ∧ ((has [0]).steps.map fun y => (chunkOf y 2).map fun q => decide (0 ∈ q.bits)) = [some true] ∧
     (32 : Nat) ≠ 32 * (256 / blockBytes 7) ∧ c.spec.inFmts.getLsbD 6 = false ∧ (c.steps.map fun y => decide (3 ≥ y.n)) = [true] ∧
     (c.steps.map fun y => { y with failed := some (2, 3) }.failed.isSome) = [true] ∧
     (c.steps.map fun y => decide (2 ≥ { y with limSent := 2 }.limSent)) = [true]) := by decide

set_option maxRecDepth 20000 in
/-- The last FAN of a step, and of a paced one before and after its time, and an EMIT beyond LIMIT, for ChunksAndResults. -/
theorem wit_ChunksAndResults_last :
    (let last (c : Ctx) : Ctx := { c with steps := c.steps.map fun y => { y with results := 2 } }
     let s := standing (last (open3 (running (newCtx grouped anAlloc 0) none))) (fun n => { n with pc := 3, fanned := true })
     (hereOf s inst0).map (fun h => (h.x.inst.fanned, h.t.results + 1, h.t.n, isPaced h.c)) = some (true, 3, 3, false) ∧
     (let u := standing (last (open3 (running (newCtx grouped { anAlloc with mode := 0x10, paceNs := 10000 } 0) none))) (fun n => { n with pc := 3, fanned := true })
      (hereOf u inst0).map (fun h => (h.t.results + 1, isPaced h.c, decide ((fabT u).toNat < h.t.openAt.toNat + 65536 * h.c.spec.paceNs))) = some (3, true, true) ∧
      (let v := modTim (fun m => { m with base := 65536 * 10001 }) u; (hereOf v inst0).map (fun h => decide (h.t.openAt.toNat + 65536 * h.c.spec.paceNs ≤ (fabT v).toNat)) = some true)) ∧
     (let u := standing (running (newCtx grouped { anAlloc with isRoot := false, upCoord := 0x4103 } 0) (some 0)) (fun n => { n with pc := 4, emitted := true })
      (hereOf u inst0).map (fun h => (h.x.inst.emitted, h.c.up, decide (0 ≥ h.t.upLimit))) = some (true, some 0, true))) := by decide

set_option maxRecDepth 20000 in
/-- Witness for ControlWords. -/
theorem wit_ControlWords : ∀ w ∈ [(0x00000000, 0x00), (0x01000000, 0x01), (0x01000001, 0x01), (0x0D000000, 0x0D), (0x0E000003, 0x0E), (0x06000000, 0x06), (0x07000000, 0x07), (0x0F000000, 0x0F)],
    (hereOf (atWord (BitVec.ofNat 32 w.1) id) inst0).map (fun h => (h.addr, wOp h.w, stepped (atWord (BitVec.ofNat 32 w.1) id) inst0 h)) = some (9, w.2, false) := by decide

set_option maxRecDepth 20000 in
/-- A contribution taken and one not, chunks that have ended, and an instance that waits or has an STS outstanding, for ControlWords. -/
theorem wit_ControlWords_more :
    (hereOf (atWord 0x01000000 (fun n => { n with todo := [] })) inst0).map (fun h => (expects h.c h.t.n 0, h.x.bits, h.x.inst.todo)) = some ([0], [0], []) ∧
    (hereOf (atWord 0x01000000 (fun n => { n with todo := [{ child := 0, fmt := 7, bytes := [] }], waiting := true })) inst0).map (fun h => ((accWord h.c h.ws).isNone, h.x.inst.todo.length, h.x.inst.waiting)) = some (true, 1, true) ∧
    (hereOf (atWord 0x0F000000 (fun n => { n with sts := 1 })) inst0).map (fun h => (h.x.inst.sts, h.x.inst.stsDone)) = some (1, false) ∧
    (hereOf (atWord 0x0D000000 id) inst0).map (fun h => (h.t.n, h.t.done)) = some (3, []) := by decide

set_option maxRecDepth 20000 in
/-- Every instance at the barrier, the chunk before over, and an instance that waits there, for ControlWords. -/
theorem wit_ControlWords_barrier :
    (let s := atWord 0x0D000000 (fun n => { n with waiting := true, atBar := true })
     let c := (ctxOf s 0).map fun c => { c with steps := c.steps.map fun y => { y with done := [1, 2] } }
     let u := setCtx 0 c s
     (hereOf u inst0).map (fun h => (h.x.inst.waiting, (List.range h.t.n).all fun j => j == 0 || (decide (j ∈ h.t.done) && (chunkOf h.t j).isNone))) = some (true, true)) ∧
    (let s := atWord 0x01000001 (fun n => { n with waiting := true })
     let v := setCtx 0 ((ctxOf s 0).map fun c => { c with steps := c.steps.map fun y => { setChunk 1 (chunkOf y 0) (setChunk 0 none y) with done := [0] } }) s
     (hereOf v { inst0 with chunk := 1 }).map (fun h => (h.addr, h.x.inst.waiting, decide (0 ∈ h.t.done), chunkOf h.t 0)) = some (9, true, true, none)) := by decide

set_option maxRecDepth 20000 in
/-- Witness for ShardAndDigestWords. -/
theorem wit_ShardAndDigestWords : ∀ w ∈ [(0x08000007, 0x08), (0x09000001, 0x09), (0x0A000000, 0x0A), (0x0B000000, 0x0B), (0x0C000000, 0x0C)],
    (hereOf (atWord (BitVec.ofNat 32 w.1) id) inst0).any (fun h => h.addr == 9 && wOp h.w == w.2 && !stepped (atWord (BitVec.ofNat 32 w.1) id) inst0 h && !stsPending h.c 7 0 && h.x.inst.lds == [] &&
      (match useScalar h.c (srcWord h 0) with | .inr q => q == ((0, 0), false) | .inl _ => false)) = true := by decide

set_option maxRecDepth 20000 in
/-- An LDS and an STS outstanding, a clean block, and an STS of another chunk over the same blocks, for ShardAndDigestWords. -/
theorem wit_ShardAndDigestWords_more :
    (hereOf (atWord 0x09000001 (fun n => { n with lds := [1] })) inst0).map (fun h => (h.x.inst.lds, bitOf h.c.spec.mode 5)) = some ([1], false) ∧
    (hereOf (atWord 0x0F000000 (fun n => { n with sts := 1 })) inst0).map (fun h => (h.x.inst.sts, h.x.inst.stsDone, h.x.inst.twinLeft)) = some (1, false, []) ∧
    blkNan { xw := 0, x1 := 0, x2 := 0 } = false ∧ (let s := modBpm (fun b => { b with waiters := [{ q := 2, k := 0, need := 4096 }] }) up; poolWaits s (4 * 0 + 2) = true) ∧
    (let c := running (newCtx grouped anAlloc 0) none
     stsPending { c with steps := c.steps.map (setChunk 3 (some { bits := [], elems := 0, raw := none, inst := { newInst c with sts := 1 } })) } 6 3 = true) := by decide

set_option maxRecDepth 20000 in
/-- Room of its own, for ShardAndDigestWords: an instance that owns the buffers of its planes, one that has asked, a gradient with its planes, and a shard without a NaN block. -/
theorem wit_ShardAndDigestWords_room :
    (let s := modBpm (fun b => { b with holders := [(bufKey 2 0, 3)], owners := [(bufKey 2 0, inst0)] }) (atWord 0x08000001 id)
     (s.bpm.owners.filter fun e => e.2 == inst0 && tget 0 s.bpm.holders e.1 == 2 + 1).length = 1 ∧ (hereOf s inst0).map (fun h => (planeNeeds h.c 1).length) = some 1) ∧
    (let s := modBpm (fun b => { b with waiters := [{ q := 2, k := 0, need := 4096, inst := some inst0 }] }) (atWord 0x08000001 id)
     (s.bpm.waiters.any fun w => w.inst == some inst0 && w.q == 2) = true ∧ (hereOf s inst0).map (fun h => (planeNeeds h.c 1).drop 0 == [planeBytes h.c]) = some true) ∧
    (let s := atWord 0x0A000000 (fun n => { n with a := .muslin [{ m := List.replicate 32 5, x := -3 }, { m := List.replicate 32 7, x := 2 }], w := some [{ m := List.replicate 64 9, x := 1 }], m1 := some [{ m := List.replicate 64 3, x := -2 }] })
     (hereOf s inst0).map (fun h => ((gradient h).length, h.x.inst.lds, fld h.w 3 2)) = some (1, [], 0)) ∧
    (let p : AllocMsg := { anAlloc with program := 9, op := 6, coppice := twinBytes }
     let c := running (newCtx grouped p 0) none
     let s := standing c (fun n => { n with pc := 9, lds := [1] })
     let u := { s with mem := { s.mem with shard := (chunkBlks c 7 0).map fun b => (blkKey c c.die b, { blk := BitVec.ofNat 32 b, xw := 1, x1 := 2, x2 := 3 }) } }
     (hereOf u inst0).map (fun h => (h.x.inst.lds, blksBusy u h.c (chunkBlks h.c 7 0), decide (0 < (chunkBlks h.c 7 0).length), (chunkBlks h.c 7 0).all fun b => !blkNan (tget {} u.mem.shard (blkKey h.c h.c.die b)))) =
       some ([1], false, true, true)) := by decide

set_option maxRecDepth 20000 in
/-- Witness for ArithmeticWords. -/
theorem wit_ArithmeticWords :
    (let s (w : Word) := atWord w (fun n => { n with todo := [{ child := 0, fmt := 7, bytes := List.replicate 128 0 }] })
     (hereOf (s 0x02000007) inst0).any (fun h => accWord h.c h.ws == some (9, 0x02000007) && h.addr == 9 && decide (h.addr ≤ waitAddr h.ws) && h.x.inst.todo.length == 1 &&
       firstTrap (decodeChunk h.c 7 (List.replicate 128 0)) == none) = true ∧
     (hereOf (s 0x03000007) inst0).map (fun h => accWord h.c h.ws) = some (some (9, 0x03000007)) ∧ (s 0).flt.injActive = false ∧ (redOf (s 0) 0).retired = 0 ∧
     (hereOf (s 0x02000007) inst0).map (fun h => firstTrap (decodeChunk h.c 7 ([1, 0, 0xC0, 0x7F] ++ List.replicate 124 0))) = some (some (true, 0, 0x7FC00001)) ∧
     (hereOf (s 0x02000007) inst0).any (fun h => h.c.spec.isRoot && h.c.steps == [h.t] && !h.t.closed && h.t.failed == none && h.t.endHeld == none && h.c.twin != .active && !h.c.deleting &&
       h.t.num == inst0.step) = true) := by decide

set_option maxRecDepth 20000 in
/-- SCL and CAST, for ArithmeticWords. -/
theorem wit_ArithmeticWords_more :
    (hereOf (atWord 0x04000008 id) inst0).map (fun h => (wOp h.w, fld h.w 0 4, stepped (atWord 0x04000008 id) inst0 h)) = some (0x04, 8, false) ∧
    (hereOf (atWord 0x04000001 id) inst0).any (fun h => match useScalar h.c (srcWord h 1) with | .inr q => q == ((0, 0), false) | .inl _ => false) = true ∧
    (hereOf (atWord 0x05000047 (fun n => { n with a := .muslin [{ m := List.replicate 32 0, x := 0 }] })) inst0).any (fun h =>
      wOp h.w == 0x05 && h.x.raw == none && !poolWaits (atWord 0x05000047 id) (4 * h.c.die + 1) && fld h.w 8 2 == 0 && fld h.w 6 2 == 1 && accWord h.c h.ws == none &&
      (blocks32 (scaledVals h h.x.elems)).map (fun b => (castBlock 7 false true (List.replicate 32 0) b).first) == [none]) = true := by decide

set_option maxRecDepth 20000 in
/-- A passed-through payload, an accumulator of one chunk, and room for O, for ArithmeticWords. -/
theorem wit_ArithmeticWords_room :
    (let s := atWord 0x02000007 (fun n => { n with todo := [{ child := 0, fmt := 7, bytes := List.replicate 128 0 }], a := .muslin [{ m := List.replicate 32 5, x := -3 }] })
     (hereOf s inst0).any (fun h => match h.x.inst.a with | .muslin b => b.length == 1 | _ => false) = true) ∧
    (let s := modBpm (fun b => { b with holders := [(bufKey 2 0, 2)], owners := [(bufKey 2 0, inst0)] }) (atWord 0x05000047 id)
     1 ≤ (s.bpm.owners.filter fun e => e.2 == inst0 && tget 0 s.bpm.holders e.1 == (4 * 0 + 1) + 1).length ∧ (hereOf s inst0).map (fun h => (fld h.w 8 2, h.x.raw)) = some (0, none)) ∧
    (let s := modBpm (fun b => { b with waiters := [{ q := 1, k := 0, need := 4096, inst := some inst0 }] }) (atWord 0x05000047 id); (s.bpm.waiters.any fun w => w.inst == some inst0 && w.q == 4 * 0 + 1) = true) ∧
    (let s := setCtx 0 (some (let c := running (newCtx grouped anAlloc 0) none
       { c with steps := c.steps.map (setChunk 0 (some { bits := [0], elems := 32, raw := some (7, List.replicate 128 1), inst := newInst c })) })) grouped
     (hereOf s inst0).map (fun h => h.x.raw.isSome) = some true) := by decide

set_option maxRecDepth 20000 in
/-- Witness for StoreTwinsAndPaces. -/
theorem wit_StoreTwinsAndPaces : mgmtUp grouped = true ∧ alive grouped = true ∧ (List.range 4).any (redLive grouped) = true ∧ progLocked grouped 5 = false ∧
    progLocked (setCtx 0 (some (newCtx grouped anAlloc 0)) grouped) 5 = true ∧ redLive grouped (3 : RedDie) = true ∧ (redOf grouped 3).halted = none ∧
    (let s := modRed 0 (fun r => { r with pstepEn := true, prog := [(8, 0x01000000), (10, 0x0F000000)] }) (standing (running (newCtx grouped { anAlloc with program := 8 } 0) none) (fun n => { n with pc := 9 }))
     (hereOf s inst0).any (fun h => wOp h.w == 0x00 && stepped s inst0 h && firstStepped h inst0 && (redOf s h.c.die).halted.isNone) = true) := by decide

set_option maxRecDepth 20000 in
/-- Twin writes, good and bad, at a twin, for StoreTwinsAndPaces. -/
theorem wit_StoreTwinsAndPaces_twin :
    (let c : Ctx := running (newCtx grouped { anAlloc with isRoot := false, upCoord := 0x4103, coppice := twinBytes, op := 6 } 0) (some 0)
     let c := { c with isTwin := true }
     let p := chunkPkt 0 0xE (List.replicate 528 0) 0
     let s := chunkAt c 0 0xE (List.replicate 528 0) 0
     inboxFront s 0 = some (4, p) ∧ hPtype p.hdr = ptChunk ∧ hFmt p.hdr = 0xE ∧ pktSlot s p = some 0 ∧ c.up = some (pktPos s p) ∧ (twinBlks p.body).length = 1 ∧
     ((twinBlks p.body).all fun b => (chunkBlks { c with steps := [] } (BitVec.ofNat 48 0) (hChunk p.hdr)).contains b.blk.toNat) = true ∧ c.st ≠ .moving ∧ c.st ≠ .lost ∧ (527 % 528 ≠ 0)) := by decide

set_option maxRecDepth 20000 in
/-- A root with an active twin, and paced steps, READY and held, for StoreTwinsAndPaces. -/
theorem wit_StoreTwinsAndPaces_more :
    (let c : Ctx := { newCtx grouped { anAlloc with coppice := twinBytes, op := 6 } 0 with st := .idle }
     let s := setCtx 0 (some c) grouped
     slotOf s 5 = some 0 ∧ c.twin = .active ∧ cpTwin c.spec.coppice = true ∧ c.spec.isRoot = true ∧ isMgr s = false) ∧
    (let c : Ctx := { newCtx grouped { anAlloc with mode := 0x10, paceNs := 10000 } 0 with st := .ready, ready := some { num := 7, n := 3, scalars := [], arrived := 0, after := 0 } }
     let s := setCtx 0 (some c) (modTim (fun m => { m with base := 65536 * 20000 }) grouped)
     isPaced c = true ∧ (0 : BitVec 80).toNat + 1500 * 65536 ≤ 65536 * ((fabNs s).toNat / max 1 c.spec.paceNs * max 1 c.spec.paceNs) ∧
     65536 * ((fabNs grouped).toNat / max 1 c.spec.paceNs * max 1 c.spec.paceNs) < (0 : BitVec 80).toNat + 1500 * 65536 ∧
     (let u := modTim (fun m => { m with running := true }) grouped
      10000 % max 1 c.spec.paceNs = 0 ∧ (0 : BitVec 80).toNat + 1500 * 65536 ≤ 65536 * 10000 ∧ 65536 * 10000 < (0 : BitVec 80).toNat + 1500 * 65536 + 65536 * max 1 c.spec.paceNs ∧
      u.tim.running = true ∧ u.tim.slew = 0 ∧ u.tim.baseAt ≤ u.clock ∧ (fabNs u).toNat < 10000)) := by decide

set_option maxRecDepth 20000 in
/-- A die that is off, and an instance halted by the stepper, for StoreTwinsAndPaces. -/
theorem wit_StoreTwinsAndPaces_states :
    (let s := modPwr (fun p => { p with on := BitVec.ofNat 60 (2 ^ 60 - 1 - 15 * 2 ^ 36) }) grouped; redEnabled s (0 : RedDie) = true ∧ bitOf s.units.redLost (0 : RedDie) = false ∧ redLive s (0 : RedDie) = false ∧ redLive s (3 : RedDie) = true) ∧
    (let s := modRed 0 (fun r => { r with halted := some inst0, haltedAt := 5, pstepEn := true, prog := [(8, 0x01000000), (10, 0x0F000000)] }) { standing (running (newCtx grouped { anAlloc with program := 8 } 0) none) (fun n => { n with pc := 9 }) with clock := 50 }
     (redOf s 0).halted = some inst0 ∧ (ctxOf s inst0.slot.toNat).isSome = true ∧ (hereOf s inst0).map (fun h => wOp h.w) = some 0x00) := by decide

set_option maxRecDepth 20000 in
/-- Twins gone, bad and idle, for StoreTwinsAndPaces. -/
theorem wit_StoreTwinsAndPaces_gone :
    (let c : Ctx := { running (newCtx grouped { anAlloc with isRoot := false, upCoord := 0x4103, coppice := twinBytes, op := 6 } 0) (some 0) with isTwin := true }
     c.die = cpTwinDie c.spec.coppice ∧ { c with die := 1 }.die ≠ cpTwinDie c.spec.coppice ∧ shardDown (chunkAt c 0 0xE (List.replicate 528 0) 0) c = false ∧ 527 % 528 ≠ 0 ∧
     (let d : Ctx := { c with st := .idle, steps := [], twin := .active }; d.spec.isRoot = false ∧ d.isTwin = true ∧ d.twin ≠ .stale ∧ d.spec.op = 6 ∧ cpTwin d.spec.coppice = true ∧ d.held = [] ∧ d.ready = none)) := by decide

set_option maxRecDepth 20000 in
/-- A STEP_END held, for StoreTwinsAndPaces. -/
theorem wit_StoreTwinsAndPaces_held :
    (let c : Ctx := { running (newCtx grouped { anAlloc with mode := 0x10, paceNs := 10000 } 0) none with st := .idle }
     let d : Ctx := { c with steps := c.steps.map fun y => { y with closed := true, endHeld := some (0, 10000) } }
     d.steps.map (fun y => (y.endHeld, y.closed, y.chunks)) = [(some (0, 10000), true, [])] ∧ d.deleting = false ∧ (fabNs grouped).toNat < (10000 : BitVec 64).toNat ∧ grouped.tim.running = false) := by decide

/-- Witness for SramWindow. -/
theorem wit_SramWindow : mgmtUp up = true ∧ mbLive up .mb0 = true ∧ MbId.mb0 = up.units.active ∧ up.cmd.sramBase.toNat * 2 ^ 20 + 4 < 384 * 2 ^ 20 ∧ redEnabled up up.cmd.sramDie.toNat = true ∧
    domOn up (domQuad up.cmd.sramDie.toNat 0) = true ∧ domOn up (domQuad up.cmd.sramDie.toNat ((384 * 2 ^ 20 - 4) / (96 * 2 ^ 20))) = true ∧
    384 * 2 ^ 20 ≤ (modCmd (fun c => { c with sramBase := 384 }) up).cmd.sramBase.toNat * 2 ^ 20 + 0 := by decide

end Sys2Proof.Tests
end

section
/-! SUPPORT. What every command keeps, and how a step comes to its command (R1, R2): the lemmas about one meaning each, put together along the arms
of exec. -/

namespace Sys2Proof.Machine

/-- The parts of State that a command may change, as `May` numbers them: all, but the clock only for a row that stands for an instant (log entry 35). -/
def mayChange (c : Instr) : Nat := if isInstant c then 0x7fffffff else 0x3fffffff

/-- Every part but the clock is free to every command. -/
theorem mayChange_rest {k : Nat} (c : Instr) (e : k &&& 0x3fffffff = k := by rfl) : May k (mayChange c) := by
  refine May.sub (a := 0x3fffffff) ?_ e
  unfold mayChange
  split <;> rfl

/-- Every part is free to a row that stands for an instant. -/
theorem mayChange_instant {k : Nat} {c : Instr} (h : isInstant c = true) (e : k &&& 0x7fffffff = k := by rfl) : May k (mayChange c) := by
  unfold mayChange
  rw [if_pos h]
  exact e

/-- The clock is no part that another row may change. -/
theorem mayChange_clock {c : Instr} (h : isInstant c = false) : (mayChange c).testBit 30 = false := by
  simp only [mayChange, h, Bool.false_eq_true, if_false]
  decide

/-- What a command leaves is a state that keeps, whichever command it is. -/
theorem exec_keeps : ∀ (c : Instr) (s : State), KeepsO (!isRelease c) (mayChange c) s (exec c s)
  | .registerWrite path off val, s => execRegisterWrite_keeps path off val (.refl _ _ s) (mayChange_rest _)
  | .rcCounterRead path off upd, s => execRcCounterRead_keeps path off upd (.refl _ _ s) (mayChange_rest _)
  | .pcieConfigRequest port write reg val, s => execPcieConfigRequest_keeps port write reg val (.refl _ _ s) (mayChange_rest _)
  | .pcieMemoryRequest port bar write off dws, s => execPcieMemoryRequest_keeps port bar write off dws (.refl _ _ s) (mayChange_rest _)
  | .sqTail r tail, s => execSqTail_keeps r tail (.refl _ _ s) (mayChange_rest _)
  | .cqHead r head, s => execCqHead_keeps r head (.refl _ _ s) (mayChange_rest _)
  | .abort r tag, s => execAbort_keeps r tag (.refl _ _ s) (mayChange_rest _)
  | .commandStepTurn, s => execCommandStepTurn_keeps (.refl _ _ s) (mayChange_rest _)
  | .nop r h, s => execNop_keeps r h (.refl _ _ s) (mayChange_rest _)
  | .clear r h count dieMask tcMask fabric, s => execClear_keeps r h count dieMask tcMask fabric (.refl _ _ s) (mayChange_rest _)
  | .drainMarkerReached p sd q, s => execDrainMarkerReached_keeps p sd q (.refl _ _ s) (mayChange_rest _)
  | .drainLimitTimeout, s => execDrainLimitTimeout_keeps (.refl _ _ s) (mayChange_instant rfl)
  | .groupCreate r h len last ofs, s => execGroupCreate_keeps r h len last ofs (.refl _ _ s) (mayChange_rest _)
  | .groupDelete r h group, s => execGroupDelete_keeps r h group (.refl _ _ s) (mayChange_rest _)
  | .groupStop r h group step, s => execGroupStop_keeps r h group step (.refl _ _ s) (mayChange_rest _)
  | .groupResume r h group, s => execGroupResume_keeps r h group (.refl _ _ s) (mayChange_rest _)
  | .shardLoad r h die first count, s => execShardLoad_keeps r h die first count (.refl _ _ s) (mayChange_rest _)
  | .shardSave r h die first count, s => execShardSave_keeps r h die first count (.refl _ _ s) (mayChange_rest _)
  | .scrubPass r h stack, s => execScrubPass_keeps r h stack (.refl _ _ s) (mayChange_rest _)
  | .selfTest r h cls unit, s => execSelfTest_keeps r h cls unit (.refl _ _ s) (mayChange_rest _)
  | .windthrow r h, s => execWindthrow_keeps r h (.refl _ _ s) (mayChange_rest _)
  | .windthrowFreeze, s => execWindthrowFreeze_keeps (.refl _ _ s) (mayChange_instant rfl)
  | .portRetrain r h port mask, s => execPortRetrain_keeps r h port mask (.refl _ _ s) (mayChange_rest _)
  | .imageUpdate r h copy len, s => execImageUpdate_keeps r h copy len (.refl _ _ s) (mayChange_rest _)
  | .regRead r h off, s => execRegRead_keeps r h off (.refl _ _ s) (mayChange_rest _)
  | .regWrite r h off val, s => execRegWrite_keeps r h off val (.refl _ _ s) (mayChange_rest _)
  | .setAddr target addr pecOk, s => execSetAddr_keeps target addr pecOk (.refl _ _ s) (mayChange_rest _)
  | .read target pecOk, s => execRead_keeps target pecOk (.refl _ _ s) (mayChange_rest _)
  | .write target val pecOk, s => execWrite_keeps target val pecOk (.refl _ _ s) (mayChange_rest _)
  | .status target pecOk, s => execStatus_keeps target pecOk (.refl _ _ s) (mayChange_rest _)
  | .sstepGo, s => execSstepGo_keeps (.refl _ _ s) (mayChange_rest _)
  | .busMasterEnableClear, s => execBusMasterEnableClear_keeps (.refl _ _ s) (mayChange_rest _)
  | .busMasterEnableSet, s => execBusMasterEnableSet_keeps (.refl _ _ s) (mayChange_rest _)
  | .functionLevelReset, s => execFunctionLevelReset_keeps (.refl _ _ s) (mayChange_rest _)
  | .command src entry, s => execCommand_keeps src entry (.refl _ _ s) (mayChange_rest _)
  | .completion comp, s => execCompletion_keeps comp (.refl _ _ s) (mayChange_rest _)
  | .unlock level sig, s => execUnlock_keeps level sig (.refl _ _ s) (mayChange_rest _)
  | .bypass, s => execBypass_keeps (.refl _ _ s) (mayChange_rest _)
  | .idcode, s => execIdcode_keeps (.refl _ _ s) (mayChange_rest _)
  | .ieee1149Instruction ir, s => execIeee1149Instruction_keeps ir (.refl _ _ s) (mayChange_rest _)
  | .controlSlotSend p sd, s => execControlSlotSend_keeps p sd (.refl _ _ s) (mayChange_rest _)
  | .controlSlotReceived p sd slot, s => execControlSlotReceived_keeps p sd slot (.refl _ _ s) (mayChange_rest _)
  | .flitTransmit p sd, s => execFlitTransmit_keeps p sd (.refl _ _ s) (mayChange_rest _)
  | .flitReceived p sd flit errs again, s => execFlitReceived_keeps p sd flit errs again (.refl _ _ s) (mayChange_rest _)
  | .ackDeadlineMiss p sd, s => execAckDeadlineMiss_keeps p sd (.refl _ _ s) (mayChange_instant rfl)
  | .cLossTimeout p sd, s => execCLossTimeout_keeps p sd (.refl _ _ s) (mayChange_rest _)
  | .rotationRequest p sd lane alignLost, s => execRotationRequest_keeps p sd lane alignLost (.refl _ _ s) (mayChange_rest _)
  | .ringRecalibrationSchedule p sd lane, s => execRingRecalibrationSchedule_keeps p sd lane (.refl _ _ s) (mayChange_rest _)
  | .ringRecalibrationDone p sd lane ok, s => execRingRecalibrationDone_keeps p sd lane ok (.refl _ _ s) (mayChange_rest _)
  | .cDetected p sd, s => execCDetected_keeps p sd (.refl _ _ s) (mayChange_rest _)
  | .trainingStepDone p sd eq, s => execTrainingStepDone_keeps p sd eq (.refl _ _ s) (mayChange_rest _)
  | .trainingStepTimeout p sd, s => execTrainingStepTimeout_keeps p sd (.refl _ _ s) (mayChange_rest _)
  | .ts1 p sd ptype strand breakout spUsable, s => execTs1_keeps p sd ptype strand breakout spUsable (.refl _ _ s) (mayChange_rest _)
  | .ts2 p sd credits depth version, s => execTs2_keeps p sd credits depth version (.refl _ _ s) (mayChange_rest _)
  | .assignAck p sd echo, s => execAssignAck_keeps p sd echo (.refl _ _ s) (mayChange_rest _)
  | .coord p sd peer pport pstrand fabricId, s => execCoord_keeps p sd peer pport pstrand fabricId (.refl _ _ s) (mayChange_rest _)
  | .ready p sd state, s => execReady_keeps p sd state (.refl _ _ s) (mayChange_rest _)
  | .refuse p sd reason, s => execRefuse_keeps p sd reason (.refl _ _ s) (mayChange_rest _)
  | .downRetry p sd, s => execDownRetry_keeps p sd (.refl _ _ s) (mayChange_rest _)
  | .portWaveBegin w, s => execPortWaveBegin_keeps w (.refl _ _ s) (mayChange_instant rfl)
  | .idleEntry p sd, s => execIdleEntry_keeps p sd (.refl _ _ s) (mayChange_instant rfl)
  | .idleExit p sd, s => execIdleExit_keeps p sd (.refl _ _ s) (mayChange_rest _)
  | .requestDoze p, s => execRequestDoze_keeps p (.refl _ _ s) (mayChange_rest _)
  | .requestDark p, s => execRequestDark_keeps p (.refl _ _ s) (mayChange_rest _)
  | .wake p, s => execWake_keeps p (.refl _ _ s) (mayChange_rest _)
  | .wakePatternDetected p sd periods, s => execWakePatternDetected_keeps p sd periods (.refl _ _ s) (mayChange_rest _)
  | .dozeLightWake p sd, s => execDozeLightWake_keeps p sd (.refl _ _ s) (mayChange_rest _)
  | .syncSend p sd, s => execSyncSend_keeps p sd (.refl _ _ s) (mayChange_rest _)
  | .announceSend p sd, s => execAnnounceSend_keeps p sd (.refl _ _ s) (mayChange_rest _)
  | .delayReqSend, s => execDelayReqSend_keeps (.refl _ _ s) (mayChange_rest _)
  | .delayReq p sd m, s => execDelayReq_keeps p sd m (.refl _ _ s) (mayChange_rest _)
  | .sync p sd m, s => execSync_keeps p sd m (.refl _ _ s) (mayChange_rest _)
  | .delayResp p sd m, s => execDelayResp_keeps p sd m (.refl _ _ s) (mayChange_rest _)
  | .announce p sd m leap, s => execAnnounce_keeps p sd m leap (.refl _ _ s) (mayChange_rest _)
  | .upstreamLost, s => execUpstreamLost_keeps (.refl _ _ s) (mayChange_instant rfl)
  | .holdoverTraceExpiry, s => execHoldoverTraceExpiry_keeps (.refl _ _ s) (mayChange_instant rfl)
  | .holdoverExit, s => execHoldoverExit_keeps (.refl _ _ s) (mayChange_instant rfl)
  | .registrationRequest qs ws, s => execRegistrationRequest_keeps qs ws (.refl _ _ s) (mayChange_rest _)
  | .registrationAnswer p sd a, s => execRegistrationAnswer_keeps p sd a (.refl _ _ s) (mayChange_rest _)
  | .registrationResend p sd, s => execRegistrationResend_keeps p sd (.refl _ _ s) (mayChange_instant rfl)
  | .withdrawal ws, s => execWithdrawal_keeps ws (.refl _ _ s) (mayChange_rest _)
  | .packetHeadArrival p sd vc, s => execPacketHeadArrival_keeps p sd vc (.refl _ _ s) (mayChange_rest _)
  | .packetTailArrival p sd vc, s => execPacketTailArrival_keeps p sd vc (.refl _ _ s) (mayChange_rest _)
  | .gladeAdmission d, s => execGladeAdmission_keeps d (.refl _ _ s) (mayChange_rest _)
  | .losslessAdmit d, s => execLosslessAdmit_keeps d (.refl _ _ s) (mayChange_rest _)
  | .multicastAdmission d, s => execMulticastAdmission_keeps d (.refl _ _ s) (mayChange_rest _)
  | .bridgeCreditReturn src dst vc, s => execBridgeCreditReturn_keeps src dst vc (.refl _ _ s) (mayChange_rest _)
  | .vcGrant p sd, s => execVcGrant_keeps p sd (.refl _ _ s) (mayChange_rest _)
  | .queueGrant p sd vc, s => execQueueGrant_keeps p sd vc (.refl _ _ s) (mayChange_rest _)
  | .ageSweep p sd q, s => execAgeSweep_keeps p sd q (.refl _ _ s) (mayChange_rest _)
  | .shaperCreditZero p sd q, s => execShaperCreditZero_keeps p sd q (.refl _ _ s) (mayChange_rest _)
  | .depthSample d, s => execDepthSample_keeps d (.refl _ _ s) (mayChange_rest _)
  | .rejoin p sd, s => execRejoin_keeps p sd (.refl _ _ s) (mayChange_instant rfl)
  | .reducerMatchingRound d, s => execReducerMatchingRound_keeps d (.refl _ _ s) (mayChange_rest _)
  | .fabricPhaseMessage m, s => execFabricPhaseMessage_keeps m (.refl _ _ s) (mayChange_rest _)
  | .phaseAck worker phase, s => execPhaseAck_keeps worker phase (.refl _ _ s) (mayChange_rest _)
  | .phaseLimitTimeout worker, s => execPhaseLimitTimeout_keeps worker (.refl _ _ s) (mayChange_instant rfl)
  | .clearRevert, s => execClearRevert_keeps (.refl _ _ s) (mayChange_instant rfl)
  | .rtWinCtlWrite val, s => execRtWinCtlWrite_keeps val (.refl _ _ s) (mayChange_rest _)
  | .rtWinDataWrite k val, s => execRtWinDataWrite_keeps k val (.refl _ _ s) (mayChange_rest _)
  | .auditSnap d, s => execAuditSnap_keeps d (.refl _ _ s) (mayChange_rest _)
  | .shaperWrite d ix val, s => execShaperWrite_keeps d ix val (.refl _ _ s) (mayChange_rest _)
  | .policerWrite d j k val, s => execPolicerWrite_keeps d j k val (.refl _ _ s) (mayChange_rest _)
  | .histClr d h, s => execHistClr_keeps d h (.refl _ _ s) (mayChange_rest _)
  | .histQueueChange d h q, s => execHistQueueChange_keeps d h q (.refl _ _ s) (mayChange_rest _)
  | .contextAllocation a, s => execContextAllocation_keeps a (.refl _ _ s) (mayChange_rest _)
  | .allocationAnswer group sw status crc point vcw, s => execAllocationAnswer_keeps group sw status crc point vcw (.refl _ _ s) (mayChange_rest _)
  | .allocationTimeout group, s => execAllocationTimeout_keeps group (.refl _ _ s) (mayChange_instant rfl)
  | .commit group lapsed, s => execCommit_keeps group lapsed (.refl _ _ s) (mayChange_rest _)
  | .release group, s => execRelease_keeps group (.refl _ _ s) (mayChange_rest _)
  | .reservationExpiry slot, s => execReservationExpiry_keeps slot (.refl _ _ s) (mayChange_instant rfl)
  | .stepStart x, s => execStepStart_keeps x (.refl _ _ s) (mayChange_rest _)
  | .rootStepOpen slot, s => execRootStepOpen_keeps slot (.refl _ _ s) (mayChange_rest _)
  | .stepOpen x, s => execStepOpen_keeps x (.refl _ _ s) (mayChange_rest _)
  | .window x, s => execWindow_keeps x (.refl _ _ s) (mayChange_rest _)
  | .stepEnd x, s => execStepEnd_keeps x (.refl _ _ s) (mayChange_rest _)
  | .stop x, s => execStop_keeps x (.refl _ _ s) (mayChange_rest _)
  | .fail x, s => execFail_keeps x (.refl _ _ s) (mayChange_rest _)
  | .chunkContribution x, s => execChunkContribution_keeps x (.refl _ _ s) (mayChange_rest _)
  | .resultPassDown x, s => execResultPassDown_keeps x (.refl _ _ s) (mayChange_rest _)
  | .stepTimerExpiry slot, s => execStepTimerExpiry_keeps slot (.refl _ _ s) (mayChange_instant rfl)
  | .emitGrant ix, s => execEmitGrant_keeps ix (.refl _ _ s) (mayChange_rest _)
  | .fanGrant ix, s => execFanGrant_keeps ix (.refl _ _ s) (mayChange_rest _)
  | .reductionDieLost x cause, s => execReductionDieLost_keeps x cause (.refl _ _ s) (mayChange_rest _)
  | .rehomeDone x, s => execRehomeDone_keeps x (.refl _ _ s) (mayChange_rest _)
  | .nopInstruction ix, s => execNopInstruction_keeps ix (.refl _ _ s) (mayChange_rest _)
  | .waitComplete ix, s => execWaitComplete_keeps ix (.refl _ _ s) (mayChange_rest _)
  | .waitPrev ix, s => execWaitPrev_keeps ix (.refl _ _ s) (mayChange_rest _)
  | .waitRelease ix, s => execWaitRelease_keeps ix (.refl _ _ s) (mayChange_rest _)
  | .acc ix chk, s => execAcc_keeps ix chk (.refl _ _ s) (mayChange_rest _)
  | .accx ix chk, s => execAccx_keeps ix chk (.refl _ _ s) (mayChange_rest _)
  | .scl ix chk, s => execScl_keeps ix chk (.refl _ _ s) (mayChange_rest _)
  | .cast ix chk, s => execCast_keeps ix chk (.refl _ _ s) (mayChange_rest _)
  | .emit ix, s => execEmit_keeps ix (.refl _ _ s) (mayChange_rest _)
  | .fan ix, s => execFan_keeps ix (.refl _ _ s) (mayChange_rest _)
  | .lds ix, s => execLds_keeps ix (.refl _ _ s) (mayChange_rest _)
  | .ldsComplete ix uc, s => execLdsComplete_keeps ix uc (.refl _ _ s) (mayChange_rest _)
  | .sts ix, s => execSts_keeps ix (.refl _ _ s) (mayChange_rest _)
  | .stsComplete ix, s => execStsComplete_keeps ix (.refl _ _ s) (mayChange_rest _)
  | .upd ix chk, s => execUpd_keeps ix chk (.refl _ _ s) (mayChange_rest _)
  | .norm ix chk, s => execNorm_keeps ix chk (.refl _ _ s) (mayChange_rest _)
  | .dig ix, s => execDig_keeps ix (.refl _ _ s) (mayChange_rest _)
  | .bar ix, s => execBar_keeps ix (.refl _ _ s) (mayChange_rest _)
  | .seed ix, s => execSeed_keeps ix (.refl _ _ s) (mayChange_rest _)
  | .endWord ix, s => execEndWord_keeps ix (.refl _ _ s) (mayChange_rest _)
  | .programStoreWrite a w, s => execProgramStoreWrite_keeps a w (.refl _ _ s) (mayChange_rest _)
  | .pstepEnWrite x val, s => execPstepEnWrite_keeps x val (.refl _ _ s) (mayChange_rest _)
  | .pstepGo x, s => execPstepGo_keeps x (.refl _ _ s) (mayChange_rest _)
  | .twinWrite x, s => execTwinWrite_keeps x (.refl _ _ s) (mayChange_rest _)
  | .groupReroot group height, s => execGroupReroot_keeps group height (.refl _ _ s) (mayChange_rest _)
  | .paceInstant slot, s => execPaceInstant_keeps slot (.refl _ _ s) (mayChange_instant rfl)
  | .stepEndRelease slot step, s => execStepEndRelease_keeps slot step (.refl _ _ s) (mayChange_instant rfl)
  | .paceLapseTemperature die temp, s => execPaceLapseTemperature_keeps die temp (.refl _ _ s) (mayChange_rest _)
  | .dieMarked m memDie, s => execDieMarked_keeps m memDie (.refl _ _ s) (mayChange_rest _)
  | .rowSpare m row corrected previous, s => execRowSpare_keeps m row corrected previous (.refl _ _ s) (mayChange_rest _)
  | .rowSpareDone m row, s => execRowSpareDone_keeps m row (.refl _ _ s) (mayChange_rest _)
  | .patrolScrubSlot m r contended, s => execPatrolScrubSlot_keeps m r contended (.refl _ _ s) (mayChange_rest _)
  | .scrubLate m, s => execScrubLate_keeps m (.refl _ _ s) (mayChange_instant rfl)
  | .sramScrub x ofs r place, s => execSramScrub_keeps x ofs r place (.refl _ _ s) (mayChange_rest _)
  | .stackLost m cause, s => execStackLost_keeps m cause (.refl _ _ s) (mayChange_rest _)
  | .ringRebuilt k, s => execRingRebuilt_keeps k (.refl _ _ s) (mayChange_rest _)
  | .poolRequest q need, s => execPoolRequest_keeps q need (.refl _ _ s) (mayChange_rest _)
  | .poolFree q pool idx, s => execPoolFree_keeps q pool idx (.refl _ _ s) (mayChange_rest _)
  | .cacheRefill k r, s => execCacheRefill_keeps k r (.refl _ _ s) (mayChange_rest _)
  | .cacheWriteback k, s => execCacheWriteback_keeps k (.refl _ _ s) (mayChange_rest _)
  | .bpmSnap, s => execBpmSnap_keeps (.refl _ _ s) (mayChange_rest _)
  | .timeSetApply, s => execTimeSetApply_keeps (.refl _ _ s) (mayChange_rest _)
  | .ppsEdge, s => execPpsEdge_keeps (.refl _ _ s) (mayChange_rest _)
  | .syncInLost pin, s => execSyncInLost_keeps pin (.refl _ _ s) (mayChange_rest _)
  | .syncInRestored pin, s => execSyncInRestored_keeps pin (.refl _ _ s) (mayChange_rest _)
  | .leapTakeEffect, s => execLeapTakeEffect_keeps (.refl _ _ s) (mayChange_instant rfl)
  | .syncOutEdge pin matched, s => execSyncOutEdge_keeps pin matched (.refl _ _ s) (mayChange_instant rfl)
  | .rearm, s => execRearm_keeps (.refl _ _ s) (mayChange_rest _)
  | .nowLoRead path, s => execNowLoRead_keeps path (.refl _ _ s) (mayChange_rest _)
  | .resetRelease straps railsOk mb0Up mb1Up, s => execResetRelease_keeps straps railsOk mb0Up mb1Up (.refl _ _ s) (mayChange_rest _)
  | .flashDiscoveryDone f, s => execFlashDiscoveryDone_keeps f (.refl _ _ s) (mayChange_rest _)
  | .imageCopyCheck c f other, s => execImageCopyCheck_keeps c f other (.refl _ _ s) (mayChange_instant rfl)
  | .overrideWindowClose, s => execOverrideWindowClose_keeps (.refl _ _ s) (mayChange_instant rfl)
  | .startHoldTimeout, s => execStartHoldTimeout_keeps (.refl _ _ s) (mayChange_instant rfl)
  | .coordOvrWrite path val, s => execCoordOvrWrite_keeps path val (.refl _ _ s) (mayChange_rest _)
  | .startHoldClear, s => execStartHoldClear_keeps (.refl _ _ s) (mayChange_rest _)
  | .managerHeartbeatSend, s => execManagerHeartbeatSend_keeps (.refl _ _ s) (mayChange_rest _)
  | .managerHeartbeat sender senderId m, s => execManagerHeartbeat_keeps sender senderId m (.refl _ _ s) (mayChange_rest _)
  | .managerAssumed, s => execManagerAssumed_keeps (.refl _ _ s) (mayChange_instant rfl)
  | .devReset key, s => execDevReset_keeps key (.refl _ _ s) (mayChange_rest _)
  | .go c, s => execGo_keeps c (.refl _ _ s) (mayChange_rest _)
  | .stopChannel c, s => execStopChannel_keeps c (.refl _ _ s) (mayChange_rest _)
  | .dmaStagingGrant c, s => execDmaStagingGrant_keeps c (.refl _ _ s) (mayChange_rest _)
  | .dmaBeat res, s => execDmaBeat_keeps res (.refl _ _ s) (mayChange_rest _)
  | .dmaElementDone c, s => execDmaElementDone_keeps c (.refl _ _ s) (mayChange_rest _)
  | .rdResp c seq status data, s => execRdResp_keeps c seq status data (.refl _ _ s) (mayChange_rest _)
  | .wrAck c seq status, s => execWrAck_keeps c seq status (.refl _ _ s) (mayChange_rest _)
  | .remoteResponseTimeout c seq, s => execRemoteResponseTimeout_keeps c seq (.refl _ _ s) (mayChange_instant rfl)
  | .fatalCause cause, s => execFatalCause_keeps cause (.refl _ _ s) (mayChange_rest _)
  | .thermtrip die, s => execThermtrip_keeps die (.refl _ _ s) (mayChange_rest _)
  | .supplyFault, s => execSupplyFault_keeps (.refl _ _ s) (mayChange_rest _)
  | .mbTakeover, s => execMbTakeover_keeps (.refl _ _ s) (mayChange_rest _)
  | .mirrorHeartbeatSend, s => execMirrorHeartbeatSend_keeps (.refl _ _ s) (mayChange_rest _)
  | .standbyLost, s => execStandbyLost_keeps (.refl _ _ s) (mayChange_rest _)
  | .dieFenced d cause, s => execDieFenced_keeps d cause (.refl _ _ s) (mayChange_rest _)
  | .laserLost e j, s => execLaserLost_keeps e j (.refl _ _ s) (mayChange_rest _)
  | .engineLost e, s => execEngineLost_keeps e (.refl _ _ s) (mayChange_rest _)
  | .arm val, s => execArm_keeps val (.refl _ _ s) (mayChange_rest _)
  | .disarm, s => execDisarm_keeps (.refl _ _ s) (mayChange_rest _)
  | .injKey key, s => execInjKey_keeps key (.refl _ _ s) (mayChange_rest _)
  | .eventForward rec, s => execEventForward_keeps rec (.refl _ _ s) (mayChange_rest _)
  | .rdSeq path seq, s => execRdSeq_keeps path seq (.refl _ _ s) (mayChange_rest _)
  | .evrClear path key, s => execEvrClear_keeps path key (.refl _ _ s) (mayChange_rest _)
  | .clearFlash path key, s => execClearFlash_keeps path key (.refl _ _ s) (mayChange_rest _)
  | .recordProgramDone ok, s => execRecordProgramDone_keeps ok (.refl _ _ s) (mayChange_rest _)
  | .sectorErase, s => execSectorErase_keeps (.refl _ _ s) (mayChange_instant rfl)
  | .sectorEraseDone ok, s => execSectorEraseDone_keeps ok (.refl _ _ s) (mayChange_rest _)
  | .eventRegionScanDone scan, s => execEventRegionScanDone_keeps scan (.refl _ _ s) (mayChange_rest _)
  | .opTime, s => execOpTime_keeps (.refl _ _ s) (mayChange_rest _)
  | .requestRun, s => execRequestRun_keeps (.refl _ _ s) (mayChange_rest _)
  | .requestQuiet, s => execRequestQuiet_keeps (.refl _ _ s) (mayChange_rest _)
  | .requestHold, s => execRequestHold_keeps (.refl _ _ s) (mayChange_rest _)
  | .voteTimeout k, s => execVoteTimeout_keeps k (.refl _ _ s) (mayChange_instant rfl)
  | .domainStop k, s => execDomainStop_keeps k (.refl _ _ s) (mayChange_rest _)
  | .wantOff k off, s => execWantOff_keeps k off (.refl _ _ s) (mayChange_rest _)
  | .wakeSource bit, s => execWakeSource_keeps bit (.refl _ _ s) (mayChange_rest _)
  | .pointWrite pt, s => execPointWrite_keeps pt (.refl _ _ s) (mayChange_rest _)
  | .rampEnd, s => execRampEnd_keeps (.refl _ _ s) (mayChange_instant rfl)
  | .cntClear key, s => execCntClear_keeps key (.refl _ _ s) (mayChange_rest _)
  | .freeze on, s => execFreeze_keeps on (.refl _ _ s) (mayChange_rest _)
  | .byteCounterRead path off, s => execByteCounterRead_keeps path off (.refl _ _ s) (mayChange_rest _)
  | .resLoRead path k, s => execResLoRead_keeps path k (.refl _ _ s) (mayChange_rest _)
  | .traceEvent b point key fields again, s => execTraceEvent_keeps b point key fields again (.refl _ _ s) (mayChange_rest _)
  | .drainGo b, s => execDrainGo_keeps b (.refl _ _ s) (mayChange_rest _)
  | .dbgAuditSnap, s => execDbgAuditSnap_keeps (.refl _ _ s) (mayChange_rest _)
  | .laserModulePoll e j reply, s => execLaserModulePoll_keeps e j reply (.refl _ _ s) (mayChange_rest _)
  | .resetAsserted pwrok, s => execResetAsserted_keeps pwrok (.refl _ _ s) (mayChange_rest _)
  | .vaux3v3Loss, s => execVaux3v3Loss_keeps (.refl _ _ s) (mayChange_rest _)
  | .domainVoteAnswer k, s => execDomainVoteAnswer_keeps k (.refl _ _ s) (mayChange_rest _)
  | .returnToRun, s => execReturnToRun_keeps (.refl _ _ s) (mayChange_rest _)
  | .shardLostReport group, s => execShardLostReport_keeps group (.refl _ _ s) (mayChange_rest _)

/-- Settles O3, from what each meaning keeps. -/
theorem commandsKeepQueueAndFuses : Obligations.CommandsKeepQueueAndFuses := by
  intro c s t h
  have k : Keeps (!isRelease c) (mayChange c) s t := (exec_keeps c s).of _ t h
  exact ⟨k.pending, k.clock, fun hc => k.only.clock (mayChange_clock hc), k.fuses, k.sent, k.free⟩

theorem step_of_cons {c : Instr} {rest : List Instr} {s : State} (h : s.pending = c :: rest) : step s = exec c { s with pending := rest } := by
  simp only [step, h]

theorem step_of_nil {s : State} (h : s.pending = []) : step s = .next { s with clock := s.clock + 1 } := by
  simp only [step, h]

/-- Settles O1, by the two forms of the queue. -/
theorem stepTakesTheFront : Obligations.StepTakesTheFront :=
  ⟨fun _ _ _ => step_of_cons, fun _ => step_of_nil⟩

end Sys2Proof.Machine
end

section
/-! SUPPORT. An access to BAR0 by each way in (R5, R7, R375, R379, R395): what a read or a write does once it is known where its offset leads. -/

namespace Sys2Proof.Machine

variable {s : State} {path : Path} {off : Nat}

/-- Where an offset below ROUTE leads: the blocks of the management island have no domain (R375). -/
theorem reachOf_island (h : off < 0xA0000) : reachOf s off = .ok := if_pos h

theorem reachDom_on {k : Nat} (h : domOn s k = true) : reachDom s k = .ok := if_pos h

theorem busRead_of_up (hm : mgmtUp s = true) : busRead path off s = regRead path off s := by
  simp only [busRead, hm, Bool.true_or, if_true]

theorem beforeRead_of_not_swc (h : off < 0x200000 ∨ 0x300000 ≤ off) : beforeRead off s = s := if_neg (by omega)

theorem regReadUpd_ok (upd : Word) (hr : reachOf s off = .ok) :
    regReadUpd path off upd s = (peek path (beforeRead off s) off, .ok, readEffect path off upd (beforeRead off s)) := by
  simp only [regReadUpd, hr]

theorem busWrite_ok {v : Word} (hm : mgmtUp s = true) (ha : off % 4 = 0) (hr : reachOf s off = .ok) (hg : takesGo off v = false) :
    busWrite path off v s = (.ok, poke path off v s) := by
  simp only [busWrite, hm, Bool.true_or, if_true, regWrite, ha, ne_eq, not_true, if_false, hr, hg, iff_false]

theorem busWrite_none {v : Word} (hm : mgmtUp s = true) (hr : reachOf s off = .none) :
    busWrite path off v s = (.none, cmdCnt 0x414 1 s) := by
  simp only [busWrite, hm, Bool.true_or, if_true, regWrite, hr, ite_self]

/-- GO stands in CMD_CTL alone. -/
theorem takesGo_of_ne {v : Word} (h : off ≠ 0x60000) : takesGo off v = false := by simp [takesGo, h]

theorem exec_registerWrite_ok {v : Word} (hm : mgmtUp s = true) (hp : pathOpen s path = true) (hlt : off < 2 ^ 25) (ha : off % 4 = 0)
    (hr : reachOf s off = .ok) (hg : takesGo off v = false) :
    exec (.registerWrite path (BitVec.ofNat 25 off) v) s = .next (poke path off v s) := by
  simp only [exec, execRegisterWrite, hp, if_true, BitVec.toNat_ofNat, Nat.mod_eq_of_lt hlt, busWrite_ok hm ha hr hg]

theorem pathOpen_jtag (h : s.cmd.jtagLevel ≠ 2) : pathOpen s .jtag = false := by simpa [pathOpen] using h

theorem exec_registerWrite_locked {o : Off} {v : Word} (hp : pathOpen s path = false) : exec (.registerWrite path o v) s = .next s := by
  simp only [exec, execRegisterWrite, hp, Bool.false_eq_true, if_false]

theorem exec_rcCounterRead_ok {upd : Word} (hm : mgmtUp s = true) (hp : pathOpen s path = true) (hlt : off < 2 ^ 25) (ha : off % 4 = 0)
    (hr : reachOf s off = .ok) (hb : off < 0x200000 ∨ 0x300000 ≤ off) :
    exec (.rcCounterRead path (BitVec.ofNat 25 off) upd) s = .next (emit (.readData path (peek path s off)) (readEffect path off upd s)) := by
  simp only [exec, execRcCounterRead, hm, hp, Bool.not_true, Bool.or_self, Bool.false_eq_true, if_false, BitVec.toNat_ofNat, Nat.mod_eq_of_lt hlt, ha, ne_eq,
    not_true, regReadUpd_ok upd hr, beforeRead_of_not_swc hb]

theorem ctrRead_cmd {o : Nat} {r : Word × State} (h : ctrRead path o s = some r) : r.2.cmd = s.cmd :=
  (ctrRead_keeps (d := true) (L := 0x2000) path o (.refl _ _ s) rfl r h).only.cmd (by decide)

theorem ite_cmd_counters {c : Prop} [Decidable c] {a b : State} (ha : ∃ x, a.cmd = { s.cmd with cnt := x }) (hb : ∃ x, b.cmd = { s.cmd with cnt := x }) :
    ∃ x, (if c then a else b).cmd = { s.cmd with cnt := x } := by
  split
  · exact ha
  · exact hb

/-- Of the command unit a read changes the counters alone, whatever its offset. -/
theorem readEffect_cmd_counters (path : Path) (off : Nat) (upd : Word) (s : State) : ∃ x, (readEffect path off upd s).cmd = { s.cmd with cnt := x } := by
  unfold readEffect iff
  dsimp only
  repeat' apply ite_cmd_counters
  any_goals exact ⟨_, rfl⟩
  all_goals split
  any_goals exact ⟨_, rfl⟩
  rename_i h
  exact ⟨_, ctrRead_cmd h⟩

theorem readEffect_smbOff (upd : Word) : (readEffect path off upd s).cmd.smbOff = s.cmd.smbOff := by
  obtain ⟨_, h⟩ := readEffect_cmd_counters path off upd s
  rw [h]

theorem beforeRead_cmd : (beforeRead off s).cmd = s.cmd :=
  (beforeRead_keeps (d := true) (L := 0x80002) off (.refl _ _ s) rfl).only.cmd (by decide)

end Sys2Proof.Machine
end

section
/-! SUPPORT. The registers of port p and of stack m in BAR0 (R375): where their offsets lead, what their counters show, and what a read of one does. -/

namespace Sys2Proof.Machine

variable {s : State} {path : Path} {p m o : Nat}

/-- The BAR0 offset of offset o of port p. -/
def portOff (p o : Nat) : Nat := 0x400000 + 0x1000 * p + o

/-- The BAR0 offset of offset o of stack m. -/
def memOff (m o : Nat) : Nat := 0x900000 + 0x1000 * m + o

theorem portOff_place (hp : p < 288) (ho : o < 0x1000) :
    (0x400000 ≤ portOff p o ∧ portOff p o < 0x520000) ∧ (portOff p o - 0x400000) / 0x1000 = p ∧ portOff p o % 0x1000 = o := by
  unfold portOff
  omega

theorem memOff_place (hm : m < 8) (ho : o < 0x1000) :
    (0x900000 ≤ memOff m o ∧ memOff m o < 0x908000) ∧ (memOff m o - 0x900000) / 0x1000 = m ∧ (memOff m o - 0x900000) / 0x2000 = m / 2 ∧
      memOff m o % 0x1000 = o := by
  unfold memOff
  omega

theorem reachOf_port (hp : p < 288) (ho : o < 0x1000) : reachOf s (portOff p o) = reachDom s (domPort p) := by
  obtain ⟨hr, hd, -⟩ := portOff_place hp ho
  simp (disch := omega) only [reachOf, if_neg, if_pos, hd]

theorem reachOf_mem (hm : m < 8) (ho : o < 0x1000) : reachOf s (memOff m o) = reachDom s (domQuad (m / 2) 0) := by
  obtain ⟨hr, -, hd, -⟩ := memOff_place hm ho
  simp (disch := omega) only [reachOf, if_neg, if_pos, hd]

theorem peek_port (hp : p < 288) (ho : o < 0x1000) : peek path s (portOff p o) = portPeek s p o := by
  obtain ⟨hr, hd, hm⟩ := portOff_place hp ho
  simp (disch := omega) only [peek, if_neg, if_pos, hd, hm]

theorem peek_mem (hm : m < 8) (ho : o < 0x1000) : peek path s (memOff m o) = memPeek s m o := by
  obtain ⟨hr, hd, -, hm⟩ := memOff_place hm ho
  simp (disch := omega) only [peek, if_neg, if_pos, hd, hm]

/-- The offsets 0x100 to 0x14C of PORT show the table of counters (R72, R104). -/
theorem portPeek_counter (hl : 0x100 ≤ o) (hh : o ≤ 0x14C) : portPeek s p o = tget 0 (portOf s p).cnt o := by
  simp (disch := omega) only [portPeek, if_neg]

/-- The offsets 0x100 to 0x10C of MEM show the table of counters (R326). -/
theorem memPeek_counter (hl : 0x100 ≤ o) : memPeek s m o = tget 0 (stackOf s m).cnt o := by
  simp (disch := omega) only [memPeek]

/-- A read of a port's counter leaves the coinciding update in it (R7). -/
theorem readEffect_portCounter (upd : Word) (hp : p < 288) (hl : 0x100 ≤ o) (hh : o ≤ 0x14C) :
    readEffect path (portOff p o) upd s = modPort p (fun e => { e with cnt := tset 0 e.cnt o upd }) s := by
  obtain ⟨hr, hd, hm⟩ := portOff_place (o := o) hp (by omega)
  simp (disch := omega) only [readEffect, if_neg, if_pos, hd, hm]
  simp [hl, hh, rcTable]

/-- A read of a stack's counter leaves the coinciding update in it (R7). -/
theorem readEffect_memCounter (upd : Word) (hm : m < 8) (hl : 0x100 ≤ o) (hh : o ≤ 0x10C) :
    readEffect path (memOff m o) upd s = modStack m (fun e => { e with cnt := tset 0 e.cnt o upd }) s := by
  obtain ⟨hr, hd, -, hm⟩ := memOff_place (o := o) hm (by omega)
  simp (disch := omega) only [readEffect, if_neg, if_pos, hd, hm]
  simp [hl, hh, rcTable]

@[simp] theorem portOf_emit (out : Out) : portOf (emit out s) p = portOf s p := rfl

@[simp] theorem stackOf_emit (out : Out) : stackOf (emit out s) m = stackOf s m := rfl

@[simp] theorem portOf_modPort_same (f : PortSt → PortSt) : portOf (modPort p f s) p = f (portOf s p) := tget_tmod_eq _ _ _ _

theorem portOf_modPort_other {q : Nat} (f : PortSt → PortSt) (h : q ≠ p) : portOf (modPort p f s) q = portOf s q := tget_tmod_ne _ _ _ h

@[simp] theorem stackOf_modStack_same (f : MemSt → MemSt) : stackOf (modStack m f s) m = f (stackOf s m) := tget_tmod_eq _ _ _ _

end Sys2Proof.Machine
end

section
/-! The RC counters (R7). -/

namespace Sys2Proof.Machine

section
variable {s : State} {path : Path} {upd : Word} {p m o : Nat} (hm : mgmtUp s = true) (hp : pathOpen s path = true)
include hm hp

theorem exec_rcCounterRead_port (hlt : p < 288) (hd : domOn s (domPort p) = true) (ha : o % 4 = 0) (hl : 0x100 ≤ o) (hh : o ≤ 0x14C) :
    exec (.rcCounterRead path (BitVec.ofNat 25 (portOff p o)) upd) s =
      .next (emit (.readData path (tget 0 (portOf s p).cnt o)) (modPort p (fun e => { e with cnt := tset 0 e.cnt o upd }) s)) := by
  have ho : o < 0x1000 := by omega
  have hr : reachOf s (portOff p o) = .ok := (reachOf_port hlt ho).trans (reachDom_on hd)
  obtain ⟨hw, -, -⟩ := portOff_place hlt ho
  rw [exec_rcCounterRead_ok hm hp (by omega) (by unfold portOff; omega) hr (by omega), peek_port hlt ho, portPeek_counter hl hh,
    readEffect_portCounter upd hlt hl hh]

theorem exec_rcCounterRead_mem (hlt : m < 8) (hd : domOn s (domQuad (m / 2) 0) = true) (ha : o % 4 = 0) (hl : 0x100 ≤ o) (hh : o ≤ 0x10C) :
    exec (.rcCounterRead path (BitVec.ofNat 25 (memOff m o)) upd) s =
      .next (emit (.readData path (tget 0 (stackOf s m).cnt o)) (modStack m (fun e => { e with cnt := tset 0 e.cnt o upd }) s)) := by
  have ho : o < 0x1000 := by omega
  have hr : reachOf s (memOff m o) = .ok := (reachOf_mem hlt ho).trans (reachDom_on hd)
  obtain ⟨hw, -, -⟩ := memOff_place hlt ho
  rw [exec_rcCounterRead_ok hm hp (by omega) (by unfold memOff; omega) hr (by omega), peek_mem hlt ho, memPeek_counter hl,
    readEffect_memCounter upd hlt hl hh]

/-- CE_COUNT (R437). -/
theorem exec_rcCounterRead_ceCount : exec (.rcCounterRead path 0x30010 upd) s =
    .next (emit (.readData path s.flt.ceCount) { s with flt := { s.flt with ceCount := upd } }) :=
  exec_rcCounterRead_ok (off := 0x30010) hm hp (by decide) rfl (reachOf_island (by decide)) (.inl (by decide))

/-- UC_COUNT (R437). -/
theorem exec_rcCounterRead_ucCount : exec (.rcCounterRead path 0x30014 upd) s =
    .next (emit (.readData path s.flt.ucCount) { s with flt := { s.flt with ucCount := upd } }) :=
  exec_rcCounterRead_ok (off := 0x30014) hm hp (by decide) rfl (reachOf_island (by decide)) (.inl (by decide))

end

/-- Settles O8: the counters of ports, of stacks and of FLT, one after the other. -/
theorem readClearCounters : Obligations.ReadClearCounters := by
  intro path upd s hm hp
  refine ⟨fun p i hd => ?port, fun m i hd => ?stack, exec_rcCounterRead_ceCount hm hp, exec_rcCounterRead_ucCount hm hp⟩
  case port =>
    refine ⟨_, exec_rcCounterRead_port hm hp p.isLt hd (by omega) (by omega) (by omega), rfl, ?_, ?_, fun o ho => ?_, fun q hq => ?_⟩
    · simp only [portOf_emit, portOf_modPort_same]
    · simp only [portOf_emit, portOf_modPort_same, tget_tset_eq]
    · simp only [portOf_emit, portOf_modPort_same, tget_tset_ne _ _ _ ho]
    · simp only [portOf_emit, portOf_modPort_other _ hq]
  case stack =>
    refine ⟨_, exec_rcCounterRead_mem hm hp m.isLt hd (by omega) (by omega) (by omega), rfl, ?_, fun o ho => ?_⟩
    · simp only [stackOf_emit, stackOf_modStack_same, tget_tset_eq]
    · simp only [stackOf_emit, stackOf_modStack_same, tget_tset_ne _ _ _ ho]

end Sys2Proof.Machine
end

section
/-! The registers of FLT, TIM, DBG and PWR that hold what is written (R130, R163, R349, R439, R454, R466). -/

namespace Sys2Proof.Machine

section
variable (v : Word)

theorem b2n_bitOf (i : Nat) : b2n (bitOf v i) = v.toNat / 2 ^ i % 2 := by
  rw [← Nat.toNat_testBit, b2n, bitOf, ← BitVec.testBit_toNat]
  cases v.toNat.testBit i <;> rfl

/-- The two lowest bits of a word, each as a field. -/
theorem regWord_two_flags : regWord [(1, b2n (bitOf v 1)), (0, b2n (bitOf v 0))] = v &&& 0x3 := by
  apply BitVec.eq_of_toNat_eq
  simp only [regWord, List.foldl, b2n_bitOf, BitVec.toNat_ofNat, BitVec.toNat_and]
  rw [show BitVec.toNat (3 : Word) = 2 ^ 2 - 1 from rfl, Nat.and_two_pow_sub_one_eq_mod]
  omega

/-- The two halves of a word, each as a field. -/
theorem regWord_halves : regWord [(16, (v.extractLsb' 16 16).toNat), (0, (v.extractLsb' 0 16).toNat)] = v := by
  apply BitVec.eq_of_toNat_eq
  have := v.isLt
  simp only [regWord, List.foldl, BitVec.extractLsb'_toNat, BitVec.toNat_ofNat, Nat.shiftRight_eq_div_pow]
  omega

/-- The three lowest bits of a word, kept in three bits. -/
theorem setWidth_setWidth_three : (v.setWidth 3).setWidth 32 = v &&& 0x7 := by
  apply BitVec.eq_of_toNat_eq
  simp only [BitVec.toNat_setWidth, BitVec.toNat_and]
  rw [show BitVec.toNat (7 : Word) = 2 ^ 3 - 1 from rfl, Nat.and_two_pow_sub_one_eq_mod]
  omega

theorem and_full_word : v &&& BitVec.ofNat 32 0xFFFFFFFF = v := BitVec.and_allOnes

end

section
variable (path : Path) (v : Word) (s : State)

theorem poke_injMask : poke path 0x30208 v s = modFlt (fun f => { f with injMask := v }) s := rfl
theorem poke_fltCtl : poke path 0x30004 v s = modFlt (fun f => { f with ucEn := bitOf v 1, ceEn := bitOf v 0 }) s := rfl
theorem poke_setLo : poke path 0x50020 v s = modTim (fun m => { m with setLo := v }) s := rfl
theorem poke_setHi : poke path 0x50024 v s = modTim (fun m => { m with setHi := v }) s := rfl
theorem poke_hold : poke path 0x50034 v s = modTim (fun m => { m with holdTraceS := v.extractLsb' 16 16, stepThr := v.extractLsb' 0 16 }) s := rfl
theorem poke_shaperSel : poke path 0x90004 v s = modDbg (fun d => { d with shaSel := v &&& 0xC0000FFF }) s := rfl
theorem poke_ctxSel : poke path 0x90008 v s = modDbg (fun d => { d with ctxSel := v &&& 0xC003FFFF }) s := rfl
theorem poke_wakeEn : poke path 0x2000C v s = modPwr (fun p => { p with wakeEn := v.setWidth 3 }) s := rfl

/-- The register at off has the writable bits of mask: a write of v makes it show those of v, and changes nothing but the component that holds it. -/
def HoldsWritten (off mask : Nat) : Prop :=
  ∃ t, exec (.registerWrite path (BitVec.ofNat 25 off) v) s = .next t ∧ peek path t off = v &&& BitVec.ofNat 32 mask ∧
    t = { s with flt := t.flt, tim := t.tim, dbg := t.dbg, pwr := t.pwr } ∧
    (off < 0x30000 ∨ t.pwr = s.pwr) ∧ (0x30000 ≤ off ∧ off < 0x40000 ∨ t.flt = s.flt) ∧ (0x50000 ≤ off ∧ off < 0x60000 ∨ t.tim = s.tim) ∧
    (0x90000 ≤ off ∨ t.dbg = s.dbg)

end

section
variable {path : Path} {v : Word} {s : State} {off mask : Nat} (hm : mgmtUp s = true) (hp : pathOpen s path = true) (ha : off % 4 = 0)
include hm hp ha

theorem exec_registerWrite_island (hi : off < 0xA0000) (hg : off ≠ 0x60000) :
    exec (.registerWrite path (BitVec.ofNat 25 off) v) s = .next (poke path off v s) :=
  exec_registerWrite_ok hm hp (by omega) ha (reachOf_island hi) (takesGo_of_ne hg)

theorem holdsWritten_flt {f : FltSt → FltSt} (hw : poke path off v s = modFlt f s) (hv : peek path (modFlt f s) off = v &&& BitVec.ofNat 32 mask)
    (hr : 0x30000 ≤ off ∧ off < 0x40000) : HoldsWritten path v s off mask :=
  ⟨modFlt f s, hw ▸ exec_registerWrite_island hm hp ha (by omega) (by omega), hv, rfl, .inr rfl, .inl hr, .inr rfl, .inr rfl⟩

theorem holdsWritten_tim {f : TimSt → TimSt} (hw : poke path off v s = modTim f s) (hv : peek path (modTim f s) off = v &&& BitVec.ofNat 32 mask)
    (hr : 0x50000 ≤ off ∧ off < 0x60000) : HoldsWritten path v s off mask :=
  ⟨modTim f s, hw ▸ exec_registerWrite_island hm hp ha (by omega) (by omega), hv, rfl, .inr rfl, .inr rfl, .inl hr, .inr rfl⟩

theorem holdsWritten_dbg {f : DbgSt → DbgSt} (hw : poke path off v s = modDbg f s) (hv : peek path (modDbg f s) off = v &&& BitVec.ofNat 32 mask)
    (hr : 0x90000 ≤ off ∧ off < 0xA0000) : HoldsWritten path v s off mask :=
  ⟨modDbg f s, hw ▸ exec_registerWrite_island hm hp ha hr.2 (by omega), hv, rfl, .inr rfl, .inr rfl, .inr rfl, .inl hr.1⟩

theorem holdsWritten_pwr {f : PwrSt → PwrSt} (hw : poke path off v s = modPwr f s) (hv : peek path (modPwr f s) off = v &&& BitVec.ofNat 32 mask)
    (hr : off < 0x30000) : HoldsWritten path v s off mask :=
  ⟨modPwr f s, hw ▸ exec_registerWrite_island hm hp ha (by omega) (by omega), hv, rfl, .inl hr, .inr rfl, .inr rfl, .inr rfl⟩

end

/-- Settles O7: each register in the component that holds it; a locked TAP is turned away before the register map. -/
theorem registersHoldWhatIsWritten : Obligations.RegistersHoldWhatIsWritten := by
  refine ⟨fun path v s hm hp => ?_, fun off v s hl => exec_registerWrite_locked (pathOpen_jtag hl)⟩
  change ∀ r : Nat × Nat, r ∈ _ → HoldsWritten path v s r.1 r.2
  simp only [List.forall_mem_cons]
  refine ⟨?injMask, ?fltCtl, ?setLo, ?setHi, ?hold, ?shaperSel, ?ctxSel, ?wakeEn, List.forall_mem_nil _⟩
  case injMask => exact holdsWritten_flt hm hp rfl (poke_injMask ..) (and_full_word v).symm (by decide)
  case fltCtl => exact holdsWritten_flt hm hp rfl (poke_fltCtl ..) (regWord_two_flags v) (by decide)
  case setLo => exact holdsWritten_tim hm hp rfl (poke_setLo ..) (and_full_word v).symm (by decide)
  case setHi => exact holdsWritten_tim hm hp rfl (poke_setHi ..) (and_full_word v).symm (by decide)
  case hold => exact holdsWritten_tim hm hp rfl (poke_hold ..) ((regWord_halves v).trans (and_full_word v).symm) (by decide)
  case shaperSel => exact holdsWritten_dbg hm hp rfl (poke_shaperSel ..) rfl (by decide)
  case ctxSel => exact holdsWritten_dbg hm hp rfl (poke_ctxSel ..) rfl (by decide)
  case wakeEn => exact holdsWritten_pwr hm hp rfl (poke_wakeEn ..) (setWidth_setWidth_three v) (by decide)

end Sys2Proof.Machine
end

section
/-! The SMBus transactions (R8, R379, R380). -/

namespace Sys2Proof.Machine

section
variable {s : State} {d : BitVec 7}

theorem smbUp_target (hm : mgmtUp s = true) (hd : d = smbTarget s) : smbUp s d = true := by simp [smbUp, hm, hd]

theorem smbUp_other (hd : d ≠ smbTarget s) : smbUp s d = false := by simp [smbUp, hd]

/-- A transaction for another target's address is not this target's. -/
theorem exec_smbus_other (h : smbUp s d = false) (a v : Word) (ok : Bool) :
    exec (.setAddr d a ok) s = .next s ∧ exec (.read d ok) s = .next s ∧ exec (.write d v ok) s = .next s ∧ exec (.status d ok) s = .next s := by
  simp only [exec, execSetAddr, execRead, execWrite, execStatus, h, Bool.not_false, if_true, and_self]

/-- A wrong PEC is answered by a NACK, whatever the transaction (R380). -/
theorem exec_smbus_nack (h : smbUp s d = true) (a v : Word) :
    exec (.setAddr d a false) s = .next (emit .smbNack s) ∧ exec (.read d false) s = .next (emit .smbNack s) ∧
      exec (.write d v false) s = .next (emit .smbNack s) ∧ exec (.status d false) s = .next (emit .smbNack s) := by
  simp only [exec, execSetAddr, execRead, execWrite, execStatus, h, Bool.not_true, Bool.not_false, Bool.false_eq_true, if_false, if_true, and_self]

theorem exec_setAddr (h : smbUp s d = true) (a : Word) :
    exec (.setAddr d a true) s = .next (emit .smbAck (modCmd (fun c => { c with smbOff := a, smbReset := false }) s)) := by
  simp only [exec, execSetAddr, h, Bool.not_true, Bool.false_eq_true, if_false]

theorem exec_status (h : smbUp s d = true) :
    exec (.status d true) s = .next (emit (.smbData (regWord [(0, b2n s.cmd.smbLive), (1, b2n s.cmd.smbDomOff), (2, b2n s.cmd.smbReset)])) s) := by
  simp only [exec, execStatus, h, Bool.not_true, Bool.false_eq_true, if_false]

/-- What a write leads to is noted for STATUS, and acknowledged wherever it led. -/
theorem exec_write (h : smbUp s d = true) (v : Word) :
    exec (.write d v true) s =
      .next (emit .smbAck (smbNote (busWrite .smbus s.cmd.smbOff.toNat v s).1 (busWrite .smbus s.cmd.smbOff.toNat v s).2)) := by
  simp only [exec, execWrite, h, Bool.not_true, Bool.false_eq_true, if_false]

/-- TIME_SET_LO is a live register, and a write of it goes to TIM alone (R349). -/
theorem busWrite_setLo (hm : mgmtUp s = true) {path : Path} {v : Word} :
    busWrite path 0x50020 v s = (.ok, modTim (fun m => { m with setLo := v }) s) :=
  busWrite_ok hm rfl (reachOf_island (by decide)) (takesGo_of_ne (by decide))

/-- A read of a live register, noted for STATUS. -/
theorem exec_read_ok (h : smbUp s d = true) (hm : mgmtUp s = true) (ha : s.cmd.smbOff.toNat % 4 = 0) (hr : reachOf s s.cmd.smbOff.toNat = .ok) :
    exec (.read d true) s = .next (emit (.smbData (peek .smbus (beforeRead s.cmd.smbOff.toNat s) s.cmd.smbOff.toNat))
      (smbNote .ok (readEffect .smbus s.cmd.smbOff.toNat 0 (beforeRead s.cmd.smbOff.toNat s)))) := by
  simp only [exec, execRead, h, Bool.not_true, Bool.false_eq_true, if_false, busRead_of_up hm, regRead, ha, if_true, regReadUpd_ok 0 hr]

/-- A read changes neither the memories nor links, contexts and queues. -/
theorem exec_read_frame {t : State} {ok : Bool} (h : exec (.read d ok) s = .next t) :
    t.mem = s.mem ∧ t.links = s.links ∧ t.ctxs = s.ctxs ∧ t.queues = s.queues := by
  have k : Only 0x120dffc3 s t := ((execRead_keeps (d := true) (L := 0x120dffc3) d ok (.refl _ _ s) rfl).of _ t h).only
  exact ⟨k.mem (by decide), k.links (by decide), k.ctxs (by decide), k.queues (by decide)⟩

theorem smbNote_smbOff (r : Reach) : (smbNote r s).cmd.smbOff = s.cmd.smbOff + 4 := rfl

/-- Beside what is sent, a noted access that changed the command unit alone has changed nothing else. -/
theorem smbNote_modCmd_frame (o : Out) (r : Reach) (f : CmdSt → CmdSt) :
    emit o (smbNote r (modCmd f s)) = { s with cmd := (emit o (smbNote r (modCmd f s))).cmd, out := o :: s.out } := rfl

theorem cmdCnt_smbOff (o n : Nat) : (cmdCnt o n s).cmd.smbOff = s.cmd.smbOff := rfl

end

/-- Settles O6: the four transactions one by one, then the NACK, then the other target's address. -/
theorem smbusCommands : Obligations.SmbusCommands := by
  intro s hm d
  refine ⟨fun hd => ?_, fun hd => exec_smbus_other (smbUp_other hd)⟩
  have hu : smbUp s d = true := smbUp_target hm hd
  refine ⟨fun a => exec_setAddr hu a, fun ha hr => ?read, fun v => ?write, exec_status hu, exec_smbus_nack hu⟩
  case read =>
    have hx := exec_read_ok hu hm ha hr
    refine ⟨_, hx, rfl, rfl, rfl, ?_, exec_read_frame hx⟩
    simp only [emit_cmd, smbNote_smbOff, readEffect_smbOff, beforeRead_cmd]
  case write =>
    refine ⟨_, exec_write hu v, rfl, fun ho => ?_, fun hr => ?_⟩
    · have hb : busWrite .smbus s.cmd.smbOff.toNat v s = (.ok, modTim (fun m => { m with setLo := v }) s) := by
        rw [ho]
        exact busWrite_setLo hm
      rw [hb]
      refine ⟨rfl, rfl, ?_⟩
      simp only [emit_cmd, smbNote_smbOff, modTim_cmd, ho]
      rfl
    · rw [busWrite_none hm hr]
      refine ⟨smbNote_modCmd_frame _ _ _, rfl, rfl, ?_⟩
      simp only [emit_cmd, smbNote_smbOff, cmdCnt_smbOff]

end Sys2Proof.Machine
end

section
/-! SUPPORT. A state that an operation leaves, written out from the state it began in: what the relation Keeps says of its parts, as one equation. -/

namespace Sys2Proof.Machine

/-- Part i of a state that differs from an earlier one in the parts L alone. -/
def part {α : Type} (L i : Nat) (new old : α) : α := bif L.testBit i then new else old

theorem part_eq {α : Type} {L i : Nat} {new old : α} (h : L.testBit i = false → new = old) : new = part L i new old := by
  unfold part
  cases hb : L.testBit i with
  | true => rfl
  | false => exact h hb

/-- With L a numeral, what stands on the right is s with the parts of L taken from t, by unfolding. -/
theorem Keeps.eq {d : Bool} {L : Nat} {s t : State} (h : Keeps d L s t) : t = { s with
    clock := part L 30 t.clock s.clock, free := part L 1 t.free s.free, out := part L 0 t.out s.out, rst := part L 2 t.rst s.rst,
    gctl := part L 3 t.gctl s.gctl, img := part L 4 t.img s.img, units := part L 5 t.units s.units, pwr := part L 6 t.pwr s.pwr,
    flt := part L 7 t.flt s.flt, evr := part L 8 t.evr s.evr, tim := part L 9 t.tim s.tim, cmd := part L 10 t.cmd s.cmd,
    dma := part L 11 t.dma s.dma, bpm := part L 12 t.bpm s.bpm, dbg := part L 13 t.dbg s.dbg, route := part L 14 t.route s.route,
    ports := part L 15 t.ports s.ports, strands := part L 16 t.strands s.strands, links := part L 17 t.links s.links, opt := part L 18 t.opt s.opt,
    swc := part L 19 t.swc s.swc, queues := part L 20 t.queues s.queues, scheds := part L 21 t.scheds s.scheds, pkts := part L 22 t.pkts s.pkts,
    nextPid := part L 23 t.nextPid s.nextPid, staging := part L 24 t.staging s.staging, red := part L 25 t.red s.red,
    ctxs := part L 26 t.ctxs s.ctxs, mgr := part L 27 t.mgr s.mgr, stackTbl := part L 28 t.stackTbl s.stackTbl, mem := part L 29 t.mem s.mem } := by
  cases t
  exact State.mk.injEq .. |>.mpr ⟨
    h.pending, part_eq h.only.clock, part_eq h.only.free, part_eq h.only.out, h.fuses, part_eq h.only.rst, part_eq h.only.gctl, part_eq h.only.img,
    part_eq h.only.units, part_eq h.only.pwr, part_eq h.only.flt, part_eq h.only.evr, part_eq h.only.tim, part_eq h.only.cmd, part_eq h.only.dma,
    part_eq h.only.bpm, part_eq h.only.dbg, part_eq h.only.route, part_eq h.only.ports, part_eq h.only.strands, part_eq h.only.links,
    part_eq h.only.opt, part_eq h.only.swc, part_eq h.only.queues, part_eq h.only.scheds, part_eq h.only.pkts, part_eq h.only.nextPid,
    part_eq h.only.staging, part_eq h.only.red, part_eq h.only.ctxs, part_eq h.only.mgr, part_eq h.only.stackTbl, part_eq h.only.mem⟩

end Sys2Proof.Machine
end

section
/-! SUPPORT. Contexts as an operation goes over them one by one, and the lapse of the paced ones (R302). -/

namespace Sys2Proof.Machine

/-! ## Contexts, one by one -/

section
variable {s : State} {k : Nat}

theorem ctxOf_modCtx_same (f : Ctx → Ctx) : ctxOf (modCtx k f s) k = (ctxOf s k).map f := tget_tmod_eq _ _ _ _

theorem ctxOf_modCtx_other {j : Nat} (f : Ctx → Ctx) (h : j ≠ k) : ctxOf (modCtx k f s) j = ctxOf s j := tget_tmod_ne _ _ _ h

/-- What a table holds under a key, but for the default, is one of its entries. -/
theorem mem_of_tget {α : Type} {d v : α} {t : Tbl α} (h : tget d t k = v) (hv : v ≠ d) : (k, v) ∈ t := by
  induction t with
  | nil => exact absurd h.symm hv
  | cons e r ih =>
    rw [tget] at h
    split at h
    · next hk =>
      subst hk h
      exact List.mem_cons_self
    · exact List.mem_cons_of_mem _ (ih h)

/-- A context is in one of the slots that are not free. -/
theorem mem_liveSlots {c : Ctx} (h : ctxOf s k = some c) : k ∈ liveSlots s :=
  List.mem_map.2 ⟨(k, some c), List.mem_filter.2 ⟨mem_of_tget h (Option.some_ne_none c), rfl⟩, rfl⟩

end

/-- g does u to the context of a slot, if there is one, and leaves every other context alone. -/
structure OneCtx (g : Nat → State → State) (u : Ctx → Ctx) : Prop where
  same : ∀ k s, ctxOf (g k s) k = (ctxOf s k).map u
  other : ∀ {j k} s, j ≠ k → ctxOf (g k s) j = ctxOf s j

section
variable {g : Nat → State → State} {u : Ctx → Ctx}

/-- Slots that have their turn more than once do no harm where u does nothing more to what it has done. -/
theorem OneCtx.each (hg : OneCtx g u) (hu : ∀ c, u (u c) = u c) (l : List Nat) (s : State) (k : Nat) :
    ctxOf (each l g s) k = if k ∈ l then (ctxOf s k).map u else ctxOf s k := by
  induction l generalizing s with
  | nil => rfl
  | cons a r ih =>
    have hstep : ctxOf (Machine.each (a :: r) g s) k = _ := ih (g a s)
    rw [hstep]
    by_cases hk : k = a
    · subst hk
      have htwice : u ∘ u = u := funext hu
      simp only [hg.same, Option.map_map, htwice, ite_self, List.mem_cons_self, if_true]
    · simp only [hg.other s hk, List.mem_cons, hk, false_or]

theorem OneCtx.each_liveSlots (hg : OneCtx g u) (hu : ∀ c, u (u c) = u c) (s : State) (k : Nat) :
    ctxOf (Machine.each (liveSlots s) g s) k = (ctxOf s k).map u := by
  rw [hg.each hu]
  cases h : ctxOf s k with
  | none => exact ite_self _
  | some c => exact if_pos (mem_liveSlots h)

end

/-! ## The lapse -/

theorem logEvent_ctxs (code blk inst : Nat) (det : List Byte) (s : State) : (logEvent code blk inst det s).ctxs = s.ctxs :=
  (logEvent_keeps (d := true) (L := 0x2581) code blk inst det (.refl _ _ s) rfl).only.ctxs (by decide)

/-- A context with LAPSED set for a reason. -/
def withLapse (reason : Nat) (c : Ctx) : Ctx := { c with lapsed := true, lapseReason := BitVec.ofNat 4 reason }

/-- Beside the one context, setLapsed counts and logs. -/
theorem setLapsed_ctxs {s : State} {k : Nat} {c : Ctx} (reason : Nat) (h : ctxOf s k = some c) :
    (setLapsed k reason s).ctxs = (modCtx k (withLapse reason) s).ctxs := by
  simp only [setLapsed, h, logEvent_ctxs]
  cases c.spec.isRoot <;> rfl

/-- What the lapse of those paced contexts for which f holds does to a context. -/
def lapse (f : Ctx → Bool) (reason : Nat) (c : Ctx) : Ctx := if isPaced c && f c && !c.lapsed then withLapse reason c else c

section
variable {f : Ctx → Bool} {reason : Nat} {c : Ctx}

theorem lapse_of_not (h : ¬ (isPaced c && f c && !c.lapsed) = true) : lapse f reason c = c := if_neg h

theorem lapse_of_lapsed (h : c.lapsed = true) : lapse f reason c = c := lapse_of_not (by
  rw [h, Bool.not_true, Bool.and_false]
  exact Bool.false_ne_true)

theorem lapse_lapse : lapse f reason (lapse f reason c) = lapse f reason c := by
  by_cases h : (isPaced c && f c && !c.lapsed) = true
  · rw [show lapse f reason c = withLapse reason c from if_pos h]
    exact lapse_of_lapsed rfl
  · rw [lapse_of_not h, lapse_of_not h]

/-- A paced context for which f holds has lapsed afterwards, for the reason given where it had not before. -/
theorem lapse_paced (hp : isPaced c = true) (hf : f c = true) :
    (lapse f reason c).lapsed = true ∧ (c.lapsed = false → (lapse f reason c).lapseReason = BitVec.ofNat 4 reason) := by
  cases hc : c.lapsed with
  | true =>
    rw [lapse_of_lapsed hc]
    exact ⟨hc, nofun⟩
  | false =>
    rw [show lapse f reason c = withLapse reason c from if_pos (by rw [hp, hf, hc, Bool.and_self, Bool.not_false, Bool.and_self])]
    exact ⟨rfl, fun _ => rfl⟩

end

theorem ctxOf_lapseAll (f : Ctx → Bool) (reason : Nat) (s : State) (k : Nat) :
    ctxOf (lapseAll f reason s) k = (ctxOf s k).map (lapse f reason) := by
  refine OneCtx.each_liveSlots ⟨fun k s => ?_, fun {j k} s hj => ?_⟩ (fun _ => lapse_lapse) s k
  · cases h : ctxOf s k with
    | none => exact h
    | some c =>
      dsimp only
      split
      · next hl =>
        rw [ctxOf, setLapsed_ctxs reason h]
        exact (ctxOf_modCtx_same _).trans (by rw [h, Option.map_some, Option.map_some, lapse, if_pos hl])
      · next hl => rw [h, Option.map_some, lapse_of_not hl]
  · cases h : ctxOf s k with
    | none => rfl
    | some c =>
      dsimp only
      split
      · rw [ctxOf, setLapsed_ctxs reason h]
        exact ctxOf_modCtx_other _ hj
      · rfl

/-- Of the other parts the lapse touches the recorder's and the counters of the reduction dies. -/
theorem keeps_lapseAll (f : Ctx → Bool) (reason : Nat) (s : State) : Keeps true 0x6002581 s (lapseAll f reason s) :=
  lapseAll_keeps f reason (.refl _ _ s) rfl

theorem lapseAll_pwr (f : Ctx → Bool) (reason : Nat) (s : State) : (lapseAll f reason s).pwr = s.pwr :=
  (keeps_lapseAll f reason s).only.pwr (by decide)

end Sys2Proof.Machine
end

section
/-! Performance points (R22), and the lapse of the paced groups with a ramp and with a hot die (R302). -/

namespace Sys2Proof.Machine

section
variable {s : State} {pt : BitVec 2}

/-! ## A write of POINT -/

theorem exec_pointWrite (hm : mgmtUp s = true) (ha : alive s = true) : exec (.pointWrite pt) s = .next (pointPut pt s) := by
  simp only [exec, execPointWrite, hm, ha, Bool.and_self, if_true]

/-- A ramp to the point is begun. -/
theorem pointPut_other (hs : s.pwr.state = .run) (hr : s.pwr.ramping = false) (hp : pt ≠ s.pwr.cur) :
    pointPut pt s = startRamp pt (modPwr (fun p => { p with point := pt }) s) := by
  simp only [pointPut, hs, hr, hp, Bool.false_eq_true, if_false]

/-- The point in force already is recorded. -/
theorem pointPut_inForce (hs : s.pwr.state = .run) (hr : s.pwr.ramping = false) (hp : pt = s.pwr.cur) :
    pointPut pt s = { s with pwr := { s.pwr with point := pt } } := by
  simp only [pointPut, hs, hr, hp, Bool.false_eq_true, if_false, if_true, modPwr]

/-- In a ramp, and outside Run, the request is held. -/
theorem pointPut_held (h : s.pwr.state ≠ .run ∨ s.pwr.ramping = true) :
    pointPut pt s = { s with pwr := { s.pwr with point := pt, heldPoint := some pt } } := by
  cases hs : s.pwr.state with
  | run =>
    have hr : s.pwr.ramping = true := h.resolve_left (not_not_intro hs)
    simp only [pointPut, hs, hr, if_true, modPwr]
  | quiet => simp only [pointPut, hs, modPwr]
  | hold => simp only [pointPut, hs, modPwr]

/-! ## A ramp -/

theorem startRamp_pwr : (startRamp pt s).pwr = { s.pwr with ramping := true, rampTo := pt, rampAt := s.clock } := lapseAll_pwr _ _ _

theorem ctxOf_startRamp (k : Nat) : ctxOf (startRamp pt s) k = (ctxOf s k).map (lapse (fun _ => true) 1) := ctxOf_lapseAll _ _ _ k

theorem keeps_startRamp : Keeps true 0x60025c1 s (startRamp pt s) := startRamp_keeps pt (.refl _ _ s) rfl

/-- A ramp that ends: its point is in force, and the time up to its end is charged to the device state there was. -/
def rampOver (s : State) : State :=
  modPwr (fun p => { p with ramping := false, cur := p.rampTo }) (resMark (clockTo (s.pwr.rampAt + rampNs s.pwr.cur s.pwr.rampTo) s))

theorem exec_rampEnd_idle (hr : s.pwr.ramping = false) : exec .rampEnd s = .next s := by
  simp only [exec, execRampEnd, hr, Bool.not_false, Bool.or_true, if_true]

section
variable (ha : alive s = true) (hr : s.pwr.ramping = true)
include ha hr

/-- With no point held, or outside Run, that is all. -/
theorem exec_rampEnd_noneHeld (h : s.pwr.heldPoint = none ∨ s.pwr.state ≠ .run) : exec .rampEnd s = .next (rampOver s) := by
  have hnone : (if s.pwr.state == .run then s.pwr.heldPoint else none) = none := by
    rcases h with h | h
    · rw [h, ite_self]
    · exact if_neg (by rwa [beq_iff_eq])
  simp only [exec, execRampEnd, ha, hr, Bool.not_true, Bool.or_self, Bool.false_eq_true, if_false, resMark, modPwr_pwr, clockTo_pwr, hnone, rampOver]

/-- In Run a ramp to a held other point is begun. -/
theorem exec_rampEnd_held (hs : s.pwr.state = .run) (hh : s.pwr.heldPoint = some pt) (hp : pt ≠ s.pwr.rampTo) :
    exec .rampEnd s = .next (startRamp pt (modPwr (fun p => { p with heldPoint := none }) (rampOver s))) := by
  simp only [exec, execRampEnd, ha, hr, Bool.not_true, Bool.or_self, Bool.false_eq_true, if_false, resMark, modPwr_pwr, clockTo_pwr, hs, hh, hp, rampOver,
    beq_self_eq_true, if_true]

end

end

/-! ## The temperature of a die -/

/-- The junction temperature of a die, as recorded. -/
def withTemp (die : Fin 8) (temp : Byte) (s : State) : State := modPwr (fun p => { p with tj := tset 0 p.tj die temp }) s

/-- What a measured temperature leads to. -/
def measured (die : Fin 8) (temp : Byte) (s : State) : State :=
  if temp.toNat > 95 ∧ envelopeDie s die then lapseAll (fun _ => true) 2 (withTemp die temp s) else withTemp die temp s

section
variable {s : State} {die : Fin 8} {temp : Byte}

theorem exec_paceLapseTemperature (ha : alive s = true) : exec (.paceLapseTemperature die temp) s = .next (measured die temp s) := by
  simp only [exec, execPaceLapseTemperature, ha, Bool.not_true, Bool.false_eq_true, if_false]
  rfl

theorem measured_pwr : (measured die temp s).pwr = { s.pwr with tj := tset 0 s.pwr.tj die temp } := by
  unfold measured
  split
  · exact lapseAll_pwr _ _ _
  · rfl

/-- Up to 95 °C, and on a reduction die that is not enabled, the temperature is recorded and no more (R301, R302). -/
theorem measured_cool (h : temp.toNat ≤ 95 ∨ 4 ≤ die.val ∧ redEnabled s (die - 4) = false) : measured die temp s = withTemp die temp s := by
  refine if_neg fun ⟨hot, hdie⟩ => ?_
  rcases h with h | ⟨hred, hoff⟩
  · omega
  · simp only [envelopeDie, hoff, Bool.or_false, decide_eq_true_eq] at hdie
    omega

theorem ctxOf_measured_hot (hot : 95 < temp.toNat) (hdie : die.val < 4 ∨ redEnabled s (die - 4) = true) (k : Nat) :
    ctxOf (measured die temp s) k = (ctxOf s k).map (lapse (fun _ => true) 2) := by
  have henv : envelopeDie s die = true := by simpa only [envelopeDie, Bool.or_eq_true, decide_eq_true_eq] using hdie
  rw [measured, if_pos ⟨hot, henv⟩]
  exact ctxOf_lapseAll _ _ _ k

end

/-- Settles O47: the write of POINT, the end of a ramp and the hot die, each by what it does to the power block and what the lapse does to a context. -/
theorem performancePoints : Obligations.PerformancePoints := by
  intro s hm ha
  refine ⟨fun pt => ⟨fun hs hr hp => ?inForce, fun h => ?held, fun hs hr hp => ?ramp⟩, exec_rampEnd_idle,
    fun hr => ⟨fun h => ?rampEnd, fun pt hs hh hp => ?rampOn⟩, fun die temp => ?temperature⟩
  case inForce => rw [exec_pointWrite hm ha, pointPut_inForce hs hr hp]
  case held => rw [exec_pointWrite hm ha, pointPut_held h]
  case ramp =>
    refine ⟨_, (exec_pointWrite hm ha).trans (congrArg _ (pointPut_other hs hr hp)), startRamp_pwr, fun k c hc hpaced => ?_, keeps_startRamp.eq⟩
    exact ⟨_, (ctxOf_startRamp k).trans (congrArg _ hc), (lapse_paced hpaced rfl).1⟩
  case rampEnd => exact ⟨_, exec_rampEnd_noneHeld ha hr h, rfl⟩
  case rampOn =>
    refine ⟨_, exec_rampEnd_held ha hr hs hh hp, ?_⟩
    rw [startRamp_pwr]
    exact ⟨rfl, rfl, rfl, rfl⟩
  case temperature =>
    refine ⟨_, exec_paceLapseTemperature ha, ?_, fun j hj => ?_, fun h => ?_, fun hot hdie k c hc hpaced => ?_⟩
    · rw [measured_pwr, tget_tset_eq]
    · rw [measured_pwr, tget_tset_ne _ _ _ hj]
    · rw [measured_cool h]
      rfl
    · exact ⟨_, (ctxOf_measured_hot hot hdie k).trans (congrArg _ hc), lapse_paced hpaced rfl⟩

end Sys2Proof.Machine
end

section
/-! SUPPORT. The phases of the start-up, and what a check and a load of an image read and change (R356 to R364). -/

namespace Sys2Proof.Machine

section
variable {s : State}

/-! ## Vectors and phases -/

/-- A raised vector is sent or pending, and nothing is sent while Bus Master Enable is clear (R378). -/
theorem raiseVec_eq (v : Nat) (s : State) :
    ∃ pba out, raiseVec v s = { s with cmd := { s.cmd with pba := pba }, out := out } ∧ (s.cmd.bme = false → out = s.out) := by
  unfold raiseVec
  split
  · split
    · next hb =>
      refine ⟨_, _, rfl, fun h => ?_⟩
      rw [h] at hb
      cases hb
    · exact ⟨_, _, rfl, fun _ => rfl⟩
  · exact ⟨_, _, rfl, fun _ => rfl⟩

theorem toPhase_eq (p : StartPhase) (s : State) :
    ∃ pba out, toPhase p s = { s with rst := { s.rst with phase := p }, cmd := { s.cmd with pba := pba }, out := out } ∧ (s.cmd.bme = false → out = s.out) :=
  raiseVec_eq 45 (modRst (fun r => { r with phase := p }) s)

theorem toPhase_rst (p : StartPhase) (s : State) : (toPhase p s).rst = { s.rst with phase := p } := by
  obtain ⟨_, _, e, -⟩ := toPhase_eq p s
  rw [e]

theorem keeps_logMb (code : Nat) (det : List Byte) (s : State) : Keeps true 0x2581 s (logMb code det s) := logMb_keeps code det (.refl _ _ s) rfl

/-! ## The six checks -/

/-- Of the state, check 6 reads the ports. -/
theorem contentCheck_ports (sc : State) (f : FlashRead) : contentCheck sc f = contentCheck { State.reset with ports := sc.ports } f := rfl

/-- Those are the image's own, so the state does not matter. -/
theorem contentFail_eq (s t : State) (f : FlashRead) : contentFail s f = contentFail t f :=
  (contentCheck_ports (loadPorts f.content s) f).trans (contentCheck_ports (loadPorts f.content t) f).symm

/-- Check 5 reads the fuses. -/
theorem sigOk_fuses (s : State) (f : FlashRead) : sigOk s f = sigOk { State.reset with fuses := s.fuses } f := rfl

/-- The fuses are all of the state that the checks of an image turn on (R358, R359). -/
theorem imageFail_of_fuses {t : State} (f : FlashRead) (h : t.fuses = s.fuses) : imageFail t f = imageFail s f := by
  have hsig : sigOk t f = sigOk s f := by
    rw [sigOk_fuses t, h]
    exact (sigOk_fuses s f).symm
  simp only [imageFail, hsig, contentFail_eq t s f]

theorem imageFail_unreadable {f : FlashRead} (h : f.readOk = false) : imageFail s f = some (6, 0, 255) := by
  simp only [imageFail, headFail, h, Bool.not_false, if_true]

/-! ## The load -/

/-- A Skarad that has the image's content and its identity (R356, R371). -/
def withIdentity (f : FlashRead) (s : State) : State :=
  let c := f.content
  { s with
    img := some c
    gctl := { s.gctl with
      fabricId := c.fabricId, ownId := c.ownId, coordImg := c.coord, coord := c.coord, mgrCoord := c.mgrCoord, mgrId := c.mgrId, sbyCoord := c.sbyCoord
      sbyId := c.sbyId, mgrWaitMs := c.mgrWaitMs, signed := imgSigned f && s.fuses.keyHash.isSome } }

/-- Beside those, the load fills other registers and tables. -/
theorem loadImage_keeps_identity {d : Bool} {L : Nat} {s0 : State} (f : FlashRead) (hs : Keeps d L s0 (withIdentity f s)) (m : May 0x83cc740 L) :
    Keeps d L s0 (loadImage f s) := by
  unfold loadImage
  extract_lets c imaged named ports routed parted classed shaped prog copied timed powered
  have hrouted : Keeps d L s0 routed :=
    each_keeps (fun _ _ h => each_keeps (fun _ _ h => loadRoute_keeps _ _ h (m.sub rfl)) h) (loadPorts_keeps c hs (m.sub rfl))
  have hclassed : Keeps d L s0 classed :=
    loadClasses_keeps _ (each_keeps (fun _ _ h => modSwc_keeps _ _ h (m.sub rfl)) hrouted) (m.sub rfl)
  have hshaped : Keeps d L s0 shaped := by
    unfold shaped
    split
    · exact each_keeps (fun _ _ h => each_keeps (fun _ _ h => policerPut_keeps _ _ _ _ h (m.sub rfl)) h) (each_keeps (fun _ _ h => shaperPut_keeps _ _ h (m.sub rfl)) hclassed)
    · exact hclassed
  have hcopied : Keeps d L s0 copied := modCmd_keeps _ hshaped (m.sub rfl)
  have htimed : Keeps d L s0 timed := by
    unfold timed
    split
    · exact modTim_keeps _ hcopied (m.sub rfl)
    · exact hcopied
  have hpowered : Keeps d L s0 powered := by
    unfold powered
    split
    · exact modPwr_keeps _ htimed (m.sub rfl)
    · exact htimed
  split
  · exact modEvr_keeps _ (modMgr_keeps _ (clearCtlPut_keeps _ (each_keeps (fun _ _ h => modOpt_keeps _ _ h (m.sub rfl)) hpowered) (m.sub rfl)) (m.sub rfl)) (m.sub rfl)
  · exact hpowered

theorem keeps_powerUp (s : State) : Keeps true 0x32001445 s (powerUp s) := powerUp_keeps (.refl _ _ s) rfl

theorem powerUp_rst (s : State) : (powerUp s).rst = { s.rst with wave := 0, phase := .power } := by
  unfold powerUp
  extract_lets pointed on red sharded
  have hsharded : Keeps true 0x32000040 s sharded :=
    each_keeps (fun _ _ h => Keeps.ite (modRed_keeps _ _ h rfl) h) (each_keeps (fun _ _ h => domUp_keeps _ h rfl) (modPwr_keeps _ (.refl _ _ s) rfl))
  have hpools (y : State) : (loadPools red y).rst = y.rst := (loadPools_keeps (d := true) (L := 0x1000) red (.refl _ _ y) rfl).only.rst (by decide)
  rw [hpools, toPhase_rst, modRst_rst, hsharded.only.rst (by decide)]

end

end Sys2Proof.Machine
end

section
/-! From the release of reset to the loading of an image (R26, R352, R361 to R364). -/

namespace Sys2Proof.Machine

section
variable {s : State}

/-! ## The release of reset -/

/-- The straps are sampled and the islands are out of reset (R361); the key fused decides the JTAG level (R395). -/
def sampled (straps : Straps) (s : State) : State :=
  modCmd (fun k => { k with jtagLevel := if s.fuses.jtagKey.isNone then 1 else 0 })
    (modRst (fun r => { r with held := false, t0 := s.clock, bootSel := straps.bootSel, roleSel := straps.roleSel, addrSel := straps.addrSel }) s)

/-- The islands that are up, MB0 the active one where it is up (R11). -/
def withIslands (mb0 mb1 : Bool) (s : State) : State :=
  modUnits (fun u => { u with mb0Ok := mb0, mb1Ok := mb1, active := if mb0 then .mb0 else .mb1 }) s

section
variable (straps : Straps) (mb0 mb1 : Bool)

theorem exec_resetRelease_off (rails : Bool) (h : s.rst.held = false) : exec (.resetRelease straps rails mb0 mb1) s = .next s := by
  simp only [exec, execResetRelease, h, Bool.not_false, if_true]

/-- Bad rails are fatal cause 2 (R476). -/
theorem exec_resetRelease_rails (h : s.rst.held = true) : exec (.resetRelease straps false mb0 mb1) s =
    .next (modFlt (fun f => { f with fatal := true, cause := 2, faultAt := s.clock, faultN := true }) (sampled straps s)) := by
  simp only [exec, execResetRelease, h, Bool.not_true, Bool.false_eq_true, Bool.not_false, if_false, if_true]
  rfl

/-- With neither island up the Skarad is held again (R26). -/
theorem exec_resetRelease_noIsland (h : s.rst.held = true) : exec (.resetRelease straps true false false) s =
    .next (modFlt (fun f => { f with faultN := true })
      (modRst (fun r => { r with held := true, phase := .noStart, failReason := 3 }) (withIslands false false (sampled straps s)))) := by
  simp only [exec, execResetRelease, h, Bool.not_true, Bool.false_eq_true, Bool.not_false, Bool.and_self, if_false, if_true]
  rfl

/-- With an island up the flash is looked for, and the override window is open (R361, R367). -/
theorem exec_resetRelease_island (h : s.rst.held = true) (hmb : (mb0 || mb1) = true) : exec (.resetRelease straps true mb0 mb1) s =
    .next (toPhase .flash (modRst (fun r => { r with windowOpen := true }) (withIslands mb0 mb1 (sampled straps s)))) := by
  have hup : (!mb0 && !mb1) = false := by rw [← Bool.not_or, hmb, Bool.not_true]
  simp only [exec, execResetRelease, h, hup, Bool.not_true, Bool.false_eq_true, if_false]
  rfl

end

/-! ## The flash -/

section
variable {f : Sfdp} (ha : alive s = true) (hp : s.rst.phase = .flash)
include ha hp

theorem exec_flashDiscoveryDone_fit (h : f.signature = true ∧ 128 ≤ f.densityMiB ∧ f.read8d = true ∧ f.erase64k = true) :
    exec (.flashDiscoveryDone f) s = .next (toPhase .load (modRst (fun r => { r with copyAt := r.t0 + 4000000 }) s)) := by
  obtain ⟨hsig, hsize, hread, herase⟩ := h
  simp only [exec, execFlashDiscoveryDone, ha, hp, hsig, hsize, hread, herase, Bool.not_true, ne_eq, not_true, decide_false, Bool.or_self,
    Bool.false_eq_true, if_false, decide_true, Bool.and_self, if_true]

theorem exec_flashDiscoveryDone_unfit (h : f.signature = false ∨ f.densityMiB < 128 ∨ f.read8d = false ∨ f.erase64k = false) :
    exec (.flashDiscoveryDone f) s = .next (logMb 0x7001 [] (toPhase .noStart (modRst (fun r => { r with failReason := 1 }) s))) := by
  have hunfit : (f.signature && decide (f.densityMiB ≥ 128) && f.read8d && f.erase64k) = false := by
    rcases h with hsig | hsize | hread | herase
    · rw [hsig, Bool.false_and, Bool.false_and, Bool.false_and]
    · rw [decide_eq_false (Nat.not_le_of_lt hsize), Bool.and_false, Bool.false_and, Bool.false_and]
    · rw [hread, Bool.and_false, Bool.false_and]
    · rw [herase, Bool.and_false]
  simp only [exec, execFlashDiscoveryDone, ha, hp, hunfit, Bool.not_true, ne_eq, not_true, decide_false, Bool.or_self, Bool.false_eq_true, if_false]

end

/-! ## A copy of the image -/

/-- Copy A as it stands once it has been read. -/
def readA (f : FlashRead) (s : State) : State := setGen .copyA f (clockTo (copyEnd s f) s)

theorem keeps_readA (f : FlashRead) (s : State) : Keeps true 0x4 (clockTo (copyEnd s f) s) (readA f s) := setGen_keeps .copyA f (.refl _ _ _) rfl

theorem readA_clock (f : FlashRead) (s : State) : (readA f s).clock = max s.clock (copyEnd s f) := (keeps_readA f s).only.clock (by decide)

/-- What the checks say of it does not turn on the time they take. -/
theorem imageFail_readA (f : FlashRead) (s : State) : imageFail (readA f s) f = imageFail (setGen .copyA f s) f := by
  have hgen : (setGen .copyA f s).fuses = s.fuses := (setGen_keeps (d := true) (L := 0x4) .copyA f (.refl _ _ s) rfl).fuses
  exact imageFail_of_fuses f ((keeps_readA f s).fuses.trans hgen.symm)

/-! ### A copy accepted -/

section
variable (f : FlashRead) (first : BitVec 4) (s : State)

/-- The result, the load and the clock of t_L (R360, R364). -/
def acceptedA : State :=
  modRst (fun r => { r with loaded := 1, fellBack := first != 0, tL := s.clock, tLoaded := BitVec.ofNat 16 ((s.clock - r.t0) / 1000000) })
    (setResult .copyA 1 0 s)

/-- The image is loaded, fabric time starts from 0 (R339), and a copy that failed before is noted (R363). -/
def loadedA : State :=
  iff (first != 0) (logMb 0x7003 ([0, first.setWidth 8] ++ bytesLE 4 (imgGen f)))
    (modTim (fun m => { m with running := true, base := 0, baseAt := s.clock }) (loadImage f (acceptedA first s)))

theorem acceptCopy_A : acceptCopy .copyA f first s = powerUp (loadedA f first s) := rfl

/-- All that leaves the identity that the image gives. -/
theorem keeps_loadedA : Keeps true 0x83ce7c1 (withIdentity f (acceptedA first s)) (loadedA f first s) :=
  iff_keeps _ (fun _ h => logMb_keeps _ _ h rfl) (modTim_keeps _ (loadImage_keeps_identity f (.refl _ _ _) rfl) rfl)

theorem acceptCopy_A_rst : (acceptCopy .copyA f first s).rst = { (acceptedA first s).rst with wave := 0, phase := .power } := by
  rw [acceptCopy_A, powerUp_rst, (keeps_loadedA f first s).only.rst (by decide)]
  rfl

/-- Neither the load nor the power-up takes time, and both leave the identity of the image (R356, R364). -/
theorem acceptCopy_A_parts : (acceptCopy .copyA f first s).clock = s.clock ∧ (acceptCopy .copyA f first s).img = some f.content ∧
    (acceptCopy .copyA f first s).gctl = (withIdentity f s).gctl := by
  have hp := (keeps_powerUp (loadedA f first s)).only
  have hl := (keeps_loadedA f first s).only
  rw [acceptCopy_A]
  exact ⟨(hp.clock (by decide)).trans (hl.clock (by decide)), (hp.img (by decide)).trans (hl.img (by decide)),
    (hp.gctl (by decide)).trans (hl.gctl (by decide))⟩

end

/-! ### A copy refused -/

theorem keeps_copyFailed (c : ImgCopy) (e : Nat × Nat × Nat) (s : State) : Keeps true 0x2585 s (copyFailed c e s) := copyFailed_keeps c e (.refl _ _ s) rfl

theorem copyFailed_rst (c : ImgCopy) (e : Nat × Nat × Nat) (s : State) : (copyFailed c e s).rst = (setResult c e.1 e.2.1 s).rst :=
  (keeps_logMb _ _ _).only.rst (by decide)

/-- Copy A could not be read; the reading of the next copy begins at once (R360, R364). -/
def unreadableA (f : FlashRead) (s : State) : State :=
  modRst (fun r => { r with copyAt := max s.clock (copyEnd s f) }) (copyFailed .copyA (6, 0, 255) (clockTo (copyEnd s f) s))

section
variable (f : FlashRead) (s : State)

theorem keeps_unreadableA : Keeps true 0x2585 (clockTo (copyEnd s f) s) (unreadableA f s) :=
  modRst_keeps _ (by exact fun _ h => h) (keeps_copyFailed _ _ _) rfl

theorem unreadableA_clock : (unreadableA f s).clock = max s.clock (copyEnd s f) := (keeps_unreadableA f s).only.clock (by decide)

theorem unreadableA_rst : (unreadableA f s).rst = { s.rst with resultA := 6, typeA := 0, copyAt := max s.clock (copyEnd s f) } := by
  rw [unreadableA, modRst_rst, copyFailed_rst]
  rfl

end

theorem keeps_imageFailed (s : State) : Keeps true 0x485 s (imageFailed s) := imageFailed_keeps (.refl _ _ s) rfl

theorem imageFailed_rst (s : State) : (imageFailed s).rst = { s.rst with failReason := 2, phase := .imageFail } := toPhase_rst _ _

/-! ### The choice -/

section
variable {f other : FlashRead} (hb : s.rst.bootSel = 0)

include hb in
theorem copyOpen_of_bootSel (c : ImgCopy) (f : FlashRead) : copyOpen s c f = (resultOf s c == 0) := by
  have hlow : decide (s.rst.bootSel.toNat < 2) = true := by
    rw [hb]
    rfl
  rw [copyOpen, hlow, Bool.true_or, Bool.and_true]

include hb in
/-- Under BOOT_SEL 0 copy A is the first to be tried (R362). -/
theorem nextCopy_A (h : s.rst.resultA = 0) : nextCopy s f other = some .copyA := by
  simp only [nextCopy, copyOpen_of_bootSel hb, resultOf, h, hb, beq_self_eq_true]
  cases s.rst.resultB == 0 <;> rfl

include hb in
theorem nextCopy_B (h : s.rst.resultA ≠ 0) : nextCopy s f other = if s.rst.resultB = 0 then some .copyB else none := by
  simp only [nextCopy, copyOpen_of_bootSel hb, resultOf, beq_eq_false_iff_ne.2 h]
  by_cases hB : s.rst.resultB = 0
  · simp only [hB, beq_self_eq_true, if_true]
  · simp only [beq_eq_false_iff_ne.2 hB, if_neg hB]

theorem exec_imageCopyCheck_A (ha : alive s = true) (hp : s.rst.phase = .load) :
    exec (.imageCopyCheck .copyA f other) s = .next (checkCopy .copyA f other s) := by
  simp only [exec, execImageCopyCheck, ha, hp, Bool.not_true, ne_eq, not_true, decide_false, Bool.or_self, Bool.false_eq_true, if_false]

variable (hA : s.rst.resultA = 0)
include hb hA

theorem checkCopy_A_accepted (h : imageFail (readA f s) f = none) :
    checkCopy .copyA f other s = acceptCopy .copyA f s.rst.resultB (readA f s) := by
  have hone : (!decide (s.rst.bootSel.toNat ≥ 2)) = true := by rw [hb]; rfl
  simp only [readA] at h
  simp only [checkCopy, nextCopy_A hb hA, ne_eq, not_true, if_false, hone, if_true, h]
  rfl

theorem checkCopy_A_unreadable (h : f.readOk = false) :
    checkCopy .copyA f other s = if s.rst.resultB = 0 then unreadableA f s else imageFailed (unreadableA f s) := by
  have hone : (!decide (s.rst.bootSel.toNat ≥ 2)) = true := by rw [hb]; rfl
  have hgen (y : State) : setGen .copyA f y = y := by simp only [setGen, h, Bool.false_eq_true, if_false]
  have hnext : nextCopy (unreadableA f s) f other = if s.rst.resultB = 0 then some .copyB else none := by
    have hrst := unreadableA_rst f s
    have hres : (unreadableA f s).rst.resultB = s.rst.resultB := by rw [hrst]
    rw [nextCopy_B (by rw [hrst]; exact hb) (by rw [hrst]; exact (by decide : (6 : BitVec 4) ≠ 0)), hres]
  have hrun : checkCopy .copyA f other s =
      if (nextCopy (unreadableA f s) f other).isNone then imageFailed (unreadableA f s) else unreadableA f s := by
    simp only [checkCopy, nextCopy_A hb hA, ne_eq, not_true, if_false, hone, if_true, hgen, imageFail_unreadable h, clockTo_clock, unreadableA]
    rfl
  rw [hrun, hnext]
  split <;> rfl

end

end

/-- Settles O15: what the release of reset, the flash discovery and the check of copy A each come to, case by case. -/
theorem startOfTheDevice : Obligations.StartOfTheDevice := by
  refine ⟨fun straps mb0 mb1 s h hmb => ?island, fun straps mb0 mb1 s h => ?rails, fun straps s h => ?noIsland,
    fun straps rails mb0 mb1 s h => exec_resetRelease_off straps mb0 mb1 rails h, fun f s ha hp => ⟨fun h => ?fit, fun h => ?unfit⟩,
    fun f other s ha hp hb hA => ⟨fun h => ?accepted, fun h hB => ?nextIsB, fun h hB => ?bothFailed⟩⟩
  case island =>
    obtain ⟨pba, out, e, hsilent⟩ := toPhase_eq .flash (modRst (fun r => { r with windowOpen := true }) (withIslands mb0 mb1 (sampled straps s)))
    exact ⟨_, (exec_resetRelease_island straps mb0 mb1 h hmb).trans (congrArg _ e), rfl, hsilent, rfl, rfl, rfl, rfl, rfl, rfl, rfl, rfl, rfl, rfl, rfl⟩
  case rails => exact ⟨_, exec_resetRelease_rails straps mb0 mb1 h, rfl, rfl, rfl, rfl, rfl⟩
  case noIsland => exact ⟨_, exec_resetRelease_noIsland straps h, rfl, rfl, rfl, rfl, rfl, rfl⟩
  case fit =>
    obtain ⟨pba, out, e, hsilent⟩ := toPhase_eq .load (modRst (fun r => { r with copyAt := r.t0 + 4000000 }) s)
    exact ⟨_, (exec_flashDiscoveryDone_fit ha hp h).trans (congrArg _ e), rfl, hsilent⟩
  case unfit =>
    refine ⟨_, exec_flashDiscoveryDone_unfit ha hp h, ?_, ?_⟩
    · rw [(keeps_logMb _ _ _).only.rst (by decide), toPhase_rst, modRst_rst]
    · exact (logMb_keeps (L := 0x2585) _ _ (toPhase_keeps _ (modRst_keeps (d := true) _ (by exact fun _ h => h) (.refl _ _ s) rfl) rfl) rfl).eq
  case accepted =>
    have hok : imageFail (readA f s) f = none := (imageFail_readA f s).trans h
    obtain ⟨hclock, himg, hgctl⟩ := acceptCopy_A_parts f s.rst.resultB (readA f s)
    refine ⟨_, (exec_imageCopyCheck_A ha hp).trans (congrArg _ (checkCopy_A_accepted hb hA hok)), ?_⟩
    rw [acceptCopy_A_rst, hclock, himg, hgctl]
    exact ⟨rfl, rfl, rfl, readA_clock f s, rfl, rfl, rfl, rfl, rfl⟩
  case nextIsB =>
    have k := (keeps_unreadableA f s).only
    refine ⟨_, (exec_imageCopyCheck_A ha hp).trans (congrArg _ ((checkCopy_A_unreadable hb hA h).trans (if_pos hB))), ?_⟩
    rw [unreadableA_rst, unreadableA_clock]
    exact ⟨rfl, rfl, rfl, hB, hp, rfl, k.img (by decide), k.gctl (by decide), k.pwr (by decide)⟩
  case bothFailed =>
    have k := (keeps_unreadableA f s).only
    have kf := (keeps_imageFailed (unreadableA f s)).only
    refine ⟨_, (exec_imageCopyCheck_A ha hp).trans (congrArg _ ((checkCopy_A_unreadable hb hA h).trans (if_neg hB))), ?_⟩
    rw [imageFailed_rst, unreadableA_rst]
    exact ⟨rfl, rfl, rfl, (kf.img (by decide)).trans (k.img (by decide)), (kf.gctl (by decide)).trans (k.gctl (by decide)),
      (kf.pwr (by decide)).trans (k.pwr (by decide))⟩

end Sys2Proof.Machine
end

section
/-! The loss of parts (R153, R157, R420): the discarding of a queued packet can make a mirror copy, and routing that copy moves a pointer of the route tables. -/

namespace Sys2Proof.Machine

/-- A Skarad in service whose queue 0 of port 0 holds one packet. Session 0 of die 0 mirrors what is dropped on egress at port 0 (ON_DROP), to
identifier 0, which die 0 routes to a set of two members, sub-links of die 1, the first of them ACTIVE. -/
def mirroredLoss : State := { State.reset with
  rst := { held := false }
  gctl := { ownId := 1 }
  ports := [(0, { enabled := true })]
  links := [(288, { st := .active })]
  queues := [(0, { ents := [{ pid := 0, guar := true, cut := false, sent := 0, linkedAt := 0, granted := false }] })]
  pkts := [(0, some { hdr := 0, exts := [], body := [], pos := none, vc := 0, stamp := 0, tailIn := true, poison := false, begun := false, flits := 0,
                      stag := 0, cells := 1, opened := false, shared := false, mirror := false, mcast := false, refs := 1, obs := [] })]
  nextPid := 1
  swc := [(0, { sess := [(0, 0xA8000000)] })]
  route := { live := [(0, 0x40000000)], liveSet := [(0, 0x0124012000000002)] } }

set_option maxRecDepth 2000 in
/-- The copy of the packet discarded with port 0 goes to the first member of its set, so the set's pointer stands at the second (R111). -/
theorem fenceDie_mirroredLoss_ptr : (fenceDie 0 mirroredLoss).route.ptr = [(0, 1)] := by decide

theorem exec_dieFenced {s : State} (h : alive s = true) (d : FabDie) (x : FenceCause) : exec (.dieFenced d x) s = .next (fenceDie d s) := by
  simp only [exec, execDieFenced, h, if_true]

/-- Refutes O21: DIE_FENCED is said to change no more of the route tables than their counters, but a packet discarded with the die's queues is copied
by a session with ON_DROP, and the copy's lookup advances the rotating pointer of its set. -/
theorem not_lossOfParts : ¬ Obligations.LossOfParts := by
  intro h
  have hup : alive mirroredLoss = true := rfl
  have hlive : bitOf mirroredLoss.units.fabLost (0 : FabDie).val = false := rfl
  obtain ⟨hfence, -⟩ := h mirroredLoss hup
  obtain ⟨t, ht, -, -, -, -, -, hroute, -⟩ := (hfence 0 .audit).2 hlive
  obtain rfl : fenceDie 0 mirroredLoss = t := Host.Outcome.next.inj ((exec_dieFenced hup 0 .audit).symm.trans ht)
  have hptr : (fenceDie 0 mirroredLoss).route.ptr = [] := congrArg RouteSt.ptr hroute
  rw [fenceDie_mirroredLoss_ptr] at hptr
  cases hptr

end Sys2Proof.Machine
end

section
/-! PORT_RETRAIN of a dozing sub-link (R54, R65, R386): the retraining raises the sub-link from Doze before it looks at which strands are in use. -/

namespace Sys2Proof.Machine

/-- A Skarad in service on whose port 0 a sub-link dozes, none of its strands in use. -/
def dozingUnused : State := { State.reset with
  rst := { held := false }
  units := { mb0Ok := true }
  pwr := { on := BitVec.allOnes 60 }
  cmd := { bme := true }
  ports := [(0, { enabled := true, begun := true })]
  links := [(0, { st := .doze })]
  strands := [(0, { outOfUse := true }), (1, { outOfUse := true }), (2, { outOfUse := true }), (3, { outOfUse := true })] }

/-- The header of a command on an entry of zeros. -/
def zeroHdr : CmdHdr := { tag := 0, intr := false, space := 0, stack := 0, ep := 0, addr := 0 }

/-- Raised from Doze it is in service with no strand in use, so its strands train alone and it stays ACTIVE. -/
theorem retrain_dozingUnused_active : (linkOf (runRow 0 zeroHdr (.portRetrain 0 15) dozingUnused) 0).st = .active := by decide

theorem exec_portRetrain (r : RingId) (h : CmdHdr) (p : BitVec 16) (mask : BitVec 4) (s : State) :
    exec (.portRetrain r h p mask) s = .next (runRow r h (.portRetrain p.toNat mask) s) := rfl

/-- Refutes O33: of a port that is on, PORT_RETRAIN is said to leave every sub-link in CLOCK or DOWN unless it was in REGISTER, ACTIVE or IDLE with no
strand in use; one in DOZE with no strand in use is left ACTIVE. -/
theorem not_startOfLongCommands : ¬ Obligations.StartOfLongCommands := by
  intro h
  have hidle : idleRing dozingUnused (0 : RingId).val = true := by decide
  obtain ⟨-, -, -, -, -, -, hport, -⟩ := h 0 zeroHdr dozingUnused hidle
  have hon : portOn dozingUnused (0 : BitVec 16).toNat = true := by decide
  have hdoze : ∀ k ∈ subKeys dozingUnused (0 : BitVec 16).toNat, (linkOf dozingUnused k).st ≠ .register ∧
      (linkOf dozingUnused k).st ≠ .active ∧ (linkOf dozingUnused k).st ≠ .idle := by decide
  obtain ⟨t, ht, hlinks, -⟩ := hport 0 (by decide) hon fun k hk => .inr (hdoze k hk)
  obtain rfl : runRow 0 zeroHdr (.portRetrain 0 15) dozingUnused = t := Host.Outcome.next.inj ((exec_portRetrain 0 zeroHdr 0 15 _).symm.trans ht)
  obtain ⟨-, -, hst, -⟩ := hlinks 0 (by decide)
  rw [retrain_dozingUnused_active] at hst
  split at hst <;> cases hst

end Sys2Proof.Machine
end

section
/-! SUPPORT. Ports, strands and sub-links read after one of them has changed, and after an operation on another part of the state. -/

namespace Sys2Proof.Machine

section
variable {s : State} {k j : Nat}

@[simp] theorem linkOf_modLink_same (f : SubLink → SubLink) : linkOf (modLink k f s) k = f (linkOf s k) := tget_tmod_eq _ _ _ _

theorem linkOf_modLink_other (f : SubLink → SubLink) (h : j ≠ k) : linkOf (modLink k f s) j = linkOf s j := tget_tmod_ne _ _ _ h

@[simp] theorem strandOf_modStrand_same (f : StrandSt → StrandSt) : strandOf (modStrand k f s) k = f (strandOf s k) := tget_tmod_eq _ _ _ _

theorem strandOf_modStrand_other (f : StrandSt → StrandSt) (h : j ≠ k) : strandOf (modStrand k f s) j = strandOf s j := tget_tmod_ne _ _ _ h

theorem linkOf_modLink (f : SubLink → SubLink) : linkOf (modLink k f s) j = if j = k then f (linkOf s j) else linkOf s j := by
  split
  · next h => rw [h, linkOf_modLink_same]
  · next h => exact linkOf_modLink_other f h

theorem strandOf_modStrand (f : StrandSt → StrandSt) : strandOf (modStrand k f s) j = if j = k then f (strandOf s j) else strandOf s j := by
  split
  · next h => rw [h, strandOf_modStrand_same]
  · next h => exact strandOf_modStrand_other f h

@[simp] theorem linkOf_emit (o : Out) : linkOf (emit o s) j = linkOf s j := rfl
@[simp] theorem linkOf_modStrand (f : StrandSt → StrandSt) : linkOf (modStrand k f s) j = linkOf s j := rfl
@[simp] theorem linkOf_modPort (f : PortSt → PortSt) : linkOf (modPort k f s) j = linkOf s j := rfl
@[simp] theorem linkOf_portCnt (ofs n : Nat) : linkOf (portCnt k ofs n s) j = linkOf s j := rfl
@[simp] theorem linkOf_modTim (f : TimSt → TimSt) : linkOf (modTim f s) j = linkOf s j := rfl
@[simp] theorem linkOf_timCnt (ofs n : Nat) : linkOf (timCnt ofs n s) j = linkOf s j := rfl
@[simp] theorem linkOf_clockTo (t : Nat) : linkOf (clockTo t s) j = linkOf s j := rfl
@[simp] theorem linkOf_countBytes (key n : Nat) : linkOf (countBytes key n s) j = linkOf s j := rfl
@[simp] theorem strandOf_emit (o : Out) : strandOf (emit o s) j = strandOf s j := rfl
@[simp] theorem strandOf_modLink (f : SubLink → SubLink) : strandOf (modLink k f s) j = strandOf s j := rfl
@[simp] theorem strandOf_modPort (f : PortSt → PortSt) : strandOf (modPort k f s) j = strandOf s j := rfl
@[simp] theorem strandOf_portCnt (ofs n : Nat) : strandOf (portCnt k ofs n s) j = strandOf s j := rfl
@[simp] theorem strandOf_clockTo (t : Nat) : strandOf (clockTo t s) j = strandOf s j := rfl
@[simp] theorem strandOf_countBytes (key n : Nat) : strandOf (countBytes key n s) j = strandOf s j := rfl
@[simp] theorem portOf_modLink (f : SubLink → SubLink) : portOf (modLink k f s) j = portOf s j := rfl
@[simp] theorem portOf_modStrand (f : StrandSt → StrandSt) : portOf (modStrand k f s) j = portOf s j := rfl
@[simp] theorem portOf_clockTo (t : Nat) : portOf (clockTo t s) j = portOf s j := rfl
@[simp] theorem portOf_countBytes (key n : Nat) : portOf (countBytes key n s) j = portOf s j := rfl

theorem linkOf_congr {t : State} (h : t.links = s.links) (j : Nat) : linkOf t j = linkOf s j := by unfold linkOf; rw [h]

theorem strandOf_congr {t : State} (h : t.strands = s.strands) (j : Nat) : strandOf t j = strandOf s j := by unfold strandOf; rw [h]

theorem portOf_congr {t : State} (h : t.ports = s.ports) (j : Nat) : portOf t j = portOf s j := by unfold portOf; rw [h]

end

theorem isMgr_eq_false {s : State} (h : s.gctl.role ≠ .manager) : isMgr s = false := by
  unfold isMgr
  exact beq_eq_false_iff_ne.2 h

theorem isMgr_eq_true {s : State} (h : s.gctl.role = .manager) : isMgr s = true := by
  unfold isMgr
  exact beq_iff_eq.2 h

@[simp] theorem each_nil {α : Type} (f : α → State → State) (s : State) : each [] f s = s := rfl

@[simp] theorem each_cons {α : Type} (a : α) (l : List α) (f : α → State → State) (s : State) : each (a :: l) f s = each l f (f a s) := rfl

end Sys2Proof.Machine
end

section
/-! TIME flits (R62 to R64, R342, R343): what is queued, and what a received one does to fabric time. -/

namespace Sys2Proof.Machine

/-! ## Fabric time -/

theorem fabT_congr {s t : State} (ht : t.tim = s.tim) (hc : t.clock = s.clock) : fabT t = fabT s := by
  unfold fabT
  rw [ht, hc]

theorem Keeps.tim_links {d : Bool} {s t : State} (h : Keeps d 0x20200 s t) : t = { s with tim := t.tim, links := t.links } := h.eq

/-- Nothing has been slewed away yet. -/
theorem slewed_zero (o : Int) : slewed o 0 = 0 := by
  unfold slewed
  split <;> simp <;> omega

/-- Fabric time that was set at this clock is its base. -/
theorem fabT_of_baseAt {s : State} (h : s.tim.baseAt = s.clock) : fabT s = s.tim.base := by
  unfold fabT
  rw [h, Nat.sub_self, slewed_zero]
  simp

section
variable (s : State)

@[simp] theorem rebase_tim : (rebase s).tim = { s.tim with base := fabT s, baseAt := s.clock, slew := if s.tim.running then s.tim.slew - slewed s.tim.slew (s.clock - s.tim.baseAt) else s.tim.slew } := rfl
@[simp] theorem rebase_base : (rebase s).tim.base = fabT s := rfl
@[simp] theorem rebase_baseAt : (rebase s).tim.baseAt = s.clock := rfl
@[simp] theorem rebase_clock : (rebase s).clock = s.clock := rfl

end

/-! ## Flits queued (R64) -/

/-- The VC7 flit of a TIME message, as it waits for the transmitter. -/
def timeFlit (kind : Nat) (m : TimeMsg) : Flit :=
  { seq := 0, vc := 7, typ := 5, len := 232, poison := false, replay := false, data := timePayload kind m, sentAt := 0 }

theorem queueTime_eq (k kind : Nat) (m : TimeMsg) (s : State) : queueTime k kind m s = modLink k (fun l => { l with txq := l.txq ++ [timeFlit kind m] }) s := rfl

theorem leaveIdle_of_lit {s : State} {k : Nat} (h : (linkOf s k).idleTx = false) : leaveIdle k s = s := by
  unfold leaveIdle
  exact if_neg (by rw [h]; decide)

section
variable {p : Port} {x : Strand} {s : State} (hr : timeRuns s (subKey s p x) = true)
include hr

section
variable (hi : (linkOf s (subKey s p x)).idleTx = false)
include hi

theorem exec_syncSend : exec (.syncSend p x) s = .next (queueTime (subKey s p x) 0 (timeMsg s ((linkOf s (subKey s p x)).syncSeq + 1))
    (modLink (subKey s p x) (fun l => { l with syncSeq := l.syncSeq + 1 }) s)) := by
  change execSyncSend p x s = _
  simp only [execSyncSend, hr, leaveIdle_of_lit hi, linkOf_modLink_same]
  rfl

theorem exec_announceSend : exec (.announceSend p x) s = .next (queueTime (subKey s p x) 3
    { timeMsg s ((linkOf s (subKey s p x)).annSeq + 1) with utcOfs := s.tim.utcOfs, gm := gmShown s, hops := if isMgr s then 0 else s.tim.hops }
    (modLink (subKey s p x) (fun l => { l with annSeq := l.annSeq + 1 }) s)) := by
  change execAnnounceSend p x s = _
  simp only [execAnnounceSend, hr, leaveIdle_of_lit hi, linkOf_modLink_same]
  rfl

theorem exec_delayReqSend (hm : isMgr s = false) (hu : s.tim.upstream = some (subKey s p x)) :
    exec .delayReqSend s = .next (queueTime (subKey s p x) 1 (timeMsg s ((linkOf s (subKey s p x)).reqSeq + 1))
      (modLink (subKey s p x) (fun l => { l with reqSeq := l.reqSeq + 1 }) s)) := by
  change execDelayReqSend s = _
  simp only [execDelayReqSend, hu, hm, hr, leaveIdle_of_lit hi, linkOf_modLink_same]
  rfl

theorem exec_delayReq (m : TimeMsg) : exec (.delayReq p x m) s = .next (queueTime (subKey s p x) 2 { timeMsg s m.tseq with t := fabT s } s) := by
  change execDelayReq p x m s = _
  simp only [execDelayReq, hr, leaveIdle_of_lit hi]
  rfl

end

end

/-! ## Flits received -/

/-- What a TIME message says of the grandmaster it announces. -/
def annOf (m : TimeMsg) : Ann := { gm := m.gm, hops := m.hops, traceable := m.traceable, holdover := m.holdover, leap := m.leapPending, utcOfs := m.utcOfs }

/-- The ANNOUNCE of sub-link k is kept. -/
def keepAnn (k : Nat) (m : TimeMsg) : State → State := modLink k fun l => { l with ann := some (annOf m) }

/-- How far fabric time is ahead of the upstream's, by a SYNC (R342). -/
def syncOfs (p k : Nat) (m : TimeMsg) (s : State) : Int :=
  (fabT s - m.t).toInt - (s.tim.delayFx + psToFx (tget 0 (portOf s p).asym (k % 4)).toInt / 2)

/-- A SYNC from the upstream has been counted, and its times and its offset noted. -/
def syncNoted (k : Nat) (m : TimeMsg) (ofs : Int) (s : State) : State :=
  modTim (fun y => { y with offset := BitVec.ofInt 32 (fxToPs ofs) })
    (timCnt 0x100 1 (modLink k (fun l => { l with syncT1 := m.t, syncT2 := fabT s, lastSync := s.clock }) s))

/-- The link delay by the four times of a SYNC and a DELAY_RESP (R342). -/
def linkDelay (m : TimeMsg) (l : SubLink) : Int := ((l.syncT2 - l.syncT1).toInt + (m.t - l.reqT3).toInt) / 2

/-- What a pending change of UTC_OFS says, or that there is none (R345). -/
def noteLeap (pending : Bool) (leap : Option (Word × BitVec 16)) (s : State) : State :=
  match leap with
  | some (at_, next) => modTim (fun y => { y with leapAt := at_, nextUtc := next }) s
  | none => iff (!pending) (modTim fun y => { y with leapAt := 0 }) s

/-- Of the grandmaster's role only the acting manager follows an ANNOUNCE. -/
theorem followAnn_eq (k : Nat) (a : Ann) (s : State) : ∃ g, followAnn k a s = { s with
    gctl := g, tim := { s.tim with upstream := some k, hops := a.hops + 1, gmCoord := a.gm, traceable := a.traceable, leapPending := a.leap, utcOfs := a.utcOfs } } := by
  simp only [followAnn]
  split
  · exact ⟨_, rfl⟩
  · split
    · exact ⟨_, rfl⟩
    · split <;> exact ⟨_, rfl⟩

/-- What a Skarad that has kept an ANNOUNCE of sub-link k makes of it (R335, R345). -/
def heedAnn (k : Nat) (m : TimeMsg) (leap : Option (Word × BitVec 16)) (s : State) : State :=
  if isMgr s then s
  else
    let t := if s.tim.upstream = some k then followAnn k (annOf m) s else if s.tim.upstream.isNone then chooseUpstream s else s
    if t.tim.upstream = some k then noteLeap m.leapPending leap t else t

theorem heedAnn_manager {k : Nat} {m : TimeMsg} {leap : Option (Word × BitVec 16)} {s : State} (h : s.gctl.role = .manager) : heedAnn k m leap s = s :=
  if_pos (isMgr_eq_true h)

/-- A worker that has another upstream only keeps the ANNOUNCE. -/
theorem heedAnn_other {j k : Nat} {m : TimeMsg} {leap : Option (Word × BitVec 16)} {s : State} (hj : s.tim.upstream = some j) (h : j ≠ k) : heedAnn k m leap s = s := by
  simp [heedAnn, hj, h]

theorem heedAnn_upstream {k : Nat} {m : TimeMsg} {leap : Option (Word × BitVec 16)} {s : State} (hm : s.gctl.role ≠ .manager) (hu : s.tim.upstream = some k) :
    heedAnn k m leap s = noteLeap m.leapPending leap (followAnn k (annOf m) s) := by
  have hf : (followAnn k (annOf m) s).tim.upstream = some k := by
    obtain ⟨g, e⟩ := followAnn_eq k (annOf m) s
    rw [e]
  simp only [heedAnn, isMgr_eq_false hm, hu, hf, if_true, Bool.false_eq_true, if_false]

section
variable {p : Port} {x : Strand} {m : TimeMsg} {s : State}

/-- A Skarad that does not follow sub-link k: the manager, or a worker with another upstream. -/
theorem exec_sync_of_not_upstream (h : s.gctl.role = .manager ∨ s.tim.upstream ≠ some (subKey s p x)) : exec (.sync p x m) s = .next s := by
  change execSync p x m s = _
  simp only [execSync]
  refine congrArg _ (if_pos ?_)
  rcases h with h | h
  · simp [isMgr_eq_true h]
  · simp [h]

theorem exec_delayResp_of_not_upstream (h : s.gctl.role = .manager ∨ s.tim.upstream ≠ some (subKey s p x)) : exec (.delayResp p x m) s = .next s := by
  change execDelayResp p x m s = _
  simp only [execDelayResp]
  refine congrArg _ (if_pos ?_)
  rcases h with h | h
  · simp [isMgr_eq_true h]
  · simp [h]

/-- A DELAY_RESP that echoes no request of this end's last one. -/
theorem exec_delayResp_of_stale (h : m.tseq ≠ (linkOf s (subKey s p x)).reqSeq) : exec (.delayResp p x m) s = .next s := by
  change execDelayResp p x m s = _
  simp only [execDelayResp]
  exact congrArg _ (if_pos (by simp [h]))

section
variable (hr : timeRuns s (subKey s p x) = true)
include hr

theorem exec_announce_eq (leap : Option (Word × BitVec 16)) : exec (.announce p x m leap) s = .next (heedAnn (subKey s p x) m leap (keepAnn (subKey s p x) m s)) := by
  change execAnnounce p x m leap s = _
  simp only [execAnnounce, hr]
  rfl

theorem exec_announce_of_not_upstream (h : s.gctl.role = .manager ∨ ∃ j, s.tim.upstream = some j ∧ j ≠ subKey s p x) (leap : Option (Word × BitVec 16)) :
    exec (.announce p x m leap) s = .next (keepAnn (subKey s p x) m s) := by
  rw [exec_announce_eq hr]
  rcases h with h | ⟨j, hj, hne⟩
  · rw [heedAnn_manager (s := keepAnn _ m s) h]
  · rw [heedAnn_other (s := keepAnn _ m s) hj hne]

variable (hm : s.gctl.role ≠ .manager) (hu : s.tim.upstream = some (subKey s p x))
include hm hu

theorem exec_sync_upstream : exec (.sync p x m) s =
    .next (correct (syncOfs p (subKey s p x) m s) (syncNoted (subKey s p x) m (syncOfs p (subKey s p x) m s) s)) := by
  change execSync p x m s = _
  simp only [execSync]
  exact congrArg _ (if_neg (by simp [hr, isMgr_eq_false hm, hu]))

theorem exec_delayResp_upstream (h : m.tseq = (linkOf s (subKey s p x)).reqSeq) : exec (.delayResp p x m) s =
    .next (modTim (fun y => { y with
      delayFx := linkDelay m (linkOf s (subKey s p x)), delay := BitVec.ofInt 32 (fxToPs (linkDelay m (linkOf s (subKey s p x)))) }) s) := by
  change execDelayResp p x m s = _
  simp only [execDelayResp]
  exact congrArg _ (if_neg (by simp [hr, isMgr_eq_false hm, hu, h]))

end
end

/-! ## The upstream's ANNOUNCE (R335) -/

section
variable {k : Nat} {a : Ann} {s : State}

theorem noteLeap_eq (b : Bool) (leap : Option (Word × BitVec 16)) (s : State) : ∃ w n, noteLeap b leap s = { s with tim := { s.tim with leapAt := w, nextUtc := n } } := by
  unfold noteLeap
  split
  · exact ⟨_, _, rfl⟩
  · cases b <;> exact ⟨_, _, rfl⟩

end

/-! ## Correction of fabric time (R342) -/

section
variable {ofs : Int} {s : State}

theorem correct_small (h : ofs.natAbs ≤ s.tim.stepThr.toNat * 65536) : correct ofs s = modTim (fun y => { y with slew := ofs, stepDue := false }) (rebase s) :=
  if_neg (by omega)

theorem correct_first (h : s.tim.stepThr.toNat * 65536 < ofs.natAbs) (hd : s.tim.stepDue = false) : correct ofs s = modTim (fun y => { y with stepDue := true }) s :=
  (if_pos h).trans (if_neg (by simp [hd]))

theorem correct_second (h : s.tim.stepThr.toNat * 65536 < ofs.natAbs) (hd : s.tim.stepDue = true) :
    correct ofs s = logMb 0x4001 [] (timCnt 0x104 1 (stepTime ofs s)) :=
  (if_pos h).trans (if_pos hd)

theorem linkOf_correct (k : Nat) : linkOf (correct ofs s) k = linkOf s k :=
  linkOf_congr ((correct_keeps (d := true) (L := 0x2781) ofs (.refl _ _ s) rfl).only.links (by decide)) k

theorem fabT_logMb (code : Nat) (det : List Byte) (s : State) : fabT (logMb code det s) = fabT s :=
  fabT_congr ((keeps_logMb code det s).only.tim (by decide)) ((keeps_logMb code det s).only.clock (by decide))

theorem fabT_timCnt (ofs n : Nat) (s : State) : fabT (timCnt ofs n s) = fabT s := rfl

theorem fabT_slewing : fabT (modTim (fun y => { y with slew := ofs, stepDue := false }) (rebase s)) = fabT s := fabT_of_baseAt rfl

theorem fabT_stepTime : fabT (stepTime ofs s) = fabT s - BitVec.ofInt 80 ofs := fabT_of_baseAt rfl

end

/-! ## The upstream is lost (R335, R343) -/

section
variable {s : State}

theorem chooseUpstream_of_none (h : ∀ j, upCandidate s j = none) : chooseUpstream s = s := by
  have hall : ((allSubs s).filterMap fun k => (upCandidate s k).map fun a => (k, a)) = [] := by simp [h]
  simp only [chooseUpstream, hall]
  exact ite_self _

theorem upCandidate_congr {t : State} {j : Nat} (h : linkOf t j = linkOf s j) : upCandidate t j = upCandidate s j := by
  unfold upCandidate
  rw [h]

/-- A sub-link whose ANNOUNCE is gone is no candidate. -/
theorem upCandidate_of_ann {j : Nat} (h : (linkOf s j).ann = none) : upCandidate s j = none := by
  unfold upCandidate
  simp only [h]
  exact ite_self _

theorem enterHoldover_holdover : (enterHoldover s).tim.holdover = true := by
  unfold enterHoldover
  split
  · assumption
  · rw [(keeps_logMb _ _ _).only.tim (by decide)]
    rfl

theorem enterHoldover_upstream : (enterHoldover s).tim.upstream = s.tim.upstream := by
  unfold enterHoldover
  split
  · rfl
  · rw [(keeps_logMb _ _ _).only.tim (by decide)]
    rfl

theorem fabT_enterHoldover : fabT (enterHoldover s) = fabT s := by
  unfold enterHoldover
  split
  · rfl
  · exact fabT_logMb _ _ _

theorem keeps_enterHoldover (s : State) : Keeps true 0x2781 s (enterHoldover s) := enterHoldover_keeps (.refl _ _ s) rfl

/-- The upstream is given up, and its ANNOUNCE with it. -/
def dropUpstream (k : Nat) (s : State) : State := modLink k (fun l => { l with ann := none }) (modTim (fun y => { y with upstream := none }) s)

/-- UPSTREAM_LOST where no other sub-link is a candidate. -/
theorem exec_upstreamLost {k : Nat} (hm : s.gctl.role ≠ .manager) (hu : s.tim.upstream = some k) (h : ∀ j, j ≠ k → upCandidate s j = none) :
    exec .upstreamLost s = .next (enterHoldover (dropUpstream k (iff (upCandidate s k).isSome (clockTo ((linkOf s k).lastSync + 500000)) s))) := by
  change execUpstreamLost s = _
  simp only [execUpstreamLost, hu, isMgr_eq_false hm]
  refine congrArg _ (chooseUpstream_of_none fun j => ?_)
  rw [upCandidate_congr (linkOf_congr ((keeps_enterHoldover _).only.links (by decide)) j)]
  by_cases hj : j = k
  · subst hj
    exact upCandidate_of_ann (by rw [linkOf_modLink_same])
  · rw [upCandidate_congr (linkOf_modLink_other _ hj)]
    refine Eq.trans (upCandidate_congr ?_) (h j hj)
    cases (upCandidate s k).isSome <;> rfl

end

/-! ## The statement -/

section
variable {p : Port} {x : Strand} {m : TimeMsg} {s : State}

theorem queueTime_frame (k kind : Nat) (m : TimeMsg) (f : SubLink → SubLink) (s : State) :
    queueTime k kind m (modLink k f s) = { s with links := (queueTime k kind m (modLink k f s)).links } ∧
      (∀ j, j ≠ k → linkOf (queueTime k kind m (modLink k f s)) j = linkOf s j) ∧
      linkOf (queueTime k kind m (modLink k f s)) k = { f (linkOf s k) with txq := (f (linkOf s k)).txq ++ [timeFlit kind m] } := by
  refine ⟨rfl, fun j hj => ?_, ?_⟩
  · rw [queueTime_eq, linkOf_modLink_other _ hj, linkOf_modLink_other _ hj]
  · rw [queueTime_eq, linkOf_modLink_same, linkOf_modLink_same]

section
variable (k : Nat) (m : TimeMsg) (o : Int) (s : State)

theorem keeps_syncNoted : Keeps true 0x20200 s (syncNoted k m o s) := modTim_keeps _ (timCnt_keeps _ _ (modLink_keeps _ _ (.refl _ _ s) rfl) rfl) rfl

@[simp] theorem syncNoted_tim : (syncNoted k m o s).tim = { s.tim with offset := BitVec.ofInt 32 (fxToPs o), cnt := bump s.tim.cnt 0x100 1 } := rfl

theorem fabT_syncNoted : fabT (syncNoted k m o s) = fabT s := by
  unfold fabT
  rw [syncNoted_tim, (keeps_syncNoted k m o s).only.clock (by decide)]

/-- A small offset is slewed. -/
theorem sync_slewed {ofs : Int} (h : ofs.natAbs ≤ s.tim.stepThr.toNat * 65536) : ∃ t, correct ofs (syncNoted k m o s) = t ∧
    t = { s with tim := t.tim, links := t.links } ∧ fabT t = fabT s ∧ t.tim.slew = ofs ∧ t.tim.stepSum = s.tim.stepSum ∧ t.tim.cnt = bump s.tim.cnt 0x100 1 := by
  refine ⟨_, correct_small (s := syncNoted k m o s) h, ?_, ?_, ?_, ?_, ?_⟩
  · exact Keeps.tim_links (modTim_keeps _ (rebase_keeps (keeps_syncNoted k m o s) rfl) rfl)
  · exact fabT_slewing.trans (fabT_syncNoted k m o s)
  · simp
  · simp
  · simp

/-- A large one is noted. -/
theorem sync_noted {ofs : Int} (h : s.tim.stepThr.toNat * 65536 < ofs.natAbs) (hd : s.tim.stepDue = false) : ∃ t, correct ofs (syncNoted k m o s) = t ∧
    t = { s with tim := t.tim, links := t.links } ∧ fabT t = fabT s ∧ t.tim.stepDue = true ∧ t.tim.stepSum = s.tim.stepSum := by
  refine ⟨_, correct_first (s := syncNoted k m o s) h hd, ?_, ?_, ?_, ?_⟩
  · exact Keeps.tim_links (modTim_keeps _ (keeps_syncNoted k m o s) rfl)
  · exact Eq.trans (b := fabT (syncNoted k m o s)) rfl (fabT_syncNoted k m o s)
  · simp
  · simp

/-- The next large one is stepped away. -/
theorem sync_stepped {ofs : Int} (h : s.tim.stepThr.toNat * 65536 < ofs.natAbs) (hd : s.tim.stepDue = true) : ∃ t, correct ofs (syncNoted k m o s) = t ∧
    fabT t = fabT s - BitVec.ofInt 80 ofs ∧ t.tim.stepDue = false ∧ t.tim.stepSum = s.tim.stepSum - ofs := by
  refine ⟨_, correct_second (s := syncNoted k m o s) h hd, ?_, ?_, ?_⟩
  · rw [fabT_logMb, fabT_timCnt, fabT_stepTime, fabT_syncNoted]
  all_goals
    rw [(keeps_logMb _ _ _).only.tim (by decide)]
    simp [timCnt, stepTime]

theorem linkOf_sync (ofs : Int) : linkOf (correct ofs (syncNoted k m o s)) k = { linkOf s k with syncT1 := m.t, syncT2 := fabT s, lastSync := s.clock } := by
  rw [linkOf_correct, syncNoted, linkOf_modTim, linkOf_timCnt, linkOf_modLink_same]

end

section
variable (hr : timeRuns s (subKey s p x) = true) (hm : s.gctl.role ≠ .manager) (hu : s.tim.upstream = some (subKey s p x))
include hr hm hu

theorem announce_followed (leap : Option (Word × BitVec 16)) : ∃ t, exec (.announce p x m leap) s = .next t ∧
    t = { s with gctl := t.gctl, tim := t.tim, links := t.links } ∧ t.tim.traceable = m.traceable ∧ t.tim.hops = m.hops + 1 ∧ t.tim.gmCoord = m.gm ∧
    t.tim.upstream = some (subKey s p x) ∧ fabT t = fabT s := by
  refine ⟨_, exec_announce_eq hr leap, ?_⟩
  rw [heedAnn_upstream (s := keepAnn (subKey s p x) m s) hm hu]
  obtain ⟨g, e⟩ := followAnn_eq (subKey s p x) (annOf m) (keepAnn (subKey s p x) m s)
  rw [e]
  obtain ⟨w, n, e⟩ := noteLeap_eq m.leapPending leap _
  rw [e]
  exact ⟨rfl, rfl, rfl, rfl, rfl, rfl⟩

end

theorem upstreamLost_holdover {k : Nat} (hm : s.gctl.role ≠ .manager) (hu : s.tim.upstream = some k) (h : ∀ j, j ≠ k → upCandidate s j = none) :
    ∃ t, exec .upstreamLost s = .next t ∧ t.tim.upstream = none ∧ t.tim.holdover = true ∧
      t.clock = (if (upCandidate s k).isSome then max s.clock ((linkOf s k).lastSync + 500000) else s.clock) ∧
      fabT t = fabT { s with clock := t.clock } ∧ (linkOf t k).ann = none := by
  refine ⟨_, exec_upstreamLost hm hu h, enterHoldover_upstream, enterHoldover_holdover, ?_, ?_, ?_⟩
  · rw [(keeps_enterHoldover _).only.clock (by decide)]
    cases (upCandidate s k).isSome <;> rfl
  · rw [fabT_enterHoldover, (keeps_enterHoldover _).only.clock (by decide)]
    cases (upCandidate s k).isSome <;> rfl
  · rw [linkOf_congr ((keeps_enterHoldover _).only.links (by decide)), dropUpstream, linkOf_modLink_same]

end

/-- Settles O48: the flits queued, then a SYNC, a DELAY_RESP and an ANNOUNCE by where they come from, then the loss of the upstream. -/
theorem timeMessages : Obligations.TimeMessages := by
  intro p x m s hr
  refine ⟨fun hi => ⟨?syncSend, ?announceSend, fun hm hu => ?delayReqSend, ?delayReq⟩, fun h => ⟨exec_sync_of_not_upstream h, exec_delayResp_of_not_upstream h⟩,
    fun h lp => ?announce, fun hm hu => ⟨fun ofs ho => ?sync, exec_delayResp_of_stale, fun h => ?delayResp, announce_followed hr hm hu, upstreamLost_holdover hm hu⟩⟩
  case syncSend => exact ⟨_, exec_syncSend hr hi, queueTime_frame ..⟩
  case announceSend => exact ⟨_, exec_announceSend hr hi, queueTime_frame ..⟩
  case delayReqSend =>
    obtain ⟨hs, -, hk⟩ := queueTime_frame (subKey s p x) 1 (timeMsg s ((linkOf s (subKey s p x)).reqSeq + 1)) (fun l => { l with reqSeq := l.reqSeq + 1 }) s
    exact ⟨_, exec_delayReqSend hr hi (isMgr_eq_false hm) hu, hs, hk⟩
  case delayReq => exact ⟨_, exec_delayReq hr hi m, rfl, fun j hj => linkOf_modLink_other _ hj, linkOf_modLink_same _⟩
  case announce => exact ⟨_, exec_announce_of_not_upstream hr h lp, rfl, linkOf_modLink_same _⟩
  case delayResp => exact ⟨_, exec_delayResp_upstream hr hm hu h, rfl, rfl⟩
  case sync =>
    subst ho
    refine ⟨_, exec_sync_upstream hr hm hu, linkOf_sync .., fun h => ?_, fun h hd => ?_, fun h hd => ?_⟩
    · obtain ⟨t, rfl, ht⟩ := sync_slewed (subKey s p x) m (syncOfs p (subKey s p x) m s) s h
      exact ht
    · obtain ⟨t, rfl, ht⟩ := sync_noted (subKey s p x) m (syncOfs p (subKey s p x) m s) s h hd
      exact ht
    · obtain ⟨t, rfl, ht⟩ := sync_stepped (subKey s p x) m (syncOfs p (subKey s p x) m s) s h hd
      exact ht

end Sys2Proof.Machine
end

section
/-! SUPPORT. The strands of a port's sub-links (R36): every strand is in one sub-link, and the sub-links of a port have no strand in common. -/

namespace Sys2Proof.Machine

/-- The ways in which a port's strands are grouped. -/
def breakouts : List (List (List Nat)) := [[[0, 1, 2, 3]], [[0, 1, 2], [3]], [[0, 1], [2, 3]], [[0, 1], [2], [3]], [[0], [1], [2], [3]]]

theorem groupsOf_mem (b : Nat) : groupsOf b ∈ breakouts := by
  unfold groupsOf
  split <;> decide

theorem breakouts_cover : ∀ G ∈ breakouts, ∀ x < 4, ∃ g ∈ G, x ∈ g := by decide

theorem breakouts_group : ∀ G ∈ breakouts, ∀ g ∈ G, g.Nodup ∧ g.headD 0 ∈ g ∧ (∀ x ∈ g, x < 4 ∧ G.find? (fun g => x ∈ g) = some g ∧ g.headD x = g.headD 0) := by decide

theorem breakouts_heads : ∀ G ∈ breakouts, (G.map (·.headD 0)).Nodup := by decide

section
variable {s : State} {p j k q x : Nat} {g : List Nat}

/-- The groups of port p. -/
abbrev portGroups (s : State) (p : Nat) : List (List Nat) := groupsOf (portOf s p).breakout.toNat

theorem portGroups_cover (hx : x < 4) : ∃ g ∈ portGroups s p, x ∈ g := breakouts_cover _ (groupsOf_mem _) x hx

theorem portGroups_nodup (hg : g ∈ portGroups s p) : g.Nodup := (breakouts_group _ (groupsOf_mem _) g hg).1

theorem portGroups_head (hg : g ∈ portGroups s p) : g.headD 0 ∈ g := (breakouts_group _ (groupsOf_mem _) g hg).2.1

theorem portGroups_lt (hg : g ∈ portGroups s p) (hx : x ∈ g) : x < 4 := ((breakouts_group _ (groupsOf_mem _) g hg).2.2 x hx).1

theorem portGroups_headD (hg : g ∈ portGroups s p) (hx : x ∈ g) : g.headD x = g.headD 0 := ((breakouts_group _ (groupsOf_mem _) g hg).2.2 x hx).2.2

/-- A strand's sub-link is the group that holds it. -/
theorem strandsIn_of_mem (hg : g ∈ portGroups s p) (hx : x ∈ g) : strandsIn s p x = g := by
  unfold strandsIn
  rw [((breakouts_group _ (groupsOf_mem _) g hg).2.2 x hx).2.1]

theorem subKey_of_mem (hg : g ∈ portGroups s p) (hx : x ∈ g) : subKey s p x = 4 * p + g.headD 0 := by
  unfold subKey
  rw [strandsIn_of_mem hg hx, portGroups_headD hg hx]

theorem mem_subKeys : k ∈ subKeys s p ↔ ∃ g ∈ portGroups s p, 4 * p + g.headD 0 = k := List.mem_map

/-- The strands of the sub-link of a group. -/
theorem strandPos_of_group (hg : g ∈ portGroups s p) : strandPos s (4 * p + g.headD 0) = g.map (4 * p + ·) := by
  have hlt := portGroups_lt hg (portGroups_head hg)
  unfold strandPos
  rw [show (4 * p + g.headD 0) / 4 = p by omega, show (4 * p + g.headD 0) % 4 = g.headD 0 by omega, strandsIn_of_mem hg (portGroups_head hg)]

theorem subKey_mem (s : State) (p : Nat) (hx : x < 4) : subKey s p x ∈ subKeys s p := by
  obtain ⟨g, hg, hxg⟩ := portGroups_cover (s := s) (p := p) hx
  exact mem_subKeys.2 ⟨g, hg, (subKey_of_mem hg hxg).symm⟩

/-- A strand is one of its sub-link's. -/
theorem mem_strandPos_subKey (s : State) (p : Nat) (hx : x < 4) : 4 * p + x ∈ strandPos s (subKey s p x) := by
  obtain ⟨g, hg, hxg⟩ := portGroups_cover (s := s) (p := p) hx
  rw [subKey_of_mem hg hxg, strandPos_of_group hg]
  exact List.mem_map_of_mem hxg

theorem div_of_mem_subKeys (hk : k ∈ subKeys s p) : k / 4 = p := by
  obtain ⟨g, hg, rfl⟩ := mem_subKeys.1 hk
  have hlt := portGroups_lt hg (portGroups_head hg)
  omega

/-- A strand of a port's sub-link has that sub-link's key. -/
theorem subKey_of_mem_strandPos (hk : k ∈ subKeys s p) (hq : q ∈ strandPos s k) : q / 4 = p ∧ subKey s (q / 4) (q % 4) = k := by
  obtain ⟨g, hg, rfl⟩ := mem_subKeys.1 hk
  rw [strandPos_of_group hg] at hq
  obtain ⟨x, hx, rfl⟩ := List.mem_map.1 hq
  have hlt := portGroups_lt hg hx
  have hp : (4 * p + x) / 4 = p := by omega
  refine ⟨hp, ?_⟩
  rw [hp, show (4 * p + x) % 4 = x by omega, subKey_of_mem hg hx]

theorem strandPos_disjoint (hj : j ∈ subKeys s p) (hk : k ∈ subKeys s p) (hne : j ≠ k) (hq : q ∈ strandPos s j) : q ∉ strandPos s k := fun h =>
  hne ((subKey_of_mem_strandPos hj hq).2.symm.trans (subKey_of_mem_strandPos hk h).2)

theorem subKeys_nodup (s : State) (p : Nat) : (subKeys s p).Nodup := by
  have h : subKeys s p = ((portGroups s p).map (·.headD 0)).map (4 * p + ·) := by
    rw [List.map_map]
    rfl
  rw [h]
  exact (breakouts_heads _ (groupsOf_mem _)).map fun a b hab => by simpa using hab

theorem strandPos_nodup (s : State) (k : Nat) : (strandPos s k).Nodup := by
  obtain ⟨g, hg, hx⟩ := portGroups_cover (s := s) (p := k / 4) (Nat.mod_lt k (by decide : 4 > 0))
  unfold strandPos
  rw [strandsIn_of_mem hg hx]
  exact (portGroups_nodup hg).map fun a b hab => by simpa using hab

/-- Of two sub-links with a common strand, each is the other's. -/
theorem div_of_mem_strandPos (hq : q ∈ strandPos s k) : q / 4 = k / 4 := by
  obtain ⟨g, hg, hx⟩ := portGroups_cover (s := s) (p := k / 4) (Nat.mod_lt k (by decide : 4 > 0))
  unfold strandPos at hq
  rw [strandsIn_of_mem hg hx] at hq
  obtain ⟨y, hy, rfl⟩ := List.mem_map.1 hq
  have hlt := portGroups_lt hg hy
  omega

theorem mem_liveStrands : q ∈ liveStrands s k ↔ q ∈ strandPos s k ∧ (strandOf s q).outOfUse = false ∧ (strandOf s q).alone = false ∧
    (strandOf s q).st ≠ .down ∧ (strandOf s q).st ≠ .dark := by
  unfold liveStrands
  rw [List.mem_filter]
  refine and_congr_right fun _ => ?_
  cases h : (strandOf s q).st <;> simp [h]

theorem liveStrands_nodup (s : State) (k : Nat) : (liveStrands s k).Nodup := (strandPos_nodup s k).filter _

theorem strandPos_congr {t : State} (h : t.ports = s.ports) (k : Nat) : strandPos t k = strandPos s k := by
  unfold strandPos strandsIn portOf
  rw [h]

theorem subKeys_congr {t : State} (h : t.ports = s.ports) (p : Nat) : subKeys t p = subKeys s p := by
  unfold subKeys portOf
  rw [h]

theorem subKey_congr {t : State} (h : t.ports = s.ports) (p x : Nat) : subKey t p x = subKey s p x := by
  unfold subKey strandsIn portOf
  rw [h]

theorem liveStrands_congr {t : State} (hp : t.ports = s.ports) (hs : ∀ q ∈ strandPos s k, strandOf t q = strandOf s q) : liveStrands t k = liveStrands s k := by
  unfold liveStrands
  rw [strandPos_congr hp]
  exact List.filter_congr fun q hq => by rw [hs q hq]

end

/-! ## Loops -/

section
variable {α : Type} {l : List α} {g : α → State → State}

/-- What every step keeps, the loop keeps. -/
theorem each_induct {P : State → Prop} (hg : ∀ x ∈ l, ∀ a, P a → P (g x a)) {s : State} (h : P s) : P (each l g s) := by
  induction l generalizing s with
  | nil => exact h
  | cons x r ih => exact ih (fun y hy => hg y (List.mem_cons_of_mem _ hy)) (hg x List.mem_cons_self s h)

/-- The step for x, seen from before it (R) and from after it (Q), where R and Q hold across the other steps. -/
theorem each_at {R : State → State → Prop} (hrefl : ∀ a, R a a) (htrans : ∀ a b c, R a b → R b c → R a c) (hl : l.Nodup) {x : α} (hx : x ∈ l)
    (hg : ∀ y ∈ l, y ≠ x → ∀ a, R a (g y a)) (s : State) : ∃ a, R s a ∧ R (g x a) (each l g s) := by
  induction l generalizing s with
  | nil => cases hx
  | cons y r ih =>
    obtain ⟨hyr, hr⟩ := List.nodup_cons.1 hl
    rcases List.mem_cons.1 hx with rfl | hxr
    · refine ⟨s, hrefl s, ?_⟩
      exact each_induct (P := R (g x s)) (fun z hz a ha => htrans _ _ _ ha (hg z (List.mem_cons_of_mem _ hz) (fun h => hyr (h ▸ hz)) a)) (hrefl _)
    · obtain ⟨a, h1, h2⟩ := ih hr hxr (fun z hz => hg z (List.mem_cons_of_mem _ hz)) (g y s)
      exact ⟨a, htrans _ _ _ (hg y List.mem_cons_self (fun h => hyr (h ▸ hxr)) s) h1, h2⟩

end

/-- A loop over strands of which each step changes its own strand alone. P is what the change may depend on and the loop keeps. -/
theorem strandOf_each {P : State → Prop} {l : List Nat} {g : Nat → State → State} {u : Nat → StrandSt → StrandSt} (hl : l.Nodup)
    (hP : ∀ q a, P a → P (g q a)) (hg : ∀ q a, P a → (g q a).strands = tmod {} a.strands q (u q)) {s : State} (h : P s) (r : Nat) :
    strandOf (each l g s) r = if r ∈ l then u r (strandOf s r) else strandOf s r := by
  have hstep (q : Nat) (a : State) (ha : P a) (r : Nat) : strandOf (g q a) r = if r = q then u r (strandOf a r) else strandOf a r := by
    unfold strandOf
    rw [hg q a ha]
    split
    · next h => rw [h, tget_tmod_eq]
    · next h => exact tget_tmod_ne _ _ _ h
  induction l generalizing s with
  | nil => simp
  | cons q m ih =>
    obtain ⟨hqm, hm⟩ := List.nodup_cons.1 hl
    rw [each_cons, ih hm (hP q s h), hstep q s h]
    by_cases hr : r = q
    · subst hr
      simp [hqm]
    · simp [hr]

end Sys2Proof.Machine
end

section
/-! SUPPORT. What an operation on one sub-link leaves alone, and what the operations that move a sub-link as a whole do to its book and its strands
(R54, R58, R65). -/

namespace Sys2Proof.Machine

/-! ## Loops that keep a part of the state -/

section
variable {α : Type} {l : List α} {g : α → State → State} {s : State}

theorem each_field {β : Type} (f : State → β) (hg : ∀ x a, f (g x a) = f a) : f (each l g s) = f s :=
  each_induct (P := fun a => f a = f s) (fun x _ a ha => (hg x a).trans ha) rfl

/-- What one step sends, the loop has sent. P is what the step may depend on and the loop keeps. -/
theorem mem_out_each {P : State → Prop} {o : Out} {x : α} (hx : x ∈ l) (hk : ∀ y a, a.out <:+ (g y a).out) (hP : ∀ y a, P a → P (g y a))
    (ho : ∀ a, P a → o ∈ (g x a).out) (h : P s) : o ∈ (each l g s).out := by
  induction l generalizing s with
  | nil => cases hx
  | cons y r ih =>
    rcases List.mem_cons.1 hx with rfl | hr
    · exact each_induct (P := fun a => o ∈ a.out) (s := g _ s) (fun z _ a ha => (hk z a).subset ha) (ho s h)
    · exact ih hr (hP y s h)

end

/-! ## One sub-link alone -/

/-- Of links and strands, those of sub-link k alone may have changed, and beyond them only what has been sent. -/
structure OnlyAt (k : Nat) (s t : State) : Prop where
  keeps : Keeps true 0x30001 s t
  link : ∀ j, j ≠ k → linkOf t j = linkOf s j
  strand : ∀ r, r ∉ strandPos s k → strandOf t r = strandOf s r

section
variable {k j p : Nat} {s t u : State}

theorem OnlyAt.refl (k : Nat) (s : State) : OnlyAt k s s := ⟨.refl _ _ _, fun _ _ => rfl, fun _ _ => rfl⟩

theorem OnlyAt.ports (h : OnlyAt k s t) : t.ports = s.ports := h.keeps.only.ports (by decide)

theorem OnlyAt.trans (h : OnlyAt k s t) (h' : OnlyAt k t u) : OnlyAt k s u :=
  ⟨h.keeps.trans h'.keeps, fun j hj => (h'.link j hj).trans (h.link j hj),
    fun r hr => (h'.strand r (by rwa [strandPos_congr h.ports])).trans (h.strand r hr)⟩

theorem OnlyAt.modLink (f : SubLink → SubLink) (h : OnlyAt k s t) : OnlyAt k s (modLink k f t) :=
  h.trans ⟨modLink_keeps _ _ (.refl _ _ _) rfl, fun _ hj => linkOf_modLink_other f hj, fun _ _ => rfl⟩

theorem OnlyAt.modStrand {q : Nat} (f : StrandSt → StrandSt) (hq : q ∈ strandPos s k) (h : OnlyAt k s t) : OnlyAt k s (modStrand q f t) :=
  ⟨modStrand_keeps _ _ h.keeps rfl, h.link, fun r hr => (strandOf_modStrand_other f (ne_of_mem_of_not_mem hq hr).symm).trans (h.strand r hr)⟩

theorem OnlyAt.emit (o : Out) (h : OnlyAt k s t) : OnlyAt k s (emit o t) := ⟨emit_keeps _ h.keeps rfl, h.link, h.strand⟩

theorem OnlyAt.each {α : Type} {l : List α} {g : α → State → State} (hg : ∀ x ∈ l, ∀ a, OnlyAt k s a → OnlyAt k s (g x a)) (h : OnlyAt k s t) :
    OnlyAt k s (each l g t) := each_induct hg h

theorem OnlyAt.iff {b : Bool} {f : State → State} (hf : OnlyAt k s t → OnlyAt k s (f t)) (h : OnlyAt k s t) : OnlyAt k s (iff b f t) := by
  cases b
  · exact h
  · exact hf h

/-- With nothing but strands and links changed, what else a state holds. -/
theorem Keeps.at_link {d : Bool} (h : Keeps d 0x30001 s t) : t = { s with out := t.out, strands := t.strands, links := t.links } := h.eq

theorem mem_strandPos_of_live {q : Nat} (h : q ∈ liveStrands s k) : q ∈ strandPos s k := (mem_liveStrands.1 h).1

end

/-! ## Loops over strands -/

section
variable (l : List Nat) (f : Nat → State → StrandSt → StrandSt) (o : Nat → State → Out) (s : State)

/-- A loop over strands, each of which changes, changes strands alone. -/
theorem each_modStrand_eq : each l (fun q a => modStrand q (f q a) a) s = { s with strands := (each l (fun q a => modStrand q (f q a) a) s).strands } :=
  each_induct (P := fun a => a = { s with strands := a.strands }) (fun q _ a ha => by rw [ha]; rfl) rfl

/-- If something is sent of each as well, strands and what has been sent. -/
theorem each_emit_modStrand_eq : each l (fun q a => emit (o q a) (modStrand q (f q a) a)) s = { s with
    strands := (each l (fun q a => emit (o q a) (modStrand q (f q a) a)) s).strands, out := (each l (fun q a => emit (o q a) (modStrand q (f q a) a)) s).out } :=
  each_induct (P := fun a => a = { s with strands := a.strands, out := a.out }) (fun q _ a ha => by rw [ha]; rfl) rfl

@[simp] theorem linkOf_each_modStrand (j : Nat) : linkOf (each l (fun q a => modStrand q (f q a) a) s) j = linkOf s j := by
  rw [each_modStrand_eq]; rfl

@[simp] theorem linkOf_each_emit_modStrand (j : Nat) : linkOf (each l (fun q a => emit (o q a) (modStrand q (f q a) a)) s) j = linkOf s j := by
  rw [each_emit_modStrand_eq]; rfl

@[simp] theorem clock_each_emit_modStrand : (each l (fun q a => emit (o q a) (modStrand q (f q a) a)) s).clock = s.clock := by
  rw [each_emit_modStrand_eq]

end

/-! ## The state of a sub-link and of its live strands -/

section
variable {k : Nat} {st : LinkSt} {s : State}

theorem onlyAt_linkTo (k : Nat) (st : LinkSt) (s : State) : OnlyAt k s (linkTo k st s) :=
  .modLink _ (.each (fun _ hq _ h => h.modStrand _ (mem_strandPos_of_live hq)) (.refl k s))

theorem linkOf_linkTo (k : Nat) (st : LinkSt) (s : State) : linkOf (linkTo k st s) k = { linkOf s k with st := st } := by
  unfold linkTo
  rw [linkOf_modLink_same, linkOf_each_modStrand]

theorem strandOf_linkTo (k : Nat) (st : LinkSt) (s : State) (r : Nat) :
    strandOf (linkTo k st s) r = if r ∈ liveStrands s k then { strandOf s r with st := st } else strandOf s r :=
  strandOf_each (P := fun _ => True) (u := fun _ x => { x with st := st }) (liveStrands_nodup s k) (fun _ _ _ => trivial) (fun _ _ _ => rfl) trivial r

/-! ## Idle -/

theorem onlyAt_enterIdle (k : Nat) (s : State) : OnlyAt k s (enterIdle k s) :=
  OnlyAt.trans (.modLink _ (.each (fun _ hq _ h => (h.modStrand _ (mem_strandPos_of_live hq)).emit _) (.refl k s))) (onlyAt_linkTo k .idle _)

/-- The live strands of a sub-link have another light and nothing else. -/
theorem strandOf_lights {l : List Nat} {m : Light} (hl : l.Nodup) (s : State) (r : Nat) :
    strandOf (each l (fun q s => emit (.light q m) (modStrand q (fun x => { x with light := m }) s)) s) r =
      if r ∈ l then { strandOf s r with light := m } else strandOf s r :=
  strandOf_each (P := fun _ => True) (u := fun _ x => { x with light := m }) hl (fun _ _ _ => trivial) (fun _ _ _ => rfl) trivial r

theorem linkOf_enterIdle (k : Nat) (s : State) : linkOf (enterIdle k s) k = { linkOf s k with st := .idle, idleTx := true, idleAt := s.clock } := by
  unfold enterIdle
  rw [linkOf_linkTo, linkOf_modLink_same]
  rw [linkOf_each_emit_modStrand, clock_each_emit_modStrand]

theorem light_enterIdle {q : Nat} (hq : q ∈ liveStrands s k) : (strandOf (enterIdle k s) q).light = .cOnly ∧ .light q .cOnly ∈ (enterIdle k s).out := by
  unfold enterIdle
  refine ⟨?_, ?_⟩
  · rw [strandOf_linkTo, strandOf_modLink, strandOf_lights (liveStrands_nodup s k), if_pos hq]
    split <;> rfl
  · exact (onlyAt_linkTo k .idle _).keeps.sent.subset (mem_out_each (P := fun _ => True) hq (fun _ _ => List.suffix_cons _ _) (fun _ _ _ => trivial)
      (fun _ _ => List.mem_cons_self) trivial)

/-- The strands that leave Idle: full light, 8 training slots on every lane, the deadlines shifted by the time in Idle (R65, R66). -/
def lightFull (k : Nat) (s : State) : State :=
  each (liveStrands s k) (fun q a => each (lanesOf a q) (fun lane => emit (.trainSlots q lane 8)) (emit (.light q .full) (modStrand q (fun x => { x with
    light := .full, due := x.due.map fun d => (d.1, d.2 + (a.clock - (linkOf s k).idleAt)) }) a))) s

theorem leaveIdle_of_idle (h : (linkOf s k).idleTx = true) :
    leaveIdle k s = linkTo k .active (modLink k (fun l => { l with idleTx := false, emptyAt := (lightFull k s).clock }) (lightFull k s)) := if_pos h

theorem onlyAt_lightFull (k : Nat) (s : State) : OnlyAt k s (lightFull k s) :=
  .each (fun _ hq _ h => .each (fun _ _ _ h => h.emit _) ((h.modStrand _ (mem_strandPos_of_live hq)).emit _)) (.refl k s)

/-- Slots on every lane change no part but what has been sent. -/
theorem each_emit_eq {α : Type} (l : List α) (o : α → Out) (s : State) : each l (fun x => emit (o x)) s = { s with out := (each l (fun x => emit (o x)) s).out } :=
  each_induct (P := fun a => a = { s with out := a.out }) (fun _ _ a ha => by rw [ha]; rfl) rfl

/-- A strand of lightFull's list after it, in a state of this clock. -/
def lit (clock : Nat) (l : SubLink) (x : StrandSt) : StrandSt := { x with light := .full, due := x.due.map fun d => (d.1, d.2 + (clock - l.idleAt)) }

theorem strandOf_lightFull (k : Nat) (s : State) (r : Nat) :
    strandOf (lightFull k s) r = if r ∈ liveStrands s k then lit s.clock (linkOf s k) (strandOf s r) else strandOf s r := by
  refine strandOf_each (P := fun a => a.clock = s.clock) (u := fun _ => lit s.clock (linkOf s k)) (liveStrands_nodup s k) (fun q a ha => ?_) (fun q a ha => ?_) rfl r
  · rw [each_emit_eq]
    exact ha
  · rw [each_emit_eq, ← ha]
    rfl

theorem linkOf_lightFull (k : Nat) (s : State) : linkOf (lightFull k s) k = linkOf s k := by
  refine each_induct (P := fun a => linkOf a k = linkOf s k) (fun q _ a ha => ?_) rfl
  rw [each_emit_eq]
  exact ha

theorem clock_lightFull (k : Nat) (s : State) : (lightFull k s).clock = s.clock := (onlyAt_lightFull k s).keeps.only.clock (by decide)

theorem trainSlots_lightFull {q lane : Nat} (hq : q ∈ liveStrands s k) (hl : lane ∈ lanesOf s q) : .trainSlots q lane 8 ∈ (lightFull k s).out := by
  have hlanes (q : Nat) (a : State) (r : Nat) (ha : lanesOf a r = lanesOf s r) :
      lanesOf (each (lanesOf a q) (fun lane => emit (.trainSlots q lane 8)) (emit (.light q .full) (modStrand q (lit a.clock (linkOf s k)) a))) r = lanesOf s r := by
    rw [each_emit_eq, ← ha]
    change lanesOf (modStrand q (lit a.clock (linkOf s k)) a) r = _
    unfold lanesOf
    rw [strandOf_modStrand]
    split <;> rfl
  refine mem_out_each (P := fun a => ∀ r, lanesOf a r = lanesOf s r) hq (fun q a => ?_) (fun q a ha r => hlanes q a r (ha r)) (fun a ha => ?_) fun _ => rfl
  · exact (each_keeps (d := true) (L := 0x30001) (fun _ _ h => emit_keeps _ h rfl) (emit_keeps _ (modStrand_keeps _ _ (.refl _ _ a) rfl) rfl)).sent
  · exact mem_out_each (P := fun _ => True) ((ha q).symm ▸ hl) (fun _ _ => List.suffix_cons _ _) (fun _ _ _ => trivial) (fun _ _ => List.mem_cons_self) trivial

theorem onlyAt_leaveIdle (k : Nat) (s : State) : OnlyAt k s (leaveIdle k s) := by
  cases h : (linkOf s k).idleTx with
  | true =>
    rw [leaveIdle_of_idle h]
    exact ((onlyAt_lightFull k s).modLink _).trans (onlyAt_linkTo k .active _)
  | false =>
    rw [leaveIdle, if_neg (by simp [h])]
    exact .refl k s

theorem linkOf_leaveIdle (h : (linkOf s k).idleTx = true) : linkOf (leaveIdle k s) k = { linkOf s k with st := .active, idleTx := false, emptyAt := s.clock } := by
  rw [leaveIdle_of_idle h, linkOf_linkTo, linkOf_modLink_same, linkOf_lightFull, clock_lightFull]

/-- Leaving Idle brings full light and training slots on every lane. -/
theorem lights_leaveIdle {q : Nat} (h : (linkOf s k).idleTx = true) (hq : q ∈ liveStrands s k) :
    (strandOf (leaveIdle k s) q).light = .full ∧ ∀ lane ∈ lanesOf s q, .trainSlots q lane 8 ∈ (leaveIdle k s).out := by
  rw [leaveIdle_of_idle h]
  refine ⟨?_, fun lane hl => (onlyAt_linkTo k .active _).keeps.sent.subset (trainSlots_lightFull hq hl)⟩
  rw [strandOf_linkTo, strandOf_modLink, strandOf_lightFull, if_pos hq]
  split <;> rfl

/-! ## Doze -/

theorem leaveDoze_of_not_doze (h : (linkOf s k).st ≠ .doze) : leaveDoze k s = s := if_neg h

theorem onlyAt_leaveDoze (k : Nat) (s : State) : OnlyAt k s (leaveDoze k s) := by
  unfold leaveDoze
  split
  · exact .modLink _ (.each (fun _ hq _ h => (h.modStrand _ hq).emit _) (.refl k s))
  · exact .refl k s

theorem linkOf_leaveDoze (h : (linkOf s k).st = .doze) : linkOf (leaveDoze k s) k = { linkOf s k with st := .active, lpWant := none, emptyAt := s.clock } := by
  rw [leaveDoze, if_pos h, linkOf_modLink_same, linkOf_each_emit_modStrand, clock_each_emit_modStrand]

theorem strandOf_leaveDoze (h : (linkOf s k).st = .doze) (r : Nat) : strandOf (leaveDoze k s) r =
    if r ∈ strandPos s k then { strandOf s r with light := .full, st := if (strandOf s r).outOfUse then (strandOf s r).st else .active } else strandOf s r := by
  rw [leaveDoze, if_pos h]
  exact strandOf_each (P := fun _ => True) (u := fun _ x => { x with light := .full, st := if x.outOfUse then x.st else .active }) (strandPos_nodup s k)
    (fun _ _ _ => trivial) (fun _ _ _ => rfl) trivial r

/-! ## Training in full (R54, R58) -/

/-- The strands with which a sub-link trains in full: those in use, or all where none is. -/
def trained (s : State) (k : Nat) : List Nat :=
  if (strandPos s k).all fun q => (strandOf s q).outOfUse then strandPos s k else (strandPos s k).filter fun q => !(strandOf s q).outOfUse

/-- A strand as it begins to train, on d0 alone or not. -/
def startStrand (d0 : Bool) (x : StrandSt) : StrandSt := { startLanes d0 x with
  light := .full, alone := false, st := if x.cLost then .down else .clock, reason := if x.cLost then .noLight else .none }

/-- Does a strand that trains see c? -/
def seesLight (s : State) (k : Nat) : Bool := (trained s k).any fun q => !(strandOf s q).cLost

/-- Strands out of use come back where all are. -/
def takeBack (k : Nat) (s : State) : State :=
  iff ((strandPos s k).all fun q => (strandOf s q).outOfUse) (each (strandPos s k) fun q => modStrand q fun x => { x with outOfUse := false }) s

theorem onlyAt_takeBack (k : Nat) (s : State) : OnlyAt k s (takeBack k s) :=
  .iff (fun h => .each (fun _ hq _ h => h.modStrand _ hq) h) (.refl k s)

theorem linkOf_takeBack (k : Nat) (s : State) (j : Nat) : linkOf (takeBack k s) j = linkOf s j := by
  unfold takeBack
  cases (strandPos s k).all fun q => (strandOf s q).outOfUse
  · rfl
  · exact linkOf_each_modStrand _ _ _ _

theorem strandOf_takeBack (k : Nat) (s : State) (r : Nat) :
    strandOf (takeBack k s) r = if r ∈ trained s k then { strandOf s r with outOfUse := false } else strandOf s r := by
  unfold takeBack trained
  cases (strandPos s k).all fun q => (strandOf s q).outOfUse with
  | true => exact strandOf_each (P := fun _ => True) (u := fun _ x => { x with outOfUse := false }) (strandPos_nodup s k) (fun _ _ _ => trivial) (fun _ _ _ => rfl) trivial r
  | false =>
    simp only [iff_false, Bool.false_eq_true, if_false, List.mem_filter, Bool.not_eq_true']
    split
    · next h => rw [← h.2]
    · rfl

/-- After it the strands in use are those that train. -/
theorem filter_takeBack (k : Nat) (s : State) : (strandPos s k).filter (fun q => !(strandOf (takeBack k s) q).outOfUse) = trained s k := by
  have hr (q : Nat) (hq : q ∈ strandPos s k) : (!(strandOf (takeBack k s) q).outOfUse) = decide (q ∈ trained s k) := by
    rw [strandOf_takeBack]
    split
    · next h => simp [h]
    · next h =>
      unfold trained at h ⊢
      split at h
      · exact absurd hq h
      · next hall => simp only [if_neg hall, List.mem_filter, hq, true_and]; simp
  rw [List.filter_congr hr]
  unfold trained
  split
  · simp
  · rw [List.filter_congr (q := fun q => !(strandOf s q).outOfUse) fun q hq => by simp [hq]]

/-- Strands begin to train. -/
def startAll (l : List Nat) (s : State) : State := each l (fun q s => emit (.light q .full) (modStrand q (startStrand (d0Strand s q)) s)) s

theorem strandOf_startAll {l : List Nat} (hl : l.Nodup) (s : State) (r : Nat) :
    strandOf (startAll l s) r = if r ∈ l then startStrand (d0Strand s r) (strandOf s r) else strandOf s r := by
  refine strandOf_each (P := fun a => a.ports = s.ports) (u := fun r => startStrand (d0Strand s r)) (g := fun q s => emit (.light q .full) (modStrand q (startStrand (d0Strand s q)) s))
    hl (fun _ _ ha => ha) (fun q a ha => ?_) rfl r
  have hd : d0Strand a q = d0Strand s q := by
    unfold d0Strand strandsIn portOf
    rw [ha]
  rw [← hd]
  rfl

theorem trained_subset (s : State) (k : Nat) : trained s k ⊆ strandPos s k := by
  unfold trained
  split
  · exact List.Subset.refl _
  · exact List.filter_subset_self _

theorem trained_nodup (s : State) (k : Nat) : (trained s k).Nodup := by
  unfold trained
  split
  · exact strandPos_nodup s k
  · exact (strandPos_nodup s k).filter _

/-- A sub-link trains on strands of a list. -/
def trainOn (k : Nat) (l : List Nat) (s : State) : State :=
  let seen := l.any fun q => !(strandOf (startAll l s) q).cLost
  modLink k (fun b => freshLink b (if seen then .clock else .down) (if seen then .none else .noLight)) (startAll l s)

theorem trainFull_trainOn (k : Nat) (s : State) : trainFull k s = trainOn k ((strandPos s k).filter fun q => !(strandOf (takeBack k s) q).outOfUse) (takeBack k s) := rfl

theorem trainFull_eq (k : Nat) (s : State) : trainFull k s =
    modLink k (fun l => freshLink l (if seesLight s k then .clock else .down) (if seesLight s k then .none else .noLight)) (startAll (trained s k) (takeBack k s)) := by
  have hs : ((trained s k).any fun q => !(strandOf (startAll (trained s k) (takeBack k s)) q).cLost) = seesLight s k := by
    unfold seesLight
    rw [Bool.eq_iff_iff, List.any_eq_true, List.any_eq_true]
    refine exists_congr fun q => and_congr_right fun hq => ?_
    rw [strandOf_startAll (trained_nodup s k), if_pos hq, strandOf_takeBack, if_pos hq]
    rfl
  rw [trainFull_trainOn, filter_takeBack]
  simp only [trainOn, hs]

theorem onlyAt_trainFull (k : Nat) (s : State) : OnlyAt k s (trainFull k s) := by
  rw [trainFull_eq]
  exact .modLink _ (.each (fun _ hq _ h => (h.modStrand _ (trained_subset s k hq)).emit _) (onlyAt_takeBack k s))

theorem linkOf_trainFull (k : Nat) (s : State) :
    linkOf (trainFull k s) k = freshLink (linkOf s k) (if seesLight s k then .clock else .down) (if seesLight s k then .none else .noLight) := by
  rw [trainFull_eq, linkOf_modLink_same, startAll, linkOf_each_emit_modStrand, linkOf_takeBack]

theorem strandOf_trainFull (k : Nat) (s : State) (r : Nat) :
    strandOf (trainFull k s) r = if r ∈ trained s k then startStrand (d0Strand s r) { strandOf s r with outOfUse := false } else strandOf s r := by
  have hd : d0Strand (takeBack k s) r = d0Strand s r := by
    unfold d0Strand strandsIn portOf
    rw [(onlyAt_takeBack k s).ports]
  rw [trainFull_eq, strandOf_modLink, strandOf_startAll (trained_nodup s k), strandOf_takeBack, hd]
  split <;> rfl

/-- A strand in use trains. -/
theorem mem_trained {q : Nat} (hq : q ∈ strandPos s k) (h : (strandOf s q).outOfUse = false) : q ∈ trained s k := by
  unfold trained
  split
  · exact hq
  · exact List.mem_filter.2 ⟨hq, by rw [h]; rfl⟩

end

end Sys2Proof.Machine
end

section
/-! Idle, Doze and Dark on a sub-link (R65, R67, R71): the rows that enter and leave them, and what a request on a port does to each of its sub-links. -/

namespace Sys2Proof.Machine

/-! ## Idle -/

section
variable {p : Port} {x : Strand} {s : State} (hp : portOn s p = true)
include hp

theorem exec_idleEntry (hst : (linkOf s (subKey s p x)).st = .active) (hi : (linkOf s (subKey s p x)).idleTx = false) (hen : (portOf s p).idleEn = true)
    (hq : (linkOf s (subKey s p x)).txq = []) (hre : (linkOf s (subKey s p x)).replay = []) (hrs : (linkOf s (subKey s p x)).resend = [])
    (hc : credShown s (subKey s p x) = (linkOf s (subKey s p x)).credSent) (hn : (linkOf s (subKey s p x)).nakPend = false)
    (hw : (linkOf s (subKey s p x)).lpWant = none) : exec (.idleEntry p x) s =
      .next (enterIdle (subKey s p x) (clockTo ((linkOf s (subKey s p x)).emptyAt + (portOf s p).idleNs.toNat) s)) := by
  change execIdleEntry p x s = _
  simp only [execIdleEntry]
  exact congrArg _ (if_pos (by simp [hp, hst, hi, hen, hq, hre, hrs, hn, hw, creditPending, hc]))

omit hp in
theorem exec_idleEntry_busy (h : (linkOf s (subKey s p x)).st ≠ .active ∨ (linkOf s (subKey s p x)).txq ≠ []) : exec (.idleEntry p x) s = .next s := by
  change execIdleEntry p x s = _
  simp only [execIdleEntry]
  refine congrArg _ (if_neg ?_)
  rcases h with h | h <;> simp [h]

theorem exec_idleExit (h : (linkOf s (subKey s p x)).txq ≠ [] ∨ (linkOf s (subKey s p x)).resend ≠ [] ∨ (linkOf s (subKey s p x)).nakPend = true ∨
    credShown s (subKey s p x) ≠ (linkOf s (subKey s p x)).credSent) : exec (.idleExit p x) s = .next (leaveIdle (subKey s p x) s) := by
  change execIdleExit p x s = _
  simp only [execIdleExit]
  refine congrArg _ (if_pos ?_)
  rcases h with h | h | h | h <;> simp [hp, creditPending, h]

omit hp in
theorem exec_idleExit_empty (hq : (linkOf s (subKey s p x)).txq = []) (hrs : (linkOf s (subKey s p x)).resend = [])
    (hc : credShown s (subKey s p x) = (linkOf s (subKey s p x)).credSent) (hn : (linkOf s (subKey s p x)).nakPend = false) :
    exec (.idleExit p x) s = .next s := by
  change execIdleExit p x s = _
  simp only [execIdleExit]
  exact congrArg _ (if_neg (by simp [hq, hrs, hn, creditPending, hc]))

end

/-! ## Requests on one sub-link -/

/-- Of two states: nothing that a request reads of sub-link k has changed, and nothing sent has been taken back. -/
structure SameAt (k : Nat) (s t : State) : Prop where
  link : linkOf t k = linkOf s k
  strand : ∀ q ∈ strandPos s k, strandOf t q = strandOf s q
  ports : t.ports = s.ports
  queues : t.queues = s.queues
  sent : s.out <:+ t.out

section
variable {j k p : Nat} {s t u : State}

theorem SameAt.refl (k : Nat) (s : State) : SameAt k s s := ⟨rfl, fun _ _ => rfl, rfl, rfl, List.suffix_refl _⟩

theorem SameAt.trans (h : SameAt k s t) (h' : SameAt k t u) : SameAt k s u :=
  ⟨h'.link.trans h.link, fun q hq => (h'.strand q (by rwa [strandPos_congr h.ports])).trans (h.strand q hq), h'.ports.trans h.ports,
    h'.queues.trans h.queues, h.sent.trans h'.sent⟩

/-- Another sub-link of the port is as it was. -/
theorem OnlyAt.sameAt (h : OnlyAt k s t) (hk : k ∈ subKeys s p) (hj : j ∈ subKeys s p) (hne : j ≠ k) : SameAt j s t :=
  ⟨h.link j hne, fun q hq => h.strand q (strandPos_disjoint hj hk hne hq), h.ports, h.keeps.only.queues (by decide), h.keeps.sent⟩

theorem nothingToSend_congr (hl : linkOf t j = linkOf s j) (hq : t.queues = s.queues) : nothingToSend t j = nothingToSend s j := by
  unfold nothingToSend queueOf
  rw [hl, hq]

theorem onlyAt_askDoze (k : Nat) (s : State) : OnlyAt k s (askDoze k s) := by
  unfold askDoze
  split
  · split
    · exact (onlyAt_leaveIdle k s).modLink _
    · exact .refl k s
  · split
    · exact (onlyAt_leaveIdle k s).modLink _
    · exact .refl k s
  · exact .refl k s

theorem onlyAt_askDark (k : Nat) (s : State) : OnlyAt k s (askDark k s) := by
  unfold askDark
  split
  · exact .modLink _ (.refl k s)
  · exact .refl k s

/-- The wake pattern goes out on the strands in use. -/
def wakePatterns (k : Nat) (s : State) : State := each (strandPos s k) (fun q s => if (strandOf s q).outOfUse then s else emit (.wakePattern q) s) s

theorem wakePatterns_eq (k : Nat) (s : State) : wakePatterns k s = { s with out := (wakePatterns k s).out } :=
  each_induct (P := fun a => a = { s with out := a.out }) (fun q _ a ha => by split <;> rw [ha]; rfl) rfl

theorem onlyAt_wakePatterns (k : Nat) (s : State) : OnlyAt k s (wakePatterns k s) :=
  .each (fun q _ a h => by split; exacts [h, h.emit _]) (.refl k s)

theorem mem_wakePatterns {q : Nat} (hq : q ∈ strandPos s k) (h : (strandOf s q).outOfUse = false) : .wakePattern q ∈ (wakePatterns k s).out := by
  refine mem_out_each (P := fun a => strandOf a q = strandOf s q) hq (fun q a => ?_) (fun q a ha => ?_) (fun a ha => ?_) rfl
  · split
    · exact List.suffix_refl _
    · exact List.suffix_cons _ _
  · split <;> exact ha
  · rw [ha, h]
    exact List.mem_cons_self

theorem wakeLink_of_dark (h : (linkOf s k).st = .dark) : wakeLink k s = trainFull k (wakePatterns k s) := by
  unfold wakeLink
  rw [h]
  rfl

theorem wakeLink_of_doze (h : (linkOf s k).st = .doze) : wakeLink k s = leaveDoze k s := by
  unfold wakeLink
  rw [h]

theorem wakeLink_of_other (hz : (linkOf s k).st ≠ .doze) (hd : (linkOf s k).st ≠ .dark) : wakeLink k s = modLink k (fun l => { l with lpWant := none }) s := by
  unfold wakeLink
  split
  · exact absurd ‹_› hz
  · exact absurd ‹_› hd
  · rfl

theorem onlyAt_wakeLink (k : Nat) (s : State) : OnlyAt k s (wakeLink k s) := by
  by_cases hz : (linkOf s k).st = .doze
  · rw [wakeLink_of_doze hz]
    exact onlyAt_leaveDoze k s
  by_cases hd : (linkOf s k).st = .dark
  · rw [wakeLink_of_dark hd]
    exact (onlyAt_wakePatterns k s).trans (onlyAt_trainFull k _)
  · rw [wakeLink_of_other hz hd]
    exact .modLink _ (.refl k s)

/-! ## Requests on a port -/

/-- The request a port's register holds. -/
def noteReq (p r : Nat) (s : State) : State := modPort p (fun x => { x with lpReq := BitVec.ofNat 2 r }) s

theorem portOf_noteReq (p r j : Nat) (s : State) : portOf (noteReq p r s) j = if j = p then { portOf s j with lpReq := BitVec.ofNat 2 r } else portOf s j := by
  unfold noteReq
  split
  · next h => rw [h, portOf_modPort_same]
  · next h => exact portOf_modPort_other _ h

theorem subKeys_noteReq (p r j : Nat) (s : State) : subKeys (noteReq p r s) j = subKeys s j := by
  have h : (portOf (noteReq p r s) j).breakout = (portOf s j).breakout := by
    rw [portOf_noteReq]
    split <;> rfl
  unfold subKeys
  rw [h]

theorem strandPos_noteReq (p r k : Nat) (s : State) : strandPos (noteReq p r s) k = strandPos s k := by
  have h : (portOf (noteReq p r s) (k / 4)).breakout = (portOf s (k / 4)).breakout := by
    rw [portOf_noteReq]
    split <;> rfl
  unfold strandPos strandsIn
  rw [h]

theorem portOn_noteReq (p r : Nat) (s : State) : portOn (noteReq p r s) p = portOn s p := by
  unfold portOn
  rw [portOf_noteReq, if_pos rfl]
  rfl

/-- A request on each sub-link of a port, seen at one of them: that sub-link is as it was before the request on it, and stays as that left it. -/
theorem each_subKeys_at {g : Nat → State → State} (hg : ∀ k a, OnlyAt k a (g k a)) (hj : j ∈ subKeys s p) :
    ∃ a, SameAt j s a ∧ SameAt j (g j a) (each (subKeys s p) g s) := by
  obtain ⟨a, h1, h2⟩ := each_at (R := fun a b => subKeys a p = subKeys s p → subKeys b p = subKeys s p ∧ SameAt j a b) (g := g) (fun a h => ⟨h, .refl j a⟩)
    (fun a b c h1 h2 h => ⟨(h2 (h1 h).1).1, (h1 h).2.trans (h2 (h1 h).1).2⟩) (subKeys_nodup s p) hj
    (fun k hk hne a h => ⟨(subKeys_congr (hg k a).ports p).trans h, (hg k a).sameAt (h ▸ hk) (h ▸ hj) hne.symm⟩) s
  obtain ⟨hk, ha⟩ := h1 rfl
  exact ⟨a, ha, (h2 ((subKeys_congr (hg j a).ports p).trans hk)).2⟩

theorem each_subKeys_other {g : Nat → State → State} (hg : ∀ k a, OnlyAt k a (g k a)) (hj : j ∉ subKeys s p) :
    linkOf (each (subKeys s p) g s) j = linkOf s j :=
  each_induct (P := fun a => linkOf a j = linkOf s j) (fun k hk a ha => ((hg k a).link j fun e => hj (e ▸ hk)).trans ha) rfl

theorem ports_each_subKeys {g : Nat → State → State} (hg : ∀ k a, OnlyAt k a (g k a)) : (each (subKeys s p) g s).ports = s.ports :=
  each_field (·.ports) fun k a => (hg k a).ports

end

/-- What a request of LPM_CTL does to one sub-link. -/
def lpAsk (r k : Nat) : State → State := match r with | 1 => askDoze k | 2 => askDark k | 3 => wakeLink k | _ => id

theorem lpRequest_eq {p : Nat} {s : State} (hp : portOn s p = true) (r : Nat) :
    lpRequest p r s = each (subKeys (noteReq p r s) p) (lpAsk r) (noteReq p r s) := by
  have hg : (fun k s => match r with | 1 => askDoze k s | 2 => askDark k s | 3 => wakeLink k s | _ => s) = lpAsk r := by
    funext k s
    unfold lpAsk
    split <;> rfl
  rw [← hg]
  refine (if_neg ?_ : lpRequest p r s = _)
  change ¬ (!portOn (noteReq p r s) p) = true
  rw [portOn_noteReq, hp]
  decide

theorem onlyAt_lpAsk (r k : Nat) (s : State) : OnlyAt k s (lpAsk r k s) := by
  unfold lpAsk
  split
  · exact onlyAt_askDoze k s
  · exact onlyAt_askDark k s
  · exact onlyAt_wakeLink k s
  · exact .refl k s

section
variable {p r : Nat} {s : State} (hp : portOn s p = true)
include hp

theorem lpReq_lpRequest : (portOf (lpRequest p r s) p).lpReq = BitVec.ofNat 2 r := by
  rw [lpRequest_eq hp, portOf_congr (ports_each_subKeys (onlyAt_lpAsk r)), portOf_noteReq, if_pos rfl]

/-- A request seen at one sub-link of the port. -/
theorem lpRequest_at {j : Nat} (hj : j ∈ subKeys s p) : ∃ a, SameAt j (noteReq p r s) a ∧ SameAt j (lpAsk r j a) (lpRequest p r s) := by
  rw [lpRequest_eq hp]
  exact each_subKeys_at (onlyAt_lpAsk r) (by rwa [subKeys_noteReq])

theorem lpRequest_other {j : Nat} (hj : j ∉ subKeys s p) : linkOf (lpRequest p r s) j = linkOf s j := by
  rw [lpRequest_eq hp, each_subKeys_other (onlyAt_lpAsk r) (by rwa [subKeys_noteReq])]
  rfl

end

/-! ## What each request does -/

section
variable {k : Nat} {s : State}

theorem lpWant_askDoze : (linkOf (askDoze k s) k).lpWant =
    if ((linkOf s k).st == .active || (linkOf s k).st == .idle) && nothingToSend s k then some .doze else (linkOf s k).lpWant := by
  have hask : (linkOf (if nothingToSend s k then modLink k (fun l => { l with lpWant := some .doze }) (leaveIdle k s) else s) k).lpWant =
      if nothingToSend s k then some .doze else (linkOf s k).lpWant := by
    split
    · rw [linkOf_modLink_same]
    · rfl
  unfold askDoze
  cases hst : (linkOf s k).st
  case active => simpa using hask
  case idle => simpa using hask
  all_goals rfl

theorem linkOf_askDark : linkOf (askDark k s) k =
    if (linkOf s k).st == .doze && (portOf s (k / 4)).darkEn then { linkOf s k with lpWant := some .dark } else linkOf s k := by
  unfold askDark
  split
  · rw [linkOf_modLink_same]
  · rfl

end

/-! ## The rows -/

section
variable {p : Port} {s : State} (hm : mgmtUp s = true)
include hm

theorem exec_requestDoze : exec (.requestDoze p) s = .next (lpRequest p 1 s) := congrArg Host.Outcome.next (if_pos hm)

theorem exec_requestDark : exec (.requestDark p) s = .next (lpRequest p 2 s) := congrArg Host.Outcome.next (if_pos hm)

theorem exec_wake : exec (.wake p) s = .next (lpRequest p 3 s) := congrArg Host.Outcome.next (if_pos hm)

end

section
variable {p : Nat} {s : State} (hp : portOn s p = true)
include hp

/-- REQUEST_DOZE asks where nothing waits to be sent. -/
theorem lpWant_requestDoze (j : Nat) : (linkOf (lpRequest p 1 s) j).lpWant =
    if decide (j ∈ subKeys s p) && ((linkOf s j).st == .active || (linkOf s j).st == .idle) && nothingToSend s j then some .doze else (linkOf s j).lpWant := by
  by_cases hj : j ∈ subKeys s p
  · obtain ⟨a, ha, ht⟩ := lpRequest_at (r := 1) hp hj
    have hl : linkOf a j = linkOf s j := ha.link
    have hn : nothingToSend a j = nothingToSend s j := nothingToSend_congr hl ha.queues
    rw [ht.link, lpAsk, lpWant_askDoze, hl, hn]
    simp [hj]
  · rw [lpRequest_other hp hj]
    simp [hj]

/-- REQUEST_DARK asks in Doze where the port may agree. -/
theorem linkOf_requestDark (j : Nat) : linkOf (lpRequest p 2 s) j =
    if decide (j ∈ subKeys s p) && (linkOf s j).st == .doze && (portOf s (j / 4)).darkEn then { linkOf s j with lpWant := some .dark } else linkOf s j := by
  by_cases hj : j ∈ subKeys s p
  · obtain ⟨a, ha, ht⟩ := lpRequest_at (r := 2) hp hj
    have hl : linkOf a j = linkOf s j := ha.link
    have hd : (portOf a (j / 4)).darkEn = (portOf s (j / 4)).darkEn := by
      rw [portOf_congr ha.ports, portOf_noteReq]
      split <;> rfl
    rw [ht.link, lpAsk, linkOf_askDark, hl, hd]
    simp [hj]
  · rw [lpRequest_other hp hj]
    simp [hj]

/-- WAKE on one of the port's sub-links: out of Doze at once, the wake pattern in Dark, else a request is taken back. -/
theorem wake_at {j : Nat} (hj : j ∈ subKeys s p) :
    ((linkOf s j).st = .doze → (linkOf (lpRequest p 3 s) j).st = .active ∧ ∀ q ∈ strandPos s j, (strandOf (lpRequest p 3 s) q).light = .full) ∧
    ((linkOf s j).st = .dark → ∀ q ∈ strandPos s j, (strandOf s q).outOfUse = false →
      .wakePattern q ∈ (lpRequest p 3 s).out ∧ (strandOf (lpRequest p 3 s) q).light = .full) ∧
    ((linkOf s j).st ≠ .doze → (linkOf s j).st ≠ .dark → linkOf (lpRequest p 3 s) j = { linkOf s j with lpWant := none }) := by
  obtain ⟨a, ha, ht⟩ := lpRequest_at (r := 3) hp hj
  have hl : linkOf a j = linkOf s j := ha.link
  have hpos : strandPos a j = strandPos s j := (strandPos_congr ha.ports j).trans (strandPos_noteReq ..)
  have hstr (q : Nat) (hq : q ∈ strandPos s j) : strandOf a q = strandOf s q := ha.strand q (by rwa [strandPos_noteReq])
  have hafter (q : Nat) (hq : q ∈ strandPos s j) : strandOf (lpRequest p 3 s) q = strandOf (wakeLink j a) q :=
    ht.strand q (by rwa [lpAsk, strandPos_congr (onlyAt_wakeLink j a).ports, hpos])
  refine ⟨fun hz => ⟨?_, fun q hq => ?_⟩, fun hd q hq hu => ⟨?_, ?_⟩, fun hz hd => ?_⟩
  · rw [ht.link, lpAsk, wakeLink_of_doze (hl ▸ hz), linkOf_leaveDoze (hl ▸ hz)]
  · rw [hafter q hq, wakeLink_of_doze (hl ▸ hz), strandOf_leaveDoze (hl ▸ hz), if_pos (hpos ▸ hq)]
  · refine ht.sent.subset ?_
    rw [lpAsk, wakeLink_of_dark (hl ▸ hd)]
    exact (onlyAt_trainFull j _).keeps.sent.subset (mem_wakePatterns (hpos ▸ hq) (by rw [hstr q hq, hu]))
  · rw [hafter q hq, wakeLink_of_dark (hl ▸ hd), strandOf_trainFull, if_pos]
    · rfl
    · refine mem_trained (by rwa [strandPos_congr (onlyAt_wakePatterns j a).ports, hpos]) ?_
      rw [wakePatterns_eq]
      exact (congrArg StrandSt.outOfUse (hstr q hq)).trans hu
  · rw [ht.link, lpAsk, wakeLink_of_other (hl ▸ hz) (hl ▸ hd), linkOf_modLink_same, hl]

theorem keeps_requestDark : Keeps true 0x28000 s (lpRequest p 2 s) := by
  rw [lpRequest_eq hp]
  exact each_keeps (fun k a h => askDark_keeps k h rfl) (modPort_keeps _ _ (.refl _ _ s) rfl)

end

/-! ## Wake detectors -/

section
variable {p : Port} {x : Strand} {s : State}

theorem alive_of_portOn {p : Nat} (hp : portOn s p = true) : alive s = true := by
  unfold portOn at hp
  simp only [Bool.and_eq_true] at hp
  exact hp.1.1.1.1

section
variable (hp : portOn s p = true) (hrun : s.pwr.state = .run)
include hp hrun

theorem reportHeard_run (hw : bitOf s.pwr.wantOff (p / 12) = false) : reportHeard s p = true := by
  unfold reportHeard
  simp [alive_of_portOn hp, hw, hrun]

variable (hb : s.pwr.busy = false)
include hb

theorem detectorWake_run (pattern : Bool) : detectorWake p (4 * p.val + x.val) (subKey s p x) pattern s = lightWake (subKey s p x) (4 * p.val + x.val) pattern s := by
  unfold detectorWake
  simp only [hrun, hb]
  exact if_pos hp

variable (hw : bitOf s.pwr.wantOff (p / 12) = false)
include hw

theorem exec_wakePatternDetected {n : Nat} (hn : 12 ≤ n) :
    exec (.wakePatternDetected p x n) s = .next (lightWake (subKey s p x) (4 * p.val + x.val) true s) := by
  rw [← detectorWake_run hp hrun hb]
  exact congrArg Host.Outcome.next (if_pos (by simp [reportHeard_run hp hrun hw, hn]))

theorem exec_dozeLightWake : exec (.dozeLightWake p x) s = .next (lightWake (subKey s p x) (4 * p.val + x.val) false s) := by
  rw [← detectorWake_run hp hrun hb]
  exact congrArg Host.Outcome.next (if_pos (reportHeard_run hp hrun hw))

end

theorem exec_wakePatternDetected_short {n : Nat} (hn : n < 12) : exec (.wakePatternDetected p x n) s = .next s :=
  congrArg Host.Outcome.next (if_neg (by simp [hn]))

theorem lightWake_of_doze {k q : Nat} {b : Bool} (h : (linkOf s k).st = .doze) : (linkOf (lightWake k q b s) k).st = .active := by
  unfold lightWake
  simp only [h]
  rw [linkOf_leaveDoze h]

theorem lightWake_of_other {k q : Nat} {b : Bool} (hz : (linkOf s k).st ≠ .doze) (hd : (linkOf s k).st ≠ .dark ∨ b = false) : lightWake k q b s = s := by
  unfold lightWake
  split
  · exact absurd ‹_› hz
  · rcases hd with hd | rfl
    · exact absurd ‹_› hd
    · rfl
  · rfl

/-- The wake pattern on a sub-link in Dark starts its training, the strand that saw it with it. -/
theorem lightWake_of_dark {k q : Nat} (h : (linkOf s k).st = .dark) (hu : (strandOf s q).outOfUse = false) (hq : q ∈ strandPos s k) :
    (linkOf (lightWake k q true s) k).st = .clock ∧ (strandOf (lightWake k q true s) q).st = .clock := by
  have ht : q ∈ trained (modStrand q (fun x => { x with cLost := false }) s) k := mem_trained hq (by rw [strandOf_modStrand_same]; exact hu)
  have hseen : seesLight (modStrand q (fun x => { x with cLost := false }) s) k = true :=
    List.any_eq_true.2 ⟨q, ht, by rw [strandOf_modStrand_same]; rfl⟩
  unfold lightWake
  simp only [h, if_true]
  constructor
  · rw [linkOf_trainFull, hseen]
    rfl
  · rw [strandOf_trainFull, if_pos ht, strandOf_modStrand_same]
    rfl

end

/-- Settles O45: Idle, then a request on each sub-link of the port, then the wake detectors. -/
theorem lowPowerLinks : Obligations.LowPowerLinks := by
  intro p x s hm hp hrun hb
  refine ⟨fun hst hi hen hq hre hrs hc hn hw => ?entry, exec_idleEntry_busy, fun hi hq => ?exit, exec_idleExit_empty, ?doze, ?dark, ?wake,
    fun n => ⟨exec_wakePatternDetected_short, fun hn hw => ?pattern⟩, fun hw => ?light⟩
  case entry =>
    have h := onlyAt_enterIdle (subKey s p x) (clockTo ((linkOf s (subKey s p x)).emptyAt + (portOf s p).idleNs.toNat) s)
    exact ⟨_, exec_idleEntry hp hst hi hen hq hre hrs hc hn hw, h.keeps.at_link,
      (linkOf_enterIdle _ _).trans (by rw [h.keeps.only.clock (by decide)]; rfl), fun q hq => light_enterIdle hq, h.link⟩
  case exit =>
    have h := onlyAt_leaveIdle (subKey s p x) s
    exact ⟨_, exec_idleExit hp hq, h.keeps.at_link, linkOf_leaveIdle hi, fun q hq => lights_leaveIdle hi hq, h.link⟩
  case doze =>
    exact ⟨_, exec_requestDoze hm, (lpRequest_keeps (d := true) p.val 1 (.refl _ _ s) rfl : Keeps true 0x38001 s _).eq, lpReq_lpRequest hp, lpWant_requestDoze hp⟩
  case dark => exact ⟨_, exec_requestDark hm, (keeps_requestDark hp).eq, lpReq_lpRequest hp, linkOf_requestDark hp⟩
  case wake =>
    exact ⟨_, exec_wake hm, (lpRequest_keeps (d := true) p.val 3 (.refl _ _ s) rfl : Keeps true 0x38001 s _).eq, lpReq_lpRequest hp, fun j hj => wake_at hp hj,
      fun j hj => lpRequest_other hp hj⟩
  case pattern =>
    exact ⟨_, exec_wakePatternDetected hp hrun hb hw hn, (lightWake_keeps (d := true) _ _ _ (.refl _ _ s) rfl : Keeps true 0x30001 s _).eq, lightWake_of_doze,
      lightWake_of_dark, fun hz hd => lightWake_of_other hz (.inl hd)⟩
  case light => exact ⟨_, exec_dozeLightWake hp hrun hb hw, lightWake_of_doze, fun hz => lightWake_of_other hz (.inr rfl)⟩

end Sys2Proof.Machine
end

section
/-! SUPPORT. The links and strands that a lost sub-link's service leaves: what ends with it sends packets and lets buffers go (R100, R142, R203), which raises
sub-links from Doze and does nothing else to the state of a link or to a strand out of use. -/

namespace Sys2Proof.Machine

/-- Between two states no sub-link but one in Doze has moved, and of the strands out of use at most the light has changed. -/
structure Calm (s t : State) : Prop where
  link : ∀ k, (linkOf s k).st ≠ .doze → (linkOf t k).st = (linkOf s k).st ∧ (linkOf t k).reason = (linkOf s k).reason
  strand : ∀ q, (strandOf s q).outOfUse = true → ∃ m, strandOf t q = { strandOf s q with light := m }

section
variable {s t u : State}

theorem Calm.refl (s : State) : Calm s s := ⟨fun _ _ => ⟨rfl, rfl⟩, fun _ _ => ⟨_, rfl⟩⟩

theorem Calm.trans (h : Calm s t) (h' : Calm t u) : Calm s u := by
  refine ⟨fun k hk => ?_, fun q hq => ?_⟩
  · obtain ⟨hst, hre⟩ := h.link k hk
    obtain ⟨hst', hre'⟩ := h'.link k (hst ▸ hk)
    exact ⟨hst'.trans hst, hre'.trans hre⟩
  · obtain ⟨m, hm⟩ := h.strand q hq
    obtain ⟨m', hm'⟩ := h'.strand q (by rw [hm]; exact hq)
    exact ⟨m', by rw [hm', hm]⟩

/-- What touches neither links nor strands. -/
theorem Calm.keep (h : Calm s t) (hk : Keeps true 0x7ffcffff t u) : Calm s u :=
  h.trans ⟨fun k _ => by rw [linkOf_congr (hk.only.links (by decide))]; exact ⟨rfl, rfl⟩, fun q _ => ⟨_, strandOf_congr (hk.only.strands (by decide)) q⟩⟩

theorem Calm.modLink {k : Nat} {f : SubLink → SubLink} (h : Calm s t) (hf : ∀ l, (f l).st = l.st ∧ (f l).reason = l.reason) : Calm s (modLink k f t) := by
  refine h.trans ⟨fun j _ => ?_, fun _ _ => ⟨_, rfl⟩⟩
  rw [linkOf_modLink]
  split
  · exact hf _
  · exact ⟨rfl, rfl⟩

theorem Calm.each {α : Type} {l : List α} {g : α → State → State} (hg : ∀ x a, Calm s a → Calm s (g x a)) (h : Calm s t) : Calm s (each l g t) :=
  each_induct (fun x _ a => hg x a) h

theorem Calm.iff {b : Bool} {f : State → State} (hf : Calm s t → Calm s (f t)) (h : Calm s t) : Calm s (iff b f t) := by
  cases b
  · exact h
  · exact hf h

theorem Calm.ite {c : Prop} [Decidable c] (ht : Calm s t) (hu : Calm s u) : Calm s (if c then t else u) := by
  split
  · exact ht
  · exact hu

/-! ## Packets -/

theorem Calm.releaseFlits (k vc n : Nat) (h : Calm s t) : Calm s (releaseFlits k vc n t) := h.modLink fun _ => ⟨rfl, rfl⟩

theorem Calm.leaveStaging (pid : Nat) (h : Calm s t) : Calm s (leaveStaging pid t) := by
  unfold Machine.leaveStaging
  split
  · split
    · exact (h.releaseFlits _ _ _).keep (modPkt_keeps _ _ (.refl _ _ _) rfl)
    · exact h
  · exact h

theorem Calm.pullFlits (g pid : Nat) (h : Calm s t) : Calm s (pullFlits g pid t) := by
  have hl : Calm s (Machine.modLink (g / 8) (fun l => { l with txq := l.txq.filter fun f => f.src != some (g, pid) }) t) := h.modLink fun _ => ⟨rfl, rfl⟩
  exact hl.keep (modSched_keeps _ _ (.refl _ _ _) rfl)

theorem Calm.unlink (g pid : Nat) (h : Calm s t) : Calm s (unlink g pid t) := by
  unfold Machine.unlink
  split
  · have hp := h.pullFlits g pid
    have hq := fun f f' => (hp.keep (modQueue_keeps g f (.refl _ _ _) rfl)).keep (modPkt_keeps pid f' (.refl _ _ _) rfl)
    dsimp only
    split
    · refine Calm.keep ?_ (setPkt_keeps _ _ (.refl _ _ _) rfl)
      split
      · split
        · exact (hq _ _).keep (modSwc_keeps _ _ (.refl _ _ _) rfl)
        · exact ((hq _ _).keep (modSwc_keeps _ _ (.refl _ _ _) rfl)).keep (setStage_keeps _ _ _ _ (.refl _ _ _) rfl)
      · exact (hq _ _).keep (modSwc_keeps _ _ (.refl _ _ _) rfl)
    · exact hq _ _
  · exact h

/-- Landing room is given back at each die. -/
theorem Calm.landsFree (n : Nat) (l : Nat → State → List Arr) (f : Nat → State → SwcSt → SwcSt) (h : Calm s t) : Calm s (Machine.each (List.range 4)
    (fun d a => modSwc d (f d a) (Machine.each (l d a) (fun b a => landFree d b.src b.vc n a) a)) t) :=
  h.each fun _ _ ha => ha.keep (modSwc_keeps _ _ (each_keeps (fun _ _ hb => landFree_keeps _ _ _ _ hb rfl) (.refl _ _ _)) rfl)

theorem Calm.dropPkt (pid : Nat) (h : Calm s t) : Calm s (dropPkt pid t) := by
  unfold Machine.dropPkt
  split
  · exact h
  · have hd := fun n l f => (h.leaveStaging pid).landsFree n l f
    dsimp only
    split
    · refine Calm.keep ?_ (setPkt_keeps _ _ (.refl _ _ _) rfl)
      split
      · split
        · exact (hd _ _ _).keep (setStaging_keeps _ _ _ (.refl _ _ _) rfl)
        · exact (hd _ _ _).keep (setStage_keeps _ _ _ _ (.refl _ _ _) rfl)
      · exact hd _ _ _
    · exact (hd _ _ _).each fun g a ha => ha.unlink g pid

theorem Calm.leaveDoze (m : Nat) (h : Calm s t) : Calm s (leaveDoze m t) := by
  by_cases hz : (linkOf t m).st = .doze
  · refine h.trans ⟨fun k hk => ?_, fun q hq => ?_⟩
    · rw [(onlyAt_leaveDoze m t).link k fun e => hk (e ▸ hz)]
      exact ⟨rfl, rfl⟩
    · rw [strandOf_leaveDoze hz, hq]
      split
      · exact ⟨_, rfl⟩
      · exact ⟨_, rfl⟩
  · rwa [leaveDoze_of_not_doze hz]

theorem Calm.toEgress (d src vc m : Nat) (targets : List Nat) (pid : Nat) (h : Calm s t) : Calm s (toEgress d src vc m targets pid t) := by
  have hz := h.leaveDoze m
  unfold Machine.toEgress
  dsimp only
  split
  · exact hz
  · split
    · exact hz.keep (modSwc_keeps _ _ (.refl _ _ _) rfl)
    · split
      · split
        · exact hz.keep (modSwc_keeps _ _ (.refl _ _ _) rfl)
        · exact (((hz.keep (modSwc_keeps _ _ (.refl _ _ _) rfl)).keep (swcInject_keeps _ _ (.refl _ _ _) rfl)).leaveStaging pid).keep
            (modSwc_keeps _ _ (landTake_keeps _ _ _ _ (.refl _ _ _) rfl) rfl)
      · split
        · exact hz.keep (modSwc_keeps _ _ (.refl _ _ _) rfl)
        · exact hz.keep (modSwc_keeps _ _ (landTake_keeps _ _ _ _ (.refl _ _ _) rfl) rfl)

theorem Calm.routePkt (d pid : Nat) (h : Calm s t) : Calm s (routePkt d pid t) := by
  unfold Machine.routePkt
  split
  · exact h
  · have hl (hd : Hdr) : Calm s (lookup d hd (swcInject d 1 t)).2 := h.keep (lookup_keeps _ _ (swcInject_keeps _ _ (.refl _ _ _) rfl) rfl)
    split
    · exact h.dropPkt pid
    · split
      · next e => exact (((congrArg Prod.snd e) ▸ hl _).keep (routeCnt_keeps _ _ (.refl _ _ _) rfl)).dropPkt pid
      · next e => exact ((congrArg Prod.snd e) ▸ hl _).toEgress ..

theorem Calm.formCopy (o : Obs) (h : Calm s t) : Calm s (formCopy o t) := by
  have hv : Calm s (if bitOf o.ctl 30 then draw t else (0, t)).2 := by
    split
    · exact h.keep (draw_keeps (.refl _ _ _) rfl)
    · exact h
  unfold Machine.formCopy
  dsimp only
  generalize (if bitOf o.ctl 30 = true then draw t else (0, t)) = vs at hv ⊢
  split
  · exact hv.keep (swcCnt_keeps _ _ _ (.refl _ _ _) rfl)
  · split
    · exact hv.keep (portCnt_keeps _ _ _ (.refl _ _ _) rfl)
    · exact (hv.keep (newPkt_keeps _ _ _ _ _ (.refl _ _ _) rfl)).routePkt ..

theorem Calm.mirrorDrop (pos pid : Nat) (h : Calm s t) : Calm s (mirrorDrop pos pid t) := by
  unfold Machine.mirrorDrop
  split
  · exact h
  · have ho : Calm s (observe pos 1 true ‹_› t).2 := h.keep (observe_keeps _ _ _ _ (.refl _ _ _) rfl)
    dsimp only
    split
    · split
      · exact ho.each fun o a ha => ha.formCopy o
      · exact ho.keep (setStaging_keeps _ _ _ (.refl _ _ _) rfl)
    · exact ho.each fun o a ha => ha.formCopy o

theorem Calm.ageHead (n g : Nat) (h : Calm s t) : Calm s (ageHead n g t) := by
  induction n generalizing t with
  | zero => exact h
  | succ n ih =>
    unfold Machine.ageHead
    split
    · split
      · split
        · exact ih (((h.mirrorDrop _ _).unlink _ _).keep (swcCnt_keeps _ _ _ (.refl _ _ _) rfl))
        · exact h
      · exact h
    · exact h

theorem Calm.newHead (g : Nat) (h : Calm s t) : Calm s (newHead g t) := h.ageHead _ g

theorem Calm.endPoisoned (pid : Nat) (h : Calm s t) : Calm s (endPoisoned pid t) := by
  unfold Machine.endPoisoned
  split
  · split
    · exact h.keep (closeCells_keeps _ (modPkt_keeps _ _ (.refl _ _ _) rfl) rfl)
    · exact (h.dropPkt pid).each fun g a ha => ha.newHead g
  · exact h

theorem Calm.dropEgress (d k ofs pid : Nat) (h : Calm s t) : Calm s (dropEgress d k ofs pid t) :=
  ((h.mirrorDrop k pid).keep (swcCnt_keeps _ _ _ (.refl _ _ _) rfl)).dropPkt pid

/-! ## Control messages of groups -/

theorem Calm.sendMany (c : Ctx) (hd : Hdr) (body : List Byte) (poss : List Nat) (h : Calm s t) : Calm s (sendMany c hd body poss t) := by
  unfold Machine.sendMany
  refine h.each fun d a ha => ?_
  dsimp only
  split
  · exact ha
  · exact (ha.keep (newPkt_keeps _ _ _ _ _ (.refl _ _ _) rfl)).toEgress ..

theorem Calm.sendOne (c : Ctx) (hd : Hdr) (body : List Byte) (pos : Nat) (h : Calm s t) : Calm s (sendOne c hd body pos t) :=
  (h.keep (newPkt_keeps _ _ _ _ _ (.refl _ _ _) rfl)).toEgress ..

theorem Calm.ctrlDown (c : Ctx) (kind status step arg : Nat) (more : List Byte) (h : Calm s t) : Calm s (ctrlDown c kind status step arg more t) := h.sendMany ..

theorem Calm.ctrlUp (c : Ctx) (kind status step arg : Nat) (more : List Byte) (h : Calm s t) : Calm s (ctrlUp c kind status step arg more t) := by
  unfold Machine.ctrlUp
  split
  · exact h.sendOne ..
  · exact h

theorem Calm.modCtx (slot : Nat) (f : Ctx → Ctx) (h : Calm s t) : Calm s (modCtx slot f t) := h.keep (modCtx_keeps _ _ (.refl _ _ _) rfl)

theorem Calm.sendWindows (slot : Nat) (force : Bool) (h : Calm s t) : Calm s (sendWindows slot force t) := by
  unfold Machine.sendWindows
  split
  · exact h
  · refine h.each fun t a ha => ?_
    dsimp only
    split
    · exact (ha.modCtx _ _).ctrlDown ..
    · exact ha

theorem Calm.closeStep (slot : Nat) (num : StepNo) (status : Nat) (detail : Detail) (hold : Option (Byte × BitVec 64)) (h : Calm s t) :
    Calm s (closeStep slot num status detail hold t) := by
  unfold Machine.closeStep
  split
  · exact h
  · exact (((h.keep (redCnt_keeps _ _ _ (.refl _ _ _) rfl)).modCtx _ _).keep (sweepInsts_keeps _ (.refl _ _ _) rfl)).sendWindows ..

theorem Calm.endStep (slot : Nat) (num : StepNo) (status : Nat) (detail : Detail) (hold : Option (Byte × BitVec 64)) (h : Calm s t) :
    Calm s (endStep slot num status detail hold t) := by
  unfold Machine.endStep
  split
  · exact h
  · exact ((h.iff fun h => h.ctrlDown ..).closeStep ..).keep (freeIfDeleting_keeps _ (.refl _ _ _) rfl)

theorem Calm.failStep (slot : Nat) (num : StepNo) (status : Nat) (detail : Detail) (h : Calm s t) : Calm s (failStep slot num status detail t) := by
  unfold Machine.failStep
  split
  · exact h
  · dsimp only
    split
    · exact h.endStep ..
    · split
      · exact h
      · exact (((h.modCtx _ _).iff fun h => h.modCtx _ _).keep (sweepInsts_keeps _ (.refl _ _ _) rfl)).ctrlUp ..

theorem Calm.failStraggler (slot : Nat) (num : StepNo) (i : Nat) (h : Calm s t) : Calm s (failStraggler slot num i t) := by
  unfold Machine.failStraggler
  split
  · exact h
  · split
    · exact h
    · split
      · exact h
      · exact (h.keep (redCnt_keeps _ _ _ (logEvent_keeps _ _ _ _ (.refl _ _ _) rfl) rfl)).failStep ..

theorem Calm.groupsLinkDown (pos : Nat) (h : Calm s t) : Calm s (groupsLinkDown pos t) := by
  unfold Machine.groupsLinkDown
  refine h.each fun slot a ha => ?_
  split
  · exact ha
  · have hm (b : Bool) : Calm s (Machine.iff b (markStale slot) a) := ha.iff fun h => h.keep (markStale_keeps _ (.refl _ _ _) rfl)
    dsimp only
    split
    · exact (hm _).each fun t a ha => ha.failStraggler ..
    · split
      · refine (hm _).each fun t a ha => ?_
        split
        · exact ha
        · exact (ha.keep (redCnt_keeps _ _ _ (logEvent_keeps _ _ _ _ (.refl _ _ _) rfl) rfl)).failStep ..
      · exact hm _

/-! ## Groups and registrations -/

theorem Calm.stopStep (n slot : Nat) (num : StepNo) (h : Calm s t) : Calm s (stopStep n slot num t) := by
  induction n generalizing num t with
  | zero => exact h
  | succ n ih =>
    unfold Machine.stopStep
    split
    · exact h
    · split
      · exact ((h.modCtx _ _).ctrlDown ..).keep (freeIfDeleting_keeps _ (.refl _ _ _) rfl)
      · split
        · split
          · exact (h.modCtx _ _).endStep ..
          · split
            · exact ih _ h
            · exact h.modCtx _ _
        · split
          · exact h.modCtx _ _
          · exact h

theorem Calm.rootStop (slot : Nat) (num : StepNo) (h : Calm s t) : Calm s (rootStop slot num t) := by
  unfold Machine.rootStop
  split
  · split
    · exact h.modCtx _ _
    · exact h.stopStep 4 slot num
  · exact h

theorem Calm.deleteLocal (group : GroupId) (h : Calm s t) : Calm s (deleteLocal group t) := by
  unfold Machine.deleteLocal
  split
  · exact h
  · split
    · exact h
    · split
      · exact h.keep (freeCtx_keeps _ (.refl _ _ _) rfl)
      · exact ((h.modCtx _ _).iff fun h => h.each fun num a ha => ha.rootStop _ num).keep (freeIfDeleting_keeps _ (.refl _ _ _) rfl)

theorem Calm.deleteGroup (group : Nat) (h : Calm s t) : Calm s (deleteGroup group t) := by
  unfold Machine.deleteGroup
  split
  · exact h
  · refine Calm.each (fun w a ha => ?_) (h.keep (modMgr_keeps _ (.refl _ _ _) rfl))
    split
    · exact ha.deleteLocal _
    · exact ha.keep (emit_keeps _ (.refl _ _ _) rfl)

theorem Calm.serveWithdraw (q : RegReq) (h : Calm s t) : Calm s (serveWithdraw q t) := by
  unfold Machine.serveWithdraw
  split
  · split
    · refine Calm.each (fun g a ha => ?_) (h.keep (modMgr_keeps _ (.refl _ _ _) rfl))
      split
      · exact ha.deleteGroup _
      · exact ha
    · exact h
  · exact h

theorem Calm.withdrawLink (k : Nat) (h : Calm s t) : Calm s (withdrawLink k t) := by
  exact Calm.ite (Calm.ite (h.serveWithdraw _) (h.keep (emit_keeps _ (.refl _ _ _) rfl))) h

/-! ## The packets of a sub-link that goes out of service -/

theorem Calm.discardQueues (k : Nat) (h : Calm s t) : Calm s (discardQueues k t) := by
  unfold Machine.discardQueues
  refine h.each fun q a ha => ha.each fun e b hb => Calm.unlink _ _ ?_
  split
  · exact hb
  · exact (hb.mirrorDrop _ _).keep (swcCnt_keeps _ _ _ (.refl _ _ _) rfl)

theorem Calm.discardBound (k : Nat) (h : Calm s t) : Calm s (discardBound k t) := by
  unfold Machine.discardBound
  exact h.each fun d a ha => ha.each fun r b hb => .ite (.ite (hb.dropPkt _) (hb.dropEgress ..)) (hb.keep (modSwc_keeps _ _ (.refl _ _ _) rfl))

theorem Calm.cutArrivals (k : Nat) (h : Calm s t) : Calm s (cutArrivals k t) := by
  unfold Machine.cutArrivals
  refine h.each fun v a ha => ha.each fun e b hb => ?_
  split
  · split
    · exact hb.keep (modPkt_keeps _ _ (.refl _ _ _) rfl)
    · exact ((hb.keep (modPkt_keeps _ _ (.refl _ _ _) rfl)).endPoisoned _).keep (setStaging_keeps _ _ _ (.refl _ _ _) rfl)
  · exact hb.keep (setStaging_keeps _ _ _ (.refl _ _ _) rfl)

end

/-! ## A sub-link that goes down -/

section
variable {k : Nat} {r : DownReason} {s : State}

/-- What ends before the sub-link's own strands and book. -/
def serviceCut (k : Nat) (s : State) : State :=
  let t := discardBound k (discardQueues k (withdrawLink k s))
  cutArrivals k { t with scheds := tset {} t.scheds k {} }

theorem calm_serviceCut (k : Nat) (s : State) : Calm s (serviceCut k s) :=
  (((((Calm.refl s).withdrawLink k).discardQueues k).discardBound k).keep (Keeps.set_scheds _ (.refl _ _ _) rfl)).cutArrivals k

/-- A strand of a sub-link that goes out of service. -/
def strandEnded (st : LinkSt) (r : DownReason) (x : StrandSt) : StrandSt :=
  { x with st := st, reason := r, alone := false, rotating := none, rotStage := 0, recal := none, rot := 0, misses := 0, due := [], clean := 0 }

/-- The strands and the book of a sub-link that goes out of service. -/
def bookEnded (k : Nat) (st : LinkSt) (r : DownReason) (tails : List Flit) (s : State) : State :=
  modLink k (fun l => { freshLink l st r with txq := tails }) (each (strandPos s k) (fun q => modStrand q (strandEnded st r)) s)

/-- After the book, only what follows for groups and the vector. -/
theorem endService_calm (k : Nat) (st : LinkSt) (r : DownReason) (s : State) : ∃ tails, Calm (bookEnded k st r tails (serviceCut k s)) (endService k st r s) := by
  refine ⟨if st = .down then cutTails (withdrawLink k s) k else [], ?_⟩
  exact Calm.iff (fun h => h.groupsLinkDown k) (Calm.iff (fun h => h.keep (raiseVec_keeps _ (.refl _ _ _) rfl)) (.refl (bookEnded k st r _ (serviceCut k s))))

theorem linkOf_bookEnded (k : Nat) (st : LinkSt) (r : DownReason) (tails : List Flit) (s : State) :
    linkOf (bookEnded k st r tails s) k = { freshLink (linkOf s k) st r with txq := tails } := by
  rw [bookEnded, linkOf_modLink_same, linkOf_each_modStrand]

theorem strandOf_bookEnded (k : Nat) (st : LinkSt) (r : DownReason) (tails : List Flit) (s : State) (q : Nat) :
    strandOf (bookEnded k st r tails s) q = if q ∈ strandPos s k then strandEnded st r (strandOf s q) else strandOf s q :=
  strandOf_each (P := fun _ => True) (u := fun _ => strandEnded st r) (strandPos_nodup s k) (fun _ _ _ => trivial) (fun _ _ _ => rfl) trivial q

theorem sublinkDown_calm (k : Nat) (r : DownReason) (s : State) : ∃ tails, Calm (bookEnded k .down r tails (serviceCut k s)) (sublinkDown k r s) := by
  obtain ⟨tails, h⟩ := endService_calm k .down r s
  exact ⟨tails, h.iff fun h => h.keep (logEvent_keeps _ _ _ _ (.refl _ _ _) rfl)⟩

/-- A sub-link that goes down is down, for that reason. -/
theorem linkOf_sublinkDown (k : Nat) (r : DownReason) (s : State) : (linkOf (sublinkDown k r s) k).st = .down ∧ (linkOf (sublinkDown k r s) k).reason = r := by
  obtain ⟨tails, h⟩ := sublinkDown_calm k r s
  have hl := h.link k
  rw [linkOf_bookEnded] at hl
  exact hl nofun

/-- A strand retired for want of c. -/
def Lost (x : StrandSt) : Prop := x.cLost = true ∧ x.retired = true ∧ x.outOfUse = true ∧ x.st = .down

theorem Lost.ended {x : StrandSt} (r : DownReason) (h : Lost x) : Lost (strandEnded .down r x) := by
  obtain ⟨hc, hr, hu, -⟩ := h
  exact ⟨hc, hr, hu, rfl⟩

theorem Calm.lost {t : State} {q : Nat} (h : Calm s t) (hq : Lost (strandOf s q)) : Lost (strandOf t q) := by
  obtain ⟨hc, hr, hu, hs⟩ := hq
  obtain ⟨m, hm⟩ := h.strand q hu
  rw [hm]
  exact ⟨hc, hr, hu, hs⟩

/-- It stays so when its sub-link, or another, goes down. -/
theorem lost_sublinkDown {q : Nat} (k : Nat) (r : DownReason) (hq : Lost (strandOf s q)) : Lost (strandOf (sublinkDown k r s) q) := by
  obtain ⟨tails, h⟩ := sublinkDown_calm k r s
  have hc := (calm_serviceCut k s).lost hq
  refine h.lost ?_
  rw [strandOf_bookEnded]
  split
  · exact hc.ended r
  · exact hc

end

end Sys2Proof.Machine
end

section
/-! The training of a sub-link by its strands (R54, R57 to R59): how far the slowest strand has come, and what each row of training makes of it. -/

namespace Sys2Proof.Machine

/-! ## The slowest strand -/

section
variable {s : State} {k : Nat}

theorem foldl_min_le {l : List Nat} {f : Nat → Nat} {n : Nat} : l.foldl (fun n q => min n (f q)) n ≤ n ∧ ∀ q ∈ l, l.foldl (fun n q => min n (f q)) n ≤ f q := by
  induction l generalizing n with
  | nil => exact ⟨Nat.le_refl _, nofun⟩
  | cons a r ih =>
    obtain ⟨hn, hr⟩ := ih (n := min n (f a))
    refine ⟨hn.trans (Nat.min_le_left _ _), fun q hq => ?_⟩
    rcases List.mem_cons.1 hq with rfl | hq
    · exact hn.trans (Nat.min_le_right _ _)
    · exact hr q hq

theorem le_foldl_min {l : List Nat} {f : Nat → Nat} {m n : Nat} (hn : m ≤ n) (h : ∀ q ∈ l, m ≤ f q) : m ≤ l.foldl (fun n q => min n (f q)) n := by
  induction l generalizing n with
  | nil => exact hn
  | cons a r ih => exact ih (Nat.le_min.2 ⟨hn, h a List.mem_cons_self⟩) fun q hq => h q (List.mem_cons_of_mem _ hq)

theorem slowest_le {q : Nat} (hq : q ∈ liveStrands s k) : slowest s k ≤ trainRank (strandOf s q).st := foldl_min_le.2 q hq

theorem slowest_le_three : slowest s k ≤ 3 := foldl_min_le.1

theorem le_slowest {m : Nat} (hm : m ≤ 3) (h : ∀ q ∈ liveStrands s k, m ≤ trainRank (strandOf s q).st) : m ≤ slowest s k := le_foldl_min hm h

/-! ## Settling -/

/-- How far a sub-link in training is, ASSIGN beyond CONFIG. -/
def linkRank (st : LinkSt) : Nat := if st = .assign then 4 else trainRank st

/-- Strands in ASSIGN fall back to CONFIG. -/
def unassign (k : Nat) (s : State) : State := each (liveStrands s k) (fun q => modStrand q fun x => if x.st = .assign then { x with st := .config } else x) s

theorem onlyAt_unassign (k : Nat) (s : State) : OnlyAt k s (unassign k s) := .each (fun _ hq _ h => h.modStrand _ (mem_strandPos_of_live hq)) (.refl k s)

theorem strandOf_unassign (k : Nat) (s : State) {r : Nat} (h : (strandOf s r).st ≠ .assign) : strandOf (unassign k s) r = strandOf s r := by
  refine (strandOf_each (P := fun _ => True) (u := fun _ x => if x.st = .assign then { x with st := .config } else x) (liveStrands_nodup s k)
    (fun _ _ _ => trivial) (fun _ _ _ => rfl) trivial r).trans ?_
  rw [if_neg h]
  exact ite_self _

/-- The book of a sub-link in training at rank n. -/
def atRank (s : State) (k n : Nat) (l : SubLink) : SubLink :=
  { l with st := trainState n, train := trainMsg s k n, adv := if n = 3 then (List.range 8).foldl (fun t v => tset 0 t v (advOf s k v)) [] else l.adv }

/-- What a sub-link that falls back keeps. -/
def fallBack (l : SubLink) : SubLink := { freshLink l .clock .none with partnerBreakout := l.partnerBreakout, partnerSp := l.partnerSp }

theorem settle_same (hl : liveStrands s k ≠ []) (h : slowest s k = linkRank (linkOf s k).st) : settle k s = s := by
  unfold settle
  exact (if_neg (by simpa using hl)).trans (if_pos h)

/-- A sub-link that is not as far as its slowest strand moves there, falling back first where it was ahead. -/
theorem settle_moves (hl : liveStrands s k ≠ []) (h : slowest s k ≠ linkRank (linkOf s k).st) : settle k s =
    let s' := iff (decide (slowest s k < linkRank (linkOf s k).st)) (modLink k fallBack) (iff (decide (slowest s k < linkRank (linkOf s k).st)) (unassign k) s)
    modLink k (atRank s' k (slowest s k)) s' :=
  (if_neg (by simpa using hl)).trans (if_neg h)

theorem settle_ahead (hl : liveStrands s k ≠ []) (h : linkRank (linkOf s k).st < slowest s k) : settle k s = modLink k (atRank s k (slowest s k)) s := by
  rw [settle_moves hl (by omega), decide_eq_false (by omega)]
  rfl

theorem settle_behind (hl : liveStrands s k ≠ []) (h : slowest s k < linkRank (linkOf s k).st) :
    settle k s = modLink k (atRank (modLink k fallBack (unassign k s)) k (slowest s k)) (modLink k fallBack (unassign k s)) := by
  rw [settle_moves hl (by omega), decide_eq_true h]
  rfl

theorem settle_dark (hl : liveStrands s k = []) : settle k s = modLink k (fun l => freshLink l .down .noLight) s := if_pos (by simp [hl])

theorem onlyAt_settle (k : Nat) (s : State) : OnlyAt k s (settle k s) := by
  by_cases hl : liveStrands s k = []
  · rw [settle_dark hl]
    exact .modLink _ (.refl k s)
  rcases Nat.lt_trichotomy (slowest s k) (linkRank (linkOf s k).st) with h | h | h
  · rw [settle_behind hl h]
    exact .modLink _ (.modLink _ (onlyAt_unassign k s))
  · rw [settle_same hl h]
    exact .refl k s
  · rw [settle_ahead hl h]
    exact .modLink _ (.refl k s)

/-- Settling moves no strand that is not in ASSIGN. -/
theorem strandOf_settle (k : Nat) {r : Nat} (hr : (strandOf s r).st ≠ .assign) : strandOf (settle k s) r = strandOf s r := by
  by_cases hl : liveStrands s k = []
  · rw [settle_dark hl, strandOf_modLink]
  rcases Nat.lt_trichotomy (slowest s k) (linkRank (linkOf s k).st) with h | h | h
  · rw [settle_behind hl h, strandOf_modLink, strandOf_modLink, strandOf_unassign k s hr]
  · rw [settle_same hl h]
  · rw [settle_ahead hl h, strandOf_modLink]

theorem keeps_settle (k : Nat) (s : State) : Keeps true 0x30000 s (settle k s) := settle_keeps k (.refl _ _ s) rfl

/-- With a strand in CLOCK the sub-link is in CLOCK. -/
theorem st_settle_clock {q : Nat} (hq : q ∈ liveStrands s k) (h : (strandOf s q).st = .clock) : (linkOf (settle k s) k).st = .clock := by
  have hl : liveStrands s k ≠ [] := List.ne_nil_of_mem hq
  have h0 : slowest s k = 0 := Nat.le_zero.1 (by simpa [h, trainRank] using slowest_le hq)
  rcases Nat.lt_or_ge (slowest s k) (linkRank (linkOf s k).st) with hlt | hge
  · rw [settle_behind hl hlt, linkOf_modLink_same, h0]
    rfl
  · have hr : linkRank (linkOf s k).st = 0 := by omega
    rw [settle_same hl (by omega)]
    cases hst : (linkOf s k).st <;> simp [hst, linkRank, trainRank] at hr ⊢

end

/-! ## A strand is seen (R57) -/

section
variable {p : Port} {x : Strand} {s : State} (hp : listening s p = true)

/-- c is seen on a strand. -/
def seeStrand (q : Nat) : State → State := modStrand q fun x => { x with cLost := false }

/-- A strand found later starts. -/
def joinTraining (q : Nat) (s : State) : State := modStrand q (fun x => { startLanes (d0Strand s q) x with st := .clock, reason := .none }) s

section
include hp

theorem exec_cDetected_down (hst : (linkOf s (subKey s p x)).st = .down) (hq : (linkOf s (subKey s p x)).quar = false)
    (hr : (linkOf s (subKey s p x)).reason = .noLight) (hu : (strandOf s (4 * p.val + x.val)).outOfUse = false) (ha : (strandOf s (4 * p.val + x.val)).alone = false) :
    exec (.cDetected p x) s = .next (trainFull (subKey s p x) (seeStrand (4 * p.val + x.val) s)) := by
  change execCDetected p x s = _
  simp only [execCDetected, hp, linkOf_modStrand, strandOf_modStrand_same, hu, ha, hst, hq, hr]
  rfl

theorem exec_cDetected_training (hst : (linkOf s (subKey s p x)).st = .clock ∨ (linkOf s (subKey s p x)).st = .eq ∨ (linkOf s (subKey s p x)).st = .align ∨
      (linkOf s (subKey s p x)).st = .config ∨ (linkOf s (subKey s p x)).st = .assign)
    (hd : (strandOf s (4 * p.val + x.val)).st = .down) (hu : (strandOf s (4 * p.val + x.val)).outOfUse = false) (ha : (strandOf s (4 * p.val + x.val)).alone = false) :
    exec (.cDetected p x) s = .next (settle (subKey s p x) (joinTraining (4 * p.val + x.val) (seeStrand (4 * p.val + x.val) s))) := by
  change execCDetected p x s = _
  simp only [execCDetected, hp, linkOf_modStrand, strandOf_modStrand_same, hu, ha]
  rcases hst with hst | hst | hst | hst | hst <;> simp only [hst, hd] <;> rfl

end

/-- C_DETECTED on a sub-link that waits for light starts the training of the strand and of the sub-link. -/
theorem see_trainFull {q k : Nat} (hu : (strandOf s q).outOfUse = false) (hq : q ∈ strandPos s k) :
    (linkOf (trainFull k (seeStrand q s)) k).st = .clock ∧ (strandOf (trainFull k (seeStrand q s)) q).st = .clock ∧
      (strandOf (trainFull k (seeStrand q s)) q).cLost = false ∧ (strandOf (trainFull k (seeStrand q s)) q).light = .full := by
  have hx : strandOf (seeStrand q s) q = { strandOf s q with cLost := false } := strandOf_modStrand_same _
  have ht : q ∈ trained (seeStrand q s) k := mem_trained hq (by rw [hx]; exact hu)
  have hseen : seesLight (seeStrand q s) k = true := List.any_eq_true.2 ⟨q, ht, by rw [hx]; rfl⟩
  rw [linkOf_trainFull, hseen, strandOf_trainFull, if_pos ht, hx]
  exact ⟨rfl, rfl, rfl, rfl⟩

theorem startLanes_use (d0 : Bool) (x : StrandSt) : (startLanes d0 x).outOfUse = x.outOfUse ∧ (startLanes d0 x).alone = x.alone ∧ (startLanes d0 x).cLost = x.cLost :=
  ⟨rfl, rfl, rfl⟩

/-- A strand that joins brings the sub-link back to CLOCK. -/
theorem join_settle {q k : Nat} (hu : (strandOf s q).outOfUse = false) (ha : (strandOf s q).alone = false) (hq : q ∈ strandPos s k) :
    (linkOf (settle k (joinTraining q (seeStrand q s))) k).st = .clock ∧ (strandOf (settle k (joinTraining q (seeStrand q s))) q).st = .clock ∧
      (strandOf (settle k (joinTraining q (seeStrand q s))) q).cLost = false ∧
      ∀ r, r ≠ q → (strandOf s r).st ≠ .assign → strandOf (settle k (joinTraining q (seeStrand q s))) r = strandOf s r := by
  have hx : strandOf (joinTraining q (seeStrand q s)) q =
      { startLanes (d0Strand (seeStrand q s) q) { strandOf s q with cLost := false } with st := .clock, reason := .none } := by
    rw [joinTraining, strandOf_modStrand_same, seeStrand, strandOf_modStrand_same]
  have hlive : q ∈ liveStrands (joinTraining q (seeStrand q s)) k := by
    refine mem_liveStrands.2 ⟨hq, ?_⟩
    rw [hx]
    exact ⟨hu, ha, nofun, nofun⟩
  have hother (r : Nat) (hr : r ≠ q) : strandOf (joinTraining q (seeStrand q s)) r = strandOf s r :=
    (strandOf_modStrand_other _ hr).trans (strandOf_modStrand_other _ hr)
  have hst : (strandOf (joinTraining q (seeStrand q s)) q).st = .clock := by rw [hx]
  refine ⟨st_settle_clock hlive hst, ?_, ?_, fun r hr hra => ?_⟩
  · rw [strandOf_settle k (by rw [hst]; nofun), hst]
  · rw [strandOf_settle k (by rw [hst]; nofun), hx]
    rfl
  · rw [strandOf_settle k (by rwa [hother r hr]), hother r hr]

end

/-! ## Steps of training (R58) -/

section
variable {s : State}

/-- The step a strand in training takes. -/
def stepStrand (x : StrandSt) : StrandSt :=
  { x with st := match x.st with | .clock => .eq | .eq => .align | _ => .config
           clean := if x.st = .align then aligned x else x.clean }

/-- What the equaliser sweep of a strand leaves, where the step is that sweep's. -/
def sweepStored (p x : Nat) (eq : List EqResult) (s : State) : State :=
  iff ((strandOf s (4 * p + x)).st == .eq) (storeEq p x eq) s

theorem stepStrand_clock {x : StrandSt} (h : x.st = .clock) : stepStrand x = { x with st := .eq } := by simp [stepStrand, h]

theorem stepStrand_eq {x : StrandSt} (h : x.st = .eq) : stepStrand x = { x with st := .align } := by simp [stepStrand, h]

theorem stepStrand_align {x : StrandSt} (h : x.st = .align) : stepStrand x = { x with st := .config, clean := aligned x } := by simp [stepStrand, h]

theorem sweepStored_of_eq {p x : Nat} {eq : List EqResult} (h : (strandOf s (4 * p + x)).st = .eq) : sweepStored p x eq s = storeEq p x eq s := by
  rw [sweepStored, h]
  rfl

theorem sweepStored_of_ne {p x : Nat} {eq : List EqResult} (h : (strandOf s (4 * p + x)).st ≠ .eq) : sweepStored p x eq s = s := by
  rw [sweepStored, beq_eq_false_iff_ne.2 h]
  rfl

theorem keeps_sweepStored (p x : Nat) (eq : List EqResult) (s : State) : Keeps true 0x40000 s (sweepStored p x eq s) := by
  unfold sweepStored
  cases (strandOf s (4 * p + x)).st == .eq
  · exact .refl _ _ s
  · exact storeEq_keeps p x eq (.refl _ _ s) rfl

theorem modStrand_congr {q : Nat} {f g : StrandSt → StrandSt} (h : f (strandOf s q) = g (strandOf s q)) : modStrand q f s = modStrand q g s := by
  unfold strandOf at h
  unfold modStrand tmod
  rw [h]

theorem strandOf_sweepStored (p x : Nat) (eq : List EqResult) (s : State) (r : Nat) : strandOf (sweepStored p x eq s) r = strandOf s r :=
  strandOf_congr ((keeps_sweepStored p x eq s).only.strands (by decide)) r

section
variable {p : Port} {x : Strand} (eq : List EqResult)

theorem exec_trainingStepDone (hp : listening s p = true) (ha : (strandOf s (4 * p.val + x.val)).alone = false)
    (h : (strandOf s (4 * p.val + x.val)).st = .clock ∨ (strandOf s (4 * p.val + x.val)).st = .eq ∨ (strandOf s (4 * p.val + x.val)).st = .align) :
    exec (.trainingStepDone p x eq) s = .next (settle (subKey s p x) (modStrand (4 * p.val + x.val) stepStrand (sweepStored p x eq s))) := by
  change execTrainingStepDone p x eq s = _
  simp only [execTrainingStepDone, hp, ha]
  rcases h with h | h | h <;> simp only [h]
  · rw [sweepStored_of_ne (by rw [h]; nofun)]
    exact congrArg (fun a => Host.Outcome.next (settle (subKey s p x) a)) (modStrand_congr (stepStrand_clock h).symm)
  · rw [sweepStored_of_eq h]
    have hx := (strandOf_congr ((storeEq_keeps (d := true) (L := 0x40000) p x eq (.refl _ _ s) rfl).only.strands (by decide)) (4 * p.val + x.val)).symm
    exact congrArg (fun a => Host.Outcome.next (settle (subKey s p x) a)) (modStrand_congr (stepStrand_eq (hx ▸ h)).symm)
  · rw [sweepStored_of_ne (by rw [h]; nofun)]
    exact congrArg (fun a => Host.Outcome.next (settle (subKey s p x) a)) (modStrand_congr (stepStrand_align h).symm)

theorem exec_trainingStepDone_other (ha : (strandOf s (4 * p.val + x.val)).alone = false) (hc : (strandOf s (4 * p.val + x.val)).st ≠ .clock)
    (he : (strandOf s (4 * p.val + x.val)).st ≠ .eq) (hl : (strandOf s (4 * p.val + x.val)).st ≠ .align) : exec (.trainingStepDone p x eq) s = .next s := by
  change execTrainingStepDone p x eq s = _
  simp only [execTrainingStepDone, ha]
  refine congrArg _ ?_
  split
  · rfl
  · cases hst : (strandOf s (4 * p.val + x.val)).st <;> simp_all

end

/-! ## What a step does -/

theorem trainRank_stepStrand {y : StrandSt} (h : y.st = .clock ∨ y.st = .eq ∨ y.st = .align) : trainRank (stepStrand y).st = trainRank y.st + 1 := by
  rcases h with h | h | h <;> simp [stepStrand, h, trainRank]

theorem linkRank_of_early {st : LinkSt} (h : st = .clock ∨ st = .eq ∨ st = .align) : linkRank st = trainRank st := by
  rcases h with rfl | rfl | rfl <;> rfl

theorem stepStrand_live {y : StrandSt} : (stepStrand y).outOfUse = y.outOfUse ∧ (stepStrand y).alone = y.alone ∧ (stepStrand y).st ≠ .down ∧ (stepStrand y).st ≠ .dark := by
  refine ⟨rfl, rfl, ?_⟩
  cases h : y.st <;> simp [stepStrand, h]

/-- A sub-link that is not ahead of its strands moves none of them. -/
theorem strandOf_settle_of_le {k : Nat} (hl : liveStrands s k ≠ []) (h : linkRank (linkOf s k).st ≤ slowest s k) (r : Nat) : strandOf (settle k s) r = strandOf s r := by
  rcases Nat.lt_or_eq_of_le h with h | h
  · rw [settle_ahead hl h, strandOf_modLink]
  · rw [settle_same hl h.symm]

theorem tget_foldl_tset {α : Type} [DecidableEq α] (d : α) (f : Nat → α) (l : List Nat) (t : Tbl α) (v : Nat) :
    tget d (l.foldl (fun t v => tset d t v (f v)) t) v = if v ∈ l then f v else tget d t v := by
  induction l generalizing t with
  | nil => simp
  | cons a r ih =>
    rw [List.foldl_cons, ih, tget_tset]
    by_cases hr : v ∈ r
    · simp [hr]
    · by_cases ha : v = a
      · simp [ha]
      · simp [hr, ha]

section
variable {k q : Nat} (hq : q ∈ liveStrands s k) (hst : (strandOf s q).st = .clock ∨ (strandOf s q).st = .eq ∨ (strandOf s q).st = .align)
  (hl : (linkOf s k).st = .clock ∨ (linkOf s k).st = .eq ∨ (linkOf s k).st = .align)
  (hall : ∀ r ∈ liveStrands s k, trainRank (linkOf s k).st ≤ trainRank (strandOf s r).st)

theorem strandOf_step (q r : Nat) : strandOf (modStrand q stepStrand s) r = if r = q then stepStrand (strandOf s r) else strandOf s r := strandOf_modStrand _

include hq in
theorem liveStrands_step : liveStrands (modStrand q stepStrand s) k = liveStrands s k := by
  unfold liveStrands
  refine List.filter_congr fun r _ => ?_
  rw [strandOf_step]
  split
  · next h =>
    subst h
    obtain ⟨-, hu, ha, hd, hk⟩ := mem_liveStrands.1 hq
    obtain ⟨hu', ha', hd', hk'⟩ := stepStrand_live (y := strandOf s r)
    simp only [hu', ha', hu, ha]
  · rfl

include hq hst hl hall

/-- After the step no strand is behind the sub-link. -/
theorem le_slowest_step : linkRank (linkOf s k).st ≤ slowest (modStrand q stepStrand s) k := by
  have h3 : trainRank (linkOf s k).st ≤ 3 := by rcases hl with h | h | h <;> simp [h, trainRank]
  rw [linkRank_of_early hl]
  refine le_slowest h3 fun r hr => ?_
  rw [liveStrands_step hq] at hr
  rw [strandOf_step]
  split
  · next h =>
    subst h
    have := hall r hr
    rw [trainRank_stepStrand hst]
    omega
  · exact hall r hr

theorem strandOf_settle_step (r : Nat) : strandOf (settle k (modStrand q stepStrand s)) r = if r = q then stepStrand (strandOf s r) else strandOf s r := by
  rw [strandOf_settle_of_le (by rw [liveStrands_step hq]; exact List.ne_nil_of_mem hq) (le_slowest_step hq hst hl hall), strandOf_step]

/-- While another strand is no further than the sub-link was, the sub-link stays. -/
theorem settle_step_stays (h : ∃ r ∈ liveStrands s k, r ≠ q ∧ (strandOf s r).st = (linkOf s k).st) : settle k (modStrand q stepStrand s) = modStrand q stepStrand s := by
  obtain ⟨r, hr, hrq, he⟩ := h
  have hle : slowest (modStrand q stepStrand s) k ≤ linkRank (linkOf s k).st := by
    have := slowest_le (s := modStrand q stepStrand s) (k := k) (q := r) (by rwa [liveStrands_step hq])
    rwa [strandOf_step, if_neg hrq, he, ← linkRank_of_early hl] at this
  refine settle_same (by rw [liveStrands_step hq]; exact List.ne_nil_of_mem hq) ?_
  rw [linkOf_modStrand]
  exact Nat.le_antisymm hle (le_slowest_step hq hst hl hall)

omit hall in
/-- With its last strand it goes on. -/
theorem settle_step_goes (he : (strandOf s q).st = (linkOf s k).st) (h : ∀ r ∈ liveStrands s k, r ≠ q → trainRank (linkOf s k).st < trainRank (strandOf s r).st) :
    settle k (modStrand q stepStrand s) = modLink k (atRank (modStrand q stepStrand s) k (trainRank (linkOf s k).st + 1)) (modStrand q stepStrand s) := by
  have hn : slowest (modStrand q stepStrand s) k = trainRank (linkOf s k).st + 1 := by
    refine Nat.le_antisymm ?_ (le_slowest ?_ fun r hr => ?_)
    · have := slowest_le (s := modStrand q stepStrand s) (k := k) (q := q) (by rwa [liveStrands_step hq])
      rwa [strandOf_step, if_pos rfl, trainRank_stepStrand hst, he] at this
    · rcases hl with h | h | h <;> simp [h, trainRank]
    · rw [liveStrands_step hq] at hr
      rw [strandOf_step]
      split
      · next hrq =>
        subst hrq
        rw [trainRank_stepStrand hst, he]
      · next hrq => exact h r hr hrq
  rw [settle_ahead (by rw [liveStrands_step hq]; exact List.ne_nil_of_mem hq), hn]
  rw [hn, linkOf_modStrand, linkRank_of_early hl]
  omega

end

end

/-! ## The equaliser's codes (R35, R75) -/

theorem optOf_modOpt_same (k : Nat) (f : OptSt → OptSt) (s : State) : optOf (modOpt k f s) k = f (optOf s k) := tget_tmod_eq _ _ _ _

/-- The code of a word that the equaliser's result makes. -/
theorem fld_eqWord (old : Word) (e : EqResult) (h : bitOf old 5 = false) :
    fld (regWord [(0, if bitOf old 5 then fld old 0 5 else e.code.toNat), (5, fld old 5 1), (8, e.margin.toNat)]) 0 5 = e.code.toNat := by
  have hc := e.code.isLt
  simp only [h, Bool.false_eq_true, if_false, regWord, List.foldl, fld, BitVec.extractLsb'_toNat, BitVec.toNat_ofNat]
  omega

theorem code_storeEq (p x : Nat) (e : EqResult) (s : State) (h : bitOf (tget 0 (optOf s (p / 12)).eq (16 * (p % 12) + 4 * x + e.w.toNat)) 5 = false) :
    fld (tget 0 (optOf (storeEq p x [e] s) (p / 12)).eq (16 * (p % 12) + 4 * x + e.w.toNat)) 0 5 = e.code.toNat := by
  change fld (tget 0 (optOf (modOpt (p / 12) _ s) (p / 12)).eq _) 0 5 = _
  rw [optOf_modOpt_same]
  dsimp only
  rw [tget_tset_eq]
  exact fld_eqWord _ e h

/-! ## The rows of TRAINING_STEP_DONE -/

section
variable {p : Port} {x : Strand} {s : State} {k q : Nat} (eq : List EqResult)

/-- The state in which a step of strand q of sub-link k is over. -/
def stepDone (p x : Nat) (k q : Nat) (eq : List EqResult) (s : State) : State := settle k (modStrand q stepStrand (sweepStored p x eq s))

variable (hq : q ∈ liveStrands s k) (hst : (strandOf s q).st = .clock ∨ (strandOf s q).st = .eq ∨ (strandOf s q).st = .align)
  (hl : (linkOf s k).st = .clock ∨ (linkOf s k).st = .eq ∨ (linkOf s k).st = .align)
  (hall : ∀ r ∈ liveStrands s k, trainRank (linkOf s k).st ≤ trainRank (strandOf s r).st)

theorem linkOf_sweepStored (p x : Nat) (eq : List EqResult) (s : State) (j : Nat) : linkOf (sweepStored p x eq s) j = linkOf s j :=
  linkOf_congr ((keeps_sweepStored p x eq s).only.links (by decide)) j

theorem liveStrands_sweepStored (p x : Nat) (eq : List EqResult) (s : State) (k : Nat) : liveStrands (sweepStored p x eq s) k = liveStrands s k :=
  liveStrands_congr ((keeps_sweepStored p x eq s).only.ports (by decide)) fun r _ => strandOf_sweepStored p x eq s r

theorem stepDone_other {j : Nat} (hj : j ≠ k) : linkOf (stepDone p x k q eq s) j = linkOf s j :=
  ((onlyAt_settle k _).link j hj).trans (linkOf_sweepStored ..)

theorem keeps_stepDone : Keeps true 0x70000 s (stepDone p x k q eq s) :=
  settle_keeps _ (modStrand_keeps _ _ (iff_keeps _ (fun _ h => storeEq_keeps _ _ _ h rfl) (.refl _ _ s)) rfl) rfl

theorem opt_stepDone : (stepDone p x k q eq s).opt = (sweepStored p x eq s).opt := (keeps_settle k _).only.opt (by decide)

section
include hq hst hl hall

theorem strandOf_stepDone (r : Nat) : strandOf (stepDone p x k q eq s) r = if r = q then stepStrand (strandOf s r) else strandOf s r := by
  have h := strandOf_settle_step (s := sweepStored p x eq s) (k := k) (q := q)
  simp only [liveStrands_sweepStored, strandOf_sweepStored, linkOf_sweepStored] at h
  exact h hq hst hl hall r

theorem linkOf_stepDone_stays (h : ∃ r ∈ liveStrands s k, r ≠ q ∧ (strandOf s r).st = (linkOf s k).st) : linkOf (stepDone p x k q eq s) k = linkOf s k := by
  have hs := settle_step_stays (s := sweepStored p x eq s) (k := k) (q := q)
  simp only [liveStrands_sweepStored, strandOf_sweepStored, linkOf_sweepStored] at hs
  rw [stepDone, hs hq hst hl hall h, linkOf_modStrand, linkOf_sweepStored]

omit hall in
theorem linkOf_stepDone_goes (he : (strandOf s q).st = (linkOf s k).st)
    (h : ∀ r ∈ liveStrands s k, r ≠ q → trainRank (linkOf s k).st < trainRank (strandOf s r).st) :
    linkOf (stepDone p x k q eq s) k = atRank (modStrand q stepStrand (sweepStored p x eq s)) k (trainRank (linkOf s k).st + 1) (linkOf s k) := by
  have hs := settle_step_goes (s := sweepStored p x eq s) (k := k) (q := q)
  simp only [liveStrands_sweepStored, strandOf_sweepStored, linkOf_sweepStored] at hs
  rw [stepDone, hs hq hst hl he h, linkOf_modLink_same, linkOf_modStrand, linkOf_sweepStored]

end

end

/-! ## TRAINING_STEP_TIMEOUT and DOWN_RETRY -/

section
variable {p : Port} {x : Strand} {s : State} {k q : Nat}

/-- A strand that restarts. -/
def restarted (x : StrandSt) : StrandSt := { x with restarts := satAdd16 x.restarts 1, row := x.row + 1, st := .clock, clean := 0 }

section
variable (hp : listening s p = true) (ha : (strandOf s (4 * p.val + x.val)).alone = false)
  (hst : (strandOf s (4 * p.val + x.val)).st = .clock ∨ (strandOf s (4 * p.val + x.val)).st = .eq ∨ (strandOf s (4 * p.val + x.val)).st = .align ∨
    (strandOf s (4 * p.val + x.val)).st = .config ∨ (strandOf s (4 * p.val + x.val)).st = .assign)
include hp ha hst

theorem exec_trainingStepTimeout : exec (.trainingStepTimeout p x) s = .next (
    if (strandOf s (4 * p.val + x.val)).row + 1 ≥ 8 then
      sublinkDown (subKey s p x) .trainTimeout (modStrand (4 * p.val + x.val) (fun x => { x with row := 0 }) (modStrand (4 * p.val + x.val) restarted s))
    else settle (subKey s p x) (modStrand (4 * p.val + x.val) restarted s)) := by
  change execTrainingStepTimeout p x s = _
  simp only [execTrainingStepTimeout, hp, ha]
  rcases hst with h | h | h | h | h <;> simp only [h] <;> rfl

end

theorem mem_live_restarted (hq : q ∈ liveStrands s k) : q ∈ liveStrands (modStrand q restarted s) k := by
  obtain ⟨hpos, hu, ha, -, -⟩ := mem_liveStrands.1 hq
  refine mem_liveStrands.2 ⟨hpos, ?_⟩
  rw [strandOf_modStrand_same]
  exact ⟨hu, ha, nofun, nofun⟩

theorem strandOf_restart (k : Nat) (r : Nat) (h : r = q ∨ (strandOf s r).st ≠ .assign) :
    strandOf (settle k (modStrand q restarted s)) r = if r = q then restarted (strandOf s r) else strandOf s r := by
  have hx : strandOf (modStrand q restarted s) r = if r = q then restarted (strandOf s r) else strandOf s r := strandOf_modStrand _
  rw [strandOf_settle, hx]
  rw [hx]
  split
  · nofun
  · next hr => exact h.resolve_left hr

theorem exec_downRetry_held (h : (linkOf s (subKey s p x)).quar = true ∨ (linkOf s (subKey s p x)).st ≠ .down) : exec (.downRetry p x) s = .next s := by
  refine congrArg Host.Outcome.next (if_neg ?_)
  rcases h with h | h <;> simp [h]

theorem exec_downRetry (hp : listening s p = true) (hq : (linkOf s (subKey s p x)).quar = false) (h : (linkOf s (subKey s p x)).st = .down) :
    exec (.downRetry p x) s = .next (trainFull (subKey s p x) s) :=
  congrArg Host.Outcome.next (if_pos (by simp [hp, hq, h]))

/-- TS1 is heeded in EQ, ALIGN and CONFIG, and in CLOCK from a strand past it. -/
theorem exec_ts1 (hp : listening s p = true) (ty st bo sp : Byte)
    (h : (linkOf s (subKey s p x)).st = .eq ∨ (linkOf s (subKey s p x)).st = .align ∨ (linkOf s (subKey s p x)).st = .config ∨
      ((linkOf s (subKey s p x)).st = .clock ∧ ((strandOf s (4 * p.val + x.val)).st = .eq ∨ (strandOf s (4 * p.val + x.val)).st = .align ∨ (strandOf s (4 * p.val + x.val)).st = .config))) :
    exec (.ts1 p x ty st bo sp) s = .next (if st.toNat ≤ 3 then
      modLink (subKey s p x) (fun l => { l with partnerSwitch := ty == 1, partnerBreakout := some bo, partnerSp := sp == 1 }) s else s) := by
  change execTs1 p x ty st bo sp s = _
  have hswap (a b : State) : (if st.toNat > 3 then a else b) = if st.toNat ≤ 3 then b else a := by
    by_cases h : st.toNat ≤ 3
    · rw [if_pos h, if_neg (by omega)]
    · rw [if_neg h, if_pos (by omega)]
  simp only [execTs1, hp]
  rcases h with h | h | h | ⟨h, h' | h' | h'⟩ <;> rw [← hswap] <;> simp [*]

end

/-- Settles O43: a strand seen, the steps of a strand, a restart, TS1 and a retry. -/
theorem trainingSequence : Obligations.TrainingSequence := by
  intro p x s hp
  refine ⟨fun hst hqu hr hu ha hq => ?seen, fun hst hd hu ha hq => ?joins, fun eq ha hc he hl => exec_trainingStepDone_other eq ha hc he hl,
    fun eq hq hst hl hall => ?done, fun hst hq => ?timeout, fun ty st bo sp h => exec_ts1 hp ty st bo sp h, exec_downRetry_held, fun hqu hst hsees => ?retry⟩
  case seen =>
    obtain ⟨hl, hs, hc, hli⟩ := see_trainFull hu hq
    have h : OnlyAt (subKey s p x) s _ := .trans (.modStrand _ hq (.refl _ s)) (onlyAt_trainFull (subKey s p x) (seeStrand (4 * p.val + x.val) s))
    exact ⟨_, exec_cDetected_down hp hst hqu hr hu ha, h.keeps.at_link, hl, hs, hc, hli, h.link⟩
  case joins =>
    obtain ⟨hl, hs, hc, hr⟩ := join_settle hu ha hq
    have h : OnlyAt (subKey s p x) s _ :=
      .trans (.modStrand _ hq (.modStrand _ hq (.refl _ s))) (onlyAt_settle (subKey s p x) (joinTraining (4 * p.val + x.val) (seeStrand (4 * p.val + x.val) s)))
    have hk : Keeps true 0x30000 s (settle (subKey s p x) (joinTraining (4 * p.val + x.val) (seeStrand (4 * p.val + x.val) s))) :=
      settle_keeps _ (modStrand_keeps _ _ (modStrand_keeps _ _ (.refl _ _ s) rfl) rfl) rfl
    exact ⟨_, exec_cDetected_training hp hst hd hu ha, hk.eq, hl, hs, hc, hr, h.link⟩
  case done =>
    have hs := strandOf_stepDone (p := p) (x := x) eq hq hst hl hall
    have ha : (strandOf s (4 * p.val + x.val)).alone = false := (mem_liveStrands.1 hq).2.2.1
    refine ⟨stepDone p x (subKey s p x) (4 * p.val + x.val) eq s, exec_trainingStepDone eq hp ha hst, (keeps_stepDone eq).eq, fun j hj => stepDone_other eq hj,
      fun r hr => (hs r).trans (if_neg hr), (hs _).trans (if_pos rfl), fun hne => ?_, fun he e hee hb => ?_, linkOf_stepDone_stays eq hq hst hl hall,
      fun he hlast => ⟨fun h => ?_, fun h => ?_, fun h => ?_⟩⟩
    · rw [opt_stepDone, sweepStored_of_ne hne]
    · have ho : optOf (stepDone p x (subKey s p x) (4 * p.val + x.val) eq s) (p / 12) = optOf (storeEq p x [e] s) (p / 12) := by
        unfold optOf
        rw [opt_stepDone, sweepStored_of_eq he, hee]
      rw [ho]
      exact code_storeEq p x e s hb
    all_goals rw [linkOf_stepDone_goes eq hq hst hl he hlast, h]
    · rfl
    · rfl
    · rw [sweepStored_of_ne (by rw [he, h]; nofun)]
      exact ⟨rfl, rfl, fun v hv => (tget_foldl_tset 0 _ _ _ v).trans (if_pos (List.mem_range.2 hv))⟩
  case timeout =>
    have ha : (strandOf s (4 * p.val + x.val)).alone = false := (mem_liveStrands.1 hq).2.2.1
    refine ⟨_, exec_trainingStepTimeout hp ha hst, fun hrow => ?_, fun hrow => ?_⟩
    · rw [if_neg (by omega)]
      have hk : Keeps true 0x30000 s (settle (subKey s p x) (modStrand (4 * p.val + x.val) restarted s)) := settle_keeps _ (modStrand_keeps _ _ (.refl _ _ s) rfl) rfl
      have hx := strandOf_restart (s := s) (q := 4 * p.val + x.val) (subKey s p x) _ (.inl rfl)
      rw [if_pos rfl] at hx
      refine ⟨hk.eq, st_settle_clock (mem_live_restarted hq) (by rw [strandOf_modStrand_same]; rfl), ?_, ?_, ?_, fun r hr hra => ?_, fun j hj => ?_⟩
      · rw [hx]; rfl
      · rw [hx]; rfl
      · rw [hx]; rfl
      · rw [strandOf_restart _ r (.inr hra), if_neg hr]
      · exact (onlyAt_settle (subKey s p x) _).link j hj
    · rw [if_pos (by omega)]
      exact linkOf_sublinkDown _ _ _
  case retry =>
    obtain ⟨r, hr, hu, hc⟩ := hsees
    have h := onlyAt_trainFull (subKey s p x) s
    have hseen : seesLight s (subKey s p x) = true := List.any_eq_true.2 ⟨r, mem_trained hr hu, by rw [hc]; rfl⟩
    refine ⟨_, exec_downRetry hp hqu hst, h.keeps.at_link, ?_, h.link, fun r hr hu => ?_⟩
    · rw [linkOf_trainFull, hseen]
      rfl
    · rw [strandOf_trainFull, if_pos (mem_trained hr hu)]
      rfl

end Sys2Proof.Machine
end

section
/-! Loss of light, wavelength rotation and recalibration (R53, R55, R56, R58, R74). -/

namespace Sys2Proof.Machine

/-! ## A strand that loses c -/

section
variable {p : Port} {x : Strand} {s : State} {k q : Nat}

theorem pos_div (p : Port) (x : Strand) : (4 * p.val + x.val) / 4 = p.val := by omega

theorem pos_mod (p : Port) (x : Strand) : (4 * p.val + x.val) % 4 = x.val := by omega

/-- A strand without c. -/
def loseStrand (q : Nat) : State → State := modStrand q fun x => { x with cLost := true }

theorem exec_cLossTimeout (hp : portOn s p = true) (ht : pastTraining (linkOf s (subKey s p x)).st = true) (ha : (strandOf s (4 * p.val + x.val)).alone = false) :
    exec (.cLossTimeout p x) s = .next (retireStrand (4 * p.val + x.val) (loseStrand (4 * p.val + x.val) s)) := by
  change execCLossTimeout p x s = _
  simp only [execCLossTimeout, hp, linkOf_modStrand, strandOf_modStrand_same, ha]
  cases h : (linkOf s (subKey s p x)).st <;> simp [h, pastTraining] at ht ⊢ <;> rfl

/-- A strand as it is retired. -/
def retired (x : StrandSt) : StrandSt :=
  { x with retired := true, restored := false, outOfUse := true, st := .down, alone := false, rotating := none, rotStage := 0, recal := none, rot := 0, due := [], clean := 0 }

/-- The strand is out of use and logged; the sub-link is still to be looked at. -/
def strandOut (q : Nat) (s : State) : State := logEvent 0x0004 0 (q / 4) [] (modStrand q retired s)

theorem keeps_strandOut (q : Nat) (s : State) : Keeps true 0x12581 s (strandOut q s) := logEvent_keeps _ _ _ _ (modStrand_keeps _ _ (.refl _ _ s) rfl) rfl

theorem strandOf_strandOut (q : Nat) (s : State) (r : Nat) : strandOf (strandOut q s) r = if r = q then retired (strandOf s r) else strandOf s r :=
  (strandOf_congr ((logEvent_keeps (d := true) (L := 0x2581) _ _ _ _ (.refl _ _ _) rfl).only.strands (by decide)) r).trans (strandOf_modStrand _)

theorem linkOf_strandOut (q : Nat) (s : State) (j : Nat) : linkOf (strandOut q s) j = linkOf s j := linkOf_congr ((keeps_strandOut q s).only.links (by decide)) j

/-- The live strands of a sub-link that has lost one. -/
theorem liveStrands_strandOut (q : Nat) (s : State) (k : Nat) : liveStrands (strandOut q s) k = (liveStrands s k).filter (· ≠ q) := by
  unfold liveStrands
  rw [strandPos_congr ((keeps_strandOut q s).only.ports (by decide)), List.filter_filter]
  refine List.filter_congr fun r _ => ?_
  rw [strandOf_strandOut]
  by_cases hr : r = q <;> simp [hr, retired]

theorem retireStrand_eq (hu : (strandOf s q).outOfUse = false) : retireStrand q s =
    if (liveStrands (strandOut q s) (subKey s (q / 4) (q % 4))).isEmpty then
      sublinkDown (subKey s (q / 4) (q % 4)) (if (linkOf (strandOut q s) (subKey s (q / 4) (q % 4))).quar then .quarantine else .allRetired) (strandOut q s)
    else replayAll (subKey s (q / 4) (q % 4)) (strandOut q s) := if_neg (by simp [hu])

/-- The strand itself is lost, whatever becomes of its sub-link. -/
theorem lost_retireStrand (hu : (strandOf s q).outOfUse = false) (hc : (strandOf s q).cLost = true) : Lost (strandOf (retireStrand q s) q) := by
  have hl : Lost (strandOf (strandOut q s) q) := by
    rw [strandOf_strandOut, if_pos rfl]
    exact ⟨hc, rfl, rfl, rfl⟩
  rw [retireStrand_eq hu]
  split
  · exact lost_sublinkDown _ _ hl
  · exact hl

/-- With another strand left the sub-link runs on, its flits to be replayed. -/
theorem retireStrand_runs {r : Nat} (hu : (strandOf s q).outOfUse = false) (hr : r ∈ liveStrands s (subKey s (q / 4) (q % 4))) (hne : r ≠ q) :
    linkOf (retireStrand q s) (subKey s (q / 4) (q % 4)) = { linkOf s (subKey s (q / 4) (q % 4)) with
      resend := (linkOf s (subKey s (q / 4) (q % 4))).replay.map fun f => { f with replay := true } } := by
  have hm : r ∈ liveStrands (strandOut q s) (subKey s (q / 4) (q % 4)) := by
    rw [liveStrands_strandOut]
    exact List.mem_filter.2 ⟨hr, by simpa using hne⟩
  rw [retireStrand_eq hu, if_neg (by simpa using List.ne_nil_of_mem hm), replayAll, linkOf_modLink_same, linkOf_strandOut]

/-- With none it is down. -/
theorem retireStrand_down (hu : (strandOf s q).outOfUse = false) (h : ∀ r ∈ liveStrands s (subKey s (q / 4) (q % 4)), r = q) :
    (linkOf (retireStrand q s) (subKey s (q / 4) (q % 4))).st = .down := by
  have he : liveStrands (strandOut q s) (subKey s (q / 4) (q % 4)) = [] := by
    rw [liveStrands_strandOut, List.filter_eq_nil_iff]
    exact fun r hr => by simpa using h r hr
  rw [retireStrand_eq hu, he]
  exact (linkOf_sublinkDown _ _ _).1

theorem liveStrands_loseStrand (q : Nat) (s : State) (k : Nat) : liveStrands (loseStrand q s) k = liveStrands s k := by
  unfold liveStrands
  refine List.filter_congr fun r _ => ?_
  rw [loseStrand, strandOf_modStrand]
  split <;> rfl

end

/-! ## Lanes -/

section
variable {y : StrandSt} {lane : Fin 2}

theorem laneWl_lt (y : StrandSt) (lane : Nat) : laneWl y lane < 4 := by
  unfold laneWl
  split <;> omega

theorem laneWl_setLane_zero (y : StrandSt) (lane : Fin 2) : laneWl (setLane y lane 0) lane = 0 := by
  match lane with
  | 0 => rfl
  | 1 => rfl

theorem laneWl_setLane_other (y : StrandSt) (lane : Fin 2) (w : Nat) : laneWl (setLane y lane w) (1 - lane) = laneWl y (1 - lane) := by
  match lane with
  | 0 => rfl
  | 1 => rfl

theorem bitOf_setBit_true (v : BitVec 4) {w : Nat} (h : w < 4) : bitOf (setBit v w true) w = true := by
  revert v
  match w, h with
  | 0, _ => decide
  | 1, _ => decide
  | 2, _ => decide
  | 3, _ => decide

end

/-! ## Rotation and recalibration -/

section
variable {p : Port} {x : Strand} {s : State} {lane : Fin 2}

/-- What an event of a port and a change of a strand leave. -/
theorem keeps_laneEvent (code q : Nat) (f : StrandSt → StrandSt) (s : State) : Keeps true 0x12581 s (logEvent code 0 p [] (modStrand q f s)) :=
  logEvent_keeps _ _ _ _ (modStrand_keeps _ _ (.refl _ _ s) rfl) rfl

theorem strandOf_laneEvent (code q : Nat) (f : StrandSt → StrandSt) (s : State) (r : Nat) :
    strandOf (logEvent code 0 p [] (modStrand q f s)) r = if r = q then f (strandOf s r) else strandOf s r :=
  (strandOf_congr ((logEvent_keeps (d := true) (L := 0x2581) _ _ _ _ (.refl _ _ _) rfl).only.strands (by decide)) r).trans (strandOf_modStrand _)

/-- Only strands and the recorder's parts. -/
theorem Keeps.lane_event {t : State} (h : Keeps true 0x12581 s t) :
    t = { s with out := t.out, flt := t.flt, evr := t.evr, cmd := t.cmd, dbg := t.dbg, ports := t.ports, strands := t.strands } := by
  rw [h.only.ports (by decide)]
  exact h.eq

theorem rotatable_iff : rotatable s (4 * p.val + x.val) lane = true ↔ (strandOf s (4 * p.val + x.val)).outOfUse = false ∧ (strandOf s (4 * p.val + x.val)).alone = false ∧
    pastTraining (linkOf s (subKey s p x)).st = true ∧ (strandOf s (4 * p.val + x.val)).rotating = none ∧ laneWl (strandOf s (4 * p.val + x.val)) lane ≠ 0 := by
  unfold rotatable
  rw [pos_div, pos_mod]
  simp [and_assoc]

/-- A lane's wavelength is not clean, and its rotation to the spare is asked for. -/
def rotAsked (q : Nat) (lane : Fin 2) (w : Nat) (y : StrandSt) : StrandSt :=
  { y with rotating := some lane, rotStage := 0, rot := rotByte 1 q w, clean := setBit y.clean w false }

/-- A lane's wavelength is released. -/
def wlReleased (lane : Fin 2) (w : Nat) (y : StrandSt) : StrandSt :=
  { setLane y lane 0 with released := setBit y.released w true, clean := setBit y.clean w false }

section
variable (hp : portOn s p = true)
include hp

omit hp in
theorem exec_rotationRequest_below (h : correctedIn s (4 * p.val + x.val) lane ≤ (optOf s (p / 12)).rotThr.toNat) : exec (.rotationRequest p x lane false) s = .next s := by
  change execRotationRequest p x lane false s = _
  simp only [execRotationRequest]
  exact congrArg _ (if_pos (by simp; omega))

/-- The spare that a lane that asks for a rotation may get. -/
theorem rotationRequest_passes {a : Bool} {α : Type} {u v w : α} (h : (optOf s (p / 12)).rotThr.toNat < correctedIn s (4 * p.val + x.val) lane ∨ a = true)
    (hr : rotatable s (4 * p.val + x.val) lane = true) :
    (if (!portOn s p || !(decide (correctedIn s (4 * p.val + x.val) lane > (optOf s (p / 12)).rotThr.toNat) || a)) = true then u
      else if ((strandOf s (4 * p.val + x.val)).outOfUse || (strandOf s (4 * p.val + x.val)).alone || !pastTraining (linkOf s (subKey s p x)).st ||
        decide (laneWl (strandOf s (4 * p.val + x.val)) lane = 0) || decide ((strandOf s (4 * p.val + x.val)).rotating = some lane)) = true then v else w) = w := by
  obtain ⟨hu, ha, ht, hro, hw⟩ := rotatable_iff.1 hr
  refine (if_neg ?_).trans (if_neg ?_)
  · rcases h with h | h <;> simp [hp, h]
  · simp [hu, ha, ht, hro, hw]

section
variable {a : Bool} (h : (optOf s (p / 12)).rotThr.toNat < correctedIn s (4 * p.val + x.val) lane ∨ a = true)
  (hr : rotatable s (4 * p.val + x.val) lane = true) (hn : (strandOf s (4 * p.val + x.val)).recal = none)
include h hr hn

theorem exec_rotationRequest_spare {sp : Nat} (hs : spareFor s (4 * p.val + x.val) = some sp) : exec (.rotationRequest p x lane a) s =
    .next (logEvent 0x0002 0 p [] (modStrand (4 * p.val + x.val) (rotAsked (4 * p.val + x.val) lane (laneWl (strandOf s (4 * p.val + x.val)) lane)) s)) := by
  change execRotationRequest p x lane a s = _
  simp only [execRotationRequest, hr, hn, Option.isNone_none, Bool.and_self, if_true, hs]
  exact congrArg _ (rotationRequest_passes hp h hr)

theorem exec_rotationRequest_released (hs : spareFor s (4 * p.val + x.val) = none) (hl : lanesOf (logEvent 0x0003 0 p [] (modStrand (4 * p.val + x.val)
      (wlReleased lane (laneWl (strandOf s (4 * p.val + x.val)) lane)) s)) (4 * p.val + x.val) ≠ []) : exec (.rotationRequest p x lane a) s =
    .next (logEvent 0x0003 0 p [] (modStrand (4 * p.val + x.val) (wlReleased lane (laneWl (strandOf s (4 * p.val + x.val)) lane)) s)) := by
  change execRotationRequest p x lane a s = _
  simp only [execRotationRequest, hr, hn, Option.isNone_none, Bool.and_self, if_true, hs]
  exact congrArg _ ((rotationRequest_passes hp h hr).trans (if_neg fun e => hl (List.isEmpty_iff.1 e)))

end

omit hp in
theorem lanesOf_ne_nil {t : State} {q : Nat} (h : laneWl (strandOf t q) (1 - lane) ≠ 0) : lanesOf t q ≠ [] := by
  unfold lanesOf
  match lane with
  | 0 =>
    have h1 : (strandOf t q).wl1 ≠ 0 := fun e => h (by simp [laneWl, e])
    simp only [if_neg h1]
    simp
  | 1 =>
    have h0 : (strandOf t q).wl0 ≠ 0 := fun e => h (by simp [laneWl, e])
    simp only [if_neg h0]
    simp

end

/-- A recalibration that falls due for the first time, its lane on its own wavelength and a spare there. -/
theorem exec_ringRecalibrationSchedule (hp : portOn s p = true) {sp : Nat} (hr : rotatable s (4 * p.val + x.val) lane = true)
    (hn : (strandOf s (4 * p.val + x.val)).recal = none) (hl : laneWl (strandOf s (4 * p.val + x.val)) lane = lane.val + 1)
    (hs : spareFor s (4 * p.val + x.val) = some sp)
    (h0 : (if lane = 0 then (strandOf s (4 * p.val + x.val)).recalAt0 else (strandOf s (4 * p.val + x.val)).recalAt1) = 0) :
    exec (.ringRecalibrationSchedule p x lane) s = .next (logEvent 0x0001 0 p [] (modStrand (4 * p.val + x.val) (fun y => {
      (if lane = 0 then { y with recal := some lane, recalAt0 := s.clock } else { y with recal := some lane, recalAt1 := s.clock } : StrandSt) with
      rotating := some lane, rotStage := 0, rot := rotByte 1 (4 * p.val + x.val) (lane.val + 1) }) s)) := by
  change execRingRecalibrationSchedule p x lane s = _
  simp only [execRingRecalibrationSchedule]
  refine congrArg _ ((if_neg ?_).trans ((if_pos hl).trans ?_))
  · simp [hp, hr, hn, h0]
  · rw [hs]

theorem exec_ringRecalibrationDone_not {ok : Bool} (h : (strandOf s (4 * p.val + x.val)).recal ≠ some lane ∨ (strandOf s (4 * p.val + x.val)).rotating.isSome = true ∨
    laneWl (strandOf s (4 * p.val + x.val)) lane = lane.val + 1) : exec (.ringRecalibrationDone p x lane ok) s = .next s := by
  change execRingRecalibrationDone p x lane ok s = _
  simp only [execRingRecalibrationDone]
  refine congrArg _ (if_pos ?_)
  rcases h with h | h | h <;> simp [h]

/-- A recalibration that is over: the lane goes back, or its wavelength stays released. -/
theorem exec_ringRecalibrationDone (hp : portOn s p = true) (ok : Bool) (hr : (strandOf s (4 * p.val + x.val)).recal = some lane)
    (hn : (strandOf s (4 * p.val + x.val)).rotating = none) (hl : laneWl (strandOf s (4 * p.val + x.val)) lane ≠ lane.val + 1) :
    exec (.ringRecalibrationDone p x lane ok) s = .next (modStrand (4 * p.val + x.val) (fun y => if ok then { y with
      recal := none, rotating := some lane, rotStage := 0, rot := rotByte 2 (4 * p.val + x.val) (lane.val + 1), clean := setBit y.clean (lane.val + 1) true }
      else { y with recal := none, released := setBit y.released (lane.val + 1) true }) s) := by
  change execRingRecalibrationDone p x lane ok s = _
  simp only [execRingRecalibrationDone]
  refine congrArg _ ((if_neg ?_).trans ?_)
  · simp [hp, hr, hn, hl]
  · cases ok <;> rfl

end

/-- Settles O42: the loss of c, then rotation, then recalibration of a lane. -/
theorem strandsAndLanes : Obligations.StrandsAndLanes := by
  intro p x s hp
  refine ⟨fun ht ha hu => ?loss, fun lane => ⟨exec_rotationRequest_below, fun a sp h hr hn => ⟨fun hs => ?spare, fun hs hw => ?released⟩⟩,
    fun lane sp hr hn hl hs h0 => ?schedule, fun lane ok => ⟨exec_ringRecalibrationDone_not, fun hr hn hl => ?done⟩⟩
  case loss =>
    have hx : strandOf (loseStrand (4 * p.val + x.val) s) (4 * p.val + x.val) = { strandOf s (4 * p.val + x.val) with cLost := true } := strandOf_modStrand_same _
    have hu' : (strandOf (loseStrand (4 * p.val + x.val) s) (4 * p.val + x.val)).outOfUse = false := by rw [hx]; exact hu
    have hk : subKey (loseStrand (4 * p.val + x.val) s) ((4 * p.val + x.val) / 4) ((4 * p.val + x.val) % 4) = subKey s p x := by
      rw [pos_div, pos_mod]
      rfl
    have hruns := fun r => retireStrand_runs (r := r) hu'
    have hdown := retireStrand_down hu'
    simp only [hk, liveStrands_loseStrand] at hruns hdown
    obtain ⟨hc, hre, ho, hst⟩ := lost_retireStrand hu' (by rw [hx])
    refine ⟨_, exec_cLossTimeout hp ht ha, hc, hre, ho, hst, fun ⟨r, hr, hl⟩ => ?_, hdown⟩
    rw [hruns r hl hr]
    exact ⟨rfl, rfl⟩
  case spare =>
    refine ⟨_, exec_rotationRequest_spare hp h hr hn hs, (keeps_laneEvent _ _ _ s).lane_event, (keeps_laneEvent _ _ _ s).only.ports (by decide), ?_, fun r hr => ?_⟩
    · rw [strandOf_laneEvent, if_pos rfl]
      rfl
    · rw [strandOf_laneEvent, if_neg hr]
  case released =>
    have ht := strandOf_laneEvent (p := p) 0x0003 (4 * p.val + x.val) (wlReleased lane (laneWl (strandOf s (4 * p.val + x.val)) lane)) s
    have hq := (ht (4 * p.val + x.val)).trans (if_pos rfl)
    have hother := laneWl_setLane_other (strandOf s (4 * p.val + x.val)) lane 0
    refine ⟨_, exec_rotationRequest_released hp h hr hn hs (lanesOf_ne_nil (lane := lane) ?_), (keeps_laneEvent _ _ _ s).lane_event, ?_, ?_, ?_,
      fun r hr => (ht r).trans (if_neg hr)⟩
    · rw [hq]
      exact hother.trans_ne hw
    · rw [hq]
      exact laneWl_setLane_zero _ lane
    · rw [hq]
      exact bitOf_setBit_true _ (laneWl_lt _ _)
    · rw [hq]
      exact hother
  case schedule =>
    refine ⟨_, exec_ringRecalibrationSchedule hp hr hn hl hs h0, (keeps_laneEvent _ _ _ s).lane_event, ?_, ?_, ?_, ?_, fun r hr => ?_⟩
    · rw [strandOf_laneEvent, if_pos rfl]
      split <;> rfl
    · rw [strandOf_laneEvent, if_pos rfl]
    · rw [strandOf_laneEvent, if_pos rfl]
    · rw [strandOf_laneEvent, if_pos rfl]
      split <;> rfl
    · rw [strandOf_laneEvent, if_neg hr]
  case done =>
    refine ⟨_, exec_ringRecalibrationDone hp ok hr hn hl, rfl, ?_, fun r hr => strandOf_modStrand_other _ hr⟩
    rw [strandOf_modStrand_same]

end Sys2Proof.Machine
end

section
/-! SUPPORT. A control slot on every lane, and what its TRAIN field says (R40, R59). -/

namespace Sys2Proof.Machine

/-! ## Reaching a state in a loop -/

/-- What one step brings about and no step undoes, the loop brings about. P is what the step may depend on and the loop keeps. -/
theorem each_reaches {α : Type} {l : List α} {g : α → State → State} {P Q : State → Prop} {s : State} {x : α} (hx : x ∈ l) (hP : ∀ y a, P a → P (g y a))
    (hQ : ∀ y a, Q a → Q (g y a)) (ho : ∀ a, P a → Q (g x a)) (h : P s) : Q (each l g s) := by
  induction l generalizing s with
  | nil => cases hx
  | cons y r ih =>
    rcases List.mem_cons.1 hx with rfl | hr
    · exact each_induct (P := Q) (s := g _ s) (fun z _ a ha => hQ z a ha) (ho s h)
    · exact ih hr (hP y s h)

/-! ## The bytes of a slot -/

section
variable {s : State} {k q lane : Nat}

theorem sub_length (l : List Byte) (ofs len : Nat) : (sub l ofs len).length = len := by
  unfold sub
  simp only [List.length_append, List.length_replicate]
  have := List.length_take_le len (l.drop ofs)
  omega

/-- A part of a list of bytes that begins after a prefix. -/
theorem sub_append_of_length {a b : List Byte} {ofs : Nat} (h : a.length = ofs) (len : Nat) : sub (a ++ b) ofs len = sub b 0 len := by
  unfold sub
  rw [← h, List.drop_left, List.drop_zero]

/-- Two bytes at the front of a longer list. -/
theorem sub_two (a b : Byte) (l : List Byte) : sub (a :: b :: l) 0 2 = [a, b] := rfl

/-- The bytes of a slot ahead of TRAIN. -/
def slotHead (s : State) (k q lane : Nat) : List Byte :=
  let l := linkOf s k
  bytesBE 8 0xA5C30FF0E1963C5A ++ [BitVec.ofNat 8 (4 * (q % 4) + lane), BitVec.ofNat 8 (stateSent l)] ++
    bytesBE 2 l.csc.toNat ++ bytesBE 3 (l.rxSeq - 1).toNat ++ [if l.nakPend then 1 else 0] ++
    (List.range 8).flatMap (fun v => bytesBE 2 (tget 0 (credShown s k) v).toNat) ++ bytesBE 2 (healthWord s k).toNat ++
    [(strandOf s q).rot, retByte s k]

theorem slotHead_length : (slotHead s k q lane).length = 36 := by
  simp [slotHead, bytesBE_length, List.range_succ]

theorem slotBytes_eq : ∃ tail : List Byte, slotBytes s k q lane = slotHead s k q lane ++ (sub (trainSent s k q) 0 64 ++ tail) := by
  refine ⟨List.replicate 148 0 ++ bytesBE 8 (crc64 (slotHead s k q lane ++ sub (trainSent s k q) 0 64 ++ List.replicate 148 0)).toNat, ?_⟩
  simp only [← List.append_assoc]
  rfl

/-- An inverted CRC leaves what stands ahead of it. -/
theorem sub_invertCrc (x : BitVec 16) {l : List Byte} {ofs len : Nat} (h : ofs + len ≤ 254) (hl : ofs + len ≤ l.length) : sub (invertCrc x l) ofs len = sub l ofs len := by
  have ht (m : List Byte) : ((l.take 254 ++ m).drop ofs).take len = (l.drop ofs).take len := by
    rw [List.drop_append_of_le_length (by rw [List.length_take]; omega), List.take_append_of_le_length (by rw [List.length_drop, List.length_take]; omega),
      List.drop_take, List.take_take, Nat.min_eq_left (by omega)]
  unfold invertCrc
  split
  · rfl
  · unfold sub
    rw [ht]

/-- A slot that carries a message of two bytes in TRAIN. -/
theorem sub_slot (x : BitVec 16) {a b : Byte} (h : trainSent s k q = [a, b]) : sub (invertCrc x (slotBytes s k q lane)) 36 2 = [a, b] := by
  obtain ⟨tail, ht⟩ := slotBytes_eq (s := s) (k := k) (q := q) (lane := lane)
  have hlen : 36 + 2 ≤ (slotBytes s k q lane).length := by
    rw [ht, List.length_append, List.length_append, slotHead_length, sub_length]
    omega
  rw [sub_invertCrc x (by decide) hlen, ht, sub_append_of_length slotHead_length, h]
  rfl

end

/-! ## The slots sent -/

section
variable {s : State} {k : Nat}

/-- One slot on one lane. -/
def sendSlot (k q lane : Nat) (a : State) : State :=
  let (x, a) := injectCrc (k / 4) 1 a
  countBytes (1024 + 2 * q) (2048 * 12) (emit (.slot q lane (invertCrc x (slotBytes a k q lane))) a)

theorem keeps_sendSlot (k q lane : Nat) (a : State) : Keeps true 0x2081 a (sendSlot k q lane a) :=
  countBytes_keeps _ _ (emit_keeps _ (injectCrc_keeps _ _ (.refl _ _ a) rfl) rfl) rfl

/-- One slot on every lane of the strands that carry slots. -/
def sendLanes (k : Nat) (s : State) : State := each (slotStrands s k) (fun q a => each (lanesOf a q) (sendSlot k q) a) s

theorem keeps_sendLanes (k : Nat) (s : State) : Keeps true 0x2081 s (sendLanes k s) :=
  each_keeps (fun _ _ h => each_keeps (fun _ _ h => h.trans (keeps_sendSlot ..)) h) (.refl _ _ s)

/-- The CSC of the slots to be sent. -/
def nextCsc (k : Nat) : State → State := modLink k fun l => { l with csc := l.csc + 1 }

/-- Rotation requests that the slots carried are with the partner. -/
def rotsSent (l : List Nat) : State → State := each l (fun q => modStrand q rotSent)

theorem sendSlots_eq (k : Nat) (s : State) : sendSlots k s =
    let t := rotsSent (slotStrands (sendLanes k (nextCsc k s)) k) (sendLanes k (nextCsc k s))
    modLink k (fun l => { l with nakPend := false, credSent := credShown (nextCsc k s) k, train := if l.st = .active then [] else l.train,
                                 emptyAt := if creditPending (nextCsc k s) k && l.replay.isEmpty then t.clock else l.emptyAt }) t := rfl

end

/-! ## The message on every lane -/

section
variable {s t : State} {k : Nat} {m : List Byte}

theorem lanesOf_congr (h : t.strands = s.strands) (q : Nat) : lanesOf t q = lanesOf s q := by
  unfold lanesOf
  rw [strandOf_congr h]

theorem slotStrands_congr (hp : t.ports = s.ports) (hs : t.strands = s.strands) (hl : slotsRun (linkOf t k) = slotsRun (linkOf s k)) : slotStrands t k = slotStrands s k := by
  unfold slotStrands
  rw [strandPos_congr hp, hl]
  exact List.filter_congr fun q _ => by rw [strandOf_congr hs]

/-- A slot with the message m in TRAIN has been sent on a lane. -/
def SlotSent (r lane : Nat) (m : List Byte) (t : State) : Prop := ∃ b, .slot r lane b ∈ t.out ∧ sub b 36 2 = m

theorem SlotSent.mono {r lane : Nat} {u : State} (h : SlotSent r lane m t) (hu : t.out <:+ u.out) : SlotSent r lane m u :=
  have ⟨b, hb, hm⟩ := h
  ⟨b, hu.subset hb, hm⟩

/-- Of state s, every lane on which slots run and that is past the first steps of training has been sent m. -/
def Told (s : State) (k : Nat) (m : List Byte) (t : State) : Prop :=
  ∀ r ∈ slotStrands s k, (strandOf s r).alone = false → (strandOf s r).st ≠ .eq → (strandOf s r).st ≠ .align → ∀ lane ∈ lanesOf s r, SlotSent r lane m t

theorem Told.mono {u : State} (h : Told s k m t) (hu : t.out <:+ u.out) : Told s k m u := fun r hr ha he hl lane hlane =>
  (h r hr ha he hl lane hlane).mono hu

theorem Told.of_same {u : State} (h : Told t k m u) (hp : t.ports = s.ports) (hs : t.strands = s.strands) (hl : slotsRun (linkOf t k) = slotsRun (linkOf s k)) :
    Told s k m u := by
  have hq := slotStrands_congr hp hs hl
  intro r hr ha he hg lane hlane
  exact h r (hq ▸ hr) (by rwa [strandOf_congr hs]) (by rwa [strandOf_congr hs]) (by rwa [strandOf_congr hs]) lane (by rwa [lanesOf_congr hs])

/-- Is a link state one of the first steps of training? -/
def early (st : LinkSt) : Bool := match st with | .clock | .eq | .align => true | _ => false

theorem early_eq_false {st : LinkSt} : early st = false ↔ st ≠ .clock ∧ st ≠ .eq ∧ st ≠ .align := by cases st <;> decide

/-- A strand past the first steps of training sends its sub-link's message. -/
theorem trainSent_of_late {q : Nat} (ha : (strandOf s q).alone = false) (hq : early (strandOf s q).st = false) (hl : early (linkOf s k).st = false) :
    trainSent s k q = (linkOf s k).train := by
  change (if ((strandOf s q).alone || early (strandOf s q).st || early (linkOf s k).st) = true then _ else _) = _
  rw [ha, hq, hl]
  rfl

theorem not_clock_of_slotStrands {q : Nat} (h : q ∈ slotStrands s k) : (strandOf s q).st ≠ .clock := by
  intro hc
  have := (List.mem_filter.1 h).2
  simp [hc] at this

/-- A slot on one lane carries its sub-link's message. -/
theorem slot_sendSlot {a b : Byte} {q lane : Nat} (ha : (strandOf s q).alone = false) (hq : early (strandOf s q).st = false) (hl : early (linkOf s k).st = false)
    (hm : (linkOf s k).train = [a, b]) : SlotSent q lane [a, b] (sendSlot k q lane s) := by
  have hk : Keeps true 0x80 s (injectCrc (k / 4) 1 s).2 := injectCrc_keeps _ _ (.refl _ _ s) rfl
  have hs : (injectCrc (k / 4) 1 s).2.strands = s.strands := hk.only.strands (by decide)
  have hlk : linkOf (injectCrc (k / 4) 1 s).2 k = linkOf s k := linkOf_congr (hk.only.links (by decide)) k
  have hb : trainSent (injectCrc (k / 4) 1 s).2 k q = [a, b] := by
    rw [trainSent_of_late (by rwa [strandOf_congr hs]) (by rwa [strandOf_congr hs]) (by rwa [hlk]), hlk, hm]
  exact ⟨_, List.mem_cons_self, sub_slot _ hb⟩

/-- What the slot on one lane brings about and no slot undoes, a slot on every lane brings about. -/
theorem sendLanes_reaches {P Q : State → Prop} {r lane : Nat} (hr : r ∈ slotStrands s k) (hlane : lane ∈ lanesOf s r) (hP : ∀ q l a, P a → P (sendSlot k q l a))
    (hlanes : ∀ a, P a → lanesOf a r = lanesOf s r) (hQ : ∀ q l a, Q a → Q (sendSlot k q l a)) (ho : ∀ a, P a → Q (sendSlot k r lane a)) (h : P s) : Q (sendLanes k s) :=
  each_reaches (P := P) (Q := Q) hr (fun q _ h => each_induct (fun l _ a => hP q l a) h) (fun q _ h => each_induct (fun l _ a => hQ q l a) h)
    (fun c h => each_reaches (P := P) (Q := Q) (by rwa [hlanes c h]) (hP r) (hQ r) ho h) h

/-- A message of two bytes goes on every lane. -/
theorem told_sendLanes {a b : Byte} (hl : early (linkOf s k).st = false) (hm : (linkOf s k).train = [a, b]) : Told s k [a, b] (sendLanes k s) := by
  intro r hr hra hre hrl lane hlane
  have hst : early (strandOf s r).st = false := by
    have hrc := not_clock_of_slotStrands hr
    exact early_eq_false.2 ⟨hrc, hre, hrl⟩
  refine sendLanes_reaches (P := Keeps true 0x2081 s) hr hlane (fun _ _ _ h => h.trans (keeps_sendSlot ..)) (fun c h => lanesOf_congr (h.only.strands (by decide)) r)
    (fun _ _ _ h => h.mono (keeps_sendSlot ..).sent) (fun d hd => ?_) (.refl _ _ s)
  have hds := hd.only.strands (by decide)
  have hdl : linkOf d k = linkOf s k := linkOf_congr (hd.only.links (by decide)) k
  exact slot_sendSlot (by rwa [strandOf_congr hds]) (by rwa [strandOf_congr hds]) (by rwa [hdl]) (by rwa [hdl])

theorem told_sendSlots {a b : Byte} (hl : early (linkOf s k).st = false) (hm : (linkOf s k).train = [a, b]) : Told s k [a, b] (sendSlots k s) := by
  have hn : linkOf (nextCsc k s) k = { linkOf s k with csc := (linkOf s k).csc + 1 } := linkOf_modLink_same _
  have ht : Told (nextCsc k s) k [a, b] (sendLanes k (nextCsc k s)) := told_sendLanes (by rw [hn]; exact hl) (by rw [hn]; exact hm)
  refine (Told.of_same (s := s) ht rfl rfl (by rw [hn]; rfl)).mono ?_
  rw [sendSlots_eq]
  exact (modLink_keeps (d := true) (L := 0x32081) _ _ (each_keeps (fun _ _ h => modStrand_keeps _ _ h rfl) (.refl _ _ _)) rfl).sent

end

/-! ## REFUSE (R59, R489) -/

section
variable {s : State} {k : Nat}

theorem told_sendRefuse (n : Nat) (hl : early (linkOf s k).st = false) : Told s k [7, BitVec.ofNat 8 n] (sendRefuse k n s) := by
  have hn : linkOf (setTrain k [7, BitVec.ofNat 8 n] s) k = { linkOf s k with train := [7, BitVec.ofNat 8 n] } := linkOf_modLink_same _
  have ht := told_sendSlots (s := setTrain k [7, BitVec.ofNat 8 n] s) (k := k) (by rw [hn]; exact hl) (by rw [hn])
  exact Told.of_same ht rfl rfl (by rw [hn]; rfl)

/-- A sub-link refused is DOWN for the reason, and every lane in control slots has been told. -/
theorem refuseLink_told (n : Nat) (hl : early (linkOf s k).st = false) : (linkOf (refuseLink k n s) k).st = .down ∧
    (linkOf (refuseLink k n s) k).reason = (if n = 1 then .breakout else .refused) ∧ Told s k [7, BitVec.ofNat 8 n] (refuseLink k n s) := by
  obtain ⟨hst, hr⟩ := linkOf_sublinkDown k (if n = 1 then .breakout else .refused) (sendRefuse k n s)
  refine ⟨hst, hr, (told_sendRefuse n hl).mono ?_⟩
  exact (sublinkDown_keeps (d := true) (L := 0xffbf583) _ _ (.refl _ _ (sendRefuse k n s)) rfl).sent

end

end Sys2Proof.Machine
end

section
/-! SUPPORT. The registry of the manager: what answers an endpoint's registration, and what serving and withdrawing leave (R98 to R100). -/

namespace Sys2Proof.Machine

section
variable {s : State} {q r : RegReq}

theorem tdel_sublist {α : Type} (t : Tbl α) (k : Nat) : (tdel t k).Sublist t := by
  induction t with
  | nil => exact .slnil
  | cons e t ih =>
    unfold tdel
    split
    · exact ih.cons e
    · exact ih.cons_cons e

/-! ## The answer to an endpoint (R99) -/

theorem regHolder_endpoint (hq : q.isSwitch = false) : regHolder s q = (regOf s q.id.toNat).bind fun r =>
    if r.coord = q.coord ∧ (r.port = q.port ∧ r.strand = q.strand) then none else some r := by
  have hnone : (regRecs s).find? (fun e => q.isSwitch && e.2.isSwitch && e.2.coord == q.coord && e.1 != q.id.toNat) = none := by
    refine List.find?_eq_none.2 fun e _ => ?_
    rw [hq]
    nofun
  unfold regHolder
  rw [hnone]
  cases regOf s q.id.toNat with
  | none => rfl
  | some r => simp [hq]

/-- An identifier without a record is accepted while there is room. -/
theorem regAnswerOf_accepted (hq : q.isSwitch = false) (h : regOf s q.id.toNat = none) (hroom : (regRecs s).length < 524288) : regAnswerOf s q = .accepted := by
  have hlen : ((regRecs s).filter fun e => e.2.isSwitch == q.isSwitch).length < 524288 := Nat.lt_of_le_of_lt (List.length_filter_le _ _) hroom
  have hholder : regHolder s q = none := by rw [regHolder_endpoint hq, h]; rfl
  rw [hq] at hlen
  unfold regAnswerOf
  rw [hholder, hq]
  refine if_neg fun hf => ?_
  have := hf.2
  simp only [Bool.false_eq_true, if_false] at this
  omega

/-- An identifier that another place holds is a duplicate. -/
theorem regAnswerOf_duplicate {h : RegRec} (hq : q.isSwitch = false) (hh : regOf s q.id.toNat = some h) (hne : h.coord ≠ q.coord) :
    regAnswerOf s q = .duplicate h.coord h.port h.strand := by
  have hholder : regHolder s q = some h := by
    rw [regHolder_endpoint hq, hh]
    exact if_neg fun hp => hne hp.1
  unfold regAnswerOf
  rw [hholder]

/-! ## Serving -/

/-- The record of an endpoint's registration. -/
def endRec (q : RegReq) : RegRec := { coord := q.coord, port := q.port, strand := q.strand, isSwitch := false }

/-- A registry with a record entered or taken out. -/
def enterReg (id : Nat) (r : Option RegRec) : State → State := modMgr fun m => { m with reg := tset none m.reg id r }

theorem regOf_enterReg (id : Nat) (r : Option RegRec) (s : State) (i : Nat) : regOf (enterReg id r s) i = if i = id then r else regOf s i := tget_tset _ _ _ _ _

theorem serveReg_accepted (hq : q.isSwitch = false) (h : regOf s q.id.toNat = none) (hroom : (regRecs s).length < 524288) :
    serveReg q s = (.accepted, enterReg q.id.toNat (some (endRec q)) s) := by
  have hg : tget none s.mgr.reg q.id.toNat = none := h
  unfold serveReg
  rw [regAnswerOf_accepted hq h hroom]
  change (RegAns.accepted, { s with mgr := { s.mgr with reg := tset none s.mgr.reg q.id.toNat (some ((tget none s.mgr.reg q.id.toNat).getD _)) } }) = _
  rw [hg, hq]
  rfl

theorem serveReg_duplicate {h : RegRec} (hq : q.isSwitch = false) (hh : regOf s q.id.toNat = some h) (hne : h.coord ≠ q.coord) :
    serveReg q s = (.duplicate h.coord h.port h.strand, logMb 0x5210 (dupDetail q (.duplicate h.coord h.port h.strand)) s) := by
  unfold serveReg
  rw [regAnswerOf_duplicate hq hh hne]

/-- One registration served and answered. -/
def answerReg (q : RegReq) (s : State) : State := emit (.regAnswer q (serveReg q s).1) (serveReg q s).2

theorem serveRegs_eq (qs : List RegReq) (s : State) : serveRegs qs s = each (sortBy arbKey qs) answerReg s := rfl

theorem answerReg_accepted (hq : q.isSwitch = false) (h : regOf s q.id.toNat = none) (hroom : (regRecs s).length < 524288) :
    answerReg q s = emit (.regAnswer q .accepted) (enterReg q.id.toNat (some (endRec q)) s) := by
  rw [answerReg, serveReg_accepted hq h hroom]

theorem answerReg_duplicate {h : RegRec} (hq : q.isSwitch = false) (hh : regOf s q.id.toNat = some h) (hne : h.coord ≠ q.coord) :
    answerReg q s = emit (.regAnswer q (.duplicate h.coord h.port h.strand)) (logMb 0x5210 (dupDetail q (.duplicate h.coord h.port h.strand)) s) := by
  rw [answerReg, serveReg_duplicate hq hh hne]

/-- A refusal leaves the manager's books. -/
theorem mgr_answerReg_duplicate {h : RegRec} (hq : q.isSwitch = false) (hh : regOf s q.id.toNat = some h) (hne : h.coord ≠ q.coord) : (answerReg q s).mgr = s.mgr := by
  rw [answerReg_duplicate hq hh hne]
  exact (keeps_logMb ..).only.mgr (by decide)

/-! ## Withdrawing (R100) -/

theorem serveWithdraw_holder (hh : regOf s q.id.toNat = some (endRec q)) (hg : s.mgr.groups = []) : serveWithdraw q s = enterReg q.id.toNat none s := by
  have hgroups : (modMgr (fun m => { m with reg := tset none m.reg q.id.toNat none }) s).mgr.groups = [] := hg
  unfold serveWithdraw
  rw [hh]
  refine (if_pos ⟨rfl, rfl, rfl, nofun⟩).trans ?_
  dsimp only
  rw [hgroups]
  rfl

theorem serveWithdraw_other {h : RegRec} (hh : regOf s q.id.toNat = some h) (hne : h.coord ≠ q.coord) : serveWithdraw q s = s := by
  unfold serveWithdraw
  rw [hh]
  exact if_neg fun hp => hne hp.1

theorem room_enterReg_none (id : Nat) : (regRecs (enterReg id none s)).length ≤ (regRecs s).length :=
  ((tdel_sublist s.mgr.reg id).filterMap _).length_le

/-! ## The order of an arbitration (R98) -/

theorem arbKey_lt (h : r.coord.toNat < q.coord.toNat) (hr : r.port < 288) (hs : r.strand < 4) : arbKey r < arbKey q := by
  unfold arbKey
  omega

theorem sortBy_pair (h : arbKey r < arbKey q) {l : List RegReq} (hl : l ∈ [[r, q], [q, r]]) : sortBy arbKey l = [r, q] := by
  rcases List.mem_pair.1 hl with rfl | rfl
  · exact if_neg (Nat.lt_asymm h)
  · exact if_pos h

end

/-! ## The rows -/

section
variable {s : State} {q r : RegReq}

theorem exec_registrationRequest_worker (h : s.gctl.role ≠ .manager) (qs ws : List RegReq) : exec (.registrationRequest qs ws) s = .next s :=
  congrArg Host.Outcome.next (if_neg (by simp [isMgr_eq_false h]))

theorem exec_withdrawal_worker (h : s.gctl.role ≠ .manager) (ws : List RegReq) : exec (.withdrawal ws) s = .next s :=
  congrArg Host.Outcome.next (if_neg (by simp [isMgr_eq_false h]))

variable (ha : alive s = true) (hm : s.gctl.role = .manager)
include ha hm

theorem exec_registrationRequest_manager (qs ws : List RegReq) : exec (.registrationRequest qs ws) s = .next (each (sortBy arbKey qs) answerReg (serveWithdraws ws s)) :=
  congrArg Host.Outcome.next (if_pos (by simp [ha, isMgr_eq_true hm]))

theorem exec_withdrawal_manager (r : RegReq) : exec (.withdrawal [r]) s = .next (serveWithdraw r s) :=
  congrArg Host.Outcome.next (if_pos (by simp [ha, isMgr_eq_true hm]))

/-- Of two registrations of one identifier the lower coordinate's is accepted, in whichever order they come. -/
theorem registrationRequest_pair (hr : r.isSwitch = false) (hq : q.isSwitch = false) (hid : q.id = r.id) (hn : regOf s r.id.toNat = none)
    (hroom : (regRecs s).length < 524288) (hlt : r.coord.toNat < q.coord.toNat) (hp : r.port < 288) (hx : r.strand < 4) {l : List RegReq} (hl : l ∈ [[r, q], [q, r]]) :
    ∃ t, exec (.registrationRequest l []) s = .next t ∧ .regAnswer r .accepted ∈ t.out ∧ .regAnswer q (.duplicate r.coord r.port r.strand) ∈ t.out ∧
      regOf t r.id.toNat = some (endRec r) := by
  have hfirst := answerReg_accepted hr hn hroom
  have hheld : regOf (answerReg r s) r.id.toNat = some (endRec r) := by
    rw [hfirst]
    exact (regOf_enterReg ..).trans (if_pos rfl)
  have hne : (endRec r).coord ≠ q.coord := fun h => Nat.lt_irrefl _ ((congrArg BitVec.toNat h).symm ▸ hlt : q.coord.toNat < q.coord.toNat)
  have hheldq : regOf (answerReg r s) q.id.toNat = some (endRec r) := by rw [hid, hheld]
  have hsecond := answerReg_duplicate hq hheldq hne
  refine ⟨answerReg q (answerReg r s), ?_, ?_, ?_, ?_⟩
  · rw [exec_registrationRequest_manager ha hm, sortBy_pair (arbKey_lt hlt hp hx) hl]
    rfl
  · rw [hsecond, hfirst]
    exact List.mem_cons_of_mem _ ((keeps_logMb ..).sent.subset List.mem_cons_self)
  · rw [hsecond]
    exact List.mem_cons_self
  · unfold regOf
    rw [mgr_answerReg_duplicate hq hheldq hne]
    exact hheld

end

end Sys2Proof.Machine
end

section
/-! From TS2 to registration: the messages of assignment, the refusals, the answers to a registration, and the registry (R59 to R61, R98 to R103, R489). -/

namespace Sys2Proof.Machine

/-! ## A refusal -/

section
variable {s t : State} {k : Nat}

/-- What a refusal on a sub-link past the first steps brings, told in the strands and ports of s. -/
structure RefusedAt (s : State) (k : Nat) (n : Byte) (reason : DownReason) (t : State) : Prop where
  st : (linkOf t k).st = .down
  reason : (linkOf t k).reason = reason
  told : Told s k [7, n] t

theorem refuseLink_refused (n : Nat) (hl : early (linkOf s k).st = false) (hp : s.ports = t.ports) (hs : s.strands = t.strands)
    (hr : slotsRun (linkOf s k) = slotsRun (linkOf t k)) :
    RefusedAt t k (BitVec.ofNat 8 n) (if n = 1 then .breakout else .refused) (refuseLink k n s) :=
  have ⟨h1, h2, h3⟩ := refuseLink_told n hl
  ⟨h1, h2, h3.of_same hp hs hr⟩

end

/-! ## TS2 (R59, R60) -/

section
variable {p : Port} {x : Strand} {s : State} {k : Nat}

/-- What a TS2 says of the partner. -/
def ts2Heard (cs : List (BitVec 16)) (d : BitVec 16) (k : Nat) : State → State := modLink k fun l => { l with
  partnerVersion := some 1, partnerDepth := d, credHeld := (List.range 8).foldl (fun t v => tset 0 t v (cs.getD v 0).toNat) [], credSeen := [], freed := [] }

theorem keeps_ts2Heard (cs : List (BitVec 16)) (d : BitVec 16) (k : Nat) (s : State) : Keeps true 0x30000 s (ts2Heard cs d k s) := modLink_keeps _ _ (.refl _ _ s) rfl

theorem linkOf_ts2Heard (cs : List (BitVec 16)) (d : BitVec 16) (k : Nat) (s : State) : linkOf (ts2Heard cs d k s) k = { linkOf s k with
  partnerVersion := some 1, partnerDepth := d, credHeld := (List.range 8).foldl (fun t v => tset 0 t v (cs.getD v 0).toNat) [], credSeen := [], freed := [] } :=
  linkOf_modLink_same _

/-- The sub-link is in ASSIGN and its slots carry a message. -/
def assigning (k : Nat) (m : List Byte) (s : State) : State := setTrain k m (linkTo k .assign s)

theorem linkOf_assigning (k : Nat) (m : List Byte) (s : State) : linkOf (assigning k m s) k = { linkOf s k with st := .assign, train := m } := by
  rw [assigning, setTrain, linkOf_modLink_same, linkOf_linkTo]

theorem keeps_assigning (k : Nat) (m : List Byte) (s : State) : Keeps true 0x30000 s (assigning k m s) := setTrain_keeps _ _ (linkTo_keeps _ _ (.refl _ _ s) rfl) rfl

/-- The first ASSIGN is the first try. -/
def firstTry (k : Nat) : State → State := modLink k fun l => { l with assignTries := 1 }

theorem linkOf_firstTry (k : Nat) (s : State) : linkOf (firstTry k s) k = { linkOf s k with assignTries := 1 } := linkOf_modLink_same _

section
variable (hp : listening s p = true) (hc : (linkOf s (subKey s p x)).st = .config) (cs : List (BitVec 16)) (d : BitVec 16)
include hp hc

theorem exec_ts2_version {v : Byte} (hv : v ≠ 1) : exec (.ts2 p x cs d v) s = .next (refuseLink (subKey s p x) 2 s) :=
  congrArg Host.Outcome.next ((if_neg (by simp [hp, hc])).trans (if_pos hv))

theorem exec_ts2_breakout (hb : (linkOf s (subKey s p x)).partnerBreakout ≠ some ((portOf s p).breakout.setWidth 8)) :
    exec (.ts2 p x cs d 1) s = .next (refuseLink (subKey s p x) 1 s) :=
  congrArg Host.Outcome.next ((if_neg (by simp [hp, hc])).trans ((if_neg (by simp)).trans (if_pos hb)))

variable (hb : (linkOf s (subKey s p x)).partnerBreakout = some ((portOf s p).breakout.setWidth 8))
include hb

theorem exec_ts2_agreed : exec (.ts2 p x cs d 1) s = .next (
    if (linkOf (ts2Heard cs d (subKey s p x) s) (subKey s p x)).partnerSwitch then
      assigning (subKey s p x) (coordMsg (ts2Heard cs d (subKey s p x) s) (subKey s p x)) (ts2Heard cs d (subKey s p x) s)
    else match tableId (ts2Heard cs d (subKey s p x) s) (subKey s p x) with
      | none => refuseLink (subKey s p x) 5 (ts2Heard cs d (subKey s p x) s)
      | some _ => assigning (subKey s p x) (3 :: assignMsg (firstTry (subKey s p x) (ts2Heard cs d (subKey s p x) s)) (subKey s p x))
          (firstTry (subKey s p x) (ts2Heard cs d (subKey s p x) s))) := by
  change execTs2 p x cs d 1 s = _
  refine congrArg Host.Outcome.next ((if_neg (by simp [hp, hc])).trans ((if_neg (by simp)).trans ((if_neg (by simp [hb])).trans ?_)))
  rfl

theorem exec_ts2_switch (hsw : (linkOf s (subKey s p x)).partnerSwitch = true) :
    exec (.ts2 p x cs d 1) s = .next (assigning (subKey s p x) (coordMsg s (subKey s p x)) (ts2Heard cs d (subKey s p x) s)) := by
  rw [exec_ts2_agreed hp hc cs d hb, linkOf_ts2Heard]
  exact congrArg Host.Outcome.next (if_pos hsw)

theorem exec_ts2_unknown (hsw : (linkOf s (subKey s p x)).partnerSwitch = false) (hid : tableId s (subKey s p x) = none) :
    exec (.ts2 p x cs d 1) s = .next (refuseLink (subKey s p x) 5 (ts2Heard cs d (subKey s p x) s)) := by
  have hid' : tableId (ts2Heard cs d (subKey s p x) s) (subKey s p x) = none := hid
  rw [exec_ts2_agreed hp hc cs d hb, linkOf_ts2Heard, hid']
  exact congrArg Host.Outcome.next (if_neg (by simp [hsw]))

theorem exec_ts2_endpoint (hsw : (linkOf s (subKey s p x)).partnerSwitch = false) {id : Ident} (hid : tableId s (subKey s p x) = some id) :
    exec (.ts2 p x cs d 1) s = .next (assigning (subKey s p x) (3 :: assignMsg s (subKey s p x)) (firstTry (subKey s p x) (ts2Heard cs d (subKey s p x) s))) := by
  have hid' : tableId (ts2Heard cs d (subKey s p x) s) (subKey s p x) = some id := hid
  rw [exec_ts2_agreed hp hc cs d hb, linkOf_ts2Heard, hid']
  exact congrArg Host.Outcome.next (if_neg (by simp [hsw]))

end

end

/-! ## Assignment done (R60, R61) -/

section
variable {s : State} {k : Nat}

/-- A strand of a sub-link that is assigned. -/
def cleared (x : StrandSt) : StrandSt := { x with row := 0, reason := if x.outOfUse then x.reason else .none }

/-- The sub-link is in REGISTER, its assignment valid. -/
def toRegister (k : Nat) (s : State) : State :=
  linkTo k .register (each (strandPos s k) (fun q => modStrand q cleared) (modLink k (fun l => { l with valid := true, reason := .none, train := [6, 7], emptyAt := s.clock }) s))

/-- The registration is on its way. -/
def awaitAnswer (k : Nat) (s : State) : State := modLink k (fun l => { l with regPending := true, regAt := s.clock }) s

theorem registerLink_worker (h : s.gctl.role ≠ .manager) : registerLink k s = emit (.register (regReqOf (awaitAnswer k s) k)) (awaitAnswer k s) := by
  have hm : isMgr (awaitAnswer k s) = false := isMgr_eq_false h
  unfold registerLink
  exact if_neg (by simp only [awaitAnswer] at hm; simp [hm])

theorem regReqOf_emit (o : Out) (s : State) (k : Nat) : regReqOf (emit o s) k = regReqOf s k := rfl

/-- What a Skarad registers on a switch-facing sub-link is itself. -/
theorem regReqOf_switch {t : State} (hg : t.gctl = s.gctl) (h : (linkOf t k).peerSwitch = true) :
    regReqOf t k = { id := s.gctl.ownId, coord := s.gctl.coord, port := k / 4, strand := k % 4, isSwitch := true } := by
  simp only [regReqOf, h, hg]
  rfl

theorem assigned_eq : assigned k s = registerLink k (toRegister k s) := rfl

theorem onlyAt_toRegister (k : Nat) (s : State) : OnlyAt k s (toRegister k s) :=
  .trans (.each (fun _ hq _ h => h.modStrand _ hq) (.modLink _ (.refl k s))) (onlyAt_linkTo k .register _)

theorem keeps_toRegister (k : Nat) (s : State) : Keeps true 0x30000 s (toRegister k s) :=
  linkTo_keeps _ _ (each_keeps (fun _ _ h => modStrand_keeps _ _ h rfl) (modLink_keeps _ _ (.refl _ _ s) rfl)) rfl

theorem linkOf_toRegister (k : Nat) (s : State) : linkOf (toRegister k s) k =
    { linkOf s k with st := .register, valid := true, reason := .none, train := [6, 7], emptyAt := s.clock } := by
  rw [toRegister, linkOf_linkTo, linkOf_each_modStrand, linkOf_modLink_same]

theorem linkOf_awaitAnswer (k : Nat) (s : State) : linkOf (awaitAnswer k s) k = { linkOf s k with regPending := true, regAt := s.clock } := linkOf_modLink_same _

/-- On a worker an assigned sub-link is in REGISTER and has asked. -/
theorem assigned_worker (h : s.gctl.role ≠ .manager) : assigned k s = emit (.register (regReqOf (assigned k s) k)) (awaitAnswer k (toRegister k s)) ∧
    linkOf (assigned k s) k = { linkOf s k with
      st := .register, valid := true, reason := .none, train := [6, 7], emptyAt := s.clock, regPending := true, regAt := s.clock } ∧
    (∀ j, j ≠ k → linkOf (assigned k s) j = linkOf s j) := by
  have hg : (toRegister k s).gctl.role ≠ .manager := by rwa [(keeps_toRegister k s).only.gctl (by decide)]
  have hc : (toRegister k s).clock = s.clock := (keeps_toRegister k s).only.clock (by decide)
  have he : assigned k s = emit (.register (regReqOf (awaitAnswer k (toRegister k s)) k)) (awaitAnswer k (toRegister k s)) := by
    rw [assigned_eq, registerLink_worker hg]
  have hr : regReqOf (assigned k s) k = regReqOf (awaitAnswer k (toRegister k s)) k := by rw [he, regReqOf_emit]
  refine ⟨by rw [hr, he], ?_, fun j hj => ?_⟩
  · rw [he, linkOf_emit, linkOf_awaitAnswer, linkOf_toRegister, hc]
  · rw [he, linkOf_emit]
    exact (linkOf_modLink_other _ hj).trans ((onlyAt_toRegister k s).link j hj)

theorem assigned_frame (h : s.gctl.role ≠ .manager) : assigned k s =
    { s with out := .register (regReqOf (assigned k s) k) :: s.out, strands := (assigned k s).strands, links := (assigned k s).links } := by
  obtain ⟨he, -, -⟩ := assigned_worker (k := k) h
  have hk : Keeps true 0x30000 s (awaitAnswer k (toRegister k s)) := modLink_keeps _ _ (keeps_toRegister k s) rfl
  generalize regReqOf (assigned k s) k = r at he ⊢
  rw [he]
  generalize awaitAnswer k (toRegister k s) = u at hk ⊢
  rw [hk.eq]
  rfl

end

/-! ## The rows of assignment -/

section
variable {p : Port} {x : Strand} {s : State}

section
variable (hp : listening s p = true)
include hp

theorem exec_assignAck_right (ha : (linkOf s (subKey s p x)).st = .assign) (hsw : (linkOf s (subKey s p x)).partnerSwitch = false) {e : BitVec 64}
    (he : bytesBE 8 e.toNat = assignMsg s (subKey s p x)) : exec (.assignAck p x e) s = .next (assigned (subKey s p x)
      (modLink (subKey s p x) (fun l => { l with ident := (tableId s (subKey s p x)).getD 0, peerSwitch := false }) s)) :=
  congrArg Host.Outcome.next ((if_neg (by simp [hp, ha, hsw])).trans (if_pos he))

theorem exec_assignAck_again (ha : (linkOf s (subKey s p x)).st = .assign) (hsw : (linkOf s (subKey s p x)).partnerSwitch = false) {e : BitVec 64}
    (he : bytesBE 8 e.toNat ≠ assignMsg s (subKey s p x)) (ht : (linkOf s (subKey s p x)).assignTries < 8) : exec (.assignAck p x e) s =
      .next (modLink (subKey s p x) (fun l => { l with assignTries := l.assignTries + 1 }) s) :=
  congrArg Host.Outcome.next ((if_neg (by simp [hp, ha, hsw])).trans ((if_neg he).trans (if_neg (Nat.not_le_of_lt ht))))

theorem exec_assignAck_refused (ha : (linkOf s (subKey s p x)).st = .assign) (hsw : (linkOf s (subKey s p x)).partnerSwitch = false) {e : BitVec 64}
    (he : bytesBE 8 e.toNat ≠ assignMsg s (subKey s p x)) (ht : 8 ≤ (linkOf s (subKey s p x)).assignTries) : exec (.assignAck p x e) s =
      .next (refuseLink (subKey s p x) 6 s) :=
  congrArg Host.Outcome.next ((if_neg (by simp [hp, ha, hsw])).trans ((if_neg he).trans (if_pos ht)))

variable (c : Coord) (pp : BitVec 9) (ps : BitVec 2) (f : Word)

theorem exec_coord_foreign (ha : (linkOf s (subKey s p x)).st = .assign) (hsw : (linkOf s (subKey s p x)).partnerSwitch = true) (hf : f ≠ s.gctl.fabricId) :
    exec (.coord p x c pp ps f) s = .next (refuseLink (subKey s p x) 3 s) :=
  congrArg Host.Outcome.next ((if_neg (by simp [hp, ha, hsw])).trans (if_pos hf))

theorem exec_coord_same (ha : (linkOf s (subKey s p x)).st = .assign) (hsw : (linkOf s (subKey s p x)).partnerSwitch = true) (hf : f = s.gctl.fabricId) :
    exec (.coord p x c pp ps f) s = .next (assigned (subKey s p x)
      (modLink (subKey s p x) (fun l => { l with peerSwitch := true, peer := c, peerPos := 4 * pp.toNat + ps.toNat, ident := 0 }) s)) :=
  congrArg Host.Outcome.next ((if_neg (by simp [hp, ha, hsw])).trans (if_neg fun h => h hf))

theorem exec_ready {b : Byte} (ht : pastTraining (linkOf s (subKey s p x)).st = true) (hb : b = 7 ∨ b = 8) :
    exec (.ready p x b) s = .next (modLink (subKey s p x) (fun l => { l with partnerReady := b }) s) := by
  refine congrArg Host.Outcome.next (if_pos ?_)
  rcases hb with rfl | rfl <;> rw [hp, ht] <;> rfl

end

theorem exec_refuse_ignored {b : Byte} (h : (linkOf s (subKey s p x)).st = .down ∨ (linkOf s (subKey s p x)).st = .dark ∨ (linkOf s (subKey s p x)).st = .quarantine) :
    exec (.refuse p x b) s = .next s := by
  change execRefuse p x b s = _
  simp only [execRefuse]
  rcases h with h | h | h <;> simp only [h] <;> exact congrArg Host.Outcome.next (ite_self _)

theorem exec_refuse (hp : listening s p = true) {b : Byte} (hd : (linkOf s (subKey s p x)).st ≠ .down) (hk : (linkOf s (subKey s p x)).st ≠ .dark)
    (hq : (linkOf s (subKey s p x)).st ≠ .quarantine) : exec (.refuse p x b) s = .next (sublinkDown (subKey s p x) (if b = 1 then .breakout else .refused) s) := by
  refine congrArg Host.Outcome.next ((if_neg (by simp [hp])).trans ?_)
  split
  · next h => exact absurd h hd
  · next h => exact absurd h hk
  · next h => exact absurd h hq
  · rfl

/-! ## The rows of registration (R61, R103) -/

theorem exec_registrationAnswer_unawaited (h : (linkOf s (subKey s p x)).st ≠ .register ∨ (linkOf s (subKey s p x)).regPending = false) (a : RegAns) :
    exec (.registrationAnswer p x a) s = .next s := by
  have hr : regAnswered (subKey s p x) a s = s := if_pos (h.imp id fun hf => by simp [hf])
  refine congrArg Host.Outcome.next ?_
  rw [hr]
  exact ite_self _

/-- A sub-link whose registration is accepted, and one whose identifier is a duplicate. -/
def nowActive (clock : Nat) (l : SubLink) : SubLink := { l with regPending := false, train := [6, 8], liveSince := some clock, joined := false, emptyAt := clock }

def nowHeld (l : SubLink) : SubLink := { l with regPending := false, quar := true, train := [7, 4] }

/-- A worker logs the refusal of its own registration. -/
def noteDuplicate (k : Nat) (a : RegAns) (s : State) : State := iff (!isMgr s) (logMb 0x5210 (dupDetail (regReqOf s k) a)) s

theorem keeps_noteDuplicate (k : Nat) (a : RegAns) (s : State) : Keeps true 0x2581 s (noteDuplicate k a s) := iff_keeps _ (fun _ h => logMb_keeps _ _ h rfl) (.refl _ _ s)

variable (hp : portOn s p = true) (hr : (linkOf s (subKey s p x)).st = .register) (hw : (linkOf s (subKey s p x)).regPending = true)
include hp hr hw

theorem exec_registrationAnswer_accepted : exec (.registrationAnswer p x .accepted) s =
    .next (raiseVec 47 (linkTo (subKey s p x) .active (modLink (subKey s p x) (nowActive s.clock) s))) :=
  congrArg Host.Outcome.next ((if_pos hp).trans (if_neg (by simp [hr, hw])))

theorem exec_registrationAnswer_duplicate (c : Coord) (pp ps : Nat) : exec (.registrationAnswer p x (.duplicate c pp ps)) s =
    .next (raiseVec 47 (linkTo (subKey s p x) .quarantine (modLink (subKey s p x) nowHeld (noteDuplicate (subKey s p x) (.duplicate c pp ps) s)))) :=
  congrArg Host.Outcome.next ((if_pos hp).trans (if_neg (by simp [hr, hw])))

theorem exec_registrationAnswer_full : exec (.registrationAnswer p x .full) s = .next (refuseLink (subKey s p x) 7 (noteDuplicate (subKey s p x) .full s)) :=
  congrArg Host.Outcome.next ((if_pos hp).trans (if_neg (by simp [hr, hw])))

theorem exec_registrationResend : exec (.registrationResend p x) s = .next (registerLink (subKey s p x) (clockTo ((linkOf s (subKey s p x)).regAt + 100000) s)) :=
  congrArg Host.Outcome.next (if_pos (by simp [hp, hr, hw]))

end

/-! ## What the rows bring -/

section
variable {p : Port} {x : Strand} {s : State}

theorem early_of_config {st : LinkSt} (h : st = .config) : early st = false := by rw [h]; rfl

theorem early_of_assign {st : LinkSt} (h : st = .assign) : early st = false := by rw [h]; rfl

theorem early_of_register {st : LinkSt} (h : st = .register) : early st = false := by rw [h]; rfl

/-- A refusal in the state itself. -/
theorem refuseLink_here {k : Nat} (n : Nat) (hl : early (linkOf s k).st = false) : RefusedAt s k (BitVec.ofNat 8 n) (if n = 1 then .breakout else .refused) (refuseLink k n s) :=
  refuseLink_refused n hl rfl rfl rfl

section
variable (hp : listening s p = true) (hc : (linkOf s (subKey s p x)).st = .config) (cs : List (BitVec 16)) (d : BitVec 16)
include hp hc

/-- TS2 of the version and breakout agreed: COORD to a switch, ASSIGN to an endpoint of the table, else REFUSE 5. -/
theorem ts2_agreed (hb : (linkOf s (subKey s p x)).partnerBreakout = some ((portOf s p).breakout.setWidth 8)) : ∃ t, exec (.ts2 p x cs d 1) s = .next t ∧
    ((linkOf s (subKey s p x)).partnerSwitch = true → (linkOf t (subKey s p x)).st = .assign ∧ (linkOf t (subKey s p x)).train = coordMsg s (subKey s p x) ∧
      t = { s with strands := t.strands, links := t.links }) ∧
    ((linkOf s (subKey s p x)).partnerSwitch = false → tableId s (subKey s p x) = none → RefusedAt s (subKey s p x) 5 .refused t) ∧
    (∀ id, (linkOf s (subKey s p x)).partnerSwitch = false → tableId s (subKey s p x) = some id → (linkOf t (subKey s p x)).st = .assign ∧
      (linkOf t (subKey s p x)).ident = (linkOf s (subKey s p x)).ident ∧ (linkOf t (subKey s p x)).train = 3 :: assignMsg s (subKey s p x) ∧
      t = { s with strands := t.strands, links := t.links } ∧ ∀ i < 8, tget 0 (linkOf t (subKey s p x)).credHeld i = (cs.getD i 0).toNat) := by
  have hk := keeps_ts2Heard cs d (subKey s p x) s
  cases hsw : (linkOf s (subKey s p x)).partnerSwitch with
  | true =>
    refine ⟨_, exec_ts2_switch hp hc cs d hb hsw, fun _ => ⟨?_, ?_, (hk.trans (keeps_assigning ..)).eq⟩, nofun, nofun⟩
    · rw [linkOf_assigning]
    · rw [linkOf_assigning]
  | false =>
    cases hid : tableId s (subKey s p x) with
    | none =>
      refine ⟨_, exec_ts2_unknown hp hc cs d hb hsw hid, nofun, fun _ _ => ?_, nofun⟩
      have hl := linkOf_ts2Heard cs d (subKey s p x) s
      exact refuseLink_refused 5 (early_of_config (by rw [hl]; exact hc)) rfl rfl (by rw [hl]; rfl)
    | some id =>
      have hk' : Keeps true 0x30000 s (firstTry (subKey s p x) (ts2Heard cs d (subKey s p x) s)) := modLink_keeps _ _ hk rfl
      refine ⟨_, exec_ts2_endpoint hp hc cs d hb hsw hid, nofun, nofun, fun _ _ _ => ⟨?_, ?_, ?_, (hk'.trans (keeps_assigning ..)).eq, fun i hi => ?_⟩⟩
      · rw [linkOf_assigning]
      · rw [linkOf_assigning, linkOf_firstTry, linkOf_ts2Heard]
      · rw [linkOf_assigning]
      · rw [linkOf_assigning, linkOf_firstTry, linkOf_ts2Heard]
        exact (tget_foldl_tset 0 _ _ _ i).trans (if_pos (List.mem_range.2 hi))

end

theorem linkOf_raiseVec (v : Nat) (s : State) (j : Nat) : linkOf (raiseVec v s) j = linkOf s j := by
  obtain ⟨pba, out, h, -⟩ := raiseVec_eq v s
  rw [h]
  rfl

/-- A vector raised after a change of strands and links. -/
theorem raiseVec_frame (v : Nat) {u : State} (hk : Keeps true 0x30000 s u) :
    raiseVec v u = { s with strands := (raiseVec v u).strands, links := (raiseVec v u).links, cmd := { s.cmd with pba := (raiseVec v u).cmd.pba }, out := (raiseVec v u).out } ∧
    (s.cmd.bme = false → (raiseVec v u).out = s.out) ∧ ∀ j, linkOf (raiseVec v u) j = linkOf u j := by
  have hu : u = { s with strands := u.strands, links := u.links } := hk.eq
  obtain ⟨pba, out, h, ho⟩ := raiseVec_eq v u
  refine ⟨?_, ?_, linkOf_raiseVec v u⟩
  all_goals
    rw [h]
    generalize u.strands = a, u.links = b at hu
    subst hu
  · rfl
  · exact ho

section
variable (hp : portOn s p = true) (hr : (linkOf s (subKey s p x)).st = .register) (hw : (linkOf s (subKey s p x)).regPending = true)
include hp hr hw

/-- The answer accepted makes a waiting sub-link ACTIVE. -/
theorem registrationAnswer_accepted : ∃ t, exec (.registrationAnswer p x .accepted) s = .next t ∧
    t = { s with strands := t.strands, links := t.links, cmd := { s.cmd with pba := t.cmd.pba }, out := t.out } ∧ (s.cmd.bme = false → t.out = s.out) ∧
    linkOf t (subKey s p x) = { linkOf s (subKey s p x) with st := .active, regPending := false, train := [6, 8], liveSince := some s.clock, joined := false, emptyAt := s.clock } ∧
    (∀ j, j ≠ subKey s p x → linkOf t j = linkOf s j) := by
  have hk : Keeps true 0x30000 s (linkTo (subKey s p x) .active (modLink (subKey s p x) (nowActive s.clock) s)) :=
    linkTo_keeps _ _ (modLink_keeps _ _ (.refl _ _ s) rfl) rfl
  have hat := ((OnlyAt.refl (subKey s p x) s).modLink (nowActive s.clock)).trans (onlyAt_linkTo (subKey s p x) .active _)
  obtain ⟨hf, ho, hl⟩ := raiseVec_frame 47 hk
  refine ⟨_, exec_registrationAnswer_accepted hp hr hw, hf, ho, ?_, fun j hj => (hl j).trans (hat.link j hj)⟩
  rw [hl, linkOf_linkTo, linkOf_modLink_same]
  rfl

/-- A duplicate holds it in quarantine, REFUSE 4 in its slots. -/
theorem registrationAnswer_duplicate (c : Coord) (pp ps : Nat) : ∃ t, exec (.registrationAnswer p x (.duplicate c pp ps)) s = .next t ∧
    (linkOf t (subKey s p x)).st = .quarantine ∧ (linkOf t (subKey s p x)).quar = true ∧ (linkOf t (subKey s p x)).regPending = false ∧
    (linkOf t (subKey s p x)).train = [7, 4] := by
  refine ⟨_, exec_registrationAnswer_duplicate hp hr hw c pp ps, ?_⟩
  rw [linkOf_raiseVec, linkOf_linkTo, linkOf_modLink_same]
  exact ⟨rfl, rfl, rfl, rfl⟩

/-- FULL takes it DOWN, and the partner is told. -/
theorem registrationAnswer_full : ∃ t, exec (.registrationAnswer p x .full) s = .next t ∧ RefusedAt s (subKey s p x) 7 .refused t := by
  have hk := keeps_noteDuplicate (subKey s p x) .full s
  have hl : linkOf (noteDuplicate (subKey s p x) .full s) (subKey s p x) = linkOf s (subKey s p x) := linkOf_congr (hk.only.links (by decide)) _
  exact ⟨_, exec_registrationAnswer_full hp hr hw,
    refuseLink_refused 7 (early_of_register (by rw [hl]; exact hr)) (hk.only.ports (by decide)) (hk.only.strands (by decide)) (by rw [hl])⟩

/-- A worker without an answer asks again. -/
theorem registrationResend_worker (hm : s.gctl.role ≠ .manager) : ∃ t, exec (.registrationResend p x) s = .next t ∧
    t = { s with clock := max s.clock ((linkOf s (subKey s p x)).regAt + 100000), out := .register (regReqOf s (subKey s p x)) :: s.out, links := t.links } ∧
    linkOf t (subKey s p x) = { linkOf s (subKey s p x) with regAt := t.clock } ∧ (∀ j, j ≠ subKey s p x → linkOf t j = linkOf s j) := by
  have hex := exec_registrationResend hp hr hw
  rw [registerLink_worker (s := clockTo _ s) hm] at hex
  have hl := linkOf_awaitAnswer (subKey s p x) (clockTo ((linkOf s (subKey s p x)).regAt + 100000) s)
  have hq : regReqOf (awaitAnswer (subKey s p x) (clockTo ((linkOf s (subKey s p x)).regAt + 100000) s)) (subKey s p x) = regReqOf s (subKey s p x) := by
    unfold regReqOf
    rw [hl]
    rfl
  rw [hq] at hex
  refine ⟨_, hex, rfl, ?_, fun j hj => (linkOf_emit _).trans ((linkOf_modLink_other _ hj).trans rfl)⟩
  rw [linkOf_emit, hl, ← hw]
  rfl

end

end

/-! ## The statement -/

section
variable {s : State}

/-- The clauses of the manager's registry. -/
theorem registry_manager (ha : alive s = true) (hm : s.gctl.role = .manager) (r : RegReq) :
    (r.isSwitch = false → regOf s r.id.toNat = none → (regRecs s).length < 524288 →
      exec (.registrationRequest [r] []) s = .next (emit (.regAnswer r .accepted) (enterReg r.id.toNat (some (endRec r)) s))) ∧
    (∀ h : RegRec, r.isSwitch = false → regOf s r.id.toNat = some h → h.coord ≠ r.coord → ∃ t, exec (.registrationRequest [r] []) s = .next t ∧
      .regAnswer r (.duplicate h.coord h.port h.strand) ∈ t.out ∧ t.mgr = s.mgr) ∧
    (∀ h : RegRec, regOf s r.id.toNat = some h →
      (h = endRec r → s.mgr.groups = [] → ∃ t, exec (.withdrawal [r]) s = .next t ∧ t = { s with mgr := t.mgr } ∧
        (∀ i, regOf t i = if i = r.id.toNat then none else regOf s i) ∧
        (∀ q : RegReq, q.isSwitch = false → q.id = r.id → (regRecs s).length < 524288 → ∃ t, exec (.registrationRequest [q] [r]) s = .next t ∧
          .regAnswer q .accepted ∈ t.out ∧ regOf t q.id.toNat = some (endRec q))) ∧
      (h.coord ≠ r.coord → exec (.withdrawal [r]) s = .next s)) := by
  refine ⟨fun hr hn hroom => ?_, fun h hr hh hne => ?_, fun h hh => ⟨fun hrec hg => ?_, fun hne => ?_⟩⟩
  · rw [← answerReg_accepted hr hn hroom]
    exact exec_registrationRequest_manager ha hm [r] []
  · refine ⟨_, exec_registrationRequest_manager ha hm [r] [], ?_, mgr_answerReg_duplicate hr hh hne⟩
    change _ ∈ (answerReg r s).out
    rw [answerReg_duplicate hr hh hne]
    exact List.mem_cons_self
  · have hw : serveWithdraw r s = enterReg r.id.toNat none s := serveWithdraw_holder (by rw [hh, hrec]) hg
    refine ⟨_, (exec_withdrawal_manager ha hm r).trans (congrArg Host.Outcome.next hw), rfl, fun i => regOf_enterReg .., fun q hq hid hroom => ?_⟩
    have hn : regOf (serveWithdraw r s) q.id.toNat = none := by
      rw [hw, regOf_enterReg, hid]
      exact if_pos rfl
    have hacc := answerReg_accepted hq hn (by rw [hw]; exact Nat.lt_of_le_of_lt (room_enterReg_none _) hroom)
    refine ⟨answerReg q (serveWithdraw r s), exec_registrationRequest_manager ha hm [q] [r], ?_, ?_⟩
    · rw [hacc]
      exact List.mem_cons_self
    · rw [hacc]
      exact (regOf_enterReg ..).trans (if_pos rfl)
  · exact (exec_withdrawal_manager ha hm r).trans (congrArg Host.Outcome.next (serveWithdraw_other hh hne))

end

/-- Settles O44: the messages of assignment, the answers to a registration, and the manager's registry. -/
theorem assignmentAndRegistration : Obligations.AssignmentAndRegistration := by
  intro p x s k l told
  refine ⟨fun hp => ⟨fun cs d v hc => ?ts2, fun ha hsw hm e => ⟨fun he => ?right, fun he ht => exec_assignAck_again hp ha hsw he ht, fun he ht => ?wrong⟩,
      fun ha hsw hm c pp ps f => ?coord, fun b ht hb => exec_ready hp ht hb, fun b h => exec_refuse_ignored h,
      fun b hd hk hq => ⟨_, exec_refuse hp hd hk hq, linkOf_sublinkDown _ _ _⟩⟩,
    fun hp => ⟨fun h a => exec_registrationAnswer_unawaited h a, fun hr hw => ⟨registrationAnswer_accepted hp hr hw, fun c pp ps => registrationAnswer_duplicate hp hr hw c pp ps,
      ?full, registrationResend_worker hp hr hw⟩⟩,
    fun qs ws hm => ⟨exec_registrationRequest_worker hm qs ws, exec_withdrawal_worker hm ws⟩,
    fun r ha hm => ?registry⟩
  case ts2 =>
    have hl := early_of_config hc
    by_cases hv : v = 1
    · subst hv
      by_cases hb : (linkOf s (subKey s p x)).partnerBreakout = some ((portOf s p).breakout.setWidth 8)
      · obtain ⟨t, ht, hswitch, hunknown, hendpoint⟩ := ts2_agreed hp hc cs d hb
        refine ⟨t, ht, fun h => absurd rfl h, fun _ h => absurd hb h, fun _ _ => ⟨hswitch, fun hsw hid => ?_, hendpoint⟩⟩
        obtain ⟨hst, hr, htold⟩ := hunknown hsw hid
        exact ⟨hst, hr, htold⟩
      · obtain ⟨hst, hr, htold⟩ := refuseLink_here (s := s) 1 hl
        exact ⟨_, exec_ts2_breakout hp hc cs d hb, fun h => absurd rfl h, fun _ _ => ⟨hst, hr, htold⟩, fun _ h => absurd h hb⟩
    · obtain ⟨hst, hr, htold⟩ := refuseLink_here (s := s) 2 hl
      exact ⟨_, exec_ts2_version hp hc cs d hv, fun _ => ⟨hst, hr, htold⟩, fun h => absurd h hv, fun h => absurd h hv⟩
  case right =>
    have hfr := assigned_frame (k := k) (s := modLink k (fun l => { l with ident := (tableId s k).getD 0, peerSwitch := false }) s) hm
    obtain ⟨-, hlk, hother⟩ := assigned_worker (k := k) (s := modLink k (fun l => { l with ident := (tableId s k).getD 0, peerSwitch := false }) s) hm
    rw [linkOf_modLink_same] at hlk
    refine ⟨_, exec_assignAck_right hp ha hsw he, ?_, ?_, ?_, ?_, ?_, hfr, fun j hj => (hother j hj).trans (linkOf_modLink_other _ hj)⟩
    all_goals rw [hlk]
  case wrong =>
    obtain ⟨hst, hr, htold⟩ := refuseLink_here (s := s) 6 (early_of_assign ha)
    exact ⟨_, exec_assignAck_refused hp ha hsw he ht, hst, hr, htold⟩
  case coord =>
    by_cases hf : f = s.gctl.fabricId
    · have hfr := assigned_frame (k := k) (s := modLink k (fun l => { l with peerSwitch := true, peer := c, peerPos := 4 * pp.toNat + ps.toNat, ident := 0 }) s) hm
      obtain ⟨-, hlk, -⟩ := assigned_worker (k := k) (s := modLink k (fun l => { l with peerSwitch := true, peer := c, peerPos := 4 * pp.toNat + ps.toNat, ident := 0 }) s) hm
      rw [linkOf_modLink_same] at hlk
      refine ⟨_, exec_coord_same hp c pp ps f ha hsw hf, fun h => absurd hf h, fun _ => ⟨?_, ?_, ?_, ?_⟩⟩
      · rw [hlk]
      · rw [hlk]
      · rw [hlk]
      · rw [regReqOf_switch (congrArg State.gctl hfr) (by rw [hlk])] at hfr
        exact hfr
    · obtain ⟨hst, hr, htold⟩ := refuseLink_here (s := s) 3 (early_of_assign ha)
      exact ⟨_, exec_coord_foreign hp c pp ps f ha hsw hf, fun _ => ⟨hst, hr, htold⟩, fun h => absurd h hf⟩
  case full =>
    obtain ⟨t, ht, hst, hr, htold⟩ := registrationAnswer_full hp hr hw
    exact ⟨t, ht, hst, hr, htold⟩
  case registry =>
    obtain ⟨hfirst, hsecond, hthird⟩ := registry_manager ha hm r
    exact ⟨hfirst, hsecond, hthird, fun q hr hq hid hn hroom hlt hpr _ hxr _ l hl => registrationRequest_pair ha hm hr hq hid hn hroom hlt hpr hxr hl⟩

end Sys2Proof.Machine
end

section
/-! SUPPORT. Control slots and flits sent while no injection is armed (R39, R40, R46, R50). -/

namespace Sys2Proof.Machine

section
variable {s t : State} {k : Nat}

/-! ## No injection -/

theorem injectCrc_idle (h : s.flt.injActive = false) (p chk : Nat) : injectCrc p chk s = (0, s) := by
  have hf : injFire 0 p chk s = (none, s) := if_neg (by simp [h])
  unfold injectCrc
  rw [hf]

theorem sendFlit_idle (h : s.flt.injActive = false) (k : Nat) (f : Flit) : sendFlit k f s = emit (.flit k f 0) s := by
  unfold sendFlit
  rw [injectCrc_idle h]

theorem sendSlot_idle (h : s.flt.injActive = false) (k q lane : Nat) :
    sendSlot k q lane s = countBytes (1024 + 2 * q) (2048 * 12) (emit (.slot q lane (slotBytes s k q lane)) s) := by
  unfold sendSlot
  rw [injectCrc_idle h]
  rfl

/-! ## The slots of a sub-link -/

/-- Of the state, a slot shows ports, strands, links and the pool's waiters. -/
theorem slotBytes_parts (s : State) (k q lane : Nat) :
    slotBytes s k q lane = slotBytes { State.reset with ports := s.ports, strands := s.strands, links := s.links, bpm := s.bpm } k q lane := rfl

theorem slotBytes_congr (hp : t.ports = s.ports) (hs : t.strands = s.strands) (hl : t.links = s.links) (hb : t.bpm = s.bpm) (k q lane : Nat) :
    slotBytes t k q lane = slotBytes s k q lane := by
  rw [slotBytes_parts t, hp, hs, hl, hb]
  rfl

theorem keeps_sendSlot_idle {L : Nat} (h : Keeps true L s t) (m : May 0x2001 L) (hi : t.flt.injActive = false) (k q lane : Nat) : Keeps true L s (sendSlot k q lane t) := by
  rw [sendSlot_idle hi]
  exact countBytes_keeps _ _ (emit_keeps _ h (m.sub rfl)) (m.sub rfl)

theorem flt_sendSlot_idle (hi : s.flt.injActive = false) (k q lane : Nat) : (sendSlot k q lane s).flt = s.flt := by
  rw [sendSlot_idle hi]
  rfl

theorem keeps_sendLanes_idle {L : Nat} (h : Keeps true L s t) (m : May 0x2001 L) (hi : t.flt.injActive = false) (k : Nat) : Keeps true L s (sendLanes k t) := by
  have hstep (q l : Nat) (a : State) (ha : Keeps true L s a ∧ a.flt = t.flt) : Keeps true L s (sendSlot k q l a) ∧ (sendSlot k q l a).flt = t.flt := by
    obtain ⟨hk, hf⟩ := ha
    have hia : a.flt.injActive = false := by rwa [hf]
    exact ⟨keeps_sendSlot_idle hk m hia k q l, (flt_sendSlot_idle hia k q l).trans hf⟩
  exact (each_induct (P := fun a => Keeps true L s a ∧ a.flt = t.flt) (fun q _ _ h => each_induct (fun l _ a => hstep q l a) h) ⟨h, rfl⟩).1

theorem slot_sendLanes {r lane : Nat} (hi : s.flt.injActive = false) (hr : r ∈ slotStrands s k) (hlane : lane ∈ lanesOf s r) :
    .slot r lane (slotBytes s k r lane) ∈ (sendLanes k s).out := by
  refine sendLanes_reaches (P := Keeps true 0x2001 s) (Q := fun a => Out.slot r lane (slotBytes s k r lane) ∈ a.out) hr hlane
    (fun q l _ h => keeps_sendSlot_idle h rfl (by rwa [h.only.flt (by decide)]) k q l) (fun _ h => lanesOf_congr (h.only.strands (by decide)) r)
    (fun _ _ _ h => (keeps_sendSlot ..).sent.subset h) (fun a h => ?_) (.refl _ _ s)
  rw [sendSlot_idle (by rwa [h.only.flt (by decide)]), ← slotBytes_congr (h.only.ports (by decide)) (h.only.strands (by decide)) (h.only.links (by decide)) (h.only.bpm (by decide))]
  exact List.mem_cons_self

theorem strandOf_rotsSent {l : List Nat} (hl : l.Nodup) (s : State) (r : Nat) : strandOf (rotsSent l s) r = if r ∈ l then rotSent (strandOf s r) else strandOf s r :=
  strandOf_each (P := fun _ => True) (u := fun _ => rotSent) hl (fun _ _ _ => trivial) (fun _ _ _ => rfl) trivial r

theorem keeps_rotsSent (l : List Nat) (s : State) : Keeps true 0x10000 s (rotsSent l s) := each_keeps (fun _ _ h => modStrand_keeps _ _ h rfl) (.refl _ _ s)

theorem slotStrands_nodup (s : State) (k : Nat) : (slotStrands s k).Nodup := (strandPos_nodup s k).filter _

theorem credShown_nextCsc (s : State) (k : Nat) : credShown (nextCsc k s) k = credShown s k := by
  have hn : tget {} (nextCsc k s).links k = { tget {} s.links k with csc := (tget {} s.links k).csc + 1 } := linkOf_modLink_same _
  unfold credShown
  rw [hn]
  rfl

/-- The state that slots on every lane leave, before the sub-link's book is brought up to date. -/
def slotsSent (k : Nat) (s : State) : State := rotsSent (slotStrands (sendLanes k (nextCsc k s)) k) (sendLanes k (nextCsc k s))

theorem creditPending_nextCsc (s : State) (k : Nat) : creditPending (nextCsc k s) k = creditPending s k := by
  have hn : linkOf (nextCsc k s) k = { linkOf s k with csc := (linkOf s k).csc + 1 } := linkOf_modLink_same _
  rw [creditPending, credShown_nextCsc, hn]
  rfl

/-- The book of a sub-link whose slots have gone. -/
def slotsBooked (shown : Tbl (BitVec 16)) (pending : Bool) (clock : Nat) (l : SubLink) : SubLink :=
  { l with nakPend := false, credSent := shown, train := if l.st = .active then [] else l.train, emptyAt := if pending && l.replay.isEmpty then clock else l.emptyAt }

theorem sendSlots_book (k : Nat) (s : State) : sendSlots k s =
    modLink k (slotsBooked (credShown s k) (creditPending s k) (slotsSent k s).clock) (slotsSent k s) := by
  rw [sendSlots_eq, creditPending_nextCsc, credShown_nextCsc]
  rfl

section
variable (hi : s.flt.injActive = false) (k : Nat)
include hi

theorem keeps_slotsSent : Keeps true 0x32001 s (slotsSent k s) :=
  each_keeps (fun _ _ h => modStrand_keeps _ _ h rfl) (keeps_sendLanes_idle (L := 0x32001) (modLink_keeps _ _ (.refl _ _ s) rfl) rfl hi k)

end

theorem out_modLink (k : Nat) (f : SubLink → SubLink) (s : State) : (modLink k f s).out = s.out := rfl

/-- What sending slots changes. -/
theorem sendSlots_idle (hi : s.flt.injActive = false) (k : Nat) : sendSlots k s = { s with
      out := (sendSlots k s).out, dbg := (sendSlots k s).dbg, links := (sendSlots k s).links, strands := (sendSlots k s).strands } ∧
    linkOf (sendSlots k s) k = { linkOf s k with csc := (linkOf s k).csc + 1, nakPend := false, credSent := credShown s k
                                                 train := if (linkOf s k).st = .active then [] else (linkOf s k).train
                                                 emptyAt := if creditPending s k && (linkOf s k).replay.isEmpty then s.clock else (linkOf s k).emptyAt } ∧
    (∀ j, j ≠ k → linkOf (sendSlots k s) j = linkOf s j) ∧
    (∀ r, strandOf (sendSlots k s) r = if r ∈ slotStrands s k then rotSent (strandOf s r) else strandOf s r) ∧
    ∀ r ∈ slotStrands s k, ∀ lane ∈ lanesOf s r, .slot r lane (slotBytes (nextCsc k s) k r lane) ∈ (sendSlots k s).out := by
  have hn : linkOf (nextCsc k s) k = { linkOf s k with csc := (linkOf s k).csc + 1 } := linkOf_modLink_same _
  have hss : slotStrands (nextCsc k s) k = slotStrands s k := slotStrands_congr rfl rfl (by rw [hn]; rfl)
  have hk : Keeps true 0x2001 (nextCsc k s) (sendLanes k (nextCsc k s)) := keeps_sendLanes_idle (.refl _ 0x2001 (nextCsc k s)) rfl hi k
  have hl (j : Nat) : linkOf (slotsSent k s) j = linkOf (nextCsc k s) j :=
    (linkOf_each_modStrand _ (fun _ _ => rotSent) _ j).trans (linkOf_congr (hk.only.links (by decide)) j)
  have hst : slotStrands (sendLanes k (nextCsc k s)) k = slotStrands s k := by
    rw [slotStrands_congr (hk.only.ports (by decide)) (hk.only.strands (by decide)) (by rw [linkOf_congr (hk.only.links (by decide))]), hss]
  have hkeeps : Keeps true 0x32001 s (sendSlots k s) := by
    rw [sendSlots_book]
    exact modLink_keeps _ _ (keeps_slotsSent hi k) rfl
  refine ⟨hkeeps.eq, ?_, fun j hj => ?_, fun r => ?_, fun r hr lane hlane => ?_⟩
  · rw [sendSlots_book, linkOf_modLink_same, hl, hn, (keeps_slotsSent hi k).only.clock (by decide)]
    generalize linkOf s k = l
    rfl
  · rw [sendSlots_book, linkOf_modLink_other _ hj, hl]
    exact linkOf_modLink_other _ hj
  · rw [sendSlots_book, strandOf_modLink, slotsSent, hst, strandOf_rotsSent (slotStrands_nodup s k), strandOf_congr (hk.only.strands (by decide))]
    rfl
  · have hsent : Out.slot r lane (slotBytes (nextCsc k s) k r lane) ∈ (sendLanes k (nextCsc k s)).out := slot_sendLanes hi (by rwa [hss]) hlane
    rw [sendSlots_book, out_modLink]
    exact (keeps_rotsSent _ (sendLanes k (nextCsc k s))).sent.subset hsent

end

end Sys2Proof.Machine
end

section
/-! SUPPORT. FLIT_TRANSMIT: what a flit sent again, a flit sent for the first time and a NULL flit change (R42, R46, R50, R52, R63). -/

namespace Sys2Proof.Machine

section
variable {s t : State} {k j : Nat}

/-! ## Counting -/

/-- Counting bytes changes the counters of R457 alone. -/
theorem countSlot_eq (k dir : Nat) (s : State) : countSlot k dir s = { s with dbg := (countSlot k dir s).dbg } :=
  (countSlot_keeps (d := true) (L := 0x2000) k dir (.refl _ _ s) rfl).eq

theorem countFlit_eq (k v dir : Nat) (s : State) : countFlit k v dir s = { s with dbg := (countFlit k v dir s).dbg } := rfl

/-! ## A flit leaves (R52) -/

/-- A flit is on its way: it is sent, and every live strand has a deadline for it. -/
def dispatch (k : Nat) (f : Flit) (s : State) : State := setDue k f.seq (sendFlit k f s)

/-- A strand with a deadline more. -/
def withDue (seq : BitVec 24) (clock : Nat) (x : StrandSt) : StrandSt := { x with due := x.due.filter (fun d => d.1 ≠ seq) ++ [(seq, clock)] }

theorem strandOf_setDue (k : Nat) (seq : BitVec 24) (s : State) (r : Nat) :
    strandOf (setDue k seq s) r = if r ∈ liveStrands s k then withDue seq s.clock (strandOf s r) else strandOf s r := by
  refine strandOf_each (P := fun a => a.clock = s.clock) (u := fun _ => withDue seq s.clock) (liveStrands_nodup s k) (fun q a h => ?_) (fun q a h => ?_) rfl r
  · exact h
  · rw [← h]
    rfl

theorem keeps_setDue (k : Nat) (seq : BitVec 24) (s : State) : Keeps true 0x10000 s (setDue k seq s) := setDue_keeps _ _ (.refl _ _ s) rfl

section
variable (hi : s.flt.injActive = false) (k : Nat) (f : Flit)
include hi

theorem dispatch_eq : dispatch k f s = { s with out := .flit k f 0 :: s.out, strands := (dispatch k f s).strands } := by
  have h := (keeps_setDue k f.seq (sendFlit k f s)).eq
  rw [sendFlit_idle hi] at h
  unfold dispatch
  rw [sendFlit_idle hi]
  exact h

theorem keeps_dispatch {L : Nat} (h : Keeps true L t s) (m : May 0x10001 L) : Keeps true L t (dispatch k f s) := by
  unfold dispatch
  rw [sendFlit_idle hi]
  exact setDue_keeps _ _ (emit_keeps _ h (m.sub rfl)) (m.sub rfl)

theorem out_dispatch : (dispatch k f s).out = .flit k f 0 :: s.out := by rw [dispatch_eq hi]

theorem ports_dispatch : (dispatch k f s).ports = s.ports := by rw [dispatch_eq hi]

theorem pkts_dispatch : (dispatch k f s).pkts = s.pkts := by rw [dispatch_eq hi]

theorem strandOf_dispatch {r : Nat} (hr : r ∈ liveStrands s k) : strandOf (dispatch k f s) r = withDue f.seq s.clock (strandOf s r) := by
  unfold dispatch
  rw [sendFlit_idle hi, strandOf_setDue]
  exact if_pos hr

theorem linkOf_dispatch (j : Nat) : linkOf (dispatch k f s) j = linkOf s j := by
  rw [dispatch_eq hi]
  rfl

end

/-! ## Packets of which a flit leaves (R90, R142) -/

theorem unlink_links (g pid : Nat) (s : State) : (unlink g pid s).links = s.links ∨ (unlink g pid s).links = (pullFlits g pid s).links := by
  unfold unlink
  split
  · next e p _ _ =>
    dsimp only
    split
    · right
      cases p.pos with
      | none => rfl
      | some k => cases p.tailIn <;> rfl
    · exact .inr rfl
  · exact .inl rfl

/-- A sub-link's book without the waiting flits of one copy of a packet. -/
def withoutCopy (g pid : Nat) (l : SubLink) : SubLink := { l with txq := l.txq.filter fun f => f.src != some (g, pid) }

/-- What leaves a queue changes of a sub-link's book no more than the flits that wait. -/
theorem linkOf_unlink (g pid : Nat) (s : State) (j : Nat) : ∃ q, linkOf (unlink g pid s) j = { linkOf s j with txq := q } := by
  rcases unlink_links g pid s with h | h
  · exact ⟨(linkOf s j).txq, linkOf_congr h j⟩
  · have hp : linkOf (pullFlits g pid s) j = if j = g / 8 then withoutCopy g pid (linkOf s j) else linkOf s j :=
      (linkOf_congr (s := modLink (g / 8) (withoutCopy g pid) s) rfl j).trans (linkOf_modLink _)
    rw [linkOf_congr h, hp]
    split
    · exact ⟨_, rfl⟩
    · exact ⟨(linkOf s j).txq, rfl⟩

theorem pktOf_modPkt_same (pid : Nat) (f : Pkt → Pkt) (s : State) : pktOf (modPkt pid f s) pid = (pktOf s pid).map f := tget_tmod_eq _ _ _ _

theorem pktOf_setPkt_none (pid : Nat) (s : State) : pktOf (setPkt pid none s) pid = none := tget_tset_eq none s.pkts pid none

/-- A packet that is there no more, or has begun. -/
def Begun (pid : Nat) (s : State) : Prop := ∀ p, pktOf s pid = some p → p.begun = true

theorem Begun.all {pid : Nat} (h : Begun pid s) : (pktOf s pid).all (fun p => p.begun) = true := by
  cases hp : pktOf s pid with
  | none => rfl
  | some p => exact h p hp

theorem Begun.congr {pid : Nat} (h : Begun pid s) (e : t.pkts = s.pkts) : Begun pid t := by
  unfold Begun pktOf
  rw [e]
  exact h

theorem begun_modPkt (pid : Nat) (s : State) : Begun pid (modPkt pid (fun p => { p with begun := true }) s) := by
  intro p hp
  rw [pktOf_modPkt_same] at hp
  obtain ⟨x, -, rfl⟩ := Option.map_eq_some_iff.1 hp
  rfl

theorem begun_unlink {pid : Nat} (g : Nat) (h : Begun pid s) : Begun pid (unlink g pid s) := by
  unfold unlink
  split
  · next e p _ hp =>
    have hb : p.begun = true := h p hp
    dsimp only
    split
    · intro y hy
      rw [pktOf_setPkt_none] at hy
      cases hy
    · intro y hy
      rw [pktOf_modPkt_same] at hy
      obtain ⟨x, hx, rfl⟩ := Option.map_eq_some_iff.1 hy
      exact h x hx
  · exact h

theorem flitLeft_none {f : Flit} (h : f.src = none) : flitLeft f s = s := by
  unfold flitLeft
  rw [h]

theorem keeps_flitLeft (f : Flit) (s : State) : Keeps true 0x17a0000 s (flitLeft f s) := flitLeft_keeps f (.refl _ _ s) rfl

/-- The flit of a queued packet leaves. -/
def marked (g pid : Nat) (s : State) : State :=
  modQueue g (fun q => { q with ents := q.ents.map fun e => if e.pid = pid then { e with left := true } else e }) (modPkt pid (fun p => { p with begun := true }) s)

theorem flitLeft_some {f : Flit} {g pid : Nat} (h : f.src = some (g, pid)) :
    flitLeft f s = if f.typ = 2 ∨ f.typ = 3 then refresh (g / 8) (unlink g pid (marked g pid s)) else marked g pid s := by
  unfold flitLeft
  rw [h]
  rfl

theorem keeps_refresh (k : Nat) (s : State) : Keeps true 0x200000 s (refresh k s) := refresh_keeps k (.refl _ _ s) rfl

theorem linkOf_flitLeft (f : Flit) (s : State) (j : Nat) : ∃ q, linkOf (flitLeft f s) j = { linkOf s j with txq := q } := by
  cases h : f.src with
  | none => exact ⟨(linkOf s j).txq, by rw [flitLeft_none h]⟩
  | some e =>
    obtain ⟨g, pid⟩ := e
    rw [flitLeft_some h]
    split
    · rw [linkOf_congr ((keeps_refresh _ _).only.links (by decide))]
      exact linkOf_unlink g pid (marked g pid s) j
    · exact ⟨(linkOf s j).txq, rfl⟩

theorem begun_flitLeft {f : Flit} {g pid : Nat} (h : f.src = some (g, pid)) : Begun pid (flitLeft f s) := by
  have hm : Begun pid (marked g pid s) := begun_modPkt pid s
  rw [flitLeft_some h]
  split
  · exact (begun_unlink g hm).congr ((keeps_refresh _ _).only.pkts (by decide))
  · exact hm

/-! ## The flit that may go first -/

theorem dropKeyless_noop (h : ∀ f, nextFlit (linkOf s k) = some f → keyGone s k f = false) (n : Nat) : dropKeyless k n s = s := by
  cases n with
  | zero => rfl
  | succ n =>
    unfold dropKeyless
    split
    · next f hf => rw [if_neg (by simp [h f hf])]
    · rfl

theorem stampTime_congr (ht : t.tim = s.tim) (hc : t.clock = s.clock) (f : Flit) : stampTime t f = stampTime s f := by
  unfold stampTime
  rw [fabT_congr ht hc]

theorem seq_stampTime (s : State) (f : Flit) : (stampTime s f).seq = f.seq := by
  unfold stampTime
  split <;> rfl

theorem stampTime_of_typ {f : Flit} (h : f.typ ≠ 5) : stampTime s f = f := if_neg fun hp => h hp.1

theorem t3Of_of_typ {f : Flit} (l : SubLink) (h : f.typ ≠ 5) : t3Of s f l = l.reqT3 := if_neg fun hp => h hp.1

end

end Sys2Proof.Machine
end

section
/-! FLIT_TRANSMIT: a replay first, then a new flit, else a NULL flit (R42, R46, R50, R52, R63). -/

namespace Sys2Proof.Machine

/-! ## What is sent -/

/-- A flit as it is sent again, and as it is sent for the first time. -/
def resent (s : State) (f : Flit) : Flit := { stampTime s f with replay := true, sentAt := s.clock }

def sentFirst (s : State) (seq : BitVec 24) (f : Flit) : Flit := { stampTime s f with seq := seq, sentAt := s.clock }

/-- The NULL flit. -/
def nullFlit (clock : Nat) : Flit := { seq := 0, vc := 0, typ := 4, len := 0, poison := false, replay := false, data := [], sentAt := clock }

/-- The book of a sub-link that has sent the flit g again, r still to follow. -/
def resentBook (s : State) (g : Flit) (r : List Flit) (l : SubLink) : SubLink :=
  { l with resend := r, reqT3 := t3Of s g l, replay := l.replay.map fun h => if h.seq = g.seq then g else h }

/-- The book of a sub-link that has sent the waiting flit f as g. -/
def sentBook (s : State) (f g : Flit) (l : SubLink) : SubLink :=
  { l with txSeq := l.txSeq + 1, txq := dropFirst f l.txq, credHeld := tset 0 l.credHeld g.vc (tget 0 l.credHeld g.vc - 1), replay := l.replay ++ [g]
           reqT3 := t3Of s g l }

/-- The flit g is about to go again: counted and booked. -/
def againBooked (p k : Nat) (g : Flit) (r : List Flit) (s : State) : State := portCnt p 0x110 1 (countFlit k g.vc 0 (modLink k (resentBook s g r) s))

/-- The flit g goes again. -/
def sendAgain (p k : Nat) (g : Flit) (r : List Flit) (s : State) : State := dispatch k g (againBooked p k g r s)

/-- The waiting flit f is about to go as g: booked, its packet marked. -/
def newBooked (k : Nat) (f g : Flit) (s : State) : State := countFlit k g.vc 0 (flitLeft g (modLink k (sentBook s f g) s))

/-- The waiting flit f goes as g. -/
def sendNew (k : Nat) (f g : Flit) (s : State) : State := dispatch k g (newBooked k f g s)

/-- What goes on sub-link k, whose book was l. -/
def transmit (p k : Nat) (l : SubLink) (s : State) : State :=
  match l.resend with
  | f :: r => sendAgain p k (resent s f) r s
  | [] =>
    let s := dropKeyless k l.txq.length s
    match nextFlit (linkOf s k), decide (l.replay.length < 4096) with
    | some f, true => sendNew k f (sentFirst s l.txSeq f) s
    | _, _ => sendFlit k (nullFlit s.clock) s

section
variable {p : Port} {x : Strand} {s : State}

section
variable (hp : portOn s p = true) (hr : linkRuns (linkOf s (subKey s p x)) = true) (hx : (linkOf s (subKey s p x)).idleTx = false)
include hp hr hx

theorem exec_flitTransmit : exec (.flitTransmit p x) s = .next (transmit p (subKey s p x) (linkOf s (subKey s p x)) (countSlot (subKey s p x) 0 s)) :=
  congrArg Host.Outcome.next (if_neg (by simp [hp, hr, hx]))

end

end

/-! ## The three cases -/

section
variable {p k : Nat} {l : SubLink} {s : State}

theorem transmit_resend {f : Flit} {r : List Flit} (h : l.resend = f :: r) : transmit p k l s = sendAgain p k (resent s f) r s := by
  unfold transmit
  rw [h]

theorem transmit_new {f : Flit} (h : l.resend = []) (hf : nextFlit (linkOf s k) = some f) (hk : keyGone s k f = false) (hl : l.replay.length < 4096) :
    transmit p k l s = sendNew k f (sentFirst s l.txSeq f) s := by
  have hd : dropKeyless k l.txq.length s = s := dropKeyless_noop (fun g hg => by rw [hf] at hg; cases hg; exact hk) _
  unfold transmit
  rw [h]
  dsimp only
  rw [hd, hf, decide_eq_true hl]

theorem transmit_null (h : l.resend = []) (hn : nextFlit (linkOf s k) = none ∨ 4096 ≤ l.replay.length ∧ ∀ f, nextFlit (linkOf s k) = some f → keyGone s k f = false) :
    transmit p k l s = sendFlit k (nullFlit s.clock) s := by
  have hd : dropKeyless k l.txq.length s = s := dropKeyless_noop (hn.elim (fun hn f hf => by rw [hn] at hf; cases hf) And.right) _
  unfold transmit
  rw [h]
  dsimp only
  rw [hd]
  rcases hn with hn | ⟨hfull, -⟩
  · rw [hn]
  · rw [decide_eq_false (Nat.not_lt_of_le hfull)]
    split
    · next h => cases h
    · rfl

end

/-! ## What each case changes -/

section
variable {s t : State}

theorem breakout_portCnt (p ofs n j : Nat) : (portOf (portCnt p ofs n s) j).breakout = (portOf s j).breakout := by
  by_cases h : j = p
  · subst h
    exact (congrArg PortSt.breakout (tget_tmod_eq ({} : PortSt) s.ports j fun x => { x with cnt := bump x.cnt ofs n })).trans rfl
  · exact congrArg PortSt.breakout (tget_tmod_ne ({} : PortSt) s.ports (fun x => { x with cnt := bump x.cnt ofs n }) h)

theorem strandPos_of_breakout (h : ∀ j, (portOf t j).breakout = (portOf s j).breakout) (k : Nat) : strandPos t k = strandPos s k := by
  unfold strandPos strandsIn
  rw [h]

theorem liveStrands_of_breakout {k : Nat} (h : ∀ j, (portOf t j).breakout = (portOf s j).breakout) (hs : t.strands = s.strands) : liveStrands t k = liveStrands s k := by
  unfold liveStrands
  rw [strandPos_of_breakout h]
  exact List.filter_congr fun q _ => by rw [strandOf_congr hs]

end

section
variable {s : State} (hi : s.flt.injActive = false) (k : Nat)
include hi

omit hi in
theorem linkOf_countFlit (v dir j : Nat) : linkOf (countFlit k v dir s) j = linkOf s j := rfl

omit hi in
theorem cnt_portCnt (p ofs n : Nat) : (portOf (portCnt p ofs n s) p).cnt = bump (portOf s p).cnt ofs n :=
  congrArg PortSt.cnt (tget_tmod_eq ({} : PortSt) s.ports p fun x => { x with cnt := bump x.cnt ofs n })

section
variable (p : Nat) (g : Flit) (r : List Flit)

omit hi in
theorem keeps_againBooked : Keeps true 0x2a000 s (againBooked p k g r s) :=
  portCnt_keeps _ _ _ (countFlit_keeps _ _ _ (modLink_keeps _ _ (.refl _ _ s) rfl) rfl) rfl

theorem flt_againBooked : (againBooked p k g r s).flt.injActive = false := by rwa [(keeps_againBooked k p g r).only.flt (by decide)]

omit hi in
theorem linkOf_againBooked (j : Nat) : linkOf (againBooked p k g r s) j = if j = k then resentBook s g r (linkOf s j) else linkOf s j := by
  rw [againBooked, linkOf_portCnt, linkOf_countFlit, linkOf_modLink]

omit hi in
theorem cnt_againBooked : (portOf (againBooked p k g r s) p).cnt = bump (portOf s p).cnt 0x110 1 := by
  rw [againBooked, cnt_portCnt]
  rfl

theorem keeps_sendAgain : Keeps true 0x3a001 s (sendAgain p k g r s) :=
  keeps_dispatch (flt_againBooked hi k p g r) k g
    (portCnt_keeps _ _ _ (countFlit_keeps _ _ _ (modLink_keeps _ _ (.refl _ _ s) rfl) rfl) rfl) rfl

theorem out_sendAgain : (sendAgain p k g r s).out = .flit k g 0 :: s.out := by
  rw [sendAgain, out_dispatch (flt_againBooked hi k p g r), (keeps_againBooked k p g r).only.out (by decide)]

theorem linkOf_sendAgain (j : Nat) : linkOf (sendAgain p k g r s) j = if j = k then resentBook s g r (linkOf s j) else linkOf s j := by
  rw [sendAgain, linkOf_dispatch (flt_againBooked hi k p g r), linkOf_againBooked]

theorem cnt_sendAgain : (portOf (sendAgain p k g r s) p).cnt = bump (portOf s p).cnt 0x110 1 := by
  rw [sendAgain, portOf_congr (ports_dispatch (flt_againBooked hi k p g r) k g), cnt_againBooked]

omit hi in
theorem breakout_againBooked (j : Nat) : (portOf (againBooked p k g r s) j).breakout = (portOf s j).breakout := breakout_portCnt ..

theorem strandOf_sendAgain {q : Nat} (hq : q ∈ liveStrands s k) : strandOf (sendAgain p k g r s) q = withDue g.seq s.clock (strandOf s q) := by
  have hs := (keeps_againBooked (s := s) k p g r).only.strands (by decide)
  have hq' : q ∈ liveStrands (againBooked p k g r s) k := by rwa [liveStrands_of_breakout (breakout_againBooked k p g r) hs]
  rw [sendAgain, strandOf_dispatch (flt_againBooked hi k p g r) k g hq', strandOf_congr hs, (keeps_againBooked k p g r).only.clock (by decide)]

end

/-! ## A new flit -/

section
variable (f g : Flit)

omit hi

theorem keeps_newBooked : Keeps true 0x17a2000 s (newBooked k f g s) := countFlit_keeps _ _ _ (flitLeft_keeps g (modLink_keeps _ _ (.refl _ _ s) rfl) rfl) rfl

theorem linkOf_newBooked : ∃ q, linkOf (newBooked k f g s) k = { sentBook s f g (linkOf s k) with txq := q } := by
  obtain ⟨q, hq⟩ := linkOf_flitLeft g (modLink k (sentBook s f g) s) k
  rw [linkOf_modLink_same] at hq
  exact ⟨q, hq⟩

theorem linkOf_newBooked_link (h : g.src = none) (j : Nat) : linkOf (newBooked k f g s) j = if j = k then sentBook s f g (linkOf s j) else linkOf s j := by
  rw [newBooked, linkOf_countFlit, flitLeft_none h, linkOf_modLink]

theorem begun_newBooked {e pid : Nat} (h : g.src = some (e, pid)) : Begun pid (newBooked k f g s) := begun_flitLeft h

include hi

theorem flt_newBooked : (newBooked k f g s).flt.injActive = false := by rwa [(keeps_newBooked k f g).only.flt (by decide)]

theorem out_sendNew : (sendNew k f g s).out = .flit k g 0 :: s.out := by
  rw [sendNew, out_dispatch (flt_newBooked hi k f g), (keeps_newBooked k f g).only.out (by decide)]

theorem linkOf_sendNew : ∃ q, linkOf (sendNew k f g s) k = { sentBook s f g (linkOf s k) with txq := q } := by
  rw [sendNew, linkOf_dispatch (flt_newBooked hi k f g)]
  exact linkOf_newBooked k f g

theorem begun_sendNew {e pid : Nat} (h : g.src = some (e, pid)) : Begun pid (sendNew k f g s) :=
  (begun_newBooked k f g h).congr (pkts_dispatch (flt_newBooked hi k f g) k g)

theorem strandOf_sendNew {q : Nat} (hq : q ∈ liveStrands s k) : strandOf (sendNew k f g s) q = withDue g.seq s.clock (strandOf s q) := by
  have hk := keeps_newBooked (s := s) k f g
  have hs := hk.only.strands (by decide)
  have hq' : q ∈ liveStrands (newBooked k f g s) k := by rwa [liveStrands_congr (hk.only.ports (by decide)) fun r _ => strandOf_congr hs r]
  rw [sendNew, strandOf_dispatch (flt_newBooked hi k f g) k g hq', strandOf_congr hs, hk.only.clock (by decide)]

/-- A flit of no packet changes the sub-link's book and nothing of a queue. -/
theorem sendNew_link (h : g.src = none) : Keeps true 0x32001 s (sendNew k f g s) ∧
    ∀ j, linkOf (sendNew k f g s) j = if j = k then sentBook s f g (linkOf s j) else linkOf s j := by
  refine ⟨?_, fun j => ?_⟩
  · have hk : Keeps true 0x32001 s (newBooked k f g s) := by
      rw [newBooked, flitLeft_none h]
      exact countFlit_keeps _ _ _ (modLink_keeps _ _ (.refl _ _ s) rfl) rfl
    exact keeps_dispatch (flt_newBooked hi k f g) k g hk rfl
  · rw [sendNew, linkOf_dispatch (flt_newBooked hi k f g), linkOf_newBooked_link k f g h]

end

end

end Sys2Proof.Machine
end

section
/-! SUPPORT. FLIT_RECEIVED: what a flit refused and a good SINGLE change (R38, R43, R44, R46, R49). -/

namespace Sys2Proof.Machine

section
variable {s t : State} {k : Nat}

/-! ## The codeword (R38) -/

/-- The state once a received slot and its codeword are counted. -/
def decoded (k : Nat) (errs : List (Fin 544)) (again : Bool) (s : State) : State := iff (!again) (decodeWord k errs) (countSlot k 1 s)

theorem keeps_decoded (k : Nat) (errs : List (Fin 544)) (again : Bool) {L : Nat} (h : Keeps true L t s) (m : May 0x1a000 L) : Keeps true L t (decoded k errs again s) :=
  iff_keeps _ (fun _ h => decodeWord_keeps _ _ h (m.sub rfl)) (countSlot_keeps _ _ h (m.sub rfl))

theorem linkOf_decoded (k : Nat) (errs : List (Fin 544)) (again : Bool) (s : State) (j : Nat) : linkOf (decoded k errs again s) j = linkOf s j :=
  linkOf_congr ((keeps_decoded (L := 0x1a000) k errs again (.refl _ _ s) rfl).only.links (by decide)) j

theorem keeps_decoded_again (k : Nat) (errs : List (Fin 544)) (s : State) : Keeps true 0x2000 s (decoded k errs true s) := countSlot_keeps _ _ (.refl _ _ s) rfl

/-- The corrected symbols count on the port. -/
theorem cnt_decoded (k : Nat) {errs : List (Fin 544)} (h : rsOk errs = true) (s : State) :
    (portOf (decoded k errs false s) (k / 4)).cnt = bump (portOf s (k / 4)).cnt 0x104 (uniq errs).length := by
  have hports : (decoded k errs false s).ports = (portCnt (k / 4) 0x104 (uniq errs).length (countSlot k 1 s)).ports := by
    refine (congrArg State.ports (if_pos h)).trans (each_field State.ports fun e a => ?_)
    split <;> rfl
  rw [portOf_congr hports, cnt_portCnt, portOf_congr ((countSlot_keeps (d := true) (L := 0x2000) k 1 (.refl _ _ s) rfl).only.ports (by decide))]

/-! ## NAK (R49) -/

/-- The book of a sub-link that asks for the flit awaited. -/
def nakBook (clock : Nat) (l : SubLink) : SubLink := { l with nakPend := true, nakFor := some l.rxSeq, nakAt := clock }

theorem keeps_nak (k : Nat) (s : State) : Keeps true 0x28000 s (nak k s) := nak_keeps _ (.refl _ _ s) rfl

theorem nak_eq (k : Nat) (s : State) : nak k s =
    if (linkOf s k).nakFor = some (linkOf s k).rxSeq ∧ s.clock - (linkOf s k).nakAt < 2000 then s else portCnt (k / 4) 0x10C 1 (modLink k (nakBook s.clock) s) := rfl

theorem linkOf_nak_other {j : Nat} (hj : j ≠ k) : linkOf (nak k s) j = linkOf s j := by
  rw [nak_eq]
  split
  · rfl
  · rw [linkOf_portCnt, linkOf_modLink_other _ hj]

/-- A NAK leaves what has been received. -/
theorem linkOf_nak (k : Nat) (s : State) : (linkOf (nak k s) k).rxSeq = (linkOf s k).rxSeq ∧ (linkOf (nak k s) k).rxq = (linkOf s k).rxq ∧
    (linkOf (nak k s) k).occ = (linkOf s k).occ ∧ ((linkOf s k).nakFor = none → (linkOf (nak k s) k).nakPend = true) := by
  rw [nak_eq]
  split
  · next h => exact ⟨rfl, rfl, rfl, fun hn => by rw [hn] at h; cases h.1⟩
  · rw [linkOf_portCnt, linkOf_modLink_same]
    exact ⟨rfl, rfl, rfl, fun _ => rfl⟩

/-! ## A flit received -/

/-- The flit awaited has come. -/
def awaitNext (l : SubLink) : SubLink := { l with rxSeq := l.rxSeq + 1, nakFor := none }

/-- What becomes of a flit of bytes b whose codeword, of symbols errs in error, came on sub-link k of book l. -/
def receive (p k : Nat) (b : List Byte) (errs : List (Fin 544)) (l : SubLink) (s : State) : State :=
  if !rsOk errs then nak k s
  else if be b 248 8 ≠ (crc64 (b.take 248)).toNat then nak k (portCnt p 0x100 1 s)
  else if (flitOfBytes b).typ = 4 then s
  else
    let s := countFlit k (flitOfBytes b).vc 1 s
    if (flitOfBytes b).seq ≠ l.rxSeq then nak k s
    else
      let s := modLink k awaitNext s
      let free := fun a => releaseFlits k (flitOfBytes b).vc 1 (modLink k (fun l => { l with occ := tset 0 l.occ (flitOfBytes b).vc (tget 0 l.occ (flitOfBytes b).vc + 1) }) a)
      if tget 0 (linkOf s k).occ (flitOfBytes b).vc ≥ tget 0 l.adv (flitOfBytes b).vc then discardFlit k (flitOfBytes b) s
      else if ((flitOfBytes b).vc = 7) ≠ ((flitOfBytes b).typ = 5) then free (portCnt p 0x118 1 s)
      else if !vcRuns l.st (flitOfBytes b).vc then free (discardFlit k (flitOfBytes b) s)
      else if (flitOfBytes b).vc = 7 then (if (flitOfBytes b).len = 232 then acceptFlit k (flitOfBytes b) s else free (portCnt p 0x118 1 s))
      else frameFlit k (flitOfBytes b) s

theorem exec_flitReceived {p : Port} {x : Strand} (hp : portOn s p = true) (hr : linkRuns (linkOf s (subKey s p x)) = true) (w : BitVec 2048) (errs : List (Fin 544)) (again : Bool) :
    exec (.flitReceived p x w errs again) s =
      .next (receive p (subKey s p x) (bytesBE 256 w.toNat) errs (linkOf s (subKey s p x)) (decoded (subKey s p x) errs again s)) :=
  congrArg Host.Outcome.next (if_neg (by simp [hp, hr]))

/-- A flit that is not accepted: a NAK, after no more than counting. -/
theorem receive_refused {p : Nat} {b : List Byte} {errs : List (Fin 544)} {l : SubLink}
    (h : rsOk errs = false ∨ be b 248 8 ≠ (crc64 (b.take 248)).toNat ∨ (flitOfBytes b).typ ≠ 4 ∧ (flitOfBytes b).seq ≠ l.rxSeq) {L : Nat} (hk : Keeps true L t s)
    (m : May 0xa000 L) : ∃ u, receive p k b errs l s = nak k u ∧ Keeps true L t u ∧ ∀ j, linkOf u j = linkOf s j := by
  unfold receive
  by_cases hrs : rsOk errs = true
  · rw [if_neg (by simp [hrs])]
    by_cases hcrc : be b 248 8 = (crc64 (b.take 248)).toNat
    · rw [if_neg (by simp [hcrc])]
      rcases h with h | h | ⟨ht, hs⟩
      · rw [hrs] at h
        cases h
      · exact absurd hcrc h
      · rw [if_neg ht]
        exact ⟨_, if_pos hs, countFlit_keeps _ _ _ hk (m.sub rfl), fun _ => rfl⟩
    · exact ⟨_, if_pos hcrc, portCnt_keeps _ _ _ hk (m.sub rfl), fun _ => rfl⟩
  · exact ⟨s, if_pos (by simp [hrs]), hk, fun _ => rfl⟩

/-- A flit of a VC of packets that is no BODY takes its buffer and waits. -/
theorem acceptFlit_waits {f : Flit} (hv : f.vc ≠ 7) (ht : f.typ ≠ 1) (s : State) :
    acceptFlit k f s = modLink k (fun l => { l with rxq := l.rxq ++ [f] }) (modLink k (fun l => { l with occ := tset 0 l.occ f.vc (tget 0 l.occ f.vc + 1) }) s) := by
  unfold acceptFlit
  rw [if_neg hv, if_neg fun h => ht h.1]

theorem frameFlit_single {f : Flit} (ht : f.typ = 3) (hf : tget 0 (linkOf s k).framing f.vc = 0) (h1 : 1 ≤ f.len) (h2 : f.len ≤ 232) :
    frameFlit k f s = acceptFlit k f (setFraming k f.vc 0 s) := by
  simp only [frameFlit, ht, hf]
  exact (if_neg (by decide)).trans (if_pos (by simp [h1, h2]))

section
variable {p : Nat} {b : List Byte} {errs : List (Fin 544)} (hrs : rsOk errs = true) (hcrc : be b 248 8 = (crc64 (b.take 248)).toNat)
  (hseq : (flitOfBytes b).seq = (linkOf s k).rxSeq) (hst : (linkOf s k).st = .active) (ht : (flitOfBytes b).typ = 3) (hv : (flitOfBytes b).vc ≤ 6)
  (h1 : 1 ≤ (flitOfBytes b).len) (h2 : (flitOfBytes b).len ≤ 232) (hf : tget 0 (linkOf s k).framing (flitOfBytes b).vc = 0)
  (ho : tget 0 (linkOf s k).occ (flitOfBytes b).vc < tget 0 (linkOf s k).adv (flitOfBytes b).vc)
include hrs hcrc hseq hst ht hv h1 h2 hf ho

theorem receive_single : receive p k b errs (linkOf s k) s =
    acceptFlit k (flitOfBytes b) (setFraming k (flitOfBytes b).vc 0 (modLink k awaitNext (countFlit k (flitOfBytes b).vc 1 s))) := by
  have hl : linkOf (modLink k awaitNext (countFlit k (flitOfBytes b).vc 1 s)) k = awaitNext (linkOf s k) := linkOf_modLink_same _
  have hv7 : (flitOfBytes b).vc ≠ 7 := by omega
  have hnew : (flitOfBytes b).typ ≠ 4 := by rw [ht]; decide
  have hkind : ((flitOfBytes b).vc = 7) = ((flitOfBytes b).typ = 5) := propext ⟨fun h => absurd h hv7, fun h => by rw [ht] at h; cases h⟩
  have hruns : vcRuns (linkOf s k).st (flitOfBytes b).vc = true := by rw [hst]; rfl
  refine (if_neg (by simp [hrs])).trans ((if_neg (fun h => h hcrc)).trans ((if_neg hnew).trans ((if_neg (fun h => h hseq)).trans ((if_neg ?_).trans ((if_neg (fun h => h hkind)).trans
    ((if_neg (by simp [hruns])).trans ((if_neg hv7).trans (frameFlit_single ht ?_ h1 h2))))))))
  · rw [hl]
    exact Nat.not_le_of_lt ho
  · rw [hl]
    exact hf

omit hrs hcrc hseq hst h1 h2 hf ho in
theorem keeps_single {L : Nat} (h : Keeps true L t s) (m : May 0x22000 L) :
    Keeps true L t (acceptFlit k (flitOfBytes b) (setFraming k (flitOfBytes b).vc 0 (modLink k awaitNext (countFlit k (flitOfBytes b).vc 1 s)))) := by
  rw [acceptFlit_waits (by omega) (by rw [ht]; decide)]
  exact modLink_keeps _ _ (modLink_keeps _ _ (modLink_keeps _ _ (modLink_keeps _ _ (countFlit_keeps _ _ _ h (m.sub rfl)) (m.sub rfl)) (m.sub rfl)) (m.sub rfl)) (m.sub rfl)

end

/-- The book of a sub-link that has taken a flit into its receive queue. -/
def tookFlit (f : Flit) (l : SubLink) : SubLink :=
  { l with rxSeq := l.rxSeq + 1, nakFor := none, occ := tset 0 l.occ f.vc (tget 0 l.occ f.vc + 1), rxq := l.rxq ++ [f], framing := tset 0 l.framing f.vc 0 }

theorem linkOf_single {f : Flit} (hv : f.vc ≠ 7) (ht : f.typ ≠ 1) (s : State) (j : Nat) :
    linkOf (acceptFlit k f (setFraming k f.vc 0 (modLink k awaitNext (countFlit k f.vc 1 s)))) j = if j = k then tookFlit f (linkOf s j) else linkOf s j := by
  rw [acceptFlit_waits hv ht]
  by_cases hj : j = k
  · subst hj
    rw [if_pos rfl, setFraming, linkOf_modLink_same, linkOf_modLink_same, linkOf_modLink_same, linkOf_modLink_same, linkOf_countFlit]
    rfl
  · rw [if_neg hj, setFraming, linkOf_modLink_other _ hj, linkOf_modLink_other _ hj, linkOf_modLink_other _ hj, linkOf_modLink_other _ hj, linkOf_countFlit]

end

end Sys2Proof.Machine
end

section
/-! SUPPORT. CONTROL_SLOT_RECEIVED: a slot refused, and one that is taken (R40, R46, R49, R50, R52). -/

namespace Sys2Proof.Machine

section
variable {s t : State} {k q : Nat} {l : SubLink}

/-! ## Which slots are heeded -/

/-- Is a sub-link in a state in which no slot is heeded? -/
def isOff (st : LinkSt) : Bool := match st with | .down | .dark => true | _ => false

/-- Is a strand in a state in which it carries no slot? -/
def noSlots (st : LinkSt) : Bool := match st with | .down | .dark | .clock => true | _ => false

theorem isOff_of_runs (h : linkRuns l = true) : isOff l.st = false := by
  revert h
  unfold linkRuns
  cases l.st <;> decide

theorem noSlots_eq_false {st : LinkSt} (hd : st ≠ .down) (hk : st ≠ .dark) (hc : st ≠ .clock) : noSlots st = false := by
  unfold noSlots
  split
  · exact absurd rfl hd
  · exact absurd rfl hk
  · exact absurd rfl hc
  · rfl

/-- Is a slot another than the last taken, and is it older? -/
def slotFresh (l : SubLink) (csc : BitVec 16) : Bool := match l.cscRx with | none => true | some c => decide (csc ≠ c)

def slotOld (l : SubLink) (csc : BitVec 16) : Bool := match l.cscRx with | none => false | some c => !seqGe csc c

/-! ## What a slot says -/

def slotCsc (b : List Byte) : BitVec 16 := BitVec.ofNat 16 (be b 10 2)
def slotAck (b : List Byte) : BitVec 24 := BitVec.ofNat 24 (be b 12 3)
def slotHealth (b : List Byte) : BitVec 16 := BitVec.ofNat 16 (be b 32 2)
def slotCred (b : List Byte) : List (BitVec 16) := (List.range 8).map fun v => BitVec.ofNat 16 (be b (16 + 2 * v) 2)

/-- The partner's state and health as the slot tells them. -/
def heard (b : List Byte) (l : SubLink) : SubLink := { l with cscRx := some (slotCsc b), peerSt := byteAt b 9, peerHealth := slotHealth b, peerRet := byteAt b 35 }

/-- Are the lanes of a strand reported clean? -/
def reportedClean (s : State) (x q : Nat) (b : List Byte) : Bool := (lanesOf s q).all fun lane => bitOf (slotHealth b) (4 * x + laneWl (strandOf s q) lane)

/-- A slot's acknowledgement, credits and NAK. -/
def ackSlot (k q : Nat) (b : List Byte) (clean fresh : Bool) (s : State) : State :=
  iff (fresh && byteAt b 15 == 1) (replayAll k) (iff clean (modStrand q (meetDue (slotAck b)))
    (modLink k (takeCred (slotCred b)) (modLink k (ackFlits (slotAck b) s.clock) (modLink k (heard b) s))))

/-- A slot that is taken, up to its rotations. -/
def takeSlot (k q : Nat) (b : List Byte) (clean fresh : Bool) (s : State) : State := rotateTx k (byteAt b 34) (iff fresh (rotateDone k) (ackSlot k q b clean fresh s))

/-- The strands that the partner has retired. -/
def retiredThere (k : Nat) (b : List Byte) (s : State) : State :=
  each ((strandPos s k).filter fun r => bitOf (byteAt b 35) (4 + r % 4)) (fun r a => if pastTraining (linkOf a k).st then retireStrand r a else a) s

/-- A slot that has come, its bytes counted. -/
def heedSlot (p x k q : Nat) (b : List Byte) (l : SubLink) (s : State) : State :=
  if be b 248 8 ≠ (crc64 (b.take 248)).toNat then portCnt p 0x100 1 s
  else if be b 0 8 ≠ 0xA5C30FF0E1963C5A then s
  else if slotOld l (slotCsc b) then s
  else lowPower k (retiredThere k b (takeSlot k q b (reportedClean s x q b) (slotFresh l (slotCsc b)) s))

theorem exec_controlSlotReceived {p : Port} {x : Strand} (hp : portOn s p = true) (hr : linkRuns (linkOf s (subKey s p x)) = true)
    (hq : 4 * p.val + x.val ∈ liveStrands s (subKey s p x)) (hc : (strandOf s (4 * p.val + x.val)).st ≠ .clock) (slot : BitVec 2048) :
    exec (.controlSlotReceived p x slot) s = .next (heedSlot p x (subKey s p x) (4 * p.val + x.val) (bytesBE 256 slot.toNat) (linkOf s (subKey s p x))
      (countBytes (1024 + 2 * (4 * p.val + x.val) + 1) (2048 * 12) s)) := by
  obtain ⟨-, hu, -, hd, hk⟩ := mem_liveStrands.1 hq
  refine congrArg Host.Outcome.next (if_neg ?_)
  change ¬ (!portOn s p || isOff (linkOf s (subKey s p x)).st || ((strandOf s (4 * p.val + x.val)).outOfUse && !(strandOf s (4 * p.val + x.val)).alone) ||
    noSlots (strandOf s (4 * p.val + x.val)).st) = true
  rw [hp, isOff_of_runs hr, hu, noSlots_eq_false hd hk hc]
  simp

/-! ## Acknowledgement and credits -/

/-- Credits of one VC. -/
def takeOne (cred : List (BitVec 16)) (l : SubLink) (v : Nat) : SubLink :=
  let c := cred.getD v 0
  { l with credHeld := tset 0 l.credHeld v (tget 0 l.credHeld v + (c - tget 0 l.credSeen v).toNat), credSeen := tset 0 l.credSeen v c }

theorem takeCred_eq (cred : List (BitVec 16)) (l : SubLink) : takeCred cred l = (List.range 8).foldl (takeOne cred) l := rfl

/-- Of a book, credits change what is held and seen. -/
theorem foldl_takeOne_eq (cred : List (BitVec 16)) (vs : List Nat) (l : SubLink) : ∃ h c, vs.foldl (takeOne cred) l = { l with credHeld := h, credSeen := c } := by
  induction vs generalizing l with
  | nil => exact ⟨l.credHeld, l.credSeen, rfl⟩
  | cons v vs ih => exact ih (takeOne cred l v)

theorem credHeld_foldl_takeOne (cred : List (BitVec 16)) {vs : List Nat} (hv : vs.Nodup) (l : SubLink) (v : Nat) :
    tget 0 (vs.foldl (takeOne cred) l).credHeld v =
      if v ∈ vs then tget 0 l.credHeld v + (cred.getD v 0 - tget 0 l.credSeen v).toNat else tget 0 l.credHeld v := by
  induction vs generalizing l with
  | nil => simp
  | cons a vs ih =>
    obtain ⟨ha, hvs⟩ := List.nodup_cons.1 hv
    have hheld : tget 0 (takeOne cred l a).credHeld v = if v = a then tget 0 l.credHeld a + (cred.getD a 0 - tget 0 l.credSeen a).toNat else tget 0 l.credHeld v := tget_tset ..
    have hseen : tget 0 (takeOne cred l a).credSeen v = if v = a then cred.getD a 0 else tget 0 l.credSeen v := tget_tset ..
    rw [List.foldl_cons, ih hvs, hheld, hseen]
    by_cases h : v = a
    · subst h
      simp [ha]
    · simp [h]

theorem getD_slotCred (b : List Byte) {v : Nat} (hv : v < 8) : (slotCred b).getD v 0 = BitVec.ofNat 16 (be b (16 + 2 * v) 2) := by
  simp [slotCred, hv]

/-- A book all of whose flits not acknowledged are to go again. -/
def replayed (l : SubLink) : SubLink := { l with resend := l.replay.map fun f => { f with replay := true } }

theorem replayAll_eq (k : Nat) : replayAll k = modLink k replayed := rfl

/-- The book of a sub-link that has taken a slot, with NAK set or not. -/
def slotBook (b : List Byte) (nak : Bool) (clock : Nat) (l : SubLink) : SubLink :=
  cond nak (replayed (takeCred (slotCred b) (ackFlits (slotAck b) clock (heard b l)))) (takeCred (slotCred b) (ackFlits (slotAck b) clock (heard b l)))

theorem slotBook_kept (b : List Byte) (clock : Nat) (l : SubLink) : slotBook b false clock l = takeCred (slotCred b) (ackFlits (slotAck b) clock (heard b l)) := cond_false ..

theorem slotBook_again (b : List Byte) (clock : Nat) (l : SubLink) : slotBook b true clock l = replayed (takeCred (slotCred b) (ackFlits (slotAck b) clock (heard b l))) :=
  cond_true ..

section
variable (b : List Byte) (clean fresh : Bool)

theorem linkOf_ackSlot (k q : Nat) (s : State) (j : Nat) : linkOf (ackSlot k q b clean fresh s) j = if j = k then
    slotBook b (fresh && byteAt b 15 == 1) s.clock (linkOf s j) else linkOf s j := by
  have hm : linkOf (iff clean (modStrand q (meetDue (slotAck b))) (modLink k (takeCred (slotCred b)) (modLink k (ackFlits (slotAck b) s.clock) (modLink k (heard b) s)))) j =
      if j = k then takeCred (slotCred b) (ackFlits (slotAck b) s.clock (heard b (linkOf s j))) else linkOf s j := by
    have hiff (a : State) : linkOf (iff clean (modStrand q (meetDue (slotAck b))) a) j = linkOf a j := by cases clean <;> rfl
    rw [hiff]
    by_cases hj : j = k
    · subst hj
      rw [if_pos rfl, linkOf_modLink_same, linkOf_modLink_same, linkOf_modLink_same]
    · rw [if_neg hj, linkOf_modLink_other _ hj, linkOf_modLink_other _ hj, linkOf_modLink_other _ hj]
  unfold ackSlot
  cases fresh && byteAt b 15 == 1
  · rw [iff_false, hm, slotBook_kept]
  · rw [iff_true, replayAll_eq, linkOf_modLink, hm, slotBook_again]
    by_cases hj : j = k
    · rw [if_pos hj, if_pos hj, if_pos hj]
    · rw [if_neg hj, if_neg hj, if_neg hj]

theorem keeps_ackSlot (k q : Nat) (s : State) : Keeps true 0x30000 s (ackSlot k q b clean fresh s) :=
  iff_keeps _ (fun _ h => replayAll_keeps _ h rfl) (iff_keeps _ (fun _ h => modStrand_keeps _ _ h rfl) (modLink_keeps _ _ (modLink_keeps _ _ (modLink_keeps _ _ (.refl _ _ s) rfl) rfl) rfl))

theorem due_ackSlot (k q : Nat) (s : State) : (strandOf (ackSlot k q b true fresh s) q).due = (strandOf s q).due.filter fun d => !seqGe (slotAck b) d.1 := by
  have hiff (c : Bool) (a : State) : strandOf (iff c (replayAll k) a) q = strandOf a q := by cases c <;> rfl
  unfold ackSlot
  rw [hiff, iff_true, strandOf_modStrand_same]
  rfl

/-! ## Rotations -/

theorem keeps_rotations (k : Nat) (s : State) : Keeps true 0x18000 s (rotateTx k (byteAt b 34) (iff fresh (rotateDone k) s)) :=
  rotateTx_keeps _ _ (iff_keeps _ (fun _ h => rotateDone_keeps _ h rfl) (.refl _ _ s)) rfl

theorem due_setLane (y : StrandSt) (lane w : Nat) : (setLane y lane w).due = y.due := by
  unfold setLane
  split <;> rfl

/-- A change of a strand that leaves its deadlines. -/
theorem due_modStrand {f : StrandSt → StrandSt} (h : ∀ y, (f y).due = y.due) (q r : Nat) (s : State) : (strandOf (modStrand q f s) r).due = (strandOf s r).due := by
  rw [strandOf_modStrand]
  split
  · exact h _
  · rfl

theorem due_rotateTx (k : Nat) (rot : Byte) (s : State) (r : Nat) : (strandOf (rotateTx k rot s) r).due = (strandOf s r).due := by
  have hmoved (lane w : Nat) (q : Nat) : (strandOf (portCnt (k / 4) 0x11C 1 (modStrand q (fun y => setLane y lane w) s)) r).due = (strandOf s r).due :=
    due_modStrand (fun y => due_setLane y lane w) q r s
  unfold rotateTx
  dsimp only
  split
  · rfl
  · split
    · split
      · exact hmoved _ _ _
      · rfl
    · split
      · exact hmoved _ _ _
      · rfl
    · rfl

theorem due_rotateLane (q : Nat) (lane : Fin 2) (s : State) (r : Nat) : (strandOf (rotateLane q lane s) r).due = (strandOf s r).due := by
  unfold rotateLane
  dsimp only
  split
  · rw [strandOf_portCnt]
    refine due_modStrand (fun y => ?_) q r s
    exact due_setLane y _ _
  · refine due_modStrand (fun y => ?_) q r s
    rfl

theorem due_rotateDone (k : Nat) (s : State) (r : Nat) : (strandOf (rotateDone k s) r).due = (strandOf s r).due := by
  refine each_induct (P := fun a => (strandOf a r).due = (strandOf s r).due) (fun q _ a ha => ?_) rfl
  rw [← ha]
  dsimp only
  split
  · refine due_modStrand (fun y => ?_) q r a
    rfl
  · exact due_rotateLane q _ a r
  · rfl

end

/-! ## A slot that is taken -/

section
variable (b : List Byte)

theorem takeCred_book (cred : List (BitVec 16)) (l : SubLink) : ∃ h c, takeCred cred l = { l with credHeld := h, credSeen := c } := foldl_takeOne_eq cred _ l

/-- What a slot changes of a book, whatever its NAK. -/
theorem slotBook_fields (nak : Bool) (clock : Nat) (l : SubLink) :
    (slotBook b nak clock l).st = l.st ∧ (slotBook b nak clock l).peerSt = byteAt b 9 ∧
    (slotBook b nak clock l).replay = l.replay.filter (fun f => !seqGe (slotAck b) f.seq) ∧
    (nak = true → (slotBook b nak clock l).resend = (slotBook b nak clock l).replay.map fun f => { f with replay := true }) ∧
    (nak = false → (slotBook b nak clock l).resend = l.resend.filter (fun f => !seqGe (slotAck b) f.seq)) := by
  obtain ⟨h, c, hc⟩ := takeCred_book (slotCred b) (ackFlits (slotAck b) clock (heard b l))
  cases nak
  · rw [slotBook_kept, hc]
    exact ⟨rfl, rfl, rfl, nofun, fun _ => rfl⟩
  · rw [slotBook_again, hc]
    exact ⟨rfl, rfl, rfl, fun _ => rfl, nofun⟩

theorem credHeld_slotBook (nak : Bool) (clock : Nat) (l : SubLink) {v : Nat} (hv : v < 8) :
    tget 0 (slotBook b nak clock l).credHeld v = tget 0 l.credHeld v + (BitVec.ofNat 16 (be b (16 + 2 * v) 2) - tget 0 l.credSeen v).toNat := by
  have hheld : (slotBook b nak clock l).credHeld = (takeCred (slotCred b) (ackFlits (slotAck b) clock (heard b l))).credHeld := by
    cases nak
    · rw [slotBook_kept]
    · rw [slotBook_again]
      rfl
  rw [hheld, takeCred_eq, credHeld_foldl_takeOne _ List.nodup_range, if_pos (List.mem_range.2 hv), getD_slotCred b hv]
  rfl

theorem linkOf_takeSlot (k q : Nat) (clean fresh : Bool) (s : State) (j : Nat) :
    linkOf (takeSlot k q b clean fresh s) j = if j = k then slotBook b (fresh && byteAt b 15 == 1) s.clock (linkOf s j) else linkOf s j := by
  rw [takeSlot, linkOf_congr ((keeps_rotations b fresh k _).only.links (by decide)), linkOf_ackSlot]

theorem keeps_takeSlot (k q : Nat) (clean fresh : Bool) (s : State) : Keeps true 0x38000 s (takeSlot k q b clean fresh s) :=
  rotateTx_keeps _ _ (iff_keeps _ (fun _ h => rotateDone_keeps _ h rfl) (iff_keeps _ (fun _ h => replayAll_keeps _ h rfl)
    (iff_keeps _ (fun _ h => modStrand_keeps _ _ h rfl) (modLink_keeps _ _ (modLink_keeps _ _ (modLink_keeps _ _ (.refl _ _ s) rfl) rfl) rfl)))) rfl

theorem due_takeSlot (k q : Nat) (fresh : Bool) (s : State) : (strandOf (takeSlot k q b true fresh s) q).due = (strandOf s q).due.filter fun d => !seqGe (slotAck b) d.1 := by
  have hiff (a : State) : (strandOf (iff fresh (rotateDone k) a) q).due = (strandOf a q).due := by
    cases fresh
    · rfl
    · exact due_rotateDone k a q
  rw [takeSlot, due_rotateTx, hiff, due_ackSlot]

theorem retiredThere_none {b : List Byte} (h : byteAt b 35 = 0) (k : Nat) (s : State) : retiredThere k b s = s := by
  have hnone : (strandPos s k).filter (fun r => bitOf (byteAt b 35) (4 + r % 4)) = [] := by
    refine List.filter_eq_nil_iff.2 fun r _ => ?_
    rw [h]
    simp [bitOf]
  rw [retiredThere, hnone]
  rfl

theorem lowPower_active {k : Nat} {s : State} (hst : (linkOf s k).st = .active) (hp : (linkOf s k).peerSt = 8) : lowPower k s = s := by
  simp only [lowPower, hst, hp]
  rfl

variable {b} {p x k q : Nat} {s : State}

theorem heedSlot_badCrc (h : be b 248 8 ≠ (crc64 (b.take 248)).toNat) (l : SubLink) : heedSlot p x k q b l s = portCnt p 0x100 1 s := if_pos h

theorem heedSlot_badMark (h : be b 248 8 = (crc64 (b.take 248)).toNat) (hm : be b 0 8 ≠ 0xA5C30FF0E1963C5A) (l : SubLink) : heedSlot p x k q b l s = s :=
  (if_neg fun hn => hn h).trans (if_pos hm)

/-- A good slot newer than the last, from a partner that retires no strand and asks for nothing. -/
theorem heedSlot_taken (h : be b 248 8 = (crc64 (b.take 248)).toNat) (hm : be b 0 8 = 0xA5C30FF0E1963C5A) {c : BitVec 16} (hc : (linkOf s k).cscRx = some c)
    (hge : seqGe (slotCsc b) c = true) (hne : slotCsc b ≠ c) (hst : (linkOf s k).st = .active) (h9 : byteAt b 9 = 8) (h35 : byteAt b 35 = 0) :
    heedSlot p x k q b (linkOf s k) s = takeSlot k q b (reportedClean s x q b) true s := by
  have hold : slotOld (linkOf s k) (slotCsc b) = false := by simp [slotOld, hc, hge]
  have hfresh : slotFresh (linkOf s k) (slotCsc b) = true := by simp [slotFresh, hc, hne]
  have hl := linkOf_takeSlot b k q (reportedClean s x q b) true s k
  rw [if_pos rfl] at hl
  obtain ⟨hs, hp, -⟩ := slotBook_fields b (true && byteAt b 15 == 1) s.clock (linkOf s k)
  unfold heedSlot
  rw [if_neg fun hn => hn h, if_neg fun hn => hn hm, if_neg (by simp [hold]), hfresh, retiredThere_none h35]
  exact lowPower_active (by rw [hl, hs, hst]) (by rw [hl, hp, h9])

end

end

end Sys2Proof.Machine
end

section
/-! SUPPORT. ACK_DEADLINE_MISS: what is replayed, and which strands the miss counts against (R52). -/

namespace Sys2Proof.Machine

/-- The live strands of a sub-link whose lanes are not all reported clean. -/
def unclean (s : State) (k : Nat) : List Nat :=
  (liveStrands s k).filter fun r => !((lanesOf s r).all fun lane => bitOf (linkOf s k).peerHealth (4 * (r % 4) + laneWl (strandOf s r) lane))

/-- The strands that a miss counts against. -/
def blamed (s : State) (k : Nat) : List Nat := (match unclean s k with | [q] => [q] | _ => liveStrands s k).filter fun q => (strandOf s q).rotating.isNone

/-- A strand with a miss more. -/
def oneMiss (x : StrandSt) : StrandSt := { x with misses := x.misses + 1 }

/-- A miss counts against a strand, the fourth in a row retiring it. -/
def blame (q : Nat) (a : State) : State :=
  let a := modStrand q oneMiss a
  if (strandOf a q).misses ≥ 4 then retireStrand q a else a

/-- The miss is counted on the port and everything is to go again. -/
def missed (p k q due : Nat) (s : State) : State := iff (!(blamed s k).isEmpty) (portCnt p 0x114 1) (rewindDue k q (replayAll k (clockTo due s)))

section
variable {s : State} {p k q due : Nat}

/-! ## Who is blamed -/

theorem blamed_sub {r : Nat} (h : r ∈ blamed s k) : r ∈ liveStrands s k := by
  have hr := (List.mem_filter.1 h).1
  split at hr
  · next a ha =>
    rw [List.mem_singleton.1 hr]
    exact (List.mem_filter.1 (show a ∈ unclean s k by rw [ha]; exact List.mem_singleton_self a)).1
  · exact hr

theorem blamed_nodup (s : State) (k : Nat) : (blamed s k).Nodup := by
  refine List.Nodup.filter _ ?_
  split
  · exact List.nodup_singleton _
  · exact liveStrands_nodup s k

theorem blamed_one {r : Nat} (h : unclean s k = [r]) (hr : (strandOf s r).rotating = none) : blamed s k = [r] := by
  unfold blamed
  rw [h]
  simp [hr]

theorem each_blame {l : List Nat} (hl : l.Nodup) {t : State} (h : ∀ r ∈ l, (strandOf t r).misses < 3) : each l blame t = each l (fun r => modStrand r oneMiss) t := by
  induction l generalizing t with
  | nil => rfl
  | cons r m ih =>
    obtain ⟨hr, hm⟩ := List.nodup_cons.1 hl
    have hfew : (strandOf (modStrand r oneMiss t) r).misses < 4 := by
      rw [strandOf_modStrand_same]
      exact Nat.succ_lt_succ (h r List.mem_cons_self)
    have hone : blame r t = modStrand r oneMiss t := if_neg (Nat.not_le_of_lt hfew)
    rw [each_cons, each_cons, hone]
    refine ih hm fun a ha => ?_
    rw [strandOf_modStrand_other _ (ne_of_mem_of_not_mem ha hr)]
    exact h a (List.mem_cons_of_mem _ ha)

/-! ## What is replayed -/

/-- A strand whose deadlines are past or begin anew. -/
def rewound (again : List (BitVec 24)) (q r : Nat) (x : StrandSt) : StrandSt := { x with due := if r = q then [] else x.due.filter fun d => d.1 ∉ again }

theorem strandOf_rewindDue (k q : Nat) (s : State) (r : Nat) : strandOf (rewindDue k q s) r =
    if r ∈ liveStrands s k then rewound ((linkOf s k).replay.map Flit.seq) q r (strandOf s r) else strandOf s r :=
  strandOf_each (P := fun _ => True) (u := rewound ((linkOf s k).replay.map Flit.seq) q) (liveStrands_nodup s k) (fun _ _ _ => trivial) (fun _ _ _ => rfl) trivial r

theorem strandOf_missed (r : Nat) : strandOf (missed p k q due s) r =
    if r ∈ liveStrands s k then rewound ((linkOf (replayAll k (clockTo due s)) k).replay.map Flit.seq) q r (strandOf s r) else strandOf s r := by
  have hiff (b : Bool) (a : State) : strandOf (iff b (portCnt p 0x114 1) a) r = strandOf a r := by cases b <;> rfl
  rw [missed, hiff, strandOf_rewindDue]
  rfl

theorem misses_missed (r : Nat) : (strandOf (missed p k q due s) r).misses = (strandOf s r).misses := by
  rw [strandOf_missed]
  split <;> rfl

theorem linkOf_missed (j : Nat) : linkOf (missed p k q due s) j = if j = k then replayed (linkOf s j) else linkOf s j := by
  have hk : Keeps true 0x18000 (replayAll k (clockTo due s)) (missed p k q due s) :=
    iff_keeps _ (fun _ h => portCnt_keeps _ _ _ h rfl) (rewindDue_keeps _ _ (.refl _ _ _) rfl)
  rw [linkOf_congr (hk.only.links (by decide)), replayAll_eq, linkOf_modLink]
  rfl

theorem keeps_missed : Keeps true 0x38000 (clockTo due s) (missed p k q due s) :=
  iff_keeps _ (fun _ h => portCnt_keeps _ _ _ h rfl) (rewindDue_keeps _ _ (replayAll_keeps _ (.refl _ _ _) rfl) rfl)

/-! ## The row -/

/-- The state after a miss. -/
def missBooked (p k q due : Nat) (s : State) : State := each (blamed s k) (fun r => modStrand r oneMiss) (missed p k q due s)

theorem exec_ackDeadlineMiss_none {p : Port} {x : Strand} (h : (strandOf s (4 * p.val + x.val)).due = []) : exec (.ackDeadlineMiss p x) s = .next s :=
  congrArg Host.Outcome.next (if_pos (by simp [h]))

theorem exec_ackDeadlineMiss {p : Port} {x : Strand} (hp : portOn s p = true) (hr : linkRuns (linkOf s (subKey s p x)) = true) (hi : (linkOf s (subKey s p x)).idleTx = false)
    (hq : 4 * p.val + x.val ∈ liveStrands s (subKey s p x)) {d : BitVec 24 × Nat} {more : List (BitVec 24 × Nat)} (hd : (strandOf s (4 * p.val + x.val)).due = d :: more)
    (hm : ∀ r ∈ liveStrands s (subKey s p x), (strandOf s r).misses < 3) :
    exec (.ackDeadlineMiss p x) s = .next (missBooked p (subKey s p x) (4 * p.val + x.val) (d.2 + 2000) s) := by
  have hdue : (((strandOf s (4 * p.val + x.val)).due.map Prod.snd).headD 0) + 2000 = d.2 + 2000 := by rw [hd]; rfl
  have hbody : exec (.ackDeadlineMiss p x) s = .next (each (blamed s (subKey s p x)) blame (missed p (subKey s p x) (4 * p.val + x.val)
      ((((strandOf s (4 * p.val + x.val)).due.map Prod.snd).headD 0) + 2000) s)) :=
    congrArg Host.Outcome.next (if_neg (by simp [hp, hr, hi, hq, hd]))
  rw [hbody, hdue, missBooked, each_blame (blamed_nodup s _) fun r hr => ?_]
  rw [misses_missed]
  exact hm r (blamed_sub hr)

theorem strandOf_missBooked (r : Nat) : strandOf (missBooked p k q due s) r =
    if r ∈ blamed s k then oneMiss (strandOf (missed p k q due s) r) else strandOf (missed p k q due s) r :=
  strandOf_each (P := fun _ => True) (u := fun _ => oneMiss) (blamed_nodup s k) (fun _ _ _ => trivial) (fun _ _ _ => rfl) trivial r

theorem misses_missBooked (r : Nat) : (strandOf (missBooked p k q due s) r).misses = (strandOf s r).misses + if r ∈ blamed s k then 1 else 0 := by
  rw [strandOf_missBooked, ← misses_missed (p := p) (k := k) (q := q) (due := due) r]
  split <;> rfl

theorem due_missBooked (hq : q ∈ liveStrands s k) : (strandOf (missBooked p k q due s) q).due = [] := by
  have h : (strandOf (missed p k q due s) q).due = [] := by
    rw [strandOf_missed, if_pos hq]
    exact if_pos rfl
  rw [strandOf_missBooked]
  split
  · exact h
  · exact h

theorem linkOf_missBooked (j : Nat) : linkOf (missBooked p k q due s) j = if j = k then replayed (linkOf s j) else linkOf s j := by
  rw [missBooked, linkOf_each_modStrand, linkOf_missed]

theorem keeps_missBooked : Keeps true 0x38000 (clockTo due s) (missBooked p k q due s) := each_keeps (fun _ _ h => modStrand_keeps _ _ h rfl) keeps_missed

theorem cnt_missBooked (h : blamed s k ≠ []) : (portOf (missBooked p k q due s) p).cnt = bump (portOf s p).cnt 0x114 1 := by
  have h1 : (missBooked p k q due s).ports = (missed p k q due s).ports := each_field State.ports fun _ _ => rfl
  have h2 : (rewindDue k q (replayAll k (clockTo due s))).ports = s.ports := (rewindDue_keeps (d := true) (L := 0x10000) k q (.refl _ _ _) rfl).only.ports (by decide)
  rw [portOf_congr h1, missed, List.isEmpty_eq_false_iff.2 h]
  exact (cnt_portCnt ..).trans (by rw [portOf_congr h2])

end

end Sys2Proof.Machine
end

section
/-! The running link (R38 to R63): control slots and flits, sent and received, and the deadline of an acknowledgement. -/

namespace Sys2Proof.Machine

section
variable {p : Port} {x : Strand} {s : State}

theorem exec_controlSlotSend (hp : portOn s p = true) (h : slotStrands s (subKey s p x) ≠ []) : exec (.controlSlotSend p x) s = .next (sendSlots (subKey s p x) s) :=
  congrArg Host.Outcome.next (if_pos (by simp [hp, h]))

theorem exec_controlSlotSend_none (h : slotStrands s (subKey s p x) = []) : exec (.controlSlotSend p x) s = .next s :=
  congrArg Host.Outcome.next (if_neg (by simp [h]))

/-! ## A slot counted -/

theorem keeps_countSlot (k dir : Nat) (s : State) : Keeps true 0x2000 s (countSlot k dir s) := countSlot_keeps _ _ (.refl _ _ s) rfl

theorem linkOf_countSlot (k dir : Nat) (s : State) (j : Nat) : linkOf (countSlot k dir s) j = linkOf s j := linkOf_congr ((keeps_countSlot k dir s).only.links (by decide)) j

theorem strandOf_countSlot (k dir : Nat) (s : State) (j : Nat) : strandOf (countSlot k dir s) j = strandOf s j := strandOf_congr ((keeps_countSlot k dir s).only.strands (by decide)) j

theorem portOf_countSlot (k dir : Nat) (s : State) (j : Nat) : portOf (countSlot k dir s) j = portOf s j := portOf_congr ((keeps_countSlot k dir s).only.ports (by decide)) j

theorem clock_countSlot (k dir : Nat) (s : State) : (countSlot k dir s).clock = s.clock := (keeps_countSlot k dir s).only.clock (by decide)

theorem out_countSlot (k dir : Nat) (s : State) : (countSlot k dir s).out = s.out := (keeps_countSlot k dir s).only.out (by decide)

theorem flt_countSlot (hi : s.flt.injActive = false) (k dir : Nat) : (countSlot k dir s).flt.injActive = false := by rwa [(keeps_countSlot k dir s).only.flt (by decide)]

theorem liveStrands_countSlot (k dir : Nat) (s : State) (j : Nat) : liveStrands (countSlot k dir s) j = liveStrands s j :=
  liveStrands_congr ((keeps_countSlot k dir s).only.ports (by decide)) fun r _ => strandOf_countSlot k dir s r

theorem stampTime_countSlot (k dir : Nat) (s : State) (f : Flit) : stampTime (countSlot k dir s) f = stampTime s f :=
  stampTime_congr ((keeps_countSlot k dir s).only.tim (by decide)) (clock_countSlot k dir s) f

/-- The key check reads ports, links and packets. -/
theorem keyGone_countSlot (k dir : Nat) (s : State) (j : Nat) (f : Flit) : keyGone (countSlot k dir s) j f = keyGone s j f := by
  rw [countSlot_eq]
  rfl

theorem resent_countSlot (k dir : Nat) (s : State) (f : Flit) : resent (countSlot k dir s) f = { stampTime s f with replay := true, sentAt := s.clock } := by
  rw [resent, stampTime_countSlot, clock_countSlot]

/-! ## Flits sent -/

section
variable (hi : s.flt.injActive = false) (hp : portOn s p = true) (hr : linkRuns (linkOf s (subKey s p x)) = true) (hx : (linkOf s (subKey s p x)).idleTx = false)
include hi hp hr hx

/-- A replay goes first. -/
theorem flitTransmit_resend {f : Flit} {r : List Flit} (h : (linkOf s (subKey s p x)).resend = f :: r) : ∃ t, exec (.flitTransmit p x) s = .next t ∧
    t = { s with out := t.out, dbg := t.dbg, ports := t.ports, links := t.links, strands := t.strands } ∧
    t.out = .flit (subKey s p x) { stampTime s f with replay := true, sentAt := s.clock } 0 :: s.out ∧ (linkOf t (subKey s p x)).resend = r ∧
    (linkOf t (subKey s p x)).txSeq = (linkOf s (subKey s p x)).txSeq ∧ (linkOf t (subKey s p x)).credHeld = (linkOf s (subKey s p x)).credHeld ∧
    (portOf t p).cnt = bump (portOf s p).cnt 0x110 1 ∧ (∀ j, j ≠ subKey s p x → linkOf t j = linkOf s j) ∧
    (∀ r ∈ liveStrands s (subKey s p x), strandOf t r = { strandOf s r with due := (strandOf s r).due.filter (fun d => d.1 ≠ f.seq) ++ [(f.seq, s.clock)] }) := by
  have hex := exec_flitTransmit hp hr hx
  rw [transmit_resend h, resent_countSlot] at hex
  generalize hg : ({ stampTime s f with replay := true, sentAt := s.clock } : Flit) = g at hex ⊢
  have hseq : g.seq = f.seq := by
    rw [← hg]
    exact seq_stampTime s f
  have hiu := flt_countSlot hi (subKey s p x) 0
  have hl := linkOf_sendAgain hiu (subKey s p x) p g r
  refine ⟨_, hex, ?_, ?_, ?_, ?_, ?_, ?_, fun j hj => ?_, fun q hq => ?_⟩
  · exact (Keeps.trans (L := 0x3a001) (countSlot_keeps _ _ (.refl _ _ s) rfl) (keeps_sendAgain hiu (subKey s p x) p g r)).eq
  · rw [out_sendAgain hiu, out_countSlot]
  · rw [hl, if_pos rfl]
    rfl
  · rw [hl, if_pos rfl, linkOf_countSlot]
    rfl
  · rw [hl, if_pos rfl, linkOf_countSlot]
    rfl
  · rw [cnt_sendAgain hiu, portOf_countSlot]
  · rw [hl, if_neg hj, linkOf_countSlot]
  · rw [strandOf_sendAgain hiu _ _ _ _ (by rwa [liveStrands_countSlot]), strandOf_countSlot, clock_countSlot, hseq]
    rfl

/-- Else the first new flit allowed. -/
theorem flitTransmit_new {f : Flit} (h : (linkOf s (subKey s p x)).resend = []) (hf : nextFlit (linkOf s (subKey s p x)) = some f) (ht : f.typ ≠ 5)
    (hlen : (linkOf s (subKey s p x)).replay.length < 4096) (hkey : keyGone s (subKey s p x) f = false) : ∃ t, exec (.flitTransmit p x) s = .next t ∧
    t.out = .flit (subKey s p x) { f with seq := (linkOf s (subKey s p x)).txSeq, sentAt := s.clock } 0 :: s.out ∧
    (linkOf t (subKey s p x)).txSeq = (linkOf s (subKey s p x)).txSeq + 1 ∧
    (linkOf t (subKey s p x)).credHeld = tset 0 (linkOf s (subKey s p x)).credHeld f.vc (tget 0 (linkOf s (subKey s p x)).credHeld f.vc - 1) ∧
    (linkOf t (subKey s p x)).replay = (linkOf s (subKey s p x)).replay ++ [{ f with seq := (linkOf s (subKey s p x)).txSeq, sentAt := s.clock }] ∧
    (∀ g pid pk, f.src = some (g, pid) → pktOf s pid = some pk → (pktOf t pid).all (fun x => x.begun) = true) ∧
    (f.src = none → t = { s with out := t.out, dbg := t.dbg, links := t.links, strands := t.strands } ∧ (∀ j, j ≠ subKey s p x → linkOf t j = linkOf s j) ∧
      linkOf t (subKey s p x) = { linkOf s (subKey s p x) with
        txSeq := (linkOf s (subKey s p x)).txSeq + 1, txq := dropFirst f (linkOf s (subKey s p x)).txq
        credHeld := tset 0 (linkOf s (subKey s p x)).credHeld f.vc (tget 0 (linkOf s (subKey s p x)).credHeld f.vc - 1)
        replay := (linkOf s (subKey s p x)).replay ++ [{ f with seq := (linkOf s (subKey s p x)).txSeq, sentAt := s.clock }] }) ∧
    (∀ r ∈ liveStrands s (subKey s p x), strandOf t r = { strandOf s r with
      due := (strandOf s r).due.filter (fun d => d.1 ≠ (linkOf s (subKey s p x)).txSeq) ++ [((linkOf s (subKey s p x)).txSeq, s.clock)] }) := by
  have hex := exec_flitTransmit hp hr hx
  rw [transmit_new h (by rwa [linkOf_countSlot]) (by rwa [keyGone_countSlot]) hlen, sentFirst, stampTime_of_typ ht, clock_countSlot] at hex
  have hiu := flt_countSlot hi (subKey s p x) 0
  generalize hseq : (linkOf s (subKey s p x)).txSeq = n at hex
  obtain ⟨q, hq⟩ := linkOf_sendNew hiu (subKey s p x) f { f with seq := n, sentAt := s.clock }
  rw [linkOf_countSlot] at hq
  refine ⟨_, hex, ?_, ?_, ?_, ?_, fun g pid _ hsrc _ => ?_, fun hsrc => ?_, fun r hr => ?_⟩
  · rw [out_sendNew hiu, out_countSlot]
  · rw [hq, ← hseq]
    rfl
  · rw [hq]
    rfl
  · rw [hq]
    rfl
  · exact (begun_sendNew hiu (subKey s p x) f { f with seq := n, sentAt := s.clock } hsrc).all
  · obtain ⟨hk, hl⟩ := sendNew_link hiu (subKey s p x) f { f with seq := n, sentAt := s.clock } hsrc
    refine ⟨(Keeps.trans (L := 0x32001) (countSlot_keeps _ _ (.refl _ _ s) rfl) hk).eq, fun j hj => ?_, ?_⟩
    · rw [hl, if_neg hj, linkOf_countSlot]
    · rw [hl, if_pos rfl, linkOf_countSlot, sentBook, t3Of_of_typ (f := { f with seq := n, sentAt := s.clock }) _ ht, hseq]
  · rw [strandOf_sendNew hiu _ _ _ (by rwa [liveStrands_countSlot]), strandOf_countSlot, clock_countSlot]
    rfl

/-- Else a NULL flit. -/
theorem flitTransmit_null (h : (linkOf s (subKey s p x)).resend = []) (hn : nextFlit (linkOf s (subKey s p x)) = none ∨
      4096 ≤ (linkOf s (subKey s p x)).replay.length ∧ (∀ f, nextFlit (linkOf s (subKey s p x)) = some f → keyGone s (subKey s p x) f = false)) :
    ∃ t, exec (.flitTransmit p x) s = .next t ∧ t = { s with out := .flit (subKey s p x) (nullFlit s.clock) 0 :: s.out, dbg := t.dbg } := by
  have hex := exec_flitTransmit hp hr hx
  have hkg : keyGone (countSlot (subKey s p x) 0 s) (subKey s p x) = keyGone s (subKey s p x) := funext fun f => keyGone_countSlot ..
  rw [transmit_null h (by rw [linkOf_countSlot, hkg]; exact hn), clock_countSlot, sendFlit_idle (flt_countSlot hi ..)] at hex
  refine ⟨_, hex, ?_⟩
  rw [countSlot_eq]
  rfl

end

/-! ## Slots received -/

section
variable (hp : portOn s p = true) (hr : linkRuns (linkOf s (subKey s p x)) = true) (hq : 4 * p.val + x.val ∈ liveStrands s (subKey s p x))
  (hc : (strandOf s (4 * p.val + x.val)).st ≠ .clock) (slot : BitVec 2048)
include hp hr hq hc

theorem controlSlotReceived_badCrc (h : be (bytesBE 256 slot.toNat) 248 8 ≠ (crc64 ((bytesBE 256 slot.toNat).take 248)).toNat) :
    ∃ t, exec (.controlSlotReceived p x slot) s = .next t ∧ t = { s with ports := t.ports, dbg := t.dbg } ∧ (portOf t p).cnt = bump (portOf s p).cnt 0x100 1 := by
  have hex := exec_controlSlotReceived hp hr hq hc slot
  rw [heedSlot_badCrc h] at hex
  refine ⟨_, hex, ?_, cnt_portCnt ..⟩
  exact (portCnt_keeps (d := true) (L := 0xa000) _ _ _ (countBytes_keeps _ _ (.refl _ _ s) rfl) rfl).eq

theorem controlSlotReceived_badMark (h : be (bytesBE 256 slot.toNat) 248 8 = (crc64 ((bytesBE 256 slot.toNat).take 248)).toNat)
    (hm : be (bytesBE 256 slot.toNat) 0 8 ≠ 0xA5C30FF0E1963C5A) : ∃ t, exec (.controlSlotReceived p x slot) s = .next t ∧ t = { s with dbg := t.dbg } := by
  have hex := exec_controlSlotReceived hp hr hq hc slot
  rw [heedSlot_badMark h hm] at hex
  exact ⟨_, hex, rfl⟩

/-- A good, newer slot on an ACTIVE sub-link whose partner asks for nothing. -/
theorem controlSlotReceived_taken {b : List Byte} (hb : b = bytesBE 256 slot.toNat) (h : be b 248 8 = (crc64 (b.take 248)).toNat) (hm : be b 0 8 = 0xA5C30FF0E1963C5A)
    {c : BitVec 16} (hcsc : (linkOf s (subKey s p x)).cscRx = some c) (hge : seqGe (slotCsc b) c = true) (hne : slotCsc b ≠ c) (hst : (linkOf s (subKey s p x)).st = .active)
    (h9 : byteAt b 9 = 8) (h35 : byteAt b 35 = 0) : ∃ t, exec (.controlSlotReceived p x slot) s = .next t ∧
    t = { s with ports := t.ports, strands := t.strands, links := t.links, dbg := t.dbg } ∧ (∀ j, j ≠ subKey s p x → linkOf t j = linkOf s j) ∧
    linkOf t (subKey s p x) = slotBook b (byteAt b 15 == 1) s.clock (linkOf s (subKey s p x)) ∧
    ((∀ lane ∈ lanesOf s (4 * p.val + x.val), bitOf (slotHealth b) (4 * x.val + laneWl (strandOf s (4 * p.val + x.val)) lane) = true) →
      (strandOf t (4 * p.val + x.val)).due = (strandOf s (4 * p.val + x.val)).due.filter (fun d => !seqGe (slotAck b) d.1)) := by
  subst hb
  have hex := exec_controlSlotReceived hp hr hq hc slot
  generalize hu : countBytes (1024 + 2 * (4 * p.val + x.val) + 1) (2048 * 12) s = u at hex
  have hk : Keeps true 0x3a000 s u := by
    rw [← hu]
    exact countBytes_keeps _ _ (.refl _ _ s) rfl
  have hl (j : Nat) : linkOf u j = linkOf s j := by rw [← hu, linkOf_countBytes]
  have hs (j : Nat) : strandOf u j = strandOf s j := by rw [← hu, strandOf_countBytes]
  have hclock : u.clock = s.clock := hk.only.clock (by decide)
  rw [← hl, heedSlot_taken h hm (by rw [hl, hcsc]) hge hne (by rw [hl, hst]) h9 h35] at hex
  have hlink := linkOf_takeSlot (bytesBE 256 slot.toNat) (subKey s p x) (4 * p.val + x.val) (reportedClean u x (4 * p.val + x.val) (bytesBE 256 slot.toNat)) true u
  refine ⟨_, hex, ?_, fun j hj => ?_, ?_, fun hclean => ?_⟩
  · exact (hk.trans (rotateTx_keeps _ _ (iff_keeps _ (fun _ h => rotateDone_keeps _ h rfl) (iff_keeps _ (fun _ h => replayAll_keeps _ h rfl)
      (iff_keeps _ (fun _ h => modStrand_keeps _ _ h rfl) (modLink_keeps _ _ (modLink_keeps _ _ (modLink_keeps _ _ (.refl _ _ u) rfl) rfl) rfl)))) rfl)).eq
  · rw [hlink, if_neg hj, hl]
  · rw [hlink, if_pos rfl, hl, hclock, Bool.true_and]
  · have hrep : reportedClean u x (4 * p.val + x.val) (bytesBE 256 slot.toNat) = true := by
      unfold reportedClean lanesOf
      rw [hs]
      exact List.all_eq_true.2 hclean
    rw [hrep, due_takeSlot, hs]

end

/-! ## Flits received -/

section
variable (hp : portOn s p = true) (hr : linkRuns (linkOf s (subKey s p x)) = true) (w : BitVec 2048) (errs : List (Fin 544)) (again : Bool)
include hp hr

/-- A flit that is not accepted. -/
theorem flitReceived_refused {b : List Byte} (hb : b = bytesBE 256 w.toNat) (h : rsOk errs = false ∨ be b 248 8 ≠ (crc64 (b.take 248)).toNat ∨
      (flitOfBytes b).typ ≠ 4 ∧ (flitOfBytes b).seq ≠ (linkOf s (subKey s p x)).rxSeq) : ∃ t, exec (.flitReceived p x w errs again) s = .next t ∧
    t = { s with ports := t.ports, dbg := t.dbg, links := t.links, strands := t.strands } ∧ (linkOf t (subKey s p x)).rxSeq = (linkOf s (subKey s p x)).rxSeq ∧
    (linkOf t (subKey s p x)).rxq = (linkOf s (subKey s p x)).rxq ∧ (linkOf t (subKey s p x)).occ = (linkOf s (subKey s p x)).occ ∧
    ((linkOf s (subKey s p x)).nakFor = none → (linkOf t (subKey s p x)).nakPend = true) ∧ (∀ j, j ≠ subKey s p x → linkOf t j = linkOf s j) := by
  subst hb
  have hex := exec_flitReceived hp hr w errs again
  obtain ⟨v, hv, hk, hl⟩ := receive_refused (p := p) (k := subKey s p x) h (keeps_decoded (L := 0x3a000) (subKey s p x) errs again (.refl _ _ s) rfl) rfl
  rw [hv] at hex
  obtain ⟨h1, h2, h3, h4⟩ := linkOf_nak (subKey s p x) v
  rw [hl, linkOf_decoded] at h1 h2 h3 h4
  exact ⟨_, hex, (nak_keeps _ hk rfl).eq, h1, h2, h3, h4, fun j hj => (linkOf_nak_other hj).trans ((hl j).trans (linkOf_decoded ..))⟩

/-- A good SINGLE of an open VC with a buffer. -/
theorem flitReceived_single {b : List Byte} (hb : b = bytesBE 256 w.toNat) (hrs : rsOk errs = true) (hcrc : be b 248 8 = (crc64 (b.take 248)).toNat)
    (hseq : (flitOfBytes b).seq = (linkOf s (subKey s p x)).rxSeq) (hst : (linkOf s (subKey s p x)).st = .active) (ht : (flitOfBytes b).typ = 3) (hv : (flitOfBytes b).vc ≤ 6)
    (h1 : 1 ≤ (flitOfBytes b).len) (h2 : (flitOfBytes b).len ≤ 232) (hf : tget 0 (linkOf s (subKey s p x)).framing (flitOfBytes b).vc = 0)
    (ho : tget 0 (linkOf s (subKey s p x)).occ (flitOfBytes b).vc < tget 0 (linkOf s (subKey s p x)).adv (flitOfBytes b).vc) :
    ∃ t, exec (.flitReceived p x w errs again) s = .next t ∧ t = { s with ports := t.ports, dbg := t.dbg, links := t.links, strands := t.strands } ∧
    linkOf t (subKey s p x) = tookFlit (flitOfBytes b) (linkOf s (subKey s p x)) ∧ (∀ j, j ≠ subKey s p x → linkOf t j = linkOf s j) ∧
    (again = false → (portOf t p).cnt = bump (portOf s p).cnt 0x104 (uniq errs).length) ∧ (again = true → t.ports = s.ports) := by
  subst hb
  have hex := exec_flitReceived hp hr w errs again
  have hlu (j : Nat) := linkOf_decoded (subKey s p x) errs again s j
  rw [← hlu, receive_single hrs hcrc (by rw [hlu, hseq]) (by rw [hlu, hst]) ht hv h1 h2 (by rw [hlu, hf]) (by rw [hlu]; exact ho)] at hex
  have hl := linkOf_single (k := subKey s p x) (f := flitOfBytes (bytesBE 256 w.toNat)) (by omega) (by rw [ht]; decide) (decoded (subKey s p x) errs again s)
  have hports := (keeps_single (k := subKey s p x) (L := 0x22000) ht hv (.refl _ _ (decoded (subKey s p x) errs again s)) rfl).only.ports (by decide)
  refine ⟨_, hex, ?_, ?_, fun j hj => ?_, fun ha => ?_, fun ha => ?_⟩
  · exact (keeps_single ht hv (keeps_decoded (L := 0x3a000) (subKey s p x) errs again (.refl _ _ s) rfl) rfl).eq
  · rw [hl, if_pos rfl, hlu]
  · rw [hl, if_neg hj, hlu]
  · rw [portOf_congr hports, ha]
    have hcnt := cnt_decoded (subKey s p x) hrs s
    rwa [div_of_mem_subKeys (subKey_mem s p x.isLt)] at hcnt
  · rw [hports, ha]
    exact (keeps_decoded_again _ errs s).only.ports (by decide)

end

end

/-- Settles O41: slots and flits sent and received, and the deadline of an acknowledgement. -/
theorem linkFlits : Obligations.LinkFlits := by
  intro p x s hp hi
  refine ⟨fun h => ⟨_, exec_controlSlotSend hp h, sendSlots_idle hi _⟩, exec_controlSlotSend_none, fun hr => ⟨fun slot b hb hq hc => ?slot,
    fun hx => ⟨fun f r h => flitTransmit_resend hi hp hr hx h, fun f h hf ht hlen hkey => flitTransmit_new hi hp hr hx h hf ht hlen hkey, fun h hn => flitTransmit_null hi hp hr hx h hn⟩,
    fun w errs again b f hb hf => ?flit, exec_ackDeadlineMiss_none, fun d more hx hq hd hm => ?miss⟩⟩
  case slot =>
    refine ⟨fun h => ?_, fun h hm => ?_, fun c h hm hcsc hge hne hst h9 h35 => ?_⟩
    · subst hb
      exact controlSlotReceived_badCrc hp hr hq hc slot h
    · subst hb
      exact controlSlotReceived_badMark hp hr hq hc slot h hm
    · obtain ⟨t, hex, hfr, hother, hl, hdue⟩ := controlSlotReceived_taken hp hr hq hc slot hb h hm hcsc hge hne hst h9 h35
      obtain ⟨-, -, hreplay, hnak, hkept⟩ := slotBook_fields b (byteAt b 15 == 1) s.clock (linkOf s (subKey s p x))
      refine ⟨t, hex, hfr, hother, ?_, fun v hv => ?_, fun h15 => ?_, fun h15 => ?_, hdue⟩
      · rw [hl, hreplay]
        rfl
      · rw [hl, credHeld_slotBook b _ _ _ hv]
      · rw [hl, hnak (by simp [h15])]
      · rw [hl, hkept (by simp [h15])]
        rfl
  case flit =>
    subst hf
    refine ⟨fun h => flitReceived_refused hp hr w errs again hb h, fun hrs hcrc hseq hst ht hv h1 h2 hfr ho => ?_⟩
    obtain ⟨t, hex, hfrm, hl, hother, hcnt, hports⟩ := flitReceived_single hp hr w errs again hb hrs hcrc hseq hst ht hv h1 h2 hfr ho
    refine ⟨t, hex, hfrm, ?_, ?_, hother, hcnt, hports⟩
    · rw [hl]
      rfl
    · rw [hl]
      exact tget_tset_eq 0 (linkOf s (subKey s p x)).framing _ 0
  case miss =>
    refine ⟨_, exec_ackDeadlineMiss hp hr hx hq hd hm, keeps_missBooked.eq, ?_, fun j hj => ?_, due_missBooked hq, fun r => ?_, fun r hone hrot => ?_⟩
    · rw [linkOf_missBooked, if_pos rfl]
      rfl
    · rw [linkOf_missBooked, if_neg hj]
    · rw [misses_missBooked]
      split
      · next h => exact .inr ⟨blamed_sub h, rfl⟩
      · exact .inl rfl
    · have hb : blamed s (subKey s p x) = [r] := blamed_one hone hrot
      refine ⟨?_, cnt_missBooked (by rw [hb]; nofun), fun j hj => ?_⟩
      · rw [misses_missBooked, hb, if_pos (List.mem_singleton_self r)]
      · rw [misses_missBooked, hb, if_neg (by simpa using hj)]
        rfl

end Sys2Proof.Machine
end

section
/-! SUPPORT. Queues, schedulers and packets: the tags that a look at the inputs sets, a copy that leaves its queue, and an observation while no
session is set (R142, R151, R153, R166). -/

namespace Sys2Proof.Machine

section
variable {s t : State} {g k d j pid : Nat}

/-! ## A part after it has changed -/

theorem queueOf_modQueue_same (g : Nat) (f : QueueSt → QueueSt) (s : State) : queueOf (modQueue g f s) g = f (queueOf s g) := tget_tmod_eq _ _ _ _

theorem queueOf_modQueue_other (f : QueueSt → QueueSt) (s : State) (h : j ≠ g) : queueOf (modQueue g f s) j = queueOf s j := tget_tmod_ne _ _ _ h

theorem schedOf_modSched_same (k : Nat) (f : SchedSt → SchedSt) (s : State) : schedOf (modSched k f s) k = f (schedOf s k) := tget_tmod_eq _ _ _ _

theorem swcOf_modSwc_same (d : Nat) (f : SwcSt → SwcSt) (s : State) : swcOf (modSwc d f s) d = f (swcOf s d) := tget_tmod_eq _ _ _ _

theorem redOf_modRed_same (x : Nat) (f : RedSt → RedSt) (s : State) : redOf (modRed x f s) x = f (redOf s x) := tget_tmod_eq _ _ _ _

theorem pktOf_modPkt_other (f : Pkt → Pkt) (s : State) (h : j ≠ pid) : pktOf (modPkt pid f s) j = pktOf s j := tget_tmod_ne _ _ _ h

theorem pktOf_setPkt_other (p : Option Pkt) (s : State) (h : j ≠ pid) : pktOf (setPkt pid p s) j = pktOf s j := tget_tset_ne none s.pkts p h

theorem queueOf_congr (h : t.queues = s.queues) (g : Nat) : queueOf t g = queueOf s g := by unfold queueOf; rw [h]

theorem schedOf_congr (h : t.scheds = s.scheds) (k : Nat) : schedOf t k = schedOf s k := by unfold schedOf; rw [h]

theorem swcOf_congr (h : t.swc = s.swc) (d : Nat) : swcOf t d = swcOf s d := by unfold swcOf; rw [h]

theorem pktOf_congr (h : t.pkts = s.pkts) (pid : Nat) : pktOf t pid = pktOf s pid := by unfold pktOf; rw [h]

theorem redOf_congr (h : t.red = s.red) (x : Nat) : redOf t x = redOf s x := by unfold redOf; rw [h]

/-- A field of a switch core that a change leaves. -/
theorem swcOf_modSwc_field {β : Type} (f : SwcSt → β) {u : SwcSt → SwcSt} (hu : ∀ w, f (u w) = f w) (e : Nat) (s : State) (d : Nat) : f (swcOf (modSwc e u s) d) = f (swcOf s d) := by
  by_cases h : d = e
  · subst h
    rw [swcOf_modSwc_same, hu]
  · exact congrArg f (tget_tmod_ne _ _ _ h)

/-! ## The inputs of the schedulers looked at (R166) -/

theorem foldl_field {α β γ : Type} (f : α → γ) {u : α → β → α} (hu : ∀ a b, f (u a b) = f a) (l : List β) (a : α) : f (l.foldl u a) = f a := by
  induction l generalizing a with
  | nil => rfl
  | cons b l ih => exact (ih (u a b)).trans (hu a b)

/-- A queue looked at. -/
def lookQueue (s : State) (k : Nat) (c : SchedSt) (q : Nat) : SchedSt :=
  let el := queueEligible s (8 * k + q)
  let vc := ((List.range 8).find? fun v => q ∈ queuesOfVc s v).getD 0
  let was := tget false c.qAwake q
  let c := if el && !was then { c with qS := tset 0 c.qS q (tagMax (tget 0 c.qF q) (tget 0 c.qV vc)) } else c
  { c with qAwake := tset false c.qAwake q el }

/-- A VC looked at. -/
def lookVc (s : State) (k : Nat) (c : SchedSt) (v : Nat) : SchedSt :=
  let el := vcEligible s k v
  let was := tget false c.vAwake v
  let c := if el && !was then { c with vS := tset 0 c.vS v (tagMax (tget 0 c.vF v) c.vV) } else c
  { c with vAwake := tset false c.vAwake v el }

theorem refresh_eq (k : Nat) (s : State) : refresh k s = modSched k (fun c => (List.range 7).foldl (lookVc s k) ((List.range 8).foldl (lookQueue s k) c)) s := rfl

/-- A look at the inputs leaves what is in progress and the finish tags of the queues. -/
theorem schedOf_refresh (k : Nat) (s : State) : (schedOf (refresh k s) k).cur = (schedOf s k).cur ∧ (schedOf (refresh k s) k).qF = (schedOf s k).qF := by
  have hq (c : SchedSt) (q : Nat) : (lookQueue s k c q).cur = c.cur ∧ (lookQueue s k c q).qF = c.qF := by
    unfold lookQueue
    dsimp only
    split <;> exact ⟨rfl, rfl⟩
  have hv (c : SchedSt) (v : Nat) : (lookVc s k c v).cur = c.cur ∧ (lookVc s k c v).qF = c.qF := by
    unfold lookVc
    dsimp only
    split <;> exact ⟨rfl, rfl⟩
  rw [refresh_eq, schedOf_modSched_same]
  exact ⟨(foldl_field SchedSt.cur (fun c v => (hv c v).1) _ _).trans (foldl_field SchedSt.cur (fun c q => (hq c q).1) _ _),
    (foldl_field SchedSt.qF (fun c v => (hv c v).2) _ _).trans (foldl_field SchedSt.qF (fun c q => (hq c q).2) _ _)⟩

/-! ## A copy leaves its queue (R142) -/

theorem ents_shSync (now : Nat) (q : QueueSt) : (shSync now q).ents = q.ents := (apply_ite QueueSt.ents _ _ _).trans (ite_self _)

/-- The queue of a copy that leaves. -/
def queueWithout (now pid : Nat) (e : QEnt) (cells : Nat) (q : QueueSt) : QueueSt :=
  let q := shSync now q
  let q := if e.guar then { q with gocc := q.gocc - cells } else { q with socc := q.socc - cells }
  shSync now { q with ents := q.ents.filter fun x => x.pid ≠ pid }

theorem ents_queueWithout (now pid : Nat) (e : QEnt) (cells : Nat) (q : QueueSt) : (queueWithout now pid e cells q).ents = q.ents.filter fun x => x.pid ≠ pid := by
  unfold queueWithout
  dsimp only
  rw [ents_shSync]
  split <;> simp only [ents_shSync]

/-- The flits, the queue entry and the reference of a copy are gone. -/
def copyGone (g pid : Nat) (e : QEnt) (p : Pkt) (s : State) : State :=
  modPkt pid (fun p => { p with refs := p.refs - 1 }) (modQueue g (queueWithout s.clock pid e p.cells) (pullFlits g pid s))

/-- The cells of a packet are free again. -/
def cellsBack (p : Pkt) (w : SwcSt) : SwcSt :=
  { w with free := w.free + p.cells, sharedUsed := if p.shared then w.sharedUsed - p.cells else w.sharedUsed,
           queued := if p.opened then w.queued else w.queued - p.cells, opened := if p.opened then w.opened - p.cells else w.opened }

/-- What is still to arrive of a packet will be dropped. -/
def stageGone (pid : Nat) (p : Pkt) (s : State) : State :=
  match p.pos with
  | some k => if p.tailIn then s else setStage k p.vc pid .dropped s
  | none => s

theorem keeps_stageGone (pid : Nat) (p : Pkt) (s : State) : Keeps true 0x1000000 s (stageGone pid p s) := by
  unfold stageGone
  split
  · split
    · exact .refl _ _ s
    · exact setStage_keeps _ _ _ _ (.refl _ _ s) rfl
  · exact .refl _ _ s

/-- With its last copy the packet is gone. -/
def packetGone (d pid : Nat) (p : Pkt) (s : State) : State := setPkt pid none (stageGone pid p (modSwc d (cellsBack p) s))

theorem unlink_found {e : QEnt} {p : Pkt} (he : (queueOf s g).ents.find? (fun e => e.pid = pid) = some e) (hp : pktOf s pid = some p) :
    unlink g pid s = if p.refs ≤ 1 then packetGone (qdie g) pid p (copyGone g pid e p s) else copyGone g pid e p s := by
  unfold unlink
  rw [he, hp]
  rfl

theorem unlink_not_found (h : (queueOf s g).ents.find? (fun e => e.pid = pid) = none ∨ pktOf s pid = none) : unlink g pid s = s := by
  unfold unlink
  rcases h with h | h
  · rw [h]
  · rw [h]
    split
    · next hp => cases hp
    · rfl

theorem queues_packetGone (d pid : Nat) (p : Pkt) (s : State) : (packetGone d pid p s).queues = s.queues := (keeps_stageGone pid p _).only.queues (by decide)

theorem pktOf_packetGone_other (d : Nat) (p : Pkt) (h : j ≠ pid) : pktOf (packetGone d pid p s) j = pktOf s j :=
  (pktOf_setPkt_other none _ h).trans (pktOf_congr ((keeps_stageGone pid p _).only.pkts (by decide)) j)

theorem swcOf_packetGone (d pid : Nat) (p : Pkt) (s : State) (j : Nat) : swcOf (packetGone d pid p s) j = swcOf (modSwc d (cellsBack p) s) j :=
  swcOf_congr ((keeps_stageGone pid p _).only.swc (by decide)) j

theorem queueOf_copyGone_same (g pid : Nat) (e : QEnt) (p : Pkt) (s : State) : queueOf (copyGone g pid e p s) g = queueWithout s.clock pid e p.cells (queueOf s g) :=
  queueOf_modQueue_same g (queueWithout s.clock pid e p.cells) (pullFlits g pid s)

theorem queueOf_copyGone_other (e : QEnt) (p : Pkt) (h : j ≠ g) : queueOf (copyGone g pid e p s) j = queueOf s j :=
  queueOf_modQueue_other (queueWithout s.clock pid e p.cells) (pullFlits g pid s) h

theorem swc_copyGone (g pid : Nat) (e : QEnt) (p : Pkt) (s : State) : (copyGone g pid e p s).swc = s.swc := by
  simp only [copyGone, pullFlits, modPkt_swc, modQueue_swc, modSched_swc, modLink_swc]

theorem pktOf_copyGone_other (g : Nat) (e : QEnt) (p : Pkt) (h : j ≠ pid) : pktOf (copyGone g pid e p s) j = pktOf s j :=
  pktOf_modPkt_other _ (modQueue g (queueWithout s.clock pid e p.cells) (pullFlits g pid s)) h

/-- The queue of a copy that has left. -/
theorem ents_unlink {e : QEnt} {p : Pkt} (he : (queueOf s g).ents.find? (fun e => e.pid = pid) = some e) (hp : pktOf s pid = some p) :
    (queueOf (unlink g pid s) g).ents = (queueOf s g).ents.filter fun x => x.pid ≠ pid := by
  have hc : (queueOf (copyGone g pid e p s) g).ents = (queueOf s g).ents.filter fun x => x.pid ≠ pid := by
    rw [queueOf_copyGone_same, ents_queueWithout]
  rw [unlink_found he hp]
  split
  · rw [queueOf_congr (queues_packetGone ..), hc]
  · exact hc

/-- Of the state, what a copy that leaves does not change: the other queues and packets, and what the switch cores hold but for cells. -/
structure Left (g pid : Nat) (s t : State) : Prop where
  queue : ∀ j, j ≠ g → queueOf t j = queueOf s j
  pkt : ∀ j, j ≠ pid → pktOf t j = pktOf s j
  core : ∀ d, (swcOf t d).sess = (swcOf s d).sess ∧ (swcOf t d).age = (swcOf s d).age

theorem left_unlink (g pid : Nat) (s : State) : Left g pid s (unlink g pid s) := by
  by_cases h : (queueOf s g).ents.find? (fun e => e.pid = pid) = none ∨ pktOf s pid = none
  · rw [unlink_not_found h]
    exact ⟨fun _ _ => rfl, fun _ _ => rfl, fun _ => ⟨rfl, rfl⟩⟩
  · obtain ⟨he, hp⟩ := not_or.1 h
    obtain ⟨e, he⟩ := Option.ne_none_iff_exists'.1 he
    obtain ⟨p, hp⟩ := Option.ne_none_iff_exists'.1 hp
    have hcopy : Left g pid s (copyGone g pid e p s) := by
      refine ⟨fun _ hj => queueOf_copyGone_other e p hj, fun _ hj => pktOf_copyGone_other g e p hj, fun d => ?_⟩
      rw [swcOf_congr (swc_copyGone ..)]
      exact ⟨rfl, rfl⟩
    rw [unlink_found he hp]
    split
    · refine ⟨fun j hj => ?_, fun j hj => ?_, fun d => ?_⟩
      · rw [queueOf_congr (queues_packetGone ..), hcopy.queue j hj]
      · rw [pktOf_packetGone_other _ _ hj, hcopy.pkt j hj]
      · obtain ⟨hsess, hage⟩ := hcopy.core d
        rw [swcOf_packetGone]
        exact ⟨(swcOf_modSwc_field SwcSt.sess (u := cellsBack p) (fun _ => rfl) _ _ d).trans hsess,
          (swcOf_modSwc_field SwcSt.age (u := cellsBack p) (fun _ => rfl) _ _ d).trans hage⟩
    · exact hcopy

/-- A copy none of whose flits waits leaves no sub-link changed. -/
theorem linkOf_unlink_same (h : ∀ f ∈ (linkOf s (g / 8)).txq, f.src ≠ some (g, pid)) (j : Nat) : linkOf (unlink g pid s) j = linkOf s j := by
  rcases unlink_links g pid s with hl | hl
  · exact linkOf_congr hl j
  · have hp : linkOf (pullFlits g pid s) j = linkOf (modLink (g / 8) (withoutCopy g pid) s) j := linkOf_congr rfl j
    rw [linkOf_congr hl, hp]
    by_cases hj : j = g / 8
    · subst hj
      rw [linkOf_modLink_same, withoutCopy, List.filter_eq_self.2 fun f hf => bne_iff_ne.2 (h f hf)]
    · exact linkOf_modLink_other _ hj

/-! ## Nothing observes (R153) -/

theorem observe_quiet {pos : Nat} (h : (swcOf s (dieOf pos)).sess = []) (dir : Nat) (dropped : Bool) (p : Pkt) : observe pos dir dropped p s = ([], s) := by
  simp only [observe, h, List.filterMap_nil, List.foldl_nil, ite_self]

/-- A drop that nothing observes changes nothing of a packet. -/
theorem mirrorDrop_quiet {pos : Nat} (h : (swcOf s (dieOf pos)).sess = []) (pid : Nat) {L : Nat} (hk : Keeps true L t s) (m : May 0x1000000 L) :
    Keeps true L t (mirrorDrop pos pid s) := by
  unfold mirrorDrop
  split
  · exact hk
  · next p _ =>
    rw [observe_quiet h]
    dsimp only
    split
    · split
      · exact hk
      · exact setStaging_keeps _ _ _ hk (m.sub rfl)
    · exact hk

/-- A queue all of whose packets are granted has no head to judge. -/
theorem newHead_granted (h : headEnt (queueOf s g) = none) : newHead g s = s := by
  unfold newHead
  cases (queueOf s g).ents.length with
  | zero => rfl
  | succ n =>
    unfold ageHead
    rw [h]

end

end Sys2Proof.Machine
end

section
/-! QUEUE_GRANT: the packet at the head of a queue is granted, or dropped for its key (R94, R151, R153, R166). -/

namespace Sys2Proof.Machine

section
variable {s t : State} {k q : Nat} {e : QEnt} {y : Pkt}

/-! ## What a grant makes of a packet without extensions -/

theorem extOfType_nil (h : Hdr) (n : Nat) : extOfType h [] n = none := by simp [extOfType]

theorem leavePkt_plain (hsw : (linkOf s k).peerSwitch = true) (hx : y.exts = []) (res : Nat) : leavePkt s k q res y = y := by
  have hn : extOfType y.hdr y.exts 2 = none := by rw [hx, extOfType_nil]
  unfold leavePkt
  rw [hn, hsw]
  rfl

/-- The tags of a grant, and the packet in progress. -/
def grantTags (vc q n weight nextPid : Nat) (cur : Cur) (c : SchedSt) : SchedSt :=
  { c with qV := tset 0 c.qV vc (tget 0 c.qS q), qF := tset 0 c.qF q (tget 0 c.qS q + tagInc n weight), qS := tset 0 c.qS q (tget 0 c.qS q + tagInc n weight),
           cur := tset { q := 0, pid := nextPid } c.cur vc cur }

/-- The entry of a packet is granted. -/
def grantEnt (pid : Nat) (x : QueueSt) : QueueSt := { x with ents := x.ents.map fun z => if z.pid = pid then { z with granted := true } else z }

/-- A grant booked in the scheduler and the queue. -/
def grantMarked (k vc q : Nat) (e : QEnt) (y : Pkt) (s : State) : State :=
  modQueue (8 * k + q) (grantEnt e.pid) (modSched k (grantTags vc q (flitsOf (pktTotal y)) (qWeight s (8 * k + q)) s.nextPid { q := 8 * k + q, pid := e.pid })
    (modPkt e.pid (fun _ => y) s))

/-- A grant counted. -/
def grantCounted (k q : Nat) (e : QEnt) (y : Pkt) (delay : Nat) (s : State) : State :=
  countBytes (2 * dieOf k + 1) (256 * y.cells) (swcInject (dieOf k) 0 (swcCnt (dieOf k) (if e.cut && !y.tailIn then 0x41C else 0x420) 1 (histSample (8 * k + q) true delay s)))

theorem swcInject_idle (h : s.flt.injActive = false) (d chk : Nat) : swcInject d chk s = s := by
  have hf : injFire 2 d chk s = (none, s) := if_neg (by simp [h])
  unfold swcInject
  rw [hf]

theorem keeps_grantCounted {L : Nat} (hk : Keeps true L t s) (m : May 0x82000 L) (hi : s.flt.injActive = false) (k q : Nat) (e : QEnt) (y : Pkt) (delay : Nat) :
    Keeps true L t (grantCounted k q e y delay s) := by
  have hflt : (swcCnt (dieOf k) (if e.cut && !y.tailIn then 0x41C else 0x420) 1 (histSample (8 * k + q) true delay s)).flt = s.flt :=
    (swcCnt_keeps (d := true) (L := 0x80000) _ _ _ (histSample_keeps _ _ _ (.refl _ _ s) rfl) rfl).only.flt (by decide)
  rw [grantCounted, swcInject_idle (by rwa [hflt])]
  exact countBytes_keeps _ _ (swcCnt_keeps _ _ _ (histSample_keeps _ _ _ hk (m.sub rfl)) (m.sub rfl)) (m.sub rfl)

/-- A field of a switch core that is no count. -/
theorem swcOf_swcCnt {β : Type} (f : SwcSt → β) (hf : ∀ (w : SwcSt) (c : Tbl Word), f { w with cnt := c } = f w) (d ofs n : Nat) (s : State) (j : Nat) :
    f (swcOf (swcCnt d ofs n s) j) = f (swcOf s j) := swcOf_modSwc_field f (u := fun x => { x with cnt := bump x.cnt ofs n }) (fun w => hf w _) d s j

theorem sess_histSample (g : Nat) (delay : Bool) (n : Nat) (s : State) (d : Nat) : (swcOf (histSample g delay n s) d).sess = (swcOf s d).sess := by
  refine each_field (fun a => (swcOf a d).sess) fun h a => swcOf_modSwc_field SwcSt.sess (fun w => ?_) _ a d
  dsimp only
  split
  · cases delay <;> rfl
  · rfl

theorem sess_grantCounted (hi : s.flt.injActive = false) (k q : Nat) (e : QEnt) (y : Pkt) (delay d : Nat) :
    (swcOf (grantCounted k q e y delay s) d).sess = (swcOf s d).sess := by
  have hflt : (swcCnt (dieOf k) (if e.cut && !y.tailIn then 0x41C else 0x420) 1 (histSample (8 * k + q) true delay s)).flt = s.flt :=
    (swcCnt_keeps (d := true) (L := 0x80000) _ _ _ (histSample_keeps _ _ _ (.refl _ _ s) rfl) rfl).only.flt (by decide)
  rw [grantCounted, swcInject_idle (by rwa [hflt])]
  refine Eq.trans ?_ (sess_histSample (8 * k + q) true delay s d)
  exact swcOf_swcCnt SwcSt.sess (fun _ _ => rfl) ..

/-! ## A grant -/

/-- The state of a grant that nothing observes, before the schedulers' inputs are looked at. -/
def grantedState (k vc q : Nat) (e : QEnt) (y : Pkt) (delay : Nat) (s : State) : State :=
  let u := grantCounted k q e y delay (grantMarked k vc q e y s)
  if y.tailIn then u else modPkt e.pid (fun x => { x with obs := x.obs ++ [] }) u

/-- The end of a grant: copies of what was observed, and the queue's new head. -/
def grantEnd (k q pid : Nat) (y : Pkt) (r : List Obs × State) : State :=
  refresh k (newHead (8 * k + q) (if y.tailIn then each r.1 formCopy r.2 else modPkt pid (fun x => { x with obs := x.obs ++ r.1 }) r.2))

theorem grantMarked_flt (vc : Nat) : (grantMarked k vc q e y s).flt = s.flt := by
  simp only [grantMarked, modQueue_flt, modSched_flt, modPkt_flt]

theorem grantMarked_swc (vc : Nat) : (grantMarked k vc q e y s).swc = s.swc := by
  simp only [grantMarked, modQueue_swc, modSched_swc, modPkt_swc]

section
variable (he : headEnt (queueOf s (8 * k + q)) = some e) (hy : pktOf s e.pid = some y)
include he hy

/-- A grant of what the packet becomes, y1, once the observation is made. -/
theorem grantQueue_granted (h : (!(linkOf s k).peerSwitch && !keyAllowed s k (egressKey y) true) = false) (vc : Nat) {y1 : Pkt}
    (hy1 : (if y.mcast then y else leavePkt s k q (steadyNs s - e.linkedAt) y) = y1) :
    ∃ delay, grantQueue k vc q s = grantEnd k q e.pid y1 (observe k 1 false y1 (grantCounted k q e y delay (grantMarked k vc q e y1 s))) := by
  subst hy1
  refine ⟨steadyNs (grantMarked k vc q e (if y.mcast then y else leavePkt s k q (steadyNs s - e.linkedAt) y) s) - y.stamp, ?_⟩
  unfold grantQueue
  dsimp only
  rw [he]
  dsimp only
  rw [hy]
  dsimp only
  rw [h]
  rfl

/-- Toward a switch the packet is granted. -/
theorem grantQueue_switch (hi : s.flt.injActive = false) (hsw : (linkOf s k).peerSwitch = true) (hx : y.exts = []) (hsess : (swcOf s (dieOf k)).sess = []) (vc : Nat) :
    ∃ delay, grantQueue k vc q s = refresh k (newHead (8 * k + q) (grantedState k vc q e y delay s)) := by
  obtain ⟨delay, hg⟩ := grantQueue_granted he hy (by rw [hsw]; rfl) vc (show _ = y by rw [leavePkt_plain hsw hx, ite_self])
  refine ⟨delay, hg.trans ?_⟩
  rw [observe_quiet]
  · rfl
  · rw [sess_grantCounted (by rwa [grantMarked_flt]), swcOf_congr (grantMarked_swc vc), hsess]

/-- Outside its key a packet toward an endpoint is dropped. -/
theorem grantQueue_key (hsw : (linkOf s k).peerSwitch = false) (hkey : keyAllowed s k (egressKey y) true = false) (vc : Nat) :
    grantQueue k vc q s = refresh k (newHead (8 * k + q) (unlink (8 * k + q) e.pid (portCnt (k / 4) 0x140 1 (mirrorDrop k e.pid s)))) := by
  unfold grantQueue
  dsimp only
  rw [he]
  dsimp only
  rw [hy]
  dsimp only
  rw [hsw, hkey]
  rfl

end

/-! ## What a grant leaves behind -/

theorem keeps_grantMarked (k vc q : Nat) (e : QEnt) (y : Pkt) (s : State) : Keeps true 0x700000 s (grantMarked k vc q e y s) :=
  modQueue_keeps _ _ (modSched_keeps _ _ (modPkt_keeps _ _ (.refl _ _ s) rfl) rfl) rfl

theorem keeps_grantedState (hi : s.flt.injActive = false) (k vc q : Nat) (e : QEnt) (y : Pkt) (delay : Nat) : Keeps true 0x782000 s (grantedState k vc q e y delay s) := by
  have hm : Keeps true 0x782000 s (grantMarked k vc q e y s) := modQueue_keeps _ _ (modSched_keeps _ _ (modPkt_keeps _ _ (.refl _ _ s) rfl) rfl) rfl
  have hg := hm.trans (keeps_grantCounted (L := 0x782000) (.refl _ _ _) rfl (by rwa [grantMarked_flt]) k q e y delay)
  unfold grantedState
  dsimp only
  split
  · exact hg
  · exact modPkt_keeps _ _ hg rfl

/-- A grant as far as counting and what was observed change it. -/
theorem grantedState_tables (hi : s.flt.injActive = false) (k vc q : Nat) (e : QEnt) (y : Pkt) (delay : Nat) :
    (grantedState k vc q e y delay s).queues = (grantMarked k vc q e y s).queues ∧ (grantedState k vc q e y delay s).scheds = (grantMarked k vc q e y s).scheds ∧
    pktOf (grantedState k vc q e y delay s) e.pid = pktOf (grantMarked k vc q e y s) e.pid := by
  have hg := keeps_grantCounted (L := 0x82000) (.refl _ _ (grantMarked k vc q e y s)) rfl (by rwa [grantMarked_flt]) k q e y delay
  have hq := hg.only.queues (by decide)
  have hs := hg.only.scheds (by decide)
  have hp := pktOf_congr (hg.only.pkts (by decide)) e.pid
  unfold grantedState
  dsimp only
  split
  · exact ⟨hq, hs, hp⟩
  · refine ⟨by rw [modPkt_queues, hq], by rw [modPkt_scheds, hs], ?_⟩
    rw [pktOf_modPkt_same, ← hp]
    cases pktOf (grantCounted k q e y delay (grantMarked k vc q e y s)) e.pid with
    | none => rfl
    | some z => simp only [Option.map_some, List.append_nil]

theorem queueOf_grantMarked (k vc q : Nat) (e : QEnt) (y : Pkt) (s : State) : queueOf (grantMarked k vc q e y s) (8 * k + q) = grantEnt e.pid (queueOf s (8 * k + q)) :=
  queueOf_modQueue_same ..

theorem schedOf_grantMarked (k vc q : Nat) (e : QEnt) (y : Pkt) (s : State) :
    schedOf (grantMarked k vc q e y s) k = grantTags vc q (flitsOf (pktTotal y)) (qWeight s (8 * k + q)) s.nextPid { q := 8 * k + q, pid := e.pid } (schedOf s k) :=
  schedOf_modSched_same ..

theorem pktOf_grantMarked (hy : pktOf s e.pid = some y) (k vc q : Nat) : pktOf (grantMarked k vc q e y s) e.pid = some y := by
  have h : pktOf (grantMarked k vc q e y s) e.pid = pktOf (modPkt e.pid (fun _ => y) s) e.pid := pktOf_congr rfl _
  rw [h, pktOf_modPkt_same, hy]
  rfl

end

end Sys2Proof.Machine
end

section
/-! QUEUE_GRANT as a row: the packet granted toward a switch, and dropped for its key toward an endpoint (R94, R166). -/

namespace Sys2Proof.Machine

section
variable {s t : State} {k q : Nat} {e : QEnt} {y : Pkt}

theorem refresh_only (k : Nat) (s : State) : ∃ z, refresh k s = { s with scheds := z } := ⟨_, rfl⟩

/-- A look at the schedulers' inputs leaves what is looked at. -/
theorem refresh_inputs (k : Nat) (s : State) (g : Nat) :
    queueEligible (refresh k s) g = queueEligible s g ∧ queueOf (refresh k s) g = queueOf s g ∧ (∀ j, linkOf (refresh k s) j = linkOf s j) ∧
    (∀ pid, pktOf (refresh k s) pid = pktOf s pid) ∧ ∀ d, swcOf (refresh k s) d = swcOf s d := by
  obtain ⟨z, hz⟩ := refresh_only k s
  rw [hz]
  exact ⟨rfl, rfl, fun _ => rfl, fun _ => rfl, fun _ => rfl⟩

theorem exec_queueGrant_busy (p : Port) (x : Strand) (v : Vc) (h : (schedOf s (subKey s p x)).cur.any (fun e => e.1 == v.val) = true) :
    exec (.queueGrant p x v) s = .next s := congrArg Host.Outcome.next (if_pos (by rw [h, Bool.or_true]))

theorem exec_queueGrant (p : Port) (x : Strand) (v : Vc) (hv : vcOpen s (subKey s p x) v = true) (hc : (schedOf s (subKey s p x)).cur.any (fun e => e.1 == v.val) = false)
    (hq : leastTag (fun q => tget 0 (schedOf (refresh (subKey s p x) s) (subKey s p x)).qS q) ((queuesOfVc s v).filter fun q => queueEligible s (8 * subKey s p x + q)) = some q) :
    exec (.queueGrant p x v) s = .next (grantQueue (subKey s p x) v q (refresh (subKey s p x) s)) := by
  have hf : leastTag (fun q => tget 0 (schedOf (refresh (subKey s p x) s) (subKey s p x)).qS q)
      ((queuesOfVc (refresh (subKey s p x) s) v).filter fun q => queueEligible (refresh (subKey s p x) s) (8 * subKey s p x + q)) = some q := by
    rw [← hq]
    refine congrArg _ ?_
    refine List.filter_congr fun q _ => ?_
    rw [(refresh_inputs (subKey s p x) s _).1]
  have hr : execQueueGrant p x v s = .next (match leastTag (fun q => tget 0 (schedOf (refresh (subKey s p x) s) (subKey s p x)).qS q)
      ((queuesOfVc (refresh (subKey s p x) s) v).filter fun q => queueEligible (refresh (subKey s p x) s) (8 * subKey s p x + q)) with
      | some q => grantQueue (subKey s p x) v q (refresh (subKey s p x) s)
      | none => refresh (subKey s p x) s) := congrArg Host.Outcome.next (if_neg (by rw [hv, hc]; decide))
  rw [hf] at hr
  exact hr

/-- The queue granted is one of the VC's. -/
theorem leastTag_mem {tag : Nat → BitVec 40} {l : List Nat} (h : leastTag tag l = some q) : q ∈ l := by
  induction l generalizing q with
  | nil => cases h
  | cons a l ih =>
    unfold leastTag at h
    split at h
    · cases h
      exact List.mem_cons_self
    · next y hy =>
      split at h <;> cases h
      · exact List.mem_cons_self
      · exact List.mem_cons_of_mem _ (ih hy)

theorem headEnt_single (he : (queueOf s (8 * k + q)).ents = [e]) (hg : e.granted = false) : headEnt (queueOf s (8 * k + q)) = some e := by
  unfold headEnt
  rw [he]
  exact List.find?_cons_of_pos (by simp [hg])

theorem headEnt_granted (he : (queueOf s k).ents = [{ e with granted := true }]) : headEnt (queueOf s k) = none := by
  unfold headEnt
  rw [he]
  rfl

theorem ents_grantEnt {z : QueueSt} (h : z.ents = [e]) : (grantEnt e.pid z).ents = [{ e with granted := true }] := by
  unfold grantEnt
  rw [h]
  exact congrArg (fun a => [a]) (if_pos rfl)

/-- Toward a switch: the packet is granted and in progress, and its queue's finish tag grows. -/
theorem grantQueue_granted_only (hi : s.flt.injActive = false) (he : (queueOf s (8 * k + q)).ents = [e]) (hg : e.granted = false) (hy : pktOf s e.pid = some y)
    (hx : y.exts = []) (hsess : (swcOf s (dieOf k)).sess = []) (hsw : (linkOf s k).peerSwitch = true) (vc : Nat) :
    ∃ t, grantQueue k vc q s = t ∧ (queueOf t (8 * k + q)).ents = [{ e with granted := true }] ∧
      tget { q := 0, pid := s.nextPid } (schedOf t k).cur vc = { q := 8 * k + q, pid := e.pid } ∧
      tget 0 (schedOf t k).qF q = tget 0 (schedOf s k).qS q + tagInc (flitsOf (pktTotal y)) (qWeight s (8 * k + q)) ∧ pktOf t e.pid = some y ∧
      Keeps true 0x782000 s t := by
  obtain ⟨delay, hgq⟩ := grantQueue_switch (headEnt_single he hg) hy hi hsw hx hsess vc
  obtain ⟨hqs, hss, hps⟩ := grantedState_tables hi k vc q e y delay
  have hents : (queueOf (grantedState k vc q e y delay s) (8 * k + q)).ents = [{ e with granted := true }] := by
    rw [queueOf_congr hqs, queueOf_grantMarked, ents_grantEnt he]
  obtain ⟨hcur, hqF⟩ := schedOf_refresh k (grantedState k vc q e y delay s)
  obtain ⟨-, hrq, -, hrp, -⟩ := refresh_inputs k (grantedState k vc q e y delay s) (8 * k + q)
  rw [newHead_granted (headEnt_granted hents)] at hgq
  refine ⟨_, hgq, ?_, ?_, ?_, ?_, refresh_keeps _ (keeps_grantedState hi k vc q e y delay) rfl⟩
  · rw [hrq, hents]
  · rw [hcur, schedOf_congr hss, schedOf_grantMarked]
    exact tget_tset_eq _ _ _ _
  · rw [hqF, schedOf_congr hss, schedOf_grantMarked]
    exact tget_tset_eq _ _ _ _
  · rw [hrp, hps, pktOf_grantMarked hy]

/-- Toward an endpoint outside the packet's key: it is dropped and counted. -/
theorem grantQueue_dropped (he : (queueOf s (8 * k + q)).ents = [e]) (hg : e.granted = false) (hy : pktOf s e.pid = some y) (hq : q < 8)
    (hsess : (swcOf s (dieOf k)).sess = []) (hsw : (linkOf s k).peerSwitch = false) (hkey : keyAllowed s k (egressKey y) true = false)
    (htx : ∀ f ∈ (linkOf s k).txq, f.src ≠ some (8 * k + q, e.pid)) (vc : Nat) :
    ∃ t, grantQueue k vc q s = t ∧ (queueOf t (8 * k + q)).ents = [] ∧ (portOf t (k / 4)).cnt = bump (portOf s (k / 4)).cnt 0x140 1 ∧ (∀ j, linkOf t j = linkOf s j) ∧
      Keeps true 0x17a8000 s t := by
  have hgq := grantQueue_key (headEnt_single he hg) hy hsw hkey vc
  have hm : Keeps true 0x1000000 s (mirrorDrop k e.pid s) := mirrorDrop_quiet hsess e.pid (.refl _ _ s) rfl
  have hp : Keeps true 0x1008000 s (portCnt (k / 4) 0x140 1 (mirrorDrop k e.pid s)) := portCnt_keeps _ _ _ (mirrorDrop_quiet hsess e.pid (.refl _ _ s) rfl) rfl
  have hpk : Keeps true 0x17a8000 s (portCnt (k / 4) 0x140 1 (mirrorDrop k e.pid s)) := portCnt_keeps _ _ _ (mirrorDrop_quiet hsess e.pid (.refl _ _ s) rfl) rfl
  have hcnt : (portOf (portCnt (k / 4) 0x140 1 (mirrorDrop k e.pid s)) (k / 4)).cnt = bump (portOf s (k / 4)).cnt 0x140 1 := by
    rw [cnt_portCnt, portOf_congr (hm.only.ports (by decide))]
  generalize portCnt (k / 4) 0x140 1 (mirrorDrop k e.pid s) = u at hgq hp hpk hcnt
  have hqu : queueOf u (8 * k + q) = queueOf s (8 * k + q) := queueOf_congr (hp.only.queues (by decide)) _
  have hlu (j : Nat) : linkOf u j = linkOf s j := linkOf_congr (hp.only.links (by decide)) j
  have hpu : pktOf u e.pid = some y := by rw [pktOf_congr (hp.only.pkts (by decide)), hy]
  have hents : (queueOf (unlink (8 * k + q) e.pid u) (8 * k + q)).ents = [] := by
    rw [ents_unlink (e := e) (by rw [hqu, he]; exact List.find?_cons_of_pos (by simp)) hpu, hqu, he]
    exact List.filter_cons_of_neg (by simp)
  have hdiv : (8 * k + q) / 8 = k := by omega
  have hlinks (j : Nat) : linkOf (unlink (8 * k + q) e.pid u) j = linkOf s j := by
    rw [linkOf_unlink_same (by rw [hdiv, hlu]; exact htx), hlu]
  have hk : Keeps true 0x17a8000 s (unlink (8 * k + q) e.pid u) := unlink_keeps _ _ hpk rfl
  have hports : (portOf (unlink (8 * k + q) e.pid u) (k / 4)).cnt = bump (portOf s (k / 4)).cnt 0x140 1 := by
    rw [portOf_congr ((unlink_keeps (L := 0x17a0000) (8 * k + q) e.pid (.refl true _ u) rfl).only.ports (by decide)), hcnt]
  rw [newHead_granted (by unfold headEnt; rw [hents]; rfl)] at hgq
  obtain ⟨-, hrq, hrl, -, -⟩ := refresh_inputs k (unlink (8 * k + q) e.pid u) (8 * k + q)
  refine ⟨_, hgq, ?_, ?_, fun j => ?_, refresh_keeps _ hk rfl⟩
  · rw [hrq, hents]
  · rw [portOf_congr ((keeps_refresh k _).only.ports (by decide)), hports]
  · rw [hrl, hlinks]

/-! ## The row -/

theorem lt_of_queuesOfVc {v : Nat} (h : q ∈ queuesOfVc s v) : q < 8 := List.mem_range.1 (List.mem_of_mem_filter h)

section
variable {p : Port} {x : Strand} {v : Vc}
variable (hv : vcOpen s (subKey s p x) v = true) (hc : (schedOf s (subKey s p x)).cur.any (fun e => e.1 == v.val) = false)
  (hq : leastTag (fun q => tget 0 (schedOf (refresh (subKey s p x) s) (subKey s p x)).qS q) ((queuesOfVc s v).filter fun q => queueEligible s (8 * subKey s p x + q)) = some q)
  (he : (queueOf s (8 * subKey s p x + q)).ents = [e]) (hg : e.granted = false) (hy : pktOf s e.pid = some y) (hsess : (swcOf s (dieOf (subKey s p x))).sess = [])
include hv hc hq he hg hy hsess

theorem queueGrant_switch (hi : s.flt.injActive = false) (hx : y.exts = []) (hsw : (linkOf s (subKey s p x)).peerSwitch = true) :
    ∃ t, exec (.queueGrant p x v) s = .next t ∧ (queueOf t (8 * subKey s p x + q)).ents = [{ e with granted := true }] ∧
      tget { q := 0, pid := s.nextPid } (schedOf t (subKey s p x)).cur v = { q := 8 * subKey s p x + q, pid := e.pid } ∧
      tget 0 (schedOf t (subKey s p x)).qF q =
        tget 0 (schedOf (refresh (subKey s p x) s) (subKey s p x)).qS q + tagInc (flitsOf (pktTotal y)) (qWeight s (8 * subKey s p x + q)) ∧ pktOf t e.pid = some y ∧
      t = { s with dbg := t.dbg, swc := t.swc, queues := t.queues, scheds := t.scheds, pkts := t.pkts } := by
  have hk : Keeps true 0x782000 s (refresh (subKey s p x) s) := refresh_keeps _ (.refl _ _ s) rfl
  obtain ⟨-, hrq, hrl, hrp, hrs⟩ := refresh_inputs (subKey s p x) s (8 * subKey s p x + q)
  have hex := exec_queueGrant p x v hv hc hq
  have hw : qWeight (refresh (subKey s p x) s) (8 * subKey s p x + q) = qWeight s (8 * subKey s p x + q) := by unfold qWeight; rw [hrq]
  have hn : (refresh (subKey s p x) s).nextPid = s.nextPid := hk.only.nextPid (by decide)
  have hf : (refresh (subKey s p x) s).flt = s.flt := hk.only.flt (by decide)
  rw [← hw, ← hn]
  obtain ⟨t, hgt, hents, hcur, hqF, hpkt, hkt⟩ := grantQueue_granted_only (s := refresh (subKey s p x) s) (k := subKey s p x) (q := q) (e := e) (y := y)
    (by rwa [hf]) (by rwa [hrq]) hg (by rwa [hrp]) hx (by rwa [hrs]) (by rwa [hrl]) v
  exact ⟨t, by rw [hex, hgt], hents, hcur, hqF, hpkt, (hk.trans hkt).eq⟩

theorem queueGrant_key (hsw : (linkOf s (subKey s p x)).peerSwitch = false) (hkey : keyAllowed s (subKey s p x) (egressKey y) true = false)
    (htx : ∀ f ∈ (linkOf s (subKey s p x)).txq, f.src ≠ some (8 * subKey s p x + q, e.pid)) :
    ∃ t, exec (.queueGrant p x v) s = .next t ∧ (queueOf t (8 * subKey s p x + q)).ents = [] ∧
      (portOf t (subKey s p x / 4)).cnt = bump (portOf s (subKey s p x / 4)).cnt 0x140 1 ∧ (∀ j, linkOf t j = linkOf s j) ∧ t.mem = s.mem := by
  have hk := keeps_refresh (subKey s p x) s
  obtain ⟨-, hrq, hrl, hrp, hrs⟩ := refresh_inputs (subKey s p x) s (8 * subKey s p x + q)
  obtain ⟨t, hgt, hents, hcnt, hlink, hkt⟩ := grantQueue_dropped (s := refresh (subKey s p x) s) (k := subKey s p x) (q := q) (e := e) (y := y)
    (by rwa [hrq]) hg (by rwa [hrp]) (lt_of_queuesOfVc (List.mem_of_mem_filter (leastTag_mem hq))) (by rwa [hrs]) (by rwa [hrl]) hkey (by rwa [hrl]) v
  refine ⟨t, by rw [exec_queueGrant p x v hv hc hq, hgt], hents, ?_, fun j => by rw [hlink, hrl], ?_⟩
  · rw [hcnt, portOf_congr (hk.only.ports (by decide))]
  · rw [hkt.only.mem (by decide), hk.only.mem (by decide)]

end

end

end Sys2Proof.Machine
end

section
/-! VC_GRANT: one flit of the packet in progress (R42, R166). -/

namespace Sys2Proof.Machine

section
variable {s : State} {k v n : Nat} {c : Cur} {e : QEnt} {y : Pkt}

/-! ## The flit built -/

/-- Flits of a packet in progress. -/
def flitCount (e : QEnt) (y : Pkt) : Nat := if y.tailIn then max (flitsOf (wire y).length) (e.sent + 1) else flitsOf (pktTotal y)

/-- The next flit of a packet of n flits. -/
def packetFlit (v n : Nat) (c : Cur) (e : QEnt) (y : Pkt) : Flit :=
  { seq := 0, vc := v, typ := if n = 1 then 3 else if e.sent = 0 then 0 else if e.sent + 1 = n then 2 else 1, len := max 1 (((wire y).drop (232 * e.sent)).take 232).length,
    poison := y.poison && e.sent + 1 = n, replay := false, data := ((wire y).drop (232 * e.sent)).take 232, sentAt := 0, src := some (c.q, c.pid) }

/-- One more flit of a packet has gone to the transmitter. -/
def sentOne (now pid : Nat) (q : QueueSt) : QueueSt := { shSpend now q with ents := q.ents.map fun x => if x.pid = pid then { x with sent := x.sent + 1 } else x }

/-- The flit handed to the transmitter, and its queue. -/
def handed (k v n : Nat) (c : Cur) (e : QEnt) (y : Pkt) (s : State) : State :=
  modQueue c.q (sentOne s.clock c.pid) (modLink k (fun l => { l with txq := l.txq ++ [packetFlit v n c e y] }) s)

/-- No packet of a VC is in progress. -/
def endVc (v : Nat) (x : SchedSt) : SchedSt := { x with cur := x.cur.filter fun y => y.1 ≠ v }

theorem buildFlit_lit (h : (linkOf s k).idleTx = false) (hn : flitCount e y = n) :
    buildFlit k v c e y s = refresh k (if e.sent + 1 = n then modSched k (endVc v) (handed k v n c e y s) else handed k v n c e y s) := by
  subst hn
  unfold buildFlit
  dsimp only
  rw [leaveIdle_of_lit (by rw [linkOf_modLink_same]; exact h)]
  rfl

/-- The flit is at the end of the transmitter's queue, and counted at the packet's entry. -/
theorem handed_books (k v n : Nat) (c : Cur) (e : QEnt) (y : Pkt) (s : State) : (linkOf (handed k v n c e y s) k).txq = (linkOf s k).txq ++ [packetFlit v n c e y] ∧
    (queueOf (handed k v n c e y s) c.q).ents = ((queueOf s c.q).ents.map fun z => if z.pid = c.pid then { z with sent := z.sent + 1 } else z) ∧
    schedOf (handed k v n c e y s) k = schedOf s k := by
  refine ⟨?_, ?_, rfl⟩
  · have h : linkOf (handed k v n c e y s) k = linkOf (modLink k (fun l => { l with txq := l.txq ++ [packetFlit v n c e y] }) s) k := rfl
    rw [h, linkOf_modLink_same]
  · exact congrArg QueueSt.ents (queueOf_modQueue_same c.q (sentOne s.clock c.pid) (modLink k (fun l => { l with txq := l.txq ++ [packetFlit v n c e y] }) s))

/-- The books after a flit is built: the last ends the VC's packet in progress. -/
theorem buildFlit_books (h : (linkOf s k).idleTx = false) (hn : flitCount e y = n) : (linkOf (buildFlit k v c e y s) k).txq = (linkOf s k).txq ++ [packetFlit v n c e y] ∧
    (queueOf (buildFlit k v c e y s) c.q).ents = ((queueOf s c.q).ents.map fun z => if z.pid = c.pid then { z with sent := z.sent + 1 } else z) ∧
    (schedOf (buildFlit k v c e y s) k).cur = if e.sent + 1 = n then (schedOf s k).cur.filter (fun z => z.1 ≠ v) else (schedOf s k).cur := by
  obtain ⟨htx, hents, hsched⟩ := handed_books k v n c e y s
  rw [buildFlit_lit h hn]
  generalize handed k v n c e y s = u at htx hents hsched
  have hr (z : State) : (linkOf (refresh k z) k).txq = (linkOf z k).txq ∧ (queueOf (refresh k z) c.q).ents = (queueOf z c.q).ents ∧
      (schedOf (refresh k z) k).cur = (schedOf z k).cur := by
    obtain ⟨-, hq, hl, -, -⟩ := refresh_inputs k z c.q
    exact ⟨by rw [hl], by rw [hq], (schedOf_refresh k z).1⟩
  obtain ⟨hl, hq, hc⟩ := hr (if e.sent + 1 = n then modSched k (endVc v) u else u)
  rw [hl, hq, hc]
  by_cases hlast : e.sent + 1 = n
  · rw [if_pos hlast, if_pos hlast]
    refine ⟨htx, hents, ?_⟩
    rw [schedOf_modSched_same, hsched]
    rfl
  · rw [if_neg hlast, if_neg hlast]
    exact ⟨htx, hents, by rw [hsched]⟩

/-! ## The row -/

/-- The tags of the VC whose flit goes. -/
def vcTags (v w : Nat) (b : SchedSt) : SchedSt :=
  { b with vV := tget 0 b.vS v, vF := tset 0 b.vF v (tget 0 b.vS v + tagInc 1 w), vS := tset 0 b.vS v (tget 0 b.vS v + tagInc 1 w) }

/-- The state in which the granted VC's flit is built. -/
def vcTagged (k v : Nat) (s : State) : State := modSched k (vcTags v (vcWeight s (k / 4) v)) s

theorem exec_vcGrant (p : Port) (x : Strand)
    (hv : leastTag (fun v => tget 0 (schedOf (refresh (subKey s p x) s) (subKey s p x)).vS v)
      ((List.range 7).filter fun v => vcOpen (refresh (subKey s p x) s) (subKey s p x) v && vcEligible (refresh (subKey s p x) s) (subKey s p x) v) = some v)
    (hc : tget { q := 0, pid := s.nextPid } (schedOf s (subKey s p x)).cur v = c) (hy : pktOf s c.pid = some y)
    (he : (queueOf s c.q).ents.find? (fun e => e.pid = c.pid) = some e) :
    exec (.vcGrant p x) s = .next (buildFlit (subKey s p x) v c e y (vcTagged (subKey s p x) v (refresh (subKey s p x) s))) := by
  obtain ⟨-, hq, -, hp, -⟩ := refresh_inputs (subKey s p x) s c.q
  have hcur : tget { q := 0, pid := (refresh (subKey s p x) s).nextPid } (schedOf (refresh (subKey s p x) s) (subKey s p x)).cur v = c := by
    rw [(schedOf_refresh (subKey s p x) s).1, (keeps_refresh (subKey s p x) s).only.nextPid (by decide), hc]
  change execVcGrant p x s = _
  unfold execVcGrant
  dsimp only
  rw [hv]
  dsimp only
  rw [hcur, hp, hq, hy, he]
  rfl

theorem vcTagged_books (k v : Nat) (s : State) : (linkOf (vcTagged k v s) k) = linkOf s k ∧ (∀ g, queueOf (vcTagged k v s) g = queueOf s g) ∧
    (schedOf (vcTagged k v s) k).cur = (schedOf s k).cur := by
  refine ⟨rfl, fun _ => rfl, ?_⟩
  unfold vcTagged
  rw [schedOf_modSched_same]
  rfl

section
variable {p : Port} {x : Strand}
variable (hlit : (linkOf s (subKey s p x)).idleTx = false)
  (hv : leastTag (fun v => tget 0 (schedOf (refresh (subKey s p x) s) (subKey s p x)).vS v)
    ((List.range 7).filter fun v => vcOpen (refresh (subKey s p x) s) (subKey s p x) v && vcEligible (refresh (subKey s p x) s) (subKey s p x) v) = some v)
  (hc : tget { q := 0, pid := s.nextPid } (schedOf s (subKey s p x)).cur v = c) (hy : pktOf s c.pid = some y) (htail : y.tailIn = true)
  (he : (queueOf s c.q).ents.find? (fun e => e.pid = c.pid) = some e)
include hlit hv hc hy htail he

/-- The granted VC's flit is handed to the transmitter. -/
theorem vcGrant_books (hle : e.sent + 1 ≤ flitsOf (wire y).length) : ∃ t, exec (.vcGrant p x) s = .next t ∧
    (linkOf t (subKey s p x)).txq = (linkOf s (subKey s p x)).txq ++ [packetFlit v (flitsOf (wire y).length) c e y] ∧
    (queueOf t c.q).ents = ((queueOf s c.q).ents.map fun z => if z.pid = c.pid then { z with sent := z.sent + 1 } else z) ∧
    (schedOf t (subKey s p x)).cur =
      if e.sent + 1 = flitsOf (wire y).length then (schedOf s (subKey s p x)).cur.filter (fun z => z.1 ≠ v) else (schedOf s (subKey s p x)).cur := by
  obtain ⟨-, hrq, hrl, -, -⟩ := refresh_inputs (subKey s p x) s c.q
  obtain ⟨hvl, hvq, hvc⟩ := vcTagged_books (subKey s p x) v (refresh (subKey s p x) s)
  have hn : flitCount e y = flitsOf (wire y).length := by
    unfold flitCount
    rw [if_pos htail, Nat.max_eq_left hle]
  obtain ⟨htx, hents, hcur⟩ := buildFlit_books (v := v) (c := c) (s := vcTagged (subKey s p x) v (refresh (subKey s p x) s)) (k := subKey s p x)
    (by rwa [hvl, hrl]) hn
  refine ⟨_, exec_vcGrant p x hv hc hy he, ?_, ?_, ?_⟩
  · rw [htx, hvl, hrl]
  · rw [hents, hvq, hrq]
  · rw [hcur, hvc, (schedOf_refresh (subKey s p x) s).1]

theorem vcGrant_flit (hlt : e.sent + 1 < flitsOf (wire y).length) : ∃ t f, exec (.vcGrant p x) s = .next t ∧ (linkOf t (subKey s p x)).txq = (linkOf s (subKey s p x)).txq ++ [f] ∧ f.vc = v ∧
    f.data = ((wire y).drop (232 * e.sent)).take 232 ∧ f.typ = (if e.sent = 0 then 0 else 1) ∧ (schedOf t (subKey s p x)).cur = (schedOf s (subKey s p x)).cur ∧
    (queueOf t c.q).ents = (queueOf s c.q).ents.map fun z => if z.pid = c.pid then { z with sent := z.sent + 1 } else z := by
  obtain ⟨t, hex, htx, hents, hcur⟩ := vcGrant_books hlit hv hc hy htail he hlt.le
  refine ⟨t, _, hex, htx, rfl, rfl, ?_, by rw [hcur, if_neg hlt.ne], hents⟩
  unfold packetFlit
  dsimp only
  rw [if_neg (by omega), if_neg hlt.ne]

theorem vcGrant_last (heq : e.sent + 1 = flitsOf (wire y).length) : ∃ t f, exec (.vcGrant p x) s = .next t ∧ (linkOf t (subKey s p x)).txq = (linkOf s (subKey s p x)).txq ++ [f] ∧ f.vc = v ∧
    f.data = ((wire y).drop (232 * e.sent)).take 232 ∧ f.typ = (if e.sent = 0 then 3 else 2) ∧ f.poison = y.poison ∧
    (queueOf t c.q).ents = (queueOf s c.q).ents.map (fun z => if z.pid = c.pid then { z with sent := z.sent + 1 } else z) ∧
    (schedOf t (subKey s p x)).cur = (schedOf s (subKey s p x)).cur.filter fun z => z.1 ≠ v := by
  obtain ⟨t, hex, htx, hents, hcur⟩ := vcGrant_books hlit hv hc hy htail he heq.le
  refine ⟨t, _, hex, htx, rfl, rfl, ?_, ?_, hents, by rw [hcur, if_pos heq]⟩
  · unfold packetFlit
    dsimp only
    by_cases h0 : e.sent = 0
    · rw [if_pos (by omega), if_pos h0]
    · rw [if_neg (by omega), if_neg h0, if_neg h0, if_pos heq]
  · unfold packetFlit
    dsimp only
    rw [decide_eq_true heq, Bool.and_true]

end

end

end Sys2Proof.Machine
end

section
/-! AGE_SWEEP, SHAPER_CREDIT_ZERO and REJOIN (R113, R151, R169). -/

namespace Sys2Proof.Machine

section
variable {s t : State} {g k : Nat} {e : QEnt}

/-! ## The sweep of a queue (R151) -/

/-- Does a packet's entry stay in its queue when the queue is swept? -/
def ageKept (s : State) (g : Nat) (e : QEnt) : Bool := e.granted || (pktOf s e.pid).elim true fun y => !tooOld s (qdie g) y

/-- A packet too old is dropped and counted. -/
def ageDropped (g pid : Nat) (s : State) : State := swcCnt (qdie g) 0x404 1 (unlink g pid (mirrorDrop (g / 8) pid s))

/-- A packet of a queue that is swept. -/
def ageStep (g : Nat) (e : QEnt) (s : State) : State :=
  match pktOf s e.pid with
  | some p => if tooOld s (qdie g) p && !e.granted then ageDropped g e.pid s else s
  | none => s

theorem agePurge_eq (g : Nat) (s : State) : agePurge g s = each (queueOf s g).ents (ageStep g) s := rfl

theorem ageStep_kept (h : ageKept s g e = true) : ageStep g e s = s := by
  unfold ageStep
  unfold ageKept at h
  split
  · next p hp =>
    rw [hp] at h
    refine if_neg fun hd => ?_
    obtain ⟨hold, hg⟩ := Bool.and_eq_true_iff.1 hd
    rw [Bool.not_eq_true'] at hg
    rw [hg, Option.elim_some, hold] at h
    cases h
  · rfl

theorem ageStep_dropped (h : ageKept s g e = false) : (∃ y, pktOf s e.pid = some y) ∧ ageStep g e s = ageDropped g e.pid s := by
  unfold ageKept at h
  obtain ⟨hg, hp⟩ := Bool.or_eq_false_iff.1 h
  cases hy : pktOf s e.pid with
  | none =>
    rw [hy] at hp
    cases hp
  | some y =>
    rw [hy] at hp
    refine ⟨⟨y, rfl⟩, ?_⟩
    unfold ageStep
    rw [hy]
    exact if_pos (by simpa [hg] using hp)

/-- Of the state, what the sweep of other packets turns on. -/
structure Swept (g pid : Nat) (s t : State) : Prop where
  ents : (queueOf t g).ents = (queueOf s g).ents.filter fun x => x.pid ≠ pid
  queue : ∀ j, j ≠ g → queueOf t j = queueOf s j
  link : ∀ j, linkOf t j = linkOf s j
  sess : ∀ d, (swcOf t d).sess = (swcOf s d).sess
  kept : ∀ x : QEnt, x.pid ≠ pid → ageKept t g x = ageKept s g x

theorem tooOld_congr {d : Nat} (hage : (swcOf t d).age = (swcOf s d).age) (hc : t.clock = s.clock) (ht : t.tim = s.tim) (y : Pkt) : tooOld t d y = tooOld s d y := by
  have hn : steadyNs t = steadyNs s := by simp only [steadyNs, fabT_congr ht hc, ht]
  unfold tooOld ageNs ageUs
  rw [hage, hn]

theorem swept_ageDropped {pid : Nat} {y : Pkt} (hsess : (swcOf s (dieOf (g / 8))).sess = []) (htx : ∀ f ∈ (linkOf s (g / 8)).txq, f.src = none) (hy : pktOf s pid = some y)
    (he : ∃ e ∈ (queueOf s g).ents, e.pid = pid) : Swept g pid s (ageDropped g pid s) := by
  have hm : Keeps true 0x1000000 s (mirrorDrop (g / 8) pid s) := mirrorDrop_quiet hsess pid (.refl _ _ s) rfl
  unfold ageDropped
  generalize mirrorDrop (g / 8) pid s = u at hm
  have hqu (j : Nat) : queueOf u j = queueOf s j := queueOf_congr (hm.only.queues (by decide)) j
  have hlu (j : Nat) : linkOf u j = linkOf s j := linkOf_congr (hm.only.links (by decide)) j
  have hpu (j : Nat) : pktOf u j = pktOf s j := pktOf_congr (hm.only.pkts (by decide)) j
  have hsu (d : Nat) : swcOf u d = swcOf s d := swcOf_congr (hm.only.swc (by decide)) d
  obtain ⟨hleftq, hleftp, hleftc⟩ := left_unlink g pid u
  have hk : Keeps true 0x17a0000 u (unlink g pid u) := unlink_keeps _ _ (.refl _ _ u) rfl
  have hlinks (j : Nat) : linkOf (unlink g pid u) j = linkOf u j := linkOf_unlink_same (fun f hf => by rw [hlu] at hf; rw [htx f hf]; nofun) j
  obtain ⟨e, hmem, hpid⟩ := he
  have hfind : ∃ z, (queueOf u g).ents.find? (fun e => e.pid = pid) = some z := by
    rw [hqu, ← Option.isSome_iff_exists, List.find?_isSome]
    exact ⟨e, hmem, by simp [hpid]⟩
  obtain ⟨z, hz⟩ := hfind
  have hents := ents_unlink hz (by rw [hpu, hy])
  have hc : Keeps true 0x80000 (unlink g pid u) (swcCnt (qdie g) 0x404 1 (unlink g pid u)) := swcCnt_keeps _ _ _ (.refl _ _ _) rfl
  have hcs (d : Nat) : (swcOf (swcCnt (qdie g) 0x404 1 (unlink g pid u)) d).sess = (swcOf (unlink g pid u) d).sess := swcOf_swcCnt SwcSt.sess (fun _ _ => rfl) ..
  have hca (d : Nat) : (swcOf (swcCnt (qdie g) 0x404 1 (unlink g pid u)) d).age = (swcOf (unlink g pid u) d).age := swcOf_swcCnt SwcSt.age (fun _ _ => rfl) ..
  generalize unlink g pid u = w at hk hlinks hents hleftq hleftp hleftc hc hcs hca
  generalize swcCnt (qdie g) 0x404 1 w = r at hc hcs hca
  refine ⟨?_, fun j hj => ?_, fun j => ?_, fun d => ?_, fun x hx => ?_⟩
  · rw [queueOf_congr (hc.only.queues (by decide)), hents, hqu]
  · rw [queueOf_congr (hc.only.queues (by decide)), hleftq j hj, hqu]
  · rw [linkOf_congr (hc.only.links (by decide)), hlinks, hlu]
  · rw [hcs, (hleftc d).1, hsu]
  · have hold (y : Pkt) : tooOld r (qdie g) y = tooOld s (qdie g) y := by
      refine tooOld_congr ?_ ?_ ?_ y
      · rw [hca, (hleftc (qdie g)).2, hsu]
      · rw [hc.only.clock (by decide), hk.only.clock (by decide), hm.only.clock (by decide)]
      · rw [hc.only.tim (by decide), hk.only.tim (by decide), hm.only.tim (by decide)]
    unfold ageKept
    rw [pktOf_congr (hc.only.pkts (by decide)), hleftp x.pid hx, hpu]
    simp only [hold]

/-- After the packets of a list are swept, those of them that are too old are gone, and nothing else is. -/
theorem each_ageStep (hsess : (swcOf s (dieOf (g / 8))).sess = []) (htx : ∀ f ∈ (linkOf s (g / 8)).txq, f.src = none) {l : List QEnt} (hl : (l.map QEnt.pid).Nodup)
    (hmem : ∀ e ∈ l, e ∈ (queueOf s g).ents) (hnd : ∀ e ∈ l, ∀ z ∈ (queueOf s g).ents, z.pid = e.pid → z = e) :
    (queueOf (each l (ageStep g) s) g).ents = ((queueOf s g).ents.filter fun e => decide (e.pid ∉ l.map QEnt.pid) || ageKept s g e) ∧
    (∀ j, j ≠ g → queueOf (each l (ageStep g) s) j = queueOf s j) ∧ ∀ j, linkOf (each l (ageStep g) s) j = linkOf s j := by
  induction l generalizing s with
  | nil => exact ⟨(List.filter_eq_self.2 fun e _ => by simp).symm, fun _ _ => rfl, fun _ => rfl⟩
  | cons a l ih =>
    obtain ⟨ha, hl⟩ := List.nodup_cons.1 hl
    have hin := hmem a List.mem_cons_self
    have hstep : each (a :: l) (ageStep g) s = each l (ageStep g) (ageStep g a s) := rfl
    rw [hstep]
    cases hk : ageKept s g a with
    | true =>
      rw [ageStep_kept hk]
      obtain ⟨hents, hq, hlk⟩ := ih hsess htx hl (fun e he => hmem e (List.mem_cons_of_mem _ he)) (fun e he => hnd e (List.mem_cons_of_mem _ he))
      refine ⟨hents.trans (List.filter_congr fun z hz => ?_), hq, hlk⟩
      by_cases hza : z.pid = a.pid
      · rw [hnd a List.mem_cons_self z hz hza, hk, Bool.or_true, Bool.or_true]
      · simp [hza]
    | false =>
      obtain ⟨⟨y, hy⟩, hd⟩ := ageStep_dropped hk
      obtain ⟨hde, hdq, hdl, hds, hdk⟩ := swept_ageDropped hsess htx hy ⟨a, hin, rfl⟩
      rw [hd]
      have hne (e : QEnt) (he : e ∈ l) : e.pid ≠ a.pid := fun h => ha (h ▸ List.mem_map_of_mem he)
      obtain ⟨hents, hq, hlk⟩ := ih (s := ageDropped g a.pid s) (by rw [hds, hsess]) (by rw [hdl]; exact htx) hl
        (fun e he => by rw [hde]; exact List.mem_filter.2 ⟨hmem e (List.mem_cons_of_mem _ he), decide_eq_true (hne e he)⟩)
        (fun e he z hz => by rw [hde] at hz; exact hnd e (List.mem_cons_of_mem _ he) z (List.mem_of_mem_filter hz))
      refine ⟨?_, fun j hj => by rw [hq j hj, hdq j hj], fun j => by rw [hlk, hdl]⟩
      rw [hents, hde, List.filter_filter]
      refine List.filter_congr fun z hz => ?_
      by_cases hza : z.pid = a.pid
      · rw [hnd a List.mem_cons_self z hz hza, hk]
        simp
      · rw [hdk z hza]
        simp [hza]

/-- The sweep takes out exactly the packets too old and not granted. -/
theorem agePurge_ents (hsess : (swcOf s (dieOf (g / 8))).sess = []) (htx : ∀ f ∈ (linkOf s (g / 8)).txq, f.src = none) (hnd : ((queueOf s g).ents.map QEnt.pid).Nodup) :
    (queueOf (agePurge g s) g).ents = (queueOf s g).ents.filter (ageKept s g) ∧ (∀ j, j ≠ g → queueOf (agePurge g s) j = queueOf s j) ∧
    ∀ j, linkOf (agePurge g s) j = linkOf s j := by
  rw [agePurge_eq]
  obtain ⟨hents, hq, hl⟩ := each_ageStep hsess htx hnd (fun _ h => h) (fun e he z hz h => List.inj_on_of_nodup_map hnd hz he h)
  refine ⟨hents.trans (List.filter_congr fun e he => ?_), hq, hl⟩
  rw [decide_eq_false (fun h => h (List.mem_map_of_mem he)), Bool.false_or]

/-! ## The rows -/

section
variable {p : Port} {x : Strand} {q : Fin 8}

/-- The VC whose credit a queue needs. -/
def vcOfQueue (s : State) (q : Nat) : Nat := ((List.range 8).find? fun v => q ∈ queuesOfVc s v).getD 0

theorem exec_ageSweep_served (hv : vcOpen s (subKey s p x) (vcOfQueue s q) = true) (ha : shAllows s.clock (queueOf s (8 * subKey s p x + q.val)) = true)
    (hc : 0 < tget 0 (linkOf s (subKey s p x)).credHeld (vcOfQueue s q)) : exec (.ageSweep p x q) s = .next s :=
  congrArg Host.Outcome.next (if_pos (by
    unfold vcOfQueue at hv hc
    rw [hv, ha, decide_eq_true hc]
    exact Bool.or_true _))

theorem exec_ageSweep (hl : alive s = true) (hv : vcOpen s (subKey s p x) (vcOfQueue s q) = false) :
    exec (.ageSweep p x q) s = .next (refresh (subKey s p x) (agePurge (8 * subKey s p x + q.val) s)) :=
  congrArg Host.Outcome.next (if_neg (by
    unfold vcOfQueue at hv
    rw [hl, hv, Bool.false_and, Bool.false_and]
    decide))

theorem ageSweep_purges (hl : alive s = true) (hv : vcOpen s (subKey s p x) (vcOfQueue s q) = false) (hnd : ((queueOf s (8 * subKey s p x + q.val)).ents.map QEnt.pid).Nodup)
    (hsess : (swcOf s (dieOf (subKey s p x))).sess = []) (htx : ∀ f ∈ (linkOf s (subKey s p x)).txq, f.src = none) :
    ∃ t, exec (.ageSweep p x q) s = .next t ∧ (queueOf t (8 * subKey s p x + q.val)).ents = (queueOf s (8 * subKey s p x + q.val)).ents.filter (ageKept s (8 * subKey s p x + q.val)) ∧
      (∀ j, j ≠ 8 * subKey s p x + q.val → queueOf t j = queueOf s j) ∧ ∀ j, linkOf t j = linkOf s j := by
  have hdiv : (8 * subKey s p x + q.val) / 8 = subKey s p x := by omega
  obtain ⟨hents, hq, hlk⟩ := agePurge_ents (g := 8 * subKey s p x + q.val) (by rwa [hdiv]) (by rwa [hdiv]) hnd
  have hr (j : Nat) := refresh_inputs (subKey s p x) (agePurge (8 * subKey s p x + q.val) s) j
  refine ⟨_, exec_ageSweep hl hv, ?_, fun j hj => ?_, fun j => ?_⟩
  · rw [(hr _).2.1, hents]
  · rw [(hr j).2.1, hq j hj]
  · rw [(hr 0).2.2.1, hlk]

/-- SHAPER_CREDIT_ZERO brings one shaper's book up to date. -/
theorem shaperCreditZero_books (hl : alive s = true) : ∃ t, exec (.shaperCreditZero p x q) s = .next t ∧ t = { s with queues := t.queues, scheds := t.scheds } ∧
    queueOf t (8 * subKey s p x + q.val) = shSync s.clock (queueOf s (8 * subKey s p x + q.val)) ∧ ∀ j, j ≠ 8 * subKey s p x + q.val → queueOf t j = queueOf s j := by
  have hr (j : Nat) := refresh_inputs (subKey s p x) (modQueue (8 * subKey s p x + q.val) (shSync s.clock) s) j
  refine ⟨_, congrArg Host.Outcome.next (if_pos hl), (refresh_keeps (d := true) (L := 0x300000) _ (modQueue_keeps _ _ (.refl _ _ s) rfl) rfl).eq, ?_, fun j hj => ?_⟩
  · rw [(hr _).2.1, queueOf_modQueue_same]
  · rw [(hr j).2.1, queueOf_modQueue_other _ _ hj]

/-- The longest REJOIN_US of the four dies. -/
def rejoinUs (s : State) : Nat := ((List.range 4).map fun d => (tget 0 s.route.rejoinUs d).toNat).foldl max 0

/-- REJOIN marks a live member as joined. -/
theorem rejoin_joins {at_ : Nat} (hm : memberLive s (subKey s p x) = true) (ha : (linkOf s (subKey s p x)).liveSince = some at_) : ∃ t, exec (.rejoin p x) s = .next t ∧
    t = { s with clock := max s.clock (at_ + 1000 * rejoinUs s), links := t.links } ∧ linkOf t (subKey s p x) = { linkOf s (subKey s p x) with joined := true } ∧
    ∀ j, j ≠ subKey s p x → linkOf t j = linkOf s j := by
  have hex : exec (.rejoin p x) s = .next (modLink (subKey s p x) (fun l => { l with joined := true }) (clockTo (at_ + 1000 * rejoinUs s) s)) := by
    change execRejoin p x s = _
    unfold execRejoin
    dsimp only
    rw [ha]
    exact congrArg Host.Outcome.next (if_pos hm)
  refine ⟨_, hex, rfl, ?_, fun j hj => ?_⟩
  · rw [linkOf_modLink_same]
    rfl
  · rw [linkOf_modLink_other _ hj]
    rfl

theorem exec_rejoin_none (h : memberLive s (subKey s p x) = false ∨ (linkOf s (subKey s p x)).liveSince = none) : exec (.rejoin p x) s = .next s := by
  change execRejoin p x s = _
  unfold execRejoin
  dsimp only
  split
  · next ha =>
    rcases h with h | h
    · exact congrArg Host.Outcome.next (if_neg (by rw [h]; decide))
    · rw [h] at ha
      cases ha
  · rfl

end

end

end Sys2Proof.Machine
end

section
/-! DEPTH_SAMPLE: levels and averages of the queues of a die (R109, R110, R173). -/

namespace Sys2Proof.Machine

section
variable {s t : State} {d g : Nat}

/-- A queue after a sample under a weight. -/
def sampledAt (s : State) (d w : Nat) (q : QueueSt) : QueueSt := { q with avg := ewma q.avg (depthOf q) w, level := levelOf s d (depthOf q) }

/-- The weight of a queue's average. -/
def avgWeight (s : State) (d : Nat) (q : QueueSt) : Nat := fld (tget 0 (swcOf s d).redProf (4 * fld q.qsched 28 4 + 3)) 0 4

/-- A queue after a sample. -/
def sampledQueue (s : State) (d : Nat) (q : QueueSt) : QueueSt := sampledAt s d (avgWeight s d q) q

/-- One queue's sample. -/
def sampleQueue (d g : Nat) (s : State) : State :=
  modRoute (fun r => { r with levels := tset 0 r.levels g (levelOf s d (depthOf (queueOf s g))) }) (modQueue g (sampledAt s d (avgWeight s d (queueOf s g))) s)

/-- What the samples of queues leave of the state. -/
def LevelsOnly (s t : State) : Prop := t = { s with route := { s.route with levels := t.route.levels }, queues := t.queues }

theorem LevelsOnly.trans {u : State} (a : LevelsOnly s t) (b : LevelsOnly t u) : LevelsOnly s u := by
  unfold LevelsOnly at a b ⊢
  rw [a] at b
  exact b

theorem levelsOnly_sampleQueue (d g : Nat) (s : State) : LevelsOnly s (sampleQueue d g s) := rfl

/-- The samples that follow see what the first saw. -/
theorem sampledQueue_congr (h : LevelsOnly s t) (d : Nat) : sampledQueue t d = sampledQueue s d ∧ levelOf t d = levelOf s d := by
  unfold LevelsOnly at h
  rw [h]
  exact ⟨rfl, rfl⟩

theorem queueOf_sampleQueue_same (d g : Nat) (s : State) : queueOf (sampleQueue d g s) g = sampledQueue s d (queueOf s g) :=
  queueOf_modQueue_same g (sampledAt s d (avgWeight s d (queueOf s g))) s

theorem queueOf_sampleQueue_other {j : Nat} (h : j ≠ g) : queueOf (sampleQueue d g s) j = queueOf s j :=
  queueOf_modQueue_other (sampledAt s d (avgWeight s d (queueOf s g))) s h

theorem levels_sampleQueue_same (d g : Nat) (s : State) : tget 0 (sampleQueue d g s).route.levels g = levelOf s d (depthOf (queueOf s g)) := tget_tset_eq _ _ _ _

theorem levels_sampleQueue_other {j : Nat} (h : j ≠ g) : tget 0 (sampleQueue d g s).route.levels j = tget 0 s.route.levels j := tget_tset_ne _ _ _ h

/-- After the samples of different queues each of them is sampled, and no other. -/
theorem each_sampleQueue {l : List Nat} (hl : l.Nodup) : LevelsOnly s (each l (sampleQueue d) s) ∧
    (∀ g ∈ l, queueOf (each l (sampleQueue d) s) g = sampledQueue s d (queueOf s g) ∧
      tget 0 (each l (sampleQueue d) s).route.levels g = levelOf s d (depthOf (queueOf s g))) ∧
    ∀ g, g ∉ l → queueOf (each l (sampleQueue d) s) g = queueOf s g ∧ tget 0 (each l (sampleQueue d) s).route.levels g = tget 0 s.route.levels g := by
  induction l generalizing s with
  | nil => exact ⟨rfl, nofun, fun _ _ => ⟨rfl, rfl⟩⟩
  | cons a l ih =>
    obtain ⟨ha, hl⟩ := List.nodup_cons.1 hl
    have hstep : each (a :: l) (sampleQueue d) s = each l (sampleQueue d) (sampleQueue d a s) := rfl
    rw [hstep]
    have hone := levelsOnly_sampleQueue d a s
    obtain ⟨hfr, hin, hout⟩ := ih (s := sampleQueue d a s) hl
    obtain ⟨hsq, hlv⟩ := sampledQueue_congr hone d
    refine ⟨hone.trans hfr, fun g hg => ?_, fun g hg => ?_⟩
    · by_cases hga : g = a
      · subst hga
        obtain ⟨hq, hlev⟩ := hout g ha
        exact ⟨hq.trans (queueOf_sampleQueue_same d g s), hlev.trans (levels_sampleQueue_same d g s)⟩
      · obtain ⟨hq, hlev⟩ := hin g ((List.mem_cons.1 hg).resolve_left hga)
        rw [queueOf_sampleQueue_other hga] at hq hlev
        rw [hsq] at hq
        rw [hlv] at hlev
        exact ⟨hq, hlev⟩
    · obtain ⟨hga, hgl⟩ := not_or.1 (mt List.mem_cons.2 hg)
      obtain ⟨hq, hlev⟩ := hout g hgl
      exact ⟨hq.trans (queueOf_sampleQueue_other hga), hlev.trans (levels_sampleQueue_other hga)⟩

/-- The depths that the histogram engines take. -/
def sampleHists (d : Nat) (l : List Nat) (s : State) : State :=
  each l (fun i s => if i < 2304 then histSample (2304 * d + i) false (depthOf (queueOf s (2304 * d + i))) s else s) s

theorem keeps_sampleHists (d : Nat) (l : List Nat) (s : State) : Keeps true 0x80000 s (sampleHists d l s) :=
  each_keeps (fun _ _ h => Keeps.ite (histSample_keeps _ _ _ h rfl) h) (.refl _ _ s)

theorem exec_depthSample {d : FabDie} (h : coreUp s d = true) : ∃ l, exec (.depthSample d) s =
    .next (sampleHists d l (each ((s.queues.map Prod.fst).filter fun g => qdie g = d.val) (sampleQueue d) s)) := ⟨_, congrArg Host.Outcome.next (if_neg (by rw [h]; decide))⟩

theorem depthSample_books {d : FabDie} (h : coreUp s d = true) (hnd : (s.queues.map Prod.fst).Nodup) : ∃ t, exec (.depthSample d) s = .next t ∧
    t = { s with route := { s.route with levels := t.route.levels }, swc := t.swc, queues := t.queues } ∧
    (∀ g ∈ s.queues.map Prod.fst, qdie g = d.val → queueOf t g = sampledQueue s d (queueOf s g) ∧ tget 0 t.route.levels g = levelOf s d (depthOf (queueOf s g))) ∧
    ∀ g, qdie g ≠ d.val → queueOf t g = queueOf s g := by
  obtain ⟨l, hex⟩ := exec_depthSample h
  obtain ⟨hfr, hin, hout⟩ := each_sampleQueue (s := s) (d := d) (hnd.filter fun g => decide (qdie g = d.val))
  generalize each ((s.queues.map Prod.fst).filter fun g => qdie g = d.val) (sampleQueue d) s = u at hex hfr hin hout
  have hk := keeps_sampleHists d l u
  have hq (g : Nat) : queueOf (sampleHists d l u) g = queueOf u g := queueOf_congr (hk.only.queues (by decide)) g
  have hr : (sampleHists d l u).route = u.route := hk.only.route (by decide)
  refine ⟨_, hex, ?_, fun g hg hd => ?_, fun g hd => ?_⟩
  · have he := hk.eq
    generalize sampleHists d l u = t at he
    unfold LevelsOnly at hfr
    rw [hfr] at he
    rw [he]
    rfl
  · rw [hq, hr]
    exact hin g (List.mem_filter.2 ⟨hg, decide_eq_true hd⟩)
  · rw [hq]
    exact (hout g fun hm => hd (of_decide_eq_true (List.mem_filter.1 hm).2)).1

end

end Sys2Proof.Machine
end

section
/-! REDUCER_MATCHING_ROUND: one waiting chunk crosses to its reduction die, or is held while the die waits for a buffer (R148, R322). -/

namespace Sys2Proof.Machine

section
variable {s t : State} {d lp x v pid : Nat}

/-! ## The first number after a pointer -/

theorem firstFrom_none {n ptr : Nat} {f : Nat → Bool} (h : ∀ i, i < n → f i = false) : firstFrom n ptr f = none := by
  refine List.find?_eq_none.2 fun i hi => ?_
  obtain ⟨j, hj, rfl⟩ := List.mem_map.1 hi
  have hn : 0 < n := Nat.zero_lt_of_lt (List.mem_range.1 hj)
  rw [h _ (Nat.mod_lt _ hn)]
  exact Bool.false_ne_true

/-- Every number below the modulus is reached from a pointer. -/
theorem exists_add_mod {n a : Nat} (ha : a < n) (ptr : Nat) : ∃ j, j < n ∧ (ptr + j) % n = a := by
  have hp : ptr % n < n := Nat.mod_lt _ (Nat.zero_lt_of_lt ha)
  have hdiv : ptr % n + n * (ptr / n) = ptr := Nat.mod_add_div ..
  by_cases hle : ptr % n ≤ a
  · refine ⟨a - ptr % n, by omega, ?_⟩
    have he : ptr + (a - ptr % n) = a + n * (ptr / n) := by omega
    rw [he, Nat.add_mul_mod_self_left, Nat.mod_eq_of_lt ha]
  · refine ⟨a + n - ptr % n, by omega, ?_⟩
    have he : ptr + (a + n - ptr % n) = a + n + n * (ptr / n) := by omega
    rw [he, Nat.add_mul_mod_self_left, Nat.add_mod_right, Nat.mod_eq_of_lt ha]

theorem firstFrom_only {n ptr a : Nat} {f : Nat → Bool} (ha : a < n) (h : ∀ i, i < n → f i = decide (i = a)) : firstFrom n ptr f = some a := by
  obtain ⟨j, hj, hja⟩ := exists_add_mod ha ptr
  have hmem : a ∈ (List.range n).map fun i => (ptr + i) % n := List.mem_map.2 ⟨j, List.mem_range.2 hj, hja⟩
  have hfa : f a = true := by rw [h a ha, decide_eq_true rfl]
  have hsome : (firstFrom n ptr f).isSome := List.find?_isSome.2 ⟨a, hmem, hfa⟩
  obtain ⟨b, hb⟩ := Option.isSome_iff_exists.1 hsome
  obtain ⟨i, -, hi⟩ := List.mem_map.1 (List.mem_of_find?_eq_some hb)
  have hlt : b < n := hi ▸ Nat.mod_lt _ (Nat.zero_lt_of_lt ha)
  have hfb : f b = true := List.find?_some hb
  rw [h b hlt] at hfb
  rw [hb, of_decide_eq_true hfb]

/-! ## The iterations of a round -/

/-- What the reduction dies grant in an iteration after the matches ms. -/
def roundGrants (s : State) (d : Nat) (ms : List (Nat × Nat)) : List (Nat × Nat) :=
  (List.range 4).filterMap fun r =>
    if ms.any (fun m => m.2 = r) then none
    else (firstFrom 72 (tget 0 (swcOf s d).gptr r) fun p => !ms.any (fun m => m.1 = p) && (voqHas s d p r 0 || voqHas s d p r 1)).map fun p => (p, r)

/-- What the ports accept of them. -/
def roundAccepts (s : State) (d : Nat) (gs : List (Nat × Nat)) : List (Nat × Nat) :=
  (uniq (gs.map Prod.fst)).filterMap fun p => (firstFrom 4 (tget 0 (swcOf s d).aptr p) fun r => gs.contains (p, r)).map fun r => (p, r)

/-- The pointers of a match move past it. -/
def pointPast (w : SwcSt) (m : Nat × Nat) : SwcSt := { w with gptr := tset 0 w.gptr m.2 ((m.1 + 1) % 72), aptr := tset 0 w.aptr m.1 ((m.2 + 1) % 4) }

/-- The pointers after the first iteration. -/
def pointers (acc : List (Nat × Nat)) (w : SwcSt) : SwcSt := acc.foldl pointPast w

theorem matchIter_eq (s : State) (d : Nat) (first : Bool) (ms : List (Nat × Nat)) : matchIter s d first ms =
    (ms ++ roundAccepts s d (roundGrants s d ms), fun w => if first then pointers (roundAccepts s d (roundGrants s d ms)) w else w) := rfl

theorem exec_reducerMatchingRound {d : FabDie} {m1 m2 m3 : List (Nat × Nat)} (h : coreUp s d = true) (h1 : roundAccepts s d (roundGrants s d []) = m1)
    (h2 : roundAccepts s d (roundGrants s d m1) = m2) (h3 : roundAccepts s d (roundGrants s d (m1 ++ m2)) = m3) :
    exec (.reducerMatchingRound d) s = .next (voqRetry d (each (m1 ++ m2 ++ m3) (fun m s => sendChunk d m.1 m.2 s) (modSwc d (pointers m1) s))) := by
  subst h1 h2 h3
  exact congrArg Host.Outcome.next (if_neg (by rw [h]; decide))

/-! ## One chunk waits in the VOQs -/

/-- Reduction die x takes no chunk from the one list that holds any. -/
theorem voqHas_of_single (hvoq : (swcOf s d).voqs = [(8 * lp + 2 * x + v, [pid])]) (a b c : Nat) : voqHas s d a b c =
    (decide (8 * a + 2 * b + c = 8 * lp + 2 * x + v) && !(poolWaits s (4 * b) && (match pktOf s pid with | some p => hPtype p.hdr == ptChunk | none => false))) := by
  unfold voqHas
  rw [hvoq]
  by_cases h : 8 * lp + 2 * x + v = 8 * a + 2 * b + c
  · rw [h, tget, if_pos rfl, decide_eq_true rfl]
    rfl
  · rw [tget, if_neg h, decide_eq_false (Ne.symm h)]
    rfl

section
variable (hvoq : (swcOf s d).voqs = [(8 * lp + 2 * x + v, [pid])]) (hx : x < 4) (hv : v < 2)
include hvoq hx hv

/-- A port has a chunk for a reduction die that takes chunks where it is the one that waits. -/
theorem voqHas_open (hw : poolWaits s (4 * x) = false) (a : Nat) {b c : Nat} (hb : b < 4) (hc : c < 2) :
    voqHas s d a b c = decide (a = lp ∧ b = x ∧ c = v) := by
  rw [voqHas_of_single hvoq]
  by_cases h : a = lp ∧ b = x ∧ c = v
  · obtain ⟨rfl, rfl, rfl⟩ := h
    rw [hw]
    simp
  · rw [decide_eq_false h, decide_eq_false (by omega), Bool.false_and]

theorem voqHas_port (hw : poolWaits s (4 * x) = false) (a : Nat) {b : Nat} (hb : b < 4) :
    (voqHas s d a b 0 || voqHas s d a b 1) = decide (a = lp ∧ b = x) := by
  rw [voqHas_open hvoq hx hv hw a hb (by decide), voqHas_open hvoq hx hv hw a hb (by decide), Bool.eq_iff_iff, Bool.or_eq_true, decide_eq_true_iff, decide_eq_true_iff,
    decide_eq_true_iff]
  omega

/-- The first iteration grants the port of the chunk. -/
theorem roundGrants_first (hw : poolWaits s (4 * x) = false) (hlp : lp < 72) : roundGrants s d [] = [(lp, x)] := by
  have hg : roundGrants s d [] = (List.range 4).filterMap fun r => if r = x then some (lp, x) else none := by
    refine List.filterMap_congr fun r hr => ?_
    have hp (p : Nat) := voqHas_port hvoq hx hv hw p (List.mem_range.1 hr)
    refine (if_neg Bool.false_ne_true).trans ?_
    by_cases hrx : r = x
    · subst hrx
      rw [if_pos rfl, firstFrom_only hlp fun i _ => ?_]
      · rfl
      · rw [hp]
        simp
    · rw [if_neg hrx, firstFrom_none (fun i _ => by rw [hp]; simp [hrx])]
      rfl
  rw [hg]
  interval_cases x <;> rfl

theorem roundGrants_later (hw : poolWaits s (4 * x) = false) : roundGrants s d [(lp, x)] = [] := by
  refine List.filterMap_eq_nil_iff.2 fun r hr => ?_
  by_cases hrx : r = x
  · exact if_pos (by simp [hrx])
  · refine (if_neg (by simp [Ne.symm hrx])).trans ?_
    rw [firstFrom_none fun i _ => ?_]
    · rfl
    · rw [voqHas_port hvoq hx hv hw i (List.mem_range.1 hr)]
      simp [hrx]

/-- While the die waits for a buffer nothing is granted. -/
theorem roundGrants_held {y : Pkt} (hw : poolWaits s (4 * x) = true) (hy : pktOf s pid = some y) (hc : hPtype y.hdr = ptChunk) : roundGrants s d [] = [] := by
  have hno (a : Nat) {b c : Nat} (hb : b < 4) (hc2 : c < 2) : voqHas s d a b c = false := by
    rw [voqHas_of_single hvoq, hy]
    dsimp only
    by_cases h : 8 * a + 2 * b + c = 8 * lp + 2 * x + v
    · have hbx : b = x := by omega
      rw [hbx, hw, hc]
      simp
    · rw [decide_eq_false h, Bool.false_and]
  refine List.filterMap_eq_nil_iff.2 fun r hr => ?_
  refine (if_neg Bool.false_ne_true).trans ?_
  rw [firstFrom_none fun i _ => ?_]
  · rfl
  · rw [hno i (List.mem_range.1 hr) (by decide), hno i (List.mem_range.1 hr) (by decide)]
    rfl

end

theorem roundAccepts_one (hx : x < 4) : roundAccepts s d [(lp, x)] = [(lp, x)] := by
  have hf : firstFrom 4 (tget 0 (swcOf s d).aptr lp) (fun r => [(lp, x)].contains (lp, r)) = some x := firstFrom_only hx fun i _ => by simp
  change ([lp].filterMap fun p => (firstFrom 4 (tget 0 (swcOf s d).aptr p) fun r => [(lp, x)].contains (p, r)).map fun r => (p, r)) = _
  rw [List.filterMap_cons, hf]
  rfl

theorem roundAccepts_none : roundAccepts s d [] = [] := rfl

/-! ## The chunk crosses -/

/-- The switch core without the chunk of a list. -/
def crossed (lp x v n : Nat) (w : SwcSt) : SwcSt :=
  { w with voqs := tset [] w.voqs (8 * lp + 2 * x + v) [], voqPort := tset 0 w.voqPort lp (tget 0 w.voqPort lp - n), voq := w.voq - n,
           free := w.free + n, rr := tset 0 w.rr (4 * lp + x) (1 - v) }

/-- A chunk sent across. -/
def chunkCrossed (d lp x v pid n : Nat) (s : State) : State :=
  modRed x (fun r => { r with inbox := r.inbox ++ [(d, pid)] }) (countBytes (2 * d + 1) (256 * n) (modSwc d (crossed lp x v n) s))

theorem sendChunk_single (hvoq : (swcOf s d).voqs = [(8 * lp + 2 * x + v, [pid])]) (hx : x < 4) (hv : v < 2) (hw : poolWaits s (4 * x) = false) (hl : redLive s x = true) :
    sendChunk d lp x s = chunkCrossed d lp x v pid (pktCells s pid) s := by
  have hfind : ((if tget 0 (swcOf s d).rr (4 * lp + x) = 1 then [1, 0] else [0, 1] : List Nat).find? fun v => voqHas s d lp x v) = some v := by
    have h0 := voqHas_open hvoq hx hv hw lp hx (c := 0) (by decide)
    have h1 := voqHas_open hvoq hx hv hw lp hx (c := 1) (by decide)
    interval_cases v <;> split <;> simp [h0, h1]
  unfold sendChunk
  dsimp only
  rw [hfind]
  dsimp only
  rw [hvoq, tget, if_pos rfl]
  dsimp only
  have hr : redLive (countBytes (2 * d + 1) (256 * pktCells s pid) (modSwc d (crossed lp x v (pktCells s pid)) s)) x = redLive s x := rfl
  rw [hl] at hr
  refine if_neg fun h => ?_
  have hno := (Bool.and_eq_true_iff.1 h).1
  rw [Bool.not_eq_true'] at hno
  exact absurd (hr.symm.trans hno) (by decide)

theorem keeps_chunkCrossed (d lp x v pid n : Nat) {L : Nat} (hk : Keeps true L t s) (m : May 0x2082000 L) : Keeps true L t (chunkCrossed d lp x v pid n s) :=
  modRed_keeps _ _ (countBytes_keeps _ _ (modSwc_keeps _ _ hk (m.sub rfl)) (m.sub rfl)) (m.sub rfl)

theorem swcOf_chunkCrossed (d lp x v pid n : Nat) (s : State) : swcOf (chunkCrossed d lp x v pid n s) d = crossed lp x v n (swcOf s d) := swcOf_modSwc_same d (crossed lp x v n) s

theorem inbox_chunkCrossed (d lp x v pid n : Nat) (s : State) : (redOf (chunkCrossed d lp x v pid n s) x).inbox = (redOf s x).inbox ++ [(d, pid)] :=
  congrArg RedSt.inbox (redOf_modRed_same x (fun r => { r with inbox := r.inbox ++ [(d, pid)] }) (countBytes (2 * d + 1) (256 * n) (modSwc d (crossed lp x v n) s)))

/-- No chunk waits for VOQ room. -/
theorem voqRetry_none (h : (swcOf s d).voqWait = []) : voqRetry d s = s := by
  have hs : voqStall d s = s := if_pos (by rw [h]; rfl)
  unfold voqRetry
  dsimp only
  rw [hs, h]
  rfl

/-- The pointers of the matching leave the lists and the cells. -/
theorem pointers_fields (acc : List (Nat × Nat)) (w : SwcSt) : (pointers acc w).voqs = w.voqs ∧ (pointers acc w).voqWait = w.voqWait ∧ (pointers acc w).free = w.free ∧
    (pointers acc w).voq = w.voq :=
  ⟨foldl_field SwcSt.voqs (u := pointPast) (fun _ _ => rfl) _ _, foldl_field SwcSt.voqWait (u := pointPast) (fun _ _ => rfl) _ _,
    foldl_field SwcSt.free (u := pointPast) (fun _ _ => rfl) _ _, foldl_field SwcSt.voq (u := pointPast) (fun _ _ => rfl) _ _⟩

section
variable {d : FabDie}
variable (hup : coreUp s d = true) (hvoq : (swcOf s d).voqs = [(8 * lp + 2 * x + v, [pid])]) (hx : x < 4) (hv : v < 2) (hwait : (swcOf s d).voqWait = [])
include hup hvoq hx hv hwait

/-- The only waiting chunk crosses to its reduction die. -/
theorem reducerRound_crosses (hlp : lp < 72) (hl : redLive s x = true) (hw : poolWaits s (4 * x) = false) : ∃ t, exec (.reducerMatchingRound d) s = .next t ∧
    t = { s with dbg := t.dbg, swc := t.swc, red := t.red } ∧ (redOf t x).inbox = (redOf s x).inbox ++ [(d.val, pid)] ∧ (swcOf t d).voqs = [] ∧
    (swcOf t d).free = (swcOf s d).free + pktCells s pid ∧ (swcOf t d).voq = (swcOf s d).voq - pktCells s pid := by
  have hex := exec_reducerMatchingRound (d := d) (m1 := [(lp, x)]) (m2 := []) (m3 := []) hup (by rw [roundGrants_first hvoq hx hv hw hlp, roundAccepts_one hx])
    (by rw [roundGrants_later hvoq hx hv hw, roundAccepts_none]) (by rw [List.append_nil, roundGrants_later hvoq hx hv hw, roundAccepts_none])
  obtain ⟨hpv, hpw, hpf, hpq⟩ := pointers_fields [(lp, x)] (swcOf s d)
  have hsw : swcOf (modSwc d (pointers [(lp, x)]) s) d = pointers [(lp, x)] (swcOf s d) := swcOf_modSwc_same ..
  have hsend := sendChunk_single (s := modSwc d (pointers [(lp, x)]) s) (d := d) (lp := lp) (by rw [hsw, hpv, hvoq]) hx hv hw hl
  have hrun : each ([(lp, x)] ++ [] ++ []) (fun m s => sendChunk d m.1 m.2 s) (modSwc d (pointers [(lp, x)]) s) =
      chunkCrossed d lp x v pid (pktCells s pid) (modSwc d (pointers [(lp, x)]) s) := hsend
  have hswt : swcOf (chunkCrossed d lp x v pid (pktCells s pid) (modSwc d (pointers [(lp, x)]) s)) d = crossed lp x v (pktCells s pid) (pointers [(lp, x)] (swcOf s d)) := by
    rw [swcOf_chunkCrossed, hsw]
  have hk : Keeps true 0x2082000 s (chunkCrossed d lp x v pid (pktCells s pid) (modSwc d (pointers [(lp, x)]) s)) :=
    keeps_chunkCrossed _ _ _ _ _ _ (modSwc_keeps _ _ (.refl _ _ s) rfl) rfl
  have hin := inbox_chunkCrossed d lp x v pid (pktCells s pid) (modSwc d (pointers [(lp, x)]) s)
  rw [hrun] at hex
  generalize chunkCrossed d lp x v pid (pktCells s pid) (modSwc d (pointers [(lp, x)]) s) = t at hex hswt hk hin
  rw [voqRetry_none (by rw [hswt]; exact hpw.trans hwait)] at hex
  refine ⟨t, hex, hk.eq, hin, ?_, ?_, ?_⟩
  · rw [hswt]
    change tset [] (pointers [(lp, x)] (swcOf s d)).voqs (8 * lp + 2 * x + v) [] = []
    rw [hpv, hvoq]
    simp [tset, tdel]
  · rw [hswt]
    exact congrArg (· + pktCells s pid) hpf
  · rw [hswt]
    exact congrArg (· - pktCells s pid) hpq

/-- While a chunk intake request of its die waits for a buffer, the chunk stays. -/
theorem reducerRound_holds {y : Pkt} (hw : poolWaits s (4 * x) = true) (hy : pktOf s pid = some y) (hc : hPtype y.hdr = ptChunk) :
    ∃ t, exec (.reducerMatchingRound d) s = .next t ∧ t.red = s.red ∧ (swcOf t d).voqs = (swcOf s d).voqs := by
  have hnone : roundAccepts s d (roundGrants s d []) = [] := by rw [roundGrants_held hvoq hx hv hw hy hc, roundAccepts_none]
  have hex := exec_reducerMatchingRound (d := d) (m1 := []) (m2 := []) (m3 := []) hup hnone hnone hnone
  have hsw : swcOf (modSwc d (pointers []) s) d = swcOf s d := swcOf_modSwc_same d (pointers []) s
  have hrun : each ([] ++ [] ++ []) (fun (m : Nat × Nat) s => sendChunk d m.1 m.2 s) (modSwc d (pointers []) s) = modSwc d (pointers []) s := rfl
  rw [hrun, voqRetry_none (by rw [hsw, hwait])] at hex
  exact ⟨_, hex, rfl, by rw [hsw]⟩

end

end

end Sys2Proof.Machine
end

section
/-! The schedulers' statement, assembled from its rows. -/

namespace Sys2Proof.Machine

/-- Settles O51: grants, age, shapers, samples, rejoining and the reducer ports. -/
theorem schedulerGrants : Obligations.SchedulerGrants := by
  intro s hi hl
  refine ⟨fun p x v => ⟨exec_queueGrant_busy p x v, fun q e y hv hc hq he hg hy hx hsess htx => ⟨fun hsw => queueGrant_switch hv hc hq he hg hy hsess hi hx hsw,
      fun hsw hkey => queueGrant_key hv hc hq he hg hy hsess hsw hkey htx⟩,
    fun c e y hlit hv hc hy htail he => ⟨vcGrant_flit hlit hv hc hy htail he, vcGrant_last hlit hv hc hy htail he⟩⟩, fun p x q => ?queue, fun d hd => ?die⟩
  case queue =>
    exact ⟨exec_ageSweep_served, fun hv hnd hsess htx => ageSweep_purges hl hv hnd hsess htx, shaperCreditZero_books hl, fun at_ hm ha => rejoin_joins hm ha, exec_rejoin_none⟩
  case die =>
    refine ⟨fun hnd => ?_, fun lp x v pid hvoq hlp hx hv hwait hred => ⟨fun hw => reducerRound_crosses hd hvoq hx hv hwait hlp hred hw,
      fun y hw hy hc => reducerRound_holds hd hvoq hx hv hwait hw hy hc⟩⟩
    obtain ⟨t, hex, hfr, hin, hout⟩ := depthSample_books hd hnd
    refine ⟨t, hex, hfr, fun g hg hgd => ?_, hout⟩
    obtain ⟨hq, hlev⟩ := hin g hg hgd
    rw [hq]
    exact ⟨rfl, hlev, rfl, rfl⟩

end Sys2Proof.Machine
end

section
/-! SUPPORT. Fields of a register word (R5): what a field reads after it, or another, has been set. -/

namespace Sys2Proof.Machine

variable {n lo len : Nat} {w : BitVec n}

theorem testBit_fld (w : BitVec n) (lo len i : Nat) : (fld w lo len).testBit i = (decide (i < len) && w.getLsbD (lo + i)) := by
  simp only [fld, BitVec.extractLsb'_toNat, Nat.testBit_mod_two_pow, Nat.testBit_shiftRight, BitVec.getLsbD]

theorem getLsbD_setFld (w : BitVec n) (lo len v i : Nat) :
    (setFld w lo len v).getLsbD i = if lo ≤ i ∧ i < lo + len then decide (i < n) && v.testBit (i - lo) else w.getLsbD i := by
  simp only [setFld, BitVec.getLsbD_or, BitVec.getLsbD_and, BitVec.getLsbD_not, BitVec.getLsbD_shiftLeft, BitVec.getLsbD_ofNat, Nat.testBit_two_pow_sub_one,
    Nat.testBit_mod_two_pow]
  by_cases hi : i < n
  · by_cases hlo : i < lo
    · simp [hi, hlo, Nat.not_le.2 hlo]
    · by_cases hlen : i - lo < len
      · simp [hi, hlo, hlen, show lo ≤ i ∧ i < lo + len by omega, show i - lo < n by omega]
      · simp [hi, hlo, hlen, show ¬ i < lo + len by omega]
  · simp [hi, BitVec.getLsbD_of_ge w i (by omega)]

theorem fld_setFld_same (w : BitVec n) (v : Nat) (h : lo + len ≤ n) : fld (setFld w lo len v) lo len = v % 2 ^ len := by
  refine Nat.eq_of_testBit_eq fun i => ?_
  rw [testBit_fld, getLsbD_setFld, Nat.testBit_mod_two_pow]
  by_cases hi : i < len
  · simp [hi, show lo + i < n by omega]
  · simp [hi]

theorem fld_setFld_other {a b : Nat} (w : BitVec n) (v : Nat) (h : a + b ≤ lo ∨ lo + len ≤ a) : fld (setFld w lo len v) a b = fld w a b := by
  refine Nat.eq_of_testBit_eq fun i => ?_
  rw [testBit_fld, testBit_fld, getLsbD_setFld]
  by_cases hi : i < b
  · rw [if_neg (by omega)]
  · simp [hi]

theorem fld_lt (w : BitVec n) (lo len : Nat) : fld w lo len < 2 ^ len := (w.extractLsb' lo len).isLt

theorem bitOf_setFld_other {i : Nat} (w : BitVec n) (v : Nat) (h : i < lo ∨ lo + len ≤ i) : bitOf (setFld w lo len v) i = bitOf w i := by
  rw [bitOf, getLsbD_setFld, if_neg (by omega), bitOf]

end Sys2Proof.Machine
end

section
/-! SUPPORT. What the routing of packets changes of the route tables (R111, R131): the rotating pointers and the counters, and nothing else. -/

namespace Sys2Proof.Machine

/-- The route tables and the clearing's state, without the rotating pointers and the counters. -/
def routeTables (s : State) : RouteSt := { s.route with ptr := [], cnt := [] }

section
variable {s t u : State}

/-- Two states of the same tables have routes that differ in pointers and counters only. -/
theorem route_of_tables (h : routeTables t = routeTables s) : ∃ p c, t.route = { s.route with ptr := p, cnt := c } :=
  ⟨t.route.ptr, t.route.cnt, congrArg (fun r : RouteSt => { r with ptr := t.route.ptr, cnt := t.route.cnt }) h⟩

theorem routeTables_of_keeps (h : Keeps true 0x7fffbfff s t) : routeTables t = routeTables s := by
  unfold routeTables
  rw [h.only.route (by decide)]

theorem routeTables_dropPkt (pid : Nat) (s : State) : routeTables (dropPkt pid s) = routeTables s := routeTables_of_keeps (dropPkt_keeps _ (.refl _ _ s) rfl)

theorem routeTables_unlink (g pid : Nat) (s : State) : routeTables (unlink g pid s) = routeTables s := routeTables_of_keeps (unlink_keeps _ _ (.refl _ _ s) rfl)

theorem routeTables_lookup (d : Nat) (h : Hdr) (s : State) : routeTables (lookup d h s).2 = routeTables s := by
  unfold lookup
  dsimp only
  split
  · split
    · rfl
    · split
      · rfl
      · split
        · split
          · rfl
          · split <;> rfl
        · split <;> rfl
  · rfl
  · rfl

theorem routeTables_routePkt (d pid : Nat) (s : State) : routeTables (routePkt d pid s) = routeTables s := by
  unfold routePkt
  split
  · rfl
  · next p _ =>
    have hl : routeTables (lookup d p.hdr (swcInject d 1 s)).2 = routeTables s :=
      (routeTables_lookup ..).trans (routeTables_of_keeps (swcInject_keeps _ _ (.refl _ _ s) rfl))
    split
    · exact routeTables_dropPkt ..
    · split
      · next e => exact (routeTables_dropPkt ..).trans ((congrArg (fun r => routeTables r.2) e).symm.trans hl)
      · next e => exact (routeTables_of_keeps (toEgress_keeps _ _ _ _ _ _ (.refl _ _ _) rfl)).trans ((congrArg (fun r => routeTables r.2) e).symm.trans hl)

theorem routeTables_formCopy (o : Obs) (s : State) : routeTables (formCopy o s) = routeTables s := by
  have hv : routeTables (if bitOf o.ctl 30 then draw s else (0, s)).2 = routeTables s := by split <;> rfl
  unfold formCopy
  dsimp only
  generalize (if bitOf o.ctl 30 = true then draw s else (0, s)) = vs at hv ⊢
  split
  · exact hv
  · split
    · exact hv
    · exact (routeTables_routePkt ..).trans hv

theorem routeTables_mirrorDrop (pos pid : Nat) (s : State) : routeTables (mirrorDrop pos pid s) = routeTables s := by
  unfold mirrorDrop
  split
  · rfl
  · next p _ =>
    have ho : routeTables (observe pos 1 true p s).2 = routeTables s := routeTables_of_keeps (observe_keeps _ _ _ _ (.refl _ _ s) rfl)
    have hc (os : List Obs) : routeTables (each os formCopy (observe pos 1 true p s).2) = routeTables s := (each_field _ routeTables_formCopy).trans ho
    dsimp only
    split
    · split
      · exact hc _
      · exact ho
    · exact hc _

theorem routeTables_ageHead (n g : Nat) (s : State) : routeTables (ageHead n g s) = routeTables s := by
  induction n generalizing s with
  | zero => rfl
  | succ n ih =>
    unfold ageHead
    split
    · split
      · split
        · exact (ih _).trans ((routeTables_unlink ..).trans (routeTables_mirrorDrop ..))
        · rfl
      · rfl
    · rfl

/-- Packets held by a clearing that go on (R117, R119). -/
theorem routeTables_releaseHeld (s : State) : routeTables (releaseHeld s) = routeTables s := by
  refine each_field routeTables fun key a => each_field routeTables fun e b => ?_
  split
  · rfl
  · next p _ =>
    have hs : routeTables (if p.tailIn then dropEntry (key / 8) (key % 8) e.pid b else setStage (key / 8) (key % 8) e.pid .forwarded b) = routeTables b := by
      split <;> rfl
    dsimp only
    generalize (if p.tailIn = true then dropEntry (key / 8) (key % 8) e.pid b else setStage (key / 8) (key % 8) e.pid .forwarded b) = u at hs ⊢
    split
    · exact (routeTables_dropPkt ..).trans hs
    · exact (routeTables_routePkt ..).trans hs

/-- The purge at DRAIN_LIMIT (R120). -/
theorem routeTables_clrPurge (c : Clearing) (s : State) : routeTables (clrPurge c s) = routeTables s := by
  refine each_field routeTables fun m a => each_field routeTables fun pid b => ?_
  split
  · next p _ =>
    have hm : routeTables (mirrorDrop (m.g / 8) pid (routeCnt (0x300 + 0x20 * qdie m.g + 0x10) p.cells b)) = routeTables b := routeTables_mirrorDrop ..
    dsimp only
    split
    · split
      · exact (routeTables_ageHead ..).trans ((routeTables_unlink ..).trans hm)
      · exact (routeTables_dropPkt ..).trans hm
    · rfl
  · rfl

end

end Sys2Proof.Machine
end

section
/-! SUPPORT. Clearings (R117 to R125): what their operations do to the clearing, to the tables and to the lists of dirty records. -/

namespace Sys2Proof.Machine

variable {s t : State} {c : Clearing}

/-! ## The clearing's own fields -/

theorem modClr_of_clr (f : Clearing → Clearing) (h : s.route.clr = some c) : modClr f s = { s with route := { s.route with clr := some (f c) } } := by
  simp only [modClr, modRoute, h, Option.map_some]

/-- The clearing, the markers at their heads taken away. -/
def unmarked (c : Clearing) (s : State) : Clearing := { c with markers := c.markers.filter fun m => !markerDone s m }

theorem clrMarkers_of_clr (h : s.route.clr = some c) : clrMarkers s = { s with route := { s.route with clr := some (unmarked c s) } } := by
  unfold clrMarkers
  rw [h]
  exact modClr_of_clr _ h

/-- HOLD keeps the destinations affected and leaves the tables alone. -/
theorem clrHold_of_clr (h : s.route.clr = some c) :
    ∃ x, clrHold s = { s with route := { s.route with clr := some x } } ∧ x.affected = affectedKeys s c.dieMask := by
  unfold clrHold
  rw [h]
  exact ⟨_, modClr_of_clr _ h, rfl⟩

/-- Without a STAGE message that waits nothing follows the end of a clearing. -/
theorem stageWaiting_none (h : s.route.waitMsg = none) : stageWaiting s = s := by
  unfold stageWaiting
  split
  · next hm => rw [h] at hm; cases hm
  · rfl

theorem ringOf_modRing_same (r : Nat) (f : Ring → Ring) (s : State) : ringOf (modRing r f s) r = f (ringOf s r) := tget_tmod_eq _ _ _ _

/-! ## The end of a clearing -/

/-- A clearing ends: of the tables only pointers and counters change besides, as held packets go. -/
theorem clrEnd_route (b : Bool) (s : State) : ∃ p n, (clrEnd b s).route = { s.route with clr := none, reverted := b, ptr := p, cnt := n } :=
  route_of_tables (routeTables_releaseHeld _)

theorem dirtyEnt_each_dropped {f : RouteSt → Nat → Tbl Word} (l : List Nat) (s : State) :
    (each l (fun k => modRoute fun r => { r with shadow := f r k, dirtyEnt := r.dirtyEnt.filter (· ≠ k) }) s).route.dirtyEnt = s.route.dirtyEnt.filter (· ∉ l) := by
  induction l generalizing s with
  | nil => simp
  | cons k r ih =>
    rw [each_cons, ih, modRoute_route, List.filter_filter]
    exact List.filter_congr fun e _ => by simp [Bool.and_comm]

/-- Dropped records are dirty no more. -/
theorem dirtyEnt_dropDirty (m : BitVec 4) (s : State) : (dropDirty m s).route.dirtyEnt = s.route.dirtyEnt.filter (· ∉ dirtyEnts s m) :=
  Eq.trans (each_field (fun a => a.route.dirtyEnt) fun _ _ => rfl) (dirtyEnt_each_dropped (dirtyEnts s m) s)

/-- The fields of the tables that the dropping of dirty records changes. -/
theorem dropDirty_route (m : BitVec 4) (s : State) : ∃ sh es shs ds, (dropDirty m s).route = { s.route with shadow := sh, dirtyEnt := es, shadowSet := shs, dirtySet := ds } := by
  have hent (l : List Nat) (a : State) : ∃ sh es, (each l (fun k => modRoute fun r => { r with shadow := tset 0 r.shadow k (tget 0 r.live k), dirtyEnt := r.dirtyEnt.filter (· ≠ k) }) a).route =
      { a.route with shadow := sh, dirtyEnt := es } :=
    each_induct (P := fun b => ∃ sh es, b.route = { a.route with shadow := sh, dirtyEnt := es }) (fun _ _ b ⟨_, _, hb⟩ => ⟨_, _, by rw [modRoute_route, hb]⟩) ⟨_, _, rfl⟩
  have hset (l : List Nat) (a : State) : ∃ sh es, (each l (fun k => modRoute fun r => { r with shadowSet := tset 0 r.shadowSet k (tget 0 r.liveSet k), dirtySet := r.dirtySet.filter (· ≠ k) }) a).route =
      { a.route with shadowSet := sh, dirtySet := es } :=
    each_induct (P := fun b => ∃ sh es, b.route = { a.route with shadowSet := sh, dirtySet := es }) (fun _ _ b ⟨_, _, hb⟩ => ⟨_, _, by rw [modRoute_route, hb]⟩) ⟨_, _, rfl⟩
  obtain ⟨sh, es, he⟩ := hent (dirtyEnts s m) s
  obtain ⟨shs, ds, hs⟩ := hset _ _
  exact ⟨sh, es, shs, ds, hs.trans (by rw [he])⟩

/-- The clearing of s is reverted in t: none is left, and the old table stands. -/
structure Reverted (s t : State) : Prop where
  clr : t.route.clr = none
  marked : t.route.reverted = true
  live : t.route.live = s.route.live
  liveSet : t.route.liveSet = s.route.liveSet
  waitMsg : t.route.waitMsg = s.route.waitMsg

theorem clrRevert_of_clr (h : s.route.clr = some c) :
    clrRevert s = iff (c.src == .manager) (modRoute fun r => { r with lastAck := .idle }) (clrEnd true (dropDirty c.dieMask s)) := by
  unfold clrRevert
  rw [h]

theorem clrRevert_reverted (h : s.route.clr = some c) : Reverted s (clrRevert s) := by
  obtain ⟨_, _, _, _, hd⟩ := dropDirty_route c.dieMask s
  obtain ⟨_, _, he⟩ := clrEnd_route true (dropDirty c.dieMask s)
  have hr : Reverted s (clrEnd true (dropDirty c.dieMask s)) := by
    constructor <;> rw [he, hd]
  rw [clrRevert_of_clr h]
  cases c.src == .manager
  · exact hr
  · exact ⟨hr.clr, hr.marked, hr.live, hr.liveSet, hr.waitMsg⟩

theorem clrRevert_dirtyEnt (h : s.route.clr = some c) : (clrRevert s).route.dirtyEnt = s.route.dirtyEnt.filter (· ∉ dirtyEnts s c.dieMask) := by
  obtain ⟨_, _, he⟩ := clrEnd_route true (dropDirty c.dieMask s)
  have hr : (clrEnd true (dropDirty c.dieMask s)).route.dirtyEnt = s.route.dirtyEnt.filter (· ∉ dirtyEnts s c.dieMask) := by
    rw [he]
    exact dirtyEnt_dropDirty c.dieMask s
  rw [clrRevert_of_clr h]
  cases c.src == .manager
  · exact hr
  · exact hr

end Sys2Proof.Machine
end

section
/-! SUPPORT. COMMIT (R117, R125): every step copies up to 8,192 dirty records to the live bank, those of fenced dies excepted. -/

namespace Sys2Proof.Machine

/-! ## One bank -/

section
variable {n : Nat} {lost : Nat → Bool} {shadow live live' live'' : Tbl (BitVec n)} {dirty dirty' dirty'' : List Nat}

/-- Of the dirty records of a bank those no longer dirty have been copied to the live bank, the lost ones excepted; no other live record has changed. -/
structure Flushed (lost : Nat → Bool) (shadow live live' : Tbl (BitVec n)) (dirty dirty' : List Nat) : Prop where
  left : dirty' ⊆ dirty
  copied : ∀ e, tget 0 live' e = if e ∈ dirty ∧ e ∉ dirty' ∧ lost e = false then tget 0 shadow e else tget 0 live e

theorem Flushed.refl (lost : Nat → Bool) (shadow live : Tbl (BitVec n)) (dirty : List Nat) : Flushed lost shadow live live dirty dirty :=
  ⟨List.Subset.refl _, fun _ => (if_neg fun h => h.2.1 h.1).symm⟩

theorem Flushed.trans (h : Flushed lost shadow live live' dirty dirty') (h' : Flushed lost shadow live' live'' dirty' dirty'') :
    Flushed lost shadow live live'' dirty dirty'' := by
  refine ⟨fun e he => h.left (h'.left he), fun e => ?_⟩
  rw [h'.copied, h.copied]
  by_cases hd : e ∈ dirty'
  · simp [hd, h.left hd]
  · have hd' : e ∉ dirty'' := fun he => hd (h'.left he)
    simp [hd, hd']

/-- One step that copies the first k dirty records. -/
theorem flushed_take (lost : Nat → Bool) (shadow live : Tbl (BitVec n)) (dirty : List Nat) (k : Nat) :
    Flushed lost shadow live (((dirty.take k).filter fun e => !lost e).foldl (fun t e => tset 0 t e (tget 0 shadow e)) live) dirty
      (dirty.filter fun e => !(dirty.take k).contains e) := by
  refine ⟨List.filter_subset_self _, fun e => ?_⟩
  rw [tget_foldl_tset]
  refine if_congr ?_ rfl rfl
  have := List.mem_of_mem_take (a := e) (i := k) (l := dirty)
  simp only [List.mem_filter, Bool.not_eq_eq_eq_not, Bool.not_true, decide_eq_false_iff_not, List.elem_eq_mem]
  tauto

theorem length_filter_not_take (dirty : List Nat) (k : Nat) : (dirty.filter fun e => !(dirty.take k).contains e).length ≤ dirty.length - k := by
  have h : dirty.filter (fun e => !(dirty.take k).contains e) = (dirty.drop k).filter fun e => !(dirty.take k).contains e := by
    conv_lhs => rw [← List.take_append_drop k dirty]
    rw [List.filter_append, List.filter_eq_nil_iff.2 (by simp), List.nil_append]
    rw [List.take_append_drop]
  rw [h]
  exact (List.length_filter_le _ _).trans (List.length_drop ..).le

end

/-! ## COMMIT -/

section
variable {m : BitVec 4} {s t u : State} {c : Clearing}

/-- Commit steps lead from s to t: both banks have been copied so far, and nothing changes but the live banks, the lists of dirty records and the
clearing's own mark. -/
structure Commits (m : BitVec 4) (s t : State) : Prop where
  frame : ∃ l e ls d x, t = { s with route := { s.route with live := l, dirtyEnt := e, liveSet := ls, dirtySet := d, clr := x } }
  ents : Flushed (fun e => bitOf s.units.fabLost (e / 2 ^ 20)) s.route.shadow s.route.live t.route.live (dirtyEnts s m) (dirtyEnts t m)
  sets : Flushed (fun e => bitOf s.units.fabLost (e / 2 ^ 14)) s.route.shadowSet s.route.liveSet t.route.liveSet (dirtySets s m) (dirtySets t m)

theorem Commits.refl (m : BitVec 4) (s : State) : Commits m s s := ⟨⟨_, _, _, _, _, rfl⟩, .refl .., .refl ..⟩

theorem Commits.trans (h : Commits m s t) (h' : Commits m t u) : Commits m s u := by
  obtain ⟨⟨l, e, ls, d, x, rfl⟩, he, hs⟩ := h
  obtain ⟨⟨l', e', ls', d', x', rfl⟩, he', hs'⟩ := h'
  exact ⟨⟨_, _, _, _, _, rfl⟩, he.trans he', hs.trans hs'⟩

/-- The dirty records of the dies named. -/
def dirtyCount (m : BitVec 4) (s : State) : Nat := (dirtyEnts s m).length + (dirtySets s m).length

/-- The records that one step takes. -/
def entsTaken (m : BitVec 4) (s : State) : List Nat := (dirtyEnts s m).take 8192
def setsTaken (m : BitVec 4) (s : State) : List Nat := (dirtySets s m).take (8192 - (entsTaken m s).length)

theorem dirtyEnts_clrCommit (m : BitVec 4) (s : State) : dirtyEnts (clrCommit m s) m = (dirtyEnts s m).filter fun e => !(entsTaken m s).contains e :=
  List.filter_comm ..

theorem dirtySets_clrCommit (m : BitVec 4) (s : State) : dirtySets (clrCommit m s) m = (dirtySets s m).filter fun e => !(setsTaken m s).contains e :=
  List.filter_comm ..

theorem commits_clrCommit (m : BitVec 4) (s : State) : Commits m s (clrCommit m s) :=
  ⟨⟨_, _, _, _, _, rfl⟩, dirtyEnts_clrCommit m s ▸ flushed_take _ _ _ _ _, dirtySets_clrCommit m s ▸ flushed_take _ _ _ _ _⟩

theorem dirtyCount_clrCommit (m : BitVec 4) (s : State) : dirtyCount m (clrCommit m s) ≤ dirtyCount m s - 8192 := by
  have he := length_filter_not_take (dirtyEnts s m) 8192
  have hs := length_filter_not_take (dirtySets s m) (8192 - (entsTaken m s).length)
  have hl : (entsTaken m s).length = min 8192 (dirtyEnts s m).length := List.length_take ..
  unfold dirtyCount
  rw [dirtyEnts_clrCommit, dirtySets_clrCommit]
  unfold setsTaken
  rw [hl] at hs ⊢
  unfold entsTaken
  omega

/-- Steps of COMMIT one after another. -/
theorem commits_steps (m : BitVec 4) (l : List Nat) (s : State) :
    Commits m s (l.foldl (fun s _ => clrCommit m s) s) ∧ dirtyCount m (l.foldl (fun s _ => clrCommit m s) s) ≤ dirtyCount m s - 8192 * l.length := by
  induction l generalizing s with
  | nil => exact ⟨.refl m s, Nat.le_refl _⟩
  | cons x r ih =>
    obtain ⟨hc, hn⟩ := ih (clrCommit m s)
    have hs := dirtyCount_clrCommit m s
    refine ⟨(commits_clrCommit m s).trans hc, ?_⟩
    rw [List.foldl_cons, List.length_cons]
    omega

/-- The steps that a phase COMMIT runs leave nothing dirty. -/
theorem commits_all (m : BitVec 4) (s : State) :
    ∃ t, (List.range (commitSteps s m + 1)).foldl (fun s _ => clrCommit m s) s = t ∧ Commits m s t ∧ dirtyEnts t m = [] ∧ dirtySets t m = [] := by
  obtain ⟨hc, hn⟩ := commits_steps m (List.range (commitSteps s m + 1)) s
  have hsteps : commitSteps s m = (dirtyCount m s + 8192 - 1) / 8192 := rfl
  have hzero : dirtyCount m s - 8192 * (commitSteps s m + 1) = 0 := by omega
  rw [List.length_range, hzero] at hn
  obtain ⟨he, hs⟩ := Nat.add_eq_zero_iff.1 (Nat.le_zero.1 hn)
  exact ⟨_, rfl, hc, List.eq_nil_of_length_eq_zero he, List.eq_nil_of_length_eq_zero hs⟩

end

end Sys2Proof.Machine
end

section
/-! The phases of a clearing on a worker, its markers, limits and reverts (R117, R120, R121, R124, R125). -/

namespace Sys2Proof.Machine

/-! ## DRAIN on a Skarad whose ring runs the clearing -/

section
variable {s : State} {c : Clearing} {r : Nat} {k : RunCmd}

/-- The markers left once those of queue g that are at its head are taken away. -/
def markersLeft (c : Clearing) (g : Nat) (s : State) : List Marker := c.markers.filter fun m => !(m.g = g && markerDone s m)

theorem exec_drainMarkerReached (h : s.route.clr = some c) (p : Port) (x : Strand) (q : Fin 8) : exec (.drainMarkerReached p x q) s =
    .next (let ms := markersLeft c (8 * subKey s p x + q.val) s
      let t := { s with route := { s.route with clr := some { c with markers := ms } } }
      if ms.isEmpty && !c.markers.isEmpty && c.src == .manager && c.phase == .drain then phaseEnded .drain t else t) := by
  simp only [exec, execDrainMarkerReached, h, modClr_of_clr _ h]
  rfl

theorem exec_drainMarkerReached_ring (h : s.route.clr = some c) (hsrc : c.src = .ring r) (p : Port) (x : Strand) (q : Fin 8) :
    exec (.drainMarkerReached p x q) s = .next { s with route := { s.route with
      clr := some { c with markers := c.markers.filter fun m => !(m.g = 8 * subKey s p x + q.val && markerDone s m) } } } := by
  rw [exec_drainMarkerReached h, hsrc]
  exact congrArg Host.Outcome.next (if_neg (by simp))

theorem exec_drainLimitTimeout_otherPhase (h : s.route.clr = some c) (hp : c.phase ≠ .drain) : exec .drainLimitTimeout s = .next s := by
  simp only [exec, execDrainLimitTimeout, h]
  simp [hp]

/-- DRAIN at its limit. -/
def drainDue (c : Clearing) (s : State) : State :=
  { s with clock := max s.clock (c.heardAt + 1000 * drainUs s), route := { s.route with clr := some (unmarked c s) } }

/-- The ring's command ends with status 6 after the steps done. -/
def endTimedOut (r n : Nat) : State → State :=
  modRing r fun x => { x with cur := x.cur.map fun k => { k with dones := n, total := n, result := some (6, BitVec.ofNat 32 n) } }

theorem exec_drainLimitTimeout_ring (h : s.route.clr = some c) (hsrc : c.src = .ring r) (hp : c.phase = .drain) (hm : ∃ m ∈ c.markers, markerDone s m = false) :
    exec .drainLimitTimeout s =
    .next (let t := clrTimeout (drainDue c s); if t.route.clr.isSome then t else stageWaiting (endTimedOut r (c.dones + 1) t)) := by
  have hleft : (unmarked c s).markers.isEmpty = false := by
    obtain ⟨m, hc, hd⟩ := hm
    exact List.isEmpty_eq_false_iff.2 (List.ne_nil_of_mem (List.mem_filter.2 ⟨hc, by rw [hd]; rfl⟩))
  have hend : clrMarkers (clockTo (c.heardAt + 1000 * drainUs s) s) = drainDue c s := clrMarkers_of_clr (s := clockTo _ s) h
  simp only [exec, execDrainLimitTimeout, h, clrMarkers_of_clr h, hp, hend, hsrc, Option.elim_some, hleft]
  rfl

section
variable (h : s.route.clr = some c) (hsrc : c.src = .ring r) (hp : c.phase = .drain) (hm : ∃ m ∈ c.markers, markerDone s m = false)
include h hsrc hp hm

/-- ON_TIMEOUT 0: the clearing reverts, and the ring's command ends with status 6. -/
theorem drainLimit_reverts (hw : s.route.waitMsg = none) (hk : (ringOf s r).cur = some k) (ht : s.route.onTimeout = false) :
    ∃ t, exec .drainLimitTimeout s = .next t ∧ t.clock = max s.clock (c.heardAt + 1000 * drainUs s) ∧ t.route.clr = none ∧ t.route.reverted = true ∧
      t.route.live = s.route.live ∧ t.route.liveSet = s.route.liveSet ∧ (∀ e ∈ dirtyEnts s c.dieMask, e ∉ t.route.dirtyEnt) ∧
      (∃ x, (ringOf t r).cur = some x ∧ x.result = some (6, BitVec.ofNat 32 (c.dones + 1))) := by
  have htime : clrTimeout (drainDue c s) = clrRevert (drainDue c s) := by simp only [clrTimeout, drainDue, ht]; rfl
  have hr : Reverted (drainDue c s) (clrRevert (drainDue c s)) := clrRevert_reverted rfl
  have hd : (clrRevert (drainDue c s)).route.dirtyEnt = s.route.dirtyEnt.filter (· ∉ dirtyEnts s c.dieMask) := clrRevert_dirtyEnt (s := drainDue c s) (c := unmarked c s) rfl
  have hkeep : Keeps true 0x17b4081 (drainDue c s) (clrRevert (drainDue c s)) := clrRevert_keeps (.refl _ _ _) rfl
  have hring : ringOf (clrRevert (drainDue c s)) r = ringOf s r := by
    unfold ringOf
    rw [hkeep.only.cmd (by decide)]
    rfl
  rw [exec_drainLimitTimeout_ring h hsrc hp hm, htime]
  dsimp only
  rw [hr.clr, if_neg (by simp), stageWaiting_none (s := endTimedOut ..) (hr.waitMsg.trans hw)]
  refine ⟨_, rfl, hkeep.only.clock (by decide), hr.clr, hr.marked, hr.live, hr.liveSet, fun e he => ?_, { k with dones := c.dones + 1, total := c.dones + 1, result := _ }, ?_, rfl⟩
  · rw [show (endTimedOut r (c.dones + 1) (clrRevert (drainDue c s))).route = (clrRevert (drainDue c s)).route from rfl, hd]
    simp [he]
  · rw [endTimedOut, ringOf_modRing_same, hring]
    exact congrArg (Option.map _) hk

/-- ON_TIMEOUT 1: what is ahead of the markers is purged, and COMMIT follows. -/
theorem drainLimit_purges (ht : s.route.onTimeout = true) :
    ∃ t, exec .drainLimitTimeout s = .next t ∧ t.clock = max s.clock (c.heardAt + 1000 * drainUs s) ∧
      (∃ x, t.route.clr = some x ∧ x.phase = commitPhase s c.dieMask ∧ x.markers = [] ∧ x.affected = c.affected ∧ x.purged = true) ∧
      t.route.live = s.route.live ∧ t.route.liveSet = s.route.liveSet ∧ t.cmd = s.cmd := by
  have hkeep : Keeps true 0x1fbc083 (drainDue c s) (clrPurge (unmarked c s) (drainDue c s)) := clrPurge_keeps _ (.refl _ _ _) rfl
  obtain ⟨p, n, hroute⟩ := route_of_tables (routeTables_clrPurge (unmarked c s) (drainDue c s))
  have hclr : (clrPurge (unmarked c s) (drainDue c s)).route.clr = some (unmarked c s) := by rw [hroute]; rfl
  have hphase : commitPhase (clrPurge (unmarked c s) (drainDue c s)) c.dieMask = commitPhase s c.dieMask := by
    simp only [commitPhase, commitOver, dirtyEnts, dirtySets, hroute]
    rfl
  have htime : clrTimeout (drainDue c s) = { clrPurge (unmarked c s) (drainDue c s) with route := { (clrPurge (unmarked c s) (drainDue c s)).route with
      clr := some { unmarked c s with phase := commitPhase s c.dieMask, markers := [], purged := true } } } := by
    have hsrc' : (unmarked c s).src = .ring r := hsrc
    have hm' : (unmarked c s).dieMask = c.dieMask := rfl
    simp only [clrTimeout, show (drainDue c s).route.clr = some (unmarked c s) from rfl, show (drainDue c s).route.onTimeout = true from ht, if_true, modClr_of_clr _ hclr, hsrc', hm', hphase]
    rfl
  rw [exec_drainLimitTimeout_ring h hsrc hp hm, htime]
  refine ⟨_, rfl, hkeep.only.clock (by decide), ⟨_, rfl, rfl, rfl, rfl, rfl⟩, ?_, ?_, hkeep.only.cmd (by decide)⟩
  · exact (congrArg RouteSt.live hroute :)
  · exact (congrArg RouteSt.liveSet hroute :)

end

end

/-! ## The manager's messages at a worker -/

/-- Hearing the manager: a clearing that it drives notes when. -/
def heardClr (s : State) : Option Clearing := s.route.clr.map fun c => if c.src = .manager then { c with heardAt := s.clock } else c

def hear (s : State) : State := { s with route := { s.route with clr := heardClr s } }

section
variable {s u : State} {m : PhaseMsg} {c : Clearing}

theorem hear_clr (h : s.route.clr = some c) (hsrc : c.src = .manager) : (hear s).route.clr = some { c with heardAt := s.clock } := by
  simp [hear, heardClr, h, hsrc]

theorem phaseFits_hear (s : State) (m : PhaseMsg) : phaseFits (hear s) m = phaseFits s m := by
  have hc : coversVc0 (hear s) m.tcMask = coversVc0 s m.tcMask := rfl
  unfold phaseFits
  rw [hc]
  cases h : s.route.clr with
  | none => simp [hear, heardClr, h]
  | some c =>
    rw [show (hear s).route.clr = some (if c.src = .manager then { c with heardAt := s.clock } else c) by simp [hear, heardClr, h]]
    by_cases hsrc : c.src = .manager
    · rw [if_pos hsrc]
      cases m.phase <;> rfl
    · rw [if_neg hsrc]

variable (ha : alive s = true) (hw : s.gctl.role ≠ .manager) (hr : m.revert = false)
include ha hw hr

theorem exec_phaseMessage : exec (.fabricPhaseMessage m) s =
    .next (let r := servePhase m (hear s); if r.1 then stageWaiting (phaseEnded m.phase r.2) else r.2) := by
  simp only [exec, execFabricPhaseMessage, ha, isMgr_eq_false hw, hr]
  rfl

theorem exec_phase_unfit (hf : phaseFits s m = false) (hl : m.phase ≠ s.route.lastAck ∨ m.phase = .idle) : exec (.fabricPhaseMessage m) s = .next (hear s) := by
  have hs : servePhase m (hear s) = (false, hear s) := by
    have hl' : ¬ (m.phase = (hear s).route.lastAck ∧ m.phase ≠ .idle) := fun h => hl.elim (· h.1) h.2
    simp [servePhase, phaseFits_hear, hf, hl']
  rw [exec_phaseMessage ha hw hr, hs]
  rfl

theorem exec_phase_runs (hf : phaseFits s m = true) (hl : m.phase ≠ s.route.lastAck) : exec (.fabricPhaseMessage m) s =
    .next (let r := runPhase m (hear s); if r.1 then stageWaiting (phaseEnded m.phase r.2) else r.2) := by
  have hs : servePhase m (hear s) = ((runPhase m (hear s)).1, iff (runPhase m (hear s)).1 (phaseDone m.phase) (runPhase m (hear s)).2) := by
    have hl' : ¬ (m.phase = (hear s).route.lastAck ∧ m.phase ≠ .idle) := fun h => hl h.1
    simp [servePhase, phaseFits_hear, hf, hl']
  rw [exec_phaseMessage ha hw hr, hs]
  dsimp only
  cases (runPhase m (hear s)).1 <;> rfl

/-- A phase that has not ended is not acknowledged. -/
theorem exec_phase_goesOn (hf : phaseFits s m = true) (hl : m.phase ≠ s.route.lastAck) (hrun : runPhase m (hear s) = (false, u)) :
    exec (.fabricPhaseMessage m) s = .next u := by
  rw [exec_phase_runs ha hw hr hf hl, hrun]
  rfl

omit ha hr in
/-- A worker that has ended a phase tells the manager. -/
theorem stageWaiting_phaseEnded {ph : ClrPhase} (hk : Keeps true 0x17b4081 s u) (hn : u.route.waitMsg = none) :
    stageWaiting (phaseEnded ph u) = { u with out := .phaseAck s.gctl.coord ph :: u.out, route := { u.route with lastAck := ph } } := by
  have hg : u.gctl = s.gctl := hk.only.gctl (by decide)
  have hm : isMgr (phaseDone ph u) = false := isMgr_eq_false (hg ▸ hw)
  have he : phaseEnded ph u = { u with out := .phaseAck s.gctl.coord ph :: u.out, route := { u.route with lastAck := ph } } := by
    unfold phaseEnded
    dsimp only
    rw [hm, ← hg]
    rfl
  rw [he]
  exact stageWaiting_none hn

/-- A phase that ends at once is acknowledged. -/
theorem exec_phase_acked (hf : phaseFits s m = true) (hl : m.phase ≠ s.route.lastAck) {r : RouteSt} (hrun : runPhase m (hear s) = (true, { s with route := r }))
    (hn : r.waitMsg = none) : exec (.fabricPhaseMessage m) s = .next { s with out := .phaseAck s.gctl.coord m.phase :: s.out, route := { r with lastAck := m.phase } } := by
  rw [exec_phase_runs ha hw hr hf hl, hrun]
  exact congrArg Host.Outcome.next (stageWaiting_phaseEnded (u := { s with route := r }) hw (Keeps.set_route r (.refl _ _ s) rfl) hn)

/-- The phase acknowledged last is acknowledged again. -/
theorem exec_phase_again (hl : m.phase = s.route.lastAck) (hi : m.phase ≠ .idle) (hn : s.route.waitMsg = none) : exec (.fabricPhaseMessage m) s =
    .next { s with out := .phaseAck s.gctl.coord m.phase :: s.out, route := { s.route with clr := heardClr s } } := by
  have hs : servePhase m (hear s) = (true, hear s) := by
    have hl' : m.phase = (hear s).route.lastAck := hl
    simp only [servePhase, ← hl', decide_true, Bool.true_and, decide_eq_true hi, if_true]
  rw [exec_phaseMessage ha hw hr, hs]
  refine congrArg Host.Outcome.next ((stageWaiting_phaseEnded (u := hear s) hw (Keeps.set_route _ (.refl _ _ s) rfl) hn).trans ?_)
  rw [hl]
  rfl

end

/-! ## The phases one by one -/

/-- Of s nothing has changed but shadow records and the lists of dirty ones. -/
def ShadowOnly (s t : State) : Prop :=
  ∃ sh es shs ds, t = { s with route := { s.route with shadow := sh, dirtyEnt := es, shadowSet := shs, dirtySet := ds } }

/-- The records of a list are staged (R116). -/
theorem shadowOnly_stageRecs (mask : BitVec 4) (l : List RouteRec) (s : State) : ShadowOnly s (each l (stageRec mask) s) := by
  refine each_induct (P := ShadowOnly s) (fun q _ a ha => each_induct (P := ShadowOnly s) (fun d _ b hb => ?_) ha) ⟨_, _, _, _, rfl⟩
  obtain ⟨sh, es, shs, ds, rfl⟩ := hb
  dsimp only
  split
  · split
    · exact ⟨_, _, _, _, rfl⟩
    · exact ⟨_, _, _, _, rfl⟩
  · split
    · split
      · exact ⟨_, _, _, _, rfl⟩
      · exact ⟨_, _, _, _, rfl⟩
    · exact ⟨_, _, _, _, rfl⟩

/-- The end of STAGE moves the phase alone. -/
theorem stageEnd_of_clr {s : State} {c : Clearing} (h : s.route.clr = some c) : ∃ ph, stageEnd s = { s with route := { s.route with clr := some { c with phase := ph } } } := by
  unfold stageEnd
  rw [h]
  dsimp only
  split
  · exact ⟨_, modClr_of_clr _ h⟩
  · exact ⟨c.phase, by rw [← h]⟩

/-- A clearing as it begins. -/
def begunClr (src : ClrSrc) (dm : BitVec 4) (tm : Byte) (recs : List RouteRec) (s : State) : Clearing :=
  { src := src, phase := .stage, dieMask := dm, tcMask := tm, recs := recs, staged := 0, scanned := 0, drainAt := 0, markers := [], affected := [], dones := 0
    total := stageSteps recs.length (!(dirtySets (each recs (stageRec dm) s) dm).isEmpty) + 1 + drainSteps s + commitSteps (each recs (stageRec dm) s) dm + 1
    aborted := false, committed := false, heardAt := s.clock }

theorem clrBegin_eq (src : ClrSrc) (dm : BitVec 4) (tm : Byte) (recs : List RouteRec) (s : State) :
    ∃ ph, clrBegin src dm tm recs s = { s with route := { s.route with clr := some { begunClr src dm tm recs s with phase := ph } } } :=
  stageEnd_of_clr (s := { s with route := { s.route with clr := some (begunClr src dm tm recs s) } }) rfl

section
variable {s : State} {m : PhaseMsg} {c : Clearing}

theorem hear_none (h : s.route.clr = none) : hear s = s := by
  have hc : heardClr s = s.route.clr := by simp [heardClr, h]
  unfold hear
  rw [hc]

/-- A STAGE with no clearing at work begins one. -/
theorem runPhase_stage (hp : m.phase = .stage) (h : s.route.clr = none) : ∃ sh es shs ds x,
    runPhase m s = (true, { s with route := { s.route with shadow := sh, dirtyEnt := es, shadowSet := shs, dirtySet := ds, clr := some x } }) ∧
      x.src = .manager ∧ x.phase = .stage ∧ x.dieMask = m.dieMask ∧ x.tcMask = m.tcMask := by
  obtain ⟨ph, hb⟩ := clrBegin_eq .manager m.dieMask m.tcMask m.recs s
  obtain ⟨sh, es, shs, ds, he⟩ := shadowOnly_stageRecs m.dieMask m.recs (clrBegin .manager m.dieMask m.tcMask m.recs s)
  refine ⟨sh, es, shs, ds, { begunClr .manager m.dieMask m.tcMask m.recs s with staged := cdiv m.recs.length 8192, scanned := 16 }, ?_, rfl, rfl, rfl, rfl⟩
  simp only [runPhase, hp, h, Option.isSome_none, Bool.false_eq_true, if_false]
  rw [he, hb]
  rfl

/-- HOLD sets the filter of the affected destinations (R117). -/
theorem runPhase_hold (hp : m.phase = .hold) (h : s.route.clr = some c) :
    ∃ x, runPhase m s = (true, { s with route := { s.route with clr := some x } }) ∧ x.phase = .hold ∧ x.affected = affectedKeys s c.dieMask := by
  obtain ⟨x, hx, ha⟩ := clrHold_of_clr h
  refine ⟨{ x with phase := .hold }, ?_, rfl, ha⟩
  simp only [runPhase, hp]
  rw [hx]
  rfl

/-- DRAIN has ended where no marker is left. -/
theorem runPhase_drain (hp : m.phase = .drain) (h : s.route.clr = some c) : runPhase m s =
    ((unmarked c s).markers.isEmpty, { s with route := { s.route with clr := some { unmarked c s with phase := .drain, heardAt := s.clock } } }) := by
  simp only [runPhase, hp]
  rw [modClr_of_clr _ h, clrMarkers_of_clr (c := { c with phase := .drain, heardAt := s.clock }) rfl]
  rfl

/-- COMMIT runs until nothing is dirty. -/
theorem runPhase_commit (hp : m.phase = .commit) (h : s.route.clr = some c) (hd : c.dieMask = m.dieMask) :
    ∃ r, runPhase m s = (true, { s with route := r }) ∧ Commits m.dieMask s { s with route := r } ∧ dirtyEnts { s with route := r } m.dieMask = [] ∧
      dirtySets { s with route := r } m.dieMask = [] := by
  obtain ⟨t, ht, hc, he, hs⟩ := commits_all m.dieMask { s with route := { s.route with clr := some { c with phase := .commit } } }
  obtain ⟨⟨_, _, _, _, _, rfl⟩, hents, hsets⟩ := hc
  refine ⟨_, ?_, ⟨⟨_, _, _, _, _, rfl⟩, hents, hsets⟩, he, hs⟩
  simp only [runPhase, hp]
  rw [modClr_of_clr _ h]
  refine congrArg (Prod.mk true) (Eq.trans ?_ ht)
  rw [← hd]

end

/-! ## A worker's answers -/

section
variable {s : State} {m : PhaseMsg} {c : Clearing}
variable (hn : s.route.waitMsg = none) (ha : alive s = true) (hw : s.gctl.role ≠ .manager) (hr : m.revert = false) (hl : m.phase ≠ s.route.lastAck)
include ha hw hr hl

/-- A STAGE waits for the clearing at work (R122). -/
theorem stage_waits (hp : m.phase = .stage) (hv : coversVc0 s m.tcMask = false) (hc : s.route.clr.isSome = true) :
    exec (.fabricPhaseMessage m) s = .next { s with route := { s.route with clr := heardClr s, waitMsg := some m } } := by
  have hf : phaseFits s m = true := by simp [phaseFits, hp, hv]
  have hc' : (hear s).route.clr.isSome = true := by simpa [hear, heardClr] using hc
  refine exec_phase_goesOn ha hw hr hf hl ?_
  simp only [runPhase, hp, hc', if_true]
  rfl

include hn

theorem stage_begins (hp : m.phase = .stage) (hv : coversVc0 s m.tcMask = false) (hc : s.route.clr = none) :
    ∃ t, exec (.fabricPhaseMessage m) s = .next t ∧ t = { s with out := .phaseAck s.gctl.coord .stage :: s.out, route := t.route } ∧ t.route.live = s.route.live ∧
      t.route.liveSet = s.route.liveSet ∧ (∃ c, t.route.clr = some c ∧ c.src = .manager ∧ c.phase = .stage ∧ c.dieMask = m.dieMask ∧ c.tcMask = m.tcMask) := by
  have hf : phaseFits s m = true := by simp [phaseFits, hp, hv]
  obtain ⟨sh, es, shs, ds, x, hrun, hx⟩ := runPhase_stage hp hc
  refine ⟨_, exec_phase_acked ha hw hr hf hl ((congrArg (runPhase m) (hear_none hc)).trans hrun) hn, ?_, rfl, rfl, x, rfl, hx⟩
  rw [hp]

variable (hc : s.route.clr = some c) (hsrc : c.src = .manager) (hd : c.dieMask = m.dieMask)
include hc hsrc

include hd in
theorem hold_acked (hp : m.phase = .hold) (hcp : c.phase = .stage) :
    ∃ t, exec (.fabricPhaseMessage m) s = .next t ∧ t = { s with out := .phaseAck s.gctl.coord .hold :: s.out, route := t.route } ∧ t.route.live = s.route.live ∧
      t.route.liveSet = s.route.liveSet ∧ (∃ x, t.route.clr = some x ∧ x.phase = .hold ∧ x.affected = affectedKeys s m.dieMask) := by
  have hf : phaseFits s m = true := by simp [phaseFits, hp, hc, hsrc, hcp]
  obtain ⟨x, hrun, hx, hxa⟩ := runPhase_hold hp (hear_clr hc hsrc)
  refine ⟨_, exec_phase_acked ha hw hr hf hl hrun hn, ?_, rfl, rfl, x, rfl, hx, hd ▸ hxa⟩
  rw [hp]

theorem drain_acked (hp : m.phase = .drain) (hcp : c.phase = .hold) (hk : ∀ k ∈ c.markers, markerDone s k = true) :
    ∃ t, exec (.fabricPhaseMessage m) s = .next t ∧ t = { s with out := .phaseAck s.gctl.coord .drain :: s.out, route := t.route } ∧
      (∃ x, t.route.clr = some x ∧ x.phase = .drain ∧ x.markers = [] ∧ x.heardAt = s.clock) := by
  have hf : phaseFits s m = true := by simp [phaseFits, hp, hc, hsrc, hcp]
  have hnil : c.markers.filter (fun k => !markerDone s k) = [] := List.filter_eq_nil_iff.2 fun k h => by simp [hk k h]
  have hrun := runPhase_drain hp (hear_clr hc hsrc)
  rw [show (unmarked { c with heardAt := s.clock } (hear s)).markers = [] from hnil] at hrun
  refine ⟨_, exec_phase_acked ha hw hr hf hl hrun hn, ?_, _, rfl, rfl, hnil, rfl⟩
  rw [hp]

omit hn in
theorem drain_goesOn (hp : m.phase = .drain) (hcp : c.phase = .hold) (hk : ∃ k ∈ c.markers, markerDone s k = false) :
    ∃ t, exec (.fabricPhaseMessage m) s = .next t ∧ t = { s with route := t.route } ∧
      (∃ x, t.route.clr = some x ∧ x.phase = .drain ∧ x.markers = c.markers.filter fun k => !markerDone s k) := by
  have hf : phaseFits s m = true := by simp [phaseFits, hp, hc, hsrc, hcp]
  have hrun := runPhase_drain hp (hear_clr hc hsrc)
  have hleft : (unmarked { c with heardAt := s.clock } (hear s)).markers.isEmpty = false := by
    obtain ⟨k, hkc, hkd⟩ := hk
    exact List.isEmpty_eq_false_iff.2 (List.ne_nil_of_mem (List.mem_filter.2 ⟨hkc, congrArg Bool.not hkd⟩))
  rw [hleft] at hrun
  exact ⟨_, exec_phase_goesOn ha hw hr hf hl hrun, rfl, _, rfl, rfl, rfl⟩

include hd in
theorem commit_acked (hp : m.phase = .commit) (hcp : c.phase = .drain) :
    ∃ t, exec (.fabricPhaseMessage m) s = .next t ∧ t = { s with out := .phaseAck s.gctl.coord .commit :: s.out, route := t.route } ∧
      (∀ e, tget 0 t.route.live e = if e ∈ dirtyEnts s m.dieMask ∧ bitOf s.units.fabLost (e / 2 ^ 20) = false then tget 0 s.route.shadow e else tget 0 s.route.live e) ∧
      (∀ e, tget 0 t.route.liveSet e = if e ∈ dirtySets s m.dieMask ∧ bitOf s.units.fabLost (e / 2 ^ 14) = false then tget 0 s.route.shadowSet e else tget 0 s.route.liveSet e) ∧
      dirtyEnts t m.dieMask = [] ∧ dirtySets t m.dieMask = [] := by
  have hf : phaseFits s m = true := by simp [phaseFits, hp, hc, hsrc, hcp]
  obtain ⟨r, hrun, ⟨⟨_, _, _, _, _, hfr⟩, hents, hsets⟩, he, hs⟩ := runPhase_commit hp (hear_clr hc hsrc) hd
  rw [he] at hents
  rw [hs] at hsets
  have hwait : r.waitMsg = none := (congrArg (fun t : State => t.route.waitMsg) hfr).trans hn
  refine ⟨_, exec_phase_acked ha hw hr hf hl hrun hwait, ?_, fun e => ?_, fun e => ?_, he, hs⟩
  · rw [hp]
  · exact (hents.copied e).trans (if_congr (by simp [dirtyEnts, hear]) rfl rfl)
  · exact (hsets.copied e).trans (if_congr (by simp [dirtySets, hear]) rfl rfl)

theorem release_ends (hp : m.phase = .release) (hcp : c.phase = .commit) :
    ∃ t, exec (.fabricPhaseMessage m) s = .next t ∧ t.route.clr = none ∧ t.route.reverted = false ∧ t.route.live = s.route.live ∧ t.route.liveSet = s.route.liveSet := by
  have hf : phaseFits s m = true := by simp [phaseFits, hp, hc, hsrc, hcp]
  obtain ⟨p, n, he⟩ := clrEnd_route false (hear s)
  have hk : Keeps true 0x17b4081 s (clrEnd false (hear s)) := clrEnd_keeps _ (Keeps.set_route _ (.refl _ _ s) rfl) rfl
  have hrun : runPhase m (hear s) = (true, clrEnd false (hear s)) := by simp only [runPhase, hp]
  have hex : exec (.fabricPhaseMessage m) s = .next (stageWaiting (phaseEnded m.phase (clrEnd false (hear s)))) := by
    rw [exec_phase_runs ha hw hr hf hl, hrun]
    rfl
  rw [stageWaiting_phaseEnded hw hk (by rw [he]; exact hn)] at hex
  refine ⟨_, hex, ?_⟩
  dsimp only
  rw [he]
  exact ⟨rfl, rfl, rfl, rfl⟩

end

/-! ## Reverts and the last marker -/

section
variable {s : State} {c : Clearing}
variable (hw : s.gctl.role ≠ .manager) (hc : s.route.clr = some c) (hsrc : c.src = .manager)
include hw hc hsrc

/-- The manager's revert before COMMIT (R124). -/
theorem manager_reverts {m : PhaseMsg} (ha : alive s = true) (hr : m.revert = true) (hcc : c.committed = false) :
    ∃ t, exec (.fabricPhaseMessage m) s = .next t ∧ t.route.clr = none ∧ t.route.reverted = true ∧ t.route.live = s.route.live ∧ t.route.liveSet = s.route.liveSet := by
  let s' : State := modRoute (fun r => { r with waitMsg := none }) s
  have hrev : Reverted s' (clrRevert s') := clrRevert_reverted (s := s') hc
  refine ⟨clrRevert s', ?_, hrev.clr, hrev.marked, hrev.live, hrev.liveSet⟩
  simp only [exec, execFabricPhaseMessage, ha, isMgr_eq_false hw, hr, managerRevert, modRoute_route, hc, hsrc, hcc]
  rfl

/-- CLEAR_REVERT: HOLD_LIMIT has passed since the manager was heard (R125). -/
theorem clearRevert_reverts (hn : s.route.waitMsg = none) (hp : c.phase = .hold ∨ c.phase = .drain) :
    ∃ t, exec .clearRevert s = .next t ∧ t.clock = max s.clock (c.heardAt + s.route.holdLimit.toNat * 1000000) ∧ t.route.clr = none ∧ t.route.reverted = true ∧
      t.route.live = s.route.live ∧ t.route.liveSet = s.route.liveSet ∧ .phaseAck s.gctl.coord .idle ∈ t.out := by
  have hlog := keeps_logMb 0x1410 [] (clockTo (c.heardAt + s.route.holdLimit.toNat * 1000000) s)
  have hex : exec .clearRevert s = .next (stageWaiting (emit (.phaseAck s.gctl.coord .idle)
      (clrRevert (logMb 0x1410 [] (clockTo (c.heardAt + s.route.holdLimit.toNat * 1000000) s))))) := by
    have hp' : (c.phase == .hold || c.phase == .drain) = true := by simpa using hp
    simp only [exec, execClearRevert, hc, hsrc, isMgr_eq_false hw, hp']
    rfl
  generalize logMb 0x1410 [] (clockTo (c.heardAt + s.route.holdLimit.toNat * 1000000) s) = u at hlog hex
  have hu : u.route = s.route := hlog.only.route (by decide)
  have hrev : Reverted u (clrRevert u) := clrRevert_reverted (hu ▸ hc)
  have hk : Keeps true 0x17b4081 u (clrRevert u) := clrRevert_keeps (.refl _ _ u) rfl
  rw [stageWaiting_none (s := emit _ _) (hrev.waitMsg.trans (hu ▸ hn))] at hex
  exact ⟨_, hex, (hk.only.clock (by decide)).trans (hlog.only.clock (by decide)), hrev.clr, hrev.marked, hrev.live.trans (hu ▸ rfl), hrev.liveSet.trans (hu ▸ rfl), List.mem_cons_self⟩

/-- With its last marker at the head DRAIN is acknowledged (R117). -/
theorem lastMarker_acks {k : Marker} (hp : c.phase = .drain) (hm : c.markers = [k]) (hd : markerDone s k = true) {p : Port} {x : Strand} {q : Fin 8}
    (hg : k.g = 8 * subKey s p x + q.val) : exec (.drainMarkerReached p x q) s = .next { s with
      out := .phaseAck s.gctl.coord .drain :: s.out, route := { s.route with clr := some { c with markers := [] }, lastAck := .drain } } := by
  have hnil : markersLeft c (8 * subKey s p x + q.val) s = [] := by simp [markersLeft, hm, hd, hg]
  have hend : (phaseEnded .drain { s with route := { s.route with clr := some { c with markers := [] } } }) = { s with
      out := .phaseAck s.gctl.coord .drain :: s.out, route := { s.route with clr := some { c with markers := [] }, lastAck := .drain } } := by
    have hmgr : isMgr (phaseDone .drain { s with route := { s.route with clr := some { c with markers := [] } } }) = false := isMgr_eq_false hw
    unfold phaseEnded
    dsimp only
    rw [hmgr]
    rfl
  rw [exec_drainMarkerReached hc, hnil]
  exact congrArg Host.Outcome.next ((if_pos (by simp [hm, hsrc, hp])).trans hend)

end

/-! ## The statement -/

/-- Settles O37: a ring's clearing at its markers and its limit, then a worker's answer to each message of the manager, its reverts, and its last marker. -/
theorem fabricPhases : Obligations.FabricPhases := by
  intro s hn
  refine ⟨fun h => ?idle, fun c r h hsrc => ?ring, fun ha hw => ?worker⟩
  case idle =>
    refine ⟨?_, ?_, fun p x q => ?_⟩
    · simp only [exec, execDrainLimitTimeout, h]
    · simp only [exec, execClearRevert, h]
    · simp only [exec, execDrainMarkerReached, h]
  case ring =>
    exact ⟨fun p x q => ⟨_, exec_drainMarkerReached_ring h hsrc p x q, rfl⟩, exec_drainLimitTimeout_otherPhase h,
      fun k hp hm hk => ⟨drainLimit_reverts h hsrc hp hm hn hk, drainLimit_purges h hsrc hp hm⟩⟩
  case worker =>
    exact ⟨fun m hr hf hl => exec_phase_unfit ha hw hr hf hl,
      fun m hr hl hi => exec_phase_again ha hw hr hl hi hn,
      fun m hr hp hl hv hc => stage_waits ha hw hr (hp ▸ hl.symm) hp hv hc,
      fun m hr hp hl hv hc => stage_begins hn ha hw hr (hp ▸ hl.symm) hp hv hc,
      fun m c hc hsrc hd hr hl => ⟨hold_acked hn ha hw hr hl hc hsrc hd, drain_acked hn ha hw hr hl hc hsrc, drain_goesOn ha hw hr hl hc hsrc,
        commit_acked hn ha hw hr hl hc hsrc hd, release_ends hn ha hw hr hl hc hsrc⟩,
      fun m c hc hsrc hcc hr => manager_reverts hw hc hsrc ha hr hcc,
      fun c hc hsrc hp => clearRevert_reverts hw hc hsrc hn hp,
      fun c k hc hsrc hp hm hd p x q hg => lastMarker_acks hw hc hsrc hp hm hd hg⟩

end Sys2Proof.Machine
end

section
/-! The manager drives a change phase by phase (R124, R125). -/

namespace Sys2Proof.Machine

/-! ## What the manager says to the workers of a change -/

section
variable {s : State} {f : FabChange} {w : Coord}

/-- A loop over workers other than this Skarad tells each of them. -/
theorem each_tell {l : List Coord} {g : Coord → State → State} (o : Coord → Out) (h : s.gctl.coord ∉ l) :
    each l (fun w a => if w = a.gctl.coord then g w a else emit (o w) a) s = { s with out := (l.map o).reverse ++ s.out } := by
  induction l generalizing s with
  | nil => rfl
  | cons w r ih =>
    obtain ⟨hw, hr⟩ := not_or.1 (mt List.mem_cons.2 h)
    rw [each_cons, if_neg (Ne.symm hw), ih (s := emit (o w) s) hr]
    simp [emit]

/-- A phase begins: every worker is told and awaited. -/
def phaseBegun (f : FabChange) (s : State) : State := { s with
  out := (f.workers.map fun w => Out.phaseMsg w (phaseMsgOf f f.phase false)).reverse ++ s.out
  mgr := { s.mgr with phaseAt := s.clock, change := some { f with waiting := f.workers, begun := f.begun || f.phase == .commit || f.phase == .release } } }

theorem startPhase_away (h : s.mgr.change = some f) (hc : s.gctl.coord ∉ f.workers) : startPhase s = phaseBegun f s := by
  unfold startPhase
  rw [h]
  exact each_tell (s := modMgr _ s) (fun w => .phaseMsg w (phaseMsgOf f f.phase false)) hc

theorem advance_waiting (n : Nat) (h : s.mgr.change = some f) (hw : f.waiting ≠ []) : advance n s = s := by
  cases n with
  | zero => rfl
  | succ n =>
    unfold advance
    rw [h]
    simp [hw]

/-- With no worker awaited the next phase begins. -/
theorem advance_next (n : Nat) (h : s.mgr.change = some f) (hw : f.waiting = []) (hp : f.phase ≠ .release) (hne : f.workers ≠ []) (hc : s.gctl.coord ∉ f.workers) :
    advance (n + 1) s = phaseBegun { f with phase := nextPhase f.phase } s := by
  have hstart : startPhase (modMgr (fun g => { g with change := some { f with phase := nextPhase f.phase } }) s) = phaseBegun { f with phase := nextPhase f.phase } s :=
    startPhase_away (s := modMgr _ s) rfl hc
  unfold advance
  rw [h]
  dsimp only
  rw [if_neg (by simp [hw]), if_neg hp, hstart]
  exact advance_waiting n (s := phaseBegun _ s) rfl hne

/-- With no worker awaited after RELEASE the change is over. -/
theorem advance_last (n : Nat) (h : s.mgr.change = some f) (hw : f.waiting = []) (hp : f.phase = .release) (ha : s.mgr.again = []) : advance (n + 1) s = endChange 0 s := by
  have ha' : (endChange 0 s).mgr.again = [] := by
    unfold endChange
    rw [h]
    dsimp only
    split <;> exact ha
  unfold advance
  rw [h]
  simp [hw, hp, ha']

/-! ## The end of a change -/

theorem endChange_frame (n : Nat) (s : State) : endChange n s = { s with mgr := (endChange n s).mgr, cmd := (endChange n s).cmd } :=
  (endChange_keeps n (.refl true 0x8000400 s) rfl).eq

theorem endChange_mgr (n : Nat) (h : s.mgr.change = some f) :
    (endChange n s).mgr = { s.mgr with change := none, lastChange := if n = 0 then some f else s.mgr.lastChange } := by
  unfold endChange
  rw [h]
  dsimp only
  split <;> rfl

/-- The ring that asked gets the status. -/
theorem endChange_ring (n : Nat) (h : s.mgr.change = some f) {r : Nat} {k : RunCmd} (hr : f.ring = some r) (hk : (ringOf s r).cur = some k) :
    (ringOf (endChange n s) r).cur = some { k with result := some (BitVec.ofNat 16 n, 0) } := by
  unfold endChange
  rw [h]
  dsimp only
  rw [hr]
  dsimp only
  rw [ringOf_modRing_same]
  exact congrArg (Option.map _) hk

end

/-! ## The rows -/

section
variable {s : State} {f : FabChange} {w : Coord} (ha : alive s = true) (hm : s.gctl.role = .manager)

include ha hm in
theorem exec_phaseAck (w : Coord) (ph : ClrPhase) : exec (.phaseAck w ph) s = .next (ackPhase w ph s) := by
  simp only [exec, execPhaseAck, ha, isMgr_eq_true hm]
  rfl

/-- A worker is awaited no longer. -/
def answered (f : FabChange) (w : Coord) : FabChange := { f with waiting := f.waiting.filter (· ≠ w) }

/-- A worker is taken off the change. -/
def dropped (f : FabChange) (w : Coord) : FabChange := { f with workers := f.workers.filter (· ≠ w), waiting := f.waiting.filter (· ≠ w) }

/-- The state with that change. -/
def withChange (f : FabChange) (s : State) : State := { s with mgr := { s.mgr with change := some f } }

theorem ackPhase_same (h : s.mgr.change = some f) (hp : f.phase ≠ .idle) : ackPhase w f.phase s = advance 12 (withChange (answered f w) s) := by
  unfold ackPhase
  rw [if_neg hp, h]
  exact if_pos rfl

theorem ackPhase_other {ph : ClrPhase} (hi : ph ≠ .idle) (h : ∀ f, s.mgr.change = some f → ph ≠ f.phase) : ackPhase w ph s = s := by
  unfold ackPhase
  rw [if_neg hi]
  split
  · rfl
  · next f hf => exact if_neg (h f hf)

theorem ackRevert_idle (h : s.mgr.change = none) (hl : s.mgr.lastChange = none) : ackRevert w s = s := by
  unfold ackRevert
  rw [h]
  dsimp only
  rw [hl]

/-- The change is sent again to a worker that reverted. -/
theorem ackRevert_again (h : s.mgr.change = none) (hl : s.mgr.lastChange = some f) (hw : w ≠ s.gctl.coord) : ackRevert w s = phaseBegun (changeFor f w) s := by
  have hstart : startPhase (modMgr (fun g => { g with change := some (changeFor f w) }) s) = phaseBegun (changeFor f w) s :=
    startPhase_away (s := modMgr _ s) rfl (by simpa [changeFor] using hw.symm)
  unfold ackRevert
  rw [h]
  dsimp only
  rw [hl]
  dsimp only
  rw [hstart]
  exact advance_waiting 12 rfl (List.cons_ne_nil w [])

/-- From COMMIT on a worker that reverted is taken off the change. -/
theorem ackRevert_begun (h : s.mgr.change = some f) (hb : f.begun = true) (hw : w ∈ f.workers) (hne : f.waiting.filter (· ≠ w) ≠ []) :
    ackRevert w s = { s with mgr := { s.mgr with again := s.mgr.again ++ [changeFor f w], change := some (dropped f w) } } := by
  unfold ackRevert
  rw [h]
  dsimp only
  rw [if_pos (List.contains_iff_mem.2 hw), if_pos hb]
  exact advance_waiting 12 rfl hne

theorem exec_phaseLimitTimeout_idle (h : s.mgr.change = none) : exec (.phaseLimitTimeout w) s = .next s := by
  simp only [exec, execPhaseLimitTimeout, h]

theorem exec_phaseLimitTimeout_notAwaited (h : s.mgr.change = some f) (hw : w ∉ f.waiting) : exec (.phaseLimitTimeout w) s = .next s := by
  simp only [exec, execPhaseLimitTimeout, h]
  simp [hw]

/-- The phase's limit has come. -/
def phaseDue (s : State) : State := { s with clock := max s.clock (s.mgr.phaseAt + 1000 * s.mgr.phaseLimitUs) }

include ha hm in
theorem exec_phaseLimitTimeout_awaited (h : s.mgr.change = some f) (hw : w ∈ f.waiting) :
    exec (.phaseLimitTimeout w) s = .next (if f.begun then advance 12 (withChange (dropped f w) (phaseDue s)) else revertChange (phaseDue s)) := by
  simp only [exec, execPhaseLimitTimeout, h, ha, isMgr_eq_true hm]
  rw [if_neg (by simp [hw])]
  by_cases hb : f.begun
  · rw [if_pos hb, if_neg (by simp [hb])]
    rfl
  · rw [if_neg hb, if_pos (by simp [hb])]
    rfl

/-- Every worker is told to revert. -/
def revertTold (f : FabChange) (s : State) : State := { s with out := (f.workers.map fun w => Out.phaseMsg w (phaseMsgOf f f.phase true)).reverse ++ s.out }

theorem revertChange_away (h : s.mgr.change = some f) (hc : s.gctl.coord ∉ f.workers) : revertChange s = endChange 1 (revertTold f s) := by
  unfold revertChange
  rw [h]
  exact congrArg (endChange 1) (each_tell (g := fun _ => managerRevert) (fun w => .phaseMsg w (phaseMsgOf f f.phase true)) hc)

end

/-! ## The statement -/

section
variable {s : State} {f : FabChange} {w : Coord} (ha : alive s = true) (hm : s.gctl.role = .manager) (h : s.mgr.change = some f)
include ha hm h

/-- The last answer to a phase before RELEASE. -/
theorem lastAck_nextPhase {ph : ClrPhase} (hph : (f.phase, ph) ∈ [(ClrPhase.stage, ClrPhase.hold), (.hold, .drain), (.drain, .commit), (.commit, .release)])
    (hne : f.workers ≠ []) (hc : s.gctl.coord ∉ f.workers) (hw : f.waiting.filter (· ≠ w) = []) : exec (.phaseAck w f.phase) s = .next { s with
      out := (f.workers.map fun x => Out.phaseMsg x { revert := false, phase := ph, dieMask := f.dieMask, tcMask := f.tcMask, recs := [] }).reverse ++ s.out
      mgr := { s.mgr with phaseAt := s.clock, change := some { f with phase := ph, waiting := f.workers, begun := f.begun || ph == .commit || ph == .release } } } := by
  obtain ⟨hi, hr, hnext, hs⟩ : f.phase ≠ .idle ∧ f.phase ≠ .release ∧ nextPhase f.phase = ph ∧ ph ≠ .stage := by
    simp only [List.mem_cons, Prod.mk.injEq, List.not_mem_nil, or_false] at hph
    rcases hph with ⟨hf, rfl⟩ | ⟨hf, rfl⟩ | ⟨hf, rfl⟩ | ⟨hf, rfl⟩ <;> rw [hf] <;> decide
  rw [exec_phaseAck ha hm, ackPhase_same h hi, advance_next 11 (s := withChange (answered f w) s) rfl hw hr hne hc]
  subst hnext
  simp only [phaseBegun, phaseMsgOf, answered, withChange, hs, if_false]

/-- The last answer to RELEASE. -/
theorem lastAck_ends (hp : f.phase = .release) (hw : f.waiting.filter (· ≠ w) = []) (hag : s.mgr.again = []) :
    ∃ t, exec (.phaseAck w .release) s = .next t ∧ t = { s with mgr := t.mgr, cmd := t.cmd } ∧
      t.mgr = { s.mgr with change := none, lastChange := some { f with waiting := [] } } ∧
      (∀ r k, f.ring = some r → (ringOf s r).cur = some k → (ringOf t r).cur = some { k with result := some (0, 0) }) := by
  have hi : f.phase ≠ .idle := by rw [hp]; decide
  have hex : exec (.phaseAck w .release) s = .next (endChange 0 (withChange (answered f w) s)) := by
    rw [exec_phaseAck ha hm, ← hp, ackPhase_same h hi, advance_last 11 (s := withChange (answered f w) s) rfl hw hp hag]
  refine ⟨_, hex, endChange_frame 0 _, ?_, fun r k hr hk => endChange_ring 0 (s := withChange (answered f w) s) rfl hr hk⟩
  rw [endChange_mgr 0 (s := withChange (answered f w) s) rfl]
  simp only [withChange, answered, hw, if_true]

/-- PHASE_LIMIT before COMMIT: the change ends ABORTED. -/
theorem phaseLimit_aborts (hw : w ∈ f.waiting) (hb : f.begun = false) (hc : s.gctl.coord ∉ f.workers) :
    ∃ t, exec (.phaseLimitTimeout w) s = .next t ∧ t.mgr.change = none ∧
      t.out = (f.workers.map fun x => Out.phaseMsg x { revert := true, phase := f.phase, dieMask := f.dieMask, tcMask := f.tcMask, recs := if f.phase = .stage then f.recs else [] }).reverse ++ s.out ∧
      t = { s with clock := max s.clock (s.mgr.phaseAt + 1000 * s.mgr.phaseLimitUs), out := t.out, mgr := t.mgr, cmd := t.cmd } ∧
      (∀ r k, f.ring = some r → (ringOf s r).cur = some k → (ringOf t r).cur = some { k with result := some (1, 0) }) := by
  have hex := exec_phaseLimitTimeout_awaited ha hm h hw
  rw [hb, if_neg (by simp), revertChange_away (s := phaseDue s) h hc] at hex
  have hu : (revertTold f (phaseDue s)).mgr.change = some f := h
  have hfr := endChange_frame 1 (revertTold f (phaseDue s))
  have hout : (endChange 1 (revertTold f (phaseDue s))).out = (revertTold f (phaseDue s)).out := by rw [hfr]
  refine ⟨_, hex, by rw [endChange_mgr 1 hu], hout, ?_, fun r k hr hk => endChange_ring 1 hu hr hk⟩
  rw [hout]
  exact hfr

end

/-- Settles O38: a manager with no change, then one whose change gets an answer, a revert, or comes to its limit. -/
theorem fabricChange : Obligations.FabricChange := by
  intro w s ha hm
  refine ⟨fun h => ⟨fun ph hph => ?_, fun f hl hw => ?_, exec_phaseLimitTimeout_idle h⟩, fun f h => ⟨fun hi hw => ?_, fun ph hi hp => ?_, fun ph hph hne hc hw => ?_, fun hp hw hag => ?_,
    fun hb hw hne => ?_, exec_phaseLimitTimeout_notAwaited h, fun hw hb hne => ?_, phaseLimit_aborts ha hm h⟩⟩
  · rw [exec_phaseAck ha hm]
    by_cases hi : ph = .idle
    · subst hi
      exact congrArg Host.Outcome.next (ackRevert_idle h (hph.resolve_left (· rfl)))
    · exact congrArg Host.Outcome.next (ackPhase_other hi fun f hf => nomatch h ▸ hf)
  · rw [exec_phaseAck ha hm]
    exact congrArg Host.Outcome.next (ackRevert_again h hl hw)
  · rw [exec_phaseAck ha hm, ackPhase_same h hi]
    exact congrArg Host.Outcome.next (advance_waiting 12 (s := withChange (answered f w) s) rfl hw)
  · rw [exec_phaseAck ha hm]
    exact congrArg Host.Outcome.next (ackPhase_other hi fun g hg => by rw [h] at hg; cases hg; exact hp)
  · exact lastAck_nextPhase ha hm h hph hne hc hw
  · exact lastAck_ends ha hm h hp hw hag
  · rw [exec_phaseAck ha hm]
    exact congrArg Host.Outcome.next (ackRevert_begun h hb hw hne)
  · rw [exec_phaseLimitTimeout_awaited ha hm h hw, if_pos hb]
    exact congrArg Host.Outcome.next (advance_waiting 12 (s := withChange (dropped f w) (phaseDue s)) rfl hne)

end Sys2Proof.Machine
end

section
/-! The table window (R107, R108, R123, R126, R127, R452). -/

namespace Sys2Proof.Machine

variable {s : State} {val : Word}

theorem mem_insNat (x : Nat) (l : List Nat) : x ∈ insNat x l := by
  induction l with
  | nil => exact List.mem_cons_self
  | cons y r ih =>
    unfold insNat
    split
    · exact List.mem_cons_self
    · split
      · next h => exact h ▸ List.mem_cons_self
      · exact List.mem_cons_of_mem _ ih

/-! ## RT_WIN_CTL -/

/-- RT_WIN_CTL as a write leaves it: STATUS stays, the reserved bits read 0. -/
def winCtlWord (val old : Word) : Word := setFld (setFld val 24 2 (fld old 24 2)) 20 4 0

theorem fld_winCtlWord_high {a b : Nat} (old : Word) (h : 26 ≤ a) : fld (winCtlWord val old) a b = fld val a b :=
  (fld_setFld_other _ _ (.inr (by omega))).trans (fld_setFld_other _ _ (.inr (by omega)))

theorem fld_winCtlWord_index (old : Word) : fld (winCtlWord val old) 0 20 = fld val 0 20 :=
  (fld_setFld_other _ _ (.inl (by decide))).trans (fld_setFld_other _ _ (.inl (by decide)))

theorem fld_winCtlWord_status (old : Word) : fld (winCtlWord val old) 24 2 = fld old 24 2 :=
  (fld_setFld_other _ _ (.inr (by decide))).trans ((fld_setFld_same _ _ (by decide)).trans (Nat.mod_eq_of_lt (fld_lt old 24 2)))

/-- The window after a write of RT_WIN_CTL, before a record is loaded. -/
def winAt (val : Word) (s : State) : State := { s with route := { s.route with winCtl := winCtlWord val s.route.winCtl } }

/-- The twelve data words show the record addressed. -/
def withRecord (s : State) : State :=
  { s with route := { s.route with winData := (List.range 12).foldl (fun t k => tset 0 t k ((winRecord s).getD k 0)) [] } }

theorem winDie_winAt (val : Word) (s : State) : winDie (winAt val s) = fld val 30 2 := fld_winCtlWord_high _ (by decide)

theorem exec_rtWinCtlWrite_live (hm : mgmtUp s = true) (hd : dieLive s (fld val 30 2) = true) : exec (.rtWinCtlWrite val) s = .next (withRecord (winAt val s)) := by
  have hd' : dieLive (winAt val s) (winDie (winAt val s)) = true := by
    rw [winDie_winAt]
    exact hd
  simp only [exec, execRtWinCtlWrite, hm, if_true]
  exact congrArg Host.Outcome.next (if_pos hd')

theorem exec_rtWinCtlWrite_dead (hm : mgmtUp s = true) (hd : dieLive s (fld val 30 2) = false) : exec (.rtWinCtlWrite val) s = .next (winAt val s) := by
  have hd' : dieLive (winAt val s) (winDie (winAt val s)) = false := by
    rw [winDie_winAt]
    exact hd
  simp only [exec, execRtWinCtlWrite, hm, if_true]
  exact congrArg Host.Outcome.next (if_neg (ne_true_of_eq_false hd'))

theorem tget_withRecord {k : Nat} (hk : k < 12) : tget 0 (withRecord s).route.winData k = (winRecord s).getD k 0 :=
  (tget_foldl_tset _ _ _ _ k).trans (if_pos (List.mem_range.2 hk))

/-- RT_WIN_CTL_WRITE keeps STATUS, takes the other fields from the word written and, on a live die, loads the record. -/
theorem rtWinCtlWrite_loads (val : Word) (hm : mgmtUp s = true) :
    ∃ t, exec (.rtWinCtlWrite val) s = .next t ∧ t = { s with route := { s.route with winCtl := t.route.winCtl, winData := t.route.winData } } ∧
      winDie t = fld val 30 2 ∧ winTable t = fld val 28 2 ∧ fld t.route.winCtl 26 2 = fld val 26 2 ∧ winIndex t = fld val 0 20 ∧ fld t.route.winCtl 24 2 = fld s.route.winCtl 24 2 ∧
      (dieLive s (fld val 30 2) = true → ∀ k < 12, tget 0 t.route.winData k = (winRecord t).getD k 0) ∧ (dieLive s (fld val 30 2) = false → t.route.winData = s.route.winData) := by
  cases hd : dieLive s (fld val 30 2) with
  | true =>
    exact ⟨_, exec_rtWinCtlWrite_live hm hd, rfl, winDie_winAt val s, fld_winCtlWord_high _ (by decide), fld_winCtlWord_high _ (by decide), fld_winCtlWord_index _,
      fld_winCtlWord_status _, fun _ k hk => tget_withRecord hk, nofun⟩
  | false =>
    exact ⟨_, exec_rtWinCtlWrite_dead hm hd, rfl, winDie_winAt val s, fld_winCtlWord_high _ (by decide), fld_winCtlWord_high _ (by decide), fld_winCtlWord_index _,
      fld_winCtlWord_status _, nofun, fun _ => rfl⟩

/-! ## RT_WIN_DATA -/

/-- A data word written. -/
def withData (k : Nat) (val : Word) (s : State) : State := { s with route := { s.route with winData := tset 0 s.route.winData k val } }

/-- The data word that completes a record of a table (R127). -/
def lastWord (table : Nat) : Nat := match table with | 0 => 0 | 1 => 8 | 2 => 8 | _ => 0

section
variable {k : Fin 12} (hm : mgmtUp s = true)
include hm

theorem exec_rtWinDataWrite_live (hd : dieLive s (winDie s) = true) :
    exec (.rtWinDataWrite k val) s = .next (if k.val = lastWord (winTable s) then winWrite (withData k val s) else withData k val s) := by
  simp only [exec, execRtWinDataWrite, hm, if_true, rtWinData, hd]
  rfl

/-- A write to a die that is off is dropped and counted (R452). -/
theorem rtWinDataWrite_dead (hd : dieLive s (winDie s) = false) :
    ∃ t, exec (.rtWinDataWrite k val) s = .next t ∧ t.route = s.route ∧ t.swc = s.swc ∧ t.pwr = { s.pwr with offAcc := satAdd s.pwr.offAcc 1 } := by
  have hex : exec (.rtWinDataWrite k val) s = .next (offAccess (domCore (winDie s)) 1 (0x100010 + 4 * k.val) s) := by
    simp only [exec, execRtWinDataWrite, hm, if_true, rtWinData, hd]
    rfl
  have hk : Keeps true 0x2581 (modPwr (fun p => { p with offAcc := satAdd p.offAcc 1 }) s) (offAccess (domCore (winDie s)) 1 (0x100010 + 4 * k.val) s) :=
    logEvent'_keeps _ _ _ _ _ _ _ (.refl _ _ _) rfl
  exact ⟨_, hex, hk.only.route (by decide), hk.only.swc (by decide), hk.only.pwr (by decide)⟩

theorem exec_rtWinDataWrite_part (hd : dieLive s (winDie s) = true) (ht : winTable s = 1) (hk : k ≠ 8) : exec (.rtWinDataWrite k val) s = .next (withData k val s) := by
  rw [exec_rtWinDataWrite_live hm hd, ht]
  exact congrArg Host.Outcome.next (if_neg fun h => hk (Fin.ext h))

theorem exec_rtWinDataWrite_ent (hd : dieLive s (winDie s) = true) (ht : winTable s = 0) : exec (.rtWinDataWrite 0 val) s = .next (winWrite (withData 0 val s)) := by
  rw [exec_rtWinDataWrite_live hm hd, ht]
  exact congrArg Host.Outcome.next (if_pos rfl)

theorem exec_rtWinDataWrite_set (hd : dieLive s (winDie s) = true) (ht : winTable s = 1) : exec (.rtWinDataWrite 8 val) s = .next (winWrite (withData 8 val s)) := by
  rw [exec_rtWinDataWrite_live hm hd, ht]
  exact congrArg Host.Outcome.next (if_pos rfl)

end

/-! ## A completed record -/

/-- With AUTOINC the window goes on to the next index (R127). -/
def nextRecord (t : State) : State := iff (bitOf t.route.winCtl 26) (modRoute fun r => { r with winCtl := setFld r.winCtl 0 20 (fld r.winCtl 0 20 + 1) }) t

/-- A record has been written: STATUS 0, and on to the next. -/
def recordDone (t : State) : State := nextRecord (winStatus 0 t)

theorem recordDone_route (t : State) : ∃ w, recordDone t = { t with route := { t.route with winCtl := w } } ∧ fld w 24 2 = 0 ∧
    fld w 0 20 = if bitOf t.route.winCtl 26 then (winIndex t + 1) % 2 ^ 20 else winIndex t := by
  have hst : fld (setFld t.route.winCtl 24 2 0) 24 2 = 0 := fld_setFld_same _ _ (by decide)
  have hix : fld (setFld t.route.winCtl 24 2 0) 0 20 = winIndex t := fld_setFld_other _ _ (.inl (by decide))
  have hauto : bitOf (winStatus 0 t).route.winCtl 26 = bitOf t.route.winCtl 26 := bitOf_setFld_other _ _ (.inr (by decide))
  unfold recordDone nextRecord
  rw [hauto]
  cases bitOf t.route.winCtl 26 with
  | false => exact ⟨_, rfl, hst, hix⟩
  | true =>
    refine ⟨_, rfl, (fld_setFld_other _ _ (.inr (by decide))).trans hst, (fld_setFld_same _ _ (by decide)).trans ?_⟩
    rw [if_pos rfl]
    exact congrArg (fun i => (i + 1) % 2 ^ 20) hix

theorem winWrite_ent (ht : winTable s = 0) (hc : s.route.clr = none) :
    winWrite s = recordDone (shadowEnt (winDie s) (winIndex s) (tget 0 s.route.winData 0) s) := by
  unfold winWrite
  simp only [ht, hc]
  exact if_neg (by simp)

theorem winWrite_entRefused (ht : winTable s = 0) (hc : s.route.clr.isSome = true) (hk : entKey (winDie s) (winIndex s) ∈ s.route.dirtyEnt) : winWrite s = winStatus 2 s := by
  unfold winWrite
  simp only [ht]
  exact if_pos (by simp [hc, hk])

theorem setOfWords_congr {a b : List Word} (h : ∀ i < 9, a.getD i 0 = b.getD i 0) : setOfWords a = setOfWords b := by
  unfold setOfWords
  rw [List.map_congr_left fun i hi => by rw [h i (List.mem_range.1 hi)]]

/-- The set that the first nine data words hold. -/
def windowSet (s : State) : BitVec 288 := setOfWords ((List.range 12).map fun k => tget 0 s.route.winData k)

theorem windowSet_withData (val : Word) (s : State) :
    windowSet (withData 8 val s) = setOfWords ((List.range 8).map (fun k => tget 0 s.route.winData k) ++ [val]) := by
  refine setOfWords_congr fun i hi => ?_
  rw [List.getD_eq_getElem _ _ (by simp; omega), List.getD_eq_getElem _ _ (by simp; omega), List.getElem_map, List.getElem_range]
  rcases Nat.lt_succ_iff_lt_or_eq.1 hi with hlt | rfl
  · rw [List.getElem_append_left (by simpa using hlt), List.getElem_map, List.getElem_range]
    exact tget_tset_ne 0 _ _ (Nat.ne_of_lt hlt)
  · exact tget_tset_eq 0 _ 8 val

section
variable (ht : winTable s = 1) (hi : winIndex s < 2 ^ 14) (hc : s.route.clr = none)
include ht hi hc

theorem winWrite_setOk (hok : setOk s (windowSet s) = true) :
    winWrite s = recordDone (shadowPutSet (winDie s) (winIndex s) (windowSet s) s) := by
  unfold winWrite
  simp only [ht, hc]
  rw [if_neg (Nat.not_le.2 hi), if_neg (by simp)]
  exact if_pos hok

theorem winWrite_setBad (hok : setOk s (windowSet s) = false) : winWrite s = winStatus 1 s := by
  unfold winWrite
  simp only [ht, hc]
  rw [if_neg (Nat.not_le.2 hi), if_neg (by simp)]
  exact if_neg (ne_true_of_eq_false hok)

end

/-! ## The statement -/

section
variable (hm : mgmtUp s = true) (hd : dieLive s (winDie s) = true)
include hm hd

/-- An entry is written to the shadow. -/
theorem rtWinDataWrite_ent (val : Word) (ht : winTable s = 0) (hc : s.route.clr = none) :
    ∃ t, exec (.rtWinDataWrite 0 val) s = .next t ∧ t = { s with route := t.route } ∧
      (∀ e, tget 0 t.route.shadow e = if e = entKey (winDie s) (winIndex s) then val &&& 0xC0003FFF#32 else tget 0 s.route.shadow e) ∧
      entKey (winDie s) (winIndex s) ∈ t.route.dirtyEnt ∧ t.route.live = s.route.live ∧ t.route.liveSet = s.route.liveSet ∧ t.route.shadowSet = s.route.shadowSet ∧
      winIndex t = (if bitOf s.route.winCtl 26 then (winIndex s + 1) % 2 ^ 20 else winIndex s) ∧ fld t.route.winCtl 24 2 = 0 := by
  have hex := exec_rtWinDataWrite_ent (val := val) hm hd ht
  rw [winWrite_ent (s := withData 0 val s) ht hc, show tget 0 (withData 0 val s).route.winData 0 = val from tget_tset_eq 0 _ 0 val] at hex
  obtain ⟨w, hw, hst, hix⟩ := recordDone_route (shadowEnt (winDie s) (winIndex s) val (withData 0 val s))
  exact ⟨_, hex.trans (congrArg _ hw), rfl, fun e => tget_tset 0 _ e _ _, mem_insNat _ _, rfl, rfl, rfl, hix, hst⟩

/-- An entry that a running clearing has still to commit is refused (R123). -/
theorem rtWinDataWrite_entRefused (val : Word) (ht : winTable s = 0) (hc : s.route.clr.isSome = true) (hk : entKey (winDie s) (winIndex s) ∈ s.route.dirtyEnt) :
    ∃ t, exec (.rtWinDataWrite 0 val) s = .next t ∧ t.route.shadow = s.route.shadow ∧ t.route.live = s.route.live ∧ fld t.route.winCtl 24 2 = 2 ∧ winIndex t = winIndex s := by
  have hex := exec_rtWinDataWrite_ent (val := val) hm hd ht
  rw [winWrite_entRefused (s := withData 0 val s) ht hc hk] at hex
  exact ⟨_, hex, rfl, rfl, fld_setFld_same _ _ (by decide), fld_setFld_other _ _ (.inl (by decide))⟩

/-- A set is written to the shadow if R107 and R108 hold. -/
theorem rtWinDataWrite_set (val : Word) {w : BitVec 288} (ht : winTable s = 1) (hi : winIndex s < 2 ^ 14) (hc : s.route.clr = none)
    (hw : w = setOfWords ((List.range 8).map (fun k => tget 0 s.route.winData k) ++ [val])) :
    ∃ t, exec (.rtWinDataWrite 8 val) s = .next t ∧ t = { s with route := t.route } ∧ t.route.live = s.route.live ∧ t.route.liveSet = s.route.liveSet ∧
      t.route.shadow = s.route.shadow ∧
      (setOk s w = true → (∀ e, tget 0 t.route.shadowSet e = if e = setKey (winDie s) (winIndex s) then w else tget 0 s.route.shadowSet e) ∧
        setKey (winDie s) (winIndex s) ∈ t.route.dirtySet ∧ fld t.route.winCtl 24 2 = 0) ∧
      (setOk s w = false → t.route.shadowSet = s.route.shadowSet ∧ t.route.dirtySet = s.route.dirtySet ∧ fld t.route.winCtl 24 2 = 1 ∧ winIndex t = winIndex s) := by
  have hws : windowSet (withData 8 val s) = w := (windowSet_withData val s).trans hw.symm
  have hex := exec_rtWinDataWrite_set (val := val) hm hd ht
  cases hok : setOk s w with
  | true =>
    rw [winWrite_setOk (s := withData 8 val s) ht hi hc (hws ▸ hok), hws] at hex
    obtain ⟨v, hv, hst, -⟩ := recordDone_route (shadowPutSet (winDie s) (winIndex s) w (withData 8 val s))
    exact ⟨_, hex.trans (congrArg _ hv), rfl, rfl, rfl, rfl, fun _ => ⟨fun e => tget_tset 0 _ e _ _, mem_insNat _ _, hst⟩, nofun⟩
  | false =>
    rw [winWrite_setBad (s := withData 8 val s) ht hi hc (hws ▸ hok)] at hex
    exact ⟨_, hex, rfl, rfl, rfl, rfl, nofun, fun _ => ⟨rfl, rfl, fld_setFld_same _ _ (by decide), fld_setFld_other _ _ (.inl (by decide))⟩⟩

end

/-- Settles O39: the control word, a die that is off, then a word, an entry and a set of a live one. -/
theorem tableWindow : Obligations.TableWindow := by
  intro s val hm
  exact ⟨rtWinCtlWrite_loads val hm, fun hd k => rtWinDataWrite_dead hm hd, fun hd => ⟨fun k ht hk => exec_rtWinDataWrite_part hm hd ht hk, rtWinDataWrite_ent hm hd val,
    rtWinDataWrite_entRefused hm hd val, fun w ht hi hc hw => rtWinDataWrite_set hm hd val ht hi hc hw⟩⟩

end Sys2Proof.Machine
end

section
/-! The registers after reset (R71, R130, R136, R325, R349). -/

namespace Sys2Proof.Machine

/-- LPM_CTL of every port shows its IDLE_NS alone. -/
theorem portPeek_reset_lpmCtl (p : Nat) : portPeek State.reset p 0x40 = 2000 := by
  have hp : portOf State.reset p = {} := rfl
  simp (disch := omega) only [portPeek, hp, if_neg]
  decide

/-- STATUS, SPARES_LEFT and the scrub of every stack. -/
theorem memPeek_reset (m : Nat) : memPeek State.reset m 0 = 0x0F000000 ∧ memPeek State.reset m 0xC = 0x08000000 ∧ memPeek State.reset m 0x10 = 0x80000000 := by
  have hk : stackOf State.reset m = {} := rfl
  simp only [memPeek, hk, Bool.false_and]
  decide

/-- Settles O2: the fields of State.reset, then the registers by the block that shows them. -/
theorem resetRegisters : Obligations.ResetRegisters := by
  refine ⟨rfl, rfl, rfl, rfl, by decide, by decide, fun p => ?_, fun m => ?_, fun d => rfl⟩
  · exact (peek_port p.isLt (by decide)).trans (portPeek_reset_lpmCtl p)
  · obtain ⟨hstatus, hspares, hscrub⟩ := memPeek_reset m
    exact ⟨(peek_mem (o := 0) m.isLt (by decide)).trans hstatus, (peek_mem m.isLt (by decide)).trans hspares, (peek_mem m.isLt (by decide)).trans hscrub⟩

end Sys2Proof.Machine
end

section
/-! Registers of the switch core whose writes act (R157, R169, R170, R172, R176, R181, R182, R420, R452). -/

namespace Sys2Proof.Machine

/-! ## A write to a core -/

section
variable {s : State} {d : Nat} (hm : mgmtUp s = true) (addr : Nat) (f : State → State)
include hm

theorem onCore_live (hd : dieLive s d = true) : onCore d addr f s = f s := by
  simp only [onCore, hm, hd, Bool.not_true, Bool.false_eq_true, if_false, if_true]

theorem onCore_dead (hd : dieLive s d = false) : onCore d addr f s = offAccess (domCore d) 1 addr s := by
  simp only [onCore, hm, hd, Bool.not_true, Bool.false_eq_true, if_false]

/-- Of a write to a core that is off the cores, the queues and the units show nothing, and OFF_ACC one more (R452). -/
theorem onCore_dead_books (hd : dieLive s d = false) : (onCore d addr f s).swc = s.swc ∧ (onCore d addr f s).queues = s.queues ∧
    (onCore d addr f s).units = s.units ∧ (onCore d addr f s).pwr = { s.pwr with offAcc := satAdd s.pwr.offAcc 1 } := by
  rw [onCore_dead hm addr f hd]
  have hk : Keeps true 0x2581 (modPwr (fun p => { p with offAcc := satAdd p.offAcc 1 }) s) (offAccess (domCore d) 1 addr s) :=
    logEvent'_keeps _ _ _ _ _ _ _ (.refl _ _ _) rfl
  exact ⟨hk.only.swc (by decide), hk.only.queues (by decide), hk.only.units (by decide), hk.only.pwr (by decide)⟩

end

/-- Each of the rows is a write to its die's core. -/
theorem exec_coreRow {d : FabDie} {c : Instr} (s : State) (h : c = .auditSnap d ∨ (∃ i v, c = .shaperWrite d i v) ∨ (∃ j k v, c = .policerWrite d j k v) ∨
    (∃ h, c = .histClr d h) ∨ ∃ h q, c = .histQueueChange d h q) : ∃ addr f, exec c s = .next (onCore d addr f s) := by
  obtain rfl | ⟨_, _, rfl⟩ | ⟨_, _, _, rfl⟩ | ⟨_, rfl⟩ | ⟨_, _, rfl⟩ := h
  all_goals exact ⟨_, _, rfl⟩

/-- The other cores, where one changes. -/
theorem swcOf_modSwc_other {d e : Nat} (f : SwcSt → SwcSt) (s : State) (h : e ≠ d) : swcOf (modSwc d f s) e = swcOf s e := tget_tmod_ne _ _ _ h

/-! ## The audit (R157) -/

/-- The five counts frozen. -/
def snapped (w : SwcSt) : SwcSt := { w with
  snapFree := BitVec.ofNat 20 w.free, snapQueued := BitVec.ofNat 20 w.queued, snapVoq := BitVec.ofNat 20 w.voq
  snapLanding := BitVec.ofNat 20 w.landing, snapOpen := BitVec.ofNat 20 w.opened }

/-- A failed audit noted on its die. -/
def auditNoted (d : Nat) (s : State) : State := modSwc d (fun w => { w with auditErr := true, auditFailAt := some s.clock }) s

section
variable {s : State} {d : Nat}

theorem auditSnap_eq : auditSnap d s =
    if gladeBook (modSwc d snapped s) d && bridgeBook (modSwc d snapped s) d then modSwc d snapped s else auditFailed d (modSwc d snapped s) := rfl

/-- The frozen counts are no part of the books. -/
theorem books_snapped (e : Nat) : gladeBook (modSwc d snapped s) e = gladeBook s e ∧ bridgeBook (modSwc d snapped s) e = bridgeBook s e := by
  have hf {β : Type} (f : SwcSt → β) (hu : ∀ w, f (snapped w) = f w) (j : Nat) : f (swcOf (modSwc d snapped s) j) = f (swcOf s j) := swcOf_modSwc_field f hu d s j
  refine ⟨hf (fun w => decide (w.free + w.queued + w.voq + w.landing + w.opened = 786432)) (fun _ => rfl) e, ?_⟩
  simp only [bridgeBook, hf SwcSt.landOcc (fun _ => rfl), hf SwcSt.spentCred (fun _ => rfl), hf SwcSt.landRet (fun _ => rfl), modSwc_units]

theorem auditSnap_good (hg : gladeBook s d = true) (hb : bridgeBook s d = true) : auditSnap d s = modSwc d snapped s := by
  obtain ⟨hglade, hbridge⟩ := books_snapped (s := s) (d := d) d
  rw [auditSnap_eq, hglade, hbridge, hg, hb]
  rfl

theorem auditSnap_bad (h : (gladeBook s d && bridgeBook s d) = false) : auditSnap d s = auditFailed d (modSwc d snapped s) := by
  obtain ⟨hglade, hbridge⟩ := books_snapped (s := s) (d := d) d
  rw [auditSnap_eq, hglade, hbridge, h]
  rfl

theorem auditFailed_first (h : (swcOf s d).auditFailAt = none) : auditFailed d s = logEvent 0x1101 2 d [] (auditNoted d s) := by
  simp only [auditFailed, h]
  rfl

theorem auditFailed_again {x : Nat} (h : (swcOf s d).auditFailAt = some x) (hx : s.clock ≤ x + 1000000000) :
    auditFailed d s = fenceDie d (logEvent 0x1101 2 d [] (auditNoted d s)) := by
  have hin : decide (s.clock - x ≤ 1000000000) = true := by
    rw [decide_eq_true_eq]
    omega
  simp only [auditFailed, h, hin]
  rfl

theorem keeps_auditLogged (d : Nat) (s : State) : Keeps true 0x2581 (auditNoted d s) (logEvent 0x1101 2 d [] (auditNoted d s)) :=
  logEvent_keeps _ _ _ _ (.refl _ _ _) rfl

/-- A die that is fenced stays so to the end of its fencing (R420). -/
theorem fabLost_fenceDie (hd : d < 4) (h : bitOf s.units.fabLost d = false) : bitOf (fenceDie d s).units.fabLost d = true := by
  have hlog : (logEvent 0x1001 2 d [] s).units = s.units := (logEvent_keeps (d := true) (L := 0x2581) _ _ _ _ (.refl _ _ s) rfl).only.units (by decide)
  have hrest : Keeps true 0xffbf5c3 (modUnits (fun u => { u with fabLost := setBit u.fabLost d true }) (logEvent 0x1001 2 d [] s)) (fenceDie d s) := by
    rw [fenceDie, if_neg (ne_true_of_eq_false h)]
    exact domsLost_keeps _ (loseGlade_keeps _ (dropBound_keeps _ (portsDown_keeps _ _ (disarmAt_keeps _ (.refl _ _ _) rfl) rfl) rfl) rfl) rfl
  rw [hrest.only.units (by decide)]
  show bitOf (setBit (logEvent 0x1001 2 d [] s).units.fabLost d true) d = true
  exact bitOf_setBit_true _ hd

theorem dieLive_of_fabLost (h : bitOf s.units.fabLost d = true) : dieLive s d = false := by
  simp only [dieLive, h, Bool.not_true, Bool.false_and]

end

/-- AUDIT_SNAP: the books in balance, out of balance for the first time, and again within a second. -/
theorem auditSnap_books {s : State} {d : FabDie} (hm : mgmtUp s = true) (hd : dieLive s d = true) : ∃ t, exec (.auditSnap d) s = .next t ∧
    (gladeBook s d = true → bridgeBook s d = true → t = { s with swc := t.swc } ∧ swcOf t d = snapped (swcOf s d) ∧ ∀ e, e ≠ d.val → swcOf t e = swcOf s e) ∧
    ((gladeBook s d && bridgeBook s d) = false → (swcOf s d).auditFailAt = none → (swcOf t d).auditErr = true ∧ (swcOf t d).auditFailAt = some s.clock ∧ t.units = s.units) ∧
    (∀ x, (gladeBook s d && bridgeBook s d) = false → (swcOf s d).auditFailAt = some x → s.clock ≤ x + 1000000000 → bitOf s.units.fabLost d = false →
      bitOf t.units.fabLost d = true ∧ dieLive t d = false) := by
  have hex : exec (.auditSnap d) s = .next (auditSnap d s) := congrArg Host.Outcome.next (onCore_live hm _ _ hd)
  have hat : (swcOf (modSwc d snapped s) d).auditFailAt = (swcOf s d).auditFailAt :=
    swcOf_modSwc_field SwcSt.auditFailAt (u := snapped) (fun _ => rfl) d s d
  have hk := (keeps_auditLogged d (modSwc d snapped s)).only
  refine ⟨_, hex, fun hg hb => ?_, fun hbad hnone => ?_, fun x hbad hx hin hl => ?_⟩
  · rw [auditSnap_good hg hb]
    exact ⟨rfl, swcOf_modSwc_same .., fun e he => swcOf_modSwc_other _ _ he⟩
  · rw [auditSnap_bad hbad, auditFailed_first (hat.trans hnone)]
    have hw : swcOf (logEvent 0x1101 2 d [] (auditNoted d (modSwc d snapped s))) d = { swcOf (modSwc d snapped s) d with auditErr := true, auditFailAt := some s.clock } :=
      (swcOf_congr (hk.swc (by decide)) d).trans (swcOf_modSwc_same ..)
    rw [hw]
    exact ⟨rfl, rfl, hk.units (by decide)⟩
  · rw [auditSnap_bad hbad, auditFailed_again (hat.trans hx) hin]
    have hlost : bitOf (logEvent 0x1101 2 d [] (auditNoted d (modSwc d snapped s))).units.fabLost d = false := by
      rw [hk.units (by decide)]
      exact hl
    have hfenced := fabLost_fenceDie d.isLt hlost
    exact ⟨hfenced, dieLive_of_fabLost hfenced⟩

/-! ## Shapers, policers and histograms -/

section
variable {d : Nat} (h : Nat) (f : Hist → Hist) (s : State)

/-- An engine after a change of it. -/
theorem hist_modHist_same : tget {} (swcOf (modHist d h f s) d).hist h = f (tget {} (swcOf s d).hist h) := by
  rw [modHist, swcOf_modSwc_same]
  exact tget_tmod_eq ..

/-- The other engines of the die. -/
theorem hist_modHist_other {i : Nat} (hi : i ≠ h) : tget {} (swcOf (modHist d h f s) d).hist i = tget {} (swcOf s d).hist i := by
  rw [modHist, swcOf_modSwc_same]
  exact tget_tmod_ne _ _ _ hi

end

section
variable {s : State} {d : FabDie} (hm : mgmtUp s = true) (hd : dieLive s d = true)
include hm hd

/-- A write of SHAPER word 0 leaves a credit of 0 (R170). -/
theorem shaperWrite_books (i : Fin 2304) (v : Word) : ∃ t, exec (.shaperWrite d i v) s = .next t ∧ t = { s with queues := t.queues, scheds := t.scheds } ∧
    (queueOf t (2304 * d.val + i.val)).shaper = v ∧ shCredit (queueOf t (2304 * d.val + i.val)) = 0 ∧
    (queueOf t (2304 * d.val + i.val)).ents = (queueOf s (2304 * d.val + i.val)).ents ∧ ∀ g, g ≠ 2304 * d.val + i.val → queueOf t g = queueOf s g := by
  have hr (g j : Nat) (a : State) : queueOf (refresh g a) j = queueOf a j := (refresh_inputs g a j).2.1
  have hq : queueOf (shaperPut (2304 * d.val + i.val) v s) (2304 * d.val + i.val) = shReset s.clock v (queueOf s (2304 * d.val + i.val)) := by
    rw [shaperPut, hr, queueOf_modQueue_same]
  refine ⟨_, congrArg Host.Outcome.next (onCore_live hm _ _ hd), rfl, ?_, ?_, ?_, fun g hg => ?_⟩
  · rw [hq]
    rfl
  · rw [hq]
    simp only [shReset, shCredit]
    omega
  · rw [hq]
    exact ents_shSync _ _
  · rw [shaperPut, hr, queueOf_modQueue_other _ _ hg]

/-- A write of a POLICER word fills both buckets (R172). -/
theorem policerWrite_books (j : Fin 2304) (k : Fin 3) (v : Word) : ∃ t, exec (.policerWrite d j k v) s = .next t ∧ t = { s with swc := t.swc } ∧
    (let p := tget {} (swcOf s d).policers j; let w2 := if k = 2 then v else p.w2
     tget {} (swcOf t d).policers j = { w0 := if k = 0 then v &&& 0xC003FFFF#32 else p.w0, w1 := if k = 1 then v &&& 0x3FFFF#32 else p.w1, w2 := w2
                                        c := fld w2 0 16 * 256 * 800, p := (fld w2 16 16 * 256 * 800 : Nat), at_ := s.clock }) ∧
    (∀ i, i ≠ j.val → tget {} (swcOf t d).policers i = tget {} (swcOf s d).policers i) ∧ ∀ e, e ≠ d.val → swcOf t e = swcOf s e := by
  refine ⟨_, congrArg Host.Outcome.next (onCore_live hm _ _ hd), rfl, ?_, fun i hi => ?_, fun e he => swcOf_modSwc_other _ _ he⟩
  · have hk : k = 0 ∨ k = 1 ∨ k = 2 := by omega
    rw [policerPut, swcOf_modSwc_same]
    obtain rfl | rfl | rfl := hk
    all_goals exact tget_tset_eq ..
  · rw [policerPut, swcOf_modSwc_same]
    exact tget_tset_ne _ _ _ hi

/-- HIST_CLR empties an engine's bins and maxima (R182). -/
theorem histClr_books (h : Fin 64) : ∃ t, exec (.histClr d h) s = .next t ∧ t = { s with swc := t.swc } ∧
    tget {} (swcOf t d).hist h = { tget {} (swcOf s d).hist h with depth := [], delay := [], maxDepth := 0, maxDelay := 0 } ∧
    (∀ i, i ≠ h.val → tget {} (swcOf t d).hist i = tget {} (swcOf s d).hist i) ∧ ∀ e, e ≠ d.val → swcOf t e = swcOf s e :=
  ⟨_, congrArg Host.Outcome.next (onCore_live hm _ _ hd), rfl, hist_modHist_same .., fun _ hi => hist_modHist_other _ _ _ hi, fun _ he => swcOf_modSwc_other _ _ he⟩

/-- HIST_QUEUE_CHANGE to the engine's own queue does nothing, to another empties it as well (R176). -/
theorem histQueueChange_books (h : Fin 64) (q : BitVec 12) : ∃ t, exec (.histQueueChange d h q) s = .next t ∧ t = { s with swc := t.swc } ∧
    ((tget {} (swcOf s d).hist h).queue = q → tget {} (swcOf t d).hist h = tget {} (swcOf s d).hist h) ∧
    ((tget {} (swcOf s d).hist h).queue ≠ q →
      tget {} (swcOf t d).hist h = { tget {} (swcOf s d).hist h with depth := [], delay := [], maxDepth := 0, maxDelay := 0, queue := q }) :=
  ⟨_, congrArg Host.Outcome.next (onCore_live hm _ _ hd), rfl, fun hq => (hist_modHist_same ..).trans (if_pos hq), fun hq => (hist_modHist_same ..).trans (if_neg hq)⟩

end

/-- Settles O40: a core that is off, then the audit, a shaper, a policer and the histograms of one that is on. -/
theorem switchCoreRegisters : Obligations.SwitchCoreRegisters := by
  intro d s hm
  refine ⟨fun hd c hc => ?_, fun hd => ⟨auditSnap_books hm hd, shaperWrite_books hm hd, policerWrite_books hm hd,
    fun h => ⟨histClr_books hm hd h, histQueueChange_books hm hd h⟩⟩⟩
  obtain ⟨addr, f, hex⟩ := exec_coreRow s hc
  exact ⟨_, hex, onCore_dead_books hm addr f hd⟩

end Sys2Proof.Machine
end

section
/-! SUPPORT. Packets that a context sends (R142, R150): their numbers, and what they say. -/

namespace Sys2Proof.Machine

/-- What the packet of a number says, if it is held: its header and its payload. -/
def saidAt (s : State) (j : Nat) : Option (Hdr × List Byte) := (pktOf s j).map fun z => (z.hdr, z.body)

section
variable {s t u : State} {j pid : Nat}

theorem saidAt_congr (h : t.pkts = s.pkts) (j : Nat) : saidAt t j = saidAt s j := by
  rw [saidAt, pktOf_congr h, saidAt]

theorem saidAt_modPkt {f : Pkt → Pkt} (hf : ∀ z, ((f z).hdr, (f z).body) = (z.hdr, z.body)) (pid : Nat) (s : State) (j : Nat) : saidAt (modPkt pid f s) j = saidAt s j := by
  unfold saidAt
  by_cases h : j = pid
  · subst h
    rw [pktOf_modPkt_same, Option.map_map]
    exact congrArg (fun g => (pktOf s j).map g) (funext hf)
  · rw [pktOf_modPkt_other _ _ h]

theorem saidAt_leaveStaging (pid : Nat) (s : State) (j : Nat) : saidAt (leaveStaging pid s) j = saidAt s j := by
  unfold leaveStaging
  split
  · split
    · exact (saidAt_modPkt (f := fun p => { p with stag := 0 }) (fun _ => rfl) _ _ j).trans (saidAt_congr rfl j)
    · rfl
  · rfl

theorem saidAt_modSwc (d : Nat) (f : SwcSt → SwcSt) (s : State) (j : Nat) : saidAt (modSwc d f s) j = saidAt s j := saidAt_congr rfl j

theorem saidAt_landTake (d src vc n : Nat) (s : State) (j : Nat) : saidAt (landTake d src vc n s) j = saidAt s j := saidAt_modSwc ..

/-- On its way to an egress die a packet says what it said. -/
theorem saidAt_toEgress (d src vc m : Nat) (targets : List Nat) (pid : Nat) (s : State) (j : Nat) : saidAt (toEgress d src vc m targets pid s) j = saidAt s j := by
  have hz : saidAt (leaveDoze m s) j = saidAt s j := saidAt_congr ((leaveDoze_keeps (d := true) (L := 0x30001) m (.refl _ _ s) rfl).only.pkts (by decide)) j
  unfold toEgress
  dsimp only
  split
  · exact hz
  · split
    · rw [saidAt_modSwc]
      exact hz
    · split
      · split
        · rw [saidAt_modSwc]
          exact hz
        · have hi (a : State) : saidAt (swcInject d 2 a) j = saidAt a j := saidAt_congr ((swcInject_keeps (d := true) (L := 0x80) _ _ (.refl _ _ a) rfl).only.pkts (by decide)) j
          rw [saidAt_modSwc, saidAt_landTake, saidAt_leaveStaging, hi, saidAt_modSwc]
          exact hz
      · split
        · rw [saidAt_modSwc]
          exact hz
        · rw [saidAt_modSwc, saidAt_landTake]
          exact hz

theorem saidAt_newPkt (h : Hdr) (exts : List Ext) (body : List Byte) (mirror mcast : Bool) (s : State) (j : Nat) :
    saidAt (newPkt h exts body mirror mcast s).2 j = if j = s.nextPid then some (h, body) else saidAt s j := by
  unfold saidAt
  by_cases hj : j = s.nextPid
  · subst hj
    rw [if_pos rfl]
    simp only [pktOf, newPkt, setPkt_pkts, tget_tset_eq, Option.map_some]
  · rw [if_neg hj]
    exact congrArg (Option.map _) (pktOf_setPkt_other _ _ hj)

end

/-- t holds n packets more than s, which all say m; every other packet says what it said. -/
structure Sends (n : Nat) (m : Hdr × List Byte) (s t : State) : Prop where
  next : t.nextPid = s.nextPid + n
  content : ∀ j, saidAt t j = if s.nextPid ≤ j ∧ j < s.nextPid + n then some m else saidAt s j

section
variable {s t u : State} {a b : Nat} {m : Hdr × List Byte}

theorem Sends.refl (m : Hdr × List Byte) (s : State) : Sends 0 m s s := ⟨rfl, fun _ => (if_neg (by omega)).symm⟩

theorem Sends.trans (h : Sends a m s t) (h' : Sends b m t u) : Sends (a + b) m s u := by
  have hn : u.nextPid = s.nextPid + (a + b) := by rw [h'.next, h.next, Nat.add_assoc]
  refine ⟨hn, fun j => ?_⟩
  rw [h'.content, h.content, h.next]
  by_cases h1 : s.nextPid ≤ j ∧ j < s.nextPid + a
  · rw [if_neg (by omega), if_pos h1, if_pos (by omega)]
  · by_cases h2 : s.nextPid + a ≤ j ∧ j < s.nextPid + a + b
    · rw [if_pos h2, if_pos (by omega)]
    · rw [if_neg h2, if_neg h1, if_neg (by omega)]

/-- The packets there were say what they said. -/
theorem Sends.before (h : Sends a m s t) {j : Nat} (hj : j < s.nextPid) : saidAt t j = saidAt s j := by
  rw [h.content, if_neg (by omega)]

/-- A packet with a new number says m. -/
theorem Sends.new (h : Sends a m s t) (hs : ∀ j, s.nextPid ≤ j → pktOf s j = none) {j : Nat} {z : Pkt} (hj : s.nextPid ≤ j) (hz : pktOf t j = some z) :
    (z.hdr, z.body) = m := by
  have hsay := h.content j
  have hold : saidAt s j = none := by rw [saidAt, hs j hj]; rfl
  rw [saidAt, hz, hold] at hsay
  split at hsay
  · exact Option.some.inj hsay
  · cases hsay

end

/-! ## One copy for each die (R142) -/

/-- The copy for die d of a packet to a set of positions, if any of them is there. -/
def copyTo (c : Ctx) (h : Hdr) (body : List Byte) (poss : List Nat) (d : Nat) (s : State) : State :=
  match poss.filter fun p => dieOf p = d with
  | [] => s
  | m :: r =>
    let u := (newPkt h [] body false true s).2
    toEgress d (ctxSrc u c d) (tcVc u (hTc h)) m ((m :: r).map fun p => qkey u p (hTc h)) s.nextPid u

/-- The dies that hold one of the positions. -/
def diesOf (poss : List Nat) (l : List Nat) : List Nat := l.filter fun d => poss.any fun q => dieOf q == d

section
variable (c : Ctx) (h : Hdr) (body : List Byte)

theorem sendMany_eq (poss : List Nat) (s : State) : sendMany c h body poss s = each (List.range 4) (copyTo c h body poss) s := by
  unfold sendMany
  refine congrArg (fun f => each (List.range 4) f s) (funext fun d => funext fun a => ?_)
  unfold copyTo
  dsimp only
  cases poss.filter fun p => dieOf p = d <;> rfl

theorem newPkt_toEgress_sends (s : State) (exts : List Ext) (mirror mcast : Bool) (d src vc m : Nat) (targets : List Nat) :
    Sends 1 (h, body) s (toEgress d src vc m targets s.nextPid (newPkt h exts body mirror mcast s).2) := by
  refine ⟨(toEgress_keeps (d := true) (L := 0x4b0081) _ _ _ _ _ _ (.refl _ _ _) rfl).only.nextPid (by decide), fun j => ?_⟩
  rw [saidAt_toEgress, saidAt_newPkt]
  by_cases hj : j = s.nextPid
  · rw [if_pos hj, if_pos (by omega)]
  · rw [if_neg hj, if_neg (by omega)]

theorem sends_copyTo (poss : List Nat) (d : Nat) (s : State) : Sends (diesOf poss [d]).length (h, body) s (copyTo c h body poss d s) := by
  unfold copyTo
  split
  · next hf =>
    have hnone : diesOf poss [d] = [] := by
      simpa [diesOf, List.filter_eq_nil_iff] using hf
    rw [hnone]
    exact .refl _ _
  · next m r hf =>
    have hone : diesOf poss [d] = [d] := by
      have hm : m ∈ poss.filter fun p => dieOf p = d := hf ▸ List.mem_cons_self
      simp only [List.mem_filter, decide_eq_true_eq] at hm
      simp only [diesOf, List.filter_cons, List.filter_nil]
      exact if_pos (List.any_eq_true.2 ⟨m, hm.1, hm.2 ▸ BEq.rfl⟩)
    rw [hone]
    exact newPkt_toEgress_sends ..

theorem sends_each_copyTo (poss l : List Nat) (s : State) : Sends (diesOf poss l).length (h, body) s (each l (copyTo c h body poss) s) := by
  induction l generalizing s with
  | nil => exact .refl _ _
  | cons d r ih =>
    have hlen : (diesOf poss (d :: r)).length = (diesOf poss [d]).length + (diesOf poss r).length := by
      rw [← List.length_append, diesOf, diesOf, diesOf, ← List.filter_append]
      rfl
    rw [hlen]
    exact (sends_copyTo c h body poss d s).trans (ih _)

theorem sends_sendMany (poss : List Nat) (s : State) : Sends (diesOf poss (List.range 4)).length (h, body) s (sendMany c h body poss s) := by
  rw [sendMany_eq]
  exact sends_each_copyTo ..

theorem sends_sendOne (pos : Nat) (s : State) : Sends 1 (h, body) s (sendOne c h body pos s) := newPkt_toEgress_sends ..

end

end Sys2Proof.Machine
end

section
/-! SUPPORT. A context with one open step, and what WINDOWs and ended instances change of a context (R195, R197, R251, R260). -/

namespace Sys2Proof.Machine

/-- y is the only step of a context, of a number, and open. -/
structure OneOpen (c : Ctx) (y : Step) (num : StepNo) : Prop where
  steps : c.steps = [y]
  num : y.num = num
  isOpen : y.closed = false

section
variable {c : Ctx} {y : Step} {num : StepNo}

theorem OneOpen.openSteps (h : OneOpen c y num) : openSteps c = [y] := by
  rw [Machine.openSteps, h.steps]
  exact List.filter_cons_of_pos (by rw [h.isOpen]; rfl)

theorem OneOpen.stepOf (h : OneOpen c y num) : stepOf c num = some y := by
  rw [Machine.stepOf, h.openSteps]
  exact List.find?_cons_of_pos (decide_eq_true h.num)

theorem OneOpen.modStep (h : OneOpen c y num) (f : Step → Step) : modStep num f c = { c with steps := [f y] } := by
  have hy : y.num = num ∧ ¬ y.closed = true := ⟨h.num, by rw [h.isOpen]; exact Bool.false_ne_true⟩
  rw [Machine.modStep, h.steps]
  simp only [List.map_cons, List.map_nil, if_pos hy]

theorem OneOpen.modChunk (h : OneOpen c y num) {k : Nat} {x : Chunk} (hx : chunkOf y k = some x) (f : Chunk → Chunk) :
    modChunk num k f c = { c with steps := [setChunk k (some (f x)) y] } := by
  have hy : y.num = num ∧ (chunkOf y k).isSome = true := ⟨h.num, by rw [hx]; rfl⟩
  rw [Machine.modChunk, h.steps]
  simp only [List.map_cons, List.map_nil, if_pos hy]
  rw [hx, Option.map_some]

/-- Another step in its place. -/
theorem OneOpen.put (h : OneOpen c y num) {z : Step} (hn : z.num = y.num) (hc : z.closed = y.closed) : OneOpen { c with steps := [z] } z num :=
  ⟨rfl, hn.trans h.num, hc.trans h.isOpen⟩

theorem chunkOf_setChunk_same (k : Nat) (x : Option Chunk) (t : Step) : chunkOf (setChunk k x t) k = x := tget_tset_eq ..

end

/-! ## WINDOWs (R197) -/

/-- A context after WINDOWs: another LIMIT was sent last for its steps. -/
def withLims (lim : Step → Nat) (c : Ctx) : Ctx := { c with steps := c.steps.map fun y => { y with limSent := lim y } }

section
variable {s : State} {slot : Nat} {c : Ctx}

theorem ctxOf_congr {t : State} (h : t.ctxs = s.ctxs) (k : Nat) : ctxOf t k = ctxOf s k := by rw [ctxOf, h, ctxOf]

theorem modStep_withLims (num : StepNo) (l : Nat) (lim : Step → Nat) (c : Ctx) : ∃ lim', modStep num (fun t => { t with limSent := l }) (withLims lim c) = withLims lim' c := by
  refine ⟨fun y => if y.num = num ∧ ¬ y.closed = true then l else lim y, ?_⟩
  simp only [modStep, withLims, List.map_map]
  congr 1
  refine List.map_congr_left fun y _ => ?_
  simp only [Function.comp_apply]
  split <;> rfl

theorem ctxOf_sendWindows (h : ctxOf s slot = some c) (force : Bool) : ∃ lim, ctxOf (sendWindows slot force s) slot = some (withLims lim c) := by
  unfold sendWindows
  rw [h]
  refine each_induct (P := fun a => ∃ lim, ctxOf a slot = some (withLims lim c)) (fun t _ a ⟨lim, ha⟩ => ?_) ⟨Step.limSent, h.trans (congrArg some ?_)⟩
  · dsimp only
    split
    · obtain ⟨lim', hl⟩ := modStep_withLims t.num (limitOf c t) lim c
      refine ⟨lim', (ctxOf_congr ((ctrlDown_keeps (d := true) (L := 0xcb0081) _ _ _ _ _ _ (.refl _ _ _) rfl).only.ctxs (by decide)) _).trans ?_⟩
      rw [ctxOf_modCtx_same, ha]
      exact congrArg some hl
    · exact ⟨lim, ha⟩
  · simp only [withLims, List.map_id']

/-- A packet there before WINDOWs are sent says what it said. -/
theorem saidAt_sendWindows (slot : Nat) (force : Bool) {j : Nat} (hj : j < s.nextPid) : saidAt (sendWindows slot force s) j = saidAt s j := by
  unfold sendWindows
  split
  · rfl
  next c _ =>
    refine (each_induct (P := fun a => j < a.nextPid ∧ saidAt a j = saidAt s j) (fun t _ a ⟨hn, ha⟩ => ?_) ⟨hj, rfl⟩).2
    dsimp only
    split
    · have hs (u : State) : ∃ n m, Sends n m u (ctrlDown c kWindow 0 t.num.toNat (limitOf c t) [] u) := ⟨_, _, sends_sendMany ..⟩
      obtain ⟨n, m, hw⟩ := hs (modCtx slot (modStep t.num fun y => { y with limSent := limitOf c t }) a)
      exact ⟨hw.next ▸ Nat.lt_add_right n hn, (hw.before hn).trans ha⟩
    · exact ⟨hn, ha⟩

end

/-! ## Instances that are no more (R251, R260) -/

/-- A context after a halt on a die is over: its steps' timers stood still meanwhile. -/
def withTimers (at_ : Step → Nat) (c : Ctx) : Ctx := { c with steps := c.steps.map fun y => { y with timerAt := at_ y } }

section
variable {s : State} {slot : Nat} {c : Ctx}

theorem withTimers_withTimers (f g : Step → Nat) (c : Ctx) : withTimers g (withTimers f c) = withTimers (fun y => g { y with timerAt := f y }) c := by
  simp only [withTimers, List.map_map]
  rfl

theorem ctxOf_unhalt (h : ctxOf s slot = some c) (x : Nat) : ∃ at_, ctxOf (unhalt x s) slot = some (withTimers at_ c) := by
  have hid : withTimers Step.timerAt c = c := by simp only [withTimers, List.map_id']
  unfold unhalt
  dsimp only
  split
  · exact ⟨Step.timerAt, h.trans (congrArg some hid.symm)⟩
  · next i _ =>
    by_cases hi : slot = i.slot.toNat
    · subst hi
      exact ⟨_, (ctxOf_modCtx_same _).trans (congrArg (Option.map _) h)⟩
    · exact ⟨Step.timerAt, (ctxOf_modCtx_other _ hi).trans (h.trans (congrArg some hid.symm))⟩

theorem ctxOf_sweepInsts (h : ctxOf s slot = some c) (k : Nat) : ∃ at_, ctxOf (sweepInsts k s) slot = some (withTimers at_ c) := by
  unfold sweepInsts
  dsimp only
  rw [ctxOf_congr ((freeOwned_keeps (d := true) (L := 0x1080) _ (.refl _ _ _) rfl).only.ctxs (by decide))]
  refine each_induct (P := fun a => ∃ at_, ctxOf a slot = some (withTimers at_ c)) (fun x _ a ⟨at_, ha⟩ => ?_) ⟨Step.timerAt, h.trans (congrArg some ?_)⟩
  · split
    · obtain ⟨at', ha'⟩ := ctxOf_unhalt ha x
      exact ⟨_, ha'.trans (congrArg some (withTimers_withTimers ..))⟩
    · exact ⟨at_, ha⟩
  · simp only [withTimers, List.map_id']

/-- A field of a reduction die that a change leaves. -/
theorem redOf_modRed_field {β : Type} (f : RedSt → β) {u : RedSt → RedSt} (hu : ∀ r, f (u r) = f r) (e : Nat) (s : State) (x : Nat) :
    f (redOf (modRed e u s) x) = f (redOf s x) := by
  by_cases h : x = e
  · subst h
    rw [redOf_modRed_same, hu]
  · exact congrArg f (tget_tmod_ne _ _ _ h)

theorem cnt_sweepInsts (k : Nat) (s : State) (x : Nat) : (redOf (sweepInsts k s) x).cnt = (redOf s x).cnt := by
  have hu (e : Nat) (a : State) : (redOf (unhalt e a) x).cnt = (redOf a x).cnt := by
    unfold unhalt
    dsimp only
    split
    · rfl
    · exact redOf_modRed_field RedSt.cnt (u := fun r => { r with halted := none }) (fun _ => rfl) e a x
  unfold sweepInsts
  dsimp only
  rw [redOf_congr ((freeOwned_keeps (d := true) (L := 0x1080) _ (.refl _ _ _) rfl).only.red (by decide))]
  refine each_field (fun a => (redOf a x).cnt) fun e a => ?_
  split
  · exact hu e a
  · rfl

end

end Sys2Proof.Machine
end

section
/-! CHUNKs at the front of a reduction die's arrivals, for an ALLREDUCE with one open step (R191, R198, R199, R201, R214, R248). -/

namespace Sys2Proof.Machine

/-! ## The front of the arrivals -/

/-- The front packet of die x is handled, for the context of slot k; the memories, the queues and the other contexts are as they were. -/
def Handled (x : RedDie) (pid k : Nat) (s t : State) : Prop :=
  (redOf t x).inbox = (redOf s x).inbox.drop 1 ∧ pktOf t pid = none ∧ t.mem = s.mem ∧ t.queues = s.queues ∧ ∀ j, j ≠ k → ctxOf t j = ctxOf s j

section
variable {s t : State} {x : RedDie} {pid k : Nat}

theorem handled_eatFront (x : RedDie) (pid k : Nat) (s : State) : Handled x pid k s (eatFront x pid s) :=
  ⟨congrArg RedSt.inbox (redOf_modRed_same x.val (fun r => { r with inbox := r.inbox.drop 1 }) s), pktOf_setPkt_none _ _, rfl, rfl, fun _ _ => rfl⟩

theorem Handled.modCtx (h : Handled x pid k s t) (f : Ctx → Ctx) : Handled x pid k s (modCtx k f t) := by
  obtain ⟨hin, hp, hmem, hq, hc⟩ := h
  exact ⟨hin, hp, hmem, hq, fun j hj => (ctxOf_modCtx_other f hj).trans (hc j hj)⟩

theorem inbox_dropAt (die ofs : Nat) (t : State) (x : Nat) : (redOf (dropAt die ofs t) x).inbox = (redOf t x).inbox :=
  redOf_modRed_field RedSt.inbox (u := fun r => { r with cnt := bump r.cnt ofs 1 }) (fun _ => rfl) die t x

theorem Handled.dropAt (h : Handled x pid k s t) (die ofs : Nat) : Handled x pid k s (dropAt die ofs t) := by
  obtain ⟨hin, hp, hmem, hq, hc⟩ := h
  exact ⟨(inbox_dropAt die ofs t x).trans hin, hp, hmem, hq, hc⟩

theorem Handled.sendMany (h : Handled x pid k s t) (hpid : pid < t.nextPid) (c : Ctx) (hd : Hdr) (body : List Byte) (poss : List Nat) :
    Handled x pid k s (sendMany c hd body poss t) := by
  obtain ⟨hin, hp, hmem, hq, hc⟩ := h
  have hk := (sendMany_keeps (d := true) (L := 0xcb0081) c hd body poss (.refl _ _ t) rfl).only
  have hgone : saidAt (Machine.sendMany c hd body poss t) pid = none := by
    rw [(sends_sendMany c hd body poss t).before hpid, saidAt, hp]
    rfl
  exact ⟨(congrArg RedSt.inbox (redOf_congr (hk.red (by decide)) x)).trans hin, Option.map_eq_none_iff.1 hgone, (hk.mem (by decide)).trans hmem,
    (hk.queues (by decide)).trans hq, fun j hj => (ctxOf_congr (hk.ctxs (by decide)) j).trans (hc j hj)⟩

/-- The counters of a die whose front packet is taken. -/
theorem cnt_eatFront (x : RedDie) (pid die : Nat) (s : State) : (redOf (eatFront x pid s) die).cnt = (redOf s die).cnt :=
  redOf_modRed_field RedSt.cnt (u := fun r => { r with inbox := r.inbox.drop 1 }) (fun _ => rfl) x s die

theorem cnt_dropAt {die : Nat} (h : (redOf t die).cnt = (redOf s die).cnt) (ofs : Nat) : (redOf (dropAt die ofs t) die).cnt = bump (redOf s die).cnt ofs 1 :=
  (congrArg RedSt.cnt (redOf_modRed_same ..)).trans (congrArg (fun b => bump b ofs 1) h)

theorem ctxOf_dropAt (die ofs : Nat) (s : State) (k : Nat) : ctxOf (dropAt die ofs s) k = ctxOf s k := rfl

theorem ctxOf_eatFront (x pid : Nat) (s : State) (k : Nat) : ctxOf (eatFront x pid s) k = ctxOf s k := rfl

theorem nextPid_dropAt (die ofs : Nat) (s : State) : (dropAt die ofs s).nextPid = s.nextPid := modRed_nextPid ..

theorem nextPid_eatFront (x pid : Nat) (s : State) : (eatFront x pid s).nextPid = s.nextPid := (setPkt_nextPid ..).trans (modRed_nextPid ..)

theorem pktPos_eatFront (x pid : Nat) (s : State) (p : Pkt) : pktPos (eatFront x pid s) p = pktPos s p := rfl

end

/-! ## Which row takes a CHUNK -/

section
variable {s : State} {x : RedDie} {pid k : Nat} {p : Pkt} {c : Ctx}
  (hf : inboxFront s x = some (pid, p)) (ht : hPtype p.hdr = ptChunk) (hk : pktSlot s p = some k) (hc : ctxOf s k = some c)
include hf ht hk hc

theorem onChunk_found (f : State → Ctx → Nat → Pkt → Bool) (g : Nat → Pkt → State → State) :
    onChunk x f g s = if f s c (pktPos s p) p = true then g k p (eatFront x pid s) else s := by
  simp only [onChunk, hf, ht, hk, hc, ne_eq, not_true_eq_false, if_false]

theorem exec_chunkContribution (hup : c.up ≠ some (pktPos s p)) : exec (.chunkContribution x) s = .next (contribAt k p (eatFront x pid s)) :=
  congrArg Host.Outcome.next ((onChunk_found hf ht hk hc _ _).trans (if_pos (decide_eq_true hup)))

theorem exec_resultPassDown (hup : c.up = some (pktPos s p)) (htw : c.isTwin = false) :
    exec (.resultPassDown x) s = .next (passDown k p (eatFront x pid s)) := by
  refine congrArg Host.Outcome.next ((onChunk_found hf ht hk hc _ _).trans (if_pos ?_))
  simp only [isTwinWrite, hup, htw, decide_true, Bool.false_and, Bool.not_false, Bool.and_true]

end

/-! ## The book of a step (R201) -/

/-- A CHUNK steered to step num is booked in it. -/
def booked (k : Nat) (num : StepNo) (f : Step → Step) (s : State) : State := modCtx k (modStep num fun t => f { t with steered := satAdd t.steered 1 }) s

/-- A contribution dropped. -/
def noteDropped (t : Step) : Step := { t with dropped := satAdd t.dropped 1 }

/-- A contribution to a failed step. -/
def noteDiscarded (t : Step) : Step := { t with discarded := satAdd t.discarded 1 }

section
variable {s : State} {k i : Nat} {p : Pkt} {c : Ctx} {y : Step}

theorem ctxOf_booked (hc : ctxOf s k = some c) {num : StepNo} (ho : OneOpen c y num) (f : Step → Step) :
    ctxOf (booked k num f s) k = some { c with steps := [f { y with steered := satAdd y.steered 1 }] } := by
  rw [booked, ctxOf_modCtx_same, hc, Option.map_some, ho.modStep]

theorem openByChunk_open (hc : ctxOf s k = some c) {num : StepNo} (ho : OneOpen c y num) : openByChunk k num s = s := by
  simp only [openByChunk, hc, ho.stepOf, Option.isNone_some, Bool.and_false, Bool.false_and, Bool.false_eq_true, if_false]

theorem contribAt_outside (hc : ctxOf s k = some c) (hi : childIdx c (pktPos s p) = none) :
    contribAt k p s = dropAt c.die 0x048 (booked k (pktStep p) noteDropped s) := by
  simp only [contribAt, hc, hi]
  rfl

section
variable (hc : ctxOf s k = some c) (hi : childIdx c (pktPos s p) = some i) (ho : OneOpen c y (pktStep p))
include hc hi ho

theorem contribAt_failed (hf : y.failed.isSome = true) : contribAt k p s = booked k (pktStep p) noteDiscarded s := by
  simp only [contribAt, hc, hi, openByChunk_open hc ho, Option.bind_some, ho.stepOf, Option.map_some, hf, if_true]
  rfl

theorem contribAt_dropped (hf : y.failed = none) {ofs : Nat} (hd : contribDrop c y i (hChunk p.hdr) (hFmt p.hdr) p.body.length = some ofs) :
    contribAt k p s = dropAt c.die ofs (booked k (pktStep p) noteDropped s) := by
  simp only [contribAt, hc, hi, openByChunk_open hc ho, Option.bind_some, ho.stepOf, Option.map_some, hf, Option.isSome_none, Bool.false_eq_true, if_false, hd]
  rfl

theorem contribAt_taken (hf : y.failed = none) (hd : contribDrop c y i (hChunk p.hdr) (hFmt p.hdr) p.body.length = none) :
    contribAt k p s = booked k (pktStep p) (takeContrib c (hChunk p.hdr) i (hFmt p.hdr) p.body) s := by
  simp only [contribAt, hc, hi, openByChunk_open hc ho, Option.bind_some, ho.stepOf, Option.map_some, hf, Option.isSome_none, Bool.false_eq_true, if_false, hd]
  rfl

end

end

/-! ## The table of R198 for an ALLREDUCE -/

section
variable {c : Ctx} {y : Step} {i n fmt len : Nat}

theorem expects_allreduce (hop : c.spec.op = 0) (m k : Nat) : expects c m k = List.range c.spec.children.length := by
  simp [expects, hop, opAllgather, opBroadcast]

theorem contribDrop_index (h : n ≥ y.n ∨ n ≥ y.limSent) : contribDrop c y i n fmt len = some 0x044 := by
  simp only [contribDrop, if_pos h]

section
variable (hn : n < y.n) (hl : n < y.limSent)
include hn hl

theorem contribDrop_format (hf : c.spec.inFmts.getLsbD fmt = false) : contribDrop c y i n fmt len = some 0x04C := by
  have hin : ¬ (n ≥ y.n ∨ n ≥ y.limSent) := by omega
  have hb : bitOf c.spec.inFmts fmt = false := hf
  simp only [contribDrop, if_neg hin, hb, Bool.not_false, Bool.or_true, Bool.true_or, if_true]

section
variable (hop : c.spec.op = 0) (hf : c.spec.inFmts.getLsbD fmt = true) (hels : elemsIn fmt len ≤ chunkLimit c)
include hop hf hels

/-- Of a contribution within the window, in an accepted format and within the limit, what is known of its chunk decides. -/
theorem contribDrop_of_chunk : contribDrop c y i n fmt len =
    if (chunkOf y n).any (fun q => q.elems != elemsIn fmt len) then some 0x04C
    else if (chunkOf y n).elim (decide (n ∈ y.done) && decide (i < c.spec.children.length)) (fun q => decide (i ∈ q.bits)) then some 0x040
    else if i < c.spec.children.length then none else some 0x044 := by
  have hin : ¬ (n ≥ y.n ∨ n ≥ y.limSent) := by omega
  have hb : bitOf c.spec.inFmts fmt = true := hf
  have hbar : (c.spec.op.toNat == opBarrier) = false := by rw [hop]; rfl
  have hcop : (c.spec.op.toNat == opCoppice) = false := by rw [hop]; rfl
  have hmany : decide (elemsIn fmt len > chunkLimit c) = false := decide_eq_false (by omega)
  simp only [contribDrop, if_neg hin, hb, hbar, hcop, hmany, expects_allreduce hop, List.mem_range, Bool.false_and, Bool.not_true, Bool.or_false, Bool.false_or,
    Bool.not_false, Bool.true_and, Bool.false_eq_true, if_false, ite_not]
  cases chunkOf y n <;> rfl

section
variable {q : Chunk} (hq : chunkOf y n = some q)
include hq

theorem contribDrop_count (he : q.elems ≠ elemsIn fmt len) : contribDrop c y i n fmt len = some 0x04C := by
  rw [contribDrop_of_chunk hn hl hop hf hels, hq]
  exact if_pos (bne_iff_ne.2 he)

theorem contribDrop_twice (he : q.elems = elemsIn fmt len) (hi : i ∈ q.bits) : contribDrop c y i n fmt len = some 0x040 := by
  rw [contribDrop_of_chunk hn hl hop hf hels, hq]
  simp only [Option.any_some, he, bne_self_eq_false, Bool.false_eq_true, if_false, Option.elim_some, hi, decide_true, if_true]

theorem contribDrop_later (he : q.elems = elemsIn fmt len) (hi : i ∉ q.bits) (hlt : i < c.spec.children.length) : contribDrop c y i n fmt len = none := by
  rw [contribDrop_of_chunk hn hl hop hf hels, hq]
  simp only [Option.any_some, he, bne_self_eq_false, Bool.false_eq_true, if_false, Option.elim_some, hi, decide_false, hlt, if_true]

end

theorem contribDrop_first (hq : chunkOf y n = none) (hd : n ∉ y.done) (hlt : i < c.spec.children.length) : contribDrop c y i n fmt len = none := by
  rw [contribDrop_of_chunk hn hl hop hf hels, hq]
  simp only [Option.any_none, Option.elim_none, hd, decide_false, Bool.false_and, Bool.false_eq_true, if_false, hlt, if_true]

end
end

/-! ## A contribution taken (R198, R248) -/

/-- A chunk with one contribution more. -/
def withContrib (i fmt : Nat) (body : List Byte) (q : Chunk) : Chunk :=
  { q with bits := insNat i q.bits, inst := { q.inst with todo := q.inst.todo ++ [{ child := i, fmt := BitVec.ofNat 4 fmt, bytes := body }] } }

/-- The chunk that a first contribution starts; its instance begins to run where fewer than W run. -/
def firstChunk (c : Ctx) (fmt len : Nat) : Chunk :=
  { bits := [], elems := elemsIn fmt len, raw := none, inst := { newInst c with started := decide (running c < c.spec.window) } }

/-- A step with contribution i taken into chunk k. -/
def contributed (c : Ctx) (k i fmt : Nat) (body : List Byte) (y : Step) : Step :=
  { setChunk k (some (withContrib i fmt body ((chunkOf y k).getD (firstChunk c fmt body.length)))) y with accum := satAdd y.accum 1 }

/-- In an ALLREDUCE no contribution is passed on without decoding (R221). -/
theorem takeContrib_allreduce (hop : c.spec.op = 0) (k : Nat) (body : List Byte) : takeContrib c k i fmt body y = contributed c k i fmt body y := by
  have hp : passThrough c fmt = false := by
    rw [passThrough, hop]
    rfl
  simp only [takeContrib, hp, Bool.false_eq_true, if_false]
  rfl

section
variable (c : Ctx) (k i fmt : Nat) (body : List Byte) (y : Step)

theorem chunks_contributed : (contributed c k i fmt body y).chunks =
    tset none y.chunks k (some (withContrib i fmt body ((chunkOf y k).getD (firstChunk c fmt body.length)))) := rfl

theorem chunkOf_contributed_same : chunkOf (contributed c k i fmt body y) k = some (withContrib i fmt body ((chunkOf y k).getD (firstChunk c fmt body.length))) := by
  rw [chunkOf, chunks_contributed, tget_tset_eq]

theorem chunkOf_contributed_other {j : Nat} (h : j ≠ k) : chunkOf (contributed c k i fmt body y) j = chunkOf y j := by
  rw [chunkOf, chunks_contributed, tget_tset_ne _ _ _ h, chunkOf]

/-- The count of what was steered has no part in it. -/
theorem contributed_steered (w : Word) : contributed c k i fmt body { y with steered := w } = { contributed c k i fmt body y with steered := w } := rfl

end

/-- The instances that run, of a context with one step. -/
theorem running_one (hs : c.steps = [y]) : running c = (y.chunks.filter fun e => e.2.any fun r => r.inst.started).length := by
  rw [running, hs]
  simp only [List.map_cons, List.map_nil, List.sum_cons, List.sum_nil, Nat.add_zero]
  refine congrArg List.length (List.filter_congr fun e _ => ?_)
  cases e.2 <;> rfl

end

/-! ## What CHUNK_CONTRIBUTION does -/

/-- A CHUNK is at the front of die x's arrivals, for an ALLREDUCE with one open step. -/
structure ChunkAt (s : State) (x : RedDie) (pid : Nat) (p : Pkt) (k : Nat) (c : Ctx) (y : Step) : Prop where
  front : inboxFront s x = some (pid, p)
  ptype : hPtype p.hdr = ptChunk
  slot : pktSlot s p = some k
  ctx : ctxOf s k = some c
  one : OneOpen c y (pktStep p)
  op : c.spec.op = 0

section
variable {s : State} {x : RedDie} {pid k i ofs : Nat} {p : Pkt} {c : Ctx} {y : Step}

/-- The CHUNK is handled and steered to the step, which becomes z. -/
def Becomes (x : RedDie) (pid k : Nat) (c : Ctx) (y z : Step) (s t : State) : Prop :=
  Handled x pid k s t ∧ ctxOf t k = some { c with steps := [{ z with steered := satAdd y.steered 1 }] }

theorem ChunkAt.eaten (h : ChunkAt s x pid p k c y) : ctxOf (eatFront x pid s) k = some c := (ctxOf_eatFront ..).trans h.ctx

section
variable (h : ChunkAt s x pid p k c y) (hup : c.up ≠ some (pktPos s p))
include h hup

theorem ChunkAt.exec : exec (.chunkContribution x) s = .next (contribAt k p (eatFront x pid s)) := exec_chunkContribution h.front h.ptype h.slot h.ctx hup

theorem ChunkAt.booked {f : Step → Step} (hcon : contribAt k p (eatFront x pid s) = booked k (pktStep p) f (eatFront x pid s)) :
    ∃ t, Machine.exec (.chunkContribution x) s = .next t ∧ Handled x pid k s t ∧ ctxOf t k = some { c with steps := [f { y with steered := satAdd y.steered 1 }] } ∧
      (redOf t c.die).cnt = (redOf s c.die).cnt := by
  rw [h.exec hup, hcon]
  exact ⟨_, rfl, (handled_eatFront x pid k s).modCtx _, ctxOf_booked h.eaten h.one f, cnt_eatFront x pid c.die s⟩

theorem ChunkAt.dropped (hcon : contribAt k p (eatFront x pid s) = dropAt c.die ofs (Machine.booked k (pktStep p) noteDropped (eatFront x pid s))) :
    ∃ t, Machine.exec (.chunkContribution x) s = .next t ∧ Becomes x pid k c y { y with dropped := satAdd y.dropped 1 } s t ∧
      (redOf t c.die).cnt = bump (redOf s c.die).cnt ofs 1 := by
  rw [h.exec hup, hcon]
  exact ⟨_, rfl, ⟨((handled_eatFront x pid k s).modCtx _).dropAt _ _, (ctxOf_dropAt ..).trans (ctxOf_booked h.eaten h.one noteDropped)⟩,
    cnt_dropAt (cnt_eatFront x pid c.die s) ofs⟩

theorem ChunkAt.droppedAs (hi : childIdx c (pktPos s p) = some i) (hok : y.failed = none)
    (hd : contribDrop c y i (hChunk p.hdr) (hFmt p.hdr) p.body.length = some ofs) :
    ∃ t, Machine.exec (.chunkContribution x) s = .next t ∧ Becomes x pid k c y { y with dropped := satAdd y.dropped 1 } s t ∧
      (redOf t c.die).cnt = bump (redOf s c.die).cnt ofs 1 :=
  h.dropped hup (contribAt_dropped h.eaten ((congrArg (childIdx c) (pktPos_eatFront ..)).trans hi) h.one hok hd)

/-- A contribution that is not dropped is in its chunk. -/
theorem ChunkAt.accumulated (hi : childIdx c (pktPos s p) = some i) (hok : y.failed = none)
    (hd : contribDrop c y i (hChunk p.hdr) (hFmt p.hdr) p.body.length = none) :
    ∃ t z, Machine.exec (.chunkContribution x) s = .next t ∧ Becomes x pid k c y z s t ∧ z = { y with chunks := z.chunks, accum := satAdd y.accum 1 } ∧
      (redOf t c.die).cnt = (redOf s c.die).cnt ∧
      chunkOf z (hChunk p.hdr) = some (withContrib i (hFmt p.hdr) p.body ((chunkOf y (hChunk p.hdr)).getD (firstChunk c (hFmt p.hdr) p.body.length))) ∧
      ∀ j, j ≠ hChunk p.hdr → chunkOf z j = chunkOf y j := by
  obtain ⟨t, hex, hh, hctx, hcnt⟩ := h.booked hup (contribAt_taken h.eaten ((congrArg (childIdx c) (pktPos_eatFront ..)).trans hi) h.one hok hd)
  rw [takeContrib_allreduce h.op, contributed_steered] at hctx
  exact ⟨t, contributed c (hChunk p.hdr) i (hFmt p.hdr) p.body y, hex, ⟨hh, hctx⟩, rfl, hcnt, chunkOf_contributed_same ..,
    fun j hj => chunkOf_contributed_other _ _ _ _ _ _ hj⟩

/-- Contribution i of p starts its chunk. -/
theorem ChunkAt.accumulated_first (hi : childIdx c (pktPos s p) = some i) (hok : y.failed = none)
    (hd : contribDrop c y i (hChunk p.hdr) (hFmt p.hdr) p.body.length = none) (hq : chunkOf y (hChunk p.hdr) = none) :
    ∃ t z q, Machine.exec (.chunkContribution x) s = .next t ∧ Becomes x pid k c y z s t ∧ z = { y with chunks := z.chunks, accum := satAdd y.accum 1 } ∧
      (redOf t c.die).cnt = (redOf s c.die).cnt ∧ chunkOf z (hChunk p.hdr) = some q ∧ q.bits = [i] ∧ q.elems = elemsIn (hFmt p.hdr) p.body.length ∧
      q.inst.pc = c.spec.program.toNat ∧ q.inst.a = .empty ∧ q.inst.todo = [{ child := i, fmt := BitVec.ofNat 4 (hFmt p.hdr), bytes := p.body }] ∧
      q.inst.wseed = c.spec.seed ∧ (q.inst.started = true ↔ (y.chunks.filter fun e => e.2.any fun r => r.inst.started).length < c.spec.window) ∧
      ∀ j, j ≠ hChunk p.hdr → chunkOf z j = chunkOf y j := by
  obtain ⟨t, z, hex, hbec, hz, hcnt, hzq, hother⟩ := h.accumulated hup hi hok hd
  rw [hq] at hzq
  refine ⟨t, z, _, hex, hbec, hz, hcnt, hzq, rfl, rfl, rfl, rfl, rfl, rfl, ?_, hother⟩
  rw [← running_one h.one.steps]
  exact decide_eq_true_iff

/-- Contribution i of p is queued in its chunk. -/
theorem ChunkAt.accumulated_later (hi : childIdx c (pktPos s p) = some i) (hok : y.failed = none)
    (hd : contribDrop c y i (hChunk p.hdr) (hFmt p.hdr) p.body.length = none) {q : Chunk} (hq : chunkOf y (hChunk p.hdr) = some q) :
    ∃ t z, Machine.exec (.chunkContribution x) s = .next t ∧ Becomes x pid k c y z s t ∧ z = { y with chunks := z.chunks, accum := satAdd y.accum 1 } ∧
      (redOf t c.die).cnt = (redOf s c.die).cnt ∧ chunkOf z (hChunk p.hdr) = some (withContrib i (hFmt p.hdr) p.body q) ∧
      ∀ j, j ≠ hChunk p.hdr → chunkOf z j = chunkOf y j := by
  have ht := h.accumulated hup hi hok hd
  rw [hq] at ht
  exact ht

theorem ChunkAt.discarded (hi : childIdx c (pktPos s p) = some i) (hfail : y.failed.isSome = true) :
    ∃ t, Machine.exec (.chunkContribution x) s = .next t ∧ Becomes x pid k c y { y with discarded := satAdd y.discarded 1 } s t := by
  obtain ⟨t, hex, hh, hctx, -⟩ := h.booked hup (contribAt_failed h.eaten ((congrArg (childIdx c) (pktPos_eatFront ..)).trans hi) h.one hfail)
  exact ⟨t, hex, hh, hctx⟩

theorem ChunkAt.outside (hi : childIdx c (pktPos s p) = none) :
    ∃ t, Machine.exec (.chunkContribution x) s = .next t ∧ Becomes x pid k c y { y with dropped := satAdd y.dropped 1 } s t ∧
      (redOf t c.die).cnt = bump (redOf s c.die).cnt 0x048 1 :=
  h.dropped hup (contribAt_outside h.eaten ((congrArg (childIdx c) (pktPos_eatFront ..)).trans hi))

end

/-! ## What RESULT_PASS_DOWN does -/

/-- The positions of the children to which a result goes (R199). -/
def resultPoss (c : Ctx) (n k : Nat) : List Nat := (resultTo c n k).filterMap fun i => (childPoss c)[i]?

section
variable (h : ChunkAt s x pid p k c y) (hup : c.up = some (pktPos s p)) (htw : c.isTwin = false)
include h hup htw

/-- A result beyond the step's chunks is dropped. -/
theorem ChunkAt.passDown_beyond (hn : hChunk p.hdr ≥ y.n) : ∃ t, Machine.exec (.resultPassDown x) s = .next t ∧ Handled x pid k s t ∧ ctxOf t k = some c ∧
    t.nextPid = s.nextPid ∧ (redOf t c.die).cnt = bump (redOf s c.die).cnt 0x044 1 := by
  have hpd : passDown k p (eatFront x pid s) = dropAt c.die 0x044 (eatFront x pid s) := by
    simp only [passDown, h.eaten, h.one.stepOf, if_pos hn]
  rw [exec_resultPassDown h.front h.ptype h.slot h.ctx hup htw, hpd]
  exact ⟨_, rfl, (handled_eatFront x pid k s).dropAt _ _, (ctxOf_dropAt ..).trans h.eaten, (nextPid_dropAt ..).trans (nextPid_eatFront ..),
    cnt_dropAt (cnt_eatFront x pid c.die s) 0x044⟩

/-- A result within them goes on as it came, one copy for each die that holds a target. -/
theorem ChunkAt.passDown_copies (hpid : pid < s.nextPid) (hnew : ∀ j, s.nextPid ≤ j → pktOf s j = none) (hn : hChunk p.hdr < y.n) :
    ∃ t, Machine.exec (.resultPassDown x) s = .next t ∧ Handled x pid k s t ∧ ctxOf t k = some c ∧
      t.nextPid = s.nextPid + (diesOf (resultPoss c y.n (hChunk p.hdr)) (List.range 4)).length ∧
      ∀ j z, s.nextPid ≤ j → pktOf t j = some z → z.hdr = p.hdr ∧ z.body = p.body := by
  have hpd : passDown k p (eatFront x pid s) = sendMany c p.hdr p.body (resultPoss c y.n (hChunk p.hdr)) (eatFront x pid s) := by
    simp only [passDown, h.eaten, h.one.stepOf, if_neg (Nat.not_le.2 hn)]
    rfl
  have hsend := sends_sendMany c p.hdr p.body (resultPoss c y.n (hChunk p.hdr)) (eatFront x pid s)
  have hgone (j : Nat) (hj : s.nextPid ≤ j) : pktOf (eatFront x pid s) j = none := (pktOf_setPkt_other _ _ (by omega)).trans (hnew j hj)
  rw [exec_resultPassDown h.front h.ptype h.slot h.ctx hup htw, hpd]
  refine ⟨_, rfl, (handled_eatFront x pid k s).sendMany hpid .., ?_, hsend.next, fun j z hj hz => ?_⟩
  · exact (ctxOf_congr ((sendMany_keeps (d := true) (L := 0xcb0081) _ _ _ _ (.refl _ _ _) rfl).only.ctxs (by decide)) k).trans h.eaten
  · exact Prod.mk.inj (hsend.new hgone hj hz)

end

end

end Sys2Proof.Machine
end

section
/-! EMIT_GRANT and FAN_GRANT of the only open step of a context, and the step's end with its last result (R142, R197, R200, R202, R299). -/

namespace Sys2Proof.Machine

/-! ## The instance that stands at a word -/

section
variable {s : State} {i : InstId} {h : Here}

theorem findInst_of_hereOf (hh : hereOf s i = some h) : findInst s i = some (h.c, h.t, h.x) := by
  unfold hereOf at hh
  split at hh
  · cases hh
  · next hfi =>
    dsimp only at hh
    split_ifs at hh
    split at hh
    · cases hh
      exact hfi
    · cases hh
      exact hfi

theorem num_of_stepWith {c : Ctx} {num : StepNo} {k : Nat} {t : Step} (ht : stepWith c num k = some t) : t.num = num := by
  unfold stepWith at ht
  split at ht
  · next hy =>
    cases ht
    exact of_decide_eq_true (List.find?_some (p := fun t : Step => decide (t.num = num)) hy)
  · exact of_decide_eq_true (Bool.and_eq_true_iff.1 (List.find?_some (p := fun t : Step => decide (t.num = num) && (chunkOf t k).isSome) ht)).1

/-- Where an instance stands: its context, its step and its chunk. -/
theorem parts_of_hereOf (hh : hereOf s i = some h) : ctxOf s i.slot.toNat = some h.c ∧ h.t.num = i.step ∧ chunkOf h.t i.chunk.toNat = some h.x := by
  have hfi := findInst_of_hereOf hh
  simp only [findInst, Option.bind_eq_some_iff, Option.map_eq_some_iff, Prod.mk.injEq] at hfi
  obtain ⟨c, hc, t, ht, x, hx, rfl, rfl, rfl⟩ := hfi
  exact ⟨hc, num_of_stepWith ht, hx⟩

theorem exec_emitGrant (hh : hereOf s i = some h) : exec (.emitGrant i) s = .next (emitGrant i h s) := by
  simp only [exec, execEmitGrant, hh]

theorem exec_fanGrant (hh : hereOf s i = some h) : exec (.fanGrant i) s = .next (fanGrant i h s) := by
  simp only [exec, execFanGrant, hh]

end

/-! ## A grant -/

/-- The chunk past its grant. -/
def grantedChunk (h : Here) : Chunk := { h.x with inst := { h.x.inst with granted := true, pc := h.addr + 1, waiting := false, atBar := false } }

/-- d is the context of h past the grant of chunk k, with m results more: its step's timer has restarted, and another LIMIT may have been sent. -/
def GrantedTo (h : Here) (k m now : Nat) (d : Ctx) (z : Step) : Prop :=
  d = { h.c with steps := [z] } ∧
  z = { h.t with done := insNat k h.t.done, timerAt := now, results := h.t.results + m, chunks := z.chunks, limSent := z.limSent } ∧
  chunkOf z k = some (grantedChunk h)

section
variable {s : State} {i : InstId} {h : Here} {m now : Nat} {d : Ctx} {z : Step}

theorem ctxOf_modInst (hc : ctxOf s i.slot.toNat = some d) (ho : OneOpen d z i.step) {x : Chunk} (hx : chunkOf z i.chunk.toNat = some x) (f : Inst → Inst) :
    ctxOf (modInst i f s) i.slot.toNat = some { d with steps := [setChunk i.chunk.toNat (some { x with inst := f x.inst }) z] } := by
  rw [modInst, ctxOf_modCtx_same, hc, Option.map_some, ho.modChunk hx]

theorem ctxOf_modOpen {slot : Nat} (hc : ctxOf s slot = some d) {num : StepNo} (ho : OneOpen d z num) (f : Step → Step) :
    ctxOf (modCtx slot (modStep num f) s) slot = some { d with steps := [f z] } := by
  rw [ctxOf_modCtx_same, hc, Option.map_some, ho.modStep]

/-- The step whose chunk has its grant. -/
def grantedStep (h : Here) (k now : Nat) : Step :=
  { setChunk k (some (grantedChunk h)) (setChunk k (some { h.x with inst := { h.x.inst with granted := true } }) h.t) with done := insNat k h.t.done, timerAt := now }

theorem chunkOf_grantedStep (h : Here) (k now : Nat) : chunkOf (grantedStep h k now) k = some (grantedChunk h) :=
  tget_tset_eq none (setChunk k (some { h.x with inst := { h.x.inst with granted := true } }) h.t).chunks k (some (grantedChunk h))

theorem grantedTo_grantedStep (h : Here) (k now : Nat) : GrantedTo h k 0 now { h.c with steps := [grantedStep h k now] } (grantedStep h k now) :=
  ⟨rfl, rfl, chunkOf_grantedStep h k now⟩

theorem keeps_grantDone (i : InstId) (h : Here) (s : State) : Keeps true 0x4002000 s (grantDone i h s) := grantDone_keeps _ _ (.refl _ _ s) rfl

/-- A grant of the only open step. -/
theorem ctxOf_grantDone (hc : ctxOf s i.slot.toNat = some h.c) (ho : OneOpen h.c h.t i.step) (hx : chunkOf h.t i.chunk.toNat = some h.x) :
    ctxOf (grantDone i h s) i.slot.toNat = some { h.c with steps := [grantedStep h i.chunk.toNat s.clock] } := by
  have hc0 : ctxOf (countSram h.c.die 0 ((h.x.inst.o).getD (0, [])).2.length s) i.slot.toNat = some h.c := hc
  have ho1 : OneOpen { h.c with steps := [setChunk i.chunk.toNat (some { h.x with inst := { h.x.inst with granted := true } }) h.t] } _ i.step := ho.put rfl rfl
  have hc1 := ctxOf_modInst hc0 ho hx fun n => { n with granted := true }
  have hc2 := ctxOf_modInst hc1 ho1 (chunkOf_setChunk_same _ _ _) fun n => { n with pc := h.addr + 1, waiting := false, atBar := false }
  exact ctxOf_modOpen hc2 (ho1.put rfl rfl) fun t => { t with done := insNat i.chunk.toNat t.done, timerAt := s.clock }

theorem GrantedTo.one (hg : GrantedTo h i.chunk.toNat m now d z) (ho : OneOpen h.c h.t i.step) : OneOpen d z i.step := by
  obtain ⟨rfl, hz, -⟩ := hg
  rw [hz]
  exact ho.put rfl rfl

/-- WINDOWs sent after it. -/
theorem GrantedTo.windows (hg : GrantedTo h i.chunk.toNat m now d z) (hc : ctxOf s i.slot.toNat = some d) (force : Bool) :
    ∃ d z, ctxOf (sendWindows i.slot.toNat force s) i.slot.toNat = some d ∧ GrantedTo h i.chunk.toNat m now d z := by
  obtain ⟨rfl, hz, hx⟩ := hg
  obtain ⟨lim, hl⟩ := ctxOf_sendWindows hc force
  refine ⟨_, { z with limSent := lim z }, hl, rfl, ?_, hx⟩
  exact congrArg (fun y : Step => { y with limSent := lim z }) hz

end

/-! ## EMIT_GRANT -/

section
variable {s : State} {i : InstId} {h : Here}

/-- What the instance sends: its output with its format. -/
def outOf (h : Here) : BitVec 4 × List Byte := (h.x.inst.o).getD (0, [])

theorem emitGrant_not_issued (he : h.x.inst.emitted = false) : emitGrant i h s = s := by
  unfold emitGrant
  split
  · rfl
  · exact if_pos (by simp [he])

theorem emitGrant_beyond (hl : i.chunk.toNat ≥ h.t.upLimit) : emitGrant i h s = s := by
  unfold emitGrant
  split
  · rfl
  · exact if_pos (by simp [hl])

section
variable (hg : h.x.inst.granted = false) (hf : h.t.failed = none) (ho : OneOpen h.c h.t i.step) (hc : ctxOf s i.slot.toNat = some h.c)
  (hx : chunkOf h.t i.chunk.toNat = some h.x)
include hg hf ho

theorem emitGrant_open {u : Nat} (hu : h.c.up = some u) (he : h.x.inst.emitted = true) (hl : i.chunk.toNat < h.t.upLimit) :
    emitGrant i h s = sendWindows i.slot.toNat false (grantDone i h
      (sendOne h.c (groupHdr s h.c ptChunk (outOf h).2.length i.step.toNat i.chunk.toNat (outOf h).1.toNat false) (outOf h).2 u s)) := by
  unfold emitGrant
  rw [hu]
  refine if_neg ?_
  simp only [he, hg, hf, ho.isOpen, Bool.not_true, Option.isSome_none, Bool.or_self, Bool.false_or, decide_eq_true_eq]
  omega

include hc hx

/-- EMIT_GRANT below the parent's LIMIT: the output leaves under the next number, and the chunk is emitted. -/
theorem emitGrant_books {u : Nat} (hu : h.c.up = some u) (he : h.x.inst.emitted = true) (hl : i.chunk.toNat < h.t.upLimit) :
    ∃ d z q, ctxOf (emitGrant i h s) i.slot.toNat = some d ∧ GrantedTo h i.chunk.toNat 0 s.clock d z ∧ pktOf (emitGrant i h s) s.nextPid = some q ∧
      q.body = (outOf h).2 ∧ q.hdr = groupHdr s h.c ptChunk (outOf h).2.length i.step.toNat i.chunk.toNat (outOf h).1.toNat false := by
  rw [emitGrant_open hg hf ho hu he hl]
  generalize groupHdr s h.c ptChunk (outOf h).2.length i.step.toNat i.chunk.toNat (outOf h).1.toNat false = hd
  have hsend := sends_sendOne h.c hd (outOf h).2 u s
  have hk := (sendOne_keeps (d := true) (L := 0xcb0081) h.c hd (outOf h).2 u (.refl _ _ s) rfl).only
  generalize sendOne h.c hd (outOf h).2 u s = a at hsend hk ⊢
  have hkg := (keeps_grantDone i h a).only
  have hca := ctxOf_grantDone ((ctxOf_congr (hk.ctxs (by decide)) _).trans hc) ho hx
  rw [hk.clock (by decide)] at hca
  obtain ⟨d, z, hd', hz⟩ := (grantedTo_grantedStep h i.chunk.toNat s.clock).windows hca false
  have hsaid : saidAt (sendWindows i.slot.toNat false (grantDone i h a)) s.nextPid = some (hd, (outOf h).2) := by
    have hlt : s.nextPid < (grantDone i h a).nextPid := by
      rw [hkg.nextPid (by decide), hsend.next]
      omega
    rw [saidAt_sendWindows _ _ hlt, saidAt_congr (hkg.pkts (by decide)), hsend.content, if_pos (by omega)]
  obtain ⟨q, hq, hqs⟩ := Option.map_eq_some_iff.1 hsaid
  obtain ⟨hqh, hqb⟩ := Prod.mk.inj hqs
  exact ⟨d, z, q, hd', hz, hq, hqb, hqh⟩

end

end

/-! ## The last result (R200, R299) -/

/-- The STEP_END that a step keeps back until its pace instant. -/
def paceHold (s : State) (c : Ctx) (t : Step) : Option (Byte × BitVec 64) :=
  if isPaced c && decide ((fabT s).toNat < paceEnd c t) then some (0, BitVec.ofNat 64 (paceEnd c t / 65536)) else none

/-- A step that has closed OK, with the instances past their grant. -/
def closedOk (hold : Option (Byte × BitVec 64)) (y : Step) : Step := { keepGranted y with closed := true, endHeld := hold, failed := none }

section
variable {s : State} {slot : Nat} {c : Ctx} {y : Step} {num : StepNo} {hold : Option (Byte × BitVec 64)}

theorem keepGranted_of_granted {k : Nat} {x : Chunk} (hx : chunkOf y k = some x) (hg : x.inst.granted = true) : (keepGranted y).chunks.isEmpty = false := by
  have hm : (k, some x) ∈ (keepGranted y).chunks := List.mem_filter.2 ⟨mem_of_tget hx (Option.some_ne_none x), hg⟩
  exact List.isEmpty_eq_false_iff.2 (List.ne_nil_of_mem hm)

/-- The context whose only open step closes OK, with an instance left. -/
theorem closedCtx_ok (ho : OneOpen c y num) (hst : c.st = .run) (hr : c.ready = none) (hk : (keepGranted y).chunks.isEmpty = false) :
    closedCtx y stOk 0 hold c = { c with
      steps := [closedOk hold y], st := .idle, lastClosed := some (num, 0), lastStatus := 0, sq := if c.spec.isRoot then sqWord y.sq else c.sq
      digest := if c.spec.isRoot && hasDigest c then y.dg else c.digest } := by
  simp [closedCtx, ho.steps, ho.num, ho.isOpen, closedOk, stepOver, hk, isTrap, stOk, stNanTrap, stInfTrap, settleSt, hst, openSteps, hr]

theorem waited_one (ho : OneOpen c y num) (s : State) : waited s c = c := by
  rw [waited, ho.openSteps]
  rfl

/-- d is a context whose only step z has closed OK, its STEP_END held as hold says. -/
structure EndedOk (num : StepNo) (hold : Option (Byte × BitVec 64)) (d : Ctx) (z : Step) : Prop where
  st : d.st = .idle
  steps : d.steps = [z]
  stepNum : z.num = num
  isClosed : z.closed = true
  held : z.endHeld = hold
  lastClosed : d.lastClosed = some (num, 0)
  lastStatus : d.lastStatus = 0
  deleting : d.deleting = false

section
variable {d : Ctx} {z : Step}

theorem EndedOk.openSteps (h : EndedOk num hold d z) : openSteps d = [] := by
  rw [Machine.openSteps, h.steps]
  exact List.filter_cons_of_neg (by rw [h.isClosed]; exact Bool.false_ne_true)

theorem EndedOk.put (h : EndedOk num hold d z) {w : Step} (hn : w.num = z.num) (hc : w.closed = z.closed) (hh : w.endHeld = z.endHeld) :
    EndedOk num hold { d with steps := [w] } w :=
  ⟨h.st, rfl, hn.trans h.stepNum, hc.trans h.isClosed, hh.trans h.held, h.lastClosed, h.lastStatus, h.deleting⟩

theorem EndedOk.withTimers (h : EndedOk num hold d z) (f : Step → Nat) : EndedOk num hold (withTimers f d) { z with timerAt := f z } := by
  rw [Machine.withTimers, h.steps]
  exact h.put rfl rfl rfl

theorem EndedOk.withLims (h : EndedOk num hold d z) (f : Step → Nat) : EndedOk num hold (withLims f d) { z with limSent := f z } := by
  rw [Machine.withLims, h.steps]
  exact h.put rfl rfl rfl

end

theorem freeIfDeleting_not (hc : ctxOf s slot = some c) (hd : c.deleting = false) : freeIfDeleting slot s = s := by
  simp only [freeIfDeleting, hc, hd, Bool.false_and, Bool.false_eq_true, if_false]

section
variable (hc : ctxOf s slot = some c) (ho : OneOpen c y num)
include hc ho

theorem closeStep_one (status : Nat) (detail : Detail) : closeStep slot num status detail hold s =
    let a := redCnt c.die (if status = stOk then 0x050 else 0x054) 1 s
    sendWindows slot false (sweepInsts slot (modCtx slot (fun d => closedCtx y status detail hold (waited a d)) a)) := by
  simp only [closeStep, hc, Option.bind_some, ho.stepOf, Option.map_some]

theorem endStep_one (status : Nat) (detail : Detail) : endStep slot num status detail hold s =
    freeIfDeleting slot (closeStep slot num status detail hold (iff hold.isNone (sendEnd c y status detail) s)) := by
  simp only [endStep, hc, Option.bind_some, ho.stepOf, Option.map_some]

/-- Only a COPPICE group owes twin packets. -/
theorem closeOk_one (hop : c.spec.op ≠ 6) : closeOk slot num s =
    endStep slot num stOk 0 (paceHold s c y) (iff (isPaced c && decide (paceEnd c y < (fabT s).toNat)) (redCnt c.die 0x124 1) s) := by
  have hcop : decide (c.spec.op.toNat = opCoppice) = false := decide_eq_false fun e => hop (BitVec.eq_of_toNat_eq e)
  have howes : owesTwin c y = false := by
    rw [owesTwin, hcop]
    simp only [Bool.and_false, Bool.false_and]
  simp only [closeOk, hc, Option.bind_some, ho.stepOf, Option.map_some, howes, Bool.false_or]
  congr 1
  unfold paceHold
  cases isPaced c && decide ((fabT s).toNat < paceEnd c y) <;> rfl

section
variable (hst : c.st = .run) (hr : c.ready = none) (hdel : c.deleting = false) (hk : (keepGranted y).chunks.isEmpty = false)
include hst hr hdel hk

theorem ctxOf_closeStep_ok : ∃ d z, ctxOf (closeStep slot num stOk 0 hold s) slot = some d ∧ EndedOk num hold d z := by
  have hshut : ∀ a, ctxOf a slot = some c → ctxOf (modCtx slot (fun d => closedCtx y stOk 0 hold (waited a d)) a) slot = some (closedCtx y stOk 0 hold c) := by
    intro a ha
    rw [ctxOf_modCtx_same, ha, Option.map_some, waited_one ho]
  have hended : EndedOk num hold (closedCtx y stOk 0 hold c) (closedOk hold y) := by
    rw [closedCtx_ok ho hst hr hk]
    exact ⟨rfl, rfl, ho.num, rfl, rfl, rfl, rfl, hdel⟩
  rw [closeStep_one hc ho]
  obtain ⟨f, hf⟩ := ctxOf_sweepInsts (hshut (redCnt c.die 0x050 1 s) hc) slot
  obtain ⟨g, hg⟩ := ctxOf_sendWindows hf false
  exact ⟨_, _, hg, (hended.withTimers f).withLims g⟩

end

theorem cnt_closeStep_ok (detail : Detail) : (redOf (closeStep slot num stOk detail hold s) c.die).cnt = bump (redOf s c.die).cnt 0x050 1 := by
  rw [closeStep_one hc ho]
  dsimp only
  rw [redOf_congr ((sendWindows_keeps (d := true) (L := 0x4cb0081) _ _ (.refl _ _ _) rfl).only.red (by decide)), cnt_sweepInsts, if_pos rfl, redOf_congr (modCtx_red ..)]
  exact congrArg RedSt.cnt (redOf_modRed_same ..)

end

theorem iff_field {β : Type} (g : State → β) {f : State → State} (h : ∀ a, g (f a) = g a) (b : Bool) (s : State) : g (iff b f s) = g s := by
  cases b with
  | true => exact h s
  | false => rfl

/-- A step that ends OK, with an instance left: the context goes on, and the step is counted. -/
theorem endStep_ok (hc : ctxOf s slot = some c) (ho : OneOpen c y num) (hst : c.st = .run) (hr : c.ready = none) (hdel : c.deleting = false)
    (hk : (keepGranted y).chunks.isEmpty = false) : ∃ d z, ctxOf (endStep slot num stOk 0 hold s) slot = some d ∧ EndedOk num hold d z ∧
      (redOf (endStep slot num stOk 0 hold s) c.die).cnt = bump (redOf s c.die).cnt 0x050 1 := by
  have hsend (a : State) := (sendEnd_keeps (d := true) (L := 0xcb0081) c y stOk 0 (.refl _ _ a) rfl).only
  have hca : ctxOf (iff hold.isNone (sendEnd c y stOk 0) s) slot = some c :=
    (iff_field (fun a => ctxOf a slot) (fun a => ctxOf_congr ((hsend a).ctxs (by decide)) slot) _ s).trans hc
  have hred : (iff hold.isNone (sendEnd c y stOk 0) s).red = s.red := iff_field State.red (fun a => (hsend a).red (by decide)) _ s
  obtain ⟨d, z, hd, hz⟩ := ctxOf_closeStep_ok (hold := hold) hca ho hst hr hdel hk
  rw [endStep_one hc ho, freeIfDeleting_not hd hz.deleting]
  exact ⟨d, z, hd, hz, (cnt_closeStep_ok hca ho 0).trans (congrArg (fun r : RedSt => bump r.cnt 0x050 1) (redOf_congr hred c.die))⟩

/-- The end of a step of no COPPICE group with its last result: its STEP_END is held to the pace instant, or it is counted as late. -/
theorem closeOk_books (hc : ctxOf s slot = some c) (ho : OneOpen c y num) (hop : c.spec.op ≠ 6) (hst : c.st = .run) (hr : c.ready = none) (hdel : c.deleting = false)
    (hk : (keepGranted y).chunks.isEmpty = false) : ∃ d z, ctxOf (closeOk slot num s) slot = some d ∧ EndedOk num (paceHold s c y) d z ∧
      (redOf (closeOk slot num s) c.die).cnt =
        bump (if isPaced c && decide (paceEnd c y < (fabT s).toNat) then bump (redOf s c.die).cnt 0x124 1 else (redOf s c.die).cnt) 0x050 1 := by
  rw [closeOk_one hc ho hop]
  generalize (isPaced c && decide (paceEnd c y < (fabT s).toNat)) = late
  have hca : ctxOf (iff late (redCnt c.die 0x124 1) s) slot = some c := (iff_field (fun a => ctxOf a slot) (f := redCnt c.die 0x124 1) (fun _ => rfl) late s).trans hc
  have hcnt : (redOf (iff late (redCnt c.die 0x124 1) s) c.die).cnt = if late then bump (redOf s c.die).cnt 0x124 1 else (redOf s c.die).cnt := by
    cases late with
    | true => exact congrArg RedSt.cnt (redOf_modRed_same ..)
    | false => rfl
  rw [← hcnt]
  exact endStep_ok hca ho hst hr hdel hk

end

/-! ## FAN_GRANT -/

section
variable {s : State} {i : InstId} {h : Here}

/-- A result has been granted: it goes to its children, and is counted. -/
def fanned (i : InstId) (h : Here) (s : State) : State :=
  sendWindows i.slot.toNat false (modCtx i.slot.toNat (modStep i.step fun t => { t with results := t.results + 1 }) (grantDone i h
    (sendMany h.c (groupHdr s h.c ptChunk (outOf h).2.length i.step.toNat i.chunk.toNat (outOf h).1.toNat (i.chunk.toNat + 1 == h.t.n)) (outOf h).2
      (resultPoss h.c h.t.n i.chunk.toNat) s)))

theorem keeps_fanned (i : InstId) (h : Here) (s : State) : Keeps true 0x4cb2081 s (fanned i h s) :=
  sendWindows_keeps _ _ (modCtx_keeps _ _ (grantDone_keeps _ _ (sendMany_keeps _ _ _ _ (.refl _ _ s) rfl) rfl) rfl) rfl

theorem fanGrant_not_issued (he : h.x.inst.fanned = false) : fanGrant i h s = s := if_pos (by simp [he])

section
variable (hg : h.x.inst.granted = false) (hf : h.t.failed = none) (ho : OneOpen h.c h.t i.step) (hc : ctxOf s i.slot.toNat = some h.c)
  (hx : chunkOf h.t i.chunk.toNat = some h.x)
include hg hf ho

theorem fanGrant_open (he : h.x.inst.fanned = true) :
    fanGrant i h s = if h.t.results + 1 ≥ h.t.n then closeOk i.slot.toNat i.step (fanned i h s) else fanned i h s := by
  refine if_neg ?_
  simp only [he, hg, hf, ho.isOpen, Bool.not_true, Option.isSome_none, Bool.or_self, Bool.false_eq_true, not_false_eq_true]

omit hg hf
include hc hx

theorem ctxOf_fanned : ∃ d z, ctxOf (fanned i h s) i.slot.toNat = some d ∧ GrantedTo h i.chunk.toNat 1 s.clock d z := by
  unfold fanned
  generalize groupHdr s h.c ptChunk (outOf h).2.length i.step.toNat i.chunk.toNat (outOf h).1.toNat (i.chunk.toNat + 1 == h.t.n) = hd
  have hsend := (sendMany_keeps (d := true) (L := 0xcb0081) h.c hd (outOf h).2 (resultPoss h.c h.t.n i.chunk.toNat) (.refl _ _ s) rfl).only
  generalize sendMany h.c hd (outOf h).2 (resultPoss h.c h.t.n i.chunk.toNat) s = a at hsend ⊢
  have hca := ctxOf_grantDone ((ctxOf_congr (hsend.ctxs (by decide)) _).trans hc) ho hx
  rw [hsend.clock (by decide)] at hca
  have hg0 := grantedTo_grantedStep h i.chunk.toNat s.clock
  have hcr := ctxOf_modOpen hca (hg0.one ho) fun t => { t with results := t.results + 1 }
  have hg1 : GrantedTo h i.chunk.toNat 1 s.clock { h.c with steps := [{ grantedStep h i.chunk.toNat s.clock with results := h.t.results + 1 }] }
      { grantedStep h i.chunk.toNat s.clock with results := h.t.results + 1 } := ⟨rfl, rfl, hg0.2.2⟩
  exact hg1.windows hcr false

end

end

/-! ## What the rows do -/

/-- The chunk of h is past its grant in t, with m results more; the memories are as they were. -/
def Passed (i : InstId) (h : Here) (s : State) (m : Nat) (t : State) (d : Ctx) (z : Step) : Prop :=
  ctxOf t i.slot.toNat = some d ∧ d = { h.c with steps := [z] } ∧
    z = { h.t with done := insNat i.chunk.toNat h.t.done, timerAt := s.clock, results := h.t.results + m, chunks := z.chunks, limSent := z.limSent } ∧
    chunkOf z i.chunk.toNat = some (grantedChunk h) ∧ t.mem = s.mem

/-- The last result of h has closed its step OK in t, its STEP_END held as hold says; late says that it is counted as such. -/
def EndedWith (i : InstId) (h : Here) (s : State) (hold : Option (Byte × BitVec 64)) (late : Bool) (t : State) (d : Ctx) (z : Step) : Prop :=
  ctxOf t i.slot.toNat = some d ∧ EndedOk h.t.num hold d z ∧
    (redOf t h.c.die).cnt = bump (if late then bump (redOf s h.c.die).cnt 0x124 1 else (redOf s h.c.die).cnt) 0x050 1

section
variable {s : State} {i : InstId} {h : Here} (hh : hereOf s i = some h) (hg : h.x.inst.granted = false) (hf : h.t.failed = none) (ho : OneOpen h.c h.t i.step)
include hh hg hf ho

theorem exec_emitGrant_books {u : Nat} (hu : h.c.up = some u) (he : h.x.inst.emitted = true) (hl : i.chunk.toNat < h.t.upLimit) :
    ∃ t d z q, exec (.emitGrant i) s = .next t ∧ Passed i h s 0 t d z ∧ pktOf t s.nextPid = some q ∧ q.body = (outOf h).2 ∧
      q.hdr = groupHdr s h.c ptChunk (outOf h).2.length i.step.toNat i.chunk.toNat (outOf h).1.toNat false := by
  obtain ⟨hc, -, hx⟩ := parts_of_hereOf hh
  obtain ⟨d, z, q, hd, ⟨hdz, hz, hzx⟩, hq, hbody, hhdr⟩ := emitGrant_books hg hf ho hc hx hu he hl
  have hmem := (emitGrant_keeps (d := true) (L := 0x4cb2081) i h (.refl _ _ s) rfl).only.mem (by decide)
  exact ⟨_, d, z, q, exec_emitGrant hh, ⟨hd, hdz, hz, hzx, hmem⟩, hq, hbody, hhdr⟩

section
variable (he : h.x.inst.fanned = true)
include he

theorem exec_fanGrant_counts (hn : h.t.results + 1 < h.t.n) : ∃ t d z, exec (.fanGrant i) s = .next t ∧ Passed i h s 1 t d z := by
  obtain ⟨hc, -, hx⟩ := parts_of_hereOf hh
  obtain ⟨d, z, hd, hdz, hz, hzx⟩ := ctxOf_fanned ho hc hx
  have hmem := (keeps_fanned i h s).only.mem (by decide)
  rw [exec_fanGrant hh, fanGrant_open hg hf ho he, if_neg (Nat.not_le.2 hn)]
  exact ⟨_, d, z, rfl, hd, hdz, hz, hzx, hmem⟩

/-- The last result. -/
theorem exec_fanGrant_ends (hn : h.t.results + 1 = h.t.n) (hop : h.c.spec.op ≠ 6) (hst : h.c.st = .run) (hr : h.c.ready = none) (hdel : h.c.deleting = false) :
    ∃ t d z, exec (.fanGrant i) s = .next t ∧
      EndedWith i h s (paceHold s h.c h.t) (isPaced h.c && decide (paceEnd h.c h.t < (fabT s).toNat)) t d z := by
  obtain ⟨hc, hnum, hx⟩ := parts_of_hereOf hh
  obtain ⟨d, z, hd, hgr⟩ := ctxOf_fanned ho hc hx
  have hone := hgr.one ho
  obtain ⟨rfl, hz, hzx⟩ := hgr
  have hk := (keeps_fanned i h s).only
  have hfab : fabT (fanned i h s) = fabT s := fabT_congr (hk.tim (by decide)) (hk.clock (by decide))
  have hend : paceEnd { h.c with steps := [z] } z = paceEnd h.c h.t := (congrArg (fun y : Step => paceEnd h.c y) hz :)
  have hred : redOf (fanned i h s) h.c.die = redOf s h.c.die := redOf_congr (hk.red (by decide)) _
  obtain ⟨e, w, he', hw, hcnt⟩ := closeOk_books hd hone hop hst hr hdel (keepGranted_of_granted hzx rfl)
  rw [exec_fanGrant hh, fanGrant_open hg hf ho he, if_pos hn.ge]
  refine ⟨_, e, w, rfl, he', ?_, ?_⟩
  · rw [paceHold, hend, hfab] at hw
    rw [hnum]
    exact hw
  · rw [hend, hfab, hred] at hcnt
    exact hcnt

end

end

/-! ## The pace instant -/

section
variable {s : State} {c : Ctx} {y : Step}

theorem paceHold_before (hp : isPaced c = true) (h : (fabT s).toNat < paceEnd c y) : paceHold s c y = some (0, BitVec.ofNat 64 (paceEnd c y / 65536)) := by
  simp only [paceHold, hp, h, decide_true, Bool.and_true, if_true]

theorem paceHold_after (h : paceEnd c y ≤ (fabT s).toNat) : paceHold s c y = none := by
  simp only [paceHold, Nat.not_lt.2 h, decide_false, Bool.and_false, Bool.false_eq_true, if_false]

end

/-! ## The statement -/

/-- Settles O55: the table of R198 has one case for each way in which a contribution is dropped, and the two in which it is taken; a result goes on as it
came; a grant of the only open step leaves its chunk granted, and with the last result the step closes. -/
theorem chunksAndResults : Obligations.ChunksAndResults := by
  unfold Obligations.ChunksAndResults
  refine ⟨fun s x pid p k c y hfront hpid hptype hslot hctx hsteps hnum hopen hop => ?_,
    fun s i h hh hg hf hopen hsteps hdel => ⟨fun u hu he => ⟨fun hl => ?_, fun hl => ?_⟩,
    fun he => ⟨fun hn => ?_, fun hn hp hop hst hr => ?_, fun hn hp hop hst hr => ?_⟩, fun he => ?_, fun he => ?_⟩⟩
  · have h : ChunkAt s x pid p k c y := ⟨hfront, hptype, hslot, hctx, ⟨hsteps, hnum, hopen⟩, hop⟩
    refine ⟨fun hup => ⟨h.outside hup, fun i hi => ⟨h.discarded hup hi, fun hok => ⟨fun hidx => h.droppedAs hup hi hok (contribDrop_index hidx), fun hn hl =>
      ⟨fun hfmt => h.droppedAs hup hi hok (contribDrop_format hn hl hfmt), fun hfmt hels =>
      ⟨fun q hq => ⟨fun he => ?_, fun he hb => ?_, fun he hb _ hlt => ?_⟩, fun hq hdone hlt => ?_⟩⟩⟩⟩⟩,
      fun hup htw hnew => ⟨h.passDown_beyond hup htw, h.passDown_copies hup htw hpid hnew⟩⟩
    · exact h.droppedAs hup hi hok (contribDrop_count hn hl hop hfmt hels hq he)
    · exact h.droppedAs hup hi hok (contribDrop_twice hn hl hop hfmt hels hq he hb)
    · exact h.accumulated_later hup hi hok (contribDrop_later hn hl hop hfmt hels hq he hb hlt) hq
    · exact h.accumulated_first hup hi hok (contribDrop_first hn hl hop hfmt hels hq hdone hlt) hq
  all_goals have ho : OneOpen h.c h.t i.step := ⟨hsteps, (parts_of_hereOf hh).2.1, hopen⟩
  · exact exec_emitGrant_books hh hg hf ho hu he hl
  · rw [exec_emitGrant hh, emitGrant_beyond hl]
  · exact exec_fanGrant_counts hh hg hf ho he hn
  · obtain ⟨t, d, z, hex, hd, hz, hcnt⟩ := exec_fanGrant_ends hh hg hf ho he hn hop hst hr hdel
    rw [hp] at hcnt
    exact ⟨t, d, hex, hd, hz.st, hz.openSteps, hz.lastClosed, hz.lastStatus, hcnt⟩
  · obtain ⟨t, d, z, hex, hd, hz, hcnt⟩ := exec_fanGrant_ends hh hg hf ho he hn hop hst hr hdel
    simp only [hp, Bool.true_and, decide_eq_true_eq] at hcnt
    exact ⟨t, d, z, hex, hd, hz.st, hz.lastClosed, hz.steps, hz.stepNum, hz.isClosed, fun hlt => hz.held.trans (paceHold_before hp hlt),
      fun hle => hz.held.trans (paceHold_after hle), hcnt⟩
  · rw [exec_emitGrant hh, emitGrant_not_issued he]
  · rw [exec_fanGrant hh, fanGrant_not_issued he]

end Sys2Proof.Machine
end

section
/-! SUPPORT. What the opening, failing and closing of a step at one slot leave alone (R195, R200 to R206): the other contexts, the arrivals and the locks of the
reduction dies, and what the packets held say. -/

namespace Sys2Proof.Machine

/-- As far as contexts go, t differs from s in slot k alone; arrivals, locks and packets there are as they were. -/
structure AtSlot (k : Nat) (s t : State) : Prop where
  keeps : Keeps true 0x6cb1081 s t
  other : ∀ j, j ≠ k → ctxOf t j = ctxOf s j
  inbox : ∀ x, (redOf t x).inbox = (redOf s x).inbox
  locks : ∀ x, (redOf t x).locks = (redOf s x).locks
  next : s.nextPid ≤ t.nextPid
  said : ∀ j, j < s.nextPid → saidAt t j = saidAt s j

section
variable {k : Nat} {s t u : State}

theorem AtSlot.refl (k : Nat) (s : State) : AtSlot k s s := ⟨.refl _ _ s, fun _ _ => rfl, fun _ => rfl, fun _ => rfl, Nat.le_refl _, fun _ _ => rfl⟩

theorem AtSlot.trans (h : AtSlot k s t) (h' : AtSlot k t u) : AtSlot k s u :=
  ⟨h.keeps.trans h'.keeps, fun j hj => (h'.other j hj).trans (h.other j hj), fun x => (h'.inbox x).trans (h.inbox x), fun x => (h'.locks x).trans (h.locks x),
    h.next.trans h'.next, fun j hj => (h'.said j (Nat.lt_of_lt_of_le hj h.next)).trans (h.said j hj)⟩

/-- A packet that was gone stays gone. -/
theorem AtSlot.gone (h : AtSlot k s t) {pid : Nat} (hpid : pid < s.nextPid) (hp : pktOf s pid = none) : pktOf t pid = none := by
  have hsay := h.said pid hpid
  rw [saidAt, saidAt, hp] at hsay
  exact Option.map_eq_none_iff.1 hsay

theorem AtSlot.each {α : Type} {l : List α} {g : α → State → State} (hg : ∀ x ∈ l, ∀ a, AtSlot k a (g x a)) : AtSlot k s (each l g s) :=
  each_induct (P := AtSlot k s) (fun x hx a ha => ha.trans (hg x hx a)) (.refl k s)

theorem AtSlot.iff {f : State → State} (hf : ∀ a, AtSlot k a (f a)) (b : Bool) : AtSlot k s (iff b f s) := by
  cases b with
  | true => exact hf s
  | false => exact .refl k s

/-! ## Changes of a context or a die -/

theorem atSlot_modCtx (k : Nat) (f : Ctx → Ctx) (s : State) : AtSlot k s (modCtx k f s) :=
  ⟨modCtx_keeps _ _ (.refl _ _ s) rfl, fun _ hj => ctxOf_modCtx_other f hj, fun _ => rfl, fun _ => rfl, Nat.le_refl _, fun _ _ => rfl⟩

theorem atSlot_setCtx (k : Nat) (c : Option Ctx) (s : State) : AtSlot k s (setCtx k c s) :=
  ⟨setCtx_keeps _ _ (.refl _ _ s) rfl, fun _ hj => tget_tset_ne none s.ctxs c hj, fun _ => rfl, fun _ => rfl, Nat.le_refl _, fun _ _ => rfl⟩

theorem atSlot_modRed {u : RedSt → RedSt} (hin : ∀ r, (u r).inbox = r.inbox) (hlk : ∀ r, (u r).locks = r.locks) (k x : Nat) (s : State) : AtSlot k s (modRed x u s) :=
  ⟨modRed_keeps _ _ (.refl _ _ s) rfl, fun _ _ => rfl, redOf_modRed_field RedSt.inbox hin x s, redOf_modRed_field RedSt.locks hlk x s, Nat.le_refl _, fun _ _ => rfl⟩

theorem atSlot_redCnt (k x ofs n : Nat) (s : State) : AtSlot k s (redCnt x ofs n s) :=
  atSlot_modRed (u := fun r => { r with cnt := bump r.cnt ofs n }) (fun _ => rfl) (fun _ => rfl) k x s

theorem atSlot_modSwc (k d : Nat) (f : SwcSt → SwcSt) (s : State) : AtSlot k s (modSwc d f s) :=
  ⟨modSwc_keeps _ _ (.refl _ _ s) rfl, fun _ _ => rfl, fun _ => rfl, fun _ => rfl, Nat.le_refl _, fun _ _ => rfl⟩

/-! ## Messages -/

/-- Sending changes no context and no reduction die. -/
theorem Sends.atSlot {n : Nat} {m : Hdr × List Byte} (h : Sends n m s t) (hk : Keeps true 0xcb0081 s t) (hk' : Keeps true 0x6cb1081 s t) (k : Nat) : AtSlot k s t :=
  ⟨hk', fun j _ => ctxOf_congr (hk.only.ctxs (by decide)) j, fun x => congrArg RedSt.inbox (redOf_congr (hk.only.red (by decide)) x),
    fun x => congrArg RedSt.locks (redOf_congr (hk.only.red (by decide)) x), h.next ▸ Nat.le_add_right _ _, fun _ hj => h.before hj⟩

section
variable (k : Nat) (c : Ctx) (s : State)

theorem atSlot_sendMany (h : Hdr) (body : List Byte) (poss : List Nat) : AtSlot k s (sendMany c h body poss s) :=
  (sends_sendMany c h body poss s).atSlot (sendMany_keeps _ _ _ _ (.refl _ _ s) rfl) (sendMany_keeps _ _ _ _ (.refl _ _ s) rfl) k

theorem atSlot_sendOne (h : Hdr) (body : List Byte) (pos : Nat) : AtSlot k s (sendOne c h body pos s) :=
  (sends_sendOne c h body pos s).atSlot (sendOne_keeps _ _ _ _ (.refl _ _ s) rfl) (sendOne_keeps _ _ _ _ (.refl _ _ s) rfl) k

theorem atSlot_ctrlDown (kind status step arg : Nat) (more : List Byte) : AtSlot k s (ctrlDown c kind status step arg more s) := atSlot_sendMany ..

theorem atSlot_sendEnd (y : Step) (status : Nat) (detail : Detail) : AtSlot k s (sendEnd c y status detail s) := atSlot_ctrlDown ..

theorem atSlot_ctrlUp (kind status step arg : Nat) (more : List Byte) : AtSlot k s (ctrlUp c kind status step arg more s) := by
  unfold ctrlUp
  split
  · exact atSlot_sendOne ..
  · exact .refl k s

theorem atSlot_answerLeader (status : Nat) (detail : Detail) (num : StepNo) : AtSlot k s (answerLeader c status detail num s) := by
  unfold answerLeader
  split
  · exact atSlot_sendOne ..
  · exact .refl k s

end

theorem atSlot_sendWindows (k : Nat) (force : Bool) (s : State) : AtSlot k s (sendWindows k force s) := by
  unfold sendWindows
  split
  · exact .refl k s
  · refine AtSlot.each fun y _ a => ?_
    dsimp only
    split
    · exact (atSlot_modCtx k _ a).trans (atSlot_ctrlDown ..)
    · exact .refl k a

/-! ## Instances that are no more, and a context that is freed -/

theorem atSlot_unhalt {x : Nat} (h : ∀ i, (redOf s x).halted = some i → i.slot.toNat = k) : AtSlot k s (unhalt x s) := by
  unfold unhalt
  dsimp only
  split
  · exact .refl k s
  · next i hi =>
    rw [h i hi]
    exact (atSlot_modRed (u := fun r => { r with halted := none }) (fun _ => rfl) (fun _ => rfl) k x s).trans (atSlot_modCtx ..)

theorem atSlot_freeOwned (k : Nat) (gone : InstId → Bool) (s : State) : AtSlot k s (freeOwned gone s) :=
  have hk := (freeOwned_keeps (d := true) (L := 0x1080) gone (.refl _ _ s) rfl).only
  ⟨freeOwned_keeps _ (.refl _ _ s) rfl, fun j _ => ctxOf_congr (hk.ctxs (by decide)) j, fun x => congrArg RedSt.inbox (redOf_congr (hk.red (by decide)) x),
    fun x => congrArg RedSt.locks (redOf_congr (hk.red (by decide)) x), (hk.nextPid (by decide)).ge, fun j _ => saidAt_congr (hk.pkts (by decide)) j⟩

theorem atSlot_sweepInsts (k : Nat) (s : State) : AtSlot k s (sweepInsts k s) := by
  unfold sweepInsts
  dsimp only
  refine (AtSlot.each fun x _ a => ?_).trans (atSlot_freeOwned ..)
  split
  · next hg =>
    refine atSlot_unhalt fun i hi => ?_
    rw [hi, Option.any_some, Bool.and_eq_true_iff, beq_iff_eq] at hg
    exact hg.1
  · exact .refl k a

theorem atSlot_freeCtx (k : Nat) (s : State) : AtSlot k s (freeCtx k s) := by
  unfold freeCtx
  split
  · exact .refl k s
  · next c _ =>
    have hmap := AtSlot.each (k := k) (s := s) (l := List.range 4)
      (g := fun d => modSwc d fun w => { w with ctxMap := w.ctxMap.filter fun e => e.2.slot.toNat ≠ k }) fun d _ a => atSlot_modSwc ..
    have hsram (a : State) := AtSlot.iff (k := k) (s := a)
      (fun b => atSlot_modRed (u := fun r => { r with freePages := r.freePages + c.pages }) (fun _ => rfl) (fun _ => rfl) k c.die b) c.reserved
    exact ((hmap.trans (hsram _)).trans (atSlot_setCtx k none _)).trans (atSlot_sweepInsts ..)

theorem atSlot_freeIfDeleting (k : Nat) (s : State) : AtSlot k s (freeIfDeleting k s) := by
  unfold freeIfDeleting
  split
  · split
    · exact atSlot_freeCtx ..
    · exact .refl k s
  · exact .refl k s

/-! ## Steps that close -/

theorem atSlot_closeStep (k : Nat) (num : StepNo) (status : Nat) (detail : Detail) (hold : Option (Byte × BitVec 64)) (s : State) :
    AtSlot k s (closeStep k num status detail hold s) := by
  unfold closeStep
  split
  · exact .refl k s
  · exact (((atSlot_redCnt ..).trans (atSlot_modCtx ..)).trans (atSlot_sweepInsts ..)).trans (atSlot_sendWindows ..)

theorem atSlot_endStep (k : Nat) (num : StepNo) (status : Nat) (detail : Detail) (hold : Option (Byte × BitVec 64)) (s : State) :
    AtSlot k s (endStep k num status detail hold s) := by
  unfold endStep
  split
  · exact .refl k s
  · exact ((AtSlot.iff (fun a => atSlot_sendEnd ..) _).trans (atSlot_closeStep ..)).trans (atSlot_freeIfDeleting ..)

theorem atSlot_failStep (k : Nat) (num : StepNo) (status : Nat) (detail : Detail) (s : State) : AtSlot k s (failStep k num status detail s) := by
  unfold failStep
  split
  · exact .refl k s
  · dsimp only
    split
    · exact atSlot_endStep ..
    · split
      · exact .refl k s
      · exact (((atSlot_modCtx ..).trans (AtSlot.iff (fun a => atSlot_modCtx ..) _)).trans (atSlot_sweepInsts ..)).trans (atSlot_ctrlUp ..)

theorem atSlot_stopStep (n k : Nat) (num : StepNo) (s : State) : AtSlot k s (stopStep n k num s) := by
  induction n generalizing num s with
  | zero => exact .refl k s
  | succ n ih =>
    unfold stopStep
    split
    · exact .refl k s
    · split
      · exact ((atSlot_modCtx ..).trans (atSlot_ctrlDown ..)).trans (atSlot_freeIfDeleting ..)
      · split
        · split
          · exact (atSlot_modCtx ..).trans (atSlot_endStep ..)
          · split
            · exact ih ..
            · exact atSlot_modCtx ..
        · split
          · exact atSlot_modCtx ..
          · exact .refl k s

theorem atSlot_rootStop (k : Nat) (num : StepNo) (s : State) : AtSlot k s (rootStop k num s) := by
  unfold rootStop
  split
  · split
    · exact atSlot_modCtx ..
    · exact atSlot_stopStep ..
  · exact .refl k s

end

end Sys2Proof.Machine
end

section
/-! SUPPORT. The only open step of a context in RUN closes or fails (R200 to R206): the context and the counters that this leaves. -/

namespace Sys2Proof.Machine

/-! ## The step closed -/

/-- A step that has closed, with the instances past their grant; hold is the STEP_END kept back. -/
def shutStep (status : Nat) (detail : Detail) (hold : Option (Byte × BitVec 64)) (y : Step) : Step :=
  { keepGranted y with closed := true, endHeld := hold, failed := if status = stOk then none else some (BitVec.ofNat 8 status, detail) }

/-- No instance of a step is past its grant. -/
def NoneGranted (y : Step) : Prop := ∀ e ∈ y.chunks, ∀ q, e.2 = some q → q.inst.granted = false

/-- d is the context c whose step y has closed with a status and is over (R200, R206). -/
def ClosedAs (c : Ctx) (y : Step) (status : Nat) (d : Ctx) : Prop := d = { c with
  st := if status = stNanTrap ∨ status = stInfTrap then .halt else .idle, steps := [], lastClosed := some (y.num, BitVec.ofNat 8 status), lastStatus := BitVec.ofNat 8 status
  haltStatus := if status = stNanTrap ∨ status = stInfTrap then BitVec.ofNat 8 status else c.haltStatus, haltDetail := d.haltDetail, sq := d.sq, digest := d.digest }

section
variable {s : State} {k : Nat} {c : Ctx} {y : Step} {num : StepNo}

theorem keepGranted_noneGranted (h : NoneGranted y) : (keepGranted y).chunks = [] := by
  refine List.filter_eq_nil_iff.2 fun e he hg => ?_
  split at hg
  · next q hq =>
    rw [h e he q hq] at hg
    cases hg
  · cases hg

theorem noneGranted_nil (y : Step) : NoneGranted { y with chunks := [] } := fun _ he => nomatch he

/-- What a table holds under a key is still there after a filter that lets it pass. -/
theorem tget_filter {α : Type} {d v : α} {l : Tbl α} {j : Nat} {f : Nat × α → Bool} (h : tget d l j = v) (hv : v ≠ d) (hf : f (j, v) = true) :
    tget d (l.filter f) j = v := by
  induction l with
  | nil => exact absurd h.symm hv
  | cons e r ih =>
    rw [tget] at h
    split at h
    · next hj =>
      subst hj h
      rw [List.filter_cons_of_pos hf, tget, if_pos rfl]
    · next hj =>
      rw [List.filter_cons]
      split
      · rw [tget, if_neg hj]
        exact ih h
      · exact ih h

/-- An instance that has its grant goes on; one that has not is gone (R258). -/
theorem chunkOf_keepGranted {m : Nat} {q : Chunk} (h : chunkOf y m = some q) :
    (q.inst.granted = true → chunkOf (keepGranted y) m = some q) ∧ (q.inst.granted = false → chunkOf (keepGranted y) m ≠ some q) := by
  refine ⟨fun hg => tget_filter h (Option.some_ne_none q) hg, fun hg hkeep => ?_⟩
  have hmem : q.inst.granted = true := (List.mem_filter.1 (mem_of_tget hkeep (Option.some_ne_none q))).2
  rw [hg] at hmem
  cases hmem

theorem withTimers_over (f : Step → Nat) (h : c.steps = []) : withTimers f c = c := by
  rw [withTimers, h, List.map_nil, ← h]

theorem withLims_over (f : Step → Nat) (h : c.steps = []) : withLims f c = c := by
  rw [withLims, h, List.map_nil, ← h]

/-- A context in service goes to the state that its steps give (R206). -/
theorem settleSt_inService (h : c.st = .idle ∨ c.st = .ready ∨ c.st = .run) :
    settleSt c = { c with st := if openSteps c ≠ [] then .run else if c.ready.isSome then .ready else .idle } := by
  have hsettle : settleSt c = { c with st := if !(openSteps c).isEmpty then .run else if c.ready.isSome then .ready else .idle } := by
    rcases h with h | h | h <;> rw [settleSt, h]
  rw [hsettle]
  cases openSteps c <;> rfl

theorem settleSt_outOfService (h : c.st ≠ .idle) (h' : c.st ≠ .ready) (h'' : c.st ≠ .run) : settleSt c = c := by
  unfold settleSt
  split
  · next hst => exact absurd hst h
  · next hst => exact absurd hst h'
  · next hst => exact absurd hst h''
  · rfl

theorem closedCtx_one (ho : OneOpen c y num) (hst : c.st = .run) (hr : c.ready = none) (status : Nat) (detail : Detail) (hold : Option (Byte × BitVec 64)) :
    closedCtx y status detail hold c = { c with
      st := if status = stNanTrap ∨ status = stInfTrap then .halt else .idle
      steps := [shutStep status detail hold y].filter fun x => !stepOver x
      lastClosed := some (y.num, BitVec.ofNat 8 status), lastStatus := BitVec.ofNat 8 status
      haltStatus := if status = stNanTrap ∨ status = stInfTrap then BitVec.ofNat 8 status else c.haltStatus
      haltDetail := if status = stNanTrap ∨ status = stInfTrap then detail else c.haltDetail
      sq := if c.spec.isRoot then sqWord y.sq else c.sq
      digest := if c.spec.isRoot && status == stOk && hasDigest c then y.dg else c.digest } := by
  have hopen (d : Ctx) (hd : d.steps = [shutStep status detail hold y].filter fun x => !stepOver x) : openSteps d = [] := by
    refine List.filter_eq_nil_iff.2 fun z hz => ?_
    rw [hd] at hz
    rw [List.mem_singleton.1 (List.mem_filter.1 hz).1]
    exact Bool.false_ne_true
  unfold closedCtx
  simp only [ho.steps, List.map_cons, List.map_nil, ho.isOpen, Bool.false_eq_true, not_false_eq_true, and_self, if_true]
  by_cases ht : status = stNanTrap ∨ status = stInfTrap
  · rw [if_pos (by simpa [isTrap] using ht), hst]
    simp only [if_pos ht]
    rfl
  · rw [if_neg (by simpa [isTrap] using ht)]
    refine (settleSt_inService ?_).trans ?_
    · exact .inr (.inr hst)
    · rw [hopen _ rfl]
      simp only [hr, if_neg ht]
      rfl

/-- A step none of whose instances goes on is over once it has closed. -/
theorem steps_closedCtx (ho : OneOpen c y num) (hst : c.st = .run) (hr : c.ready = none) (hg : NoneGranted y) (status : Nat) (detail : Detail) :
    (closedCtx y status detail none c).steps = [] := by
  rw [closedCtx_one ho hst hr]
  refine List.filter_eq_nil_iff.2 fun z hz => ?_
  rw [List.mem_singleton.1 hz]
  simp [stepOver, shutStep, keepGranted_noneGranted hg]

theorem closedAs_closedCtx (ho : OneOpen c y num) (hst : c.st = .run) (hr : c.ready = none) (hg : NoneGranted y) (status : Nat) (detail : Detail) :
    ClosedAs c y status (closedCtx y status detail none c) := by
  have hsteps := steps_closedCtx ho hst hr hg status detail
  rw [closedCtx_one ho hst hr] at hsteps ⊢
  unfold ClosedAs
  dsimp only at hsteps ⊢
  rw [hsteps]

/-! ## What closing it leaves -/

section
variable (hc : ctxOf s k = some c) (ho : OneOpen c y num)
include hc ho

theorem ctxOf_closeStep (status : Nat) (detail : Detail) (hold : Option (Byte × BitVec 64)) :
    ∃ l a, ctxOf (closeStep k num status detail hold s) k = some (withLims l (withTimers a (closedCtx y status detail hold c))) := by
  have hshut : ∀ a, ctxOf a k = some c → ctxOf (modCtx k (fun d => closedCtx y status detail hold (waited a d)) a) k = some (closedCtx y status detail hold c) := by
    intro a ha
    rw [ctxOf_modCtx_same, ha, Option.map_some, waited_one ho]
  rw [closeStep_one hc ho]
  obtain ⟨a, ha⟩ := ctxOf_sweepInsts (hshut (redCnt c.die (if status = stOk then 0x050 else 0x054) 1 s) hc) k
  obtain ⟨l, hl⟩ := ctxOf_sendWindows ha false
  exact ⟨l, a, hl⟩

theorem cnt_closeStep (status : Nat) (detail : Detail) (hold : Option (Byte × BitVec 64)) :
    (redOf (closeStep k num status detail hold s) c.die).cnt = bump (redOf s c.die).cnt (if status = stOk then 0x050 else 0x054) 1 := by
  rw [closeStep_one hc ho]
  dsimp only
  rw [redOf_congr ((sendWindows_keeps (d := true) (L := 0x4cb0081) _ _ (.refl _ _ _) rfl).only.red (by decide)), cnt_sweepInsts, redOf_congr (modCtx_red ..)]
  exact congrArg RedSt.cnt (redOf_modRed_same ..)

section
variable (hst : c.st = .run) (hr : c.ready = none) (hdel : c.deleting = false) (hg : NoneGranted y)
include hst hr hg

theorem ctxOf_closeStep_over (status : Nat) (detail : Detail) :
    ctxOf (closeStep k num status detail none s) k = some (closedCtx y status detail none c) := by
  obtain ⟨l, a, hla⟩ := ctxOf_closeStep hc ho status detail none
  have hsteps := steps_closedCtx ho hst hr hg status detail
  rw [hla, withTimers_over a hsteps, withLims_over l hsteps]

include hdel

/-- The only open step of a root ends with its STEP_END sent. -/
theorem endStep_over (status : Nat) (detail : Detail) : ∃ d, ctxOf (endStep k num status detail none s) k = some d ∧ ClosedAs c y status d ∧
    (redOf (endStep k num status detail none s) c.die).cnt = bump (redOf s c.die).cnt (if status = stOk then 0x050 else 0x054) 1 := by
  have hsend := (sendEnd_keeps (d := true) (L := 0xcb0081) c y status detail (.refl _ _ s) rfl).only
  have hca : ctxOf (sendEnd c y status detail s) k = some c := (ctxOf_congr (hsend.ctxs (by decide)) k).trans hc
  have hclosed := closedAs_closedCtx ho hst hr hg status detail
  have hover := ctxOf_closeStep_over hca ho hst hr hg status detail
  have hkept : (closedCtx y status detail none c).deleting = false := by
    rw [closedCtx_one ho hst hr]
    exact hdel
  rw [endStep_one hc ho, Option.isNone_none, iff_true, freeIfDeleting_not hover hkept]
  exact ⟨_, hover, hclosed, (cnt_closeStep hca ho status detail none).trans (congrArg (fun r : RedSt => bump r.cnt _ 1) (redOf_congr (hsend.red (by decide)) _))⟩

end

end

/-! ## Which step owes twin packets -/

/-- Only a COPPICE group owes twin packets (R282). -/
theorem owesTwin_not (hop : c.spec.op ≠ 6) (y : Step) : owesTwin c y = false := by
  have hcop : decide (c.spec.op.toNat = opCoppice) = false := decide_eq_false fun e => hop (BitVec.eq_of_toNat_eq e)
  rw [owesTwin, hcop]
  simp only [Bool.and_false, Bool.false_and]

/-- A root of no COPPICE group fails a step: it ends there and then. -/
theorem failStep_root (hc : ctxOf s k = some c) (ho : OneOpen c y num) (hroot : c.spec.isRoot = true) (hop : c.spec.op ≠ 6) (status : Nat) (detail : Detail) :
    failStep k num status detail s = endStep k num status detail none s := by
  simp only [failStep, hc, Option.bind_some, ho.stepOf, Option.map_some, hroot, if_true, owesTwin_not hop, Bool.false_eq_true, if_false]

end

end Sys2Proof.Machine
end

section
/-! SUPPORT. A CTRL at the front of a reduction die's arrivals (R192): which row takes it, and what is done with it. -/

namespace Sys2Proof.Machine

/-- A CTRL for the context c of slot k is at the front of die x's arrivals. -/
structure CtrlAt (s : State) (x : RedDie) (pid : Nat) (p : Pkt) (k : Nat) (c : Ctx) : Prop where
  front : inboxFront s x = some (pid, p)
  ptype : hPtype p.hdr = ptCtrl
  slot : pktSlot s p = some k
  ctx : ctxOf s k = some c

/-- The front packet of die x is off its arrivals. -/
def Taken (x : RedDie) (s t : State) : Prop := (redOf t x).inbox = (redOf s x).inbox.drop 1

/-- The front packet of die x is off its arrivals and gone; the memories, and the contexts but that of slot k, are as they were. -/
def TakenOff (x : RedDie) (pid k : Nat) (s t : State) : Prop := Taken x s t ∧ pktOf t pid = none ∧ t.mem = s.mem ∧ ∀ j, j ≠ k → ctxOf t j = ctxOf s j

section
variable {s t : State} {x : RedDie} {pid k kind : Nat} {p : Pkt} {c : Ctx}

theorem taken_eatFront (x : RedDie) (pid : Nat) (s : State) : Taken x s (eatFront x pid s) :=
  congrArg RedSt.inbox (redOf_modRed_same x.val (fun r => { r with inbox := r.inbox.drop 1 }) s)

theorem AtSlot.taken (h : AtSlot k (eatFront x pid s) t) : Taken x s t := (h.inbox x).trans (taken_eatFront x pid s)

theorem AtSlot.takenOff (h : AtSlot k (eatFront x pid s) t) (hpid : pid < s.nextPid) : TakenOff x pid k s t :=
  ⟨h.taken, h.gone ((nextPid_eatFront x pid s).symm ▸ hpid) (pktOf_setPkt_none _ _), h.keeps.only.mem (by decide), h.other⟩

theorem CtrlAt.eaten (h : CtrlAt s x pid p k c) : ctxOf (eatFront x pid s) k = some c := h.ctx

section
variable (h : CtrlAt s x pid p k c)
include h

theorem CtrlAt.onCtrl_malformed (hok : ctrlOk p.body = false) (kind : Nat) (f : Nat → Ctx → Nat → Pkt → State → State) :
    onCtrl x kind f s = dropAt c.die 0x044 (eatFront x pid s) := by
  simp only [onCtrl, h.front, h.ptype, h.slot, h.ctx, hok, ne_eq, not_true_eq_false, if_false, Bool.not_false, if_true]

theorem CtrlAt.onCtrl_outside (hok : ctrlOk p.body = true) (hkind : be p.body 0 1 = kind) (hsteered : kind = kStepOpen ∨ kind = kWindow)
    (hi : childIdx c (pktPos s p) = none) (hup : c.up ≠ some (pktPos s p)) (f : Nat → Ctx → Nat → Pkt → State → State) :
    onCtrl x kind f s = dropAt c.die 0x048 (eatFront x pid s) := by
  have hst : (kind == kStepOpen || kind == kWindow || kind == kStepEnd || kind == kFail) = true := by
    rcases hsteered with rfl | rfl <;> rfl
  simp only [onCtrl, h.front, h.ptype, h.slot, h.ctx, hok, hkind, hst, hi, hup, ne_eq, not_true_eq_false, if_false, Bool.not_true, Bool.false_eq_true, Option.isNone_none,
    not_false_eq_true, decide_true, Bool.and_true, if_true]

/-- A message of a KIND from inside the tree. -/
theorem CtrlAt.onCtrl_inside (hok : ctrlOk p.body = true) (hkind : be p.body 0 1 = kind) (hin : (childIdx c (pktPos s p)).isSome = true ∨ c.up = some (pktPos s p))
    (f : Nat → Ctx → Nat → Pkt → State → State) : onCtrl x kind f s = f k c (pktPos s p) p (eatFront x pid s) := by
  have hno : ((childIdx c (pktPos s p)).isNone && decide (c.up ≠ some (pktPos s p))) = false := by
    rcases hin with hi | hup
    · rw [Option.isNone_eq_false_iff.2 hi]
      rfl
    · simp only [hup, ne_eq, not_true_eq_false, decide_false, Bool.and_false]
  simp only [onCtrl, h.front, h.ptype, h.slot, h.ctx, hok, hkind, hno, Bool.and_assoc, ne_eq, not_true_eq_false, if_false, Bool.not_true, Bool.false_eq_true, Bool.and_false]

theorem CtrlAt.onRootCtrl_kind (hok : ctrlOk p.body = true) (hkind : be p.body 0 1 = kind) : onRootCtrl x kind s = rootCtrl k (heldOf s p) (eatFront x pid s) := by
  simp only [onRootCtrl, h.front, h.ptype, h.slot, hok, hkind, and_self, if_true]

theorem CtrlAt.onRootCtrl_malformed (hok : ctrlOk p.body = false) (kind : Nat) : onRootCtrl x kind s = dropAt c.die 0x044 (eatFront x pid s) := by
  have hno : ¬ (hPtype p.hdr = ptCtrl ∧ ctrlOk p.body = true ∧ be p.body 0 1 = kind) := fun e => by
    rw [hok] at e
    exact Bool.false_ne_true e.2.1
  simp only [onRootCtrl, h.front, if_neg hno, h.onCtrl_malformed hok]

end

end

end Sys2Proof.Machine
end

section
/-! STEP_END, STOP, FAIL and the step timer (R192 to R206, R214, R258). -/

namespace Sys2Proof.Machine

/-! ## STEP_END -/

section
variable {s : State} {k : Nat} {p : Pkt} {c : Ctx} {y : Step}

/-- A BAD_STEP goes on toward the leader and nothing else (log entry 17). -/
theorem stepEndAt_badStep (h : be p.body 1 1 = 7) (hc : ctxOf s k = some c) : AtSlot k s (stepEndAt k c p s) ∧ ctxOf (stepEndAt k c p s) k = some c ∧
    (redOf (stepEndAt k c p s) c.die).cnt = (redOf s c.die).cnt := by
  have hl : leaderOnly c (pktStep p) (be p.body 1 1) = true := by rw [leaderOnly, h]; rfl
  unfold stepEndAt
  dsimp only
  rw [if_pos hl]
  split
  · next q _ =>
    have hk := (sendOne_keeps (d := true) (L := 0xcb0081) c p.hdr p.body q (.refl _ _ s) rfl).only
    exact ⟨atSlot_sendOne .., (ctxOf_congr (hk.ctxs (by decide)) k).trans hc, congrArg RedSt.cnt (redOf_congr (hk.red (by decide)) _)⟩
  · exact ⟨.refl k s, hc, rfl⟩

/-- The step that a STEP_END closes. -/
theorem stepEndAt_closes (h : be p.body 1 1 ≠ 7) (ho : OneOpen c y (pktStep p)) : stepEndAt k c p s =
    freeIfDeleting k (closeStep k (pktStep p) (be p.body 1 1) (BitVec.ofNat 128 (be p.body 8 16)) none (sendMany c p.hdr p.body (childPoss c) s)) := by
  have hl : leaderOnly c (pktStep p) (be p.body 1 1) = false := by
    simp only [leaderOnly, ho.stepOf, Option.isNone_some, Bool.false_and, Bool.or_false]
    exact beq_false_of_ne h
  unfold stepEndAt
  dsimp only
  rw [hl]
  exact if_neg Bool.false_ne_true

/-- d is the context c whose step y a STEP_END has closed: over where nothing was granted, else with the granted instances alone (R206, R258). -/
def EndsStep (c : Ctx) (y : Step) (num : StepNo) (status : Nat) (detail : Detail) (d : Ctx) : Prop :=
  (NoneGranted y → ClosedAs c y status d ∧ d.sq = c.sq ∧ d.digest = c.digest ∧ (status = stNanTrap ∨ status = stInfTrap → d.haltDetail = detail)) ∧
    ∀ m q, chunkOf y m = some q → (q.inst.granted = true → ∃ z ∈ d.steps, z.num = num ∧ z.closed = true ∧ chunkOf z m = some q) ∧
      (q.inst.granted = false → ∀ z ∈ d.steps, chunkOf z m ≠ some q)

theorem endsStep_closedCtx (ho : OneOpen c y (pktStep p)) (hst : c.st = .run) (hr : c.ready = none) (hroot : c.spec.isRoot = false) (status : Nat) (detail : Detail)
    (l a : Step → Nat) : EndsStep c y (pktStep p) status detail (withLims l (withTimers a (closedCtx y status detail none c))) := by
  refine ⟨fun hg => ?_, fun m q hq => ?_⟩
  · have hsteps := steps_closedCtx ho hst hr hg status detail
    rw [withTimers_over a hsteps, withLims_over l hsteps]
    refine ⟨closedAs_closedCtx ho hst hr hg status detail, ?_⟩
    rw [closedCtx_one ho hst hr]
    simp only [hroot, Bool.false_and, Bool.false_eq_true, if_false, true_and]
    exact fun ht => if_pos ht
  · obtain ⟨hgo, hgone⟩ := chunkOf_keepGranted hq
    rw [closedCtx_one ho hst hr]
    refine ⟨fun hg => ?_, fun hg z hz => ?_⟩
    · have hleft : stepOver (shutStep status detail none y) = false := by
        simp only [stepOver, shutStep, keepGranted_of_granted hq hg, Bool.and_false, Bool.false_and]
      simp only [withLims, withTimers, List.filter_cons, hleft, Bool.not_false, if_true, List.filter_nil, List.map_cons, List.map_nil, List.mem_singleton, exists_eq_left]
      exact ⟨ho.num, rfl, hgo hg⟩
    · simp only [withLims, withTimers, List.mem_map, List.mem_filter, List.mem_singleton] at hz
      obtain ⟨-, ⟨w, ⟨rfl, -⟩, rfl⟩, rfl⟩ := hz
      exact hgone hg

end

section
variable {s : State} {x : RedDie} {pid k : Nat} {p : Pkt} {c : Ctx} {y : Step} (h : CtrlAt s x pid p k c) (hok : ctrlOk p.body = true) (hpid : pid < s.nextPid)
include h hok hpid

section
variable (hkind : be p.body 0 1 = kStepEnd) (hup : c.up = some (pktPos s p))
include hkind hup

omit hpid in
theorem CtrlAt.exec_stepEnd : exec (.stepEnd x) s = .next (stepEndAt k c p (eatFront x pid s)) :=
  congrArg Host.Outcome.next ((h.onCtrl_inside hok hkind (.inr hup) _).trans (if_pos hup))

theorem CtrlAt.stepEnd_badStep (hst : be p.body 1 1 = 7) :
    ∃ t, exec (.stepEnd x) s = .next t ∧ TakenOff x pid k s t ∧ ctxOf t k = some c ∧ (redOf t c.die).cnt = (redOf s c.die).cnt := by
  obtain ⟨hat, hctx, hcnt⟩ := stepEndAt_badStep hst h.eaten
  exact ⟨_, h.exec_stepEnd hok hkind hup, hat.takenOff hpid, hctx, hcnt.trans (cnt_eatFront ..)⟩

theorem CtrlAt.stepEnd_closes (ho : OneOpen c y (pktStep p)) (hrun : c.st = .run) (hr : c.ready = none) (hdel : c.deleting = false) (hroot : c.spec.isRoot = false)
    (hst : be p.body 1 1 ≠ 7) : ∃ t d, exec (.stepEnd x) s = .next t ∧ TakenOff x pid k s t ∧ ctxOf t k = some d ∧
      (redOf t c.die).cnt = bump (redOf s c.die).cnt (if be p.body 1 1 = 0 then 0x050 else 0x054) 1 ∧
      EndsStep c y (pktStep p) (be p.body 1 1) (BitVec.ofNat 128 (be p.body 8 16)) d := by
  have hk := (sendMany_keeps (d := true) (L := 0xcb0081) c p.hdr p.body (childPoss c) (.refl _ _ (eatFront x pid s)) rfl).only
  have hat := atSlot_sendMany k c (eatFront x pid s) p.hdr p.body (childPoss c)
  have hca := (ctxOf_congr (hk.ctxs (by decide)) k).trans h.eaten
  have hcnt := cnt_closeStep hca ho (be p.body 1 1) (BitVec.ofNat 128 (be p.body 8 16)) none
  obtain ⟨l, a, hd⟩ := ctxOf_closeStep hca ho (be p.body 1 1) (BitVec.ofNat 128 (be p.body 8 16)) none
  have hkept : (withLims l (withTimers a (closedCtx y (be p.body 1 1) (BitVec.ofNat 128 (be p.body 8 16)) none c))).deleting = false := by
    rw [closedCtx_one ho hrun hr]
    exact hdel
  rw [h.exec_stepEnd hok hkind hup, stepEndAt_closes hst ho, freeIfDeleting_not hd hkept]
  refine ⟨_, _, rfl, (hat.trans (atSlot_closeStep ..)).takenOff hpid, hd, ?_, endsStep_closedCtx ho hrun hr hroot _ _ l a⟩
  rw [hcnt, redOf_congr (hk.red (by decide)), cnt_eatFront]
  rfl

end

end

/-! ## STOP -/

section
variable {s : State} {k n : Nat} {c : Ctx} {y : Step} {num : StepNo} (hc : ctxOf s k = some c)
include hc

/-- A READY step is cancelled. -/
theorem stopStep_cancels {r : Ready} (hr : c.ready = some r) (hn : r.num = num) (hst : c.st = .ready) (ho : openSteps c = []) (hdel : c.deleting = false) :
    ctxOf (stopStep (n + 1) k num s) k = some { c with ready := none, st := .idle } := by
  have hready : c.ready.map Ready.num = some num := by rw [hr, Option.map_some, hn]
  have hsettle : settleSt { c with ready := none } = { c with ready := none, st := .idle } := by
    refine (settleSt_inService ?_).trans ?_
    · exact .inr (.inl hst)
    · rw [show openSteps { c with ready := none } = [] from ho]
      rfl
  have hca : ctxOf (modCtx k (fun c => settleSt { c with ready := none }) s) k = some { c with ready := none, st := .idle } := by
    rw [ctxOf_modCtx_same, hc, Option.map_some, hsettle]
  have hcd (a : State) := (ctrlDown_keeps (d := true) (L := 0xcb0081) c kStepEnd stCancelled num.toNat 0 (endMore 0 0) (.refl _ _ a) rfl).only
  have hcb := (ctxOf_congr ((hcd _).ctxs (by decide)) k).trans hca
  rw [stopStep, hc]
  dsimp only
  rw [if_pos hready, freeIfDeleting_not hcb hdel, hcb]

section
variable (ho : OneOpen c y num) (hr : c.ready = none)
include ho hr

/-- No result of the open step has been granted. -/
theorem stopStep_aborts (hst : c.st = .run) (hdel : c.deleting = false) (hres : y.results = 0) :
    ∃ d, ctxOf (stopStep (n + 1) k num s) k = some d ∧ ClosedAs c y stAborted d ∧
      (redOf (stopStep (n + 1) k num s) c.die).cnt = bump (redOf s c.die).cnt 0x054 1 := by
  have hstop : stopStep (n + 1) k num s = endStep k num stAborted 0 none (modCtx k (modStep num fun t => { t with chunks := [] }) s) := by
    rw [stopStep, hc]
    simp only [hr, Option.map_none, reduceCtorEq, if_false, ho.stepOf, hres, if_true]
  have hca := ctxOf_modOpen hc ho fun t => { t with chunks := [] }
  rw [hstop]
  exact endStep_over hca (ho.put rfl rfl) hst hr hdel (noneGranted_nil y) stAborted 0

/-- Results have been granted: the STOP is for the next step. -/
theorem stopStep_holds (hres : y.results ≠ 0) : stopStep (n + 1) k num s = modCtx k (fun c => { c with stopHeld := true }) s := by
  have hnext : stepOf c (num + 1) = none := by
    have hne : ¬ y.num = num + 1 := by
      rw [ho.num]
      bv_omega
    rw [stepOf, ho.openSteps, List.find?_cons_of_neg (by simpa using hne), List.find?_nil]
  rw [stopStep, hc]
  simp only [hr, Option.map_none, reduceCtorEq, if_false, ho.stepOf, hres, decide_false, hnext, Option.isSome_none, Bool.or_self, Bool.false_eq_true]

end

section
variable (ho : openSteps c = []) (hr : c.ready = none)
include ho hr

/-- The step is the last that closed. -/
theorem stopStep_holds_closed {z : Byte} (hl : c.lastClosed = some (num, z)) : stopStep (n + 1) k num s = modCtx k (fun c => { c with stopHeld := true }) s := by
  have hnone : stepOf c num = none := by rw [stepOf, ho]; rfl
  rw [stopStep, hc]
  simp only [hr, Option.map_none, reduceCtorEq, if_false, hnone, hl, Option.map_some, decide_true, ho, Option.isNone_none, List.isEmpty_nil, Bool.and_self, if_true]

theorem stopStep_unknown (hl : ∀ z, c.lastClosed ≠ some (num, z)) : stopStep (n + 1) k num s = s := by
  have hnone : stepOf c num = none := by rw [stepOf, ho]; rfl
  have hlast : c.lastClosed.map Prod.fst ≠ some num := fun e => by
    obtain ⟨⟨a, z⟩, hz, rfl⟩ := Option.map_eq_some_iff.1 e
    exact hl z hz
  rw [stopStep, hc]
  simp only [hr, Option.map_none, reduceCtorEq, if_false, hnone, hlast, decide_false, Bool.false_and, Bool.false_eq_true]

end

end

section
variable {s : State} {x : RedDie} {pid k : Nat} {p : Pkt} {c : Ctx} {y : Step} (h : CtrlAt s x pid p k c) (hok : ctrlOk p.body = true)
  (hkind : be p.body 0 1 = kStop) (hroot : c.spec.isRoot = true) (hst : c.st ≠ .moving)
include h hok hkind hroot hst

theorem CtrlAt.exec_stop : exec (.stop x) s = .next (stopStep 4 k (pktStep p) (eatFront x pid s)) := by
  refine congrArg Host.Outcome.next ((h.onRootCtrl_kind hok hkind).trans ?_)
  have hstart : (heldOf s p).start = false := by
    rw [heldOf, hkind]
    rfl
  simp only [rootCtrl, h.eaten, hroot, Bool.not_true, Bool.false_eq_true, if_false, hst, hstart, Bool.not_false, if_true]
  rfl

/-- A STOP is taken off the arrivals. -/
theorem CtrlAt.stop_books (hpid : pid < s.nextPid) {Q : State → Prop} (hq : Q (stopStep 4 k (pktStep p) (eatFront x pid s))) :
    ∃ t, exec (.stop x) s = .next t ∧ TakenOff x pid k s t ∧ Q t :=
  ⟨_, h.exec_stop hok hkind hroot hst, (atSlot_stopStep 4 k (pktStep p) _).takenOff hpid, hq⟩

end

/-! ## FAIL -/

section
variable {s : State} {x : RedDie} {pid k : Nat} {p : Pkt} {c : Ctx} {y : Step} (h : CtrlAt s x pid p k c) (hok : ctrlOk p.body = true) (hpid : pid < s.nextPid)
  (hkind : be p.body 0 1 = kFail) (hi : (childIdx c (pktPos s p)).isSome = true)
include h hok hkind hi

theorem CtrlAt.exec_fail : exec (.fail x) s = .next (failAt k c p (eatFront x pid s)) :=
  congrArg Host.Outcome.next ((h.onCtrl_inside hok hkind (.inl hi) _).trans (if_pos hi))

include hpid

/-- Below the root, and for a step not open, the context stays as it is. -/
theorem CtrlAt.fail_passes (hno : c.spec.isRoot = false ∨ stepOf c (pktStep p) = none) :
    ∃ t, exec (.fail x) s = .next t ∧ TakenOff x pid k s t ∧ ctxOf t k = some c := by
  have hboth : AtSlot k (eatFront x pid s) (failAt k c p (eatFront x pid s)) ∧ ctxOf (failAt k c p (eatFront x pid s)) k = some c := by
    unfold failAt
    split
    · next hroot =>
      have hnone : stepOf c (pktStep p) = none := hno.resolve_left (by rw [hroot]; exact fun e => nomatch e)
      have hfail (status : Nat) (detail : Detail) : failStep k (pktStep p) status detail (eatFront x pid s) = eatFront x pid s := by
        simp only [failStep, h.eaten, Option.bind_some, hnone, Option.map_none]
      rw [hfail]
      exact ⟨.refl _ _, h.eaten⟩
    · split
      · next u _ =>
        exact ⟨atSlot_sendOne .., (ctxOf_congr ((sendOne_keeps (d := true) (L := 0xcb0081) _ _ _ _ (.refl _ _ _) rfl).only.ctxs (by decide)) k).trans h.eaten⟩
      · exact ⟨.refl _ _, h.eaten⟩
  exact ⟨_, h.exec_fail hok hkind hi, hboth.1.takenOff hpid, hboth.2⟩

/-- The open step of a root ends with the status of the FAIL. -/
theorem CtrlAt.fail_ends (ho : OneOpen c y (pktStep p)) (hroot : c.spec.isRoot = true) (hop : c.spec.op ≠ 6) (hst : c.st = .run) (hr : c.ready = none)
    (hdel : c.deleting = false) (hg : NoneGranted y) : ∃ t d, exec (.fail x) s = .next t ∧ TakenOff x pid k s t ∧ ctxOf t k = some d ∧
      ClosedAs c y (be p.body 1 1) d ∧ (redOf t c.die).cnt = bump (redOf s c.die).cnt (if be p.body 1 1 = 0 then 0x050 else 0x054) 1 := by
  have hfail : failAt k c p (eatFront x pid s) = endStep k (pktStep p) (be p.body 1 1) (BitVec.ofNat 128 (be p.body 8 16)) none (eatFront x pid s) := by
    rw [failAt, if_pos hroot, failStep_root h.eaten ho hroot hop]
  obtain ⟨d, hd, hclosed, hcnt⟩ := endStep_over h.eaten ho hst hr hdel hg (be p.body 1 1) (BitVec.ofNat 128 (be p.body 8 16))
  rw [cnt_eatFront] at hcnt
  rw [h.exec_fail hok hkind hi, hfail]
  exact ⟨_, d, rfl, (atSlot_endStep ..).takenOff hpid, hd, hclosed, hcnt⟩

end

/-! ## The step timer -/

section
variable {s : State} {k : Slot} {c : Ctx} {y : Step}

/-- The context of a slot is halted in single-step on its home die (R260). -/
def HaltedAt (s : State) (k : Slot) (c : Ctx) : Prop := ∃ i : InstId, (redOf s c.die).halted = some i ∧ i.slot = k

/-- The end of a step's timer (R202). -/
def timerEnd (c : Ctx) (y : Step) : Nat := y.timerAt + 1000 * c.spec.timeoutUs + 20000 * c.spec.height

theorem stepTimerExpiry_nothing (hc : ctxOf s k.toNat = some c) (h : openSteps c = [] ∨ HaltedAt s k c) : exec (.stepTimerExpiry k) s = .next s := by
  refine congrArg Host.Outcome.next ?_
  rw [hc]
  dsimp only
  rcases h with h | ⟨i, hi, rfl⟩
  · rw [h]
  · rw [hi]
    split
    · exact if_pos (by simp only [beq_self_eq_true, Bool.true_or])
    · rfl

/-- The straggler of a step that has run out of time is noted (R202). -/
def stragglerNoted (c : Ctx) (y : Step) (s : State) : State :=
  match missingOf c y (oldestIncomplete c y y.n 0) with
  | i :: _ =>
    let ch := c.spec.children[i]?
    redCnt c.die 0x058 1 (logEvent 0x2020 3 (256 * c.die) (bytesLE 2 s.gctl.coord.toNat ++ bytesLE 2 ((ch.map ChildSpec.pos).getD 0) ++
      bytesLE 3 (match ch with | some x => if x.isSwitch then 0 else x.id.toNat | none => 0) ++ bytesLE 2 (oldestIncomplete c y y.n 0) ++
      bytesLE 2 (missingOf c y (oldestIncomplete c y y.n 0)).length) s)
  | [] => redCnt c.die 0x058 1 s

theorem keeps_stragglerNoted (c : Ctx) (y : Step) (s : State) : Keeps true 0x2002581 s (stragglerNoted c y s) := by
  unfold stragglerNoted
  split
  · exact redCnt_keeps _ _ _ (logEvent_keeps _ _ _ _ (.refl _ _ s) rfl) rfl
  · exact redCnt_keeps _ _ _ (.refl _ _ s) rfl

theorem cnt_stragglerNoted (c : Ctx) (y : Step) (s : State) : (redOf (stragglerNoted c y s) c.die).cnt = bump (redOf s c.die).cnt 0x058 1 := by
  unfold stragglerNoted
  split
  · refine (congrArg RedSt.cnt (redOf_modRed_same ..)).trans (congrArg (fun r : RedSt => bump r.cnt 0x058 1) (redOf_congr ?_ _))
    exact (logEvent_keeps (d := true) (L := 0x2581) _ _ _ _ (.refl _ _ s) rfl).only.red (by decide)
  · exact congrArg RedSt.cnt (redOf_modRed_same ..)

theorem halted_stragglerNoted (c : Ctx) (y : Step) (s : State) (x : Nat) : (redOf (stragglerNoted c y s) x).halted = (redOf s x).halted := by
  have hcnt (a : State) : (redOf (redCnt c.die 0x058 1 a) x).halted = (redOf a x).halted :=
    redOf_modRed_field RedSt.halted (u := fun r => { r with cnt := bump r.cnt 0x058 1 }) (fun _ => rfl) c.die a x
  unfold stragglerNoted
  split
  · exact (hcnt _).trans (congrArg RedSt.halted (redOf_congr ((logEvent_keeps (d := true) (L := 0x2581) _ _ _ _ (.refl _ _ s) rfl).only.red (by decide)) _))
  · exact hcnt s

section
variable (hal : alive s = true) (hc : ctxOf s k.toNat = some c) (hns : ¬ HaltedAt s k c) (ho : OneOpen c y y.num) (hf : y.failed = none)
include hal hc hns ho hf

/-- The clock comes to the end of the timer, the straggler is noted, and the step fails. -/
theorem exec_stepTimerExpiry : ∃ detail, exec (.stepTimerExpiry k) s =
    .next (failStep k.toNat y.num stStraggler detail (stragglerNoted c y (clockTo (timerEnd c y) s))) := by
  have hca : ctxOf (clockTo (y.timerAt + 1000 * c.spec.timeoutUs + 20000 * c.spec.height) s) k.toNat = some c := hc
  simp only [exec, execStepTimerExpiry, hc, ho.openSteps]
  rw [if_neg ?goes]
  case goes =>
    rw [hal, hf]
    simp only [Bool.not_true, Bool.or_false, Option.isSome_none]
    split
    · next i hi => exact fun e => hns ⟨i, hi, beq_iff_eq.1 e⟩
    · exact Bool.false_ne_true
  simp only [stragglerNoted]
  cases hm : missingOf c y (oldestIncomplete c y y.n 0) with
  | nil => exact ⟨_, rfl⟩
  | cons i r =>
    simp only [failStraggler, hca, ho.stepOf, hf, hm, Option.isSome_none, Bool.false_eq_true, if_false]
    exact ⟨_, rfl⟩

omit hal hc hns ho hf in
/-- The memories and the queues are as they were, and the clock has come to the end of the timer. -/
theorem atTimerEnd {t : State} (ht : AtSlot k.toNat (stragglerNoted c y (clockTo (timerEnd c y) s)) t) :
    t.clock = max s.clock (timerEnd c y) ∧ t.mem = s.mem ∧ t.queues = s.queues := by
  have hk := (keeps_stragglerNoted c y (clockTo (timerEnd c y) s)).only
  exact ⟨(ht.keeps.only.clock (by decide)).trans (hk.clock (by decide)), (ht.keeps.only.mem (by decide)).trans (hk.mem (by decide)),
    (ht.keeps.only.queues (by decide)).trans (hk.queues (by decide))⟩

end

/-- No instance of the slot is halted on any die. -/
theorem sweepInsts_still {a : State} {j : Nat} (h : ∀ (x : RedDie) (i : InstId), (redOf a x).halted = some i → i.slot.toNat ≠ j) :
    sweepInsts j a = freeOwned (fun i => i.slot.toNat == j && !instLives a i) a := by
  have hsame : each (List.range 4) (fun x b => if (redOf b x).halted.any (fun i => i.slot.toNat == j && !instLives a i) then unhalt x b else b) a = a := by
    refine each_induct (P := fun b => b = a) (fun x hx b hb => ?_) rfl
    rw [hb]
    refine if_neg fun hany => ?_
    cases hi : (redOf a x).halted with
    | none =>
      rw [hi] at hany
      cases hany
    | some i =>
      rw [hi, Option.any_some, Bool.and_eq_true_iff, beq_iff_eq] at hany
      exact h ⟨x, List.mem_range.1 hx⟩ i hi hany.1
  exact congrArg (freeOwned _) hsame

/-- A context below the root keeps a step failed, without its partials; no instance of its slot is halted (R202). -/
theorem failStep_below {a : State} {j : Nat} {num : StepNo} (hc : ctxOf a j = some c) (ho : OneOpen c y num) (hroot : c.spec.isRoot = false) (hf : y.failed = none)
    {status : Nat} (hstatus : isTrap status = false) (detail : Detail) (hstill : ∀ (x : RedDie) (i : InstId), (redOf a x).halted = some i → i.slot.toNat ≠ j) :
    ctxOf (failStep j num status detail a) j = some { c with steps := [{ y with failed := some (BitVec.ofNat 8 status, detail), chunks := [] }] } ∧
      (failStep j num status detail a).red = a.red := by
  have hfail : failStep j num status detail a = ctrlUp c kFail status num.toNat y.done.length (bytesBE 16 detail.toNat)
      (sweepInsts j (modCtx j (modStep num fun t => { t with failed := some (BitVec.ofNat 8 status, detail), chunks := [] }) a)) := by
    simp only [failStep, hc, Option.bind_some, ho.stepOf, Option.map_some, hroot, hf, hstatus, Option.isSome_none, Bool.false_eq_true, if_false, iff_false]
  have hfailed := ctxOf_modOpen hc ho fun t => { t with failed := some (BitVec.ofNat 8 status, detail), chunks := [] }
  have hred : (modCtx j (modStep num fun t => { t with failed := some (BitVec.ofNat 8 status, detail), chunks := [] }) a).red = a.red := modCtx_red ..
  rw [hfail]
  generalize modCtx j (modStep num fun t => { t with failed := some (BitVec.ofNat 8 status, detail), chunks := [] }) a = b at hfailed hred
  rw [sweepInsts_still fun x i hi => hstill x i ((congrArg RedSt.halted (redOf_congr hred x)).symm.trans hi)]
  have hk (u : InstId → Bool) (v : List Byte) := (ctrlUp_keeps (d := true) (L := 0xcb1081) c kFail status num.toNat y.done.length v (freeOwned_keeps u (.refl _ _ b) rfl) rfl).only
  exact ⟨(ctxOf_congr ((hk _ _).ctxs (by decide)) j).trans hfailed, ((hk _ _).red (by decide)).trans hred⟩

section
variable (hal : alive s = true) (hc : ctxOf s k.toNat = some c) (hns : ¬ HaltedAt s k c) (ho : OneOpen c y y.num) (hf : y.failed = none)
include hal hc hns ho hf

/-- The root ends the step. -/
theorem stepTimerExpiry_root (hg : NoneGranted y) (hroot : c.spec.isRoot = true) (hop : c.spec.op ≠ 6) (hst : c.st = .run) (hr : c.ready = none) (hdel : c.deleting = false) :
    ∃ t d, exec (.stepTimerExpiry k) s = .next t ∧ t.clock = max s.clock (timerEnd c y) ∧ ctxOf t k.toNat = some d ∧ ClosedAs c y stStraggler d ∧
      (redOf t c.die).cnt = bump (bump (redOf s c.die).cnt 0x058 1) 0x054 1 ∧ t.mem = s.mem ∧ t.queues = s.queues := by
  obtain ⟨detail, hexec⟩ := exec_stepTimerExpiry hal hc hns ho hf
  have hca : ctxOf (stragglerNoted c y (clockTo (timerEnd c y) s)) k.toNat = some c := (ctxOf_congr ((keeps_stragglerNoted ..).only.ctxs (by decide)) _).trans hc
  obtain ⟨d, hd, hclosed, hcnt⟩ := endStep_over hca ho hst hr hdel hg stStraggler detail
  obtain ⟨hclock, hmem, hq⟩ := atTimerEnd (atSlot_endStep k.toNat y.num stStraggler detail none (stragglerNoted c y (clockTo (timerEnd c y) s)))
  rw [failStep_root hca ho hroot hop] at hexec
  rw [cnt_stragglerNoted] at hcnt
  exact ⟨_, d, hexec, hclock, hd, hclosed, hcnt, hmem, hq⟩

/-- Another context discards its partials and keeps the step failed. -/
theorem stepTimerExpiry_below (hroot : c.spec.isRoot = false) (hstill : ∀ (x : RedDie) (i : InstId), (redOf s x).halted = some i → i.slot ≠ k) :
    ∃ t e, exec (.stepTimerExpiry k) s = .next t ∧ t.clock = max s.clock (timerEnd c y) ∧
      ctxOf t k.toNat = some { c with steps := [{ y with failed := some (BitVec.ofNat 8 stStraggler, e), chunks := [] }] } ∧
      (redOf t c.die).cnt = bump (redOf s c.die).cnt 0x058 1 ∧ t.mem = s.mem ∧ t.queues = s.queues := by
  obtain ⟨detail, hexec⟩ := exec_stepTimerExpiry hal hc hns ho hf
  have hca : ctxOf (stragglerNoted c y (clockTo (timerEnd c y) s)) k.toNat = some c := (ctxOf_congr ((keeps_stragglerNoted ..).only.ctxs (by decide)) _).trans hc
  obtain ⟨hclock, hmem, hq⟩ := atTimerEnd (atSlot_failStep k.toNat y.num stStraggler detail (stragglerNoted c y (clockTo (timerEnd c y) s)))
  have hhalted (x : RedDie) (i : InstId) (hi : (redOf (stragglerNoted c y (clockTo (timerEnd c y) s)) x).halted = some i) : i.slot.toNat ≠ k.toNat := fun e =>
    hstill x i ((halted_stragglerNoted c y (clockTo (timerEnd c y) s) x).symm.trans hi) (BitVec.eq_of_toNat_eq e)
  obtain ⟨hd, hred⟩ := failStep_below hca ho hroot hf (status := stStraggler) rfl detail hhalted
  exact ⟨_, detail, hexec, hclock, hd, (congrArg RedSt.cnt (redOf_congr hred _)).trans (cnt_stragglerNoted ..), hmem, hq⟩

end

end

/-! ## The statement -/

/-- Settles O54: a STEP_END by its status, a STOP by the step that it names, a FAIL at the root and below it, and the timer at the root and below it. -/
theorem stepClosing : Obligations.StepClosing := by
  unfold Obligations.StepClosing
  refine ⟨fun s x pid p k c hfront hpt hslot hctx hok hpid hdel => ?_, fun s k c hal hc hdel => ?_⟩
  · have h : CtrlAt s x pid p k c := ⟨hfront, hpt, hslot, hctx⟩
    refine ⟨fun hkind hup y hst hr hsteps hnum hopen hroot => ?_, fun hkind hroot hst => ?_, fun hkind hi => ?_⟩
    · refine ⟨h.stepEnd_badStep hok hpid hkind hup, fun hstatus => ?_⟩
      obtain ⟨t, d, hex, htaken, hd, hcnt, hover, hgo⟩ := h.stepEnd_closes hok hpid hkind hup ⟨hsteps, hnum, hopen⟩ hst hr hdel hroot hstatus
      exact ⟨t, d, hex, htaken, hd, hcnt, fun hpend => hover hpend.2, hgo⟩
    · refine ⟨fun r hr hnum hready ho => ?_, fun y hrun hr hsteps hnum hopen => ?_, fun ho hr => ⟨fun hl => ?_, fun hl => ?_⟩⟩
      · exact h.stop_books hok hkind hroot hst hpid (stopStep_cancels h.eaten hr hnum hready ho hdel)
      · have ho : OneOpen c y (pktStep p) := ⟨hsteps, hnum, hopen⟩
        refine ⟨fun hres => ?_, fun hres => ?_⟩
        · obtain ⟨d, hd, hclosed, hcnt⟩ := stopStep_aborts (n := 3) h.eaten ho hr hrun hdel hres
          rw [cnt_eatFront] at hcnt
          obtain ⟨t, hex, htaken, ht⟩ := h.stop_books hok hkind hroot hst hpid (Q := fun t => ctxOf t k = some d ∧ (redOf t c.die).cnt = bump (redOf s c.die).cnt 0x054 1) ⟨hd, hcnt⟩
          exact ⟨t, d, hex, htaken, ht.1, hclosed, ht.2⟩
        · refine h.stop_books hok hkind hroot hst hpid ?_
          rw [stopStep_holds h.eaten ho hr hres, ctxOf_modCtx_same, h.eaten, Option.map_some]
      · obtain ⟨z, hz⟩ := hl
        refine h.stop_books hok hkind hroot hst hpid ?_
        rw [stopStep_holds_closed (num := pktStep p) h.eaten ho hr hz, ctxOf_modCtx_same, h.eaten, Option.map_some]
      · refine h.stop_books hok hkind hroot hst hpid ?_
        rw [stopStep_unknown (num := pktStep p) h.eaten ho hr hl, h.eaten]
    · exact ⟨h.fail_passes hok hpid hkind hi, fun y hroot hop hst hr hsteps hnum hopen hpend =>
        h.fail_ends hok hpid hkind hi ⟨hsteps, hnum, hopen⟩ hroot hop hst hr hdel hpend.2⟩
  · exact ⟨stepTimerExpiry_nothing hc, fun y hns hsteps hopen hpend =>
      ⟨fun hroot hop hst hr => stepTimerExpiry_root hal hc hns ⟨hsteps, rfl, hopen⟩ hpend.1 hpend.2 hroot hop hst hr hdel,
       fun hroot hstill => stepTimerExpiry_below hal hc hns ⟨hsteps, rfl, hopen⟩ hpend.1 hroot hstill⟩⟩

end Sys2Proof.Machine
end

section
/-! SUPPORT. A step opens (R195, R197, R298): the context that has no step yet, and the LIMIT sent for the new one. -/

namespace Sys2Proof.Machine

/-- y is a step newly opened in t, at the instant openAt: nothing has come of it yet (R195, R197). -/
def FreshStep (s t : State) (c : Ctx) (num : StepNo) (n : Nat) (scs : List Word) (openAt : BitVec 80) (y : Step) : Prop :=
  y.num = num ∧ y.n = n ∧ y.scalars = scs ∧ y.done = [] ∧ y.results = 0 ∧ y.chunks = [] ∧ y.failed = none ∧ y.closed = false ∧ y.timerAt = s.clock ∧ y.openAt = openAt ∧
    (c.spec.op = 0 → c.spec.children ≠ [] → y.limSent = min n c.spec.window) ∧ t.mem = s.mem

section
variable {s : State} {k : Nat} {c : Ctx} {y : Step} {num : StepNo}

/-- Where children have still to send its first chunk, no chunk of a step has been emitted (R197). -/
theorem leading_zero (hd : y.done = []) (he : ∀ i, (expects c y.n i).isEmpty = false) : leading c y = 0 := by
  have hfirst : chunkDone c y 0 = false := by simp only [chunkDone, hd, he, List.not_mem_nil, decide_false, Bool.or_self]
  unfold leading
  cases y.n with
  | zero => rfl
  | succ n => exact if_neg fun h => Bool.false_ne_true (hfirst.symm.trans h.2)

/-- LIMIT of the only open step of a context, before any chunk has been emitted. -/
theorem limitOf_fresh (ho : OneOpen c y num) (hd : y.done = []) (hop : c.spec.op = 0) (hch : c.spec.children ≠ []) : limitOf c y = min y.n c.spec.window := by
  have he (i : Nat) : (expects c y.n i).isEmpty = false := by
    rw [expects_allreduce hop, List.isEmpty_eq_false_iff, ne_eq, List.range_eq_nil, List.length_eq_zero_iff]
    exact hch
  simp only [limitOf, ho.openSteps, if_true, leading_zero hd he, Nat.zero_add]

/-- As a step opens, its children learn the LIMIT. -/
theorem ctxOf_sendWindows_one (hc : ctxOf s k = some c) (ho : OneOpen c y num) (hf : y.failed = none) :
    ctxOf (sendWindows k true s) k = some { c with steps := [{ y with limSent := limitOf c y }] } := by
  have hn : OneOpen c y y.num := ⟨ho.steps, rfl, ho.isOpen⟩
  have hsent := ctxOf_modOpen hc hn fun t => { t with limSent := limitOf c y }
  unfold sendWindows
  rw [hc]
  dsimp only
  rw [ho.openSteps, each_cons, each_nil]
  rw [if_pos (by simp [hf])]
  exact (ctxOf_congr ((ctrlDown_keeps (d := true) (L := 0xcb0081) _ _ _ _ _ _ (.refl _ _ _) rfl).only.ctxs (by decide)) k).trans hsent

theorem atSlot_openStep (k : Nat) (num : StepNo) (n : Nat) (scs : List Word) (openAt : BitVec 80) (tell : Bool) (s : State) :
    AtSlot k s (openStep k num n scs openAt tell s) := by
  unfold openStep
  split
  · exact .refl k s
  · exact ((atSlot_modCtx ..).trans (AtSlot.iff (fun a => atSlot_ctrlDown ..) _)).trans (atSlot_sendWindows ..)

/-- A context in service with no step opens one. -/
theorem openStep_first (hc : ctxOf s k = some c) (hst : c.st = .idle ∨ c.st = .ready ∨ c.st = .run) (hsteps : c.steps = []) (num : StepNo) (n : Nat) (scs : List Word)
    (openAt : BitVec 80) : ∃ y, ctxOf (openStep k num n scs openAt true s) k = some { c with st := .run, steps := [y] } ∧
      FreshStep s (openStep k num n scs openAt true s) c num n scs openAt y := by
  have hopen : settleSt { c with steps := c.steps ++ [newStep s c num n scs openAt] } = { c with st := .run, steps := [newStep s c num n scs openAt] } := by
    rw [hsteps, List.nil_append]
    exact settleSt_inService hst
  have ho : OneOpen { c with st := .run, steps := [newStep s c num n scs openAt] } (newStep s c num n scs openAt) num := ⟨rfl, rfl, rfl⟩
  have hmod : ctxOf (modCtx k (fun c => settleSt { c with steps := c.steps ++ [newStep s c num n scs openAt] }) s) k = some { c with st := .run, steps := [newStep s c num n scs openAt] } := by
    rw [ctxOf_modCtx_same, hc, Option.map_some, hopen]
  have hcd := (ctrlDown_keeps (d := true) (L := 0xcb0081) c kStepOpen 0 num.toNat n []
    (.refl _ _ (modCtx k (fun c => settleSt { c with steps := c.steps ++ [newStep s c num n scs openAt] }) s)) rfl).only
  have htold := (ctxOf_congr (hcd.ctxs (by decide)) k).trans hmod
  have hstep : openStep k num n scs openAt true s = sendWindows k true (ctrlDown c kStepOpen 0 num.toNat n []
      (modCtx k (fun c => settleSt { c with steps := c.steps ++ [newStep s c num n scs openAt] }) s)) := by
    simp only [openStep, hc, iff_true]
  rw [← iff_true (ctrlDown c kStepOpen 0 num.toNat n [])] at hstep
  refine ⟨_, (congrArg (ctxOf · k) hstep).trans (ctxOf_sendWindows_one htold ho rfl), rfl, rfl, rfl, rfl, rfl, rfl, rfl, rfl, rfl, rfl, fun hop hch => ?_,
    (atSlot_openStep ..).keeps.only.mem (by decide)⟩
  exact limitOf_fresh ho rfl hop hch

/-- The READY step of a context that has no step opens. -/
theorem openReady_first {r : Ready} (hc : ctxOf s k = some c) (hr : c.ready = some r) (hroot : c.spec.isRoot = true) (hst : c.st = .ready) (hsteps : c.steps = [])
    (hdown : shardDown s c = false) (openAt : BitVec 80) : ∃ y, ctxOf (openReady k openAt s) k = some { c with ready := none, st := .run, steps := [y] } ∧
      FreshStep s (openReady k openAt s) c r.num r.n r.scalars openAt y := by
  have hmay : mayOpen s c = true := by
    simp only [mayOpen, hroot, hr, hst, hdown, openSteps, hsteps, List.filter_nil, List.length_nil, Option.isSome_some, Nat.zero_lt_succ, decide_true, Bool.not_false, Bool.and_self]
  have hopen : openReady k openAt s = openStep k r.num r.n r.scalars openAt true (modCtx k (fun c => { c with ready := none }) s) := by
    simp only [openReady, hc, hr, hmay, if_true]
  have hca : ctxOf (modCtx k (fun c => { c with ready := none }) s) k = some { c with ready := none } := by rw [ctxOf_modCtx_same, hc, Option.map_some]
  rw [hopen]
  exact openStep_first hca (.inr (.inl hst)) hsteps r.num r.n r.scalars openAt

end

end Sys2Proof.Machine
end

section
/-! STEP_START, the opening of steps, STEP_OPEN and WINDOW (R192 to R197, R205, R206, R211, R284, R287). -/

namespace Sys2Proof.Machine

/-! ## What a front packet taken off does not change -/

section
variable (x : RedDie) (pid : Nat) (s : State) (c : Ctx)

theorem storeOf_eatFront : storeOf (eatFront x pid s) = storeOf s := by
  have hlive : liveStore (eatFront x pid s) = liveStore s := rfl
  unfold storeOf
  rw [hlive]
  split
  · exact redOf_modRed_field RedSt.prog (u := fun r => { r with inbox := r.inbox.drop 1 }) (fun _ => rfl) x.val s _
  · rfl

theorem countOk_eatFront (n : Nat) : countOk (eatFront x pid s) c n = countOk s c n := by
  have hbar : hasBar (eatFront x pid s) c = hasBar s c := by rw [hasBar, progOf, storeOf_eatFront, hasBar, progOf]
  rw [countOk, hbar, countOk]

theorem shardLocked_eatFront : shardLocked (eatFront x pid s) c = shardLocked s c := by
  have hdie : shardDie (eatFront x pid s) c.spec = shardDie s c.spec := rfl
  unfold shardLocked
  rw [hdie]
  split
  · next e _ =>
    have hl := redOf_modRed_field RedSt.locks (u := fun r => { r with inbox := r.inbox.drop 1 }) (fun _ => rfl) x.val s e
    exact congrArg (fun l : List (Nat × Nat × Nat) => l.any _) hl
  · rfl

theorem shardDown_eatFront : shardDown (eatFront x pid s) c = shardDown s c := rfl

end

/-! ## STEP_START at the root -/

section
variable {s : State} {k : Nat} {c : Ctx} {h : HeldCtrl}

theorem acceptStart_refuses (hc : ctxOf s k = some c) (hbad : (∃ a, c.lastAcc = some a ∧ h.num ≠ a + 1) ∨ countOk s c h.n = false) :
    acceptStart k h s = answerLeader c stBadStep (ownDetail s) h.num s := by
  simp only [acceptStart, hc]
  refine if_pos ?_
  rcases hbad with ⟨a, ha, hne⟩ | hcount
  · simp only [ha, beq_false_of_ne hne, Bool.not_false, Bool.true_or]
  · simp only [hcount, Bool.not_false, Bool.or_true]

section
variable (hc : ctxOf s k = some c) (hnum : c.lastAcc = none ∨ c.lastAcc = some (h.num - 1)) (hcount : countOk s c h.n = true) (hr : c.ready = none)
include hc hnum hcount hr

/-- A STEP_START whose number and count are right, with no step READY. -/
theorem acceptStart_takes : acceptStart k h s =
    if c.stopHeld then ctrlDown c kStepEnd stCancelled h.num.toNat 0 (endMore 0 0) (modCtx k (fun c => { c with stopHeld := false, lastAcc := some h.num }) s)
    else modCtx k (fun c => settleSt { c with lastAcc := some h.num, ready := some { num := h.num, n := h.n, scalars := h.scalars, arrived := h.arrived, after := 0 } }) s := by
  have hok : (match c.lastAcc with | some a => h.num == a + 1 | none => true) = true := by
    rcases hnum with hn | hn
    · rw [hn]
    · rw [hn]
      exact beq_iff_eq.2 (by bv_omega)
  simp only [acceptStart, hc]
  rw [if_neg (by simp only [hcount, Bool.not_true, Bool.or_false, Bool.not_eq_true', Bool.not_eq_false]; exact hok)]
  simp only [hr, Option.isSome_none, Bool.false_and, iff_false, hc, Bool.false_eq_true, if_false]

theorem acceptStart_cancels (hstop : c.stopHeld = true) :
    AtSlot k s (acceptStart k h s) ∧ ctxOf (acceptStart k h s) k = some { c with stopHeld := false, lastAcc := some h.num } := by
  have hca : ctxOf (modCtx k (fun c => { c with stopHeld := false, lastAcc := some h.num }) s) k = some { c with stopHeld := false, lastAcc := some h.num } := by
    rw [ctxOf_modCtx_same, hc, Option.map_some]
  rw [acceptStart_takes hc hnum hcount hr, if_pos hstop]
  exact ⟨(atSlot_modCtx ..).trans (atSlot_ctrlDown ..),
    (ctxOf_congr ((ctrlDown_keeps (d := true) (L := 0xcb0081) _ _ _ _ _ _ (.refl _ _ _) rfl).only.ctxs (by decide)) k).trans hca⟩

/-- The step is READY, and the state follows from the open steps. -/
theorem acceptStart_readies (hstop : c.stopHeld = false) :
    acceptStart k h s = modCtx k (fun c => settleSt { c with lastAcc := some h.num, ready := some { num := h.num, n := h.n, scalars := h.scalars, arrived := h.arrived, after := 0 } }) s := by
  rw [acceptStart_takes hc hnum hcount hr, if_neg (by rw [hstop]; exact Bool.false_ne_true)]

end

end

section
variable {s : State} {x : RedDie} {pid k : Nat} {p : Pkt} {c : Ctx} (h : CtrlAt s x pid p k c) (hok : ctrlOk p.body = true) (hkind : be p.body 0 1 = kStepStart)
  (hroot : c.spec.isRoot = true)
include h hok hkind

theorem CtrlAt.exec_stepStart : exec (.stepStart x) s = .next (rootCtrl k (heldOf s p) (eatFront x pid s)) := congrArg Host.Outcome.next (h.onRootCtrl_kind hok hkind)

include hroot

omit hok in
/-- The state of the context decides (R206, R211, R284, R287). -/
theorem CtrlAt.rootCtrl_start : rootCtrl k (heldOf s p) (eatFront x pid s) =
    if c.st = .moving then modCtx k (fun c => { c with held := c.held ++ [heldOf s p] }) (eatFront x pid s)
    else match c.st with
      | .halt => answerLeader c c.haltStatus.toNat c.haltDetail (pktStep p) (eatFront x pid s)
      | .lost => answerLeader c stContextLost (ownDetail s) (pktStep p) (eatFront x pid s)
      | _ => if shardLocked s c || shardDown s c then modCtx k (fun c => { c with held := c.held ++ [heldOf s p] }) (eatFront x pid s)
        else acceptStart k (heldOf s p) (eatFront x pid s) := by
  have hstart : (heldOf s p).start = true := by
    rw [heldOf, hkind]
    rfl
  simp only [rootCtrl, h.eaten, hroot, hstart, Bool.not_true, Bool.false_eq_true, if_false, shardLocked_eatFront, shardDown_eatFront]
  rfl

/-- It is held: the context keeps it beside those that it holds. -/
theorem CtrlAt.stepStart_held (hhold : c.st = .moving ∨ (c.st ≠ .moving ∧ c.st ≠ .halt ∧ c.st ≠ .lost ∧ (shardLocked s c = true ∨ shardDown s c = true))) :
    ∃ t, exec (.stepStart x) s = .next t ∧ Taken x s t ∧ ctxOf t k = some { c with held := c.held ++ [heldOf s p] } ∧ pktOf t pid = none := by
  have hheld : rootCtrl k (heldOf s p) (eatFront x pid s) = modCtx k (fun c => { c with held := c.held ++ [heldOf s p] }) (eatFront x pid s) := by
    rw [h.rootCtrl_start hkind hroot]
    rcases hhold with hm | ⟨hm, hh, hl, hshard⟩
    · rw [if_pos hm]
    · have hcond : (shardLocked s c || shardDown s c) = true := Bool.or_eq_true_iff.2 hshard
      rw [if_neg hm]
      split
      · contradiction
      · contradiction
      · exact if_pos hcond
  rw [h.exec_stepStart hok hkind, hheld]
  refine ⟨_, rfl, (atSlot_modCtx k _ (eatFront x pid s)).taken, ?_, pktOf_setPkt_none _ _⟩
  rw [ctxOf_modCtx_same, h.eaten, Option.map_some]

omit hroot in
/-- The leader is answered and the context stays. -/
theorem CtrlAt.stepStart_answered {status : Nat} {detail : Detail} (hans : rootCtrl k (heldOf s p) (eatFront x pid s) = answerLeader c status detail (pktStep p) (eatFront x pid s)) :
    ∃ t, exec (.stepStart x) s = .next t ∧ Taken x s t ∧ ctxOf t k = some c := by
  rw [h.exec_stepStart hok hkind, hans]
  exact ⟨_, rfl, (atSlot_answerLeader k c _ status detail (pktStep p)).taken,
    (ctxOf_congr ((answerLeader_keeps (d := true) (L := 0xcb0081) _ _ _ _ (.refl _ _ _) rfl).only.ctxs (by decide)) k).trans h.eaten⟩

theorem CtrlAt.stepStart_outOfService (hst : c.st = .halt ∨ c.st = .lost) : ∃ t, exec (.stepStart x) s = .next t ∧ Taken x s t ∧ ctxOf t k = some c := by
  have hroute := h.rootCtrl_start hkind hroot
  rcases hst with hst | hst <;> rw [hst, if_neg (fun e => nomatch e)] at hroute <;> exact h.stepStart_answered hok hkind hroute

omit hok in
/-- In service, with the shards up and free, the root decides by number and count. -/
theorem CtrlAt.rootCtrl_accepts (hm : c.st ≠ .moving) (hh : c.st ≠ .halt) (hl : c.st ≠ .lost) (hlock : shardLocked s c = false) (hdown : shardDown s c = false) :
    rootCtrl k (heldOf s p) (eatFront x pid s) = acceptStart k (heldOf s p) (eatFront x pid s) := by
  rw [h.rootCtrl_start hkind hroot, if_neg hm]
  split
  · contradiction
  · contradiction
  · rw [hlock, hdown]
    rfl

end

/-- Two contexts that differ in their states alone. -/
theorem ctx_st_congr {c : Ctx} {a b : CtxSt} (h : a = b) : ({ c with st := a } : Ctx) = { c with st := b } := by rw [h]

/-! ## The rows -/

section
variable {s : State} {x : RedDie} {pid k : Nat} {p : Pkt} {c : Ctx} {y : Step} (h : CtrlAt s x pid p k c)
include h

section
variable (hok : ctrlOk p.body = true)
include hok

section
variable (hkind : be p.body 0 1 = kStepOpen) (hup : c.up = some (pktPos s p)) (htw : c.isTwin = false)
include hkind hup

theorem CtrlAt.exec_stepOpen {t : State} (ht : stepOpenAt k c p (eatFront x pid s) = t) : exec (.stepOpen x) s = .next t :=
  congrArg Host.Outcome.next (((h.onCtrl_inside hok hkind (.inr hup) _).trans (if_pos hup)).trans ht)

include htw

/-- STEP_OPEN opens a step at an idle context. -/
theorem CtrlAt.stepOpen_opens (hst : c.st = .idle) (hsteps : c.steps = []) (hn : 1 ≤ be p.body 4 4) :
    ∃ t y, exec (.stepOpen x) s = .next t ∧ Taken x s t ∧ ctxOf t k = some { c with st := .run, steps := [y] } ∧
      FreshStep s t c (pktStep p) (be p.body 4 4) [] (fabT s) y := by
  have hnone : openSteps c = [] := by rw [openSteps, hsteps]; rfl
  have hopen : stepOpenAt k c p (eatFront x pid s) = openStep k (pktStep p) (be p.body 4 4) [] (fabT s) true (eatFront x pid s) := by
    simp only [stepOpenAt, htw, Bool.false_and, iff_false, stepOf, hnone, List.find?_nil, hst, List.length_nil, Nat.zero_lt_succ, decide_true, hn, Bool.and_self, if_true]
    rfl
  obtain ⟨y, hy, hfresh⟩ := openStep_first h.eaten (.inl hst) hsteps (pktStep p) (be p.body 4 4) [] (fabT s)
  exact ⟨_, y, h.exec_stepOpen hok hkind hup hopen, (atSlot_openStep ..).taken, hy, hfresh⟩

/-- A step that a CHUNK has opened learns its n. -/
theorem CtrlAt.stepOpen_tells (ho : OneOpen c y (pktStep p)) :
    ∃ t, exec (.stepOpen x) s = .next t ∧ Taken x s t ∧ ctxOf t k = some { c with steps := [{ y with n := be p.body 4 4 }] } := by
  have htell : stepOpenAt k c p (eatFront x pid s) =
      sendMany c p.hdr p.body (childPoss c) (modCtx k (modStep (pktStep p) fun t => { t with n := be p.body 4 4 }) (eatFront x pid s)) := by
    simp only [stepOpenAt, htw, Bool.false_and, iff_false, ho.stepOf]
  exact ⟨_, h.exec_stepOpen hok hkind hup htell, ((atSlot_modCtx k _ (eatFront x pid s)).trans (atSlot_sendMany ..)).taken,
    (ctxOf_congr ((sendMany_keeps (d := true) (L := 0xcb0081) _ _ _ _ (.refl _ _ _) rfl).only.ctxs (by decide)) k).trans (ctxOf_modOpen h.eaten ho _)⟩

end

/-- WINDOW raises a granted LIMIT and never lowers it (log entry 34). -/
theorem CtrlAt.window_raises (hkind : be p.body 0 1 = kWindow) (hup : c.up = some (pktPos s p)) :
    ∃ t, exec (.window x) s = .next t ∧ t = { s with red := t.red, ctxs := t.ctxs, pkts := t.pkts } ∧ Taken x s t ∧ pktOf t pid = none ∧
      ctxOf t k = some { c with steps := c.steps.map fun y => if y.num = pktStep p ∧ y.closed = false then { y with upLimit := max y.upLimit (be p.body 4 4) } else y } := by
  have hex : exec (.window x) s = .next (windowAt k p (eatFront x pid s)) := congrArg Host.Outcome.next ((h.onCtrl_inside hok hkind (.inr hup) _).trans (if_pos hup))
  refine ⟨_, hex, rfl, (atSlot_modCtx k _ (eatFront x pid s)).taken, pktOf_setPkt_none _ _, ?_⟩
  rw [windowAt, ctxOf_modCtx_same, h.eaten, Option.map_some, modStep]
  simp only [Bool.not_eq_true]

end

omit h in
/-- A CTRL that is dropped and counted. -/
theorem dropped_eatFront (x : RedDie) (pid die ofs : Nat) (s : State) : Taken x s (dropAt die ofs (eatFront x pid s)) ∧ pktOf (dropAt die ofs (eatFront x pid s)) pid = none ∧
    (dropAt die ofs (eatFront x pid s)).ctxs = s.ctxs ∧ (redOf (dropAt die ofs (eatFront x pid s)) die).cnt = bump (redOf s die).cnt ofs 1 :=
  ⟨(inbox_dropAt ..).trans (taken_eatFront x pid s), pktOf_setPkt_none _ _, rfl, cnt_dropAt (cnt_eatFront x pid die s) ofs⟩

end

theorem rootStepOpen_opens {s : State} {q : Slot} {c : Ctx} {r : Ready} (hal : alive s = true) (hc : ctxOf s q.toNat = some c) (hp : isPaced c = false) (hr : c.ready = some r)
    (hroot : c.spec.isRoot = true) (hst : c.st = .ready) (hsteps : c.steps = []) (hdown : shardDown s c = false) :
    ∃ t y, exec (.rootStepOpen q) s = .next t ∧ ctxOf t q.toNat = some { c with ready := none, st := .run, steps := [y] } ∧
      FreshStep s t c r.num r.n r.scalars (fabT s) y := by
  have hex : exec (.rootStepOpen q) s = .next (openReady q.toNat (fabT s) s) := by
    simp only [exec, execRootStepOpen, hc, hal, hp, Bool.not_false, Bool.and_self, if_true]
  obtain ⟨y, hy, hfresh⟩ := openReady_first hc hr hroot hst hsteps hdown (fabT s)
  exact ⟨_, y, hex, hy, hfresh⟩

/-! ## The statement -/

/-- Settles O53: the READY step opens; then the CTRL at the front by its KIND, well formed or not, from inside the tree or from outside. -/
theorem stepOpening : Obligations.StepOpening := by
  unfold Obligations.StepOpening
  refine ⟨fun s q c r hal hc hp hr hroot hst hsteps hdown => rootStepOpen_opens hal hc hp hr hroot hst hsteps hdown,
    fun s x pid p k c hfront hpt hslot hctx => ?_⟩
  have h : CtrlAt s x pid p k c := ⟨hfront, hpt, hslot, hctx⟩
  refine ⟨fun hok hkind hroot => ⟨fun hst => ?_, fun hm hh hl hshard => ?_, fun hst => h.stepStart_outOfService hok hkind hroot hst, fun hm hh hl hlock hdown => ?_⟩,
    fun hok hkind hup => ⟨fun htw hst hsteps hr hn => h.stepOpen_opens hok hkind hup htw hst hsteps hn,
      fun y htw hsteps hnum hopen => h.stepOpen_tells hok hkind hup htw ⟨hsteps, hnum, hopen⟩⟩,
    fun hok hkind hup => h.window_raises hok hkind hup, fun hok => ?_, fun hok hi hup => ⟨fun hkind => ?_, fun hkind => ?_⟩⟩
  · have hheld := h.stepStart_held hok hkind hroot (.inl hst)
    rw [heldOf, hkind] at hheld
    exact hheld
  · have hheld := h.stepStart_held hok hkind hroot (.inr ⟨hm, hh, hl, hshard⟩)
    rw [heldOf, hkind] at hheld
    exact hheld
  · have haccept := h.rootCtrl_accepts hkind hroot hm hh hl hlock hdown
    refine ⟨fun hbad => ?_, fun hnum hcount hr => ⟨fun hstop => ?_, fun hstop hst => ?_⟩⟩
    · rw [← countOk_eatFront x pid s c] at hbad
      exact h.stepStart_answered hok hkind (haccept.trans (acceptStart_refuses h.eaten hbad))
    all_goals rw [← countOk_eatFront x pid s c] at hcount
    · obtain ⟨hat, hd⟩ := acceptStart_cancels (h := heldOf s p) h.eaten hnum hcount hr hstop
      rw [h.exec_stepStart hok hkind, haccept]
      exact ⟨_, rfl, hat.taken, hd⟩
    · rw [h.exec_stepStart hok hkind, haccept, acceptStart_readies (h := heldOf s p) h.eaten hnum hcount hr hstop]
      refine ⟨_, _, rfl, rfl, (atSlot_modCtx k _ (eatFront x pid s)).taken, pktOf_setPkt_none _ _, ?_, rfl⟩
      rw [ctxOf_modCtx_same, h.eaten, Option.map_some]
      refine congrArg some ((settleSt_inService ?_).trans (ctx_st_congr ?_))
      · exact hst.elim .inl fun e => .inr (.inr e)
      · exact ite_not (openSteps c = []) CtxSt.run CtxSt.ready
  · have hno := dropped_eatFront x pid c.die 0x044 s
    exact ⟨_, congrArg Host.Outcome.next (h.onCtrl_malformed hok _ _), congrArg Host.Outcome.next (h.onCtrl_malformed hok _ _),
      congrArg Host.Outcome.next (h.onRootCtrl_malformed hok _), hno⟩
  · obtain ⟨htaken, -, hctxs, hcnt⟩ := dropped_eatFront x pid c.die 0x048 s
    exact ⟨_, congrArg Host.Outcome.next (h.onCtrl_outside hok hkind (.inl rfl) hi hup _), htaken, hctxs, hcnt⟩
  · obtain ⟨htaken, -, hctxs, hcnt⟩ := dropped_eatFront x pid c.die 0x048 s
    exact ⟨_, congrArg Host.Outcome.next (h.onCtrl_outside hok hkind (.inr rfl) hi hup _), htaken, hctxs, hcnt⟩

end Sys2Proof.Machine
end

section
/-! The program store and single-stepping (R245, R246, R260, R262). -/

namespace Sys2Proof.Machine

/-! ## Every die of a list changed -/

section
variable {s : State} {l : List Nat} {x : Nat}

theorem redOf_modRed_other {e : Nat} (u : RedSt → RedSt) (s : State) (h : x ≠ e) : redOf (modRed e u s) x = redOf s x := tget_tmod_ne _ _ _ h

/-- g does u to a die and changes nothing else. -/
structure OneDie (g : Nat → State → State) (u : RedSt → RedSt) : Prop where
  same : ∀ x s, redOf (g x s) x = u (redOf s x)
  other : ∀ {y x} s, y ≠ x → redOf (g x s) y = redOf s y
  rest : ∀ x s, g x s = { s with red := (g x s).red }

theorem oneDie_modRed (u : RedSt → RedSt) : OneDie (fun x => modRed x u) u := ⟨fun _ _ => redOf_modRed_same .., fun s h => redOf_modRed_other u s h, fun _ _ => rfl⟩

section
variable {g : Nat → State → State} {u : RedSt → RedSt} (hg : OneDie g u)
include hg

theorem OneDie.each_eq (l : List Nat) (s : State) : each l g s = { s with red := (each l g s).red } :=
  each_induct (P := fun a => a = { s with red := a.red }) (fun x _ a ha => by rw [hg.rest x a, ha]) rfl

/-- A die of the list is changed once, another not at all. -/
theorem OneDie.redOf_each (hl : l.Nodup) (s : State) (x : Nat) : redOf (each l g s) x = if x ∈ l then u (redOf s x) else redOf s x := by
  induction l generalizing s with
  | nil => rfl
  | cons e r ih =>
    obtain ⟨he, hr⟩ := List.nodup_cons.1 hl
    rw [each_cons, ih hr]
    by_cases hx : x = e
    · subst hx
      rw [if_neg he, hg.same, if_pos List.mem_cons_self]
    · rw [hg.other s hx]
      simp only [List.mem_cons, hx, false_or]

end

/-- The dies of the package that a test picks. -/
theorem mem_dies {f : Nat → Bool} (x : RedDie) : x.val ∈ (List.range 4).filter f ↔ f x = true := by
  simp only [List.mem_filter, List.mem_range, x.isLt, true_and]

theorem nodup_dies (f : Nat → Bool) : ((List.range 4).filter f).Nodup := List.nodup_range.filter f

end

/-! ## The store -/

/-- Die x is noted to have missed a write (R245). -/
def staleNoted (x : Nat) : State → State := modPwr fun p => { p with progStale := setBit p.progStale x true }

section
variable {s : State} {a : BitVec 14} {w : Word}

theorem bitOf_setBit_other (v : BitVec 4) {i j : Nat} (h : j ≠ i) : bitOf (setBit v i true) j = bitOf v j := bitOf_setFld_other v 1 (by omega)

/-- Marks once set stay. -/
theorem progStale_each {l : List Nat} {x : Nat} (hx : x < 4) (h : x ∈ l ∨ bitOf s.pwr.progStale x = true) : bitOf (each l staleNoted s).pwr.progStale x = true := by
  induction l generalizing s with
  | nil => exact h.resolve_left List.not_mem_nil
  | cons e r ih =>
    refine ih ?_
    by_cases he : x = e
    · subst he
      exact .inr (bitOf_setBit_true _ hx)
    · refine (h.imp_left fun hm => (List.mem_cons.1 hm).resolve_left he).imp_right fun hb => ?_
      exact (bitOf_setBit_other _ he).trans hb

theorem each_staleNoted_eq (l : List Nat) (s : State) : each l staleNoted s = { s with pwr := { s.pwr with progStale := (each l staleNoted s).pwr.progStale } } :=
  each_induct (P := fun b => b = { s with pwr := { s.pwr with progStale := b.pwr.progStale } }) (fun _ _ b hb => by rw [staleNoted, modPwr, hb]) rfl

section
variable (hup : mgmtUp s = true) (hlive : (List.range 4).any (redLive s) = true)
include hlive

theorem someDie : ((List.range 4).filter (redLive s)).isEmpty = false := by
  obtain ⟨x, hx, hl⟩ := List.any_eq_true.1 hlive
  exact List.isEmpty_eq_false_iff.2 (List.ne_nil_of_mem (List.mem_filter.2 ⟨hx, hl⟩))

include hup

/-- A write of a word that is not locked. -/
theorem programStoreWrite_writes (hlock : progLocked s a.toNat = false) : ∃ t, exec (.programStoreWrite a w) s = .next t ∧
    t = { s with red := t.red, cmd := { s.cmd with progCopy := t.cmd.progCopy }, pwr := { s.pwr with progStale := t.pwr.progStale } } ∧
    (∀ x : RedDie, redLive s x = true → tget 0 (redOf t x).prog a.toNat = w ∧ ∀ j, j ≠ a.toNat → tget 0 (redOf t x).prog j = tget 0 (redOf s x).prog j) ∧
    tget 0 t.cmd.progCopy a.toNat = w ∧
    ∀ x : RedDie, redEnabled s x = true → bitOf s.units.redLost x = false → redLive s x = false → bitOf t.pwr.progStale x = true ∧ redOf t x = redOf s x := by
  have hdies := oneDie_modRed fun r => { r with prog := tset 0 r.prog a.toNat w }
  have hred := hdies.redOf_each (nodup_dies (redLive s)) s
  have heq := hdies.each_eq ((List.range 4).filter (redLive s)) s
  have hwrite : progWrite a.toNat w s = modCmd (fun c => { c with progCopy := tset 0 c.progCopy a.toNat w })
      (each ((List.range 4).filter fun x => redEnabled s x && !bitOf s.units.redLost x && !redLive s x) staleNoted
        (each ((List.range 4).filter (redLive s)) (fun x => modRed x fun r => { r with prog := tset 0 r.prog a.toNat w }) s)) := by
    unfold progWrite
    dsimp only
    rw [someDie hlive, hlock, if_neg Bool.false_ne_true, if_neg Bool.false_ne_true, heq]
    rfl
  generalize each ((List.range 4).filter (redLive s)) (fun x => modRed x fun r => { r with prog := tset 0 r.prog a.toNat w }) s = b at hwrite hred heq
  have hmiss := each_staleNoted_eq ((List.range 4).filter fun x => redEnabled s x && !bitOf s.units.redLost x && !redLive s x) b
  have hstale (x : RedDie) (hx : (redEnabled s x && !bitOf s.units.redLost x && !redLive s x) = true) := progStale_each (s := b) x.isLt (.inl ((mem_dies (f := fun x => redEnabled s x && !bitOf s.units.redLost x && !redLive s x) x).2 hx))
  generalize each ((List.range 4).filter fun x => redEnabled s x && !bitOf s.units.redLost x && !redLive s x) staleNoted b = d at hwrite hmiss hstale
  have hex : exec (.programStoreWrite a w) s = .next (progWrite a.toNat w s) := congrArg Host.Outcome.next (if_pos hup)
  have hdie (x : Nat) : redOf (modCmd (fun c => { c with progCopy := tset 0 c.progCopy a.toNat w }) d) x = redOf b x := by
    rw [hmiss]
    rfl
  rw [hwrite] at hex
  refine ⟨_, hex, ?_, fun x hx => ?_, tget_tset_eq .., fun x hen hlost hoff => ⟨?_, ?_⟩⟩
  · rw [hmiss, heq]
    rfl
  · rw [hdie, hred, if_pos ((mem_dies x).2 hx)]
    exact ⟨tget_tset_eq .., fun j hj => tget_tset_ne _ _ _ hj⟩
  · exact hstale x (by rw [hen, hlost, hoff]; rfl)
  · rw [hdie, hred, if_neg fun hm => Bool.false_ne_true (hoff.symm.trans ((mem_dies x).1 hm))]

/-- A write of a locked word (R246). -/
theorem programStoreWrite_locked (hlock : progLocked s a.toNat = true) : ∃ t, exec (.programStoreWrite a w) s = .next t ∧ t = { s with red := t.red } ∧
    ∀ x : RedDie, redLive s x = true → (redOf t x).prog = (redOf s x).prog ∧ (redOf t x).psLocked = true ∧ (redOf t x).cnt = bump (redOf s x).cnt 0x0D4 1 := by
  have hdies : OneDie (fun x b => redCnt x 0x0D4 1 (modRed x (fun r => { r with psLocked := true }) b)) fun r => { r with psLocked := true, cnt := bump r.cnt 0x0D4 1 } :=
    ⟨fun x b => (redOf_modRed_same ..).trans (congrArg (fun r : RedSt => { r with cnt := bump r.cnt 0x0D4 1 }) (redOf_modRed_same ..)),
      fun b h => (redOf_modRed_other _ _ h).trans (redOf_modRed_other _ _ h), fun _ _ => rfl⟩
  have hwrite : progWrite a.toNat w s = each ((List.range 4).filter (redLive s)) (fun x b => redCnt x 0x0D4 1 (modRed x (fun r => { r with psLocked := true }) b)) s := by
    unfold progWrite
    dsimp only
    rw [someDie hlive, hlock, if_neg Bool.false_ne_true, if_pos rfl]
  have hex : exec (.programStoreWrite a w) s = .next (progWrite a.toNat w s) := congrArg Host.Outcome.next (if_pos hup)
  rw [hwrite] at hex
  refine ⟨_, hex, hdies.each_eq _ s, fun x hx => ?_⟩
  rw [hdies.redOf_each (nodup_dies _), if_pos ((mem_dies x).2 hx)]
  exact ⟨rfl, rfl, rfl⟩

end

end

/-! ## PSTEP_CTL -/

section
variable {s : State} {x : RedDie}

theorem redOf_unhalt (x : Nat) (s : State) : redOf (unhalt x s) x = { redOf s x with halted := none } := by
  unfold unhalt
  dsimp only
  split
  · next hn => rw [← hn]
  · exact redOf_modRed_same x (fun r => { r with halted := none }) s

theorem redOf_unhalt_other {x y : Nat} (h : y ≠ x) (s : State) : redOf (unhalt x s) y = redOf s y := by
  unfold unhalt
  dsimp only
  split
  · rfl
  · exact redOf_modRed_other (fun r => { r with halted := none }) s h

theorem unhalt_eq (x : Nat) (s : State) : unhalt x s = { s with red := (unhalt x s).red, ctxs := (unhalt x s).ctxs } :=
  (unhalt_keeps (d := true) x (.refl _ 0x6000000 s) rfl).eq

theorem ctxs_unhalt {x : Nat} (h : (redOf s x).halted = none) : (unhalt x s).ctxs = s.ctxs := by
  simp only [unhalt, h]

/-- The time that a step's timer stood under the halt is added to it (R260). -/
theorem ctxOf_unhalt_halted {x : Nat} {i : InstId} {c : Ctx} (h : (redOf s x).halted = some i) (hc : ctxOf s i.slot.toNat = some c) :
    ctxOf (unhalt x s) i.slot.toNat = some { c with steps := c.steps.map fun y => { y with timerAt := y.timerAt + (s.clock - max (redOf s x).haltedAt y.timerAt) } } := by
  simp only [unhalt, h]
  rw [ctxOf_modCtx_same]
  exact congrArg (Option.map _) hc

theorem toNat_setWidth18 (v : Word) : (v.setWidth 18).toNat = fld v 0 18 := by
  simp only [fld, BitVec.extractLsb'_toNat, BitVec.toNat_setWidth, Nat.shiftRight_zero]

section
variable (hup : mgmtUp s = true) (hlive : redLive s x = true) {v : Word}
include hup hlive

theorem exec_pstepEnWrite : exec (.pstepEnWrite x v) s = .next (pstepPut x v s) := by
  simp only [exec, execPstepEnWrite, hup, hlive, Bool.not_true, Bool.false_eq_true, if_false, if_true]

/-- A write that keeps EN and SLOT (R260, R262). -/
theorem pstepEnWrite_stays (h : bitOf v 31 = true ∧ (redOf s x).pstepSlot.toNat = fld v 0 18) :
    exec (.pstepEnWrite x v) s = .next (modRed x (fun r => { r with pstepEn := bitOf v 31, pstepSlot := v.setWidth 18 }) s) := by
  obtain ⟨hen, hslot⟩ := h
  have hsame : (redOf s x).pstepSlot = v.setWidth 18 := BitVec.eq_of_toNat_eq (hslot.trans (toNat_setWidth18 v).symm)
  rw [exec_pstepEnWrite hup hlive, pstepPut, hen, hsame, beq_self_eq_true]
  rfl

/-- Any other ends the halt. -/
theorem pstepEnWrite_unhalts (h : ¬ (bitOf v 31 = true ∧ (redOf s x).pstepSlot.toNat = fld v 0 18)) :
    exec (.pstepEnWrite x v) s = .next (modRed x (fun r => { r with pstepEn := bitOf v 31, pstepSlot := v.setWidth 18 }) (unhalt x s)) := by
  have hcond : (bitOf v 31 && (redOf s x).pstepSlot == v.setWidth 18) = false := by
    refine Bool.eq_false_iff.2 fun hb => h ?_
    obtain ⟨hen, hslot⟩ := Bool.and_eq_true_iff.1 hb
    exact ⟨hen, (congrArg BitVec.toNat (eq_of_beq hslot)).trans (toNat_setWidth18 v)⟩
  rw [exec_pstepEnWrite hup hlive, pstepPut, hcond]
  rfl

end

/-- What a write of PSTEP_CTL does to the die and to a context halted there. -/
theorem pstepEnWrite_effect (hup : mgmtUp s = true) (hlive : redLive s x = true) (v : Word) :
    ∃ t, exec (.pstepEnWrite x v) s = .next t ∧ t = { s with red := t.red, ctxs := t.ctxs } ∧ ((redOf s x).halted = none → t.ctxs = s.ctxs) ∧
      (∀ (i : InstId) (c : Ctx), (redOf s x).halted = some i → ctxOf s i.slot.toNat = some c → ctxOf t i.slot.toNat = some (if bitOf v 31 = true ∧ (redOf s x).pstepSlot.toNat = fld v 0 18 then c else
        { c with steps := c.steps.map fun y => { y with timerAt := y.timerAt + (s.clock - max (redOf s x).haltedAt y.timerAt) } })) ∧ (redOf t x).pstepEn = bitOf v 31 ∧ (redOf t x).pstepSlot.toNat = fld v 0 18 ∧
      (redOf t x).halted = (if bitOf v 31 = true ∧ (redOf s x).pstepSlot.toNat = fld v 0 18 then (redOf s x).halted else none) ∧ ∀ y, y ≠ x.val → redOf t y = redOf s y := by
  have hslot : (v.setWidth 18).toNat = fld v 0 18 := toNat_setWidth18 v
  by_cases hstay : bitOf v 31 = true ∧ (redOf s x).pstepSlot.toNat = fld v 0 18
  · refine ⟨_, pstepEnWrite_stays hup hlive hstay, rfl, fun _ => rfl, fun i c hi hc => ?_, ?_, ?_, ?_, fun y hy => redOf_modRed_other _ _ hy⟩
    · rw [if_pos hstay]
      exact hc
    · rw [redOf_modRed_same]
    · rw [redOf_modRed_same]
      exact hslot
    · rw [redOf_modRed_same, if_pos hstay]
  · have hrest := unhalt_eq x.val s
    refine ⟨_, pstepEnWrite_unhalts hup hlive hstay, ?_, fun hn => ctxs_unhalt hn, fun i c hi hc => ?_, ?_, ?_, ?_, fun y hy => (redOf_modRed_other _ _ hy).trans (redOf_unhalt_other hy s)⟩
    · rw [modRed, hrest]
    · rw [if_neg hstay]
      exact ctxOf_unhalt_halted hi hc
    · rw [redOf_modRed_same]
    · rw [redOf_modRed_same]
      exact hslot
    · rw [redOf_modRed_same, redOf_unhalt, if_neg hstay]

/-! ## An instance changed -/

/-- Changing a chunk changes the step that holds it, and nothing that it is found by. -/
def chunkChanged (num : StepNo) (k : Nat) (f : Chunk → Chunk) (t : Step) : Step :=
  if t.num = num ∧ (chunkOf t k).isSome then setChunk k ((chunkOf t k).map f) t else t

section
variable (num : StepNo) (k : Nat) (f : Chunk → Chunk) (t : Step)

theorem num_chunkChanged : (chunkChanged num k f t).num = t.num := by
  unfold chunkChanged
  split <;> rfl

theorem closed_chunkChanged : (chunkChanged num k f t).closed = t.closed := by
  unfold chunkChanged
  split <;> rfl

variable {num t} in
theorem chunkOf_chunkChanged (h : t.num = num) : chunkOf (chunkChanged num k f t) k = (chunkOf t k).map f := by
  unfold chunkChanged
  split
  · exact chunkOf_setChunk_same ..
  · next hn => rw [Option.not_isSome_iff_eq_none.1 fun hs => hn ⟨h, hs⟩, Option.map_none]

theorem stepWith_modChunk (c : Ctx) : stepWith (modChunk num k f c) num k = (stepWith c num k).map (chunkChanged num k f) := by
  have hsteps : (modChunk num k f c).steps = c.steps.map (chunkChanged num k f) := rfl
  have hopen : (fun t : Step => !t.closed) ∘ chunkChanged num k f = fun t : Step => !t.closed := funext fun t => congrArg (!·) (closed_chunkChanged num k f t)
  have hnum : (fun t : Step => decide (t.num = num)) ∘ chunkChanged num k f = fun t : Step => decide (t.num = num) :=
    funext fun t => congrArg (fun n => decide (n = num)) (num_chunkChanged num k f t)
  have hfound : (fun t : Step => decide (t.num = num) && (chunkOf t k).isSome) ∘ chunkChanged num k f = fun t : Step => decide (t.num = num) && (chunkOf t k).isSome := by
    funext t
    by_cases h : t.num = num
    · simp only [Function.comp_apply, num_chunkChanged, chunkOf_chunkChanged k f h, Option.isSome_map]
    · simp only [Function.comp_apply, num_chunkChanged, h, decide_false, Bool.false_and]
  have hof : stepOf (modChunk num k f c) num = (stepOf c num).map (chunkChanged num k f) := by
    rw [stepOf, openSteps, hsteps, List.filter_map, List.find?_map, hopen, hnum]
    rfl
  unfold stepWith
  rw [hof, hsteps, List.find?_map, hfound]
  cases stepOf c num <;> rfl

end

/-- What an instance is after a change of it. -/
theorem findInst_modInst (i : InstId) (f : Inst → Inst) (s : State) :
    (findInst (modInst i f s) i).map (fun e => e.2.2.inst) = ((findInst s i).map fun e => e.2.2.inst).map f := by
  unfold findInst modInst
  rw [ctxOf_modCtx_same]
  cases ctxOf s i.slot.toNat with
  | none => rfl
  | some c =>
    simp only [Option.map_some, Option.bind_some, stepWith_modChunk]
    cases ht : stepWith c i.step i.chunk.toNat with
    | none => rfl
    | some t =>
      simp only [Option.map_some, Option.bind_some, chunkOf_chunkChanged _ _ (num_of_stepWith ht)]
      cases chunkOf t i.chunk.toNat <;> rfl

/-! ## GO, and NOP under single-stepping -/

theorem exec_pstepGo (hup : mgmtUp s = true) (hlive : redLive s x = true) : exec (.pstepGo x) s = .next (pstepGo x s) := by
  simp only [exec, execPstepGo, hup, hlive, Bool.not_true, Bool.false_eq_true, if_false, if_true]

theorem pstepGo_idle (h : (redOf s x).halted = none) : pstepGo x s = s := by
  simp only [pstepGo, h]

theorem pstepGo_runs {i : InstId} {h : Here} (hi : (redOf s x).halted = some i) (hh : hereOf s i = some h) : pstepGo x s = runWord i h [] s := by
  simp only [pstepGo, hi, hh]

theorem runWord_nop (i : InstId) {h : Here} (hop : wOp h.w = 0x00) (chk : Checks) (s : State) :
    runWord i h chk s = advance1 i h.addr (modInst i (fun n => { n with started := true }) s) := by
  simp only [runWord, hop]

/-- NOP: the instance goes on to the next word. -/
theorem findInst_nop {i : InstId} {h : Here} (hh : hereOf s i = some h) (hop : wOp h.w = 0x00) (chk : Checks) :
    (findInst (runWord i h chk s) i).map (fun e => e.2.2.inst) = some { h.x.inst with started := true, pc := h.addr + 1, waiting := false, atBar := false } := by
  have hin : (findInst (modInst i (fun n => { n with started := true }) s) i).map (fun e => e.2.2.inst) = some { h.x.inst with started := true } := by
    rw [findInst_modInst, findInst_of_hereOf hh]
    rfl
  rw [runWord_nop i hop, advance1, findInst_modInst, hin, Option.map_some]

/-- Stepping halts the first instance before its word (R260). -/
theorem nopInstruction_halts {i : InstId} {h : Here} (hh : hereOf s i = some h) (hop : wOp h.w = 0x00) (hst : stepped s i h = true) (hfirst : firstStepped h i = true)
    (hnone : (redOf s h.c.die).halted = none) : exec (.nopInstruction i) s = .next (modRed h.c.die (fun r => { r with halted := some i, haltedAt := s.clock }) s) := by
  have hex : exec (.nopInstruction i) s = .next (haltAt i h s) := by
    simp [exec, execNopInstruction, onWord, hh, hop, hst, opcNop]
  rw [hex]
  simp only [haltAt, hnone, hfirst, Option.isNone_none, Bool.and_self, if_true]

end

end Sys2Proof.Machine
end

section
/-! Twin writes, lost shards and the promotion of a twin (R281, R283, R284, R289). -/

namespace Sys2Proof.Machine

/-! ## A table filled from a list -/

section
variable {α β : Type} [DecidableEq α] {d : α} {key : β → Nat} {val : β → α}

theorem tget_foldl_tset_other {l : List β} {t : Tbl α} {j : Nat} (h : ∀ b ∈ l, j ≠ key b) : tget d (l.foldl (fun t b => tset d t (key b) (val b)) t) j = tget d t j := by
  induction l generalizing t with
  | nil => rfl
  | cons b r ih =>
    obtain ⟨hb, hr⟩ := List.forall_mem_cons.1 h
    exact (ih hr).trans (tget_tset_ne _ _ _ hb)

/-- Where no two entries share a key, each is found under its own. -/
theorem tget_foldl_tset_mem {l : List β} {t : Tbl α} (hn : (l.map key).Nodup) {b : β} (hb : b ∈ l) : tget d (l.foldl (fun t b => tset d t (key b) (val b)) t) (key b) = val b := by
  induction l generalizing t with
  | nil => exact absurd hb List.not_mem_nil
  | cons a r ih =>
    obtain ⟨ha, hr⟩ := List.nodup_cons.1 hn
    rcases List.mem_cons.1 hb with rfl | hb
    · exact (tget_foldl_tset_other fun e he hk => ha (List.mem_map.2 ⟨e, he, hk.symm⟩)).trans (tget_tset_eq ..)
    · exact ih hr hb

end

/-! ## Shard blocks written -/

theorem storeBlks_keeps_all (c : Ctx) (bs : List (Nat × ShardBlk)) (s : State) : Keeps true 0x30002040 s (storeBlks c bs s) := storeBlks_keeps c bs (.refl _ _ s) rfl

/-- The blocks stand in the shard; what else is counted and cleared is not there. -/
theorem shard_storeBlks (c : Ctx) (bs : List (Nat × ShardBlk)) (s : State) :
    (storeBlks c bs s).mem.shard = bs.foldl (fun t b => tset {} t (blkKey c c.die b.1) b.2) s.mem.shard := by
  have hrest : Keeps true 0x10002040 { s with mem := { s.mem with shard := bs.foldl (fun t b => tset {} t (blkKey c c.die b.1) b.2) s.mem.shard } } (storeBlks c bs s) := by
    unfold storeBlks
    exact modPwr_keeps _ (countBlks_keeps _ _ _ (each_keeps (fun _ _ h => cwWritten_keeps (L := 0x10002040) _ _ _ h rfl) (.refl _ _ _)) rfl) rfl
  exact congrArg MemStore.shard (hrest.only.mem (by decide))

/-! ## TWIN_WRITE -/

/-- The twin cannot take a write now. -/
def TwinGone (s : State) (c : Ctx) : Prop := c.st = .moving ∨ c.st = .lost ∨ c.die ≠ cpTwinDie c.spec.coppice ∨ shardDown s c = true

/-- The write is not of whole blocks of its chunk. -/
def TwinBad (c : Ctx) (p : Pkt) : Prop := p.body.length % 528 ≠ 0 ∨ ∃ b ∈ twinBlks p.body, b.blk.toNat ∉ chunkBlks c (BitVec.ofNat 48 (hStep p.hdr)) (hChunk p.hdr)

section
variable {s : State} {x : RedDie} {pid k : Nat} {p : Pkt} {c : Ctx}

theorem cnt_redCnt {t : State} {x : Nat} (h : (redOf t x).cnt = (redOf s x).cnt) (ofs n : Nat) : (redOf (redCnt x ofs n t) x).cnt = bump (redOf s x).cnt ofs n :=
  (congrArg RedSt.cnt (redOf_modRed_same ..)).trans (congrArg (fun b => bump b ofs n) h)

theorem twinGone_iff : (c.st == .moving || c.st == .lost || decide (c.die ≠ cpTwinDie c.spec.coppice) || shardDown s c) = true ↔ TwinGone s c := by
  simp only [TwinGone, Bool.or_eq_true, beq_iff_eq, decide_eq_true_eq, or_assoc]

theorem twinBad_iff : (decide (p.body.length % 528 ≠ 0) || (twinBlks p.body).any fun b => !(chunkBlks c (pktStep p) (hChunk p.hdr)).contains b.blk.toNat) = true ↔ TwinBad c p := by
  simp only [TwinBad, Bool.or_eq_true, decide_eq_true_eq, List.any_eq_true, Bool.not_eq_true', List.contains_eq_mem, decide_eq_false_iff_not]
  rfl

section
variable (hc : ctxOf s k = some c)
include hc

/-- Only dropped and counted. -/
theorem twinAt_gone (h : TwinGone s c) : twinAt k p s = redCnt c.die 0x0FC 1 s := by
  simp only [twinAt, hc]
  rw [if_pos (twinGone_iff.2 h)]

/-- Dropped, counted, and the twin STALE. -/
theorem twinAt_bad (hg : ¬ TwinGone s c) (hb : TwinBad c p) :
    twinAt k p s = logEvent 0x2043 3 (256 * c.die) (bytesLE 3 c.spec.group.toNat) (modCtx k (fun c => { c with twin := .stale }) (redCnt c.die 0x0FC 1 s)) := by
  simp only [twinAt, hc]
  rw [if_neg (mt twinGone_iff.1 hg), if_pos (twinBad_iff.2 hb)]

/-- Stored and counted. -/
theorem twinAt_good (hg : ¬ TwinGone s c) (hb : ¬ TwinBad c p) :
    twinAt k p s = redCnt c.die 0x0F8 1 (storeBlks c ((twinBlks p.body).map fun b => (b.blk.toNat, b)) s) := by
  simp only [twinAt, hc]
  rw [if_neg (mt twinGone_iff.1 hg), if_neg (mt twinBad_iff.1 hb)]

end

/-- A twin write of the slot k stands in front at x. -/
structure TwinWriteAt (s : State) (x : RedDie) (pid : Nat) (p : Pkt) (k : Nat) (c : Ctx) : Prop where
  front : inboxFront s x = some (pid, p)
  ptype : hPtype p.hdr = ptChunk
  fmt : hFmt p.hdr = 0xE
  slot : pktSlot s p = some k
  ctx : ctxOf s k = some c
  twin : c.isTwin = true
  up : c.up = some (pktPos s p)

section
variable (h : TwinWriteAt s x pid p k c)
include h

theorem TwinWriteAt.exec : exec (.twinWrite x) s = .next (twinAt k p (eatFront x pid s)) := by
  refine congrArg Host.Outcome.next ((onChunk_found h.front h.ptype h.slot h.ctx _ _).trans (if_pos ?_))
  rw [isTwinWrite, h.twin, h.up, h.fmt, beq_self_eq_true]
  rfl

theorem TwinWriteAt.eaten : ctxOf (eatFront x pid s) k = some c := (ctxOf_eatFront ..).trans h.ctx

theorem twinWrite_gone (hg : TwinGone s c) : ∃ t, Machine.exec (.twinWrite x) s = .next t ∧ t.mem = s.mem ∧ ctxOf t k = some c ∧ (redOf t c.die).cnt = bump (redOf s c.die).cnt 0x0FC 1 :=
  ⟨_, h.exec.trans (congrArg _ (twinAt_gone h.eaten hg)), rfl, h.eaten, cnt_redCnt (cnt_eatFront ..) _ _⟩

theorem twinWrite_bad (hg : ¬ TwinGone s c) (hb : TwinBad c p) :
    ∃ t, Machine.exec (.twinWrite x) s = .next t ∧ t.mem = s.mem ∧ ctxOf t k = some { c with twin := .stale } ∧ (redOf t c.die).cnt = bump (redOf s c.die).cnt 0x0FC 1 := by
  have hlog : Keeps true 0x2581 _ (logEvent 0x2043 3 (256 * c.die) (bytesLE 3 c.spec.group.toNat) (modCtx k (fun c => { c with twin := .stale }) (redCnt c.die 0x0FC 1 (eatFront x pid s)))) :=
    logEvent_keeps _ _ _ _ (.refl _ _ _) rfl
  refine ⟨_, h.exec.trans (congrArg _ (twinAt_bad h.eaten hg hb)), ?_, ?_, ?_⟩
  · rw [hlog.only.mem (by decide), modCtx_mem, redCnt, modRed_mem]
    rfl
  · rw [ctxOf_congr (hlog.only.ctxs (by decide)), ctxOf_modCtx_same]
    exact congrArg (Option.map _) h.eaten
  · rw [redOf_congr ((hlog.only.red (by decide)).trans (modCtx_red ..))]
    exact cnt_redCnt (cnt_eatFront x pid c.die s) _ _

theorem twinWrite_good (hg : ¬ TwinGone s c) (hb : ¬ TwinBad c p) (hn : ((twinBlks p.body).map ShardBlk.blk).Nodup) :
    ∃ t, Machine.exec (.twinWrite x) s = .next t ∧ t.ctxs = s.ctxs ∧
      (∀ b ∈ twinBlks p.body, tget {} t.mem.shard (c.die * 2 ^ 28 + cpBase c.spec.coppice + b.blk.toNat) = b) ∧
      (∀ j, (∀ b ∈ twinBlks p.body, j ≠ c.die * 2 ^ 28 + cpBase c.spec.coppice + b.blk.toNat) → tget {} t.mem.shard j = tget {} s.mem.shard j) ∧
      (redOf t c.die).cnt = bump (redOf s c.die).cnt 0x0F8 1 := by
  have hst := storeBlks_keeps_all c ((twinBlks p.body).map fun b => (b.blk.toNat, b)) (eatFront x pid s)
  have hshard := shard_storeBlks c ((twinBlks p.body).map fun b => (b.blk.toNat, b)) (eatFront x pid s)
  rw [List.foldl_map] at hshard
  have hkeys : ((twinBlks p.body).map fun b => blkKey c c.die b.blk.toNat).Nodup := by
    have hk := hn.map (f := fun v : BitVec 32 => blkKey c c.die v.toNat) fun a b hab => BitVec.eq_of_toNat_eq (Nat.add_left_cancel hab)
    rwa [List.map_map] at hk
  refine ⟨_, h.exec.trans (congrArg _ (twinAt_good h.eaten hg hb)), (hst.only.ctxs (by decide)).trans rfl, fun b hm => ?_, fun j hj => ?_, ?_⟩
  · exact (congrArg (tget {} · _) hshard).trans (tget_foldl_tset_mem (key := fun b : ShardBlk => blkKey c c.die b.blk.toNat) (val := id) hkeys hm)
  · exact (congrArg (tget {} · _) hshard).trans (tget_foldl_tset_other (key := fun b : ShardBlk => blkKey c c.die b.blk.toNat) (val := id) hj)
  · refine cnt_redCnt ?_ _ _
    rw [redOf_congr (hst.only.red (by decide)), cnt_eatFront]

end

end

/-! ## SHARD_LOST_REPORT -/

section
variable {s : State} {g : GroupId} {k : Nat} {c : Ctx}

theorem settleSt_quiet (hs : c.steps = []) (hr : c.ready = none) (h : c.st ≠ .ready) (h' : c.st ≠ .run) : settleSt c = c := by
  by_cases hi : c.st = .idle
  · have ho : openSteps c = [] := by rw [openSteps, hs, List.filter_nil]
    have hst : (if openSteps c ≠ [] then .run else if c.ready.isSome then .ready else .idle) = c.st := by
      rw [ho, hr, hi]
      rfl
    rw [settleSt_inService (.inl hi), hst]
  · exact settleSt_outOfService hi h h'

section
variable (hk : slotOf s g = some k) (hc : ctxOf s k = some c)
include hk hc

theorem exec_shardLostReport : exec (.shardLostReport g) s = .next (if (alive s && c.spec.isRoot) = true then markStale k s else s) := by
  simp only [exec, execShardLostReport, hk, hc]

omit hk in
theorem markStale_inactive (h : c.twin ≠ .active) : markStale k s = s := by
  simp only [markStale, hc, if_neg h]

omit hk in
/-- A context without steps: its twin is marked and nothing else of it changes. -/
theorem markStale_active (ht : c.twin = .active) (hs : c.steps = []) :
    ctxOf (markStale k s) k = some { c with twin := .stale } ∧ (∀ j, j ≠ k → ctxOf (markStale k s) j = ctxOf s j) ∧ (markStale k s).mem = s.mem := by
  simp only [markStale, hc, if_pos ht]
  generalize hb : modCtx k (fun c => { c with steps := c.steps.map fun t => { t with chunks := t.chunks.map fun e => (e.1, e.2.map fun k => { k with inst := { k.inst with twinLeft := [] } }) } })
    (modCtx k (fun c => { c with twin := .stale }) s) = b
  have hlog := (logEvent_keeps (d := true) (L := 0x2581) 0x2041 3 (256 * c.die) (bytesLE 3 c.spec.group.toNat) (.refl _ _ b) rfl).only
  have hctx := hlog.ctxs (by decide)
  have hmark : (ctxOf s k).map (fun c => { c with twin := .stale }) = some { c with twin := .stale } := congrArg (Option.map _) hc
  refine ⟨?_, fun j hj => ?_, ?_⟩
  · rw [ctxOf_congr hctx, ← hb, ctxOf_modCtx_same, ctxOf_modCtx_same, hmark, Option.map_some]
    simp only [hs, List.map_nil]
  · rw [ctxOf_congr hctx, ← hb, ctxOf_modCtx_other _ hj, ctxOf_modCtx_other _ hj]
  · rw [hlog.mem (by decide), ← hb, modCtx_mem, modCtx_mem]

/-- A twin that was active is STALE. -/
theorem shardLostReport_stale (hup : alive s = true) (hroot : c.spec.isRoot = true) (ht : c.twin = .active) (hs : c.steps = []) :
    ∃ t, exec (.shardLostReport g) s = .next t ∧ ctxOf t k = some { c with twin := .stale } ∧ (∀ j, j ≠ k → ctxOf t j = ctxOf s j) ∧ t.mem = s.mem := by
  have hex := exec_shardLostReport hk hc
  rw [hup, hroot, Bool.and_self, if_pos rfl] at hex
  exact ⟨_, hex, markStale_active hc ht hs⟩

theorem shardLostReport_ignored (h : c.spec.isRoot = false ∨ c.twin ≠ .active) : exec (.shardLostReport g) s = .next s := by
  rw [exec_shardLostReport hk hc]
  rcases h with h | h
  · rw [h, Bool.and_false, if_neg Bool.false_ne_true]
  · rw [markStale_inactive hc h, ite_self]

end

/-! ## GROUP_REROOT -/

/-- The promoted bytes name no twin. -/
theorem cpTwin_rerootBytes (w : BitVec 128) : cpTwin (rerootBytes w) = false := by
  rw [cpTwin, rerootBytes, bitOf_setFld_other _ _ (by decide), bitOf_setFld_other _ _ (by decide), bitOf, getLsbD_setFld]
  rfl

theorem length_insChild (x : ChildSpec) (l : List ChildSpec) : (insChild x l).length = l.length + 1 := by
  induction l with
  | nil => rfl
  | cons y r ih =>
    rw [insChild]
    split
    · rfl
    · exact congrArg (· + 1) ih

section
variable {height : Nat} (hk : slotOf s g = some k) (hc : ctxOf s k = some c) (hup : alive s = true) (hmgr : isMgr s = false) (hop : c.spec.op = 6)
  (htw : cpTwin c.spec.coppice = true) (hs : c.steps = []) (hr : c.ready = none) (hh : c.held = []) (hmov : c.st ≠ .moving) (hrdy : c.st ≠ .ready) (hrun : c.st ≠ .run)

section
include hk hc hup hmgr hop htw

theorem groupReroot_twin (hroot : c.spec.isRoot = false) (hist : c.isTwin = true) (hst : c.twin ≠ .stale) :
    exec (.groupReroot g height) s = .next (rerootNew k height s) := by
  have hmay : mayPromote s g = true := by simp [mayPromote, hk, hc, hroot, hst]
  simp [exec, execGroupReroot, hup, hmay, hmgr, hk, hc, hop, opCoppice, htw, hroot, hist]

theorem groupReroot_root (hroot : c.spec.isRoot = true) (hact : c.twin = .active) : exec (.groupReroot g height) s = .next (rerootOld k height s) := by
  have hmay : mayPromote s g = true := by simp [mayPromote, hk, hc, hroot, usableTwin, hact]
  simp [exec, execGroupReroot, hup, hmay, hmgr, hk, hc, hop, opCoppice, htw, hroot]

end

/-- The twin as root, the old root its child. -/
def rerootedTwin (c : Ctx) (height : Nat) : Ctx :=
  let own := c.spec.children.flatMap ChildSpec.ranks
  let ch : ChildSpec := { pos := cpTwinUp c.spec.coppice, isSwitch := true, id := 0, coord := c.spec.upCoord, ranks := (List.range c.spec.nMembers).filter fun r => !own.contains r }
  { c with spec := { c.spec with isRoot := true, upCoord := 0, upPos := 0, children := insChild ch c.spec.children, coppice := rerootBytes c.spec.coppice, height := height },
           up := none, isTwin := false, twin := .none, lastAcc := none, stopHeld := false }

/-- The old root as a child of its twin. -/
def rerootedRoot (c : Ctx) (height : Nat) : Ctx :=
  { c with spec := { c.spec with
             isRoot := false, upCoord := BitVec.ofNat 16 (cpTwinCoord c.spec.coppice), upPos := cpTwinUp c.spec.coppice
             children := c.spec.children.filter fun ch => some ch.pos ≠ twinPos c
             coppice := rerootBytes c.spec.coppice, height := height },
           up := twinPos c, twin := .promoted, held := [], ready := none }

include hc hs

theorem rerootNew_quiet : ctxOf (rerootNew k height s) k = some (rerootedTwin c height) ∧ rerootNew k height s = { s with ctxs := (rerootNew k height s).ctxs } := by
  have hopen : openSteps c = [] := by rw [openSteps, hs, List.filter_nil]
  simp only [rerootNew, hc, hopen, each_nil]
  exact ⟨(ctxOf_modCtx_same _).trans (congrArg (Option.map _) hc), rfl⟩

include hr hh hmov hrdy hrun in
theorem rerootOld_quiet : ctxOf (rerootOld k height s) k = some (rerootedRoot c height) ∧ rerootOld k height s = { s with ctxs := (rerootOld k height s).ctxs } := by
  have hopen : openSteps c = [] := by rw [openSteps, hs, List.filter_nil]
  have hquiet : settleSt (rerootedRoot c height) = rerootedRoot c height := settleSt_quiet hs rfl hrdy hrun
  simp only [rerootOld, hc, hopen, hs, hh, hr, List.map_nil, List.filter_nil, Option.toList_none, each_nil, if_neg hmov]
  refine ⟨(ctxOf_modCtx_same _).trans ?_, rfl⟩
  rw [hc]
  exact congrArg some hquiet

include hk hup hmgr hop htw

theorem groupReroot_promotes (hroot : c.spec.isRoot = false) (hist : c.isTwin = true) (hst : c.twin ≠ .stale) :
    ∃ t d, exec (.groupReroot g height) s = .next t ∧ t = { s with ctxs := t.ctxs } ∧ ctxOf t k = some d ∧ d.spec.isRoot = true ∧ d.up = none ∧
      d.isTwin = false ∧ cpTwin d.spec.coppice = false ∧ d.spec.group = c.spec.group ∧ d.lastAcc = none ∧ d.spec.children.length = c.spec.children.length + 1 ∧ d.st = c.st ∧ d.die = c.die := by
  obtain ⟨hctx, hrest⟩ := rerootNew_quiet (height := height) hc hs
  exact ⟨_, _, groupReroot_twin hk hc hup hmgr hop htw hroot hist hst, hrest, hctx, rfl, rfl, rfl, cpTwin_rerootBytes _, rfl, rfl, length_insChild .., rfl, rfl⟩

include hr hh hmov hrdy hrun in
theorem groupReroot_demotes (hroot : c.spec.isRoot = true) (hact : c.twin = .active) :
    ∃ t d, exec (.groupReroot g height) s = .next t ∧ t = { s with ctxs := t.ctxs } ∧ ctxOf t k = some d ∧ d.spec.isRoot = false ∧ d.up = twinPos c ∧
      d.spec.upCoord = BitVec.ofNat 16 (cpTwinCoord c.spec.coppice) ∧ d.twin = .promoted ∧ cpTwin d.spec.coppice = false ∧ (∀ y ∈ d.spec.children, some y.pos ≠ twinPos c) ∧ d.st = c.st ∧ d.die = c.die := by
  obtain ⟨hctx, hrest⟩ := rerootOld_quiet (height := height) hc hs hr hh hmov hrdy hrun
  exact ⟨_, _, groupReroot_root hk hc hup hmgr hop htw hroot hact, hrest, hctx, rfl, rfl, rfl, rfl, cpTwin_rerootBytes _,
    fun y hy => of_decide_eq_true (List.mem_filter.1 hy).2, rfl, rfl⟩

end

end

end Sys2Proof.Machine
end

section
/-! Pace instants, and a STEP_END held for its instant (R282, R298, R299). -/

namespace Sys2Proof.Machine

/-! ## Fabric time brought to an instant -/

section
variable {s : State} {t : Nat}

/-- A round of fabTo. -/
def fabRound (t : Nat) (s : State) : State := clockTo (s.clock + (t - (fabNs s).toNat)) s

theorem fabTo_rounds (h : s.tim.running = true) : fabTo t s = (List.range 8).foldl (fun s _ => fabRound t s) s := if_pos h

theorem foldl_fabRound_there (h : t ≤ (fabNs s).toNat) (l : List Nat) : l.foldl (fun s _ => fabRound t s) s = s := by
  have hround : fabRound t s = s := by simp only [fabRound, clockTo, Nat.sub_eq_zero_of_le h, Nat.add_zero, Nat.max_self]
  induction l with
  | nil => rfl
  | cons a r ih => rw [List.foldl_cons, hround, ih]

/-- The ns part, of the instant in 2^-16 ns. -/
theorem toNat_fabNs (s : State) : (fabNs s).toNat = (fabT s).toNat / 65536 := by
  rw [fabNs, BitVec.extractLsb'_toNat, Nat.shiftRight_eq_div_pow]
  exact Nat.mod_eq_of_lt (by omega)

section
variable (hrun : s.tim.running = true) (hslew : s.tim.slew = 0) (hbase : s.tim.baseAt ≤ s.clock)
include hrun hslew hbase

/-- Nothing being slewed, fabric time goes as the clock does. -/
theorem fabT_clock (n : Nat) : fabT { s with clock := s.clock + n } = fabT s + BitVec.ofNat 80 (n * 65536) := by
  have hzero (m : Nat) : slewed 0 m = 0 := by
    rw [slewed, if_pos (le_refl _)]
    exact min_eq_left (Int.natCast_nonneg _)
  have hsplit : (s.clock + n - s.tim.baseAt) * 65536 = (s.clock - s.tim.baseAt) * 65536 + n * 65536 := by omega
  have hnone : BitVec.ofInt 80 0 = 0#80 := rfl
  simp only [fabT, hrun, if_true, hslew, hzero, hnone, hsplit, BitVec.ofNat_add, BitVec.sub_zero, BitVec.add_assoc]

/-- One round reaches the instant. -/
theorem fabNs_fabRound (ht : t < 2 ^ 64) (h : (fabNs s).toNat < t) : (fabNs (fabRound t s)).toNat = t := by
  have hround : fabRound t s = { s with clock := s.clock + (t - (fabNs s).toNat) } := by rw [fabRound, clockTo, Nat.max_eq_right (Nat.le_add_right ..)]
  rw [toNat_fabNs] at h
  rw [hround, toNat_fabNs, fabT_clock hrun hslew hbase, BitVec.toNat_add, BitVec.toNat_ofNat, toNat_fabNs]
  omega

theorem fabTo_once (ht : t < 2 ^ 64) : fabTo t s = { s with clock := s.clock + (t - (fabNs s).toNat) } ∧ t ≤ (fabNs (fabTo t s)).toNat := by
  rcases Nat.lt_or_ge (fabNs s).toNat t with h | h
  · have hns := fabNs_fabRound hrun hslew hbase ht h
    have hto : fabTo t s = fabRound t s := by
      rw [fabTo_rounds hrun, List.range_succ_eq_map, List.foldl_cons, foldl_fabRound_there hns.ge]
    rw [hto]
    exact ⟨by rw [fabRound, clockTo, Nat.max_eq_right (Nat.le_add_right ..)], hns.ge⟩
  · rw [fabTo_there t s h, Nat.sub_eq_zero_of_le h]
    exact ⟨rfl, h⟩

end

end

/-! ## The instants of a paced group -/

section
variable {c : Ctx} {r : Ready} {s : State}

/-- The only pace instant of the period that begins at t. -/
theorem instantFrom_unique {t m : Nat} (hm : m % max 1 c.spec.paceNs = 0) (hle : t ≤ m) (hlt : m < t + max 1 c.spec.paceNs) : instantFrom c t = m := by
  obtain ⟨q, rfl⟩ := Nat.dvd_of_mod_eq_zero hm
  have hp : 1 ≤ max 1 c.spec.paceNs := Nat.le_max_left ..
  have hq : cdiv t (max 1 c.spec.paceNs) = q := by
    refine Nat.div_eq_of_lt_le ?_ ?_
    · rw [Nat.mul_comm]
      omega
    · rw [Nat.add_mul, Nat.mul_comm q]
      omega
  rw [instantFrom, hq, Nat.mul_comm]

theorem firstInstant_eq {first : Nat} (hm : first % max 1 c.spec.paceNs = 0) (hle : r.arrived.toNat + 1500 * 65536 ≤ 65536 * first)
    (hlt : 65536 * first < r.arrived.toNat + 1500 * 65536 + 65536 * max 1 c.spec.paceNs) : firstInstant c r = first := by
  have hdiv : cdiv r.arrived.toNat 65536 = (r.arrived.toNat + 65535) / 65536 := rfl
  exact instantFrom_unique hm (by omega) (by omega)

theorem openInstant_eq {first at_ : Nat} (hfirst : firstInstant c r = first) (hm : at_ % max 1 c.spec.paceNs = 0) (hge : first ≤ at_) (hafter : r.after ≤ at_)
    (hnow : (fabT s).toNat ≤ 65536 * at_)
    (hlt : at_ = first ∨ at_ < r.after + max 1 c.spec.paceNs ∨ 65536 * at_ < (fabT s).toNat + 65536 * max 1 c.spec.paceNs) : openInstant s c r = at_ := by
  have hdiv : cdiv (fabT s).toNat 65536 = ((fabT s).toNat + 65535) / 65536 := rfl
  rw [openInstant, hfirst]
  exact instantFrom_unique hm (by omega) (by omega)

/-! ## PACE_INSTANT -/

theorem shardDown_congr {b : State} (hu : b.units = s.units) (hg : b.gctl = s.gctl) (c : Ctx) : shardDown b c = shardDown s c := by
  have hdie : shardDie b c.spec = shardDie s c.spec := by
    unfold shardDie isTwinHere
    rw [hg]
  unfold shardDown
  rw [hdie, hu]

section
variable {k : Slot} (hc : ctxOf s k.toNat = some c) (hr : c.ready = some r)
include hc hr

theorem exec_paceInstant : exec (.paceInstant k) s = .next (if (!alive s || !isPaced c || !mayOpen s c || !s.tim.running) = true then s else
    openReady k.toNat (BitVec.ofNat 80 (65536 * openInstant s c r)) (iff (decide (firstInstant c r < r.after)) (redCnt c.die 0x120 1) (fabTo (openInstant s c r) s))) := by
  simp only [exec, execPaceInstant, hc, hr, Option.bind_some, Option.map_some]

theorem paceInstant_waits (h : s.tim.running = false ∨ 2 ≤ (openSteps c).length ∨ shardDown s c = true) : exec (.paceInstant k) s = .next s := by
  rw [exec_paceInstant hc hr, if_pos]
  rcases h with h | h | h
  · rw [h, Bool.not_false, Bool.or_true]
  · have hmay : mayOpen s c = false := by rw [mayOpen, decide_eq_false (Nat.not_lt.2 h), Bool.and_false, Bool.false_and, Bool.false_and]
    rw [hmay, Bool.not_false, Bool.or_true, Bool.true_or]
  · have hmay : mayOpen s c = false := by rw [mayOpen, h, Bool.not_true, Bool.and_false]
    rw [hmay, Bool.not_false, Bool.or_true, Bool.true_or]

/-- The READY step opens at its instant. -/
theorem paceInstant_opens {first at_ : Nat} (hup : alive s = true) (hpaced : isPaced c = true) (hroot : c.spec.isRoot = true) (hrun : s.tim.running = true)
    (hdown : shardDown s c = false) (hst : c.st = .ready) (hsteps : c.steps = []) (hfirst : firstInstant c r = first) (hopen : openInstant s c r = at_) (hat : at_ < 2 ^ 64) :
    ∃ t y, exec (.paceInstant k) s = .next t ∧ ctxOf t k.toNat = some { c with ready := none, st := .run, steps := [y] } ∧ y.num = r.num ∧ y.n = r.n ∧
      y.openAt.toNat = 65536 * at_ ∧ (redOf t c.die).cnt = (if first < r.after then bump (redOf s c.die).cnt 0x120 1 else (redOf s c.die).cnt) ∧
      (s.tim.slew = 0 → s.tim.baseAt ≤ s.clock → t.clock = s.clock + (at_ - (fabNs s).toNat)) := by
  have hmay : mayOpen s c = true := by
    simp only [mayOpen, hroot, hr, hst, hdown, openSteps, hsteps, List.filter_nil, List.length_nil, Option.isSome_some, Nat.zero_lt_succ, decide_true, Bool.not_false, Bool.and_self]
  have hex := exec_paceInstant hc hr
  rw [hup, hpaced, hmay, hrun, hfirst, hopen, if_neg (by decide)] at hex
  have hslip : Keeps true 0x2000000 (fabTo at_ s) (iff (decide (first < r.after)) (redCnt c.die 0x120 1) (fabTo at_ s)) :=
    iff_keeps _ (fun _ h => redCnt_keeps _ _ _ h rfl) (.refl _ _ _)
  have hcnt : (redOf (iff (decide (first < r.after)) (redCnt c.die 0x120 1) (fabTo at_ s)) c.die).cnt = if first < r.after then bump (redOf s c.die).cnt 0x120 1 else (redOf s c.die).cnt := by
    have hred : (redOf (fabTo at_ s) c.die).cnt = (redOf s c.die).cnt := congrArg RedSt.cnt (redOf_congr (fabTo_red ..) _)
    by_cases hf : first < r.after
    · rw [decide_eq_true hf, iff_true, if_pos hf]
      exact cnt_redCnt hred _ _
    · rw [decide_eq_false hf, iff_false, if_neg hf, hred]
  generalize iff (decide (first < r.after)) (redCnt c.die 0x120 1) (fabTo at_ s) = b at hex hslip hcnt
  have hcb : ctxOf b k.toNat = some c := (ctxOf_congr ((hslip.only.ctxs (by decide)).trans (fabTo_ctxs ..)) _).trans hc
  have hdb : shardDown b c = false := by
    have hunits : b.units = s.units := (hslip.only.units (by decide)).trans (fabTo_units ..)
    have hgctl : b.gctl = s.gctl := (hslip.only.gctl (by decide)).trans (fabTo_gctl ..)
    exact (shardDown_congr hunits hgctl c).trans hdown
  have hkeep := (openReady_keeps (d := true) (L := 0x4cb0081) k.toNat (BitVec.ofNat 80 (65536 * at_)) (.refl _ _ b) rfl).only
  obtain ⟨y, hy, hnum, hn, -, -, -, -, -, -, -, hopenAt, -⟩ := openReady_first hcb hr hroot hst hsteps hdb (BitVec.ofNat 80 (65536 * at_))
  refine ⟨_, y, hex, hy, hnum, hn, ?_, ?_, fun hslew hbase => ?_⟩
  · rw [hopenAt, BitVec.toNat_ofNat]
    omega
  · rw [redOf_congr (hkeep.red (by decide)), hcnt]
  · rw [hkeep.clock (by decide), hslip.only.clock (by decide), (fabTo_once hrun hslew hbase hat).1]

end

/-! ## STEP_END_RELEASE -/

section
variable {k : Slot} {y : Step} {due : BitVec 64} (hc : ctxOf s k.toNat = some c) (hs : c.steps = [y]) (he : y.endHeld = some (0, due)) (hcl : y.closed = true) (hch : y.chunks = [])
include hc hs he

theorem endHeld_found : ((ctxOf s k.toNat).bind fun c => (c.steps.find? fun t => t.num = y.num ∧ t.endHeld.isSome).map fun t => (c, t)) = some (c, y) := by
  simp [hc, hs, he]

include hcl hch in
/-- The STEP_END leaves, and with it the step. -/
theorem releaseEnd_last (hdel : c.deleting = false) : ctxOf (releaseEnd k.toNat y.num s) k.toNat = some { c with steps := [] } ∧
    (∀ j, j ≠ k.toNat → ctxOf (releaseEnd k.toNat y.num s) j = ctxOf s j) ∧ Keeps true 0x4cb0081 s (releaseEnd k.toNat y.num s) := by
  unfold releaseEnd
  rw [endHeld_found hc hs he]
  dsimp only
  have hsend := sendEnd_keeps (d := true) (L := 0xcb0081) c y ((y.endHeld.map fun e => e.1.toNat).getD 0) ((y.failed.map Prod.snd).getD 0) (.refl _ _ s) rfl
  have hsend' := sendEnd_keeps (d := true) (L := 0x4cb0081) c y ((y.endHeld.map fun e => e.1.toNat).getD 0) ((y.failed.map Prod.snd).getD 0) (.refl _ _ s) rfl
  generalize sendEnd c y ((y.endHeld.map fun e => e.1.toNat).getD 0) ((y.failed.map Prod.snd).getD 0) s = b at hsend hsend'
  have hctx (j : Nat) : ctxOf b j = ctxOf s j := ctxOf_congr (hsend.only.ctxs (by decide)) j
  have hover : (([y].map fun x => if x.num = y.num ∧ x.endHeld.isSome then { x with endHeld := none } else x).filter fun x => !stepOver x) = [] := by
    simp [he, stepOver, hcl, hch]
  have hone : ctxOf (modCtx k.toNat (fun c => { c with steps := (c.steps.map fun x => if x.num = y.num ∧ x.endHeld.isSome then { x with endHeld := none } else x).filter fun x => !stepOver x }) b) k.toNat =
      some { c with steps := [] } := by
    rw [ctxOf_modCtx_same, hctx, hc, Option.map_some, hs, hover]
  rw [freeIfDeleting_not hone hdel]
  exact ⟨hone, fun j hj => (ctxOf_modCtx_other _ hj).trans (hctx j), modCtx_keeps _ _ hsend' rfl⟩

variable (hup : alive s = true) (hmov : c.st ≠ .moving)
include hup hch hmov

theorem exec_stepEndRelease : exec (.stepEndRelease k y.num) s =
    .next (if (fabNs (fabTo due.toNat s)).toNat < due.toNat then fabTo due.toNat s else releaseEnd k.toNat y.num (fabTo due.toNat s)) := by
  have howes : owesTwin c y = false := by rw [owesTwin, hch, List.any_nil, Bool.and_false]
  have hnot : (c.st == .moving) = false := beq_false_of_ne hmov
  have hdue : ((y.endHeld.map fun e => e.2.toNat).getD 0) = due.toNat := by rw [he, Option.map_some, Option.getD_some]
  simp only [exec, execStepEndRelease, endHeld_found hc hs he, hup, hnot, howes, hdue, Bool.not_true, Bool.or_self, Bool.false_eq_true, if_false]

theorem stepEndRelease_waits (hrun : s.tim.running = false) (h : (fabNs s).toNat < due.toNat) : exec (.stepEndRelease k y.num) s = .next s := by
  rw [exec_stepEndRelease hc hs he hch hup hmov, fabTo_stopped _ _ hrun, if_pos h]

include hcl in
/-- At its instant, to which fabric time is brought where it runs. -/
theorem stepEndRelease_leaves (hdel : c.deleting = false) (h : due.toNat ≤ (fabNs s).toNat ∨ (s.tim.running = true ∧ s.tim.slew = 0 ∧ s.tim.baseAt ≤ s.clock)) :
    ∃ t, exec (.stepEndRelease k y.num) s = .next t ∧ ctxOf t k.toNat = some { c with steps := [] } ∧ (∀ j, j ≠ k.toNat → ctxOf t j = ctxOf s j) ∧ t.mem = s.mem ∧ t.red = s.red ∧
      (s.tim.running = true → t.clock = s.clock + (due.toNat - (fabNs s).toNat)) := by
  have hto : due.toNat ≤ (fabNs (fabTo due.toNat s)).toNat ∧ (fabTo due.toNat s).clock = s.clock + (due.toNat - (fabNs s).toNat) := by
    rcases h with h | ⟨hrun, hslew, hbase⟩
    · rw [fabTo_there _ _ h, Nat.sub_eq_zero_of_le h]
      exact ⟨h, rfl⟩
    · obtain ⟨heq, hns⟩ := fabTo_once hrun hslew hbase due.isLt
      exact ⟨hns, congrArg State.clock heq⟩
  obtain ⟨hns, hclock⟩ := hto
  have hctx (j : Nat) : ctxOf (fabTo due.toNat s) j = ctxOf s j := ctxOf_congr (fabTo_ctxs ..) j
  obtain ⟨hone, hother, hkeep⟩ := releaseEnd_last ((hctx _).trans hc) hs he hcl hch hdel
  have hex := exec_stepEndRelease hc hs he hch hup hmov
  rw [if_neg (Nat.not_lt.2 hns)] at hex
  exact ⟨_, hex, hone, fun j hj => (hother j hj).trans (hctx j), (hkeep.only.mem (by decide)).trans (fabTo_mem ..), (hkeep.only.red (by decide)).trans (fabTo_red ..),
    fun _ => (hkeep.only.clock (by decide)).trans hclock⟩

end

end

end Sys2Proof.Machine
end

section
/-! The program store, single-stepping, twins and pacing: O59. -/

namespace Sys2Proof.Machine

/-- Settles O59, word by word, die by die and context by context. -/
theorem storeTwinsAndPaces : Obligations.StoreTwinsAndPaces := by
  intro s hup hal
  refine ⟨fun a w hlive => ⟨programStoreWrite_writes hup hlive, programStoreWrite_locked hup hlive⟩, fun x hlive => ⟨fun v => ?_, fun hn => ?_, fun i h hi hh hop => ?_⟩,
    fun i h hh hop hst hfirst hn => nopInstruction_halts hh hop hst hfirst hn, fun x pid p k c hf ht hfmt hk hc htw hu => ?_, fun g k c hk hc => ⟨?_, ?_, fun height => ?_⟩,
    fun k c hc => ⟨fun r hp hr hroot => ⟨?_, ?_⟩, fun y due hs he hcl hch hmov hdel => ⟨?_, ?_⟩⟩⟩
  · exact pstepEnWrite_effect hup hlive v
  · exact (exec_pstepGo hup hlive).trans (congrArg _ (pstepGo_idle hn))
  · exact ⟨_, (exec_pstepGo hup hlive).trans (congrArg _ (pstepGo_runs hi hh)), by rw [runWord_nop i hop]; rfl, findInst_nop hh hop []⟩
  · have hat : TwinWriteAt s x pid p k c := ⟨hf, ht, hfmt, hk, hc, htw, hu⟩
    exact ⟨twinWrite_gone hat, twinWrite_bad hat, twinWrite_good hat⟩
  · exact shardLostReport_stale hk hc hal
  · exact shardLostReport_ignored hk hc
  · intro hmgr hop htw hs hr hh hmov hrdy hrun
    exact ⟨groupReroot_promotes hk hc hal hmgr hop htw hs, groupReroot_demotes hk hc hal hmgr hop htw hs hr hh hmov hrdy hrun⟩
  · exact paceInstant_waits hc hr
  · intro hrun hdown hst hsteps first at_ hfm ham hle hlt hge hafter hnow hper hat
    have hfirst := firstInstant_eq hfm hle hlt
    exact paceInstant_opens hc hr hal hp hroot hrun hdown hst hsteps hfirst (openInstant_eq hfirst ham hge hafter hnow hper) hat
  · exact stepEndRelease_waits hc hs he hch hal hmov
  · exact stepEndRelease_leaves hc hs he hcl hch hal hmov hdel

end Sys2Proof.Machine
end

section
/-! SUPPORT. A command given to an idle ring (R381 to R390): taken, run, and its completion posted at once. -/

namespace Sys2Proof.Machine

/-! ## An idle ring -/

/-- The parts of idleRing. -/
structure Idle (s : State) (r : Nat) : Prop where
  up : mgmtUp s = true
  running : s.cmd.halted = false
  free : procBusy s = false
  host : r < 8
  empty : (ringOf s r).cur = none
  bme : s.cmd.bme = true
  held : s.cmd.heldComps = []
  slot : slotThere (ringOf s r) = true
  unlocked : ∀ x ∈ List.range 4, (redOf s x).locks.all (fun l => decide (l.1 ≠ r)) = true

theorem idle_of_idleRing {s : State} {r : Nat} (h : idleRing s r = true) : Idle s r := by
  simp only [idleRing, Bool.and_eq_true, Bool.not_eq_true', decide_eq_true_eq, Option.isNone_iff_eq_none, List.isEmpty_iff, List.all_eq_true (l := List.range 4)] at h
  obtain ⟨⟨⟨⟨⟨⟨⟨⟨⟨⟨⟨hup, hrun⟩, -⟩, hfree⟩, hr⟩, hcur⟩, hbme⟩, hheld⟩, hslot⟩, hlock⟩, -⟩, -⟩ := h
  refine ⟨hup, hrun, hfree, hr, hcur, hbme, hheld, hslot, fun x hx => ?_⟩
  refine (List.all_eq_true.2 fun l hl => ?_)
  exact decide_eq_true (bne_iff_ne.1 (List.all_eq_true.1 (hlock x hx) l hl))

/-! ## Taken and run -/

/-- A state but for whether the processor is halted. -/
def withHalt (b : Bool) (s : State) : State := { s with cmd := { s.cmd with halted := b } }

/-- A command has been taken on a ring. -/
def commandTaken (r : Nat) (h : CmdHdr) (b : CmdBody) (s : State) : State := modRing r (fun g => { g with cur := some (newCmd h.ep h b) }) s

section
variable {s : State} {r : RingId} {h : CmdHdr} {b : CmdBody}

theorem noteHalt_eq (s : State) : ∃ x, noteHalt s = withHalt x s := by
  unfold noteHalt
  cases s.cmd.sstep with
  | true => exact ⟨true, rfl⟩
  | false => exact ⟨s.cmd.halted, rfl⟩

theorem runRow_idle (hi : Idle s r) (ha : addrRefused r h b = false) (hb : bodyRefused (commandTaken r h b s) b = false) :
    ∃ x, runRow r h b s = withHalt x (stepCmd r (commandTaken r h b s)) := by
  have hrow : runRow r h b s = iff (ranStep none (ringOf (startCmd r h.ep h b s) r).cur) noteHalt (startCmd r h.ep h b s) := by
    simp only [runRow, hi.up, hi.running, hi.free, hi.empty, Bool.not_false, Bool.and_self, Option.isNone_none, if_true]
  have hstart : startCmd r h.ep h b s = stepCmd r (commandTaken r h b s) := by
    have hno : ¬ (addrRefused r h b || bodyRefused (commandTaken r h b s) b) = true := by rw [ha, hb]; exact Bool.false_ne_true
    exact if_neg hno
  rw [hrow, hstart]
  cases ranStep none (ringOf (stepCmd r (commandTaken r h b s)) r).cur with
  | true => exact noteHalt_eq _
  | false => exact ⟨_, rfl⟩

theorem ringOf_commandTaken (s : State) (r : Nat) (h : CmdHdr) (b : CmdBody) : ringOf (commandTaken r h b s) r = { ringOf s r with cur := some (newCmd h.ep h b) } :=
  ringOf_modRing_same ..

theorem cur_commandTaken (s : State) (r : Nat) (h : CmdHdr) (b : CmdBody) : (ringOf (commandTaken r h b s) r).cur = some (newCmd h.ep h b) :=
  congrArg Ring.cur (ringOf_commandTaken s r h b)

end

/-! ## At work -/

/-- Command c is at work on ring r in u, and its completion can be posted as it could in s. -/
structure AtWork (s u : State) (r : Nat) (c : RunCmd) : Prop where
  ring : ringOf u r = { ringOf s r with cur := some c }
  host : u.mem.host = s.mem.host
  bme : u.cmd.bme = true
  held : u.cmd.heldComps = []
  unlocked : ∀ x ∈ List.range 4, (redOf u x).locks.all (fun l => decide (l.1 ≠ r)) = true

section
variable {s u v : State} {r : Nat} {c : RunCmd} {h : CmdHdr} {b : CmdBody}

theorem atWork_commandTaken (hi : Idle s r) : AtWork s (commandTaken r h b s) r (newCmd h.ep h b) := ⟨ringOf_commandTaken .., rfl, hi.bme, hi.held, hi.unlocked⟩

/-- What does not touch the command block, memory and the locks leaves a command at work. -/
theorem AtWork.keep (hw : AtWork s u r c) (hcmd : v.cmd = u.cmd) (hmem : v.mem = u.mem) (hlock : ∀ x, (redOf v x).locks = (redOf u x).locks) : AtWork s v r c := by
  have hring : ringOf v r = ringOf u r := by rw [ringOf, hcmd, ringOf]
  refine ⟨hring.trans hw.ring, (congrArg MemStore.host hmem).trans hw.host, (congrArg CmdSt.bme hcmd).trans hw.bme, (congrArg CmdSt.heldComps hcmd).trans hw.held, fun x hx => ?_⟩
  rw [hlock]
  exact hw.unlocked x hx

/-- The command itself changed. -/
theorem AtWork.modCur (hw : AtWork s u r c) (f : RunCmd → RunCmd) : AtWork s (modCur r f u) r (f c) := by
  refine ⟨?_, hw.host, hw.bme, hw.held, hw.unlocked⟩
  rw [Machine.modCur, ringOf_modRing_same, hw.ring]
  rfl

/-! ## The completion -/

theorem raiseVec_cmd (v : Nat) (s : State) : ∃ pba out, raiseVec v s = { s with cmd := { s.cmd with pba := pba }, out := out } :=
  let ⟨pba, out, h, _⟩ := raiseVec_eq v s
  ⟨pba, out, h⟩

theorem countComp_eq (x : HeldComp) (s : State) : ∃ cnt, countComp x s = { s with cmd := { s.cmd with cnt := cnt } } := by
  have hiff (b : Bool) (ofs : Nat) (s : State) : ∃ cnt, iff b (cmdCnt ofs 1) s = { s with cmd := { s.cmd with cnt := cnt } } := by
    cases b with
    | true => exact ⟨_, rfl⟩
    | false => exact ⟨_, rfl⟩
  unfold countComp
  dsimp only
  obtain ⟨_, h1⟩ := hiff (x.status == 1) 0x404 (cmdCnt 0x400 1 s)
  rw [h1]
  obtain ⟨_, h2⟩ := hiff x.late 0x408 _
  rw [h2]
  obtain ⟨_, h3⟩ := hiff (x.status == 2) 0x410 _
  rw [h3]
  exact ⟨_, rfl⟩

/-- A completion written: its bytes in host memory, the ring's tail moved. -/
theorem writeComp_writes (x : HeldComp) (s : State) :
    ringOf (writeComp x s) x.ring = { ringOf s x.ring with cqTail := (ringOf s x.ring).cqTail + 1, phase := if (ringOf s x.ring).cqTail + 1 = 0 then !(ringOf s x.ring).phase else (ringOf s x.ring).phase } ∧
    (writeComp x s).mem.host = wrBytes s.mem.host ((ringOf s x.ring).cqBase.toNat + 16 * (ringOf s x.ring).cqTail.toNat) (compBytes x (ringOf s x.ring).phase) := by
  have hpost (a : State) : ringOf (iff x.intr (raiseVec x.ring) (countComp x a)) x.ring = ringOf a x.ring ∧ (iff x.intr (raiseVec x.ring) (countComp x a)).mem = a.mem := by
    obtain ⟨cnt, hc⟩ := countComp_eq x a
    rw [hc]
    cases x.intr with
    | false => exact ⟨rfl, rfl⟩
    | true =>
      obtain ⟨pba, out, hr⟩ := raiseVec_cmd x.ring { a with cmd := { a.cmd with cnt := cnt } }
      rw [iff_true, hr]
      exact ⟨rfl, rfl⟩
  unfold writeComp
  dsimp only
  obtain ⟨hring, hmem⟩ := hpost (modRing x.ring (fun g => { g with cqTail := g.cqTail + 1, phase := if g.cqTail + 1 = 0 then !g.phase else g.phase })
    (placeWrite 0 ((ringOf s x.ring).cqBase.toNat + 16 * (ringOf s x.ring).cqTail.toNat) (compBytes x (ringOf s x.ring).phase) s))
  rw [hring, hmem, ringOf_modRing_same]
  exact ⟨rfl, rfl⟩

theorem ringOf_dropCur (r : Nat) (s : State) : ringOf (dropCur r s) r = { ringOf s r with cur := none } := ringOf_modRing_same ..

section
variable {st : BitVec 16} {dn : Word} (hw : AtWork s u r c) (hr : r < 8) (hslot : slotThere (ringOf s r) = true) (hres : c.result = some (st, dn))
include hw hr hslot hres

theorem tryPost_writes : tryPost r u = writeComp (compOf r c st dn) (dropCur r u) := by
  have hne : r ≠ 8 := by omega
  have hsl : slotThere (ringOf u r) = true := by rw [hw.ring]; exact hslot
  simp only [tryPost, congrArg Ring.cur hw.ring, hres, hne, if_false, hw.bme, hw.held, hsl, List.any_nil, Bool.not_true, Bool.or_self, Bool.false_eq_true]

/-- The completion is posted. -/
theorem tryPost_completed (hh : c.hdr = h) (hlate : c.late = false) (htot : c.total < 2 ^ 32) : completed s (tryPost r u) r h st dn.toNat c.total := by
  obtain ⟨hring, hhost⟩ := writeComp_writes (compOf r c st dn) (dropCur r u)
  have hdrop : ringOf (dropCur r u) (compOf r c st dn).ring = { ringOf s r with cur := none } := by
    rw [show (compOf r c st dn).ring = r from rfl, ringOf_dropCur, hw.ring]
  rw [hdrop] at hring hhost
  have hbytes : compBytes (compOf r c st dn) (ringOf s r).phase =
      bytesLE 4 h.tag.toNat ++ bytesLE 2 st.toNat ++ [BitVec.ofNat 8 (b2n (ringOf s r).phase), BitVec.ofNat 8 r] ++ bytesLE 4 dn.toNat ++ bytesLE 4 c.total := by
    simp only [compBytes, compOf, hh, hlate, b2n, Bool.false_eq_true, if_false, Nat.mul_zero, Nat.add_zero, BitVec.toNat_ofNat, Nat.mod_eq_of_lt htot]
  rw [tryPost_writes hw hr hslot hres]
  refine ⟨congrArg Ring.cur hring, congrArg Ring.cqTail hring, hhost.trans ?_⟩
  rw [← hbytes]
  exact congrArg (fun m => wrBytes m _ _) hw.host

/-- Nothing else of the state has changed, but for what counts it and says it. -/
theorem tryPost_rest : Keeps true 0x30002c01 u (tryPost r u) := by
  rw [tryPost_writes hw hr hslot hres]
  exact writeComp_keeps _ (modRing_keeps _ _ (.refl _ _ u) rfl) rfl

end

/-! ## The end of a command -/

/-- A command that has come to its end. -/
def withResult (status dn : Nat) (c : RunCmd) : RunCmd := { c with result := some (BitVec.ofNat 16 status, BitVec.ofNat 32 dn), background := false }

/-- A ring's channels are free. -/
def ownerless (r : Nat) (s : State) : State := each [28, 29, 30, 31] (fun c s => if (chanOf s c).owner = some r then modChan c (fun k => { k with owner := none }) s else s) s

/-- The windthrow of a ring is over. -/
def windOver (r : Nat) (s : State) : State := if s.dbg.windRing = some r then modDbg (fun d => { d with windRing := none, windAt := none, windShadow := [] }) s else s

theorem windOver_ownerless_keeps {L : Nat} (r : Nat) (s : State) (m : May 0x2800 L) : Keeps true L s (windOver r (ownerless r s)) := by
  have hchan : Keeps true L s (ownerless r s) := each_keeps (fun _ _ h => .ite (modChan_keeps _ _ h (m.sub rfl)) h) (.refl _ _ s)
  exact .ite (modDbg_keeps _ hchan (m.sub rfl)) hchan

/-- A command that holds no lock lets go of its channels and of what waits for it. -/
theorem letGo_unlocked (hl : ∀ x ∈ List.range 4, (redOf u x).locks.all (fun l => decide (l.1 ≠ r)) = true) :
    letGo r u = modCmd (fun k => { k with
      updating := (match k.updating with | some u => if u.2.1 = r then none else some u | none => none)
      forwarded := k.forwarded.filter fun f => f.2.1 ≠ r }) (windOver r (ownerless r u)) := by
  have hun : unlockShards r u = u := if_pos (List.all_eq_true.2 hl)
  rw [letGo, hun]
  rfl

theorem AtWork.letGo (hw : AtWork s u r c) : AtWork s (letGo r u) r c ∧ Keeps true 0x30002c01 u (letGo r u) := by
  have hk := (windOver_ownerless_keeps (L := 0x2800) r u rfl).only
  have hk' := windOver_ownerless_keeps (L := 0x30002c01) r u rfl
  have hback : AtWork s (windOver r (ownerless r u)) r c :=
    hw.keep (hk.cmd (by decide)) (hk.mem (by decide)) fun x => congrArg RedSt.locks (redOf_congr (hk.red (by decide)) x)
  rw [letGo_unlocked hw.unlocked]
  exact ⟨⟨hback.ring, hback.host, hback.bme, hback.held, fun x hx => by
    rw [redOf_congr (modCmd_red _ _)]
    exact hback.unlocked x hx⟩, modCmd_keeps _ hk' rfl⟩

section
variable (hw : AtWork s u r c) (hr : r < 8) (hslot : slotThere (ringOf s r) = true) (status dn : Nat)
include hw hr hslot

/-- It lets go of what it holds, and its completion is posted. -/
theorem endCmd_completed (hh : c.hdr = h) (hlate : c.late = false) (hdn : dn < 2 ^ 32) (htot : c.total < 2 ^ 32) :
    completed s (endCmd r status dn u) r h (BitVec.ofNat 16 status) dn c.total ∧ Keeps true 0x30002c01 u (endCmd r status dn u) := by
  obtain ⟨hgone, hk⟩ := hw.letGo
  have hend : endCmd r status dn u = tryPost r (Machine.modCur r (withResult status dn) (letGo r u)) := rfl
  have hres := hgone.modCur (withResult status dn)
  have hset : Keeps true 0x30002c01 u (Machine.modCur r (withResult status dn) (letGo r u)) :=
    modRing_keeps _ _ hk rfl
  rw [hend]
  generalize Machine.modCur r (withResult status dn) (letGo r u) = v at hres hset
  have hdone := tryPost_completed hres hr hslot rfl hh hlate htot
  rw [BitVec.toNat_ofNat, Nat.mod_eq_of_lt hdn] at hdone
  exact ⟨hdone, hset.trans (tryPost_rest hres hr hslot rfl)⟩

end

end

end Sys2Proof.Machine
end

section
/-! Group commands handed to the manager, refused, and the deletion of a group (R186, R190, R386). -/

namespace Sys2Proof.Machine

section
variable {s : State} {r : RingId} {h : CmdHdr} {g : GroupId} {num : StepNo} {b : CmdBody}

/-! ## The bodies of group commands -/

theorem stepCmd_groupDelete : stepCmd r (commandTaken r h (.groupDelete g) s) =
    atManager r (newCmd h.ep h (.groupDelete g)) g (fun x s => deleteGroup x.desc.group.toNat s) (commandTaken r h (.groupDelete g) s) := by
  simp only [stepCmd, cur_commandTaken]
  rfl

theorem stepCmd_groupStop : stepCmd r (commandTaken r h (.groupStop g num) s) =
    atManager r (newCmd h.ep h (.groupStop g num)) g (fun x s => sendStop x num s) (commandTaken r h (.groupStop g num) s) := by
  simp only [stepCmd, cur_commandTaken]
  rfl

theorem stepCmd_groupResume (hr : r.val < 8) : stepCmd r (commandTaken r h (.groupResume g) s) =
    atManager r (newCmd h.ep h (.groupResume g)) g (fun x s => resumeAll x s) (commandTaken r h (.groupResume g) s) := by
  have hne : r.val ≠ 8 := by omega
  simp only [stepCmd, cur_commandTaken]
  change stepGroupResume r (newCmd h.ep h (.groupResume g)) g (commandTaken r h (.groupResume g) s) = _
  rw [stepGroupResume, if_neg]
  simp only [hne, decide_false, Bool.false_and, Bool.false_eq_true, not_false_eq_true]

/-- A fragment in host memory is at hand. -/
theorem stepCmd_groupCreate {len ofs : Nat} {last : Bool} (hspace : h.space = 0) (hbme : s.cmd.bme = true) :
    stepCmd r (commandTaken r h (.groupCreate len last ofs) s) =
      (if isMgr s then takeFragment r (newCmd h.ep h (.groupCreate len last ofs)) last ofs (rdBytes s.mem.host (dataAddr h 0) len) (countBytes 32 len (commandTaken r h (.groupCreate len last ofs) s))
       else forward r (newCmd h.ep h (.groupCreate len last ofs)) (rdBytes s.mem.host (dataAddr h 0) len) (countBytes 32 len (commandTaken r h (.groupCreate len last ofs) s))) := by
  have hfetch : fetchData r (newCmd h.ep h (.groupCreate len last ofs)) len (commandTaken r h (.groupCreate len last ofs) s) =
      (some (rdBytes s.mem.host (dataAddr h 0) len), countBytes 32 len (commandTaken r h (.groupCreate len last ofs) s)) := by
    have hb : (commandTaken r h (.groupCreate len last ofs) s).cmd.bme = true := hbme
    simp [fetchData, newCmd, hspace, direct, hb, readDirect, readCheck, placeRead, countRead]
    rfl
  have hstep : stepCmd r (commandTaken r h (.groupCreate len last ofs) s) = stepGroupCreate r (newCmd h.ep h (.groupCreate len last ofs)) len last ofs (commandTaken r h (.groupCreate len last ofs) s) := by
    simp only [stepCmd, cur_commandTaken]
    rfl
  rw [hstep, stepGroupCreate, hfetch]
  rfl

/-! ## At a worker -/

/-- The command goes to the acting manager, and the ring waits. -/
theorem runRow_forwards {data : List Byte} {u : State} (hi : Idle s r) (ha : addrRefused r h b = false) (hb : bodyRefused (commandTaken r h b s) b = false)
    (hu : u = { commandTaken r h b s with dbg := u.dbg }) (hstep : stepCmd r (commandTaken r h b s) = forward r (newCmd h.ep h b) data u) :
    ∃ t, runRow r h b s = t ∧ t.out = .forwardCmd s.gctl.actingId h.tag b data :: s.out ∧ t.cmd.forwarded = s.cmd.forwarded ++ [(h.tag, r.val, s.clock)] ∧
      (∃ x, (ringOf t r.val).cur = some x ∧ x.body = b ∧ x.background = true ∧ x.result = none) ∧ t = { s with out := t.out, cmd := t.cmd, dbg := t.dbg } := by
  obtain ⟨x, hrow⟩ := runRow_idle hi ha hb
  have hbg : ringOf (forward r (newCmd h.ep h b) data u) r = _ := ringOf_modRing_same ..
  have hcur : (ringOf u r).cur = some (newCmd h.ep h b) := by
    rw [hu]
    exact cur_commandTaken s r h b
  have hfwd : forward r (newCmd h.ep h b) data u = { s with out := .forwardCmd s.gctl.actingId h.tag b data :: s.out, cmd := (forward r (newCmd h.ep h b) data u).cmd, dbg := u.dbg } := by
    rw [hu]
    rfl
  have hlist : (forward r (newCmd h.ep h b) data u).cmd.forwarded = s.cmd.forwarded ++ [(h.tag, r.val, s.clock)] := by
    rw [hu]
    rfl
  rw [hrow, hstep]
  generalize forward r (newCmd h.ep h b) data u = v at hbg hfwd hlist
  refine ⟨_, rfl, (congrArg State.out hfwd).trans rfl, hlist, ⟨{ newCmd h.ep h b with background := true }, ?_, rfl, rfl, rfl⟩, ?_⟩
  · exact (congrArg Ring.cur hbg).trans (congrArg (Option.map fun c : RunCmd => { c with background := true }) hcur)
  · rw [withHalt, hfwd]

theorem atManager_forwards {f : GroupRec → State → State} {c : RunCmd} (hm : s.gctl.role ≠ .manager) :
    atManager r c g f (commandTaken r h b s) = forward r c [] (commandTaken r h b s) := by
  have hnot : isMgr (commandTaken r h b s) = false := beq_false_of_ne hm
  rw [atManager, hnot]
  rfl

/-! ## At the manager -/

/-- A command that ends with its first step: its completion is posted, and the rest stands as the step left it. -/
theorem runRow_completes {v : State} {c : RunCmd} {status : Nat} (hi : Idle s r) (ha : addrRefused r h b = false) (hb : bodyRefused (commandTaken r h b s) b = false)
    (hstep : stepCmd r (commandTaken r h b s) = endCmd r status 0 v) (hw : AtWork s v r c) (hh : c.hdr = h) (hlate : c.late = false) (htot : c.total < 2 ^ 32) :
    ∃ t, runRow r h b s = t ∧ completed s t r h (BitVec.ofNat 16 status) 0 c.total ∧ t.mgr = v.mgr ∧ t.ctxs = v.ctxs ∧ t.pkts = v.pkts ∧ v.out <:+ t.out := by
  obtain ⟨x, hrow⟩ := runRow_idle hi ha hb
  obtain ⟨hdone, hk⟩ := endCmd_completed hw hi.host hi.slot status 0 hh hlate (by decide) htot
  rw [hrow, hstep]
  generalize endCmd r status 0 v = t at hdone hk
  exact ⟨withHalt x t, rfl, hdone, hk.only.mgr (by decide), hk.only.ctxs (by decide), hk.only.pkts (by decide), hk.sent⟩

theorem atManager_unknown {f : GroupRec → State → State} {c : RunCmd} (hm : s.gctl.role = .manager) (hg : groupOf s g = none) :
    atManager r c g f (commandTaken r h b s) = refuse r 3 (commandTaken r h b s) := by
  have hmgr : isMgr (commandTaken r h b s) = true := beq_iff_eq.2 hm
  have hno : groupOf (commandTaken r h b s) g = none := hg
  simp only [atManager, hmgr, hno, Bool.not_true, Bool.false_eq_true, if_false]

theorem atManager_known {f : GroupRec → State → State} {c : RunCmd} {x : GroupRec} (hm : s.gctl.role = .manager) (hg : groupOf s g = some x) :
    atManager r c g f (commandTaken r h b s) = endCmd r 0 0 (f x (commandTaken r h b s)) := by
  have hmgr : isMgr (commandTaken r h b s) = true := beq_iff_eq.2 hm
  have hyes : groupOf (commandTaken r h b s) g = some x := hg
  simp only [atManager, hmgr, hyes, Bool.not_true, Bool.false_eq_true, if_false]

/-- A group that is not known. -/
theorem runRow_unknown {f : GroupRec → State → State} (hi : Idle s r) (ha : addrRefused r h b = false) (hb : bodyRefused (commandTaken r h b s) b = false)
    (hm : s.gctl.role = .manager) (hg : groupOf s g = none) (hstep : stepCmd r (commandTaken r h b s) = atManager r (newCmd h.ep h b) g f (commandTaken r h b s)) :
    ∃ t, runRow r h b s = t ∧ completed s t r h 3 0 0 ∧ t.mgr = s.mgr ∧ t.ctxs = s.ctxs := by
  have hend : stepCmd r (commandTaken r h b s) = endCmd r 3 0 (modCur r (fun c => { c with total := 0 }) (commandTaken r h b s)) := hstep.trans (atManager_unknown hm hg)
  obtain ⟨t, ht, hdone, hmgr, hctx, -, -⟩ := runRow_completes hi ha hb hend ((atWork_commandTaken hi).modCur _) rfl rfl (Nat.two_pow_pos 32)
  exact ⟨t, ht, hdone, hmgr, hctx⟩

/-- A known group, for an operation that leaves the command block, memory and the locks alone. -/
theorem runRow_known {f : GroupRec → State → State} {x : GroupRec} (hi : Idle s r) (ha : addrRefused r h b = false) (hb : bodyRefused (commandTaken r h b s) b = false)
    (hone : stepsOf b = 1) (hm : s.gctl.role = .manager) (hg : groupOf s g = some x) (hstep : stepCmd r (commandTaken r h b s) = atManager r (newCmd h.ep h b) g f (commandTaken r h b s))
    (hcmd : (f x (commandTaken r h b s)).cmd = (commandTaken r h b s).cmd) (hmem : (f x (commandTaken r h b s)).mem = s.mem)
    (hlock : ∀ y, (redOf (f x (commandTaken r h b s)) y).locks = (redOf s y).locks) :
    ∃ t, runRow r h b s = t ∧ completed s t r h 0 0 1 ∧ t.mgr = (f x (commandTaken r h b s)).mgr ∧ t.ctxs = (f x (commandTaken r h b s)).ctxs ∧
      t.pkts = (f x (commandTaken r h b s)).pkts ∧ (f x (commandTaken r h b s)).out <:+ t.out := by
  have hw := (atWork_commandTaken (h := h) (b := b) hi).keep hcmd hmem hlock
  have htot : (newCmd h.ep h b).total = 1 := hone
  have hrow := runRow_completes hi ha hb (hstep.trans (atManager_known hm hg)) hw rfl rfl (htot ▸ by decide)
  rwa [htot] at hrow

end

end Sys2Proof.Machine
end

section
/-! The deletion of a group by the manager (R190). -/

namespace Sys2Proof.Machine

/-! ## Every switch told, this one by its own hand -/

section
variable {s : State}

/-- Where this switch is one of those told, and once. -/
theorem each_tell_once {g : State → State} (o : Coord → Out) (hg : ∀ a, (g a).gctl = a.gctl) {l : List Coord} (hn : l.Nodup) (hin : s.gctl.coord ∈ l) :
    ∃ a b, a = { s with out := a.out } ∧ b = { g a with out := b.out } ∧ each l (fun w a => if w = a.gctl.coord then g a else emit (o w) a) s = b := by
  obtain ⟨l₁, l₂, rfl⟩ := List.append_of_mem hin
  have hnot₁ : s.gctl.coord ∉ l₁ := fun h => (List.nodup_append.1 hn).2.2 _ h _ List.mem_cons_self rfl
  have hnot₂ : s.gctl.coord ∉ l₂ := (List.nodup_cons.1 (List.nodup_append.1 hn).2.1).1
  have hfst := each_tell (g := fun _ => g) o hnot₁
  have hsplit (f : Coord → State → State) : each (l₁ ++ s.gctl.coord :: l₂) f s = each l₂ f (f s.gctl.coord (each l₁ f s)) := List.foldl_append
  rw [hsplit, hfst, if_pos rfl]
  have hsnd : (g { s with out := (l₁.map o).reverse ++ s.out }).gctl.coord ∉ l₂ := by rwa [hg]
  rw [each_tell (g := fun _ => g) o hsnd]
  exact ⟨{ s with out := (l₁.map o).reverse ++ s.out }, _, rfl, rfl, rfl⟩

/-- The loop over switch records is one over their coordinates. -/
theorem each_coord (l : List SwRec) (f : Coord → State → State) (s : State) : each l (fun w => f w.coord) s = each (l.map SwRec.coord) f s :=
  (List.foldl_map (f := SwRec.coord) (g := fun a w => f w a)).symm

end

/-! ## The context here -/

section
variable {s : State} {k : Nat} {c : Ctx} {g : GroupId}

theorem slotOf_congr {t : State} (h : t.ctxs = s.ctxs) (g : GroupId) : slotOf t g = slotOf s g := by
  unfold slotOf liveSlots ctxOf
  rw [h]

theorem ctxOf_unhalt_none (h : ctxOf s k = none) (x : Nat) : ctxOf (unhalt x s) k = none := by
  unfold unhalt
  dsimp only
  split
  · exact h
  · next i _ =>
    by_cases hi : k = i.slot.toNat
    · subst hi
      exact (ctxOf_modCtx_same _).trans (congrArg (Option.map _) h)
    · exact (ctxOf_modCtx_other _ hi).trans h

theorem ctxOf_sweepInsts_none (h : ctxOf s k = none) (slot : Nat) : ctxOf (sweepInsts slot s) k = none := by
  unfold sweepInsts
  dsimp only
  have hswept : ctxOf (each (List.range 4) (fun x a => if (redOf a x).halted.any fun i => i.slot.toNat == slot && !instLives s i then unhalt x a else a) s) k = none :=
    each_induct (P := fun a => ctxOf a k = none) (fun x _ a ha => by
      split
      · exact ctxOf_unhalt_none ha x
      · exact ha) h
  exact (ctxOf_congr ((freeOwned_keeps (d := true) (L := 0x1080) _ (.refl _ _ _) rfl).only.ctxs (by decide)) k).trans hswept

/-- A freed slot holds no context. -/
theorem ctxOf_freeCtx (k : Nat) (s : State) : ctxOf (freeCtx k s) k = none := by
  unfold freeCtx
  split
  · next h => exact h
  · refine ctxOf_sweepInsts_none ?_ k
    exact tget_tset_eq none _ k none

theorem deleteLocal_unknown (h : slotOf s g = none) : deleteLocal g s = s := by
  simp only [deleteLocal, h]

theorem atSlot_deleteLocal (hk : slotOf s g = some k) : AtSlot k s (deleteLocal g s) := by
  simp only [deleteLocal, hk]
  split
  · exact .refl k s
  · split
    · exact atSlot_freeCtx k s
    · exact ((atSlot_modCtx ..).trans (AtSlot.iff (fun a => AtSlot.each fun num _ b => atSlot_rootStop k num b) _)).trans (atSlot_freeIfDeleting ..)

theorem locks_deleteLocal (g : GroupId) (s : State) (x : Nat) : (redOf (deleteLocal g s) x).locks = (redOf s x).locks := by
  cases hk : slotOf s g with
  | none => rw [deleteLocal_unknown hk]
  | some k => exact (atSlot_deleteLocal hk).locks x

/-- A reservation, and a context without steps, is freed. -/
theorem deleteLocal_frees (hk : slotOf s g = some k) (hc : ctxOf s k = some c)
    (h : c.committed = false ∨ c.steps = [] ∧ c.ready = none ∧ (c.st = .idle ∨ c.st = .halt ∨ c.st = .lost)) : ctxOf (deleteLocal g s) k = none := by
  simp only [deleteLocal, hk, hc]
  rcases Bool.eq_false_or_eq_true c.committed with hcom | hcom
  · obtain ⟨hs, hr, hst⟩ := h.resolve_left fun hf => Bool.false_ne_true (hf.symm.trans hcom)
    have hopen : openSteps c = [] := by rw [openSteps, hs, List.filter_nil]
    have hdel : ctxOf (modCtx k (fun c => { c with deleting := true }) s) k = some { c with deleting := true } := by rw [ctxOf_modCtx_same, hc, Option.map_some]
    have hstop : iff c.spec.isRoot (each ((openSteps c).map Step.num ++ (c.ready.map Ready.num).toList) (rootStop k)) (modCtx k (fun c => { c with deleting := true }) s) =
        modCtx k (fun c => { c with deleting := true }) s := by
      rw [hopen, hr]
      cases c.spec.isRoot <;> rfl
    have hquiet : (c.st == .idle || c.st == .halt || c.st == .lost) = true := by
      simpa only [Bool.or_eq_true, beq_iff_eq, or_assoc] using hst
    rw [hcom, hstop, freeIfDeleting, hdel]
    dsimp only
    simp only [hquiet, hs, Bool.not_true, Bool.false_eq_true, if_false, Bool.and_self, List.isEmpty_nil, if_true]
    exact ctxOf_freeCtx ..
  · rw [hcom]
    exact ctxOf_freeCtx k s

end

/-! ## GROUP_DELETE -/

section
variable {s u : State} {x : GroupRec} {g : GroupId}

/-- The group's record is taken out. -/
def unlisted (g : GroupId) : State → State := modMgr fun m => { m with groups := tset none m.groups g.toNat none }

theorem deleteGroup_known (hg : groupOf u g = some x) (hx : x.desc.group = g) : deleteGroup x.desc.group.toNat u =
    each (x.desc.switches.map SwRec.coord) (fun w a => if w = a.gctl.coord then deleteLocal g a else emit (.deleteMsg w g) a)
      (unlisted g u) := by
  have hrec : tget none u.mgr.groups g.toNat = some x := hg
  simp only [deleteGroup, hx, hrec]
  exact each_coord _ (fun w a => if w = a.gctl.coord then deleteLocal g a else emit (.deleteMsg w g) a) _

theorem locks_deleteGroup (n : Nat) (u : State) (y : Nat) : (redOf (deleteGroup n u) y).locks = (redOf u y).locks := by
  unfold deleteGroup
  split
  · rfl
  · next d _ =>
    refine each_field (fun a => (redOf a y).locks) fun w a => ?_
    split
    · exact locks_deleteLocal ..
    · rfl

section
variable (hg : groupOf u g = some x) (hx : x.desc.group = g)
include hg hx

/-- The group is out of the registry. -/
theorem groupOf_deleteGroup : groupOf (deleteGroup x.desc.group.toNat u) g = none := by
  have hmgr : (deleteGroup x.desc.group.toNat u).mgr = (unlisted g u).mgr := by
    rw [deleteGroup_known hg hx]
    refine each_field State.mgr fun w a => ?_
    split
    · exact (deleteLocal_keeps (d := true) (L := 0x6cb1081) g (.refl _ _ a) rfl).only.mgr (by decide)
    · rfl
  rw [groupOf, hmgr]
  exact tget_tset_eq none u.mgr.groups g.toNat none

/-- Each other switch of the tree is told. -/
theorem deleteMsg_sent {w : SwRec} (hw : w ∈ x.desc.switches) (hne : w.coord ≠ u.gctl.coord) : .deleteMsg w.coord g ∈ (deleteGroup x.desc.group.toNat u).out := by
  rw [deleteGroup_known hg hx]
  refine mem_out_each (P := fun a => a.gctl.coord = u.gctl.coord) (List.mem_map_of_mem hw) (fun y a => ?_) (fun y a ha => ?_) (fun a ha => ?_) rfl
  · split
    · exact (deleteLocal_keeps (d := true) (L := 0x6cb1081) g (.refl _ _ a) rfl).sent
    · exact List.suffix_cons ..
  · split
    · rw [(deleteLocal_keeps (d := true) (L := 0x6cb1081) g (.refl _ _ a) rfl).only.gctl (by decide)]
      exact ha
    · exact ha
  · rw [if_neg (by rw [ha]; exact hne)]
    exact List.mem_cons_self

/-- Where this switch is not in the tree, its contexts stay; where it is, once, they are those of its own deletion. -/
theorem ctxs_deleteGroup (hn : (x.desc.switches.map SwRec.coord).Nodup) :
    (u.gctl.coord ∉ x.desc.switches.map SwRec.coord → (deleteGroup x.desc.group.toNat u).ctxs = u.ctxs) ∧
    (u.gctl.coord ∈ x.desc.switches.map SwRec.coord → ∃ a, a.ctxs = u.ctxs ∧ (deleteGroup x.desc.group.toNat u).ctxs = (deleteLocal g a).ctxs) := by
  rw [deleteGroup_known hg hx]
  refine ⟨fun hout => ?_, fun hin => ?_⟩
  · rw [each_tell (s := unlisted g u) (g := fun _ => deleteLocal g) (fun w => .deleteMsg w g) hout]
    rfl
  · obtain ⟨a, b, ha, hb, heach⟩ := each_tell_once (s := unlisted g u) (g := deleteLocal g) (fun w => .deleteMsg w g)
      (fun a => (deleteLocal_keeps (d := true) (L := 0x6cb1081) g (.refl _ _ a) rfl).only.gctl (by decide)) hn hin
    rw [heach]
    refine ⟨a, ?_, ?_⟩
    · rw [ha]
      rfl
    · rw [hb]

theorem ctxOf_deleteGroup (hn : (x.desc.switches.map SwRec.coord).Nodup) {k : Nat} {c : Ctx} (hk : slotOf u g = some k) (hc : ctxOf u k = some c) :
    (∀ j, j ≠ k → ctxOf (deleteGroup x.desc.group.toNat u) j = ctxOf u j) ∧
    ((∃ w ∈ x.desc.switches, w.coord = u.gctl.coord) → c.committed = false ∨ c.steps = [] ∧ c.ready = none ∧ (c.st = .idle ∨ c.st = .halt ∨ c.st = .lost) →
      ctxOf (deleteGroup x.desc.group.toNat u) k = none) ∧
    ((¬ ∃ w ∈ x.desc.switches, w.coord = u.gctl.coord) → ctxOf (deleteGroup x.desc.group.toNat u) k = some c) := by
  obtain ⟨haway, hhere⟩ := ctxs_deleteGroup hg hx hn
  have hmem : (∃ w ∈ x.desc.switches, w.coord = u.gctl.coord) ↔ u.gctl.coord ∈ x.desc.switches.map SwRec.coord := List.mem_map.symm
  rw [hmem]
  by_cases hin : u.gctl.coord ∈ x.desc.switches.map SwRec.coord
  · obtain ⟨a, ha, hdel⟩ := hhere hin
    have hka : slotOf a g = some k := (slotOf_congr ha g).trans hk
    have hca (j : Nat) : ctxOf a j = ctxOf u j := ctxOf_congr ha j
    refine ⟨fun j hj => ?_, fun _ hq => ?_, fun hno => absurd hin hno⟩
    · rw [ctxOf_congr hdel, (atSlot_deleteLocal hka).other j hj, hca]
    · rw [ctxOf_congr hdel]
      exact deleteLocal_frees hka ((hca k).trans hc) hq
  · have hsame (j : Nat) : ctxOf (deleteGroup x.desc.group.toNat u) j = ctxOf u j := ctxOf_congr (haway hin) j
    exact ⟨fun j _ => hsame j, fun h => absurd h hin, fun _ => (hsame k).trans hc⟩

end

end

end Sys2Proof.Machine
end

section
/-! A STOP toward the root of a group (R205), and a group resumed (R206). -/

namespace Sys2Proof.Machine

/-! ## A packet routed says what it said, as long as it is held -/

section
variable {s t u : State} {j : Nat}

/-- The packet of number j says in t what it said in s, or is gone. -/
def Fades (j : Nat) (s t : State) : Prop := saidAt t j = saidAt s j ∨ saidAt t j = none

theorem Fades.trans (h : Fades j s t) (h' : Fades j t u) : Fades j s u := by
  rcases h' with h' | h'
  · rcases h with h | h
    · exact .inl (h'.trans h)
    · exact .inr (h'.trans h)
  · exact .inr h'

theorem Fades.of_pkts (h : t.pkts = s.pkts) (j : Nat) : Fades j s t := .inl (saidAt_congr h j)

theorem Fades.each {α : Type} {l : List α} {g : α → State → State} (hg : ∀ x a, Fades j a (g x a)) : Fades j s (each l g s) :=
  each_induct (P := Fades j s) (fun x _ a ha => ha.trans (hg x a)) (.inl rfl)

theorem fades_setPkt_none (pid : Nat) (s : State) (j : Nat) : Fades j s (setPkt pid none s) := by
  by_cases h : j = pid
  · subst h
    exact .inr (congrArg (Option.map _) (pktOf_setPkt_none j s))
  · exact .inl (congrArg (Option.map _) (pktOf_setPkt_other _ _ h))

theorem fades_unlink (g pid : Nat) (s : State) (j : Nat) : Fades j s (unlink g pid s) := by
  unfold unlink
  split
  · next e p _ _ =>
    extract_lets d a b v w z
    have ha : Fades j s a := .of_pkts ((pullFlits_keeps (d := true) (L := 0x220000) g pid (.refl _ _ s) rfl).only.pkts (by decide)) j
    clear_value a
    have hb : Fades j s b := ha.trans (.of_pkts rfl j)
    clear_value b
    have hv : Fades j s v := hb.trans (.inl (saidAt_modPkt (f := fun p => { p with refs := p.refs - 1 }) (fun _ => rfl) pid b j))
    clear_value v
    have hw : Fades j s w := hv.trans (.of_pkts rfl j)
    clear_value w
    have hz : Fades j s z := by
      unfold z
      split
      · split
        · exact hw
        · exact hw.trans (.of_pkts ((setStage_keeps (d := true) (L := 0x1000000) _ _ _ _ (.refl _ _ w) rfl).only.pkts (by decide)) j)
      · exact hw
    clear_value z
    split
    · exact hz.trans (fades_setPkt_none pid z j)
    · exact hv
  · exact .inl rfl

/-- A packet dropped is gone; the others say what they said, or go with it. -/
theorem fades_dropPkt (pid : Nat) (s : State) (j : Nat) : Fades j s (dropPkt pid s) := by
  unfold dropPkt
  split
  · exact .inl rfl
  · next p _ =>
    extract_lets gs a b v
    clear_value gs
    have ha : Fades j s a := .inl (saidAt_leaveStaging pid s j)
    clear_value a
    have hb : Fades j s b := ha.trans (Fades.each fun d x => by
      extract_lets w y
      have hy : y.pkts = x.pkts := (each_keeps (d := true) (L := 0x80000) (fun _ _ h => landFree_keeps _ _ _ _ h rfl) (.refl _ _ x)).only.pkts (by decide)
      clear_value y
      exact (Fades.of_pkts hy j).trans (.of_pkts rfl j))
    clear_value b
    have hv : Fades j s v := by
      unfold v
      split
      · split
        · exact hb.trans (.of_pkts ((setStaging_keeps (d := true) (L := 0x1000000) _ _ _ (.refl _ _ b) rfl).only.pkts (by decide)) j)
        · exact hb.trans (.of_pkts ((setStage_keeps (d := true) (L := 0x1000000) _ _ _ _ (.refl _ _ b) rfl).only.pkts (by decide)) j)
      · exact hb
    clear_value v
    split
    · exact hv.trans (fades_setPkt_none pid v j)
    · exact hb.trans (Fades.each fun g x => fades_unlink g pid x j)

theorem fades_routePkt (d pid : Nat) (s : State) (j : Nat) : Fades j s (routePkt d pid s) := by
  unfold routePkt
  split
  · exact .inl rfl
  · next p _ =>
    split
    · exact fades_dropPkt pid s j
    · have hlook : (lookup d p.hdr (swcInject d 1 s)).2.pkts = s.pkts :=
        (lookup_keeps (d := true) (L := 0x4080) d p.hdr (swcInject_keeps d 1 (.refl _ _ s) rfl) rfl).only.pkts (by decide)
      split
      · next ofs a ha =>
        rw [ha] at hlook
        refine ((Fades.of_pkts hlook j).trans (.of_pkts ?_ j)).trans (fades_dropPkt pid _ j)
        exact (routeCnt_keeps (d := true) (L := 0x4000) _ _ (.refl _ _ a) rfl).only.pkts (by decide)
      · next m a ha =>
        rw [ha] at hlook
        exact (Fades.of_pkts hlook j).trans (.inl (saidAt_toEgress ..))

/-- A packet sent has the next number, and says what was to be sent as long as it is held. -/
theorem said_sendPkt {h : Hdr} {exts : List Ext} {body : List Byte} {mirror : Bool} {q : Pkt} (hq : pktOf (sendPkt h exts body mirror s) s.nextPid = some q) :
    q.hdr = h ∧ q.body = body := by
  have hnew : saidAt (newPkt h exts body mirror false s).2 s.nextPid = some (h, body) := (saidAt_newPkt ..).trans (if_pos rfl)
  have hsaid : saidAt (sendPkt h exts body mirror s) s.nextPid = some (q.hdr, q.body) := congrArg (Option.map _) hq
  rcases fades_routePkt (homeDie (newPkt h exts body mirror false s).2) s.nextPid (newPkt h exts body mirror false s).2 s.nextPid with hf | hf
  · have heq : some (q.hdr, q.body) = some (h, body) := hsaid.symm.trans (hf.trans hnew)
    exact ⟨congrArg Prod.fst (Option.some.inj heq), congrArg Prod.snd (Option.some.inj heq)⟩
  · exact absurd (hsaid.symm.trans hf) (Option.some_ne_none _)

end

/-! ## The fields of a header -/

theorem fld_ofNat_hdr (v : Nat) {lo len : Nat} (h : lo + len ≤ 256) : fld (BitVec.ofNat 256 v) lo len = v / 2 ^ lo % 2 ^ len := by
  have hsplit : (2 : Nat) ^ 256 = 2 ^ lo * 2 ^ (256 - lo) := by rw [← Nat.pow_add, Nat.add_sub_cancel' (by omega)]
  rw [fld, BitVec.extractLsb'_toNat, Nat.shiftRight_eq_div_pow, BitVec.toNat_ofNat, hsplit, Nat.mod_mul_right_div_self, Nat.mod_mod_of_dvd _ (Nat.pow_dvd_pow 2 (by omega))]

section
variable (next ptype tc dst src pkey plen hops group step chunk fmt : Nat) (last : Bool)

theorem b2n_le_one (b : Bool) : b2n b ≤ 1 := by cases b <;> decide

theorem hPtype_mkHdr : hPtype (mkHdr next ptype tc dst src pkey plen hops group step chunk fmt last) = ptype % 8 := by
  have hlast := b2n_le_one last
  rw [hPtype, mkHdr, fld_ofNat_hdr _ (by decide)]
  omega

theorem hGroup_mkHdr : hGroup (mkHdr next ptype tc dst src pkey plen hops group step chunk fmt last) = group % 2 ^ 24 := by
  have hlast := b2n_le_one last
  rw [hGroup, mkHdr, fld_ofNat_hdr _ (by decide)]
  omega

theorem hStep_mkHdr : hStep (mkHdr next ptype tc dst src pkey plen hops group step chunk fmt last) = step % 2 ^ 48 := by
  have hlast := b2n_le_one last
  rw [hStep, mkHdr, fld_ofNat_hdr _ (by decide)]
  omega

theorem hDst_mkHdr : hDst (mkHdr next ptype tc dst src pkey plen hops group step chunk fmt last) = dst % 2 ^ 20 := by
  have hlast := b2n_le_one last
  rw [hDst, mkHdr, fld_ofNat_hdr _ (by decide)]
  omega

end

/-! ## GROUP_STOP -/

section
variable {u : State} {x : GroupRec} {num : StepNo}

theorem sendStop_away (h : x.desc.root ≠ u.gctl.coord) : sendStop x num u =
    sendPkt (mkHdr 0 ptCtrl x.desc.tc.toNat (switchId u x.desc.root) u.gctl.ownId.toNat x.desc.pkey.toNat (ctrlBody kStop 0 0 []).length 255 x.desc.group.toNat num.toNat 0 0 false)
      [] (ctrlBody kStop 0 0 []) false u := if_neg h

theorem sendStop_here {k : Nat} (h : x.desc.root = u.gctl.coord) (hk : slotOf u x.desc.group = some k) : sendStop x num u = rootStop k num u := by
  simp only [sendStop, h, if_true, hk]

theorem locks_sendStop (u : State) (y : Nat) : (redOf (sendStop x num u) y).locks = (redOf u y).locks := by
  by_cases h : x.desc.root = u.gctl.coord
  · cases hk : slotOf u x.desc.group with
    | none => simp only [sendStop, h, if_true, hk]
    | some k => rw [sendStop_here h hk, (atSlot_rootStop k num u).locks]
  · rw [sendStop_away h, redOf_congr ((sendPkt_keeps (d := true) (L := 0x1fb4081) _ _ _ _ (.refl _ _ u) rfl).only.red (by decide))]

theorem ctxs_sendStop_away (h : x.desc.root ≠ u.gctl.coord) : (sendStop x num u).ctxs = u.ctxs := by
  rw [sendStop_away h]
  exact (sendPkt_keeps (d := true) (L := 0x1fb4081) _ _ _ _ (.refl _ _ u) rfl).only.ctxs (by decide)

/-- What the packet toward the root says. -/
theorem pkt_sendStop_away (h : x.desc.root ≠ u.gctl.coord) {q : Pkt} (hq : pktOf (sendStop x num u) u.nextPid = some q) :
    q.body = [5, 0, 0, 0, 0, 0, 0, 0] ∧ hPtype q.hdr = ptCtrl ∧ hGroup q.hdr = x.desc.group.toNat ∧ hStep q.hdr = num.toNat ∧ hDst q.hdr = switchId u x.desc.root % 2 ^ 20 := by
  rw [sendStop_away h] at hq
  obtain ⟨hhdr, hbody⟩ := said_sendPkt hq
  rw [hhdr, hbody, hPtype_mkHdr, hGroup_mkHdr, hStep_mkHdr, hDst_mkHdr]
  exact ⟨rfl, rfl, Nat.mod_eq_of_lt x.desc.group.isLt, Nat.mod_eq_of_lt num.isLt, rfl⟩

/-! ### At the root -/

section
variable {k : Nat} {c : Ctx} (hc : ctxOf u k = some c)
include hc

/-- A MOVING root holds it. -/
theorem ctxOf_rootStop_moving (hst : c.st = .moving) :
    ctxOf (rootStop k num u) k = some { c with held := c.held ++ [{ start := false, num := num, n := 0, scalars := [], arrived := fabT u }] } := by
  simp only [rootStop, hc, if_pos hst]
  rw [ctxOf_modCtx_same, hc, Option.map_some]

theorem rootStop_inService (hst : c.st ≠ .moving) : rootStop k num u = stopStep 4 k num u := by
  simp only [rootStop, hc, if_neg hst]

section
variable {y : Step} (hst : c.st = .run) (hr : c.ready = none) (ho : OneOpen c y num)
include hst hr ho

/-- An open step of which no result has been granted ends ABORTED. -/
theorem ctxOf_rootStop_aborts (hdel : c.deleting = false) (hres : y.results = 0) :
    ∃ d, ctxOf (rootStop k num u) k = some d ∧ d.st = .idle ∧ d.steps = [] ∧ d.lastClosed = some (num, 1) ∧ d.lastStatus = 1 := by
  have hmov : c.st ≠ .moving := by rw [hst]; decide
  obtain ⟨d, hd, hclosed, -⟩ := stopStep_aborts (n := 3) hc ho hr hst hdel hres
  rw [ClosedAs] at hclosed
  refine ⟨d, (rootStop_inService hc hmov).symm ▸ hd, ?_, ?_, ?_, ?_⟩
  · rw [hclosed]
    rfl
  · rw [hclosed]
  · rw [hclosed, ho.num]
    rfl
  · rw [hclosed]
    rfl

/-- After a grant the STOP is held. -/
theorem ctxOf_rootStop_held (hres : y.results ≠ 0) : ctxOf (rootStop k num u) k = some { c with stopHeld := true } := by
  have hmov : c.st ≠ .moving := by rw [hst]; decide
  rw [rootStop_inService hc hmov, stopStep_holds (n := 3) hc ho hr hres, ctxOf_modCtx_same, hc, Option.map_some]

end

end

end

/-! ## GROUP_RESUME -/

/-- The key found first among the entries of a table is found first when its entry is put anew. -/
theorem find?_tput {P : Nat → Bool} {v : Option Ctx} (hv : v.isSome = true) {l : Tbl (Option Ctx)} {k : Nat} (h : ((l.filter fun e => e.2.isSome).map Prod.fst).find? P = some k) :
    (((tput l k v).filter fun e => e.2.isSome).map Prod.fst).find? P = some k := by
  have hP : P k = true := List.find?_some h
  have hput (r : Tbl (Option Ctx)) : ((((k, v) :: r).filter fun e => e.2.isSome).map Prod.fst).find? P = some k := by
    rw [List.filter_cons_of_pos (p := fun e : Nat × Option Ctx => e.2.isSome) hv, List.map_cons, List.find?_cons_of_pos hP]
  induction l with
  | nil => cases h
  | cons e r ih =>
    obtain ⟨k', v'⟩ := e
    rw [tput]
    split
    · exact hput _
    · split
      · exact hput _
      · next hne =>
        cases hv' : v'.isSome with
        | false =>
          rw [List.filter_cons_of_neg (by simp [hv'])] at h ⊢
          exact ih h
        | true =>
          rw [List.filter_cons_of_pos (p := fun e : Nat × Option Ctx => e.2.isSome) hv', List.map_cons] at h ⊢
          cases hk' : P k' with
          | true =>
            rw [List.find?_cons_of_pos hk'] at h
            exact absurd (Option.some.inj h) hne
          | false =>
            rw [List.find?_cons_of_neg (by simp [hk'])] at h ⊢
            exact ih h

section
variable {u : State} {k : Nat} {c : Ctx} {g : GroupId}

theorem slotOf_eq (u : State) (g : GroupId) : slotOf u g = (liveSlots u).find? fun k => (ctxOf u k).any fun c => c.spec.group == g := by
  unfold slotOf
  refine congrArg (fun p => (liveSlots u).find? p) (funext fun k => ?_)
  cases ctxOf u k <;> rfl

/-- Its group kept, a context is found in its slot. -/
theorem slotOf_modCtx {f : Ctx → Ctx} (hf : ∀ c, (f c).spec.group = c.spec.group) (hk : slotOf u g = some k) (hc : ctxOf u k = some c) : slotOf (modCtx k f u) g = some k := by
  have htest (j : Nat) : ((ctxOf (modCtx k f u) j).any fun c => c.spec.group == g) = ((ctxOf u j).any fun c => c.spec.group == g) := by
    by_cases hj : j = k
    · subst hj
      rw [ctxOf_modCtx_same, hc]
      exact congrArg (· == g) (hf c)
    · rw [ctxOf_modCtx_other f hj]
  have htbl : (modCtx k f u).ctxs = tput u.ctxs k (some (f c)) := by
    have hget : tget none u.ctxs k = some c := hc
    simp only [modCtx, tmod, hget, Option.map_some, tset, reduceCtorEq, if_false]
  rw [slotOf_eq, liveSlots] at hk ⊢
  rw [htbl, funext htest]
  exact find?_tput rfl hk

/-- A context out of HALT, its capture cleared, in the state that its steps give. -/
def resumed (c : Ctx) : Ctx :=
  { c with st := if openSteps c ≠ [] then .run else if c.ready.isSome then .ready else .idle, capture := {}, haltStatus := 0, haltDetail := 0 }

theorem st_resumed_ne (c : Ctx) : (resumed c).st ≠ .halt := by
  unfold resumed
  dsimp only
  split
  · decide
  · split <;> decide

theorem resumeLocal_found (hk : slotOf u g = some k) (hc : ctxOf u k = some c) : ctxOf (resumeLocal g u) k = some (if c.st = .halt then resumed c else c) ∧
    (∀ j, j ≠ k → ctxOf (resumeLocal g u) j = ctxOf u j) ∧ slotOf (resumeLocal g u) g = some k ∧ (resumeLocal g u).gctl = u.gctl := by
  have hsettle : settleSt { c with st := .idle, capture := {}, haltStatus := 0, haltDetail := 0 } = resumed c := settleSt_inService (.inl rfl)
  have hgroup (c : Ctx) : (if c.st = .halt then settleSt { c with st := .idle, capture := {}, haltStatus := 0, haltDetail := 0 } else c).spec.group = c.spec.group := by
    split
    · rfl
    · rfl
  simp only [resumeLocal, hk]
  refine ⟨?_, fun j hj => ctxOf_modCtx_other _ hj, slotOf_modCtx hgroup hk hc, rfl⟩
  rw [ctxOf_modCtx_same, hc, Option.map_some, hsettle]

/-- The loop over the switches: the context here is taken out of HALT where this switch is one of them. -/
theorem each_resume {f : SwRec → State → State} {l : List SwRec} (hf : ∀ w a, f w a = if w.coord = a.gctl.coord then resumeLocal g a else sendMgmt (switchId a w.coord) ([1, 0, 0, 0] ++ resumeEntry g) a)
    (hk : slotOf u g = some k) (hc : ctxOf u k = some c) :
    ctxOf (each l f u) k = some (if c.st = .halt ∧ ∃ w ∈ l, w.coord = u.gctl.coord then resumed c else c) ∧ ∀ j, j ≠ k → ctxOf (each l f u) j = ctxOf u j := by
  induction l generalizing u c with
  | nil => exact ⟨hc.trans (congrArg some (if_neg fun h => by simpa using h.2).symm), fun _ _ => rfl⟩
  | cons w r ih =>
    rw [each_cons, hf]
    by_cases hw : w.coord = u.gctl.coord
    · rw [if_pos hw]
      obtain ⟨hca, hoa, hka, hga⟩ := resumeLocal_found hk hc
      obtain ⟨hctx, hother⟩ := ih hka hca
      refine ⟨hctx.trans (congrArg some ?_), fun j hj => (hother j hj).trans (hoa j hj)⟩
      by_cases hst : c.st = .halt
      · rw [if_pos hst, if_neg fun h => st_resumed_ne c h.1, if_pos ⟨hst, w, List.mem_cons_self, hw⟩]
      · rw [if_neg hst, if_neg fun h => hst h.1, if_neg fun h => hst h.1]
    · rw [if_neg hw]
      have hsend := (sendMgmt_keeps (d := true) (L := 0x1fb4081) (switchId u w.coord) ([1, 0, 0, 0] ++ resumeEntry g) (.refl _ _ u) rfl).only
      have hctxs := hsend.ctxs (by decide)
      obtain ⟨hctx, hother⟩ := ih ((slotOf_congr hctxs g).trans hk) ((ctxOf_congr hctxs k).trans hc)
      rw [hsend.gctl (by decide)] at hctx
      refine ⟨hctx.trans (congrArg some ?_), fun j hj => (hother j hj).trans (ctxOf_congr hctxs j)⟩
      simp only [List.mem_cons, exists_eq_or_imp, hw, false_or]

/-- The group resumed at every switch of its tree. -/
theorem ctxOf_resumeAll {x : GroupRec} (hx : x.desc.group = g) (hk : slotOf u g = some k) (hc : ctxOf u k = some c) :
    ctxOf (resumeAll x u) k = some (if c.st = .halt ∧ ∃ w ∈ x.desc.switches, w.coord = u.gctl.coord then resumed c else c) ∧ ∀ j, j ≠ k → ctxOf (resumeAll x u) j = ctxOf u j := by
  subst hx
  exact each_resume (fun _ _ => rfl) hk hc

end

end Sys2Proof.Machine
end

section
/-! The creation of a group (R186, R187, R189): where its tree is elsewhere, and where it is this switch alone. -/

namespace Sys2Proof.Machine

/-! ## What the checks of a descriptor read -/

section
variable {s t : State} {d : Desc}

theorem memberAt_congr (h : t.mgr.reg = s.mgr.reg) : memberAt t = memberAt s := by
  unfold memberAt regOf
  rw [h]

theorem ranksUnder_congr (h : t.mgr.reg = s.mgr.reg) (d : Desc) (n : Nat) (x : Coord) : ranksUnder t d n x = ranksUnder s d n x := by
  induction n generalizing x with
  | zero => rfl
  | succ n ih => simp only [ranksUnder, memberAt_congr h, ih]

theorem childrenOf_congr (h : t.mgr.reg = s.mgr.reg) (d : Desc) (x : Coord) : childrenOf t d x = childrenOf s d x := by
  simp only [childrenOf, memberAt_congr h, ranksUnder_congr h]

/-- A switch's part of a descriptor rests on the registrations alone. -/
theorem allocOf_congr (h : t.mgr.reg = s.mgr.reg) (d : Desc) (w : SwRec) : allocOf t d w = allocOf s d w := by
  simp only [allocOf, childrenOf_congr h]

theorem createRefusal_congr (hreg : t.mgr.reg = s.mgr.reg) (hgrp : t.mgr.groups = s.mgr.groups) (hgctl : t.gctl = s.gctl) (hfuse : t.fuses = s.fuses) (htc : tcVc t = tcVc s) (d : Desc) :
    createRefusal t d = createRefusal s d := by
  have hok : descOk t d = descOk s d := by
    unfold descOk
    rw [htc]
  have hfmt : formatsOk t d = formatsOk s d := by
    unfold formatsOk sk2xCoord
    rw [hgctl, hfuse]
  have htree : treeOk t d = treeOk s d := by
    simp only [treeOk, memberAt_congr hreg, childrenOf_congr hreg]
  unfold createRefusal regOf
  rw [hok, hfmt, htree, hgrp, hreg]

/-- A state but for the command block, the counters of what is moved and the registry. -/
def besides (c : CmdSt) (b : DbgSt) (m : MgrSt) (s : State) : State := { s with cmd := c, dbg := b, mgr := m }

theorem createRefusal_besides {c : CmdSt} {b : DbgSt} {m : MgrSt} (hreg : m.reg = s.mgr.reg) (hgrp : m.groups = s.mgr.groups) (d : Desc) :
    createRefusal (besides c b m s) d = createRefusal s d :=
  createRefusal_congr (t := besides c b m s) (s := s) hreg hgrp rfl rfl rfl d

/-- The only switch of a tree that stands is its root. -/
theorem root_of_createRefusal {w : SwRec} (h : createRefusal s d = none) (hw : d.switches = [w]) : w.coord = d.root := by
  have htree : treeOk s d = true := by
    simp only [createRefusal] at h
    split_ifs at h with h1 h2 h3 h4 h5
    simpa using h5
  simp only [treeOk, hw, Bool.and_eq_true] at htree
  obtain ⟨⟨⟨hroot, -⟩, -⟩, -⟩ := htree
  cases hr : w.root with
  | true => simpa [hr] using hroot
  | false => simp [hr] at hroot

end

/-! ## The descriptor whole -/

section
variable {s u : State} {r : RingId} {h : CmdHdr} {b : CmdBody} {d : Desc} {ring : Option Nat}

/-- The last fragment has been taken: the ring waits for the creation. -/
def fragmentsTaken (r : Nat) (h : CmdHdr) (b : CmdBody) (len : Nat) (s : State) : State :=
  toBackground r (modMgr (fun m => { m with frags := tset [] m.frags r [] }) (countBytes 32 len (commandTaken r h b s)))

theorem atWork_fragmentsTaken (hi : Idle s r) (len : Nat) : AtWork s (fragmentsTaken r h b len s) r { newCmd h.ep h b with background := true } :=
  (((atWork_commandTaken hi).keep rfl rfl fun _ => rfl : AtWork s (modMgr (fun m => { m with frags := tset [] m.frags r [] }) (countBytes 32 len (commandTaken r h b s))) r _)).modCur _

/-- A group is entered in the registry, not live yet. -/
def asked (ring : Option Nat) (d : Desc) (s : State) : State :=
  modMgr (fun m => { m with askedAt := tset 0 m.askedAt d.group.toNat s.clock, groups := tset none m.groups d.group.toNat (some { desc := d, live := false, answers := [], ring := ring }) }) s

theorem groupOf_asked (ring : Option Nat) (d : Desc) (s : State) : groupOf (asked ring d s) d.group = some { desc := d, live := false, answers := [], ring := ring } := by
  rw [groupOf]
  exact tget_tset_eq none s.mgr.groups d.group.toNat (some { desc := d, live := false, answers := [], ring := ring })

/-- One switch asked to allocate. -/
def askSwitch (d : Desc) (w : SwRec) (s : State) : State :=
  if w.coord = s.gctl.coord then groupAnswer d.group (allocate (allocOf s d w) s).1 (allocate (allocOf s d w) s).2 else emit (.allocate w.coord (allocOf s d w)) s

theorem createGroup_asks (h : createRefusal u d = none) : createGroup ring d u = each d.switches (askSwitch d) (asked ring d u) := by
  unfold createGroup
  rw [h]
  refine congrArg (fun f => each d.switches f (asked ring d u)) (funext fun w => funext fun v => ?_)
  unfold askSwitch
  dsimp only

/-- Switches elsewhere are sent the allocation. -/
theorem each_askSwitch_away {l : List SwRec} (h : ∀ w ∈ l, w.coord ≠ u.gctl.coord) :
    each l (askSwitch d) u = { u with out := (l.map fun w => Out.allocate w.coord (allocOf u d w)).reverse ++ u.out } := by
  induction l generalizing u with
  | nil => rfl
  | cons w r ih =>
    obtain ⟨hw, hr⟩ := List.forall_mem_cons.1 h
    have hask : askSwitch d w u = emit (.allocate w.coord (allocOf u d w)) u := if_neg hw
    have hsame (w' : SwRec) : allocOf (emit (.allocate w.coord (allocOf u d w)) u) d w' = allocOf u d w' :=
      allocOf_congr (t := emit (.allocate w.coord (allocOf u d w)) u) (s := u) rfl d w'
    rw [each_cons, hask, ih (u := emit (.allocate w.coord (allocOf u d w)) u) hr]
    simp only [hsame, List.map_cons, List.reverse_cons, List.append_assoc, List.singleton_append]
    rfl

/-! ## The last fragment -/

theorem takeFragment_last {c : RunCmd} {ofs : Nat} {bs : List Byte} (hkey : fragKey r c.src = r.val) : takeFragment r c true ofs bs u =
    tryPost r (createGroup (some r.val) (descOf (patch (if ofs = 0 then [] else tget [] u.mgr.frags r.val) ofs bs)) (toBackground r (modMgr (fun m => { m with frags := tset [] m.frags r.val [] }) u))) := by
  simp only [takeFragment, hkey, if_true]

theorem takeFragment_more {c : RunCmd} {ofs : Nat} {bs : List Byte} (hkey : fragKey r c.src = r.val) (hofs : 0 < ofs) : takeFragment r c false ofs bs u =
    endCmd r 0 0 (modMgr (fun m => { m with frags := tset [] m.frags r.val (patch (tget [] u.mgr.frags r.val) ofs bs) }) u) := by
  simp only [takeFragment, hkey, hofs.ne', if_false, Bool.false_eq_true]

theorem mgr_fragmentAtHand (len : Nat) : (countBytes 32 len (commandTaken r h b s)).mgr = s.mgr := rfl

theorem stepCmd_lastFragment {len ofs : Nat} (hi : Idle s r) (hm : s.gctl.role = .manager) (hspace : h.space = 0) :
    stepCmd r (commandTaken r h (.groupCreate len true ofs) s) =
      tryPost r (createGroup (some r.val) (descOf (patch (if ofs = 0 then [] else tget [] s.mgr.frags r.val) ofs (rdBytes s.mem.host (dataAddr h 0) len)))
        (fragmentsTaken r h (.groupCreate len true ofs) len s)) := by
  have hmgr : isMgr s = true := beq_iff_eq.2 hm
  have hkey : fragKey r (newCmd h.ep h (.groupCreate len true ofs)).src = r.val := if_pos hi.host
  have hstep := stepCmd_groupCreate (r := r) (len := len) (last := true) (ofs := ofs) hspace hi.bme
  rw [if_pos hmgr, takeFragment_last hkey, mgr_fragmentAtHand] at hstep
  exact hstep

theorem fragmentsTaken_eq (r : Nat) (h : CmdHdr) (b : CmdBody) (len : Nat) (s : State) :
    ∃ c x, c.progCopy = s.cmd.progCopy ∧ fragmentsTaken r h b len s = besides c x { s.mgr with frags := tset [] s.mgr.frags r [] } s := ⟨(fragmentsTaken r h b len s).cmd, _, rfl, rfl⟩

theorem createRefusal_fragmentsTaken (len : Nat) (d : Desc) : createRefusal (fragmentsTaken r h b len s) d = createRefusal s d := by
  obtain ⟨c, x, -, hu⟩ := fragmentsTaken_eq r h b len s
  rw [hu]
  exact createRefusal_besides (m := { s.mgr with frags := tset [] s.mgr.frags r.val [] }) rfl rfl d

/-- The tree is elsewhere: every switch of it is asked, and the ring waits. -/
theorem runRow_asks {len ofs : Nat} (hi : Idle s r) (ha : addrRefused r h (.groupCreate len true ofs) = false) (hb : bodyRefused s (.groupCreate len true ofs) = false)
    (hm : s.gctl.role = .manager) (hspace : h.space = 0) (hd : d = descOf (patch (if ofs = 0 then [] else tget [] s.mgr.frags r.val) ofs (rdBytes s.mem.host (dataAddr h 0) len)))
    (hok : createRefusal s d = none) (haway : ∀ w ∈ d.switches, w.coord ≠ s.gctl.coord) :
    ∃ t, runRow r h (.groupCreate len true ofs) s = t ∧ groupOf t d.group = some { desc := d, live := false, answers := [], ring := some r.val } ∧
      t.out = (d.switches.map fun w => Out.allocate w.coord (allocOf s d w)).reverse ++ s.out ∧ (∃ c, (ringOf t r.val).cur = some c ∧ c.background = true ∧ c.result = none) ∧ t.ctxs = s.ctxs := by
  obtain ⟨x, hrow⟩ := runRow_idle hi ha hb
  have hw := atWork_fragmentsTaken (h := h) (b := .groupCreate len true ofs) hi len
  have hrefuse := (createRefusal_fragmentsTaken (r := r) (h := h) (b := .groupCreate len true ofs) (s := s) len d).trans hok
  obtain ⟨_, _, -, hu⟩ := fragmentsTaken_eq r h (.groupCreate len true ofs) len s
  rw [hrow, stepCmd_lastFragment hi hm hspace, ← hd]
  generalize fragmentsTaken r h (.groupCreate len true ofs) len s = u at hw hrefuse hu
  have hout : u.out = s.out := (congrArg State.out hu).trans rfl
  have hgctl : u.gctl = s.gctl := (congrArg State.gctl hu).trans rfl
  have hreg : u.mgr.reg = s.mgr.reg := (congrArg (fun a => a.mgr.reg) hu).trans rfl
  have hctxs : u.ctxs = s.ctxs := (congrArg State.ctxs hu).trans rfl
  have hcreate : createGroup (some r.val) d u = { asked (some r.val) d u with out := (d.switches.map fun w => Out.allocate w.coord (allocOf s d w)).reverse ++ s.out } := by
    have hsame (w : SwRec) : allocOf (asked (some r.val) d u) d w = allocOf s d w := allocOf_congr (t := asked (some r.val) d u) hreg d w
    have hfar : ∀ w ∈ d.switches, w.coord ≠ (asked (some r.val) d u).gctl.coord := fun w hm => fun e => haway w hm (e.trans (congrArg GctlSt.coord hgctl))
    rw [createGroup_asks hrefuse, each_askSwitch_away hfar]
    simp only [hsame]
    rw [← hout]
    rfl
  generalize hv : createGroup (some r.val) d u = v at hcreate
  have hcur : (ringOf v r).cur = some { newCmd h.ep h (.groupCreate len true ofs) with background := true } := by
    rw [hcreate]
    exact congrArg Ring.cur hw.ring
  have hwait : tryPost r v = v := by
    rw [tryPost, hcur]
    rfl
  rw [hwait]
  refine ⟨_, rfl, ?_, ?_, ⟨_, hcur, rfl, rfl⟩, ?_⟩
  · rw [hcreate]
    exact groupOf_asked (some r.val) d u
  · rw [hcreate]
    rfl
  · rw [hcreate]
    exact hctxs

/-- A fragment that is not the last is kept at its offset. -/
theorem runRow_keepsFragment {len ofs : Nat} (hi : Idle s r) (ha : addrRefused r h (.groupCreate len false ofs) = false) (hb : bodyRefused s (.groupCreate len false ofs) = false)
    (hm : s.gctl.role = .manager) (hspace : h.space = 0) (hofs : 0 < ofs) :
    ∃ t, runRow r h (.groupCreate len false ofs) s = t ∧ completed s t r h 0 0 1 ∧ tget [] t.mgr.frags r.val = patch (tget [] s.mgr.frags r.val) ofs (rdBytes s.mem.host (dataAddr h 0) len) := by
  have hmgr : isMgr s = true := beq_iff_eq.2 hm
  have hkey : fragKey r (newCmd h.ep h (.groupCreate len false ofs)).src = r.val := if_pos hi.host
  have hstep := stepCmd_groupCreate (r := r) (len := len) (last := false) (ofs := ofs) hspace hi.bme
  rw [if_pos hmgr, takeFragment_more hkey hofs, mgr_fragmentAtHand] at hstep
  have hw : AtWork s (countBytes 32 len (commandTaken r h (.groupCreate len false ofs) s)) r (newCmd h.ep h (.groupCreate len false ofs)) := (atWork_commandTaken hi).keep rfl rfl fun _ => rfl
  generalize countBytes 32 len (commandTaken r h (.groupCreate len false ofs) s) = u at hstep hw
  obtain ⟨t, ht, hdone, hmg, -, -, -⟩ := runRow_completes hi ha hb hstep (hw.keep rfl rfl fun _ => rfl) rfl rfl (Nat.one_lt_two_pow (by decide))
  refine ⟨t, ht, hdone, ?_⟩
  rw [hmg]
  exact tget_tset_eq [] u.mgr.frags r.val _

end

end Sys2Proof.Machine
end

section
/-! The creation of a group whose whole tree is this switch (R187, R189). -/

namespace Sys2Proof.Machine

/-! ## What an allocation reads -/

section
variable {s : State} {c : CmdSt} {b : DbgSt} {m : MgrSt} {a : AllocMsg}

theorem posOk_besides : posOk (besides c b m s) a = posOk s a := rfl

theorem validate_besides (hcopy : c.progCopy = s.cmd.progCopy) : validate (besides c b m s) a = validate s a := by
  have hstore : storeOf (besides c b m s) = storeOf s := by
    unfold storeOf
    rw [show (besides c b m s).cmd.progCopy = s.cmd.progCopy from hcopy]
    rfl
  have hprog : progOf (besides c b m s) = progOf s := by
    unfold progOf
    rw [hstore]
  unfold validate
  rw [hprog]
  rfl

theorem freeSlot_besides : freeSlot (besides c b m s) = freeSlot s := rfl

theorem homeFor_besides : homeFor (besides c b m s) a = homeFor s a := rfl

/-- The slot taken for a group that had none is the group's. -/
theorem slotOf_setCtx {g : GroupId} {k : Nat} {x : Ctx} (hnone : slotOf s g = none) (hx : x.spec.group = g) : slotOf (setCtx k (some x) s) g = some k := by
  have hk : ctxOf (setCtx k (some x) s) k = some x := tget_tset_eq none s.ctxs k (some x)
  rw [slotOf_eq] at hnone ⊢
  cases hfind : (liveSlots (setCtx k (some x) s)).find? fun j => (ctxOf (setCtx k (some x) s) j).any fun c => c.spec.group == g with
  | none =>
    refine absurd ?_ (List.find?_eq_none.1 hfind k (mem_liveSlots hk))
    rw [hk, Option.any_some, hx, beq_self_eq_true]
  | some j =>
    by_cases hj : j = k
    · rw [hj]
    · have htest := List.find?_some hfind
      have hother : ctxOf (setCtx k (some x) s) j = ctxOf s j := tget_tset_ne none s.ctxs (some x) hj
      rw [hother] at htest
      cases hy : ctxOf s j with
      | none =>
        rw [hy] at htest
        cases htest
      | some y => exact absurd htest (List.find?_eq_none.1 hnone j (mem_liveSlots hy))

end

/-! ## The only switch answers -/

section
variable {v : State} {w : SwRec} {g : GroupRec} {ans : AllocAns} {grp : GroupId} {n : Nat} {d : Desc}

/-- A reservation made. -/
def reservedAt (k x : Nat) (a : AllocMsg) (v : State) : State := setCtx k (some (newCtx v a x)) (modRed x (fun d => { d with freePages := d.freePages - pagesOf a }) v)

theorem allocate_accepts {a : AllocMsg} {k x : Nat} (hpos : posOk v a = true) (hval : validate v a = none) (hslot : freeSlot v = some k) (hhome : homeFor v a = some x) :
    (allocate a v).2 = reservedAt k x a v ∧ (allocate a v).1.coord = v.gctl.coord ∧ (allocate a v).1.status = 0 := by
  simp only [allocate, hpos, hval, hslot, hhome, Bool.not_true, Bool.false_eq_true, if_false]
  exact ⟨rfl, trivial, trivial⟩

/-- The record of a group, put in its place. -/
def relisted (n : Nat) (g : GroupRec) : State → State := modMgr fun m => { m with groups := tset none m.groups n (some g) }

theorem groups_relisted (n : Nat) (g : GroupRec) (v : State) : tget none (relisted n g v).mgr.groups n = some g := tget_tset_eq none v.mgr.groups n (some g)

theorem groupAnswer_only (hg : tget none v.mgr.groups grp.toNat = some g) (hlive : g.live = false) (hans : g.answers = []) (hsw : g.desc.switches = [w]) (hco : ans.coord = w.coord) :
    groupAnswer grp ans v = decideGroup grp.toNat (relisted grp.toNat { g with answers := [ans] } v) := by
  simp [groupAnswer, hg, hlive, answerOf, hans, hsw, hco, relisted]

/-- The only switch of a tree, here, has accepted: the group is live. -/
theorem decideGroup_only (hg : tget none v.mgr.groups n = some g) (hlive : g.live = false) (hans : g.answers = [ans]) (hsw : g.desc.switches = [w]) (hco : ans.coord = w.coord)
    (hst : ans.status = 0) (hroot : w.coord = g.desc.root) (hhere : w.coord = v.gctl.coord) (hpace : bitOf g.desc.mode 4 = false) :
    decideGroup n v = finishRing g.ring 0 0 (commitLocal g.desc.group false (relisted n { g with live := true, ring := none } v)) := by
  have hanswer : answerOf g w.coord = some ans := by
    rw [answerOf, hans]
    exact List.find?_cons_of_pos (decide_eq_true hco)
  have hcoord : w.coord = (relisted n { g with live := true, ring := none } v).gctl.coord := hhere
  simp only [decideGroup, hg, hlive, hsw, ← hroot, hanswer, hst, hpace, List.findSome?_cons, List.findSome?_nil, List.find?_cons, List.find?_nil, Bool.false_and, Bool.false_eq_true,
    if_false, if_true, Option.map_some, bne_self_eq_false]
  change finishRing g.ring 0 0 (if w.coord = (relisted n { g with live := true, ring := none } v).gctl.coord then _ else _) = _
  rw [if_pos hcoord]
  rfl

/-! ## The commit -/

section
variable {k : Nat} {c : Ctx} (hk : slotOf v grp = some k) (hc : ctxOf v k = some c)
include hk hc

/-- The context of a reservation committed. -/
theorem commitLocal_commits (hcom : c.committed = false) (hst : c.st = .reserved) :
    ∃ pi, ctxOf (commitLocal grp false v) k = some { c with st := .idle, committed := true, pi := pi } ∧ (∀ j, j ≠ k → ctxOf (commitLocal grp false v) j = ctxOf v j) ∧
      (commitLocal grp false v).mgr = v.mgr ∧ (commitLocal grp false v).cmd = v.cmd ∧ (commitLocal grp false v).mem = v.mem ∧ (commitLocal grp false v).red = v.red := by
  have hmap {β : Type} (f : State → β) (hf : ∀ d u a, f (modSwc d u a) = f a) : f (writeMap k c v) = f v := each_field f fun _ _ => hf ..
  have hctx (j : Nat) : ctxOf (writeMap k c v) j = ctxOf v j := hmap (fun a => ctxOf a j) fun _ _ _ => rfl
  simp only [commitLocal, hk, hc, hcom, Bool.false_and, iff_false, Bool.false_eq_true, if_false]
  refine ⟨progIdent c.spec.program.toNat ((progOf v c.spec.program.toNat).map Prod.snd) (progCrc (progOf v c.spec.program.toNat)), ?_, fun j hj => (ctxOf_modCtx_other _ hj).trans (hctx j), hmap State.mgr fun _ _ _ => rfl, hmap State.cmd fun _ _ _ => rfl, hmap State.mem fun _ _ _ => rfl,
    hmap State.red fun _ _ _ => rfl⟩
  rw [ctxOf_modCtx_same, hctx, hc, Option.map_some, if_pos hst]

end

end

/-! ## Asked, reserved, committed and completed -/

section
variable {s u : State} {r : RingId} {h : CmdHdr} {d : Desc} {w : SwRec} {k x : Nat} {a : AllocMsg}

/-- The reservation of a group's only switch, its record relisted with the answer and as live, and committed. -/
def liveAt (grp : GroupId) (n : Nat) (g₁ g₂ : GroupRec) (k x : Nat) (a : AllocMsg) (v : State) : State :=
  commitLocal grp false (relisted n g₂ (relisted n g₁ (reservedAt k x a v)))

/-- The only switch asked: what is left of the creation is the commit of its reservation. -/
theorem createGroup_only (hrefuse : createRefusal u d = none) (hw : d.switches = [w]) (hhere : w.coord = u.gctl.coord) (hroot : w.coord = d.root) (hpace : bitOf d.mode 4 = false)
    (ha : a = allocOf u d w) (hpos : posOk (asked (some r.val) d u) a = true) (hval : validate (asked (some r.val) d u) a = none) (hslot : freeSlot (asked (some r.val) d u) = some k)
    (hhome : homeFor (asked (some r.val) d u) a = some x) :
    ∃ l₁ l₂, createGroup (some r.val) d u = finishRing (some r.val) 0 0 (liveAt d.group d.group.toNat { desc := d, live := false, answers := l₁, ring := some r.val }
      { desc := d, live := true, answers := l₂, ring := none } k x a (asked (some r.val) d u)) := by
  have halloc : allocOf (asked (some r.val) d u) d w = a := (allocOf_congr (t := asked (some r.val) d u) (s := u) rfl d w).trans ha.symm
  obtain ⟨hres, hco, hst⟩ := allocate_accepts hpos hval hslot hhome
  have hask : askSwitch d w (asked (some r.val) d u) = groupAnswer d.group (allocate a (asked (some r.val) d u)).1 (reservedAt k x a (asked (some r.val) d u)) := by
    rw [askSwitch, halloc, hres]
    exact if_pos hhere
  have hcoord := hco.trans hhere.symm
  have hlisted : tget none (reservedAt k x a (asked (some r.val) d u)).mgr.groups d.group.toNat = some { desc := d, live := false, answers := [], ring := some r.val } := groupOf_asked (some r.val) d u
  generalize (allocate a (asked (some r.val) d u)).1 = ans at hask hcoord hst
  rw [createGroup_asks hrefuse, hw, each_cons, each_nil, hask, groupAnswer_only hlisted rfl rfl hw hcoord]
  refine ⟨[ans], [ans], ?_⟩
  exact decideGroup_only (groups_relisted ..) rfl rfl hw hcoord hst hroot hhere hpace

/-- A reservation for a group that had no context here, committed. -/
theorem reservation_committed {v : State} {grp : GroupId} {n : Nat} {g₁ g₂ : GroupRec} (hnone : slotOf v grp = none) (ha : a.group = grp) :
    ∃ c, ctxOf (liveAt grp n g₁ g₂ k x a v) k = some c ∧ c.st = .idle ∧ c.committed = true ∧ c.die = x ∧ c.spec = a ∧
      (∀ j, j ≠ k → ctxOf (liveAt grp n g₁ g₂ k x a v) j = ctxOf v j) ∧
      (liveAt grp n g₁ g₂ k x a v).mgr = (relisted n g₂ (relisted n g₁ (reservedAt k x a v))).mgr ∧
      (liveAt grp n g₁ g₂ k x a v).cmd = v.cmd ∧ (liveAt grp n g₁ g₂ k x a v).mem = v.mem ∧
      ∀ y, (redOf (liveAt grp n g₁ g₂ k x a v) y).locks = (redOf v y).locks := by
  unfold liveAt
  have hctx : ctxOf (relisted n g₂ (relisted n g₁ (reservedAt k x a v))) k = some (newCtx v a x) := tget_tset_eq none v.ctxs k (some (newCtx v a x))
  have hother (j : Nat) (hj : j ≠ k) : ctxOf (relisted n g₂ (relisted n g₁ (reservedAt k x a v))) j = ctxOf v j := tget_tset_ne none v.ctxs (some (newCtx v a x)) hj
  have hin : slotOf (modRed x (fun d => { d with freePages := d.freePages - pagesOf a }) v) grp = none := by rwa [slotOf_congr (modRed_ctxs ..)]
  have hres : slotOf (reservedAt k x a v) grp = some k := slotOf_setCtx hin ha
  have hslot : slotOf (relisted n g₂ (relisted n g₁ (reservedAt k x a v))) grp = some k := by rwa [relisted, relisted, slotOf_congr (modMgr_ctxs ..), slotOf_congr (modMgr_ctxs ..)]
  have hlocks (y : Nat) : (redOf (relisted n g₂ (relisted n g₁ (reservedAt k x a v))) y).locks = (redOf v y).locks :=
    redOf_modRed_field RedSt.locks (u := fun d => { d with freePages := d.freePages - pagesOf a }) (fun _ => rfl) x v y
  have hcmd : (relisted n g₂ (relisted n g₁ (reservedAt k x a v))).cmd = v.cmd := by
    rw [relisted, modMgr_cmd, relisted, modMgr_cmd, reservedAt, setCtx_cmd, modRed_cmd]
  have hmem : (relisted n g₂ (relisted n g₁ (reservedAt k x a v))).mem = v.mem := by
    rw [relisted, modMgr_mem, relisted, modMgr_mem, reservedAt, setCtx_mem, modRed_mem]
  generalize relisted n g₂ (relisted n g₁ (reservedAt k x a v)) = z at hctx hother hslot hlocks hcmd hmem
  obtain ⟨pi, hc, ho, hmg, hcm, hme, hre⟩ := commitLocal_commits hslot hctx rfl rfl
  exact ⟨_, hc, rfl, rfl, rfl, rfl, fun j hj => (ho j hj).trans (hother j hj), hmg, hcm.trans hcmd, hme.trans hmem,
    fun y => (congrArg RedSt.locks (redOf_congr hre y)).trans (hlocks y)⟩

/-- The tree is this switch alone, and its own allocation succeeds: the group is live when the command completes. -/
theorem runRow_creates {len ofs : Nat} (hi : Idle s r) (ha : addrRefused r h (.groupCreate len true ofs) = false) (hb : bodyRefused s (.groupCreate len true ofs) = false)
    (hm : s.gctl.role = .manager) (hspace : h.space = 0) (hd : d = descOf (patch (if ofs = 0 then [] else tget [] s.mgr.frags r.val) ofs (rdBytes s.mem.host (dataAddr h 0) len)))
    (hok : createRefusal s d = none) (hw : d.switches = [w]) (hhere : w.coord = s.gctl.coord) (hpace : bitOf d.mode 4 = false) (hnone : slotOf s d.group = none)
    (hpos : posOk s (allocOf s d w) = true) (hval : validate s (allocOf s d w) = none) (hslot : freeSlot s = some k) (hhome : homeFor s (allocOf s d w) = some x) :
    ∃ t c, runRow r h (.groupCreate len true ofs) s = t ∧ completed s t r h 0 0 1 ∧ (∃ g, groupOf t d.group = some g ∧ g.desc = d ∧ g.live = true) ∧
      ctxOf t k = some c ∧ c.st = .idle ∧ c.committed = true ∧ c.die = x ∧ c.spec = allocOf s d w ∧ ∀ j, j ≠ k → ctxOf t j = ctxOf s j := by
  obtain ⟨y, hrow⟩ := runRow_idle hi ha hb
  have hwork := atWork_fragmentsTaken (h := h) (b := .groupCreate len true ofs) hi len
  have hrefuse := (createRefusal_fragmentsTaken (r := r) (h := h) (b := .groupCreate len true ofs) (s := s) len d).trans hok
  obtain ⟨cmd, dbg, hcopy, hu⟩ := fragmentsTaken_eq r h (.groupCreate len true ofs) len s
  rw [hrow, stepCmd_lastFragment hi hm hspace, ← hd]
  generalize fragmentsTaken r h (.groupCreate len true ofs) len s = u at hwork hrefuse hu
  have hreg : u.mgr.reg = s.mgr.reg := (congrArg (fun a => a.mgr.reg) hu).trans rfl
  have hgctl : u.gctl = s.gctl := (congrArg State.gctl hu).trans rfl
  have halloc : allocOf s d w = allocOf u d w := (allocOf_congr hreg d w).symm
  have hv : ∃ m, asked (some r.val) d u = besides cmd dbg m s := by
    rw [hu]
    exact ⟨_, rfl⟩
  obtain ⟨l₁, l₂, hcreate⟩ := createGroup_only (r := r) (k := k) (x := x) (a := allocOf s d w) hrefuse hw (hhere.trans (congrArg GctlSt.coord hgctl).symm) (root_of_createRefusal hok hw) hpace halloc
    (by obtain ⟨m, hv⟩ := hv; rw [hv, posOk_besides, hpos]) (by obtain ⟨m, hv⟩ := hv; rw [hv, validate_besides hcopy, hval])
    (by obtain ⟨m, hv⟩ := hv; rw [hv, freeSlot_besides, hslot]) (by obtain ⟨m, hv⟩ := hv; rw [hv, homeFor_besides, hhome])
  have hctxs : (asked (some r.val) d u).ctxs = s.ctxs := (congrArg State.ctxs hu).trans rfl
  have hfree : slotOf (asked (some r.val) d u) d.group = none := (slotOf_congr hctxs d.group).trans hnone
  obtain ⟨c, hc, hst, hcom, hdie, hspec, hother, hmgr, hcmd, hmem, hlock⟩ := reservation_committed (k := k) (x := x) (n := d.group.toNat)
    (g₁ := { desc := d, live := false, answers := l₁, ring := some r.val }) (g₂ := { desc := d, live := true, answers := l₂, ring := none }) (a := allocOf s d w) hfree rfl
  have hlisted := hmgr ▸ groups_relisted d.group.toNat { desc := d, live := true, answers := l₂, ring := none } (relisted d.group.toNat { desc := d, live := false, answers := l₁, ring := some r.val }
    (reservedAt k x (allocOf s d w) (asked (some r.val) d u)))
  rw [hcreate]
  generalize liveAt d.group d.group.toNat { desc := d, live := false, answers := l₁, ring := some r.val } { desc := d, live := true, answers := l₂, ring := none } k x (allocOf s d w)
    (asked (some r.val) d u) = z at hc hother hcmd hmem hlock hlisted
  have hwork' : AtWork s z r { newCmd h.ep h (.groupCreate len true ofs) with background := true } := hwork.keep hcmd hmem hlock
  have hended := hwork'.modCur fun c => { c with result := some (BitVec.ofNat 16 0, 0) }
  have hfin : finishRing (some r.val) 0 0 z = modCur r (fun c => { c with result := some (BitVec.ofNat 16 0, 0) }) z := rfl
  have hkeep : Keeps true 0x400 z (modCur r (fun c => { c with result := some (BitVec.ofNat 16 0, 0) }) z) := modRing_keeps _ _ (.refl _ _ z) rfl
  rw [hfin]
  generalize modCur r (fun c => { c with result := some (BitVec.ofNat 16 0, 0) }) z = z' at hended hkeep
  have hdone := tryPost_completed hended hi.host hi.slot rfl (h := h) rfl rfl (Nat.one_lt_two_pow (by decide))
  have hrest := (tryPost_rest hended hi.host hi.slot rfl).only
  generalize tryPost r z' = t at hdone hrest
  have hctx (j : Nat) : ctxOf t j = ctxOf z j := (ctxOf_congr (hrest.ctxs (by decide)) j).trans (ctxOf_congr (hkeep.only.ctxs (by decide)) j)
  have hmg : t.mgr = z.mgr := (hrest.mgr (by decide)).trans (hkeep.only.mgr (by decide))
  refine ⟨withHalt y t, c, rfl, hdone, ⟨_, (congrArg (fun m : MgrSt => tget none m.groups d.group.toNat) hmg).trans hlisted, rfl, rfl⟩, (hctx k).trans hc, hst, hcom, hdie, hspec,
    fun j hj => (hctx j).trans ((hother j hj).trans (ctxOf_congr hctxs j))⟩

end

end Sys2Proof.Machine
end

section
/-! The group commands of a ring: O32. -/

namespace Sys2Proof.Machine

section
variable {s : State} {r : RingId} {h : CmdHdr} {g : GroupId} {num : StepNo}

/-! ## At a worker -/

/-- Any of the four, of operands that are not refused, goes to the acting manager. -/
theorem groupCommand_forwarded (hi : Idle s r) (hm : s.gctl.role ≠ .manager) {c : Instr} {body : CmdBody} {data : List Byte}
    (hcmd : c = .groupDelete r h g ∧ body = .groupDelete g ∧ data = [] ∨ c = .groupStop r h g num ∧ body = .groupStop g num ∧ data = [] ∨ c = .groupResume r h g ∧ body = .groupResume g ∧ data = [] ∨
      ∃ (len : BitVec 16) (last : Bool) (ofs : Word), c = .groupCreate r h len last ofs ∧ body = .groupCreate len.toNat last ofs.toNat ∧ h.space = 0 ∧ bodyRefused s body = false ∧
        addrRefused r.val h body = false ∧ data = rdBytes s.mem.host (dataAddr h 0) len.toNat) :
    ∃ t, exec c s = .next t ∧ t.out = .forwardCmd s.gctl.actingId h.tag body data :: s.out ∧ t.cmd.forwarded = s.cmd.forwarded ++ [(h.tag, r.val, s.clock)] ∧
      (∃ x, (ringOf t r.val).cur = some x ∧ x.body = body ∧ x.background = true ∧ x.result = none) ∧ t = { s with out := t.out, cmd := t.cmd, dbg := t.dbg } := by
  rcases hcmd with ⟨rfl, rfl, rfl⟩ | ⟨rfl, rfl, rfl⟩ | ⟨rfl, rfl, rfl⟩ | ⟨len, last, ofs, rfl, rfl, hspace, hb, ha, rfl⟩
  · obtain ⟨t, rfl, ht⟩ := runRow_forwards (b := .groupDelete g) hi rfl rfl rfl (stepCmd_groupDelete.trans (atManager_forwards hm))
    exact ⟨_, rfl, ht⟩
  · obtain ⟨t, rfl, ht⟩ := runRow_forwards (b := .groupStop g num) hi rfl rfl rfl (stepCmd_groupStop.trans (atManager_forwards hm))
    exact ⟨_, rfl, ht⟩
  · obtain ⟨t, rfl, ht⟩ := runRow_forwards (b := .groupResume g) hi rfl rfl rfl ((stepCmd_groupResume hi.host).trans (atManager_forwards hm))
    exact ⟨_, rfl, ht⟩
  · have hnot : ¬ isMgr s = true := fun e => hm (beq_iff_eq.1 e)
    have hstep := (stepCmd_groupCreate (r := r) (len := len.toNat) (last := last) (ofs := ofs.toNat) hspace hi.bme).trans (if_neg hnot)
    obtain ⟨t, rfl, ht⟩ := runRow_forwards hi ha hb rfl hstep
    exact ⟨_, rfl, ht⟩

/-! ## At the manager -/

/-- A group that is not known. -/
theorem groupCommand_unknown (hi : Idle s r) (hm : s.gctl.role = .manager) (hg : groupOf s g = none) {c : Instr} (hcmd : c = .groupDelete r h g ∨ c = .groupStop r h g num ∨ c = .groupResume r h g) :
    ∃ t, exec c s = .next t ∧ completed s t r.val h 3 0 0 ∧ t.mgr = s.mgr ∧ t.ctxs = s.ctxs := by
  rcases hcmd with rfl | rfl | rfl
  · obtain ⟨t, rfl, ht⟩ := runRow_unknown (b := .groupDelete g) hi rfl rfl hm hg stepCmd_groupDelete
    exact ⟨_, rfl, ht⟩
  · obtain ⟨t, rfl, ht⟩ := runRow_unknown (b := .groupStop g num) hi rfl rfl hm hg stepCmd_groupStop
    exact ⟨_, rfl, ht⟩
  · obtain ⟨t, rfl, ht⟩ := runRow_unknown (b := .groupResume g) hi rfl rfl hm hg (stepCmd_groupResume hi.host)
    exact ⟨_, rfl, ht⟩

section
variable {x : GroupRec} (hi : Idle s r) (hm : s.gctl.role = .manager) (hg : groupOf s g = some x) (hx : x.desc.group = g)
include hi hm hg

include hx in
theorem groupDelete_known : ∃ t, exec (.groupDelete r h g) s = .next t ∧ completed s t r.val h 0 0 1 ∧ groupOf t g = none ∧
    (∀ w ∈ x.desc.switches, w.coord ≠ s.gctl.coord → .deleteMsg w.coord g ∈ t.out) ∧
    ((x.desc.switches.map SwRec.coord).Nodup → ∀ (k : Nat) (c : Ctx), slotOf s g = some k → ctxOf s k = some c → (∀ j, j ≠ k → ctxOf t j = ctxOf s j) ∧
      ((∃ w ∈ x.desc.switches, w.coord = s.gctl.coord) → c.committed = false ∨ c.steps = [] ∧ c.ready = none ∧ (c.st = .idle ∨ c.st = .halt ∨ c.st = .lost) → ctxOf t k = none) ∧
      ((¬ ∃ w ∈ x.desc.switches, w.coord = s.gctl.coord) → ctxOf t k = some c)) := by
  have hk := (deleteGroup_keeps (d := true) (L := 0xecb1081) x.desc.group.toNat (.refl _ _ (commandTaken r h (.groupDelete g) s)) rfl).only
  obtain ⟨t, rfl, hdone, hmgr, hctxs, -, hout⟩ := runRow_known (b := .groupDelete g) hi rfl rfl rfl hm hg stepCmd_groupDelete (hk.cmd (by decide)) ((hk.mem (by decide)).trans rfl)
    fun y => locks_deleteGroup x.desc.group.toNat (commandTaken r h (.groupDelete g) s) y
  have hgu : groupOf (commandTaken r h (.groupDelete g) s) g = some x := hg
  refine ⟨_, rfl, hdone, (congrArg (fun m : MgrSt => tget none m.groups g.toNat) hmgr).trans (groupOf_deleteGroup hgu hx), fun w hw hne => hout.subset (deleteMsg_sent hgu hx hw hne),
    fun hn k c hslot hc => ?_⟩
  obtain ⟨hother, hfree, hkept⟩ := ctxOf_deleteGroup (u := commandTaken r h (.groupDelete g) s) hgu hx hn hslot hc
  have hctx (j : Nat) := ctxOf_congr hctxs j
  exact ⟨fun j hj => (hctx j).trans (hother j hj), fun hin hq => (hctx k).trans (hfree hin hq), fun hno => (hctx k).trans (hkept hno)⟩

include hx in
theorem groupStop_known : ∃ t, exec (.groupStop r h g num) s = .next t ∧ completed s t r.val h 0 0 1 ∧ t.mgr = s.mgr ∧
    (x.desc.root ≠ s.gctl.coord → t.ctxs = s.ctxs ∧ ∀ q : Pkt, pktOf t s.nextPid = some q → q.body = [5, 0, 0, 0, 0, 0, 0, 0] ∧ hPtype q.hdr = ptCtrl ∧ hGroup q.hdr = g.toNat ∧
      hStep q.hdr = num.toNat ∧ hDst q.hdr = switchId s x.desc.root % 2 ^ 20) ∧
    (∀ (k : Nat) (c : Ctx), x.desc.root = s.gctl.coord → slotOf s g = some k → ctxOf s k = some c →
      (c.st = .moving → ctxOf t k = some { c with held := c.held ++ [{ start := false, num := num, n := 0, scalars := [], arrived := fabT s }] }) ∧
      (∀ y : Step, c.st = .run → c.ready = none → c.steps = [y] → y.num = num → y.closed = false → c.deleting = false →
        (y.results = 0 → ∃ d, ctxOf t k = some d ∧ d.st = .idle ∧ d.steps = [] ∧ d.lastClosed = some (num, 1) ∧ d.lastStatus = 1) ∧
        (y.results ≠ 0 → ctxOf t k = some { c with stopHeld := true }))) := by
  have hk := (sendStop_keeps (d := true) (L := 0x7fb5081) x num (.refl _ _ (commandTaken r h (.groupStop g num) s)) rfl).only
  obtain ⟨t, rfl, hdone, hmgr, hctxs, hpkts, -⟩ := runRow_known (b := .groupStop g num) hi rfl rfl rfl hm hg stepCmd_groupStop (hk.cmd (by decide)) ((hk.mem (by decide)).trans rfl)
    fun y => locks_sendStop (x := x) (num := num) (commandTaken r h (.groupStop g num) s) y
  have hctx (j : Nat) := ctxOf_congr hctxs j
  refine ⟨_, rfl, hdone, hmgr.trans ((hk.mgr (by decide)).trans rfl), fun hroot => ⟨hctxs.trans (ctxs_sendStop_away (u := commandTaken r h (.groupStop g num) s) hroot), fun q hq => ?_⟩,
    fun k c hroot hslot hc => ?_⟩
  · rw [pktOf_congr hpkts] at hq
    have hsaid := pkt_sendStop_away (u := commandTaken r h (.groupStop g num) s) hroot hq
    rw [hx] at hsaid
    exact hsaid
  · have hcu : ctxOf (commandTaken r h (.groupStop g num) s) k = some c := hc
    have hstop : sendStop x num (commandTaken r h (.groupStop g num) s) = rootStop k num (commandTaken r h (.groupStop g num) s) :=
      sendStop_here (u := commandTaken r h (.groupStop g num) s) hroot (by rw [hx]; exact hslot)
    rw [hstop] at hctx
    refine ⟨fun hst => (hctx k).trans (ctxOf_rootStop_moving hcu hst), fun y hst hr hs hn hcl hdel => ?_⟩
    have ho : OneOpen c y num := ⟨hs, hn, hcl⟩
    refine ⟨fun hres => ?_, fun hres => (hctx k).trans (ctxOf_rootStop_held hcu hst hr ho hres)⟩
    obtain ⟨d, hd, hrest⟩ := ctxOf_rootStop_aborts hcu hst hr ho hdel hres
    exact ⟨d, (hctx k).trans hd, hrest⟩

include hx in
theorem groupResume_known : ∃ t, exec (.groupResume r h g) s = .next t ∧ completed s t r.val h 0 0 1 ∧ t.mgr = s.mgr ∧
    ∀ (k : Nat) (c : Ctx), slotOf s g = some k → ctxOf s k = some c → (∀ j, j ≠ k → ctxOf t j = ctxOf s j) ∧
      ctxOf t k = some (if c.st = .halt ∧ ∃ w ∈ x.desc.switches, w.coord = s.gctl.coord then
        { c with st := if openSteps c ≠ [] then .run else if c.ready.isSome then .ready else .idle, capture := {}, haltStatus := 0, haltDetail := 0 } else c) := by
  have hk := (resumeAll_keeps (d := true) (L := 0x5fb4081) x (.refl _ _ (commandTaken r h (.groupResume g) s)) rfl).only
  obtain ⟨t, rfl, hdone, hmgr, hctxs, -, -⟩ := runRow_known (b := .groupResume g) hi rfl rfl rfl hm hg (stepCmd_groupResume hi.host) (hk.cmd (by decide)) ((hk.mem (by decide)).trans rfl)
    fun y => congrArg RedSt.locks (redOf_congr (hk.red (by decide)) y)
  have hctx (j : Nat) := ctxOf_congr hctxs j
  refine ⟨_, rfl, hdone, hmgr.trans ((hk.mgr (by decide)).trans rfl), fun k c hslot hc => ?_⟩
  obtain ⟨hhere, hother⟩ := ctxOf_resumeAll (u := commandTaken r h (.groupResume g) s) hx hslot hc
  exact ⟨fun j hj => (hctx j).trans (hother j hj), (hctx k).trans hhere⟩

end

end

/-- Settles O32, at a worker and at the manager, the creation fragment by fragment. -/
theorem groupCommands : Obligations.GroupCommands := by
  intro r h g num s hidle
  have hi := idle_of_idleRing hidle
  refine ⟨fun hm c body data hcmd => groupCommand_forwarded hi hm hcmd, fun hm hg c hcmd => groupCommand_unknown hi hm hg hcmd,
    fun hm x hg hx => ⟨groupDelete_known hi hm hg hx, groupStop_known hi hm hg hx, groupResume_known hi hm hg hx⟩, fun hm len ofs hspace hb ha => ?_, fun hm len ofs hspace hb ha hofs => ?_⟩
  · have hzero : (ofs = 0) = (ofs.toNat = 0) := propext (BitVec.toNat_eq (y := 0#32))
    simp only [hzero]
    refine fun hok => ⟨fun haway => ?_, fun w k x hw hhere hpace hnone hpos hval hslot hhome => ?_⟩
    · obtain ⟨t, rfl, ht⟩ := runRow_asks hi ha hb hm hspace rfl hok haway
      exact ⟨_, rfl, ht⟩
    · obtain ⟨t, c, rfl, ht⟩ := runRow_creates hi ha hb hm hspace rfl hok hw hhere hpace hnone hpos hval hslot hhome
      exact ⟨_, c, rfl, ht⟩
  · obtain ⟨t, rfl, ht⟩ := runRow_keepsFragment hi ha hb hm hspace hofs
    exact ⟨_, rfl, ht⟩

end Sys2Proof.Machine
end
